-- ==== Sys2Proof/Word.lean ====
section
/-! DEFINITION. The word types of the ZD-1200 and the names of its numbered units (R11, R12, Table SC.4). -/

namespace Sys2Proof

abbrev Byte := BitVec 8
abbrev U16 := BitVec 16
abbrev W32 := BitVec 32
abbrev W64 := BitVec 64
/-- A 64-byte command image (R181); byte i is bits 8i to 8i + 7. -/
abbrev Image := BitVec 512

/-- Context ID, 0 to 4,095 (R172). -/
abbrev CtxId := BitVec 12
/-- Cluster ID: die [10:8], local index [7:0] (Table SC.4). -/
abbrev ClId := BitVec 11
/-- Device ID (R227). -/
abbrev DevId := BitVec 12
abbrev Die := Fin 8
/-- Port index 0 to 5: XP, XN, YP, YN, ZP, ZN. -/
abbrev PortId := Fin 6
/-- Stack M0 to M23. -/
abbrev StackId := Fin 24

/-- Bits [hi:lo] of a number, as a number (R11). -/
def bits (w hi lo : Nat) : Nat := (w >>> lo) % 2 ^ (hi + 1 - lo)

/-- Bit `i` of a number. -/
def bit (w i : Nat) : Bool := w.testBit i

end Sys2Proof
end

