-- ==== Sys2Proof/Syntax.lean ====
section
/-! DEFINITION. The commands of the block: one constructor of `Instr` per row of spec/opcode_table.json,
with the operands that come from outside the state (what the host writes, what arrives on a port, what a
sensor or a test reports). A row of an engine names the engine; the command the engine runs stands in State. -/

namespace Sys2Proof

/-- Stores of the host to its own memory that the device's next read sees (log 4). -/
abbrev HostStores := List (Nat × Byte)

/-- A link packet (Tables LK.2, LK.3); `payload` holds the LENGTH meaningful bytes. -/
structure Packet where
  ty : BitVec 4
  vc : BitVec 3
  dateline : Bool
  dst : DevId
  src : DevId
  job : U16
  dstCtx : CtxId
  srcCtx : CtxId
  cont : Bool
  length : BitVec 13
  step : W32
  target : W64
  aux : W64
  payload : List Byte
  /-- The link sequence number of the trailer (R220), as a packet that arrives carries it. -/
  lsn : W32 := 0
deriving DecidableEq, Repr

/-- An engine with a queue of its own (R184, Table CS.5). -/
inductive Engine where
  | matrix (cl : ClId)
  | vector (cl : ClId)
  | teller (cl : ClId)
  | dma (cl : ClId)
  | touch (d : Die)
  | mint
  | sync
  | bursar
  | cheap (cl : ClId)
  | strongroom
  | ledger
  | eval
deriving DecidableEq, Repr

/-- How a deposit reaches the addressed die (R16): over the edges from a die of this device, or over a link. -/
inductive DepositSrc where
  | edge (src dst : Die)
  | link (p : PortId) (pkt : Packet)
deriving DecidableEq, Repr

/-- How a Mint message arrives: from the collective engine, or over a link; a bundle longer than
4,096 bytes travels as two packets, the second with CONT set (R221). -/
inductive MintSrc where
  | engine
  | link (p : PortId) (pkt : Packet) (cont : Option Packet)
deriving DecidableEq, Repr

/-- An alarm event: the alarm bit and the context it belongs to, if any (R285). -/
structure AlarmEv where
  bit : BitVec 4
  ctx : Option CtxId
deriving DecidableEq, Repr

/-- What a PACE window close reads: 32 ring counts (die × 4 + ring), the Bursar's estimates in watts: device, per die
compute and stacks, memory and links above idle (R41, R245), and for each port the codewords its FEC corrected in the
window (R243, log 90). -/
structure WindowIn where
  rings : List U16
  est : U16
  dieW : List U16
  stackW : List U16
  memW : U16
  linkW : U16
  fec : List Nat := []
deriving DecidableEq, Repr

/-- The wait that a STRAGGLER ends: whose it is, whether a collective's or a control reduction's, and in which direction,
since all of them can wait at once (R241; log 89). -/
structure LateHalf where
  ctx : CtxId
  coll : Bool
  down : Bool
deriving DecidableEq, Repr

/-- What the Bursar saw of one die in the parts of a hint's span that are no whole window (R251): for each voltage point it
sat at, the time in µs and the mean compute draw (FP32), and the mean draw of its stacks above idle (FP32). -/
structure HintObs where
  die : Die
  segs : List (BitVec 5 × Nat × W32)
  mem : W32
deriving DecidableEq, Repr

/-- Operand of a fused-chain stage (Table VX.7). -/
inductive ChainArg where
  | prev
  | reg (r : BitVec 5)
  | imm (v : W32)
  | idx
  | stream (n : Fin 2)
deriving DecidableEq, Repr

/-- One stage of a fused chain: a full-rate operation and its operands, and the mask register a compare
writes. -/
structure ChainStage where
  op : Byte
  intTy : Bool
  a : ChainArg
  b : ChainArg
  c : ChainArg
  kd : BitVec 3 := 0
deriving DecidableEq, Repr

/-- The memory a fused chain addresses (Table VX.7). -/
inductive ChainSpace where
  | mem | till | teller | escrow
deriving DecidableEq, Repr

/-- A fused chain of the firmware: element count, stages, read streams (space, start, 16-bit elements),
write stream, and the optional final Tally reduction. -/
structure Chain where
  count : Nat
  stages : List ChainStage
  reads : List (ChainSpace × Nat × Bool)
  write : Option (ChainSpace × Nat)
  tally : Option (BitVec 4)
deriving DecidableEq, Repr

/-- Where a memory error is (R271, Table SG.5). -/
inductive ErrLoc where
  | hbm (addr : BitVec 41) (reader : Option CtxId)
  | cluster (cl : ClId) (off : BitVec 23)
  | till (cl : ClId) (entry : BitVec 9)
  | escrow (d : Die) (granule : U16)
deriving DecidableEq, Repr

/-- What a firmware image looks like to the ROM (R298). -/
structure FwImage where
  readable : Bool
  part : U16
  units : W32
  version : W32
  sigOk : Bool
deriving DecidableEq, Repr

/-- The replica's report on one restored page: does its copy match its record, its checksum, its bytes. -/
structure ReplicaPage where
  addr : BitVec 41
  matchesRec : Bool
  sum : W64
  data : List (Nat × Byte)
deriving DecidableEq, Repr

/-- The commands. -/
inductive Instr where
  -- register access (14_register_pages)
  | registerWrite (off : BitVec 26) (wide : Bool) (v : W64)
  | badAccess (off : BitVec 26) (size : Nat) (isRead : Bool)
  | blkAlarmClear (page : BitVec 14) (v : W32) (together : Option AlarmEv)
  | softReset (page : BitVec 14)
  | enablePort (p : PortId)
  | disablePort (p : PortId)
  | portTrainingDone (p : PortId) (good : W32) (peer : DevId)
  | msixWindowClose
  | devTimeLoRead
  | capDefaultWrite (v : W32)
  | profileWrite (v : W32)
  | torusCoordWrite (v : W32)
  | torusDimsWrite (v : W32)
  | laneMapWrite (p : PortId) (v : W32)
  | spareCommit (d : Die) (v : W32)
  | bootSrcWrite (v : W32)
  | bootNsidWrite (v : W32)
  | persistWriteDone (cell : Fin 20)
  | paceWindowClose (w : WindowIn)
  | paceClear (d : Die) (v : W32)
  -- matrix arrays and Till (03): `k` is the slot in the cluster's matrix queue
  | matmul (cl : ClId) (k : Nat)
  | matmulEntryWaitEnd (cl : ClId) (k : Nat)
  | drain (cl : ClId) (k : Nat)
  | fuseTileAccept (cl : ClId) (k : Nat)
  -- vector engine, Tally, Teller (04)
  | vec (cl : ClId)
  | vAdd (cl : ClId)
  | vSub (cl : ClId)
  | vMul (cl : ClId)
  | vFma (cl : ClId)
  | vMin (cl : ClId)
  | vMax (cl : ClId)
  | vAbs (cl : ClId)
  | vNeg (cl : ClId)
  | vCmp (cl : ClId)
  | vSel (cl : ClId)
  | vLogic (cl : ClId)
  | vShift (cl : ClId)
  | vCvt (cl : ClId)
  | vBcast (cl : ClId)
  | vIdx (cl : ClId)
  | vMaskOp (cl : ClId)
  | vKld (cl : ClId)
  | vKst (cl : ClId)
  | vLd (cl : ClId)
  | vSt (cl : ClId)
  | vTqpop (cl : ClId)
  | vExp2 (cl : ClId)
  | vLog2 (cl : ClId)
  | vRcp (cl : ClId)
  | vRsqrt (cl : ClId)
  | vTally (cl : ClId)
  | tallyResultWrite (cl : ClId)
  | tileQueueAccept (cl : ClId) (k : Nat)
  | fusedChain (cl : ClId) (c : Chain)
  | call (cl : ClId)
  | tellerIntegerOp (cl : ClId)
  | tellerImmediateOp (cl : ClId)
  | tellerFloatOp (cl : ClId)
  | tellerFcvt (cl : ClId)
  | tellerLw (cl : ClId)
  | tellerSw (cl : ClId)
  | tellerBranch (cl : ClId)
  | tellerJmp (cl : ClId)
  | tellerGetq (cl : ClId)
  | tellerGetqa (cl : ClId)
  | tellerGetqf (cl : ClId)
  | tellerIssue (cl : ClId)
  | tellerWaitq (cl : ClId)
  | tellerRet (cl : ClId)
  | tellerFail (cl : ClId)
  | tellerWaitEnd (cl : ClId)
  -- Touchstone and Escrow (05)
  | teacher (d : Die)
  | student (d : Die)
  | gradient (d : Die)
  | featureLoss (d : Die)
  | resetStats (d : Die)
  | teacherGroupAccept (cl : ClId) (k : Nat)
  | escrowDeposit (src : DepositSrc)
  | passSGroupAccept (cl : ClId) (k : Nat)
  | passBGroupAccept (cl : ClId) (k : Nat)
  | partApply (d : Die) (v : W32)
  | partApplyDone (d : Die) (c : CtxId)
  -- numerics (06)
  | stepClose (c : CtxId)
  | localQuiesce (c : CtxId)
  | jobAgreement (c : CtxId)
  | stepAdvance (c : CtxId)
  | censusFlush (v : W32)
  | censusFlushDone (c : CtxId)
  | censusCounterSpill (d : Die) (c : CtxId) (cls : BitVec 4)
  | censusBaseLoWrite (v : W32)
  | censusBaseHiWrite (v : W32)
  | lsStateWrite (v : W32)
  | lsStepWrite (v : W32)
  -- DMA engine (03, 07, 09, 11)
  | copy (cl : ClId) (h : HostStores)
  | transpose (cl : ClId) (h : HostStores)
  | spillOut (cl : ClId)
  | spillIn (cl : ClId) (h : HostStores)
  | vaultPush (cl : ClId) (h : HostStores)
  | vaultPop (cl : ClId)
  | tellerLoad (cl : ClId) (h : HostStores)
  -- Mint (08)
  | update (c : CtxId)
  | updateArmResume (c : CtxId) (desc : BitVec 12)
  | mintOpen (src : MintSrc)
  | mintBundle (src : MintSrc)
  | reorderBundleApply (m : StackId) (c : CtxId) (desc : BitVec 12)
  | pass2Start (c : CtxId) (desc : BitVec 12)
  | updateComplete (c : CtxId) (desc : BitVec 12)
  | descApply (v : W32)
  | descApplyDone (c : CtxId)
  | mintTableBaseWrite (off : BitVec 12) (v : W32)
  -- contexts and scheduling (09)
  | ctxCreate
  | ctxStart
  | ctxStop
  | ctxReset
  | ctxDestroy
  | ctxDefinitionWrite (off : BitVec 12) (v : W32)
  | dbTailWrite (c : CtxId) (v : W32)
  | cplHeadWrite (c : CtxId) (v : W32)
  | commandAccept (c : CtxId) (h : HostStores)
  | commandDispatch (e : Engine)
  | commandComplete (e : Engine) (k : Nat)
  | completionRecordWrite (c : CtxId)
  | swapIn (c : CtxId)
  | swapInDone (c : CtxId)
  | cheap (c : CtxId) (cl : ClId)
  | cheapPointSave (c : CtxId)
  | preemptTimeout (c : CtxId)
  | saveDone (c : CtxId)
  | eviction
  | contextFault (c : CtxId) (code : U16) (detail : W64) (cmd : W32) (unit : U16)
  | scrubDone (c : CtxId)
  | signal (c : CtxId)
  | waitGe (c : CtxId)
  | waitCmd (c : CtxId)
  | syncWaitSatisfied (c : CtxId) (seq : W32)
  | semOwnerWrite (v : W32)
  | hint (c : CtxId)
  | evalBegin (c : CtxId)
  | evalEnd (c : CtxId)
  | potDataWrite (v : W32)
  -- Ledger (10)
  | seqOpen (c : CtxId)
  | seqGather (c : CtxId)
  | seqCommit (c : CtxId)
  | seqPause (c : CtxId)
  | seqResume (c : CtxId)
  | seqFree (c : CtxId)
  | seqSet (c : CtxId)
  | seqAdapterLoad (c : CtxId)
  | seqVariantLoad (c : CtxId) (readOk : Bool) (h : HostStores)
  | lgEntRangeWrite (v : W32)
  | lgAdpRangeWrite (v : W32)
  | lgApply (v : W32)
  -- links (11)
  | linkWrite (p : PortId) (pkt : Packet)
  | creditReturn (p : PortId) (pkt : Packet)
  | creditRequest (p : PortId) (pkt : Packet)
  | refusal (p : PortId) (pkt : Packet)
  | linkAck (p : PortId) (pkt : Packet)
  | collChunk (p : PortId) (pkt : Packet)
  | ctrlReduce (p : PortId) (pkt : Packet)
  | mirror (p : PortId) (pkt : Packet)
  | heartbeat (p : PortId) (pkt : Packet)
  | reservedPacketDiscard (p : PortId) (pkt : Packet)
  | linkCreditBlock (p : PortId) (credits : List (Nat × Nat)) (ackLsn : Option W32)
  | linkNack (p : PortId) (lsn : W32)
  | packetTransmit (p : PortId)
  | laneFail (p : PortId) (lane : BitVec 5)
  | laneRestripeDone (p : PortId)
  | peerLag (p : PortId)
  | selfLag
  | peerSilent (p : PortId)
  | collStart (c : CtxId)
  | collDone (c : CtxId)
  | straggler (w : LateHalf)
  | lkCtxRegWrite (off : BitVec 12) (v : W32)
  | vcCfgWrite (p : PortId) (vc : Fin 8) (v : W32)
  -- Bursar (12)
  | hintExpire (no : Nat) (span : Nat) (obs : List HintObs)
  | powerWindow (w : Option U16)
  | holdEnter
  | holdRelease (v : W32)
  | capWrite (v : W32)
  | shareOrderWrite (v : W32)
  | voltageStep
  | capGatePeriod (d : Die) (us : BitVec 6)
  | droopGateClose (d : Die)
  | droopGateOpen (d : Die)
  | thermalCheck (dieC : List Byte) (stackC : List Byte)
  | thermTrip
  -- Strongroom and self-test (13)
  | setApply (v : W32)
  | mirrorDeltaAck (c : CtxId)
  | epochTimer (c : CtxId)
  | epochNow (c : CtxId)
  | teacherSeal (c : CtxId)
  | pageTouch (page : BitVec 25)
  | touchCopyDone (page : BitVec 25)
  | shipPage (c : CtxId)
  | epochSeal (c : CtxId)
  | tierLost
  | tierReset (v : W32)
  | hostAckWrite (v : W32)
  | restoreGo (v : W32)
  | restoreValidate (c : CtxId) (replica : List ReplicaPage)
  | correctableError (loc : ErrLoc)
  | uncorrectableError (loc : ErrLoc)
  | teacherRefetchDone (page : BitVec 25) (data : List (Nat × Byte))
  | testReq (v : W32)
  | unitWithdrawn
  | testDone (pass : Bool)
  -- boot, pins, SMBus, JTAG (15)
  | hbmRetrain (m : StackId) (pc : BitVec 5)
  | patrolScrub (m : StackId) (corrected : Nat) (ue : Option (BitVec 41))
  | perstAssert
  | perstDeassert
  | fwPushGo (v : W32)
  | firmwareLoadDone (img : FwImage)
  | bootSparing (pass : List (BitVec 160))
  | sramInit (ok : Bool)
  | hbmTraining (good : BitVec 24) (staticW : U16)
  | linkTraining (good : List W32) (peers : List DevId)
  | bootReady
  | supplyFault
  | regulatorFault
  | tsyncEdge
  | setTime (v : W64)
  | smbusReadPart
  | smbusReadBootStatus
  | smbusReadTemperatures
  | smbusReadPower
  | smbusReadAlarms
  | smbusReadTime
  | pcieLinkDown
  | pcieLinkUp
  | crcFail (p : PortId) (lsn : W32)
  | powerLoss (keepNew : BitVec 20)
  | msixVectorUnmask (v : BitVec 13)
  | jtagTap (tms tdi trst : Bool) (pins : List Bool)
deriving DecidableEq, Repr

end Sys2Proof
end

