-- ==== Sys2Proof/Config.lean ====
section
/-! DEFINITION. What an implementation fixes and the manual does not, and the free values.
Each is a constant without a body: nothing can be proved of its value. -/

namespace Sys2Proof

/-- DEV_SERIAL (Table RG.5): the manual gives no value. -/
opaque Config.serial : W64

/-- The `n`-th free value: a result the manual calls undefined or does not state (log 13). -/
opaque Config.freeWord : Nat → W32

/-- Width of the JTAG instruction register (R308 gives none). -/
opaque Config.irWidth : Nat

/-- The public instruction an instruction-register content selects, when it is not all ones:
`0` IDCODE, `1` SAMPLE/PRELOAD, `2` EXTEST, anything else BYPASS (R308 gives no codes). -/
opaque Config.irCode : List Bool → Nat

/-- Number of boundary cells on the sideband and reference-clock signals (R308 gives none). -/
opaque Config.boundaryCells : Nat

/-- The FEATURE loss of a context that has given no FEATURE_LOSS operation (R110 states none): COS or MSE,
and its weight (log 59). -/
opaque Config.featCos : Bool
opaque Config.featWeight : W32

/-- The shape of a legacy command's tile beyond its tile counts: does it have 8 rows, is its accumulator
half-width (Table MX.11)? No field of the command's layout is given for either (log 64). -/
opaque Config.legacyEight : Image → Bool
opaque Config.legacyHalf : Image → Bool

/-- The watts that a demand entry which is no finite number stands for (R251 gives none; log 24). -/
opaque Config.demandOf : W32 → W32

/-- What an element of a 16-bit read stream of a fused chain becomes in a lane (Table VX.7 gives no format; log 69). -/
opaque Config.chain16 : U16 → W32

/-- Is the NVMe namespace of a number usable for `n` bytes: of the format of R308 and with room for them (Table SG.3;
log 91)? The flash is outside the device. -/
opaque Config.flashUsable : W32 → Nat → Bool

/-- Byte `j` of the parts of the `k`-th state record to which the manual gives no layout (R262; log 91). -/
opaque Config.recordByte : Nat → Nat → Byte

/-- NEXT_TOKEN of entry `e` after the `n`-th OPEN of its context, where Table LG.3 states none (R198; log 79). -/
opaque Config.openToken : Nat → Nat → W32

end Sys2Proof
end

