-- ==== Sys2Proof/Machine/SMap.lean ====
section
/-! DEFINITION. Sparse maps from numbers to plain data in one canonical form: keys strictly rising,
no entry equal to the default. Memories, register files and tables of the device are of this form. -/

namespace Sys2Proof.Machine

/-- A sparse map; an unlisted key reads as the map's default. -/
abbrev SMap (α : Type) := List (Nat × α)

namespace SMap

variable {α : Type}

/-- The value at `k`; keys rise, so the search ends at the first larger key. -/
def get (d : α) : SMap α → Nat → α
  | [], _ => d
  | (k', v) :: t, k => if k < k' then d else if k = k' then v else get d t k

/-- Drop the leading entries whose key is at most `k`. -/
def dropTo (k : Nat) : SMap α → SMap α
  | [] => []
  | (k', v) :: t => if k' ≤ k then dropTo k t else (k', v) :: t

/-- Store `v` at `k`; storing the default removes the entry. -/
def set [DecidableEq α] (d : α) : SMap α → Nat → α → SMap α
  | [], k, v => if v = d then [] else [(k, v)]
  | (k', v') :: t, k, v =>
    if k < k' then (if v = d then (k', v') :: t else (k, v) :: (k', v') :: t)
    else if k = k' then (if v = d then dropTo k t else (k, v) :: t)
    else (k', v') :: set d t k v

/-- Apply `f` to the value at `k`. -/
def upd [DecidableEq α] (d : α) (m : SMap α) (k : Nat) (f : α → α) : SMap α :=
  set d m k (f (get d m k))

/-- The keys of the listed entries, each once. -/
def keys : SMap α → List Nat
  | [] => []
  | p :: t => if (keys t).contains p.1 then keys t else p.1 :: keys t

/-- Every listed key that `p` holds of returns to the default. -/
def drop [DecidableEq α] (d : α) (p : Nat → Bool) (m : SMap α) : SMap α :=
  ((keys m).filter p).foldl (fun a k => set d a k d) m

/-- Every key from `lo` up to but not including `hi` returns to the default. -/
def clear [DecidableEq α] (d : α) (lo hi : Nat) (m : SMap α) : SMap α :=
  drop d (fun k => decide (lo ≤ k) && decide (k < hi)) m

/-- The entries from `lo` up to but not including `hi`, keyed from 0. -/
def slice [DecidableEq α] (d : α) (lo hi : Nat) (m : SMap α) : SMap α :=
  ((keys m).filter fun k => decide (lo ≤ k) && decide (k < hi)).foldl (fun a k => set d a (k - lo) (get d m k)) []

/-- Replace keys `lo` to `lo + n - 1` by the entries of `src` below `n`. -/
def splice [DecidableEq α] (d : α) (lo n : Nat) (m src : SMap α) : SMap α :=
  ((keys src).filter fun k => decide (k < n)).foldl (fun a k => set d a (lo + k) (get d src k)) (clear d lo (lo + n) m)

/-- The map of the values `f 0` to `f (n - 1)`. -/
def ofFn [DecidableEq α] (d : α) (n : Nat) (f : Nat → α) : SMap α :=
  (List.range n).filterMap fun i => if f i = d then none else some (i, f i)

/-- Apply `f` to the value of every listed key. -/
def mapV [DecidableEq α] (d : α) (f : Nat → α → α) (m : SMap α) : SMap α :=
  (keys m).foldl (fun a k => upd d a k (f k)) m

/-- Keys strictly above `k`, rising, and no default entry. -/
def wfFrom [DecidableEq α] (d : α) : Nat → SMap α → Bool
  | _, [] => true
  | lo, (k, v) :: t => decide (lo ≤ k) && decide (v ≠ d) && wfFrom d (k + 1) t

/-- The canonical form. -/
def wf [DecidableEq α] (d : α) (m : SMap α) : Bool := wfFrom d 0 m

end SMap

/-- Byte memory: an unlisted address reads 0 (log 5). -/
abbrev Mem := SMap Byte

namespace Mem

def read (m : Mem) (a : Nat) : Byte := SMap.get 0 m a

def write (m : Mem) (a : Nat) (b : Byte) : Mem := SMap.set 0 m a b

/-- `n` bytes from `a`, little-endian, as a number (R12). -/
def readN (m : Mem) (a : Nat) : Nat → Nat
  | 0 => 0
  | n + 1 => (read m a).toNat + 256 * readN m (a + 1) n

def read16 (m : Mem) (a : Nat) : U16 := BitVec.ofNat 16 (readN m a 2)
def read32 (m : Mem) (a : Nat) : W32 := BitVec.ofNat 32 (readN m a 4)
def read64 (m : Mem) (a : Nat) : W64 := BitVec.ofNat 64 (readN m a 8)

/-- Store the low `n` bytes of `v`, little-endian. -/
def writeN (m : Mem) (a : Nat) : Nat → Nat → Mem
  | 0, _ => m
  | n + 1, v => writeN (write m a (BitVec.ofNat 8 v)) (a + 1) n (v / 256)

/-- Store a list of bytes. -/
def writeBytes (m : Mem) (a : Nat) : List Byte → Mem
  | [] => m
  | b :: t => writeBytes (write m a b) (a + 1) t

/-- `n` bytes from `a` as a list. -/
def readBytes (m : Mem) (a n : Nat) : List Byte := (List.range n).map fun i => read m (a + i)

/-- Store a list of (address, byte) pairs, in order. -/
def stores (m : Mem) : List (Nat × Byte) → Mem
  | [] => m
  | p :: t => stores (write m p.1 p.2) t

/-- The canonical form of a memory. -/
def wf (m : Mem) : Bool := SMap.wf 0 m

end Mem

/-- The value of little-endian bytes. -/
def leNat : List Byte → Nat
  | [] => 0
  | b :: t => b.toNat + 256 * leNat t

/-- The low `n` bytes of a number, little-endian. -/
def leBytes : Nat → Nat → List Byte
  | 0, _ => []
  | n + 1, v => BitVec.ofNat 8 v :: leBytes n (v / 256)

/-- A map of 32-bit words; an unlisted word is 0. -/
abbrev Words := SMap W32

namespace Words
def get (m : Words) (i : Nat) : W32 := SMap.get 0 m i
def set (m : Words) (i : Nat) (v : W32) : Words := SMap.set 0 m i v
def ofFn (n : Nat) (f : Nat → W32) : Words := SMap.ofFn 0 n f
end Words

end Sys2Proof.Machine
end

