-- ==== Sys2Proof/Machine/Parts.lean ====
section
/-! DEFINITION. The parts of the device's state, one structure per unit, as plain data. Default values are
the reset values: the ones the manual gives, or the ones log entries 6 and 7 name. -/

namespace Sys2Proof.Machine

/-! ### Boot, registers, time (14, 15) -/

/-- Boot state, the running settings and the pins (R289, R296 to R303); `lossHit`: the last loss of power met a
cell that was BUSY (R294). -/
structure Boot where
  powered : Bool := true
  perst : Bool := true
  railGood : Bool := true
  stage : BitVec 4 := 0
  failed : Bool := false
  error : Byte := 0
  srcUsed : Bool := false
  sparFailed : Byte := 0
  stackFailed : Byte := 0
  fwVersion : W32 := 0
  pushLo : W32 := 0
  pushHi : W32 := 0
  pushLen : U16 := 0
  pushed : Bool := false
  profile : BitVec 2 := 0
  options : BitVec 4 := 0
  coord : BitVec 12 := 0
  dims : BitVec 12 := 0
  tripped : Bool := false
  pwrAlert : Bool := false
  supplyLatched : Bool := false
  hostUp : Bool := false
  linksDone : Bool := false
  lossHit : Bool := false
deriving DecidableEq, Repr

/-- The select registers of the device-wide pages (R281). -/
structure Sel where
  csCtx : CtxId := 0
  nuCtx : CtxId := 0
  mtCtx : CtxId := 0
  lgCtx : CtxId := 0
  lkCtx : CtxId := 0
  sgCtx : CtxId := 0
  ctxstat : CtxId := 0
  lgEnt : BitVec 14 := 0
  lgAdp : BitVec 9 := 0
  remap : BitVec 4 := 0
  persist : BitVec 5 := 0
  demand : BitVec 7 := 0
  sem : BitVec 14 := 0
  pot : BitVec 25 := 0
  vec : BitVec 6 := 0
deriving DecidableEq, Repr

/-- One persistent cell (R292 to R295): accepted value, value before a write in progress, wear, flags. -/
structure Cell where
  val : BitVec 160 := 0
  old : BitVec 160 := 0
  wear : Nat := 0
  busy : Bool := false
  exhausted : Bool := false
  wearHigh : Bool := false
  lastRefused : Bool := false
  interrupted : Bool := false
deriving DecidableEq, Repr

/-- The writable part of a page header (R282). -/
structure Hdr where
  alarm : U16 := 0
  mask : U16 := 0
  action : W32 := 0x55555555#32
  seq : W32 := 0
deriving DecidableEq, Repr

/-- One MSI-X vector (R286): masked as PCIe resets it (log 8). -/
structure MsiVec where
  masked : Bool := true
  pend : Bool := false
  sent : Bool := false
  held : Bool := false
deriving DecidableEq, Repr

/-- The IRQ page (Table RG.4) and the MSI-X vectors. -/
structure Irq where
  vecMap : SMap (Option (BitVec 6)) := []
  order : List Nat := []
  lastCtx : Option CtxId := none
  holdSrc : Option Nat := none
  holdBits : List (Nat × Nat) := []
  vec : SMap MsiVec := []
  log : List Nat := []
deriving DecidableEq, Repr

/-- Local and device time (R306, R307), in steps of 6.4 ns and in fifths of a nanosecond. -/
structure Time where
  steps : Nat := 0
  true5 : Nat := 0
  shown5 : Nat := 0
  setTime : Option W64 := none
  hiLatch : W32 := 0
deriving DecidableEq, Repr

/-- The states of the IEEE 1149.1 TAP controller. -/
inductive Tap where
  | reset | idle | selDr | capDr | shiftDr | exit1Dr | pauseDr | exit2Dr | updDr
  | selIr | capIr | shiftIr | exit1Ir | pauseIr | exit2Ir | updIr
deriving DecidableEq, Repr

/-- The supported JTAG instructions (Table EL.4). -/
inductive JInstr where
  | bypass | idcode | sample | extest
deriving DecidableEq, Repr

structure Jtag where
  tap : Tap := .reset
  instr : JInstr := .idcode
  ir : List Bool := []
  dr : List Bool := []
  drive : List Bool := []
  tdo : Bool := false
deriving DecidableEq, Repr

/-- The last SMBus answer (R310). -/
structure Smb where
  data : List Byte := []
  nack : Bool := false
deriving DecidableEq, Repr

/-! ### Sparing, PACE, power (02, 12) -/

structure Spare where
  staged : BitVec 160 := 0
  applied : BitVec 160 := 0
  fail : BitVec 160 := 0
  reject : Bool := false
  failed : Bool := false
deriving DecidableEq, Repr

structure Pace where
  min : U16 := 0
  mean : U16 := 0
  low : U16 := 0xFFFF
  seq : W32 := 0
  ring : Byte := 0
deriving DecidableEq, Repr

/-- The windows that closed while a hint governed a die at one voltage point (R251): their time in µs, and the draw of the
die and of its stacks, in W·µs. -/
structure HintSeen where
  die : Nat
  point : BitVec 5
  us : Nat := 0
  draw : Nat := 0
  stack : Nat := 0
deriving DecidableEq, Repr

/-- A phase hint (R248, R249); `no` is its dispatch number, `mask` its dies, `live` those on which no later
hint of the same context has superseded it, `seen` what the Bursar estimated over its windows. -/
structure HintRec where
  no : Nat
  ctx : CtxId
  cls : BitVec 4
  dur : W32
  mask : Byte
  live : Byte
  ruled : Byte := 0
  seen : List HintSeen := []
deriving DecidableEq, Repr

structure Bursar where
  cap : BitVec 12 := 0
  capClamped : Bool := false
  capIn : BitVec 12 := 0
  measured : U16 := 0
  measuredOk : Bool := false
  est : U16 := 0
  memW : U16 := 0
  linkW : U16 := 0
  shareOrder : BitVec 6 := 0x24
  shift : BitVec 4 := 3
  freeze : Bool := false
  hold : Bool := false
  holdCount : W32 := 0
  overWindows : Nat := 0
  regFails : Nat := 0
  staticW : U16 := 0
  demand : SMap (W32 × W32) := []
  divDuty : BitVec 7 := 64
  ramping : Bool := false
  raiseWait : Nat := 0
  memRate : BitVec 5 := 16
  linkRate : BitVec 5 := 16
  selfLag : Bool := false
  hints : List HintRec := []
  hintNo : Nat := 0
deriving DecidableEq, Repr

/-- The power page of a die (Table PW.5) and its gates; stack rates are in sixteenths. -/
structure DiePower where
  point : BitVec 5 := 0
  target : BitVec 5 := 0
  allow : BitVec 5 := 25
  duty : BitVec 7 := 64
  heatDuty : BitVec 7 := 64
  capOpen : Bool := true
  droop : Bool := false
  droopSeen : Bool := false
  droopCount : W32 := 0
  throttle : Bool := false
  thermDie : Bool := false
  thermStack : Bool := false
  temp : Byte := 0
  stackTemp : Byte := 0
  tempHigh : Byte := 0
  computeW : U16 := 0
  stackW : U16 := 0
  gatedUs : W32 := 0
  rates : BitVec 15 := 0x4210
deriving DecidableEq, Repr

/-! ### Contexts and scheduling (09) -/

/-- Context states (Table CS.2), in code order. -/
inductive CtxSt where
  | unused | stopped | out | loading | resident | saving | scrubbing | faulted
deriving DecidableEq, Repr

/-- A checked cluster descriptor (Table CS.1); sizes in the table's units. -/
structure CluDesc where
  cl : ClId := 0
  tillBase : Nat := 0
  tillLog : Nat := 0
  memBase : Nat := 0
  memSize : Nat := 0
  vaultBase : Nat := 0
  vaultSize : Nat := 0
  vaultStacks : Nat := 0
  tellerPages : Nat := 0
  save : Nat := 0
  image : Nat := 0
deriving DecidableEq, Repr

/-- A command in an engine's hands: its context, number, image, and whether a Teller issued it. -/
structure QE where
  ctx : CtxId
  seq : W32
  img : Image
  issued : Bool
  acc : Nat
deriving DecidableEq, Repr

/-- Where an accepted command stands (R180). -/
inductive Phase where
  | queued | dispatched | waiting | completed
deriving DecidableEq, Repr

structure Flight where
  seq : W32
  img : Image
  phase : Phase
  acc : Nat
  since : Nat := 0
deriving DecidableEq, Repr

/-- A completion record (Table CS.4) before its CPL_SEQ is given. -/
structure Rec where
  cmd : W32
  kind : BitVec 2
  code : U16
  unit : U16
  detail : W64
  time : W64
  irq : Bool
deriving DecidableEq, Repr

/-- A record that the full record buffer keeps waiting (R179): of a command that waits to complete, or, with no command,
of an event or a fault. -/
structure LateEnd where
  q : Option QE
  record : Rec
deriving DecidableEq, Repr

/-! ### Clusters (03, 04, 07) -/

/-- A Till entry: 256 words and the tag of Table MX.4. -/
structure TillE where
  words : Words := []
  cls : BitVec 2 := 0
  sat : Bool := false
  long : Bool := false
  nf : Bool := false
  head : Bool := false
  kcount : BitVec 17 := 0
  handle : BitVec 9 := 0
  shape : Nat := 0
deriving DecidableEq, Repr

/-- What a conversion reports: TOTAL, SAT, FLUSH, NAN. -/
structure Tally4 where
  total : Nat := 0
  sat : Nat := 0
  flush : Nat := 0
  nan : Nat := 0
deriving DecidableEq, Repr

/-- A tile at the fuse stage's output: its place in the loop, its entry, its 256 element codes, the block
scale of each row (FP4), its mask bits, and what is reported once its destination has taken it (R60): the largest finite
magnitude, where it has one, and the conversions of its elements and of its block scales. -/
structure Offer where
  tile : Nat
  entry : Nat
  codes : Words
  scales : List Nat
  mask : Nat
  peak : Option W32 := none
  elems : Tally4 := {}
  blocks : Tally4 := {}
deriving DecidableEq, Repr

/-- A Touchstone group accepted before all its tiles are in: its landing address (pass B) and the geometry
its deposits take (teacher pass). -/
structure Grant where
  land : Nat := 0
  mode : BitVec 2 := 0
  segs : Nat := 0
  k : Nat := 0
deriving DecidableEq, Repr

/-- A command in the matrix queue and its progress through the tile loop. -/
structure MxRun where
  q : QE
  started : Bool := false
  waiting : Bool := false
  tile : Nat := 0
  drained : Nat := 0
  acked : Nat := 0
  offers : List Offer := []
  vaultAt : Option Nat := none
  since : Nat := 0
  grant : Option Grant := none
  done : Bool := false
deriving DecidableEq, Repr

structure VecRun where
  pc : Nat := 0
  rep : Nat := 0
  waiting : Bool := false
  since : Nat := 0
  done : Bool := false
deriving DecidableEq, Repr

/-- A reduction that has read its registers and not yet written its result (R85, R87). -/
structure TallyJob where
  ctx : CtxId
  seq : W32
  code : Nat
  value : W32
  aux : W32
  toq : Bool
  accum : Bool
  dest : Nat
deriving DecidableEq, Repr

structure QTile where
  ctx : CtxId
  fmt : Nat
  codes : Words
  scales : List Nat
deriving DecidableEq, Repr

structure Summary where
  value : W32 := 0
  aux : W32 := 0
  valid : Bool := false
  ovr : Bool := false
deriving DecidableEq, Repr

/-- A Teller wait (R91): on a summary register, on a full queue, on completions. -/
inductive TelWait where
  | none | getq | issue | waitq
deriving DecidableEq, Repr

structure Tel where
  q : QE
  regs : Words
  pc : Nat
  budget : Nat
  wait : TelWait := .none
  since : Nat := 0
  ended : Bool := false
deriving DecidableEq, Repr

/-- A landing ring (R105): base in 128-byte units, slots, fill and release indices, filled slots. -/
structure Ring where
  base : Nat := 0
  slots : Nat := 0
  fill : Nat := 0
  rel : Nat := 0
  full : List Nat := []
deriving DecidableEq, Repr

structure VStack where
  top : Nat := 0
  recs : Nat := 0
deriving DecidableEq, Repr

/-- A context's state on one cluster beyond the shared units; `ran` tells that a command has completed there since its
last CHEAP. -/
structure CtxCl where
  ring : Ring := {}
  vault : SMap VStack := []
  cheap : Bool := false
  ran : Bool := false
  live : Nat := 0
  full : Bool := false
  tpages : List Nat := []
  q : SMap Summary := []
deriving DecidableEq, Repr

structure Cluster where
  mem : Mem := []
  till : SMap TillE := []
  mq : List MxRun := []
  vq : List QE := []
  vrun : Option VecRun := none
  dq : List QE := []
  ddone : Bool := false
  dwait : Bool := false
  dleft : Nat := 0
  callq : List QE := []
  tel : Option Tel := none
  v : Words := []
  k : SMap W64 := []
  tally : List TallyJob := []
  tileq : List QTile := []
  imem : SMap W64 := []
  per : SMap CtxCl := []
  service : Bool := false
  failed : Bool := false
  memCe : W32 := 0
  fused : List (W32 × W32) := []
deriving DecidableEq, Repr

/-! ### Touchstone and Escrow (05) -/

/-- An Escrow slot (Tables TS.2 to TS.4); an unlisted BASE is the unfilled marker. -/
structure Slot where
  state : BitVec 2 := 0
  filled : Nat := 0
  poison : Bool := false
  nf : Bool := false
  final : Bool := false
  token : W32 := 0
  srcDev : DevId := 0
  srcDie : BitVec 3 := 0
  invTau : W32 := 0
  m : W32 := 0
  s : W32 := 0
  pTail : W32 := 0
  base : SMap W32 := []
  sigma : Words := []
  data : SMap U16 := []
  idx : Words := []
deriving DecidableEq, Repr

/-- Partition geometry (R95, Table TS.7). -/
structure Geo where
  base : Nat := 0
  size : Nat := 0
  mode : BitVec 2 := 0
  segs : Nat := 0
  k : Nat := 0
  opens : Nat := 0
deriving DecidableEq, Repr

structure TeacherOp where
  dev : DevId
  die : BitVec 3
  ctx : CtxId
  t : W32
  count : Nat
  invTau : W32
deriving DecidableEq, Repr

structure StudentOp where
  t : W32
  count : Nat
  invTau : W32
  wSoft : W32
  wHard : W32
  cl : ClId
  label : Nat
  loss : Nat
  noGrad : Bool
deriving DecidableEq, Repr

/-- The GRADIENT operation; `g` is G of R100. -/
structure GradOp where
  t : W32
  count : Nat
  g : W32
  rnd : Bool
  tid : W32
  step : W32
  elemBase : Nat
  ring : Nat
  slots : Nat
deriving DecidableEq, Repr

structure FeatOp where
  cos : Bool
  w : W32
deriving DecidableEq, Repr

/-- A shadow copy of a remote partition's C and geometry (R98); `c` is none until a return arrives. -/
structure Shadow where
  dev : DevId
  die : BitVec 3
  ctx : CtxId
  c : Option W32
  slots : Nat
  segs : Nat
  mode : BitVec 2
  k : Nat
  asked : Bool
deriving DecidableEq, Repr

/-- A context's partition on a die, and the TOUCH operations its commands have set there, each with its command
number (R115: an operation governs later commands, in command order). -/
structure Part where
  stg : Geo := {}
  geo : Geo := {}
  valid : Bool := false
  reject : Bool := false
  busy : Bool := false
  c64 : W64 := 0
  deposit : W64 := 0
  withdrawn : List Nat := []
  slots : SMap Slot := []
  poisonCount : W32 := 0
  poisonLimit : W32 := 0xFFFFFFFF#32
  nfCount : W32 := 0
  stall : W32 := 0
  pairs : List (DevId × CtxId × W32) := []
  refusing : Bool := false
  teacher : List (W32 × TeacherOp) := []
  student : List (W32 × StudentOp) := []
  grad : List (W32 × GradOp) := []
  feat : List (W32 × FeatOp) := []
  shadow : List Shadow := []
deriving DecidableEq, Repr

/-- Statistics of one segment in the token table (R103, R110). -/
structure SegStat where
  c : W32
  s : W32
  s1 : W32
  d : W32
deriving DecidableEq, Repr

/-- A token-table entry (R107); `teacher` entries serve the TOPK selection of R108. -/
structure TokE where
  ctx : CtxId
  tok : W64
  teacher : Bool
  segs : SMap (Option SegStat) := []
  ylab : W32 := 0
  ysel : Words := []
  sel : List (Nat × W32) := []
  merged : Bool := false
  m : W32 := 0
  s : W32 := 0
  s1 : W32 := 0
  qTail : W32 := 0
  landed : List Nat := []
  nf : Bool := false
  label : W32 := 0xFFFFFFFF#32
  stu : Option StudentOp := none
  tea : Option TeacherOp := none
deriving DecidableEq, Repr

/-- A deposit on its way over the edges (R16): one segment, or a whole TOPK slot. -/
structure Deposit where
  src : Die
  dst : Die
  ctx : CtxId
  token : W32
  seg : Nat
  mode : BitVec 2
  invTau : W32
  base : W32
  sigma : W32
  data : SMap U16
  slot : Option Slot
deriving DecidableEq, Repr

structure TouchDie where
  sel : CtxId := 0
  part : SMap Part := []
  tok : List TokE := []
  dep : List Deposit := []
  tq : List QE := []
  raw : Mem := []
  service : Bool := false
  failed : Bool := false
deriving DecidableEq, Repr

/-! ### Numerics (06) -/

/-- A step close in progress (Table NU.7). -/
inductive ClosePhase where
  | issued | quiesced | agreed | flushed
deriving DecidableEq, Repr

structure CloseRun where
  seq : W32
  step : W32
  phase : ClosePhase
  word : Bool
  ovf : Bool
  epoch : Bool
deriving DecidableEq, Repr

/-- The numerics registers of a context; `pendOvf` holds the stamps of the overflow reports that wait for their step
close (R132). -/
structure Numerics where
  seed : W64 := 0
  e : Byte := 16
  ePrev : Byte := 16
  clean : U16 := 0
  step : W32 := 0
  eMin : Byte := 0
  eMax : Byte := 32
  interval : U16 := 2000
  ovfCount : W32 := 0
  pendOvf : List W32 := []
  close : Option CloseRun := none
  censusBase : W64 := 0
  censusLo : Option W32 := none
  flushBusy : Bool := false
deriving DecidableEq, Repr

/-! ### Mint (08) -/

structure MintCtx where
  descBase : W64 := 0
  descCount : BitVec 13 := 0
  coeffBase : W64 := 0
  strict : Bool := false
  instBase : W64 := 0
  instCount : BitVec 13 := 0
  instCoeff : W64 := 0
  valid : Bool := false
  reject : Bool := false
  busy : Bool := false
  first : BitVec 12 := 0
  frozenCount : W32 := 0
  nonfinite : W32 := 0
  updates : W32 := 0
deriving DecidableEq, Repr

structure MintUnit where
  elems : W32 := 0
  busyBeats : W32 := 0
  lastFault : W32 := 0
  service : Bool := false
  failed : Bool := false
deriving DecidableEq, Repr

/-- A layer descriptor as read (Table MT.1). -/
structure Desc where
  rows : Bool := false
  wFmt : Nat := 0
  mFmt : Nat := 0
  vFmt : Nat := 0
  coeff : Nat := 0
  step : W32 := 0
  lastDone : W32 := 0
  bcOrigin : W32 := 0
  tidW : W32 := 0
  tidM : W32 := 0
  tidV : W32 := 0
  nRows : Nat := 0
  nCols : Nat := 0
  stripe : Nat := 0
  wBase : Nat := 0
  mBase : Nat := 0
  vBase : Nat := 0
  wsBase : Nat := 0
  rowTable : Nat := 0
  normDest : W32 := 0
  clipSrc : W32 := 0
  resv : Bool := false
deriving DecidableEq, Repr

/-- A coefficient entry as read (Table MT.3). -/
structure Coeff where
  modes : Nat := 0
  a1 : W32 := 0
  b1 : W32 := 0
  a2 : W32 := 0
  b2 : W32 := 0
  e1 : W32 := 0
  e2 : W32 := 0
  e3 : W32 := 0
  eps : W32 := 0
  gClip : W32 := 0
  uClip : W32 := 0
  phiMax : W32 := 0
  factEps : W32 := 0
deriving DecidableEq, Repr

/-- A gradient bundle (R157): first element (dense) or row and column (rows). -/
structure Bundle where
  ctx : CtxId
  desc : BitVec 12
  step : W32
  first : Nat
  col : Nat
  count : Nat
  fp32 : Bool
  vals : List W32
  lenOk : Bool
deriving DecidableEq, Repr

/-- One Mint's part in an update: where it stands in its share, what waits, and its sums. -/
structure Share where
  stack : Nat
  armed : Bool := false
  next : Nat := 0
  nextCol : Nat := 0
  begun : Bool := false
  applied : Nat := 0
  reorder : List Bundle := []
  norm : W32 := 0
  nw : W32 := 0
  nu : W32 := 0
  rowSum : Words := []
  colSum : Words := []
  pass2 : Bool := false
  held : List (Nat × W32) := []
  skips : List Nat := []
deriving DecidableEq, Repr

/-- An UPDATE from arming to completion (R156 to R166). -/
structure Update where
  ctx : CtxId
  seq : W32
  desc : BitVec 12
  step : W32
  eta : W32
  lam : W32
  d : Desc
  c : Coeff
  clip : W32
  frozen : Bool
  scale : W32 := 0
  opened : Bool := false
  total : Nat := 0
  shares : List Share
  nonfinite : Bool := false
deriving DecidableEq, Repr

/-! ### Ledger (10) -/

/-- A Ledger entry (Table LG.1); page lists hold pool indices in position order. -/
structure Entry where
  state : BitVec 3 := 0
  inStep : Bool := false
  manifest : BitVec 2 := 0
  pausePend : Bool := false
  freePend : Bool := false
  compressed : Bool := false
  late : Bool := false
  trunc : Bool := false
  draftLen : Nat := 0
  drafted : Nat := 0
  preState : BitVec 3 := 0
  owner : CtxId := 0
  prio : Byte := 0
  variant : Byte := 0
  length : Nat := 0
  maxLen : Nat := 0
  promptLeft : Nat := 0
  deadline : W32 := 0
  nextToken : W32 := 0
  user : W32 := 0
  pages : List Nat := []
  cpages : List Nat := []
  cold : Nat := 0
  pauseExact : Bool := false
  slot : BitVec 9 := 0
  adpEn : Bool := false
  version : U16 := 0
deriving DecidableEq, Repr

structure AdpBank where
  version : U16 := 0
  rank : Byte := 0
  addr : W64 := 0
  refs : U16 := 0
deriving DecidableEq, Repr

structure AdpSlot where
  cur : AdpBank := {}
  old : AdpBank := {}
deriving DecidableEq, Repr

/-- A row of an outstanding manifest: entry, COUNT, and whether it was a prompt row. -/
structure MRow where
  entry : Nat
  count : Nat
  prompt : Bool
deriving DecidableEq, Repr

structure Manifest where
  phase : BitVec 2
  rows : List MRow
deriving DecidableEq, Repr

structure LgCtx where
  entFirst : Nat := 0
  entCount : Nat := 0
  adpFirst : Nat := 0
  adpCount : Nat := 0
  kvCfg : Byte := 0
  poolBase : W64 := 0
  poolCount : Nat := 0
  linkBase : W64 := 0
  iKv : Byte := 0
  iPool : W64 := 0
  iCount : Nat := 0
  iLink : W64 := 0
  valid : Bool := false
  reject : Bool := false
  free : List Nat := []
  variant : Byte := 0
  opens : Nat := 0
  poolSkip : W32 := 0
  staleSkip : W32 := 0
  miss : W32 := 0
  manifests : SMap (Option Manifest) := []
deriving DecidableEq, Repr

/-! ### Links (11) -/

structure Filter where
  valid : Bool := false
  job : U16 := 0
  ctx : CtxId := 0
  types : U16 := 0
deriving DecidableEq, Repr

structure VcCfg where
  credits : Nat
  weight : Nat
deriving DecidableEq, Repr

/-- A frame on the wire: link sequence number, packet, CRC-32C (R220). -/
structure Frame where
  lsn : W32
  pkt : Packet
  crc : W32
deriving DecidableEq, Repr

/-- A control block (R220): credits of classes (channel × 2 + dateline) given back, an acknowledge or a negative
acknowledge of a link sequence number, or the lanes in service (R237). -/
inductive CtlBlock where
  | credits (l : List (Nat × Nat))
  | ack (lsn : W32)
  | nack (lsn : W32)
  | lanes (m : W32)
deriving DecidableEq, Repr

/-- Port states (Table LK.9), in code order. -/
inductive PortSt where
  | down | training | up | degraded
deriving DecidableEq, Repr

/-- A port. `used` counts the credits held of each class, from the transmit queue to their return (R224, R225);
`owed` the credits to give back; `rxNext` the next link sequence number to take; `ackDue` the last one taken and not
yet acknowledged; `laneMap` the LANE_MAP of its last training and `mayUse` those of its lanes that were good then and have
not failed since (R237, R292); `rxq` the packets taken that wait for their context or their memory, oldest first; `wire` and
`blocks` what the port has sent. -/
structure Port where
  st : PortSt := .down
  lanes : W32 := 0
  failed : W32 := 0
  restripe : Bool := false
  recal : Bool := false
  laneBad : Bool := false
  laneMap : W32 := 0
  mayUse : W32 := 0
  peer : DevId := 0
  fecCorr : W32 := 0
  fecUncorr : W32 := 0
  crcRetry : W32 := 0
  filterDrop : W32 := 0
  hbLast : W32 := 0
  peerLag : Bool := false
  peerSilent : Bool := false
  lagRun : Nat := 0
  okRun : Nat := 0
  silentRun : Nat := 0
  vc : SMap (Option VcCfg) := []
  filterSel : Byte := 0
  filter : SMap Filter := []
  txq : List Packet := []
  used : SMap Nat := []
  owed : SMap Nat := []
  replay : List Frame := []
  lsn : W32 := 0
  rr : Nat := 0
  wire : List Frame := []
  nacks : List W32 := []
  rxNext : W32 := 0
  ackDue : Option W32 := none
  blocks : List CtlBlock := []
  rxq : List Packet := []
  jobBits : List CtxId := []
  jobSeen : List U16 := []
deriving DecidableEq, Repr

/-- A control reduction in progress (R236): the axis it is on, its operation, the words taken from each side. -/
structure Reduce where
  axis : Nat
  sum : Bool
  own : W32
  acc : W32
  gotP : Nat := 0
  gotN : Nat := 0
  done : Bool := false
deriving DecidableEq, Repr

/-- A running collective (R232 to R235). -/
structure Coll where
  op : Nat
  wire32 : Bool
  bidir : Bool
  srcFmt : Nat
  devs : List DevId
  pos : Nat
  elems : Nat
  step : W32
  srcs : List (Nat × Nat × Nat)
  dst : W64
  doneSem : BitVec 14
  addend : W32
  number : U16
  res : Words := []
  got : SMap Bool := []
  passed : SMap Bool := []
  sent : Nat := 0
deriving DecidableEq, Repr

/-- The links state of a context; `early` keeps the words of axes still to come: from the N side?, axis, SUM_I?,
word. -/
structure LkCtx where
  jobOrigin : DevId := 0
  jobExtent : BitVec 12 := 0
  collqBase : W64 := 0
  collqLog : BitVec 4 := 0
  collSem : BitVec 14 := 0
  collDone : W32 := 0
  started : Nat := 0
  units : Nat := 0
  coll : Option Coll := none
  red : Option Reduce := none
  early : List (Bool × Nat × Bool × W32) := []
deriving DecidableEq, Repr

structure Links where
  loop : List Packet := []
  collTimeout : U16 := 2000
  remap : SMap W32 := []
  dropFaulted : W32 := 0
  selfLag : Bool := false
  lagRun : Nat := 0
  jobFirst : Nat := 0
  toMint : List (Bundle × Bool) := []
deriving DecidableEq, Repr

/-! ### Strongroom and self-test (13) -/

/-- A set item (Table SG.1); `kind` is the whole KIND word. -/
structure Item where
  kind : W32
  tid : W32
  base : Nat
  len : Nat
deriving DecidableEq, Repr

structure PageRec where
  page : Nat
  sum : W64
  data : Mem
deriving DecidableEq, Repr

/-- The pinned copy of a generation: MIRROR items and the state record (R262, R265). -/
structure Pinned where
  mirror : List (Nat × Nat × Mem) := []
  num : Numerics := {}
  census : Mem := []
  table : Option (Nat × Nat × Nat) := none
  desc : Mem := []
  coeff : Mem := []
  entries : List (Nat × Entry) := []
  slots : List (Nat × AdpSlot) := []
deriving DecidableEq, Repr

structure Gen where
  step : W32
  tier : Nat
  pages : List PageRec
  pin : Pinned
deriving DecidableEq, Repr

/-- A snapshot epoch (Table SG.2); `staged` gives the staging slot of each page copied there. -/
structure Epoch where
  step : W32
  prot : List Nat
  copying : List Nat := []
  staged : List (Nat × Nat) := []
  shipped : List PageRec := []
  pin : Pinned := {}
deriving DecidableEq, Repr

/-- The Strongroom's state of a context; `acks` counts its MIRROR packets that are not acknowledged, `restoreWait` is
set while an accepted RESTORE_GO waits. -/
structure SgCtx where
  setBase : W64 := 0
  setCount : BitVec 11 := 0
  items : List Item := []
  valid : Bool := false
  reject : Bool := false
  first : BitVec 10 := 0
  stageBase : W64 := 0
  stageSize : U16 := 0
  period : U16 := 240
  sealed : W32 := 0
  mirrorStep : W32 := 0
  skip : W32 := 0
  restoreStep : W32 := 0
  restoreStatus : BitVec 2 := 0
  refetched : BitVec 24 := 0
  replica : DevId := 0
  teacherSrc : DevId := 0
  due : Bool := false
  epoch : Option Epoch := none
  delta : Option W32 := none
  deltaPin : Pinned := {}
  image : Pinned := {}
  dirty : List Nat := []
  teacherRec : SMap (Option W64) := []
  gens : List Gen := []
  acks : Nat := 0
  restoreWait : Bool := false
deriving DecidableEq, Repr

/-- The Strongroom page; `mirrorPos` is where the next bytes for tier 1 go, `hostSent` the number of the last block
written at HOST_BASE, `outbox` the blocks that wait for the host to take it, `scrub` the pages given to a new owner
that wait for an epoch before they are zeroed, `ueAt` the addresses with an uncorrectable error that nothing has
written since. -/
structure Strong where
  partner : DevId := 0
  reserveBase : W64 := 0
  reserveSize : BitVec 24 := 0
  flashNsid : W32 := 0
  hostBase : W64 := 0
  hostAck : W32 := 0
  tierActive : BitVec 2 := 0
  lost : List Nat := []
  ceCount : W32 := 0
  ueRefetch : W32 := 0
  ueLog : W64 := 0
  refetch : List (Nat × CtxId) := []
  mirrorPos : Nat := 0
  hostSent : W32 := 0
  outbox : List (CtxId × List Byte) := []
  scrub : List Nat := []
  ueAt : List Nat := []
  adds : List (Nat × Nat × Nat) := []
deriving DecidableEq, Repr

structure SelfTest where
  req : W32 := 0
  svcBase : W64 := 0
  svcAt : W64 := 0
  st : BitVec 2 := 0
  pass : Bool := false
  fail : Bool := false
  unitFailed : Option (BitVec 14) := none
  heldTill : SMap TillE := []
  heldImem : SMap W64 := []
deriving DecidableEq, Repr

end Sys2Proof.Machine
end

