-- ==== Sys2Proof/Machine/State.lean ====
section
/-! DEFINITION. The state of the device, the reasons a step can stop, and the state right after reset. -/

namespace Sys2Proof.Machine

/-- Reasons the machine stops with a fault. -/
inductive Fault where
  /-- Raised by the rows of received packets when the payload has a length to which the manual gives no
  meaning for that packet type (log 14). Safe: the hardware may go on, the model says nothing of it. -/
  | payload (ty : Nat)
deriving DecidableEq, Repr

/-- Reasons a step has no meaning. -/
inductive Refusal where
  /-- A row that this model has not given its meaning yet: raised by its arm in Dispatch. Safe. -/
  | notModelled (mnemonic : String)
deriving DecidableEq, Repr

/-- A semaphore (R182). -/
structure Sem where
  owner : CtxId := 0
  valid : Bool := false
  value : W32 := 0
deriving DecidableEq, Repr

/-- A context: its definition, its sequence counters and its commands (R172 to R191, R291). -/
structure Ctx where
  st : CtxSt := .unused
  priority : BitVec 4 := 0
  legacy : Bool := false
  exclusive : Bool := false
  job : U16 := 0
  ringBase : W64 := 0
  ringN : BitVec 5 := 6
  ringM : BitVec 5 := 6
  cplBase : W64 := 0
  cltabBase : W64 := 0
  cltabCount : BitVec 11 := 1
  saveBase : W64 := 0
  cltab : List CluDesc := []
  cmdReject : Bool := false
  startErr : BitVec 3 := 0
  lastFault : U16 := 0
  tail : W32 := 0
  acceptSeq : W32 := 0
  dispatchSeq : W32 := 0
  completeSeq : W32 := 0
  cplWritten : W32 := 0
  cplHead : W32 := 0
  recs : List Rec := []
  late : List LateEnd := []
  flight : List Flight := []
  evalOpen : Bool := false
  preemptReq : Bool := false
  askedBy : List Nat := []
  stopReq : Bool := false
  evictedSync : Bool := false
  inherit : List (CtxId × W32) := []
  resumedNo : Nat := 0
  outNo : Nat := 0
  faultRec : Option Rec := none
  faultOut : Bool := false
  forced : Bool := false
  saved : List (Nat × Cluster) := []
  savedTok : List (Nat × TokE) := []
  savedTx : List Packet := []
  vaultSpills : W32 := 0
  preempts : W32 := 0
  forcedSaves : W32 := 0
  faults : W32 := 0
deriving DecidableEq, Repr

/-- A SYNC command in the device scheduler (R182); `waiting` once its wait has begun. -/
structure SyncCmd where
  q : QE
  waiting : Bool
  age : Nat
deriving DecidableEq, Repr

/-- The device-wide scheduler: queues of the engines that are not a cluster's or a Touchstone's,
tokens held, the order number given to the next acceptance (R184, R185). -/
structure Sched where
  preemptTimeout : BitVec 24 := 200
  tokens : Nat := 0
  clock : Nat := 0
  sync : List SyncCmd := []
  update : List QE := []
  cheap : List QE := []
  hint : List QE := []
  ckpt : List QE := []
  seq : List QE := []
  eval : List QE := []
deriving DecidableEq, Repr

/-- The state. -/
structure State where
  boot : Boot
  sel : Sel
  nv : SMap Cell
  hdr : SMap Hdr
  irq : Irq
  time : Time
  jtag : Jtag
  smb : Smb
  spare : SMap Spare
  pace : SMap Pace
  bursar : Bursar
  dp : SMap DiePower
  ctxs : SMap Ctx
  sched : Sched
  sems : SMap Sem
  pot : SMap U16
  hbm : Mem
  host : Mem
  cls : SMap Cluster
  td : SMap TouchDie
  num : SMap Numerics
  census : SMap W32
  mctx : SMap MintCtx
  mint : SMap MintUnit
  upd : List Update
  lgE : SMap Entry
  lgA : SMap AdpSlot
  lgC : SMap LgCtx
  links : Links
  lkC : SMap LkCtx
  port : SMap Port
  sg : Strong
  sgC : SMap SgCtx
  st : SelfTest
  /-- The model's own: how many free values have been drawn (log 13). -/
  free : Nat
  /-- The model's own: the commands that wait, first in, first out. -/
  pending : List Instr
deriving DecidableEq, Repr

/-- The lowest 150 physical clusters: the sparing map a die leaves the factory with (log 7). -/
def factoryMap : BitVec 160 := BitVec.ofNat 160 (2 ^ 150 - 1)

/-- The persistent cells as they leave the factory: CAP_DEFAULT 3,200 W (Table PW.4), the sparing maps of
log 7, every other cell zero (log 7). -/
def factoryCells : SMap Cell :=
  (0, { val := 3200, old := 3200 }) ::
    (List.range 8).map fun d => (10 + d, { val := factoryMap, old := factoryMap })

/-- The machine right after reset: supplies present, PERST# asserted, STAGE 0 (R296), the persistent
cells as they left the factory, everything else at its reset value. -/
def State.reset : State where
  boot := {}
  sel := {}
  nv := factoryCells
  hdr := []
  irq := {}
  time := {}
  jtag := {}
  smb := {}
  spare := []
  pace := []
  bursar := {}
  dp := []
  ctxs := []
  sched := {}
  sems := []
  pot := []
  hbm := []
  host := []
  cls := []
  td := []
  num := []
  census := []
  mctx := []
  mint := []
  upd := []
  lgE := []
  lgA := []
  lgC := []
  links := {}
  lkC := []
  port := []
  sg := {}
  sgC := []
  st := {}
  free := 0
  pending := []

end Sys2Proof.Machine
end

