-- ==== Sys2Proof/Machine/Ops.lean ====
section
/-! DEFINITION. The operations every family shares: access to the tables of State, pages and alarms, Hold,
interrupts, completion of commands, the checks of HBM addresses, and the one teardown of a context fault. -/

namespace Sys2Proof.Machine
open Sys2Proof

/-- The outcome of a command. -/
abbrev Out := Host.Outcome State Fault Refusal

/-! ### Access to the tables -/

def State.cell (s : State) (i : Nat) : Cell := SMap.get {} s.nv i
def State.modCell (s : State) (i : Nat) (f : Cell → Cell) : State := { s with nv := SMap.upd {} s.nv i f }
def State.dpow (s : State) (d : Nat) : DiePower := SMap.get {} s.dp d
def State.modDp (s : State) (d : Nat) (f : DiePower → DiePower) : State := { s with dp := SMap.upd {} s.dp d f }
def State.ctx (s : State) (c : Nat) : Ctx := SMap.get {} s.ctxs c
def State.modCtx (s : State) (c : Nat) (f : Ctx → Ctx) : State := { s with ctxs := SMap.upd {} s.ctxs c f }
def State.sem (s : State) (i : Nat) : Sem := SMap.get {} s.sems i
def State.modSem (s : State) (i : Nat) (f : Sem → Sem) : State := { s with sems := SMap.upd {} s.sems i f }
def State.clu (s : State) (i : Nat) : Cluster := SMap.get {} s.cls i
def State.modCl (s : State) (i : Nat) (f : Cluster → Cluster) : State := { s with cls := SMap.upd {} s.cls i f }
def State.setCl (s : State) (i : Nat) (x : Cluster) : State := { s with cls := SMap.set {} s.cls i x }
def State.tdie (s : State) (d : Nat) : TouchDie := SMap.get {} s.td d
def State.modTd (s : State) (d : Nat) (f : TouchDie → TouchDie) : State := { s with td := SMap.upd {} s.td d f }
def State.prt (s : State) (d c : Nat) : Part := SMap.get {} (s.tdie d).part c
def State.modPart (s : State) (d c : Nat) (f : Part → Part) : State :=
  s.modTd d fun t => { t with part := SMap.upd {} t.part c f }
def State.nums (s : State) (c : Nat) : Numerics := SMap.get {} s.num c
def State.modNum (s : State) (c : Nat) (f : Numerics → Numerics) : State := { s with num := SMap.upd {} s.num c f }
def State.mtc (s : State) (c : Nat) : MintCtx := SMap.get {} s.mctx c
def State.modMtc (s : State) (c : Nat) (f : MintCtx → MintCtx) : State := { s with mctx := SMap.upd {} s.mctx c f }
def State.mnt (s : State) (m : Nat) : MintUnit := SMap.get {} s.mint m
def State.modMnt (s : State) (m : Nat) (f : MintUnit → MintUnit) : State := { s with mint := SMap.upd {} s.mint m f }
def State.ent (s : State) (i : Nat) : Entry := SMap.get {} s.lgE i
def State.modEnt (s : State) (i : Nat) (f : Entry → Entry) : State := { s with lgE := SMap.upd {} s.lgE i f }
def State.adp (s : State) (i : Nat) : AdpSlot := SMap.get {} s.lgA i
def State.modAdp (s : State) (i : Nat) (f : AdpSlot → AdpSlot) : State := { s with lgA := SMap.upd {} s.lgA i f }
def State.lgc (s : State) (c : Nat) : LgCtx := SMap.get {} s.lgC c
def State.modLgc (s : State) (c : Nat) (f : LgCtx → LgCtx) : State := { s with lgC := SMap.upd {} s.lgC c f }
def State.lkc (s : State) (c : Nat) : LkCtx := SMap.get {} s.lkC c
def State.modLkc (s : State) (c : Nat) (f : LkCtx → LkCtx) : State := { s with lkC := SMap.upd {} s.lkC c f }
def State.prt6 (s : State) (p : Nat) : Port := SMap.get {} s.port p
def State.modPort (s : State) (p : Nat) (f : Port → Port) : State := { s with port := SMap.upd {} s.port p f }
def State.sgc (s : State) (c : Nat) : SgCtx := SMap.get {} s.sgC c
def State.modSgc (s : State) (c : Nat) (f : SgCtx → SgCtx) : State := { s with sgC := SMap.upd {} s.sgC c f }
def State.spr (s : State) (d : Nat) : Spare := SMap.get {} s.spare d
def State.modSpr (s : State) (d : Nat) (f : Spare → Spare) : State := { s with spare := SMap.upd {} s.spare d f }
def State.pac (s : State) (d : Nat) : Pace := SMap.get {} s.pace d
def State.modPac (s : State) (d : Nat) (f : Pace → Pace) : State := { s with pace := SMap.upd {} s.pace d f }

/-- A context's state on one cluster. -/
def Cluster.pc (x : Cluster) (c : Nat) : CtxCl := SMap.get {} x.per c
def Cluster.modPc (x : Cluster) (c : Nat) (f : CtxCl → CtxCl) : Cluster := { x with per := SMap.upd {} x.per c f }

/-! ### Profile, units, time (R7 to R9, R306) -/

/-- Compute dies the running profile powers (Table SC.3). -/
def State.dies (s : State) : Nat :=
  if s.boot.profile = 0 then 2 else if s.boot.profile = 1 then 4 else 8
def State.diePowered (s : State) (d : Nat) : Bool := decide (d < s.dies)
/-- Optional units: option bits 0 Touchstone, 1 Mint, 2 Strongroom, 3 Ledger; FULL enables all (Table SC.3). -/
def State.unitOn (s : State) (i : Nat) : Bool := s.boot.profile == 2 || bit s.boot.options.toNat i
def State.ready (s : State) : Bool := s.boot.stage == 7
/-- Device time in nanoseconds. -/
def State.devTime (s : State) : W64 := BitVec.ofNat 64 (s.time.shown5 / 5)
/-- The device's own ID, x + 16 y + 256 z (R227). -/
def State.devId (s : State) : DevId := s.boot.coord
/-- The context takes part in dispatch. -/
def State.isIn (s : State) (c : Nat) : Bool := decide ((s.ctx c).st = .resident)

/-- One REFCLK cycle of 6.4 ns after the de-assertion of PERST# (R306, R307; log 2). The shown device time never goes
back; in STAGE 1 the ROM goes on to STAGE 2 (R297, log 16). Before the de-assertion no time runs. -/
def tick (s : State) : State :=
  if s.boot.stage = 0 then s else
  { s with
    boot := { s.boot with stage := if s.boot.stage = 1 then 2 else s.boot.stage }
    time := { s.time with
      steps := s.time.steps + 1
      true5 := s.time.true5 + 32
      shown5 := max s.time.shown5 (s.time.true5 + 32) } }

/-- Does nothing close issue on die `d` (R247)? -/
def State.issueOpen (s : State) (d : Nat) : Bool :=
  let p := s.dpow d
  s.ready && !s.bursar.hold && s.diePowered d && p.capOpen && !p.droop && !p.thermDie && !p.thermStack

/-- The unit under test, as (test, index) (Table SG.9). -/
def SelfTest.unit (t : SelfTest) : Nat × Nat := (bits t.req.toNat 2 0, bits t.req.toNat 13 3)

/-- Can cluster `cl` take a step: enabled, in service, its die's gates open? -/
def State.clOpen (s : State) (cl : Nat) : Bool :=
  decide (cl % 256 < 150) && s.issueOpen (cl / 256) && !(s.clu cl).service && !(s.clu cl).failed

/-- Is the cluster in SERVICE: nothing from outside writes its memory before its state is back (R272, log 53)? A failed
one is gone for good (R273). -/
def State.cluShut (s : State) (cl : Nat) : Bool := (s.clu cl).service && !(s.clu cl).failed

/-! ### Pages (Tables RG.1, RG.3) -/

def pgDevice := 0
def pgBoot := 1
def pgPersist := 2
def pgIrq := 3
def pgSparing (d : Nat) := 8 + d
def pgNumerics := 0x10
def pgMintCtx := 0x11
def pgClear := 0x12
def pgLedger := 0x13
def pgLinks := 0x14
def pgPort (p : Nat) := 0x15 + p
def pgBursar := 0x1B
def pgStrong := 0x1C
def pgSelfTest := 0x1D
def pgCtxStat := 0x1E
def pgDie (d : Nat) := 0x1000 + d * 0x400
def pgPace (d : Nat) := pgDie d + 3
def pgTouch (d : Nat) := pgDie d + 4
def pgMint (m : Nat) := pgDie (m / 3) + 5 + m % 3
def pgPower (d : Nat) := pgDie d + 8
def pgCluster (cl : Nat) := pgDie (cl / 256) + 0x100 + cl % 256
def pgDoor (c : Nat) := 0x3000 + c

/-- Block type and instance of a page index (Table RG.3); none for an unmapped page. -/
def pageType (p : Nat) : Option (Nat × Nat) :=
  if 0x3000 ≤ p then (if p < 0x4000 then some (0x16, p - 0x3000) else none)
  else if 0x1000 ≤ p then
    let d := (p - 0x1000) / 0x400
    let o := (p - 0x1000) % 0x400
    if 8 ≤ d then none
    else if o = 0 then some (0x10, d)
    else if o = 3 then some (0x11, d)
    else if o = 4 then some (0x12, d)
    else if 5 ≤ o ∧ o ≤ 7 then some (0x13, 3 * d + (o - 5))
    else if o = 8 then some (0x14, d)
    else if 0x100 ≤ o ∧ o < 0x100 + 150 then some (0x15, 256 * d + (o - 0x100))
    else none
  else if p < 4 then some (p + 1, 0)
  else if 8 ≤ p ∧ p < 16 then some (5, p - 8)
  else if 0x10 ≤ p ∧ p ≤ 0x14 then some (p - 0x10 + 6, 0)
  else if 0x15 ≤ p ∧ p ≤ 0x1A then some (0x0B, p - 0x15)
  else if 0x1B ≤ p ∧ p ≤ 0x1E then some (p - 0x1B + 0x0C, 0)
  else none

/-- The die a page belongs to, for the pages of Table RG.7's pending set but the DIE page itself. -/
def pageDie (p : Nat) : Option Nat :=
  if 0x1000 ≤ p ∧ p < 0x3000 ∧ (p - 0x1000) % 0x400 ≠ 0 then some ((p - 0x1000) / 0x400) else none

/-! ### Interrupts (R286) -/

def State.vec (s : State) (v : Nat) : MsiVec := SMap.get {} s.irq.vec v
def State.modVec (s : State) (v : Nat) (f : MsiVec → MsiVec) : State :=
  { s with irq := { s.irq with vec := SMap.upd {} s.irq.vec v f } }
/-- Send a message on vector `v`, noted in the log. -/
def State.sendMsi (s : State) (v : Nat) : State :=
  { s with irq := { s.irq with
      log := s.irq.log ++ [v]
      vec := SMap.upd {} s.irq.vec v fun x => { x with sent := true, held := false } } }
/-- An event for vector `v`: pending while masked, held while the window's message is out or the host
port is down, else sent (R286, R309). -/
def State.msi (s : State) (v : Nat) : State :=
  if (s.vec v).masked then s.modVec v fun x => { x with pend := true }
  else if (s.vec v).sent || !s.boot.hostUp then s.modVec v fun x => { x with held := true }
  else s.sendMsi v

/-- The vector of a page (R286). -/
def State.pageVec (s : State) (p : Nat) : Nat :=
  if 0x3000 ≤ p then p - 0x3000
  else
    let t := ((pageType p).map Prod.fst).getD 0
    match SMap.get none s.irq.vecMap t with
    | some v => 4096 + v.toNat
    | none => 4096 + t

/-! ### Alarms (R285, R287) -/

/-- The header in force; a DOORBELL page's mask and action are fixed (R287). -/
def State.pageHdr (s : State) (p : Nat) : Hdr :=
  let h := SMap.get {} s.hdr p
  if 0x3000 ≤ p then { h with mask := 0, action := 1 } else h

/-- The action of alarm bit `b`: 0 log, 1 interrupt, 2 context fault, 3 Hold. -/
def Hdr.act (h : Hdr) (b : Nat) : Nat := bits h.action.toNat (2 * b + 1) (2 * b)
/-- An unmasked alarm bit stands. -/
def Hdr.unmasked (h : Hdr) : Bool := h.alarm &&& ~~~h.mask != 0
/-- An unmasked alarm bit whose action is not 0 stands. -/
def Hdr.pends (h : Hdr) : Bool :=
  (List.range 16).any fun b => bit h.alarm.toNat b && !bit h.mask.toNat b && h.act b != 0

/-- Store a page's header and keep the order of the pages that hold an alarm (ALARM_FIRST). -/
def State.setHdr (s : State) (p : Nat) (h : Hdr) : State :=
  let s' := { s with hdr := SMap.set {} s.hdr p h }
  let o := s.irq.order
  let o' := if (s'.pageHdr p).pends then (if o.contains p then o else o ++ [p]) else o.filter (· ≠ p)
  { s' with irq := { s.irq with order := o' } }

/-- The event itself: the bit, the count and the context (R285). -/
def State.mark (s : State) (p b : Nat) (c : Option Nat) : State :=
  let h := SMap.get {} s.hdr p
  let s := s.setHdr p { h with alarm := h.alarm ||| BitVec.ofNat 16 (2 ^ b), seq := h.seq + 1 }
  match c with
  | some c => { s with irq := { s.irq with lastCtx := some (BitVec.ofNat 12 c) } }
  | none => s

/-- The action the event calls for now: 0 when masked. -/
def State.action (s : State) (p b : Nat) : Nat :=
  let h := s.pageHdr p
  if bit h.mask.toNat b then 0 else h.act b

/-- Hold begins: its count, the PWR_ALERT# pin, HOLD_SRC and the alarm bit to clear before release (R255, R287). -/
def State.holdOn (s : State) (src : Option (Nat × Nat)) : State :=
  { s with
    bursar := { s.bursar with hold := true, holdCount := s.bursar.holdCount + 1 }
    boot := { s.boot with pwrAlert := true }
    irq := { s.irq with holdSrc := src.map Prod.fst, holdBits := src.toList } }

/-- Enter Hold (R255): every gate closes, PWR_ALERT# is asserted, BURSAR bit 1 is raised. `src` is the
page and bit of an action-3 alarm (R287); while Hold stands another one changes nothing (log 23). -/
def State.enterHold (s : State) (src : Option (Nat × Nat)) : State :=
  if s.bursar.hold then s else
  let s := (s.holdOn src).mark pgBursar 1 none
  if s.action pgBursar 1 = 1 ∨ s.action pgBursar 1 = 2 then s.msi (s.pageVec pgBursar) else s

/-- Take every action of an event but the context fault. -/
def State.actOn (s : State) (p b : Nat) (c : Option Nat) : State :=
  match s.action p b with
  | 1 => s.msi (s.pageVec p)
  | 2 => if c.isNone then s.msi (s.pageVec p) else s
  | 3 => s.enterHold (some (p, b))
  | _ => s

/-- A change of the die's pending set raises bit 0 of its DIE page (R290). -/
def State.noteDie (s : State) (p : Nat) (before : Bool) : State :=
  match pageDie p with
  | some d => if (s.pageHdr p).unmasked == before then s
      else (s.mark (pgDie d) 0 none).actOn (pgDie d) 0 none
  | none => s

/-- An alarm event whose context, if any, faults already with the event's own code (R287). -/
def State.alarm0 (s : State) (p b : Nat) (c : Option Nat := none) : State :=
  let before := (s.pageHdr p).unmasked
  ((s.mark p b c).actOn p b c).noteDie p before

/-! ### Commands and completion (R179 to R181) -/

/-- Bits [hi:lo] of the 32-bit word at byte `off` of a command image. -/
def fld (i : Image) (off hi lo : Nat) : Nat := bits i.toNat (8 * off + hi) (8 * off + lo)
def w32 (i : Image) (off : Nat) : W32 := BitVec.ofNat 32 (fld i off 31 0)
def w64 (i : Image) (off : Nat) : W64 := BitVec.ofNat 64 (fld i off 63 0)

/-- The evaluation window after a command: BEGIN opens it, END closes it (R183, Table CS.8). -/
def windowAfter (w : Bool) (i : Image) : Bool := if fld i 4 3 0 = 12 then bit (fld i 0x10 31 0) 0 else w

/-- Drop the completed prefix and form DISPATCH_SEQ and COMPLETE_SEQ (R180); `evalOpen` is the evaluation
window at the first command still in flight. -/
def Ctx.refresh (x : Ctx) : Ctx :=
  let fl := x.flight.dropWhile (·.phase = .completed)
  { x with
    flight := fl
    evalOpen := (x.flight.takeWhile (·.phase = .completed)).foldl (fun w f => windowAfter w f.img) x.evalOpen
    completeSeq := x.acceptSeq - BitVec.ofNat 32 fl.length
    dispatchSeq := x.acceptSeq - BitVec.ofNat 32 (fl.dropWhile (·.phase ≠ .queued)).length }

/-- Put the command `q` of a context into a phase. -/
def Ctx.phase (x : Ctx) (q : W32) (p : Phase) : Ctx :=
  ({ x with flight := x.flight.map fun (f : Flight) => if f.seq = q then { f with phase := p } else f }).refresh

/-- Command `q` waits, since `now` unless it has waited before (R190). -/
def Ctx.waitsFrom (x : Ctx) (q : W32) (now : Nat) : Ctx :=
  { x with flight := x.flight.map fun (f : Flight) =>
      if f.seq = q then { f with phase := Phase.waiting, since := if f.phase = Phase.waiting then f.since else now } else f }.refresh

/-- The device's view of a completed command: its completion record, if it makes one (R179). -/
def recOf (s : State) (q : QE) (code : Nat) (unit : Nat) (detail : W64) : Option Rec :=
  if bit (fld q.img 4 31 0) 4 || fld q.img 4 3 0 == 6 then
    some { cmd := q.seq, kind := 0, code := BitVec.ofNat 16 code, unit := BitVec.ofNat 16 unit,
           detail := detail, time := s.devTime, irq := bit (fld q.img 4 31 0) 5 }
  else none

/-- Is the context's record buffer full (R179)? -/
def Ctx.bufferFull (x : Ctx) : Bool := decide (16 ≤ x.recs.length)

/-- A record that no command makes joins the buffer, or waits for a place in it (R179). -/
def Ctx.record (x : Ctx) (r : Rec) : Ctx :=
  if x.bufferFull then { x with late := x.late ++ [{ q := none, record := r }] } else { x with recs := x.recs ++ [r] }

/-- The end of a command (R180, R185): its token is freed and its record, if any, joins the buffer.
An ISSUE'd command holds no place in the sequence. -/
def State.ends (s : State) (q : QE) (r : Option Rec) : State :=
  let s := { s with sched := { s.sched with tokens := s.sched.tokens - 1 } }
  s.modCtx q.ctx.toNat fun x =>
    let x := { x with recs := x.recs ++ r.toList }
    if q.issued then x else x.phase q.seq .completed

/-- A command waits to complete until its record finds a place in the buffer (R179, Table CS.9a; log 92). -/
def Ctx.waitsToEnd (x : Ctx) (q : QE) (r : Rec) (now : Nat) : Ctx :=
  let x := { x with late := x.late ++ [{ q := some q, record := r }] }
  if q.issued then x else x.waitsFrom q.seq now

/-- Complete a command (R179, R180): it ends, or waits while its record finds the buffer full. -/
def State.complete (s : State) (q : QE) (code : Nat := 0) (unit : Nat := 0xFFFF) (detail : W64 := 0) : State :=
  match recOf s q code unit detail with
  | none => s.ends q none
  | some r =>
    if (s.ctx q.ctx.toNat).bufferFull then s.modCtx q.ctx.toNat fun x => x.waitsToEnd q r s.sched.clock
    else s.ends q (some r)

/-- The oldest record that waits for a place in the buffer takes the one that is free, and its command completes. -/
def State.endLate (s : State) (c : Nat) : State :=
  match (s.ctx c).late with
  | [] => s
  | e :: l =>
    if (s.ctx c).bufferFull then s else
    let s := s.modCtx c fun x => { x with late := l }
    match e.q with
    | some q => s.ends q (some { e.record with time := s.devTime })
    | none => s.modCtx c fun x => { x with recs := x.recs ++ [e.record] }

/-- An event record (Table CS.4). -/
def State.event (s : State) (c code : Nat) : State :=
  s.modCtx c fun x => x.record
    { cmd := 0, kind := 2, code := BitVec.ofNat 16 code, unit := 0xFFFF, detail := 0, time := s.devTime, irq := false }

/-- `a` at or before `b` in the 32-bit order of sequence numbers (R177). -/
def seqLe (a b : W32) : Bool := decide ((b - a).toNat < 2 ^ 31)

/-! ### Effective priority (R185, R189) -/

def syncSem (i : Image) : Nat := fld i 0x14 13 0

/-- Is the condition of a SYNC wait met? -/
def State.syncMet (s : State) (q : QE) : Bool :=
  match fld q.img 0x10 2 0 with
  | 1 => decide (0 ≤ ((s.sem (syncSem q.img)).value - w32 q.img 0x18).toInt)
  | 2 => seqLe (w32 q.img 0x1C) (s.ctx q.ctx.toNat).completeSeq
  | _ => false

/-- A wait that lends its context's priority: the context, and the number of its command. -/
abbrev Lender := CtxId × W32

/-- Waits on semaphores that are not met, with the owner each waits for. -/
def State.semWaits (s : State) : List (Lender × Nat) :=
  s.sched.sync.filterMap fun x =>
    if x.waiting && fld x.q.img 0x10 2 0 == 1 && !s.syncMet x.q then
      some ((x.q.ctx, x.q.seq), (s.sem (syncSem x.q.img)).owner.toNat)
    else none

/-- One pass of priority inheritance (R189): the waits of contexts that are IN, and those that lend to a waiter itself, lend
to an OUT owner. An owner that has come back keeps those that lent while it was OUT and takes no new one (log 43). -/
def State.inhNext (s : State) (m : SMap (List Lender)) : SMap (List Lender) :=
  s.ctxs.filterMap fun p =>
    let ws := s.semWaits.filter fun e => e.2 == p.1 && e.1.1.toNat != p.1
    let v := ws.flatMap fun e => (if s.isIn e.1.1.toNat then [e.1] else []) ++ SMap.get [] m e.1.1.toNat
    let v := (if p.2.st = .out then v else v.filter p.2.inherit.contains).eraseDups
    if v.isEmpty then none else some (p.1, v)

/-- The waits that lend to each context, through chains of waits. -/
def State.inherited (s : State) : SMap (List Lender) := (List.range (s.semWaits.length + 1)).foldl (fun m _ => s.inhNext m) []

/-- The highest priority among lenders. -/
def State.lent (s : State) (l : List Lender) : Nat := (l.map fun e => (s.ctx e.1.toNat).priority.toNat).foldl max 0

/-- Effective priority: the larger of the configured and the inherited one. -/
def State.eff (s : State) (c : Nat) : Nat := max (s.ctx c).priority.toNat (s.lent (SMap.get [] s.inherited c))

/-- Keep the lenders: a wait that lends to a context when it leaves OUT does so until it ends or its own context leaves IN. -/
def State.reinherit (s : State) : State :=
  let m := s.inherited
  { s with ctxs := SMap.mapV {} (fun c x => { x with inherit := SMap.get [] m c }) s.ctxs }

/-- The context's descriptor for a cluster (R173). -/
def Ctx.desc (x : Ctx) (cl : ClId) : Option CluDesc := x.cltab.find? (·.cl = cl)

/-- Do Till entries `e` to e + n − 1 lie in the window (R173)? -/
def CluDesc.hasEntries (d : CluDesc) (e n : Nat) : Bool := decide (d.tillBase ≤ e) && decide (e + n ≤ d.tillBase + 2 ^ d.tillLog)

/-- Does the byte range lie in the owned region? -/
def CluDesc.owns (d : CluDesc) (a n : Nat) : Bool :=
  decide (d.memBase * 128 ≤ a) && decide (a + n ≤ (d.memBase + d.memSize) * 128)

/-! ### HBM (R175) -/

/-- An address no memory lies behind. -/
def State.malformed (s : State) (a : Nat) : Bool :=
  let st := a / 2 ^ 36
  decide (24 ≤ st) || decide (36000000000 ≤ a % 2 ^ 36) || !s.diePowered (st / 3)

/-- The ownership entry of a 64 KiB page, by page number over all stacks. -/
def State.page (s : State) (p : Nat) : Nat := (SMap.get 0 s.pot p).toNat

/-- May context `c` reach the page? `wr` a write, `own` a write of the device's own bookkeeping. -/
def pageOk (e c : Nat) (wr own : Bool) : Bool :=
  bit e 12 && e % 4096 == c && !(wr && (bit e 13 || (bit e 14 && !own)))

/-- The pages a byte range touches. -/
def pagesOf (a n : Nat) : List Nat :=
  if n = 0 then [] else (List.range ((a + n - 1) / 65536 + 1 - a / 65536)).map (· + a / 65536)

/-- A page holds a unit's state while its test runs (R272): nothing else reaches it before the buffer is scrubbed (R275). -/
def State.svcHolds (s : State) (g : Nat) : Bool :=
  s.st.st == 2 && decide (s.st.unit.1 ≤ 2) && (pagesOf s.st.svcAt.toNat (2 ^ 23)).contains g

/-- A page is protected by an epoch, or is being copied: its writer waits (Table SG.2); so does one of the service buffer
in use. -/
def State.protectedPage (s : State) (g : Nat) : Bool :=
  (s.sgC.any fun p => p.2.epoch.any fun e => e.prot.contains g || e.copying.contains g) || s.svcHolds g

/-- An access to the range waits: a page waits to be zeroed for its new owner (R275), or, for a write, it is
protected. -/
def State.guarded (s : State) (a n : Nat) : Bool :=
  (pagesOf a n).any fun g => s.sg.scrub.contains g || s.protectedPage g
def State.unscrubbed (s : State) (a n : Nat) : Bool :=
  (pagesOf a n).any fun g => s.sg.scrub.contains g || s.svcHolds g

/-- Two ranges have a place in common; an empty range has none. -/
def rangesMeet (a n b m : Nat) : Bool := decide (0 < n) && decide (0 < m) && decide (a < b + m) && decide (b < a + n)

/-- The 256-byte granules a byte range touches (R263). -/
def granulesOf (a n : Nat) : List Nat :=
  if n = 0 then [] else (List.range ((a + n - 1) / 256 + 1 - a / 256)).map (· + a / 256)

/-- Does the granule lie in a MIRROR item of the set? -/
def SgCtx.mirrored (x : SgCtx) (g : Nat) : Bool :=
  x.items.any fun it => it.kind = 1 && decide (it.base ≤ 256 * g) && decide (256 * g < it.base + it.len)

/-- The dirty bits after a write to the granules `gs`. -/
def SgCtx.dirtied (x : SgCtx) (gs : List Nat) : SgCtx :=
  if x.items.isEmpty then x
  else { x with dirty := x.dirty ++ gs.filter fun g => x.mirrored g && !x.dirty.contains g }

/-- The HBM controllers note the written granules of MIRROR items for the next delta, whoever writes (R263); a
written byte is in error no more. -/
def State.noteWrite (s : State) (a n : Nat) : State :=
  { s with
    sgC := SMap.mapV {} (fun _ x => x.dirtied (granulesOf a n)) s.sgC
    sg := { s.sg with ueAt := s.sg.ueAt.filter fun u => !(decide (a ≤ u) && decide (u < a + n)) } }

/-- Write bytes to HBM. -/
def State.hbmWrite (s : State) (a : Nat) (bs : List Byte) : State :=
  ({ s with hbm := Mem.writeBytes s.hbm a bs }).noteWrite a bs.length

/-- Zero a byte range of HBM. -/
def State.hbmClear (s : State) (a n : Nat) : State :=
  ({ s with hbm := SMap.clear 0 a (a + n) s.hbm }).noteWrite a n

/-- Replace `n` bytes of HBM at `a` by the first `n` bytes of a memory image. -/
def State.hbmPut (s : State) (a n : Nat) (m : Mem) : State :=
  ({ s with hbm := SMap.splice 0 a n s.hbm m }).noteWrite a n

/-! ### Packets in a port's hands (R220, R224, R225) -/

/-- The payload as sent: whole 32-byte units. -/
def sentLen (len : Nat) : Nat := (len + 31) / 32 * 32
/-- Credits a packet takes (R224). -/
def pktCredits (k : Packet) : Nat := (sentLen k.length.toNat + 40 + 63) / 64
/-- A packet's channel and dateline class. -/
def pktChan (k : Packet) : Nat := 2 * k.vc.toNat + k.dateline.toNat

/-- A packet enters the transmit queue and holds its credits from then on (R225). -/
def Port.queue (x : Port) (k : Packet) : Port :=
  { x with txq := x.txq ++ [k], used := SMap.upd 0 x.used (pktChan k) (· + pktCredits k) }

/-- The packets that `f` names leave the transmit queue; their credits return to the pool. -/
def Port.withdraw (x : Port) (f : Packet → Bool) : Port :=
  { x with
    txq := x.txq.filter (! f ·)
    used := (x.txq.filter f).foldl (fun m k => SMap.upd 0 m (pktChan k) (· - pktCredits k)) x.used }

/-- A packet of the work of context `c` on this device: not the device's answers, its heartbeats or the
Strongroom's transfers (log 87). -/
def State.ownPacket (s : State) (c : CtxId) (k : Packet) : Bool :=
  k.src = s.devId && k.srcCtx = c && ([1, 2, 5, 6, 7, 8, 11] : List Nat).contains k.ty.toNat

/-! ### The teardown of a context fault (R191, R192) -/

/-- Drop every command of context `c` from a cluster's engines. -/
def Cluster.dropCtx (x : Cluster) (c : CtxId) : Cluster :=
  let vq := x.vq.filter (·.ctx ≠ c)
  let dq := x.dq.filter (·.ctx ≠ c)
  { x with
    mq := x.mq.filter (·.q.ctx ≠ c)
    vq := vq
    vrun := if vq.head? = x.vq.head? then x.vrun else none
    dq := dq
    ddone := x.ddone && dq.head? = x.dq.head?
    dwait := x.dwait && dq.head? = x.dq.head?
    callq := x.callq.filter (·.ctx ≠ c)
    tel := x.tel.filter (·.q.ctx ≠ c)
    tally := x.tally.filter (·.ctx ≠ c)
    tileq := x.tileq.filter (·.ctx ≠ c) }

/-- ISSUE'd commands of context `c` in a cluster's queues. -/
def Cluster.issuedOf (x : Cluster) (c : CtxId) : Nat :=
  (x.mq.filter fun m => m.q.ctx = c && m.q.issued).length
    + (x.vq.filter fun q => q.ctx = c && q.issued).length
    + (x.dq.filter fun q => q.ctx = c && q.issued).length

/-- Command tokens context `c` holds (R185); an issued command that waits to complete holds its own. -/
def State.tokensOf (s : State) (c : CtxId) : Nat :=
  ((s.ctx c.toNat).flight.filter (·.phase ≠ .completed)).length
    + ((s.ctx c.toNat).late.filter fun e => e.q.any (·.issued)).length
    + (s.cls.map fun p => p.2.issuedOf c).sum + ((s.ctx c.toNat).saved.map fun p => p.2.issuedOf c).sum

/-- Return an entry to its state before the gather (R212). -/
def Entry.ungather (e : Entry) : Entry :=
  if e.inStep then
    { e with state := e.preState, inStep := false, manifest := 0, pausePend := false, freePend := false }
  else e

/-- The Ledger's part of a fault: manifests void, IN_STEP entries back (R212). -/
def State.ledgerVoid (s : State) (c : Nat) : State :=
  let x := s.lgc c
  { s with
    lgE := SMap.mapV {} (fun i e => if x.entFirst ≤ i ∧ i < x.entFirst + x.entCount then e.ungather else e) s.lgE
    lgC := SMap.upd {} s.lgC c fun x => { x with manifests := [] } }

/-- Everything a fault stops and discards (R191 steps 1 to 4). -/
def State.stopCtx (s : State) (c : CtxId) : State :=
  let n := s.tokensOf c
  let s := { s with
    cls := SMap.mapV {} (fun _ x => x.dropCtx c) s.cls
    td := SMap.mapV {} (fun _ t => { t with
      tq := t.tq.filter (·.ctx ≠ c)
      part := SMap.mapV {} (fun k p => if k = c.toNat then { p with refusing := true } else p) t.part }) s.td
    sched := { s.sched with
      tokens := s.sched.tokens - n
      sync := s.sched.sync.filter (·.q.ctx ≠ c)
      update := s.sched.update.filter (·.ctx ≠ c)
      cheap := s.sched.cheap.filter (·.ctx ≠ c)
      hint := s.sched.hint.filter (·.ctx ≠ c)
      ckpt := s.sched.ckpt.filter (·.ctx ≠ c)
      seq := s.sched.seq.filter (·.ctx ≠ c)
      eval := s.sched.eval.filter (·.ctx ≠ c) }
    upd := s.upd.filter (·.ctx ≠ c)
    links := { s.links with toMint := s.links.toMint.filter (·.1.ctx ≠ c), loop := s.links.loop.filter (!s.ownPacket c ·) }
    port := SMap.mapV {} (fun _ x => x.withdraw (s.ownPacket c)) s.port }
  let s := s.modLkc c.toNat fun x => { x with coll := none, red := none, early := [], units := 0 }
  (s.modNum c.toNat fun x => { x with close := none }).ledgerVoid c.toNat

/-- Alarms that a fault code raises on the page of its unit. -/
def faultPage (code : U16) (unit : U16) : Option (Nat × Nat) :=
  let k := code.toNat / 256
  if k = 1 then some (pgMintCtx, 2)
  else if k = 2 then (if unit.toNat < 8 then some (pgTouch unit.toNat, 2) else none)
  else if k = 3 then some (pgLedger, 1)
  else if k = 4 then some (pgLinks, 1)
  else if code = 0x000E then some (pgNumerics, 2)
  else none

/-- A fault of context `c` (R191): from IN, LOADING, SAVING or OUT it becomes SCRUBBING, everything it
runs is stopped and discarded, and the fault record waits for the scrub to end. In any other state the
context holds nothing a fault could stop. -/
def faultCtx (s : State) (c : CtxId) (code : U16) (detail : W64 := 0) (cmd : W32 := 0) (unit : U16 := 0xFFFF)
    (irq0 : Bool := false) : State :=
  let x := s.ctx c.toNat
  if x.st = .resident ∨ x.st = .loading ∨ x.st = .saving ∨ x.st = .out then
    let irq := irq0 || (x.flight.find? (·.seq = cmd)).any fun f => bit (fld f.img 4 31 0) 5
    let s := s.stopCtx c
    let s := s.modCtx c.toNat fun x => { x with
      st := .scrubbing, flight := [], late := x.late.filter (·.q.isNone), saved := [], lastFault := code, faults := x.faults + 1
      preemptReq := false, askedBy := [], stopReq := false, forced := false, evictedSync := false, evalOpen := false
      inherit := [], faultOut := decide (x.st = .out)
      faultRec := some { cmd := cmd, kind := 1, code := code, unit := unit, detail := detail,
                         time := 0, irq := irq } }
    let s := s.alarm0 pgClear 1 (some c.toNat)
    match faultPage code unit with
    | some (p, b) => s.alarm0 p b (some c.toNat)
    | none => s
  else s

/-- An alarm event with its action; action 2 faults the context it belongs to with ALARM and the page
index in DETAIL (R287). -/
def State.alarm (s : State) (p b : Nat) (c : Option CtxId := none) : State :=
  let s' := s.alarm0 p b (c.map BitVec.toNat)
  match c with
  | some c => if s.action p b = 2 then faultCtx s' c 0x0010 (BitVec.ofNat 64 p) else s'
  | none => s'

/-- The fault of a command in an engine's hands. -/
def State.faultCmd (s : State) (q : QE) (code : U16) (detail : W64 := 0) (unit : U16 := 0xFFFF) : State :=
  faultCtx s q.ctx code detail q.seq unit

/-- A free value and the state after it is drawn (log 13). -/
def State.draw (s : State) : W32 × State := (Config.freeWord s.free, { s with free := s.free + 1 })

/-- Remove the element at index `k` of a list. -/
def dropAt {α : Type} (l : List α) (k : Nat) : List α := l.take k ++ l.drop (k + 1)
/-- Replace the element at index `k`. -/
def putAt {α : Type} (l : List α) (k : Nat) (x : α) : List α := l.set k x

end Sys2Proof.Machine
end

