-- ==== Sys2Proof/Machine/Persist.lean ====
section
/-! DEFINITION. Access to pages (R280, R297, R299) and the persistent cells (R292 to R295, R32). -/

namespace Sys2Proof.Machine
open Sys2Proof

/-- Is the page decoded at this stage of boot? `per` says the register is persistent: in FAILED the
BURSAR, LINKS and PORT pages decode those alone (R297, R299). -/
def State.decoded (s : State) (p : Nat) (per : Bool) : Bool :=
  let base := p < 4 || (8 ≤ p && p < 16)
  if s.boot.stage = 0 then false
  else if s.boot.stage = 7 then (pageType p).isSome
  else if s.boot.stage = 15 then base || (per && (p = pgLinks || p = pgBursar || (0x15 ≤ p && p ≤ 0x1A)))
  else base

/-- Does a write reach the page? Pages of unpowered dies ignore writes (R8). -/
def State.canWrite (s : State) (p : Nat) (per : Bool := false) : Bool :=
  s.decoded p per && (if 0x1000 ≤ p ∧ p < 0x3000 then s.diePowered ((p - 0x1000) / 0x400) else true)

/-- A write of `v` to cell `i` (R293); the write that brings the counter to 100,000 exhausts the cell (R295);
`refuse` is the page and alarm bit with which the owning page
refuses the value. -/
def State.cellWrite (s : State) (i : Nat) (v : BitVec 160) (refuse : Option (Nat × Nat)) : State :=
  let c := s.cell i
  if c.busy then (s.modCell i fun c => { c with lastRefused := true }).alarm pgPersist 0
  else if c.exhausted then (s.modCell i fun c => { c with lastRefused := true }).alarm pgPersist 1
  else match refuse with
  | some (p, b) => s.alarm p b
  | none =>
    if c.val = v then s
    else
      let s := s.modCell i fun c => { c with
        old := c.val, val := v, busy := true, wear := c.wear + 1, lastRefused := false, interrupted := false
        wearHigh := c.wearHigh || decide (90000 < c.wear + 1), exhausted := decide (100000 ≤ c.wear + 1) }
      if c.wear = 90000 then s.alarm pgPersist 2
      else if c.wear + 1 = 100000 then s.alarm pgPersist 1 else s

/-- Write a 32-bit persistent register of page `p`. -/
def State.regCell (s : State) (p i : Nat) (v : Nat) (refuse : Option (Nat × Nat)) : State :=
  if s.canWrite p true then s.cellWrite i (BitVec.ofNat 160 v) refuse else s

def execCapDefaultWrite (v : W32) (s : State) : Out :=
  let w := v.toNat % 4096
  .next (s.regCell pgBursar 0 w (if w < 600 ∨ 3200 < w then some (pgBursar, 5) else none))

/-- The reserved profile value 3 is refused (R8). -/
def execProfileWrite (v : W32) (s : State) : Out :=
  .next (s.regCell pgBursar 1 (v.toNat % 256 &&& 0xF3) (if v.toNat % 4 = 3 then some (pgBursar, 5) else none))

def execTorusCoordWrite (v : W32) (s : State) : Out := .next (s.regCell pgLinks 2 (v.toNat % 4096) none)
def execTorusDimsWrite (v : W32) (s : State) : Out := .next (s.regCell pgLinks 3 (v.toNat % 4096) none)
def execLaneMapWrite (p : PortId) (v : W32) (s : State) : Out :=
  .next (s.regCell (pgPort p.val) (4 + p.val) v.toNat none)
def execBootSrcWrite (v : W32) (s : State) : Out := .next (s.regCell pgBoot 18 (v.toNat % 2) none)
def execBootNsidWrite (v : W32) (s : State) : Out := .next (s.regCell pgBoot 19 v.toNat none)

/-- Set bits of a sparing map. -/
def popCount (n : Nat) : Nat → Nat
  | 0 => 0
  | k + 1 => (if bit n k then 1 else 0) + popCount n k

/-- The physical index of logical cluster `k` of a die (R31): the k-th set bit of the map in force. -/
def physical (m : BitVec 160) (k : Nat) : Nat := ((List.range 160).filter fun j => bit m.toNat j).getD k 0

/-- SPARE_COMMIT (R32): rejected, with REJECT and bit 0 of the page, while BUSY or while COUNT is not 150; otherwise one
cell write of the staged map, which clears REJECT when it is accepted. The cell's own answer to a write while it is
BUSY or EXHAUSTED comes with it (R293). -/
def State.spareCommit (s : State) (d : Nat) (m : BitVec 160) : State :=
  let c := s.cell (10 + d)
  let s' := s.cellWrite (10 + d) m (if popCount m.toNat 160 ≠ 150 then some (pgSparing d, 0) else none)
  let bad := decide (popCount m.toNat 160 ≠ 150)
  if c.busy || (c.exhausted && bad) then (s'.modSpr d fun x => { x with reject := true }).alarm (pgSparing d) 0
  else if bad then s'.modSpr d fun x => { x with reject := true }
  else if c.exhausted then s'
  else s'.modSpr d fun x => { x with reject := false }

def execSpareCommit (d : Die) (v : W32) (s : State) : Out :=
  if bit v.toNat 0 && s.canWrite (pgSparing d.val) true then .next (s.spareCommit d.val (s.spr d.val).staged)
  else .next s

/-- The write of cell `i` has persisted (R294). -/
def execPersistWriteDone (i : Fin 20) (s : State) : Out :=
  if (s.cell i.val).busy then .next (s.modCell i.val fun c => { c with busy := false, old := c.val }) else .next s

end Sys2Proof.Machine
end

