-- ==== Sys2Proof/Machine/Header.lean ====
section
/-! DEFINITION. The common page header: clearing alarms, SOFT_RESET, MSI-X, refused accesses (R280 to R288). -/

namespace Sys2Proof.Machine
open Sys2Proof

/-- An access of a size or alignment the device does not take (R280). -/
def badSize (off size : Nat) : Bool := !((size = 4 && off % 4 = 0) || (size = 8 && off % 8 = 0))

/-- A refused access raises IRQ bit 0; a read would return zero (R280). -/
def execBadAccess (off : BitVec 26) (size : Nat) (_isRead : Bool) (s : State) : Out :=
  if badSize off.toNat size && s.boot.stage != 0 then .next (s.alarm pgIrq 0) else .next s

/-- Replace a page's header, noting a change of its die's pending set. -/
def State.rehdr (s : State) (p : Nat) (h : Hdr) : State :=
  let before := (s.pageHdr p).unmasked
  (s.setHdr p h).noteDie p before

/-- A clearing write, and the event that reached the arbiter with it, applied after it (R285). -/
def execBlkAlarmClear (page : BitVec 14) (v : W32) (together : Option AlarmEv) (s : State) : Out :=
  let p := page.toNat
  let s := if s.canWrite p then
      let h := SMap.get {} s.hdr p
      s.rehdr p { h with alarm := h.alarm &&& ~~~BitVec.ofNat 16 v.toNat }
    else s
  match together with
  | some e => .next (s.alarm p e.bit.toNat e.ctx)
  | none => .next s

/-- The counters of a page that its table calls saturating or wrapping return to zero, for the
selected context where they belong to one (R283). -/
def State.zeroCounters (s : State) (p : Nat) : State :=
  match pageType p with
  | some (t, i) =>
    match t with
    | 0x06 => s.modNum s.sel.nuCtx.toNat fun x => { x with ovfCount := 0 }
    | 0x07 => s.modMtc s.sel.mtCtx.toNat fun x => { x with frozenCount := 0, nonfinite := 0, updates := 0 }
    | 0x09 => s.modLgc s.sel.lgCtx.toNat fun x => { x with poolSkip := 0, staleSkip := 0, miss := 0 }
    | 0x0A => ({ s with links := { s.links with dropFaulted := 0 } }).modLkc s.sel.lkCtx.toNat
        fun x => { x with collDone := 0 }
    | 0x0B => s.modPort i fun x => { x with fecCorr := 0, fecUncorr := 0, crcRetry := 0, filterDrop := 0 }
    | 0x0C => { s with bursar := { s.bursar with holdCount := 0 } }
    | 0x0D => ({ s with sg := { s.sg with ceCount := 0, ueRefetch := 0 } }).modSgc s.sel.sgCtx.toNat
        fun x => { x with skip := 0 }
    | 0x0F => s.modCtx s.sel.ctxstat.toNat
        fun x => { x with vaultSpills := 0, preempts := 0, forcedSaves := 0, faults := 0 }
    | 0x11 => s.modPac i fun x => { x with seq := 0 }
    | 0x12 => s.modPart i (s.tdie i).sel.toNat fun x => { x with stall := 0 }
    | 0x13 => s.modMnt i fun x => { x with elems := 0, busyBeats := 0 }
    | 0x14 => s.modDp i fun x => { x with droopCount := 0, gatedUs := 0 }
    | 0x15 => s.modCl i fun x => { x with memCe := 0 }
    | _ => s
  | none => s

/-- SOFT_RESET (R283); a DOORBELL page ignores it (R287). -/
def execSoftReset (page : BitVec 14) (s : State) : Out :=
  let p := page.toNat
  if s.canWrite p && p < 0x3000 then
    let h := SMap.get {} s.hdr p
    .next ((s.rehdr p { h with alarm := 0, seq := 0 }).zeroCounters p)
  else .next s

/-- At the close of a window each vector with held events sends one message, which is the next window's
(R286); while the host port is down they go on waiting (R309). -/
def execMsixWindowClose (s : State) : Out :=
  let up := s.boot.hostUp
  let go (x : MsiVec) : Bool := x.held && up && !x.masked
  .next { s with irq := { s.irq with
    log := s.irq.log ++ (s.irq.vec.filter fun p => go p.2).map Prod.fst
    vec := SMap.mapV {} (fun _ x => if go x then { x with sent := true, held := false } else { x with sent := false }) s.irq.vec } }

/-- Unmasking a vector sends the message its pending bit stands for (R286). -/
def execMsixVectorUnmask (v : BitVec 13) (s : State) : Out :=
  if v.toNat < 4160 then
    let x := s.vec v.toNat
    let s := s.modVec v.toNat fun x => { x with masked := false, pend := false }
    .next (if x.pend then s.msi v.toNat else s)
  else .next s

def execDevTimeLoRead (s : State) : Out :=
  if s.decoded pgDevice false then
    .next { s with time := { s.time with hiLatch := BitVec.ofNat 32 (s.devTime.toNat / 2 ^ 32) } }
  else .next s

end Sys2Proof.Machine
end

