-- ==== Sys2Proof/Machine/Net.lean ====
section
/-! DEFINITION. Torus addressing, routing, packets, channels and the checks of arriving packets (R220 to R230, R238). -/

namespace Sys2Proof.Machine
open Sys2Proof

/-! ### The torus (R227, R228) -/

/-- Nibble `a` of a coordinate or extent word: axis 0 X, 1 Y, 2 Z. -/
def axisOf (w : BitVec 12) (a : Nat) : Nat := bits w.toNat (4 * a + 3) (4 * a)
def State.extent (s : State) (a : Nat) : Nat := axisOf s.boot.dims a + 1
def setAxis (w : BitVec 12) (a v : Nat) : BitVec 12 :=
  BitVec.ofNat 12 (w.toNat - axisOf w a * 16 ^ a + v % 16 * 16 ^ a)

/-- The device one hop from device `d` in the direction of port `p`. -/
def State.hop (s : State) (d : DevId) (p : Nat) : DevId :=
  let a := p / 2
  let e := s.extent a
  let x := axisOf d a
  setAxis d a (if p % 2 = 0 then (x + 1) % e else (x + e - 1) % e)

/-- The device one hop away through port `p`. -/
def State.neighbour (s : State) (p : Nat) : DevId := s.hop s.devId p

def Port.usable (p : Port) : Bool := p.st = .up || p.st = .degraded

/-- Does the hop through port `p` cross the axis's wrap link? -/
def State.wraps (s : State) (p : Nat) : Bool :=
  let x := axisOf s.devId (p / 2)
  if p % 2 = 0 then x + 1 == s.extent (p / 2) else x == 0

/-- The axis a packet for `dst` travels next: the first on which it is not yet there. -/
def State.nextAxis (s : State) (dst : DevId) : Option Nat :=
  [0, 1, 2].find? fun a => axisOf dst a != axisOf s.devId a

def State.inTorus (s : State) (dst : DevId) : Bool :=
  [0, 1, 2].all fun a => decide (axisOf dst a < s.extent a)

/-- The port of axis `a` that a packet for `dst` takes: the shorter way, the positive way when both are equal
(R228); a packet that came in on that axis goes on in the direction it travels (R238, log 88). -/
def State.wayOf (s : State) (dst : DevId) (a : Nat) (from_ : Option Nat) : Nat :=
  match from_.filter fun q => q / 2 == a with
  | some q => 2 * a + (q + 1) % 2
  | none =>
    let e := s.extent a
    let fwd := (axisOf dst a + e - axisOf s.devId a) % e
    if fwd ≤ e - fwd then 2 * a else 2 * a + 1

/-- The port by R228 for a packet that came in on port `from_`, if any, and whether it is the detour of R238: past a
DOWN port the other way round, or the other port of an axis of extent 2. -/
def State.route (s : State) (dst : DevId) (from_ : Option Nat := none) : Option (Nat × Bool) :=
  if !s.inTorus dst then none else
  match s.nextAxis dst with
  | none => none
  | some a =>
    let e := s.extent a
    let p := s.wayOf dst a from_
    let q := 2 * a + (p + 1) % 2
    if (s.prt6 p).st ≠ .down then some (p, false)
    else if (s.prt6 q).st ≠ .down then some (q, decide (3 ≤ e))
    else none

/-- The source device's REMAP (R228): the first valid entry that names the destination. -/
def State.remapped (s : State) (dst : DevId) : DevId :=
  let hit := (List.range 16).find? fun i =>
    let w := (Words.get s.links.remap i).toNat
    bit w 24 && w % 4096 == dst.toNat
  match hit with
  | some i => BitVec.ofNat 12 ((Words.get s.links.remap i).toNat / 4096)
  | none => dst

/-- The device ID whose place in the torus this device stands for: the one that a valid REMAP entry gives to it, else
its own (R242, log 89). -/
def State.roleId (s : State) : DevId :=
  match (List.range 16).find? fun i =>
    let w := (Words.get s.links.remap i).toNat
    bit w 24 && w / 4096 % 4096 == s.devId.toNat with
  | some i => BitVec.ofNat 12 (Words.get s.links.remap i).toNat
  | none => s.devId

/-- The device that stands for the neighbour in the direction of port `p`. -/
def State.peerOf (s : State) (p : Nat) : DevId := s.remapped (s.hop s.roleId p)

/-! ### Packets (R220, R221) -/

/-- The first eight header bytes (Table LK.2). -/
def pktHead (k : Packet) : W64 :=
  BitVec.ofNat 64 (k.ty.toNat + k.vc.toNat * 2 ^ 4 + k.dateline.toNat * 2 ^ 7 + k.dst.toNat * 2 ^ 8
    + k.src.toNat * 2 ^ 20 + k.job.toNat * 2 ^ 32 + k.dstCtx.toNat * 2 ^ 48)

/-- The 32-byte header. -/
def pktHeader (k : Packet) : List Byte :=
  leBytes 8 (pktHead k).toNat
    ++ leBytes 4 (k.srcCtx.toNat + k.cont.toNat * 2 ^ 12 + k.length.toNat * 2 ^ 13)
    ++ leBytes 4 k.step.toNat ++ leBytes 8 k.target.toNat ++ leBytes 8 k.aux.toNat

/-- One byte of CRC-32C (Castagnoli, reflected 0x82F63B78). -/
def crcByte (c : Nat) (b : Byte) : Nat :=
  let step (x : Nat) : Nat := if x % 2 = 1 then x / 2 ^^^ 0x82F63B78 else x / 2
  let x := c ^^^ b.toNat
  step (step (step (step (step (step (step (step x)))))))
def crc32c (bs : List Byte) : W32 := BitVec.ofNat 32 (bs.foldl crcByte 0xFFFFFFFF ^^^ 0xFFFFFFFF)
/-- The trailer's CRC over header and padded payload. -/
def pktCrc (k : Packet) : W32 :=
  crc32c (pktHeader k ++ k.payload ++ List.replicate (sentLen k.length.toNat - k.payload.length) 0)

/-- A packet of context `c` of this device. -/
def State.mkPkt (s : State) (ty vc : Nat) (dst : DevId) (c dstCtx : CtxId) (step : W32) (target aux : W64)
    (payload : List Byte) : Packet where
  ty := BitVec.ofNat 4 ty
  vc := BitVec.ofNat 3 vc
  dateline := false
  dst := dst
  src := s.devId
  job := (s.ctx c.toNat).job
  dstCtx := dstCtx
  srcCtx := c
  cont := false
  length := BitVec.ofNat 13 payload.length
  step := step
  target := target
  aux := aux
  payload := payload

/-- Put a packet into the transmit queue of its route's port with its dateline class: 1 on and after the
wrap link and on a detour, 0 again on a new axis. None when R228 has no route. A packet for this device
itself crosses no port: it waits in `loop` for its arrival (log 73). -/
def State.enqueue (s : State) (k : Packet) (from_ : Option Nat) : Option State :=
  if k.dst = s.devId then some { s with links := { s.links with loop := s.links.loop ++ [k] } } else
  match s.route k.dst from_ with
  | none => none
  | some (p, detour) =>
    let sameAxis := from_.any fun q => q / 2 == p / 2
    let dl := detour || s.wraps p || (sameAxis && k.dateline)
    some (s.modPort p fun x => x.queue { k with dateline := dl, lsn := 0 })

/-- Send a packet of a context: REMAP, then the route; without a route the context faults with
LK_UNREACH and nothing is sent (R228). -/
def State.send (s : State) (k : Packet) (cmd : W32) : State :=
  match s.enqueue { k with dst := s.remapped k.dst } none with
  | some s' => s'
  | none => faultCtx s k.srcCtx 0x0403 0 cmd

/-- Send a packet the hardware answers with; without a route it is not sent. -/
def State.reply (s : State) (k : Packet) : State :=
  (s.enqueue { k with dst := s.remapped k.dst } none).getD s

/-- The answer to a packet: to its sender, on behalf of the addressed context and with that context's JOB (R221). -/
def State.answer (s : State) (ty vc : Nat) (k : Packet) (target aux : W64) : Packet :=
  s.mkPkt ty vc k.src k.dstCtx k.srcCtx 0 target aux []

/-- A REFUSAL of a packet (Table LK.3). -/
def State.refuse (s : State) (k : Packet) (code : U16) : State :=
  s.reply (s.answer 4 7 k (pktHead k) (code.setWidth 64))

/-! ### Arrival (R229, R230) -/

/-- Does the port's filter table admit the packet (R230)? -/
def Port.admits (x : Port) (k : Packet) : Bool :=
  (List.range 256).any fun i =>
    let f := SMap.get {} x.filter i
    f.valid && f.job == k.job && f.ctx == k.dstCtx && bit f.types.toNat k.ty.toNat

def satInc (w : W32) : W32 := if w = 0xFFFFFFFF#32 then w else w + 1
/-- Saturating sum of a counter and an amount. -/
def satAdd (w : W32) (n : Nat) : W32 := BitVec.ofNat 32 (min 0xFFFFFFFF (w.toNat + n))

/-- Packet types whose filter discard is refused (R230). -/
def refusedType (ty : Nat) : Bool := [1, 2, 5, 6, 7, 8, 9].contains ty

/-- The states in which a context takes no packets (R229). -/
def CtxSt.deaf (t : CtxSt) : Bool := t = .scrubbing || t = .faulted || t = .stopped || t = .unused

/-- What becomes of an arriving packet before its type's own rule. -/
inductive Arrival where
  | done (s : State)
  | take (s : State)

/-- A packet whose context takes none is discarded (R229). -/
def State.takePkt (s : State) (k : Packet) : Arrival :=
  if k.ty ≠ 2 ∧ k.ty ≠ 11 ∧ (s.ctx k.dstCtx.toNat).st.deaf then
    .done { s with links := { s.links with dropFaulted := satInc s.links.dropFaulted } }
  else .take s


/-- Two packets of one source, destination, channel and context: they are served in the order they came (R226). -/
def sameStream (a b : Packet) : Bool := a.vc == b.vc && a.src == b.src && a.dst == b.dst && a.dstCtx == b.dstCtx

/-- Is a packet behind an earlier one of its stream that waits? -/
def Port.behind (x : Port) (k : Packet) : Bool := (x.rxq.takeWhile (· ≠ k)).any (sameStream k)

/-- The packet of the expected link sequence number is taken; its acknowledge is due (R220, R222). -/
def Port.taken (x : Port) (k : Packet) : Port := { x with rxNext := k.lsn + 1, ackDue := some k.lsn }
/-- A packet that has been taken is given to its unit, or on its way: its credits are owed back (R224). -/
def Port.gone (x : Port) (k : Packet) : Port :=
  { x with rxq := x.rxq.erase k, owed := SMap.upd 0 x.owed (pktChan k) (· + pktCredits k) }

/-- A packet that cannot be served yet waits at the port, or at the head of the device's own ones. -/
def State.park (s : State) (p : Nat) (k : Packet) : State :=
  if s.links.loop.head? = some k || (s.prt6 p).rxq.contains k then s
  else s.modPort p fun x => { x.taken k with rxq := x.rxq ++ [k] }

/-- The link layer (R222): a packet that waited at the port, or the next one of the link's sequence, is served unless
an earlier one of its stream waits; one taken before is a duplicate and only acknowledged again; one past a gap is
left for the replay. -/
def State.linkIn (s : State) (p : Nat) (k : Packet) : Arrival :=
  let x := s.prt6 p
  if !x.usable then .done s
  else if x.rxq.contains k then
    if x.behind k then .done s else .take (s.modPort p fun x => x.gone k)
  else if k.lsn = x.rxNext then
    if x.behind k then .done (s.park p k) else .take (s.modPort p fun x => (x.taken k).gone k)
  else if seqLe k.lsn x.rxNext then .done (s.modPort p fun x => { x with ackDue := some (x.rxNext - 1) })
  else .done s

/-- What becomes of a packet that its port serves: transit packets go on, the filter and the context's state are
checked (R228 to R230). -/
def State.served (s : State) (p : Nat) (k : Packet) : Arrival :=
  if k.ty = 15 then .take s
  else if k.dst ≠ s.devId then .done ((s.enqueue k (some p)).getD s)
  else if !(s.prt6 p).admits k then
    let s := (s.modPort p fun x => { x with filterDrop := satInc x.filterDrop }).alarm (pgPort p) 3
    .done (if refusedType k.ty.toNat then s.refuse k (if k.ty = 2 then 0x0202 else 0x0402) else s)
  else s.takePkt k

/-- A deposit that REMAP has sent to the producing device itself is a local one: a partition takes it from its own
context alone (R17), and discards another's as one that it refuses (R99; DESIGN CHOICE, log 73). -/
def State.looped (s : State) (k : Packet) : Arrival :=
  if k.ty = 2 ∧ k.srcCtx ≠ k.dstCtx then
    .done ((s.alarm (pgTouch (bits k.target.toNat 44 42)) 3 (some k.dstCtx)).refuse k 0x0202)
  else s.takePkt k

/-- A packet arrives: at the port through the link layer; the oldest packet of this device to itself meets no port. -/
def State.arrive (s : State) (p : Nat) (k : Packet) : Arrival :=
  if s.links.loop.head? = some k then State.looped { s with links := { s.links with loop := s.links.loop.tail } } k
  else match s.linkIn p k with
  | .done s => .done s
  | .take s => s.served p k

/-- Run a type's own rule on a packet of that type that arrives and is taken; where the rule answers none, the packet
waits, and its row serves it when it comes again (log 58). -/
def State.receive (s : State) (p : Nat) (k : Packet) (ty : Nat) (f : State → Option Out) : Out :=
  if k.ty.toNat ≠ ty then .next s else
  match s.arrive p k with
  | .done s => .next s
  | .take t => (f t).getD (.next (s.park p k))

/-! ### Distinct jobs and PACE (R239, R42) -/

/-- Insert into an ascending list without repeats. -/
def insertAsc (x : Nat) : List Nat → List Nat
  | [] => [x]
  | y :: t => if x < y then x :: y :: t else if x = y then y :: t else y :: insertAsc x t

/-- The JOB values of the defined contexts, ascending. -/
def State.jobs (s : State) : List Nat :=
  (s.ctxs.filter fun p => p.2.st ≠ .unused).foldr (fun p l => insertAsc p.2.job.toNat l) []

/-- The die of the device's PACE, the lowest MIN over its powered dies (R42): of the dies that share it the lowest index
(DESIGN CHOICE, log 108). -/
def State.slowDie (s : State) : Nat :=
  (List.range s.dies).foldl (fun b d => if (s.pac d).min.toNat < (s.pac b).min.toNat then d else b) 0
def State.pace1 (s : State) : Nat := (s.pac s.slowDie).min.toNat

end Sys2Proof.Machine
end

