-- ==== Sys2Proof/Machine/Fp.lean ====
section
/-! DEFINITION. Element formats, roundings and FP32 arithmetic (R118, R122 to R127, R78):
operands are decoded to exact values, the result is formed exactly and rounded once. -/

namespace Sys2Proof.Machine

/-- A decoded number: `fin neg m e` is (-1)^neg · m · 2^e. -/
inductive Num where
  | nan
  | inf (neg : Bool)
  | fin (neg : Bool) (m : Nat) (e : Int)
deriving DecidableEq, Repr

/-- A float format of Table NU.1: exponent bits, mantissa bits, bias; `ieee` formats reserve the
all-ones exponent for infinity and NaN; `maxCode` is the magnitude code of the largest finite value. -/
structure Flt where
  eb : Nat
  mb : Nat
  bias : Nat
  ieee : Bool
  maxCode : Nat
deriving DecidableEq, Repr

def fp32 : Flt := ⟨8, 23, 127, true, 0x7F7FFFFF⟩
def bf16 : Flt := ⟨8, 7, 127, true, 0x7F7F⟩
def fp16 : Flt := ⟨5, 10, 15, true, 0x7BFF⟩
def e4m3 : Flt := ⟨4, 3, 7, false, 0x7E⟩
def e5m2 : Flt := ⟨5, 2, 15, true, 0x7B⟩
def e2m1 : Flt := ⟨2, 1, 1, false, 0x7⟩

/-- The exponent of the smallest step of a format. -/
def Flt.qmin (f : Flt) : Int := 1 - (f.bias : Int) - f.mb

/-- The exact value of a finite magnitude code (R118), as (m, e). -/
def Flt.mag (f : Flt) (code : Nat) : Nat × Int :=
  let x := code >>> f.mb
  let m := code % 2 ^ f.mb
  if x = 0 then (m, f.qmin) else (2 ^ f.mb + m, f.qmin + (x - 1 : Nat))

/-- Decode a code of the format (R118). -/
def Flt.dec (f : Flt) (w : Nat) : Num :=
  let neg := bit w (f.eb + f.mb)
  let c := w % 2 ^ (f.eb + f.mb)
  if f.ieee && (c >>> f.mb == 2 ^ f.eb - 1) then
    if c % 2 ^ f.mb = 0 then .inf neg else .nan
  else if f.eb == 4 && c == 0x7F then .nan
  else .fin neg (f.mag c).1 (f.mag c).2

/-- The grid step below the magnitude m·2^e: the code of the largest representable magnitude at or
below it (R125 step 1), and the rest as numerator over 2^shift. Codes count on past `maxCode`. -/
def Flt.floor (f : Flt) (m : Nat) (e : Int) : Nat × Nat × Nat :=
  if m = 0 then (0, 0, 0) else
  let q := max f.qmin ((Nat.log2 m : Int) + e - f.mb)
  let base := (q - f.qmin).toNat * 2 ^ f.mb
  if q ≤ e then (base + m <<< (e - q).toNat, 0, 0)
  else
    let s := (q - e).toNat
    (base + m >>> s, m % 2 ^ s, s)

/-- Round-to-nearest-even of a magnitude to a code (R124). -/
def Flt.rne (f : Flt) (m : Nat) (e : Int) : Nat :=
  let (c, r, s) := f.floor m e
  if 2 * r > 2 ^ s || (2 * r == 2 ^ s && c % 2 == 1) then c + 1 else c

/-- Compare magnitudes m·2^e and m'·2^e': is the first above the second? -/
def magGt (m : Nat) (e : Int) (m' : Nat) (e' : Int) : Bool :=
  let z := min e e'
  decide (m' <<< (e' - z).toNat < m <<< (e - z).toNat)

/-! ### FP32 (R78) -/

/-- The only NaN the device produces (R54, R78). -/
def qnan : W32 := 0x7FC00000#32
def pinf : W32 := 0x7F800000#32
def ninf : W32 := 0xFF800000#32
def one32 : W32 := 0x3F800000#32

def dec32 (w : W32) : Num := fp32.dec w.toNat

/-- The FP32 code of a sign and an exact magnitude, rounded once to nearest even; beyond the range
it is infinity, and a subnormal result is kept. -/
def enc32 (neg : Bool) (m : Nat) (e : Int) : W32 :=
  let c := min (fp32.rne m e) 0x7F800000
  BitVec.ofNat 32 (if neg then c + 0x80000000 else c)

def ofNum (n : Num) : W32 :=
  match n with
  | .nan => qnan
  | .inf neg => if neg then ninf else pinf
  | .fin neg m e => enc32 neg m e

/-- Exact sum of two numbers; an exact zero is -0 only when both are negative zeros (IEEE 754). -/
def addNum (a b : Num) : Num :=
  match a, b with
  | .nan, _ => .nan
  | _, .nan => .nan
  | .inf x, .inf y => if x = y then .inf x else .nan
  | .inf x, .fin .. => .inf x
  | .fin .., .inf y => .inf y
  | .fin na ma ea, .fin nb mb eb =>
    let z := min ea eb
    let ia : Int := (ma <<< (ea - z).toNat : Nat)
    let ib : Int := (mb <<< (eb - z).toNat : Nat)
    let s := (if na then -ia else ia) + (if nb then -ib else ib)
    if s = 0 then .fin (na && nb) 0 0 else .fin (decide (s < 0)) s.natAbs z

/-- Exact product. -/
def mulNum (a b : Num) : Num :=
  match a, b with
  | .nan, _ => .nan
  | _, .nan => .nan
  | .inf x, .inf y => .inf (x != y)
  | .inf x, .fin y m _ => if m = 0 then .nan else .inf (x != y)
  | .fin x m _, .inf y => if m = 0 then .nan else .inf (x != y)
  | .fin x m e, .fin y m' e' => .fin (x != y) (m * m') (e + e')

def Num.neg : Num → Num
  | .nan => .nan
  | .inf x => .inf !x
  | .fin x m e => .fin (!x) m e

def fadd (a b : W32) : W32 := ofNum (addNum (dec32 a) (dec32 b))
def fsub (a b : W32) : W32 := ofNum (addNum (dec32 a) (dec32 b).neg)
def fmul (a b : W32) : W32 := ofNum (mulNum (dec32 a) (dec32 b))
/-- One rounding after the exact product and sum (R78). -/
def fma (a b c : W32) : W32 := ofNum (addNum (mulNum (dec32 a) (dec32 b)) (dec32 c))
def fneg (a : W32) : W32 := ofNum (dec32 a).neg
def fabs (a : W32) : W32 :=
  match dec32 a with
  | .nan => qnan
  | .inf _ => pinf
  | .fin _ m e => enc32 false m e

def isNan (a : W32) : Bool := dec32 a == .nan
def isFinite (a : W32) : Bool := match dec32 a with | .fin .. => true | _ => false
def isZero (a : W32) : Bool := match dec32 a with | .fin _ m _ => m == 0 | _ => false

/-- An order key of a number that is not NaN: equal values of either zero compare equal. -/
def ordKey (a : W32) : Int :=
  let m : Int := (a.toNat % 2 ^ 31 : Nat)
  if bit a.toNat 31 then -m else m

def flt (a b : W32) : Bool := !isNan a && !isNan b && decide (ordKey a < ordKey b)
def fle (a b : W32) : Bool := !isNan a && !isNan b && decide (ordKey a ≤ ordKey b)
def feq (a b : W32) : Bool := !isNan a && !isNan b && decide (ordKey a = ordKey b)

/-- MIN of R78: the operand that is not NaN, and -0 below +0. -/
def fmin (a b : W32) : W32 :=
  if isNan a then (if isNan b then qnan else b) else if isNan b then a
  else if flt a b || (feq a b && bit a.toNat 31) then a else b
/-- MAX of R78. -/
def fmax (a b : W32) : W32 :=
  if isNan a then (if isNan b then qnan else b) else if isNan b then a
  else if flt b a || (feq a b && !bit a.toNat 31) then a else b

/-- The nearest integer to ±m·2^e, ties to even. -/
def roundInt (neg : Bool) (m : Nat) (e : Int) : Int :=
  let a : Nat :=
    if 0 ≤ e then m <<< e.toNat
    else
      let s := (-e).toNat
      let k := m >>> s
      let r := m % 2 ^ s
      if 2 * r > 2 ^ s || (2 * r == 2 ^ s && k % 2 == 1) then k + 1 else k
  if neg then -(a : Int) else a

def clampInt (lo hi x : Int) : Int := if x < lo then lo else if hi < x then hi else x

def ofInt32 (x : Int) : W32 := BitVec.ofInt 32 x

/-- CVT from FP32 to INT32 (R78): nearest even, clamped; NaN gives 0. -/
def cvtToInt (a : W32) : W32 :=
  match dec32 a with
  | .nan => 0
  | .inf neg => if neg then 0x80000000#32 else 0x7FFFFFFF#32
  | .fin neg m e => ofInt32 (clampInt (-2147483648) 2147483647 (roundInt neg m e))

/-- CVT from INT32 to FP32. -/
def cvtFromInt (a : W32) : W32 := enc32 (decide (a.toInt < 0)) a.toInt.natAbs 0

/-- An integer as FP32, rounded to nearest even. -/
def f32OfInt (x : Int) : W32 := enc32 (decide (x < 0)) x.natAbs 0

/-- x·2^n, formed exactly and rounded once (R62). -/
def scale2 (x : W32) (n : Int) : W32 :=
  match dec32 x with
  | .fin neg m e => enc32 neg m (e + n)
  | y => ofNum y

/-- 2^n as FP32. -/
def pow2 (n : Int) : W32 := enc32 false 1 n

/-! ### Element formats (Table MX.1, Table NU.1) -/

/-- Bits per element of a format code. -/
def elemBits : Nat → Nat
  | 0 => 16 | 1 => 16 | 2 => 8 | 3 => 8 | 4 => 4 | 5 => 8 | 6 => 4 | _ => 32

/-- Is the code of the float class? -/
def isFloatFmt (f : Nat) : Bool := f ≤ 4
/-- Is the code of the integer class? -/
def isIntFmt (f : Nat) : Bool := f == 5 || f == 6

/-- The float format of a float format code. -/
def fmtOf : Nat → Flt
  | 0 => bf16 | 1 => fp16 | 2 => e4m3 | 3 => e5m2 | 4 => e2m1 | _ => fp32

/-- The integer of an INT8 or INT4 code. -/
def decInt (f w : Nat) : Int :=
  if f = 5 then (BitVec.ofNat 8 w).toInt else (BitVec.ofNat 4 w).toInt

/-- Decode an element; FP4 elements take the E8M0 scale `s` of their block (R120). -/
def decElem (f w s : Nat) : Num :=
  if f = 4 then
    if s = 0xFF then .nan else
    match e2m1.dec w with
    | .fin n m e => .fin n m (e + (s : Int) - 127)
    | x => x
  else if isIntFmt f then
    let i := decInt f w
    .fin (decide (i < 0)) i.natAbs 0
  else (fmtOf f).dec w

/-- Expansion of an element to FP32 (R52): exact, but for FP4 values beyond the range. -/
def expand32 (f w s : Nat) : W32 := if f = 8 then BitVec.ofNat 32 w else ofNum (decElem f w s)

/-! ### Conversion (R122 to R125) -/

/-- A converted element and what it reports to the Census (R135). -/
structure Conv where
  code : Nat
  sat : Bool := false
  flush : Bool := false
  nan : Bool := false
deriving DecidableEq, Repr

/-- How a conversion rounds: to nearest even, or with the 16-bit value of the generator. -/
inductive Rnd where
  | rne
  | sr (r : Nat)
deriving DecidableEq, Repr

/-- Round a magnitude to a grid code: R124, or R125 steps 2 to 4. -/
def Flt.roundBy (f : Flt) (rnd : Rnd) (m : Nat) (e : Int) : Nat :=
  match rnd with
  | .rne => f.rne m e
  | .sr r =>
    let (c, rem, s) := f.floor m e
    if r < (65536 * rem) >>> s then c + 1 else c

/-- Is the magnitude an overflow (R122)? -/
def Flt.overflow (f : Flt) (rnd : Rnd) (m : Nat) (e : Int) : Bool :=
  let (mm, me) := f.mag f.maxCode
  if f.eb == 8 || (f.eb == 5 && f.mb == 10) then
    match rnd with
    | .rne => !magGt (2 * mm + 1) (me - 1) m e
    | .sr _ => magGt m e mm me
  else magGt m e mm me

/-- Convert the exact value ±m·2^e to a float format. -/
def Flt.convFin (f : Flt) (rnd : Rnd) (neg : Bool) (m : Nat) (e : Int) : Conv :=
  let sgn := if neg then 2 ^ (f.eb + f.mb) else 0
  if f.overflow rnd m e then
    { code := sgn + (if f.eb == 8 || (f.eb == 5 && f.mb == 10) then (2 ^ f.eb - 1) <<< f.mb
        else f.maxCode), sat := true }
  else
    let c := f.roundBy rnd m e
    { code := sgn + c, flush := decide (c = 0) && decide (m ≠ 0) }

/-- What a NaN converts to (Table NU.4). -/
def nanCode : Nat → Nat
  | 0 => 0x7FC0 | 1 => 0x7E00 | 2 => 0x7F | 3 => 0x7E | _ => 0

/-- What an infinity converts to (Table NU.4). -/
def infCode (fmt : Nat) (neg : Bool) : Nat :=
  match fmt with
  | 0 => if neg then 0xFF80 else 0x7F80
  | 1 => if neg then 0xFC00 else 0x7C00
  | 2 => if neg then 0xFF else 0x7F
  | 3 => if neg then 0xFC else 0x7C
  | 5 => if neg then 0x80 else 0x7F
  | 6 => if neg then 0x8 else 0x7
  | _ => 0

/-- Convert an FP32 value scaled by 2^(-x) to the format code `fmt` (Table NU.4). In an MX block the
scale byte carries NaN, so FP4 converts non-finite values to element 0. -/
def convert (fmt : Nat) (rnd : Rnd) (v : W32) (x : Int) : Conv :=
  match dec32 v with
  | .nan => ⟨nanCode fmt, false, false, true⟩
  | .inf neg => ⟨infCode fmt neg, false, false, true⟩
  | .fin neg m e =>
    let e := e - x
    if isIntFmt fmt then
      let hi : Nat := if fmt = 5 then 127 else 7
      let lim : Nat := if neg then hi + 1 else hi
      let w := if fmt = 5 then 8 else 4
      if magGt m e lim 0 then
        { code := (BitVec.ofInt w (if neg then -(lim : Int) else lim)).toNat, sat := true }
      else
        let a : Nat := match rnd with
          | .rne => (roundInt false m e).natAbs
          | .sr r =>
            if 0 ≤ e then m <<< e.toNat else
            let s := (-e).toNat
            if r < (65536 * (m % 2 ^ s)) >>> s then (m >>> s) + 1 else m >>> s
        { code := (BitVec.ofInt w (if neg then -(a : Int) else a)).toNat,
          flush := decide (a = 0) && decide (m ≠ 0) }
    else (fmtOf fmt).convFin rnd neg m e

/-- Floor of log₂ of a finite non-zero magnitude. -/
def log2mag (m : Nat) (e : Int) : Int := (Nat.log2 m : Int) + e

/-- The scale exponent of R129, R130 and R151: ⌊log₂ amax⌋ − emax, clamped to ±127; 0 for amax 0.
The Bool tells a clamp at −127 (R135). -/
def scaleExp (amax : W32) (emax : Int) : Int × Bool :=
  match dec32 amax with
  | .fin _ m e =>
    if m = 0 then (0, false) else
    let x := log2mag m e - emax
    (clampInt (-127) 127 x, decide (x < -127))
  | _ => (0, false)

/-- The largest finite magnitude of a list of FP32 values, +0 for none. -/
def amaxOf : List W32 → W32
  | [] => 0
  | a :: t => let r := amaxOf t
    if isFinite a && flt r (fabs a) then fabs a else r

/-- FP32 to FP16 by round-to-nearest-even as R101 stores offsets: below −65,504 is −65,504. -/
def fp16rne (d : W32) : U16 :=
  match dec32 d with
  | .fin neg m e => if fp16.overflow (.sr 0) m e
      then (if neg then 0xFBFF#16 else 0x7BFF#16)
      else BitVec.ofNat 16 ((if neg then 0x8000 else 0) + min (fp16.rne m e) 0x7BFF)
  | .inf neg => if neg then 0xFBFF#16 else 0x7BFF#16
  | .nan => 0x7E00#16

/-- Exact expansions of stored 16-bit values. -/
def ofFp16 (w : U16) : W32 := ofNum (fp16.dec w.toNat)
def ofBf16 (w : U16) : W32 := ofNum (bf16.dec w.toNat)

/-! ### The generator (R127) -/

def rotl64 (x : W64) (n : Nat) : W64 := x.rotateLeft n

/-- One round of R127. -/
def genRound (c1 m1 : W64) (st : W64 × W64 × W64) (rot : Nat) : W64 × W64 × W64 :=
  let (x, y, k) := st
  let x := x + y + k
  (x, rotl64 y rot ^^^ x, k * m1 + c1)

/-- The 16-bit value for (seed, tensor ID, step, element index modulo 2^48). -/
def gen (seed : W64) (tid step : W32) (idx : Nat) : Nat :=
  let e := idx % 2 ^ 48
  let x0 : W64 := BitVec.ofNat 64 (e >>> 2) ^^^ 0x6a09e667f3bcc908#64
  let y0 : W64 := BitVec.ofNat 64 (tid.toNat * 2 ^ 32 + step.toNat)
  let (x, y, _) := [13, 41, 7, 29, 53, 19, 37, 3].foldl
    (genRound 0xbb67ae8584caa73b#64 0x3c6ef372fe94f82b#64) (x0, y0, seed)
  let z := x ^^^ rotl64 y 17
  let z := (z ^^^ (z >>> 31)) * 0xa54ff53a5f1d36f1#64
  let z := z ^^^ (z >>> 29)
  bits z.toNat (16 * (e % 4) + 15) (16 * (e % 4))

/-- The rounding of element `idx` under the rounding field (0 nearest even, 1 stochastic). -/
def rndOf (stoch : Bool) (seed : W64) (tid step : W32) (idx : Nat) : Rnd :=
  if stoch then .sr (gen seed tid step idx) else .rne

end Sys2Proof.Machine
end

