-- ==== Sys2Proof/Machine/Quad.lean ====
section
/-! DEFINITION. The 64-segment quadratics of R62 and R79. The reference functions are computed in
fixed point with 320 fraction bits, enough for the correct rounding to FP32 that R62 asks of each
function value; every coefficient is one exact rational, rounded once. -/

namespace Sys2Proof.Machine

/-- Fraction bits of the fixed-point evaluation. -/
def fxP : Nat := 320
def fxOne : Nat := 2 ^ fxP

/-- Σ x^(2k+1)/(2k+1) in fixed point, `n` terms from `k`; `p` is the present power of x. -/
def atanhSeries (x2 : Nat) : Nat → Nat → Nat → Nat
  | 0, _, _ => 0
  | n + 1, k, p => p / (2 * k + 1) + atanhSeries x2 n (k + 1) ((p * x2) >>> fxP)

/-- ln(num/den) for 1 ≤ num/den ≤ 2, in fixed point: 2·atanh((num − den)/(num + den)). -/
def lnFx (num den : Nat) : Nat :=
  let x := (num - den) * fxOne / (num + den)
  2 * atanhSeries ((x * x) >>> fxP) 105 0 x

def ln2Fx : Nat := lnFx 2 1

/-- Σ r^k/k! in fixed point: `t` is the present term. -/
def expSeries (r : Nat) : Nat → Nat → Nat → Nat
  | 0, _, _ => 0
  | n + 1, k, t => t + expSeries r n (k + 1) ((t * r) >>> fxP / (k + 1))

/-- e^(x/2^320) as (mantissa with 320 fraction bits, binary exponent). -/
def expFx (x : Int) : Nat × Int :=
  let n := x / (ln2Fx : Int)
  (expSeries (x - n * ln2Fx).toNat 75 0 fxOne, n)

/-- Round the rational ±p/q (q > 0) to FP32, to nearest even. -/
def roundQ (neg : Bool) (p q : Nat) : W32 :=
  if p = 0 then enc32 neg 0 0 else
  -- 64 more quotient bits than FP32 keeps, and one sticky bit for the rest
  let s : Int := 90 + (Nat.log2 q : Int) - Nat.log2 p
  let num := if 0 ≤ s then p <<< s.toNat else p
  let den := if 0 ≤ s then q else q <<< (-s).toNat
  let k := num / den
  enc32 neg (2 * k + (if num % den = 0 then 0 else 1)) (-s - 1)

/-- The reference functions whose quadratics the device holds. -/
inductive Ref where
  | gelu | silu | softplus | exp2 | log2 | recip | rsqrt
deriving DecidableEq, Repr

/-- t/(1 + e^(-w)), with t = ±tn/td and w in fixed point, correctly rounded. -/
def sigmoidTimes (neg : Bool) (tn td : Nat) (w : Int) : W32 :=
  let (m, e) := expFx (-w)
  if 0 ≤ e then roundQ neg (tn * fxOne) (td * (fxOne + m <<< e.toNat))
  else roundQ neg (tn * fxOne <<< (-e).toNat) (td * (fxOne <<< (-e).toNat + m))

/-- The reference function at the rational ±n/d, correctly rounded to FP32 (R62). -/
def Ref.at (f : Ref) (neg : Bool) (n d : Nat) : W32 :=
  let sgn (x : Nat) : Int := if neg then -(x : Int) else x
  match f with
  | .gelu =>
    -- 2·0.7978845608·(t + 0.044715·t³)
    let num := 2 * 7978845608 * (n * d * d * 1000000 + 44715 * n * n * n) * fxOne
    sigmoidTimes neg n d (sgn (num / (10 ^ 16 * d * d * d)))
  | .silu => sigmoidTimes neg n d (sgn (n * fxOne / d))
  | .softplus =>
    let (m, e) := expFx (sgn (n * fxOne / d))
    -- y = 1 + e^t = (one + m)/one on a common scale
    let one := if 0 ≤ e then fxOne else fxOne <<< (-e).toNat
    let y := one + (if 0 ≤ e then m <<< e.toNat else m)
    let k := Nat.log2 (y / one)
    roundQ false (k * ln2Fx + lnFx y (one <<< k)) fxOne
  | .exp2 =>
    let (m, e) := expFx (sgn (n * ln2Fx / d))
    if 0 ≤ e then roundQ false (m <<< e.toNat) fxOne else roundQ false m (fxOne <<< (-e).toNat)
  | .log2 => roundQ false (lnFx n d) ln2Fx
  | .recip => roundQ false d n
  | .rsqrt => roundQ false (Nat.sqrt (d * 2 ^ 400 / n)) (2 ^ 200)

/-- An FP32 value as a numerator over 2^149. -/
def num149 (a : W32) : Int :=
  match dec32 a with
  | .fin neg m e => let v : Int := (m <<< (e + 149).toNat : Nat); if neg then -v else v
  | _ => 0

/-- A quotient of integers over 2^149 as FP32. -/
def roundQ149 (x : Int) (mul div : Nat) : W32 :=
  roundQ (decide (x < 0)) (x.natAbs * mul) (div * 2 ^ 149)

/-- The three coefficients c₀, c₁, c₂ of the segment with left end ±a/d and width w/d, where the
function is taken at the ends and the middle (R62 steps 1 to 3). `a` is signed. -/
def Ref.coeffs (f : Ref) (a : Int) (w d : Nat) : W32 × W32 × W32 :=
  let pt (k : Nat) : W32 :=
    let x : Int := 2 * a + k * w
    f.at (decide (x < 0)) x.natAbs (2 * d)
  let f0 := pt 0
  let i0 := num149 f0
  let i1 := num149 (pt 1)
  let i2 := num149 (pt 2)
  (f0, roundQ149 (4 * i1 - 3 * i0 - i2) d w, roundQ149 (2 * (i0 - 2 * i1 + i2)) (d * d) (w * w))

/-- y = fma(fma(c₂, d, c₁), d, c₀) (R62). -/
def quadEval (c : W32 × W32 × W32) (d : W32) : W32 := fma (fma c.2.2 d c.2.1) d c.1

/-- The floor of ±m·2^e·mul. -/
def floorMul (neg : Bool) (m : Nat) (e : Int) (mul : Nat) : Int :=
  let x : Nat := m * mul
  let f : Nat := if 0 ≤ e then x <<< e.toNat else x >>> (-e).toNat
  let exact : Bool := if 0 ≤ e then true else x % 2 ^ (-e).toNat == 0
  if neg then (if exact then -(f : Int) else -(f : Int) - 1) else f

/-- The offset of ±m·2^e from the rational a/d, where d is a power of two, rounded once to FP32 (DESIGN CHOICE,
log 93). -/
def offsetFrom (neg : Bool) (m : Nat) (e : Int) (a : Int) (d : Nat) : W32 :=
  ofNum (addNum (.fin neg m e) (.fin (decide (0 < a)) a.natAbs (-(Nat.log2 d : Int))))

/-- 2^x of an exact finite x, by the construction of R62 code 6. -/
def exp2Fin (neg : Bool) (m : Nat) (e : Int) : W32 :=
  if 10 < log2mag m e && m ≠ 0 then (if neg then 0 else pinf) else
  let n := floorMul neg m e 1
  -- the segment of x − n, in units of 1/64
  let i := floorMul neg m e 64 - 64 * n
  let d := offsetFrom neg m e (64 * n + i) 64
  scale2 (quadEval (Ref.exp2.coeffs i 1 64) d) n

/-- EXP2 (Table VX.3). -/
def fexp2 (x : W32) : W32 :=
  match dec32 x with
  | .nan => qnan
  | .inf neg => if neg then 0 else pinf
  | .fin neg m e => exp2Fin neg m e

/-- Split of a positive finite magnitude into (mantissa in [1, 2) over 2^s, s, exponent). -/
def normSplit (m : Nat) (e : Int) : Nat × Nat × Int :=
  let l := Nat.log2 m
  (m, l, e + l)

/-- LOG2 (Table VX.3). -/
def flog2 (x : W32) : W32 :=
  match dec32 x with
  | .nan => qnan
  | .inf neg => if neg then qnan else pinf
  | .fin neg m e =>
    if m = 0 then ninf else if neg then qnan else
    let (mm, s, ex) := normSplit m e
    let i := floorMul false mm (-(s : Int)) 64 - 64
    let d := offsetFrom false mm (-(s : Int)) (64 + i) 64
    fadd (f32OfInt ex) (quadEval (Ref.log2.coeffs (64 + i) 1 64) d)

/-- RCP (Table VX.3). -/
def frcp (x : W32) : W32 :=
  match dec32 x with
  | .nan => qnan
  | .inf neg => if neg then 0x80000000#32 else 0
  | .fin neg m e =>
    if m = 0 then (if neg then ninf else pinf) else
    let (mm, s, ex) := normSplit m e
    let mant := enc32 false mm (-(s : Int))
    let i := floorMul false mm (-(s : Int)) 64 - 64
    let y0 := quadEval (Ref.recip.coeffs (64 + i) 1 64) (offsetFrom false mm (-(s : Int)) (64 + i) 64)
    let r := fma (fneg mant) y0 one32
    let y1 := fma y0 r y0
    let y := scale2 y1 (-ex)
    if neg then fneg y else y

/-- RSQRT (Table VX.3): segments of width 3/64 on [1, 4). -/
def frsqrt (x : W32) : W32 :=
  match dec32 x with
  | .nan => qnan
  | .inf neg => if neg then qnan else 0
  | .fin neg m e =>
    if m = 0 then (if neg then ninf else pinf) else if neg then qnan else
    let (mm, s, ex) := normSplit m e
    -- j and the remaining mantissa in [1, 4)
    let j := ex / 2
    let me : Int := -(s : Int) + (ex - 2 * j)
    let i := (floorMul false mm me 64 - 64) / 3
    let y0 := quadEval (Ref.rsqrt.coeffs (64 + 3 * i) 3 64) (offsetFrom false mm me (64 + 3 * i) 64)
    let a := fmul y0 y0
    let b := fma (enc32 true mm (me - 1)) a 0x3FC00000#32
    scale2 (fmul y0 b) (-j)

/-- sqrt(x) of R162: +0 for zero, x·RSQRT(x) otherwise. -/
def fsqrt (x : W32) : W32 := if isZero x then 0 else fmul x (frsqrt x)

/-- ex(x) of R100. -/
def exE (x : W32) : W32 := fexp2 (fmul x 0x3FB8AA3B#32)
/-- ln(x) of R100. -/
def lnE (x : W32) : W32 := fmul (flog2 x) 0x3F317218#32

/-- Activations 3 to 5 on a finite value: the segment of R62's range table, in quarters. -/
def quadAct (f : Ref) (t : W32) : W32 :=
  match dec32 t with
  | .nan => qnan
  | .inf neg => if neg then 0 else pinf
  | .fin neg m e =>
    if neg && magGt m e 14 0 then 0
    else if !neg && !magGt 14 0 m e then t
    else
      let q := floorMul neg m e 4
      let (a, w) : Int × Nat :=
        if -24 ≤ q && q < 24 then (q, 1) else (4 * (q / 4), 4)
      quadEval (f.coeffs a w 4) (offsetFrom neg m e a 4)

/-- The activation field of Table MX.9, codes 0 to 5. -/
def activate (act : Nat) (t : W32) : W32 :=
  match act with
  | 1 => if isNan t then qnan else if flt 0 t then t else 0
  | 2 => if isNan t then qnan else if flt 0 t then fmul t t else 0
  | 3 => quadAct .gelu t
  | 4 => quadAct .silu t
  | 5 => quadAct .softplus t
  | _ => t

/-- ACT 6 of R62: 2^(t − c_r); d is rounded, its split is exact. -/
def shiftedExp2 (t c : W32) : W32 := fexp2 (fsub t c)

end Sys2Proof.Machine
end

