-- ==== Sys2Proof/Machine/Bursar.lean ====
section
/-! DEFINITION. The Bursar: hints, cap division, sharing, Hold, droop and heat (12), and the PACE windows
with their heartbeats (R40 to R42, R239). -/

namespace Sys2Proof.Machine
open Sys2Proof

/-! ### Demand and division (R249, R251, R252) -/

/-- Does the hint name the die? -/
def HintRec.names (h : HintRec) (d : Nat) : Bool := bit h.live.toNat d

/-- The hint that governs a die (R249): highest effective priority, then dispatched last. -/
def State.governing (s : State) (d : Nat) : Option HintRec :=
  s.bursar.hints.foldl (fun best h =>
    if s.isIn h.ctx.toNat && h.names d then
      match best with
      | none => some h
      | some b =>
        let pb := s.eff b.ctx.toNat
        let ph := s.eff h.ctx.toNat
        if pb < ph ∨ (pb = ph ∧ b.no < h.no) then some h else some b
    else best) none

/-- Phase class of a die; IDLE without a hint. -/
def State.phaseOf (s : State) (d : Nat) : Nat := ((s.governing d).map fun h => h.cls.toNat).getD 0

/-- The demand entry (COMPUTE, MEMORY) of a die and class, reset 285 W and 45 W (R251). -/
def State.demand (s : State) (d c : Nat) : W32 × W32 :=
  SMap.get (0x438E8000#32, 0x42340000#32) s.bursar.demand (16 * d + c)

/-- A demand as a multiple of 2^-149 W; what an entry that is not finite stands for is open (log 24). -/
def State.watts (_ : State) (w : W32) : Int :=
  num149 (if isFinite w then w else Config.demandOf w)

/-- pred(d) at point `n`, in units of 2^-149 / 75^3 W. -/
def State.pred (s : State) (d n : Nat) : Int := s.watts (s.demand d (s.phaseOf d)).1 * (60 + n) ^ 3

/-- cap - static - links - memory demands, in the units of `pred`. -/
def State.left (s : State) : Int :=
  let b := s.bursar
  let w : Int := (b.capIn.toNat : Int) - b.staticW.toNat - b.linkW.toNat
  let m : Int := ((List.range s.dies).map fun d => s.watts (s.demand d (s.phaseOf d)).2).sum
  (w * 2 ^ 149 - m) * 75 ^ 3

/-- Sum of pred over the powered dies at the given points. -/
def State.predSum (s : State) (n : List Nat) : Int :=
  ((List.range s.dies).map fun d => s.pred d (n.getD d 0)).sum

/-- The die lowered next: highest point, then largest pred, then lowest index. -/
def State.lowerDie (s : State) (n : List Nat) : Nat :=
  (List.range s.dies).foldl (fun b d =>
    if n.getD b 0 < n.getD d 0 ∨ (n.getD b 0 = n.getD d 0 ∧ s.pred b (n.getD b 0) < s.pred d (n.getD d 0))
    then d else b) 0

/-- The lowering loop of R252. -/
def State.lower (s : State) : Nat → List Nat → List Nat
  | 0, n => n
  | k + 1, n =>
    let d := s.lowerDie n
    if s.left < s.predSum n ∧ 0 < n.getD d 0 then s.lower k (n.set d (n.getD d 0 - 1)) else n

/-- max(0, floor(64 left / sum)), at most 64. -/
def dutyOf (left sum : Int) : Nat := if sum ≤ left then 64 else (64 * left / sum).toNat

def State.points (s : State) : List Nat := (List.range s.dies).map fun d => (s.dpow d).point.toNat

/-- Apply a change to the power record of every powered die. -/
def State.eachDie (s : State) (f : Nat → DiePower → DiePower) : State :=
  (List.range s.dies).foldl (fun s d => s.modDp d (f d)) s

/-- Is some powered die above its target? -/
def State.above (s : State) : Bool :=
  (List.range s.dies).any fun d => decide ((s.dpow d).target < (s.dpow d).point)

/-- End the ramp when every die has reached its target: the duty becomes the division's (R252). -/
def State.endRamp (s : State) : State :=
  if s.bursar.ramping && !s.above then
    ({ s with bursar := { s.bursar with ramping := false } }).eachDie fun _ p => { p with duty := s.bursar.divDuty }
  else s

/-- CAP_DIVISION (R252), in FULL. -/
def State.divide (s : State) : State :=
  if s.boot.profile ≠ 2 then s else
  let n := s.lower 200 ((List.range s.dies).map fun d => (s.dpow d).allow.toNat)
  let duty := BitVec.ofNat 7 (dutyOf s.left (s.predSum n))
  let s := s.eachDie fun d p => { p with target := BitVec.ofNat 5 (n.getD d 0) }
  ({ s with bursar := { s.bursar with divDuty := duty, ramping := true } }).endRamp

/-! ### Hints (R248, R249) -/

/-- The dies a hint governs. -/
def State.governed (s : State) (h : HintRec) : Byte :=
  BitVec.ofNat 8 (((List.range s.dies).filter fun d => s.governing d = some h).map fun d => 2 ^ d).sum

/-- Drop the dies `m` from the live masks of a context's earlier hints; what each governed of them until then is noted
(R251). -/
def State.supersede (s : State) (c : CtxId) (m : Byte) : List HintRec :=
  s.bursar.hints.map fun h =>
    if h.ctx = c then { h with live := h.live &&& ~~~m, ruled := h.ruled ||| (m &&& s.governed h) } else h

/-- The dies a hint names: a zero mask names every powered die; unpowered dies are ignored (R248). -/
def State.hintMask (s : State) (m : Byte) : Byte :=
  let all := BitVec.ofNat 8 (2 ^ s.dies - 1)
  if m = 0 then all else m &&& all

/-- HINT: it completes at dispatch; a reserved class faults BAD_OP (R248). -/
def execHint (c : CtxId) (s : State) : Out :=
  match s.sched.hint.find? (·.ctx = c) with
  | none => .next s
  | some q =>
    let cls := fld q.img 0x10 3 0
    if 7 ≤ cls then .next (s.faultCmd q 0x0001) else
    let m := s.hintMask (BitVec.ofNat 8 (fld q.img 0x18 7 0))
    let s := { s with
      sched := { s.sched with hint := s.sched.hint.erase q }
      bursar := { s.bursar with
        hintNo := s.bursar.hintNo + 1
        hints := s.supersede c m ++
          [{ no := s.bursar.hintNo, ctx := c, cls := BitVec.ofNat 4 cls, dur := w32 q.img 0x14, mask := m, live := m : HintRec }] } }
    let governs := (List.range s.dies).any fun d => (s.governing d).any fun (h : HintRec) => h.no + 1 = s.bursar.hintNo
    .next ((if governs then s.divide else s).complete q)

/-- One window of a die joins what a hint has seen there at the die's voltage point. -/
def HintRec.see (h : HintRec) (d : Nat) (p : DiePower) : HintRec :=
  let at_ (x : HintSeen) : Bool := x.die == d && x.point == p.point
  let x := (h.seen.find? at_).getD { die := d, point := p.point }
  { h with seen := (h.seen.filter fun x => !at_ x) ++
      [{ x with
        us := x.us + 10, draw := x.draw + 10 * p.computeW.toNat, stack := x.stack + 10 * p.stackW.toNat }] }

/-- At a window close the estimate of each die goes to the hint that governs it (R251); the window counts at the voltage
point the die has then (DESIGN CHOICE, log 115). -/
def State.seeWindow (s : State) : State :=
  let see (h : HintRec) : HintRec :=
    (List.range s.dies).foldl (fun h d => if (s.governing d).any (·.no == h.no) then h.see d (s.dpow d) else h) h
  { s with bursar := { s.bursar with hints := s.bursar.hints.map see } }

/-- A draw over a span referred to the rated point, point by point (R251): from each point's time and its draw times that
time in units of 2^-149, the mean as a fraction of such units. -/
def refer (segs : List (BitVec 5 × Nat × Int)) : Int × Nat :=
  let scale (n : Nat) : Nat := ((List.range 26).foldl (fun a k => if k = n then a else a * (60 + k) ^ 3) 1)
  let us := (segs.map fun g => g.2.1).sum
  let all := (List.range 26).foldl (fun a k => a * (60 + k) ^ 3) 1
  ((segs.map fun g => g.2.2 * ((75 ^ 3 * scale g.1.toNat : Nat) : Int)).sum, us * all)

/-- x + (obs - x)·2^-shift with obs = p/q·2^-149, formed exactly and rounded once (log 30). -/
def learn (shift : Nat) (x : Int) (p : Int) (q : Nat) : W32 :=
  let num : Int := x * q * 2 ^ shift + (p - x * q)
  roundQ149 num 1 (q * 2 ^ shift)

/-- The time and draw of die `d` over a hint's span, by voltage point: its whole windows, and what is left of the span. -/
def HintRec.segs (h : HintRec) (obs : List HintObs) (d : Nat) : List (BitVec 5 × Nat × Int) :=
  ((h.seen.filter (·.die == d)).map fun x => (x.point, x.us, (x.draw : Int) * 2 ^ 149))
    ++ (obs.filter (·.die.val == d)).flatMap fun o => o.segs.map fun g => (g.1, g.2.1, num149 g.2.2 * g.2.1)

/-- The draw of its stacks over the span, times the time. -/
def HintRec.stackDraw (h : HintRec) (obs : List HintObs) (d : Nat) : Int :=
  ((h.seen.filter (·.die == d)).map fun x => (x.stack : Int) * 2 ^ 149).sum
    + ((obs.filter (·.die.val == d)).map fun o => num149 o.mem * ((o.segs.map fun g => g.2.1).sum : Nat)).sum

/-- The demand entry of one die learns from the mean over the span. -/
def State.learnDie (s : State) (h : HintRec) (obs : List HintObs) (d : Nat) : State :=
  let segs := h.segs obs d
  let us := (segs.map fun g => g.2.1).sum
  if us = 0 then s else
  let e := s.demand d h.cls.toNat
  let sh := s.bursar.shift.toNat
  let r := refer segs
  let v := (learn sh (s.watts e.1) r.1 r.2, learn sh (s.watts e.2) (h.stackDraw obs d) us)
  { s with bursar := { s.bursar with demand := SMap.set (0x438E8000#32, 0x42340000#32) s.bursar.demand (16 * d + h.cls.toNat) v } }

/-- Update the demand entries of an ending hint's class from what the Bursar saw, for the dies that it governed (R251). -/
def State.learnHint (s : State) (h : HintRec) (span : Nat) (obs : List HintObs) : State :=
  if s.bursar.freeze || span < 100 then s else
  let m := h.ruled ||| s.governed h
  (List.range s.dies).foldl (fun s d => if bit m.toNat d then s.learnDie h obs d else s) s

/-- Does the hint end: its duration is over, or, of duration 0, another has superseded it (R248, R249)? -/
def HintRec.ends (h : HintRec) : Bool := h.dur != 0 || h.live == 0

/-- A hint ends: its entries learn from the span, and the cap is divided again (R249, R251, R252). -/
def execHintExpire (no span : Nat) (obs : List HintObs) (s : State) : Out :=
  match s.bursar.hints.find? (·.no = no) with
  | none => .next s
  | some h =>
    if !h.ends then .next s else
    let s := if s.boot.profile = 2 then s.learnHint h span obs else s
    .next (State.divide { s with bursar := { s.bursar with hints := s.bursar.hints.filter (·.no ≠ no) } })

/-! ### The window control (R250 to R254) -/

/-- est > cap, and est < 97 % of cap. -/
def State.overCap (s : State) : Bool := decide (s.bursar.capIn.toNat < s.bursar.est.toNat)
def State.underCap (s : State) : Bool := decide (100 * s.bursar.est.toNat < 97 * s.bursar.capIn.toNat)

/-- One voltage point less than the die would go to (R250, R258). -/
def DiePower.sink (p : DiePower) : DiePower :=
  { p with target := (if p.allow < p.target then p.allow else p.target) - (if p.target = 0 ∨ p.allow = 0 then 0 else 1) }

/-- Lower domain `k` (0 memory, 1 compute, 2 links) by one step, if it is above its floor: compute by one point while
a die stands above 0.60 V, then by 8/64 of duty (R250, R254). -/
def State.lowerDomain (s : State) (k : Nat) : Option State :=
  let b := s.bursar
  if k = 0 then (if 1 < b.memRate.toNat then some { s with bursar := { b with memRate := b.memRate - 1 } } else none)
  else if k = 2 then (if 1 < b.linkRate.toNat then some { s with bursar := { b with linkRate := b.linkRate - 1 } } else none)
  else if (List.range s.dies).any fun d => 0 < (s.dpow d).point.toNat then some (s.eachDie fun _ p => p.sink)
  else if (List.range s.dies).any fun d => 0 < (s.dpow d).duty.toNat then
    some (s.eachDie fun _ p => { p with duty := BitVec.ofNat 7 (p.duty.toNat - 8) })
  else none

/-- Raise domain `k` by one step, if it is below full. -/
def State.raiseDomain (s : State) (k : Nat) : Option State :=
  let b := s.bursar
  if k = 0 then (if b.memRate.toNat < 16 then some { s with bursar := { b with memRate := b.memRate + 1 } } else none)
  else if k = 2 then (if b.linkRate.toNat < 16 then some { s with bursar := { b with linkRate := b.linkRate + 1 } } else none)
  else if (List.range s.dies).any fun d => (s.dpow d).duty.toNat < 64 then
    some (s.eachDie fun _ p => { p with duty := BitVec.ofNat 7 (min 64 (p.duty.toNat + 8)) })
  else if (List.range s.dies).any fun d => (s.dpow d).target < (s.dpow d).allow then
    some (s.eachDie fun _ p => { p with target := if p.target < p.allow then p.target + 1 else p.target })
  else none

def firstSome (f : Nat → Option State) : List Nat → Option State
  | [] => none
  | k :: t => match f k with
    | some s => some s
    | none => firstSome f t

/-- The domains in rank order. -/
def State.ranks (s : State) : List Nat :=
  let o := s.bursar.shareOrder.toNat
  [o % 4, o / 4 % 4, o / 16 % 4]

/-- The lowest powered die: lowest point, then lowest index. -/
def State.lowest (s : State) : Nat :=
  (List.range s.dies).foldl (fun b d => if (s.dpow d).point < (s.dpow b).point then d else b) 0

/-- Raise a die to point `n`: a higher target stays (R252, R259). -/
def DiePower.lift (p : DiePower) (n : Nat) : DiePower :=
  { p with target := if p.target.toNat < n then BitVec.ofNat 5 n else p.target }

/-- The corrections of FULL between divisions (R252), windows of 10 µs: a raise at most once per 1 ms. -/
def State.correct (s : State) : State :=
  let b := s.bursar
  let s := { s with bursar := { b with raiseWait := b.raiseWait - 1 } }
  if s.overCap then s.eachDie fun _ p => { p with duty := BitVec.ofNat 7 (p.duty.toNat - 4) }
  else if s.underCap && (List.range s.dies).any (fun d => (s.dpow d).duty < b.divDuty) then
    s.eachDie fun _ p => { p with duty := if p.duty < b.divDuty then p.duty + 1 else p.duty }
  else
    let d := s.lowest
    let n := (s.dpow d).point.toNat
    if b.raiseWait ≤ 1 && (List.range s.dies).all (fun d => (s.dpow d).duty = 64) && decide (n < 25)
        && decide (n < (s.dpow d).allow.toNat) && decide (s.predSum (s.points.set d (n + 1)) ≤ s.left) then
      ({ s with bursar := { s.bursar with raiseWait := 100 } }).modDp d fun p => p.lift (n + 1)
    else s

/-- BURSAR_WINDOW_CONTROL. -/
def State.control (s : State) : State :=
  let s := if s.bursar.capIn = s.bursar.cap then s
    else ({ s with bursar := { s.bursar with capIn := s.bursar.cap } }).divide
  if s.boot.profile = 2 then
    if s.bursar.ramping then
      if s.above then
        let d := BitVec.ofNat 7 (min s.bursar.divDuty.toNat (dutyOf s.left (s.predSum s.points)))
        s.eachDie fun _ p => { p with duty := d }
      else s.endRamp
    else s.correct
  else if s.overCap then (firstSome s.lowerDomain s.ranks.reverse).getD s
  else if s.underCap then (firstSome s.raiseDomain s.ranks).getD s
  else s

/-! ### Status (Tables PW.4, PW.5) -/

def DiePower.gateDuty (p : DiePower) : BitVec 7 := if p.heatDuty < p.duty then p.heatDuty else p.duty
def State.anyDie (s : State) (f : DiePower → Bool) : Bool := (List.range s.dies).any fun d => f (s.dpow d)
def State.capGating (s : State) : Bool := s.anyDie fun p => decide (p.gateDuty.toNat < 64)
def State.throttling (s : State) : Bool := s.anyDie (·.throttle)
/-- THERM_LIMIT is the die sensor's (Table PW.2). -/
def State.thermLimit (s : State) : Bool := s.anyDie (·.thermDie)
/-- A thermal gate is closed. -/
def DiePower.thermGate (p : DiePower) : Bool := p.thermDie || p.thermStack

/-! ### PACE and heartbeats (R41, R42, R239) -/

/-- The slowest ring: its count, and of the rings that share it the lowest index (DESIGN CHOICE, log 108). -/
def minRing (r : List U16) : Nat × Nat :=
  (List.range 4).foldl (fun b i => let x := (r.getD i 0).toNat; if x < b.1 then (x, i) else b)
    ((r.getD 0 0).toNat, 0)

def Pace.close (p : Pace) (r : List U16) : Pace :=
  let (m, i) := minRing r
  { min := BitVec.ofNat 16 m
    mean := BitVec.ofNat 16 (((List.range 4).map fun i => (r.getD i 0).toNat).sum / 4)
    low := if m < p.low.toNat then BitVec.ofNat 16 m else p.low
    seq := p.seq + 1
    ring := BitVec.ofNat 8 i }

/-- The heartbeat's flags: HOLD, THROTTLE, DROOP_GATE, SELF_LAG (Table LK.6, R259). -/
def State.hbFlags (s : State) : Nat :=
  s.bursar.hold.toNat + 2 * (s.throttling || s.anyDie (·.thermGate) || s.capGating).toNat
    + 4 * (s.anyDie (·.droopSeen)).toNat + 8 * s.links.selfLag.toNat

/-- The 64-byte payload of Table LK.6. -/
def State.hbPayload (s : State) : List Byte :=
  let js := s.jobs
  let f := s.links.jobFirst
  leBytes 4 s.devId.toNat ++ leBytes 4 (s.pace1 + s.hbFlags * 2 ^ 16) ++ leBytes 8 s.devTime.toNat
    ++ leBytes 4 (s.pac s.slowDie).seq.toNat
    ++ ((List.range 8).map fun i => leBytes 2 (js.getD (f + i) 0)).flatten
    ++ leBytes 4 (js.length + f * 2 ^ 16) ++ List.replicate 24 0

/-- HEARTBEAT_SEND: one on every UP port, eight JOB values at a time. -/
def State.heartbeats (s : State) : State :=
  let pay := s.hbPayload
  let s' := (List.range 6).foldl (fun s p =>
    if (s.prt6 p).usable then
      let k : Packet :=
        { ty := 15, vc := 0, dateline := false, dst := s.neighbour p, src := s.devId, job := 0, dstCtx := 0
          srcCtx := 0, cont := false, length := 64, step := 0, target := 0, aux := 0, payload := pay }
      s.modPort p fun x => { x.queue k with silentRun := x.silentRun + 1 }
    else s) s
  let nx := s.links.jobFirst + 8
  { s' with links := { s'.links with jobFirst := if nx < s.jobs.length then nx else 0 } }

/-- The highest PACE among the job peers' last heartbeats, and whether there is a peer (R240). -/
def State.peerMax (s : State) : Nat :=
  (List.range 6).foldl (fun m p =>
    let x := s.prt6 p
    if x.usable && !x.jobBits.isEmpty then max m (x.hbLast.toNat % 65536) else m) 0

/-- The codewords the FEC of each port corrected in the window (R243, log 90). -/
def State.fecCounts (s : State) (w : WindowIn) : State :=
  (List.range 6).foldl (fun s p =>
    if (s.prt6 p).usable then s.modPort p fun x => { x with fecCorr := satAdd x.fecCorr (w.fec.getD p 0) } else s) s

/-- PACE_WINDOW_CLOSE: PACE of every powered die, the window control once the device is READY, and the heartbeats on
every port that is UP (R239), which show the gates of this window alone (R259). -/
def execPaceWindowClose (w : WindowIn) (s : State) : Out :=
  let s := s.fecCounts w
  let s := (List.range s.dies).foldl (fun s d => s.modPac d fun p => p.close ((w.rings.drop (4 * d)).take 4)) s
  let fresh (s : State) : State := s.eachDie fun _ p => { p with droopSeen := false }
  if !s.ready then .next (fresh s.heartbeats)
  else
    let s := s.eachDie fun d p => { p with computeW := w.dieW.getD d 0, stackW := w.stackW.getD d 0 }
    let s := { s with bursar := { s.bursar with est := w.est, memW := w.memW, linkW := w.linkW } }
    let s := fresh s.seeWindow.control.heartbeats
    let lag := decide (100 * s.pace1 < 95 * s.peerMax)
    .next { s with links := { s.links with lagRun := if lag then s.links.lagRun + 1 else 0 } }

/-- PACE_CLEAR (R42). -/
def execPaceClear (d : Die) (v : W32) (s : State) : Out :=
  if bit v.toNat 0 && s.canWrite (pgPace d.val) then .next (s.modPac d.val fun p => { p with low := 0xFFFF })
  else .next s

/-! ### Cap, Hold (R245, R253, R255) -/

/-- CAP: a value outside 600 to 3,200 W is replaced by the nearer limit. -/
def execCapWrite (v : W32) (s : State) : Out :=
  if s.canWrite pgBursar then
    let w := v.toNat % 4096
    let x := if w < 600 then 600 else if 3200 < w then 3200 else w
    let s := { s with bursar := { s.bursar with cap := BitVec.ofNat 12 x, capClamped := decide (x ≠ w) } }
    .next (if x ≠ w then s.alarm pgBursar 0 else s)
  else .next s

/-- SHARE_ORDER takes a permutation of the three domains only (R250). -/
def execShareOrderWrite (v : W32) (s : State) : Out :=
  if s.canWrite pgBursar then
    let o := v.toNat % 64
    let a := o % 4
    let b := o / 4 % 4
    let c := o / 16 % 4
    if a < 3 ∧ b < 3 ∧ c < 3 ∧ a ≠ b ∧ b ≠ c ∧ a ≠ c then
      .next { s with bursar := { s.bursar with shareOrder := BitVec.ofNat 6 o } }
    else .next (s.alarm pgBursar 5)
  else .next s

/-- POWER_WINDOW: measured power, and the count of windows above 1.05 x CAP (R245, R255). -/
def execPowerWindow (w : Option U16) (s : State) : Out :=
  if !s.ready then .next s else
  match w with
  | none => .next { s with bursar := { s.bursar with measuredOk := false, overWindows := 0 } }
  | some p =>
    let ex := decide (105 * s.bursar.capIn.toNat < 100 * p.toNat)
    .next { s with bursar := { s.bursar with
      measured := p, measuredOk := true, overWindows := if ex then s.bursar.overWindows + 1 else 0 } }

/-- HOLD_ENTER after 10 consecutive windows above 1.05 x CAP (R255). -/
def execHoldEnter (s : State) : Out :=
  if 10 ≤ s.bursar.overWindows && !s.bursar.hold then .next (s.enterHold none) else .next s

/-- HOLD_CTRL.RELEASE (R255, R287): the last measured window is at or below CAP and the alarm bit that
caused the Hold is clear; every die restarts at 0.60 V. -/
def execHoldRelease (v : W32) (s : State) : Out :=
  let b := s.bursar
  let clear := s.irq.holdBits.all fun p => !bit (SMap.get {} s.hdr p.1).alarm.toNat p.2
  if bit v.toNat 0 && s.canWrite pgBursar && b.hold && b.measuredOk && decide (b.measured.toNat ≤ b.capIn.toNat) && clear then
    let s := { s with
      bursar := { b with hold := false, overWindows := 0 }
      boot := { s.boot with pwrAlert := false }
      irq := { s.irq with holdSrc := none, holdBits := [] } }
    .next ((s.eachDie fun _ p => { p with point := 0 }).divide)
  else .next s

/-- A regulator that stopped answering or reports an output fault (R303): Hold, and no measured power. -/
def execRegulatorFault (s : State) : Out :=
  if s.boot.stage = 0 then .next s else
  .next (State.enterHold
    { s with bursar := { s.bursar with measuredOk := false, regFails := s.bursar.regFails + 1 } } none)

/-! ### Voltage, gates, heat (R247, R252, R256 to R259) -/

/-- One point toward the lower of the target and the heat allowance (R252, R258). -/
def DiePower.move (p : DiePower) : DiePower :=
  let t := if p.allow < p.target then p.allow else p.target
  { p with point := if p.point < t then p.point + 1 else if t < p.point then p.point - 1 else p.point }

def execVoltageStep (s : State) : Out :=
  if s.ready then .next ((s.eachDie fun _ p => p.move).endRamp) else .next s

/-- A microsecond of the cap-gate period begins on a die: the gate is open for the first GATE_DUTY µs of each 64 (R247),
and GATED_US counts one more while any gate closes issue (Table PW.5). -/
def DiePower.microsecond (p : DiePower) (us : Nat) (hold : Bool) : DiePower :=
  let o := decide (us < p.gateDuty.toNat)
  { p with capOpen := o, gatedUs := if o && !p.droop && !p.thermGate && !hold then p.gatedUs else satInc p.gatedUs }

def execCapGatePeriod (d : Die) (us : BitVec 6) (s : State) : Out :=
  if s.ready && s.diePowered d.val then .next (s.modDp d.val fun p => p.microsecond us.toNat s.bursar.hold)
  else .next s

def execDroopGateClose (d : Die) (s : State) : Out :=
  if s.boot.stage ≠ 0 && s.diePowered d.val && !(s.dpow d.val).droop then
    .next ((s.modDp d.val fun p => { p with droop := true, droopSeen := true, droopCount := satInc p.droopCount }).alarm
      (pgPower d.val) 0)
  else .next s

def execDroopGateOpen (d : Die) (s : State) : Out :=
  if s.boot.stage ≠ 0 && s.diePowered d.val then .next (s.modDp d.val fun p => { p with droop := false }) else .next s

/-- Rate of a stack after a check (Table PW.2): down by 1/16 to 1/4 while hot, full again below 93 °C. -/
def stackRate (r t : Nat) : Nat :=
  if 95 ≤ t ∨ (r < 16 ∧ 93 ≤ t) then max 4 (r - 1) else 16

/-- One die's check (Table PW.2): `t` its hottest sensor, `st` its three stacks. -/
def DiePower.heat (p : DiePower) (t : Nat) (st : List Nat) : DiePower :=
  let thr := 95 ≤ t || (p.throttle && 93 ≤ t)
  let m := st.foldl max 0
  let r (i : Nat) : Nat := stackRate (bits p.rates.toNat (5 * i + 4) (5 * i)) (st.getD i 0)
  { p with
    temp := BitVec.ofNat 8 t
    stackTemp := BitVec.ofNat 8 m
    tempHigh := if p.tempHigh.toNat < t then BitVec.ofNat 8 t else p.tempHigh
    throttle := thr
    allow := if thr then (if p.allow = 0 then 0 else p.allow - 1) else if p.allow < 25 then p.allow + 1 else p.allow
    heatDuty := if thr then (if p.point = 0 then BitVec.ofNat 7 (p.heatDuty.toNat - 8) else p.heatDuty) else 64
    thermDie := 105 ≤ t || (p.thermDie && 100 ≤ t)
    thermStack := 105 ≤ m || (p.thermStack && 100 ≤ m)
    rates := BitVec.ofNat 15 (r 0 + 32 * r 1 + 1024 * r 2) }

/-- The alarms of a die's check: throttle began; the thermal gate closed, or the die itself reached its limit; THERM_LIMIT
for the die sensor alone (Table PW.2). -/
def State.heatAlarms (s : State) (d : Nat) (old new : DiePower) : State :=
  let s := if new.throttle && !old.throttle then (s.alarm (pgPower d) 1).alarm pgBursar 3 else s
  let s := if (new.thermGate && !old.thermGate) || (new.thermDie && !old.thermDie) then s.alarm (pgPower d) 2 else s
  if new.thermDie && !old.thermDie then s.alarm pgBursar 2 else s

def State.heatDie (s : State) (d t : Nat) (st : List Nat) : State :=
  let old := s.dpow d
  let new := old.heat t st
  (s.modDp d fun _ => new).heatAlarms d old new

def execThermalCheck (dieC stackC : List Byte) (s : State) : Out :=
  if s.ready then
    .next ((List.range s.dies).foldl (fun s d =>
      s.heatDie d (dieC.getD d 0).toNat (((stackC.drop (3 * d)).take 3).map BitVec.toNat)) s)
  else .next s

/-- SELF_LAG (R240, R259): the flag and, at every signal, the alarms, and in FULL one point more for the slowest dies while the
prediction stays within the cap and no thermal row is active on them. -/
def execSelfLag (s : State) : Out :=
  if s.links.lagRun < 100 || !s.ready then .next s else
  let s := { s with links := { s.links with selfLag := true }, bursar := { s.bursar with selfLag := true } }
  let s := (s.alarm pgLinks 2).alarm pgBursar 4
  if s.boot.profile ≠ 2 then .next s else
  let slow := (List.range s.dies).filter fun d => (s.pac d).min.toNat = s.pace1
  let ok (d : Nat) : Bool :=
    let p := s.dpow d
    p.point.toNat < 25 && !p.throttle && !p.thermDie && !p.thermStack && p.rates == 0x4210
  let pts := s.points.mapIdx fun d n => if slow.contains d && ok d then n + 1 else n
  if s.predSum pts ≤ s.left then
    .next (s.eachDie fun d p => if slow.contains d && ok d then p.lift (pts.getD d 0) else p)
  else .next s

end Sys2Proof.Machine
end

