-- ==== Sys2Proof/Machine/Tiers.lean ====
section
/-! DEFINITION. What the Strongroom keeps of a context, the end of an epoch, and the checkpoint tiers
(R261, R262, R268, R275, Table SG.3). -/

namespace Sys2Proof.Machine
open Sys2Proof

/-! ### Sets (R261, R262) -/

/-- The 64 KiB pages of an item, by page number. -/
def Item.pages (it : Item) : List Nat := (List.range (it.len / 65536)).map (it.base / 65536 + ·)

/-- The MIRROR items of a set. -/
def SgCtx.mirrors (x : SgCtx) : List (Nat × Nat) := (x.items.filter (·.kind = 1)).map fun it => (it.base, it.len)
/-- The SNAPSHOT pages of a set, ascending. -/
def SgCtx.snapshot (x : SgCtx) : List Nat :=
  ((x.items.filter (·.kind = 2)).map Item.pages).flatten.foldr insertAsc []
/-- The pages of the TEACHER items. -/
def SgCtx.teachers (x : SgCtx) : List Nat := ((x.items.filter (·.kind = 3)).map Item.pages).flatten

/-- Bytes of a context's state record (R262). -/
def State.recordBytes (s : State) (c : Nat) : Nat :=
  12288 + 128 * (s.mtc c).instCount.toNat + 64 * (s.lgc c).entCount + 32 * (s.lgc c).adpCount

/-- Is page `g` VALID and context `c`'s (R175)? -/
def State.ownsPage (s : State) (c g : Nat) : Bool := bit (s.page g) 12 && s.page g % 4096 == c

/-! ### Accesses to HBM (R175) and bytes in error (R271, R311) -/

/-- The context has a reachable TEACHER_SRC (Table SG.5). -/
def State.teacherSrc (s : State) (c : Nat) : Bool :=
  s.unitOn 2 && (s.sgc c).teacherSrc != 0xFFF && (s.route (s.sgc c).teacherSrc).isSome && (s.sgc c).teacherSrc != s.devId

/-- Can page `g` be fetched anew: it is FROZEN, in a TEACHER item of its owner, whose TEACHER_SRC answers (Table SG.5)? -/
def State.refetchable (s : State) (g : Nat) : Bool :=
  bit (s.page g) 12 && bit (s.page g) 13 && (s.sgc (s.page g % 4096)).teachers.contains g && s.teacherSrc (s.page g % 4096)

/-- The addresses in error inside a range, which nothing has written since the error was found (log 28). -/
def State.ueIn (s : State) (a n : Nat) : List Nat := s.sg.ueAt.filter fun u => decide (a ≤ u) && decide (u < a + n)

/-- A read of the range meets an error that no refetch mends. -/
def State.ueMeets (s : State) (a n : Nat) : Bool := (s.ueIn a n).any fun u => !s.refetchable (u / 65536)

/-- A range of HBM with bytes that no memory lies behind (R175). -/
def State.noMemory (s : State) (a n : Nat) : Bool :=
  n != 0 && (s.malformed a || s.malformed (a + n - 1) || a / 2 ^ 36 != (a + n - 1) / 2 ^ 36)

/-- The fault of an access by context `c` to `n` bytes at `a`: BAD_ADDRESS before PAGE_FAULT (R175), and MEM_UE for a
read that meets an address in error (R271, R311). -/
def State.hbmCheck (s : State) (c a n : Nat) (wr own : Bool) : Option U16 :=
  if n = 0 then none
  else if s.noMemory a n then some 0x0003
  else if !((pagesOf a n).all fun p => pageOk (s.page p) c wr own) then some 0x0006
  else if !wr && s.ueMeets a n then some 0x0501
  else none

/-- An access to HBM: first byte, length, a write?, as `hbmCheck` has them. -/
abbrev Access := Nat × Nat × Bool × Bool

/-- The fault of a command's accesses, with the first byte of the range that meets it: a malformed address anywhere comes
before every ownership check (R175). -/
def State.accessFault (s : State) (c : Nat) (l : List Access) : Option (U16 × Nat) :=
  match l.find? fun r => s.noMemory r.1 r.2.1 with
  | some r => some (0x0003, r.1)
  | none => l.findSome? fun r => (s.hbmCheck c r.1 r.2.1 r.2.2.1 r.2.2.2).map (·, r.1)

/-- The fault of command `q` at an address, which DETAIL gives (Table CS.4; log 27). -/
def State.faultAt (s : State) (q : QE) (f : U16 × Nat) (unit : U16 := 0xFFFF) : State :=
  s.faultCmd q f.1 (BitVec.ofNat 64 f.2) unit

/-! ### Pages that open (R137, R266, R275) -/

/-- A 64-bit add of the Census for context `c` (R137). It waits while an epoch protects the page or the page is not yet
zeroed (R266), and where its word is in error, which faults the context (R271); on a page that the context may not write
it has no effect (R274, log 101). -/
def State.censusAdd (s : State) (c a n : Nat) : State :=
  if (s.hbmCheck c a 8 true false).isSome then s
  else if s.guarded a 8 || !(s.ueIn a 8).isEmpty then { s with sg := { s.sg with adds := s.sg.adds ++ [(c, a, n)] } }
  else s.hbmWrite a (leBytes 8 (Mem.readN s.hbm a 8 + n))

/-- The adds that waited are made; those whose page still guards them wait on. -/
def State.makeAdds (s : State) : State :=
  s.sg.adds.foldl (fun s r => s.censusAdd r.1 r.2.1 r.2.2) { s with sg := { s.sg with adds := [] } }

/-- A context's adds are discarded. -/
def State.dropAdds (s : State) (c : Nat) : State := { s with sg := { s.sg with adds := s.sg.adds.filter (·.1 ≠ c) } }

/-- Does an add of the context wait? -/
def State.addsWait (s : State) (c : Nat) : Bool := s.sg.adds.any (·.1 = c)

/-- Pages that wait to be zeroed are, once nothing protects them (R266, R275). -/
def State.scrubPages (s : State) : State :=
  let now := s.sg.scrub.filter fun g => !s.protectedPage g
  now.foldl (fun s g => s.hbmClear (65536 * g) 65536)
    { s with sg := { s.sg with scrub := s.sg.scrub.filter fun g => !now.contains g } }

/-- Pages have opened: those given away are zeroed, and the adds that waited are made. -/
def State.openPages (s : State) : State := s.scrubPages.makeAdds

/-- Pages are to be zeroed: at once, or, where they are protected, when that ends (R266, R275). -/
def State.toScrub (s : State) (l : List Nat) : State :=
  State.openPages { s with sg := { s.sg with scrub := s.sg.scrub ++ l.filter fun g => !s.sg.scrub.contains g } }

/-! ### The end of an epoch (R275) -/

/-- The staging pages that are the context's. -/
def State.stagePages (s : State) (c : Nat) : List Nat :=
  let x := s.sgc c
  ((List.range x.stageSize.toNat).map (x.stageBase.toNat / 65536 + ·)).filter (s.ownsPage c)

/-- The epoch ends, sealed or abandoned; the staging region is scrubbed. -/
def State.endEpoch (s : State) (c : Nat) : State := (s.modSgc c fun x => { x with epoch := none }).toScrub (s.stagePages c)

/-- An epoch in progress is abandoned. -/
def State.abandonEpoch (s : State) (c : Nat) : State := if (s.sgc c).epoch.isSome then s.endEpoch c else s

/-! ### Errors in HBM (R271, Table SG.5) -/

/-- The context that owns the page of an HBM address (R175). -/
def State.ownerOf (s : State) (a : Nat) : Option CtxId :=
  let e := s.page (a / 65536)
  if bit e 12 then some (BitVec.ofNat 12 e) else none

/-- The error's alarm, and MEM_UE for the context it strikes (R271, R287). -/
def State.ueHit (s : State) (c : Option CtxId) (a : W64) : State :=
  let s := s.alarm0 pgStrong 3 (c.map BitVec.toNat)
  match c with
  | some c => faultCtx s c 0x0501 a
  | none => s

/-- The context whose epoch is copying or shipping what stands in page `g`: a protected page, or a staged one; a reader
other than the Strongroom meets the error in a page being copied only. -/
def State.moving (s : State) (g : Nat) (reader : Option CtxId) : Option Nat :=
  s.sgC.findSome? fun p => p.2.epoch.bind fun e =>
    if e.copying.contains g || (reader.isNone && e.prot.contains g)
        || e.staged.any (fun t => p.2.stageBase.toNat / 65536 + t.2 = g) then some p.1 else none

/-- An uncorrectable error in an HBM page. -/
def State.ueHbm (s : State) (a : Nat) (reader : Option CtxId) : State :=
  let g := a / 65536
  let e := s.page g
  let owner := s.ownerOf a
  match s.moving g reader, owner with
  | some c, _ => (s.endEpoch c).ueHit owner (BitVec.ofNat 64 a)
  | none, none => s.ueHit none (BitVec.ofNat 64 a)
  | none, some o =>
    if bit e 13 && (s.sgc o.toNat).teachers.contains g then
      let r := reader.getD o
      if s.teacherSrc o.toNat then
        State.alarm { s with sg := { s.sg with refetch := s.sg.refetch ++ [(g, r)] } } pgStrong 3 (some o)
      else s.ueHit (some r) (BitVec.ofNat 64 a)
    else s.ueHit owner (BitVec.ofNat 64 a)

/-- A read of the device's own, of ranges in HBM, meets an error that no refetch mends: Table SG.5's outcome (log 28). -/
def State.meetUe (s : State) (l : List (Nat × Nat)) : Option State :=
  ((l.flatMap fun r => s.ueIn r.1 r.2).find? fun u => !s.refetchable (u / 65536)).map fun u => s.ueHbm u none

/-- An add of the context's Census meets an error (log 101). -/
def State.meetAdds (s : State) (c : Nat) : State :=
  (s.meetUe ((s.sg.adds.filter (·.1 = c)).map fun r => (r.2.1, 8))).getD s

/-! ### Tiers (R268, Table SG.3) -/

/-- Bytes that two generations of every set and the mirror area take: a generation is the SNAPSHOT pages, each with its
checksum, its header of 8 bytes, and the pinned MIRROR items and state record, the mirror area once more those (log
91). -/
def State.reserveNeed (s : State) : Nat :=
  (s.sgC.map fun p =>
    if p.2.valid then
      2 * (65544 * p.2.snapshot.length + 8) + 3 * ((p.2.mirrors.map Prod.snd).sum + s.recordBytes p.1)
    else 0).sum

/-- Does the tier meet the conditions of Table SG.3? A flash namespace is usable when it has the format of R308 and
room, which the implementation knows (log 91); the host tier while the host port is up (R309). -/
def State.tierMeets (s : State) (r : Nat) : Bool :=
  if r = 1 then s.sg.partner != s.devId && (s.route s.sg.partner).isSome && s.sg.reserveSize != 0
      && decide (s.reserveNeed ≤ 65536 * s.sg.reserveSize.toNat)
  else if r = 2 then s.sg.flashNsid != 0 && Config.flashUsable s.sg.flashNsid s.reserveNeed
  else s.sg.hostBase != 0

/-- Is the tier usable: it meets its conditions and has not been lost since the last ranking? -/
def State.tierUsable (s : State) (r : Nat) : Bool := !s.sg.lost.contains r && s.tierMeets r

/-- The highest-ranked usable tier from rank `r` down; 0 when there is none. -/
def State.bestTier (s : State) (r : Nat) : BitVec 2 :=
  BitVec.ofNat 2 (([1, 2, 3].find? fun k => decide (r ≤ k) && s.tierUsable k).getD 0)

/-- The next block goes to the host buffer once the host has taken the last one and its port is up (R309). -/
def State.pushHost (s : State) : State :=
  match s.sg.outbox with
  | (_, bs) :: t =>
    if s.sg.tierActive = 3 ∧ s.sg.hostAck = s.sg.hostSent ∧ s.boot.hostUp then
      { s with
        host := Mem.writeBytes s.host s.sg.hostBase.toNat bs
        sg := { s.sg with outbox := t, hostSent := s.sg.hostSent + 1 } }
    else s
  | [] => s

/-- A MIRROR packet of context `c` with `bs` for the next place of the partner's reserve (Table SG.3, log 91). -/
def State.mirrorPkt (s : State) (c : CtxId) (bs : List Byte) : State :=
  let size := 65536 * s.sg.reserveSize.toNat
  let at_ := if s.sg.mirrorPos + bs.length ≤ size then s.sg.mirrorPos else 0
  let k := s.mkPkt 9 6 s.sg.partner c c 0 (BitVec.ofNat 64 (2 + (s.sg.reserveBase.toNat + at_) * 8192)) 0 bs
  (State.reply { s with sg := { s.sg with mirrorPos := at_ + bs.length } } k).modSgc c.toNat fun x => { x with acks := x.acks + 1 }

/-- Bytes go to the active tier, as `n` pieces of at most 4,096 bytes: MIRROR packets on VC6, or one block for the
host; what the flash namespace holds is no state of the device (Table SG.3). -/
def State.tierSend (s : State) (c : CtxId) (n : Nat) (piece : Nat → List Byte) : State :=
  let ps := (List.range n).map piece
  if s.sg.tierActive = 1 then ps.foldl (fun s b => s.mirrorPkt c b) s
  else if s.sg.tierActive = 3 then State.pushHost { s with sg := { s.sg with outbox := s.sg.outbox ++ [(c, ps.flatten)] } }
  else s

/-- The active tier has acknowledged everything sent for the context. -/
def State.tierAcked (s : State) (c : CtxId) : Bool :=
  if s.sg.tierActive = 1 then (s.sgc c.toNat).acks == 0
  else if s.sg.tierActive = 3 then s.boot.hostUp && s.sg.hostAck == s.sg.hostSent && s.sg.outbox.all (·.1 ≠ c)
  else s.sg.tierActive != 0

/-- The bytes of a granule range of a pinned copy. -/
def pinnedBytes (r : Nat × Nat × Mem) : List Byte := Mem.readBytes r.2.2 0 r.2.1

/-- `n` free bytes of record number `k` from byte `o` (log 91). -/
def freeBytes (k o n : Nat) : List Byte := (List.range n).map fun j => Config.recordByte k (o + j)

/-- A Ledger entry's 16 words (Table LG.1). -/
def Entry.word (e : Entry) (k : Nat) : Nat :=
  match k with
  | 0 => e.state.toNat + 8 * e.inStep.toNat + 16 * e.manifest.toNat + 64 * e.pausePend.toNat + 128 * e.freePend.toNat
      + 256 * e.compressed.toNat + 512 * e.late.toNat + 1024 * e.trunc.toNat + 2048 * e.draftLen + 65536 * e.drafted
      + 2 ^ 21 * e.preState.toNat
  | 1 => e.owner.toNat + 65536 * e.prio.toNat + 2 ^ 24 * e.variant.toNat
  | 2 => e.length
  | 3 => e.maxLen
  | 4 => e.promptLeft
  | 5 => e.deadline.toNat
  | 6 => e.nextToken.toNat
  | 7 => e.user.toNat
  | 8 => e.pages.headD 0xFFFFFF
  | 9 => e.pages.getLastD 0xFFFFFF
  | 10 => e.pages.length
  | 11 => e.cpages.headD 0xFFFFFF
  | 12 => e.cpages.length
  | 13 => e.slot.toNat + 512 * e.adpEn.toNat + 65536 * e.version.toNat
  | _ => 0

/-- The 64 bytes of a Ledger entry (Table LG.1). -/
def Entry.bytes (e : Entry) : List Byte := (List.range 16).flatMap fun k => leBytes 4 (e.word k)

/-- The state record of a pinned copy as bytes (R262), the `k`-th one formed: header and numerics registers, Census
area, descriptors, coefficients, the Ledger entries of the context's range `l`, and its adapter slots. The manual lays
out neither the header nor an adapter slot, whose bytes are free (log 91). -/
def Pinned.record (p : Pinned) (k nDesc : Nat) (l : LgCtx) : List Byte :=
  freeBytes k 0 4096 ++ Mem.readBytes p.census 0 4096 ++ Mem.readBytes p.desc 0 (128 * nDesc) ++ Mem.readBytes p.coeff 0 4096
    ++ (List.range l.entCount).flatMap (fun i => (SMap.get {} p.entries (l.entFirst + i)).bytes)
    ++ freeBytes k (12288 + 128 * nDesc + 64 * l.entCount) (32 * l.adpCount)

/-- A pinned copy or a delta goes to the active tier: its granules, then its record (R263, R265). -/
def State.sendPinned (s : State) (c : CtxId) (p : Pinned) : State :=
  let bs := (p.mirror.map pinnedBytes).flatten ++ p.record s.free (s.mtc c.toNat).instCount.toNat (s.lgc c.toNat)
  let n := ((p.mirror.map (·.2.1)).sum + s.recordBytes c.toNat + 4095) / 4096
  State.tierSend { s with free := s.free + 1 } c n fun i => (bs.drop (4096 * i)).take 4096

/-- A delta that no tier takes: its granules are dirty again. -/
def SgCtx.undelta (x : SgCtx) : SgCtx :=
  { x with
    delta := none, deltaPin := {}
    dirty := x.dirty ++ (x.deltaPin.mirror.map (·.1 / 256)).filter fun g => !x.dirty.contains g }

/-- The deltas on their way go to the active tier anew, or, where there is none, are taken back (log 91). -/
def State.resendDeltas (s : State) : State :=
  if s.sg.tierActive = 0 then { s with sgC := SMap.mapV {} (fun _ x => x.undelta) s.sgC }
  else (s.sgC.filter fun p => p.2.delta.isSome).foldl (fun s p => s.sendPinned (BitVec.ofNat 12 p.1) p.2.deltaPin) s

/-- Another tier becomes active: what was being written is abandoned, or sent anew (R268, log 91). -/
def State.moveTier (s : State) (t : BitVec 2) : State :=
  if t = s.sg.tierActive then s
  else
    let s := { s with sgC := SMap.mapV {} (fun _ x => { x with acks := 0, due := x.due || x.epoch.isSome }) s.sgC }
    let s := (s.sgC.map Prod.fst).foldl State.abandonEpoch s
    State.resendDeltas { s with sg := { s.sg with tierActive := t, outbox := [] } }

/-- The tiers are ranked: the highest usable one becomes active. -/
def State.reRank (s : State) : State := s.moveTier (s.bestTier 1)

/-- The active tier becomes unusable (R268): an epoch in progress is abandoned, the next usable rank takes over,
bit 2 is raised, and an epoch becomes due at once. -/
def State.loseTier (s : State) : State :=
  let t := s.sg.tierActive.toNat
  if t = 0 then s
  else
    let s := { s with sg := { s.sg with lost := s.sg.lost ++ [t] } }
    let s := s.moveTier (s.bestTier (t + 1))
    State.alarm { s with sgC := SMap.mapV {} (fun _ x => { x with due := x.due || x.valid }) s.sgC } pgStrong 2

/-- The active tier is lost where what is to be kept has outgrown it (R268, log 86). -/
def State.checkTier (s : State) : State :=
  if s.sg.tierActive != 0 && !s.tierUsable s.sg.tierActive.toNat then s.loseTier else s

/-- The partner refused a MIRROR packet: its tier is lost, when it is the active one. -/
def State.mirrorRefused (s : State) : State := if s.sg.tierActive = 1 then s.loseTier else s

end Sys2Proof.Machine
end

