-- ==== Sys2Proof/Machine/Boot.lean ====
section
/-! DEFINITION. Reset, boot, supplies, device time, SMBus, JTAG and the host link (15, R289). -/

namespace Sys2Proof.Machine
open Sys2Proof

/-! ### Reset and supplies (R296, R300, R303, R257, R294) -/

/-- All state is lost but the persistent cells (R296); host memory, the JTAG port and the commands still to
come are not the device's to lose. -/
def State.wiped (s : State) : State :=
  { State.reset with
    nv := s.nv, host := s.host, jtag := s.jtag, smb := s.smb, free := s.free, pending := s.pending
    boot := { powered := s.boot.powered, perst := s.boot.perst, railGood := s.boot.railGood, tripped := s.boot.tripped
              lossHit := s.boot.lossHit } }

def execPerstAssert (s : State) : Out :=
  .next { s.wiped with boot := { s.wiped.boot with perst := true } }

/-- A supply fault acts as PERST# and asserts PWR_ALERT# until the carrier asserts PERST# (R303). -/
def execSupplyFault (s : State) : Out :=
  if s.boot.perst then .next s
  else .next { s.wiped with boot := { s.wiped.boot with pwrAlert := true, supplyLatched := true } }

/-- THERM_TRIP# latches and the carrier removes the supplies: all state is lost (R257). -/
def execThermTrip (s : State) : Out :=
  .next { s.wiped with boot := { s.wiped.boot with tripped := true } }

/-- Loss of power (R294): each BUSY cell holds its old or its new value whole, as `keepNew` says. -/
def execPowerLoss (keepNew : BitVec 20) (s : State) : Out :=
  let nv := SMap.mapV {} (fun i c => if c.busy then
      { c with val := if bit keepNew.toNat i then c.val else c.old, old := if bit keepNew.toNat i then c.val else c.old
               busy := false, interrupted := true } else c) s.nv
  .next { s.wiped with
    nv := nv, jtag := {}, smb := {}
    boot := { powered := false, lossHit := s.boot.lossHit || s.nv.any fun p => p.2.busy } }

/-- PERSIST bit 3 once power has returned, when the loss met a BUSY cell (R294). -/
def State.noteInterrupted (s : State) : State :=
  if s.boot.lossHit then State.alarm { s with boot := { s.boot with lossHit := false } } pgPersist 3 else s

/-- PERST# de-asserted: the ROM starts in STAGE 1, the host port trains, the persistent settings take effect, device
and local time start at 0 (R296, R297, R306, R307); a step with no command waiting takes the ROM on to STAGE 2
(`tick`). -/
def execPerstDeassert (s : State) : Out :=
  if !s.boot.perst || s.boot.tripped then .next s else
  let prof := (s.cell 1).val.toNat
  let s' := { s.wiped with
    boot := { s.boot with
      perst := false, powered := true, railGood := true, supplyLatched := false, pwrAlert := false
      stage := 1, failed := false, error := 0
      srcUsed := bit (s.cell 18).val.toNat 0
      profile := BitVec.ofNat 2 prof, options := BitVec.ofNat 4 (prof / 16)
      coord := (s.cell 2).val.setWidth 12, dims := (s.cell 3).val.setWidth 12, hostUp := true }
    bursar := { cap := (s.cell 0).val.setWidth 12, capIn := (s.cell 0).val.setWidth 12 }
    spare := (List.range 8).foldl (fun m d => SMap.upd {} m d fun x => { x with applied := (s.cell (10 + d)).val }) [] }
  .next s'.noteInterrupted

/-! ### The events of boot (Table EL.1, R289, R298, R33) -/

def State.stage (s : State) (n : Nat) : State := { s with boot := { s.boot with stage := BitVec.ofNat 4 n } }

/-- Boot reaches FAILED with an ERROR code (Table RG.6). -/
def State.bootFail (s : State) (e : Nat) : State :=
  State.alarm { s with boot := { s.boot with stage := 15, failed := true, error := BitVec.ofNat 8 e } } pgBoot 0

def execFwPushGo (v : W32) (s : State) : Out :=
  if bit v.toNat 0 && s.boot.stage = 2 && !s.boot.srcUsed then
    .next { s with boot := { s.boot with pushed := true } }
  else .next s

/-- The checks of R298 on the image's header and signature; the length is checked for a pushed image. -/
def fwAccepted (b : Boot) (img : FwImage) : Bool :=
  img.part == 0x1200 && img.sigOk && (b.srcUsed || img.units.toNat == b.pushLen.toNat)

def execFirmwareLoadDone (img : FwImage) (s : State) : Out :=
  if s.boot.stage ≠ 2 ∨ (!s.boot.srcUsed && !s.boot.pushed) then .next s
  else if s.boot.srcUsed && (!img.readable || decide (4096 < img.units.toNat)) then .next (s.bootFail 2)
  else if fwAccepted s.boot img then
    .next { s with boot := { s.boot with stage := 3, fwVersion := img.version } }
  else .next ((s.bootFail 1).alarm pgBoot 1)

/-- The repaired map (R33): failed selected clusters out, the lowest unselected clusters that passed in. -/
def repairMap (m pass : Nat) : Nat :=
  let good := m &&& pass
  let need := popCount m 160 - popCount good 160
  ((List.range 160).foldl (fun (r : Nat × Nat) i =>
    if r.2 = 0 then r else if bit pass i && !bit m i then (r.1 + 2 ^ i, r.2 - 1) else r) (good, need)).1

/-- The sparing of one die: apply the map that took effect at the de-assertion of PERST#, or repair it, commit the
repair and apply it. Where the cell does not take the commit (R32, R293, R295) the repair serves this boot only. -/
def State.spareDie (s : State) (d : Nat) (pass : BitVec 160) : State :=
  let a := (s.spr d).applied
  let s := s.modSpr d fun x => { x with fail := ~~~pass }
  if popCount pass.toNat 160 < 150 then
    let s := s.modSpr d fun x => { x with failed := true, applied := 0 }
    { s with boot := { s.boot with sparFailed := s.boot.sparFailed ||| BitVec.ofNat 8 (2 ^ d) } }
  else
    let m := BitVec.ofNat 160 (repairMap a.toNat pass.toNat)
    let s := s.modSpr d fun x => { x with failed := false, applied := m }
    if m = a then s else (s.spareCommit d m).alarm (pgSparing d) 1

def execBootSparing (pass : List (BitVec 160)) (s : State) : Out :=
  if s.boot.stage ≠ 3 then .next s else
  let s := (List.range s.dies).foldl (fun s d => s.spareDie d (pass.getD d 0)) s
  .next (if s.boot.sparFailed = 0 then s.stage 4 else s.bootFail 3)

/-- SRAM initialisation writes zero to cluster memory, Escrow, Till and Teller memory (R297). -/
def execSramInit (ok : Bool) (s : State) : Out :=
  if s.boot.stage ≠ 4 then .next s else
  let s := { s with cls := [], td := [] }
  .next (if ok then s.stage 5 else s.bootFail 4)

/-- HBM3E training: the page ownership table is written with no page VALID, STATIC_W is measured (R297). -/
def execHbmTraining (good : BitVec 24) (staticW : U16) (s : State) : Out :=
  if s.boot.stage ≠ 5 then .next s else
  let bad := (List.range s.dies).filter fun d => (List.range 3).any fun i => !bit good.toNat (3 * d + i)
  let s := { s with pot := [], bursar := { s.bursar with staticW := staticW } }
  let s := { s with boot := { s.boot with
    stackFailed := BitVec.ofNat 8 ((bad.map fun d => 2 ^ d).sum) } }
  .next (if bad.isEmpty then s.stage 6 else s.bootFail 5)

/-- The state of a port with lanes `m` in use (R237, log 17). -/
def widthSt (m : W32) : PortSt :=
  let n := popCount m.toNat 32
  if n < 16 then .down else if n < 32 then .degraded else .up

/-- The end of a port's training under LANE_MAP `map` (R237, R283, R297): fewer than 16 good lanes leave it DOWN, fewer
than 32 DEGRADED; lanes that are not good have failed, and a lane `out` under test takes no part (R272). A lane whose test
failed since the training began stays failed and withdrawn until the next one (R237, R273). -/
def Port.trained (x : Port) (map good out : W32) (peer : DevId) : Port :=
  let m := map &&& good &&& ~~~x.failed
  let a := m &&& ~~~out
  { x with
    st := widthSt a, lanes := if widthSt a = .down then 0 else a, mayUse := m
    failed := map &&& ~~~good ||| x.failed, peer := peer, restripe := false }

/-- The lane of port `p` that stands under test (R272, Table SG.6). -/
def State.laneTested (s : State) (p : Nat) : W32 :=
  if s.st.st = 2 ∧ s.st.unit = (4, p) then BitVec.ofNat 32 (2 ^ bits s.st.req.toNat 18 14) else 0

/-- Training of port `p` ends under the LANE_MAP it began with; a port that ends DOWN raises its bit 1. -/
def State.trainPort (s : State) (p : Nat) (map good : W32) (peer : DevId) : State :=
  let x := (s.prt6 p).trained map good (s.laneTested p) peer
  let s := s.modPort p fun _ => x
  match x.st with
  | .down => s.alarm (pgPort p) 1
  | _ => s

def execLinkTraining (good : List W32) (peers : List DevId) (s : State) : Out :=
  if s.boot.stage ≠ 6 then .next s else
  let s := (List.range 6).foldl (fun s p =>
    if 2 ≤ s.extent (p / 2) then s.trainPort p ((s.cell (4 + p)).val.setWidth 32) (good.getD p 0) (peers.getD p 0) else s) s
  .next { s with boot := { s.boot with linksDone := true } }

/-- READY: every page is decoded, every context is UNUSED, and the Bursar takes the dies from 0.60 V (R299). -/
def execBootReady (s : State) : Out :=
  if s.boot.stage ≠ 6 ∨ !s.boot.linksDone then .next s
  else .next (s.stage 7).divide

/-! ### HBM behaviour (R311) -/

/-- Retraining pauses column commands and changes nothing else (R36, R311). -/
def execHbmRetrain (_m : StackId) (_pc : BitVec 5) (s : State) : Out := .next s

/-- PATROL_SCRUB counts corrected errors and logs an uncorrectable one, an event of its page's owner, which is handled at
the next read (R311). -/
def execPatrolScrub (_m : StackId) (corrected : Nat) (ue : Option (BitVec 41)) (s : State) : Out :=
  if !s.ready then .next s else
  let s := { s with sg := { s.sg with ceCount := satAdd s.sg.ceCount corrected } }
  match ue with
  | none => .next s
  | some a => .next (State.alarm { s with sg := { s.sg with ueLog := a.setWidth 64, ueAt := s.sg.ueAt ++ [a.toNat] } } pgStrong 3
      (s.ownerOf a.toNat))

/-! ### Device time (R306) -/

/-- A rising edge of TSYNC: a pending SET_TIME, a correction to the second, or an ignored edge. -/
def execTsyncEdge (s : State) : Out :=
  if s.boot.stage = 0 then .next s else
  let t := s.time
  match t.setTime with
  | some v =>
    .next { s with time := { t with true5 := 5 * v.toNat, shown5 := 5 * v.toNat, setTime := none } }
  | none =>
    let r := t.true5 % 5000000000
    if r ≤ 5000000 then .next { s with time := { t with true5 := t.true5 - r } }
    else if 4995000000 ≤ r then
      let n := t.true5 + (5000000000 - r)
      .next { s with time := { t with true5 := n, shown5 := max t.shown5 n } }
    else .next (s.alarm pgDevice 0)

/-! ### SMBus (R310) -/

def State.answerSmb (s : State) (bs : List Byte) : Out :=
  if s.boot.powered then .next { s with smb := { data := bs, nack := false } } else .next s

/-- SET_TIME is refused with NACK while any context is IN. -/
def execSetTime (v : W64) (s : State) : Out :=
  if !s.boot.powered then .next s
  else if s.ctxs.any fun p => decide (p.2.st = .resident) then .next { s with smb := { data := [], nack := true } }
  else .next { s with time := { s.time with setTime := some v }, smb := { data := [], nack := false } }

/-- BOOT.STATUS (Table RG.6). -/
def bootStatus (b : Boot) : W32 :=
  BitVec.ofNat 32 (b.stage.toNat + 16 * (b.stage == 7).toNat + 32 * b.failed.toNat + 64 * b.srcUsed.toNat
    + 256 * b.error.toNat)

/-- DEV_PART (R288). -/
def devPart : W32 := 0x00011200#32

/-- PWR_NOW (Table PW.4). -/
def pwrNow (b : Bursar) : W32 := BitVec.ofNat 32 (b.measured.toNat + 65536 * b.est.toNat)

/-- ALARM_PEND (Table RG.4): the block types with a page that holds an unmasked alarm. -/
def State.alarmPend (s : State) : W32 :=
  BitVec.ofNat 32 ((s.irq.order.filterMap fun p => (pageType p).map Prod.fst).foldl (fun w t => w ||| 2 ^ t) 0)

def execSmbusReadPart (s : State) : Out :=
  s.answerSmb (leBytes 4 devPart.toNat ++ leBytes 8 Config.serial.toNat)
def execSmbusReadBootStatus (s : State) : Out := s.answerSmb (leBytes 4 (bootStatus s.boot).toNat)
def execSmbusReadTemperatures (s : State) : Out :=
  let hot (f : DiePower → Byte) : Byte :=
    (List.range s.dies).foldl (fun m d => if m < f (s.dpow d) then f (s.dpow d) else m) 0
  s.answerSmb (if s.ready then [hot (·.temp), hot (·.stackTemp)] else [0, 0])
def execSmbusReadPower (s : State) : Out :=
  s.answerSmb (leBytes 4 (if s.ready then (pwrNow s.bursar).toNat else 0))
def execSmbusReadAlarms (s : State) : Out := s.answerSmb (leBytes 4 s.alarmPend.toNat)
def execSmbusReadTime (s : State) : Out := s.answerSmb (leBytes 8 s.devTime.toNat)

/-! ### The host link (R309) -/

/-- Link-down resets the port's configuration space, the MSI-X table with it; host traffic waits. -/
def execPcieLinkDown (s : State) : Out :=
  .next { s with
    boot := { s.boot with hostUp := false }
    irq := { s.irq with vec := SMap.mapV {} (fun _ x => { x with masked := true }) s.irq.vec } }

/-- The waiting messages go out on the vectors that are not masked; on the others they pend. -/
def execPcieLinkUp (s : State) : Out :=
  if s.boot.hostUp || s.boot.stage = 0 then .next s else
  .next <| State.pushHost { s with
    boot := { s.boot with hostUp := true }
    irq := { s.irq with
      log := s.irq.log ++ (s.irq.vec.filter fun p => p.2.held && !p.2.masked && !p.2.sent).map Prod.fst
      vec := SMap.mapV {} (fun _ x =>
        if x.held && x.masked then { x with held := false, pend := true }
        else if x.held && !x.sent then { x with held := false, sent := true } else x) s.irq.vec } }

/-! ### JTAG (R308) -/

/-- The TAP controller of IEEE 1149.1. -/
def Tap.next (t : Tap) (tms : Bool) : Tap :=
  match t, tms with
  | .reset, true => .reset
  | .reset, false => .idle
  | .idle, false => .idle
  | .idle, true => .selDr
  | .selDr, false => .capDr
  | .selDr, true => .selIr
  | .capDr, false => .shiftDr
  | .capDr, true => .exit1Dr
  | .shiftDr, false => .shiftDr
  | .shiftDr, true => .exit1Dr
  | .exit1Dr, false => .pauseDr
  | .exit1Dr, true => .updDr
  | .pauseDr, false => .pauseDr
  | .pauseDr, true => .exit2Dr
  | .exit2Dr, false => .shiftDr
  | .exit2Dr, true => .updDr
  | .updDr, false => .idle
  | .updDr, true => .selDr
  | .selIr, false => .capIr
  | .selIr, true => .reset
  | .capIr, false => .shiftIr
  | .capIr, true => .exit1Ir
  | .shiftIr, false => .shiftIr
  | .shiftIr, true => .exit1Ir
  | .exit1Ir, false => .pauseIr
  | .exit1Ir, true => .updIr
  | .pauseIr, false => .pauseIr
  | .pauseIr, true => .exit2Ir
  | .exit2Ir, false => .shiftIr
  | .exit2Ir, true => .updIr
  | .updIr, false => .idle
  | .updIr, true => .selDr

/-- IDCODE, least significant bit first (R288). -/
def idcode : List Bool := (List.range 32).map fun i => bit 0x112004B3 i

/-- What Capture-DR loads. -/
def Jtag.capture (j : Jtag) (pins : List Bool) : List Bool :=
  match j.instr with
  | .bypass => [false]
  | .idcode => idcode
  | .sample | .extest => (List.range Config.boundaryCells).map fun i => pins.getD i false

/-- The instruction a register content selects: all ones is BYPASS (IEEE 1149.1), the rest is not stated. -/
def jInstr (ir : List Bool) : JInstr :=
  if ir.all id then .bypass else
  match Config.irCode ir with
  | 0 => .idcode
  | 1 => .sample
  | 2 => .extest
  | _ => .bypass

/-- What the present state does at the clock. -/
def Jtag.act (j : Jtag) (tdi : Bool) (pins : List Bool) : Jtag :=
  match j.tap with
  | .reset => { j with instr := .idcode }
  | .capDr => { j with dr := j.capture pins }
  | .shiftDr => { j with tdo := j.dr.headD false, dr := j.dr.drop 1 ++ [tdi] }
  | .updDr => if j.instr = .sample ∨ j.instr = .extest then { j with drive := j.dr } else j
  | .capIr => { j with ir := true :: List.replicate (Config.irWidth - 1) false }
  | .shiftIr => { j with tdo := j.ir.headD false, ir := j.ir.drop 1 ++ [tdi] }
  | .updIr => { j with instr := jInstr j.ir }
  | _ => j

/-- One cycle of TCK; TRST# resets the controller. -/
def execJtagTap (tms tdi trst : Bool) (pins : List Bool) (s : State) : Out :=
  if trst then .next { s with jtag := { s.jtag with tap := .reset, instr := .idcode } }
  else
    let j := s.jtag.act tdi pins
    .next { s with jtag := { j with tap := s.jtag.tap.next tms } }

end Sys2Proof.Machine
end

