-- ==== Sys2Proof/Machine/Space.lean ====
section
/-! DEFINITION. The spaces a transfer may name (Table CS.7) and the checks of R173, R175 and R31. -/

namespace Sys2Proof.Machine
open Sys2Proof

/-- A place in a space. -/
inductive Loc where
  | clu (cl : ClId) (off : Nat)
  | hbm (a : Nat)
  | host (a : Nat)
deriving DecidableEq, Repr

/-- The place of a space code and a 64-bit address; `own` is the header's cluster. -/
def locOf (space : Nat) (a : Nat) (own : ClId) : Loc :=
  if space = 0 then .clu own (bits a 22 0)
  else if space = 1 then .clu (BitVec.ofNat 11 (bits a 42 32)) (bits a 22 0)
  else if space = 2 then .hbm a else .host a

def Loc.shift (l : Loc) (n : Nat) : Loc :=
  match l with
  | .clu c o => .clu c (o + n)
  | .hbm a => .hbm (a + n)
  | .host a => .host (a + n)

/-- A cluster the context may name: enabled, on a powered die, in its table (R31, R173). -/
def State.cluOk (s : State) (c : CtxId) (cl : ClId) : Bool :=
  decide (cl.toNat % 256 < 150) && s.diePowered (cl.toNat / 256) && ((s.ctx c.toNat).desc cl).isSome

/-- The fault of an access by context `c`: BAD_CLUSTER, BAD_ADDRESS or PAGE_FAULT. -/
def State.locCheck (s : State) (c : CtxId) (l : Loc) (n : Nat) (wr : Bool) : Option U16 :=
  match l with
  | .clu cl o =>
    if !s.cluOk c cl then some 0x0004
    else if n = 0 then none
    else match (s.ctx c.toNat).desc cl with
    | some d => if d.owns o n then none else some 0x0003
    | none => some 0x0004
  | .hbm a => s.hbmCheck c.toNat a n wr false
  | .host _ => none

/-- The address of a place in its space. -/
def Loc.addr : Loc → Nat
  | .clu _ o => o
  | .hbm a => a
  | .host a => a

/-- A place in HBM with bytes that no memory lies behind. -/
def State.locNone (s : State) (l : Loc) (n : Nat) : Bool :=
  match l with
  | .hbm a => s.noMemory a n
  | _ => false

/-- The fault of the places a command reads and writes, with the first byte of the one that meets it: a malformed HBM
address anywhere comes before every ownership check (R175). -/
def State.locsFault (s : State) (c : CtxId) (l : List (Loc × Nat × Bool)) : Option (U16 × Nat) :=
  match l.find? fun r => s.locNone r.1 r.2.1 with
  | some r => some (0x0003, r.1.addr)
  | none => l.findSome? fun r => (s.locCheck c r.1 r.2.1 r.2.2).map (·, r.1.addr)

/-- A read of HBM waits on a page being fetched anew, or that is to be since the read meets an error there (Table
SG.5), and on one not yet zeroed for its owner (R275). -/
def State.hbmWait (s : State) (a n : Nat) : Bool :=
  ((pagesOf a n).any fun g => s.sg.refetch.any (·.1 = g)) || s.unscrubbed a n
    || (s.ueIn a n).any fun u => s.refetchable (u / 65536)

/-- A read waits as its HBM page does, while the host port is down (R309), or while its cluster is in SERVICE (R272). -/
def State.srcWait (s : State) (l : Loc) (n : Nat) : Bool :=
  match l with
  | .host _ => !s.boot.hostUp
  | .hbm a => s.hbmWait a n
  | .clu c _ => s.cluShut c.toNat

/-- Must a write there wait: a protected page, a cluster in SERVICE, or the host port down (R265, R272, R309)? -/
def State.locWait (s : State) (l : Loc) (n : Nat) : Bool :=
  match l with
  | .clu c _ => s.cluShut c.toNat
  | .hbm a => s.guarded a n
  | .host _ => !s.boot.hostUp

/-- Bytes of a place. -/
def State.locRead (s : State) (l : Loc) (n : Nat) : List Byte :=
  match l with
  | .clu c o => Mem.readBytes (s.clu c.toNat).mem o n
  | .hbm a => Mem.readBytes s.hbm a n
  | .host a => Mem.readBytes s.host a n

/-- Store bytes at a place. -/
def State.locWrite (s : State) (l : Loc) (bs : List Byte) : State :=
  match l with
  | .clu k o => s.modCl k.toNat fun x => { x with mem := Mem.writeBytes x.mem o bs }
  | .hbm a => s.hbmWrite a bs
  | .host a => { s with host := Mem.writeBytes s.host a bs }

/-- What the host has stored in its own memory before the device reads it (log 4). -/
def State.hostStores (s : State) (h : HostStores) : State := { s with host := Mem.stores s.host h }

end Sys2Proof.Machine
end

