-- ==== Sys2Proof/Machine/Links.lean ====
section
/-! DEFINITION. Links: ports, transmission, replay, lane health, remote writes, heartbeats (R217 to R241, R243). -/

namespace Sys2Proof.Machine
open Sys2Proof

/-! ### Ports (R237, R238, R283) -/

/-- PORT_DOWN_REROUTE (R238): the packets the port had in hand go the other way, in order; a packet of this
device's own context that has no way left faults it with LK_UNREACH. A transit packet keeps its detour's class. -/
def State.rerouteAll (s : State) : List Packet → State
  | [] => s
  | k :: t =>
    match s.enqueue k none with
    | some s' => s'.rerouteAll t
    | none => (if s.ownPacket k.srcCtx k then faultCtx s k.srcCtx 0x0403 else s).rerouteAll t

/-- A port that is DOWN holds nothing to send and begins its sequence numbers anew (log 17); a lane's test goes on
(R272). -/
def Port.silenced (x : Port) : Port :=
  { x with
    st := .down, lanes := 0, restripe := false, txq := [], replay := [], used := [], owed := []
    nacks := [], ackDue := none, lsn := 0, rxNext := 0, lagRun := 0, okRun := 0, silentRun := 0 }

/-- The port goes DOWN; a heartbeat is for the neighbour alone and takes no detour. -/
def State.portDown (s : State) (p : Nat) : State :=
  let x := s.prt6 p
  (s.modPort p Port.silenced).rerouteAll ((x.replay.map (·.pkt) ++ x.txq).filter (·.ty ≠ 15))

/-- ENABLE 1: a training begins, under the LANE_MAP that the cell holds now (R292). -/
def execEnablePort (p : PortId) (s : State) : Out :=
  if s.canWrite (pgPort p.val) && 2 ≤ s.extent (p.val / 2) then
    .next (s.modPort p.val fun x => { x with
      st := .training, lanes := 0, failed := 0, laneBad := false, laneMap := (s.cell (4 + p.val)).val.setWidth 32
      lagRun := 0, okRun := 0, silentRun := 0 })
  else .next s

def execDisablePort (p : PortId) (s : State) : Out :=
  if s.canWrite (pgPort p.val) then .next (s.portDown p.val) else .next s

/-- Packets in flight are sent again (R222, R237). -/
def Port.resent (x : Port) : Port :=
  { x with wire := x.wire ++ x.replay, crcRetry := if x.replay.isEmpty then x.crcRetry else satInc x.crcRetry }

/-- Training ends under the LANE_MAP it began with; a port left DOWN raises bit 1, another sends its packets in flight
again. -/
def execPortTrainingDone (p : PortId) (good : W32) (peer : DevId) (s : State) : Out :=
  if (s.prt6 p.val).st = .training then
    let s := s.trainPort p.val (s.prt6 p.val).laneMap good peer
    .next (if (s.prt6 p.val).st = .down then s.portDown p.val else s.modPort p.val Port.resent)
  else .next s

/-- LANE_FAIL: the lane leaves the port until its next training, and a control block tells the other end (R237). -/
def execLaneFail (p : PortId) (lane : BitVec 5) (s : State) : Out :=
  let x := s.prt6 p.val
  if x.usable && bit x.lanes.toNat lane.toNat then
    let m := x.lanes &&& ~~~BitVec.ofNat 32 (2 ^ lane.toNat)
    let s := s.modPort p.val fun x => { x with
      lanes := m, mayUse := x.mayUse &&& ~~~BitVec.ofNat 32 (2 ^ lane.toNat)
      failed := x.failed ||| BitVec.ofNat 32 (2 ^ lane.toNat), st := .degraded, restripe := true
      blocks := x.blocks ++ [.lanes m] }
    let s := s.alarm (pgPort p.val) 0
    .next (if popCount m.toNat 32 < 16 then (s.portDown p.val).alarm (pgPort p.val) 1 else s)
  else .next s

/-- Re-striping ends; packets in flight are replayed (R222, R237). -/
def execLaneRestripeDone (p : PortId) (s : State) : Out :=
  if (s.prt6 p.val).restripe then
    .next (s.modPort p.val fun x => { x.resent with restripe := false })
  else .next s

/-! ### Channels and transmission (R222 to R225) -/

/-- Default credits of a channel (Table LK.4). -/
def defaultCredits (vc : Nat) : Nat :=
  ([1024, 4096, 12288, 8192, 16384, 16384, 4096, 3072] : List Nat).getD vc 0

/-- A channel's configuration: Table LK.4 and weight 1 until VC_CFG is written. -/
def Port.vcOf (x : Port) (vc : Nat) : VcCfg :=
  (SMap.get none x.vc vc).getD { credits := defaultCredits vc, weight := 1 }

/-- Credits of a class that the packets in the transmit queue hold. -/
def Port.queued (x : Port) (ch : Nat) : Nat := ((x.txq.filter (pktChan · = ch)).map pktCredits).sum

/-- Credits of a class that no packet on its way holds. -/
def Port.free (x : Port) (ch : Nat) : Nat :=
  (x.vcOf (ch / 2)).credits / 2 - (SMap.get 0 x.used ch - x.queued ch)

/-- The packets a channel may send next, oldest first: the first of each dateline class, unless an earlier packet of
its stream waits in the other (R224, R226). -/
def Port.heads (x : Port) (vc : Nat) : List Packet :=
  let l := x.txq.filter (·.vc.toNat = vc)
  match l with
  | [] => []
  | k :: t => k :: ((t.find? fun j => j.dateline ≠ k.dateline).filter fun j => !(l.takeWhile (· ≠ j)).any (sameStream j)).toList

/-- The next packet of a channel, if all its credits are available. -/
def Port.sendable (x : Port) (vc : Nat) : Option Packet :=
  (x.heads vc).find? fun k => pktCredits k ≤ x.free (pktChan k)

/-- The weighted round of VC2 to VC6: each channel as often as its weight. -/
def Port.round (x : Port) : List Nat :=
  (([2, 3, 4, 5, 6] : List Nat).map fun v => List.replicate (x.vcOf v).weight v).flatten

/-- The channel served next, and the round's new position (R223). -/
def Port.pick (x : Port) : Option (Nat × Nat) :=
  match ([0, 1, 7] : List Nat).find? fun v => (x.sendable v).isSome with
  | some v => some (v, x.rr)
  | none =>
    let r := x.round
    ((List.range r.length).map fun i => (x.rr + i) % r.length).findSome? fun i =>
      if (x.sendable (r.getD i 2)).isSome then some (r.getD i 2, (i + 1) % r.length) else none

/-- Bytes of a frame. -/
def frameBytes (k : Packet) : Nat := sentLen k.length.toNat + 40

/-- The control blocks due at a packet boundary: the credits owed, the last packet taken, the packets that failed
their CRC (R220, R222, R224). -/
def Port.due (x : Port) : List CtlBlock :=
  (if x.owed.isEmpty then [] else [.credits x.owed]) ++ (x.ackDue.map .ack).toList ++ x.nacks.map .nack

/-- They are sent. -/
def Port.settled (x : Port) : Port :=
  { x with blocks := x.blocks ++ x.due, owed := [], ackDue := none, nacks := [] }

/-- The packet the port sends next, with the round's new position: its credits are there, and the 256 KiB replay
buffer takes it (R222, R223). -/
def Port.next (x : Port) : Option (Packet × Nat) :=
  match x.pick with
  | none => none
  | some (v, rr) => ((x.sendable v).filter fun k =>
      decide ((x.replay.map fun f => frameBytes f.pkt).sum + frameBytes k ≤ 262144)).map fun k => (k, rr)

/-- The frame goes on the wire and into the replay buffer. -/
def Port.sent (x : Port) (k : Packet) (rr : Nat) : Port :=
  let f : Frame := { lsn := x.lsn, pkt := k, crc := pktCrc k }
  { x with txq := x.txq.erase k, rr := rr, lsn := x.lsn + 1, wire := x.wire ++ [f], replay := x.replay ++ [f] }

/-- PACKET_TRANSMIT: at a packet boundary the control blocks that are due go first, then the next packet. -/
def execPacketTransmit (p : PortId) (s : State) : Out :=
  let x := s.prt6 p.val
  if !x.usable || x.restripe then .next s else
  .next (s.modPort p.val fun x =>
    match x.next with
    | none => x.settled
    | some (k, rr) => x.settled.sent k rr)

/-- A control block: credits of classes (channel × 2 + dateline) come back, an acknowledge empties the
replay buffer up to a sequence number (R220, R224). -/
def execLinkCreditBlock (p : PortId) (credits : List (Nat × Nat)) (ackLsn : Option W32) (s : State) : Out :=
  if !(s.prt6 p.val).usable then .next s else
  .next (s.modPort p.val fun x => { x with
    used := credits.foldl (fun m c => SMap.upd 0 m c.1 (· - c.2)) x.used
    replay := match ackLsn with
      | some l => x.replay.filter fun f => !seqLe f.lsn l
      | none => x.replay })

/-- A negative acknowledge replays that packet and every later one, in order (R222). -/
def execLinkNack (p : PortId) (lsn : W32) (s : State) : Out :=
  let x := s.prt6 p.val
  if !x.usable then .next s else
  let again := x.replay.filter fun f => seqLe lsn f.lsn
  if again.isEmpty then .next s
  else .next (s.modPort p.val fun x => { x with wire := x.wire ++ again, crcRetry := satInc x.crcRetry })

/-- A packet that fails its CRC after FEC is discarded and negatively acknowledged (R222); it held a codeword the FEC
could not correct (log 90). -/
def execCrcFail (p : PortId) (lsn : W32) (s : State) : Out :=
  if !(s.prt6 p.val).usable then .next s
  else .next (s.modPort p.val fun x => { x with nacks := x.nacks ++ [lsn], fecUncorr := satInc x.fecUncorr })

/-- VC_CFG: only while the port is DOWN, with shares of at most 65,536 in all and at least 65 credits a
class (R224); a weight of 0 is outside its range (Table LK.9). -/
def execVcCfgWrite (p : PortId) (vc : Fin 8) (v : W32) (s : State) : Out :=
  if !s.canWrite (pgPort p.val) then .next s else
  let x := s.prt6 p.val
  let n : VcCfg := { credits := bits v.toNat 16 0, weight := bits v.toNat 23 20 }
  let total := ((List.range 8).map fun i => if i = vc.val then n.credits else (x.vcOf i).credits).sum
  if x.st = .down && decide (total ≤ 65536) && decide (65 ≤ n.credits / 2) && n.weight != 0 then
    .next (s.modPort p.val fun x => { x with vc := SMap.set none x.vc vc.val (some n) })
  else .next (s.alarm (pgPort p.val) 5)

/-! ### Packets received -/

/-- A packet of a reserved type is discarded by the port that receives it (Table LK.3). -/
def execReservedPacketDiscard (p : PortId) (pkt : Packet) (s : State) : Out :=
  if [0, 12, 13, 14].contains pkt.ty.toNat then
    match s.linkIn p.val pkt with
    | .done s => .next s
    | .take s => .next (s.alarm (pgPort p.val) 3)
  else .next s

/-- The place a WRITE or MIRROR names (Table LK.3). -/
def pktLoc (k : Packet) : Option Loc :=
  let t := k.target.toNat
  if t % 4 = 1 then some (.clu (BitVec.ofNat 11 (bits t 12 2)) (t / 8192))
  else if t % 4 = 2 then some (.hbm (t / 8192)) else none

/-- The acknowledge of a remote write: the command number its sender put into AUX [63:32] (log 54). -/
def State.ack (s : State) (k : Packet) : State :=
  s.reply (s.answer 10 7 k (BitVec.ofNat 64 (k.aux.toNat / 2 ^ 32)) 0)

/-- SIGNAL a semaphore of context `c` by `n`. -/
def State.signalSem (s : State) (i : Nat) (n : W32) : State := s.modSem i fun x => { x with value := x.value + n }

/-- The check of a remote write's semaphore: it is the destination context's (R182, R231). -/
def State.semOf (s : State) (i : Nat) (c : CtxId) : Bool := (s.sem i).valid && (s.sem i).owner == c

/-- Does a write to the place wait: for a protected page, or, in cluster memory, for its context to be IN (log 55)? -/
def State.writeWaits (s : State) (c : CtxId) (l : Loc) (n : Nat) : Bool :=
  s.locWait l n || (match l with
    | .clu .. => !s.isIn c.toNat
    | _ => false)

/-- WRITE (R231): checked against the destination context's ownership, written, the semaphore signalled,
acknowledged. -/
def execLinkWrite (p : PortId) (pkt : Packet) (s : State) : Out :=
  s.receive p.val pkt 1 fun s =>
    match pktLoc pkt with
    | none => some (.next (s.refuse pkt 0x0003))
    | some l =>
      let n := pkt.payload.length
      let sg := bit pkt.aux.toNat 14
      let i := pkt.aux.toNat % 2 ^ 14
      if s.writeWaits pkt.dstCtx l n then none
      else match s.locCheck pkt.dstCtx l n true with
      | some f => some (.next (s.refuse pkt (if f = 0x0006 then 0x0006 else 0x0003)))
      | none =>
        if sg && !s.semOf i pkt.dstCtx then some (.next (s.refuse pkt 0x0003))
        else
          let s := s.locWrite l pkt.payload
          some (.next ((if sg then s.signalSem i 1 else s).ack pkt))

/-- Is the range inside the device's partner reserve, in pages not VALID to any context (Table SG.3)? -/
def State.inReserve (s : State) (a n : Nat) : Bool :=
  decide (s.sg.reserveBase.toNat ≤ a) && decide (a + n ≤ s.sg.reserveBase.toNat + s.sg.reserveSize.toNat * 65536)
    && !s.malformed a && (pagesOf a n).all fun g => !bit (s.page g) 12

/-- MIRROR writes checkpoint data into the partner reserve (R263, Table SG.3); a page that is protected or to be zeroed lets
it wait (R266, R275). -/
def execMirror (p : PortId) (pkt : Packet) (s : State) : Out :=
  s.receive p.val pkt 9 fun s =>
    match pktLoc pkt with
    | some (.hbm a) =>
      if !s.inReserve a pkt.payload.length then some (.next (s.refuse pkt 0x0003))
      else if s.guarded a pkt.payload.length then none
      else some (.next ((s.hbmWrite a pkt.payload).ack pkt))
    | _ => some (.next (s.refuse pkt 0x0003))

/-- The producing dies of a refused deposit: those whose TEACHER operations of the context send to the device, REMAP
applied, and its context. The refusal itself names none (log 52). -/
def State.producers (s : State) (c : CtxId) (dev : DevId) (dctx : CtxId) : List Nat :=
  (List.range 8).filter fun d => (s.prt d c.toNat).teacher.any fun t =>
    t.2.dev ≠ s.devId && t.2.ctx = dctx && s.remapped t.2.dev = dev

/-- The device and the context a refused packet was addressed to (Table LK.3). -/
def refusedDst (k : Packet) : DevId := BitVec.ofNat 12 (k.target.toNat / 256)
def refusedCtx (k : Packet) : CtxId := BitVec.ofNat 12 (k.target.toNat / 2 ^ 48)

/-- REFUSAL faults the sending context with the code it carries (R99, R230, R231): in the producing die's record, with
bit 2 of every producing die's page, for an Escrow deposit. A MIRROR packet's ends the partner's tier (R268); it
faults the context too where the filter refused it (LK_FILTER, R230). -/
def execRefusal (p : PortId) (pkt : Packet) (s : State) : Out :=
  s.receive p.val pkt 4 fun s => some (.next (
    let code := BitVec.ofNat 16 pkt.aux.toNat
    if pkt.target.toNat % 16 = 9 then
      (if code = 0x0402 then faultCtx s.mirrorRefused pkt.dstCtx code pkt.target else s.mirrorRefused)
    else
    let ds := if code.toNat / 256 = 2 then s.producers pkt.dstCtx (refusedDst pkt) (refusedCtx pkt) else []
    let t := faultCtx s pkt.dstCtx code pkt.target 0 ((ds.head?.map (BitVec.ofNat 16)).getD 0xFFFF)
    ds.tail.foldl (fun t d => t.alarm0 (pgTouch d) 2 (some pkt.dstCtx.toNat)) t))

/-- The DMA engine whose head command waits for acknowledges of command `n` of context `c`. -/
def State.ackWaiter (s : State) (c : CtxId) (n : W32) : Option Nat :=
  (s.cls.find? fun p => p.2.dwait && p.2.dq.head?.any fun (q : QE) => q.ctx = c && q.seq = n).map Prod.fst

/-- ACK: the remote write completes when every packet of it is acknowledged (R231); number 0, which no command has,
acknowledges a MIRROR packet of the context (log 54). -/
def execLinkAck (p : PortId) (pkt : Packet) (s : State) : Out :=
  s.receive p.val pkt 10 fun s => some (.next (
    match s.ackWaiter pkt.dstCtx (BitVec.ofNat 32 pkt.target.toNat) with
    | none => if pkt.target = 0 then s.modSgc pkt.dstCtx.toNat fun x => { x with acks := x.acks - 1 } else s
    | some cl => s.modCl cl fun x =>
        { x with dleft := x.dleft - 1, dwait := decide (1 < x.dleft), ddone := decide (x.dleft ≤ 1) }))

/-! ### Heartbeats (R239, R240) -/

/-- The JOB values a heartbeat names: those inside the sender's list. -/
def hbJobs (bs : List Byte) : List Nat :=
  let n := leNat ((bs.drop 0x24).take 2)
  let f := leNat ((bs.drop 0x26).take 2)
  ((List.range 8).filter fun i => f + i < n).map fun i => leNat ((bs.drop (0x14 + 2 * i)).take 2)

/-- The heartbeat's list has come to its end. -/
def hbLastOf (bs : List Byte) : Bool :=
  decide (leNat ((bs.drop 0x24).take 2) ≤ leNat ((bs.drop 0x26).take 2) + 8)

/-- The bits of the own contexts whose JOB the neighbour named. -/
def State.jobCtxs (s : State) (js : List Nat) : List CtxId :=
  (s.ctxs.filter fun p => p.2.st ≠ .unused && js.contains p.2.job.toNat).map fun p => BitVec.ofNat 12 p.1

/-- HEARTBEAT: HB_LAST, the job bits of the cycle, and the count of PEER_LAG (R240). -/
def execHeartbeat (p : PortId) (pkt : Packet) (s : State) : Out :=
  s.receive p.val pkt 15 fun s =>
    if pkt.payload.length ≠ 64 then some (.fault (.payload 15)) else
    let w := leNat ((pkt.payload.drop 4).take 4)
    let own := s.pace1
    some (.next (s.modPort p.val fun x =>
      let seen := x.jobSeen ++ (hbJobs pkt.payload).map (BitVec.ofNat 16)
      let named := s.jobCtxs (seen.map BitVec.toNat)
      let fin := hbLastOf pkt.payload
      let now := s.jobCtxs (hbJobs pkt.payload)
      let peer := !x.jobBits.isEmpty
      let slow := peer && decide (100 * (w % 65536) < 95 * own)
      { x with
        hbLast := BitVec.ofNat 32 (w % 2 ^ 20), silentRun := 0, peerSilent := false
        jobSeen := if fin then [] else seen
        jobBits := if fin then named else x.jobBits ++ now.filter fun c => !x.jobBits.contains c
        lagRun := if slow then x.lagRun + 1 else 0
        okRun := if slow then 0 else x.okRun + 1
        peerLag := x.peerLag && (slow || decide (x.okRun + 1 < 100)) }))

/-- PEER_LAG after 100 consecutive slow heartbeats (R240). -/
def execPeerLag (p : PortId) (s : State) : Out :=
  let x := s.prt6 p.val
  if 100 ≤ x.lagRun && !x.peerLag then
    .next ((s.modPort p.val fun x => { x with peerLag := true }).alarm (pgPort p.val) 2)
  else .next s

/-- PEER_SILENT after 10 windows without a heartbeat of a job peer on an UP port (R240). -/
def execPeerSilent (p : PortId) (s : State) : Out :=
  let x := s.prt6 p.val
  if x.usable && !x.jobBits.isEmpty && 10 ≤ x.silentRun && !x.peerSilent then
    .next ((s.modPort p.val fun x => { x with peerSilent := true }).alarm (pgPort p.val) 4)
  else .next s

/-! ### Context registers (R243) -/

/-- A links context register is refused while the selected context is IN, but for COLL_SEM. -/
def execLkCtxRegWrite (off : BitVec 12) (v : W32) (s : State) : Out :=
  if !s.canWrite pgLinks then .next s else
  let c := s.sel.lkCtx
  let x := s.lkc c.toNat
  let w := v.toNat
  let sem : BitVec 14 := BitVec.ofNat 14 (w / 65536)
  if s.isIn c.toNat then
    if off = 0x064 then
      let s := s.modLkc c.toNat fun x => { x with collSem := sem }
      .next (if w % 16 = x.collqLog.toNat then s else s.alarm pgLinks 0 (some c))
    else if off = 0x054 ∨ off = 0x058 ∨ off = 0x05C ∨ off = 0x060 then .next (s.alarm pgLinks 0 (some c))
    else .next s
  else
    let lo := BitVec.ofNat 64 (x.collqBase.toNat / 2 ^ 32 * 2 ^ 32 + w / 128 * 128)
    let hi := BitVec.ofNat 64 (x.collqBase.toNat % 2 ^ 32 + w * 2 ^ 32)
    let f (x : LkCtx) : LkCtx :=
      if off = 0x054 then { x with jobOrigin := BitVec.ofNat 12 w }
      else if off = 0x058 then { x with jobExtent := BitVec.ofNat 12 w }
      else if off = 0x05C then { x with collqBase := lo }
      else if off = 0x060 then { x with collqBase := hi }
      else if off = 0x064 then { x with collqLog := BitVec.ofNat 4 w, collSem := sem }
      else x
    .next (s.modLkc c.toNat f)

end Sys2Proof.Machine
end

