-- ==== Sys2Proof/Machine/Coll.lean ====
section
/-! DEFINITION. Collectives and control reductions (R232 to R236, R241). -/

namespace Sys2Proof.Machine
open Sys2Proof

/-! ### The ring (R232) -/

/-- A leg: axis, count, stride. -/
def legOf (w : Nat) : Nat × Nat × Nat := (w % 4, bits w 5 2 + 1, bits w 9 6)

/-- The device at `idx` steps of each leg from ORIGIN. -/
def State.legDev (s : State) (origin : DevId) : List ((Nat × Nat × Nat) × Nat) → DevId
  | [] => origin
  | ((a, _, st), i) :: t =>
    let d := s.legDev origin t
    setAxis d a ((axisOf d a + st * i) % s.extent a)

/-- Snake order: LEG0 innermost, each leg turning on every pass of the leg outside it. -/
def snake (n0 n1 n2 p : Nat) : Nat × Nat × Nat :=
  let r := p / n0
  let q := r / n1
  (if r % 2 = 0 then p % n0 else n0 - 1 - p % n0, if q % 2 = 0 then r % n1 else n1 - 1 - r % n1, q % n2)

def State.ringDevs (s : State) (origin : DevId) (l0 l1 l2 : Nat × Nat × Nat) : List DevId :=
  (List.range (l0.2.1 * l1.2.1 * l2.2.1)).map fun p =>
    let (a, b, c) := snake l0.2.1 l1.2.1 l2.2.1 p
    s.legDev origin [(l2, c), (l1, b), (l0, a)]

def noRepeat : List DevId → Bool
  | [] => true
  | a :: t => !t.contains a && noRepeat t

/-- A used leg names an axis and a stride of 1 to 15. -/
def legOk (l : Nat × Nat × Nat) : Bool := l.2.1 == 1 || (l.1 != 3 && l.2.2 != 0)

/-! ### Elements -/

def Coll.n (x : Coll) : Nat := x.devs.length
/-- Bytes of a source element. -/
def Coll.size (x : Coll) : Nat := if x.srcFmt = 8 then 4 else 2
/-- The half an element belongs to: its first element, its length, and whether it travels downward. -/
def Coll.half (x : Coll) (e : Nat) : Nat × Nat × Bool :=
  let h := (x.elems + 1) / 2
  if x.bidir then (if e < h then (0, h, false) else (h, x.elems - h, true)) else (0, x.elems, false)
/-- The range of chunk `c` of a half. -/
def Coll.chunk (x : Coll) (h : Nat × Nat × Bool) (c : Nat) : Nat × Nat :=
  let m := (h.2.1 + x.n - 1) / x.n
  (min (h.1 + c * m) (h.1 + h.2.1), min (h.1 + (c + 1) * m) (h.1 + h.2.1))

/-- The chunk of a half that the position begins (R233). -/
def Coll.begun (x : Coll) (h : Nat × Nat × Bool) : Nat := if h.2.2 then (x.pos + 1) % x.n else (x.pos + x.n - 1) % x.n

/-- Is element `e` in chunk `c` of its half? -/
def Coll.inChunk (x : Coll) (e c : Nat) : Bool :=
  let r := x.chunk (x.half e) c
  decide (r.1 ≤ e) && decide (e < r.2)

/-- Does the position pass partial values of element `e` on: its chunk is neither the one it begins nor its own (R233)? -/
def Coll.passes (x : Coll) (e : Nat) : Bool :=
  x.op != 2 && x.n != 1 && !x.inChunk e x.pos && !x.inChunk e (x.begun (x.half e))

/-- Is the position's part of element `e` still to come: its value, or the partial that it passes on? -/
def Coll.missing (x : Coll) (e : Nat) (mine : Bool) : Bool :=
  (mine && !SMap.get false x.got e) || (x.passes e && !SMap.get false x.passed e)

/-- The halves of a collective that have elements. -/
def Coll.halves (x : Coll) : List (Nat × Nat × Bool) :=
  if x.bidir && decide (1 < x.elems) then [x.half 0, x.half (x.elems - 1)] else [x.half 0]

/-- Elements of the own chunks, one of each half. -/
def Coll.ownLen (x : Coll) : Nat := (x.halves.map fun h => let r := x.chunk h x.pos; r.2 - r.1).sum

/-- The elements the source list holds: the own chunks in ALL_GATHER, else all (log 57). -/
def Coll.need (x : Coll) : Nat := if x.op = 2 then x.ownLen else x.elems

/-- The place of element `e` in the source list; in ALL_GATHER the own chunks stand there one after the other. -/
def Coll.srcIx (x : Coll) (e : Nat) : Nat :=
  if x.op = 2 then
    let h := x.half e
    let before := if h.2.2 then let r := x.chunk (x.half 0) x.pos; r.2 - r.1 else 0
    before + (e - (x.chunk h x.pos).1)
  else e

/-- The place of byte `k` of the source list, with the bytes left in its entry. -/
def srcAt : List (Nat × Nat × Nat) → Nat → Option (Loc × Nat)
  | [], _ => none
  | (sp, a, n) :: t, k =>
    if k < n then some ((locOf (if sp = 0 then 1 else sp) a 0).shift k, n - k) else srcAt t (k - n)

/-- `n` source bytes from byte `k`. -/
def State.srcBytes (s : State) (x : Coll) (k n : Nat) : List Byte :=
  (List.range n).map fun i =>
    match srcAt x.srcs (k + i) with
    | some (l, _) => (s.locRead l 1).headD 0
    | none => 0

/-- The own value of element `e`, expanded to FP32. -/
def State.ownVal (s : State) (x : Coll) (e : Nat) : W32 :=
  expand32 x.srcFmt (leNat (s.srcBytes x (x.srcIx e * x.size) x.size)) 127

/-- The WIRE code of an FP32 value (R233). -/
def toWire (wire32 : Bool) (v : W32) : W32 :=
  if wire32 then v else BitVec.ofNat 32 (convert 0 .rne v 0).code
/-- The FP32 value of a WIRE code. -/
def ofWire (wire32 : Bool) (w : W32) : W32 := if wire32 then w else expand32 0 w.toNat 127

/-- Cut a list into pieces of at most `k`. -/
def pieces {α : Type} (k : Nat) : Nat → List α → List (List α)
  | 0, _ => []
  | f + 1, l => if l.isEmpty then [] else l.take k :: pieces k f (l.drop k)

/-- Send values of elements from `first` to the next position of their direction (R233). -/
def State.sendVals (s : State) (c : CtxId) (x : Coll) (step chunk first : Nat) (down : Bool) (vs : List W32) : State :=
  let nx := if down then (x.pos + x.n - 1) % x.n else (x.pos + 1) % x.n
  let per := if x.wire32 then 1024 else 2048
  ((pieces per (vs.length + 1) vs).foldl (fun (r : State × Nat) p =>
    let pay := (p.map fun w => leBytes (if x.wire32 then 4 else 2) w.toNat).flatten
    let k := s.mkPkt 5 5 (x.devs.getD nx 0) c c x.step
      (BitVec.ofNat 64 (x.number.toNat + step * 2 ^ 16 + r.2 * 2 ^ 32)) (BitVec.ofNat 64 chunk) pay
    (r.1.send k 0, r.2 + p.length)) (s, first)).1

/-! ### Start (R232) -/

/-- The source list's entries for `need` bytes, or the fault of their read with its address (R175). The first argument bounds the
entries: one for each byte, and as many empty ones as fit a 1 MiB list (log 57). -/
def State.srcList (s : State) (c : CtxId) : Nat → Nat → Nat → Except (U16 × Nat) (List (Nat × Nat × Nat))
  | 0, _, _ => .ok []
  | f + 1, a, need =>
    if need = 0 then .ok [] else
    match s.hbmCheck c.toNat a 16 false false with
    | some e => .error (e, a)
    | none =>
      let n := Mem.readN s.hbm (a + 12) 4
      match s.srcList c f (a + 16) (need - n) with
      | .error e => .error e
      | .ok l => .ok ((Mem.readN s.hbm a 4, Mem.readN s.hbm (a + 4) 8, n) :: l)

/-- Reading the source list meets a page to be waited for (Table SG.5, R275) before any fault; the first argument bounds
the entries as in `srcList`. -/
def State.listWaits (s : State) (c : CtxId) : Nat → Nat → Nat → Bool
  | 0, _, _ => false
  | f + 1, a, need =>
    if need = 0 || (s.hbmCheck c.toNat a 16 false false).isSome then false
    else s.hbmWait a 16 || s.listWaits c f (a + 16) (need - Mem.readN s.hbm (a + 12) 4)

/-- The descriptor at HBM address `a` as a collective without its sources, and the address of its source list; COLL_BAD
by R232, R233 or R9. The device's place in the ring is the one its ID, or a REMAP entry, gives it. Bits [63:12] of an
ALL_REDUCE_MINT's DST are not looked at (DESIGN CHOICE, log 107). -/
def State.collHead (s : State) (a : Nat) : Except U16 (Coll × Nat) :=
  let w (o : Nat) : Nat := Mem.readN s.hbm (a + o) 4
  let op := w 0 % 16
  let fmt := bits (w 0) 15 8
  let l0 := legOf (w 8)
  let l1 := legOf (w 8 / 65536)
  let l2 := legOf (w 12)
  let resv := w 0 / 65536 != 0 || bit (w 0) 6 || bit (w 0) 7 || w 4 / 4096 != 0 || w 8 &&& 0xFC00FC00 != 0
    || w 12 / 1024 != 0 || w 40 / 16384 != 0 || w 48 / 65536 != 0
    || (List.range 19).any fun i => w (52 + 4 * i) != 0
  let devs := s.ringDevs (BitVec.ofNat 12 (w 4)) l0 l1 l2
  match devs.findIdx? (s.remapped · == s.devId) with
  | none => .error 0x0404
  | some pos =>
    let x : Coll := { op := op, wire32 := bit (w 0) 4, bidir := bit (w 0) 5, srcFmt := fmt, devs := devs, pos := pos
                      elems := w 16, step := BitVec.ofNat 32 (w 20), srcs := []
                      dst := BitVec.ofNat 64 (Mem.readN s.hbm (a + 0x20) 8), doneSem := BitVec.ofNat 14 (w 40)
                      addend := BitVec.ofNat 32 (w 44), number := BitVec.ofNat 16 (w 48) }
    if resv || op = 0 || 4 < op || !([0, 1, 8].contains fmt) || !legOk l0 || !legOk l1 || !legOk l2
        || !noRepeat devs || !s.inTorus (BitVec.ofNat 12 (w 4)) || (op = 4 && !s.unitOn 1) then .error 0x0404
    else .ok (x, Mem.readN s.hbm (a + 0x18) 8)

/-- Bytes the source list holds. -/
def Coll.needBytes (x : Coll) : Nat := x.need * x.size

/-- The source list of the descriptor at `a` has to be waited for. -/
def State.collListWaits (s : State) (c : CtxId) (a : Nat) : Bool :=
  match s.collHead a with
  | .error _ => false
  | .ok (x, l) => s.listWaits c (x.needBytes + 65536) l x.needBytes

/-- The descriptor at HBM address `a` as a collective of context `c`, or its fault with the address in DETAIL:
that of `collHead`, that of reading its source list, or COLL_BAD for a list that does not serve. -/
def State.parseColl (s : State) (c : CtxId) (a : Nat) : Except (U16 × Nat) Coll :=
  match s.collHead a with
  | .error e => .error (e, a)
  | .ok (x, l) =>
    match s.srcList c (x.needBytes + 65536) l x.needBytes with
    | .error e => .error e
    | .ok srcs =>
      if srcs.any (fun e => decide (3 < e.1)) || (x.srcFmt = 8 && srcs.any fun e => decide (2 ≤ e.1))
          || decide ((srcs.map fun e => e.2.2).sum < x.needBytes) then .error (0x0404, a)
      else .ok { x with srcs := srcs }

/-- The place of the result: the source's space (log 57). -/
def Coll.dstLoc (x : Coll) : Loc :=
  let sp := (x.srcs.head?.map fun e => e.1).getD 2
  locOf (if x.srcFmt = 8 ∨ sp = 0 then 1 else sp) x.dst.toNat 0

/-- The elements the position's result holds: the own chunks after a reduce-scatter, else all. -/
def Coll.mine (x : Coll) (e : Nat) : Bool :=
  x.op != 1 || x.inChunk e x.pos

/-- Hand finished elements to the own Mints: the finished prefix, in bundles of at most 2,048 elements that
stay inside one stripe unit (R155, R234). -/
def State.deliver (s : State) (c : CtxId) : Nat → Coll → State × Coll
  | 0, x => (s, x)
  | f + 1, x =>
    let stop := min x.elems ((x.sent / 2048 + 1) * 2048)
    if x.sent < stop && (List.range (stop - x.sent)).all fun i => SMap.get false x.got (x.sent + i) then
      let b : Bundle := { ctx := c, desc := BitVec.ofNat 12 x.dst.toNat, step := x.step, first := x.sent, col := 0
                          count := stop - x.sent, fp32 := x.wire32, lenOk := true
                          vals := (List.range (stop - x.sent)).map fun i => ofWire x.wire32 (Words.get x.res (x.sent + i)) }
      let s := { s with links := { s.links with toMint := s.links.toMint ++ [(b, false)] } }
      s.deliver c f { x with sent := stop }
    else (s, x)

/-- Finished WIRE values of elements from `first`. -/
def Coll.finish (x : Coll) (first : Nat) (vs : List W32) : Coll :=
  { x with
    res := vs.zipIdx.foldl (fun m v => Words.set m (first + v.2) v.1) x.res
    got := vs.zipIdx.foldl (fun m v => SMap.set false m (first + v.2) true) x.got }

/-- The partials of `n` elements from `first` have been passed on. -/
def Coll.pass (x : Coll) (first n : Nat) : Coll :=
  { x with passed := (List.range n).foldl (fun m i => SMap.set false m (first + i) true) x.passed }

/-- Finish elements and pass the prefix to the Mints in ALL_REDUCE_MINT. -/
def State.finishVals (s : State) (c : CtxId) (x : Coll) (first : Nat) (vs : List W32) : State × Coll :=
  let x := x.finish first vs
  if x.op = 4 then s.deliver c (x.elems / 2048 + 2) x else (s, x)

def State.wireOwn (s : State) (x : Coll) (r : Nat × Nat) : List W32 :=
  (List.range (r.2 - r.1)).map fun i => toWire x.wire32 (s.ownVal x (r.1 + i))

/-- The first sends of one half (R233): its own part of the chunk it begins, or its own finished chunk in
ALL_GATHER and in a ring of one. -/
def State.kick (s : State) (c : CtxId) (x : Coll) (h : Nat × Nat × Bool) : State × Coll :=
  if x.n = 1 ∨ x.op = 2 then
    let r := x.chunk h x.pos
    let vs := s.wireOwn x r
    let (s, x) := s.finishVals c x r.1 vs
    (if x.n = 1 then s else s.sendVals c x (x.n - 1) x.pos r.1 h.2.2 vs, x)
  else
    let ch := x.begun h
    let r := x.chunk h ch
    (s.sendVals c x 0 ch r.1 h.2.2 (s.wireOwn x r), x)

/-- The cluster of a place. -/
def Loc.cluster : Loc → Option Nat
  | .clu cl _ => some cl.toNat
  | _ => none

/-- The clusters in whose memory the collective has operands or its result (R235). -/
def Coll.clusters (x : Coll) : List Nat :=
  (x.srcs.filterMap fun e => (locOf (if e.1 = 0 then 1 else e.1) e.2.1 0).cluster)
    ++ (if x.op = 4 then [] else x.dstLoc.cluster.toList)

/-- The checks of the source list and the destination, with the address of the place that fails (R173, R175); a cluster that
has failed its test comes last (R273). -/
def State.collCheck (s : State) (c : CtxId) (x : Coll) : Option (U16 × Nat) :=
  (s.locsFault c ((x.srcs.map fun e => (locOf (if e.1 = 0 then 1 else e.1) e.2.1 0, e.2.2, false))
    ++ if x.op = 4 then [] else [(x.dstLoc, ((List.range x.elems).filter x.mine).length * x.size, true)])).orElse fun _ =>
  if x.clusters.any fun cl => (s.clu cl).failed then some (0x0504, 0) else none

/-- A running collective of the context has operands on cluster `cl`: it counts as a command there (R235). -/
def State.collOn (s : State) (c : CtxId) (cl : Nat) : Bool := (s.lkc c.toNat).coll.any fun x => x.clusters.contains cl
/-- A running collective of the context has operands in cluster memory: a save waits for it. -/
def State.collHolds (s : State) (c : CtxId) : Bool := (s.lkc c.toNat).coll.any fun x => !x.clusters.isEmpty

/-- A source of the collective has to be waited for (R309, Table SG.5). -/
def State.collWait (s : State) (x : Coll) : Bool :=
  x.srcs.any fun e => s.srcWait (locOf (if e.1 = 0 then 1 else e.1) e.2.1 0) e.2.2

/-- COLL_START: the next descriptor of the queue, for a unit signalled on COLL_SEM (R232). -/
def execCollStart (c : CtxId) (s : State) : Out :=
  let q := s.lkc c.toNat
  let live := (s.ctx c.toNat).st = .resident || (s.ctx c.toNat).st = .out
  let a := q.collqBase.toNat + q.started % 2 ^ q.collqLog.toNat * 128
  if q.units = 0 || q.coll.isSome || s.bursar.hold || !live || s.hbmWait a 128 then .next s else
  match s.hbmCheck c.toNat a 128 false false with
  | some f => .next (faultCtx s c f (BitVec.ofNat 64 a))
  | none =>
    if s.collListWaits c a then .next s else
    match s.parseColl c a with
    | .error f => .next (faultCtx s c f.1 (BitVec.ofNat 64 f.2))
    | .ok x =>
      -- operands in cluster memory wait for their context to be IN (R235)
      if (!x.clusters.isEmpty && !s.isIn c.toNat) || s.collWait x then .next s else
      match s.collCheck c x with
      | some f => .next (faultCtx s c f.1 (BitVec.ofNat 64 f.2))
      | none =>
        let s := s.modLkc c.toNat fun q => { q with started := q.started + 1, units := q.units - 1 }
        let opn : Bundle := { ctx := c, desc := BitVec.ofNat 12 x.dst.toNat, step := x.step, first := 0, col := 0
                              count := x.elems, fp32 := x.wire32, vals := [], lenOk := true }
        let s := if x.op = 4 then { s with links := { s.links with toMint := s.links.toMint ++ [(opn, true)] } } else s
        let (s, x) := x.halves.foldl (fun r h => r.1.kick c r.2 h) (s, x)
        -- a send without a route has faulted the context already
        if (s.ctx c.toNat).st = .scrubbing then .next s
        else .next (s.modLkc c.toNat fun q => { q with coll := some x })

/-! ### Chunks (R233) -/

/-- The values a COLL_CHUNK carries. -/
def chunkVals (wire32 : Bool) (bs : List Byte) : List W32 :=
  let w := if wire32 then 4 else 2
  (List.range (bs.length / w)).map fun i => BitVec.ofNat 32 (leNat ((bs.drop (w * i)).take w))

/-- Does the chunk of a running collective wait: for the gate of the collective engine (R247, R255), its operands'
context or their source (R235, R309)? While the context is SAVING its collective runs on, since the save waits for it. -/
def State.chunkWaits (s : State) (c : CtxId) (x : Coll) (reduce : Bool) : Bool :=
  s.bursar.hold || (reduce && ((!x.clusters.isEmpty && !((s.ctx c.toNat).st = .resident || (s.ctx c.toNat).st = .saving)) || s.collWait x))

/-- The first byte of HBM in error among the own values of `n` elements from `first` (R271, R311). -/
def State.ownBad (s : State) (x : Coll) (first n : Nat) : Option Nat :=
  (List.range n).findSome? fun i => (List.range x.size).findSome? fun k =>
    match srcAt x.srcs (x.srcIx (first + i) * x.size + k) with
    | some (.hbm a, _) => if s.ueMeets a 1 then some a else none
    | _ => none

/-- COLL_CHUNK: combined with the own values and sent on, or finished, delivered and forwarded. A chunk of
a collective that has not started here waits (log 58). -/
def execCollChunk (p : PortId) (pkt : Packet) (s : State) : Out :=
  s.receive p.val pkt 5 fun s' =>
    let c := pkt.dstCtx
    match (s'.lkc c.toNat).coll with
    | none => none
    | some x =>
      if x.number ≠ BitVec.ofNat 16 pkt.target.toNat || s'.chunkWaits c x (decide (bits pkt.target.toNat 31 16 < x.n - 1)) then none else
      if pkt.payload.length % (if x.wire32 then 4 else 2) ≠ 0 then some (.fault (.payload 5)) else
      match (if bits pkt.target.toNat 31 16 < x.n - 1 then
          s'.ownBad x (pkt.target.toNat / 2 ^ 32) (chunkVals x.wire32 pkt.payload).length else none) with
      | some a => some (.next (faultCtx s' c 0x0501 (BitVec.ofNat 64 a)))
      | none =>
      let t := bits pkt.target.toNat 31 16
      let first := pkt.target.toNat / 2 ^ 32
      let ch := pkt.aux.toNat % 4096
      let vs := chunkVals x.wire32 pkt.payload
      let down := (x.half first).2.2
      if t < x.n - 1 then
        let sum := vs.zipIdx.map fun v =>
          toWire x.wire32 (fadd (ofWire x.wire32 v.1) (s'.ownVal x (first + v.2)))
        if ch = x.pos then
          let (s', x) := s'.finishVals c x first sum
          let s' := s'.modLkc c.toNat fun q => { q with coll := some x }
          some (.next (if x.op = 1 then s' else s'.sendVals c x (x.n - 1) ch first down sum))
        else
          let s' := s'.modLkc c.toNat fun q => { q with coll := some (x.pass first vs.length) }
          some (.next (s'.sendVals c x (t + 1) ch first down sum))
      else
        let (s', x) := s'.finishVals c x first vs
        let s' := s'.modLkc c.toNat fun q => { q with coll := some x }
        some (.next (if t + 3 < 2 * x.n then s'.sendVals c x (t + 1) ch first down vs else s'))

/-- Has every element of the position's result arrived (and, in ALL_REDUCE_MINT, gone to the Mints), and has the position
passed on every partial that is its to pass (R233)? -/
def Coll.complete (x : Coll) : Bool :=
  (List.range x.elems).all (fun e => !x.missing e (x.mine e)) && (x.op != 4 || x.sent == x.elems)

/-- The result's bytes in the source format, rounded to nearest even (R233). -/
def Coll.bytes (x : Coll) : List Byte :=
  (((List.range x.elems).filter x.mine).map fun e =>
    let v := ofWire x.wire32 (Words.get x.res e)
    if x.srcFmt = 8 then leBytes 4 v.toNat else leBytes 2 (convert x.srcFmt .rne v 0).code).flatten

/-- COLL_DONE: the result stands at DST, ADDEND is added to the completion semaphore (R232). -/
def execCollDone (c : CtxId) (s : State) : Out :=
  match (s.lkc c.toNat).coll with
  | none => .next s
  | some x =>
    if !x.complete then .next s else
    let bs := x.bytes
    if x.op ≠ 4 ∧ s.locWait x.dstLoc bs.length then .next s else
    if !s.semOf x.doneSem.toNat c then .next (faultCtx s c 0x0003) else
    match (if x.op = 4 then none else s.locCheck c x.dstLoc bs.length true) with
    | some f => .next (faultCtx s c f x.dst)
    | none =>
      let s := if x.op = 4 then s else s.locWrite x.dstLoc bs
      let s := s.signalSem x.doneSem.toNat x.addend
      .next (s.modLkc c.toNat fun q => { q with coll := none, collDone := q.collDone + 1 })

/-! ### Control reductions (R236) -/

/-- Extent of the job box on an axis, and the device's place in it. -/
def State.boxExt (s : State) (q : LkCtx) (a : Nat) : Nat := min (axisOf q.jobExtent a + 1) (s.extent a)
def State.boxIdx (s : State) (q : LkCtx) (a : Nat) : Nat :=
  (axisOf s.roleId a + s.extent a - axisOf q.jobOrigin a) % s.extent a

/-- Words that arrive from the N side (travelling up) and from the P side (travelling down). On a whole
ring a word goes e/2 hops up and (e − 1)/2 down; on a line to the ends of the box. -/
def State.fromN (s : State) (q : LkCtx) (a : Nat) : Nat :=
  let e := s.boxExt q a
  if e = s.extent a then e / 2 else s.boxIdx q a
def State.fromP (s : State) (q : LkCtx) (a : Nat) : Nat :=
  let e := s.boxExt q a
  if e = s.extent a then (e - 1) / 2 else e - 1 - s.boxIdx q a

/-- How far a word may still travel up or down from here, when it has travelled `k` hops. -/
def State.goesUp (s : State) (q : LkCtx) (a k : Nat) : Bool :=
  let e := s.boxExt q a
  if e = s.extent a then decide (k < e / 2) else decide (s.boxIdx q a + 1 < e)
def State.goesDown (s : State) (q : LkCtx) (a k : Nat) : Bool :=
  let e := s.boxExt q a
  if e = s.extent a then decide (k < (e - 1) / 2) else decide (0 < s.boxIdx q a)

/-- Send a control word in the direction of port `p`: to the device that stands for the neighbour there, out of that
port where the neighbour itself is meant. -/
def State.sendCtl (s : State) (c : CtxId) (a : Nat) (sum : Bool) (p : Nat) (w : W32) : State :=
  let k := s.mkPkt 8 1 (s.peerOf p) c c 0 (BitVec.ofNat 64 (a + sum.toNat * 4)) (BitVec.ofNat 64 w.toNat) []
  if k.dst = s.neighbour p ∧ (s.prt6 p).st ≠ .down then s.modPort p fun x => x.queue { k with dateline := s.wraps p }
  else s.send k 0

/-- Send the own word on the present axis. -/
def State.ctlOut (s : State) (c : CtxId) (r : Reduce) : State :=
  let q := s.lkc c.toNat
  let s := if s.goesUp q r.axis 0 then s.sendCtl c r.axis r.sum (2 * r.axis) r.own else s
  if s.goesDown q r.axis 0 then s.sendCtl c r.axis r.sum (2 * r.axis + 1) r.own else s

def combine (sum : Bool) (a b : W32) : W32 := if sum then a + b else a ||| b

/-- A control word that arrived: from the N side?, its axis, SUM_I?, the word. -/
abbrev CtlWord := Bool × Nat × Bool × W32

/-- Take a word for the present axis, by the operation it carries, and forward it the way it travels. -/
def State.ctlTake (s : State) (c : CtxId) (r : Reduce) (e : CtlWord) : State × Reduce :=
  let q := s.lkc c.toNat
  if e.1 then
    let k := r.gotN + 1
    (if s.goesUp q r.axis k then s.sendCtl c r.axis e.2.2.1 (2 * r.axis) e.2.2.2 else s,
      { r with acc := combine e.2.2.1 r.acc e.2.2.2, gotN := k })
  else
    let k := r.gotP + 1
    (if s.goesDown q r.axis k then s.sendCtl c r.axis e.2.2.1 (2 * r.axis + 1) e.2.2.2 else s,
      { r with acc := combine e.2.2.1 r.acc e.2.2.2, gotP := k })

/-- The early words of axis `a` that a reduction takes, at most `nN` from the N side and `nP` from the P side in the
order they came, and those that are for a later one. -/
def splitEarly (a : Nat) : Nat → Nat → List CtlWord → List CtlWord × List CtlWord
  | _, _, [] => ([], [])
  | nN, nP, e :: t =>
    if e.2.1 = a && e.1 && nN != 0 then let r := splitEarly a (nN - 1) nP t; (e :: r.1, r.2)
    else if e.2.1 = a && !e.1 && nP != 0 then let r := splitEarly a nN (nP - 1) t; (e :: r.1, r.2)
    else let r := splitEarly a nN nP t; (r.1, e :: r.2)

/-- A reduction at the start of its axis sends its own word and takes the words that came early. -/
def State.ctlBegin (s : State) (c : CtxId) (r : Reduce) : State × Reduce :=
  let s := s.ctlOut c r
  let q := s.lkc c.toNat
  let w := splitEarly r.axis (s.fromN q r.axis) (s.fromP q r.axis) q.early
  w.1.foldl (fun x e => x.1.ctlTake c x.2 e) (s.modLkc c.toNat fun q => { q with early := w.2 }, r)

/-- The reduction has every word of the side that word `e` comes from: `e` is another reduction's. -/
def State.sideFull (s : State) (c : CtxId) (r : Reduce) (e : CtlWord) : Bool :=
  if e.1 then decide (s.fromN (s.lkc c.toNat) r.axis ≤ r.gotN) else decide (s.fromP (s.lkc c.toNat) r.axis ≤ r.gotP)

/-- Go on through the axes while the present one is complete, taking words that came early. -/
def State.ctlGo (s : State) (c : CtxId) : Nat → Reduce → State × Reduce
  | 0, r => (s, r)
  | f + 1, r =>
    let q := s.lkc c.toNat
    if r.done then (s, r)
    else if r.gotN = s.fromN q r.axis ∧ r.gotP = s.fromP q r.axis then
      if r.axis = 2 then (s, { r with done := true })
      else
        let x := s.ctlBegin c { r with axis := r.axis + 1, own := r.acc, gotN := 0, gotP := 0 }
        x.1.ctlGo c f x.2
    else (s, r)

/-- Keep a reduction, unless a send without a route has faulted its context. -/
def State.keepRed (s : State) (c : CtxId) (r : Reduce) : State :=
  if (s.ctx c.toNat).st = .scrubbing then s else s.modLkc c.toNat fun q => { q with red := some r }

/-- Begin a reduction of the own word over the job box (R236). -/
def State.ctlStart (s : State) (c : CtxId) (sum : Bool) (w : W32) : State :=
  let x := s.ctlBegin c { axis := 0, sum := sum, own := w, acc := w }
  let (s, r) := x.1.ctlGo c 8 x.2
  s.keepRed c r

/-- The word a CTRL_REDUCE brings (Table LK.3): TARGET names the axis and the operation; it comes from the N side when
the device that stands for the N neighbour sent it, from the P side when the one for the P neighbour did, whatever port
brought it; else the port tells (log 20). -/
def State.ctlWord (s : State) (p : Nat) (k : Packet) : CtlWord :=
  let a := k.target.toNat % 4
  let n := if k.src = s.peerOf (2 * a + 1) then true else if k.src = s.peerOf (2 * a) then false else p % 2 == 1
  (n, a, bits k.target.toNat 3 2 == 1, BitVec.ofNat 32 k.aux.toNat)

/-- CTRL_REDUCE: a word for the present axis is combined and forwarded; one for a later axis, or for a
reduction not yet begun here, which a side that has all its words shows too, is kept. -/
def execCtrlReduce (p : PortId) (pkt : Packet) (s : State) : Out :=
  s.receive p.val pkt 8 fun s =>
    let c := pkt.dstCtx
    let e := s.ctlWord p.val pkt
    let keep := s.modLkc c.toNat fun q => { q with early := q.early ++ [e] }
    some (.next (match (s.lkc c.toNat).red with
    | some r =>
      if r.axis = e.2.1 && !r.done && !s.sideFull c r e then
        let (s, r) := s.ctlTake c r e
        let (s, r) := s.ctlGo c 8 r
        s.keepRed c r
      else keep
    | none => keep))

/-! ### Stragglers (R241) -/

/-- Does half `down` of a collective still wait for an element that this position needs or passes on (R233)? -/
def Coll.halfWaits (x : Coll) (down : Bool) : Bool :=
  (List.range x.elems).any fun e => (x.half e).2.2 == down && x.missing e (x.mine e)

/-- The port on which a packet of device `d` comes in: that of the last axis it travels, from the way it takes there
(R228), or the other one where that is DOWN (R238). -/
def State.portFrom (s : State) (d : DevId) : Nat :=
  match [2, 1, 0].find? fun a => axisOf d a != axisOf s.devId a with
  | none => 0
  | some a =>
    let e := s.extent a
    let fwd := (axisOf s.devId a + e - axisOf d a) % e
    let p := if fwd ≤ e - fwd then 2 * a + 1 else 2 * a
    if (s.prt6 p).st ≠ .down then p else 2 * a + (p + 1) % 2

/-- The port and the device a word of the neighbour at port `p` comes from. -/
def State.wordFrom (s : State) (p : Nat) : Nat × DevId :=
  let d := s.peerOf p
  (if d = s.neighbour p && (s.prt6 p).st ≠ .down then p else s.portFrom d, d)

/-- The port and the device that a running control reduction of the context waits for in one direction: words that travel
down come from the P side, those that travel up from the N side. -/
def State.redAwaits (s : State) (c : CtxId) (down : Bool) : Option (Nat × DevId) :=
  let q := s.lkc c.toNat
  q.red.bind fun r =>
    if r.done then none
    else if down then if r.gotP < s.fromP q r.axis then some (s.wordFrom (2 * r.axis)) else none
    else if r.gotN < s.fromN q r.axis then some (s.wordFrom (2 * r.axis + 1)) else none

/-- The port and the device that a running collective of the context waits for in one direction: a descending half hears
from the position after, an ascending one from the position before. -/
def State.collAwaits (s : State) (c : CtxId) (down : Bool) : Option (Nat × DevId) :=
  (s.lkc c.toNat).coll.bind fun x =>
    if !x.halfWaits down then none else
    let d := s.remapped (x.devs.getD ((x.pos + (if down then 1 else x.n - 1)) % x.n) 0)
    some (s.portFrom d, d)

/-- What the collective, or the control reduction, of the context waits for: each counts its own waits (R241, log 89). -/
def State.awaited (s : State) (w : LateHalf) : Option (Nat × DevId) :=
  if w.coll then s.collAwaits w.ctx w.down else s.redAwaits w.ctx w.down

/-- STRAGGLER: the wait for a ring step, in one direction, exceeded COLL_TIMEOUT; the waiting context faults
(R241). -/
def execStraggler (w : LateHalf) (s : State) : Out :=
  match s.awaited w with
  | none => .next s
  | some (p, d) => .next (faultCtx s w.ctx 0x0401 (BitVec.ofNat 64 (p + d.toNat * 256)))

end Sys2Proof.Machine
end

