-- ==== Sys2Proof/Machine/Operands.lean ====
section
/-! DEFINITION. Command images: classes, layouts and reserved values (R181, Tables CS.5 to CS.8). -/

namespace Sys2Proof.Machine
open Sys2Proof

def cSeq (i : Image) : W32 := w32 i 0
def cClass (i : Image) : Nat := fld i 4 3 0
def cNotify (i : Image) : Bool := bit (fld i 4 31 0) 4
def cOrdered (i : Image) : Bool := bit (fld i 4 31 0) 6
def cRelease (i : Image) : Bool := bit (fld i 4 31 0) 7
def cCluster (i : Image) : ClId := BitVec.ofNat 11 (fld i 4 18 8)
def cDie (i : Image) : Nat := fld i 4 18 16
def cStep (i : Image) : W32 := w32 i 8
def cTensor (i : Image) : W32 := w32 i 0xC

/-- The bits of one field [hi:lo] of the word at `off`. -/
def fieldBits (f : Nat × Nat × Nat) : Nat := (2 ^ (f.2.1 + 1 - f.2.2) - 1) <<< (8 * f.1 + f.2.2)
def layoutMask : List (Nat × Nat × Nat) → Nat
  | [] => 0
  | f :: t => fieldBits f ||| layoutMask t

/-- The header every class has. -/
def headerFields : List (Nat × Nat × Nat) := [(0, 31, 0), (4, 7, 0), (4, 18, 8), (8, 31, 0), (12, 31, 0)]

/-- The bits a 64-bit DMA address assigns: in a cluster space [22:0] and [42:32], else all. -/
def addrFields (off : Nat) (cluster : Bool) : List (Nat × Nat × Nat) :=
  if cluster then [(off, 22, 0), (off + 4, 10, 0)] else [(off, 63, 0)]

/-- SRC and DST of a DMA command; a remote DST is read in the remote space (R231). -/
def dmaAddrs (i : Image) : List (Nat × Nat × Nat) :=
  let remote := fld i 0x10 3 0 == 0 && bit (fld i 0x28 31 0) 12
  addrFields 0x18 (decide (fld i 0x10 7 6 ≤ 1))
    ++ addrFields 0x20 (if remote then fld i 0x28 29 28 == 1 else decide (fld i 0x10 9 8 ≤ 1))

/-- Fields of a DMA command past its first words, by mode. -/
def dmaFields (mode : Nat) : List (Nat × Nat × Nat) :=
  match mode with
  | 0 => [(0x28, 12, 0), (0x28, 14, 13), (0x28, 27, 16), (0x28, 29, 28), (0x2C, 14, 0)]
  | 1 => [(0x28, 31, 0)]
  | 2 => [(0x2C, 63, 0)]
  | 3 => [(0x2C, 63, 0)]
  | 4 => [(0x28, 31, 0), (0x2C, 63, 0)]
  | 5 => [(0x28, 31, 0)]
  | 6 => [(0x28, 31, 0)]
  | _ => []

/-- Fields of a TOUCH command past its first word, by operation. -/
def touchFields (op : Nat) : List (Nat × Nat × Nat) :=
  match op with
  | 1 => [(0x14, 14, 0), (0x14, 27, 16), (0x18, 31, 0), (0x1C, 16, 0), (0x20, 31, 0)]
  | 2 => [(0x10, 4, 4), (0x18, 31, 0), (0x1C, 16, 0), (0x20, 31, 0), (0x24, 31, 0), (0x28, 31, 0), (0x2C, 31, 0)]
  | 3 => [(0x10, 5, 5), (0x18, 31, 0), (0x1C, 16, 0), (0x20, 31, 0), (0x2C, 31, 0), (0x30, 31, 0), (0x34, 15, 0)]
  | 4 => [(0x10, 6, 6), (0x20, 31, 0)]
  | _ => []

def syncFields (op : Nat) : List (Nat × Nat × Nat) :=
  match op with
  | 0 => [(0x14, 13, 0), (0x18, 31, 0)]
  | 1 => [(0x14, 13, 0), (0x18, 31, 0)]
  | 2 => [(0x1C, 31, 0)]
  | 3 => [(0x20, 16, 0)]
  | _ => []

/-- Operand fields of a SEQ command, by operation (Table LG.4). -/
def seqFields (op : Nat) : List (Nat × Nat × Nat) :=
  match op with
  | 1 => [(0x14, 13, 0), (0x18, 12, 0), (0x1C, 31, 0), (0x20, 19, 0), (0x24, 19, 0), (0x28, 9, 0), (0x2C, 31, 0)]
  | 2 => [(0x14, 3, 0), (0x18, 31, 0), (0x1C, 12, 0), (0x20, 19, 0), (0x24, 19, 0), (0x28, 63, 0), (0x30, 31, 0)]
  | 3 => [(0x14, 1, 0), (0x18, 63, 0)]
  | 4 => [(0x14, 13, 0), (0x18, 0, 0)]
  | 5 | 6 => [(0x14, 13, 0)]
  | 7 => [(0x14, 13, 0), (0x18, 7, 0), (0x1C, 31, 0)]
  | 8 => [(0x14, 8, 0), (0x18, 7, 0), (0x20, 63, 0)]
  | 9 => [(0x14, 8, 0), (0x18, 63, 0), (0x20, 31, 0), (0x28, 63, 0), (0x30, 31, 0)]
  | _ => []

/-- Reserved values of SEQ operands (Table LG.4). -/
def seqReserved (i : Image) : Bool :=
  let op := fld i 0x10 7 0
  op == 0 || decide (9 < op)
    || (op == 1 && (decide (16 < fld i 0x18 12 8) || fld i 0x20 19 0 == 0))
    || (op == 2 && (fld i 0x14 3 2 == 3 || fld i 0x1C 12 0 == 0 || decide (4096 < fld i 0x1C 12 0) || fld i 0x24 19 0 == 0))

/-- The class words a layout assigns (Tables CS.6 to CS.8). -/
def classFields (i : Image) : List (Nat × Nat × Nat) :=
  match cClass i with
  | 1 =>
    let dest := fld i 0x20 14 13
    [(0x10, 31, 0), (0x14, 30, 0), (0x18, 31, 0), (0x1C, 23, 0), (0x20, 25, 0), (0x2C, 31, 0), (0x30, 31, 0),
      (0x34, 31, 0), (0x38, 31, 0), (0x3C, 15, 0)]
      ++ (if dest = 0 then [(0x24, 15, 0)]
          else if dest = 2 then [(0x24, 31, 0), (0x28, 9, 0)]
          else if dest = 3 then [(0x24, 31, 0), (0x28, 24, 0)] else [])
  | 2 => [(0x10, 31, 0), (0x14, 31, 0), (0x18, 31, 0), (0x1C, 0, 0), (0x20, 31, 0), (0x24, 15, 0)]
  | 3 => [(0x10, 12, 0), (0x14, 31, 0), (0x18, 63, 0), (0x20, 63, 0)]
  | 4 => [(0x10, 16, 0), (0x14, 31, 0)] ++ dmaAddrs i ++ dmaFields (fld i 0x10 3 0)
  | 5 => [(0x10, 3, 0)] ++ touchFields (fld i 0x10 3 0)
  | 6 => [(0x10, 11, 0), (0x14, 31, 0), (0x18, 31, 0)]
  | 7 => [(0x10, 4, 0)] ++ syncFields (fld i 0x10 2 0)
  | 8 => [(0x10, 3, 0), (0x14, 31, 0), (0x18, 7, 0)]
  | 9 => [(0x10, 15, 0)]
  | 10 => [(0x10, 7, 0)]
  | 11 => [(0x10, 7, 0)] ++ seqFields (fld i 0x10 7 0)
  | 12 => [(0x10, 0, 0), (0x14, 31, 0)]
  | _ => []

/-- Reserved values of the fields that name no fault of their own. -/
def reservedValue (i : Image) : Bool :=
  match cClass i with
  | 2 =>
    let n := fld i 0x10 31 16
    n == 0 || decide (8192 < n) || fld i 0x18 15 0 == 0 || fld i 0x18 31 16 % 32 != 0 || bit (fld i 0x1C 31 0) 0
  | 4 =>
    let m := fld i 0x10 3 0
    decide (6 < m) || fld i 0x10 5 4 == 3 || decide (6 < fld i 0x10 13 10) || (m == 0 && bit (fld i 0x28 31 0) 12 && (fld i 0x28 14 13 == 3 || fld i 0x28 29 28 == 0 || fld i 0x28 29 28 == 3))
  | 5 =>
    let op := fld i 0x10 3 0
    op == 0 || decide (5 < op)
      || (decide (op ≤ 3) && (fld i 0x1C 16 0 == 0 || decide (65536 < fld i 0x1C 16 0)))
  | 7 => decide (3 < fld i 0x10 2 0)
  | 8 => decide (6 < fld i 0x10 3 0)
  | 10 => fld i 0x10 7 0 != 1 && fld i 0x10 7 0 != 2
  | 11 => seqReserved i
  | 1 => fld i 0x20 11 10 == 3
  | 3 | 6 | 9 | 12 => false
  | _ => true

/-- The check of a command image (R181): a reserved class, a reserved value or an unassigned bit that is
not zero faults BAD_OP. -/
def imageBad (i : Image) : Bool :=
  reservedValue i || i.toNat &&& (2 ^ 512 - 1 - layoutMask (headerFields ++ classFields i)) != 0

/-- The engine that executes a command (Table CS.5). -/
def engineOf (i : Image) : Engine :=
  match cClass i with
  | 1 => .matrix (cCluster i)
  | 2 => .vector (cCluster i)
  | 3 => .teller (cCluster i)
  | 4 => .dma (cCluster i)
  | 5 => .touch ⟨cDie i % 8, Nat.mod_lt _ (by decide)⟩
  | 6 => .mint
  | 7 => .sync
  | 8 => .bursar
  | 9 => .cheap (cCluster i)
  | 10 => .strongroom
  | 11 => .ledger
  | _ => .eval

/-- The cluster a command names for ORDERED and SCOPE 1: UPDATE, HINT, CKPT, SEQ and EVAL name none. -/
def namesCluster (i : Image) : Option ClId :=
  match cClass i with
  | 6 | 8 | 10 | 11 | 12 => none
  | _ => some (cCluster i)

end Sys2Proof.Machine
end

