-- ==== Sys2Proof/Machine/Numerics.lean ====
section
/-! DEFINITION. The Census, the loss scale and the step close (R131 to R137, R140). -/

namespace Sys2Proof.Machine
open Sys2Proof

/-! ### The Census (R135 to R137) -/

/-- Key of a die counter: die, context, class, format index, counter. -/
def censusKey (d c cls fmt k : Nat) : Nat := ((d * 4096 + c) * 16 + cls) * 32 + fmt * 4 + k

/-- An amount is added into the context's census area, or discarded when the context has none. -/
def State.spillInto (s : State) (c cls fmt k n : Nat) : State :=
  let b := (s.nums c).censusBase.toNat
  if b = 0 ∨ n = 0 then s else s.censusAdd c (b + 256 * cls + 32 * fmt + 8 * k) n

/-- One 32-bit counter is added into the context's census area and cleared. -/
def State.spillOne (s : State) (d c cls fmt k : Nat) : State :=
  let s' := s.spillInto c cls fmt k (SMap.get 0 s.census (censusKey d c cls fmt k)).toNat
  { s' with census := SMap.set 0 s'.census (censusKey d c cls fmt k) 0 }

/-- Spill the counters of one context and class of a die. -/
def State.spillPair (s : State) (d c cls : Nat) : State :=
  (List.range 32).foldl (fun s i => s.spillOne d c cls (i / 4) (i % 4)) s

/-- Spill every counter of a context on the dies that `f` names. -/
def State.spillOn (s : State) (c : Nat) (f : Nat → Bool) : State :=
  (s.census.map Prod.fst).foldl (fun s k =>
    if k / 512 % 4096 = c && f (k / 512 / 4096) then s.spillOne (k / 512 / 4096) c (k / 32 % 16) (k / 4 % 8) (k % 4) else s) s

/-- Spill every counter of a context (at a step close, a pre-emption, a CENSUS_FLUSH). -/
def State.spillAll (s : State) (c : Nat) : State := s.spillOn c fun _ => true

/-- Add a conversion count; when a counter passes 2^31 the die adds its counters of the context, or discards them where
it has no census area (R137). The count that passes it is added whole, however large. -/
def State.countOne (s : State) (d c cls fmt k n : Nat) : State :=
  if n = 0 then s else
  let x := (SMap.get 0 s.census (censusKey d c cls fmt k)).toNat + n
  let put (n : Nat) : State := { s with census := SMap.set 0 s.census (censusKey d c cls fmt k) (BitVec.ofNat 32 n) }
  if 2 ^ 31 < x then ((put 0).spillInto c cls fmt k x).spillOn c (· == d) else put x

def Tally4.add (t : Tally4) (v : Conv) : Tally4 :=
  ⟨t.total + 1, t.sat + v.sat.toNat, t.flush + v.flush.toNat, t.nan + v.nan.toNat⟩

def tallyOf (vs : List Conv) : Tally4 := vs.foldl Tally4.add {}

/-- Report conversions of a tensor on a die (R135); the class is the tensor ID's [31:28] (R136). -/
def State.count (s : State) (d c : Nat) (tid : W32) (fmt : Nat) (t : Tally4) : State :=
  let cls := tid.toNat / 2 ^ 28
  (((s.countOne d c cls fmt 0 t.total).countOne d c cls fmt 1 t.sat).countOne d c cls fmt 2 t.flush).countOne
    d c cls fmt 3 t.nan

def execCensusFlush (v : W32) (s : State) : Out :=
  if bit v.toNat 0 && s.canWrite pgNumerics then
    let c := s.sel.nuCtx.toNat
    .next (((s.spillAll c).meetAdds c).modNum c fun x => { x with flushBusy := true })
  else .next s

/-- The flush ends when no add of the context waits; one whose word is in error faults it (R271). -/
def execCensusFlushDone (c : CtxId) (s : State) : Out :=
  if !(s.nums c.toNat).flushBusy then .next s
  else if s.addsWait c.toNat then .next (s.meetAdds c.toNat)
  else .next (s.modNum c.toNat fun x => { x with flushBusy := false })

/-- The die reuses the counters of a context and class for another pair. -/
def execCensusCounterSpill (d : Die) (c : CtxId) (cls : BitVec 4) (s : State) : Out :=
  .next ((s.spillPair d.val c.toNat cls.toNat).meetAdds c.toNat)

/-! ### The numerics page (R140) -/

def execCensusBaseLoWrite (v : W32) (s : State) : Out :=
  if s.canWrite pgNumerics then
    .next (s.modNum s.sel.nuCtx.toNat fun x => { x with censusLo := some (v &&& 0xFFFFF000#32) })
  else .next s

/-- Is the 4 KiB area in HBM pages the context owns (R140)? -/
def State.ownsArea (s : State) (c a n : Nat) : Bool :=
  !s.malformed a && !s.malformed (a + n - 1) && (pagesOf a n).all fun g => bit (s.page g) 12 && s.page g % 4096 == c

def execCensusBaseHiWrite (v : W32) (s : State) : Out :=
  if s.canWrite pgNumerics then
    let c := s.sel.nuCtx
    let x := s.nums c.toNat
    let b := v.toNat * 2 ^ 32 + ((x.censusLo.map BitVec.toNat).getD (x.censusBase.toNat % 2 ^ 32))
    if b = 0 ∨ s.ownsArea c.toNat b 4096 then
      .next (s.modNum c.toNat fun x => { x with censusBase := BitVec.ofNat 64 b, censusLo := none })
    else .next ((s.modNum c.toNat fun x => { x with censusLo := none }).alarm pgNumerics 3 (some c))
  else .next s

def execLsStateWrite (v : W32) (s : State) : Out :=
  if !s.canWrite pgNumerics then .next s else
  let c := s.sel.nuCtx
  if s.isIn c.toNat then .next (s.alarm pgNumerics 0 (some c))
  else .next (s.modNum c.toNat fun x => { x with
    e := BitVec.ofNat 8 v.toNat, ePrev := BitVec.ofNat 8 (v.toNat / 256), clean := BitVec.ofNat 16 (v.toNat / 65536) })

def execLsStepWrite (v : W32) (s : State) : Out :=
  if !s.canWrite pgNumerics then .next s else
  let c := s.sel.nuCtx
  if s.isIn c.toNat then .next (s.alarm pgNumerics 0 (some c))
  else .next (s.modNum c.toNat fun x => { x with step := v })

/-! ### The loss scale (R133, R134) -/

/-- max(E − 1, E_MIN) and min(E + 1, E_MAX) as numbers: at the ends of the signed byte nothing wraps. -/
def Numerics.lower (x : Numerics) : Byte := if x.eMin.slt x.e then x.e - 1 else x.eMin
def Numerics.raise (x : Numerics) : Byte := if x.e.slt x.eMax then x.e + 1 else x.eMax

/-- LOSS_SCALE_OVERFLOW. -/
def Numerics.overflowed (x : Numerics) : Numerics :=
  { x with ePrev := x.e, e := x.lower, clean := 0, ovfCount := x.ovfCount + 1 }

/-- CLEAN_STEP. -/
def Numerics.cleanStep (x : Numerics) : Numerics :=
  let n := if x.clean = 0xFFFF then x.clean else x.clean + 1
  if x.interval ≠ 0 ∧ x.interval ≤ n then { x with ePrev := x.e, e := x.raise, clean := 0 }
  else { x with ePrev := x.e, clean := n }

/-- E(s) of R134: an exponent, a wait for a step to come, or LS_SKEW. -/
inductive Esel where
  | val (e : Byte)
  | wait
  | skew

def Numerics.eAt (x : Numerics) (s : W32) : Esel :=
  if s = x.step then .val x.e
  else if s = x.step - 1 then .val x.ePrev
  else if (s - x.step).toNat < 2 ^ 31 then .wait
  else .skew

/-! ### The step close (Table NU.7) -/

/-- The first SYNC command of a context with the given operation. -/
def State.syncHead (s : State) (c : CtxId) (op : Nat) : Option SyncCmd :=
  s.sched.sync.find? fun x => x.q.ctx = c && fld x.q.img 0x10 2 0 == op

def State.syncDrop (s : State) (q : QE) : State :=
  { s with sched := { s.sched with sync := s.sched.sync.filter fun x => x.q ≠ q } }
def State.syncWait (s : State) (q : QE) : State :=
  { s with sched := { s.sched with
    clock := s.sched.clock + 1
    sync := s.sched.sync.map fun x => if x.q = q then { x with waiting := true, age := s.sched.clock } else x } }

/-- The byte address of a step close's overflow word, if it names one. -/
def ovfWord (i : Image) : Option (ClId × Nat) :=
  if bit (fld i 0x20 31 0) 16 then some (cCluster i, fld i 0x20 15 0 * 128) else none

/-- STEP_CLOSE: LS_SKEW unless the step is LS_STEP; the overflow word must lie in the context's region of a cluster it
may name (R31, R133, R173). -/
def execStepClose (c : CtxId) (s : State) : Out :=
  let x := s.nums c.toNat
  match s.syncHead c 3 with
  | none => .next s
  | some k =>
    if x.close.isSome || !s.isIn c.toNat then .next s
    else if cStep k.q.img ≠ x.step then .next (s.faultCmd k.q 0x000E)
    else
      match (ovfWord k.q.img).bind fun w => s.locsFault c [(.clu w.1 w.2, 4, false)] with
      | some f => .next (s.faultAt k.q f)
      | none => .next ((s.syncWait k.q).modNum c.toNat fun x => { x with
        close := some { seq := k.q.seq, step := x.step, phase := .issued, word := false, ovf := false, epoch := false } })

/-- Is command number `a` before `b` (R177)? -/
def seqLt (a b : W32) : Bool := a != b && seqLe a b

/-- An UPDATE before the close, of its step or an earlier one, is not complete (Table NU.7). -/
def State.updatesPending (s : State) (c : Nat) (r : CloseRun) : Bool :=
  (s.ctx c).flight.any fun f => cClass f.img == 6 && f.phase ≠ .completed && seqLt f.seq r.seq && seqLe (cStep f.img) r.step

/-- Is an epoch of the context due that may begin (R264, R9)? -/
def State.epochDue (s : State) (c : Nat) : Bool :=
  s.unitOn 2 && (s.sgc c).due && (s.sgc c).epoch.isNone

/-- Overflow reports that count toward the close of step `n`: of bundles stamped `n` or earlier (R132). -/
def Numerics.reports (x : Numerics) (n : W32) : Bool := x.pendOvf.any (seqLe · n)

/-- LOCAL_QUIESCE: the local bit is formed and the job-wide OR begins; its bit 1 is the epoch-due bit. The overflow
word is read while the context is IN. -/
def execLocalQuiesce (c : CtxId) (s : State) : Out :=
  let x := s.nums c.toNat
  match x.close, s.syncHead c 3 with
  | some r, some k =>
    if r.phase ≠ .issued || s.updatesPending c.toNat r || s.bursar.hold
        || ((ovfWord k.q.img).isSome && !s.isIn c.toNat) then .next s else
    let word := match ovfWord k.q.img with
      | some (cl, a) => Mem.readN (s.clu cl.toNat).mem a 4 != 0
      | none => false
    let w : W32 := BitVec.ofNat 32 ((x.reports r.step || word).toNat + 2 * (s.epochDue c.toNat).toNat)
    let s := s.modNum c.toNat fun x => { x with
      pendOvf := x.pendOvf.filter (!seqLe · r.step), close := some { r with phase := .quiesced, word := word } }
    .next (s.ctlStart c false w)
  | _, _ => .next s

/-- JOB_AGREEMENT: the loss scale follows the OR, and the Census flush runs. -/
def execJobAgreement (c : CtxId) (s : State) : Out :=
  let x := s.nums c.toNat
  match x.close, (s.lkc c.toNat).red with
  | some r, some d =>
    if r.phase ≠ .quiesced || !d.done then .next s else
    let ovf := bit d.acc.toNat 0
    let stuck := ovf && !x.eMin.slt x.e
    let run := { r with phase := .agreed, ovf := ovf, epoch := bit d.acc.toNat 1 }
    let s := s.modLkc c.toNat fun q => { q with red := none }
    let s := s.modNum c.toNat fun x => { (if ovf then x.overflowed else x.cleanStep) with close := some run }
    let s := s.spillAll c.toNat
    .next (if stuck then s.alarm pgNumerics 1 (some c) else s)
  | _, _ => .next s

end Sys2Proof.Machine
end

