-- ==== Sys2Proof/Machine/Contexts.lean ====
section
/-! DEFINITION. Contexts: their definition, the driver's commands, doorbells, semaphore and page
ownership, faults and the scrub (R172 to R180, R182, R191, R193). -/

namespace Sys2Proof.Machine
open Sys2Proof

/-! ### The cluster table (R173, Table CS.1) -/

/-- The descriptor at HBM address `a`. -/
def descAt (m : Mem) (a : Nat) : CluDesc :=
  let place := Mem.readN m a 4
  let own := Mem.readN m (a + 4) 4
  let v := Mem.readN m (a + 8) 4
  { cl := BitVec.ofNat 11 place, tillBase := bits place 24 16, tillLog := bits place 28 25
    memBase := own % 65536, memSize := own / 65536
    vaultBase := bits v 6 0, vaultSize := bits v 13 8, vaultStacks := bits v 19 16, tellerPages := bits v 24 20
    save := Mem.readN m (a + 0x10) 8, image := Mem.readN m (a + 0x18) 8 }

/-- A reserved field of the descriptor at `a` is not zero. -/
def descResv (m : Mem) (a : Nat) : Bool :=
  Mem.readN m a 4 &&& 0xE000F800 != 0 || Mem.readN m (a + 8) 4 &&& 0xFE00C080 != 0
    || Mem.readN m (a + 0xC) 4 != 0 || Mem.readN m (a + 0x20) 32 != 0

/-- The rules of Table CS.1 for the fields (check 4 of R173). -/
def CluDesc.bad (d : CluDesc) : Bool :=
  decide (9 < d.tillLog) || d.tillBase % 2 ^ d.tillLog != 0 || decide (512 < d.tillBase + 2 ^ d.tillLog)
    || decide (49152 < d.memBase + d.memSize) || decide (32 < d.vaultSize)
    || !([1, 2, 4, 8].contains d.vaultStacks)
    || (d.vaultSize != 0 && !d.owns (d.vaultBase * 65536) (d.vaultSize * 65536))
    || decide (16 < d.tellerPages) || d.save % 4096 != 0 || d.image % 4096 != 0

def noRepeatCl : List CluDesc → Bool
  | [] => true
  | d :: t => !(t.any (·.cl = d.cl)) && noRepeatCl t

/-- Every one of the 150 clusters of every die named is named (check 3). -/
def wholeDies (t : List CluDesc) : Bool :=
  t.all fun d => (List.range 150).all fun i => t.any fun e => e.cl.toNat = d.cl.toNat / 256 * 256 + i

/-- A range no read of the Clearinghouse reaches: no memory, or the stack's device-reserved 2 MiB. -/
def State.unreadable (s : State) (a n : Nat) : Bool :=
  s.malformed a || s.malformed (a + n - 1) || a / 2 ^ 36 != (a + n - 1) / 2 ^ 36
    || decide (a % 2 ^ 36 < 2 ^ 21)

/-- The descriptors of the context's table. -/
def State.table (s : State) (c : Nat) : List CluDesc :=
  let x := s.ctx c
  (List.range x.cltabCount.toNat).map fun i => descAt s.hbm (x.cltabBase.toNat + 64 * i)

/-- START_ERR: the first failed check of R173, 0 when all pass. An address of the table with an uncorrectable error
that nothing has written since makes the table unreadable (log 28). -/
def State.startErr (s : State) (c : Nat) : BitVec 3 :=
  let x := s.ctx c
  let b := x.cltabBase.toNat
  let t := s.table c
  if s.unreadable b (64 * x.cltabCount.toNat) || s.sg.ueAt.any (fun a => decide (b ≤ a) && decide (a < b + 64 * x.cltabCount.toNat)) then 1
  else if !(t.all fun d => decide (d.cl.toNat % 256 < 150) && s.diePowered (d.cl.toNat / 256)) || !noRepeatCl t then 2
  else if x.exclusive && !wholeDies t then 3
  else if t.any CluDesc.bad || (List.range x.cltabCount.toNat).any (fun i => descResv s.hbm (b + 64 * i)) then 4
  else 0

/-! ### Commands of the driver (Table CS.3) -/

/-- An accepted CTX_CMD clears CMD_REJECT and START_ERR. -/
def Ctx.accepted (x : Ctx) (t : CtxSt) : Ctx := { x with st := t, cmdReject := false, startErr := 0 }
def State.reject (s : State) (c : Nat) : State := s.modCtx c fun x => { x with cmdReject := true }

/-- CREATE: counters 0, the numerics registers and CTXSTAT at their reset values (R131, R176, R291). -/
def Ctx.created (x : Ctx) : Ctx :=
  { x with
    st := .stopped, cmdReject := false, startErr := 0
    tail := 0, acceptSeq := 0, dispatchSeq := 0, completeSeq := 0, cplWritten := 0, cplHead := 0
    recs := [], flight := [], vaultSpills := 0, preempts := 0, forcedSaves := 0, faults := 0 }

/-- The census counters of a context are none of a later context of the same ID (R131). -/
def dropCensus (m : SMap W32) (c : Nat) : SMap W32 := SMap.drop 0 (fun k => decide (k / 512 % 4096 = c)) m

def execCtxCreate (s : State) : Out :=
  let c := s.sel.csCtx.toNat
  if !s.canWrite pgClear then .next s
  else if (s.ctx c).st = .unused then
    .next (({ s with census := dropCensus s.census c, num := SMap.set {} s.num c {} }.dropAdds c).modCtx c Ctx.created)
  else .next (s.reject c)

/-- START: the table is read and checked (R173); the checked copy stays in force until the next START. -/
def execCtxStart (s : State) : Out :=
  let c := s.sel.csCtx
  if !s.canWrite pgClear then .next s
  else if (s.ctx c.toNat).st ≠ .stopped then .next (s.reject c.toNat)
  else
    let e := s.startErr c.toNat
    if e = 0 then
      let t := s.table c.toNat
      .next ({ s with sched := { s.sched with clock := s.sched.clock + 1 } }.modCtx c.toNat fun x =>
        { x.accepted .out with cltab := t, outNo := s.sched.clock })
    else
      .next ((s.modCtx c.toNat fun x => { x with cmdReject := true, startErr := e }).alarm pgClear 0 (some c))

/-- STOP: an IN context is saved as by pre-emption, then STOPPED. -/
def execCtxStop (s : State) : Out :=
  let c := s.sel.csCtx.toNat
  if !s.canWrite pgClear then .next s
  else if (s.ctx c).st = .out then .next (s.modCtx c fun x => x.accepted .stopped)
  else if (s.ctx c).st = .resident then
    .next (s.modCtx c fun x => { x.accepted .resident with preemptReq := true, stopReq := true })
  else .next (s.reject c)

/-- RESET: the partitions of the context take deposits again (R191). -/
def execCtxReset (s : State) : Out :=
  let c := s.sel.csCtx.toNat
  if !s.canWrite pgClear then .next s
  else if (s.ctx c).st = .faulted ∨ (s.ctx c).st = .stopped then
    .next ({ s with td := SMap.mapV {} (fun _ t => { t with
        part := SMap.mapV {} (fun k p => if k = c then { p with refusing := false } else p) t.part }) s.td }.modCtx c
      fun x => x.accepted .stopped)
  else .next (s.reject c)

/-- Fault every waiting WAIT_GE on a semaphore that has become invalid (R182). -/
def State.semLost (s : State) : State :=
  (s.sched.sync.filter fun x => x.waiting && fld x.q.img 0x10 2 0 == 1
      && !(s.sem (fld x.q.img 0x14 13 0)).valid).foldl (fun s x => s.faultCmd x.q 0x000F) s

/-- What a context still has in flight goes with it, its tokens freed; its partitions keep their flag. -/
def State.dropWork (s : State) (c : CtxId) : State :=
  let t := s.stopCtx c
  { t with
    td := SMap.mapV {} (fun d x => { x with
      part := SMap.mapV {} (fun k p => if k = c.toNat then { p with refusing := (s.prt d k).refusing } else p) x.part }) t.td
    port := SMap.mapV {} (fun _ x => { x with jobBits := x.jobBits.filter (· ≠ c) }) t.port }

/-- DESTROY: definitions at their reset values. -/
def Ctx.destroyed (x : Ctx) : Ctx :=
  { vaultSpills := x.vaultSpills, preempts := x.preempts, forcedSaves := x.forcedSaves, faults := x.faults }

/-- The Ledger's part of DESTROY (R212); a context made anew begins with variant 0 and no OPEN (log 79). -/
def State.ledgerDestroy (s : State) (c : Nat) : State :=
  let x := s.lgc c
  { s with
    lgE := SMap.clear {} x.entFirst (x.entFirst + x.entCount) s.lgE
    lgA := SMap.clear {} x.adpFirst (x.adpFirst + x.adpCount) s.lgA
    lgC := SMap.upd {} s.lgC c fun x => { x with valid := false, free := [], variant := 0, opens := 0, manifests := [] } }

def execCtxDestroy (s : State) : Out :=
  let c := s.sel.csCtx
  if !s.canWrite pgClear then .next s
  else if (s.ctx c.toNat).st = .faulted ∨ (s.ctx c.toNat).st = .stopped then
    let s := { s with sems := SMap.mapV {} (fun _ m => if m.owner = c then { m with valid := false } else m) s.sems }
    .next ((((s.dropWork c).modCtx c.toNat Ctx.destroyed).ledgerDestroy c.toNat).semLost)
  else .next (s.reject c.toNat)

/-! ### Definition registers (R172, Table CS.11) -/

def lo64 (x : W64) (v : Nat) (mask : Nat) : W64 := BitVec.ofNat 64 (x.toNat / 2 ^ 32 * 2 ^ 32 + (v &&& mask))
def hi64 (x : W64) (v : Nat) : W64 := BitVec.ofNat 64 (x.toNat % 2 ^ 32 + v * 2 ^ 32)

/-- A definition register written with `w`; none for a value outside its range. -/
def Ctx.define (x : Ctx) (off w : Nat) : Option Ctx :=
  if off = 0x04C then
    some { x with priority := BitVec.ofNat 4 w, legacy := bit w 4, exclusive := bit w 5, job := BitVec.ofNat 16 (w / 65536) }
  else if off = 0x050 then some { x with ringBase := lo64 x.ringBase w 0xFFFFF000 }
  else if off = 0x054 then some { x with ringBase := hi64 x.ringBase w }
  else if off = 0x058 then
    let n := bits w 4 0
    let m := bits w 12 8
    if 6 ≤ n ∧ n ≤ 16 ∧ 6 ≤ m ∧ m ≤ 16 then some { x with ringN := BitVec.ofNat 5 n, ringM := BitVec.ofNat 5 m } else none
  else if off = 0x05C then some { x with cplBase := lo64 x.cplBase w 0xFFFFF000 }
  else if off = 0x060 then some { x with cplBase := hi64 x.cplBase w }
  else if off = 0x064 then some { x with cltabBase := lo64 x.cltabBase w 0xFFFFFFC0 }
  else if off = 0x068 then some { x with cltabBase := hi64 x.cltabBase w }
  else if off = 0x06C then
    let n := bits w 10 0
    if 1 ≤ n ∧ n ≤ 1200 then some { x with cltabCount := BitVec.ofNat 11 n } else none
  else if off = 0x070 then some { x with saveBase := lo64 x.saveBase w 0xFFFFF000 }
  else if off = 0x074 then some { x with saveBase := hi64 x.saveBase w }
  else some x

def isDefinition (off : Nat) : Bool := decide (0x04C ≤ off) && decide (off ≤ 0x074) && off % 4 == 0

def execCtxDefinitionWrite (off : BitVec 12) (v : W32) (s : State) : Out :=
  let c := s.sel.csCtx
  let x := s.ctx c.toNat
  if !s.canWrite pgClear || !isDefinition off.toNat then .next s
  else if x.st = .unused ∨ x.st = .stopped then
    match x.define off.toNat v.toNat with
    | some y => .next (s.modCtx c.toNat fun _ => y)
    | none => .next (s.alarm pgClear 0 (some c))
  else .next (s.alarm pgClear 0 (some c))

/-! ### Doorbells (R178, R179) -/

/-- A tail the device takes: not before ACCEPT_SEQ and at most a ring ahead. -/
def Ctx.tailOk (x : Ctx) (v : W32) : Bool :=
  decide (x.st ≠ .unused) && decide ((v - x.acceptSeq).toNat ≤ 2 ^ x.ringN.toNat)
/-- A head the device takes: from the present one to the last record written. -/
def Ctx.headOk (x : Ctx) (v : W32) : Bool :=
  decide (x.st ≠ .unused) && decide ((v - x.cplHead).toNat ≤ (x.cplWritten - x.cplHead).toNat)

def execDbTailWrite (c : CtxId) (v : W32) (s : State) : Out :=
  if !s.canWrite (pgDoor c.toNat) then .next s
  else if (s.ctx c.toNat).tailOk v then .next (s.modCtx c.toNat fun x => { x with tail := v })
  else .next (s.alarm (pgDoor c.toNat) 0 (some c))

def execCplHeadWrite (c : CtxId) (v : W32) (s : State) : Out :=
  if !s.canWrite (pgDoor c.toNat) then .next s
  else if (s.ctx c.toNat).headOk v then .next (s.modCtx c.toNat fun x => { x with cplHead := v })
  else .next (s.alarm (pgDoor c.toNat) 0 (some c))

/-! ### Semaphore owners and page ownership (R182, R193) -/

def execSemOwnerWrite (v : W32) (s : State) : Out :=
  if !s.canWrite pgClear then .next s
  else
    .next ((s.modSem s.sel.sem.toNat fun x =>
      { x with owner := BitVec.ofNat 12 v.toNat, valid := bit v.toNat 12 }).semLost)

/-- A page whose entry the driver may set (R193); pages are numbered over all stacks, 2^20 to a stack. -/
def State.settable (s : State) (p : Nat) : Bool :=
  decide (32 ≤ p % 2 ^ 20) && decide (p / 2 ^ 20 < 24) && decide (p % 2 ^ 20 * 65536 < 36000000000)
    && s.diePowered (p / 2 ^ 20 / 3)

/-- Would the entry change the OWNER of a page that a resident context holds? -/
def State.ownerHeld (s : State) (p v : Nat) : Bool :=
  bit (s.page p) 12 && v % 4096 != s.page p % 4096 && s.isIn (s.page p % 4096)

/-- A page for a new owner is zeroed: at once, or, while an epoch protects it, when that ends; the owner's accesses
wait (R266, R275). -/
def State.zeroPage (s : State) (p : Nat) : State :=
  if s.protectedPage p then
    (if s.sg.scrub.contains p then s else { s with sg := { s.sg with scrub := s.sg.scrub ++ [p] } })
  else s.hbmClear (p * 65536) 65536

/-- A staging page that holds a page of an epoch leaves its context: the epoch is abandoned, and due again (R275, log
96). -/
def State.dropStaged (s : State) (p : Nat) : State :=
  (s.sgC.filter fun e => e.2.epoch.any fun x => x.staged.any fun t => e.2.stageBase.toNat / 65536 + t.2 = p).foldl
    (fun s e => (s.abandonEpoch e.1).modSgc e.1 fun x => { x with due := true }) s

/-- POT_DATA: the entry is set; a page given a different OWNER is written to zero, whether the entry is VALID now or
later (R275, log 96). -/
def execPotDataWrite (v : W32) (s : State) : Out :=
  if !s.canWrite pgClear then .next s else
  let p := s.sel.pot.toNat
  if !s.settable p || s.ownerHeld p v.toNat then .next (s.alarm pgClear 3 (some s.sel.csCtx))
  else
    let s' := { s with pot := SMap.set 0 s.pot p (BitVec.ofNat 16 (v.toNat % 2 ^ 15)) }
    .next (if v.toNat % 4096 = s.page p % 4096 then s' else (s'.zeroPage p).dropStaged p)

/-! ### Faults and the scrub (R191) -/

/-- A fault raised by a unit. -/
def execContextFault (c : CtxId) (code : U16) (detail : W64) (cmd : W32) (unit : U16) (s : State) : Out :=
  .next (faultCtx s c code detail cmd unit)

/-- The partition's contents as PART_APPLY leaves them; the operations in force and the shadows go too. -/
def Part.cleared (p : Part) : Part :=
  { p with
    c64 := 0, deposit := 0, withdrawn := [], slots := [], pairs := []
    teacher := [], student := [], grad := [], feat := [], shadow := [] }

/-- The scrub of one cluster: Till window, owned region, Teller pages, the context's own state there. -/
def Cluster.scrub (x : Cluster) (c : Nat) (d : CluDesc) : Cluster :=
  { x with
    till := SMap.clear {} d.tillBase (d.tillBase + 2 ^ d.tillLog) x.till
    mem := SMap.clear 0 (d.memBase * 128) ((d.memBase + d.memSize) * 128) x.mem
    imem := (x.pc c).tpages.foldl (fun m g => SMap.clear 0 (512 * g) (512 * g + 512) m) x.imem
    per := SMap.set {} x.per c {} }

/-- The scrub of the clusters of a context. -/
def State.scrubClu (s : State) (c : Nat) : State :=
  { s with cls := (s.ctx c).cltab.foldl (fun m d => SMap.upd {} m d.cl.toNat fun x => x.scrub c d) s.cls }

/-- The scrub of token tables and partitions. -/
def State.scrubTouch (s : State) (c : CtxId) : State :=
  { s with td := SMap.mapV {} (fun _ t => { t with
      tok := t.tok.filter fun e => e.ctx ≠ c
      part := SMap.mapV {} (fun k p => if k = c.toNat then p.cleared else p) t.part }) s.td }

/-- SCRUB_DONE: steps 5 to 7 of R191; an OUT context holds no Till window or region on chip. What a self-test moved
out of a cluster comes back before it is scrubbed (R272, log 53). -/
def execScrubDone (c : CtxId) (s : State) : Out :=
  let x := s.ctx c.toNat
  if x.st ≠ .scrubbing ∨ (!x.faultOut && x.cltab.any fun d => s.cluShut d.cl.toNat) then .next s else
  let s := if x.faultOut then s else s.scrubClu c.toNat
  let s := s.scrubTouch c
  let put (x : Ctx) : Ctx := match x.faultRec with
    | some r => x.record { r with time := s.devTime }
    | none => x
  .next (s.modCtx c.toNat fun x => { put x with
    st := .faulted, faultRec := none, faultOut := false
    savedTok := [], savedTx := [], dispatchSeq := x.acceptSeq, completeSeq := x.acceptSeq })

end Sys2Proof.Machine
end

