-- ==== Sys2Proof/Machine/Blocks.lean ====
section
/-! DEFINITION. Stored elements: packing (R119), MX blocks (R120, R129), and the Vault's records (R146 to R149). -/

namespace Sys2Proof.Machine
open Sys2Proof

/-! ### Packed elements -/

/-- Bytes of `n` elements of a format. -/
def elemBytes (fmt n : Nat) : Nat := (n * elemBits fmt + 7) / 8
/-- Bytes of a tensor of `n` elements with its scale bytes. -/
def tensorBytes (fmt n : Nat) : Nat := elemBytes fmt n + (if fmt = 4 then (n + 31) / 32 else 0)

/-- The code of element `i` of an array at `a`. -/
def codeAt (m : Mem) (fmt a i : Nat) : Nat :=
  if elemBits fmt = 4 then (Mem.read m (a + i / 2)).toNat / 16 ^ (i % 2) % 16
  else Mem.readN m (a + elemBytes fmt i) (elemBits fmt / 8)

/-- The block scale of element `i` of an array of `n` elements at `a`, whose scale bytes follow the
elements (log 62); 127 for the other formats. -/
def scaleAt (m : Mem) (fmt a n i : Nat) : Nat :=
  if fmt = 4 then (Mem.read m (a + elemBytes fmt n + i / 32)).toNat else 127

/-- Codes as bytes: two 4-bit codes to a byte, the even one low. -/
def packCodes (fmt : Nat) : List Nat → List Byte
  | [] => []
  | c :: t =>
    if elemBits fmt = 4 then
      match t with
      | [] => [BitVec.ofNat 8 c]
      | d :: t' => BitVec.ofNat 8 (c % 16 + 16 * d) :: packCodes fmt t'
    else leBytes (elemBits fmt / 8) c ++ packCodes fmt t

/-- A row's length as stored: the blocked extent of an FP4 tensor is padded to whole blocks (R120). -/
def rowLen (fmt w : Nat) : Nat := if fmt = 4 then (w + 31) / 32 * 32 else w

/-! ### MX blocks (R129) -/

/-- An encoded block: its scale byte, its elements, whether X was clamped at −127. -/
structure MxBlock where
  scale : Nat
  elems : List Conv
  clamped : Bool

/-- An element of a block that takes scale 0xFF: written 0, so a finite non-zero one is a flush (R123, log 63). -/
def badElem (v : W32) : Conv where
  code := 0
  flush := isFinite v && v.toNat % 2 ^ 31 != 0
  nan := !isFinite v

/-- Encode a block; the element `i` rounds by `rnd i`. -/
def mxEncode (rnd : Nat → Rnd) (xs : List W32) : MxBlock :=
  if xs.all isFinite then
    let (x, cl) := scaleExp (amaxOf xs) 2
    { scale := (x + 127).toNat, elems := xs.zipIdx.map fun v => convert 4 (rnd v.2) v.1 x, clamped := cl }
  else { scale := 0xFF, elems := xs.map badElem, clamped := false }

/-- What a block's elements report (R135). -/
def MxBlock.elemTally (b : MxBlock) : Tally4 := tallyOf b.elems
/-- What its scale reports (format index 7). -/
def MxBlock.scaleTally (b : MxBlock) : Tally4 := ⟨1, 0, b.clamped.toNat, (b.scale == 0xFF).toNat⟩

def Tally4.plus (a b : Tally4) : Tally4 := ⟨a.total + b.total, a.sat + b.sat, a.flush + b.flush, a.nan + b.nan⟩
def tallySum (l : List Tally4) : Tally4 := l.foldl Tally4.plus {}

/-! ### The Vault (R146 to R148) -/

/-- Data bytes of one stack. -/
def CluDesc.vaultArea (d : CluDesc) : Nat := (d.vaultSize * 65536 - 8192) / d.vaultStacks
def CluDesc.vaultData (d : CluDesc) (i : Nat) : Nat := d.vaultBase * 65536 + i * d.vaultArea
/-- Byte address of trailer `j` of stack `i`. -/
def CluDesc.trailer (d : CluDesc) (i j : Nat) : Nat :=
  (d.vaultBase + d.vaultSize) * 65536 - 8192 + (i * (256 / d.vaultStacks) + j) * 32

/-- A trailer's bytes (Table BK.6). -/
def trailerBytes (tag : W32) (len : Nat) (fallback : Nat) : List Byte :=
  leBytes 4 tag.toNat ++ leBytes 4 len ++ [if fallback = 0 then 0 else 1] ++ List.replicate 7 0
    ++ leBytes 8 fallback ++ List.replicate 8 0

/-- The decision of a push at dispatch (R148): a fault with the address that causes it, a place in the Vault, or the
fallback. -/
inductive PushTo where
  | fault (code : U16) (addr : Nat)
  | vault (a : Nat)
  | hbm
deriving DecidableEq, Repr

/-- A stack the descriptor does not have holds no trailer. -/
def State.pushTo (s : State) (c : CtxId) (cl : ClId) (i len fallback : Nat) : PushTo :=
  match (s.ctx c.toNat).desc cl with
  | none => .fault 0x0004 0
  | some d =>
    let st := SMap.get {} ((s.clu cl.toNat).pc c.toNat).vault i
    if d.vaultSize = 0 ∨ d.vaultStacks ≤ i ∨ 256 / d.vaultStacks ≤ st.recs then .fault 0x000C 0
    else if st.top + len ≤ d.vaultArea then .vault (d.vaultData i + st.top)
    else if fallback = 0 then .fault 0x000C 0
    else match s.hbmCheck c.toNat fallback len true false with
      | some f => .fault f fallback
      | none => .hbm

/-- Take the trailer, and the data bytes of a record in the Vault. -/
def State.pushRecord (s : State) (c : CtxId) (cl : ClId) (i : Nat) (tag : W32) (len fallback : Nat) (w : PushTo) : State :=
  match (s.ctx c.toNat).desc cl with
  | none => s
  | some d =>
    let st := SMap.get {} ((s.clu cl.toNat).pc c.toNat).vault i
    let inV := w ≠ .hbm
    let s := s.modCl cl.toNat fun x =>
      { (x.modPc c.toNat fun y => { y with
          vault := SMap.set {} y.vault i { top := st.top + (if inV then len else 0), recs := st.recs + 1 } }) with
        mem := Mem.writeBytes x.mem (d.trailer i st.recs) (trailerBytes tag len (if inV then 0 else fallback)) }
    if inV then s
    else s.modCtx c.toNat fun x => { x with vaultSpills := satInc x.vaultSpills }

/-- Does a command push or pop a stack of the Vault of its cluster? -/
def vaultStackOf (i : Image) : Option Nat :=
  if cClass i = 1 then
    if fld i 0x20 14 13 = 3 ∧ (fld i 0x14 16 14 = 1 ∨ fld i 0x14 16 14 = 2) then some (fld i 0x20 25 23) else none
  else if cClass i = 4 then
    if fld i 0x10 3 0 = 4 ∨ fld i 0x10 3 0 = 5 then some (fld i 0x10 16 14) else none
  else none

/-- An earlier push or pop of the same stack is not complete: the command waits (R147). -/
def State.vaultBusy (s : State) (q : QE) : Bool :=
  match vaultStackOf q.img with
  | none => false
  | some i =>
    let same (m : Image) : Bool := vaultStackOf m == some i && cCluster m == cCluster q.img
    let before (m : QE) : Bool := m.issued && m.ctx == q.ctx && same m.img
      && (if m.seq = q.seq then q.issued && decide (m.acc < q.acc) else seqLt m.seq q.seq)
    let x := s.clu (cCluster q.img).toNat
    (s.ctx q.ctx.toNat).flight.any (fun f => seqLt f.seq q.seq && f.phase ≠ .completed && same f.img)
      || x.mq.any (fun m => before m.q) || x.dq.any before

end Sys2Proof.Machine
end

