-- ==== Sys2Proof/Machine/Soft.lean ====
section
/-! DEFINITION. Touchstone's arithmetic (R100 to R104, R108 to R113). Every operation rounds once to FP32. -/

namespace Sys2Proof.Machine
open Sys2Proof

/-! ### Segment sums (R100) -/

/-- One level of the tree: lanes 2i and 2i + 1 are added. -/
def pairUp : List W32 → List W32
  | a :: b :: t => fadd a b :: pairUp t
  | l => l

/-- The sum of elements 0 to 255: lane i adds elements i and i + 128, then seven levels in pairs. -/
def treeSum (f : Nat → W32) : W32 :=
  let l := (List.range 128).map fun i => fadd (f i) (f (i + 128))
  (pairUp (pairUp (pairUp (pairUp (pairUp (pairUp (pairUp l))))))).headD 0

def segFinite (f : Nat → W32) : Bool := (List.range 256).all fun i => isFinite (f i)

/-- The largest element of a segment; the quiet NaN when one is not finite. -/
def segMax (f : Nat → W32) : W32 :=
  if segFinite f then (List.range 255).foldl (fun m i => fmax m (f (i + 1))) (f 0) else qnan

/-- The segment's largest |s| (R110). -/
def segAbs (f : Nat → W32) : W32 := segMax fun i => fabs (f i)

/-! ### The teacher pass (R101, R110) -/

/-- The marker of a segment not yet deposited (Table TS.3). -/
def unfilled : W32 := 0xFFFFFFFF#32

/-- BASE, SIGMA and the 256 data elements of a segment of teacher values. A poisoned FULL segment's offsets
are values the manual does not state: free values from draw `fr` on. -/
def teacherSeg (mode : Nat) (it : W32) (fr : Nat) (z : Nat → W32) : W32 × W32 × SMap U16 :=
  if mode = 3 then
    let t (i : Nat) : Nat := (convert 0 .rne (z i) 0).code
    let v (i : Nat) : W32 := expand32 0 (t i) 127
    (if segFinite z then 0 else qnan, treeSum fun i => fmul (v i) (v i), SMap.ofFn 0 256 fun i => BitVec.ofNat 16 (t i))
  else if !segFinite z then (qnan, 0, SMap.ofFn 0 256 fun i => (Config.freeWord (fr + i)).setWidth 16)
  else
    let b := segMax z
    let o (i : Nat) : U16 := fp16rne (fsub (z i) b)
    (b, treeSum fun i => exE (fmul (ofFp16 (o i)) it), SMap.ofFn 0 256 o)

/-- What the teacher pass converts, for the Census. -/
def teacherConv (mode : Nat) (z : Nat → W32) : List Conv :=
  if mode = 3 then (List.range 256).map fun i => convert 0 .rne (z i) 0
  else if segFinite z then (List.range 256).map fun i => convert 1 .rne (fsub (z i) (segMax z)) 0
  else []

/-! ### Finalisation (R102) -/

/-- M and S of a token from its segments' (BASE, SIGMA), in ascending order. -/
def finalMS (it : W32) (bs : List (W32 × W32)) : W32 × W32 :=
  let m := (bs.drop 1).foldl (fun m b => fmax m b.1) ((bs.headD (0, 0)).1)
  (m, bs.foldl (fun s b => fadd s (fmul b.2 (exE (fmul (fsub b.1 m) it)))) 0)

/-- The data element `j` of segment `k` of a slot. -/
def Slot.elem (x : Slot) (k j : Nat) : U16 := SMap.get 0 x.data (256 * k + j)
def Slot.baseAt (x : Slot) (k : Nat) : W32 := SMap.get unfilled x.base k

/-- p_j of R102. -/
def Slot.prob (x : Slot) (it : W32) (k j : Nat) : W32 :=
  fmul (exE (fmul (fadd (fsub (x.baseAt k) x.m) (ofFp16 (x.elem k j))) it)) (frcp x.s)

/-- p_i of a TOPK slot (R108). -/
def topkProb (o : U16) (it s : W32) : W32 := fmul (exE (fmul (ofFp16 o) it)) (frcp s)

/-! ### Pass S (R103, R109, R110) -/

/-- A segment's statistics: (c, s, s1, d); in FEATURE (largest |s|, Σ s·t, Σ s·s, Σ (s − t)²). -/
def passSeg (mode : Nat) (x : Slot) (it : W32) (k : Nat) (y : Nat → W32) : SegStat :=
  if mode = 3 then
    let t (j : Nat) : W32 := ofBf16 (x.elem k j)
    { c := segAbs y, s := treeSum fun j => fmul (y j) (t j), s1 := treeSum fun j => fmul (y j) (y j)
      d := treeSum fun j => fmul (fsub (y j) (t j)) (fsub (y j) (t j)) }
  else
    let c := segMax y
    { c := c, s := treeSum fun j => exE (fmul (fsub (y j) c) it), s1 := treeSum fun j => exE (fsub (y j) c)
      d := if mode = 2 then 0 else treeSum fun j =>
        fmul (x.prob it k j) (fmul (fsub (fadd (x.baseAt k) (ofFp16 (x.elem k j))) (y j)) it) }

/-- The merge loop of R103: (m, s, s1, dsum). -/
def mergeStep (it : W32) (a : W32 × W32 × W32 × W32) (g : SegStat) : W32 × W32 × W32 × W32 :=
  let (m, s, s1, d) := a
  let mn := fmax m g.c
  (mn, fadd (fmul s (exE (fmul (fsub m mn) it))) (fmul g.s (exE (fmul (fsub g.c mn) it))),
    fadd (fmul s1 (exE (fsub m mn))) (fmul g.s1 (exE (fsub g.c mn))), fadd d g.d)
def mergeAll (it : W32) (gs : List SegStat) : W32 × W32 × W32 × W32 :=
  gs.foldl (mergeStep it) (ninf, 0, 0, 0)

/-- q of an element under the merged statistics. -/
def qSoft (m s it y : W32) : W32 := fmul (exE (fmul (fsub y m) it)) (frcp s)
def qHard (m s1 y : W32) : W32 := fmul (exE (fsub y m)) (frcp s1)

/-- CE; 0 without a label. -/
def ceOf (m s1 ylab : W32) (label : W32) : W32 :=
  if label = 0xFFFFFFFF#32 then 0 else fsub (fadd m (lnE s1)) ylab

/-- KL of FULL mode. -/
def klFull (x : Slot) (it m s dsum : W32) : W32 :=
  fadd (fsub dsum (fadd (fmul x.m it) (lnE x.s))) (fadd (fmul m it) (lnE s))

/-- The selected offsets, as (p_i, q_i). -/
def topkPQ (x : Slot) (k : Nat) (it m s : W32) (ysel : Words) : List (W32 × W32) :=
  (List.range k).map fun i => (topkProb (x.elem 0 i) it x.s, qSoft m s it (Words.get ysel i))

/-- 1 − Σ of a list, in its order. -/
def oneLess (l : List W32) : W32 := fsub one32 (l.foldl fadd 0)

/-- KL of TOPK over K + 1 bins (R109), and Q_tail. -/
def klTopk (x : Slot) (k : Nat) (it m s : W32) (ysel : Words) : W32 × W32 :=
  let pq := topkPQ x k it m s ysel
  let qt := oneLess (pq.map Prod.snd)
  let a := pq.foldl (fun a p => fadd a (fmul p.1 (fsub (lnE p.1) (lnE p.2)))) 0
  let tail := if isZero x.pTail then 0 else fmul x.pTail (fsub (lnE x.pTail) (lnE qt))
  (fadd a tail, qt)

/-- loss = fma(w_soft, kl, w_hard·ce). -/
def lossOf (ws wh kl ce : W32) : W32 := fma ws kl (fmul wh ce)

/-- The sums of a FEATURE token: (A, N, Σ(s − t)²), in ascending segment order. -/
def featSums (gs : List SegStat) : W32 × W32 × W32 :=
  (gs.foldl (fun a g => fadd a g.s) 0, gs.foldl (fun a g => fadd a g.s1) 0, gs.foldl (fun a g => fadd a g.d) 0)

/-- The FEATURE loss (R110); `n` segments. -/
def featLoss (cos : Bool) (w a nn t2 e : W32) (n : Nat) : W32 :=
  if cos then
    if isZero nn || isZero t2 then w
    else fmul w (fsub one32 (fmul (fmul a (frsqrt nn)) (frsqrt t2)))
  else fmul (fmul w (frcp (f32OfInt (256 * n)))) e

/-! ### Pass B (R104, R109 to R113) -/

/-- The part of the gradient before G, for FULL and TOPK; `p` is the soft part of the element. -/
def softTerm (ws it q p : W32) : W32 := fmul (fmul ws it) (fsub q p)
def tailTerm (ws it q pt qt : W32) : W32 := fmul (fmul ws it) (fmul q (fsub one32 (fmul pt (frcp qt))))
def hardTerm (wh q1 : W32) (lab : Option Bool) : W32 :=
  match lab with
  | none => 0
  | some b => fmul wh (fsub q1 (if b then one32 else 0))

/-- The FEATURE gradient element before G. How the products of the COS gradient associate is the model's choice (log
105). -/
def featGrad (cos : Bool) (w sj tj a nn t2 : W32) (n : Nat) : W32 :=
  if cos then
    if isZero nn || isZero t2 then 0
    else
      let r := fmul (frsqrt nn) (frsqrt t2)
      let c := fmul (fmul a (frsqrt nn)) (frsqrt t2)
      fmul w (fsub (fmul c (fmul sj (frcp nn))) (fmul tj r))
  else fmul (fmul w (fmul 0x40000000#32 (frcp (f32OfInt (256 * n))))) (fsub sj tj)

/-! ### TOPK selection (R108) -/

/-- Does (index, value) a rank before b: larger values first, then lower indices? -/
def ranksBefore (a b : Nat × W32) : Bool := flt b.2 a.2 || (!flt a.2 b.2 && decide (a.1 < b.1))
def selInsert (x : Nat × W32) : List (Nat × W32) → List (Nat × W32)
  | [] => [x]
  | y :: t => if ranksBefore x y then x :: y :: t else y :: selInsert x t
/-- Keep the K largest. -/
def selAdd (k : Nat) (l : List (Nat × W32)) (seg : Nat) (z : Nat → W32) : List (Nat × W32) :=
  (List.range 256).foldl (fun l j => (selInsert (256 * seg + j, z j) l).take k) l

end Sys2Proof.Machine
end

