-- ==== Sys2Proof/Machine/Escrow.lean ====
section
/-! DEFINITION. Escrow partitions: geometry, the token window, deposits, withdrawal and credit (R94 to R99,
R116). -/

namespace Sys2Proof.Machine
open Sys2Proof

/-! ### Geometry (R94, R95, Table TS.2) -/

/-- Byte of a slot at which its 16-bit elements start. -/
def slotData (mode n : Nat) : Nat := if mode = 2 then 0x500 else (256 + 8 * n + 1023) / 1024 * 1024
/-- Granules of one slot. -/
def slotGran (mode n : Nat) : Nat := if mode = 2 then 1 else (slotData mode n + 512 * n + 2047) / 2048
def Geo.slots (g : Geo) : Nat := g.size / slotGran g.mode.toNat g.segs

/-- The token number T that t stands for (R95). -/
def Part.big (p : Part) (t : W32) : Int :=
  let d := (t - BitVec.ofNat 32 p.c64.toNat).toNat
  p.c64.toNat + (if d < 2 ^ 31 then (d : Int) else d - 2 ^ 32)

/-- Is T inside the live window [C64, C64 + SLOTS)? -/
def Part.inWindow (p : Part) (t : W32) : Bool :=
  decide ((p.c64.toNat : Int) ≤ p.big t) && decide (p.big t < p.c64.toNat + p.geo.slots)
/-- The window admits tokens t to t + r − 1 (R96). -/
def Part.admitsTok (p : Part) (t : W32) (r : Nat) : Bool :=
  decide (p.big t + r - 1 < p.c64.toNat + p.geo.slots)
/-- The slot index of a token inside the window. -/
def Part.slotIx (p : Part) (t : W32) : Nat := (p.big t).toNat % p.geo.slots
def Part.slot (p : Part) (t : W32) : Slot := SMap.get {} p.slots (p.slotIx t)
def Part.modSlot (p : Part) (t : W32) (f : Slot → Slot) : Part :=
  { p with slots := SMap.upd {} p.slots (p.slotIx t) f }

/-- The state of token t's slot: EMPTY unless the slot holds t. -/
def Part.tokSt (p : Part) (t : W32) : BitVec 2 :=
  if p.inWindow t && (p.slot t).token = t then (p.slot t).state else 0

/-! ### Deposits (R99, R102, R108, R111) -/

/-- What the addressed die decides about a deposit. -/
inductive Verdict where
  | take
  | refuse
  | fault (code : U16)
deriving DecidableEq, Repr

def Part.judge (p : Part) (d : Deposit) : Verdict :=
  if !p.valid || p.refusing then .refuse
  else if d.mode ≠ p.geo.mode then .refuse
  else if p.geo.segs ≤ d.seg then .refuse
  else if decide ((p.c64.toNat : Int) + p.geo.slots ≤ p.big d.token) then .refuse
  else if decide (p.big d.token < p.c64.toNat) then .fault 0x0203
  else
    let x := p.slot d.token
    if (if p.geo.mode = 2 then x.state != 0 else x.baseAt d.seg != unfilled) then .fault 0x0203
    else if x.state ≠ 0 ∧ x.invTau ≠ d.invTau then .fault 0x0208
    else .take

/-- The first deposit of a token writes the header (R99). -/
def Slot.opened (x : Slot) (d : Deposit) (dev : DevId) : Slot :=
  if x.state = 0 then { x with state := 1, token := d.token, srcDev := dev, srcDie := BitVec.ofNat 3 d.src.val, invTau := d.invTau } else x

/-- The segments' (BASE, SIGMA) of a slot, ascending. -/
def Slot.segs (x : Slot) (n : Nat) : List (W32 × W32) :=
  (List.range n).map fun k => (x.baseAt k, Words.get x.sigma k)

/-- Finalisation once FILLED reaches SEGMENTS (R102, R110, R111). -/
def Slot.finalised (x : Slot) (mode n : Nat) : Slot :=
  let bs := x.segs n
  if bs.any fun b => isNan b.1 then { x with poison := true, final := false, state := 2 }
  else if mode = 3 then { x with m := bs.foldl (fun a b => fadd a b.2) 0, final := true, state := 2 }
  else let r := finalMS x.invTau bs
    { x with m := r.1, s := r.2, final := true, state := 2 }

/-- A slot after a deposit: one segment, or the whole slot in TOPK, whose FILLED becomes SEGMENTS (DESIGN CHOICE, log
111). -/
def Slot.deposited (x : Slot) (g : Geo) (d : Deposit) (dev : DevId) : Slot :=
  let x := x.opened d dev
  match d.slot with
  | some y => { x with
      state := 2, filled := g.segs, poison := y.poison, final := y.final, m := y.m, s := y.s
      pTail := y.pTail, data := y.data, idx := y.idx }
  | none =>
    let x := { x with
      base := SMap.set unfilled x.base d.seg d.base
      sigma := Words.set x.sigma d.seg d.sigma
      data := SMap.splice 0 (256 * d.seg) 256 x.data d.data
      filled := x.filled + 1 }
    if x.filled = g.segs then x.finalised g.mode.toNat g.segs else x

/-- The partition after a deposit that is taken: DEPOSIT_SEQ moves past the token (R96). -/
def Part.placed (p : Part) (d : Deposit) (dev : DevId) : Part :=
  let t := (p.big d.token).toNat
  let p := p.modSlot d.token fun x => x.deposited p.geo d dev
  let poisoned := (p.slot d.token).poison
  { p with
    deposit := BitVec.ofNat 64 (max p.deposit.toNat (t + 1))
    withdrawn := p.withdrawn.filter (· ≠ t)
    poisonCount := if poisoned then p.poisonCount + 1 else p.poisonCount }

/-- Did the deposit poison its token? -/
def Part.poisons (p : Part) (d : Deposit) (dev : DevId) : Bool := ((p.placed d dev).slot d.token).poison

/-! ### Credit (R98) -/

/-- A credit return to a (device, context) pair. -/
def State.creditReturn (s : State) (die c : Nat) (pair : DevId × CtxId) : State :=
  let p := s.prt die c
  let k := s.mkPkt 3 1 pair.1 (BitVec.ofNat 12 c) pair.2 0
    (BitVec.ofNat 64 (p.c64.toNat % 2 ^ 32 + die * 2 ^ 32))
    (BitVec.ofNat 64 (p.geo.slots % 2 ^ 16 + p.geo.segs * 2 ^ 16 + p.geo.mode.toNat * 2 ^ 26 + p.geo.k * 2 ^ 28)) []
  s.send k 0

/-- Does the pair get a return: C has advanced by 16 since the last, or has reached DEPOSIT_SEQ? -/
def Part.owes (p : Part) (last : W32) : Bool :=
  let c := BitVec.ofNat 32 p.c64.toNat
  c != last && (decide (16 ≤ (c - last).toNat) || p.c64 == p.deposit)

/-- C as last returned, after the due returns. -/
def Part.paid (p : Part) : Part :=
  let f (q : DevId × CtxId × W32) : DevId × CtxId × W32 :=
    if p.owes q.2.2 then (q.1, q.2.1, BitVec.ofNat 32 p.c64.toNat) else q
  { p with pairs := p.pairs.map f }

/-- The pair's last return is the present C. -/
def Part.answered (p : Part) (dev : DevId) (c : CtxId) : Part :=
  let f (q : DevId × CtxId × W32) : DevId × CtxId × W32 :=
    if q.1 = dev ∧ q.2.1 = c then (q.1, q.2.1, BitVec.ofNat 32 p.c64.toNat) else q
  { p with pairs := p.pairs.map f }

/-- Send the returns that are due. -/
def State.creditReturns (s : State) (die c : Nat) : State :=
  let p := s.prt die c
  let due := p.pairs.filter fun q => p.owes q.2.2
  let s := due.foldl (fun s q => s.creditReturn die c (q.1, q.2.1)) s
  s.modPart die c Part.paid

/-- Add a pair to the list, with C as last returned. -/
def Part.listed (p : Part) (dev : DevId) (c : CtxId) : Part :=
  if p.pairs.any fun q => q.1 = dev ∧ q.2.1 = c then p
  else { p with pairs := p.pairs ++ [(dev, c, BitVec.ofNat 32 p.c64.toNat)] }

/-! ### Withdrawal (R96, Table TS.5) -/

/-- C advances over consecutive withdrawn tokens. -/
def advanceC : Nat → Nat → List Nat → Nat × List Nat
  | 0, c, l => (c, l)
  | f + 1, c, l => if l.contains c then advanceC f (c + 1) (l.filter (· ≠ c)) else (c, l)

/-- Token t is withdrawn: its slot is reset. The whole of it reads 0 afterwards, the header too, where Table TS.5 names
the segment table and STATE (DESIGN CHOICE, log 95). -/
def Part.withdraw (p : Part) (t : W32) : Part :=
  let n := (p.big t).toNat
  let l := if p.withdrawn.contains n then p.withdrawn else n :: p.withdrawn
  let r := advanceC (l.length + 1) p.c64.toNat l
  { p with slots := SMap.set {} p.slots (p.slotIx t) {}, c64 := BitVec.ofNat 64 r.1, withdrawn := r.2 }

/-- Withdraw a token, free its token-table entry and return credit. -/
def State.withdrawTok (s : State) (die : Nat) (c : CtxId) (t : W32) : State :=
  let n := BitVec.ofInt 64 ((s.prt die c.toNat).big t)
  let s := s.modPart die c.toNat fun p => p.withdraw t
  let s := s.modTd die fun x => { x with tok := x.tok.filter fun e => !(e.ctx == c && e.tok == n && !e.teacher) }
  s.creditReturns die c.toNat

/-! ### A deposit arrives (R99) -/

/-- A Touchstone fault of a context on a die (bit 2 of its page comes with the fault, R116). -/
def State.tsFault (s : State) (die : Nat) (c : CtxId) (code : U16) (cmd : W32 := 0) : State :=
  faultCtx s c code 0 cmd (BitVec.ofNat 16 die)

/-- A taken deposit is placed; poison is counted and may fault (R111, R112). -/
def State.place (s : State) (die : Nat) (d : Deposit) (dev : DevId) : State :=
  let c := d.ctx.toNat
  let poison := (s.prt die c).poisons d dev
  let s := s.modPart die c fun p => p.placed d dev
  if poison then
    let s := s.alarm (pgTouch die) 1 (some d.ctx)
    let p := s.prt die c
    if p.poisonLimit.toNat < p.poisonCount.toNat then s.tsFault die d.ctx 0x0206 else s
  else s

/-- A deposit of this device's own Touchstone `d.src`. -/
def State.depositLocal (s : State) (die : Nat) (d : Deposit) : State :=
  match (s.prt die d.ctx.toNat).judge d with
  | .take => s.place die d s.devId
  | .refuse => (s.alarm (pgTouch die) 3 (some d.ctx)).tsFault d.src.val d.ctx 0x0202
  | .fault code => (s.alarm (pgTouch die) 3 (some d.ctx)).tsFault die d.ctx code

/-! ### Deposits on a link (Table LK.3) -/

/-- The 256 bytes of a slot header (Table TS.3). SHAPE and the mode are the partition's, so an EMPTY slot shows them before
a token's first deposit (DESIGN CHOICE, log 95). -/
def slotHead (x : Slot) (g : Geo) : List Byte :=
  leBytes 4 x.token.toNat ++ leBytes 4 (x.srcDev.toNat + x.srcDie.toNat * 2 ^ 12 + g.mode.toNat * 2 ^ 16)
    ++ leBytes 4 x.invTau.toNat ++ leBytes 4 (g.segs + (if g.mode = 2 then g.k * 2 ^ 16 else 0))
    ++ leBytes 4 x.m.toNat ++ leBytes 4 x.s.toNat ++ leBytes 4 x.pTail.toNat
    ++ leBytes 4 (x.poison.toNat + 2 * x.final.toNat) ++ List.replicate 224 0

/-- A slot as the bytes of its granules (Tables TS.2, TS.3): the selected indices in TOPK, else the segment
table; then the 16-bit elements. -/
def slotBytes (x : Slot) (g : Geo) : List Byte :=
  let n := g.segs
  let mid := if g.mode = 2 then ((List.range 256).map fun i => leBytes 4 (Words.get x.idx i).toNat).flatten
    else ((List.range n).map fun k => leBytes 4 (x.baseAt k).toNat ++ leBytes 4 (Words.get x.sigma k).toNat).flatten
  let head := slotHead x g ++ mid
  let data := ((List.range (if g.mode = 2 then 256 else 256 * n)).map fun i => leBytes 2 (SMap.get 0 x.data i).toNat).flatten
  let body := head ++ List.replicate (slotData g.mode.toNat n - head.length) 0 ++ data
  body ++ List.replicate (2048 * slotGran g.mode.toNat n - body.length) 0

/-- A slot's status word (Table TS.4). -/
def Slot.word (x : Slot) : Nat :=
  x.state.toNat + 4 * x.filled + 2 ^ 12 * x.poison.toNat + 2 ^ 13 * x.nf.toNat + 2 ^ 16 * (x.token.toNat % 2 ^ 16)

/-- The partition and slot index in whose granules granule `g` lies (R95), with its place among them. -/
def TouchDie.slotOf (t : TouchDie) (g : Nat) : Option (Part × Nat × Nat) :=
  (t.part.find? fun p => p.2.valid && decide (p.2.geo.base ≤ g)
      && decide (g < p.2.geo.base + p.2.geo.slots * slotGran p.2.geo.mode.toNat p.2.geo.segs)).map fun p =>
    let n := slotGran p.2.geo.mode.toNat p.2.geo.segs
    (p.2, (g - p.2.geo.base) / n, (g - p.2.geo.base) % n)

/-- The Escrow bank's byte `a` (R94): the control area's status words, then the slot space. Bytes the spec
gives no contents read 0 (log 95). -/
def TouchDie.bank (t : TouchDie) (a : Nat) : Byte :=
  if a < 0x3FE00 then
    match t.slotOf (a / 4) with
    | some (p, i, 0) => BitVec.ofNat 8 ((SMap.get {} p.slots i).word / 256 ^ (a % 4))
    | _ => 0
  else if a < 0x40000 then 0
  else
    match t.slotOf ((a - 0x40000) / 2048) with
    | some (p, i, j) => (slotBytes (SMap.get {} p.slots i) p.geo).getD (2048 * j + (a - 0x40000) % 2048) 0
    | none => 0

/-- The slot those bytes carry. -/
def slotOfBytes (bs : List Byte) : Slot :=
  let w (o : Nat) : W32 := BitVec.ofNat 32 (leNat ((bs.drop o).take 4))
  { poison := bit (w 0x1C).toNat 0, final := bit (w 0x1C).toNat 1, m := w 0x10, s := w 0x14, pTail := w 0x18
    idx := Words.ofFn 256 fun i => w (0x100 + 4 * i)
    data := SMap.ofFn 0 256 fun i => BitVec.ofNat 16 (leNat ((bs.drop (0x500 + 2 * i)).take 2)) }

/-- A deposit's payload. The words of a TOPK slot that its own die writes, TOKEN, SOURCE and INV_TAU, are sent as 0
(DESIGN CHOICE, log 111). -/
def depositBytes (d : Deposit) (g : Geo) : List Byte :=
  match d.slot with
  | some x => slotBytes x g
  | none => leBytes 4 d.base.toNat ++ leBytes 4 d.sigma.toNat
      ++ ((List.range 256).map fun i => leBytes 2 (SMap.get 0 d.data i).toNat).flatten

/-- The deposit a packet carries. -/
def depositOf (k : Packet) : Deposit :=
  let t := k.target.toNat
  let w (o : Nat) : W32 := BitVec.ofNat 32 (leNat ((k.payload.drop o).take 4))
  let mode : BitVec 2 := BitVec.ofNat 2 (bits t 46 45)
  { src := ⟨bits k.aux.toNat 34 32 % 8, Nat.mod_lt _ (by decide)⟩
    dst := ⟨bits t 44 42 % 8, Nat.mod_lt _ (by decide)⟩
    ctx := k.dstCtx, token := BitVec.ofNat 32 t, seg := bits t 41 32, mode := mode
    invTau := BitVec.ofNat 32 k.aux.toNat
    base := if mode = 2 then unfilled else w 0, sigma := if mode = 2 then 0 else w 4
    data := if mode = 2 then [] else SMap.ofFn 0 256 fun i => BitVec.ofNat 16 (leNat ((k.payload.drop (8 + 2 * i)).take 2))
    slot := if mode = 2 then some (slotOfBytes k.payload) else none }

/-- The payload length Table LK.3 gives a deposit's mode. -/
def depositLen (mode : BitVec 2) : Nat := if mode = 2 then 2048 else 520

/-- A deposit that came over a link: the producer joins the list (R98), or gets a REFUSAL. -/
def State.depositLink (s : State) (k : Packet) : State :=
  let d := depositOf k
  let die := d.dst.val
  let deaf := (s.ctx k.dstCtx.toNat).st.deaf || !s.diePowered die || !s.unitOn 0
  match (if deaf then Verdict.refuse else (s.prt die d.ctx.toNat).judge d) with
  | .take =>
    let s := s.modPart die d.ctx.toNat fun p => p.listed k.src k.srcCtx
    s.place die d k.src
  | .refuse => (s.alarm (pgTouch die) 3 (some d.ctx)).refuse k 0x0202
  | .fault code => (s.alarm (pgTouch die) 3 (some d.ctx)).tsFault die d.ctx code

/-- ESCROW_DEPOSIT: from another die of the device, the oldest on its edge; or over a link (R16). -/
def execEscrowDeposit (src : DepositSrc) (s : State) : Out :=
  match src with
  | .edge a b =>
    match (s.tdie b.val).dep.find? fun d => d.src = a with
    | none => .next s
    | some d =>
      .next ((s.modTd b.val fun x => { x with dep := x.dep.erase d }).depositLocal b.val d)
  | .link p k =>
    s.receive p.val k 2 fun s => some (
      if k.payload.length ≠ depositLen (depositOf k).mode then .fault (.payload 2) else .next (s.depositLink k))

/-- CREDIT_REQUEST: answered at once, or refused with TS_PARTITION (R98). -/
def execCreditRequest (p : PortId) (pkt : Packet) (s : State) : Out :=
  s.receive p.val pkt 11 fun s =>
    let die := bits pkt.target.toNat 34 32
    let c := pkt.dstCtx.toNat
    let x := s.prt die c
    some (.next (
      if !x.valid || x.refusing || (s.ctx c).st.deaf || !s.diePowered die || !s.unitOn 0 then s.refuse pkt 0x0202
      else (s.modPart die c fun p => (p.listed pkt.src pkt.srcCtx).answered pkt.src pkt.srcCtx).creditReturn
        die c (pkt.src, pkt.srcCtx)))

/-- CREDIT_RETURN: the shadow of every producing die that asked, or named, the sender (R98). -/
def Part.returned (p : Part) (k : Packet) : Part :=
  let t := k.target.toNat
  let a := k.aux.toNat
  let f (h : Shadow) : Shadow :=
    if h.dev = k.src ∧ h.ctx = k.srcCtx ∧ h.die.toNat = bits t 34 32 then
      { h with
        c := some (BitVec.ofNat 32 t), slots := bits a 15 0, segs := bits a 25 16
        mode := BitVec.ofNat 2 (bits a 27 26), k := bits a 36 28, asked := false }
    else h
  { p with shadow := p.shadow.map f }

def execCreditReturn (p : PortId) (pkt : Packet) (s : State) : Out :=
  s.receive p.val pkt 3 fun s =>
    some (.next { s with td := SMap.mapV {} (fun _ t => { t with
      part := SMap.mapV {} (fun c q => if c = pkt.dstCtx.toNat then q.returned pkt else q) t.part }) s.td })

/-! ### PART_APPLY (R116) -/

/-- Another valid partition of the die overlaps the staged range. -/
def TouchDie.overlaps (t : TouchDie) (c : Nat) (g : Geo) : Bool :=
  t.part.any fun p => p.1 ≠ c && p.2.valid
    && decide (g.base < p.2.geo.base + p.2.geo.size) && decide (p.2.geo.base < g.base + g.size)

/-- Token-table entries allotted to the other partitions of the die. -/
def TouchDie.allotted (t : TouchDie) (c : Nat) : Nat :=
  (t.part.map fun p => if p.1 ≠ c ∧ p.2.valid then p.2.geo.opens else 0).sum

/-- Tokens not yet withdrawn: a slot of the partition in force is not EMPTY. -/
def Part.holds (p : Part) : Bool := p.valid && p.slots.any fun x => x.2.state ≠ 0

/-- The reasons R116 gives to reject a staged partition; PART_SIZE 0 removes the partition, and its other
fields are not looked at (log 60). -/
def TouchDie.badPart (t : TouchDie) (c : Nat) : Bool :=
  let p := SMap.get {} t.part c
  let g := p.stg
  p.holds || (g.size != 0 &&
    (g.mode == 0 || g.segs == 0 || decide (1023 < g.segs) || (g.mode == 3 && decide (128 < g.segs))
      || (g.mode == 2 && (g.k == 0 || decide (256 < g.k)))
      || !([0, 16, 32, 48, 64].contains g.opens) || decide (64 < t.allotted c + g.opens)
      || t.overlaps c g || decide (65408 < g.base + g.size) || decide (g.slots < 16)))

/-- PART_APPLY; rejected too where the profile leaves Touchstone disabled (R9). The partition takes effect here, while
APPLY_BUSY stands until PART_APPLY_DONE (DESIGN CHOICE, log 60). -/
def execPartApply (d : Die) (v : W32) (s : State) : Out :=
  if !(bit v.toNat 0) || !s.canWrite (pgTouch d.val) then .next s else
  let t := s.tdie d.val
  let c := t.sel
  if !s.unitOn 0 || t.badPart c.toNat then
    .next ((s.modPart d.val c.toNat fun p => { p with reject := true }).alarm (pgTouch d.val) 0 (some c))
  else
    .next (s.modPart d.val c.toNat fun p => { p with
      geo := p.stg, valid := p.stg.size != 0, reject := false, busy := true
      c64 := 0, deposit := 0, withdrawn := [], slots := [], pairs := [] })

/-- An accepted apply ends. -/
def execPartApplyDone (d : Die) (c : CtxId) (s : State) : Out :=
  if (s.prt d.val c.toNat).busy then .next (s.modPart d.val c.toNat fun p => { p with busy := false }) else .next s

end Sys2Proof.Machine
end

