-- ==== Sys2Proof/Machine/Matrix.lean ====
section
/-! DEFINITION. MATMUL: the Till, the tile loop, drains and the output fuse stage (R44 to R73, R138, R141). -/

namespace Sys2Proof.Machine
open Sys2Proof

/-- The fields of a MATMUL image (Table CS.6); byte addresses. -/
structure Mx where
  a : Nat
  b : Nat
  fa : Nat
  fb : Nat
  tr : Bool
  mtr : Bool
  loop : Bool
  init : Nat
  drain : Nat
  release : Bool
  ebase : Nat
  elog : Nat
  mt : Nat
  nt : Nat
  k : Nat
  ss : Nat
  bias : Bool
  act : Nat
  cvt : Nat
  rnd : Bool
  masksel : Nat
  amaxEn : Bool
  dest : Nat
  role : Nat
  rows : Nat
  stack : Nat
  w24 : W32
  w28 : Nat
  initA : Nat
  auxA : Nat
  maskA : Nat
  amaxA : Nat
  imm : W32
  eb : Nat

def Mx.of (i : Image) : Mx where
  a := fld i 0x10 15 0 * 128
  b := fld i 0x10 31 16 * 128
  fa := fld i 0x14 3 0
  fb := fld i 0x14 7 4
  tr := bit (fld i 0x14 31 0) 8
  mtr := bit (fld i 0x14 31 0) 9
  loop := bit (fld i 0x14 31 0) 10
  init := fld i 0x14 13 11
  drain := fld i 0x14 16 14
  release := bit (fld i 0x14 31 0) 17
  ebase := fld i 0x14 26 18
  elog := fld i 0x14 30 27
  mt := fld i 0x18 15 0
  nt := fld i 0x18 31 16
  k := fld i 0x1C 23 0
  ss := fld i 0x20 1 0
  bias := bit (fld i 0x20 31 0) 2
  act := fld i 0x20 5 3
  cvt := fld i 0x20 8 6
  rnd := bit (fld i 0x20 31 0) 9
  masksel := fld i 0x20 11 10
  amaxEn := bit (fld i 0x20 31 0) 12
  dest := fld i 0x20 14 13
  role := fld i 0x20 17 15
  rows := fld i 0x20 22 18
  stack := fld i 0x20 25 23
  w24 := w32 i 0x24
  w28 := fld i 0x28 31 0
  initA := fld i 0x2C 15 0 * 128
  auxA := fld i 0x2C 31 16 * 128
  maskA := fld i 0x30 15 0 * 128
  amaxA := fld i 0x30 31 16 * 128
  imm := w32 i 0x34
  eb := fld i 0x38 47 0

namespace Mx

def int (x : Mx) : Bool := decide (5 ≤ x.fa)
def cls (x : Mx) : BitVec 2 := if x.int then 2 else 1
def fuse (x : Mx) : Bool := x.drain == 1 || x.drain == 2
def full (x : Mx) : Bool := x.drain == 3 || x.drain == 4
/-- The drain mode releases its entry (Table MX.7). -/
def frees (x : Mx) : Bool := x.drain == 1 || x.drain == 3
def nent (x : Mx) : Nat := 2 ^ x.elog
def tiles (x : Mx) : Nat := x.mt * x.nt
def mm (x : Mx) : Nat := 16 * x.mt
def nn (x : Mx) : Nat := 16 * x.nt
/-- Code 5 drains in pairs of column tiles (R64). -/
def pair (x : Mx) : Bool := x.cvt == 5
def step (x : Mx) : Nat := if x.pair then 2 else 1
/-- The output format's code (Table MX.10); 8 is FP32. -/
def outFmt (x : Mx) : Nat := if x.cvt = 0 then 8 else x.cvt - 1
def dst (x : Mx) : Nat := x.w24.toNat % 65536 * 128

/-- Packing of a format (Table MX.1). -/
def pack (f : Nat) : Nat := if f ≤ 1 then 1 else if f = 4 ∨ f = 6 then 4 else 2
/-- K elements of one beat: 16p (R44, R45, R48, R141). -/
def kstep (x : Mx) : Nat := if x.tr || x.mtr then 16 else 16 * min (pack x.fa) (pack x.fb)

/-- Row and column tile of place `i` in the tile loop. -/
def tileRC (x : Mx) (i : Nat) : Nat × Nat :=
  let w := x.step
  let j := i / w
  if x.loop then (j % x.mt, w * (j / x.mt) + i % w)
  else (j / (x.nt / w), w * (j % (x.nt / w)) + i % w)

/-! ### Operands -/

/-- Elements of the stored stationary and moving tensors. -/
def aCount (x : Mx) : Nat := if x.tr then x.k * rowLen x.fa x.nn else x.nn * rowLen x.fa x.k
def bCount (x : Mx) : Nat := if x.mtr then x.k * rowLen x.fb x.mm else x.mm * rowLen x.fb x.k

/-- Stationary element of column n at k: stored N × K by rows, K × N under TRANSPOSE (log 65). -/
def aElem (x : Mx) (m : Mem) (n k : Nat) : Num :=
  let i := if x.tr then k * rowLen x.fa x.nn + n else n * rowLen x.fa x.k + k
  decElem x.fa (codeAt m x.fa x.a i) (scaleAt m x.fa x.a x.aCount i)
/-- Moving element of row r at k: stored M × K by rows, K × M under MOVING_TRANSPOSE. -/
def bElem (x : Mx) (m : Mem) (r k : Nat) : Num :=
  let i := if x.mtr then k * rowLen x.fb x.mm + r else r * rowLen x.fb x.k + k
  decElem x.fb (codeAt m x.fb x.b i) (scaleAt m x.fb x.b x.bCount i)

/-- The k of each beat. -/
def beats (x : Mx) : List (List Nat) :=
  (List.range ((x.k + x.kstep - 1) / x.kstep)).map fun j =>
    (List.range (min x.kstep (x.k - j * x.kstep))).map (j * x.kstep + ·)

/-! ### Accumulation (R53 to R57) -/

/-- One float beat: the products exactly, then one rounded sum. -/
def beatF (x : Mx) (m : Mem) (r n : Nat) (acc : W32) (ks : List Nat) : W32 :=
  ofNum (ks.foldl (fun a k => addNum a (mulNum (x.bElem m r k) (x.aElem m n k))) (dec32 acc))

/-- The integer of an exact small number. -/
def intOf : Num → Int
  | .fin neg m _ => if neg then -(m : Int) else m
  | _ => 0

/-- Clamp to a signed width, telling whether it clamped (R57). -/
def clampW (w : Nat) (v : Int) : Int × Bool :=
  if v < -(2 ^ (w - 1) : Int) then (-(2 ^ (w - 1) : Int), true)
  else if (2 ^ (w - 1) : Int) ≤ v then (2 ^ (w - 1) - 1, true) else (v, false)

/-- One integer beat. -/
def beatI (x : Mx) (m : Mem) (r n : Nat) (acc : Int × Bool) (ks : List Nat) : Int × Bool :=
  let v := ks.foldl (fun a k => a + intOf (x.bElem m r k) * intOf (x.aElem m n k)) acc.1
  let c := clampW 32 v
  (c.1, acc.2 || c.2)

/-- The word of element (row r, column n) after the command's products, and whether it clamped. -/
def accum (x : Mx) (m : Mem) (r n : Nat) (w : W32) : W32 × Bool :=
  if x.int then
    let v := x.beats.foldl (x.beatI m r n) (w.toInt, false)
    (ofInt32 v.1, v.2)
  else (x.beats.foldl (x.beatF m r n) w, false)

/-! ### ZT-400 arithmetic (Table NU.9) -/

/-- FP32 subnormals become zero of the same sign. -/
def ftz (w : W32) : W32 := if bits w.toNat 30 23 = 0 then w &&& 0x80000000#32 else w

/-- One product at a time, each rounded; a half-width accumulator is rounded to BF16 after each addition. -/
def ztStep (x : Mx) (half : Bool) (m : Mem) (r n : Nat) (acc : W32) (k : Nat) : W32 :=
  let p := ftz (fmul (ftz (ofNum (x.bElem m r k))) (ftz (ofNum (x.aElem m n k))))
  let v := ftz (fadd (ftz acc) p)
  if half then BitVec.ofNat 32 ((convert 0 .rne v 0).code * 65536) else v

def ztInt (x : Mx) (half : Bool) (m : Mem) (r n : Nat) (acc : Int × Bool) (k : Nat) : Int × Bool :=
  let c := clampW (if half then 16 else 32) (acc.1 + intOf (x.bElem m r k) * intOf (x.aElem m n k))
  (c.1, acc.2 || c.2)

def ztAccum (x : Mx) (half : Bool) (m : Mem) (r n : Nat) (w : W32) : W32 × Bool :=
  if x.int then
    let v := (List.range x.k).foldl (x.ztInt half m r n) (w.toInt, false)
    (ofInt32 v.1, v.2)
  else ((List.range x.k).foldl (x.ztStep half m r n) w, false)

/-- The value of sub-tile `i` in an entry word: half-width tiles 2j and 2j + 1 share entry j, the even
one in the low half (log 66). -/
def subGet (x : Mx) (half : Bool) (i : Nat) (w : W32) : W32 :=
  if !half then w
  else
    let h : U16 := BitVec.ofNat 16 (w.toNat / 65536 ^ (i % 2))
    if x.int then h.signExtend 32 else BitVec.ofNat 32 (h.toNat * 65536)
def subPut (x : Mx) (half : Bool) (i : Nat) (w v : W32) : W32 :=
  if !half then v
  else
    let h := if x.int then (BitVec.ofInt 16 (clampW 16 v.toInt).1).toNat else (convert 0 .rne v 0).code
    if i % 2 = 0 then BitVec.ofNat 32 (w.toNat / 65536 * 65536 + h) else BitVec.ofNat 32 (w.toNat % 65536 + h * 65536)

/-! ### Initialisation (R52, Table MX.5) -/

/-- The initial word of element e of the tile at (r, c), tile index t: a BIAS has 16 values for each column tile (DESIGN
CHOICE, log 93), a RESIDUAL is read in A_FMT (log 61), in FP4 as 256 elements in a row with 8 scales (DESIGN CHOICE,
log 109). -/
def initWord (x : Mx) (m : Mem) (t c e : Nat) : W32 :=
  match x.init with
  | 2 => if x.int then (BitVec.ofNat 8 (codeAt m 5 x.initA (16 * c + e % 16))).signExtend 32
         else ofBf16 (BitVec.ofNat 16 (codeAt m 0 x.initA (16 * c + e % 16)))
  | 3 =>
    let a := x.initA + tensorBytes x.fa 256 * t
    if x.int then ofInt32 (decInt x.fa (codeAt m x.fa a e))
    else expand32 x.fa (codeAt m x.fa a e) (scaleAt m x.fa a 256 e)
  | 4 => ofBf16 (BitVec.ofNat 16 (codeAt m 0 (x.initA + 512 * t) e))
  | _ => 0

/-- A tag's fields set in an entry (Table MX.4). -/
def tagTo (e : TillE) (t : Nat) : TillE :=
  { e with
    cls := BitVec.ofNat 2 t, sat := bit t 2, long := bit t 3, nf := bit t 4, head := bit t 5
    kcount := BitVec.ofNat 17 (t / 64), handle := BitVec.ofNat 9 (t / 2 ^ 23) }
def tagOf (e : TillE) : Nat :=
  e.cls.toNat + e.sat.toNat * 4 + e.long.toNat * 8 + e.nf.toNat * 16 + e.head.toNat * 32
    + e.kcount.toNat * 64 + e.handle.toNat * 2 ^ 23

/-- The saved entry `j` of a RESTORE of `n` entries. -/
def savedTag (x : Mx) (m : Mem) (n j : Nat) : Nat := Mem.readN m (x.initA + 1024 * n + 4 * j) 4
def savedWords (x : Mx) (m : Mem) (j : Nat) : Words := Words.ofFn 256 fun e => Mem.read32 m (x.initA + 1024 * j + 4 * e)

/-- The entry of place `i` before its first product; none for BAD_FORMAT. RESTORE reads in tile-loop order
(R65); RESIDUAL and GRADIENT tiles of a command stand by row-major tile index (DESIGN CHOICE, log 93). -/
def initTile (x : Mx) (m : Mem) (e : TillE) (i : Nat) : Option TillE :=
  let rc := x.tileRC i
  if x.init = 0 then (if e.cls = x.cls then some e else none)
  else if x.init = 5 then
    let t := x.savedTag m x.tiles i
    if t % 4 = x.cls.toNat then some { tagTo e t with words := x.savedWords m i, head := false, handle := 0 } else none
  else some { e with
    words := Words.ofFn 256 fun j => x.initWord m (rc.1 * x.nt + rc.2) rc.2 j
    cls := x.cls, sat := false, long := false, nf := false, kcount := 0 }

/-- Counts and flags after the command's K products (R54, R56). -/
def counted (x : Mx) (e : TillE) : TillE :=
  let n := e.kcount.toNat + x.k
  { e with
    kcount := BitVec.ofNat 17 (min 131071 n), long := e.long || decide (65536 < n)
    nf := e.nf || (!x.int && (List.range 256).any fun j => !isFinite (Words.get e.words j)) }

/-- One tile of a native command: initialised and accumulated. -/
def runTile (x : Mx) (m : Mem) (e : TillE) (i : Nat) : Option TillE :=
  let rc := x.tileRC i
  (x.initTile m e i).map fun e =>
    let v (j : Nat) : W32 × Bool := x.accum m (16 * rc.1 + j / 16) (16 * rc.2 + j % 16) (Words.get e.words j)
    x.counted { e with words := Words.ofFn 256 fun j => (v j).1, sat := e.sat || (List.range 256).any fun j => (v j).2 }

/-- One sub-tile of a legacy command in its entry. -/
def ztTile (x : Mx) (half : Bool) (rows : Nat) (m : Mem) (e : TillE) (n i : Nat) : Option TillE :=
  let rc := x.tileRC i
  let j := if half then i / 2 else i
  let fresh (e : TillE) : TillE := if half && i % 2 = 1 then e else { e with sat := false, long := false, nf := false, kcount := 0 }
  let start : Option TillE :=
    if x.init = 0 then (if e.cls = x.cls then some e else none)
    else if x.init = 5 then
      let t := x.savedTag m n j
      if t % 4 = x.cls.toNat then
        some (if half && i % 2 = 1 then e else { tagTo e t with words := x.savedWords m j, head := e.head, handle := e.handle })
      else none
    else
      let ws := Words.ofFn 256 fun q => x.subPut half i (Words.get e.words q) (x.initWord m (rc.1 * x.nt + rc.2) rc.2 q)
      some (fresh { e with words := ws })
  start.map fun e =>
    let v (q : Nat) : W32 × Bool := x.ztAccum half m (16 * rc.1 + q / 16) (16 * rc.2 + q % 16) (x.subGet half i (Words.get e.words q))
    let e := { e with
      words := Words.ofFn 256 fun q => if q / 16 < rows then x.subPut half i (Words.get e.words q) (v q).1 else Words.get e.words q
      sat := e.sat || (List.range (16 * rows)).any fun q => (v q).2
      nf := e.nf || (!x.int && (List.range (16 * rows)).any fun q => !isFinite (v q).1) }
    if half && i % 2 = 1 then e
    else
      let c := e.kcount.toNat + x.k
      { e with kcount := BitVec.ofNat 17 (min 131071 c), long := e.long || decide (65536 < c) }

/-! ### The fuse stage (R61 to R67) -/

def scaleLen (x : Mx) : Nat := if x.ss = 1 then 16 * (if x.act = 6 then x.mt else x.nt) else 0
def auxAt (x : Mx) (m : Mem) (i : Nat) : W32 := ofBf16 (BitVec.ofNat 16 (Mem.readN m (x.auxA + 2 * i) 2))

/-- Steps 1 and 2 on an entry value at row r, column n of the output: (t, y). -/
def fuseTY (x : Mx) (zt : Bool) (m : Mem) (r n : Nat) (v : W32) : W32 × W32 :=
  let z (w : W32) : W32 := if zt then ftz w else w
  let v := z (if x.int then cvtFromInt v else v)
  let off := x.act = 6 || x.ss = 0
  let a := if off then one32 else if x.ss = 1 then z (x.auxAt m n) else z x.imm
  let b := if x.bias then z (x.auxAt m (x.scaleLen + n)) else 0
  let t := if off && !x.bias then v else z (fma v a b)
  let c := if x.ss = 1 then x.auxAt m r else if x.ss = 2 then x.imm else 0
  (t, if x.act = 6 then shiftedExp2 t c else z (activate x.act t))

/-- The rounding of an output element (R126). -/
def outRnd (x : Mx) (q : QE) (seed : W64) (r n : Nat) : Rnd :=
  rndOf x.rnd seed (cTensor q.img) (cStep q.img) (x.eb + r * x.nn + n)

def maskBit (x : Mx) (t : W32) : Bool := if x.masksel = 1 then flt 0 t else flt t 0
/-- The 256 mask bits of a tile. -/
def maskOf (x : Mx) (ty : Nat → W32 × W32) : Nat :=
  (List.range 256).foldl (fun w j => if x.masksel ≠ 0 ∧ x.maskBit (ty j).1 then w + 2 ^ j else w) 0

/-- A tile converted to a format without block scales, with its Census report. -/
def convTile (x : Mx) (q : QE) (seed : W64) (r c : Nat) (ty : Nat → W32 × W32) : Words × Tally4 :=
  if x.cvt = 0 then (Words.ofFn 256 fun j => (ty j).2, {})
  else
    let v (j : Nat) : Conv := convert x.outFmt (x.outRnd q seed (16 * r + j / 16) (16 * c + j % 16)) (ty j).2 0
    (Words.ofFn 256 fun j => BitVec.ofNat 32 (v j).code, tallyOf ((List.range 256).map v))

/-- The 16 MX blocks of a pair of tiles, columns from 16c (R64). -/
def pairBlocks (x : Mx) (q : QE) (seed : W64) (r c : Nat) (tl tr : Nat → W32 × W32) : List MxBlock :=
  (List.range 16).map fun k =>
    mxEncode (fun j => x.outRnd q seed (16 * r + k) (16 * c + j))
      ((List.range 16).map (fun j => (tl (16 * k + j)).2) ++ (List.range 16).map fun j => (tr (16 * k + j)).2)

/-- The codes of the left or right tile of a pair. -/
def pairCodes (bs : List MxBlock) (right : Bool) : Words :=
  Words.ofFn 256 fun j => BitVec.ofNat 32
    (((bs[j / 16]?).bind fun b => (b.elems[j % 16 + (if right then 16 else 0)]?).map (·.code)).getD 0)

/-! ### Checks at dispatch -/

/-- BAD_FORMAT and BAD_OP checks of the image (R45, R59, R63, R64, Tables MX.5, MX.7, MX.9). Code 0 with a
memory DEST faults where the drain passes the fuse stage; under NONE, FULL and FULL_KEEP, which bypass it, the
conversion field pairs with no destination (DEDUCED, log 112). -/
def formatFault (x : Mx) : Option U16 :=
  if 6 < x.fa ∨ 6 < x.fb ∨ decide (5 ≤ x.fa) ≠ decide (5 ≤ x.fb) then some 2
  else if 5 < x.init ∨ 4 < x.drain ∨ x.ss = 3 ∨ x.act = 7 then some 2
  else if x.masksel = 3 then some 1
  else if x.full ∧ x.dest ≠ 0 then some 2
  else if x.fuse ∧ (x.dest = 0 ∨ x.dest = 3) ∧ x.cvt = 0 then some 2
  else if x.init = 4 ∧ x.int then some 2
  else if x.pair ∧ (x.ebase % 2 = 1 ∨ x.elog = 0 ∨ x.nt % 2 = 1) then some 2
  else none

/-- What Table NU.9 excludes from a legacy command, and tile counts Table MX.11 does not have. -/
def legacyFault (x : Mx) : Option U16 :=
  if !([0, 1, 5].contains x.fa) || !([0, 1, 5].contains x.fb) then some 2
  else if x.fuse && (decide (2 < x.act) || !([1, 2, 6].contains x.cvt) || x.rnd) then some 2
  else if !((x.mt == 1 && (x.nt == 1 || x.nt == 2)) || (x.mt == 2 && x.nt == 2)) then some 2
  else none

/-- Bytes INIT reads. -/
def initLen (x : Mx) (ents : Nat) : Nat :=
  match x.init with
  | 2 => 16 * x.nt * (if x.int then 1 else 2)
  | 3 => x.tiles * tensorBytes x.fa 256
  | 4 => 512 * x.tiles
  | 5 => 1028 * ents
  | _ => 0

/-- Cluster-memory ranges the command reads (R105), and those it writes. -/
def reads (x : Mx) (ents : Nat) : List (Nat × Nat) :=
  [(x.a, tensorBytes x.fa x.aCount), (x.b, tensorBytes x.fb x.bCount), (x.initA, x.initLen ents),
    (x.auxA, if x.fuse then 2 * (x.scaleLen + (if x.bias then 16 * x.nt else 0)) else 0)]
def writes (x : Mx) (ents : Nat) : List (Nat × Nat) :=
  [(x.maskA, if x.fuse && x.masksel != 0 then 32 * x.tiles else 0), (x.amaxA, if x.fuse && x.amaxEn then 4 else 0),
    (x.dst, if x.dest ≠ 0 then 0 else if x.fuse then tensorBytes x.outFmt (x.mm * x.nn) else if x.full then 1028 * ents else 0)]

/-- Bytes of a Vault record: the tiles in loop order, then the blocks' scales (log 67). -/
def recordLen (x : Mx) : Nat :=
  let n := x.tiles * elemBytes x.outFmt 256 + (if x.cvt = 5 then x.tiles * 8 else 0)
  (n + 31) / 32 * 32

end Mx

/-! ### Legacy tiles (R71, R72) -/

def legacyHalf (i : Image) : Bool := Config.legacyHalf i
def legacyRows (i : Image) : Nat := if Config.legacyEight i && (Mx.of i).tiles == 1 then 8 else 16
/-- Entries of a legacy tile (Table MX.11). -/
def legacyEnts (i : Image) : Nat :=
  let t := (Mx.of i).tiles
  if legacyHalf i then (t + 1) / 2 else t
/-- The shape and format of a legacy tile as one number. -/
def legacyShape (i : Image) : Nat :=
  let x := Mx.of i
  1 + x.mt + 4 * x.nt + 16 * (legacyHalf i).toNat + 32 * (legacyRows i) + 1024 * x.int.toNat

/-- The first entry of the handle's tile in the window. -/
def legacyAt (till : SMap TillE) (d : CluDesc) (h : Nat) : Option Nat :=
  ((List.range (2 ^ d.tillLog)).map (d.tillBase + ·)).find? fun i =>
    let e := SMap.get {} till i
    e.cls != 0 && e.head && e.handle.toNat == h
/-- The lowest free aligned run of the window. -/
def legacyFree (till : SMap TillE) (d : CluDesc) (n : Nat) : Option Nat :=
  ((List.range (2 ^ d.tillLog)).map (d.tillBase + ·)).find? fun i =>
    i % n == 0 && decide (i + n ≤ d.tillBase + 2 ^ d.tillLog)
      && (List.range n).all fun j => (SMap.get {} till (i + j)).cls == 0

/-- Allocate or find the tile of a legacy command: its till and first entry, or the fault. -/
def legacyTake (till : SMap TillE) (d : CluDesc) (i : Image) : Except U16 (SMap TillE) :=
  let x := Mx.of i
  match legacyAt till d x.ebase with
  | some b => if (SMap.get {} till b).shape = legacyShape i then .ok till else .error 0x000B
  | none =>
    if x.init = 0 then .error 0x000B
    else match legacyFree till d (legacyEnts i) with
    | none => .error 0x000A
    | some b => .ok ((List.range (legacyEnts i)).foldl (fun m j => SMap.set {} m (b + j)
        { cls := x.cls, head := j == 0, handle := BitVec.ofNat 9 x.ebase, shape := legacyShape i }) till)

/-! ### Touchstone's checks at dispatch (R92, R106, R114) -/

/-- The operation in force for a command: the latest before it in command order (R115). -/
def opAt {α : Type} (l : List (W32 × α)) (q : W32) : Option α :=
  (l.reverse.find? fun o => seqLt o.1 q).map Prod.snd

/-- Do tokens t to t + r − 1 lie in [T, T + count)? -/
def inTokens (t : W32) (r : Nat) (t0 : W32) (count : Nat) : Bool :=
  (List.range r).all fun k => decide ((t + BitVec.ofNat 32 k - t0).toNat < count)

/-- First token and count of the operation that governs a role. -/
def Part.opRange (p : Part) (role : Nat) (q : W32) : Option (W32 × Nat) :=
  match role with
  | 1 => (opAt p.teacher q).map fun o => (o.t, o.count)
  | 2 => (opAt p.student q).map fun o => (o.t, o.count)
  | _ => (opAt p.grad q).map fun o => (o.t, o.count)

def tsCheck (s : State) (q : QE) : Option U16 :=
  let x := Mx.of q.img
  let c := q.ctx.toNat
  let die := (cCluster q.img).toNat / 256
  let p := s.prt die c
  let nseg := x.nt / 16
  let last := x.w28 % 1024 + nseg
  if !s.unitOn 0 then some 0x0011
  else if (s.tdie die).failed then some 0x0504
  else if x.role = 0 ∨ 3 < x.role ∨ x.rows = 0 ∨ 16 < x.rows ∨ x.nt = 0 ∨ x.nt % 16 ≠ 0 ∨ (x.loop ∧ 1 < x.mt) ∨ x.cvt ≠ 0 then some 0x0201
  else match p.opRange x.role q.seq with
  | none => some 0x0207
  | some r =>
    if !inTokens x.w24 x.rows r.1 r.2 then some 0x0207
    else
      let remote := x.role = 1 && (opAt p.teacher q.seq).any fun o => o.dev != s.devId
      if remote then none
      else
        let tp := if x.role = 1 then s.prt ((opAt p.teacher q.seq).map fun o => o.die.toNat).get! c else p
        if !tp.valid then some 0x0202
        else if tp.geo.segs < last then some 0x0201
        else if x.role = 3 then
          match opAt p.grad q.seq with
          | some g =>
            if g.slots < x.mt * nseg then some 0x0205
            else if !((s.ctx c).desc (cCluster q.img)).any (·.owns (g.ring * 128) (8192 * g.slots)) then some 0x0003
            else none
          | none => none
        else none

/-- The address of the landing ring that the gradient operation of a pass-B command names. -/
def State.landingAt (s : State) (q : QE) : Nat :=
  128 * ((opAt (s.prt ((cCluster q.img).toNat / 256) q.ctx.toNat).grad q.seq).map (·.ring)).getD 0

/-- An earlier TOUCH of the role's operation on the die, or a FEATURE_LOSS before a student pass, has not yet
taken effect: the command waits (R115). -/
def State.touchPending (s : State) (q : QE) : Bool :=
  let x := Mx.of q.img
  x.dest == 2 && (s.ctx q.ctx.toNat).flight.any fun f =>
    cClass f.img == 5 && f.phase ≠ .completed && seqLt f.seq q.seq
      && cDie f.img == (cCluster q.img).toNat / 256
      && (fld f.img 0x10 3 0 == x.role || (fld f.img 0x10 3 0 == 4 && decide (2 ≤ x.role)))

/-! ### Running a command -/

def State.legacy (s : State) (q : QE) : Bool := (s.ctx q.ctx.toNat).legacy
/-- Till entries the command's FULL and RESTORE layouts count. -/
def State.mxEnts (s : State) (q : QE) : Nat := if s.legacy q then legacyEnts q.img else (Mx.of q.img).tiles

/-- The fault found at dispatch, with its detail. -/
def State.mxCheck (s : State) (q : QE) : Option (U16 × Nat) :=
  let x := Mx.of q.img
  match (s.ctx q.ctx.toNat).desc (cCluster q.img) with
  | none => some (0x0004, 0)
  | some d =>
    match x.formatFault with
    | some f => some (f, 0)
    | none =>
      match (if s.legacy q then x.legacyFault else none) with
      | some f => some (f, 0)
      | none =>
        if !s.legacy q && !d.hasEntries x.ebase x.nent then some (0x0003, x.ebase)
        else match (if x.dest = 2 then tsCheck s q else none) with
        | some f => some (f, if f = 0x0003 then s.landingAt q else 0)
        | none =>
          ((x.reads (s.mxEnts q) ++ x.writes (s.mxEnts q)).find? fun r => r.2 != 0 && !d.owns r.1 r.2).map fun r => (0x0003, r.1)

/-- Entries a native command still holds (R51): an entry is let go after its last tile's release. -/
def MxRun.holds (r : MxRun) (e : Nat) : Bool :=
  let x := Mx.of r.q.img
  let j := e - x.ebase
  decide (x.ebase ≤ e) && decide (j < x.nent) && !r.done
    && !(x.frees && decide (j < x.tiles) && decide (j + (x.tiles - 1 - j) / x.nent * x.nent < r.acked))

/-- Does an earlier command of the queue hold an entry this one names? Legacy commands of a context run
one after another, so that placement follows command order (R72). -/
def State.entryHeld (s : State) (cl k : Nat) (r : MxRun) : Bool :=
  let x := Mx.of r.q.img
  ((s.clu cl).mq.take k).any fun o =>
    if s.legacy r.q then o.q.ctx == r.q.ctx && !o.done
    else !s.legacy o.q && (List.range x.nent).any fun j => o.holds (x.ebase + j)

def State.setRun (s : State) (cl k : Nat) (r : MxRun) : State := s.modCl cl fun x => { x with mq := putAt x.mq k r }

def clUnit (i : Image) : U16 := (cCluster i).setWidth 16
/-- Faults of the Touchstone class name the die. -/
def mxUnit (i : Image) (code : U16) : U16 := if code.toNat / 256 = 2 then BitVec.ofNat 16 ((cCluster i).toNat / 256) else clUnit i

/-- A legacy command's tile is found or placed; a native one names its entries itself. -/
def State.tileTake (s : State) (cl : Nat) (q : QE) : Except U16 State :=
  match s.legacy q, (s.ctx q.ctx.toNat).desc (cCluster q.img) with
  | true, some d => (legacyTake (s.clu cl).till d q.img).map fun t => s.modCl cl fun y => { y with till := t }
  | _, _ => .ok s

/-- The command's first beat: its legacy tile and its Vault record are taken. -/
def State.mxBegin (s : State) (cl k : Nat) (r : MxRun) : State :=
  let q := r.q
  let x := Mx.of q.img
  let r := { r with started := true, waiting := false, done := x.tiles == 0 }
  match s.tileTake cl q with
  | .error f => s.faultCmd q f 0 (clUnit q.img)
  | .ok s' =>
    match vaultStackOf q.img with
    | none => s'.setRun cl k r
    | some i =>
      let at_ := x.w28 % 2 ^ 25 * 65536
      match s.pushTo q.ctx (cCluster q.img) i x.recordLen at_ with
      | .fault f a => s.faultAt q (f, a) (clUnit q.img)
      | .vault a => (s'.pushRecord q.ctx (cCluster q.img) i x.w24 x.recordLen 0 (.vault a)).setRun cl k { r with vaultAt := some a }
      | .hbm => (s'.pushRecord q.ctx (cCluster q.img) i x.w24 x.recordLen at_ .hbm).setRun cl k r

/-- The Till entry of place `i` of a command. The entries of a legacy run hold the 16 × 16 parts of the tile in the order
of the tile loop, so that LOOP changes which entry holds which (DESIGN CHOICE, log 66). -/
def State.entryOf (s : State) (cl : Nat) (q : QE) (i : Nat) : Nat :=
  let x := Mx.of q.img
  if s.legacy q then
    let b := (((s.ctx q.ctx.toNat).desc (cCluster q.img)).bind fun d => legacyAt (s.clu cl).till d x.ebase).getD 0
    b + (if legacyHalf q.img then i / 2 else i)
  else x.ebase + i % x.nent

/-- A Touchstone group that rotates through fewer than 16 entries is accepted before all its tiles are in
(log 68). -/
def Mx.early (x : Mx) : Bool := x.dest == 2 && x.fuse && decide (x.nent < 16)

/-- May tile `i`'s entry take its first product: no earlier tile of the command still in it? -/
def Mx.slotFree (x : Mx) (r : MxRun) (i : Nat) : Bool :=
  decide (i < x.nent) || x.drain == 0 || decide (i - x.nent < r.acked)

/-- Release an entry. R59 sets CLASS to empty; the words and the tag's other fields then read 0 (DESIGN CHOICE,
log 93). -/
def Cluster.free (x : Cluster) (e : Nat) : Cluster := { x with till := SMap.set {} x.till e {} }

/-- What a legacy command releases when it has run: a releasing drain or the RELEASE flag (R72). -/
def State.legacyDone (s : State) (cl : Nat) (q : QE) : State :=
  let x := Mx.of q.img
  if s.legacy q && (x.frees || x.release) then
    let b := s.entryOf cl q 0
    s.modCl cl fun y => (List.range (legacyEnts q.img)).foldl (fun y j => y.free (b + j)) y
  else s

/-- Mark a command done when all its tiles are. -/
def State.mxSettle (s : State) (cl k : Nat) (r : MxRun) : State :=
  let x := Mx.of r.q.img
  let fin := if x.drain = 0 then decide (x.tiles ≤ r.tile) else decide (x.tiles ≤ r.acked)
  let s := s.setRun cl k { r with done := fin }
  if fin then s.legacyDone cl r.q else s

/-- Accumulate the next tile; a class that CONTINUE or RESTORE does not find is met here (DESIGN CHOICE, log 93). -/
def State.mxTile (s : State) (cl k : Nat) (r : MxRun) : State :=
  let q := r.q
  let x := Mx.of q.img
  let y := s.clu cl
  let e := s.entryOf cl q r.tile
  let v := SMap.get {} y.till e
  let t := if s.legacy q then x.ztTile (legacyHalf q.img) (legacyRows q.img) y.mem v (legacyEnts q.img) r.tile
    else x.runTile y.mem v r.tile
  match t with
  | none => s.faultCmd q 0x0002 0 (clUnit q.img)
  | some t => (s.modCl cl fun y => { y with till := SMap.set {} y.till e t }).mxSettle cl k { r with tile := r.tile + 1 }

/-- MATMUL: checked and begun, or its next tile accumulated. -/
def execMatmul (cl : ClId) (k : Nat) (s : State) : Out :=
  match (s.clu cl.toNat).mq[k]? with
  | none => .next s
  | some r =>
    let x := Mx.of r.q.img
    if !s.clOpen cl.toNat || !s.isIn r.q.ctx.toNat || r.done || r.waiting then .next s
    else if r.started then
      if r.tile < x.tiles && x.slotFree r r.tile then .next (s.mxTile cl.toNat k r) else .next s
    else if s.touchPending r.q || s.vaultBusy r.q then .next s
    else match s.mxCheck r.q with
    | some f => .next (s.faultCmd r.q f.1 (BitVec.ofNat 64 f.2) (mxUnit r.q.img f.1))
    | none =>
      if s.entryHeld cl.toNat k r then .next (s.setRun cl.toNat k { r with waiting := true })
      else .next (s.mxBegin cl.toNat k r)

/-- MATMUL_ENTRY_WAIT_END: the entries have been released, and the cluster may issue (R247). -/
def execMatmulEntryWaitEnd (cl : ClId) (k : Nat) (s : State) : Out :=
  match (s.clu cl.toNat).mq[k]? with
  | none => .next s
  | some r =>
    if s.clOpen cl.toNat && r.waiting && s.isIn r.q.ctx.toNat && !s.entryHeld cl.toNat k r then .next (s.mxBegin cl.toNat k r) else .next s

/-! ### Drains (R58 to R60, R65, R66) -/

/-- (t, y) of the 256 elements of the drained tile `i`, those of an 8 x 16 legacy tile too (DESIGN CHOICE, log 93). -/
def State.tileTY (s : State) (cl : Nat) (q : QE) (i : Nat) : Nat → W32 × W32 :=
  let x := Mx.of q.img
  let y := s.clu cl
  let e := SMap.get {} y.till (s.entryOf cl q i)
  let rc := x.tileRC i
  let zt := s.legacy q
  fun j => x.fuseTY zt y.mem (16 * rc.1 + j / 16) (16 * rc.2 + j % 16)
    (if zt then x.subGet (legacyHalf q.img) i (Words.get e.words j) else Words.get e.words j)

/-- The largest finite magnitude of a tile's outputs, where one is finite (R66). -/
def peakOf (ys : List W32) : Option W32 := if ys.any isFinite then some (amaxOf ys) else none

/-- Element conversions of the left or right tile of a pair. -/
def pairElems (bs : List MxBlock) (right : Bool) : Tally4 :=
  tallySum (bs.map fun b => tallyOf (if right then b.elems.drop 16 else b.elems.take 16))

/-- Offers of the next drain: one tile, or a pair under code 5, whose block scales are reported with its right tile. -/
def State.mxOffers (s : State) (cl : Nat) (r : MxRun) : List Offer :=
  let q := r.q
  let x := Mx.of q.img
  let i := r.drained
  let rc := x.tileRC i
  let seed := (s.nums q.ctx.toNat).seed
  let ty := s.tileTY cl q i
  let peak (f : Nat → W32 × W32) : Option W32 := peakOf ((List.range 256).map fun j => (f j).2)
  if x.pair then
    let ty2 := s.tileTY cl q (i + 1)
    let bs := x.pairBlocks q seed rc.1 rc.2 ty ty2
    let sc := bs.map (·.scale)
    [{ tile := i, entry := s.entryOf cl q i, codes := Mx.pairCodes bs false, scales := sc, mask := x.maskOf ty
       peak := peak ty, elems := pairElems bs false },
     { tile := i + 1, entry := s.entryOf cl q (i + 1), codes := Mx.pairCodes bs true, scales := sc, mask := x.maskOf ty2
       peak := peak ty2, elems := pairElems bs true, blocks := tallySum (bs.map (·.scaleTally)) }]
  else
    let c := x.convTile q seed rc.1 rc.2 ty
    [{ tile := i, entry := s.entryOf cl q i, codes := c.1, scales := [], mask := x.maskOf ty, peak := peak ty, elems := c.2 }]

/-- Report a conversion of a command on its cluster's die. -/
def State.countFor (s : State) (q : QE) (fmt : Nat) (t : Tally4) : State :=
  s.count ((cCluster q.img).toNat / 256) q.ctx.toNat (cTensor q.img) fmt t

/-- A FUSE drain: the tile is offered to its destination, and nothing else happens before that takes it (R60). -/
def State.drainFuse (s : State) (cl k : Nat) (r : MxRun) : State :=
  s.setRun cl k { r with
    drained := r.drained + (Mx.of r.q.img).step, offers := r.offers ++ s.mxOffers cl r, since := s.sched.clock }

/-- A FULL drain writes the words and the tag and needs no acceptance (R65). -/
def State.drainFull (s : State) (cl k : Nat) (r : MxRun) : State :=
  let q := r.q
  let x := Mx.of q.img
  let i := r.drained
  let e := s.entryOf cl q i
  let v := SMap.get {} (s.clu cl).till e
  let half := s.legacy q && legacyHalf q.img
  let j := if half then i / 2 else i
  let bytes := ((List.range 256).map fun w => leBytes 4 (Words.get v.words w).toNat).flatten
  let n := s.mxEnts q
  let put (m : Mem) : Mem :=
    Mem.writeN (Mem.writeBytes m (x.dst + 1024 * j) bytes) (x.dst + 1024 * n + 4 * j) 4 (Mx.tagOf v)
  let s := s.modCl cl fun y => { y with mem := put y.mem }
  let s := if x.frees && !s.legacy q then s.modCl cl fun y => y.free e else s
  s.mxSettle cl k { r with drained := i + 1, acked := i + 1 }

/-! ### Destinations (R60, R63, R67, R147) -/

/-- Row `k` of an offered tile, packed. -/
def Offer.row (o : Offer) (fmt k : Nat) : List Byte :=
  packCodes fmt ((List.range 16).map fun j => (Words.get o.codes (16 * k + j)).toNat)

/-- Store a tile in the row-major output at DST_ADDR; FP4 scales follow the elements. -/
def Mx.storeTile (x : Mx) (m : Mem) (o : Offer) : Mem :=
  let rc := x.tileRC o.tile
  (List.range 16).foldl (fun m k =>
    let e := (16 * rc.1 + k) * x.nn + 16 * rc.2
    let m := Mem.writeBytes m (x.dst + elemBytes x.outFmt e) (o.row x.outFmt k)
    if x.cvt = 5 then
      Mem.write m (x.dst + elemBytes 4 (x.mm * x.nn) + e / 32) (BitVec.ofNat 8 (o.scales.getD k 0xFF))
    else m) m

/-- Where a tile and its scales stand in a Vault record, as (offset, bytes). -/
def Mx.recordParts (x : Mx) (o : Offer) : List (Nat × List Byte) :=
  let n := elemBytes x.outFmt 256
  (n * o.tile, ((List.range 16).map fun k => o.row x.outFmt k).flatten) ::
    (if x.cvt = 5 then [(n * x.tiles + 16 * (o.tile / 2), o.scales.map (BitVec.ofNat 8))] else [])

/-- The mask bits go with the tile (R67): its 32 bytes stand at MASK_ADDR + 32 × the row-major tile index
(DESIGN CHOICE, log 93). -/
def Mx.storeMask (x : Mx) (m : Mem) (o : Offer) : Mem :=
  if x.masksel = 0 then m
  else let rc := x.tileRC o.tile
    Mem.writeN m (x.maskA + 32 * (rc.1 * x.nt + rc.2)) 32 o.mask

/-- The amax word takes a tile's largest finite magnitude (R66). -/
def Mx.storePeak (x : Mx) (m : Mem) (o : Offer) : Mem :=
  match o.peak with
  | some p => if x.amaxEn then Mem.writeN m x.amaxA 4 (fmax (Mem.read32 m x.amaxA) p).toNat else m
  | none => m

/-- A taken tile's conversions reach the Census (R63). -/
def State.reportOffer (s : State) (q : QE) (o : Offer) : State :=
  let x := Mx.of q.img
  if x.cvt = 0 then s else (s.countFor q x.outFmt o.elems).countFor q 7 o.blocks

/-- Acknowledged tiles: their mask bits and amax are written, their conversions reported, their entries released or kept
(R60). -/
def State.mxRelease (s : State) (cl : Nat) (q : QE) (os : List Offer) : State :=
  let x := Mx.of q.img
  let s := s.modCl cl fun y => { y with mem := os.foldl (fun m o => x.storePeak (x.storeMask m o) o) y.mem }
  let s := os.foldl (fun s o => s.reportOffer q o) s
  if x.frees && !s.legacy q then s.modCl cl fun y => os.foldl (fun y o => y.free o.entry) y else s

/-- The destination has taken `n` offered tiles. -/
def State.mxAck (s : State) (cl k : Nat) (r : MxRun) (n : Nat) : State :=
  (s.mxRelease cl r.q (r.offers.take n)).mxSettle cl k { r with offers := r.offers.drop n, acked := r.acked + n }

/-- Tiles that an accepted group has taken as they drain, kept with it until all 16 are in (R93). -/
def State.mxTaken (s : State) (cl k : Nat) (r : MxRun) (os : List Offer) : State :=
  (s.mxRelease cl r.q os).mxSettle cl k { r with acked := r.acked + os.length }

/-- FUSE_TILE_ACCEPT: cluster memory or the Vault takes the next tile. -/
def execFuseTileAccept (cl : ClId) (k : Nat) (s : State) : Out :=
  match (s.clu cl.toNat).mq[k]? with
  | none => .next s
  | some r =>
    let x := Mx.of r.q.img
    match r.offers with
    | [] => .next s
    | o :: _ =>
      if !s.isIn r.q.ctx.toNat then .next s
      else if x.dest = 0 then
        .next ((s.modCl cl.toNat fun y => { y with mem := x.storeTile y.mem o }).mxAck cl.toNat k r 1)
      else if x.dest = 3 then
        match r.vaultAt with
        | some a =>
          .next ((s.modCl cl.toNat fun y => { y with mem := (x.recordParts o).foldl (fun m p => Mem.writeBytes m (a + p.1) p.2) y.mem }).mxAck
            cl.toNat k r 1)
        | none =>
          let a := x.w28 % 2 ^ 25 * 65536
          if s.guarded a x.recordLen then .next s
          else match s.hbmCheck r.q.ctx.toNat a x.recordLen true false with
          | some f => .next (s.faultCmd r.q f (BitVec.ofNat 64 a) (clUnit r.q.img))
          | none => .next (((x.recordParts o).foldl (fun s p => s.hbmWrite (a + p.1) p.2) s).mxAck cl.toNat k r 1)
      else .next s

end Sys2Proof.Machine
end

