-- ==== Sys2Proof/Machine/Dma.lean ====
section
/-! DEFINITION. The DMA engine: copies, remote writes, transposition, spills, the Vault, Teller pages
(R49, R146 to R152, R174, R231). -/

namespace Sys2Proof.Machine
open Sys2Proof

/-! ### Images (Table CS.7) -/

def dMode (i : Image) : Nat := fld i 0x10 3 0
def dEnc (i : Image) : Nat := fld i 0x10 5 4
def dFmt (i : Image) : Nat := fld i 0x10 13 10
def dStack (i : Image) : Nat := fld i 0x10 16 14
def dLen (i : Image) : Nat := fld i 0x14 31 0
def dSrc (i : Image) : Loc := locOf (fld i 0x10 7 6) (fld i 0x18 63 0) (cCluster i)
def dDst (i : Image) : Loc := locOf (fld i 0x10 9 8) (fld i 0x20 63 0) (cCluster i)
/-- The PLANE index or BLOCK8 scale array, in the space of the encoded data (log 72). -/
def dAux (i : Image) : Loc :=
  locOf (if dMode i = 2 then fld i 0x10 9 8 else fld i 0x10 7 6) (fld i 0x2C 63 0) (cCluster i)

/-- The head of a DMA queue in a mode, where its cluster may step and its context is IN. -/
def State.dmaHead (s : State) (cl : ClId) (mode : Nat) : Option QE :=
  let x := s.clu cl.toNat
  match x.dq with
  | [] => none
  | q :: _ =>
    if s.clOpen cl.toNat && s.isIn q.ctx.toNat && !x.ddone && !x.dwait && dMode q.img == mode && !s.vaultBusy q then some q
    else none

def State.dmaDone (s : State) (cl : ClId) : State := s.modCl cl.toNat fun x => { x with ddone := true }
/-- A fault that no address causes. -/
def State.dmaFault (s : State) (q : QE) (code : U16) : State := s.faultCmd q code 0 (clUnit q.img)

/-- What a transfer reads and writes. -/
def dmaPlaces (reads writes : List (Loc × Nat)) : List (Loc × Nat × Bool) :=
  (reads.map fun r => (r.1, r.2, false)) ++ writes.map fun w => (w.1, w.2, true)

/-- A transfer: the first fault of its reads and writes, with its address (R175, Table CS.4), a wait, or its effect. -/
def State.dmaRun (s : State) (cl : ClId) (q : QE) (reads writes : List (Loc × Nat)) (f : State → State) : Out :=
  match s.locsFault q.ctx (dmaPlaces reads writes) with
  | some e => .next (s.faultAt q e (clUnit q.img))
  | none =>
    if reads.any (fun r => s.srcWait r.1 r.2) || writes.any (fun w => s.locWait w.1 w.2) then .next s
    else .next ((f s).dmaDone cl)

/-! ### COPY (R231) -/

/-- Payloads of at most 4,096 bytes; an empty transfer is one empty packet. -/
def chunks (bs : List Byte) : List (List Byte) :=
  (List.range (max 1 ((bs.length + 4095) / 4096))).map fun k => (bs.drop (4096 * k)).take 4096

/-- The k-th WRITE packet of a remote copy; the last carries the signal (R231). -/
def State.remotePkt (s : State) (q : QE) (k n : Nat) (bs : List Byte) : Packet :=
  let i := q.img
  let sp := fld i 0x28 29 28
  let a := (if sp = 1 then fld i 0x20 22 0 else fld i 0x20 63 0) + 4096 * k
  let t := sp + (if sp = 1 then fld i 0x20 42 32 * 4 else 0) + a * 8192
  let aux := q.seq.toNat * 2 ^ 32 + (if k + 1 = n then fld i 0x2C 14 0 else 0)
  let vc := if fld i 0x28 14 13 = 0 then 3 else if fld i 0x28 14 13 = 1 then 4 else 6
  s.mkPkt 1 vc (BitVec.ofNat 12 (fld i 0x28 11 0)) q.ctx (BitVec.ofNat 12 (fld i 0x28 27 16)) (cStep i)
    (BitVec.ofNat 64 t) (BitVec.ofNat 64 aux) bs

/-- A remote copy: its packets go out, and it completes when every one is acknowledged. -/
def State.copyRemote (s : State) (cl : ClId) (q : QE) : Out :=
  let i := q.img
  match s.locsFault q.ctx [(dSrc i, dLen i, false)] with
  | some e => .next (s.faultAt q e (clUnit q.img))
  | none =>
    if s.srcWait (dSrc i) (dLen i) then .next s
    else
      let cs := chunks (s.locRead (dSrc i) (dLen i))
      let s := s.modCl cl.toNat fun x => { x with dwait := true, dleft := cs.length }
      .next (cs.zipIdx.foldl (fun s c => s.send (s.remotePkt q c.2 cs.length c.1) q.seq) s)

def execCopy (cl : ClId) (h : HostStores) (s : State) : Out :=
  let s := s.hostStores h
  match s.dmaHead cl 0 with
  | none => .next s
  | some q =>
    let i := q.img
    if bit (fld i 0x28 31 0) 12 then s.copyRemote cl q
    else s.dmaRun cl q [(dSrc i, dLen i)] [(dDst i, dLen i)] fun s => s.locWrite (dDst i) (s.locRead (dSrc i) (dLen i))

/-! ### TRANSPOSE (R49) -/

/-- Bytes as a memory from address 0. -/
def asMem (bs : List Byte) : Mem := Mem.writeBytes [] 0 bs

/-- The transposed tensor of `r` rows and `c` columns. -/
def transposed (fmt r c : Nat) (bs : List Byte) : List Byte :=
  let m := asMem bs
  packCodes fmt ((List.range (r * c)).map fun k => codeAt m fmt 0 (k % r * c + k / r))

/-- FP8, INT8 and INT4 only: the engine re-lays no FP4 tensor, and no 16-bit one is named. LENGTH is not read:
ROWS × COLS elements are moved (DESIGN CHOICE, log 93). -/
def execTranspose (cl : ClId) (h : HostStores) (s : State) : Out :=
  let s := s.hostStores h
  match s.dmaHead cl 1 with
  | none => .next s
  | some q =>
    let i := q.img
    let r := fld i 0x28 15 0
    let c := fld i 0x28 31 16
    if !([2, 3, 5, 6].contains (dFmt i)) then .next (s.dmaFault q 0x0002)
    else
      let n := elemBytes (dFmt i) (r * c)
      s.dmaRun cl q [(dSrc i, n)] [(dDst i, n)] fun s => s.locWrite (dDst i) (transposed (dFmt i) r c (s.locRead (dSrc i) n))

/-! ### Spills (R150, R151) -/

/-- Element codes of a tensor of `n` elements, with the tail block padded by its last element. -/
def paddedCodes (fmt n : Nat) (bs : List Byte) : List Nat :=
  let m := asMem bs
  (List.range ((n + 255) / 256 * 256)).map fun k => codeAt m fmt 0 (min k (n - 1))

/-- The 256 codes of each block. -/
def blocksOf (l : List Nat) : List (List Nat) := (List.range (l.length / 256)).map fun k => (l.drop (256 * k)).take 256

/-- Fields of `w` bits packed from bit 0 of byte 0 upward, 256 of them. -/
def packBits (w : Nat) (l : List Nat) : List Byte := leBytes (32 * w) ((l.zipIdx.map fun v => v.1 * 2 ^ (w * v.2)).sum)
def unpackBits (w : Nat) (bs : List Byte) : List Nat :=
  let n := leNat bs
  (List.range 256).map fun k => n / 2 ^ (w * k) % 2 ^ w

/-- The fields of a 16-bit float: sign and mantissa, exponent. -/
def planeA (f : Flt) (c : Nat) : Nat := c / 2 ^ (f.eb + f.mb) * 2 ^ f.mb + c % 2 ^ f.mb
def planeB (f : Flt) (c : Nat) : Nat := c / 2 ^ f.mb % 2 ^ f.eb

/-- The fewest bits that hold `d`. -/
def bitsFor (d : Nat) : Nat := if d = 0 then 0 else Nat.log2 d + 1

/-- A PLANE block: its index word and its bytes. -/
def planeEnc (f : Flt) (l : List Nat) : Nat × List Byte :=
  let es := l.map (planeB f)
  let base := es.foldl min (es.headD 0)
  let w := bitsFor (es.foldl max 0 - base)
  (base + w * 256, packBits (f.mb + 1) (l.map (planeA f)) ++ packBits w (es.map (· - base)))

/-- Bytes of a PLANE block with an index word. -/
def planeSize (f : Flt) (ix : Nat) : Nat := 32 * (f.mb + 1) + 32 * bits ix 11 8

/-- The codes of a PLANE block. -/
def planeDec (f : Flt) (ix : Nat) (bs : List Byte) : List Nat :=
  let a := unpackBits (f.mb + 1) (bs.take (32 * (f.mb + 1)))
  let b := unpackBits (bits ix 11 8) (bs.drop (32 * (f.mb + 1)))
  (a.zip b).map fun p => p.1 / 2 ^ f.mb * 2 ^ (f.eb + f.mb) + (ix % 256 + p.2) % 2 ^ f.eb * 2 ^ f.mb + p.1 % 2 ^ f.mb

/-- A BLOCK8 block (R151). -/
def block8Enc (fmt : Nat) (l : List Nat) : MxBlock :=
  let xs := l.map fun c => expand32 fmt c 127
  if xs.all isFinite then
    let x := scaleExp (amaxOf xs) 8
    { scale := (x.1 + 127).toNat, elems := xs.map fun v => convert 2 .rne v x.1, clamped := x.2 }
  else { scale := 0xFF, elems := xs.map badElem, clamped := false }

/-- An element of a BLOCK8 block in the reload format. -/
def block8Dec (fmt scale c : Nat) : Nat :=
  let v : Num := if scale = 0xFF then .nan else
    match e4m3.dec c with
    | .fin n m e => .fin n m (e + (scale : Int) - 127)
    | x => x
  (convert fmt .rne (ofNum v) 0).code

/-- Elements of a transfer, counted on the cluster-memory side. -/
def spillCount (i : Image) : Nat := dLen i * 8 / elemBits (dFmt i)
def spillBlocks (i : Image) : Nat := (spillCount i + 255) / 256

/-- BAD_FORMAT: a format Table NU.1 does not have, or one the encoding does not take; ENC 3 is reserved. -/
def spillFmtBad (i : Image) : Bool :=
  decide (6 < dFmt i) || (dEnc i != 0 && decide (1 < dFmt i))

/-- The array beside the data is a place of its own only where the encoding has one. -/
def auxOf (i : Image) (n : Nat) : List (Loc × Nat) := if dEnc i = 0 then [] else [(dAux i, n)]

/-- What SPILL_OUT writes: the data, the array beside it, and the report to the Census. -/
def spillEnc (i : Image) (bs : List Byte) : List Byte × List Byte × Tally4 × Tally4 :=
  let l := paddedCodes (dFmt i) (spillCount i) bs
  if dEnc i = 1 then
    let ps := (blocksOf l).map (planeEnc (fmtOf (dFmt i)))
    ((ps.map Prod.snd).flatten, (ps.map fun p => leBytes 2 p.1).flatten, {}, {})
  else if dEnc i = 2 then
    let ms := (blocksOf l).map (block8Enc (dFmt i))
    ((ms.map fun b => b.elems.map fun c => BitVec.ofNat 8 c.code).flatten, ms.map fun b => BitVec.ofNat 8 b.scale
      , tallySum (ms.map (·.elemTally)), tallySum (ms.map (·.scaleTally)))
  else (packCodes (dFmt i) l, [], {}, {})

/-- SPILL_OUT: PLANE and BLOCK8 take BF16 and FP16; a format beyond Table NU.1 is none. -/
def execSpillOut (cl : ClId) (s : State) : Out :=
  match s.dmaHead cl 2 with
  | none => .next s
  | some q =>
    let i := q.img
    if spillFmtBad i then .next (s.dmaFault q 0x0002)
    else
      let r := spillEnc i (s.locRead (dSrc i) (dLen i))
      s.dmaRun cl q [(dSrc i, dLen i)] ((dDst i, r.1.length) :: auxOf i r.2.1.length) fun s =>
        let s := (s.locWrite (dDst i) r.1).locWrite (dAux i) r.2.1
        (s.countFor q 2 r.2.2.1).countFor q 7 r.2.2.2

/-- The PLANE index words of a reload. -/
def State.planeIndex (s : State) (i : Image) : List Nat :=
  (List.range (spillBlocks i)).map fun k => leNat (s.locRead ((dAux i).shift (2 * k)) 2)

/-- Bytes of encoded data, and of the array beside it, that a reload reads. -/
def State.spillInLen (s : State) (i : Image) : Nat × Nat :=
  if dEnc i = 1 then (((s.planeIndex i).map (planeSize (fmtOf (dFmt i)))).sum, 2 * spillBlocks i)
  else if dEnc i = 2 then (256 * spillBlocks i, spillBlocks i)
  else (elemBytes (dFmt i) (256 * spillBlocks i), 0)

/-- The PLANE blocks of encoded bytes. -/
def planeAll (f : Flt) : List Nat → List Byte → List Nat
  | [], _ => []
  | ix :: t, bs => planeDec f ix (bs.take (planeSize f ix)) ++ planeAll f t (bs.drop (planeSize f ix))

/-- The element codes a reload yields. -/
def State.spillDec (s : State) (i : Image) : List Nat :=
  let n := s.spillInLen i
  let bs := s.locRead (dSrc i) n.1
  if dEnc i = 1 then planeAll (fmtOf (dFmt i)) (s.planeIndex i) bs
  else if dEnc i = 2 then
    let sc := s.locRead (dAux i) n.2
    bs.zipIdx.map fun v => block8Dec (dFmt i) (sc.getD (v.2 / 256) 0).toNat v.1.toNat
  else
    let m := asMem bs
    (List.range (256 * spillBlocks i)).map fun k => codeAt m (dFmt i) 0 k

/-- SPILL_IN: the padding of the tail block is discarded. -/
def execSpillIn (cl : ClId) (h : HostStores) (s : State) : Out :=
  let s := s.hostStores h
  match s.dmaHead cl 3 with
  | none => .next s
  | some q =>
    let i := q.img
    if spillFmtBad i then .next (s.dmaFault q 0x0002)
    else
      let n := s.spillInLen i
      s.dmaRun cl q (auxOf i n.2 ++ [(dSrc i, n.1)]) [(dDst i, dLen i)] fun s =>
        s.locWrite (dDst i) ((packCodes (dFmt i) ((s.spillDec i).take (spillCount i))).take (dLen i))

/-! ### The Vault (R147, R148) -/

/-- VAULT_PUSH: decided before any byte moves. A length that is no multiple of 32 is no push. -/
def execVaultPush (cl : ClId) (h : HostStores) (s : State) : Out :=
  let s := s.hostStores h
  match s.dmaHead cl 4 with
  | none => .next s
  | some q =>
    let i := q.img
    let tag : W32 := BitVec.ofNat 32 (fld i 0x28 31 0)
    let fb := fld i 0x2C 63 0
    if dLen i % 32 ≠ 0 then .next (s.dmaFault q 0x0001)
    else if s.locNone (dSrc i) (dLen i) then .next (s.faultAt q (0x0003, (dSrc i).addr) (clUnit q.img))
    else match s.pushTo q.ctx cl (dStack i) (dLen i) fb with
    | .fault f a => .next (s.faultAt q (f, a) (clUnit q.img))
    | .vault a =>
      s.dmaRun cl q [(dSrc i, dLen i)] [(.clu cl a, dLen i)] fun s =>
        (s.pushRecord q.ctx cl (dStack i) tag (dLen i) fb (.vault a)).locWrite (.clu cl a) (s.locRead (dSrc i) (dLen i))
    | .hbm =>
      s.dmaRun cl q [(dSrc i, dLen i)] [(.hbm fb, dLen i)] fun s =>
        (s.pushRecord q.ctx cl (dStack i) tag (dLen i) fb .hbm).locWrite (.hbm fb) (s.locRead (dSrc i) (dLen i))

/-- The top record of a stack: TAG, length, and where its data stands; none when it is empty. -/
def State.topRecord (s : State) (c : CtxId) (cl : ClId) (i : Nat) : Option (W32 × Nat × Loc) :=
  ((s.ctx c.toNat).desc cl).bind fun d =>
    let x := s.clu cl.toNat
    let st := SMap.get {} (x.pc c.toNat).vault i
    if st.recs = 0 ∨ d.vaultStacks ≤ i then none
    else
      let t := d.trailer i (st.recs - 1)
      let n := Mem.readN x.mem (t + 4) 4
      some (Mem.read32 x.mem t, n,
        if (Mem.read x.mem (t + 8)).toNat = 0 then .clu cl (d.vaultData i + st.top - n) else .hbm (Mem.readN x.mem (t + 16) 8))

/-- Free the top record. -/
def State.popRecord (s : State) (c : CtxId) (cl : ClId) (i n : Nat) (inVault : Bool) : State :=
  s.modCl cl.toNat fun x => x.modPc c.toNat fun y =>
    { y with vault := SMap.upd {} y.vault i fun v => { top := if inVault then v.top - n else v.top, recs := v.recs - 1 } }

/-- VAULT_POP. -/
def execVaultPop (cl : ClId) (s : State) : Out :=
  match s.dmaHead cl 5 with
  | none => .next s
  | some q =>
    let i := q.img
    if !((s.ctx q.ctx.toNat).desc cl).any (fun d => d.vaultSize ≠ 0) then .next (s.dmaFault q 0x000C)
    else match s.topRecord q.ctx cl (dStack i) with
    | none => .next (s.dmaFault q 0x000D)
    | some (tag, n, l) =>
      if tag.toNat ≠ fld i 0x28 31 0 then .next (s.dmaFault q 0x000D)
      else
        let inVault := match l with
          | .clu .. => true
          | _ => false
        s.dmaRun cl q [(l, n)] [(dDst i, n)] fun s =>
          (s.locWrite (dDst i) (s.locRead l n)).popRecord q.ctx cl (dStack i) n inVault

/-! ### Teller pages (R174) -/

/-- A byte of an instruction memory. -/
def imemByte (m : SMap W64) (a : Nat) : Byte := BitVec.ofNat 8 ((SMap.get 0 m (a / 8)).toNat / 2 ^ (8 * (a % 8)))
def imemPutByte (m : SMap W64) (a : Nat) (b : Byte) : SMap W64 :=
  SMap.upd 0 m (a / 8) fun w =>
    BitVec.ofNat 64 (w.toNat - (imemByte m a).toNat * 2 ^ (8 * (a % 8)) + b.toNat * 2 ^ (8 * (a % 8)))

/-- The physical byte of byte `a` of a context's pages. -/
def pageByte (pages : List Nat) (a : Nat) : Nat := pages.getD (a / 4096) 0 * 4096 + a % 4096

/-- Write bytes into a context's logical pages. -/
def loadPages (m : SMap W64) (pages : List Nat) (a : Nat) (bs : List Byte) : SMap W64 :=
  bs.zipIdx.foldl (fun m v => imemPutByte m (pageByte pages (a + v.2)) v.1) m

/-- TELLER_LOAD: LENGTH bytes from the start of the named page; beyond the context's pages is BAD_KERNEL. -/
def execTellerLoad (cl : ClId) (h : HostStores) (s : State) : Out :=
  let s := s.hostStores h
  match s.dmaHead cl 6 with
  | none => .next s
  | some q =>
    let i := q.img
    let a := fld i 0x28 31 0 * 4096
    let pages := ((s.clu cl.toNat).pc q.ctx.toNat).tpages
    if 4096 * pages.length < a + dLen i then .next (s.dmaFault q 0x0007)
    else s.dmaRun cl q [(dSrc i, dLen i)] [] fun s =>
      let bs := s.locRead (dSrc i) (dLen i)
      s.modCl cl.toNat fun x => { x with imem := loadPages x.imem pages a bs }

end Sys2Proof.Machine
end

