-- ==== Sys2Proof/Machine/Vector.lean ====
section
/-! DEFINITION. The vector engine, the tile queue, the Tally and fused chains (R74 to R87). -/

namespace Sys2Proof.Machine
open Sys2Proof

/-! ### Instruction words (R80, Table VX.4) -/

structure VI where
  op : Nat
  vd : Nat
  va : Nat
  vb : Nat
  vc : Nat
  mask : Nat
  zero : Bool
  ty : Nat
  rnd : Bool
  acc : Bool
  resv : Nat
  off : Nat
  imm : W32

def VI.of (w : Nat) : VI where
  op := bits w 63 56
  vd := bits w 55 51
  va := bits w 50 46
  vb := bits w 45 41
  vc := bits w 40 36
  mask := bits w 35 33
  zero := bit w 32
  ty := bits w 31 28
  rnd := bit w 27
  acc := bit w 26
  resv := bits w 25 24
  off := bits w 23 0
  imm := BitVec.ofNat 32 w

/-- The operations of Table VX.2. -/
def vecOps : List Nat :=
  [0x01, 0x02, 0x03, 0x04, 0x05, 0x06, 0x07, 0x08, 0x09, 0x0A, 0x0B, 0x0C, 0x0D, 0x0E, 0x0F, 0x10, 0x11, 0x12,
    0x13, 0x14, 0x15, 0x18, 0x19, 0x1A, 0x1B, 0x1C, 0x20, 0x21, 0x22, 0x30, 0x31, 0x32, 0x33, 0x40]

/-- A word that faults BAD_OP: an unlisted OP, a reserved field, a reserved reduction, a TALLY to a summary
register outside a Teller's command, registers the file does not have (log 70), a TQPOP whose VD is no multiple of 4
(DESIGN CHOICE, log 94). ACC or RND in a word that does not use it is no fault (DESIGN CHOICE, log 110). -/
def VI.bad (i : VI) (issued : Bool) : Bool :=
  !vecOps.contains i.op
    || (i.op != 0x14 && (i.resv != 0 || i.ty == 7 || decide (9 < i.ty)))
    || (i.op == 0x22 && i.vd % 4 != 0)
    || (i.op == 0x40 && (decide (8 < i.vd) || (i.vd != 7 && decide (31 < i.va + i.vb)) || (i.rnd && !issued)))

/-- The word class of the lanes: INT32 under TYPE 9, else binary32 (log 70). -/
def VI.int (i : VI) : Bool := i.ty == 9

/-! ### VEC commands (R75, R80) -/

def vProg (i : Image) : Nat := fld i 0x10 15 0 * 128
def vCount (i : Image) : Nat := fld i 0x10 31 16
def vRepeat (i : Image) : Nat := fld i 0x18 15 0
def vStride (i : Image) : Nat := fld i 0x18 31 16
def vElem (i : Image) : Nat := fld i 0x20 47 0
/-- Byte address of an OFFSET in a repetition, and of its block scales. An OFFSET that is not a multiple of the
access's size is used as it is, and OFFSET moves the scale address by OFFSET/16 (DESIGN CHOICE, log 94). -/
def vAddr (i : Image) (rep off : Nat) : Nat := fld i 0x14 15 0 * 128 + rep * vStride i + off
def vScale (i : Image) (rep off : Nat) : Nat := fld i 0x14 31 16 * 128 + rep * vStride i / 16 + off / 16

/-- The instruction a running command stands at. -/
def vWord (x : Cluster) (q : QE) (r : VecRun) : VI := VI.of (Mem.readN x.mem (vProg q.img + 8 * r.pc) 8)

/-- Past an instruction: the next of the program, of the next repetition, or the end. -/
def VecRun.step (r : VecRun) (i : Image) : VecRun :=
  if r.pc + 1 < vCount i then { r with pc := r.pc + 1, waiting := false }
  else if r.rep + 1 < vRepeat i then { r with pc := 0, rep := r.rep + 1, waiting := false }
  else { r with waiting := false, done := true }

/-- Does the context own the bytes in the cluster? -/
def State.ownsIn (s : State) (c : CtxId) (cl : ClId) (a n : Nat) : Bool :=
  ((s.ctx c.toNat).desc cl).any fun d => d.owns a n

/-- The command an engine is to work on, where its cluster may step and its context is IN. -/
def State.vecHead (s : State) (cl : ClId) : Option (QE × Option VecRun) :=
  let x := s.clu cl.toNat
  match x.vq with
  | [] => none
  | q :: _ => if s.clOpen cl.toNat && s.isIn q.ctx.toNat then some (q, x.vrun) else none

/-- VEC: the registers are cleared and the program begins; a word outside Table VX.2 faults. -/
def execVec (cl : ClId) (s : State) : Out :=
  match s.vecHead cl with
  | none => .next s
  | some (q, none) =>
    if s.ownsIn q.ctx cl (vProg q.img) (8 * vCount q.img) then
      .next (s.modCl cl.toNat fun x => { x with vrun := some {}, v := [], k := [] })
    else .next (s.faultAt q (0x0003, vProg q.img) (clUnit q.img))
  | some (q, some r) =>
    if !r.done && (vWord (s.clu cl.toNat) q r).bad q.issued then .next (s.faultCmd q 0x0001 0 (clUnit q.img))
    else .next s

/-- Run the instruction at the head of the program if it is one of `ops`. -/
def State.vecRow (s : State) (cl : ClId) (ops : List Nat) (f : QE → VecRun → VI → State) : Out :=
  match s.vecHead cl with
  | some (q, some r) =>
    let i := vWord (s.clu cl.toNat) q r
    if r.done || !ops.contains i.op || i.bad q.issued then .next s else .next (f q r i)
  | _ => .next s

/-- The cluster after an instruction. -/
def State.vecSet (s : State) (cl : ClId) (q : QE) (r : VecRun) (f : Cluster → Cluster) : State :=
  s.modCl cl.toNat fun x => { f x with vrun := some (r.step q.img) }

/-! ### Lanes and masks (R74, R76) -/

def Cluster.lane (x : Cluster) (r j : Nat) : W32 := Words.get x.v (64 * r + j)
def Cluster.kreg (x : Cluster) (r : Nat) : W64 := SMap.get 0 x.k (r % 8)
def VI.active (i : VI) (x : Cluster) (j : Nat) : Bool := i.mask == 0 || bit (x.kreg i.mask).toNat j

/-- Write a register: active lanes take `f`, the others keep their value or become zero. -/
def Cluster.putLanes (x : Cluster) (i : VI) (vd : Nat) (f : Nat → W32) : Cluster :=
  let put (v : Words) (j : Nat) : Words :=
    if i.active x j then Words.set v (64 * vd + j) (f j) else if i.zero then Words.set v (64 * vd + j) 0 else v
  { x with v := (List.range 64).foldl put x.v }

/-- The number whose bit j is `f j`. -/
def mask64 (f : Nat → Bool) : W64 := BitVec.ofNat 64 ((List.range 64).foldl (fun w j => if f j then w + 2 ^ j else w) 0)

/-- Write a mask register bit by bit under the governing mask. -/
def Cluster.putMask (x : Cluster) (i : VI) (kd : Nat) (f : Nat → Bool) : Cluster :=
  let old := (x.kreg kd).toNat
  let w := mask64 fun j => if i.active x j then f j else if i.zero then false else bit old j
  { x with k := SMap.set 0 x.k (kd % 8) w }

/-! ### Arithmetic (R77 to R79) -/

/-- One lane of an operation of Table VX.2; FMA of integers wraps, and the quarter-rate operations read binary32 under
every TYPE (DESIGN CHOICE, log 94). The magnitude and the negative of the most negative integer are
no INT32: free values, draw `fr`. -/
def alu (op : Nat) (int : Bool) (fr : Nat) (a b c : W32) : W32 :=
  match op with
  | 0x01 => if int then a + b else fadd a b
  | 0x02 => if int then a - b else fsub a b
  | 0x03 => if int then a * b else fmul a b
  | 0x04 => if int then a * b + c else fma a b c
  | 0x05 => if int then (if b.slt a then b else a) else fmin a b
  | 0x06 => if int then (if a.slt b then b else a) else fmax a b
  | 0x07 => if int then (if a = 0x80000000#32 then Config.freeWord fr else if a.slt 0 then -a else a) else fabs a
  | 0x08 => if int then (if a = 0x80000000#32 then Config.freeWord fr else -a) else fneg a
  | 0x0E => a &&& b
  | 0x0F => a ||| b
  | 0x10 => a ^^^ b
  | 0x11 => a <<< (b.toNat % 32)
  | 0x12 => a >>> (b.toNat % 32)
  | 0x13 => if int then cvtFromInt a else cvtToInt a
  | 0x30 => fexp2 a
  | 0x31 => flog2 a
  | 0x32 => frcp a
  | 0x33 => frsqrt a
  | _ => a

/-- A compare of R78. -/
def vcmp (op : Nat) (int : Bool) (a b : W32) : Bool :=
  match op with
  | 0x09 => if int then a.slt b else flt a b
  | 0x0A => if int then a.sle b else fle a b
  | 0x0B => if int then a == b else feq a b
  | _ => if int then a != b else !feq a b

/-- An operation on lanes. -/
def State.vecAlu (s : State) (cl : ClId) (q : QE) (r : VecRun) (i : VI) : State :=
  let fr := s.free
  let s := if (i.op = 7 ∨ i.op = 8) ∧ i.int then { s with free := s.free + 64 } else s
  s.vecSet cl q r fun x => x.putLanes i i.vd fun j => alu i.op i.int (fr + j) (x.lane i.va j) (x.lane i.vb j) (x.lane i.vc j)

def execVAdd (cl : ClId) (s : State) : Out := s.vecRow cl [0x01] (s.vecAlu cl)
def execVSub (cl : ClId) (s : State) : Out := s.vecRow cl [0x02] (s.vecAlu cl)
def execVMul (cl : ClId) (s : State) : Out := s.vecRow cl [0x03] (s.vecAlu cl)
def execVFma (cl : ClId) (s : State) : Out := s.vecRow cl [0x04] (s.vecAlu cl)
def execVMin (cl : ClId) (s : State) : Out := s.vecRow cl [0x05] (s.vecAlu cl)
def execVMax (cl : ClId) (s : State) : Out := s.vecRow cl [0x06] (s.vecAlu cl)
def execVAbs (cl : ClId) (s : State) : Out := s.vecRow cl [0x07] (s.vecAlu cl)
def execVNeg (cl : ClId) (s : State) : Out := s.vecRow cl [0x08] (s.vecAlu cl)
def execVLogic (cl : ClId) (s : State) : Out := s.vecRow cl [0x0E, 0x0F, 0x10] (s.vecAlu cl)
def execVShift (cl : ClId) (s : State) : Out := s.vecRow cl [0x11, 0x12] (s.vecAlu cl)
/-- TYPE names what the lanes are read as: FP32 becomes INT32, INT32 becomes FP32 (log 70). -/
def execVCvt (cl : ClId) (s : State) : Out := s.vecRow cl [0x13] (s.vecAlu cl)
def execVExp2 (cl : ClId) (s : State) : Out := s.vecRow cl [0x30] (s.vecAlu cl)
def execVLog2 (cl : ClId) (s : State) : Out := s.vecRow cl [0x31] (s.vecAlu cl)
def execVRcp (cl : ClId) (s : State) : Out := s.vecRow cl [0x32] (s.vecAlu cl)
def execVRsqrt (cl : ClId) (s : State) : Out := s.vecRow cl [0x33] (s.vecAlu cl)

def execVCmp (cl : ClId) (s : State) : Out :=
  s.vecRow cl [0x09, 0x0A, 0x0B, 0x0C] fun q r i => s.vecSet cl q r fun x =>
    x.putMask i i.vd fun j => vcmp i.op i.int (x.lane i.va j) (x.lane i.vb j)

def execVSel (cl : ClId) (s : State) : Out :=
  s.vecRow cl [0x0D] fun q r i => s.vecSet cl q r fun x =>
    x.putLanes i i.vd fun j => if bit (x.kreg i.vc).toNat j then x.lane i.va j else x.lane i.vb j

def execVBcast (cl : ClId) (s : State) : Out :=
  s.vecRow cl [0x14] fun q r i => s.vecSet cl q r fun x => x.putLanes i i.vd fun _ => i.imm

/-- IDX gives the low 32 bits of the element's index (DESIGN CHOICE, log 94). -/
def execVIdx (cl : ClId) (s : State) : Out :=
  s.vecRow cl [0x15] fun q r i => s.vecSet cl q r fun x =>
    x.putLanes i i.vd fun j => BitVec.ofNat 32 (vElem q.img + 64 * r.rep + j)

/-- KAND, KOR, KNOT, per active lane. -/
def kop (op : Nat) (a b : Bool) : Bool := if op = 0x18 then a && b else if op = 0x19 then a || b else !a
def execVMaskOp (cl : ClId) (s : State) : Out :=
  s.vecRow cl [0x18, 0x19, 0x1A] fun q r i => s.vecSet cl q r fun x =>
    let a := (x.kreg i.va).toNat
    let b := (x.kreg i.vb).toNat
    x.putMask i i.vd fun j => kop i.op (bit a j) (bit b j)

/-! ### Memory (R81) -/

/-- KLD: MASK and ZERO are not applied. -/
def execVKld (cl : ClId) (s : State) : Out :=
  s.vecRow cl [0x1B] fun q r i =>
    let a := vAddr q.img r.rep i.off
    if s.ownsIn q.ctx cl a 8 then
      s.vecSet cl q r fun x => { x with k := SMap.set 0 x.k (i.vd % 8) (Mem.read64 x.mem a) }
    else s.faultCmd q 0x0003 (BitVec.ofNat 64 a) (clUnit q.img)

def execVKst (cl : ClId) (s : State) : Out :=
  s.vecRow cl [0x1C] fun q r i =>
    let a := vAddr q.img r.rep i.off
    if s.ownsIn q.ctx cl a 8 then
      s.vecSet cl q r fun x => { x with mem := Mem.writeN x.mem a 8 (x.kreg i.va).toNat }
    else s.faultCmd q 0x0003 (BitVec.ofNat 64 a) (clUnit q.img)

/-- The ranges of a 64-element access, inactive lanes' bytes too (DESIGN CHOICE, log 94), lie in the context's region. -/
def State.vecOwns (s : State) (q : QE) (cl : ClId) (ty a sc : Nat) : Bool :=
  s.ownsIn q.ctx cl a (elemBytes ty 64) && (ty != 4 || s.ownsIn q.ctx cl sc 2)

/-- The first of the two ranges that does not. -/
def State.vecBad (s : State) (q : QE) (cl : ClId) (ty a sc : Nat) : Nat := if s.ownsIn q.ctx cl a (elemBytes ty 64) then sc else a

/-- Element j of a load, exactly expanded, an integer to binary32 (DESIGN CHOICE, log 94). -/
def Cluster.loadLane (x : Cluster) (ty a sc j : Nat) : W32 :=
  if 7 < ty then Mem.read32 x.mem (a + 4 * j)
  else expand32 ty (codeAt x.mem ty a j) (if ty = 4 then (Mem.read x.mem (sc + j / 32)).toNat else 127)

def execVLd (cl : ClId) (s : State) : Out :=
  s.vecRow cl [0x20] fun q r i =>
    let a := vAddr q.img r.rep i.off
    let sc := vScale q.img r.rep i.off
    if s.vecOwns q cl i.ty a sc then
      s.vecSet cl q r fun x => x.putLanes i i.vd fun j => x.loadLane i.ty a sc j
    else s.faultAt q (0x0003, s.vecBad q cl i.ty a sc) (clUnit q.img)

/-- The rounding of lane j of a store: the element's position is counted from the command's base (log 70). -/
def vRnd (i : VI) (q : QE) (seed : W64) (rep j : Nat) : Rnd :=
  let pos := (rep * vStride q.img + i.off) * 8 / elemBits i.ty + j
  rndOf i.rnd seed (cTensor q.img) (cStep q.img) (vElem q.img + pos)

/-- The active lanes of a half: an MX block is formed of them. -/
def Cluster.blockLanes (x : Cluster) (i : VI) (h : Nat) : List Nat :=
  ((List.range 32).map (32 * h + ·)).filter (i.active x)

/-- The block of a half. -/
def Cluster.block (x : Cluster) (i : VI) (q : QE) (seed : W64) (rep h : Nat) : MxBlock :=
  let l := x.blockLanes i h
  mxEncode (fun n => vRnd i q seed rep (l.getD n 0)) (l.map (x.lane i.va))

/-- The converted lanes of a store in format 0 to 6, as (lane, conversion). -/
def Cluster.storeConv (x : Cluster) (i : VI) (q : QE) (seed : W64) (rep : Nat) : List (Nat × Conv) :=
  if i.ty = 4 then
    ([0, 1].map fun h => (x.blockLanes i h).zip (x.block i q seed rep h).elems).flatten
  else ((List.range 64).filter (i.active x)).map fun j => (j, convert i.ty (vRnd i q seed rep j) (x.lane i.va j) 0)

/-- The code a store leaves in element j. -/
def Cluster.storeCode (x : Cluster) (i : VI) (vs : List (Nat × Conv)) (a j : Nat) : Nat :=
  if i.active x j then
    (if 7 < i.ty then (x.lane i.va j).toNat else ((vs.find? (·.1 = j)).map (·.2.code)).getD 0)
  else if i.zero then 0
  else codeAt x.mem (if 7 < i.ty then 8 else i.ty) a j

/-- Cluster memory after a store. An FP4 block's scale comes from the active lanes alone; inactive elements that are merged
keep their codes under it, and under ZERO a scale is written though no lane is active (DESIGN CHOICE, log 94). -/
def Cluster.stored (x : Cluster) (i : VI) (q : QE) (seed : W64) (rep a sc : Nat) : Mem :=
  let vs := if 7 < i.ty then [] else x.storeConv i q seed rep
  let m := Mem.writeBytes x.mem a (packCodes (if 7 < i.ty then 8 else i.ty) ((List.range 64).map (x.storeCode i vs a)))
  if i.ty = 4 then
    [0, 1].foldl (fun m h =>
      if (x.blockLanes i h).isEmpty && !i.zero then m
      else Mem.write m (sc + h) (BitVec.ofNat 8 (x.block i q seed rep h).scale)) m
  else m

/-- What a store reports to the Census: elements, and block scales. -/
def Cluster.storeTally (x : Cluster) (i : VI) (q : QE) (seed : W64) (rep : Nat) : Tally4 × Tally4 :=
  if 7 < i.ty then ({}, {})
  else if i.ty = 4 then
    let bs := ([0, 1].filter fun h => !(x.blockLanes i h).isEmpty).map (x.block i q seed rep)
    (tallySum (bs.map (·.elemTally)), tallySum (bs.map (·.scaleTally)))
  else (tallyOf ((x.storeConv i q seed rep).map (·.2)), {})

def execVSt (cl : ClId) (s : State) : Out :=
  s.vecRow cl [0x21] fun q r i =>
    let a := vAddr q.img r.rep i.off
    let sc := vScale q.img r.rep i.off
    let seed := (s.nums q.ctx.toNat).seed
    if s.vecOwns q cl i.ty a sc then
      let t := (s.clu cl.toNat).storeTally i q seed r.rep
      let s := s.vecSet cl q r fun x => { x with mem := x.stored i q seed r.rep a sc }
      (s.countFor q i.ty t.1).countFor q 7 t.2
    else s.faultAt q (0x0003, s.vecBad q cl i.ty a sc) (clUnit q.img)

/-! ### The tile queue (R82, Table VX.5) -/

/-- TILE_QUEUE_ACCEPT: an entry is free (R82), and the queue holds no other context's tile (DESIGN CHOICE, log 110). -/
def execTileQueueAccept (cl : ClId) (k : Nat) (s : State) : Out :=
  let y := s.clu cl.toNat
  match y.mq[k]? with
  | none => .next s
  | some r =>
    let x := Mx.of r.q.img
    match r.offers with
    | [] => .next s
    | o :: _ =>
      if x.dest = 1 ∧ s.isIn r.q.ctx.toNat ∧ y.tileq.length < 16 ∧ y.tileq.all (·.ctx = r.q.ctx) then
        let t : QTile := { ctx := r.q.ctx, fmt := x.outFmt, codes := o.codes, scales := o.scales }
        .next ((s.modCl cl.toNat fun y => { y with tileq := y.tileq ++ [t] }).mxAck cl.toNat k r 1)
      else .next s

/-- Element (row, column) of a queued tile. -/
def QTile.elem (t : QTile) (r c : Nat) : W32 := expand32 t.fmt (Words.get t.codes (16 * r + c)).toNat (t.scales.getD r 127)

/-- TQPOP: waits on an empty queue. Before a head tile of another context it leaves the state as it is, in no wait (DESIGN
CHOICE, log 94). -/
def execVTqpop (cl : ClId) (s : State) : Out :=
  s.vecRow cl [0x22] fun q r i =>
    match (s.clu cl.toNat).tileq with
    | [] => s.modCl cl.toNat fun x =>
        { x with vrun := some { r with waiting := true, since := if r.waiting then r.since else s.sched.clock } }
    | t :: l =>
      if t.ctx = q.ctx then
        s.vecSet cl q r fun x =>
          let x := { x with tileq := l }
          (List.range 4).foldl (fun x g => x.putLanes i (i.vd + g) fun j => t.elem (4 * g + j / 16) (j % 16)) x
      else s

/-! ### The Tally (R85 to R87, Table VX.8) -/

/-- Order of the Tally's maxima and minima: −0 below +0 (DESIGN CHOICE, log 110), NaN nowhere. -/
def fbelow (a b : W32) : Bool := flt a b || (feq a b && bit a.toNat 31 && !bit b.toNat 31)

/-- The first extreme of (index, value) pairs under `lt` (a before b is better when `lt b a`). -/
def extreme (lt : W32 → W32 → Bool) (l : List (Nat × W32)) : Option (Nat × W32) :=
  l.foldl (fun b p => match b with
    | none => some p
    | some q => if lt q.2 p.2 then some p else b) none

/-- Six levels of pairwise additions over 64 lane totals. -/
def laneTree (l : List W32) : W32 := (pairUp (pairUp (pairUp (pairUp (pairUp (pairUp l)))))).headD 0

/-- The total of one lane over its active registers, ascending: it starts from the first of them, and a lane without one
enters the tree as +0 (DESIGN CHOICE, log 94). -/
def laneTotal (l : List W32) : W32 :=
  match l with
  | [] => 0
  | a :: t => t.foldl fadd a

/-- A reduction of `n` registers `f` under the active lanes of each: (VALUE, AUX). `eb` is the element base.
MAX_F and MIN_F ignore NaN; where every active element is NaN they give what no active element gives, and NONFINITE of
elements that are all finite gives AUX 0xFFFFFFFF. AUX keeps the low 32 bits of an index over the 48-bit element base
(DESIGN CHOICE, log 94). -/
def tallyRun (code n : Nat) (f : Nat → Nat → W32) (act : Nat → Nat → Bool) (kbits eb : Nat) : W32 × W32 :=
  let es : List (Nat × W32) := ((List.range n).map fun r =>
    ((List.range 64).filter (act r)).map fun j => (eb + 64 * r + j, f r j)).flatten
  let cnt : W32 := BitVec.ofNat 32 es.length
  let pick (d : W32) (o : Option (Nat × W32)) : W32 × W32 :=
    match o with
    | none => (d, 0xFFFFFFFF#32)
    | some p => (p.2, BitVec.ofNat 32 p.1)
  let real := es.filter fun p => !isNan p.2
  match code with
  | 0 => (laneTree ((List.range 64).map fun j =>
      laneTotal (((List.range n).filter fun r => act r j).map fun r => f r j)), cnt)
  | 1 => (es.foldl (fun t p => t + p.2) 0, cnt)
  | 2 => pick ninf (extreme fbelow real)
  | 3 => pick pinf (extreme (fun a b => fbelow b a) real)
  | 4 => (amaxOf (es.map Prod.snd), BitVec.ofNat 32 (es.filter fun p => !isFinite p.2).length)
  | 5 => pick 0x80000000#32 (extreme (fun a b => a.slt b) es)
  | 6 => pick 0x7FFFFFFF#32 (extreme (fun a b => b.slt a) es)
  | 7 => (BitVec.ofNat 32 ((List.range 64).filter fun j => act 0 j && bit kbits j).length, 0)
  | _ =>
    let nf := es.filter fun p => !isFinite p.2
    (BitVec.ofNat 32 nf.length, ((nf.head?).map fun p => BitVec.ofNat 32 p.1).getD 0xFFFFFFFF#32)

/-- ACC: a result combined with the destination's content (R86, R87). How AUX combines is the model's choice
(DESIGN CHOICE, log 94): counts add, POPCNT keeps the old one, an index goes with the value that is kept, and
NONFINITE keeps the earlier index where the earlier count is not 0. -/
def tallyAcc (code : Nat) (old new : W32 × W32) : W32 × W32 :=
  match code with
  | 0 => (fadd new.1 old.1, old.2 + new.2)
  | 1 => (old.1 + new.1, old.2 + new.2)
  | 2 => if isNan old.1 || fbelow old.1 new.1 then new else old
  | 3 => if isNan old.1 || fbelow new.1 old.1 then new else old
  | 4 => (fmax old.1 new.1, old.2 + new.2)
  | 5 => if old.1.slt new.1 then new else old
  | 6 => if new.1.slt old.1 then new else old
  | 7 => (old.1 + new.1, old.2)
  | _ => (old.1 + new.1, if old.1 = 0 then new.2 else old.2)

/-- TALLY: the reduction reads its registers now; its result is written later. -/
def execVTally (cl : ClId) (s : State) : Out :=
  s.vecRow cl [0x40] fun q r i =>
    let a := vAddr q.img r.rep i.off
    if i.rnd || s.ownsIn q.ctx cl a 8 then
      s.vecSet cl q r fun x =>
        let v := tallyRun i.vd (i.vb + 1) (fun g j => x.lane (i.va + g) j) (fun _ => i.active x) (x.kreg i.va).toNat (vElem q.img)
        let job : TallyJob := { ctx := q.ctx, seq := q.seq, code := i.vd, value := v.1, aux := v.2, toq := i.rnd
                                accum := i.acc, dest := if i.rnd then i.vc % 8 else a }
        { x with tally := x.tally ++ [job] }
    else s.faultCmd q 0x0003 (BitVec.ofNat 64 a) (clUnit q.img)

/-- A summary register after a Tally write. -/
def Summary.written (m : Summary) (j : TallyJob) : Summary :=
  let v := if j.accum then tallyAcc j.code (m.value, m.aux) (j.value, j.aux) else (j.value, j.aux)
  { value := v.1, aux := v.2, valid := true, ovr := m.ovr || m.valid }

/-- The cluster after a result is written. -/
def Cluster.tallied (x : Cluster) (j : TallyJob) : Cluster :=
  if j.toq then x.modPc j.ctx.toNat fun y => { y with q := SMap.upd {} y.q j.dest fun m => m.written j }
  else
    let old := (Mem.read32 x.mem j.dest, Mem.read32 x.mem (j.dest + 4))
    let v := if j.accum then tallyAcc j.code old (j.value, j.aux) else (j.value, j.aux)
    { x with mem := Mem.writeN (Mem.writeN x.mem j.dest 4 v.1.toNat) (j.dest + 4) 4 v.2.toNat }

/-- TALLY_RESULT_WRITE: the oldest reduction. -/
def execTallyResultWrite (cl : ClId) (s : State) : Out :=
  match (s.clu cl.toNat).tally with
  | [] => .next s
  | j :: l =>
    if s.isIn j.ctx.toNat then .next (s.modCl cl.toNat fun x => ({ x with tally := l }).tallied j) else .next s

/-! ### Fused chains (R84, Table VX.7) -/

/-- The stage operations: the full-rate ones but SEL, TQPOP and the operations on mask registers. LD stands
for taking an element of a read stream, ST for giving one to the write stream (log 94). -/
def chainOps : List Nat :=
  [0x01, 0x02, 0x03, 0x04, 0x05, 0x06, 0x07, 0x08, 0x09, 0x0A, 0x0B, 0x0C, 0x0E, 0x0F, 0x10, 0x11, 0x12, 0x13, 0x14,
    0x15, 0x20, 0x21]
/-- Is the stage a compare? -/
def chainCmp (g : ChainStage) : Bool := decide (9 ≤ g.op.toNat) && decide (g.op.toNat ≤ 0xC)

/-- Bytes of an addressable space; the boot-only spaces have none at other times. -/
def chainSize (boot : Bool) (cl : ClId) : ChainSpace → Nat
  | .mem => 6 * 2 ^ 20
  | .till => if boot then 514 * 1024 else 0
  | .teller => if boot then 65536 else 0
  | .escrow => if boot && decide (cl.toNat % 256 < 128) then 2 ^ 20 else 0

/-- The limits of Table VX.7. -/
def chainFits (c : Chain) (boot : Bool) (cl : ClId) : Bool :=
  decide (1 ≤ c.stages.length) && decide (c.stages.length ≤ 8) && c.stages.all (fun g => chainOps.contains g.op.toNat)
    && decide (c.reads.length ≤ 2)
    && c.reads.all (fun r => decide (r.2.1 + c.count * (if r.2.2 then 2 else 4) ≤ chainSize boot cl r.1))
    && c.write.all (fun w => decide (w.2 + 4 * c.count ≤ chainSize boot cl w.1))
    && c.tally.all (fun t => decide (t.toNat ≤ 8))

/-- Byte `a` of a cluster's Till as R69 lays it out: entries, then tags. -/
def tillWord (t : SMap TillE) (a : Nat) : W32 :=
  if a < 512 * 1024 then Words.get (SMap.get {} t (a / 1024)).words (a % 1024 / 4)
  else BitVec.ofNat 32 (Mx.tagOf (SMap.get {} t ((a - 512 * 1024) / 4)))
def tillPut (t : SMap TillE) (a : Nat) (v : W32) : SMap TillE :=
  if a < 512 * 1024 then SMap.upd {} t (a / 1024) fun e => { e with words := Words.set e.words (a % 1024 / 4) v }
  else SMap.upd {} t ((a - 512 * 1024) / 4) fun e => Mx.tagTo e v.toNat

/-- A word of a 64-bit word memory. -/
def imemWord (m : SMap W64) (a : Nat) : W32 := BitVec.ofNat 32 ((SMap.get 0 m (a / 8)).toNat / 2 ^ (8 * (a % 8)))
def imemPut (m : SMap W64) (a : Nat) (v : W32) : SMap W64 :=
  SMap.upd 0 m (a / 8) fun w =>
    if a % 8 < 4 then BitVec.ofNat 64 (w.toNat / 2 ^ 32 * 2 ^ 32 + v.toNat) else BitVec.ofNat 64 (w.toNat % 2 ^ 32 + v.toNat * 2 ^ 32)

/-- Where a logical cluster's share of its die's Escrow bank starts. -/
def escrowShare (cl : ClId) : Nat := cl.toNat % 256 * 2 ^ 20

def State.chainRead (s : State) (cl : ClId) (sp : ChainSpace) (a : Nat) : W32 :=
  let x := s.clu cl.toNat
  match sp with
  | .mem => Mem.read32 x.mem a
  | .till => tillWord x.till a
  | .teller => imemWord x.imem a
  | .escrow => Mem.read32 (s.tdie (cl.toNat / 256)).raw (escrowShare cl + a)

def State.chainWrite (s : State) (cl : ClId) (sp : ChainSpace) (a : Nat) (v : W32) : State :=
  match sp with
  | .mem => s.modCl cl.toNat fun x => { x with mem := Mem.writeN x.mem a 4 v.toNat }
  | .till => s.modCl cl.toNat fun x => { x with till := tillPut x.till a v }
  | .teller => s.modCl cl.toNat fun x => { x with imem := imemPut x.imem a v }
  | .escrow => s.modTd (cl.toNat / 256) fun t => { t with raw := Mem.writeN t.raw (escrowShare cl + a) 4 v.toNat }

/-- Element e of a read stream. -/
def State.chainIn (s : State) (cl : ClId) (e : Nat) (r : ChainSpace × Nat × Bool) : W32 :=
  if r.2.2 then
    let a := r.2.1 + 2 * e
    let w := s.chainRead cl r.1 (a / 4 * 4)
    Config.chain16 (BitVec.ofNat 16 (w.toNat / 2 ^ (8 * (a % 4))))
  else s.chainRead cl r.1 (r.2.1 + 4 * e)

/-- An operand of a stage: a register holds what the cluster's last VEC command left, as a chain clears none (DESIGN
CHOICE, log 110). -/
def chainArg (x : Cluster) (e : Nat) (ins : List W32) (prev : W32) : ChainArg → W32
  | .prev => prev
  | .reg r => x.lane r.toNat (e % 64)
  | .imm v => v
  | .idx => BitVec.ofNat 32 e
  | .stream n => ins.getD n.val 0

/-- What the stages of one element leave: the last result, the word for the write stream, mask bits. -/
structure ChainRes where
  val : W32
  out : Option W32
  ks : List (BitVec 3 × Bool)

/-- One stage. A compare writes its mask register; the word it would forward is not stated: a free value. -/
def chainStep (x : Cluster) (fr e : Nat) (ins : List W32) (p : ChainRes) (g : ChainStage × Nat) : ChainRes :=
  let v (a : ChainArg) : W32 := chainArg x e ins p.val a
  if g.1.op = 0x15 then { p with val := BitVec.ofNat 32 e }
  else if chainCmp g.1 then
    { p with val := Config.freeWord (fr + g.2), ks := p.ks ++ [(g.1.kd, vcmp g.1.op.toNat g.1.intTy (v g.1.a) (v g.1.b))] }
  else if g.1.op = 0x21 then { p with val := v g.1.a, out := some (v g.1.a) }
  else { p with val := alu g.1.op.toNat g.1.intTy (fr + g.2) (v g.1.a) (v g.1.b) (v g.1.c) }

/-- The stages for element e. -/
def chainVal (c : Chain) (x : Cluster) (fr e : Nat) (ins : List W32) : ChainRes :=
  c.stages.zipIdx.foldl (chainStep x fr e ins) { val := 0, out := none, ks := [] }

/-- Bit j of a mask register. -/
def Cluster.putBit (x : Cluster) (j : Nat) (b : BitVec 3 × Bool) : Cluster :=
  let old := (x.kreg b.1.toNat).toNat
  { x with k := SMap.set 0 x.k b.1.toNat (mask64 fun i => if i = j then b.2 else bit old i) }

/-- One element: read, computed, written; compares set its lane's mask bits. -/
def State.chainElem (s : State) (cl : ClId) (c : Chain) (e : Nat) : W32 × State :=
  let r := chainVal c (s.clu cl.toNat) (s.free + 8 * e) e (c.reads.map (s.chainIn cl e))
  let s := if r.ks.isEmpty then s else s.modCl cl.toNat fun x => r.ks.foldl (fun x b => x.putBit (e % 64) b) x
  match c.write with
  | some w => (r.val, s.chainWrite cl w.1 (w.2 + 4 * e) (r.out.getD r.val))
  | none => (r.val, s)

/-- The elements in order. -/
def State.chainAll (s : State) (cl : ClId) (c : Chain) : List W32 × State :=
  (List.range c.count).foldl (fun (a : List W32 × State) e =>
    let r := a.2.chainElem cl c e
    (a.1 ++ [r.1], r.2)) ([], s)

/-- The final reduction of a chain's values, 64 to a register: POPCNT reads k0, an index counts from element 0,
as IDX does, and the result joins the cluster's list of firmware results (DESIGN CHOICE, log 94). -/
def chainTally (code : Nat) (x : Cluster) (vs : List W32) : W32 × W32 :=
  tallyRun code ((vs.length + 63) / 64) (fun r j => vs.getD (64 * r + j) 0) (fun r j => decide (64 * r + j < vs.length))
    (x.kreg 0).toNat 0

/-- FUSED_CHAIN: accepted only in SERVICE state, while nothing closes issue on the die (R247), or while boot
initialises the SRAM (STAGE 4). -/
def execFusedChain (cl : ClId) (c : Chain) (s : State) : Out :=
  let boot := s.boot.stage == 4
  if !(((s.clu cl.toNat).service && s.issueOpen (cl.toNat / 256)) || boot) || !chainFits c boot cl || !decide (cl.toNat % 256 < 150) then .next s
  else
    let r := s.chainAll cl c
    let s := { r.2 with free := r.2.free + 8 * c.count }
    match c.tally with
    | some t => .next (s.modCl cl.toNat fun x => { x with fused := x.fused ++ [chainTally t.toNat x r.1] })
    | none => .next s

end Sys2Proof.Machine
end

