-- ==== Sys2Proof/Machine/Checks.lean ====
section
/-! DEFINITION. What a command's own fields show to be a fault before it runs (R181): reserved values and addresses outside
the context's owned regions. -/

namespace Sys2Proof.Machine
open Sys2Proof

/-- A reserved value of a MATMUL whose table names BAD_FORMAT (Tables MX.1, MX.5, MX.7, MX.9, CS.6). -/
def formatReserved (i : Image) : Bool :=
  let x := Mx.of i
  cClass i == 1 && (decide (6 < x.fa) || decide (6 < x.fb) || decide (5 < x.init) || decide (4 < x.drain) || x.ss == 3 || x.act == 7)

/-- A place of a DMA command in cluster memory. -/
def Loc.range (l : Loc) (n : Nat) : List (ClId × Nat × Nat) :=
  match l with
  | .clu c o => [(c, o, n)]
  | _ => []

/-- Cluster memory that a DMA command's own fields give: the length of PLANE data and of a popped record is a run's. -/
def dmaRanges (i : Image) : List (ClId × Nat × Nat) :=
  let n := dLen i
  let enc := if dEnc i = 2 then 256 * spillBlocks i else elemBytes (dFmt i) (256 * spillBlocks i)
  let far := (if dEnc i = 1 then [] else [enc])
  let aux := (auxOf i (if dEnc i = 1 then 2 * spillBlocks i else spillBlocks i)).flatMap fun a => a.1.range a.2
  match dMode i with
  | 0 => (dSrc i).range n ++ (if bit (fld i 0x28 31 0) 12 then [] else (dDst i).range n)
  | 1 =>
    let m := elemBytes (dFmt i) (fld i 0x28 15 0 * fld i 0x28 31 16)
    (dSrc i).range m ++ (dDst i).range m
  | 2 => (dSrc i).range n ++ (far.flatMap fun m => (dDst i).range m) ++ aux
  | 3 => aux ++ (far.flatMap fun m => (dSrc i).range m) ++ (dDst i).range n
  | 4 | 6 => (dSrc i).range n
  | _ => []

/-- Cluster memory that a command's own fields give (R181): cluster, first byte, length. What only a run gives, a vector
instruction's or a Teller's address, PLANE data or a popped record, is checked at its access (DESIGN CHOICE, log 113). -/
def State.cmdRanges (s : State) (q : QE) : List (ClId × Nat × Nat) :=
  let i := q.img
  let cl := cCluster i
  match cClass i with
  | 1 => (((Mx.of i).reads (s.mxEnts q)) ++ (Mx.of i).writes (s.mxEnts q)).map fun r => (cl, r.1, r.2)
  | 2 => [(cl, vProg i, 8 * vCount i)]
  | 4 => dmaRanges i
  | 5 =>
    if fld i 0x10 3 0 = 2 then
      [(cl, fld i 0x2C 15 0 * 128, 4 * fld i 0x1C 16 0), (cl, fld i 0x2C 31 16 * 128, 8 * fld i 0x1C 16 0)]
    else []
  | 7 => ((ovfWord i).map fun w => (w.1, w.2, 4)).toList
  | 9 => [(cl, fld i 0x10 15 0 * 128, 128)]
  | _ => []

/-- The address of a command that its context does not own: a Till entry outside the window (R173), or the first byte of
a range outside the owned region. A cluster that the context does not have is no address (R31). -/
def State.ownFault (s : State) (q : QE) : Option Nat :=
  let x := Mx.of q.img
  let desc (cl : ClId) : Option CluDesc := (s.ctx q.ctx.toNat).desc cl
  if cClass q.img == 1 && !s.legacy q && (desc (cCluster q.img)).any (fun d => !d.hasEntries x.ebase x.nent) then some x.ebase
  else ((s.cmdRanges q).find? fun r => r.2.2 != 0 && (desc r.1).any fun d => !d.owns r.2.1 r.2.2).map fun r => r.2.1

/-- The format of a MATMUL as its dispatch finds it (R59, R63, R64, Table NU.9). -/
def State.mxFormat (s : State) (q : QE) : Option U16 :=
  if cClass q.img = 1 then
    match (Mx.of q.img).formatFault with
    | some f => some f
    | none => if s.legacy q then (Mx.of q.img).legacyFault else none
  else none

/-- What acceptance finds in a command beside BAD_OP: a reserved value that faults BAD_FORMAT, or an address. -/
def State.acceptFault (s : State) (q : QE) : Option (U16 × Nat) :=
  if formatReserved q.img then some (0x0002, 0) else (s.ownFault q).map fun a => (0x0003, a)

/-- What dispatch finds beside the faults of the units it names: a MATMUL's format, or an address. -/
def State.fieldFault (s : State) (q : QE) : Option (U16 × Nat) :=
  match s.mxFormat q with
  | some f => some (f, 0)
  | none => (s.ownFault q).map fun a => (0x0003, a)

end Sys2Proof.Machine
end

