-- ==== Sys2Proof/Machine/Touch.lean ====
section
/-! DEFINITION. Touchstone's rows: the TOUCH operations (R115), and the acceptance of segment groups in the
teacher pass, pass S and pass B (R93, R97, R98, R101 to R113). -/

namespace Sys2Proof.Machine
open Sys2Proof

/-! ### TOUCH operations (R115, Tables TS.6, CS.8) -/

def touchOp (i : Image) : Nat := fld i 0x10 3 0

/-- The oldest TOUCH command on a die that carries the operation and comes next in its context's order. -/
def State.touchHead (s : State) (d op : Nat) : Option QE :=
  let l := (s.tdie d).tq.filter fun q => s.isIn q.ctx.toNat
  l.find? fun q => touchOp q.img == op && l.find? (fun e => e.ctx == q.ctx) == some q

/-- The operation is in force and its command complete. -/
def State.touchEnd (s : State) (d : Nat) (q : QE) (f : Part → Part) : State :=
  ((s.modPart d q.ctx.toNat f).modTd d fun t => { t with tq := t.tq.filter (· ≠ q) }).complete q 0 d 0

/-- The shadow of a target, if the producing die keeps one. -/
def Part.shadowOf (p : Part) (dev : DevId) (die : BitVec 3) (c : CtxId) : Option Shadow :=
  p.shadow.find? fun h => h.dev = dev && h.die = die && h.ctx = c

/-- Note that the target has been asked; a target named for the first time gets a shadow without a value. -/
def Part.ask (p : Part) (dev : DevId) (die : BitVec 3) (c : CtxId) : Part :=
  match p.shadowOf dev die c with
  | none => { p with shadow := p.shadow ++ [{ dev := dev, die := die, ctx := c, c := none, slots := 0, segs := 0, mode := 0, k := 0, asked := true }] }
  | some _ => { p with shadow := p.shadow.map fun h => if h.dev = dev ∧ h.die = die ∧ h.ctx = c then { h with asked := true } else h }

/-- Send a CREDIT_REQUEST to a TEACHER operation's target unless its shadow has a value or one is out (R98). -/
def State.askCredit (s : State) (d : Nat) (c : CtxId) (o : TeacherOp) (cmd : W32) : State :=
  let dev := s.remapped o.dev
  let settled := match (s.prt d c.toNat).shadowOf dev o.die o.ctx with
    | some h => h.c.isSome || h.asked
    | none => false
  if settled then s
  else
    let s := s.modPart d c.toNat fun p => p.ask dev o.die o.ctx
    s.send (s.mkPkt 11 1 o.dev c o.ctx 0 (BitVec.ofNat 64 (o.die.toNat * 2 ^ 32)) 0 []) cmd

def teacherOf (i : Image) : TeacherOp :=
  { dev := BitVec.ofNat 12 (fld i 0x14 11 0), die := BitVec.ofNat 3 (fld i 0x14 14 12)
    ctx := BitVec.ofNat 12 (fld i 0x14 27 16), t := w32 i 0x18, count := fld i 0x1C 16 0, invTau := w32 i 0x20 }
def studentOf (i : Image) : StudentOp :=
  { t := w32 i 0x18, count := fld i 0x1C 16 0, invTau := w32 i 0x20, wSoft := w32 i 0x24, wHard := w32 i 0x28
    cl := cCluster i, label := fld i 0x2C 15 0 * 128, loss := fld i 0x2C 31 16 * 128, noGrad := bit (fld i 0x10 31 0) 4 }
/-- The GRADIENT operation under loss-scale exponent `e`: G = GRAD_SCALE · 2^E (R104). -/
def gradOf (i : Image) (e : Byte) : GradOp :=
  { t := w32 i 0x18, count := fld i 0x1C 16 0, g := fmul (w32 i 0x20) (pow2 e.toInt)
    rnd := bit (fld i 0x10 31 0) 5, tid := cTensor i, step := cStep i, elemBase := fld i 0x30 47 0
    ring := fld i 0x2C 15 0, slots := fld i 0x2C 31 16 }

/-- The TEACHER operation of a command: a target on the issuing device is the context's own partition, and the context field
is not read (R98). -/
def State.teacherOp (s : State) (q : QE) : TeacherOp :=
  let o := teacherOf q.img
  if o.dev = s.devId then { o with ctx := q.ctx } else o

/-- TEACHER. -/
def execTeacher (d : Die) (s : State) : Out :=
  match s.touchHead d.val 1 with
  | none => .next s
  | some q =>
    let o := s.teacherOp q
    let s := s.touchEnd d.val q fun p => { p with teacher := p.teacher ++ [(q.seq, o)] }
    .next (if o.dev = s.devId then s else s.askCredit d.val q.ctx o q.seq)

/-- The LABEL and LOSS vectors lie in the context's region of the named cluster (R115). -/
def State.vectorsOk (s : State) (c : CtxId) (o : StudentOp) : Bool :=
  decide (o.cl.toNat % 256 < 150) && ((s.ctx c.toNat).desc o.cl).any fun d => d.owns o.label (4 * o.count) && d.owns o.loss (8 * o.count)

/-- The first of the two vectors that does not. -/
def State.vectorBad (s : State) (c : CtxId) (o : StudentOp) : Nat :=
  if ((s.ctx c.toNat).desc o.cl).any (·.owns o.label (4 * o.count)) then o.loss else o.label

/-- STUDENT. -/
def execStudent (d : Die) (s : State) : Out :=
  match s.touchHead d.val 2 with
  | none => .next s
  | some q =>
    let o := studentOf q.img
    if s.vectorsOk q.ctx o then .next (s.touchEnd d.val q fun p => { p with student := p.student ++ [(q.seq, o)] })
    else .next (s.faultAt q (0x0003, s.vectorBad q.ctx o) (clUnit q.img))

/-- GRADIENT: waits for the loss scale of its step (R134). -/
def execGradient (d : Die) (s : State) : Out :=
  match s.touchHead d.val 3 with
  | none => .next s
  | some q =>
    match (s.nums q.ctx.toNat).eAt (cStep q.img) with
    | .val e => .next (s.touchEnd d.val q fun p => { p with grad := p.grad ++ [(q.seq, gradOf q.img e)] })
    | .wait => .next s
    | .skew => .next (s.faultCmd q 0x000E)

/-- FEATURE_LOSS. -/
def execFeatureLoss (d : Die) (s : State) : Out :=
  match s.touchHead d.val 4 with
  | none => .next s
  | some q =>
    let o : FeatOp := { cos := bit (fld q.img 0x10 31 0) 6, w := w32 q.img 0x20 }
    .next (s.touchEnd d.val q fun p => { p with feat := p.feat ++ [(q.seq, o)] })

/-- RESET_STATS (R112). -/
def execResetStats (d : Die) (s : State) : Out :=
  match s.touchHead d.val 5 with
  | none => .next s
  | some q => .next (s.touchEnd d.val q fun p => { p with poisonCount := 0, nfCount := 0 })

/-! ### Segment groups (R92, R93) -/

/-- A group at a Touchstone's door: 16 consecutive column tiles of one row block. -/
structure Grp where
  r : MxRun
  q : QE
  x : Mx
  die : Nat
  c : Nat
  os : List Offer
  t0 : W32
  seg : Nat

/-- Row `k`'s token, and its 256 values. -/
def Grp.tok (g : Grp) (k : Nat) : W32 := g.t0 + BitVec.ofNat 32 k
def Grp.val (g : Grp) (k j : Nat) : W32 := ((g.os[j / 16]?).map fun o => Words.get o.codes (16 * k + j % 16)).getD 0
def Grp.rows (g : Grp) : List Nat := List.range g.x.rows

/-- The group at the front of a command's offers: row `k` of row block `b` carries the command's first token plus
16b + k (DESIGN CHOICE, log 109). -/
def MxRun.group (r : MxRun) (cl : Nat) : Option Grp :=
  let x := Mx.of r.q.img
  match r.offers with
  | [] => none
  | o :: _ =>
    let rc := x.tileRC o.tile
    some { r := r, q := r.q, x := x, die := cl / 256, c := r.q.ctx.toNat, os := r.offers.take 16
           t0 := x.w24 + BitVec.ofNat 32 (16 * rc.1), seg := x.w28 % 1024 + rc.2 / 16 }

/-- All 16 tiles of the group are offered. -/
def Grp.complete (g : Grp) : Bool := decide (16 ≤ g.os.length)

/-- The group that slot `k` of a matrix queue offers in a role, where the Touchstone can process one: a
command with fewer than 16 entries offers its group from the first tile (log 68). -/
def State.groupAt (s : State) (cl k role : Nat) : Option Grp :=
  ((s.clu cl).mq[k]?).bind fun r => (r.group cl).bind fun g =>
    let t := s.tdie g.die
    if g.x.dest == 2 && g.x.role == role && s.isIn r.q.ctx.toNat && (g.complete || (g.x.early && r.grant.isNone))
        && s.issueOpen g.die && !t.service && !t.failed && !s.cluShut cl then some g
    else none

/-- The group is accepted: its 16 tiles are acknowledged (R60). -/
def State.ackGroup (s : State) (cl k : Nat) (g : Grp) : State := s.mxAck cl k g.r 16

/-- The group is accepted before all its tiles are in: those offered are acknowledged, the others as they
drain (R93, log 68). -/
def State.grantGroup (s : State) (cl k : Nat) (g : Grp) (gr : Grant) : State :=
  s.mxTaken cl k { g.r with grant := some gr } g.os

/-- Token-table entries the context holds on a die. -/
def TouchDie.entries (t : TouchDie) (c : CtxId) : Nat := (t.tok.filter fun e => e.ctx = c).length

/-- `new` more entries are inside the partition's allotment, and inside the die's table of 64: a teacher entry that a
partition's new install finds open stays open (R107). -/
def State.tableRoom (s : State) (die : Nat) (c : CtxId) (new : Nat) : Bool :=
  let p := s.prt die c.toNat
  decide ((s.tdie die).tok.length + new ≤ 64) && decide ((s.tdie die).entries c + new ≤ if p.valid then p.geo.opens else 0)

/-! ### The teacher pass (R97, R98, R101, R108, R110) -/

/-- May the producer admit the group? -/
inductive Admit where
  | wait
  | ask
  | fault
  | take (mode : BitVec 2) (segs k : Nat)

/-- The window and geometry of the target (R96, R98), and the segment check of R92. -/
def State.teacherAdmit (s : State) (g : Grp) (o : TeacherOp) : Admit :=
  if o.dev = s.devId then
    let p := s.prt o.die.toNat g.c
    if !p.valid || p.admitsTok g.t0 g.x.rows then .take p.geo.mode p.geo.segs p.geo.k else .wait
  else
    match (s.prt g.die g.c).shadowOf (s.remapped o.dev) o.die o.ctx with
    | none => .ask
    | some h =>
      match h.c with
      | none => if h.asked then .wait else .ask
      | some c =>
        if h.segs < g.x.w28 % 1024 + g.x.nt / 16 then .fault
        else if decide ((g.t0 + BitVec.ofNat 32 (g.x.rows - 1) - c).toInt < h.slots) then .take h.mode h.segs h.k
        else .wait

/-- Two TEACHER operations name one target. -/
def TeacherOp.sameTarget (a b : TeacherOp) : Bool := a.dev == b.dev && a.die == b.die && a.ctx == b.ctx

/-- A token's table entry in the teacher pass: one for each target (R108). -/
def isTea (c : CtxId) (o : TeacherOp) (t : W32) (e : TokE) : Bool :=
  e.teacher && e.ctx == c && e.tok == t.setWidth 64 && e.tea.any o.sameTarget

/-- A TOPK token's entry after one of its segments (R108). -/
def TokE.taught (e : TokE) (kk seg : Nat) (b sg : W32) (z : Nat → W32) : TokE :=
  { e with
    segs := SMap.set none e.segs seg (some { c := b, s := sg, s1 := 0, d := 0 })
    sel := selAdd kk e.sel seg z }

/-- All `n` segments are in the entry. -/
def TokE.whole (e : TokE) (n : Nat) : Bool := (List.range n).all fun k => (SMap.get none e.segs k).isSome
def TokE.stats (e : TokE) (n : Nat) : List SegStat := (List.range n).filterMap fun k => SMap.get none e.segs k

/-- The slot of a TOPK token: its selection, offsets and tail (R108). -/
def TokE.topkSlot (e : TokE) (n : Nat) (it : W32) : Slot :=
  let bs := (e.stats n).map fun g => (g.c, g.s)
  if bs.any fun b => isNan b.1 then { poison := true }
  else
    let ms := finalMS it bs
    let os := e.sel.map fun p => fp16rne (fsub p.2 ms.1)
    { final := true, m := ms.1, s := ms.2
      pTail := fmax 0 (oneLess (os.map fun o => topkProb o it ms.2))
      idx := Words.ofFn e.sel.length fun i => BitVec.ofNat 32 ((e.sel.map Prod.fst).getD i 0 % 2 ^ 18)
      data := SMap.ofFn 0 e.sel.length fun i => os.getD i 0 }

/-- The final offsets of a TOPK token as conversions. -/
def TokE.topkConv (e : TokE) (n : Nat) (it : W32) : List Conv :=
  let bs := (e.stats n).map fun g => (g.c, g.s)
  if bs.any fun b => isNan b.1 then [] else e.sel.map fun p => convert 1 .rne (fsub p.2 (finalMS it bs).1) 0

/-- A deposit of the group's token `t`. -/
def Grp.deposit (g : Grp) (o : TeacherOp) (mode : BitVec 2) (t : W32) (b sg : W32) (data : SMap U16) (slot : Option Slot) : Deposit :=
  { src := ⟨g.die % 8, Nat.mod_lt _ (by decide)⟩, dst := ⟨o.die.toNat, o.die.isLt⟩
    ctx := g.q.ctx
    token := t, seg := if slot.isSome then 0 else g.seg, mode := mode, invTau := o.invTau
    base := b, sigma := sg, data := data, slot := slot }

/-- Send a deposit: over a link, over the edges, or into the producing die's own bank (R16). -/
def State.sendDeposit (s : State) (g : Grp) (o : TeacherOp) (geo : Geo) (d : Deposit) : State :=
  if o.dev ≠ s.devId then
    let target := d.token.toNat + d.seg * 2 ^ 32 + d.dst.val * 2 ^ 42 + d.mode.toNat * 2 ^ 45
    let aux := d.invTau.toNat + d.src.val * 2 ^ 32
    s.send (s.mkPkt 2 2 o.dev g.q.ctx o.ctx (cStep g.q.img) (BitVec.ofNat 64 target) (BitVec.ofNat 64 aux) (depositBytes d geo)) g.q.seq
  else if d.dst.val = g.die then s.depositLocal g.die d
  else s.modTd d.dst.val fun t => { t with dep := t.dep ++ [d] }

/-- One row of a FULL or FEATURE group: its deposit. Poisoned offsets are free values from draw `fr` on. -/
def Grp.fullRow (g : Grp) (o : TeacherOp) (mode : BitVec 2) (fr k : Nat) : Deposit :=
  let v := teacherSeg mode.toNat o.invTau (fr + 256 * k) (g.val k)
  g.deposit o mode (g.tok k) v.1 v.2.1 v.2.2 none

/-- The format index the teacher's stored elements report under: FP16 offsets, or BF16 hidden state. -/
def teacherFmt (mode : BitVec 2) : Nat := if mode = 3 then 0 else 1

/-- A FULL or FEATURE group is processed. -/
def State.teachFull (s : State) (g : Grp) (o : TeacherOp) (mode : BitVec 2) (segs k : Nat) : State :=
  let ds := g.rows.map (g.fullRow o mode s.free)
  let t := tallyOf (g.rows.map fun r => teacherConv mode.toNat (g.val r)).flatten
  let s := ({ s with free := s.free + 256 * g.x.rows }).count g.die g.c (cTensor g.q.img) (teacherFmt mode) t
  ds.foldl (fun s d => s.sendDeposit g o { mode := mode, segs := segs, k := k } d) s

/-- The token table after a row of a TOPK group, and the slot of a token that is whole. -/
def topkRow (g : Grp) (o : TeacherOp) (n kk : Nat) (l : List TokE) (r : Nat) : List TokE × Option (Deposit × List Conv) :=
  let t := g.tok r
  let e := ((l.find? (isTea g.q.ctx o t)).getD { ctx := g.q.ctx, tok := t.setWidth 64, teacher := true, tea := some o })
  let v := teacherSeg 2 o.invTau 0 (g.val r)
  let e := e.taught kk g.seg v.1 v.2.1 (g.val r)
  let l := l.filter fun x => !isTea g.q.ctx o t x
  if e.whole n then (l, some (g.deposit o 2 t unfilled 0 [] (some (e.topkSlot n o.invTau)), e.topkConv n o.invTau))
  else (l ++ [e], none)

/-- A TOPK group is processed: selections grow, whole tokens are deposited. -/
def State.teachTopk (s : State) (g : Grp) (o : TeacherOp) (segs k : Nat) : State :=
  let r := g.rows.foldl (fun (a : List TokE × List (Deposit × List Conv)) r =>
    let v := topkRow g o segs k a.1 r
    (v.1, a.2 ++ v.2.toList)) ((s.tdie g.die).tok, [])
  let cs := (g.rows.map fun r => teacherConv 2 (g.val r)) ++ r.2.map Prod.snd
  let s := (s.modTd g.die fun t => { t with tok := r.1 }).count g.die g.c (cTensor g.q.img) 1 (tallyOf cs.flatten)
  (r.2.map Prod.fst).foldl (fun s d => s.sendDeposit g o { mode := 2, segs := segs, k := k } d) s

/-- New token-table entries a TOPK teacher group takes. -/
def State.teaNew (s : State) (g : Grp) (o : TeacherOp) : Nat :=
  (g.rows.filter fun r => !((s.tdie g.die).tok.any (isTea g.q.ctx o (g.tok r)))).length

/-- The table entries a TOPK teacher group takes when it is accepted before it is whole. -/
def State.reserveTea (s : State) (g : Grp) (o : TeacherOp) : State :=
  s.modTd g.die fun t => { t with tok := g.rows.foldl (fun l r =>
    if l.any (isTea g.q.ctx o (g.tok r)) then l
    else l ++ [{ ctx := g.q.ctx, tok := (g.tok r).setWidth 64, teacher := true, tea := some o }]) t.tok }

/-- A teacher group whose tiles are all in. -/
def State.teach (s : State) (g : Grp) (o : TeacherOp) (gr : Grant) : State :=
  if gr.mode = 2 then s.teachTopk g o gr.segs gr.k else s.teachFull g o gr.mode gr.segs gr.k

/-- TEACHER_GROUP_ACCEPT. A group the window withholds costs its partition a stalled beat. -/
def execTeacherGroupAccept (cl : ClId) (k : Nat) (s : State) : Out :=
  match s.groupAt cl.toNat k 1 with
  | none => .next s
  | some g =>
    match opAt (s.prt g.die g.c).teacher g.q.seq with
    | none => .next s
    | some o =>
      match s.teacherAdmit g o with
      | .ask => .next (s.askCredit g.die g.q.ctx o g.q.seq)
      | .fault => .next (s.faultCmd g.q 0x0201 0 (BitVec.ofNat 16 g.die))
      | .wait =>
        .next (if o.dev = s.devId then s.modPart o.die.toNat g.c fun p => { p with stall := satInc p.stall } else s)
      | .take mode segs kk =>
        let gr : Grant := { mode := mode, segs := segs, k := kk }
        if mode = 2 && !s.tableRoom g.die g.q.ctx (s.teaNew g o) then .next s
        else if g.complete then .next ((s.ackGroup cl.toNat k g).teach g o gr)
        else .next ((if mode = 2 then s.reserveTea g o else s).grantGroup cl.toNat k g gr)

/-! ### Pass S (R103, R109, R110, R113, R114) -/

def isStu (c : CtxId) (n : W64) (e : TokE) : Bool := !e.teacher && e.ctx == c && e.tok == n
/-- The 64-bit number of a token of a partition. -/
def Part.num64 (p : Part) (t : W32) : W64 := BitVec.ofInt 64 (p.big t)

/-- The label of token t. -/
def State.labelOf (s : State) (o : StudentOp) (t : W32) : W32 :=
  Mem.read32 (s.clu o.cl.toNat).mem (o.label + 4 * (t - o.t).toNat)

/-- The fault a pass-S group meets: TS_RANGE past the operation's tokens, TS_TAU, TS_LABEL. -/
def State.passSFault (s : State) (g : Grp) (p : Part) (o : StudentOp) : Option U16 :=
  if !inTokens g.t0 g.x.rows o.t o.count then some 0x0207
  else if g.rows.any fun r => (p.slot (g.tok r)).invTau ≠ o.invTau then some 0x0208
  else if g.rows.any fun r =>
      let l := s.labelOf o (g.tok r)
      !((s.tdie g.die).tok.any (isStu g.q.ctx (p.num64 (g.tok r)))) && l ≠ 0xFFFFFFFF#32 && decide (256 * p.geo.segs ≤ l.toNat) then some 0x0209
  else none

/-- The selected positions' y in a segment (R109). -/
def Slot.keepSel (x : Slot) (k seg : Nat) (y : Nat → W32) (w : Words) : Words :=
  (List.range k).foldl (fun w i =>
    let j := (Words.get x.idx i).toNat
    if j / 256 = seg then Words.set w i (y (j % 256)) else w) w

/-- A token's entry after a pass-S segment. -/
def TokE.streamed (e : TokE) (g : Geo) (x : Slot) (it : W32) (seg : Nat) (y : Nat → W32) : TokE :=
  { e with
    segs := SMap.set none e.segs seg (some (passSeg g.mode.toNat x it seg y))
    nf := e.nf || !segFinite y
    ylab := if e.label ≠ 0xFFFFFFFF#32 ∧ e.label.toNat / 256 = seg then y (e.label.toNat % 256) else e.ylab
    ysel := if g.mode = 2 then x.keepSel g.k seg y e.ysel else e.ysel }

/-- What the FEATURE loss is made of. -/
def State.featAt (p : Part) (q : W32) : FeatOp := (opAt p.feat q).getD { cos := Config.featCos, w := Config.featWeight }

/-- The merge of a whole token: its statistics, and (loss, flags) (R103, R109 to R113). -/
def TokE.merge (e : TokE) (g : Geo) (x : Slot) (o : StudentOp) (f : FeatOp) : TokE × W32 × W32 :=
  let gs := e.stats g.segs
  let flags : W32 := BitVec.ofNat 32 (x.poison.toNat + 2 * e.nf.toNat + 4 * (e.label == 0xFFFFFFFF#32).toNat)
  if g.mode = 3 then
    let v := featSums gs
    let l := featLoss f.cos f.w v.1 v.2.1 x.m v.2.2 g.segs
    ({ e with merged := true, m := v.1, s := v.2.1 }, (if x.poison then 0 else if e.nf then qnan else l), flags)
  else
    let v := mergeAll o.invTau gs
    let ce := ceOf v.1 v.2.2.1 e.ylab e.label
    let kt := if g.mode = 2 then klTopk x g.k o.invTau v.1 v.2.1 e.ysel else (klFull x o.invTau v.1 v.2.1 v.2.2.2, 0)
    let l := lossOf o.wSoft o.wHard kt.1 ce
    ({ e with merged := true, m := v.1, s := v.2.1, s1 := v.2.2.1, qTail := kt.2 },
      (if x.poison then 0 else if e.nf then qnan else l), flags)

/-- A slot whose token's pass S is merged; STUDENT_NF is kept with it. -/
def Part.merged (p : Part) (t : W32) : Part := p.modSlot t fun x => { x with state := 3 }
def Part.nonfinite (p : Part) (t : W32) : Part :=
  if (p.slot t).nf then p else { p.modSlot t (fun x => { x with nf := true }) with nfCount := p.nfCount + 1 }

/-- The table entry a token's first pass-S group takes, with its label. -/
def State.stuNew (s : State) (g : Grp) (o : StudentOp) (t : W32) : TokE :=
  { ctx := g.q.ctx, tok := (s.prt g.die g.c).num64 t, teacher := false, label := s.labelOf o t, stu := some o }

/-- The table entries a pass-S group takes when it is accepted before it is whole. -/
def State.reserveStu (s : State) (g : Grp) (o : StudentOp) : State :=
  let p := s.prt g.die g.c
  s.modTd g.die fun d => { d with tok := g.rows.foldl (fun l r =>
    if l.any (isStu g.q.ctx (p.num64 (g.tok r))) then l else l ++ [s.stuNew g o (g.tok r)]) d.tok }

/-- One row of a pass-S group. -/
def State.passSRow (s : State) (g : Grp) (o : StudentOp) (r : Nat) : State :=
  let t := g.tok r
  let p := s.prt g.die g.c
  let n := p.num64 t
  let x := p.slot t
  let e0 := ((s.tdie g.die).tok.find? (isStu g.q.ctx n)).getD (s.stuNew g o t)
  let e := e0.streamed p.geo x o.invTau g.seg (g.val r)
  let put (s : State) (e : TokE) : State :=
    s.modTd g.die fun d => { d with tok := d.tok.filter (fun y => !isStu g.q.ctx n y) ++ [e] }
  let s := if segFinite (g.val r) then s else s.modPart g.die g.c fun p => p.nonfinite t
  if e.whole p.geo.segs then
    let v := e.merge p.geo x o (State.featAt p g.q.seq)
    let at_ := o.loss + 8 * (t - o.t).toNat
    let s := (put s v.1).modCl o.cl.toNat fun y =>
      { y with mem := Mem.writeN (Mem.writeN y.mem at_ 4 v.2.1.toNat) (at_ + 4) 4 v.2.2.toNat }
    let s := s.modPart g.die g.c fun p => p.merged t
    if o.noGrad then s.withdrawTok g.die g.q.ctx t else s
  else put s e

/-- PASS_S_GROUP_ACCEPT: every row's slot COMPLETE and token-table entries free (Table TS.5). -/
def execPassSGroupAccept (cl : ClId) (k : Nat) (s : State) : Out :=
  match s.groupAt cl.toNat k 2 with
  | none => .next s
  | some g =>
    let p := s.prt g.die g.c
    match opAt p.student g.q.seq with
    | none => .next s
    | some o =>
      let new := (g.rows.filter fun r => !((s.tdie g.die).tok.any (isStu g.q.ctx (p.num64 (g.tok r))))).length
      if !(g.rows.all fun r => p.tokSt (g.tok r) = 2) || !s.tableRoom g.die g.q.ctx new || s.cluShut o.cl.toNat then .next s
      else match s.passSFault g p o with
      | some f => .next (s.faultCmd g.q f 0 (BitVec.ofNat 16 g.die))
      | none =>
        if g.complete then .next (g.rows.foldl (fun s r => s.passSRow g o r) (s.ackGroup cl.toNat k g))
        else .next ((s.reserveStu g o).grantGroup cl.toNat k g {})

/-! ### Pass B (R104 to R106, R109 to R113) -/

/-- A landing slot for the group: the ring after a change, its free slot; none while it must wait (R105). -/
def Ring.offer (r : Ring) (o : GradOp) : Option Ring :=
  let r' : Ring := if r.base = o.ring ∧ r.slots = o.slots then r
    else { base := o.ring, slots := o.slots, fill := 0, rel := 0, full := r.full }
  if (r' ≠ r ∧ r.full ≠ []) ∨ r'.full.contains r'.fill then none else some r'
/-- The ring after its fill slot is filled. -/
def Ring.filled (r : Ring) : Ring := { r with full := r.full ++ [r.fill], fill := (r.fill + 1) % r.slots }

/-- The soft, hard and G parts of one gradient element before rounding. -/
def gradElem (e : TokE) (geo : Geo) (x : Slot) (o : StudentOp) (f : FeatOp) (g : W32) (seg : Nat) (y : W32) (j : Nat) : W32 :=
  if geo.mode = 3 then fmul g (featGrad f.cos f.w y (ofBf16 (x.elem seg j)) e.m e.s x.m geo.segs)
  else
    let it := o.invTau
    let pos := 256 * seg + j
    let q := qSoft e.m e.s it y
    let q1 := qHard e.m e.s1 y
    let lab := if e.label = 0xFFFFFFFF#32 then none else some (e.label.toNat == pos)
    let soft :=
      if geo.mode = 2 then
        match (List.range geo.k).find? fun i => (Words.get x.idx i).toNat == pos with
        | some i => softTerm o.wSoft it q (topkProb (x.elem 0 i) it x.s)
        | none => tailTerm o.wSoft it q x.pTail e.qTail
      else softTerm o.wSoft it q (x.prob it seg j)
    fmul g (fadd soft (hardTerm o.wHard q1 lab))

/-- The 256 gradient elements of one row: poisoned +0, non-finite the BF16 NaN, else rounded to BF16. -/
def gradRow (e : TokE) (geo : Geo) (x : Slot) (f : FeatOp) (go : GradOp) (seed : W64) (t : W32) (seg : Nat) (y : Nat → W32) : List Conv :=
  if x.poison then List.replicate 256 { code := 0 }
  else if e.nf then List.replicate 256 { code := 0x7FC0 }
  else match e.stu with
  | none => []
  | some o => (List.range 256).map fun j =>
      let i := go.elemBase + 256 * geo.segs * (t - go.t).toNat + 256 * seg + j
      convert 0 (rndOf go.rnd seed go.tid go.step i) (gradElem e geo x o f go.g seg (y j) j) 0

/-- What a row's conversions report; the fixed elements of a poisoned or non-finite token report nothing. -/
def gradTally (e : TokE) (x : Slot) (vs : List Conv) : Tally4 := if x.poison || e.nf then {} else tallyOf vs

/-- Write a row of a landing slot at `a` (R105). -/
def landRow (m : Mem) (a r : Nat) (vs : List Conv) : Mem :=
  vs.zipIdx.foldl (fun m v => Mem.writeN m (a + 512 * (v.2 / 16) + 32 * r + 2 * (v.2 % 16)) 2 v.1.code) m

/-- The recomputed segment maximum of a row is the one pass S stored (R104, R110). -/
def State.recomputed (s : State) (g : Grp) (p : Part) (r : Nat) : Bool :=
  let e := (s.tdie g.die).tok.find? (isStu g.q.ctx (p.num64 (g.tok r)))
  let c := if p.geo.mode = 3 then segAbs (g.val r) else segMax (g.val r)
  e.any fun e => ((SMap.get none e.segs g.seg).map (·.c)) == some c

/-- One row of a pass-B group lands; a whole token is withdrawn. -/
def State.passBRow (s : State) (cl : Nat) (g : Grp) (go : GradOp) (a r : Nat) : State :=
  let t := g.tok r
  let p := s.prt g.die g.c
  let n := p.num64 t
  match (s.tdie g.die).tok.find? (isStu g.q.ctx n) with
  | none => s
  | some e =>
    let vs := gradRow e p.geo (p.slot t) (State.featAt p g.q.seq) go (s.nums g.c).seed t g.seg (g.val r)
    let e := { e with landed := if e.landed.contains g.seg then e.landed else g.seg :: e.landed }
    let s := s.modCl cl fun y => { y with mem := landRow y.mem a r vs }
    let s := s.count g.die g.c go.tid 0 (gradTally e (p.slot t) vs)
    let s := s.modTd g.die fun d => { d with tok := d.tok.filter (fun y => !isStu g.q.ctx n y) ++ [e] }
    if p.geo.segs ≤ e.landed.length then s.withdrawTok g.die g.q.ctx t else s

/-- PASS_B_GROUP_ACCEPT: every row's STATE is STUDENT and a landing slot is free (Table TS.5). -/
def execPassBGroupAccept (cl : ClId) (k : Nat) (s : State) : Out :=
  match s.groupAt cl.toNat k 3 with
  | none => .next s
  | some g =>
    let p := s.prt g.die g.c
    match opAt p.grad g.q.seq with
    | none => .next s
    | some go =>
      match (((s.clu cl.toNat).pc g.c).ring.offer go) with
      | none => .next s
      | some ring =>
        if !inTokens g.t0 g.x.rows go.t go.count then .next (s.faultCmd g.q 0x0207 0 (BitVec.ofNat 16 g.die))
        else if !(g.rows.all fun r => p.tokSt (g.tok r) = 3) then .next s
        else if g.complete && !(g.rows.all (s.recomputed g p)) then .next (s.faultCmd g.q 0x0204 0 (BitVec.ofNat 16 g.die))
        else
          let a := ring.base * 128 + 8192 * ring.fill
          let land (s : State) : State := s.modCl cl.toNat fun y => y.modPc g.c fun z => { z with ring := ring.filled }
          if g.complete then .next (g.rows.foldl (fun s r => s.passBRow cl.toNat g go a r) (land (s.ackGroup cl.toNat k g)))
          else .next (land (s.grantGroup cl.toNat k g { land := a }))

/-! ### Drains (R58, R93) -/

/-- An accepted group whose 16 tiles are now in is carried through (R93). -/
def State.finishGroup (s : State) (cl : Nat) (g : Grp) (gr : Grant) : State :=
  let p := s.prt g.die g.c
  if g.x.role = 1 then
    match opAt p.teacher g.q.seq with
    | some o => s.teach g o gr
    | none => s
  else if g.x.role = 2 then
    match opAt p.student g.q.seq with
    | some o => g.rows.foldl (fun s r => s.passSRow g o r) s
    | none => s
  else if !(g.rows.all (s.recomputed g p)) then s.faultCmd g.q 0x0204 0 (BitVec.ofNat 16 g.die)
  else
    match opAt p.grad g.q.seq with
    | some go => g.rows.foldl (fun s r => s.passBRow cl g go gr.land r) s
    | none => s

/-- A tile drained into a group that has been accepted is acknowledged at once. -/
def State.feedGroup (s : State) (cl k : Nat) : State :=
  match (s.clu cl).mq[k]? with
  | none => s
  | some r =>
    match r.grant, r.group cl with
    | some gr, some g =>
      let new := r.offers.drop (r.offers.length - (r.drained - r.acked))
      if g.complete then (s.mxTaken cl k { r with offers := r.offers.drop 16, grant := none } new).finishGroup cl g gr
      else s.mxTaken cl k r new
    | _, _ => s

/-- DRAIN: the next tile in loop order whose products are all in. -/
def execDrain (cl : ClId) (k : Nat) (s : State) : Out :=
  match (s.clu cl.toNat).mq[k]? with
  | none => .next s
  | some r =>
    let x := Mx.of r.q.img
    if !s.isIn r.q.ctx.toNat || r.done then .next s
    else if x.full && decide (r.drained < r.tile) then .next (s.drainFull cl.toNat k r)
    else if x.fuse && decide (r.drained + x.step ≤ r.tile) then .next ((s.drainFuse cl.toNat k r).feedGroup cl.toNat k)
    else .next s

end Sys2Proof.Machine
end

