-- ==== Sys2Proof/Machine/Teller.lean ====
section
/-! DEFINITION. The Teller: kernels, their instructions, and the commands they issue (R88 to R91, R174). -/

namespace Sys2Proof.Machine
open Sys2Proof

/-! ### Instruction words (R89) -/

structure TI where
  op : Nat
  dst : Nat
  src1 : Nat
  src2 : Nat
  func : Nat
  imm : W32

def TI.of (w : W64) : TI where
  op := bits w.toNat 63 56
  dst := bits w.toNat 55 52
  src1 := bits w.toNat 51 48
  src2 := bits w.toNat 47 44
  func := bits w.toNat 43 32
  imm := BitVec.ofNat 32 w.toNat

/-- Is the OP one of Table VX.10? FCVT's FUNC is 0 or 1, ISSUE's and WAITQ's queue 0 to 2 (log 71). -/
def TI.known (i : TI) : Bool :=
  (decide (0x01 ≤ i.op) && decide (i.op ≤ 0x0B)) || (decide (0x11 ≤ i.op) && decide (i.op ≤ 0x1B))
    || (decide (0x20 ≤ i.op) && decide (i.op ≤ 0x24)) || (i.op == 0x25 && decide (i.func ≤ 1))
    || i.op == 0x30 || i.op == 0x31 || (decide (0x40 ≤ i.op) && decide (i.op ≤ 0x44))
    || i.op == 0x50 || i.op == 0x51 || i.op == 0x52
    || ((i.op == 0x60 || i.op == 0x62) && decide (i.func % 4 ≤ 2)) || i.op == 0x70 || i.op == 0x71

/-- s0 reads zero and writes to it are ignored (R88). -/
def Tel.get (t : Tel) (r : Nat) : W32 := if r = 0 then 0 else Words.get t.regs r
def Tel.set (t : Tel) (r : Nat) (v : W32) : Tel := if r = 0 then t else { t with regs := Words.set t.regs r v }
/-- One instruction executed: the budget falls and the index moves on. -/
def Tel.go (t : Tel) (pc : Nat) : Tel := { t with pc := pc, budget := t.budget - 1, wait := .none }
def Tel.put (t : Tel) (r : Nat) (v : W32) : Tel := (t.set r v).go (t.pc + 1)

/-- The instruction word at a logical index; none outside the context's pages (R174). -/
def Cluster.fetch (x : Cluster) (c pc : Nat) : Option W64 :=
  ((x.pc c).tpages[pc / 512]?).map fun p => SMap.get 0 x.imem (512 * p + pc % 512)

/-- The running kernel, where its cluster may step and its context is IN. -/
def State.telHead (s : State) (cl : ClId) : Option Tel :=
  ((s.clu cl.toNat).tel).bind fun t =>
    if s.clOpen cl.toNat && s.isIn t.q.ctx.toNat && !t.ended then some t else none

def State.setTel (s : State) (cl : ClId) (t : Tel) : State := s.modCl cl.toNat fun x => { x with tel := some t }
def State.telFault (s : State) (t : Tel) (code : U16) (detail : W64 := 0) : State := s.faultCmd t.q code detail (clUnit t.q.img)

/-! ### CALL (R88) -/

/-- A kernel at its start. -/
def telStart (q : QE) : Tel where
  q := q
  regs := (List.range 4).foldl (fun m k => Words.set m (k + 1) (w32 q.img (0x18 + 4 * k))) []
  pc := fld q.img 0x10 12 0
  budget := if fld q.img 0x14 31 0 = 0 then 2 ^ 32 else fld q.img 0x14 31 0

/-- CALL: a kernel starts; a word outside Table VX.10 faults it, and an index outside the pages does, where a kernel runs
on past its last page too (log 71). -/
def execCall (cl : ClId) (s : State) : Out :=
  let x := s.clu cl.toNat
  match x.tel with
  | some _ =>
    match s.telHead cl with
    | none => .next s
    | some t =>
      match x.fetch t.q.ctx.toNat t.pc with
      | none => .next (s.telFault t 0x0007)
      | some w => if (TI.of w).known then .next s else .next (s.telFault t 0x0001)
  | none =>
    match x.callq with
    | [] => .next s
    | q :: l =>
      if !s.clOpen cl.toNat || !s.isIn q.ctx.toNat then .next s
      else if (x.fetch q.ctx.toNat (fld q.img 0x10 12 0)).isNone then .next (s.faultCmd q 0x0007 0 (clUnit q.img))
      else .next (s.modCl cl.toNat fun x =>
        { (x.modPc q.ctx.toNat fun y => { y with q := [] }) with callq := l, tel := some (telStart q) })

/-- The kernel stands in a wait, since when it first met it. -/
def Tel.waits (t : Tel) (w : TelWait) (now : Nat) : Tel := { t with wait := w, since := if t.wait = .none then now else t.since }

/-- Run the kernel's next instruction if its OP is one of `ops`; a kernel out of budget faults (R91). -/
def State.telRow (s : State) (cl : ClId) (ops : Nat → Bool) (f : Tel → TI → State → Out) : Out :=
  match s.telHead cl with
  | none => .next s
  | some t =>
    if t.wait ≠ .none then .next s else
    match (s.clu cl.toNat).fetch t.q.ctx.toNat t.pc with
    | none => .next s
    | some w =>
      let i := TI.of w
      if !ops i.op || !i.known then .next s
      else if t.budget = 0 then .next (s.telFault t 0x0009)
      else f t i s

/-! ### Integer and float operations (Table VX.10) -/

/-- An integer operation; a shift by 32 or more has no stated result: a free value, draw `fr`. -/
def telInt (op fr : Nat) (a b : W32) : W32 :=
  match op with
  | 0x1 => a + b
  | 0x2 => a - b
  | 0x3 => a &&& b
  | 0x4 => a ||| b
  | 0x5 => a ^^^ b
  | 0x6 => if 32 ≤ b.toNat then Config.freeWord fr else a <<< b.toNat
  | 0x7 => if 32 ≤ b.toNat then Config.freeWord fr else a >>> b.toNat
  | 0x8 => if 32 ≤ b.toNat then Config.freeWord fr else a.sshiftRight b.toNat
  | 0x9 => a * b
  | 0xA => if a.slt b then 1 else 0
  | _ => if a.ult b then 1 else 0

/-- Does the operation draw a free value? -/
def telDraws (op : Nat) (b : W32) : Bool := decide (6 ≤ op) && decide (op ≤ 8) && decide (32 ≤ b.toNat)

/-- s(DST) takes an integer operation's result on s(SRC1) and `b`. -/
def State.telAlu (s : State) (cl : ClId) (t : Tel) (i : TI) (b : W32) : State :=
  let s' := s.setTel cl (t.put i.dst (telInt (i.op % 16) s.free (t.get i.src1) b))
  if telDraws (i.op % 16) b then { s' with free := s'.free + 1 } else s'

def execTellerIntegerOp (cl : ClId) (s : State) : Out :=
  s.telRow cl (fun o => decide (1 ≤ o) && decide (o ≤ 0xB)) fun t i s => .next (s.telAlu cl t i (t.get i.src2))

def execTellerImmediateOp (cl : ClId) (s : State) : Out :=
  s.telRow cl (fun o => decide (0x11 ≤ o) && decide (o ≤ 0x1B)) fun t i s => .next (s.telAlu cl t i i.imm)

/-- FADD, FMUL, FLT, FMIN, FMAX. -/
def telFloat (op : Nat) (a b : W32) : W32 :=
  match op with
  | 0x20 => fadd a b
  | 0x21 => fmul a b
  | 0x22 => if flt a b then 1 else 0
  | 0x23 => fmin a b
  | _ => fmax a b

def execTellerFloatOp (cl : ClId) (s : State) : Out :=
  s.telRow cl (fun o => decide (0x20 ≤ o) && decide (o ≤ 0x24)) fun t i s =>
    .next (s.setTel cl (t.put i.dst (telFloat i.op (t.get i.src1) (t.get i.src2))))

def execTellerFcvt (cl : ClId) (s : State) : Out :=
  s.telRow cl (· == 0x25) fun t i s =>
    let a := t.get i.src1
    .next (s.setTel cl (t.put i.dst (if i.func = 0 then cvtFromInt a else cvtToInt a)))

/-! ### Memory, branches -/

/-- The address s(SRC1) + IMM; one that is not a multiple of 4 is used as it is (DESIGN CHOICE, log 94). -/
def telAddr (t : Tel) (i : TI) : Nat := (t.get i.src1 + i.imm).toNat

def execTellerLw (cl : ClId) (s : State) : Out :=
  s.telRow cl (· == 0x30) fun t i s =>
    let a := telAddr t i
    if s.ownsIn t.q.ctx cl a 4 then .next (s.setTel cl (t.put i.dst (Mem.read32 (s.clu cl.toNat).mem a)))
    else .next (s.telFault t 0x0003 (BitVec.ofNat 64 a))

def execTellerSw (cl : ClId) (s : State) : Out :=
  s.telRow cl (· == 0x31) fun t i s =>
    let a := telAddr t i
    if s.ownsIn t.q.ctx cl a 4 then
      .next (s.modCl cl.toNat fun x =>
        { x with mem := Mem.writeN x.mem a 4 (t.get i.src2).toNat, tel := some (t.go (t.pc + 1)) })
    else .next (s.telFault t 0x0003 (BitVec.ofNat 64 a))

/-- Go to an instruction index inside the context's pages. -/
def State.telJump (s : State) (cl : ClId) (t : Tel) (a : Nat) : State :=
  if ((s.clu cl.toNat).fetch t.q.ctx.toNat a).isSome then s.setTel cl (t.go a) else s.telFault t 0x0007

/-- BEQ, BNE, BLT, BGE. -/
def telCmp (op : Nat) (a b : W32) : Bool :=
  match op with
  | 0x40 => a == b
  | 0x41 => a != b
  | 0x42 => a.slt b
  | _ => b.sle a

def execTellerBranch (cl : ClId) (s : State) : Out :=
  s.telRow cl (fun o => decide (0x40 ≤ o) && decide (o ≤ 0x43)) fun t i s =>
    if telCmp i.op (t.get i.src1) (t.get i.src2) then .next (s.telJump cl t i.imm.toNat)
    else .next (s.setTel cl (t.go (t.pc + 1)))

def execTellerJmp (cl : ClId) (s : State) : Out :=
  s.telRow cl (· == 0x44) fun t i s => .next (s.telJump cl t i.imm.toNat)

/-! ### Summary registers (R87, Table VX.9) -/

def State.summary (s : State) (cl : ClId) (t : Tel) (i : TI) : Summary :=
  SMap.get {} ((s.clu cl.toNat).pc t.q.ctx.toNat).q (i.func % 8)

/-- GETQ: waits while VALID is 0, then reads VALUE and clears VALID. -/
def State.telGetq (cl : ClId) (t : Tel) (i : TI) (s : State) : Out :=
  let m := s.summary cl t i
  if m.valid then
    .next (s.modCl cl.toNat fun x =>
      { (x.modPc t.q.ctx.toNat fun y => { y with q := SMap.upd {} y.q (i.func % 8) fun m => { m with valid := false } }) with
        tel := some (t.put i.dst m.value) })
  else .next (s.setTel cl (t.waits .getq s.sched.clock))

def execTellerGetq (cl : ClId) (s : State) : Out := s.telRow cl (· == 0x50) (State.telGetq cl)

def execTellerGetqa (cl : ClId) (s : State) : Out :=
  s.telRow cl (· == 0x51) fun t i s => .next (s.setTel cl (t.put i.dst (s.summary cl t i).aux))

def execTellerGetqf (cl : ClId) (s : State) : Out :=
  s.telRow cl (· == 0x52) fun t i s =>
    let m := s.summary cl t i
    .next (s.setTel cl (t.put i.dst (BitVec.ofNat 32 (2 * m.ovr.toNat + m.valid.toNat))))

/-! ### What a command names (R31, R173, R181, R273) -/

/-- Commands before one in the sequence that are not complete. -/
def Ctx.earlier (x : Ctx) (q : W32) : List Flight :=
  (x.flight.takeWhile (·.seq ≠ q)).filter (·.phase ≠ .completed)

/-- Does the command name the cluster of its header: classes 1 to 5 and 9, and a SYNC whose scope it is or whose
overflow word lies there (R173, Table CS.5)? -/
def needsCluster (i : Image) : Bool :=
  match cClass i with
  | 1 | 2 | 3 | 4 | 5 | 9 => true
  | 7 => bit (fld i 0x10 31 0) 4 || (ovfWord i).isSome
  | _ => false

/-- The fault of the cluster a command names (R31, R173): for a STUDENT, one that the context does not have is a bad
address (R115). -/
def State.clusterFault (s : State) (c : CtxId) (i : Image) : Option U16 :=
  let cl := cCluster i
  if !needsCluster i || s.cluOk c cl then none
  else if cClass i == 5 && touchOp i == 2 && decide (cl.toNat % 256 < 150) && s.diePowered (cl.toNat / 256) then some 0x0003
  else some 0x0004

/-- The clusters a command names: its header's, and those of a DMA's other-cluster spaces. -/
def clustersNamed (i : Image) : List ClId :=
  (if needsCluster i then [cCluster i] else [])
    ++ (if cClass i = 4 then (if fld i 0x10 7 6 = 1 then [BitVec.ofNat 11 (fld i 0x18 42 32)] else [])
        ++ (if fld i 0x10 9 8 = 1 && !(dMode i == 0 && bit (fld i 0x28 31 0) 12) then [BitVec.ofNat 11 (fld i 0x20 42 32)] else []) else [])

/-- A MATMUL whose results go to the Touchstone. -/
def touchMx (i : Image) : Bool := cClass i == 1 && (Mx.of i).dest == 2

/-- A unit the command names has failed its test (R273). -/
def State.namesFailed (s : State) (i : Image) : Bool :=
  (clustersNamed i).any (fun cl => (s.clu cl.toNat).failed)
    || (cClass i == 5 && (s.tdie (cDie i)).failed)
    || (touchMx i && (s.tdie (cDie i)).failed)

/-! ### Commands (R90) -/

/-- The image as issued: SEQ, NOTIFY and INTERRUPT of the CALL (R183). ISSUE sends to a queue of its own cluster,
so an image that names another cluster of the context runs on the Teller's own (DESIGN CHOICE, log 94). -/
def issuedImage (i : Image) (q : QE) (cl : ClId) : Image :=
  let keep := i.toNat &&& (2 ^ 512 - 1 - layoutMask [(0, 31, 0), (4, 5, 4), (4, 18, 8)])
  BitVec.ofNat 512 (keep + q.seq.toNat + fld q.img 4 5 4 * 2 ^ 36 + cl.toNat * 2 ^ 40)

/-- A queue's commands that a CALL has issued and that are not complete. -/
def Cluster.issued (x : Cluster) (c : CtxId) (q : W32) (n : Nat) : Nat :=
  let own (e : QE) : Bool := e.issued && e.ctx == c && e.seq == q
  if n = 0 then (x.mq.filter fun m => own m.q).length
  else if n = 1 then (x.vq.filter own).length else (x.dq.filter own).length

/-- Is queue `n` full (Table CL.3)? -/
def Cluster.full (x : Cluster) (n : Nat) : Bool :=
  if n = 0 then decide (32 ≤ x.mq.length) else if n = 1 then decide (32 ≤ x.vq.length) else decide (64 ≤ x.dq.length)

/-- A command enters a queue of the cluster. -/
def Cluster.enqueue (x : Cluster) (n : Nat) (q : QE) : Cluster :=
  if n = 0 then { x with mq := x.mq ++ [{ q := q }] }
  else if n = 1 then { x with vq := x.vq ++ [q] } else { x with dq := x.dq ++ [q] }

/-- A MATMUL to the tile queue finds another context's tile there: it is not dispatched (R82). -/
def Cluster.foreignTile (x : Cluster) (i : Image) (c : CtxId) : Bool :=
  cClass i == 1 && (Mx.of i).dest == 1 && (x.tileq.any (·.ctx ≠ c))

/-- Those of a queue of cluster `cl` that the CALL `q` has issued and that are not complete: in the queue, or with a record
that finds the buffer full (R179). -/
def State.issuedOn (s : State) (cl : ClId) (q : QE) (n : Nat) : Nat :=
  (s.clu cl.toNat).issued q.ctx q.seq n
    + ((s.ctx q.ctx.toNat).late.filter fun e => e.q.any fun x => x.issued && x.seq == q.seq && cCluster x.img == cl
        && cClass x.img == (if n = 0 then 1 else if n = 1 then 2 else 4)).length

/-- ORDERED of an issued command: the context's commands on the cluster before the CALL, and those the CALL issued
before it, are complete (R181; that the ISSUE is what waits is DEDUCED, log 44). -/
def State.issueHeld (s : State) (cl : ClId) (q : QE) : Bool :=
  (((s.ctx q.ctx.toNat).earlier q.seq).any fun f => namesCluster f.img == some cl)
    || [0, 1, 2].any fun n => s.issuedOn cl q n != 0

/-- Why an ISSUE of the CALL `q` must wait: a full queue, another context's tiles, the token bound (R185), a full
record buffer where the command makes a record (R179), or ORDERED (R181). -/
def State.issueWaits (s : State) (cl : ClId) (q : QE) (n : Nat) (img : Image) : Bool :=
  let x := s.clu cl.toNat
  x.full n || x.foreignTile img q.ctx || decide (65536 ≤ s.sched.tokens)
    || (cNotify img && (s.ctx q.ctx.toNat).bufferFull) || (cOrdered img && s.issueHeld cl q)

/-- The fault of what an issued image names, as at dispatch: its cluster (R31), a Touchstone that is off (R9), a unit
that has failed (R273), and of the fields of the command `q` it becomes (R181), with the address in DETAIL. -/
def State.issueFault (s : State) (c : CtxId) (i : Image) (q : QE) : Option (U16 × Nat) :=
  match s.clusterFault c i with
  | some f => some (f, 0)
  | none =>
    if touchMx i && !s.unitOn 0 then some (0x0011, 0)
    else if s.namesFailed i then some (0x0504, 0)
    else s.fieldFault q

/-- ISSUE. -/
def State.telIssue (cl : ClId) (t : Tel) (i : TI) (s : State) : Out :=
  let a := telAddr t i
  let n := i.func % 4
  if !s.ownsIn t.q.ctx cl a 64 then .next (s.telFault t 0x0003 (BitVec.ofNat 64 a))
  else
    let raw : Image := BitVec.ofNat 512 (Mem.readN (s.clu cl.toNat).mem a 64)
    let img := issuedImage raw t.q cl
    if cClass img ≠ (if n = 0 then 1 else if n = 1 then 2 else 4) ∨ imageBad img then .next (s.telFault t 0x0001)
    else
    let q : QE := { ctx := t.q.ctx, seq := t.q.seq, img := img, issued := true, acc := s.sched.clock }
    match s.issueFault t.q.ctx raw q with
    | some f => .next (s.telFault t f.1 (BitVec.ofNat 64 f.2))
    | none =>
      if s.issueWaits cl t.q n img then .next (s.setTel cl (t.waits .issue s.sched.clock))
      else
        .next ((({ s with sched := { s.sched with clock := s.sched.clock + 1, tokens := s.sched.tokens + 1 } }).modCl cl.toNat
          fun x => x.enqueue n q).setTel cl (t.go (t.pc + 1)))

def execTellerIssue (cl : ClId) (s : State) : Out := s.telRow cl (· == 0x60) (State.telIssue cl)

/-- WAITQ. -/
def State.telWaitq (cl : ClId) (t : Tel) (i : TI) (s : State) : Out :=
  if s.issuedOn cl t.q (i.func % 4) = 0 then .next (s.setTel cl (t.go (t.pc + 1)))
  else .next (s.setTel cl (t.waits .waitq s.sched.clock))

def execTellerWaitq (cl : ClId) (s : State) : Out := s.telRow cl (· == 0x62) (State.telWaitq cl)

/-- RET. -/
def execTellerRet (cl : ClId) (s : State) : Out :=
  s.telRow cl (· == 0x70) fun t _ s => .next (s.setTel cl { t.go (t.pc + 1) with ended := true })

/-- FAIL. -/
def execTellerFail (cl : ClId) (s : State) : Out :=
  s.telRow cl (· == 0x71) fun t i s => .next (s.telFault t 0x0008 (BitVec.ofNat 64 (i.imm.toNat % 65536)))

/-- TELLER_WAIT_END: the condition holds and the waiting instruction completes. -/
def execTellerWaitEnd (cl : ClId) (s : State) : Out :=
  match s.telHead cl with
  | none => .next s
  | some t =>
    match (s.clu cl.toNat).fetch t.q.ctx.toNat t.pc with
    | none => .next s
    | some w =>
      let i := TI.of w
      match t.wait with
      | .none => .next s
      | .getq => State.telGetq cl t i s
      | .issue => State.telIssue cl t i s
      | .waitq => State.telWaitq cl t i s

end Sys2Proof.Machine
end

