-- ==== Sys2Proof/Machine/Sched.lean ====
section
/-! DEFINITION. Rings, dispatch, completion, SYNC, EVAL and CHEAP (R173, R176 to R186, R189, R214). -/

namespace Sys2Proof.Machine
open Sys2Proof

/-! ### Acceptance (R178, R181, R185) -/

/-- The image in the slot of command `q`. -/
def State.ringImage (s : State) (x : Ctx) (q : W32) : Image :=
  BitVec.ofNat 512 (Mem.readN s.host (x.ringBase.toNat + q.toNat % 2 ^ x.ringN.toNat * 64) 64)

/-- A command enters the context's sequence and takes a token. -/
def State.acceptCmd (s : State) (c : CtxId) (q : W32) (i : Image) : State :=
  let f : Flight := { seq := q, img := i, phase := .queued, acc := s.sched.clock }
  { s with sched := { s.sched with clock := s.sched.clock + 1, tokens := s.sched.tokens + 1 } }.modCtx c.toNat fun x =>
    { x with acceptSeq := q, flight := x.flight ++ [f] }.refresh

/-- Command `q` of a context as the checks of R181 see it. -/
def cmdOf (c : CtxId) (q : W32) (i : Image) : QE := { ctx := c, seq := q, img := i, issued := false, acc := 0 }

/-- The unit named in a command's records. -/
def unitOf (i : Image) : U16 :=
  match cClass i with
  | 1 | 2 | 3 | 4 | 9 => clUnit i
  | 5 => BitVec.ofNat 16 (cDie i)
  | _ => 0xFFFF

/-- COMMAND_ACCEPT: the next announced command of an IN context, while tokens remain and the host answers. Of several
faults the first of BAD_SEQ, BAD_OP, BAD_FORMAT and BAD_ADDRESS is reported (DESIGN CHOICE, log 100). -/
def execCommandAccept (c : CtxId) (h : HostStores) (s : State) : Out :=
  let s := s.hostStores h
  let x := s.ctx c.toNat
  let q := x.acceptSeq + 1
  if x.st ≠ .resident || !seqLt x.acceptSeq x.tail || decide (65536 ≤ s.sched.tokens) || !s.boot.hostUp then .next s
  else
    let i := s.ringImage x q
    let irq := bit (fld i 4 31 0) 5
    if cSeq i ≠ q then .next (faultCtx s c 0x0005 0 q 0xFFFF irq)
    else if imageBad i then .next (faultCtx s c 0x0001 0 q 0xFFFF irq)
    else match s.acceptFault (cmdOf c q i) with
    | some f => .next (faultCtx s c f.1 (BitVec.ofNat 64 f.2) q (unitOf i) irq)
    | none => .next (s.acceptCmd c q i)

/-! ### Dispatch (R173, R181 to R185) -/

/-- The evaluation window a command finds (R183). -/
def Ctx.window (x : Ctx) (q : W32) : Bool :=
  (x.flight.takeWhile (·.seq ≠ q)).foldl (fun w f => windowAfter w f.img) x.evalOpen

/-- Does a SYNC that is not complete hold command `i`: every SYNC but a SIGNAL without FENCE does, within
its scope (R182)? -/
def syncHolds (g i : Image) : Bool :=
  cClass g == 7 && !(fld g 0x10 2 0 == 0 && !bit (fld g 0x10 31 0) 3)
    && (!bit (fld g 0x10 31 0) 4 || namesCluster i == some (cCluster g))

/-- ORDERED and SYNC let the command go. -/
def Ctx.inOrder (x : Ctx) (f : Flight) : Bool :=
  let e := x.earlier f.seq
  !(e.any fun g => syncHolds g.img f.img)
    && !(cOrdered f.img && (namesCluster f.img).isSome && e.any fun g => namesCluster g.img == namesCluster f.img)

/-- Can the command make a completion record (R179)? -/
def makesRecord (i : Image) : Bool := cNotify i || cClass i == 6

/-- Is the cluster being withdrawn or in SERVICE (R272)? What names a failed one faults and does not wait (R273). -/
def State.clHeld (s : State) (cl : Nat) : Bool :=
  s.cluShut cl || (s.st.st != 0 && decide (s.st.unit.1 ≤ 1) && s.st.unit.2 == cl)
/-- Is a die's Touchstone? -/
def State.tdHeld (s : State) (d : Nat) : Bool :=
  ((s.tdie d).service && !(s.tdie d).failed) || (s.st.st != 0 && s.st.unit.1 == 2 && s.st.unit.2 == d)

/-- Nothing is dispatched to a unit that is being withdrawn (R272). -/
def State.engineHeld (s : State) (e : Engine) : Bool :=
  match e with
  | .matrix cl | .vector cl | .teller cl | .dma cl => s.clHeld cl.toNat
  | .touch d => s.tdHeld d.val
  | _ => false

/-- Is the head command ready (R184)? -/
def State.cmdReady (s : State) (c : Nat) (f : Flight) : Bool :=
  let x := s.ctx c
  x.inOrder f && !(makesRecord f.img && x.bufferFull) && !s.engineHeld (engineOf f.img)
    && !((s.clu (cCluster f.img).toNat).foreignTile f.img (BitVec.ofNat 12 c))

/-- A slot of the engine's queue is free (Table CL.3). -/
def State.slotOpen (s : State) (e : Engine) : Bool :=
  match e with
  | .matrix cl => !(s.clu cl.toNat).full 0
  | .vector cl => !(s.clu cl.toNat).full 1
  | .dma cl => !(s.clu cl.toNat).full 2
  | .teller cl => (s.clu cl.toNat).callq.isEmpty && (s.clu cl.toNat).tel.isNone
  | _ => true

/-- The head of a context's queue for an engine. -/
def Ctx.headFor (x : Ctx) (e : Engine) : Option Flight :=
  x.flight.find? fun f => f.phase = .queued && engineOf f.img = e

/-- The ready heads for an engine: (context, head). -/
def State.heads (s : State) (e : Engine) : List (Nat × Flight) :=
  s.ctxs.filterMap fun p =>
    if p.2.st = .resident then
      match p.2.headFor e with
      | some f => if s.cmdReady p.1 f then some (p.1, f) else none
      | none => none
    else none

/-- The higher effective priority goes first, then the earlier acceptance. -/
def State.goesFirst (s : State) (a b : Nat × Flight) : Bool :=
  decide (s.eff b.1 < s.eff a.1) || (s.eff a.1 == s.eff b.1 && decide (a.2.acc < b.2.acc))

def State.bestHead (s : State) : List (Nat × Flight) → Option (Nat × Flight)
  | [] => none
  | a :: t =>
    match s.bestHead t with
    | none => some a
    | some b => some (if s.goesFirst b a then b else a)

/-- The fault of what a command names, and of its place in an evaluation window (R9, R31, R115, R173, R183, R194, R214,
R273). -/
def State.nameFault (s : State) (c : CtxId) (f : Flight) : Option U16 :=
  let i := f.img
  let cls := cClass i
  let w := (s.ctx c.toNat).window f.seq
  if (s.clusterFault c i).isSome then s.clusterFault c i
  else if ((cls == 5 || touchMx i) && !s.unitOn 0) || (cls == 6 && !s.unitOn 1) || (cls == 10 && !s.unitOn 2) then some 0x0011
  else if cls == 11 && !s.unitOn 3 then some 0x0301
  else if s.namesFailed i then some 0x0504
  else if w && (cls == 6 || (cls == 5 && (touchOp i == 3 || (touchOp i == 2 && !bit (fld i 0x10 31 0) 4)))) then some 0x0001
  else if cls == 12 && w == bit (fld i 0x10 31 0) 0 then some 0x0001
  else none

/-- The fault a command meets at dispatch, with its DETAIL. Where it meets several, the first of the arms is reported: the
cluster's before the unit's, a format's and an address's last (R59, R64, R181; DESIGN CHOICE, log 100). -/
def State.dispatchFault (s : State) (c : CtxId) (f : Flight) : Option (U16 × Nat) :=
  match s.nameFault c f with
  | some e => some (e, 0)
  | none => s.fieldFault (cmdOf c f.seq f.img)

/-- A dispatched command enters its engine's queue. -/
def State.pushTo_ (s : State) (e : Engine) (q : QE) : State :=
  match e with
  | .matrix cl => s.modCl cl.toNat fun x => x.enqueue 0 q
  | .vector cl => s.modCl cl.toNat fun x => x.enqueue 1 q
  | .dma cl => s.modCl cl.toNat fun x => x.enqueue 2 q
  | .teller cl => s.modCl cl.toNat fun x => { x with callq := x.callq ++ [q] }
  | .touch d => s.modTd d.val fun x => { x with tq := x.tq ++ [q] }
  | .mint => { s with sched := { s.sched with update := s.sched.update ++ [q] } }
  | .sync => { s with sched := { s.sched with sync := s.sched.sync ++ [{ q := q, waiting := false, age := 0 }] } }
  | .bursar => { s with sched := { s.sched with hint := s.sched.hint ++ [q] } }
  | .cheap _ => { s with sched := { s.sched with cheap := s.sched.cheap ++ [q] } }
  | .strongroom => { s with sched := { s.sched with ckpt := s.sched.ckpt ++ [q] } }
  | .ledger => { s with sched := { s.sched with seq := s.sched.seq ++ [q] } }
  | .eval => { s with sched := { s.sched with eval := s.sched.eval ++ [q] } }

/-- Dispatch one command. -/
def State.dispatchCmd (s : State) (e : Engine) (c : Nat) (f : Flight) : State :=
  (s.modCtx c fun x => x.phase f.seq .dispatched).pushTo_ e
    { ctx := BitVec.ofNat 12 c, seq := f.seq, img := f.img, issued := false, acc := f.acc }

/-- COMMAND_DISPATCH: a free slot of engine `e` takes the ready head of the highest effective priority. -/
def execCommandDispatch (e : Engine) (s : State) : Out :=
  if !s.slotOpen e then .next s else
  match s.bestHead (s.heads e) with
  | none => .next s
  | some (c, f) =>
    let ci : CtxId := BitVec.ofNat 12 c
    match s.dispatchFault ci f with
    | some e => .next (faultCtx s ci e.1 (BitVec.ofNat 64 e.2) f.seq (unitOf f.img))
    | none => .next (s.dispatchCmd e c f)

/-! ### Completion (R105, R179, R180) -/

/-- Cluster-memory ranges a completing MATMUL or DMA read: (cluster, address, length). -/
def State.readRanges (s : State) (q : QE) : List (Nat × Nat × Nat) :=
  let own := (cCluster q.img).toNat
  if cClass q.img = 1 then ((Mx.of q.img).reads (s.mxEnts q)).map fun r => (own, r.1, r.2)
  else match dSrc q.img with
    | .clu cl a => [(cl.toNat, a, dLen q.img)]
    | _ => []

/-- The ring once the slots that a range overlaps are released. -/
def Ring.released (r : Ring) (a n : Nat) : Ring :=
  let hit (k : Nat) : Bool := decide (r.base * 128 + 8192 * k < a + n) && decide (a < r.base * 128 + 8192 * (k + 1))
  let full := r.full.filter fun k => !hit k
  { r with full := full, rel := full.headD r.fill }

/-- LANDING_RELEASE: honoured on MATMUL and DMA. -/
def State.landingRelease (s : State) (q : QE) : State :=
  if cRelease q.img && (cClass q.img == 1 || cClass q.img == 4) then
    (s.readRanges q).foldl (fun s g => if g.2.2 = 0 then s else s.modCl g.1 fun x =>
      if (x.pc q.ctx.toNat).ring.full.isEmpty then x else x.modPc q.ctx.toNat fun y => { y with ring := y.ring.released g.2.1 g.2.2 }) s
  else s

/-- A cluster's engine gives up command `q`. -/
def State.clusterDone (s : State) (q : QE) : State :=
  ((s.landingRelease q).modCl (cCluster q.img).toNat fun x => x.modPc q.ctx.toNat fun y =>
    if y.cheap then { y with ran := true } else y).complete q 0 (cCluster q.img).toNat 0

/-- COMMAND_COMPLETE: an engine of a cluster has finished its command; other engines complete their commands
in their own rows. `k` is the slot of the matrix queue. -/
def execCommandComplete (e : Engine) (k : Nat) (s : State) : Out :=
  match e with
  | .matrix cl =>
    match (s.clu cl.toNat).mq[k]? with
    | some m =>
      if m.done && s.isIn m.q.ctx.toNat then
        .next ((s.modCl cl.toNat fun x => { x with mq := dropAt x.mq k }).clusterDone m.q)
      else .next s
    | none => .next s
  | .vector cl =>
    let x := s.clu cl.toNat
    match x.vq, x.vrun with
    | q :: t, some r =>
      if r.done && s.isIn q.ctx.toNat && x.tally.all (·.ctx ≠ q.ctx) then
        .next ((s.modCl cl.toNat fun x => { x with vq := t, vrun := none }).clusterDone q)
      else .next s
    | _, _ => .next s
  | .teller cl =>
    let x := s.clu cl.toNat
    match x.tel with
    | some t =>
      if t.ended && s.isIn t.q.ctx.toNat && [0, 1, 2].all (fun n => s.issuedOn cl t.q n = 0) then
        .next ((s.modCl cl.toNat fun x => { x with tel := none }).clusterDone t.q)
      else .next s
    | none => .next s
  | .dma cl =>
    let x := s.clu cl.toNat
    match x.dq with
    | q :: t =>
      if x.ddone && s.isIn q.ctx.toNat then
        .next ((s.modCl cl.toNat fun x => { x with dq := t, ddone := false }).clusterDone q)
      else .next s
    | [] => .next s
  | _ => .next s

/-- The bytes of record number `n` (Table CS.4). -/
def Rec.bytes (r : Rec) (n : W32) : List Byte :=
  leBytes 4 n.toNat ++ leBytes 4 r.cmd.toNat ++ leBytes 4 r.kind.toNat ++ leBytes 2 r.code.toNat ++ leBytes 2 r.unit.toNat
    ++ leBytes 8 r.detail.toNat ++ leBytes 8 r.time.toNat

/-- COMPLETION_RECORD_WRITE: the oldest waiting record, where the ring has room; a record that found the buffer full takes
its place there. INTERRUPT sends the context's message once it is written (R179). -/
def execCompletionRecordWrite (c : CtxId) (s : State) : Out :=
  let x := s.ctx c.toNat
  match x.recs with
  | [] => .next s
  | r :: t =>
    if !(decide ((x.cplWritten - x.cplHead).toNat < 2 ^ x.ringM.toNat) && s.boot.hostUp) then .next s
    else
      let n := x.cplWritten + 1
      let a := x.cplBase.toNat + n.toNat % 2 ^ x.ringM.toNat * 32
      let s := { s with host := Mem.writeBytes s.host a (r.bytes n) }.modCtx c.toNat fun x => { x with recs := t, cplWritten := n }
      .next ((if r.irq then s.msi c.toNat else s).endLate c.toNat)

/-! ### SYNC (R182, R189) -/

/-- Complete a SYNC command. -/
def State.syncEnd (s : State) (q : QE) : State := (s.syncDrop q).complete q

/-- A semaphore takes an addend; on a context's COLL_SEM it starts as many collectives (R232). -/
def State.semAdd (s : State) (c : Nat) (i : Nat) (v : W32) : State :=
  let s := s.modSem i fun x => { x with value := x.value + v }
  if (s.lkc c).collSem.toNat = i ∧ 4 ≤ (s.lkc c).collqLog.toNat then
    s.modLkc c fun x => { x with units := x.units + v.toNat }
  else s

/-- The semaphore of a SIGNAL is valid and the context's own. -/
def State.signals (s : State) (q : QE) : Bool := (s.sem (syncSem q.img)).valid && (s.sem (syncSem q.img)).owner == q.ctx
/-- A SIGNAL waits: its FENCE, for every earlier command. -/
def State.fenced (s : State) (q : QE) : Bool :=
  bit (fld q.img 0x10 31 0) 3 && (s.ctx q.ctx.toNat).completeSeq != q.seq - 1

/-- The context's first SIGNAL that need not wait: one held by its FENCE holds back only what its scope does, and that
is not dispatched (R182). -/
def State.signalHead (s : State) (c : CtxId) : Option SyncCmd :=
  s.sched.sync.find? fun x => x.q.ctx = c && fld x.q.img 0x10 2 0 == 0 && !(s.signals x.q && s.fenced x.q)

/-- SIGNAL: only by the owner; FENCE waits for every earlier command. -/
def execSignal (c : CtxId) (s : State) : Out :=
  match s.signalHead c with
  | none => .next s
  | some k =>
    if !s.isIn c.toNat then .next s
    else if !s.signals k.q then .next (s.faultCmd k.q 0x0003)
    else .next ((s.semAdd c.toNat (syncSem k.q.img) (w32 k.q.img 0x18)).syncEnd k.q)

/-- A wait is over at once, or begins; what other waits lend is noted before. -/
def State.syncTry (s : State) (q : QE) : State := if s.syncMet q then s.syncEnd q else s.reinherit.syncWait q

/-- WAIT_GE: by any context with the owner's JOB; on an invalid semaphore SEM_LOST. -/
def execWaitGe (c : CtxId) (s : State) : Out :=
  match s.sched.sync.find? fun x => x.q.ctx = c && fld x.q.img 0x10 2 0 == 1 && !x.waiting with
  | none => .next s
  | some k =>
    let m := s.sem (syncSem k.q.img)
    if !s.isIn c.toNat then .next s
    else if !m.valid then .next (s.faultCmd k.q 0x000F)
    else if (s.ctx m.owner.toNat).job ≠ (s.ctx c.toNat).job then .next (s.faultCmd k.q 0x0003)
    else .next (s.syncTry k.q)

/-- WAIT_CMD. -/
def execWaitCmd (c : CtxId) (s : State) : Out :=
  match s.sched.sync.find? fun x => x.q.ctx = c && fld x.q.img 0x10 2 0 == 2 && !x.waiting with
  | none => .next s
  | some k => if s.isIn c.toNat then .next (s.syncTry k.q) else .next s

/-- SYNC_WAIT_SATISFIED. -/
def execSyncWaitSatisfied (c : CtxId) (seq : W32) (s : State) : Out :=
  match s.sched.sync.find? fun x => x.q.ctx = c && x.q.seq = seq && x.waiting with
  | none => .next s
  | some k => if s.syncMet k.q then .next (s.syncEnd k.q).reinherit else .next s

/-! ### EVAL (R183, R214) -/

def State.evalHead (s : State) (c : CtxId) (begin_ : Bool) : Option QE :=
  s.sched.eval.find? fun q => q.ctx = c && bit (fld q.img 0x10 31 0) 0 == begin_

def State.evalDone (s : State) (q : QE) : State :=
  { s with sched := { s.sched with eval := s.sched.eval.filter (· ≠ q) } }.complete q 0 0xFFFF (BitVec.ofNat 64 (fld q.img 0x14 31 0))

/-- EVAL BEGIN: the window is open from its place in the sequence on. -/
def execEvalBegin (c : CtxId) (s : State) : Out :=
  match s.evalHead c true with
  | none => .next s
  | some q => if s.isIn c.toNat then .next (s.evalDone q) else .next s

/-- EVAL END: when every earlier command has completed. -/
def execEvalEnd (c : CtxId) (s : State) : Out :=
  match s.evalHead c false with
  | none => .next s
  | some q =>
    if s.isIn c.toNat && (s.ctx c.toNat).completeSeq == q.seq - 1 then .next (s.evalDone q) else .next s

/-! ### CHEAP (R186) -/

/-- CHEAP: once every earlier command of the context on its cluster is complete, its live-set descriptor is
copied. -/
def execCheap (c : CtxId) (cl : ClId) (s : State) : Out :=
  match s.sched.cheap.find? fun q => q.ctx = c && cCluster q.img = cl with
  | none => .next s
  | some q =>
    let a := fld q.img 0x10 15 0 * 128
    if !s.isIn c.toNat || ((s.ctx c.toNat).earlier q.seq).any (fun g => namesCluster g.img == some cl) then .next s
    else if !s.ownsIn c cl a 128 then .next (s.faultCmd q 0x0003 (BitVec.ofNat 64 a) (clUnit q.img))
    else
      let live := Mem.readN (s.clu cl.toNat).mem a 128
      let s := s.modCl cl.toNat fun x => x.modPc c.toNat fun y => { y with cheap := true, ran := false, live := live }
      .next ({ s with sched := { s.sched with cheap := s.sched.cheap.filter (· ≠ q) } }.complete q 0 cl.toNat 0)

end Sys2Proof.Machine
end

