-- ==== Sys2Proof/Machine/Mint.lean ====
section
/-! DEFINITION. The Mint: descriptors and coefficients, arming, OPEN and bundles, the recurrence, two-pass
rules, completion (R153 to R171). -/

namespace Sys2Proof.Machine
open Sys2Proof

/-! ### Descriptors (R154, R155, Table MT.1) -/

def descOf (m : Mem) (a : Nat) : Desc :=
  let w (o : Nat) : Nat := Mem.readN m (a + o) 4
  let q (o : Nat) : Nat := Mem.readN m (a + o) 8
  let f := w 0
  { rows := bit f 0, wFmt := bits f 2 1, mFmt := bits f 3 3, vFmt := bits f 4 4, coeff := bits f 10 5
    step := Mem.read32 m (a + 4), lastDone := Mem.read32 m (a + 8), bcOrigin := Mem.read32 m (a + 12)
    tidW := Mem.read32 m (a + 0x10), tidM := Mem.read32 m (a + 0x14), tidV := Mem.read32 m (a + 0x18)
    nRows := w 0x1C % 2 ^ 24, nCols := w 0x20 % 2 ^ 24, stripe := w 0x24 % 2 ^ 24
    wBase := q 0x28, mBase := q 0x30, vBase := q 0x38, wsBase := q 0x40, rowTable := q 0x48
    normDest := Mem.read32 m (a + 0x50), clipSrc := Mem.read32 m (a + 0x54)
    resv := decide (2 ^ 11 ≤ f) || bits f 2 1 == 3 || decide (2 ^ 24 ≤ w 0x1C) || decide (2 ^ 24 ≤ w 0x20) || decide (2 ^ 24 ≤ w 0x24)
      || w 0x1C == 0 || w 0x20 == 0 || w 0x24 == 0 || Mem.readN m (a + 0x58) 40 != 0 }

namespace Desc
def stackIds (d : Desc) : List Nat := (List.range 24).filter fun i => bit d.stripe i
def n (d : Desc) : Nat := d.stackIds.length
def home (d : Desc) : Nat := d.stackIds.headD 0
def total (d : Desc) : Nat := d.nRows * d.nCols
/-- The format code of w. -/
def wCode (d : Desc) : Nat := if d.wFmt = 2 then 4 else d.wFmt

/-- Elements of the share at place `i` of the stripe (R155). -/
def shareLen (d : Desc) (i : Nat) : Nat :=
  if d.rows then (d.nRows + d.n - 1 - i) / d.n * d.nCols
  else
    let full := d.total / 32768
    (full + d.n - 1 - i) / d.n * 32768 + (if full % d.n = i then d.total % 32768 else 0)

/-- Place in the stripe and local position of element `e`. -/
def place (d : Desc) (e : Nat) : Nat × Nat :=
  if d.rows then (e / d.nCols % d.n, e / d.nCols / d.n * d.nCols + e % d.nCols)
  else (e / 32768 % d.n, e / 32768 / d.n * 32768 + e % 32768)

/-- The element at local position `p` of place `i`. -/
def elem (d : Desc) (i p : Nat) : Nat :=
  if d.rows then (p / d.nCols * d.n + i) * d.nCols + p % d.nCols
  else (p / 32768 * d.n + i) * 32768 + p % 32768

/-- Byte address of stack-local offset `o`. -/
def addr (stack o : Nat) : Nat := stack * 2 ^ 36 + o
end Desc

/-! ### Coefficients (R161, Table MT.3) -/

def coeffOf (m : Mem) (a : Nat) : Coeff :=
  let w (o : Nat) : W32 := Mem.read32 m (a + o)
  { modes := Mem.readN m a 4, a1 := w 4, b1 := w 8, a2 := w 12, b2 := w 16, e1 := w 20, e2 := w 24, e3 := w 28
    eps := w 32, gClip := w 36, uClip := w 40, phiMax := w 44, factEps := w 48 }

namespace Coeff
def mFull (c : Coeff) : Bool := bit c.modes 0
def vMode (c : Coeff) : Nat := bits c.modes 2 1
def tMode (c : Coeff) : Nat := bits c.modes 4 3
def phi (c : Coeff) : Nat := bits c.modes 6 5
def bc1 (c : Coeff) : Bool := bit c.modes 7
def bc2 (c : Coeff) : Bool := bit c.modes 8
def byCount (c : Coeff) : Bool := bit c.modes 9
def inTrust (c : Coeff) : Bool := bit c.modes 10
/-- PHI not one, or V_MODE factored (R163). -/
def two (c : Coeff) : Bool := c.phi != 0 || c.vMode == 2

/-- An entry that is not valid for a descriptor. -/
def bad (c : Coeff) (rows : Bool) : Bool :=
  c.vMode == 3 || c.tMode == 3 || c.phi == 3 || decide (2 ^ 11 ≤ c.modes)
    || (!c.mFull && !(isZero c.e1 && isZero c.e3 && isZero c.a1 && isZero c.b1 && !c.bc1))
    || (c.vMode == 0 && !(isZero c.a2 && isZero c.b2 && !c.bc2))
    || (c.vMode == 2 && !(c.mFull && c.phi == 0))
    || (c.two && !(isZero c.e1 && isZero c.e2))
    || (rows && (c.vMode == 2 || c.phi != 0))

/-- Scratch words a two-pass rule needs on each Mint (R164). -/
def scratch (c : Coeff) (d : Desc) : Nat :=
  if c.phi = 1 then 2 else if c.phi = 2 then 2 * d.nRows else if c.vMode = 2 then d.nRows + d.nCols else 0
end Coeff

def coeffResv (m : Mem) (a : Nat) : Bool := Mem.readN m (a + 0x34) 12 != 0

/-! ### Regions (R154) -/

/-- The w, m, v and row-table regions: (stack, offset, length). A factored v lies on the home stack (log 76). -/
def Desc.regions (d : Desc) (factored : Bool) : List (Nat × Nat × Nat) :=
  let parts := (d.stackIds.zipIdx.map fun t =>
    let k := d.shareLen t.2
    if k = 0 then [] else
      (if d.wFmt = 2 then [(t.1, d.wBase, 16 * ((k + 31) / 32)), (t.1, d.wsBase, (k + 31) / 32)] else [(t.1, d.wBase, 2 * k)])
        ++ (if d.mBase = 0 then [] else [(t.1, d.mBase, 2 * k)])
        ++ (if d.vBase = 0 || factored then [] else [(t.1, d.vBase, 2 * k)])
        ++ (if d.rows then [(t.1, d.rowTable, 8 * (k / d.nCols))] else [])).flatten
  if factored && d.vBase != 0 then (d.home, d.vBase, 2 * (d.nRows + d.nCols)) :: parts else parts

/-- A region its format does not fit: beyond its stack's memory, on an unpowered die, or FP4 blocks that would
run over the rows of a rows layer (log 77). -/
def State.misfit (s : State) (d : Desc) (factored : Bool) : Bool :=
  (d.wFmt == 2 && d.rows && d.nCols % 32 != 0)
    || (d.regions factored).any fun r => !s.diePowered (r.1 / 3) || decide (36000000000 < r.2.1 + r.2.2)

def State.badDesc (s : State) (d : Desc) (factored : Bool) : Bool := d.resv || s.misfit d factored

def regionsMeet (a b : Nat × Nat × Nat) : Bool := a.1 == b.1 && rangesMeet a.2.1 a.2.2 b.2.1 b.2.2
def selfMeet : List (Nat × Nat × Nat) → Bool
  | [] => false
  | a :: t => t.any (regionsMeet a) || selfMeet t

/-- The first descriptor of a table that breaks a rule of R154. -/
def State.descOffender (s : State) (l : List (Desc × Bool)) : Option Nat :=
  (List.range l.length).find? fun i =>
    match l[i]? with
    | some (d, f) => s.badDesc d f || selfMeet (d.regions f)
        || (l.take i).any fun e => (e.1.regions e.2).any fun a => (d.regions f).any (regionsMeet a)
    | none => false

/-- The coefficient entry of a descriptor is factored. -/
def State.factored (s : State) (base : Nat) (d : Desc) : Bool := (coeffOf s.hbm (base + 64 * d.coeff)).vMode == 2

def State.hasUpdate (s : State) (c : CtxId) : Bool := s.upd.any (·.ctx = c)

/-- What DESC_APPLY reads for descriptor `i` of the selected table: its 128 bytes and its coefficient entry. -/
def State.descReads (s : State) (c i : Nat) : List (Nat × Nat) :=
  let x := s.mtc c
  let a := x.descBase.toNat + 128 * i
  [(a, 128), (x.coeffBase.toNat + 64 * (descOf s.hbm a).coeff, 64)]

/-- The first descriptor that breaks a rule of R154, or cannot be read (R271; log 28). -/
def State.descBad (s : State) (c : Nat) (l : List (Desc × Bool)) : Option Nat :=
  ((s.descOffender l).toList ++ ((List.range l.length).find? fun i => (s.descReads c i).any fun r => s.ueMeets r.1 r.2).toList).min?

/-- The first offending descriptor: one the table's checks find, or one that is armed (R154, R171). -/
def State.applyBad (s : State) (c : CtxId) (l : List (Desc × Bool)) : Option Nat :=
  ((s.descBad c.toNat l).toList ++ (s.upd.filter (·.ctx == c)).map (·.desc.toNat)).min?

/-- DESC_APPLY: the table is checked and installed, or rejected; an error that its reading meets has the outcome of Table
SG.5. With the Mints off nothing is read and descriptor 0 is named (R9). -/
def execDescApply (v : W32) (s : State) : Out :=
  let c := s.sel.mtCtx
  let x := s.mtc c.toNat
  if !bit v.toNat 0 || !s.canWrite pgMintCtx then .next s
  else
    let l := (List.range x.descCount.toNat).map fun i =>
      let d := descOf s.hbm (x.descBase.toNat + 128 * i)
      (d, s.factored x.coeffBase.toNat d)
    match (if !s.unitOn 1 then some 0 else s.applyBad c l) with
    | some i =>
      let s := if !s.unitOn 1 then s else (s.meetUe ((List.range l.length).flatMap (s.descReads c.toNat))).getD s
      .next ((s.modMtc c.toNat fun x => { x with reject := true, first := BitVec.ofNat 12 i }).alarm pgMintCtx 0 (some c))
    | none => .next (s.modMtc c.toNat fun x => { x with
        valid := true, reject := false, busy := true, first := 0
        instBase := x.descBase, instCount := x.descCount, instCoeff := x.coeffBase }).checkTier

def execDescApplyDone (c : CtxId) (s : State) : Out :=
  if (s.mtc c.toNat).busy then .next (s.modMtc c.toNat fun x => { x with busy := false }) else .next s

/-- DESC_BASE, DESC_COUNT, COEFF_BASE (R171). -/
def execMintTableBaseWrite (off : BitVec 12) (v : W32) (s : State) : Out :=
  let c := s.sel.mtCtx
  let o := off.toNat
  if !s.canWrite pgMintCtx || !([0x44, 0x48, 0x4C, 0x50, 0x54].contains o) then .next s
  else if s.hasUpdate c || (o == 0x4C && decide (4096 < v.toNat % 2 ^ 13)) then .next (s.alarm pgMintCtx 0 (some c))
  else .next (s.modMtc c.toNat fun x =>
    if o = 0x44 then { x with descBase := lo64 x.descBase v.toNat 0xFFFFFF80 }
    else if o = 0x48 then { x with descBase := hi64 x.descBase v.toNat }
    else if o = 0x4C then { x with descCount := BitVec.ofNat 13 v.toNat }
    else if o = 0x50 then { x with coeffBase := lo64 x.coeffBase v.toNat 0xFFFFF000 }
    else { x with coeffBase := hi64 x.coeffBase v.toNat })

/-! ### Faults and updates in progress -/

/-- A Mint status that faults: MINT_LAST_FAULT of the Mint that found it, and the context's fault (R170). -/
def State.mintFault (s : State) (c : CtxId) (desc : BitVec 12) (st : Nat) (stack : Option Nat) (cmd : W32) : State :=
  let s := match stack with
    | some m => s.modMnt m fun x => { x with lastFault := BitVec.ofNat 32 (st + desc.toNat * 2 ^ 8 + c.toNat * 2 ^ 20) }
    | none => s
  faultCtx s c (BitVec.ofNat 16 (0x100 + st)) 0 cmd (match stack with
    | some m => BitVec.ofNat 16 (m / 3)
    | none => 0xFFFF)

def Update.is (u : Update) (c : CtxId) (desc : BitVec 12) : Bool := u.ctx == c && u.desc == desc
def State.updOf (s : State) (c : CtxId) (desc : BitVec 12) : Option Update := s.upd.find? (·.is c desc)
def State.setUpd (s : State) (u : Update) : State :=
  { s with upd := s.upd.map fun x => if x.is u.ctx u.desc then u else x }
def Update.armed (u : Update) : Bool := u.shares.all (·.armed)
/-- The update still holds its scratch: until pass 2 has ended on the Mint. -/
def Update.holdsScratch (u : Update) (stack : Nat) : Bool :=
  u.c.two && u.shares.any fun h => h.stack == stack && h.armed && !h.pass2

/-- Is the Mint being withdrawn or in SERVICE (R272)? A failed one stays there (R273). -/
def State.mintHeld (s : State) (m : Nat) : Bool :=
  (s.mnt m).service || (s.st.st != 0 && s.st.unit.1 == 3 && s.st.unit.2 == m)

/-- May the Mint take a bundle or run a pass (R247, R272)? -/
def State.mintRuns (s : State) (m : Nat) : Bool := s.issueOpen (m / 3) && !(s.mnt m).service

/-- Bundles in a Mint's reorder buffer, of every update (R158). -/
def State.buffered (s : State) (m : Nat) : Nat :=
  (s.upd.map fun u => ((u.shares.filter (·.stack = m)).map fun h => h.reorder.length).sum).sum

/-- May the update take a slot, and its scratch, on a Mint (R153, R164, R272)? -/
def State.slotFree (s : State) (u : Update) (stack : Nat) : Bool :=
  let held := s.upd.filter fun x => !x.is u.ctx u.desc && x.shares.any fun h => h.stack == stack && h.armed
  decide (held.length < 16) && !(u.c.two && held.any (·.holdsScratch stack)) && !s.mintHeld stack

/-- Claim slots in ascending stack order up to the first Mint that has none. -/
def State.claim (s : State) (u : Update) : List Share → List Share
  | [] => []
  | h :: t =>
    if h.armed then h :: s.claim u t
    else if s.slotFree u h.stack then { h with armed := true } :: s.claim u t
    else h :: t

/-- A word of cluster memory that NORM_DEST or CLIP_SRC names. -/
def wordAt (w : W32) : ClId × Nat := (BitVec.ofNat 11 w.toNat, w.toNat / 2 ^ 11 * 4)

/-- The update goes on claiming; once armed, the clip factor is read (R166). -/
def State.armOn (s : State) (u : Update) : State :=
  let u := { u with shares := s.claim u u.shares }
  let w := wordAt u.d.clipSrc
  let u := if u.armed && !u.frozen && u.d.clipSrc != 0 then { u with clip := Mem.read32 (s.clu w.1.toNat).mem w.2 } else u
  (s.setUpd u).modCtx u.ctx.toNat fun x => if u.armed then x.phase u.seq .dispatched else x.waitsFrom u.seq s.sched.clock

/-! ### UPDATE (R156) -/

/-- A word's cluster has failed its test (R273). -/
def State.wordFailed (s : State) (w : W32) : Bool := w != 0 && (s.clu (wordAt w).1.toNat).failed

/-- The fault of NORM_DEST or CLIP_SRC (check 6), with its address; UNIT_FAIL where the word lies in a cluster that has
failed (R273). -/
def State.wordFault (s : State) (c : CtxId) (w : W32) : Option (U16 × Nat) :=
  if w = 0 then none
  else match s.locCheck c (.clu (wordAt w).1 (wordAt w).2) 4 true with
  | some f => some (f, (wordAt w).2)
  | none => if s.wordFailed w then some (0x0504, 0) else none

/-- The fault of several words: BAD_CLUSTER of any of them, then BAD_ADDRESS, then UNIT_FAIL (check 6). -/
def State.wordsFault (s : State) (c : CtxId) (ws : List W32) : Option (U16 × Nat) :=
  let fs := ws.filterMap (s.wordFault c)
  [0x0004, 0x0003, 0x0504].findSome? fun k => fs.find? (·.1 == k)

/-- What arming finds: a Mint status, another fault code with its Mint and address, or the update. -/
inductive Arming where
  | status (st : Nat) (stack : Option Nat)
  | code (f : U16) (stack : Nat) (addr : Nat)
  | go (u : Update)

/-- The checks of R156 at the home Mint, with the rules of R154 that concern the one descriptor, and the error of its
read (R271); where the table gives
no descriptor, the Mint of M0 notes the fault (log 98). -/
def State.arming (s : State) (q : QE) : Arming :=
  let c := q.ctx
  let x := s.mtc c.toNat
  let ix := fld q.img 0x10 11 0
  let n := cStep q.img
  let d := descOf s.hbm (x.instBase.toNat + 128 * ix)
  let ca := x.instCoeff.toNat + 64 * d.coeff
  let k := coeffOf s.hbm ca
  let home := some d.home
  let froz := (d.regions (k.vMode == 2)).any fun r => (pagesOf (Desc.addr r.1 r.2.1) r.2.2).any fun g => bit (s.page g) 13
  if !x.valid || decide (x.instCount.toNat ≤ ix) then .status 0x12 (some 0)
  else if s.ueMeets (x.instBase.toNat + 128 * ix) 128 then .code 0x0501 d.home (x.instBase.toNat + 128 * ix)
  else if s.ueMeets ca 64 then .code 0x0501 d.home ca
  else if s.badDesc d (k.vMode == 2) || selfMeet (d.regions (k.vMode == 2)) then .status 0x12 home
  else if d.stackIds.any fun m => (s.mnt m).failed then .code 0x0504 d.home 0
  else if k.bad d.rows || coeffResv s.hbm ca then .status 0x13 home
  else if froz && x.strict then .status 0x02 home
  else if (s.updOf c (BitVec.ofNat 12 ix)).isSome || (!froz && d.lastDone == n) then .status 0x11 home
  else if !froz && n != d.step then .status 0x10 home
  else
    match (if froz then none else s.wordsFault c [d.clipSrc, d.normDest]) with
    | some f => .code f.1 d.home f.2
    | none =>
      if 131072 < k.scratch d then .status 0x12 home
      else .go { ctx := c, seq := q.seq, desc := BitVec.ofNat 12 ix, step := n, eta := w32 q.img 0x14, lam := w32 q.img 0x18
                 d := d, c := k, clip := one32, frozen := froz, shares := d.stackIds.map fun m => { stack := m } }

/-- UPDATE. -/
def execUpdate (c : CtxId) (s : State) : Out :=
  match s.sched.update.find? (·.ctx = c) with
  | none => .next s
  | some q =>
    if !s.isIn c.toNat then .next s else
    match s.arming q with
    | .status st m => .next (s.mintFault c (BitVec.ofNat 12 (fld q.img 0x10 11 0)) st m q.seq)
    | .code f m a => .next (s.faultAt q (f, a) (BitVec.ofNat 16 (m / 3)))
    | .go u => .next (State.armOn { s with
        sched := { s.sched with update := s.sched.update.filter (· ≠ q) }, upd := s.upd ++ [u] } u)

/-- UPDATE_ARM_RESUME: the clip word is cluster memory, so the context must be IN; a word in a cluster that has failed
meanwhile faults it (R273). -/
def execUpdateArmResume (c : CtxId) (desc : BitVec 12) (s : State) : Out :=
  match s.updOf c desc with
  | none => .next s
  | some u =>
    if u.armed || !s.isIn c.toNat then .next s
    else if !u.frozen && (s.wordFailed u.d.clipSrc || s.wordFailed u.d.normDest) then
      .next (faultCtx s c 0x0504 0 u.seq (BitVec.ofNat 16 (u.d.home / 3)))
    else .next (s.armOn u)

/-! ### OPEN (R157) -/

/-- What a Mint does with an OPEN. -/
inductive Opening where
  | wait
  | status (st : Nat) (u : Update)
  | skew (u : Update)
  | go (u : Update)

def State.opening (s : State) (c : CtxId) (desc : BitVec 12) (step : W32) (count : Nat) : Opening :=
  match s.updOf c desc with
  | none => .wait
  | some u =>
    if !u.armed || u.shares.any fun h => s.mintHeld h.stack then .wait
    else if step ≠ u.step then .status 0x10 u
    else if u.opened then .status 0x11 u
    else if (if u.d.rows then count % u.d.nCols ≠ 0 else count ≠ u.d.total) then .status 0x14 u
    else if u.frozen then .go { u with opened := true, total := count }
    else match (s.nums c.toNat).eAt step with
    | .wait => .wait
    | .skew => .skew u
    | .val e => .go { u with opened := true, total := count, scale := pow2 (-e.toInt) }

def State.doOpen (s : State) (c : CtxId) (desc : BitVec 12) (step : W32) (count : Nat) : Option State :=
  match s.opening c desc step count with
  | .wait => none
  | .status st u => some (s.mintFault c desc st (some u.d.home) u.seq)
  | .skew u => some (faultCtx s c 0x000E 0 u.seq)
  | .go u => some (s.setUpd u)

/-- The first message the collective engine holds, of a kind, with no earlier one for its layer, that the
Mints can take; with its place in the queue. -/
def State.engineMsg (s : State) (isOpen : Bool) (ok : Bundle → Bool) : Option (Nat × Bundle) :=
  let l := s.links.toMint
  ((List.range l.length).find? fun i =>
    match l[i]? with
    | some (b, o) => o == isOpen && !((l.take i).any fun e => e.1.ctx == b.ctx && e.1.desc == b.desc) && ok b
    | none => false).bind fun i => (l[i]?).map fun b => (i, b.1)

def State.dropMsg (s : State) (i : Nat) : State := { s with links := { s.links with toMint := dropAt s.links.toMint i } }

/-- MINT_OPEN, from the collective engine or over a link; one no Mint can take yet waits. -/
def execMintOpen (src : MintSrc) (s : State) : Out :=
  match src with
  | .engine =>
    match s.engineMsg true fun b => (s.doOpen b.ctx b.desc b.step b.count).isSome with
    | none => .next s
    | some (i, b) => .next (((s.dropMsg i).doOpen b.ctx b.desc b.step b.count).getD s)
  | .link p k _ =>
    s.receive p.val k 6 fun s =>
      (s.doOpen k.dstCtx (BitVec.ofNat 12 k.target.toNat) k.step (k.aux.toNat % 2 ^ 48)).map .next

/-! ### The recurrence (R162, R163, R165 to R167, R169) -/

def fclamp (x lo hi : W32) : W32 := if flt x lo then lo else if flt hi x then hi else x
def fsign (x : W32) : W32 := if isNan x then x else if isZero x then 0 else if bit x.toNat 31 then 0xBF800000#32 else one32
def fpow (a t : W32) : W32 := fexp2 (fmul t (flog2 a))
def signed32 (a b : W32) : Int := (a - b).toInt

/-- The bias corrections (k₁, k₂) for a count t. -/
def Coeff.corr (c : Coeff) (t : Int) : W32 × W32 :=
  let f := f32OfInt t
  let k (a : W32) (on : Bool) : W32 := if on && decide (1 ≤ t) then frcp (fsub one32 (fpow a f)) else one32
  (k c.a1 c.bc1, k c.a2 c.bc2)

/-- The direction u from usrc and v_new. -/
def Coeff.dir (c : Coeff) (k : W32 × W32) (usrc vnew : W32) : W32 :=
  let den := if c.vMode = 0 then one32 else fadd (fsqrt (fmul vnew k.2)) c.eps
  let x := fmul (fmul usrc k.1) (frcp den)
  if c.tMode = 1 then fsign x else if c.tMode = 2 then fclamp x (fneg c.uClip) c.uClip else x

/-- w_new before rounding. -/
def Update.wnew (u : Update) (w dir phi : W32) : W32 :=
  if u.c.inTrust then fsub w (fmul u.eta (fmul phi (fma u.lam w dir)))
  else fsub w (fmul u.eta (fma phi dir (fmul u.lam w)))

/-- d of the trust ratio. -/
def Update.trust (u : Update) (w dir : W32) : W32 := if u.c.inTrust then fma u.lam w dir else dir

/-- φ from its two sums. -/
def Coeff.ratio (c : Coeff) (nw nu : W32) : W32 :=
  if isZero nw || isZero nu then one32
  else
    let r := fmul (fsqrt nw) (frcp (fsqrt nu))
    if !isZero c.phiMax && flt c.phiMax r then c.phiMax else r

/-- A Mint at work on a share: memory, sums, the reports to the Census, elements skipped. -/
structure Work where
  hbm : Mem
  sh : Share
  tw : Tally4 := {}
  ts : Tally4 := {}
  tm : Tally4 := {}
  tv : Tally4 := {}
  skipped : Nat := 0

/-- What stays the same through a share's work: the update, its place in the stripe, the seed. -/
structure Job where
  u : Update
  i : Nat
  seed : W64

namespace Job

def stack (j : Job) : Nat := j.u.d.stackIds.getD j.i 0
def at_ (j : Job) (base o : Nat) : Nat := Desc.addr j.stack (base + o)
def rnd (j : Job) (tid : W32) (e : Nat) : Rnd := rndOf true j.seed tid j.u.step e

/-- A 16-bit element at local position `p` of a region. -/
def rd (j : Job) (m : Mem) (base fmt p : Nat) : W32 := expand32 fmt (Mem.readN m (j.at_ base (2 * p)) 2) 127
/-- stored(x) in a region, with its report: the memory, the stored value, the conversion. -/
def st (j : Job) (m : Mem) (base fmt : Nat) (tid : W32) (p e : Nat) (x : W32) : Mem × W32 × Conv :=
  let v := convert fmt (j.rnd tid e) x 0
  (Mem.writeN m (j.at_ base (2 * p)) 2 v.code, expand32 fmt v.code 127, v)

/-- w at local position `p`. -/
def rdW (j : Job) (m : Mem) (p : Nat) : W32 :=
  let d := j.u.d
  if d.wFmt = 2 then
    expand32 4 ((Mem.read m (j.at_ d.wBase (p / 2))).toNat / 16 ^ (p % 2) % 16) (Mem.read m (j.at_ d.wsBase (p / 32))).toNat
  else j.rd m d.wBase d.wFmt p

/-- Elements of block `b` of the share that lie inside it. -/
def inBlock (j : Job) (b : Nat) : Nat := min 32 (j.u.d.shareLen j.i - 32 * b)

/-- Encode block `b` from the 32 values held, and write it (R129, R167). -/
def putBlock (j : Job) (w : Work) (b : Nat) : Work :=
  let d := j.u.d
  let xs := (List.range 32).map fun k => ((w.sh.held.find? (·.1 = 32 * b + k)).map Prod.snd).getD 0
  let x := mxEncode (fun k => j.rnd d.tidW (d.elem j.i (32 * b + k))) xs
  let m := Mem.writeBytes w.hbm (j.at_ d.wBase (16 * b)) (packCodes 4 (x.elems.map (·.code)))
  { w with
    hbm := Mem.write m (j.at_ d.wsBase b) (BitVec.ofNat 8 x.scale)
    sh := { w.sh with held := w.sh.held.filter fun h => h.1 / 32 ≠ b }
    tw := w.tw.plus (tallyOf (x.elems.take (j.inBlock b))), ts := w.ts.plus x.scaleTally }

/-- w_new at a position; FP4 values wait until their block is whole. -/
def putW (j : Job) (w : Work) (p e : Nat) (x : W32) : Work :=
  let d := j.u.d
  if d.wFmt = 2 then
    let w := { w with sh := { w.sh with held := w.sh.held ++ [(p, x)] } }
    if (w.sh.held.filter fun h => h.1 / 32 = p / 32).length < j.inBlock (p / 32) then w else j.putBlock w (p / 32)
  else
    let r := j.st w.hbm d.wBase d.wFmt d.tidW p e x
    { w with hbm := r.1, tw := w.tw.add r.2.2 }

/-- w keeps its value: an FP4 block still holds it. -/
def keepW (j : Job) (w : Work) (p : Nat) : Work := if j.u.d.wFmt = 2 then j.putW w p 0 (j.rdW w.hbm p) else w

/-- The row-table entry of local row `l`: (LAST_STEP, TOUCH_COUNT). -/
def rowEntry (j : Job) (m : Mem) (l : Nat) : W32 × W32 :=
  (Mem.read32 m (j.at_ j.u.d.rowTable (8 * l)), Mem.read32 m (j.at_ j.u.d.rowTable (8 * l + 4)))

/-- The bias corrections that hold for element `e`. -/
def corr (j : Job) (m : Mem) (p : Nat) : W32 × W32 :=
  let d := j.u.d
  if d.rows && j.u.c.byCount then j.u.c.corr (j.rowEntry m (p / d.nCols)).2.toNat
  else j.u.c.corr (signed32 j.u.step d.bcOrigin + 1)

/-- m after an element, and v; with the values stored. -/
def moments (j : Job) (w : Work) (p e : Nat) (g1 : W32) : Work × W32 × W32 × W32 :=
  let d := j.u.d
  let c := j.u.c
  let m := if c.mFull then j.rd w.hbm d.mBase d.mFmt p else 0
  let r := if c.mFull then
      let r := j.st w.hbm d.mBase d.mFmt d.tidM p e (fma c.a1 m (fmul c.b1 g1))
      ({ w with hbm := r.1, tm := w.tm.add r.2.2 }, r.2.1)
    else (w, 0)
  let w := r.1
  let v := if c.vMode = 1 then
      let r := j.st w.hbm d.vBase d.vFmt d.tidV p e (fma c.a2 (j.rd w.hbm d.vBase d.vFmt p) (fmul c.b2 (fmul g1 g1)))
      ({ w with hbm := r.1, tv := w.tv.add r.2.2 }, r.2.1)
    else (w, 0)
  (v.1, m, r.2, v.2)

/-- The sums that pass 2 needs (R163): by layer, by row, or factored. -/
def sums (j : Job) (w : Work) (p e : Nat) (g1 mnew vnew : W32) : Work :=
  let d := j.u.d
  let c := j.u.c
  let row := e / d.nCols
  if c.vMode = 2 then
    let a := fadd (fmul g1 g1) c.factEps
    { w with sh := { w.sh with
      rowSum := Words.set w.sh.rowSum row (fadd (Words.get w.sh.rowSum row) a)
      colSum := Words.set w.sh.colSum (e % d.nCols) (fadd (Words.get w.sh.colSum (e % d.nCols)) a) } }
  else
    let x := j.rdW w.hbm p
    let t := j.u.trust x (c.dir (j.corr w.hbm p) (fmul c.e3 mnew) vnew)
    let a := fmul x x
    let b := fmul t t
    if c.phi = 1 then { w with sh := { w.sh with nw := fadd w.sh.nw a, nu := fadd w.sh.nu b } }
    else { w with sh := { w.sh with
      rowSum := Words.set w.sh.rowSum row (fadd (Words.get w.sh.rowSum row) a)
      colSum := Words.set w.sh.colSum row (fadd (Words.get w.sh.colSum row) b) } }

/-- One element as its gradient arrives. -/
def element (j : Job) (w : Work) (p : Nat) (g : W32) : Work :=
  let d := j.u.d
  let c := j.u.c
  let e := d.elem j.i p
  let g0 := fmul g (fmul j.u.scale j.u.clip)
  let g1 := if isZero c.gClip then g0 else fclamp g0 (fneg c.gClip) c.gClip
  if !isFinite g1 then
    let w := { w with skipped := w.skipped + 1 }
    if c.two then { w with sh := { w.sh with skips := w.sh.skips ++ [p] } } else j.keepW w p
  else
    let h := fmul g j.u.scale
    let w := if isFinite g then { w with sh := { w.sh with norm := fadd w.sh.norm (fmul h h) } } else w
    let r := j.moments w p e g1
    if c.two then j.sums r.1 p e g1 r.2.2.1 r.2.2.2
    else
      let usrc := fma c.e1 r.2.1 (fma c.e2 g1 (fmul c.e3 r.2.2.1))
      let x := j.rdW r.1.hbm p
      j.putW r.1 p e (j.u.wnew x (c.dir (j.corr r.1.hbm p) usrc r.2.2.2) one32)

/-- Decay a kept moment of a row by k skipped steps. -/
def decay (j : Job) (w : Work) (isV : Bool) (f : W32) (p : Nat) : Work :=
  let d := j.u.d
  let e := d.elem j.i p
  if isV then
    let r := j.st w.hbm d.vBase d.vFmt d.tidV p e (fmul (j.rd w.hbm d.vBase d.vFmt p) f)
    { w with hbm := r.1, tv := w.tv.add r.2.2 }
  else
    let r := j.st w.hbm d.mBase d.mFmt d.tidM p e (fmul (j.rd w.hbm d.mBase d.mFmt p) f)
    { w with hbm := r.1, tm := w.tm.add r.2.2 }

/-- ROW_LAZY_DECAY: a row's first bundle in an update (R169). -/
def touchRow (j : Job) (w : Work) (l : Nat) : Work :=
  let d := j.u.d
  let c := j.u.c
  let t := j.rowEntry w.hbm l
  let diff := signed32 j.u.step t.1
  let k : Int := if t.1 = 0xFFFFFFFF#32 ∨ diff < 2 then 0 else diff - 1
  let ps := (List.range d.nCols).map (l * d.nCols + ·)
  let w := if 0 < k ∧ c.mFull then ps.foldl (fun w p => j.decay w false (fpow c.a1 (f32OfInt k)) p) w else w
  let w := if 0 < k ∧ c.vMode = 1 then ps.foldl (fun w p => j.decay w true (fpow c.a2 (f32OfInt k)) p) w else w
  let n := if t.2 = 0xFFFFFFFF#32 then t.2 else t.2 + 1
  { w with hbm := Mem.writeN (Mem.writeN w.hbm (j.at_ d.rowTable (8 * l)) 4 j.u.step.toNat) (j.at_ d.rowTable (8 * l + 4)) 4 n.toNat }

/-- A bundle at local position `p`. -/
def bundle (j : Job) (w : Work) (p : Nat) (vals : List W32) : Work :=
  let d := j.u.d
  let w := if d.rows && p % d.nCols == 0 then j.touchRow w (p / d.nCols) else w
  vals.zipIdx.foldl (fun w v => j.element w (p + v.2) v.1) w

/-- Where `n` elements of w at `p` lie, with their block scales. -/
def wRange (j : Job) (p n : Nat) : List (Nat × Nat) :=
  let d := j.u.d
  let k := (p + n + 31) / 32 - p / 32
  if d.wFmt = 2 then [(j.at_ d.wBase (p / 32 * 16), k * 16), (j.at_ d.wsBase (p / 32), k)] else [(j.at_ d.wBase (2 * p), 2 * n)]

/-- What pass 1 of a rule that mixes elements only reads: w, for the sums of PHI (R163). -/
def reads (j : Job) (p n : Nat) : List (Nat × Nat) := if j.u.c.two && j.u.c.vMode != 2 then j.wRange p n else []

/-- The HBM ranges a bundle of `n` elements at `p` reads and writes. -/
def ranges (j : Job) (p n : Nat) : List (Nat × Nat) :=
  let d := j.u.d
  let c := j.u.c
  let whole := d.rows && p % d.nCols == 0
  let p' := if whole then p / d.nCols * d.nCols else p
  let n' := if whole then d.nCols else n
  (if c.two then [] else j.wRange p n)
    ++ (if c.mFull then [(j.at_ d.mBase (2 * p'), 2 * n')] else [])
    ++ (if c.vMode = 1 then [(j.at_ d.vBase (2 * p'), 2 * n')] else [])
    ++ (if d.rows then [(j.at_ d.rowTable (p / d.nCols * 8), 8)] else [])

end Job

/-- Report a work's conversions on its die. -/
def State.reports (s : State) (u : Update) (die : Nat) (w : Work) : State :=
  let c := u.ctx.toNat
  let s := (s.count die c u.d.tidW u.d.wCode w.tw).count die c u.d.tidW 7 w.ts
  (s.count die c u.d.tidM u.d.mFmt w.tm).count die c u.d.tidV u.d.vFmt w.tv

/-- The first fault of ranges `l` that the Mint reads and writes and `rd` that it reads, with its address: its writes are exempt from READ_ONLY alone (R175). -/
def State.mintCheck (s : State) (c : CtxId) (l : List (Nat × Nat)) (rd : List (Nat × Nat) := []) : Option (U16 × Nat) :=
  s.accessFault c.toNat ((l.map fun r => (r.1, r.2, true, true)) ++ (l ++ rd).map fun r => (r.1, r.2, false, false))

/-- A share with the work done on it. -/
def Update.putShare (u : Update) (h : Share) : Update :=
  { u with shares := u.shares.map fun x => if x.stack = h.stack then h else x }

/-- Apply a bundle on the Mint at place `i`: a page fault, a wait, or the elements. -/
def State.applyAt (s : State) (u : Update) (i p : Nat) (vals : List W32) : Option State :=
  let j : Job := { u := u, i := i, seed := (s.nums u.ctx.toNat).seed }
  let n := vals.length
  match u.shares[i]? with
  | none => none
  | some h =>
    let col := p % u.d.nCols
    let mark (h : Share) : Share :=
      if u.d.rows then { h with begun := true, next := (u.d.elem i p) / u.d.nCols, nextCol := col + n, applied := h.applied + n }
      else { h with next := p + n, applied := h.applied + n }
    if !s.mintRuns h.stack then none
    else if u.frozen then some (s.setUpd (u.putShare (mark h)))
    else if (j.ranges p n).any (fun r => s.guarded r.1 r.2) || (j.reads p n).any (fun r => s.hbmWait r.1 r.2) then none
    else match s.mintCheck u.ctx (j.ranges p n) (j.reads p n) with
    | some f => some (faultCtx s u.ctx f.1 (BitVec.ofNat 64 f.2) u.seq (BitVec.ofNat 16 (h.stack / 3)))
    | none =>
      let w := j.bundle { hbm := s.hbm, sh := h } p vals
      let s := (j.ranges p n).foldl (fun s r => s.noteWrite r.1 r.2) { s with hbm := w.hbm }
      let s := s.modMnt h.stack fun x => { x with
        elems := x.elems + BitVec.ofNat 32 n, busyBeats := satAdd x.busyBeats ((n + 63) / 64) }
      let s := s.reports u (h.stack / 3) w
      let s := if w.skipped = 0 then s else
        (s.modMtc u.ctx.toNat fun x => { x with nonfinite := satAdd x.nonfinite w.skipped }).modNum u.ctx.toNat fun x =>
          { x with pendOvf := x.pendOvf ++ [u.step] }
      some (s.setUpd { u.putShare (mark w.sh) with nonfinite := u.nonfinite || w.skipped != 0 })

/-! ### Bundles (R157, R158) -/

/-- What a Mint makes of a bundle. -/
inductive Fate where
  | status (st : Nat) (stack : Option Nat)
  | apply (i p : Nat)
  | buffer (i p : Nat)

/-- The Mint that a bundle's first element reaches, by the layer's striping (R155, R157): it finds the bundle's fault
(R170); an element no Mint of the stripe holds is the home Mint's (log 98). -/
def Desc.reaches (d : Desc) (b : Bundle) : Nat :=
  d.stackIds.getD (d.place (if d.rows then b.first * d.nCols + b.col else b.first)).1 d.home

/-- A rows layer's bundle: what was applied already is TIED before the gaps, and the announced count, are tested. -/
def Update.fateRow (u : Update) (b : Bundle) : Fate :=
  let d := u.d
  let e := b.first * d.nCols + b.col
  if d.nRows ≤ b.first then .status 0x15 (some (d.reaches b))
  else
    let pl := d.place e
    match u.shares[pl.1]? with
    | none => .status 0x14 (some (d.reaches b))
    | some h =>
      if d.nCols < b.col + b.count then .status 0x14 (some h.stack)
      else if h.begun ∧ (b.first < h.next ∨ (b.first = h.next ∧ b.col < h.nextCol)) then .status 0x11 (some h.stack)
      else if (if h.begun ∧ b.first = h.next then b.col ≠ h.nextCol else b.col ≠ 0 ∨ (h.begun ∧ h.nextCol < d.nCols))
        ∨ u.total < (u.shares.map (·.applied)).sum + b.count then .status 0x14 (some h.stack)
      else .apply pl.1 pl.2

/-- A dense layer's bundle. -/
def Update.fateDense (u : Update) (b : Bundle) : Fate :=
  let d := u.d
  if d.total < b.first + b.count ∨ b.first / 32768 ≠ (b.first + b.count - 1) / 32768 then .status 0x14 (some (d.reaches b))
  else
    let pl := d.place b.first
    match u.shares[pl.1]? with
    | none => .status 0x14 (some (d.reaches b))
    | some h =>
      if pl.2 < h.next ∨ h.reorder.any (fun x => rangesMeet (d.place x.first).2 x.count pl.2 b.count) then .status 0x11 (some h.stack)
      else if pl.2 = h.next then .apply pl.1 pl.2
      else .buffer pl.1 pl.2

def Update.fate (u : Update) (b : Bundle) : Fate :=
  if !b.lenOk ∨ b.count = 0 ∨ 2048 < b.count then .status 0x14 (some (u.d.reaches b))
  else if u.d.rows then u.fateRow b else u.fateDense b

/-- The Mint a bundle of no open update reaches: by the armed descriptor, else by the installed table, else that of M0
(log 98). -/
def State.reached (s : State) (b : Bundle) : Nat :=
  let x := s.mtc b.ctx.toNat
  let d := ((s.updOf b.ctx b.desc).map (·.d)).getD (descOf s.hbm (x.instBase.toNat + 128 * b.desc.toNat))
  if (s.updOf b.ctx b.desc).isSome || (x.valid && decide (b.desc.toNat < x.instCount.toNat)) then d.reaches b else 0

/-- A bundle reaches the Mints; none when it must wait. -/
def State.takeBundle (s : State) (b : Bundle) : Option State :=
  match s.upd.find? fun u => u.is b.ctx b.desc && u.opened && u.step == b.step with
  | none => some (s.mintFault b.ctx b.desc 0x10 (some (s.reached b)) (((s.updOf b.ctx b.desc).map (·.seq)).getD 0))
  | some u =>
    if u.shares.any fun h => (s.mnt h.stack).service then none else
    let s := if b.vals.all isFinite then s else s.modNum b.ctx.toNat fun x => { x with pendOvf := x.pendOvf ++ [b.step] }
    match u.fate b with
    | .status st m => some (s.mintFault b.ctx b.desc st m u.seq)
    | .apply i p => s.applyAt u i p b.vals
    | .buffer i _ =>
      match u.shares[i]? with
      | some h => if 64 ≤ s.buffered h.stack then none else some (s.setUpd (u.putShare { h with reorder := h.reorder ++ [b] }))
      | none => none

/-- The part of an engine's bundle that reaches the Mints as one bundle, and the rest: a rows layer's are cut at
the ends of rows. -/
def State.cut (s : State) (b : Bundle) : Bundle × Option Bundle :=
  match s.updOf b.ctx b.desc with
  | none => (b, none)
  | some u =>
    if !u.d.rows then (b, none)
    else
      let n := min b.count (u.d.nCols - b.first % u.d.nCols)
      ({ b with first := b.first / u.d.nCols, col := b.first % u.d.nCols, count := n, vals := b.vals.take n },
        if n = b.count then none else some { b with first := b.first + n, count := b.count - n, vals := b.vals.drop n })

/-- A bundle as its packets carry it (Table LK.3, R221). -/
def State.bundleOf (s : State) (k : Packet) (more : Option Packet) : Bundle :=
  let a := k.aux.toNat
  let t := k.target.toNat
  let desc := BitVec.ofNat 12 t
  let rows := (s.updOf k.dstCtx desc).any (·.d.rows)
  let fp := bit a 12
  let n := a % 2 ^ 12 + 1
  let bs := k.payload ++ (more.map (·.payload)).getD []
  { ctx := k.dstCtx, desc := desc, step := k.step, first := if rows then bits t 35 12 else bits t 59 12
    col := if rows then bits a 39 16 else 0, count := n, fp32 := fp
    vals := ((chunkVals fp bs).take n).map fun v => if fp then v else ofBf16 (v.setWidth 16)
    lenOk := bs.length == n * (if fp then 4 else 2) }

/-- The second packet of a bundle comes right behind the first, through the same checks; `true` when it is taken for
the Mint (R221). -/
def State.second (s : State) (p : Nat) (more : Option Packet) : State × Bool :=
  match more with
  | none => (s, true)
  | some m =>
    if s.links.loop.contains m && s.links.loop.head? != some m then (s, false)
    else match s.arrive p m with
    | .done t => (t, false)
    | .take t => (t, true)

/-- A bundle over a link: both its packets go on, are discarded or wait together (R221, R226). -/
def State.linkBundle (s : State) (p : Nat) (k : Packet) (more : Option Packet) : State :=
  match s.arrive p k with
  | .done t => (t.second p more).1
  | .take t =>
    let r := t.second p more
    match (if r.2 then r.1.takeBundle (r.1.bundleOf k more) else none) with
    | some u => u
    | none => ((s.park p k).second p more).1

/-- MINT_BUNDLE. -/
def execMintBundle (src : MintSrc) (s : State) : Out :=
  match src with
  | .engine =>
    match s.engineMsg false fun b => (s.takeBundle (s.cut b).1).isSome with
    | none => .next s
    | some (i, b) =>
      let r := s.cut b
      let s' := match r.2 with
        | none => s.dropMsg i
        | some t => { s with links := { s.links with toMint := putAt s.links.toMint i (t, false) } }
      .next ((s'.takeBundle r.1).getD s)
  | .link p k more =>
    if k.ty ≠ 7 then .next s else .next (s.linkBundle p.val k more)

/-- REORDER_BUNDLE_APPLY: the waiting bundle that has become next. -/
def execReorderBundleApply (m : StackId) (c : CtxId) (desc : BitVec 12) (s : State) : Out :=
  match s.updOf c desc with
  | none => .next s
  | some u =>
    match u.shares.zipIdx.find? fun h => h.1.stack = m.val with
    | none => .next s
    | some (h, i) =>
      match h.reorder.find? fun b => (u.d.place b.first).2 = h.next with
      | none => .next s
      | some b =>
        let u' := u.putShare { h with reorder := h.reorder.filter (· ≠ b) }
        .next ((s.applyAt u' i h.next b.vals).getD s)

/-! ### Pass 2 (R163) -/

/-- Pass 1 has ended on every Mint of the stripe. -/
def Update.pass1Done (u : Update) : Bool :=
  u.opened && decide ((u.shares.map (·.applied)).sum = u.total) && u.shares.all fun h => h.reorder.isEmpty

/-- The sum of the shares' partials, in ascending stack order. -/
def mergeSum (l : List W32) : W32 :=
  match l with
  | [] => 0
  | a :: t => t.foldl fadd a
def Update.merged (u : Update) (f : Share → W32) : W32 := mergeSum (u.shares.map f)

/-- The merged sums the home Mint broadcasts: φ by layer or by row, and the factored statistics. -/
structure Merged where
  phi : Nat → W32
  r : Nat → W32
  c : Nat → W32
  rbar : W32

/-- The factored statistics are updated on the home stack (R163, R167). -/
def State.statistics (s : State) (u : Update) : Work :=
  let d := u.d
  let j : Job := { u := u, i := 0, seed := (s.nums u.ctx.toNat).seed }
  let one (w : Work) (k : Nat) (x : W32) (len : Nat) : Work :=
    let old := j.rd w.hbm d.vBase d.vFmt k
    let v := j.st w.hbm d.vBase d.vFmt d.tidV k k (fma u.c.a2 old (fmul u.c.b2 (fmul x (frcp (f32OfInt len)))))
    { w with hbm := v.1, tv := w.tv.add v.2.2 }
  let w : Work := { hbm := s.hbm, sh := u.shares.headD { stack := 0 } }
  let w := (List.range d.nRows).foldl (fun w k => one w k (u.merged fun h => Words.get h.rowSum k) d.nCols) w
  (List.range d.nCols).foldl (fun w k => one w (d.nRows + k) (u.merged fun h => Words.get h.colSum k) d.nRows) w

/-- What pass 2 reads once the sums are merged. -/
def Update.broadcast (u : Update) (m : Mem) : Merged :=
  let d := u.d
  let j : Job := { u := u, i := 0, seed := 0 }
  let stat (k : Nat) : W32 := j.rd m d.vBase d.vFmt k
  { phi := fun row =>
      if u.c.phi = 1 then u.c.ratio (u.merged (·.nw)) (u.merged (·.nu))
      else if u.c.phi = 2 then u.c.ratio (u.merged fun h => Words.get h.rowSum row) (u.merged fun h => Words.get h.colSum row)
      else one32
    r := stat, c := fun k => stat (d.nRows + k)
    rbar := fmul ((List.range d.nRows).foldl (fun a k => fadd a (stat k)) 0) (frcp (f32OfInt d.nRows)) }

/-- One element of pass 2. -/
def Job.element2 (j : Job) (g : Merged) (w : Work) (p : Nat) : Work :=
  let d := j.u.d
  let c := j.u.c
  if w.sh.skips.contains p then j.keepW w p
  else
    let e := d.elem j.i p
    let m := if c.mFull then j.rd w.hbm d.mBase d.mFmt p else 0
    let v := if c.vMode = 1 then j.rd w.hbm d.vBase d.vFmt p
      else if c.vMode = 2 then fmul (fmul (g.r (e / d.nCols)) (g.c (e % d.nCols))) (frcp g.rbar) else 0
    let x := j.rdW w.hbm p
    j.putW w p e (j.u.wnew x (c.dir (j.corr w.hbm p) (fmul c.e3 m) v) (g.phi (e / d.nCols)))

/-- Pass 2 on the Mint at place `i`. -/
def State.pass2At (s : State) (u : Update) (g : Merged) (i : Nat) : State :=
  match s.updOf u.ctx u.desc with
  | none => s
  | some u =>
    match u.shares[i]? with
    | none => s
    | some h =>
      let j : Job := { u := u, i := i, seed := (s.nums u.ctx.toNat).seed }
      let n := u.d.shareLen i
      let w := (List.range n).foldl (j.element2 g) { hbm := s.hbm, sh := h }
      let s := s.reports u (h.stack / 3) w
      let s := { s with hbm := w.hbm }.modMnt h.stack fun x => { x with busyBeats := satAdd x.busyBeats ((n + 63) / 64) }
      s.setUpd (u.putShare { w.sh with pass2 := true })

/-- The ranges pass 2 writes: w, and the statistics. -/
def Update.pass2Ranges (u : Update) : List (Nat × Nat) :=
  let d := u.d
  (d.stackIds.zipIdx.map fun t =>
    let k := d.shareLen t.2
    if d.wFmt = 2 then [(Desc.addr t.1 d.wBase, 16 * ((k + 31) / 32)), (Desc.addr t.1 d.wsBase, (k + 31) / 32)]
    else [(Desc.addr t.1 d.wBase, 2 * k)]).flatten
    ++ (if u.c.vMode = 2 then [(Desc.addr d.home d.vBase, 2 * (d.nRows + d.nCols))] else [])

/-- The ranges pass 2 only reads: m and v. -/
def Update.pass2Reads (u : Update) : List (Nat × Nat) :=
  (u.d.stackIds.zipIdx.map fun t =>
    let k := 2 * u.d.shareLen t.2
    (if u.c.mFull then [(Desc.addr t.1 u.d.mBase, k)] else []) ++ if u.c.vMode = 1 then [(Desc.addr t.1 u.d.vBase, k)] else []).flatten

/-- PASS2_START. -/
def execPass2Start (c : CtxId) (desc : BitVec 12) (s : State) : Out :=
  match s.updOf c desc with
  | none => .next s
  | some u =>
    if !u.pass1Done || !u.c.two || u.frozen || u.shares.any (·.pass2) then .next s
    else if u.shares.any (fun h => !s.mintRuns h.stack) || u.pass2Ranges.any (fun r => s.guarded r.1 r.2)
        || u.pass2Reads.any (fun r => s.hbmWait r.1 r.2) then .next s
    else match s.mintCheck c u.pass2Ranges u.pass2Reads with
    | some f => .next (faultCtx s c f.1 (BitVec.ofNat 64 f.2) u.seq (BitVec.ofNat 16 (u.d.home / 3)))
    | none =>
      let w := if u.c.vMode = 2 then s.statistics u else { hbm := s.hbm, sh := { stack := 0 } }
      let s := u.pass2Ranges.foldl (fun s r => s.noteWrite r.1 r.2) { s.reports u (u.d.home / 3) w with hbm := w.hbm }
      let g := u.broadcast s.hbm
      .next ((List.range u.shares.length).foldl (fun s i => s.pass2At u g i) s)

/-! ### Completion (R159, R166, R168, R170) -/

/-- The update's command, as it stands in its context's sequence. -/
def State.updCmd (s : State) (u : Update) : QE :=
  let f := (s.ctx u.ctx.toNat).flight.find? (·.seq = u.seq)
  { ctx := u.ctx, seq := u.seq, img := (f.map (·.img)).getD 0, issued := false, acc := (f.map (·.acc)).getD 0 }

/-- The update leaves its Mints with a status. -/
def State.updEnd (s : State) (u : Update) (st : Nat) : State :=
  (({ s with upd := s.upd.filter fun x => !x.is u.ctx u.desc }).modMtc u.ctx.toNat fun x => { x with updates := x.updates + 1 }).complete
    (s.updCmd u) st (u.d.home / 3) 0

/-- A rows layer's last row on some Mint is not whole (R169). -/
def Update.torn (u : Update) : Bool := u.d.rows && u.shares.any fun h => h.begun && decide (h.nextCol < u.d.nCols)

/-- UPDATE_COMPLETE: STEP, LAST_DONE and the norm word are written; the norm word's context must be IN, and its cluster
neither in SERVICE nor failed (R273). -/
def execUpdateComplete (c : CtxId) (desc : BitVec 12) (s : State) : Out :=
  match s.updOf c desc with
  | none => .next s
  | some u =>
    let a := (s.mtc c.toNat).instBase.toNat + 128 * desc.toNat + 4
    if !u.pass1Done || (u.c.two && !u.frozen && !u.shares.all (·.pass2)) then .next s
    else if u.torn then .next (s.mintFault c desc 0x14 (some u.d.home) u.seq)
    else if u.frozen then
      .next (((s.modMtc c.toNat fun x => { x with frozenCount := x.frozenCount + 1 }).updEnd u 0x02).alarm pgMintCtx 1 (some c))
    else if (u.d.normDest != 0 && (!s.isIn c.toNat || s.cluShut (wordAt u.d.normDest).1.toNat)) || s.guarded a 8 then .next s
    else if s.wordFailed u.d.normDest then .next (faultCtx s c 0x0504 0 u.seq (BitVec.ofNat 16 (u.d.home / 3)))
    else match s.hbmCheck c.toNat a 8 true true with
    | some f => .next (faultCtx s c f (BitVec.ofNat 64 a) u.seq (BitVec.ofNat 16 (u.d.home / 3)))
    | none =>
      let s := s.hbmWrite a (leBytes 4 (u.step + 1).toNat ++ leBytes 4 u.step.toNat)
      let w := wordAt u.d.normDest
      let s := if u.d.normDest = 0 then s else
        s.modCl w.1.toNat fun x => { x with mem := Mem.writeN x.mem w.2 4 (u.merged (·.norm)).toNat }
      if u.nonfinite then .next ((s.updEnd u 0x01).alarm pgMintCtx 3 (some c)) else .next (s.updEnd u 0x00)

end Sys2Proof.Machine
end

