-- ==== Sys2Proof/Machine/Ledger.lean ====
section
/-! DEFINITION. The Ledger: its table and KV pages, gathers and commits, pauses, adapters, variants, and the
registers that shape it (R194 to R216). -/

namespace Sys2Proof.Machine
open Sys2Proof

/-! ### The table -/

/-- Bytes of a context's word for pool index `i`, and of its link. -/
def LgCtx.word (x : LgCtx) (i : Nat) : Nat := x.iPool.toNat + 4 * i
def LgCtx.link (x : LgCtx) (i : Nat) : Nat := x.iLink.toNat + 8 * i
def LgCtx.tpp (x : LgCtx) : Nat := 2 ^ (x.iKv.toNat % 16)
def LgCtx.kvFmt (x : LgCtx) : Nat := x.iKv.toNat / 16
def LgCtx.man (x : LgCtx) (m : Nat) : Option Manifest := SMap.get none x.manifests m
def LgCtx.hasEnt (x : LgCtx) (i : Nat) : Bool := decide (x.entFirst ≤ i) && decide (i < x.entFirst + x.entCount)
def LgCtx.hasAdp (x : LgCtx) (i : Nat) : Bool := decide (x.adpFirst ≤ i) && decide (i < x.adpFirst + x.adpCount)
def LgCtx.ents (x : LgCtx) : List Nat := (List.range x.entCount).map (x.entFirst + ·)
/-- The HBM page number in a context's pool word (R200). -/
def State.poolPage (s : State) (c i : Nat) : Nat := Mem.readN s.hbm ((s.lgc c).word i) 4 % 2 ^ 25

/-- The SEQ command in progress: the context's first, of an operation (R199). -/
def State.seqHead (s : State) (c : CtxId) (op : Nat) : Option QE :=
  (s.sched.seq.find? (·.ctx = c)).bind fun q => if s.isIn c.toNat && fld q.img 0x10 7 0 == op then some q else none

/-- A SEQ command completes with a status of Table LG.8. -/
def State.seqDone (s : State) (q : QE) (code detail : Nat) : State :=
  ({ s with sched := { s.sched with seq := s.sched.seq.filter (· ≠ q) } }).complete q code 0xFFFF (BitVec.ofNat 64 detail)

/-- What every SEQ command does first: LG_DISABLED (R194). -/
def State.seqRun (s : State) (c : CtxId) (op : Nat) (f : QE → State) : Out :=
  match s.seqHead c op with
  | none => .next s
  | some q => .next (if s.unitOn 3 then f q else s.faultCmd q 0x0301)

/-- A SEQ command on an entry: LG_ENTRY outside the range (R195). -/
def State.seqEnt (s : State) (c : CtxId) (op : Nat) (f : QE → Nat → Entry → State) : Out :=
  s.seqRun c op fun q =>
    let i := fld q.img 0x14 13 0
    if (s.lgc c.toNat).hasEnt i then f q i (s.ent i) else s.faultCmd q 0x0302

/-! ### Pages and links (R200, R201) -/

/-- Pages go back to the head of the free list one at a time. -/
def LgCtx.back (x : LgCtx) (l : List Nat) : LgCtx := { x with free := l.foldl (fun f p => p :: f) x.free }

/-- The links of a list of pages: index, NEXT, PREV. -/
def chainFrom (prev : Nat) : List Nat → List (Nat × Nat × Nat)
  | [] => []
  | p :: t => (p, t.headD 0xFFFFFF, prev) :: chainFrom p t
def Entry.links (e : Entry) : List (Nat × Nat × Nat) := chainFrom 0xFFFFFF e.pages ++ chainFrom 0xFFFFFF e.cpages

def State.putLink (s : State) (c : Nat) (l : Nat × Nat × Nat) : State :=
  s.hbmWrite ((s.lgc c).link l.1) (leBytes 8 (l.2.1 + l.2.2 * 2 ^ 32))
/-- What the link of a page on the free list holds is not stated: free values (log 78). -/
def State.freeLink (s : State) (c i : Nat) : State :=
  let a := s.draw
  let b := a.2.draw
  b.2.hbmWrite ((s.lgc c).link i) (leBytes 8 (a.1.toNat + b.1.toNat * 2 ^ 32))

/-- Pages of the free list that were not on it before. -/
def State.freed (s0 s : State) (c : Nat) : List Nat :=
  (s.lgc c).free.filter fun i => !(s0.lgc c).free.contains i

/-- The links a SEQ command writes for the entries `es`. -/
def State.linksOf (s : State) (es : List Nat) : List (Nat × Nat × Nat) := (es.map fun i => (s.ent i).links).flatten

/-- What keeps a SEQ command's work on the table from ending: a link access that is not allowed faults it with
nothing changed; a page an epoch protects makes it wait. -/
def State.settleStop (s0 s : State) (q : QE) (es : List Nat) : Option State :=
  let c := q.ctx.toNat
  let as := ((s.linksOf es).map Prod.fst ++ s0.freed s c).map (s.lgc c).link
  match s0.accessFault c ((as.map fun a => (a, 8, true, true)) ++ as.map fun a => (a, 8, false, false)) with
  | some f => some (s0.faultAt q f)
  | none => if as.any fun a => s0.guarded a 8 then some s0 else none

/-- The work ends: its links are written and the command completes. -/
def State.settled (s0 s : State) (q : QE) (es : List Nat) (code detail : Nat) : State :=
  let c := q.ctx.toNat
  ((s0.freed s c).foldl (fun s i => s.freeLink c i) ((s.linksOf es).foldl (fun s l => s.putLink c l) s)).seqDone q code detail

/-- A SEQ command's work on the table ends, where nothing stops it. -/
def State.settle (s0 s : State) (q : QE) (es : List Nat) (code detail : Nat) : State :=
  (s0.settleStop s q es).getD (s0.settled s q es code detail)

/-! ### Adapters (R209, R210) -/

/-- The entry holds a reference: until DONE or FREE. -/
def Entry.holds (e : Entry) : Bool := e.adpEn && e.state != 6 && e.state != 0
/-- The bank that carries a version. -/
def AdpSlot.bank (x : AdpSlot) (v : U16) : AdpBank := if x.cur.version = v then x.cur else if x.old.version = v then x.old else {}
def AdpBank.unref (b : AdpBank) : AdpBank := { b with refs := b.refs - 1 }
def AdpSlot.release (x : AdpSlot) (v : U16) : AdpSlot :=
  if x.cur.version = v then { x with cur := x.cur.unref } else if x.old.version = v then { x with old := x.old.unref } else x
def State.unrefEnt (s : State) (e : Entry) : State :=
  if e.holds then s.modAdp e.slot.toNat fun x => x.release e.version else s

/-- An entry becomes FREE: its pages go back, exact before compressed, and its reference (Table LG.3). -/
def State.freeEnt (s : State) (c i : Nat) : State :=
  let e := s.ent i
  ((s.unrefEnt e).modLgc c fun x => (x.back e.pages).back e.cpages).modEnt i fun _ => {}

/-! ### OPEN, SET, FREE -/

/-- OPEN. NEXT_TOKEN is not stated: a free value of the entry and of the context's OPENs so far, so that equal commands
leave equal tables (R198, log 79). -/
def execSeqOpen (c : CtxId) (s : State) : Out :=
  s.seqEnt c 1 fun q i e =>
    let x := s.lgc c.toNat
    let k := fld q.img 0x28 8 0
    let en := bit (fld q.img 0x28 31 0) 9
    let a := s.adp k
    if e.state ≠ 0 then s.faultCmd q 0x0303
    else if en && (!x.hasAdp k || a.cur.rank == 0) then s.faultCmd q 0x0306
    else
      let s := s.modLgc c.toNat fun x => { x with opens := x.opens + 1 }
      let s := if en then s.modAdp k fun a => { a with cur := { a.cur with refs := a.cur.refs + 1 } } else s
      (s.modEnt i fun _ => { state := 1, owner := c, prio := BitVec.ofNat 8 (fld q.img 0x18 7 0), draftLen := fld q.img 0x18 12 8
                             deadline := w32 q.img 0x1C, maxLen := fld q.img 0x20 19 0, promptLeft := fld q.img 0x24 19 0
                             user := w32 q.img 0x2C, variant := x.variant, slot := BitVec.ofNat 9 k, adpEn := en
                             version := if en then a.cur.version else 0, nextToken := Config.openToken i x.opens }).seqDone q 0 0

/-- SET takes effect at once (R205). -/
def execSeqSet (c : CtxId) (s : State) : Out :=
  s.seqEnt c 7 fun q i e =>
    if e.state = 0 then s.faultCmd q 0x0303
    else (s.modEnt i fun e => { e with prio := BitVec.ofNat 8 (fld q.img 0x18 7 0), deadline := w32 q.img 0x1C }).seqDone q 0 0

def execSeqFree (c : CtxId) (s : State) : Out :=
  s.seqEnt c 6 fun q i e =>
    if e.state = 0 then s.faultCmd q 0x0303
    else if e.inStep then (s.modEnt i fun e => { e with freePend := true }).seqDone q 0 0
    else s.settle (s.freeEnt c.toNat i) q [] 0 (e.pages.length + e.cpages.length)

/-! ### Gathering (R202, R203) -/

/-- Eligible for the phase (Table LG.3). -/
def Entry.fits (e : Entry) (phase : Nat) : Bool :=
  if phase = 0 then e.state == 1 || (e.state == 2 && (e.draftLen == 0 || decide (0 < e.promptLeft)))
  else if phase = 1 then e.state == 2 && decide (0 < e.draftLen) && e.promptLeft == 0
  else e.state == 4

/-- Microseconds to an entry's deadline. -/
def Entry.slack (e : Entry) (now : W32) : Int := (e.deadline - now).toInt
def Entry.isLate (e : Entry) (now : W32) : Bool := e.deadline != 0 && decide (e.slack now < 0)

/-- The candidate `a` comes before the candidate `b`, of a higher index. -/
def Entry.before (a b : Entry) (now : W32) : Bool :=
  if a.prio ≠ b.prio then b.prio.toNat < a.prio.toNat
  else if a.deadline = 0 then b.deadline == 0
  else b.deadline == 0 || decide (a.slack now ≤ b.slack now)

/-- Put a candidate where it belongs in a list of candidates with higher indices. -/
def State.rank (s : State) (now : W32) (i : Nat) : List Nat → List Nat
  | [] => [i]
  | j :: t => if (s.ent i).before (s.ent j) now then i :: j :: t else j :: s.rank now i t

/-- Tokens of a row (Table LG.5), capped at MAX_LEN; `left` is the budget left. -/
def Entry.count (e : Entry) (phase chunk left : Nat) : Nat :=
  if phase = 0 then min (if 0 < e.promptLeft then min (min e.promptLeft chunk) left else 1) (e.maxLen - e.length)
  else if phase = 1 then min e.draftLen (e.maxLen - 1 - e.length)
  else min (e.drafted + 1) (e.maxLen - e.length)

/-- The last position a row may reach. -/
def Entry.reach (e : Entry) (phase n : Nat) : Nat := if phase = 1 then e.length + n else e.length + n - 1

/-- A GATHER in progress: the state, the rows taken with the pages each names, and what has been used. -/
structure Pick where
  s : State
  rows : List (MRow × Entry × Nat) := []
  tokens : Nat := 0
  words : Nat := 0
  stop : Bool := false
  late : Bool := false
  skip : Bool := false

/-- Operands of a GATHER. -/
structure GOps where
  man : Nat
  phase : Nat
  now : W32
  rowMax : Nat
  budget : Nat
  chunk : Nat
  addr : Nat
  bytes : Nat

def gOps (i : Image) : GOps where
  man := fld i 0x14 1 0
  phase := fld i 0x14 3 2
  now := w32 i 0x18
  rowMax := fld i 0x1C 12 0
  budget := fld i 0x20 19 0
  chunk := fld i 0x24 19 0
  addr := fld i 0x28 63 0
  bytes := fld i 0x30 31 0

/-- The entry as a gather takes it. -/
def Entry.taken (e : Entry) (g : GOps) (new : List Nat) : Entry :=
  { e with
    pages := e.pages ++ new, preState := e.state, inStep := true, manifest := BitVec.ofNat 2 g.man
    state := if g.phase = 0 then 2 else if g.phase = 1 then 3 else e.state
    late := e.late || e.isLate g.now }

/-- Take a candidate, skip it, or end the selection. -/
def Pick.take (p : Pick) (c : CtxId) (g : GOps) (i : Nat) : Pick :=
  if p.stop then p
  else if g.rowMax ≤ p.rows.length then { p with stop := true }
  else
    let s := p.s
    let x := s.lgc c.toNat
    let e := s.ent i
    let n := e.count g.phase g.chunk (g.budget - p.tokens)
    if n = 0 ∨ g.budget < p.tokens + n then p
    else
      let np := e.reach g.phase n / x.tpp + 1
      let short := np - e.pages.length
      if x.free.length < short then
        { p with skip := true, s := (s.modLgc c.toNat fun x => { x with poolSkip := satAdd x.poolSkip 1 }).alarm0 pgLedger 3 (some c.toNat) }
      else if g.bytes < 64 * (p.rows.length + 2) + 4 * (p.words + np) then { p with stop := true }
      else
        let e' := e.taken g (x.free.take short)
        let s := (s.modLgc c.toNat fun x => { x with free := x.free.drop short }).modEnt i fun _ => e'
        let s := if e'.late && !e.late then
            (s.modLgc c.toNat fun x => { x with miss := x.miss + 1 }).alarm0 pgLedger 2 (some c.toNat) else s
        { p with s := s, late := p.late || (e'.late && !e.late), rows := p.rows ++ [({ entry := i, count := n, prompt := decide (0 < e.promptLeft) }, e', np)]
                 tokens := p.tokens + n, words := p.words + np }

/-- A row of the manifest (Table LG.7); `off` is where its page words stand. -/
def State.rowBytes (s : State) (r : MRow × Entry × Nat) (off : Nat) : List Byte :=
  let e := r.2.1
  let b := if e.adpEn then (s.adp e.slot.toNat).bank e.version else {}
  let prompt := r.1.prompt
  leBytes 4 (r.1.entry + (e.preState == 1).toNat * 2 ^ 16 + e.late.toNat * 2 ^ 17 + prompt.toNat * 2 ^ 18)
    ++ leBytes 4 e.length ++ leBytes 4 r.1.count ++ leBytes 4 e.nextToken.toNat ++ leBytes 4 e.user.toNat
    ++ leBytes 4 off ++ leBytes 4 r.2.2
    ++ leBytes 4 (if e.adpEn then b.rank.toNat + e.version.toNat * 2 ^ 16 else 0)
    ++ leBytes 8 b.addr.toNat ++ leBytes 24 0

def State.rowsBytes (s : State) (off : Nat) : List (MRow × Entry × Nat) → List Byte
  | [] => []
  | r :: t => s.rowBytes r off ++ s.rowsBytes (off + 4 * r.2.2) t

/-- The manifest (Table LG.7). -/
def Pick.manifest (p : Pick) (c : CtxId) (g : GOps) : List Byte :=
  leBytes 4 (g.man + g.phase * 4 + p.rows.length * 2 ^ 16) ++ leBytes 4 p.tokens ++ leBytes 4 g.now.toNat
    ++ leBytes 4 (4 * p.words) ++ leBytes 48 0
    ++ p.s.rowsBytes (64 * (p.rows.length + 1)) p.rows
    ++ (p.rows.map fun r => ((r.2.1.pages.take r.2.2).map fun i => leBytes 4 (p.s.poolPage c.toNat i)).flatten).flatten

/-- The entries a gather may take but for their variant (R202). -/
def State.eligible (s : State) (c : CtxId) (phase : Nat) : List Nat :=
  (s.lgc c.toNat).ents.filter fun i =>
    let e := s.ent i
    e.fits phase && !e.inStep && !e.pausePend && !e.freePend

/-- What a GATHER takes: variant drops are counted, the candidates are ranked and taken in order (R202). -/
def State.pick (s : State) (c : CtxId) (g : GOps) : Pick :=
  let x := s.lgc c.toNat
  let l := s.eligible c g.phase
  let now := l.filter fun i => (s.ent i).variant = x.variant
  let s1 := s.modLgc c.toNat fun x => { x with staleSkip := satAdd x.staleSkip (l.length - now.length) }
  (now.foldr (s.rank g.now) []).foldl (fun (p : Pick) i => p.take c g i) ⟨s1, [], 0, 0, false, false, false⟩

/-- Pool indices the manifest of a pick names. -/
def Pick.named (p : Pick) : List Nat := (p.rows.map fun r => r.2.1.pages.take r.2.2).flatten

/-- GATHER. -/
def execSeqGather (c : CtxId) (s : State) : Out :=
  s.seqRun c 2 fun q =>
    let g := gOps q.img
    let x := s.lgc c.toNat
    if (x.man g.man).isSome then s.faultCmd q 0x0304
    else
      let p := s.pick c g
      let bs := p.manifest c g
      match s.accessFault c.toNat ((g.addr, bs.length, true, false) :: p.named.map fun i => (x.word i, 4, false, false)) with
      | some f => s.faultAt q f
      | none =>
        if s.guarded g.addr bs.length || p.named.any fun i => s.hbmWait (x.word i) 4 then s
        else
          let s2 := p.s.modLgc c.toNat fun x => { x with
            manifests := SMap.set none x.manifests g.man (some { phase := BitVec.ofNat 2 g.phase, rows := p.rows.map Prod.fst }) }
          let es := p.rows.map fun r => r.1.entry
          let s3 := s2.hbmWrite g.addr bs
          match s.settleStop s3 q es with
          | some t => t
          | none =>
            let s4 := s.settled s3 q es 0 (p.rows.length + p.tokens * 2 ^ 16)
            -- an action-2 alarm faults the context once the command has completed (R199, R287)
            let acts (b : Nat) : Bool := s.action pgLedger b == 2
            if (p.late && acts 2) || (p.skip && acts 3) then faultCtx s4 c 0x0010 (BitVec.ofNat 64 pgLedger) else s4

/-! ### Compression (R207, R208) -/

/-- Old pages: those wholly before the last 256 positions. -/
def Entry.old (e : Entry) (tpp : Nat) : Nat := min e.pages.length ((e.length - 256) / tpp)

/-- The MX block `b` of a page, of 32 consecutive elements. -/
def kvBlock (m : Mem) (fmt a b : Nat) : MxBlock :=
  mxEncode (fun _ => .rne) ((List.range 32).map fun j => expand32 fmt (Mem.readN m (a + 2 * (32 * b + j)) 2) 127)

/-- Encode the page at `a` into 16 KiB of elements at `d` and 1 KiB of scales at `t`; the Census of its die
counts class 7. -/
def State.compressPage (s : State) (c fmt a d t : Nat) : State :=
  (List.range 1024).foldl (fun s b =>
    let k := kvBlock s.hbm fmt a b
    let s := (s.hbmWrite (d + 16 * b) (packCodes 4 (k.elems.map (·.code)))).hbmWrite (t + b) [BitVec.ofNat 8 k.scale]
    (s.count (a / 2 ^ 36 / 3) c 0x70000000#32 4 k.elemTally).count (a / 2 ^ 36 / 3) c 0x70000000#32 7 k.scaleTally) s

/-- Where old page `k` goes: its elements, its scales. -/
def squeezed (page : Nat → Nat) (data scale : List Nat) (k : Nat) : Nat × Nat :=
  (65536 * page (data.getD (k / 4) 0) + 16384 * (k % 4), 65536 * page (scale.getD (k / 64) 0) + 1024 * (k % 64))

/-- What a compression has done so far: the free list, the data pages and the scale pages. -/
structure Squeeze where
  free : List Nat
  data : List Nat := []
  scale : List Nat := []

/-- One group of four old pages: a data page, a scale page when one is due, then the four go back (log 80). -/
def Squeeze.group (z : Squeeze) (old : List Nat) (g : Nat) : Squeeze :=
  let d := z.free.take 1
  let f := z.free.drop 1
  let t := if g % 16 = 0 then f.take 1 else []
  let f := if g % 16 = 0 then f.drop 1 else f
  { free := ((old.drop (4 * g)).take 4).foldl (fun f p => p :: f) f, data := z.data ++ d, scale := z.scale ++ t }

def squeeze (free old : List Nat) : Squeeze :=
  (List.range ((old.length + 3) / 4)).foldl (fun z g => z.group old g) { free := free }

/-- The result of pausing an entry: a fault with its address, a wait, or the state after it. -/
inductive Pausing where
  | fault (f : U16 × Nat)
  | wait
  | done (s : State) (kept : Bool)

/-- The fault of an access to KV pages: of the pool's words that name them, then of the pages read and written. -/
def State.poolFault (s : State) (c : Nat) (words rd wr : List Nat) : Option (U16 × Nat) :=
  (s.accessFault c (words.map fun a => (a, 4, false, false))).orElse fun _ =>
    s.accessFault c ((rd.map fun a => (a, 65536, false, false)) ++ wr.map fun a => (a, 65536, true, false))

/-- The entry is PAUSED, its old pages compressed where `exact` is not asked and the pool allows. -/
def State.pauseEnt (s : State) (c i : Nat) (exact : Bool) : Pausing :=
  let x := s.lgc c
  let e := s.ent i
  let paused (e : Entry) : Entry := { e with state := 5, pausePend := false, pauseExact := false }
  if exact then .done (s.modEnt i paused) false
  else if 1 < x.kvFmt ∨ x.free.length < 2 then .done (s.modEnt i paused) true
  else
    let old := e.pages.take (e.old x.tpp)
    let z := squeeze x.free old
    let page (i : Nat) : Nat := s.poolPage c i
    let rd := old.map fun i => (x.word i, 65536 * page i)
    let wr := (z.data ++ z.scale).map fun i => (x.word i, 65536 * page i)
    match s.poolFault c ((rd ++ wr).map Prod.fst) (rd.map Prod.snd) (wr.map Prod.snd) with
    | some f => .fault f
    | none =>
      if (wr.any fun a => s.guarded a.2 65536) || (rd ++ wr).any (fun a => s.hbmWait a.1 4) || rd.any fun a => s.hbmWait a.2 65536 then
        .wait else
      -- a data page never is an old page not yet read: a group frees its pages only after they are encoded
      let s := old.zipIdx.foldl (fun s o =>
        let p := squeezed page z.data z.scale o.2
        s.compressPage c x.kvFmt (65536 * page o.1) p.1 p.2) s
      .done ((s.modLgc c fun x => { x with free := z.free }).modEnt i fun e =>
        { paused e with pages := e.pages.drop old.length, cpages := z.data ++ z.scale, cold := old.length, compressed := true }) false

/-- PAUSE: DETAIL is the pages freed, less those the compressed list took. -/
def execSeqPause (c : CtxId) (s : State) : Out :=
  s.seqEnt c 4 fun q i e =>
    let exact := bit (fld q.img 0x18 31 0) 0
    if e.state = 0 ∨ e.state = 5 ∨ e.state = 6 ∨ e.state = 7 then s.faultCmd q 0x0303
    else if e.inStep ∨ e.state = 3 ∨ e.state = 4 then
      (s.modEnt i fun e => { e with pausePend := true, pauseExact := exact }).seqDone q 0 0
    else match s.pauseEnt c.toNat i exact with
      | .fault f => s.faultAt q f
      | .wait => s
      | .done s' kept => s.settle s' q [i] (if kept then 2 else 0) ((s'.lgc c.toNat).free.length - (s.lgc c.toNat).free.length)

/-- Element `j` of the compressed pages, back in the KV format. -/
def expandPage (m : Mem) (fmt d t : Nat) : List Byte :=
  (List.range 32768).flatMap fun j =>
    let x := expand32 4 (Mem.readN m (d + j / 2) 1 / 16 ^ (j % 2) % 16) (Mem.readN m (t + j / 32) 1)
    leBytes 2 (convert fmt .rne x 0).code

/-- RESUME. -/
def execSeqResume (c : CtxId) (s : State) : Out :=
  s.seqEnt c 5 fun q i e =>
    let x := s.lgc c.toNat
    let queued (e : Entry) : Entry := { e with state := 1 }
    if e.state ≠ 5 then s.faultCmd q 0x0303
    else if !e.compressed then (s.modEnt i queued).seqDone q 0 0
    else if x.free.length < e.cold then s.seqDone q 3 0
    else
      let new := x.free.take e.cold
      let page (i : Nat) : Nat := s.poolPage c.toNat i
      let nd := (e.cold + 3) / 4
      match s.poolFault c.toNat ((new ++ e.cpages).map x.word) (e.cpages.map (65536 * page ·)) (new.map (65536 * page ·)) with
      | some f => s.faultAt q f
      | none =>
        if (new.any fun i => s.guarded (65536 * page i) 65536) || (new ++ e.cpages).any (fun i => s.hbmWait (x.word i) 4)
            || e.cpages.any fun i => s.hbmWait (65536 * page i) 65536 then s
        else
          let s' := new.zipIdx.foldl (fun s' o =>
            let p := squeezed page (e.cpages.take nd) (e.cpages.drop nd) o.2
            s'.hbmWrite (65536 * page o.1) (expandPage s.hbm x.kvFmt p.1 p.2)) s
          let s' := s'.modLgc c.toNat fun x => { x with free := x.free.drop e.cold }.back e.cpages
          s.settle (s'.modEnt i fun e => { queued e with pages := new ++ e.pages, cpages := [], cold := 0, compressed := false }) q [i] 0 0

/-! ### COMMIT (R201, R204, R205) -/

/-- A result of the vector. -/
structure Result where
  n : Nat
  done : Bool
  drop : Bool
  token : W32

def resultAt (m : Mem) (a : Nat) : Result :=
  let w := Mem.readN m a 8
  { n := bits w 4 0, done := bit w 5, drop := bit w 6, token := BitVec.ofNat 32 (w / 2 ^ 32) }

/-- A row's effect on its entry (Table LG.6). -/
def Entry.apply (e : Entry) (phase : Nat) (r : MRow) (v : Result) : Entry :=
  if v.drop then { e with inStep := false, state := if phase = 1 then 2 else e.state }
  else
    let e : Entry := { e with inStep := false }
    let e : Entry :=
      if phase = 0 then
        if r.prompt then
          let left := e.promptLeft - r.count
          { e with length := e.length + r.count, promptLeft := left, nextToken := if left = 0 then v.token else e.nextToken }
        else { e with length := e.length + 1, nextToken := v.token, state := if v.done then 6 else e.state }
      else if phase = 1 then { e with drafted := v.n, state := if 0 < v.n then 4 else 2 }
      else { e with length := e.length + 1 + v.n, nextToken := v.token, drafted := 0, state := if v.done then 6 else 2 }
    if e.maxLen ≤ e.length then { e with length := e.maxLen, trunc := true, state := 6 } else e

/-- The exact pages an entry keeps at a commit (R201). -/
def Entry.keep (e : Entry) (tpp : Nat) : Nat :=
  let n := if e.state = 4 then e.length + e.drafted + 1 else e.length
  (n + tpp - 1) / tpp

def State.applyRow (s : State) (phase : Nat) (r : MRow) (v : Result) : State :=
  let e := s.ent r.entry
  let e' := e.apply phase r v
  let s := s.modEnt r.entry fun _ => e'
  if e'.state = 6 then s.unrefEnt e else s

def State.trimRow (s : State) (c : Nat) (r : MRow) : State :=
  let e := s.ent r.entry
  let k := e.keep (s.lgc c).tpp
  (s.modLgc c fun x => x.back (e.pages.drop k)).modEnt r.entry fun e => { e with pages := e.pages.take k }

/-- The pending operations of a row's entry (R205). -/
def State.pendRow (s : State) (c : Nat) (r : MRow) : Pausing :=
  let e := s.ent r.entry
  if e.freePend then .done (s.freeEnt c r.entry) false
  else if e.pausePend ∧ (e.state = 1 ∨ e.state = 2) then s.pauseEnt c r.entry e.pauseExact
  else .done s false

def pendRows (c : Nat) (rs : List MRow) (s : State) : Pausing :=
  rs.foldl (fun p r => match p with
    | .fault f => .fault f
    | .wait => .wait
    | .done s _ => s.pendRow c r) (.done s false)

/-- The rows of a manifest with their results, read from the vector at `a`. -/
def Manifest.results (m : Manifest) (hbm : Mem) (a : Nat) : List (MRow × Result) :=
  m.rows.zipIdx.map fun r => (r.1, resultAt hbm (a + 8 * r.2))

/-- A result past what its row may report. -/
def State.badResult (s : State) (phase : Nat) (r : MRow × Result) : Bool :=
  (phase = 1 && decide (r.1.count < r.2.n)) || (phase = 2 && decide ((s.ent r.1.entry).drafted < r.2.n))

/-- Every row of a manifest is applied, then the pages beyond are freed, then the pending flags act (R204, R205). -/
def State.committed (s : State) (c : Nat) (m : Manifest) (a : Nat) : Pausing :=
  let s1 := (m.results s.hbm a).foldl (fun s r => s.applyRow m.phase.toNat r.1 r.2) s
  pendRows c m.rows (m.rows.foldl (fun s r => s.trimRow c r) s1)

/-- COMMIT. -/
def execSeqCommit (c : CtxId) (s : State) : Out :=
  s.seqRun c 3 fun q =>
    let m := fld q.img 0x14 1 0
    let a := fld q.img 0x18 63 0
    match (s.lgc c.toNat).man m with
    | none => s.faultCmd q 0x0304
    | some man =>
      let n := man.rows.length
      match s.accessFault c.toNat [(a, 8 * n, false, false)] with
      | some f => s.faultAt q f
      | none =>
        if s.hbmWait a (8 * n) then s
        else if (man.results s.hbm a).any (s.badResult man.phase.toNat) then s.faultCmd q 0x0305
        else
          match s.committed c.toNat man a with
          | .fault f => s.faultAt q f
          | .wait => s
          | .done s3 _ =>
            s.settle (s3.modLgc c.toNat fun x => { x with manifests := SMap.set none x.manifests m none }) q
              (man.rows.map (·.entry)) 0 n

/-! ### Adapters and variants (R210, R211) -/

/-- The bank after CUR: an emptied one goes on with the version count (log 81). -/
def AdpSlot.load (x : AdpSlot) (rank : Nat) (addr : W64) : AdpSlot :=
  { old := x.cur, cur := { version := x.cur.version + 1, rank := BitVec.ofNat 8 rank, addr := addr, refs := 0 } }

def execSeqAdapterLoad (c : CtxId) (s : State) : Out :=
  s.seqRun c 8 fun q =>
    let k := fld q.img 0x14 8 0
    let rank := fld q.img 0x18 7 0
    let addr := w64 q.img 0x20
    if !(s.lgc c.toNat).hasAdp k || (rank == 0 && addr != 0) || decide (128 < rank) then s.faultCmd q 0x0306
    else if (s.adp k).old.refs ≠ 0 then s.seqDone q 1 0
    else (s.modAdp k fun x => x.load rank addr).seqDone q 0 0

/-- VARIANT_LOAD; a flash source's bytes are `h`, by offset in the transfer (log 82). -/
def execSeqVariantLoad (c : CtxId) (readOk : Bool) (h : HostStores) (s : State) : Out :=
  let flash := match s.seqHead c 9 with
    | some q => bit (fld q.img 0x14 31 0) 8
    | none => false
  let s := if flash then s else s.hostStores h
  s.seqRun c 9 fun q =>
    let d := fld q.img 0x28 63 0
    let n := fld q.img 0x30 31 0 * 4096
    if (s.lgc c.toNat).ents.any fun i => (s.ent i).inStep then s.faultCmd q 0x0303
    else match s.accessFault c.toNat [(d, n, true, false)] with
    | some f => s.faultAt q f
    | none =>
      if s.guarded d n || (!flash && !s.boot.hostUp) then s
      else if !readOk then s.faultCmd q 0x0307
      else
        let src := if flash then Mem.readBytes (Mem.stores [] h) 0 n else Mem.readBytes s.host (fld q.img 0x18 63 0) n
        ((s.hbmWrite d src).modLgc c.toNat fun x => { x with variant := BitVec.ofNat 8 (fld q.img 0x14 7 0) }).seqDone q 0 0

/-! ### Registers (R195, R216) -/

/-- A range write changes nothing: an overlap with a defined context's range, the selected context IN, an entry
of its present range not FREE, or a range past the table (log 83). -/
def State.rangeRefused (s : State) (c : CtxId) (first count top : Nat) (range : LgCtx → Nat × Nat) : Bool :=
  decide (top < first + count) || s.isIn c.toNat || ((s.lgc c.toNat).ents.any fun i => (s.ent i).state != 0)
    || s.lgC.any fun p => p.1 != c.toNat && (s.ctx p.1).st != .unused && rangesMeet first count (range p.2).1 (range p.2).2

def execLgEntRangeWrite (v : W32) (s : State) : Out :=
  let c := s.sel.lgCtx
  let first := bits v.toNat 13 0
  let count := bits v.toNat 30 16
  if !s.canWrite pgLedger then .next s
  else if s.rangeRefused c first count 16384 fun x => (x.entFirst, x.entCount) then .next (s.alarm pgLedger 0 (some c))
  else .next (s.modLgc c.toNat fun x => { x with entFirst := first, entCount := count }).checkTier

def execLgAdpRangeWrite (v : W32) (s : State) : Out :=
  let c := s.sel.lgCtx
  let first := bits v.toNat 8 0
  let count := bits v.toNat 25 16
  if !s.canWrite pgLedger then .next s
  else if s.rangeRefused c first count 512 fun x => (x.adpFirst, x.adpCount) then .next (s.alarm pgLedger 0 (some c))
  else .next (s.modLgc c.toNat fun x => { x with adpFirst := first, adpCount := count }).checkTier

/-- LG_APPLY: the free list holds every pool index in ascending order, or the apply is rejected. -/
def execLgApply (v : W32) (s : State) : Out :=
  let c := s.sel.lgCtx
  let x := s.lgc c.toNat
  if !s.canWrite pgLedger || !bit v.toNat 0 then .next s
  else if x.poolCount = 0 ∨ x.ents.any fun i => (s.ent i).state != 0 then
    .next ((s.modLgc c.toNat fun x => { x with reject := true }).alarm pgLedger 0 (some c))
  else .next (s.modLgc c.toNat fun x => { x with
    valid := true, reject := false, free := List.range x.poolCount
    iKv := x.kvCfg, iPool := x.poolBase, iCount := x.poolCount, iLink := x.linkBase })

end Sys2Proof.Machine
end

