-- ==== Sys2Proof/Machine/Flags.lean ====
section
/-! DEFINITION. Status words: BLK_ID, BLK_CTRL and BLK_STATUS of every page, the pending words of alarms, and
the status registers of the blocks (Tables RG.2 to RG.7, PW.4, PW.5, LK.8, LK.9, MT.8, TS.7). -/

namespace Sys2Proof.Machine
open Sys2Proof

/-- A word of flags, bit 0 first. -/
def flagsOf : List Bool → Nat
  | [] => 0
  | b :: t => b.toNat + 2 * flagsOf t

/-- Word `k` of a 160-bit map. -/
def mapWord (m : BitVec 160) (k : Nat) : Nat := m.toNat / 2 ^ (32 * k) % 2 ^ 32

/-! ### The header (R282 to R284) -/

/-- The unit a page belongs to is withdrawn to SERVICE (R272), or stays so after a failed test (R273): of a port, a lane. -/
def State.pageService (s : State) (t i : Nat) : Bool :=
  if t = 0x15 then (s.clu i).service else if t = 0x12 then (s.tdie i).service else if t = 0x13 then (s.mnt i).service
  else if t = 0x0B then (s.prt6 i).recal || (s.prt6 i).laneBad else false

/-- The unit failed a test, or boot found it unusable (R273, R284). -/
def State.pageFailed (s : State) (t i : Nat) : Bool :=
  if t = 0x15 then (s.clu i).failed else if t = 0x12 then (s.tdie i).failed else if t = 0x13 then (s.mnt i).failed else if t = 0x0B then (s.prt6 i).laneBad
  else if t = 0x05 then (s.spr i).failed else if t = 0x10 then (s.spr i).failed else if t = 0x02 then s.boot.failed else false

/-- An apply, commit or persistent write of the page is in progress. -/
def State.pageBusy (s : State) (t i : Nat) : Bool :=
  if t = 0x02 then (s.cell 18).busy || (s.cell 19).busy
  else if t = 0x03 then (List.range 20).any fun k => (s.cell k).busy
  else if t = 0x05 then (s.cell (10 + i)).busy
  else if t = 0x07 then (s.mtc s.sel.mtCtx.toNat).busy
  else if t = 0x0A then (s.cell 2).busy || (s.cell 3).busy
  else if t = 0x0B then (s.cell (4 + i)).busy
  else if t = 0x0C then (s.cell 0).busy || (s.cell 1).busy
  else if t = 0x12 then (s.prt i (s.tdie i).sel.toNat).busy
  else false

/-- BLK_CTRL.POWER (R8, R283): in QUARTER the dies CD2 and CD3 keep their edge logic. -/
def State.pagePower (s : State) (p t i : Nat) : Nat :=
  if 0x1000 ≤ p ∧ p < 0x3000 ∧ !s.diePowered ((p - 0x1000) / 0x400) then
    (if s.boot.profile = 0 ∧ (p - 0x1000) / 0x400 < 4 then 1 else 2)
  else if s.pageService t i then 3 else 0

/-- ENABLE reads 1 on every page but a PORT page that is DOWN (R283). -/
def State.pageEnable (s : State) (t i : Nat) : Bool := t != 0x0B || (s.prt6 i).st != .down

def State.blkCtrl (s : State) (p t i : Nat) : Nat :=
  if 0x3000 ≤ p then 1 else (s.pageEnable t i).toNat + 4 * s.pagePower p t i

/-- Does the running profile, or the port's state, let the block take work (R9, R237)? -/
def State.pageOn (s : State) (t i : Nat) : Bool :=
  if t = 0x12 then s.unitOn 0 else if t = 0x13 || t = 0x07 then s.unitOn 1 else if t = 0x0D then s.unitOn 2
  else if t = 0x09 then s.unitOn 3 else if t = 0x0B then (s.prt6 i).usable else true

/-- READY: the block can take work (log 84); a port with a lane withdrawn runs on, one lane narrower (Table SG.6). -/
def State.blkStatus (s : State) (p t i : Nat) : Nat :=
  let base := p < 4 || (8 ≤ p && p < 16)
  let up := (s.ready || base) && s.pageOn t i && (t == 0x0B || (!s.pageService t i && !s.pageFailed t i))
  flagsOf [up, s.pageService t i, s.pageFailed t i, s.pageBusy t i]

/-- The header registers; an unlisted offset reads 0. -/
def State.readHdr (s : State) (p t i off : Nat) : Nat :=
  let h := s.pageHdr p
  if off = 0 then t * 65536 + i
  else if off = 4 then 0x100
  else if off = 8 then s.blkCtrl p t i
  else if off = 0xC then s.blkStatus p t i
  else if off = 0x10 then h.alarm.toNat
  else if off = 0x14 then h.mask.toNat
  else if off = 0x18 then h.action.toNat
  else if off = 0x1C then h.seq.toNat
  else 0

/-! ### Pending words (R285, R290) -/

/-- DIE_PEND and CLUSTER_PENDn. -/
def State.diePend (s : State) (d : Nat) : Nat :=
  let u (o : Nat) : Bool := (s.pageHdr (pgDie d + o)).unmasked
  flagsOf [u 0, false, false, u 3, u 4, u 5, u 6, u 7, u 8]
def State.clusterPend (s : State) (d n : Nat) : Nat :=
  flagsOf ((List.range 32).map fun j => 32 * n + j < 150 && (s.pageHdr (pgCluster (256 * d + 32 * n + j))).unmasked)

/-! ### Blocks -/

def CtxSt.code : CtxSt → Nat
  | .unused => 0 | .stopped => 1 | .out => 2 | .loading => 3 | .resident => 4 | .saving => 5 | .scrubbing => 6 | .faulted => 7

/-- CTX_STATE (Table CS.11): a command is busy while a STOP saves or a context is scrubbed (log 84). -/
def Ctx.word (x : Ctx) : Nat :=
  x.st.code + 8 * x.stopReq.toNat + 16 * x.cmdReject.toNat + 256 * x.startErr.toNat + 65536 * x.lastFault.toNat

/-- SPARE_STATUS (Table CL.4). -/
def State.spareStatus (s : State) (d : Nat) : Nat :=
  let x := s.spr d
  flagsOf [(s.cell (10 + d)).busy, x.reject, (s.cell (10 + d)).val != x.applied, x.failed] + 256 * popCount x.staged.toNat 160

/-- PWR_STATUS (Table PW.4). -/
def State.pwrStatus (s : State) : Nat :=
  flagsOf [s.bursar.hold, s.bursar.capClamped, s.capGating, s.throttling, s.thermLimit, (s.cell 0).busy || (s.cell 1).busy]
    + 64 * s.boot.profile.toNat

/-- DIE_STATUS (Table PW.5). -/
def State.dieStatus (s : State) (d : Nat) : Nat :=
  let p := s.dpow d
  flagsOf [p.droop, p.throttle, p.thermDie, decide (p.gateDuty.toNat < 64), s.bursar.hold]
    + 32 * s.phaseOf d + 256 * p.gateDuty.toNat + 32768 * (s.governing d).isNone.toNat

def PortSt.code : PortSt → Nat
  | .down => 0 | .training => 1 | .up => 2 | .degraded => 3

/-- PORT_STATUS (Table LK.9). -/
def Port.status (x : Port) : Nat :=
  x.st.code + 4 * popCount x.lanes.toNat 32 + 256 * x.peerLag.toNat + 512 * x.peerSilent.toNat + 1024 * x.recal.toNat
    + 4096 * x.peer.toNat

/-- LK_STATUS (Table LK.8): ports UP counts the degraded ones too. -/
def State.lkStatus (s : State) : Nat :=
  let f (g : Port → Bool) : List Bool := (List.range 6).map fun p => g (s.prt6 p)
  flagsOf (f Port.usable ++ f (fun x => x.st = .degraded) ++ f (·.peerLag) ++ [s.links.selfLag])

/-- MINT_STATUS (Table MT.8). -/
def State.mintStatus (s : State) (m : Nat) : Nat :=
  let us := s.upd.filter fun u => u.shares.any fun h => h.stack == m && h.armed
  us.length + 32 * (us.any (·.holdsScratch m)).toNat + 64 * min 64 (s.buffered m)
    + 8192 * (us.any fun u => u.c.two && u.pass1Done && u.shares.any fun h => h.stack == m && !h.pass2).toNat

/-- TS_STATUS (Table TS.7): BUSY while the Touchstone holds commands or open tokens (log 84). -/
def State.tsStatus (s : State) (d : Nat) : Nat :=
  let t := s.tdie d
  (!t.tq.isEmpty || !t.tok.isEmpty).toNat + 256 * t.tok.length
    + 65536 * (t.part.map fun p => if p.2.valid then p.2.geo.opens else 0).sum

def Part.state (p : Part) : Nat := flagsOf [p.valid, p.reject, p.busy] + 65536 * p.geo.slots

/-- LG_STATE (Table LG.9); an apply ends at once. -/
def LgCtx.state (x : LgCtx) : Nat :=
  flagsOf ([x.valid, x.reject, false] ++ (List.range 4).map fun m => (x.man m).isSome)

end Sys2Proof.Machine
end

