-- ==== Sys2Proof/Machine/Save.lean ====
section
/-! DEFINITION. Cheap points, pre-emption, saves, swap-in and eviction (R69, R91, R173, R174, R185 to R190). -/

namespace Sys2Proof.Machine
open Sys2Proof

/-! ### Waits that count as cheap (Table CS.9a) -/

/-- Does the fuse stage withhold the run's next group for the Escrow window, a landing slot or the token
table? -/
def State.withheld (s : State) (cl k : Nat) : Bool :=
  let test (role : Nat) (f : Grp → Part → Bool) : Bool := (s.groupAt cl k role).any fun g => f g (s.prt g.die g.c)
  test 1 (fun g p => match opAt p.teacher g.q.seq with
    | none => false
    | some o => match s.teacherAdmit g o with
      | .wait => true
      | .take mode _ _ => mode == 2 && !s.tableRoom g.die g.q.ctx (s.teaNew g o)
      | _ => false)
  || test 2 (fun g p =>
    !s.tableRoom g.die g.q.ctx (g.rows.filter fun r => !((s.tdie g.die).tok.any (isStu g.q.ctx (p.num64 (g.tok r))))).length)
  || test 3 (fun g p => match opAt p.grad g.q.seq with
    | none => false
    | some go => (((s.clu cl).pc g.c).ring.offer go).isNone)

/-- Every command of the context that has started on the cluster stands in a wait of Table CS.9a; a collective with
operands there is one (R235). -/
def State.parked (s : State) (c : CtxId) (cl : Nat) : Bool :=
  let x := s.clu cl
  ((List.range x.mq.length).all fun k => (x.mq[k]?).all fun m => m.q.ctx ≠ c || !m.started || s.withheld cl k)
    && (match x.vq, x.vrun with
      | q :: _, some r => q.ctx ≠ c || (r.waiting && x.tileq.isEmpty)
      | _, _ => true)
    && x.tel.all (fun t => t.q.ctx ≠ c || t.wait ≠ .none)
    && !(x.dq.head?.any (·.ctx = c) && (x.ddone || x.dwait))
    && x.tally.all (·.ctx ≠ c) && !s.collOn c cl

/-- At a cheap point on every cluster it uses (R186). -/
def State.atCheap (s : State) (c : CtxId) : Bool :=
  (s.ctx c.toNat).cltab.all fun d => ((s.clu d.cl.toNat).pc c.toNat).cheap && s.parked c d.cl.toNat

/-- A unit the context uses is withdrawn for a test: a pre-emption waits (R272). -/
def State.meetsTest (s : State) (c : CtxId) : Bool :=
  (s.ctx c.toNat).cltab.any fun d => s.clHeld d.cl.toNat || s.tdHeld (d.cl.toNat / 256)

/-! ### Saving (R187, R188) -/

/-- Enter SAVING; each cluster is saved by its live set, or whole (`full`). -/
def State.startSave (s : State) (c : CtxId) (full : Nat → Bool) : State :=
  let s := (s.ctx c.toNat).cltab.foldl (fun s d =>
    s.modCl d.cl.toNat fun x => x.modPc c.toNat fun y => { y with full := full d.cl.toNat }) s
  s.modCtx c.toNat fun x => { x with st := .saving, preemptReq := false, askedBy := [] }

/-- Of two contexts that a contest pre-empts `a` leaves before `b`: the lower effective priority, then the one resumed most
recently (R185). -/
def State.leavesFirst (s : State) (a b : Nat) : Bool :=
  decide (s.eff a < s.eff b) || (s.eff a == s.eff b && decide ((s.ctx b).resumedNo < (s.ctx a).resumedNo))

/-- Another IN context that the same contest pre-empts leaves before `c`; a STOP waits for none (R185). -/
def State.leavesLater (s : State) (c : Nat) : Bool :=
  !(s.ctx c).stopReq && s.ctxs.any fun p => p.1 ≠ c && p.2.st = .resident && p.2.askedBy.any (s.ctx c).askedBy.contains
    && s.leavesFirst p.1 c

/-- A context that is asked to leave may: no test of its units, no Hold (R255, R272), none that leaves before it. -/
def State.mayLeave (s : State) (c : CtxId) : Bool := !s.meetsTest c && !s.bursar.hold && !s.leavesLater c.toNat

/-- CHEAP_POINT_SAVE; pre-emption waits while Hold stands (R255). -/
def execCheapPointSave (c : CtxId) (s : State) : Out :=
  let x := s.ctx c.toNat
  if x.st = .resident && x.preemptReq && s.atCheap c && s.mayLeave c then .next (s.startSave c fun _ => false)
  else .next s

/-- PREEMPT_TIMEOUT: no cheap point in time; a forced save. The time does not run while a unit is withdrawn. -/
def execPreemptTimeout (c : CtxId) (s : State) : Out :=
  let x := s.ctx c.toNat
  if x.st = .resident && x.preemptReq && !s.atCheap c && s.mayLeave c then
    .next (((s.modCtx c.toNat fun x => { x with forced := true, forcedSaves := x.forcedSaves + 1 }).startSave c fun _ => true).alarm
      pgClear 2 (some c))
  else .next s

/-- Entries of the offers that no destination has taken. -/
def MxRun.untaken (m : MxRun) : List Nat := if m.grant.isSome then [] else m.offers.map (·.entry)

/-- Till entries held by drained or accumulated tiles that nothing has taken yet (R60, R69). -/
def State.heldEntries (s : State) (cl : Nat) (c : CtxId) : List Nat :=
  ((s.clu cl).mq.map fun m =>
    let x := Mx.of m.q.img
    if m.q.ctx = c && m.started && (x.fuse || x.full) then
      m.untaken ++ (List.range (m.tile - m.drained)).map fun j => s.entryOf cl m.q (m.drained + j)
    else []).flatten

/-- The 12 ranges of a live set, up to the first of length 0. -/
def liveRanges (live : Nat) : List (Nat × Nat) :=
  ((List.range 12).map fun k => (bits live (8 * (0x50 + 4 * k) + 15) (8 * (0x50 + 4 * k)), bits live (8 * (0x50 + 4 * k) + 31) (8 * (0x50 + 4 * k) + 16))).takeWhile
    fun r => r.2 ≠ 0

/-- A range inside the owned region. -/
def CluDesc.clip (d : CluDesc) (r : Nat × Nat) : Nat × Nat :=
  let lo := max r.1 d.memBase
  (lo, min (r.1 + r.2) (d.memBase + d.memSize) - lo)

/-- What a save of a cluster writes: Till entries, tags of a legacy map, registers, byte ranges of its memory.
`full` is a whole save, else the live set and the Vault's data and trailers (R149). -/
structure SavePlan where
  entry : Nat → Bool
  vreg : Nat → Bool
  kreg : Nat → Bool
  ranges : List (Nat × Nat)

/-- The data and the trailers that the Vault's stacks hold. -/
def vaultRanges (d : CluDesc) (y : CtxCl) : List (Nat × Nat) :=
  if d.vaultSize = 0 then []
  else ((List.range d.vaultStacks).map fun i =>
    let v := SMap.get {} y.vault i
    [(d.vaultData i, v.top), (d.trailer i 0, 32 * v.recs)]).flatten.filter (·.2 ≠ 0)

def savePlan (d : CluDesc) (y : CtxCl) (held : List Nat) : SavePlan :=
  if y.full then
    { entry := fun _ => true, vreg := fun _ => true, kreg := fun _ => true, ranges := [(128 * d.memBase, 128 * d.memSize)] }
  else
    { entry := fun e => bit y.live e || held.contains e, vreg := fun j => bit y.live (512 + j), kreg := fun j => bit y.live (544 + j)
      ranges := (((liveRanges y.live).map d.clip).map fun r => (128 * r.1, 128 * r.2)) ++ vaultRanges d y }

/-- Copy `n` bytes at `b` of one memory to `a` of another. -/
def Mem.copyTo (dst src : Mem) (a b n : Nat) : Mem := SMap.splice 0 a n dst (SMap.slice 0 b (b + n) src)

def CluDesc.entries (d : CluDesc) : List Nat := (List.range (2 ^ d.tillLog)).map (d.tillBase + ·)

/-- One piece of a save: an address of the save area and what goes there. -/
abbrev Piece := Nat × List Byte

/-- The Till part of a save area: entries at 0, tags at 512 KiB (R69); a legacy save writes every tag (R73). These are the
pieces of the context's own window: `State.emptyTill` stands for the others. -/
def saveTill (x : Cluster) (d : CluDesc) (p : SavePlan) (legacy : Bool) : List Piece :=
  (d.entries.map fun e =>
    let v := SMap.get {} x.till e
    (if p.entry e then [(d.save + 1024 * e, (List.range 256).flatMap fun j => leBytes 4 (Words.get v.words j).toNat)] else [])
      ++ (if p.entry e || legacy then [(d.save + 0x80000 + 4 * e, leBytes 4 (Mx.tagOf v))] else [])).flatten

/-! Places of Table VX.11's rows in the save area; the order inside a row is the model's (log 21). -/

def atV (d : CluDesc) : Nat := d.save + 0x81000
def atK (d : CluDesc) : Nat := atV d + 8192
def atTiles (d : CluDesc) : Nat := atK d + 64
def atTags (d : CluDesc) : Nat := atTiles d + 16384
def atQ (d : CluDesc) : Nat := atTags d + 64
def atTel (d : CluDesc) : Nat := atQ d + 68
def atControl (d : CluDesc) : Nat := d.save + 0x88000
def atRegion (d : CluDesc) : Nat := d.save + 0x8C000

/-- v0 to v31 and k0 to k7, while a VEC of the context is running. -/
def saveRegs (x : Cluster) (d : CluDesc) (p : SavePlan) : List Piece :=
  ((List.range 32).filter p.vreg).map (fun j => (atV d + 256 * j, (List.range 64).flatMap fun i => leBytes 4 (x.lane j i).toNat))
    ++ ((List.range 8).filter p.kreg).map fun j => (atK d + 8 * j, leBytes 8 (x.kreg j).toNat)

/-- The queued tiles, each with its format tag; MX scales follow the elements. -/
def saveTiles (l : List QTile) (d : CluDesc) : List Piece :=
  (l.zipIdx.map fun t =>
    [(atTiles d + 1024 * t.2, packCodes t.1.fmt ((List.range 256).map fun j => (Words.get t.1.codes j).toNat)
        ++ t.1.scales.map (BitVec.ofNat 8)),
      (atTags d + 4 * t.2, leBytes 4 (t.1.fmt + 256))]).flatten

/-- The row of q0 to q7 holds state of the context: a kernel of it runs, or a register is not clear (R91). -/
def heldQ (q : SMap Summary) (t : Option Tel) : Bool := t.isSome || !q.isEmpty

/-- q0 to q7 with their VALID and OVR bits, whole whenever the row holds state. -/
def saveQ (q : SMap Summary) (t : Option Tel) (d : CluDesc) : List Piece :=
  if !heldQ q t then [] else
  let m (k : Nat) : Summary := SMap.get {} q k
  [(atQ d, ((List.range 8).flatMap fun k => leBytes 4 (m k).value.toNat ++ leBytes 4 (m k).aux.toNat)
    ++ leBytes 4 (((List.range 8).map fun k => (m k).valid.toNat * 2 ^ k + (m k).ovr.toNat * 2 ^ (8 + k)).sum))]

/-- s1 to s15, the program index, the remaining budget. -/
def saveTel (t : Option Tel) (d : CluDesc) : List Piece :=
  match t with
  | none => []
  | some t => [(atTel d, ((List.range 15).flatMap fun k => leBytes 4 (t.get (k + 1)).toNat) ++ leBytes 4 t.pc ++ leBytes 4 t.budget)]

/-- The control area: the queued commands, their positions, the landing ring's indices, the live set (log 21). -/
def saveControl (y : Cluster) (c : Nat) (d : CluDesc) : List Piece :=
  let z := y.pc c
  let cmds := y.mq.map (·.q) ++ y.vq ++ y.dq ++ y.callq ++ y.tel.toList.map (·.q)
  [(atControl d, cmds.flatMap fun q => leBytes 64 q.img.toNat),
    (atControl d + 0x2800, (y.mq.flatMap fun m => leBytes 4 m.tile ++ leBytes 4 m.drained ++ leBytes 4 m.acked)
      ++ y.vrun.toList.flatMap fun r => leBytes 4 r.pc ++ leBytes 4 r.rep),
    (atControl d + 0x3F00, leBytes 4 z.ring.fill ++ leBytes 4 z.ring.rel),
    (atControl d + 0x3F80, leBytes 128 z.live)]

/-- Is the context's VEC the running one? -/
def Cluster.ownVec (x : Cluster) (c : CtxId) : Bool := x.vrun.isSome && x.vq.head?.any (·.ctx = c)
def Cluster.ownDma (x : Cluster) (c : CtxId) : Bool := x.dq.head?.any (·.ctx = c)

/-- What the model keeps of a cluster with the context: queues, position records, Tally and Teller state, ring, Vault,
live set, whose layout in the control area the manual does not give (log 21). -/
def Cluster.control (x : Cluster) (c : CtxId) (d : CluDesc) : Cluster :=
  { mq := x.mq.filter (·.q.ctx = c), vq := x.vq.filter (·.ctx = c), vrun := if x.ownVec c then x.vrun else none
    dq := x.dq.filter (·.ctx = c), ddone := x.ownDma c && x.ddone
    callq := x.callq.filter (·.ctx = c), tel := x.tel.filter (·.q.ctx = c)
    tally := x.tally.filter (·.ctx = c), tileq := x.tileq.filter (·.ctx = c)
    till := d.entries.filterMap fun e =>
      let n := (SMap.get {} x.till e).shape
      if n = 0 then none else some (e, { shape := n })
    per := SMap.set {} [] c.toNat (x.pc c.toNat) }

/-- The bytes that go to a cluster's save area, but for the image of its memory. -/
def State.cluPieces (s : State) (c : CtxId) (d : CluDesc) (p : SavePlan) : List Piece :=
  let x := s.clu d.cl.toNat
  let y := x.control c d
  saveTill x d p (s.ctx c.toNat).legacy ++ (if x.ownVec c then saveRegs x d p else []) ++ saveTiles y.tileq d
    ++ saveQ (x.pc c.toNat).q y.tel d ++ saveTel y.tel d ++ saveControl y c.toNat d

/-- Write pieces of a save. -/
def State.putPieces (s : State) (l : List Piece) : State := l.foldl (fun s p => s.hbmWrite p.1 p.2) s

/-- The image of the owned region. -/
def State.saveRegion (s : State) (m : Mem) (d : CluDesc) (p : SavePlan) : State :=
  p.ranges.foldl (fun s r => s.hbmPut (atRegion d + (r.1 - 128 * d.memBase)) r.2 (SMap.slice 0 r.1 (r.1 + r.2) m)) s

/-- A full save writes 512 entries and 512 tags, a legacy one 512 tags (R69, R73): outside the context's own window they are
written as those of empty entries (DESIGN CHOICE, log 93). -/
def State.emptyTill (s : State) (d : CluDesc) (full legacy : Bool) : State :=
  if full then s.hbmClear d.save 0x80800 else if legacy then s.hbmClear (d.save + 0x80000) 0x800 else s

/-- Save one cluster: its save area, its control part, and the cluster cleared of the context. -/
def State.saveClu (s : State) (c : CtxId) (d : CluDesc) : State :=
  let x := s.clu d.cl.toNat
  let p := savePlan d (x.pc c.toNat) (s.heldEntries d.cl.toNat c)
  let s := s.emptyTill d (x.pc c.toNat).full (s.ctx c.toNat).legacy
  let s := ((s.putPieces (s.cluPieces c d p)).saveRegion x.mem d p).modCtx c.toNat fun y =>
    { y with saved := y.saved ++ [(d.cl.toNat, x.control c d)] }
  s.setCl d.cl.toNat ((x.dropCtx c).scrub c.toNat d)

/-- A chunk of the context's running collective: it had its operands in HBM alone and runs on (R235). -/
def State.runsOn (s : State) (c : CtxId) (k : Packet) : Bool :=
  k.ty = 5 && (s.lkc c.toNat).coll.any fun x => x.clusters.isEmpty && x.number == BitVec.ofNat 16 k.target.toNat

/-- An unsent packet that waits with the context: of its own work, but for what runs on and for credit requests (R225,
log 87). -/
def State.keptPacket (s : State) (c : CtxId) (k : Packet) : Bool := s.ownPacket c k && k.ty != 11 && !s.runsOn c k
/-- A packet that leaves the ports at a save; an unsent credit request is asked anew at resume. -/
def State.leavesPort (s : State) (c : CtxId) (k : Packet) : Bool :=
  s.ownPacket c k && !s.runsOn c k

/-- Every port takes back the credits of the context's unsent packets (R188). -/
def State.saveLinks (s : State) (c : CtxId) : State :=
  let tx := (s.port.map fun p => p.2.txq.filter (s.keptPacket c)).flatten
  { s with port := SMap.mapV {} (fun _ p => p.withdraw (s.leavesPort c)) s.port }.modCtx c.toNat fun x =>
    { x with savedTx := x.savedTx ++ tx }

/-- Open token-table entries of the context: (die, entry). -/
def State.openTok (s : State) (c : CtxId) : List (Nat × TokE) :=
  (s.td.map fun p => (p.2.tok.filter (·.ctx = c)).map fun e => (p.1, e)).flatten

/-- The place of an open entry in the context save area: 16 KiB each, by die (R188). -/
def tokPlaces (base : Nat) (l : List (Nat × TokE)) : List (Nat × TokE) :=
  l.zipIdx.map fun e =>
    (base + 0x401000 + e.1.1 * 0x100000 + 16384 * ((l.take e.2).filter (·.1 = e.1.1)).length, e.1.2)

/-- A token-table entry's bytes: 16 per segment, the merged statistics last (R107); its selection, kept values, label and
landed segments stay in Ctx.savedTok (DESIGN CHOICE, log 21). -/
def tokPieces (a : Nat) (e : TokE) : List Piece :=
  (e.segs.filterMap fun g => g.2.map fun v =>
      (a + 16 * g.1, leBytes 4 v.c.toNat ++ leBytes 4 v.s.toNat ++ leBytes 4 v.s1.toNat ++ leBytes 4 v.d.toNat))
    ++ [(a + 16368, leBytes 4 e.m.toNat ++ leBytes 4 e.s.toNat ++ leBytes 4 e.s1.toNat ++ leBytes 4 e.qTail.toNat)]

/-- The bytes that go to the context save area: the scheduler's counters, the accepted commands not yet dispatched,
the open token-table entries (R188, log 21). -/
def State.ctxPieces (s : State) (c : CtxId) : List Piece :=
  let x := s.ctx c.toNat
  let b := x.saveBase.toNat
  [(b, leBytes 4 x.tail.toNat ++ leBytes 4 x.acceptSeq.toNat ++ leBytes 4 x.dispatchSeq.toNat ++ leBytes 4 x.completeSeq.toNat),
    (b + 0x1000, (x.flight.filter (·.phase = .queued)).flatMap fun f => leBytes 64 f.img.toNat)]
    ++ ((tokPlaces b (s.openTok c)).map fun e => tokPieces e.1 e.2).flatten

/-- Open token-table entries go to the context save area; shadow windows are dropped. -/
def State.saveTouch (s : State) (c : CtxId) : State :=
  let tok := s.openTok c
  let s := s.putPieces (s.ctxPieces c)
  { s with td := SMap.mapV {} (fun _ t => { t with
      tok := t.tok.filter (·.ctx ≠ c)
      part := SMap.mapV {} (fun k p => if k = c.toNat then { p with shadow := [] } else p) t.part }) s.td }.modCtx c.toNat fun x =>
    { x with savedTok := x.savedTok ++ tok }

/-- The ranges of HBM a save writes and a restore reads: each cluster's save area, and what is written of the context's
(log 42). -/
def State.saveRanges (s : State) (c : CtxId) : List (Nat × Nat) :=
  (s.ctx c.toNat).cltab.map (fun d => (d.save, 0x8C000 + 128 * d.memSize)) ++ (s.ctxPieces c).map fun p => (p.1, p.2.length)

/-- A remote copy of the context awaits an acknowledge: its DMA engine is not at a boundary yet. -/
def State.copyOut (s : State) (c : CtxId) : Bool :=
  (s.ctx c.toNat).cltab.any fun d => let x := s.clu d.cl.toNat
    x.ownDma c && x.dwait

/-- The context's state as OUT, or STOPPED when the driver asked. -/
def Ctx.leaves (x : Ctx) (clock : Nat) : Ctx :=
  { x with st := if x.stopReq then .stopped else .out, stopReq := false, forced := false, preemptReq := false
           outNo := clock, preempts := if x.stopReq then x.preempts else x.preempts + 1 }

/-- The fault of HBM ranges that a save or a restore touches: the pages must be the context's (R175, R274, log 42). -/
def State.rangesFault (s : State) (c : CtxId) (l : List (Nat × Nat)) (wr : Bool) : Option (U16 × Nat) :=
  s.accessFault c.toNat (l.map fun r => (r.1, r.2, wr, false))

/-- SAVE_DONE: FORCED_SAVE and PREEMPTED events are written; a STOP writes none. The save waits for remote copies, for
collectives with operands in cluster memory (R235) and for pages that an epoch protects. -/
def execSaveDone (c : CtxId) (s : State) : Out :=
  let x := s.ctx c.toNat
  if x.st ≠ .saving || s.copyOut c || s.collHolds c then .next s
  else match s.rangesFault c (s.saveRanges c) true with
  | some f => .next (faultCtx s c f.1 (BitVec.ofNat 64 f.2))
  | none =>
    if (s.saveRanges c).any fun r => s.guarded r.1 r.2 then .next s else
    let s := x.cltab.foldl (fun s d => s.saveClu c d) s
    let s := ((s.saveTouch c).saveLinks c).spillAll c.toNat
    let s := if x.forced then s.event c.toNat 3 else s
    let s := if x.stopReq then s else s.event c.toNat 1
    let clock := s.sched.clock
    .next (({ s with sched := { s.sched with clock := clock + 1 } }.modCtx c.toNat fun x => x.leaves clock).reinherit)

/-! ### Swap-in (R173, R174, R185, R188) -/

/-- Commands in the ring beyond ACCEPT_SEQ, or saved ones; an armed UPDATE is not saved (R160), and one that only waits for
the record buffer needs no cluster (R179). -/
def State.hasWork (s : State) (c : Nat) : Bool :=
  let x := s.ctx c
  seqLt x.acceptSeq x.tail || x.flight.any fun f => f.phase ≠ .completed && !(s.upd.any fun u => u.ctx.toNat = c && u.seq = f.seq)
    && !(x.late.any fun e => e.q.any fun q => !q.issued && q.seq == f.seq)

/-- A SYNC in one of the waits of Table CS.9a that is not satisfied. -/
def State.syncWaits (s : State) (k : SyncCmd) : Bool := k.waiting && fld k.q.img 0x10 2 0 != 3 && !s.syncMet k.q

/-- An OUT context is runnable unless it was evicted in a SYNC wait that is not satisfied (R190). -/
def State.runnable (s : State) (c : Nat) : Bool :=
  let x := s.ctx c
  x.st = .out && !(x.evictedSync && s.sched.sync.any fun k => k.q.ctx.toNat = c && s.syncWaits k)

/-- Two descriptors of one cluster overlap in Till windows or owned regions. -/
def CluDesc.clashes (d e : CluDesc) : Bool :=
  d.cl == e.cl && (rangesMeet d.tillBase (2 ^ d.tillLog) e.tillBase (2 ^ e.tillLog) || rangesMeet d.memBase d.memSize e.memBase e.memSize)

/-- Two contexts that may not be resident together (R173, R185). -/
def Ctx.conflicts (x y : Ctx) : Bool :=
  (x.cltab.any fun d => y.cltab.any fun e => d.clashes e)
    || ((x.exclusive || y.exclusive) && x.cltab.any fun d => y.cltab.any fun e => d.cl.toNat / 256 == e.cl.toNat / 256)

/-- States in which a context holds on-chip state. -/
def CtxSt.onChip (t : CtxSt) : Bool := t = .resident || t = .loading || t = .saving || t = .scrubbing

/-- Free Teller pages of a cluster, ascending. -/
def Cluster.freePages (x : Cluster) : List Nat :=
  (List.range 16).filter fun g => !(x.per.any fun p => p.2.tpages.contains g)

/-- Pages that LOADING contexts will take of a cluster. -/
def State.pagesDue (s : State) (cl : ClId) : Nat :=
  (s.ctxs.map fun p => if p.2.st = .loading then ((p.2.desc cl).map (·.tellerPages)).getD 0 else 0).sum

/-- A cluster of the context has too few free Teller pages. -/
def State.pagesShort (s : State) (x : Ctx) : Bool :=
  x.cltab.any fun d => decide ((s.clu d.cl.toNat).freePages.length < d.tellerPages + s.pagesDue d.cl)

/-- Contexts that hold on-chip state and conflict with context `c`. -/
def State.conflicting (s : State) (c : Nat) : List Nat :=
  s.ctxs.filterMap fun p => if p.1 ≠ c && p.2.st.onChip && (s.ctx c).conflicts p.2 then some p.1 else none

/-- 512 contexts are IN or on their way in. -/
def State.inFull (s : State) : Bool := decide (512 ≤ (s.ctxs.filter fun p => p.2.st = .resident || p.2.st = .loading).length)

/-- Contexts that hold Teller pages the context needs. -/
def State.pageHolders (s : State) (c : Nat) : List Nat :=
  let x := s.ctx c
  if s.pagesShort x then
    s.ctxs.filterMap fun p =>
      if p.1 ≠ c && p.2.st.onChip && x.cltab.any (fun d => (p.2.desc d.cl).any fun e => e.tellerPages ≠ 0) then some p.1 else none
  else []

/-- Nothing stands in the way of the context (R185). -/
def State.wayFree (s : State) (c : Nat) : Bool := (s.conflicting c).isEmpty && !s.inFull && !s.pagesShort (s.ctx c)

/-- Does OUT context `a` go before `b`: higher effective priority, then longer OUT (R190)? -/
def State.outFirst (s : State) (a b : Nat) : Bool :=
  decide (s.eff b < s.eff a) || (s.eff a == s.eff b && decide ((s.ctx a).outNo < (s.ctx b).outNo))

/-- At most one context more may be IN. -/
def State.oneLeft (s : State) : Bool := decide (511 ≤ (s.ctxs.filter fun p => p.2.st = .resident || p.2.st = .loading).length)

/-- Contexts `x` and `y` cannot both come in: they conflict, one place is left, or a cluster's free Teller pages are too
few for both (R173, R185). -/
def State.rivals (s : State) (x y : Ctx) : Bool :=
  x.conflicts y || s.oneLeft || x.cltab.any fun d => (y.desc d.cl).any fun e =>
    d.tellerPages != 0 && e.tellerPages != 0
      && decide ((s.clu d.cl.toNat).freePages.length < d.tellerPages + e.tellerPages + s.pagesDue d.cl)

/-- A context that would go before `c` to the same place (R190). -/
def State.outranked (s : State) (c : Nat) : Bool :=
  s.ctxs.any fun p => p.1 ≠ c && s.runnable p.1 && s.hasWork p.1 && s.outFirst p.1 c && s.rivals (s.ctx c) p.2
    && (s.conflicting p.1).isEmpty && !s.pagesShort p.2

/-- The IN blocker that goes first: lowest priority, then resumed most recently. -/
def State.victim (s : State) : List Nat → Option Nat
  | [] => none
  | a :: t =>
    match s.victim t with
    | none => some a
    | some b => some (if s.leavesFirst b a then b else a)

/-- Context `k` asks contexts to leave. -/
def State.askLeave (s : State) (k : Nat) (l : List Nat) : State :=
  l.foldl (fun s b => s.modCtx b fun x => { x with
    preemptReq := true, askedBy := if x.askedBy.contains k then x.askedBy else x.askedBy ++ [k] }) s

/-- The contest of R185: context `k` against the IN contexts `l` that stand in its way. Where its priority is above the
lowest among them, all of them are pre-empted, each after those that leave before it, or, where one place is enough, the
first that goes. -/
def State.contest (s : State) (k : Nat) (l : List Nat) (all : Bool) : State :=
  match s.victim l with
  | none => s
  | some b =>
    if s.eff k ≤ s.eff b then s
    else if all then s.askLeave k l
    else if l.any fun c => (s.ctx c).preemptReq then s
    else s.askLeave k [b]

/-- SWAP_IN: LOADING where nothing stands in the way; else the contest: every IN context that conflicts, or one at the
limit of 512 or for Teller pages. -/
def execSwapIn (c : CtxId) (s : State) : Out :=
  let k := c.toNat
  let ins (l : List Nat) : List Nat := l.filter s.isIn
  if !s.runnable k || !s.hasWork k || !s.ready || s.outranked k then .next s
  else if s.wayFree k then .next (s.reinherit.modCtx k fun x => { x with st := .loading, evictedSync := false })
  else if !(s.conflicting k).isEmpty then .next (s.contest k (ins (s.conflicting k)) true)
  else if s.inFull then .next (s.contest k (ins (s.ctxs.map Prod.fst)) false)
  else .next (s.contest k (ins (s.pageHolders k)) false)

/-- Read the Till part of a save area back. -/
def loadTill (m : Mem) (t : SMap TillE) (y : Cluster) (d : CluDesc) (p : SavePlan) (legacy : Bool) : SMap TillE :=
  d.entries.foldl (fun t e =>
    let v : TillE := { shape := (SMap.get {} y.till e).shape }
    let v := if p.entry e || legacy then Mx.tagTo v (Mem.readN m (d.save + 0x80000 + 4 * e) 4) else v
    let v := if p.entry e then { v with words := Words.ofFn 256 fun j => Mem.read32 m (d.save + 1024 * e + 4 * j) } else v
    SMap.set {} t e v) t

/-- Read vector and mask registers back; what the live set left out is zero. -/
def loadV (m : Mem) (d : CluDesc) (p : SavePlan) : Words :=
  Words.ofFn 2048 fun i => if p.vreg (i / 64) then Mem.read32 m (atV d + 4 * i) else 0
def loadK (m : Mem) (d : CluDesc) (p : SavePlan) : SMap W64 :=
  SMap.ofFn 0 8 fun j => if p.kreg j then Mem.read64 m (atK d + 8 * j) else 0

/-- Read the queued tiles back. -/
def loadTiles (m : Mem) (d : CluDesc) (l : List QTile) : List QTile :=
  l.zipIdx.map fun t =>
    let a := atTiles d + 1024 * t.2
    let f := Mem.readN m (atTags d + 4 * t.2) 4 % 256
    { t.1 with
      fmt := f, codes := Words.ofFn 256 fun j => BitVec.ofNat 32 (codeAt m f a j)
      scales := (List.range t.1.scales.length).map fun j => (Mem.read m (a + elemBytes f 256 + j)).toNat }

/-- Read q0 to q7 back. -/
def loadQ (m : Mem) (d : CluDesc) (q : SMap Summary) (t : Option Tel) : SMap Summary :=
  if !heldQ q t then q else
  let f := Mem.readN m (atQ d + 64) 4
  SMap.ofFn {} 8 fun k =>
    { value := Mem.read32 m (atQ d + 8 * k), aux := Mem.read32 m (atQ d + 8 * k + 4), valid := bit f k, ovr := bit f (8 + k) }

/-- Read the Teller's registers, index and budget back; the position record tells a budget of 2^32 from none. -/
def loadTel (m : Mem) (d : CluDesc) (t : Tel) : Tel :=
  { t with
    regs := (List.range 15).foldl (fun w k => Words.set w (k + 1) (Mem.read32 m (atTel d + 4 * k))) []
    pc := Mem.readN m (atTel d + 60) 4
    budget := Mem.readN m (atTel d + 64) 4 + (if t.budget = 2 ^ 32 then 2 ^ 32 else 0) }
/-- Read the owned region back. -/
def loadRegion (m cm : Mem) (d : CluDesc) (p : SavePlan) : Mem :=
  p.ranges.foldl (fun cm r => Mem.copyTo cm m r.1 (atRegion d + (r.1 - 128 * d.memBase)) r.2) cm

/-- Queued commands of the context join the cluster's; a running one stands at the head. -/
def Cluster.rejoin (x y : Cluster) (c : Nat) : Cluster :=
  { x with
    mq := x.mq ++ y.mq
    vq := if y.vrun.isSome then y.vq ++ x.vq else x.vq ++ y.vq
    vrun := if y.vrun.isSome then y.vrun else x.vrun
    dq := if y.ddone then y.dq ++ x.dq else x.dq ++ y.dq
    ddone := x.ddone || y.ddone
    callq := x.callq ++ y.callq
    tel := if y.tel.isSome then y.tel else x.tel
    tally := x.tally ++ y.tally
    tileq := x.tileq ++ y.tileq
    per := SMap.set {} x.per c (y.pc c) }

/-- May the saved queues join: engines free for what was running, and room in the queues? -/
def Cluster.canRejoin (x y : Cluster) : Bool :=
  (!x.service || x.failed) && !(y.vrun.isSome && x.vrun.isSome) && !((y.tel.isSome || !y.callq.isEmpty) && (x.tel.isSome || !x.callq.isEmpty))
    && !(y.ddone && (x.ddone || x.dwait)) && (y.tileq.isEmpty || x.tileq.isEmpty)
    && decide (x.mq.length + y.mq.length ≤ 32) && decide (x.vq.length + y.vq.length ≤ 32) && decide (x.dq.length + y.dq.length ≤ 64)

/-- What was saved of a cluster; nothing before the context's first swap-in. -/
def Ctx.savedOf (x : Ctx) (cl : ClId) : Cluster := (x.saved.find? (·.1 = cl.toNat)).map Prod.snd |>.getD {}
def Ctx.hasSaved (x : Ctx) (cl : ClId) : Bool := x.saved.any (·.1 = cl.toNat)

/-- Restore one cluster from its save area and control part, and load its Teller pages (R174). -/
def State.loadClu (s : State) (c : CtxId) (d : CluDesc) : State :=
  let k := c.toNat
  let x := s.clu d.cl.toNat
  let y := (s.ctx k).savedOf d.cl
  let legacy := (s.ctx k).legacy
  let held := (y.mq.map fun m => m.untaken ++
    (List.range (m.tile - m.drained)).map fun j =>
      if legacy then ((legacyAt y.till d (Mx.of m.q.img).ebase).getD 0) + (if legacyHalf m.q.img then (m.drained + j) / 2 else m.drained + j)
      else (Mx.of m.q.img).ebase + (m.drained + j) % (Mx.of m.q.img).nent).flatten
  let p := savePlan d (y.pc k) held
  let pages := x.freePages.take d.tellerPages
  let x := if (s.ctx k).hasSaved d.cl then
      let y := { y with
        tileq := loadTiles s.hbm d y.tileq, tel := y.tel.map (loadTel s.hbm d)
        per := SMap.set {} y.per k { y.pc k with q := loadQ s.hbm d (y.pc k).q y.tel } }
      let x := { x.rejoin y k with till := loadTill s.hbm x.till y d p legacy, mem := loadRegion s.hbm x.mem d p }
      if y.vrun.isSome then { x with v := loadV s.hbm d p, k := loadK s.hbm d p } else x
    else x
  let x := x.modPc k fun z => { z with tpages := pages, full := false }
  s.setCl d.cl.toNat { x with imem := loadPages x.imem pages 0 (Mem.readBytes s.hbm d.image (4096 * pages.length)) }

/-- A token-table entry with its statistics as the save area holds them. -/
def TokE.reread (m : Mem) (a : Nat) (e : TokE) : TokE :=
  let w (o : Nat) : W32 := Mem.read32 m (a + o)
  { e with
    segs := SMap.mapV none (fun k g => g.map fun _ => { c := w (16 * k), s := w (16 * k + 4), s1 := w (16 * k + 8), d := w (16 * k + 12) }) e.segs
    m := w 16368, s := w 16372, s1 := w 16376, qTail := w 16380 }

/-- Token-table entries return to their dies from the context save area. -/
def State.loadTok (s : State) (base : Nat) (l : List (Nat × TokE)) : State :=
  (l.zip (tokPlaces base l)).foldl (fun s e => s.modTd e.1.1 fun t => { t with tok := t.tok ++ [e.2.2.reread s.hbm e.2.1] }) s

/-- Every die's token table has room for the entries that come back (R107, log 106). -/
def State.tokRoom (s : State) (l : List (Nat × TokE)) : Bool :=
  l.all fun e => decide ((s.tdie e.1).tok.length + (l.filter (·.1 = e.1)).length ≤ 64)

/-- The packets that waited with the context are queued again; one without a route faults it (R228). -/
def State.loadTx (s : State) (c : CtxId) (l : List Packet) : State :=
  l.foldl (fun s k =>
    if !s.isIn c.toNat then s else
    match s.enqueue k none with
    | some t => t
    | none => faultCtx s c 0x0403) s

/-- The commands a saved cluster holds. -/
def Cluster.cmds (y : Cluster) : List QE :=
  y.mq.map (·.q) ++ y.vq ++ y.dq ++ y.callq ++ y.tel.toList.map (·.q)

/-- The first saved command of the context that names a failed unit (R273). -/
def State.savedFailed (s : State) (c : CtxId) : Option QE :=
  ((s.ctx c.toNat).saved.flatMap fun p => p.2.cmds).find? fun q => s.namesFailed q.img

/-- A CREDIT_REQUEST to each target partition on another device (R188). -/
def State.askAll (s : State) (c : CtxId) : State :=
  (s.td.map Prod.fst).foldl (fun s d =>
    (s.prt d c.toNat).teacher.foldl (fun s o => if o.2.dev = s.devId then s else s.askCredit d c o.2 o.1) s) s

/-- What a restore reads: the save areas of the clusters that were saved, the Teller images, the token entries. -/
def State.loadRanges (s : State) (c : CtxId) : List (Nat × Nat) :=
  let x := s.ctx c.toNat
  (x.cltab.filter fun d => x.hasSaved d.cl).map (fun d => (d.save, 0x8C000 + 128 * d.memSize))
    ++ x.cltab.map (fun d => (d.image, 4096 * d.tellerPages))
    ++ (tokPlaces x.saveBase.toNat x.savedTok).map fun e => (e.1, 16384)

/-- SWAP_IN_DONE: the restore ends, once every unit has room for what comes back; RESUMED is written. A saved command that names a unit which has failed meanwhile
faults the context (R273). -/
def execSwapInDone (c : CtxId) (s : State) : Out :=
  let k := c.toNat
  let x := s.ctx k
  if x.st ≠ .loading then .next s
  else match s.savedFailed c with
  | some q => .next (faultCtx s c 0x0504 0 q.seq (unitOf q.img))
  | none =>
  if !(x.cltab.all fun d => (s.clu d.cl.toNat).canRejoin (x.savedOf d.cl)) || !s.tokRoom x.savedTok then .next s
  else match s.rangesFault c (s.loadRanges c) false with
  | some f => .next (faultCtx s c f.1 (BitVec.ofNat 64 f.2))
  | none =>
    if (s.loadRanges c).any fun r => s.hbmWait r.1 r.2 then .next s
    else
      let s := x.cltab.foldl (fun s d => s.loadClu c d) s.reinherit
      let s := s.loadTok x.saveBase.toNat x.savedTok
      let clock := s.sched.clock
      let s := { s with sched := { s.sched with clock := clock + 1 } }.modCtx k fun x =>
        { x with st := .resident, saved := [], savedTok := [], savedTx := [], resumedNo := clock }
      let s := (s.event k 2).loadTx c x.savedTx
      .next (if s.isIn k then s.askAll c else s)

/-! ### Eviction (R190) -/

/-- A command of the context dispatched to the cluster could begin. -/
def State.canBegin (s : State) (c : CtxId) (cl : Nat) : Bool :=
  let x := s.clu cl
  (x.mq.any fun m => m.q.ctx = c && !m.started && !m.waiting && !s.touchPending m.q && !s.vaultBusy m.q)
    || (x.vrun.isNone && x.vq.head?.any (·.ctx = c)) || (x.tel.isNone && x.callq.head?.any (·.ctx = c))
    || x.dq.head?.any fun q => q.ctx = c && !s.vaultBusy q

/-- A SIGNAL that its FENCE holds waits behind an earlier command (R182, R190). -/
def State.heldSignal (s : State) (q : QE) : Bool := fld q.img 0x10 2 0 == 0 && s.signals q && s.fenced q

/-- The context's step close has not quiesced, for an UPDATE that is not complete (Table NU.7): a STEP_CLOSE stands behind
that UPDATE (R190). -/
def State.closeHeld (s : State) (c : Nat) : Bool :=
  (s.nums c).close.any fun r => decide (r.phase = .issued) && s.updatesPending c r

/-- Commands of the context outside its clusters that neither wait in a way Table CS.9a lists nor stand behind one that
does. -/
def State.busyElsewhere (s : State) (c : CtxId) : Bool :=
  (s.sched.sync.any fun k => k.q.ctx = c && !s.syncWaits k && !s.heldSignal k.q
      && !(fld k.q.img 0x10 2 0 == 3 && s.closeHeld c.toNat))
    || s.sched.hint.any (·.ctx = c) || s.sched.ckpt.any (·.ctx = c) || s.sched.seq.any (·.ctx = c)
    || (s.sched.eval.any fun q => q.ctx = c && (bit (fld q.img 0x10 31 0) 0 || (s.ctx c.toNat).completeSeq == q.seq - 1))
    || (s.sched.cheap.any fun q => q.ctx = c && !((s.ctx c.toNat).earlier q.seq).any fun g => namesCluster g.img == namesCluster q.img)
    || (s.td.any fun p => p.2.tq.any (·.ctx = c))
    || (s.ctx c.toNat).flight.any fun f => cClass f.img == 6 && f.phase = .dispatched

/-- Every engine the device has. -/
def enginesOf (x : Ctx) : List Engine := (x.flight.filter (·.phase = .queued)).map fun f => engineOf f.img

/-- An IN context is blocked when each of its accepted commands waits, or waits behind one that does, as behind those
that fill its engine's queue. -/
def State.blocked (s : State) (c : CtxId) : Bool :=
  let x := s.ctx c.toNat
  !(seqLt x.acceptSeq x.tail && decide (s.sched.tokens < 65536))
    && ((enginesOf x).all fun e => !s.slotOpen e || (x.headFor e).all fun f => !s.cmdReady c.toNat f)
    && (x.cltab.all fun d => s.parked c d.cl.toNat && !s.canBegin c d.cl.toNat)
    && !s.busyElsewhere c

/-- When a blocked context's wait began: when the last of its commands began to wait, and not before it resumed
(log 99). -/
def State.waitAge (s : State) (c : Nat) : Nat :=
  let own (q : QE) : Bool := q.ctx.toNat == c
  let here (d : CluDesc) : List Nat :=
    let x := s.clu d.cl.toNat
    ((x.tel.toList.filter fun t => own t.q && t.wait ≠ .none).map (·.since))
      ++ ((x.vrun.toList.filter fun r => r.waiting && x.vq.head?.any own).map (·.since))
      ++ ((x.mq.filter fun m => own m.q && m.started && !m.done).map (·.since))
  (((s.sched.sync.filter fun k => own k.q && k.waiting).map (·.age)) ++ (s.ctx c).cltab.flatMap here
    ++ ((s.ctx c).flight.filter (·.phase = .waiting)).map (·.since)).foldl max (s.ctx c).resumedNo

/-- The IN context that has waited longest. -/
def State.longest (s : State) : List Nat → Option Nat
  | [] => none
  | a :: t =>
    match s.longest t with
    | none => some a
    | some b => some (if s.waitAge b < s.waitAge a then b else a)

/-- EVICTION: every IN context is blocked and an OUT one is runnable. A cluster where a command has completed since its
CHEAP is saved whole. -/
def execEviction (s : State) : Out :=
  let ins := (s.ctxs.filter fun p => p.2.st = .resident).map Prod.fst
  if ins.all (fun c => s.blocked (BitVec.ofNat 12 c)) && s.ctxs.any (fun p => s.runnable p.1 && s.hasWork p.1) then
    match s.longest ins with
    | none => .next s
    | some k =>
      let c : CtxId := BitVec.ofNat 12 k
      if s.meetsTest c || s.bursar.hold then .next s
      else
        let cheapAt (cl : Nat) : Bool := ((s.clu cl).pc k).cheap && !((s.clu cl).pc k).ran && s.parked c cl
        let sync := s.sched.sync.any fun x => x.q.ctx = c && s.syncWaits x
        .next ((s.modCtx k fun x => { x with evictedSync := sync }).startSave c fun cl => !cheapAt cl)
  else .next s

end Sys2Proof.Machine
end

