-- ==== Sys2Proof/Machine/Strong.lean ====
section
/-! DEFINITION. The Strongroom: sets, mirror, epochs, tiers, restore, memory errors, self-test; and the step
advance it may delay (R133, R261 to R275, R277). -/

namespace Sys2Proof.Machine
open Sys2Proof

/-! ### Checkpoint sets (R261, Table SG.1) -/

def itemAt (m : Mem) (a : Nat) : Item where
  kind := Mem.read32 m a
  tid := Mem.read32 m (a + 4)
  base := Mem.readN m (a + 8) 8
  len := Mem.readN m (a + 16) 8
/-- The reserved word of an item is not zero. -/
def itemResv (m : Mem) (a : Nat) : Bool := Mem.readN m (a + 24) 8 != 0

def Item.overlaps (a b : Item) : Bool := rangesMeet a.base a.len b.base b.len

/-- An item that may not stand in context `c`'s set: of a reserved kind, or with reserved bits, too long a MIRROR item,
or outside the context's pages. -/
def State.badItem (s : State) (c : Nat) (it : Item) : Bool :=
  !([1, 2, 3].contains it.kind.toNat) || (it.kind == 1 && decide (2 ^ 28 ≤ it.len)) || (it.len != 0 && !s.ownsArea c it.base it.len)

/-- The place of an item of a context's set. -/
def SgCtx.itemPlace (x : SgCtx) (i : Nat) : Nat := x.setBase.toNat + 32 * i

/-- The first item that is bad, cannot be read (R271; log 28) or overlaps an earlier one. -/
def State.offender (s : State) (c : Nat) (l : List Item) : Option Nat :=
  (List.range l.length).find? fun i =>
    match l[i]? with
    | some it => s.badItem c it || itemResv s.hbm ((s.sgc c).itemPlace i) || s.ueMeets ((s.sgc c).itemPlace i) 32 || (l.take i).any fun e => e.overlaps it
    | none => false

/-- The selected context's set, as the table in HBM gives it. -/
def State.setTable (s : State) (c : Nat) : List Item :=
  (List.range (s.sgc c).setCount.toNat).map fun i => itemAt s.hbm ((s.sgc c).itemPlace i)

/-- A sound set is installed: what has been written since the last delta stays dirty, and the granules of MIRROR items
that were not mirrored before count as written, since the image has none of them (R263, log 102). -/
def SgCtx.installed (x : SgCtx) (l : List Item) : SgCtx :=
  let y := { x with items := l, valid := true, reject := false, first := 0 }
  let new := (y.mirrors.flatMap fun r => granulesOf r.1 r.2).filter fun g => y.mirrored g && !x.mirrored g && !x.dirty.contains g
  { y with dirty := x.dirty ++ new }

/-- SET_APPLY: checked and installed, or rejected; an error that its reading meets has the outcome of Table SG.5. -/
def execSetApply (v : W32) (s : State) : Out :=
  let c := s.sel.sgCtx
  if !bit v.toNat 0 || !s.canWrite pgStrong then .next s
  else
    let l := s.setTable c.toNat
    let shut := !s.unitOn 2 || (s.sgc c.toNat).epoch.isSome
    match (if shut then some 0 else s.offender c.toNat l) with
    | some i =>
      let s := if shut then s else (s.meetUe [((s.sgc c.toNat).itemPlace 0, 32 * l.length)]).getD s
      .next ((s.modSgc c.toNat fun x => { x with reject := true, first := BitVec.ofNat 10 i }).alarm pgStrong 0 (some c))
    | none => .next (s.modSgc c.toNat fun x => x.installed l).checkTier

/-! ### Checksums (R267) -/

def sumStep (c : W64) (w : W64) (i : Nat) : W64 :=
  rotl64 (c ^^^ (w * 0xa54ff53a5f1d36f1#64)) 23 * 0x3c6ef372fe94f82b#64 + BitVec.ofNat 64 i
/-- The checksum of a 64 KiB page at byte address `a`. -/
def pageSum (m : Mem) (a : Nat) : W64 :=
  (List.range 8192).foldl (fun c i => sumStep c (Mem.read64 m (a + 8 * i)) i) 0x6a09e667f3bcc908#64

/-! ### The state record and the mirror (R262, R263) -/

/-- May the Strongroom read the range for context `c`: its pages are VALID and the context's (R175, R275)? -/
def State.readsOwn (s : State) (c a n : Nat) : Bool := n != 0 && s.ownsArea c a n
/-- The bytes of a range that is the context's; of another it takes none (R275). -/
def State.ownSlice (s : State) (c a n : Nat) : Mem := if s.readsOwn c a n then SMap.slice 0 a (a + n) s.hbm else []

/-- The ranges of HBM that a pinned copy reads. -/
def State.pinnedReads (s : State) (c : Nat) (mirror : List (Nat × Nat)) : List (Nat × Nat) :=
  let x := s.mtc c
  (mirror ++ [((s.nums c).censusBase.toNat, if (s.nums c).censusBase = 0 then 0 else 4096),
    (x.instBase.toNat, 128 * x.instCount.toNat), (x.instCoeff.toNat, 4096)]).filter fun r => s.readsOwn c r.1 r.2

/-- MIRROR items and the state record, as they stand; LS_STEP as the step after the close (log 74). -/
def State.pinned (s : State) (c : Nat) (mirror : List (Nat × Nat)) : Pinned :=
  let x := s.mtc c
  let l := s.lgc c
  let b := (s.nums c).censusBase.toNat
  { mirror := (mirror.filter fun r => s.readsOwn c r.1 r.2).map fun r => (r.1, r.2, SMap.slice 0 r.1 (r.1 + r.2) s.hbm)
    num := s.nums c
    census := if b = 0 then [] else s.ownSlice c b 4096
    table := if x.valid then some (x.instBase.toNat, x.instCount.toNat, x.instCoeff.toNat) else none
    desc := s.ownSlice c x.instBase.toNat (128 * x.instCount.toNat)
    coeff := s.ownSlice c x.instCoeff.toNat 4096
    entries := s.lgE.filter fun p => decide (l.entFirst ≤ p.1) && decide (p.1 < l.entFirst + l.entCount)
    slots := s.lgA.filter fun p => decide (l.adpFirst ≤ p.1) && decide (p.1 < l.adpFirst + l.adpCount) }

/-- A delta applied to an image: its granules and its record replace what they name. -/
def Pinned.apply (i d : Pinned) : Pinned :=
  { d with mirror := i.mirror.filter (fun g => !d.mirror.any (·.1 = g.1)) ++ d.mirror }

/-- The granules of the next delta. -/
def SgCtx.deltaRanges (x : SgCtx) : List (Nat × Nat) := (x.dirty.filter x.mirrored).map fun g => (256 * g, 256)

/-- MIRROR_DELTA_SEND: dirty granules and the state record go to the active tier (R263). -/
def State.sendDelta (s : State) (c : CtxId) (n : W32) : State :=
  let x := s.sgc c.toNat
  if s.unitOn 2 && x.valid && s.sg.tierActive != 0 then
    let p := s.pinned c.toNat x.deltaRanges
    (s.modSgc c.toNat fun x => { x with delta := some n, deltaPin := p, dirty := [] }).sendPinned c p
  else s

/-- MIRROR_DELTA_ACK: the tier has the whole delta, applies it and acknowledges. -/
def execMirrorDeltaAck (c : CtxId) (s : State) : Out :=
  match (s.sgc c.toNat).delta with
  | none => .next s
  | some n =>
    if !s.tierAcked c then .next s else
    .next (s.modSgc c.toNat fun x =>
      { x with delta := none, mirrorStep := n, image := x.image.apply x.deltaPin, deltaPin := {} })

/-! ### Epochs (R264 to R266, Table SG.2) -/

/-- An epoch becomes due, or is skipped while the previous one is unsealed. -/
def State.epochIsDue (s : State) (c : CtxId) : State :=
  if (s.sgc c.toNat).epoch.isSome then
    (s.modSgc c.toNat fun x => { x with skip := x.skip + 1 }).alarm pgStrong 1 (some c)
  else s.modSgc c.toNat fun x => { x with due := true }

/-- EPOCH_TIMER: with a period of 0 it never expires. -/
def execEpochTimer (c : CtxId) (s : State) : Out :=
  if s.unitOn 2 && (s.sgc c.toNat).valid && (s.sgc c.toNat).period != 0 then .next (s.epochIsDue c) else .next s

/-- The context's CKPT command with an operation. -/
def State.ckptHead (s : State) (c : CtxId) (op : Nat) : Option QE :=
  (s.sched.ckpt.find? (·.ctx = c)).filter fun q => fld q.img 0x10 7 0 == op && s.isIn c.toNat
def State.ckptEnd (s : State) (q : QE) : State :=
  { s with sched := { s.sched with ckpt := s.sched.ckpt.filter (· ≠ q) } }.complete q

def execEpochNow (c : CtxId) (s : State) : Out :=
  match s.ckptHead c 1 with
  | none => .next s
  | some q => .next ((s.ckptEnd q).epochIsDue c)

/-- TEACHER_SEAL: the checksums of every page of the TEACHER items; it waits for a page that is being fetched anew or
zeroed, and an error that no refetch mends faults the context (Table SG.5, R275). -/
def execTeacherSeal (c : CtxId) (s : State) : Out :=
  match s.ckptHead c 2 with
  | none => .next s
  | some q =>
    let l := (s.sgc c.toNat).teachers
    if l.any fun g => s.hbmWait (65536 * g) 65536 then .next s else
    match l.find? fun g => s.ueMeets (65536 * g) 65536 with
    | some g => .next (s.faultCmd q 0x0501 (BitVec.ofNat 64 (65536 * g)))
    | none =>
    let r := l.foldl (fun m g => SMap.set none m g (some (pageSum s.hbm (65536 * g)))) []
    .next ((s.ckptEnd q).modSgc c.toNat fun x => { x with teacherRec := r })

/-- The generations kept when one more is to be written to tier `t`: of that tier the newest, of the others all
(R266). -/
def gensFor (t : Nat) (l : List Gen) : List Gen :=
  match l with
  | [] => []
  | g :: r => if g.tier = t then g :: r.filter (·.tier ≠ t) else g :: gensFor t r

/-- Protect and pin (Table SG.2), of the pages that are still the context's (R275): the pinned copy goes to the active tier. Without a usable tier the epoch stays due
(log 91). -/
def State.protect (s : State) (c : CtxId) (n : W32) : State :=
  let x := s.sgc c.toNat
  if !x.valid || s.sg.tierActive = 0 then s
  else if x.epoch.isSome then s.epochIsDue c
  else
    let p := s.pinned c.toNat x.mirrors
    (s.modSgc c.toNat fun x => { x with
      due := false, gens := gensFor s.sg.tierActive.toNat x.gens
      epoch := some { step := n, prot := x.snapshot.filter (s.ownsPage c.toNat), pin := p } }).sendPinned c p

def State.modEpoch (s : State) (c : Nat) (f : Epoch → Epoch) : State := s.modSgc c fun x => { x with epoch := x.epoch.map f }

/-- The context whose epoch has the page in a list. -/
def State.epochOf (s : State) (f : Epoch → List Nat) (g : Nat) : Option (Nat × Epoch) :=
  s.sgC.findSome? fun p => p.2.epoch.bind fun e => if (f e).contains g then some (p.1, e) else none

/-- The place of a staging slot. -/
def SgCtx.slotPlace (x : SgCtx) (i : Nat) : Nat := x.stageBase.toNat + 65536 * i
/-- Staging slots of 64 KiB that hold nothing, in pages of the context that may be written now, lowest first. -/
def State.freeSlots (s : State) (c : Nat) (e : Epoch) : List Nat :=
  let x := s.sgc c
  (List.range x.stageSize.toNat).filter fun i =>
    s.ownsPage c (x.stageBase.toNat / 65536 + i) && !s.guarded (x.slotPlace i) 65536 && !e.staged.any fun t => t.2 = i

/-- PAGE_TOUCH: the copy begins, where staging has room. -/
def execPageTouch (page : BitVec 25) (s : State) : Out :=
  let g := page.toNat
  match s.epochOf (·.prot) g with
  | none => .next s
  | some (c, e) =>
    if e.copying.length < (s.freeSlots c e).length then
      .next (s.modEpoch c fun e => { e with prot := e.prot.erase g, copying := e.copying ++ [g] })
    else .next s

/-- TOUCH_COPY_DONE: the page stands in staging and its bit is clear; the write that waited goes on. -/
def execTouchCopyDone (page : BitVec 25) (s : State) : Out :=
  let g := page.toNat
  match s.epochOf (·.copying) g with
  | none => .next s
  | some (c, e) =>
    if let u :: _ := s.ueIn (65536 * g) 65536 then .next (s.ueHbm u none) else
    match s.freeSlots c e with
    | [] => .next s
    | i :: _ =>
      let s := s.hbmPut ((s.sgc c).slotPlace i) 65536 (SMap.slice 0 (65536 * g) (65536 * g + 65536) s.hbm)
      .next (s.modEpoch c fun e => { e with copying := e.copying.erase g, staged := e.staged ++ [(g, i)] }).openPages

/-- The page to ship next, where it stands, and the epoch without it: staged pages go first, then protected ones in
ascending order. -/
def Epoch.shipNext (x : SgCtx) (e : Epoch) : Option (Nat × Nat × Epoch) :=
  match e.staged with
  | (g, i) :: t => some (g, x.slotPlace i, { e with staged := t })
  | [] =>
    match e.prot with
    | g :: t => some (g, 65536 * g, { e with prot := t })
    | [] => none

/-- May the active tier be written now (R268, R309)? -/
def State.tierOpen (s : State) : Bool := s.sg.tierActive != 0 && (s.sg.tierActive != 3 || s.boot.hostUp)

/-- SHIP_PAGE: the page goes to the active tier with its checksum, as 16 pieces of 4,096 bytes and one of 8 (log 91). A
staging page that is the context's no more ends the epoch, which is due again (R275, log 96). -/
def execShipPage (c : CtxId) (s : State) : Out :=
  let x := s.sgc c.toNat
  match x.epoch.bind (Epoch.shipNext x) with
  | none => .next s
  | some (g, a, e) =>
    if !s.tierOpen then .next s
    else if (x.epoch.any fun e => !e.staged.isEmpty) && !s.ownsPage c.toNat (a / 65536) then
      .next ((s.abandonEpoch c.toNat).modSgc c.toNat fun x => { x with due := true })
    else if let u :: _ := s.ueIn a 65536 then .next (s.ueHbm u none)
    else
      let m := SMap.slice 0 a (a + 65536) s.hbm
      let r : PageRec := { page := g, sum := pageSum m 0, data := m }
      let s := s.modEpoch c.toNat fun _ => { e with shipped := e.shipped ++ [r] }
      .next (s.tierSend c 17 fun i => if i < 16 then Mem.readBytes m (4096 * i) 4096 else leBytes 8 r.sum.toNat).openPages

def Epoch.allShipped (e : Epoch) : Bool := e.prot.isEmpty && e.copying.isEmpty && e.staged.isEmpty

/-- The header of a generation: its step and its page count, in the model's layout (log 91). -/
def Epoch.header (e : Epoch) : List Byte := leBytes 4 e.step.toNat ++ leBytes 4 e.shipped.length

/-- EPOCH_SEAL: every page is shipped and the tier has acknowledged them; the header is written. -/
def execEpochSeal (c : CtxId) (s : State) : Out :=
  match (s.sgc c.toNat).epoch with
  | none => .next s
  | some e =>
    if e.allShipped && s.tierAcked c then
      let g : Gen := { step := e.step, tier := s.sg.tierActive.toNat, pages := e.shipped, pin := e.pin }
      .next (((s.endEpoch c.toNat).modSgc c.toNat fun x => { x with sealed := e.step, gens := g :: x.gens }).tierSend c 1 fun _ =>
        e.header)
    else .next s

/-! ### The step advance (Table NU.7, R263, R265) -/

/-- What a step advance reads of the context's HBM (R263, R265). -/
def State.advanceReads (s : State) (c : CtxId) (epoch : Bool) : List (Nat × Nat) :=
  let x := s.sgc c.toNat
  if s.unitOn 2 && x.valid && s.sg.tierActive != 0 then
    s.pinnedReads c.toNat ((if epoch && x.epoch.isNone then x.mirrors else []) ++ x.deltaRanges)
  else []

/-- STEP_ADVANCE, once the Census flush is over; an earlier delta still being sent delays it, a due epoch protects
first. It waits for a page to be fetched anew, and an error that its reading meets has the outcome of Table SG.5. -/
def execStepAdvance (c : CtxId) (s : State) : Out :=
  let k := c.toNat
  match (s.nums k).close, s.syncHead c 3 with
  | some r, some q =>
    if r.phase ≠ .agreed || (s.unitOn 2 && (s.sgc k).delta.isSome) then .next s
    else if s.addsWait k then .next (s.meetAdds k)
    else if (s.advanceReads c r.epoch).any fun a => s.hbmWait a.1 a.2 then .next s
    else match s.meetUe (s.advanceReads c r.epoch) with
    | some t => .next t
    | none =>
      let s := s.modNum k fun x => { x with step := r.step + 1, close := none }
      let s := if r.epoch && s.unitOn 2 then s.protect c r.step else s
      .next ((s.syncEnd q.q).sendDelta c r.step)
  | _, _ => .next s

/-! ### Tiers (R268, Table SG.3) -/

/-- TIER_LOST. -/
def execTierLost (s : State) : Out := .next s.loseTier

/-- TIER_RESET: every tier is ranked again. -/
def execTierReset (v : W32) (s : State) : Out :=
  if bit v.toNat 0 && s.canWrite pgStrong then .next (State.reRank { s with sg := { s.sg with lost := [] } }) else .next s

/-- HOST_ACK: the host has taken a block; the next one may go. -/
def execHostAckWrite (v : W32) (s : State) : Out :=
  if s.canWrite pgStrong then .next (State.pushHost { s with sg := { s.sg with hostAck := v } }) else .next s

/-! ### Restore (R269, R270, Table SG.4) -/

/-- A fault of a context that is being restored: it holds nothing on chip, so it is FAULTED at once (log 75). -/
def State.restoreFault (s : State) (c : CtxId) (code : U16) (detail : W64) : State :=
  (s.modCtx c.toNat fun x =>
    { x.record { cmd := 0, kind := 1, code := code, unit := 0xFFFF, detail := detail, time := s.devTime, irq := false } with
      st := .faulted, lastFault := code, faults := x.faults + 1 }).alarm0
    pgClear 1 (some c.toNat)

/-- Can the tier be read: it is not lost, and what it needs to be there is there (R269, log 91)? -/
def State.tierReachable (s : State) (r : Nat) : Bool :=
  !s.sg.lost.contains r &&
    (if r = 1 then s.sg.partner != s.devId && (s.route s.sg.partner).isSome
    else if r = 2 then s.sg.flashNsid != 0 else s.sg.hostBase != 0)

/-- The sealed generation of a step on a reachable tier. -/
def State.genOf (s : State) (c : Nat) (n : W32) : Option Gen :=
  (s.sgc c).gens.find? fun g => g.step = n && s.tierReachable g.tier

/-- A restore writes `n` bytes at `a` only into pages of the context; another place faults it and keeps its bytes (R175,
R274, log 75). -/
def State.putOwn (s : State) (c : CtxId) (a n : Nat) (m : Mem) : State :=
  match s.hbmCheck c.toNat a n true true with
  | some f => s.restoreFault c f (BitVec.ofNat 64 a)
  | none => s.hbmPut a n m

/-- The pinned numerics registers: GEN_SEED, LS_STATE, LS_STEP, LS_CONFIG; overflow reports of later steps are gone. -/
def Numerics.restored (x p : Numerics) : Numerics :=
  { x with seed := p.seed, e := p.e, ePrev := p.ePrev, clean := p.clean, step := p.step, eMin := p.eMin
           eMax := p.eMax, interval := p.interval, close := none, pendOvf := [] }

/-- Are the context's KV pool pages SNAPSHOT items: those that the words of its pool name (R200)? A word that the context
may not read names none (log 75). -/
def State.poolSnapshot (s : State) (c : Nat) : Bool :=
  let l := s.lgc c
  let p := (s.sgc c).snapshot
  (List.range l.iCount).all fun i => (s.hbmCheck c (l.word i) 4 false false).isNone && p.contains (s.poolPage c i)

/-- The first word of the context's pool that is in error (R271). -/
def State.poolError (s : State) (c : Nat) : Option Nat :=
  (List.range (s.lgc c).iCount).findSome? fun i => if s.ueMeets ((s.lgc c).word i) 4 then some ((s.lgc c).word i) else none

/-- An entry as restored. -/
def Entry.restored (e : Entry) (keep : Bool) : Entry :=
  let e := e.ungather
  if keep || e.state == 0 then e else { e with state := 6, trunc := true }

/-- The HBM ranges of a pinned copy, with their bytes: MIRROR items, Census area, and the descriptors and coefficients
where they stood. -/
def State.pinnedRanges (s : State) (c : Nat) (p : Pinned) : List (Nat × Nat × Mem) :=
  let b := (s.nums c).censusBase.toNat
  p.mirror ++ (if b = 0 then [] else [(b, 4096, p.census)])
    ++ (match p.table with
      | some (d, n, k) => [(d, 128 * n, p.desc), (k, 4096, p.coeff)]
      | none => [])

/-- The descriptor table that was installed when the copy was pinned is the installed one (Table SG.4). -/
def MintCtx.restored (x : MintCtx) (p : Pinned) : MintCtx :=
  match p.table with
  | some (d, n, k) => { x with valid := true, instBase := BitVec.ofNat 64 d, instCount := BitVec.ofNat 13 n, instCoeff := BitVec.ofNat 64 k }
  | none => { x with valid := false }

/-- MIRROR items, Census area, descriptors, coefficients, then the Ledger, whose pool stands as the restore leaves it; its
variant and its count of OPENs begin anew, so that equal commands leave equal tables after it (R198; DESIGN CHOICE, log
79). -/
def State.putPinned (s : State) (ci : CtxId) (p : Pinned) : State :=
  let c := ci.toNat
  let l := s.lgc c
  let s := (s.pinnedRanges c p).foldl (fun s r => s.putOwn ci r.1 r.2.1 r.2.2) s
  let keep := s.poolSnapshot c
  let es := p.entries.map fun e => (e.1, e.2.restored keep)
  let s := s.modMtc c fun x => x.restored p
  { s with
    lgE := SMap.splice {} l.entFirst l.entCount s.lgE (SMap.slice {} l.entFirst (l.entFirst + l.entCount) es)
    lgA := SMap.splice {} l.adpFirst l.adpCount s.lgA (SMap.slice {} l.adpFirst (l.adpFirst + l.adpCount) p.slots) }.modLgc c
      fun y => { y with manifests := [], variant := 0, opens := 0 }

/-- What the context held on chip and in its save areas is gone, its Census counters too; partitions as PART_APPLY
leaves them. -/
def State.emptied (s : State) (c : CtxId) : State :=
  let t := ((s.stopCtx c).scrubTouch c).dropAdds c.toNat
  { t with census := dropCensus t.census c.toNat, td := SMap.mapV {} (fun d x => { x with
      part := SMap.mapV {} (fun k p => if k = c.toNat then { p with refusing := (s.prt d k).refusing } else p) x.part }) t.td }.modCtx c.toNat
    fun x => { x with flight := [], saved := [], savedTok := [], savedTx := [], evictedSync := false }

/-- A TEACHER page that differs from its record is fetched from TEACHER_SRC, or faults MEM_UE (Table SG.5). -/
def State.checkTeachers (s : State) (c : CtxId) : State :=
  (s.sgc c.toNat).teachers.foldl (fun s g =>
    if SMap.get none (s.sgc c.toNat).teacherRec g = some (pageSum s.hbm (65536 * g)) && !s.ueMeets (65536 * g) 65536 then s
    else if s.teacherSrc c.toNat then { s with sg := { s.sg with refetch := s.sg.refetch ++ [(g, c)] } }
    else s.restoreFault c 0x0501 (BitVec.ofNat 64 (65536 * g))) s

/-- May the generation be written back now: the host answers for its tier (R309), no TEACHER page to be checked is being
fetched anew, and no page it goes to is protected by an epoch (Table SG.2)? -/
def State.restoreReady (s : State) (c : Nat) (g : Gen) : Bool :=
  (g.tier != 3 || s.boot.hostUp) && !((s.sgc c).teachers.any fun g => s.hbmWait (65536 * g) 65536) && !(g.pages.any fun r => s.guarded (65536 * r.page) 65536)
    && !(s.pinnedRanges c g.pin).any fun r => s.guarded r.1 r.2.1

/-- The generation is written back (R269, Table SG.4). -/
def State.restore (s : State) (c : CtxId) (g : Gen) : State :=
  let k := c.toNat
  let s := s.emptied c
  let s := g.pages.foldl (fun s r => s.putOwn c (65536 * r.page) 65536 r.data) s
  let s := (s.putPinned c g.pin).modNum k fun n => n.restored g.pin.num
  let s := match s.poolError k with
    | some a => s.restoreFault c 0x0501 (BitVec.ofNat 64 a)
    | none => s
  ((s.checkTeachers c).modSgc k fun x => { x with restoreWait := false }).checkTier

/-- RESTORE_GO: busy until the pages are validated, or status 2 without a generation; where something must be waited
for, the restore takes place before its validation. -/
def execRestoreGo (v : W32) (s : State) : Out :=
  let c := s.sel.sgCtx
  let k := c.toNat
  let x := s.sgc k
  if !bit v.toNat 0 || !s.canWrite pgStrong then .next s
  else if (s.ctx k).st ≠ .stopped ∧ (s.ctx k).st ≠ .faulted then .next (s.alarm pgStrong 0 (some c))
  else
    match (if s.unitOn 2 then s.genOf k x.restoreStep else none) with
    | none => .next (s.modSgc k fun x => { x with restoreStatus := 2, refetched := 0, restoreWait := false })
    | some g =>
      let s := s.modSgc k fun x => { x with restoreStatus := 1, refetched := 0, restoreWait := true }
      .next (if s.restoreReady k g then s.restore c g else s)

/-- The decision on one page (R270). -/
inductive PageVerdict where
  | accept
  | fetch (data : Mem)
  | fault (code : U16)

def State.judgePage (s : State) (c : Nat) (r : PageRec) (l : List ReplicaPage) : PageVerdict :=
  let own := pageSum s.hbm (65536 * r.page)
  let ok := own == r.sum
  if s.ueMeets (65536 * r.page) 65536 then .fault 0x0501 else
  match (if (s.sgc c).replica = 0xFFF then none else l.find? fun p => p.addr.toNat = 65536 * r.page) with
  | none => if ok then .accept else .fault 0x0502
  | some p =>
    if ok then (if p.matchesRec && p.sum != own then .fault 0x0503 else .accept)
    else if !p.matchesRec then .fault 0x0502
    else
      let m := Mem.stores [] (p.data.filter fun d => decide (d.1 < 65536))
      if pageSum m 0 = r.sum then .fetch m else .fault 0x0502

/-- The pages of a restored generation are decided, one by one (R270). -/
def State.judge (s : State) (c : CtxId) (g : Gen) (replica : List ReplicaPage) : State :=
  let k := c.toNat
  let s := g.pages.foldl (fun s r =>
    match s.judgePage k r replica with
    | .accept => s
    | .fetch m => (s.putOwn c (65536 * r.page) 65536 m).modSgc k fun x => { x with refetched := x.refetched + 1 }
    | .fault f => s.restoreFault c f (BitVec.ofNat 64 (65536 * r.page))) s
  s.modSgc k fun x => { x with restoreStatus := 3 }

/-- RESTORE_VALIDATE: a restore that had to wait takes place first; then page by page the restore is done. -/
def execRestoreValidate (c : CtxId) (replica : List ReplicaPage) (s : State) : Out :=
  let k := c.toNat
  if (s.sgc k).restoreStatus ≠ 1 then .next s
  else
    match s.genOf k (s.sgc k).restoreStep with
    | none => .next (s.modSgc k fun x => { x with restoreStatus := 2, restoreWait := false })
    | some g =>
      if !(s.sgc k).restoreWait then .next (s.judge c g replica)
      else if s.restoreReady k g then .next ((s.restore c g).judge c g replica)
      else .next s

/-! ### Memory errors (R271, Table SG.5) -/

/-- HBM3E, cluster memory and Escrow count; the rule names no other memory. -/
def execCorrectableError (loc : ErrLoc) (s : State) : Out :=
  let counted := { s with sg := { s.sg with ceCount := satAdd s.sg.ceCount 1 } }
  if !s.ready then .next s else
  match loc with
  | .cluster cl _ => .next (counted.modCl cl.toNat fun x => { x with memCe := satAdd x.memCe 1 })
  | .till .. => .next s
  | _ => .next counted

/-- UE_LOG of a location: an HBM address, which stays in error until it is written; the manual gives no address for the
others (log 13). -/
def State.logUe (s : State) (loc : ErrLoc) : State :=
  match loc with
  | .hbm a _ => { s with sg := { s.sg with ueLog := a.setWidth 64, ueAt := s.sg.ueAt ++ [a.toNat] } }
  | _ =>
    let w := (Config.freeWord s.free).toNat + 2 ^ 32 * (Config.freeWord (s.free + 1)).toNat
    { s with free := s.free + 2, sg := { s.sg with ueLog := BitVec.ofNat 64 w } }

/-- The resident context that owns a place of a cluster. -/
def State.clusterOwner (s : State) (cl : ClId) (f : CluDesc → Bool) : Option CtxId :=
  (s.ctxs.find? fun p => p.2.st.onChip && (p.2.desc cl).any f).map fun p => BitVec.ofNat 12 p.1

/-- The context whose partition holds a granule. -/
def State.partOwner (s : State) (d : Nat) (g : Nat) : Option CtxId :=
  ((s.tdie d).part.find? fun p => p.2.valid && decide (p.2.geo.base ≤ g) && decide (g < p.2.geo.base + p.2.geo.size)).map
    fun p => BitVec.ofNat 12 p.1

/-- UNCORRECTABLE_ERROR; one in cluster memory also marks its CLUSTER page (R290). -/
def execUncorrectableError (loc : ErrLoc) (s : State) : Out :=
  if !s.ready then .next s else
  let s := s.logUe loc
  match loc with
  | .hbm a r => .next (s.ueHbm a.toNat r)
  | .cluster cl off =>
    let o := s.clusterOwner cl fun d => d.owns off.toNat 1
    .next ((s.alarm0 (pgCluster cl.toNat) 1 (o.map BitVec.toNat)).ueHit o (BitVec.ofNat 64 off.toNat))
  | .till cl e => .next (s.ueHit (s.clusterOwner cl fun d => decide (d.tillBase ≤ e.toNat) && decide (e.toNat < d.tillBase + 2 ^ d.tillLog))
      (BitVec.ofNat 64 e.toNat))
  | .escrow d g => .next (s.ueHit (s.partOwner d.val g.toNat) (BitVec.ofNat 64 g.toNat))

/-- MEM_UE of a context whose page could not be fetched anew; one under restore is STOPPED or FAULTED (log 75). -/
def State.refetchFault (s : State) (c : CtxId) (a : W64) : State :=
  if (s.ctx c.toNat).st = .stopped ∨ (s.ctx c.toNat).st = .faulted then s.restoreFault c 0x0501 a else faultCtx s c 0x0501 a

/-- The context that reads a page which is to be fetched anew: the one that met the error, or, where a scrub found it
(R311), the page's owner. -/
def State.refetcher (s : State) (g : Nat) : Option CtxId :=
  match s.sg.refetch.find? (·.1 = g) with
  | some (_, r) => some r
  | none => if !(s.ueIn (65536 * g) 65536).isEmpty && s.refetchable g then some (BitVec.ofNat 12 (s.page g)) else none

/-- TEACHER_REFETCH_DONE: checked against the teacher record; a mismatch faults the reading context. -/
def execTeacherRefetchDone (page : BitVec 25) (data : List (Nat × Byte)) (s : State) : Out :=
  let g := page.toNat
  match s.refetcher g with
  | none => .next s
  | some r =>
    let m := Mem.stores [] (data.filter fun d => decide (d.1 < 65536))
    let o := s.page g % 4096
    let s := { s with sg := { s.sg with refetch := s.sg.refetch.filter (·.1 ≠ g) } }
    if SMap.get none (s.sgc o).teacherRec g = some (pageSum m 0) then
      let s := s.hbmPut (65536 * g) 65536 m
      .next { s with sg := { s.sg with ueRefetch := satAdd s.sg.ueRefetch 1 } }
    else .next (s.refetchFault r (BitVec.ofNat 64 (65536 * g)))

/-! ### Self-test (R272, R273, Table SG.6) -/

/-- A unit that exists in the running profile. -/
def State.unitExists (s : State) (t : SelfTest) : Bool :=
  let u := t.unit
  if u.1 ≤ 1 then decide (u.2 % 256 < 150) && s.diePowered (u.2 / 256)
  else if u.1 = 2 then s.diePowered u.2
  else if u.1 = 3 then s.diePowered (u.2 / 3)
  else if u.1 = 4 then decide (u.2 < 6) && (s.prt6 u.2).usable && bit (s.prt6 u.2).lanes.toNat (bits t.req.toNat 18 14)
  else false

/-- TEST_REQ: GO starts a withdrawal while none is under way. -/
def execTestReq (v : W32) (s : State) : Out :=
  if !s.canWrite pgSelfTest || s.st.st ≠ 0 then .next s
  else
    let t := { s.st with req := v &&& 0x8007FFFF#32 }
    if bit v.toNat 31 && s.unitExists t then .next { s with st := { t with st := 1, pass := false, fail := false } }
    else .next { s with st := t }

/-- A group accepted before its tiles were in still writes loss values to the cluster's memory (R93, log 68). -/
def State.lossDue (s : State) (cl : Nat) : Bool :=
  s.cls.any fun p => p.2.mq.any fun m =>
    m.grant.isSome && (Mx.of m.q.img).dest == 2 && (Mx.of m.q.img).role == 2
      && (opAt (s.prt (p.1 / 256) m.q.ctx.toNat).student m.q.seq).any fun o => o.cl.toNat == cl

/-- Everything dispatched to the unit has completed or stopped in a wait (R272 step 2); a Touchstone finishes the groups
it has accepted, a Mint the bundles. -/
def State.unitQuiet (s : State) : Bool :=
  let u := s.st.unit
  if u.1 ≤ 1 then !s.lossDue u.2 && s.ctxs.all fun p =>
    let c : CtxId := BitVec.ofNat 12 p.1
    if (p.2.desc (BitVec.ofNat 11 u.2)).isSome then
      !(p.2.st = .loading || p.2.st = .saving || p.2.st = .scrubbing) && (p.2.st ≠ .resident || (s.parked c u.2 && !s.canBegin c u.2))
    else true
  else if u.1 = 2 then
    (s.tdie u.2).tq.isEmpty && !(s.cls.any fun p => p.1 / 256 == u.2 && p.2.mq.any (·.grant.isSome))
  else if u.1 = 3 then s.buffered u.2 == 0
  else true

/-- The unit enters or leaves SERVICE. A lane returns to a port that runs where LANE_MAP, at the port's last training, and
its health allow it (R237). -/
def State.setService (s : State) (on : Bool) : State :=
  let u := s.st.unit
  if u.1 ≤ 1 then s.modCl u.2 fun x => { x with service := on }
  else if u.1 = 2 then s.modTd u.2 fun x => { x with service := on }
  else if u.1 = 3 then s.modMnt u.2 fun x => { x with service := on }
  else
    let b := BitVec.ofNat 32 (2 ^ bits s.st.req.toNat 18 14)
    s.modPort u.2 fun x => if x.usable then
      let m := if on then x.lanes &&& ~~~b else x.lanes ||| b &&& x.mayUse
      { x with
        lanes := m, st := if popCount m.toNat 32 < 32 then .degraded else .up, recal := on, restripe := on || x.restripe
        blocks := x.blocks ++ [.lanes m] }
      else { x with recal := on }

/-- The service buffer's pages are VALID to no context (Table SG.9), and may be written now (R266, R275). -/
def State.svcOpen (s : State) : Bool :=
  let b := s.st.svcBase.toNat
  !s.malformed b && !s.malformed (b + 2 ^ 23 - 1) && b / 2 ^ 36 == (b + 2 ^ 23 - 1) / 2 ^ 36
    && !s.guarded b (2 ^ 23) && (pagesOf b (2 ^ 23)).all fun g => !bit (s.page g) 12
/-- Does the test hold the unit's state in the service buffer (Table SG.6)? -/
def State.usesSvc (s : State) : Bool := decide (s.st.unit.1 ≤ 2)

/-- Bytes of a cluster's memory. -/
def cluBytes : Nat := 49152 * 128

/-! The service buffer: a cluster's memory stands at 0 and its other state behind it, laid out as a save area; a token
table's entries stand at 0, 16 KiB each. The manual gives no layout (DESIGN CHOICE, log 53). -/

/-- A cluster's state but for its memory: Till windows and tags, registers, tile queue, Tally and Teller state (Table
SG.6). The parts that are zero are not listed. -/
def Cluster.unitPieces (x : Cluster) (a : Nat) : List Piece :=
  let d : CluDesc := { tillLog := 9, save := a }
  let p : SavePlan :=
    { entry := fun _ => true, vreg := fun j => (List.range 64).any fun i => x.lane j i != 0, kreg := fun j => x.kreg j != 0, ranges := [] }
  (x.till.flatMap fun e =>
      [(a + 1024 * e.1, (List.range 256).flatMap fun j => leBytes 4 (Words.get e.2.words j).toNat),
        (a + 0x80000 + 4 * e.1, leBytes 4 (Mx.tagOf e.2))])
    ++ saveRegs x d p ++ saveTiles x.tileq d ++ saveTel x.tel d
    ++ (x.per.flatMap fun y => saveQ y.2.q (x.tel.filter (·.q.ctx.toNat = y.1)) { d with save := a + 0x10000 + 128 * y.1 })
    ++ x.imem.map fun w => (a + 0x120000 + 8 * w.1, leBytes 8 w.2.toNat)

/-- The state of the unit under test that goes to the service buffer at `b`. -/
def State.unitPieces (s : State) (b : Nat) : List Piece :=
  if s.st.unit.1 = 2 then ((s.tdie s.st.unit.2).tok.zipIdx.map fun e => tokPieces (b + 16384 * e.2) e.1).flatten
  else (s.clu s.st.unit.2).unitPieces (b + cluBytes)

/-- The unit's state goes to the service buffer; the SRAM march moves the cluster memory too (R272, Table SG.6). -/
def State.moveOut (s : State) : State :=
  let b := s.st.svcBase.toNat
  let x := s.clu s.st.unit.2
  if 2 < s.st.unit.1 then s else
  let t := (s.hbmClear b (2 ^ 23)).putPieces ((s.unitPieces b).filter fun p => decide (p.1 + p.2.length ≤ b + 2 ^ 23))
  if s.st.unit.1 = 2 then t else
  let t := { t with st := { t.st with heldTill := x.till, heldImem := x.imem } }
  if s.st.unit.1 = 1 then t.hbmPut b cluBytes x.mem else t

/-- The state comes back: the memory from the buffer, bit for bit, Till windows and the Teller's memory as they were
before the test's firmware ran; nothing writes the rest meanwhile (log 53). The buffer is the one the state went to,
whatever SVC_BASE has become. -/
def State.moveBack (s : State) : State :=
  let b := s.st.svcAt.toNat
  if 1 < s.st.unit.1 then s else
  let t := s.modCl s.st.unit.2 fun x => { x with
    till := s.st.heldTill, imem := s.st.heldImem, mem := if s.st.unit.1 = 1 then SMap.slice 0 b (b + cluBytes) s.hbm else x.mem }
  { t with st := { t.st with heldTill := [], heldImem := [] } }

/-- UNIT_WITHDRAWN: the unit's state is copied to the service buffer and the test runs. -/
def execUnitWithdrawn (s : State) : Out :=
  if s.st.st = 1 ∧ s.unitQuiet ∧ (!s.usesSvc || s.svcOpen) then
    let t := s.moveOut
    let t := State.setService { t with st := { t.st with st := 2, svcAt := t.st.svcBase } } true
    let u := t.st.unit
    -- a port left with fewer than 16 lanes goes DOWN (R237)
    .next (if u.1 = 4 ∧ (t.prt6 u.2).usable ∧ popCount (t.prt6 u.2).lanes.toNat 32 < 16 then (t.portDown u.2).alarm (pgPort u.2) 1 else t)
  else .next s

/-- The service buffer is scrubbed when the test has ended (R275). -/
def State.scrubService (s : State) : State :=
  let b := s.st.svcAt.toNat
  if !s.usesSvc then s
  else if s.guarded b (2 ^ 23) then s.toScrub (pagesOf b (2 ^ 23)) else s.hbmClear b (2 ^ 23)

/-- Contexts with state held for the unit: for a Touchstone, tokens or a command at it; for a Mint, an update that stands
in its stripe (log 53). -/
def State.heldFor (s : State) : List CtxId :=
  let u := s.st.unit
  if u.1 ≤ 1 then
    (s.ctxs.filter fun p => p.2.st.onChip && (p.2.desc (BitVec.ofNat 11 u.2)).isSome).map fun p => BitVec.ofNat 12 p.1
  else if u.1 = 2 then
    ((s.tdie u.2).tok.map (·.ctx) ++ (s.tdie u.2).tq.map (·.ctx)
      ++ ((s.cls.filter fun p => p.1 / 256 == u.2).flatMap fun p => (p.2.mq.filter fun m => (Mx.of m.q.img).dest == 2).map (·.q.ctx))).dedup
  else if u.1 = 3 then ((s.upd.filter fun x => x.shares.any (·.stack = u.2)).map (·.ctx)).dedup else []

/-- The Comptroller commits a map repaired around a failed cluster, for the next boot (R33, R273). -/
def State.repairDie (s : State) (cl : Nat) : State :=
  let x := s.spr (cl / 256)
  let m := BitVec.ofNat 160 (repairMap (s.cell (10 + cl / 256)).val.toNat
    (~~~(x.fail ||| BitVec.ofNat 160 (2 ^ physical x.applied (cl % 256)))).toNat)
  if popCount m.toNat 160 = 150 then s.spareCommit (cl / 256) m else s

/-- A unit that fails stays withdrawn; a failed lane stays out of its port until the port's next training (R237). -/
def State.unitFails (s : State) : State :=
  let u := s.st.unit
  let s := if u.1 ≤ 1 then (s.modCl u.2 fun x => { x with failed := true }).repairDie u.2
    else if u.1 = 2 then s.modTd u.2 fun x => { x with failed := true }
    else if u.1 = 3 then s.modMnt u.2 fun x => { x with failed := true }
    else s.modPort u.2 fun x => { x with
      recal := false, laneBad := true, failed := x.failed ||| BitVec.ofNat 32 (2 ^ bits s.st.req.toNat 18 14)
      mayUse := x.mayUse &&& ~~~BitVec.ofNat 32 (2 ^ bits s.st.req.toNat 18 14)
      st := if x.usable then .degraded else x.st }
  s.heldFor.foldl (fun s c => faultCtx s c 0x0504 0 0 (if u.1 ≤ 2 then BitVec.ofNat 16 u.2 else 0xFFFF)) s

/-- TEST_DONE: the state is copied back and the unit returns, or it failed; a cluster's failed test marks its CLUSTER page too (R290). -/
def execTestDone (pass : Bool) (s : State) : Out :=
  if s.st.st ≠ 2 then .next s
  else
    if pass then
      let t := s.moveBack
      .next ((State.scrubService { t with st := { t.st with st := 0, pass := true } }).setService false)
    else
      let t := (State.scrubService { s with st := { s.st with st := 0 } }).unitFails
      let t := State.alarm { t with st := { t.st with
        fail := true, unitFailed := some (BitVec.ofNat 14 t.st.req.toNat), heldTill := [], heldImem := [] } } pgSelfTest 0
      .next (if s.st.unit.1 ≤ 1 then t.alarm (pgCluster s.st.unit.2) 0 else t)

end Sys2Proof.Machine
end

