-- ==== Sys2Proof/Machine/Registers.lean ====
section
/-! DEFINITION. Register access: what a host write does to every register (R279 to R283, and the register
tables of every chapter), and what each register reads as. A write that lands on a register with a command of
its own is that command. -/

namespace Sys2Proof.Machine
open Sys2Proof

/-- The low and high halves of a 64-bit register, as the host writes them. -/
def putLo (x : W64) (v mask : Nat) : W64 := BitVec.ofNat 64 (x.toNat / 2 ^ 32 * 2 ^ 32 + (v &&& mask))
def putHi (x : W64) (v : Nat) : W64 := BitVec.ofNat 64 (x.toNat % 2 ^ 32 + v % 2 ^ 32 * 2 ^ 32)
def loWord (x : W64) : Nat := x.toNat % 2 ^ 32
def hiWord (x : W64) : Nat := x.toNat / 2 ^ 32

/-- A small field of a register. -/
def fit (n v : Nat) : BitVec n := BitVec.ofNat n v

/-- A register of no unit but the page: stored where the page takes writes. -/
def State.put (s : State) (p : Nat) (f : State → State) : Out := if s.canWrite p then .next (f s) else .next s
/-- A store refused for its value or its moment: the page's alarm instead. -/
def State.putIf (s : State) (p : Nat) (ok : Bool) (b : Nat) (c : Option CtxId) (f : State → State) : Out :=
  if !s.canWrite p then .next s else if ok then .next (f s) else .next (s.alarm p b c)

/-! ### The header (R283, R285, R287) -/

/-- BLK_CTRL, BLK_ALARM, BLK_ALARM_MASK, BLK_ALARM_ACTION. -/
def writeHdr (p t i off : Nat) (v : W32) (s : State) : Out :=
  if off = 8 then
    let s' : Out := if h : t = 0x0B ∧ i < 6 then
        (if bit v.toNat 0 then execEnablePort ⟨i, h.2⟩ s else execDisablePort ⟨i, h.2⟩ s) else .next s
    match s' with
    | .next s' => if bit v.toNat 1 then execSoftReset (fit 14 p) s' else .next s'
    | o => o
  else if off = 0x10 then execBlkAlarmClear (fit 14 p) v none s
  else if 0x3000 ≤ p then .next s
  else if off = 0x14 then s.put p fun s => s.rehdr p { SMap.get {} s.hdr p with mask := fit 16 v.toNat }
  else if off = 0x18 then s.put p fun s => s.rehdr p { SMap.get {} s.hdr p with action := v }
  else .next s

/-! ### Device-wide pages -/

/-- Table RG.6. -/
def writeBoot (off : Nat) (v : W32) (s : State) : Out :=
  if off = 0x44 then execBootSrcWrite v s
  else if off = 0x48 then execBootNsidWrite v s
  else if off = 0x54 then s.put pgBoot fun s => { s with boot := { s.boot with pushLo := v &&& 0xFFFFF000#32 } }
  else if off = 0x58 then s.put pgBoot fun s => { s with boot := { s.boot with pushHi := v } }
  else if off = 0x5C then s.put pgBoot fun s => { s with boot := { s.boot with pushLen := fit 16 v.toNat } }
  else if off = 0x60 then execFwPushGo v s
  else .next s

/-- Table RG.10. -/
def writePersist (off : Nat) (v : W32) (s : State) : Out :=
  if off = 0x40 then s.put pgPersist fun s => { s with sel := { s.sel with persist := fit 5 v.toNat } } else .next s

/-- Table RG.4. -/
def writeIrq (off : Nat) (v : W32) (s : State) : Out :=
  if off = 0x4C then s.put pgIrq fun s => { s with sel := { s.sel with vec := fit 6 v.toNat } }
  else if off = 0x50 then s.put pgIrq fun s =>
    { s with irq := { s.irq with vecMap := SMap.set none s.irq.vecMap s.sel.vec.toNat (some (fit 6 v.toNat)) } }
  else .next s

/-- Table CL.4. -/
def writeSparing (d : Die) (off : Nat) (v : W32) (s : State) : Out :=
  if 0x40 ≤ off ∧ off ≤ 0x50 then
    let k := (off - 0x40) / 4
    s.put (pgSparing d.val) fun s => s.modSpr d.val fun x =>
      { x with staged := BitVec.ofNat 160 (x.staged.toNat - mapWord x.staged k * 2 ^ (32 * k) + v.toNat * 2 ^ (32 * k)) }
  else if off = 0x54 then execSpareCommit d v s
  else .next s

/-- Table NU.10. -/
def writeNumerics (off : Nat) (v : W32) (s : State) : Out :=
  let c := s.sel.nuCtx
  if off = 0x40 then s.put pgNumerics fun s => { s with sel := { s.sel with nuCtx := fit 12 v.toNat } }
  else if off = 0x44 then s.put pgNumerics fun s => s.modNum c.toNat fun x => { x with seed := putLo x.seed v.toNat 0xFFFFFFFF }
  else if off = 0x48 then s.put pgNumerics fun s => s.modNum c.toNat fun x => { x with seed := putHi x.seed v.toNat }
  else if off = 0x4C then execLsStateWrite v s
  else if off = 0x50 then execLsStepWrite v s
  else if off = 0x54 then s.put pgNumerics fun s => s.modNum c.toNat fun x =>
    { x with eMin := fit 8 v.toNat, eMax := fit 8 (v.toNat / 256), interval := fit 16 (v.toNat / 65536) }
  else if off = 0x60 then execCensusBaseLoWrite v s
  else if off = 0x64 then execCensusBaseHiWrite v s
  else if off = 0x68 then execCensusFlush v s
  else .next s

/-- Table MT.7. -/
def writeMintCtx (off : Nat) (v : W32) (s : State) : Out :=
  let c := s.sel.mtCtx
  if off = 0x40 then s.put pgMintCtx fun s => { s with sel := { s.sel with mtCtx := fit 12 v.toNat } }
  else if off = 0x58 then s.put pgMintCtx fun s => s.modMtc c.toNat fun x => { x with strict := bit v.toNat 0 }
  else if off = 0x5C then execDescApply v s
  else execMintTableBaseWrite (fit 12 off) v s

/-- CTX_CMD (Table CS.11); a code that names no command does nothing (log 85). -/
def writeCtxCmd (v : W32) (s : State) : Out :=
  let k := v.toNat % 8
  if k = 1 then execCtxCreate s
  else if k = 2 then execCtxStart s
  else if k = 3 then execCtxStop s
  else if k = 4 then execCtxReset s
  else if k = 5 then execCtxDestroy s
  else .next s

/-- Table CS.11. -/
def writeClear (off : Nat) (v : W32) (s : State) : Out :=
  if off = 0x40 then s.put pgClear fun s => { s with sel := { s.sel with csCtx := fit 12 v.toNat } }
  else if off = 0x44 then writeCtxCmd v s
  else if off = 0x78 then s.put pgClear fun s =>
    { s with sched := { s.sched with preemptTimeout := if fit 24 v.toNat = 0 then 1 else fit 24 v.toNat } }
  else if off = 0x84 then s.put pgClear fun s => { s with sel := { s.sel with sem := fit 14 v.toNat } }
  else if off = 0x88 then execSemOwnerWrite v s
  else if off = 0x8C then s.put pgClear fun s => s.modSem s.sel.sem.toNat fun x => { x with value := v }
  else if off = 0x90 then s.put pgClear fun s => { s with sel := { s.sel with pot := fit 25 v.toNat } }
  else if off = 0x94 then execPotDataWrite v s
  else execCtxDefinitionWrite (fit 12 off) v s

/-- Table LG.9; a KV_CFG value outside its fields' ranges is refused (log 85). -/
def writeLedger (off : Nat) (v : W32) (s : State) : Out :=
  let c := s.sel.lgCtx
  let w := v.toNat
  let upd (f : LgCtx → LgCtx) : Out := s.put pgLedger fun s => s.modLgc c.toNat f
  if off = 0x40 then s.put pgLedger fun s => { s with sel := { s.sel with lgCtx := fit 12 w } }
  else if off = 0x44 then execLgEntRangeWrite v s
  else if off = 0x48 then execLgAdpRangeWrite v s
  else if off = 0x4C then s.putIf pgLedger (decide (w % 16 ≤ 12) && decide (w / 16 % 16 ≤ 3)) 0 (some c) fun s =>
    s.modLgc c.toNat fun x => { x with kvCfg := fit 8 w }
  else if off = 0x50 then upd fun x => { x with poolBase := putLo x.poolBase w 0xFFFFF000 }
  else if off = 0x54 then upd fun x => { x with poolBase := putHi x.poolBase w }
  else if off = 0x58 then upd fun x => { x with poolCount := w % 2 ^ 24 }
  else if off = 0x5C then upd fun x => { x with linkBase := putLo x.linkBase w 0xFFFFF000 }
  else if off = 0x60 then upd fun x => { x with linkBase := putHi x.linkBase w }
  else if off = 0x64 then execLgApply v s
  else if off = 0x80 then s.put pgLedger fun s => { s with sel := { s.sel with lgEnt := fit 14 w } }
  else if off = 0xC4 then s.put pgLedger fun s => { s with sel := { s.sel with lgAdp := fit 9 w } }
  else .next s

/-- Table LK.8; COLL_TIMEOUT 0 reads as 1. -/
def writeLinks (off : Nat) (v : W32) (s : State) : Out :=
  if off = 0x40 then execTorusCoordWrite v s
  else if off = 0x44 then execTorusDimsWrite v s
  else if off = 0x4C then s.put pgLinks fun s =>
    { s with links := { s.links with collTimeout := if fit 16 v.toNat = 0 then 1 else fit 16 v.toNat } }
  else if off = 0x50 then s.put pgLinks fun s => { s with sel := { s.sel with lkCtx := fit 12 v.toNat } }
  else if off = 0x6C then s.put pgLinks fun s => { s with sel := { s.sel with remap := fit 4 v.toNat } }
  else if off = 0x70 then s.put pgLinks fun s =>
    { s with links := { s.links with remap := SMap.set 0 s.links.remap s.sel.remap.toNat (v &&& 0x01FFFFFF#32) } }
  else execLkCtxRegWrite (fit 12 off) v s

/-- Table LK.9. -/
def writePort (p : PortId) (off : Nat) (v : W32) (s : State) : Out :=
  let w := v.toNat
  let flt (f : Filter → Filter) : Out := s.put (pgPort p.val) fun s => s.modPort p.val fun x =>
    { x with filter := SMap.upd {} x.filter x.filterSel.toNat f }
  if off = 0x44 then execLaneMapWrite p v s
  else if h : 0x60 ≤ off ∧ off ≤ 0x7C then execVcCfgWrite p ⟨(off - 0x60) / 4, by omega⟩ v s
  else if off = 0x80 then s.put (pgPort p.val) fun s => s.modPort p.val fun x => { x with filterSel := fit 8 w }
  else if off = 0x84 then flt fun f => { f with job := fit 16 w, valid := bit w 16 }
  else if off = 0x88 then flt fun f => { f with ctx := fit 12 w }
  else if off = 0x8C then flt fun f => { f with types := fit 16 w }
  else .next s

/-- Table PW.4; a DEMAND_SHIFT outside 1 to 8 is refused (log 85). -/
def writeBursar (off : Nat) (v : W32) (s : State) : Out :=
  let w := v.toNat
  let dem (f : W32 × W32 → W32 × W32) : Out := s.put pgBursar fun s =>
    let k := 16 * (s.sel.demand.toNat % 8) + s.sel.demand.toNat / 16
    { s with bursar := { s.bursar with demand := SMap.upd (0x438E8000#32, 0x42340000#32) s.bursar.demand k f } }
  if off = 0x40 then execCapWrite v s
  else if off = 0x44 then execCapDefaultWrite v s
  else if off = 0x48 then execProfileWrite v s
  else if off = 0x58 then execShareOrderWrite v s
  else if off = 0x5C then s.putIf pgBursar (decide (1 ≤ w % 16) && decide (w % 16 ≤ 8)) 5 none fun s =>
    { s with bursar := { s.bursar with shift := fit 4 w, freeze := bit w 4 } }
  else if off = 0x60 then execHoldRelease v s
  else if off = 0x6C then s.put pgBursar fun s => { s with sel := { s.sel with demand := fit 7 w &&& 0x77 } }
  else if off = 0x70 then dem fun e => (v, e.2)
  else if off = 0x74 then dem fun e => (e.1, v)
  else .next s

/-! ### Strongroom and self-test (R277, Tables SG.8, SG.9) -/

/-- A change of what a tier needs: an active tier that it makes unusable is lost (R268); else the tiers are ranked anew,
unless one has been lost (log 86). -/
def State.retier (s : State) : State :=
  if s.checkTier.sg.lost.isEmpty then s.reRank else s.checkTier

def State.putSg (s : State) (f : Strong → Strong) : Out := s.put pgStrong fun s => State.retier { s with sg := f s.sg }
def State.putSgc (s : State) (f : SgCtx → SgCtx) : Out := s.put pgStrong fun s => s.modSgc s.sel.sgCtx.toNat f
/-- The set and staging registers are refused during an epoch of the selected context. -/
def State.putSet (s : State) (ok : Bool) (f : SgCtx → SgCtx) : Out :=
  let c := s.sel.sgCtx
  s.putIf pgStrong (ok && (s.sgc c.toNat).epoch.isNone) 0 (some c) fun s => s.modSgc c.toNat f

def writeStrong (off : Nat) (v : W32) (s : State) : Out :=
  let w := v.toNat
  if off = 0x40 then s.put pgStrong fun s => { s with sel := { s.sel with sgCtx := fit 12 w } }
  else if off = 0x44 then s.putSet true fun x => { x with setBase := putLo x.setBase w 0xFFFFFFE0 }
  else if off = 0x48 then s.putSet true fun x => { x with setBase := putHi x.setBase w }
  else if off = 0x4C then s.putSet (decide (w % 2048 ≤ 1024)) fun x => { x with setCount := fit 11 w }
  else if off = 0x50 then execSetApply v s
  else if off = 0x58 then s.putSet true fun x => { x with stageBase := putLo x.stageBase w 0xFFFF0000 }
  else if off = 0x5C then s.putSet true fun x => { x with stageBase := putHi x.stageBase w }
  else if off = 0x60 then s.putSet true fun x => { x with stageSize := fit 16 w }
  else if off = 0x64 then s.putSgc fun x => { x with period := fit 16 w }
  else if off = 0x74 then s.putSgc fun x => { x with restoreStep := v }
  else if off = 0x78 then execRestoreGo v s
  else if off = 0x80 then s.putSg fun g => { g with partner := fit 12 w }
  else if off = 0x84 then s.putSgc fun x => { x with replica := fit 12 w }
  else if off = 0x88 then s.putSgc fun x => { x with teacherSrc := fit 12 w }
  else if off = 0x8C then s.putSg fun g => { g with reserveBase := putLo g.reserveBase w 0xFFFF0000 }
  else if off = 0x90 then s.putSg fun g => { g with reserveBase := putHi g.reserveBase w }
  else if off = 0x94 then s.putSg fun g => { g with reserveSize := fit 24 w }
  else if off = 0x98 then s.putSg fun g => { g with flashNsid := v }
  else if off = 0x9C then s.putSg fun g => { g with hostBase := putLo g.hostBase w 0xFFFFFFFF }
  else if off = 0xA0 then s.putSg fun g => { g with hostBase := putHi g.hostBase w }
  else if off = 0xA4 then execHostAckWrite v s
  else if off = 0xAC then execTierReset v s
  else .next s

def writeSelfTest (off : Nat) (v : W32) (s : State) : Out :=
  if off = 0x40 then execTestReq v s
  else if off = 0x48 then s.put pgSelfTest fun s => { s with st := { s.st with svcBase := putLo s.st.svcBase v.toNat 0xFFFF0000 } }
  else if off = 0x4C then s.put pgSelfTest fun s => { s with st := { s.st with svcBase := putHi s.st.svcBase v.toNat } }
  else .next s

def writeCtxStat (off : Nat) (v : W32) (s : State) : Out :=
  if off = 0x40 then s.put pgCtxStat fun s => { s with sel := { s.sel with ctxstat := fit 12 v.toNat } } else .next s

/-! ### Pages of a die (Tables CL.7, TS.7, PW.5) and doorbells (Table CS.12) -/

def writePace (d : Die) (off : Nat) (v : W32) (s : State) : Out := if off = 0x4C then execPaceClear d v s else .next s

/-- Touchstone and Escrow registers (Table TS.7). A POISON_LIMIT below the present count faults at the next poisoned
token, not at the write (DESIGN CHOICE, log 111). -/
def writeTouch (d : Die) (off : Nat) (v : W32) (s : State) : Out :=
  let w := v.toNat
  let c := (s.tdie d.val).sel.toNat
  let stg (f : Geo → Geo) : Out := s.put (pgTouch d.val) fun s => s.modPart d.val c fun p => { p with stg := f p.stg }
  if off = 0x44 then s.put (pgTouch d.val) fun s => s.modTd d.val fun t => { t with sel := fit 12 w }
  else if off = 0x48 then stg fun g => { g with base := w % 2 ^ 16 }
  else if off = 0x4C then stg fun g => { g with size := w % 2 ^ 17 }
  else if off = 0x50 then stg fun g => { g with mode := fit 2 w, segs := bits w 17 8, k := bits w 26 18 }
  else if off = 0x54 then stg fun g => { g with opens := w % 128 }
  else if off = 0x58 then execPartApply d v s
  else if off = 0x6C then s.put (pgTouch d.val) fun s => s.modPart d.val c fun p => { p with poisonLimit := v }
  else .next s

def writePower (d : Die) (off : Nat) (v : W32) (s : State) : Out :=
  if off = 0x58 then s.put (pgPower d.val) fun s => s.modDp d.val fun p => if bit v.toNat 0 then { p with tempHigh := 0 } else p
  else .next s

def writeDoor (c : CtxId) (off : Nat) (v : W32) (s : State) : Out :=
  if off = 0x40 then execDbTailWrite c v s else if off = 0x54 then execCplHeadWrite c v s else .next s

/-! ### REGISTER_WRITE (R279, R280) -/

def toDie (i : Nat) : Die := ⟨i % 8, Nat.mod_lt _ (by decide)⟩
def toPort (i : Nat) : PortId := ⟨i % 6, Nat.mod_lt _ (by decide)⟩

/-- A 32-bit write at an offset of a page; unmapped pages and offsets take none. -/
def writeReg (p off : Nat) (v : W32) (s : State) : Out :=
  match pageType p with
  | none => .next s
  | some (t, i) =>
    if off < 0x40 then writeHdr p t i off v s
    else match t with
    | 0x02 => writeBoot off v s
    | 0x03 => writePersist off v s
    | 0x04 => writeIrq off v s
    | 0x05 => writeSparing (toDie i) off v s
    | 0x06 => writeNumerics off v s
    | 0x07 => writeMintCtx off v s
    | 0x08 => writeClear off v s
    | 0x09 => writeLedger off v s
    | 0x0A => writeLinks off v s
    | 0x0B => writePort (toPort i) off v s
    | 0x0C => writeBursar off v s
    | 0x0D => writeStrong off v s
    | 0x0E => writeSelfTest off v s
    | 0x0F => writeCtxStat off v s
    | 0x11 => writePace (toDie i) off v s
    | 0x12 => writeTouch (toDie i) off v s
    | 0x14 => writePower (toDie i) off v s
    | 0x16 => writeDoor (fit 12 i) off v s
    | _ => .next s

/-- REGISTER_WRITE: an aligned 32-bit write, or an aligned 64-bit one as two, the lower address first. -/
def execRegisterWrite (off : BitVec 26) (wide : Bool) (v : W64) (s : State) : Out :=
  let a := off.toNat
  if badSize a (if wide then 8 else 4) then execBadAccess off (if wide then 8 else 4) false s
  else match writeReg (a / 4096) (a % 4096) (v.setWidth 32) s with
  | .next s' => if wide then writeReg (a / 4096) (a % 4096 + 4) (BitVec.ofNat 32 (v.toNat / 2 ^ 32)) s' else .next s'
  | o => o

/-! ### Reads -/

def readDevice (s : State) (off : Nat) : Nat :=
  if off = 0x40 then devPart.toNat
  else if off = 0x44 then loWord Config.serial
  else if off = 0x48 then hiWord Config.serial
  else if off = 0x4C then s.devId.toNat
  else if off = 0x50 then loWord s.devTime
  else if off = 0x54 then s.time.hiLatch.toNat
  else 0

def readBoot (s : State) (off : Nat) : Nat :=
  let b := s.boot
  if off = 0x40 then (bootStatus b).toNat
  else if off = 0x44 then (s.cell 18).val.toNat
  else if off = 0x48 then (s.cell 19).val.toNat
  else if off = 0x4C then b.sparFailed.toNat + 256 * b.stackFailed.toNat
  else if off = 0x50 then b.fwVersion.toNat
  else if off = 0x54 then b.pushLo.toNat
  else if off = 0x58 then b.pushHi.toNat
  else if off = 0x5C then b.pushLen.toNat
  else 0

def readPersist (s : State) (off : Nat) : Nat :=
  let x := s.cell s.sel.persist.toNat
  if off = 0x40 then s.sel.persist.toNat
  else if off = 0x44 then x.wear
  else if off = 0x48 then flagsOf [x.busy, x.exhausted, x.wearHigh, x.lastRefused, x.interrupted]
  else if off = 0x4C then flagsOf ((List.range 20).map fun i => (s.cell i).busy)
  else if off = 0x50 then flagsOf ((List.range 20).map fun i => (s.cell i).exhausted)
  else if off = 0x54 then 100000
  else 0

/-- VEC_MAP of a block type, reset equal to the type. -/
def State.vecOf (s : State) (t : Nat) : Nat := ((SMap.get none s.irq.vecMap t).map BitVec.toNat).getD t

def valid31 (x : Option Nat) : Nat := (x.map fun n => n + 2 ^ 31).getD 0

def readIrq (s : State) (off : Nat) : Nat :=
  if off = 0x40 then s.alarmPend.toNat
  else if off = 0x44 then valid31 s.irq.order.head?
  else if off = 0x48 then valid31 (s.irq.lastCtx.map BitVec.toNat)
  else if off = 0x4C then s.sel.vec.toNat
  else if off = 0x50 then s.vecOf s.sel.vec.toNat
  else if off = 0x54 then valid31 s.irq.holdSrc
  else 0

def readSparing (s : State) (d off : Nat) : Nat :=
  let x := s.spr d
  let k (o : Nat) : Nat := (off - o) / 4
  if 0x40 ≤ off ∧ off ≤ 0x50 then mapWord x.staged (k 0x40)
  else if off = 0x58 then s.spareStatus d
  else if 0x60 ≤ off ∧ off ≤ 0x70 then mapWord (s.cell (10 + d)).val (k 0x60)
  else if 0x80 ≤ off ∧ off ≤ 0x90 then mapWord x.applied (k 0x80)
  else if 0xA0 ≤ off ∧ off ≤ 0xB0 then mapWord x.fail (k 0xA0)
  else if off = 0xC0 then (s.cell (10 + d)).wear
  else 0

def readNumerics (s : State) (off : Nat) : Nat :=
  let x := s.nums s.sel.nuCtx.toNat
  if off = 0x40 then s.sel.nuCtx.toNat
  else if off = 0x44 then loWord x.seed
  else if off = 0x48 then hiWord x.seed
  else if off = 0x4C then x.e.toNat + 256 * x.ePrev.toNat + 65536 * x.clean.toNat
  else if off = 0x50 then x.step.toNat
  else if off = 0x54 then x.eMin.toNat + 256 * x.eMax.toNat + 65536 * x.interval.toNat
  else if off = 0x58 then x.ovfCount.toNat
  else if off = 0x5C then flagsOf [!x.pendOvf.isEmpty, x.close.isSome]
  else if off = 0x60 then loWord x.censusBase
  else if off = 0x64 then hiWord x.censusBase
  else if off = 0x6C then x.flushBusy.toNat
  else 0

def readMintCtx (s : State) (off : Nat) : Nat :=
  let x := s.mtc s.sel.mtCtx.toNat
  if off = 0x40 then s.sel.mtCtx.toNat
  else if off = 0x44 then loWord x.descBase
  else if off = 0x48 then hiWord x.descBase
  else if off = 0x4C then x.descCount.toNat
  else if off = 0x50 then loWord x.coeffBase
  else if off = 0x54 then hiWord x.coeffBase
  else if off = 0x58 then x.strict.toNat
  else if off = 0x60 then flagsOf [x.valid, x.reject, x.busy] + 65536 * x.first.toNat
  else if off = 0x64 then x.frozenCount.toNat
  else if off = 0x68 then x.nonfinite.toNat
  else if off = 0x6C then x.updates.toNat
  else 0

/-- IN contexts. -/
def State.residents (s : State) : Nat := (s.ctxs.filter fun p => p.2.st = .resident).length

def readClear (s : State) (off : Nat) : Nat :=
  let x := s.ctx s.sel.csCtx.toNat
  let m := s.sem s.sel.sem.toNat
  if off = 0x40 then s.sel.csCtx.toNat
  else if off = 0x48 then x.word
  else if off = 0x4C then x.priority.toNat + 16 * x.legacy.toNat + 32 * x.exclusive.toNat + 65536 * x.job.toNat
  else if off = 0x50 then loWord x.ringBase
  else if off = 0x54 then hiWord x.ringBase
  else if off = 0x58 then x.ringN.toNat + 256 * x.ringM.toNat
  else if off = 0x5C then loWord x.cplBase
  else if off = 0x60 then hiWord x.cplBase
  else if off = 0x64 then loWord x.cltabBase
  else if off = 0x68 then hiWord x.cltabBase
  else if off = 0x6C then x.cltabCount.toNat
  else if off = 0x70 then loWord x.saveBase
  else if off = 0x74 then hiWord x.saveBase
  else if off = 0x78 then s.sched.preemptTimeout.toNat
  else if off = 0x7C then s.residents
  else if off = 0x80 then s.sched.tokens
  else if off = 0x84 then s.sel.sem.toNat
  else if off = 0x88 then m.owner.toNat + 4096 * m.valid.toNat
  else if off = 0x8C then m.value.toNat
  else if off = 0x90 then s.sel.pot.toNat
  else if off = 0x94 then (if s.settable s.sel.pot.toNat then s.page s.sel.pot.toNat else 0)
  else 0

def readLedger (s : State) (off : Nat) : Nat :=
  let x := s.lgc s.sel.lgCtx.toNat
  let a := s.adp s.sel.lgAdp.toNat
  if off = 0x40 then s.sel.lgCtx.toNat
  else if off = 0x44 then x.entFirst + 65536 * x.entCount
  else if off = 0x48 then x.adpFirst + 65536 * x.adpCount
  else if off = 0x4C then x.kvCfg.toNat
  else if off = 0x50 then loWord x.poolBase
  else if off = 0x54 then hiWord x.poolBase
  else if off = 0x58 then x.poolCount
  else if off = 0x5C then loWord x.linkBase
  else if off = 0x60 then hiWord x.linkBase
  else if off = 0x68 then x.state
  else if off = 0x6C then x.free.length
  else if off = 0x70 then x.variant.toNat
  else if off = 0x74 then x.poolSkip.toNat
  else if off = 0x78 then x.staleSkip.toNat
  else if off = 0x7C then x.miss.toNat
  else if off = 0x80 then s.sel.lgEnt.toNat
  else if 0x84 ≤ off ∧ off ≤ 0xC0 then (s.ent s.sel.lgEnt.toNat).word ((off - 0x84) / 4)
  else if off = 0xC4 then s.sel.lgAdp.toNat
  else if off = 0xC8 then a.cur.version.toNat + 65536 * a.cur.rank.toNat
  else if off = 0xCC then a.cur.refs.toNat
  else if off = 0xD0 then a.old.version.toNat + 65536 * a.old.rank.toNat
  else if off = 0xD4 then a.old.refs.toNat
  else 0

def readLinks (s : State) (off : Nat) : Nat :=
  let x := s.lkc s.sel.lkCtx.toNat
  if off = 0x40 then (s.cell 2).val.toNat
  else if off = 0x44 then (s.cell 3).val.toNat
  else if off = 0x48 then s.lkStatus
  else if off = 0x4C then s.links.collTimeout.toNat
  else if off = 0x50 then s.sel.lkCtx.toNat
  else if off = 0x54 then x.jobOrigin.toNat
  else if off = 0x58 then x.jobExtent.toNat
  else if off = 0x5C then loWord x.collqBase
  else if off = 0x60 then hiWord x.collqBase
  else if off = 0x64 then x.collqLog.toNat + 65536 * x.collSem.toNat
  else if off = 0x68 then x.collDone.toNat
  else if off = 0x6C then s.sel.remap.toNat
  else if off = 0x70 then (SMap.get 0 s.links.remap s.sel.remap.toNat).toNat
  else if off = 0x74 then s.links.dropFaulted.toNat
  else 0

def readPort (s : State) (p off : Nat) : Nat :=
  let x := s.prt6 p
  let f := SMap.get {} x.filter x.filterSel.toNat
  if off = 0x40 then x.status
  else if off = 0x44 then (s.cell (4 + p)).val.toNat
  else if off = 0x48 then x.failed.toNat
  else if off = 0x4C then x.fecCorr.toNat
  else if off = 0x50 then x.fecUncorr.toNat
  else if off = 0x54 then x.crcRetry.toNat
  else if 0x60 ≤ off ∧ off ≤ 0x7C then
    (x.vcOf ((off - 0x60) / 4)).credits + 2 ^ 20 * (x.vcOf ((off - 0x60) / 4)).weight
  else if off = 0x80 then x.filterSel.toNat
  else if off = 0x84 then f.job.toNat + 65536 * f.valid.toNat
  else if off = 0x88 then f.ctx.toNat
  else if off = 0x8C then f.types.toNat
  else if off = 0x90 then x.filterDrop.toNat
  else if off = 0x94 then x.hbLast.toNat
  else 0

def readBursar (s : State) (off : Nat) : Nat :=
  let b := s.bursar
  let e := s.demand (s.sel.demand.toNat % 8) (s.sel.demand.toNat / 16)
  if off = 0x40 then b.cap.toNat
  else if off = 0x44 then (s.cell 0).val.toNat
  else if off = 0x48 then (s.cell 1).val.toNat
  else if off = 0x4C then s.pwrStatus
  else if off = 0x50 then (pwrNow b).toNat
  else if off = 0x54 then b.memW.toNat + 65536 * b.linkW.toNat
  else if off = 0x58 then b.shareOrder.toNat
  else if off = 0x5C then b.shift.toNat + 16 * b.freeze.toNat
  else if off = 0x64 then b.holdCount.toNat
  else if off = 0x68 then b.staticW.toNat
  else if off = 0x6C then s.sel.demand.toNat
  else if off = 0x70 then e.1.toNat
  else if off = 0x74 then e.2.toNat
  else 0

def readStrong (s : State) (off : Nat) : Nat :=
  let x := s.sgc s.sel.sgCtx.toNat
  let g := s.sg
  if off = 0x40 then s.sel.sgCtx.toNat
  else if off = 0x44 then loWord x.setBase
  else if off = 0x48 then hiWord x.setBase
  else if off = 0x4C then x.setCount.toNat
  else if off = 0x54 then flagsOf [x.valid, x.reject, x.epoch.isSome] + 65536 * x.first.toNat
  else if off = 0x58 then loWord x.stageBase
  else if off = 0x5C then hiWord x.stageBase
  else if off = 0x60 then x.stageSize.toNat
  else if off = 0x64 then x.period.toNat
  else if off = 0x68 then x.sealed.toNat
  else if off = 0x6C then x.mirrorStep.toNat
  else if off = 0x70 then x.skip.toNat
  else if off = 0x74 then x.restoreStep.toNat
  else if off = 0x7C then x.restoreStatus.toNat + 256 * x.refetched.toNat
  else if off = 0x80 then g.partner.toNat
  else if off = 0x84 then x.replica.toNat
  else if off = 0x88 then x.teacherSrc.toNat
  else if off = 0x8C then loWord g.reserveBase
  else if off = 0x90 then hiWord g.reserveBase
  else if off = 0x94 then g.reserveSize.toNat
  else if off = 0x98 then g.flashNsid.toNat
  else if off = 0x9C then loWord g.hostBase
  else if off = 0xA0 then hiWord g.hostBase
  else if off = 0xA8 then g.tierActive.toNat
  else if off = 0xB0 then g.ceCount.toNat
  else if off = 0xB4 then g.ueRefetch.toNat
  else if off = 0xB8 then loWord g.ueLog
  else if off = 0xBC then hiWord g.ueLog
  else 0

def readSelfTest (s : State) (off : Nat) : Nat :=
  let t := s.st
  if off = 0x40 then t.req.toNat
  else if off = 0x44 then t.st.toNat + 4 * t.pass.toNat + 8 * t.fail.toNat
  else if off = 0x48 then loWord t.svcBase
  else if off = 0x4C then hiWord t.svcBase
  else if off = 0x50 then valid31 (t.unitFailed.map BitVec.toNat)
  else 0

def readCtxStat (s : State) (off : Nat) : Nat :=
  let x := s.ctx s.sel.ctxstat.toNat
  if off = 0x40 then s.sel.ctxstat.toNat
  else if off = 0x44 then x.vaultSpills.toNat
  else if off = 0x48 then x.preempts.toNat
  else if off = 0x4C then x.forcedSaves.toNat
  else if off = 0x50 then x.faults.toNat
  else 0

def readDie (s : State) (d off : Nat) : Nat :=
  if off = 0x40 then d + 8 * (s.diePowered d).toNat + 16 * (s.spr d).failed.toNat + 256 * 150
  else if off = 0x44 then s.diePend d
  else if 0x48 ≤ off ∧ off ≤ 0x58 then s.clusterPend d ((off - 0x48) / 4)
  else 0

def readPace (s : State) (d off : Nat) : Nat :=
  let p := s.pac d
  if off = 0x40 then p.min.toNat + 65536 * p.mean.toNat
  else if off = 0x44 then p.low.toNat
  else if off = 0x48 then p.seq.toNat
  else if off = 0x50 then p.ring.toNat
  else 0

def readTouch (s : State) (d off : Nat) : Nat :=
  let c := (s.tdie d).sel
  let p := s.prt d c.toNat
  if off = 0x40 then s.tsStatus d
  else if off = 0x44 then c.toNat
  else if off = 0x48 then p.stg.base
  else if off = 0x4C then p.stg.size
  else if off = 0x50 then p.stg.mode.toNat + 256 * p.stg.segs + 2 ^ 18 * p.stg.k
  else if off = 0x54 then p.stg.opens
  else if off = 0x5C then p.state
  else if off = 0x60 then loWord p.deposit
  else if off = 0x64 then loWord p.c64
  else if off = 0x68 then p.poisonCount.toNat
  else if off = 0x6C then p.poisonLimit.toNat
  else if off = 0x70 then p.nfCount.toNat
  else if off = 0x74 then p.stall.toNat
  else if off = 0x78 then hiWord p.c64
  else 0

def readMint (s : State) (m off : Nat) : Nat :=
  let x := s.mnt m
  if off = 0x40 then s.mintStatus m
  else if off = 0x44 then x.elems.toNat
  else if off = 0x48 then x.busyBeats.toNat
  else if off = 0x4C then x.lastFault.toNat
  else 0

def readPower (s : State) (d off : Nat) : Nat :=
  let p := s.dpow d
  if off = 0x40 then p.point.toNat + 256 * p.target.toNat + 65536 * p.allow.toNat
  else if off = 0x44 then s.dieStatus d
  else if off = 0x48 then p.temp.toNat + 256 * p.stackTemp.toNat + 65536 * p.tempHigh.toNat
  else if off = 0x4C then p.computeW.toNat + 65536 * p.stackW.toNat
  else if off = 0x50 then p.droopCount.toNat
  else if off = 0x54 then p.gatedUs.toNat
  else 0

def readCluster (s : State) (cl off : Nat) : Nat :=
  let x := s.clu cl
  if off = 0x40 then physical (s.spr (cl / 256)).applied (cl % 256) + 256 * x.service.toNat + 512 * x.failed.toNat
  else if off = 0x44 then x.mq.length + 256 * x.vq.length + 65536 * x.dq.length
  else if off = 0x48 then (s.ctxs.filter fun p => p.2.st = .resident && (p.2.desc (fit 11 cl)).isSome).length
  else if off = 0x4C then x.memCe.toNat
  else 0

def readDoor (s : State) (c off : Nat) : Nat :=
  let x := s.ctx c
  if off = 0x44 then x.acceptSeq.toNat
  else if off = 0x48 then x.dispatchSeq.toNat
  else if off = 0x4C then x.completeSeq.toNat
  else if off = 0x50 then x.cplWritten.toNat
  else if off = 0x58 then x.st.code + 65536 * x.lastFault.toNat
  else 0

/-- The registers of a page past its header. -/
def State.readBlock (s : State) (t i off : Nat) : Nat :=
  match t with
  | 0x01 => readDevice s off
  | 0x02 => readBoot s off
  | 0x03 => readPersist s off
  | 0x04 => readIrq s off
  | 0x05 => readSparing s i off
  | 0x06 => readNumerics s off
  | 0x07 => readMintCtx s off
  | 0x08 => readClear s off
  | 0x09 => readLedger s off
  | 0x0A => readLinks s off
  | 0x0B => readPort s i off
  | 0x0C => readBursar s off
  | 0x0D => readStrong s off
  | 0x0E => readSelfTest s off
  | 0x0F => readCtxStat s off
  | 0x10 => readDie s i off
  | 0x11 => readPace s i off
  | 0x12 => readTouch s i off
  | 0x13 => readMint s i off
  | 0x14 => readPower s i off
  | 0x15 => readCluster s i off
  | 0x16 => readDoor s i off
  | _ => 0

/-- What an aligned 32-bit read returns: 0 from a page or offset that is not decoded; of an unpowered die
only BLK_ID and BLK_CTRL (R8, R280). -/
def State.readReg (s : State) (p off : Nat) : W32 :=
  match pageType p with
  | none => 0
  | some (t, i) =>
    let live := if 0x1000 ≤ p ∧ p < 0x3000 then s.diePowered ((p - 0x1000) / 0x400) else true
    let per := (t == 0x0C && (off == 0x44 || off == 0x48)) || (t == 0x0A && (off == 0x40 || off == 0x44)) || (t == 0x0B && off == 0x44)
    if !s.decoded p per || off % 4 ≠ 0 then 0
    else if !live && off ≠ 0 && off ≠ 8 then 0
    else BitVec.ofNat 32 (if off < 0x40 then s.readHdr p t i off else s.readBlock t i off)

end Sys2Proof.Machine
end

