-- ==== Sys2Proof/Machine/Dispatch.lean ====
section
/-! DEFINITION. The effect of each command on everything but the queue: one arm per row of the table. -/

namespace Sys2Proof.Machine
open Sys2Proof

def exec (i : Instr) (s : State) : Host.Outcome State Fault Refusal :=
  match i with
  | .registerWrite off wide v => Sys2Proof.Machine.execRegisterWrite off wide v s
  | .badAccess off size isRead => Sys2Proof.Machine.execBadAccess off size isRead s
  | .blkAlarmClear page v together => Sys2Proof.Machine.execBlkAlarmClear page v together s
  | .softReset page => Sys2Proof.Machine.execSoftReset page s
  | .enablePort p => Sys2Proof.Machine.execEnablePort p s
  | .disablePort p => Sys2Proof.Machine.execDisablePort p s
  | .portTrainingDone p good peer => Sys2Proof.Machine.execPortTrainingDone p good peer s
  | .msixWindowClose => Sys2Proof.Machine.execMsixWindowClose s
  | .devTimeLoRead => Sys2Proof.Machine.execDevTimeLoRead s
  | .capDefaultWrite v => Sys2Proof.Machine.execCapDefaultWrite v s
  | .profileWrite v => Sys2Proof.Machine.execProfileWrite v s
  | .torusCoordWrite v => Sys2Proof.Machine.execTorusCoordWrite v s
  | .torusDimsWrite v => Sys2Proof.Machine.execTorusDimsWrite v s
  | .laneMapWrite p v => Sys2Proof.Machine.execLaneMapWrite p v s
  | .spareCommit d v => Sys2Proof.Machine.execSpareCommit d v s
  | .bootSrcWrite v => Sys2Proof.Machine.execBootSrcWrite v s
  | .bootNsidWrite v => Sys2Proof.Machine.execBootNsidWrite v s
  | .persistWriteDone cell => Sys2Proof.Machine.execPersistWriteDone cell s
  | .paceWindowClose w => Sys2Proof.Machine.execPaceWindowClose w s
  | .paceClear d v => Sys2Proof.Machine.execPaceClear d v s
  | .matmul cl k => Sys2Proof.Machine.execMatmul cl k s
  | .matmulEntryWaitEnd cl k => Sys2Proof.Machine.execMatmulEntryWaitEnd cl k s
  | .drain cl k => Sys2Proof.Machine.execDrain cl k s
  | .fuseTileAccept cl k => Sys2Proof.Machine.execFuseTileAccept cl k s
  | .vec cl => Sys2Proof.Machine.execVec cl s
  | .vAdd cl => Sys2Proof.Machine.execVAdd cl s
  | .vSub cl => Sys2Proof.Machine.execVSub cl s
  | .vMul cl => Sys2Proof.Machine.execVMul cl s
  | .vFma cl => Sys2Proof.Machine.execVFma cl s
  | .vMin cl => Sys2Proof.Machine.execVMin cl s
  | .vMax cl => Sys2Proof.Machine.execVMax cl s
  | .vAbs cl => Sys2Proof.Machine.execVAbs cl s
  | .vNeg cl => Sys2Proof.Machine.execVNeg cl s
  | .vCmp cl => Sys2Proof.Machine.execVCmp cl s
  | .vSel cl => Sys2Proof.Machine.execVSel cl s
  | .vLogic cl => Sys2Proof.Machine.execVLogic cl s
  | .vShift cl => Sys2Proof.Machine.execVShift cl s
  | .vCvt cl => Sys2Proof.Machine.execVCvt cl s
  | .vBcast cl => Sys2Proof.Machine.execVBcast cl s
  | .vIdx cl => Sys2Proof.Machine.execVIdx cl s
  | .vMaskOp cl => Sys2Proof.Machine.execVMaskOp cl s
  | .vKld cl => Sys2Proof.Machine.execVKld cl s
  | .vKst cl => Sys2Proof.Machine.execVKst cl s
  | .vLd cl => Sys2Proof.Machine.execVLd cl s
  | .vSt cl => Sys2Proof.Machine.execVSt cl s
  | .vTqpop cl => Sys2Proof.Machine.execVTqpop cl s
  | .vExp2 cl => Sys2Proof.Machine.execVExp2 cl s
  | .vLog2 cl => Sys2Proof.Machine.execVLog2 cl s
  | .vRcp cl => Sys2Proof.Machine.execVRcp cl s
  | .vRsqrt cl => Sys2Proof.Machine.execVRsqrt cl s
  | .vTally cl => Sys2Proof.Machine.execVTally cl s
  | .tallyResultWrite cl => Sys2Proof.Machine.execTallyResultWrite cl s
  | .tileQueueAccept cl k => Sys2Proof.Machine.execTileQueueAccept cl k s
  | .fusedChain cl c => Sys2Proof.Machine.execFusedChain cl c s
  | .call cl => Sys2Proof.Machine.execCall cl s
  | .tellerIntegerOp cl => Sys2Proof.Machine.execTellerIntegerOp cl s
  | .tellerImmediateOp cl => Sys2Proof.Machine.execTellerImmediateOp cl s
  | .tellerFloatOp cl => Sys2Proof.Machine.execTellerFloatOp cl s
  | .tellerFcvt cl => Sys2Proof.Machine.execTellerFcvt cl s
  | .tellerLw cl => Sys2Proof.Machine.execTellerLw cl s
  | .tellerSw cl => Sys2Proof.Machine.execTellerSw cl s
  | .tellerBranch cl => Sys2Proof.Machine.execTellerBranch cl s
  | .tellerJmp cl => Sys2Proof.Machine.execTellerJmp cl s
  | .tellerGetq cl => Sys2Proof.Machine.execTellerGetq cl s
  | .tellerGetqa cl => Sys2Proof.Machine.execTellerGetqa cl s
  | .tellerGetqf cl => Sys2Proof.Machine.execTellerGetqf cl s
  | .tellerIssue cl => Sys2Proof.Machine.execTellerIssue cl s
  | .tellerWaitq cl => Sys2Proof.Machine.execTellerWaitq cl s
  | .tellerRet cl => Sys2Proof.Machine.execTellerRet cl s
  | .tellerFail cl => Sys2Proof.Machine.execTellerFail cl s
  | .tellerWaitEnd cl => Sys2Proof.Machine.execTellerWaitEnd cl s
  | .teacher d => Sys2Proof.Machine.execTeacher d s
  | .student d => Sys2Proof.Machine.execStudent d s
  | .gradient d => Sys2Proof.Machine.execGradient d s
  | .featureLoss d => Sys2Proof.Machine.execFeatureLoss d s
  | .resetStats d => Sys2Proof.Machine.execResetStats d s
  | .teacherGroupAccept cl k => Sys2Proof.Machine.execTeacherGroupAccept cl k s
  | .escrowDeposit src => Sys2Proof.Machine.execEscrowDeposit src s
  | .passSGroupAccept cl k => Sys2Proof.Machine.execPassSGroupAccept cl k s
  | .passBGroupAccept cl k => Sys2Proof.Machine.execPassBGroupAccept cl k s
  | .partApply d v => Sys2Proof.Machine.execPartApply d v s
  | .partApplyDone d c => Sys2Proof.Machine.execPartApplyDone d c s
  | .stepClose c => Sys2Proof.Machine.execStepClose c s
  | .localQuiesce c => Sys2Proof.Machine.execLocalQuiesce c s
  | .jobAgreement c => Sys2Proof.Machine.execJobAgreement c s
  | .stepAdvance c => Sys2Proof.Machine.execStepAdvance c s
  | .censusFlush v => Sys2Proof.Machine.execCensusFlush v s
  | .censusFlushDone c => Sys2Proof.Machine.execCensusFlushDone c s
  | .censusCounterSpill d c cls => Sys2Proof.Machine.execCensusCounterSpill d c cls s
  | .censusBaseLoWrite v => Sys2Proof.Machine.execCensusBaseLoWrite v s
  | .censusBaseHiWrite v => Sys2Proof.Machine.execCensusBaseHiWrite v s
  | .lsStateWrite v => Sys2Proof.Machine.execLsStateWrite v s
  | .lsStepWrite v => Sys2Proof.Machine.execLsStepWrite v s
  | .copy cl h => Sys2Proof.Machine.execCopy cl h s
  | .transpose cl h => Sys2Proof.Machine.execTranspose cl h s
  | .spillOut cl => Sys2Proof.Machine.execSpillOut cl s
  | .spillIn cl h => Sys2Proof.Machine.execSpillIn cl h s
  | .vaultPush cl h => Sys2Proof.Machine.execVaultPush cl h s
  | .vaultPop cl => Sys2Proof.Machine.execVaultPop cl s
  | .tellerLoad cl h => Sys2Proof.Machine.execTellerLoad cl h s
  | .update c => Sys2Proof.Machine.execUpdate c s
  | .updateArmResume c desc => Sys2Proof.Machine.execUpdateArmResume c desc s
  | .mintOpen src => Sys2Proof.Machine.execMintOpen src s
  | .mintBundle src => Sys2Proof.Machine.execMintBundle src s
  | .reorderBundleApply m c desc => Sys2Proof.Machine.execReorderBundleApply m c desc s
  | .pass2Start c desc => Sys2Proof.Machine.execPass2Start c desc s
  | .updateComplete c desc => Sys2Proof.Machine.execUpdateComplete c desc s
  | .descApply v => Sys2Proof.Machine.execDescApply v s
  | .descApplyDone c => Sys2Proof.Machine.execDescApplyDone c s
  | .mintTableBaseWrite off v => Sys2Proof.Machine.execMintTableBaseWrite off v s
  | .ctxCreate => Sys2Proof.Machine.execCtxCreate s
  | .ctxStart => Sys2Proof.Machine.execCtxStart s
  | .ctxStop => Sys2Proof.Machine.execCtxStop s
  | .ctxReset => Sys2Proof.Machine.execCtxReset s
  | .ctxDestroy => Sys2Proof.Machine.execCtxDestroy s
  | .ctxDefinitionWrite off v => Sys2Proof.Machine.execCtxDefinitionWrite off v s
  | .dbTailWrite c v => Sys2Proof.Machine.execDbTailWrite c v s
  | .cplHeadWrite c v => Sys2Proof.Machine.execCplHeadWrite c v s
  | .commandAccept c h => Sys2Proof.Machine.execCommandAccept c h s
  | .commandDispatch e => Sys2Proof.Machine.execCommandDispatch e s
  | .commandComplete e k => Sys2Proof.Machine.execCommandComplete e k s
  | .completionRecordWrite c => Sys2Proof.Machine.execCompletionRecordWrite c s
  | .swapIn c => Sys2Proof.Machine.execSwapIn c s
  | .swapInDone c => Sys2Proof.Machine.execSwapInDone c s
  | .cheap c cl => Sys2Proof.Machine.execCheap c cl s
  | .cheapPointSave c => Sys2Proof.Machine.execCheapPointSave c s
  | .preemptTimeout c => Sys2Proof.Machine.execPreemptTimeout c s
  | .saveDone c => Sys2Proof.Machine.execSaveDone c s
  | .eviction => Sys2Proof.Machine.execEviction s
  | .contextFault c code detail cmd unit => Sys2Proof.Machine.execContextFault c code detail cmd unit s
  | .scrubDone c => Sys2Proof.Machine.execScrubDone c s
  | .signal c => Sys2Proof.Machine.execSignal c s
  | .waitGe c => Sys2Proof.Machine.execWaitGe c s
  | .waitCmd c => Sys2Proof.Machine.execWaitCmd c s
  | .syncWaitSatisfied c seq => Sys2Proof.Machine.execSyncWaitSatisfied c seq s
  | .semOwnerWrite v => Sys2Proof.Machine.execSemOwnerWrite v s
  | .hint c => Sys2Proof.Machine.execHint c s
  | .evalBegin c => Sys2Proof.Machine.execEvalBegin c s
  | .evalEnd c => Sys2Proof.Machine.execEvalEnd c s
  | .potDataWrite v => Sys2Proof.Machine.execPotDataWrite v s
  | .seqOpen c => Sys2Proof.Machine.execSeqOpen c s
  | .seqGather c => Sys2Proof.Machine.execSeqGather c s
  | .seqCommit c => Sys2Proof.Machine.execSeqCommit c s
  | .seqPause c => Sys2Proof.Machine.execSeqPause c s
  | .seqResume c => Sys2Proof.Machine.execSeqResume c s
  | .seqFree c => Sys2Proof.Machine.execSeqFree c s
  | .seqSet c => Sys2Proof.Machine.execSeqSet c s
  | .seqAdapterLoad c => Sys2Proof.Machine.execSeqAdapterLoad c s
  | .seqVariantLoad c readOk h => Sys2Proof.Machine.execSeqVariantLoad c readOk h s
  | .lgEntRangeWrite v => Sys2Proof.Machine.execLgEntRangeWrite v s
  | .lgAdpRangeWrite v => Sys2Proof.Machine.execLgAdpRangeWrite v s
  | .lgApply v => Sys2Proof.Machine.execLgApply v s
  | .linkWrite p pkt => Sys2Proof.Machine.execLinkWrite p pkt s
  | .creditReturn p pkt => Sys2Proof.Machine.execCreditReturn p pkt s
  | .creditRequest p pkt => Sys2Proof.Machine.execCreditRequest p pkt s
  | .refusal p pkt => Sys2Proof.Machine.execRefusal p pkt s
  | .linkAck p pkt => Sys2Proof.Machine.execLinkAck p pkt s
  | .collChunk p pkt => Sys2Proof.Machine.execCollChunk p pkt s
  | .ctrlReduce p pkt => Sys2Proof.Machine.execCtrlReduce p pkt s
  | .mirror p pkt => Sys2Proof.Machine.execMirror p pkt s
  | .heartbeat p pkt => Sys2Proof.Machine.execHeartbeat p pkt s
  | .reservedPacketDiscard p pkt => Sys2Proof.Machine.execReservedPacketDiscard p pkt s
  | .linkCreditBlock p credits ackLsn => Sys2Proof.Machine.execLinkCreditBlock p credits ackLsn s
  | .linkNack p lsn => Sys2Proof.Machine.execLinkNack p lsn s
  | .packetTransmit p => Sys2Proof.Machine.execPacketTransmit p s
  | .laneFail p lane => Sys2Proof.Machine.execLaneFail p lane s
  | .laneRestripeDone p => Sys2Proof.Machine.execLaneRestripeDone p s
  | .peerLag p => Sys2Proof.Machine.execPeerLag p s
  | .selfLag => Sys2Proof.Machine.execSelfLag s
  | .peerSilent p => Sys2Proof.Machine.execPeerSilent p s
  | .collStart c => Sys2Proof.Machine.execCollStart c s
  | .collDone c => Sys2Proof.Machine.execCollDone c s
  | .straggler w => Sys2Proof.Machine.execStraggler w s
  | .lkCtxRegWrite off v => Sys2Proof.Machine.execLkCtxRegWrite off v s
  | .vcCfgWrite p vc v => Sys2Proof.Machine.execVcCfgWrite p vc v s
  | .hintExpire no span obs => Sys2Proof.Machine.execHintExpire no span obs s
  | .powerWindow w => Sys2Proof.Machine.execPowerWindow w s
  | .holdEnter => Sys2Proof.Machine.execHoldEnter s
  | .holdRelease v => Sys2Proof.Machine.execHoldRelease v s
  | .capWrite v => Sys2Proof.Machine.execCapWrite v s
  | .shareOrderWrite v => Sys2Proof.Machine.execShareOrderWrite v s
  | .voltageStep => Sys2Proof.Machine.execVoltageStep s
  | .capGatePeriod d us => Sys2Proof.Machine.execCapGatePeriod d us s
  | .droopGateClose d => Sys2Proof.Machine.execDroopGateClose d s
  | .droopGateOpen d => Sys2Proof.Machine.execDroopGateOpen d s
  | .thermalCheck dieC stackC => Sys2Proof.Machine.execThermalCheck dieC stackC s
  | .thermTrip => Sys2Proof.Machine.execThermTrip s
  | .setApply v => Sys2Proof.Machine.execSetApply v s
  | .mirrorDeltaAck c => Sys2Proof.Machine.execMirrorDeltaAck c s
  | .epochTimer c => Sys2Proof.Machine.execEpochTimer c s
  | .epochNow c => Sys2Proof.Machine.execEpochNow c s
  | .teacherSeal c => Sys2Proof.Machine.execTeacherSeal c s
  | .pageTouch page => Sys2Proof.Machine.execPageTouch page s
  | .touchCopyDone page => Sys2Proof.Machine.execTouchCopyDone page s
  | .shipPage c => Sys2Proof.Machine.execShipPage c s
  | .epochSeal c => Sys2Proof.Machine.execEpochSeal c s
  | .tierLost => Sys2Proof.Machine.execTierLost s
  | .tierReset v => Sys2Proof.Machine.execTierReset v s
  | .hostAckWrite v => Sys2Proof.Machine.execHostAckWrite v s
  | .restoreGo v => Sys2Proof.Machine.execRestoreGo v s
  | .restoreValidate c replica => Sys2Proof.Machine.execRestoreValidate c replica s
  | .correctableError loc => Sys2Proof.Machine.execCorrectableError loc s
  | .uncorrectableError loc => Sys2Proof.Machine.execUncorrectableError loc s
  | .teacherRefetchDone page data => Sys2Proof.Machine.execTeacherRefetchDone page data s
  | .testReq v => Sys2Proof.Machine.execTestReq v s
  | .unitWithdrawn => Sys2Proof.Machine.execUnitWithdrawn s
  | .testDone pass => Sys2Proof.Machine.execTestDone pass s
  | .hbmRetrain m pc => Sys2Proof.Machine.execHbmRetrain m pc s
  | .patrolScrub m corrected ue => Sys2Proof.Machine.execPatrolScrub m corrected ue s
  | .perstAssert => Sys2Proof.Machine.execPerstAssert s
  | .perstDeassert => Sys2Proof.Machine.execPerstDeassert s
  | .fwPushGo v => Sys2Proof.Machine.execFwPushGo v s
  | .firmwareLoadDone img => Sys2Proof.Machine.execFirmwareLoadDone img s
  | .bootSparing pass => Sys2Proof.Machine.execBootSparing pass s
  | .sramInit ok => Sys2Proof.Machine.execSramInit ok s
  | .hbmTraining good staticW => Sys2Proof.Machine.execHbmTraining good staticW s
  | .linkTraining good peers => Sys2Proof.Machine.execLinkTraining good peers s
  | .bootReady => Sys2Proof.Machine.execBootReady s
  | .supplyFault => Sys2Proof.Machine.execSupplyFault s
  | .regulatorFault => Sys2Proof.Machine.execRegulatorFault s
  | .tsyncEdge => Sys2Proof.Machine.execTsyncEdge s
  | .setTime v => Sys2Proof.Machine.execSetTime v s
  | .smbusReadPart => Sys2Proof.Machine.execSmbusReadPart s
  | .smbusReadBootStatus => Sys2Proof.Machine.execSmbusReadBootStatus s
  | .smbusReadTemperatures => Sys2Proof.Machine.execSmbusReadTemperatures s
  | .smbusReadPower => Sys2Proof.Machine.execSmbusReadPower s
  | .smbusReadAlarms => Sys2Proof.Machine.execSmbusReadAlarms s
  | .smbusReadTime => Sys2Proof.Machine.execSmbusReadTime s
  | .pcieLinkDown => Sys2Proof.Machine.execPcieLinkDown s
  | .pcieLinkUp => Sys2Proof.Machine.execPcieLinkUp s
  | .crcFail p lsn => Sys2Proof.Machine.execCrcFail p lsn s
  | .powerLoss keepNew => Sys2Proof.Machine.execPowerLoss keepNew s
  | .msixVectorUnmask v => Sys2Proof.Machine.execMsixVectorUnmask v s
  | .jtagTap tms tdi trst pins => Sys2Proof.Machine.execJtagTap tms tdi trst pins s

end Sys2Proof.Machine
end

