-- ==== Sys2Proof/Safety.lean ====
section
/-! DEFINITION. What a run of the machine is and when it never stops, and the words the statements are written
in: a command that completes, what an alarm may change, and the invariants. -/

namespace Sys2Proof

/-- `n` steps from `s`. -/
def runFrom (n : Nat) (s : Machine.State) : Host.Outcome Machine.State Machine.Fault Machine.Refusal :=
  core.run n s

/-- The run from `s` takes every one of its first `n` steps. -/
def Runs (n : Nat) (s : Machine.State) : Prop := ∃ t, runFrom n s = .next t

namespace Machine

/-- Command `i` answers a next state at `s`, and that state is as `P` says. -/
def Completes (i : Instr) (s : State) (P : State → Prop) : Prop := ∃ t, exec i s = .next t ∧ P t

/-- Bit `b` of the BLK_ALARM of page `p` stands. -/
def Stands (s : State) (p b : Nat) : Prop := bit (SMap.get {} s.hdr p).alarm.toNat b = true

/-- From `s` to `t` nothing changes but what alarm events change: page headers, interrupts, and Hold with its
PWR_ALERT# pin (R285 to R287). -/
def AlarmOnly (s t : State) : Prop :=
  t = { s with
    hdr := t.hdr, irq := t.irq
    boot := { s.boot with pwrAlert := t.boot.pwrAlert }
    bursar := { s.bursar with hold := t.bursar.hold, holdCount := t.bursar.holdCount } }

/-- From `s` to `t` nothing changes but what the Strongroom and the controllers note of written bytes of HBM: granules
for the next delta, bytes in error, adds of the Census that wait for their page (R263, R266, R271). -/
def NotesOnly (s t : State) : Prop := t = { s with sgC := t.sgC, sg := { s.sg with ueAt := t.sg.ueAt, adds := t.sg.adds } }

/-- `f` agrees on both states everywhere but at `i`. -/
def SameBut {α : Type} (f : State → Nat → α) (i : Nat) (s t : State) : Prop := ∀ j, j ≠ i → f t j = f s j

/-- Every byte of a memory outside the `n` bytes from `a` reads as before. -/
def BytesBut (a n : Nat) (m m' : Mem) : Prop := ∀ b, ¬(a ≤ b ∧ b < a + n) → m'.read b = m.read b

/-- A persistent cell within its life (R293 to R295): at most 100,000 writes, EXHAUSTED exactly at 100,000,
WEAR_HIGH exactly above 90,000, and one value only while no write is in progress. -/
def CellOk (c : Cell) : Prop :=
  c.wear ≤ 100000 ∧ (c.exhausted = true ↔ c.wear = 100000) ∧ (c.wearHigh = true ↔ 90000 < c.wear)
    ∧ (c.busy = false → c.old = c.val)

/-- Every persistent cell is within its life. -/
def CellsOk (s : State) : Prop := ∀ i, CellOk (s.cell i)

/-- A write to a persistent cell (Table RG.9): its page, the offset at which the first word of the cell reads back, the
cell, the value, and the page and alarm bit of a refusal of the value by the owning page. -/
structure CellWrite where
  page : Nat
  off : Nat
  cell : Nat
  val : BitVec 160
  refuse : Option (Nat × Nat)
deriving DecidableEq, Repr

/-- The write of a persistent cell that a command makes (R293, R8, R32). -/
def persistRow (i : Instr) (s : State) : Option CellWrite :=
  match i with
  | .capDefaultWrite v => some ⟨pgBursar, 0x44, 0, BitVec.ofNat 160 (v.toNat % 4096),
      if 600 ≤ v.toNat % 4096 ∧ v.toNat % 4096 ≤ 3200 then none else some (pgBursar, 5)⟩
  | .profileWrite v => some ⟨pgBursar, 0x48, 1, BitVec.ofNat 160 (v.toNat % 4 + 16 * (v.toNat / 16 % 16)),
      if v.toNat % 4 = 3 then some (pgBursar, 5) else none⟩
  | .torusCoordWrite v => some ⟨pgLinks, 0x40, 2, BitVec.ofNat 160 (v.toNat % 4096), none⟩
  | .torusDimsWrite v => some ⟨pgLinks, 0x44, 3, BitVec.ofNat 160 (v.toNat % 4096), none⟩
  | .laneMapWrite p v => some ⟨pgPort p.val, 0x44, 4 + p.val, v.setWidth 160, none⟩
  | .spareCommit d v =>
    if bit v.toNat 0 then some ⟨pgSparing d.val, 0x60, 10 + d.val, (s.spr d.val).staged,
      if popCount (s.spr d.val).staged.toNat 160 = 150 then none else some (pgSparing d.val, 0)⟩ else none
  | .bootSrcWrite v => some ⟨pgBoot, 0x44, 18, BitVec.ofNat 160 (v.toNat % 2), none⟩
  | .bootNsidWrite v => some ⟨pgBoot, 0x48, 19, v.setWidth 160, none⟩
  | _ => none

/-- Some registers that software writes and reads back whole: page, offset, and the bits that are not reserved
(R281, Tables RG.6, RG.10, CS.11, NU.10, MT.7, LG.9, LK.8, SG.8, SG.9, RG.8). -/
def plainRegs : List (Nat × Nat × Nat) :=
  [(pgBoot, 0x54, 0xFFFFF000), (pgBoot, 0x58, 0xFFFFFFFF), (pgBoot, 0x5C, 0xFFFF), (pgPersist, 0x40, 0x1F),
   (pgIrq, 0x4C, 0x3F), (pgNumerics, 0x40, 0xFFF), (pgNumerics, 0x44, 0xFFFFFFFF), (pgNumerics, 0x48, 0xFFFFFFFF),
   (pgNumerics, 0x54, 0xFFFFFFFF), (pgMintCtx, 0x40, 0xFFF), (pgClear, 0x40, 0xFFF), (pgClear, 0x84, 0x3FFF),
   (pgClear, 0x90, 0x1FFFFFF), (pgLedger, 0x40, 0xFFF), (pgLedger, 0x80, 0x3FFF), (pgLedger, 0xC4, 0x1FF),
   (pgLinks, 0x50, 0xFFF), (pgLinks, 0x6C, 0xF), (pgBursar, 0x6C, 0x77), (pgStrong, 0x40, 0xFFF),
   (pgSelfTest, 0x48, 0xFFFF0000), (pgSelfTest, 0x4C, 0xFFFFFFFF), (pgCtxStat, 0x40, 0xFFF)]

/-- The link layer of port `p` gives packet `k` on: the port is up, the packet is not one of the device's own loop, it
is the next of the link's sequence or waited at the port, and no earlier one of its stream waits (R222, R226). -/
def LinkTakes (s : State) (p : PortId) (k : Packet) : Prop :=
  (s.prt6 p.val).usable = true ∧ s.links.loop.head? ≠ some k ∧ (s.prt6 p.val).behind k = false
    ∧ (k ∈ (s.prt6 p.val).rxq ∨ k.lsn = (s.prt6 p.val).rxNext)

/-- The command that brings packet `k` to port `p`, in one packet: a heartbeat is for the neighbour's port alone, and a
reserved type has no user (Table LK.3). -/
def packetRow (p : PortId) (k : Packet) : Option Instr :=
  match k.ty.toNat with
  | 1 => some (.linkWrite p k)
  | 2 => some (.escrowDeposit (.link p k))
  | 3 => some (.creditReturn p k)
  | 4 => some (.refusal p k)
  | 5 => some (.collChunk p k)
  | 6 => some (.mintOpen (.link p k none))
  | 7 => some (.mintBundle (.link p k none))
  | 8 => some (.ctrlReduce p k)
  | 9 => some (.mirror p k)
  | 10 => some (.linkAck p k)
  | 11 => some (.creditRequest p k)
  | _ => none

/-- Where port `p` goes DOWN and the axis's other port is not, the packets it had in hand that travel on this axis join that
port's queue, the unacknowledged ones before those that waited, on the detour's dateline class; no third port changes
(R238). -/
def Reroutes (s t : State) (p : PortId) : Prop :=
  let a := p.val / 2
  let q := 2 * a + (p.val + 1) % 2
  let l := ((s.prt6 p.val).replay.map (·.pkt) ++ (s.prt6 p.val).txq).filter fun k => k.ty ≠ 15
  (s.prt6 q).st ≠ .down → (∀ k ∈ l, k.dst ≠ s.devId ∧ s.inTorus k.dst = true ∧ s.nextAxis k.dst = some a) →
    (t.prt6 q).txq = (s.prt6 q).txq ++ l.map (fun k => { k with
      dateline := (decide (3 ≤ s.extent a) && decide (s.wayOf k.dst a none = p.val)) || s.wraps q, lsn := 0 })
    ∧ ∀ j, j ≠ p.val → j ≠ q → t.prt6 j = s.prt6 j

/-- A packet of type `ty` reaches port `p` for a context of this device that takes it: the link layer gives it on, it
names this device, a filter entry admits it and its context is not STOPPED, UNUSED, SCRUBBING or FAULTED (R222, R227,
R229, R230). -/
def Arrives (s : State) (p : PortId) (k : Packet) (ty : Nat) : Prop :=
  k.ty.toNat = ty ∧ LinkTakes s p k ∧ k.dst = s.devId
    ∧ (s.prt6 p.val).admits k = true ∧ (s.ctx k.dstCtx.toNat).st.deaf = false

/-- The device once port `p` has given the packet on: its credits are owed back, and the next sequence number is awaited
if it was this one (R222, R224). -/
def State.given (s : State) (p : PortId) (k : Packet) : State :=
  if k ∈ (s.prt6 p.val).rxq then s.modPort p.val fun x => x.gone k else s.modPort p.val fun x => (x.taken k).gone k

/-- The packet's credits are owed back to the sender's port (R224). -/
def Owes (s t : State) (p : PortId) (k : Packet) : Prop :=
  SMap.get 0 (t.prt6 p.val).owed (pktChan k) = SMap.get 0 (s.prt6 p.val).owed (pktChan k) + pktCredits k

/-- The context has faulted with a code: SCRUBBING, its commands discarded, the fault counted, and no other
context has changed (R191). -/
def Faulted (s t : State) (c : CtxId) (code : U16) : Prop :=
  (t.ctx c.toNat).st = .scrubbing ∧ (t.ctx c.toNat).lastFault = code ∧ (t.ctx c.toNat).flight = []
    ∧ SameBut State.ctx c.toNat s t ∧ t.nv = s.nv ∧ t.hbm = s.hbm ∧ t.host = s.host ∧ t.sems = s.sems ∧ t.pot = s.pot

/-- From `u`, where what a tier is to hold may have grown, to `t`: an active tier that is no longer usable is lost (R268). -/
def TierKept (u t : State) : Prop :=
  if u.sg.tierActive ≠ 0 ∧ u.tierUsable u.sg.tierActive.toNat = false then t = u.loseTier else t = u

/-- The context has faulted with a code, and the record that the scrub will write gives the address `a` in DETAIL (Table
CS.4; log 27). -/
def FaultedAt (s t : State) (c : CtxId) (code : U16) (a : Nat) : Prop :=
  Faulted s t c code ∧ ∃ r, (t.ctx c.toNat).faultRec = some r ∧ r.kind = 1 ∧ r.code = code ∧ r.detail = BitVec.ofNat 64 a

/-- A record such as `P` says joins context `c`'s record buffer, or, where 16 wait there, waits for a place, with the
command `q` that completes when it finds one (R179, log 92). -/
def Records (s t : State) (c : CtxId) (q : Option QE) (P : Rec → Prop) : Prop :=
  ∃ r, P r ∧ if (s.ctx c.toNat).bufferFull then
      (t.ctx c.toNat).recs = (s.ctx c.toNat).recs ∧ (t.ctx c.toNat).late = (s.ctx c.toNat).late ++ [{ q := q, record := r }]
    else (t.ctx c.toNat).recs = (s.ctx c.toNat).recs ++ [r] ∧ (t.ctx c.toNat).late = (s.ctx c.toNat).late

/-- Command `q` makes a record, and its context's record buffer is full: it waits to complete (R179, Table CS.9a). -/
def State.endWaits (s : State) (q : QE) : Bool := makesRecord q.img && (s.ctx q.ctx.toNat).bufferFull

/-- The command tokens in use once command `q` is at its end (R185): a command that waits to complete keeps its own. -/
def State.tokensAfter (s : State) (q : QE) : Nat := if s.endWaits q then s.sched.tokens else s.sched.tokens - 1

/-- Command `q` is at its end between `s` and `t`, with a completion code, and no other context changes. It completes:
its token is freed, and it stands completed in its context's sequence unless a Teller issued it; a record with its number
joins the record buffer when it asks for one or is an UPDATE. Where that buffer is full, the command waits with its
record for a place, and keeps its token (R179, R180, R185). -/
def Finishes (s t : State) (q : QE) (code : Nat) : Prop :=
  t.sched.tokens = s.tokensAfter q ∧ SameBut State.ctx q.ctx.toNat s t
  ∧ (t.ctx q.ctx.toNat).st = (s.ctx q.ctx.toNat).st
  ∧ (q.issued = false → ∀ f ∈ (t.ctx q.ctx.toNat).flight, f.seq = q.seq → f.phase = if s.endWaits q then .waiting else .completed)
  ∧ (if makesRecord q.img then
      Records s t q.ctx (some q) fun r => r.cmd = q.seq ∧ r.kind = 0 ∧ r.code = BitVec.ofNat 16 code
        ∧ r.irq = bit (fld q.img 4 31 0) 5
     else (t.ctx q.ctx.toNat).recs = (s.ctx q.ctx.toNat).recs ∧ (t.ctx q.ctx.toNat).late = (s.ctx q.ctx.toNat).late)

/-- Nothing changes but inherited priorities (R189). -/
def InheritOnly (s t : State) : Prop :=
  t = { s with ctxs := t.ctxs } ∧ ∀ c, t.ctx c = { s.ctx c with inherit := (t.ctx c).inherit }

/-- The ranges of cluster `j`'s memory, each with its length, whose landing slots command `q` releases when it completes:
those that a MATMUL or DMA command with LANDING_RELEASE read there (R105). -/
def State.freedBy (s : State) (q : QE) (j : Nat) : List (Nat × Nat) :=
  if cRelease q.img = true ∧ (cClass q.img = 1 ∨ cClass q.img = 4) then
    ((s.readRanges q).filter fun g => g.1 = j ∧ g.2.2 ≠ 0).map Prod.snd
  else []

/-- A landing ring without the filled slots, of 8,192 bytes, that ranges overlap: the release index is then the oldest
filled slot, or the fill index where none is filled (R105). -/
def Ring.without (r : Ring) (l : List (Nat × Nat)) : Ring :=
  let full := r.full.filter fun k => l.all fun g => !rangesMeet (r.base * 128 + 8192 * k) 8192 g.1 g.2
  if l = [] ∨ r.full = [] then r else { r with full := full, rel := full.headD r.fill }

/-- What command `q`, complete on cluster `cl`, leaves of its context there and of its landing rings: where the context has
run a CHEAP there it has gone on since (R186, R190), and the rings are without the slots it releases (R105); no other
context's state on a cluster changes. -/
def LeftBy (s t : State) (cl : ClId) (q : QE) : Prop :=
  ∀ j n, (t.clu j).pc n = { (s.clu j).pc n with
    ran := ((s.clu j).pc n).ran || (decide (j = cl.toNat ∧ n = q.ctx.toNat) && ((s.clu j).pc n).cheap)
    ring := if n = q.ctx.toNat then ((s.clu j).pc n).ring.without (s.freedBy q j) else ((s.clu j).pc n).ring }

/-- Where the EVAL command `q` stands first in its context's sequence, the command behind it is not complete, and it need
not wait for the record buffer, the evaluation window it leaves is `w` (R183). -/
def WindowAt (s t : State) (q : QE) (w : Bool) : Prop :=
  ∀ (f : Flight) (rest : List Flight), (s.ctx q.ctx.toNat).flight = f :: rest → f.seq = q.seq → f.img = q.img →
    q.issued = false → cClass q.img = 12 → (∀ g ∈ rest, g.seq ≠ q.seq) → (∀ g ∈ rest.head?, g.phase ≠ .completed) →
    s.endWaits q = false → (t.ctx q.ctx.toNat).evalOpen = w

/-- Cluster `cl` alone changes, and nothing outside the clusters. -/
def ClusterOnly (cl : ClId) (s t : State) : Prop := SameBut State.clu cl.toNat s t ∧ t = { s with cls := t.cls }

/-- A legacy command that is done, its tile's run beginning at entry `b`, empties entry `i`: it drains in a releasing mode or
sets RELEASE, and `i` is of the run (R72). -/
def legacyFrees (q : QE) (b : Nat) (fin : Bool) (i : Nat) : Bool :=
  fin && ((Mx.of q.img).frees || (Mx.of q.img).release) && decide (b ≤ i) && decide (i < b + legacyEnts q.img)

/-- The vector command at the head of cluster `cl`'s queue may step, and stands at the instruction `i`, which does
not fault BAD_OP (R77, R80). -/
def VecAt (s : State) (cl : ClId) (q : QE) (r : VecRun) (i : VI) : Prop :=
  s.vecHead cl = some (q, some r) ∧ r.done = false ∧ vWord (s.clu cl.toNat) q r = i ∧ i.bad q.issued = false

/-- Register `vd` of cluster `cl` has taken `f` in the active lanes; an inactive lane is zeroed under ZERO and else
kept, and no other register changes (R74, R76). -/
def Lanes (s t : State) (cl : ClId) (i : VI) (vd : Nat) (f : Nat → W32) : Prop :=
  ∀ n j, j < 64 → (t.clu cl.toNat).lane n j =
    if n = vd then (if i.active (s.clu cl.toNat) j = true then f j else if i.zero = true then 0 else (s.clu cl.toNat).lane n j)
    else (s.clu cl.toNat).lane n j

/-- The same of a mask register's bits. -/
def Masks (s t : State) (cl : ClId) (i : VI) (kd : Nat) (f : Nat → Bool) : Prop :=
  ∀ n j, n < 8 → j < 64 → bit ((t.clu cl.toNat).kreg n).toNat j =
    if n = kd % 8 then (if i.active (s.clu cl.toNat) j = true then f j
      else if i.zero = true then false else bit ((s.clu cl.toNat).kreg n).toNat j)
    else bit ((s.clu cl.toNat).kreg n).toNat j

/-- The kernel of cluster `cl` may step, waits for nothing, has budget, and stands at the instruction `i` of Table
VX.10 (R88 to R91). -/
def TelAt (s : State) (cl : ClId) (x : Tel) (i : TI) : Prop :=
  s.telHead cl = some x ∧ x.wait = .none ∧ x.budget ≠ 0 ∧ i.known = true
    ∧ ∃ w, (s.clu cl.toNat).fetch x.q.ctx.toNat x.pc = some w ∧ TI.of w = i

/-- The kernel goes on at instruction `pc` with register `r` set to `v`, and nothing else changes but its budget; a
write of s0 is ignored (R88, R91). -/
def TelSets (s t : State) (cl : ClId) (x : Tel) (pc r : Nat) (v : W32) : Prop :=
  ClusterOnly cl s t ∧ ∃ y, t.clu cl.toNat = { s.clu cl.toNat with tel := some y }
    ∧ y = { x with pc := pc, budget := x.budget - 1, regs := y.regs }
    ∧ ∀ n, y.get n = if n = r ∧ n ≠ 0 then v else x.get n

/-- The bytes `bs` stand at a place, and every other byte of every memory reads as before. -/
def Lands (s t : State) (l : Loc) (bs : List Byte) : Prop :=
  t.locRead l bs.length = bs ∧ match l with
  | .clu c o => BytesBut o bs.length (s.clu c.toNat).mem (t.clu c.toNat).mem ∧ t.hbm = s.hbm ∧ t.host = s.host
      ∧ ∀ j, j ≠ c.toNat → (t.clu j).mem = (s.clu j).mem
  | .hbm a => BytesBut a bs.length s.hbm t.hbm ∧ t.host = s.host ∧ ∀ j, (t.clu j).mem = (s.clu j).mem
  | .host a => BytesBut a bs.length s.host t.host ∧ t.hbm = s.hbm ∧ ∀ j, (t.clu j).mem = (s.clu j).mem

/-- Every byte of every memory outside the places of `l` reads as before. -/
def Untouched (s t : State) (l : List (Loc × Nat)) : Prop :=
  ∀ y : Loc, (∀ x ∈ l, ∀ k < x.2, x.1.shift k ≠ y) → t.locRead y 1 = s.locRead y 1

/-- Of these places, each to be read or (`true`) written, the first malformed HBM address faults with BAD_ADDRESS; where
none is, in this order, the first that context `c` may not reach faults with `e` (R173, R175). -/
def PlaceFault (s : State) (c : CtxId) (l : List (Loc × Nat × Bool)) (e : U16) (a : Nat) : Prop :=
  (e = 0x0003 ∧ ∃ b x d, l = b ++ x :: d ∧ a = x.1.addr ∧ (∀ y ∈ b, s.locNone y.1 y.2.1 = false) ∧ s.locNone x.1 x.2.1 = true)
  ∨ ((∀ y ∈ l, s.locNone y.1 y.2.1 = false) ∧ ∃ b x d, l = b ++ x :: d ∧ a = x.1.addr
      ∧ (∀ y ∈ b, s.locCheck c y.1 y.2.1 y.2.2 = none) ∧ s.locCheck c x.1 x.2.1 x.2.2 = some e)

/-- A DMA command of cluster `cl` has run: it is done, and beside the memories nothing of any cluster changes, nor
anything outside them but what the Strongroom notes of written pages. -/
def DmaRan (s t : State) (cl : ClId) : Prop :=
  (∀ j, t.clu j = { s.clu j with mem := (t.clu j).mem, ddone := (s.clu j).ddone || decide (j = cl.toNat) })
    ∧ NotesOnly { s with cls := t.cls, hbm := t.hbm, host := t.host } t

/-- The Ledger may read and write the links of these pool indices of a context, and none of them waits (R175, R200). -/
def LinksOk (s : State) (c : CtxId) (l : List Nat) : Prop :=
  ∀ i ∈ l, s.hbmCheck c.toNat ((s.lgc c.toNat).link i) 8 true true = none
    ∧ s.hbmCheck c.toNat ((s.lgc c.toNat).link i) 8 false false = none ∧ s.guarded ((s.lgc c.toNat).link i) 8 = false

/-- No byte of HBM outside the links of these pool indices changes. -/
def LinksBut (s t : State) (c : CtxId) (l : List Nat) : Prop :=
  ∀ a, (∀ i ∈ l, ¬((s.lgc c.toNat).link i ≤ a ∧ a < (s.lgc c.toNat).link i + 8)) → t.hbm.read a = s.hbm.read a

/-- Nothing changes but what a SEQ command of the Ledger may change: its tables, links and pages in HBM with what
the Strongroom notes of them, its own command, and the free values drawn for the links of freed pages. -/
def LedgerOnly (s t : State) : Prop :=
  NotesOnly { s with
    lgE := t.lgE, lgA := t.lgA, lgC := t.lgC, hbm := t.hbm, ctxs := t.ctxs, sched := t.sched, free := t.free } t

/-- The SEQ command `q` completes with a code and leaves the Ledger's queue. -/
def SeqDone (s t : State) (q : QE) (code : Nat) : Prop :=
  Finishes s t q code ∧ t.sched = { s.sched with tokens := s.tokensAfter q, seq := s.sched.seq.filter (· ≠ q) }

/-- No range that a restore writes from a pinned copy takes byte `a` (Table SG.4). -/
def Pinned.misses (p : Pinned) (s : State) (c a : Nat) : Prop :=
  (∀ m ∈ p.mirror, ¬(m.1 ≤ a ∧ a < m.1 + m.2.1))
    ∧ ((s.nums c).censusBase ≠ 0 →
      ¬((s.nums c).censusBase.toNat ≤ a ∧ a < (s.nums c).censusBase.toNat + 4096))
    ∧ (∀ d n k, p.table = some (d, n, k) → ¬(d ≤ a ∧ a < d + 128 * n) ∧ ¬(k ≤ a ∧ a < k + 4096))

/-- What an accepted write of `v` leaves in a cell (R293, R295). -/
def Cell.accepted (c : Cell) (v : BitVec 160) : Cell where
  val := v
  old := c.val
  wear := c.wear + 1
  busy := true
  exhausted := decide (100000 ≤ c.wear + 1)
  wearHigh := c.wearHigh || decide (90000 < c.wear + 1)
  lastRefused := false
  interrupted := false

end Machine

end Sys2Proof
end

