-- ==== Sys2Proof/Certificates/Slice0/Obligations.lean ====
section
/-! DEFINITION. The statements for the provers. -/

open Sys2Proof Sys2Proof.Machine

/-- O1. A step runs the front command of the queue. For every command c and state s, a step of s with c put at the
front of its queue is exec of c on s with the rest of the queue. -/
def Obligations.StepRunsTheFrontCommand : Prop :=
  ∀ (c : Instr) (s : State), step { s with pending := c :: s.pending } = exec c s

/-- O2. With an empty queue a step is one cycle of REFCLK_LNK. With no command waiting and PERST# de-asserted (STAGE
not 0), local time advances by one step of 6.4 ns, device time by 32 fifths of a nanosecond, the shown device
time never goes back, STAGE 1 becomes STAGE 2, and nothing else changes; in STAGE 0 no time runs and the step
changes nothing. That a step on an empty queue is a tick, and that the ROM leaves STAGE 1 at one, is the model's
choice (logs 2 and 16). -/
def Obligations.EmptyQueueIsOneReferenceTick : Prop :=
  ∀ s : State, s.pending = [] →
  (s.boot.stage = 0 → step s = .next s)
  ∧ (s.boot.stage ≠ 0 → ∃ t : State,
    step s = .next t ∧ t = { s with time := t.time, boot := { s.boot with stage := if s.boot.stage = 1 then 2 else s.boot.stage } }
    ∧ t.time.steps = s.time.steps + 1 ∧ t.time.true5 = s.time.true5 + 32
    ∧ s.time.shown5 ≤ t.time.shown5 ∧ t.time.true5 ≤ t.time.shown5
    ∧ (t.time.shown5 = s.time.shown5 ∨ t.time.shown5 = t.time.true5)
    ∧ t.time.setTime = s.time.setTime ∧ t.time.hiLatch = s.time.hiLatch)

/-- O3. A step takes the front command and leaves the rest of the queue as it was. Whatever the front command is and
whatever it does, the queue after the step is the queue behind it, in the same order: no command adds, drops or
reorders waiting commands. -/
def Obligations.StepTakesExactlyTheFrontCommand : Prop :=
  ∀ (c : Instr) (rest : List Instr) (s t : State),
    step { s with pending := c :: rest } = .next t → t.pending = rest

/-- O4. What reset leaves. Right after reset PERST# is asserted and STAGE is 0, every page header holds no alarm,
mask 0, action 0x5555_5555 and sequence 0, every context is UNUSED, no HBM page is VALID, no cluster, Touchstone
or Mint is in service or has failed and no port recalibrates a lane, and no command waits. -/
def Obligations.ResetIsTheStateOfPerst : Prop :=
  State.reset.boot.stage = 0 ∧ State.reset.boot.perst = true ∧ State.reset.pending = []
  ∧ (∀ p, SMap.get {} State.reset.hdr p = { alarm := 0, mask := 0, action := 0x55555555#32, seq := 0 })
  ∧ (∀ c, (State.reset.ctx c).st = .unused) ∧ (∀ g, bit (State.reset.page g) 12 = false)
  ∧ (∀ cl, (State.reset.clu cl).service = false ∧ (State.reset.clu cl).failed = false)
  ∧ (∀ d, (State.reset.tdie d).service = false ∧ (State.reset.tdie d).failed = false)
  ∧ (∀ m, (State.reset.mnt m).service = false ∧ (State.reset.mnt m).failed = false)
  ∧ (∀ p, (State.reset.prt6 p).recal = false) ∧ State.reset.st.st = 0
  ∧ State.reset.time.steps = 0 ∧ State.reset.time.shown5 = 0

/-- O5. At reset every persistent cell is within its life. The invariant of the persistent cells holds at reset: at
most 100,000 writes, EXHAUSTED exactly at 100,000, WEAR_HIGH exactly above 90,000, and an idle cell holds one
value. -/
def Obligations.ResetKeepsCellsWithinTheirLife : Prop :=
  CellsOk State.reset

/-- O6. Every step keeps every persistent cell within its life. From every state whose persistent cells are within
their life, every step, whatever the front command, leads to such a state again: no command wears a cell past
100,000 accepted writes, an exhausted cell is exactly one at 100,000, WEAR_HIGH is exactly wear above 90,000,
and a cell that is not BUSY holds one value whole, loss of power included. -/
def Obligations.EveryStepKeepsCellsWithinTheirLife : Prop :=
  ∀ s t : State, CellsOk s → step s = .next t → CellsOk t

/-- O7. A write to a persistent cell is handled in the order of R293. For each register of Table RG.9 and each
commit of a sparing map, where the page takes writes: while the cell is BUSY the write is ignored, LAST_REFUSED
is set and PERSIST bit 0 raised; else, while it is EXHAUSTED, the same with bit 1; else a value that the owning
page refuses (CAP_DEFAULT outside 600 to 3,200 W, the reserved PROFILE value, a map whose COUNT is not 150)
leaves the cell as it is and raises that page's alarm; else the value the cell holds changes nothing; any other
write is accepted: BUSY is set, the wear counter has grown by 1, LAST_REFUSED and INTERRUPTED are clear, and the
new value reads back at once. No other cell changes, and nothing else but alarm state and, at a commit, the
sparing record. -/
def Obligations.PersistentWriteIsHandledInOrder : Prop :=
  ∀ (v : W32) (port : PortId) (d : Die) (i : Instr) (s : State) (x : CellWrite),
    i ∈ [Instr.capDefaultWrite v, .profileWrite v, .torusCoordWrite v, .torusDimsWrite v, .laneMapWrite port v, .spareCommit d v,
      .bootSrcWrite v, .bootNsidWrite v] →
    persistRow i s = some x → s.canWrite x.page true = true → Completes i s fun t =>
      SameBut State.cell x.cell s t ∧ AlarmOnly { s with nv := t.nv, spare := t.spare } t
      ∧ ((∀ d v, i ≠ .spareCommit d v) → t.spare = s.spare)
      ∧ if (s.cell x.cell).busy then t.cell x.cell = { s.cell x.cell with lastRefused := true } ∧ Stands t pgPersist 0
        else if (s.cell x.cell).exhausted then t.cell x.cell = { s.cell x.cell with lastRefused := true } ∧ Stands t pgPersist 1
        else match x.refuse with
          | some (q, b) => t.cell x.cell = s.cell x.cell ∧ Stands t q b
          | none =>
            if (s.cell x.cell).val = x.val then t.cell x.cell = s.cell x.cell
            else t.cell x.cell = (s.cell x.cell).accepted x.val ∧ (t.readReg x.page x.off).toNat = x.val.toNat % 2 ^ 32

/-- O8. Each cell endures 100,000 accepted writes and then keeps its value for good. An accepted write that passes
90,000 sets WEAR_HIGH and raises PERSIST bit 2; the one that reaches 100,000 makes the cell EXHAUSTED and raises
bit 1; any other raises no alarm and changes nothing but the cell and, at a commit, the sparing record. From
every state, whatever the front command, a step leaves a cell that is EXHAUSTED at 100,000 EXHAUSTED at 100,000
with its value (where its last write is still in progress, loss of power may leave the value before it, as R294
says). SPARE_WEAR of a die reads the wear counter of its cell. That the accepted write sets the flags and raises
the bits, and not the end of its write, is the model's choice (log 15). -/
def Obligations.CellsEndureTheirWrites : Prop :=
  (∀ (i : Instr) (s : State) (x : CellWrite),
    persistRow i s = some x → x.refuse = none → s.canWrite x.page true = true →
    (s.cell x.cell).busy = false → (s.cell x.cell).exhausted = false → (s.cell x.cell).val ≠ x.val → Completes i s fun t =>
      (t.cell x.cell).wear = (s.cell x.cell).wear + 1
      ∧ (90000 < (t.cell x.cell).wear → (t.cell x.cell).wearHigh = true) ∧ ((s.cell x.cell).wear = 90000 → Stands t pgPersist 2)
      ∧ ((t.cell x.cell).exhausted = true ↔ 100000 ≤ (t.cell x.cell).wear) ∧ ((t.cell x.cell).wear = 100000 → Stands t pgPersist 1)
      ∧ ((s.cell x.cell).wear ≠ 90000 → (t.cell x.cell).wear ≠ 100000 → t = { s with nv := t.nv, spare := t.spare }))
  ∧ (∀ (s t : State) (k : Nat), step s = .next t → (s.cell k).exhausted = true → (s.cell k).wear = 100000 →
    (t.cell k).exhausted = true ∧ (t.cell k).wear = 100000
    ∧ ((t.cell k).val = (s.cell k).val ∨ ((s.cell k).busy = true ∧ (t.cell k).val = (s.cell k).old)))
  ∧ (∀ (s : State) (d : Die), s.boot.stage ≠ 0 →
    (s.readReg (pgSparing d.val) 0xC0).toNat = (s.cell (10 + d.val)).wear % 2 ^ 32)

/-- O9. A write of the reserved profile value is ignored with an alarm. A write of profile value 3 that reaches the
page leaves the value, the wear and BUSY of every persistent cell and the running profile as they are. An idle,
unexhausted PROFILE cell does not change at all and BURSAR bit 5 is raised; in a BUSY or EXHAUSTED one the write
sets LAST_REFUSED and raises PERSIST bit 0 or bit 1, as R293 orders. Nothing else changes but what the alarm
changes. -/
def Obligations.ReservedProfileIsIgnored : Prop :=
  ∀ (v : W32) (s : State), s.canWrite pgBursar true = true → v.toNat % 4 = 3 →
    Completes (.profileWrite v) s fun t =>
      (t.cell 1).val = (s.cell 1).val ∧ (t.cell 1).wear = (s.cell 1).wear ∧ (t.cell 1).busy = (s.cell 1).busy
      ∧ SameBut State.cell 1 s t ∧ AlarmOnly { s with nv := t.nv } t
      ∧ if (s.cell 1).busy then Stands t pgPersist 0
        else if (s.cell 1).exhausted then Stands t pgPersist 1
        else t.nv = s.nv ∧ Stands t pgBursar 5

/-- O10. A commit of a sparing map persists the staged words or is rejected. A write of 1 to SPARE_COMMIT of die d:
with COUNT 150 and an idle, unexhausted cell the staged map is one persistent write (or none when it is the
stored value) and REJECT clears; while BUSY, or with another COUNT, nothing is written, no wear is counted,
REJECT is set and SPARING bit 0 is raised. Writing 0 does nothing. When the write of a cell has persisted, BUSY
clears and the wear stays counted. -/
def Obligations.SpareCommitPersistsOrRejects : Prop :=
  (∀ (d : Die) (v : W32) (s : State), bit v.toNat 0 = true → s.canWrite (pgSparing d.val) true = true →
    popCount (s.spr d.val).staged.toNat 160 = 150 → (s.cell (10 + d.val)).busy = false →
    (s.cell (10 + d.val)).exhausted = false → Completes (.spareCommit d v) s fun t =>
      (t.cell (10 + d.val) = if (s.cell (10 + d.val)).val = (s.spr d.val).staged then s.cell (10 + d.val)
        else (s.cell (10 + d.val)).accepted (s.spr d.val).staged)
      ∧ SameBut State.cell (10 + d.val) s t ∧ t.spr d.val = { s.spr d.val with reject := false }
      ∧ SameBut State.spr d.val s t ∧ AlarmOnly { s with nv := t.nv, spare := t.spare } t)
  ∧ (∀ (d : Die) (v : W32) (s : State), bit v.toNat 0 = true → s.canWrite (pgSparing d.val) true = true →
    ((s.cell (10 + d.val)).busy = true ∨ popCount (s.spr d.val).staged.toNat 160 ≠ 150) → Completes (.spareCommit d v) s fun t =>
      (t.cell (10 + d.val)).val = (s.cell (10 + d.val)).val ∧ (t.cell (10 + d.val)).wear = (s.cell (10 + d.val)).wear
      ∧ SameBut State.cell (10 + d.val) s t ∧ t.spr d.val = { s.spr d.val with reject := true }
      ∧ SameBut State.spr d.val s t ∧ Stands t (pgSparing d.val) 0
      ∧ AlarmOnly { s with nv := t.nv, spare := t.spare } t)
  ∧ (∀ (d : Die) (v : W32) (s : State), bit v.toNat 0 = false → exec (.spareCommit d v) s = .next s)
  ∧ (∀ (i : Fin 20) (s : State), (s.cell i.val).busy = true → Completes (.persistWriteDone i) s fun t =>
      t.cell i.val = { s.cell i.val with busy := false, old := (s.cell i.val).val }
      ∧ SameBut State.cell i.val s t ∧ t = { s with nv := t.nv })

/-- O11. A host write stores into the register it names, and reads back. In READY an aligned 32-bit write to a
select register or a plain register of the list reads back with its reserved bits zero; an aligned 64-bit write
is two 32-bit writes, the lower address first; a write to an unmapped page changes nothing; a misaligned write
is ignored and raises IRQ bit 0. Pages here are those of the device and of context 0 to 4,095. -/
def Obligations.RegisterWritesReachTheirRegister : Prop :=
  (∀ (r : Nat × Nat × Nat) (v : W64) (s : State), r ∈ plainRegs → s.boot.stage = 7 →
    Completes (.registerWrite (BitVec.ofNat 26 (r.1 * 4096 + r.2.1)) false v) s fun t =>
      (t.readReg r.1 r.2.1).toNat = v.toNat % 2 ^ 32 &&& r.2.2 ∧ t.hdr = s.hdr ∧ t.nv = s.nv
      ∧ t = { s with sel := t.sel, sched := t.sched, boot := t.boot, num := t.num, st := t.st })
  ∧ (∀ (off : BitVec 26) (v : W64) (s u : State), off.toNat % 8 = 0 →
      exec (.registerWrite off false v) s = .next u →
      exec (.registerWrite off true v) s = exec (.registerWrite (off + 4) false (v >>> 32)) u)
  ∧ (∀ (off : BitVec 26) (v : W64) (s : State), off.toNat % 4 = 0 → pageType (off.toNat / 4096) = none →
      exec (.registerWrite off false v) s = .next s)
  ∧ (∀ (off : BitVec 26) (v : W64) (s : State), off.toNat % 4 ≠ 0 → s.boot.stage ≠ 0 →
      Completes (.registerWrite off false v) s fun t => Stands t pgIrq 0 ∧ AlarmOnly s t)

/-- O12. Clearing an alarm, SOFT_RESET, a refused access and the latch of DEV_TIME_HI. A write of 1s to BLK_ALARM
clears those bits and nothing else of the page; an event that arrives with it is applied after it, so its bit
stands. SOFT_RESET zeroes the page's BLK_ALARM and BLK_EVENT_SEQ and, on the NUMERICS, CTXSTAT and PORT pages,
the counters, for the selected context alone where they belong to one, and no cell, memory or ownership entry.
An access of another size or alignment raises IRQ bit 0 and does nothing else. A read of DEV_TIME_LO latches the
upper half of device time. -/
def Obligations.PageHeaderCommands : Prop :=
  (∀ (page : BitVec 14) (v : W32) (s : State), s.canWrite page.toNat = true →
    Completes (.blkAlarmClear page v none) s fun t =>
      SMap.get {} t.hdr page.toNat = { SMap.get {} s.hdr page.toNat with
        alarm := (SMap.get {} s.hdr page.toNat).alarm &&& ~~~(v.setWidth 16) }
      ∧ AlarmOnly s t)
  ∧ (∀ (page : BitVec 14) (v : W32) (e : AlarmEv) (s : State), s.canWrite page.toNat = true →
    Completes (.blkAlarmClear page v (some e)) s fun t => Stands t page.toNat e.bit.toNat
      ∧ (e.ctx = none → AlarmOnly s t))
  ∧ (∀ (page : BitVec 14) (s : State), s.canWrite page.toNat = true → page.toNat < 0x3000 →
    Completes (.softReset page) s fun t =>
      (SMap.get {} t.hdr page.toNat).alarm = 0 ∧ (SMap.get {} t.hdr page.toNat).seq = 0
      ∧ (SMap.get {} t.hdr page.toNat).mask = (SMap.get {} s.hdr page.toNat).mask
      ∧ (SMap.get {} t.hdr page.toNat).action = (SMap.get {} s.hdr page.toNat).action
      ∧ t.nv = s.nv ∧ t.hbm = s.hbm ∧ t.pot = s.pot ∧ t.sems = s.sems ∧ t.sel = s.sel ∧ t.sched = s.sched
      ∧ (page.toNat = pgNumerics →
          t.nums s.sel.nuCtx.toNat = { s.nums s.sel.nuCtx.toNat with ovfCount := 0 }
          ∧ SameBut State.nums s.sel.nuCtx.toNat s t ∧ t.ctxs = s.ctxs ∧ t.port = s.port)
      ∧ (page.toNat = pgCtxStat →
          t.ctx s.sel.ctxstat.toNat = { s.ctx s.sel.ctxstat.toNat with
            vaultSpills := 0, preempts := 0, forcedSaves := 0, faults := 0 }
          ∧ SameBut State.ctx s.sel.ctxstat.toNat s t ∧ t.num = s.num ∧ t.port = s.port)
      ∧ (∀ p : PortId, page.toNat = pgPort p.val →
          t.prt6 p.val = { s.prt6 p.val with fecCorr := 0, fecUncorr := 0, crcRetry := 0, filterDrop := 0 }
          ∧ SameBut State.prt6 p.val s t ∧ t.num = s.num ∧ t.ctxs = s.ctxs))
  ∧ (∀ (off : BitVec 26) (size : Nat) (rd : Bool) (s : State),
    ¬((size = 4 ∧ off.toNat % 4 = 0) ∨ (size = 8 ∧ off.toNat % 8 = 0)) → s.boot.stage ≠ 0 →
    Completes (.badAccess off size rd) s fun t => Stands t pgIrq 0 ∧ AlarmOnly s t)
  ∧ (∀ s : State, s.decoded pgDevice false = true → Completes .devTimeLoRead s fun t =>
      t = { s with time := { s.time with hiLatch := BitVec.ofNat 32 (s.devTime.toNat / 2 ^ 32) } })

/-- O13. One message per vector and window, pending while masked. At the close of a window every vector of the table
that is unmasked and holds events, the host port being up, sends one message, which counts in the next window
(that it counts there is the model's choice, log 18); no other vector does, and a masked vector keeps its
events. Unmasking a vector clears its pending bit and sends the message it stood for at once, if the host port
is up and no message of the window is out; another vector's message is not sent. Nothing but the interrupt state
changes. -/
def Obligations.MessagesOfTheInterruptWindow : Prop :=
  (∀ s : State, Completes .msixWindowClose s fun t =>
    t = { s with irq := t.irq } ∧ t.irq = { s.irq with log := t.irq.log, vec := t.irq.vec }
    ∧ ∃ sent, t.irq.log = s.irq.log ++ sent
      ∧ (∀ v, v ∈ sent ↔ ∃ x, (v, x) ∈ s.irq.vec ∧ x.held = true ∧ x.masked = false ∧ s.boot.hostUp = true)
      ∧ (∀ v, t.vec v = if (s.vec v).held && !(s.vec v).masked && s.boot.hostUp
          then { s.vec v with sent := true, held := false } else { s.vec v with sent := false }))
  ∧ (∀ (v : BitVec 13) (s : State), v.toNat < 4160 → Completes (.msixVectorUnmask v) s fun t =>
    t = { s with irq := t.irq } ∧ (t.vec v.toNat).masked = false ∧ (t.vec v.toNat).pend = false
    ∧ SameBut State.vec v.toNat s t
    ∧ t.irq.log = (if (s.vec v.toNat).pend && !(s.vec v.toNat).sent && s.boot.hostUp then s.irq.log ++ [v.toNat]
        else s.irq.log))

/-- O14. PERST#, a supply fault, a thermal trip and loss of power lose all state but the persistent cells. The
assertion of PERST# leaves STAGE 0 and every part of the state as reset leaves it, but the persistent cells
(with a write in progress going on), the JTAG and SMBus ports, the host's memory and the waiting commands, which
are not the device's to lose. A supply fault while PERST# is de-asserted does the same and asserts PWR_ALERT#;
THERM_TRIP# does the same and latches. Loss of power leaves each BUSY cell its old or its new value whole with
INTERRUPTED set and its wear counted, and is remembered until power returns if it met one. That the JTAG and
SMBus ports survive and that HBM then reads zero is the choice of the model (log 16). -/
def Obligations.ResetAndSuppliesLoseAllButTheCells : Prop :=
  (∀ s : State, Completes .perstAssert s fun t =>
    t = { State.reset with
      nv := s.nv, host := s.host, jtag := s.jtag, smb := s.smb, free := s.free, pending := s.pending
      boot := {
        powered := s.boot.powered, perst := true, railGood := s.boot.railGood, tripped := s.boot.tripped
        lossHit := s.boot.lossHit } })
  ∧ (∀ s : State, s.boot.perst = false → Completes .supplyFault s fun t =>
    t = { State.reset with nv := s.nv, host := s.host, jtag := s.jtag, smb := s.smb, free := s.free, pending := s.pending
                           boot := t.boot }
    ∧ t.boot.stage = 0 ∧ t.boot.pwrAlert = true ∧ t.boot.perst = false)
  ∧ (∀ s : State, Completes .thermTrip s fun t =>
    t = { State.reset with nv := s.nv, host := s.host, jtag := s.jtag, smb := s.smb, free := s.free, pending := s.pending
                           boot := t.boot }
    ∧ t.boot.stage = 0 ∧ t.boot.tripped = true)
  ∧ (∀ (keep : BitVec 20) (s : State), Completes (.powerLoss keep) s fun t =>
    t = { State.reset with nv := t.nv, host := s.host, free := s.free, pending := s.pending
                           boot := { powered := false, lossHit := t.boot.lossHit } }
    ∧ (t.boot.lossHit = true ↔ s.boot.lossHit = true ∨ ∃ i c, (i, c) ∈ s.nv ∧ c.busy = true)
    ∧ ∀ i, if (s.cell i).busy then
        ((t.cell i).val = (s.cell i).val ∨ (t.cell i).val = (s.cell i).old) ∧ (t.cell i).interrupted = true
        ∧ (t.cell i).busy = false ∧ (t.cell i).wear = (s.cell i).wear
      else t.cell i = s.cell i)

/-- O15. De-assertion of PERST# starts boot with the persistent settings in force. When PERST# is asserted and no
thermal trip is latched, its de-assertion leaves STAGE 1, device and local time 0, CAP from CAP_DEFAULT, the
profile and options from PROFILE, the device ID and extents from the torus cells, each die's applied map from
its cell, and the boot source from BOOT_SRC; the cells are untouched, and where a loss of power had met a BUSY
cell PERSIST bit 3 is raised, once. That HBM reads zero after PERST# is the choice of the model (logs 5, 16). -/
def Obligations.PerstReleaseAppliesTheSettings : Prop :=
  ∀ s : State, s.boot.perst = true → s.boot.tripped = false → Completes .perstDeassert s fun t =>
    t.boot.stage = 1 ∧ t.boot.perst = false ∧ t.nv = s.nv ∧ t.boot.lossHit = false
    ∧ t.time.steps = 0 ∧ t.time.shown5 = 0
    ∧ t.bursar.cap = (s.cell 0).val.setWidth 12 ∧ t.boot.profile = (s.cell 1).val.setWidth 2
    ∧ t.boot.options.toNat = (s.cell 1).val.toNat / 16 % 16
    ∧ t.devId = (s.cell 2).val.setWidth 12 ∧ t.boot.dims = (s.cell 3).val.setWidth 12
    ∧ (∀ d : Die, (t.spr d.val).applied = (s.cell (10 + d.val)).val)
    ∧ t.boot.srcUsed = bit (s.cell 18).val.toNat 0
    ∧ t.ctxs = [] ∧ t.hbm = [] ∧ t.pot = []
    ∧ (s.boot.lossHit = true → Stands t pgPersist 3) ∧ (s.boot.lossHit = false → t.hdr = [])

/-- O16. The events of boot lead from stage to stage, or to FAILED with their ERROR code. FW_PUSH_GO in STAGE 2 with
BOOT_SRC 0 starts the push. An image that R298 accepts leads to STAGE 3 and shows its version; a rejected one to
FAILED with ERROR 1, an unreadable flash image or one above 16 MiB to ERROR 2. Sparing leads to STAGE 4, or to
ERROR 3 when a powered die passed fewer than 150 clusters; no applied map selects a cluster that failed. SRAM
initialisation leads to STAGE 5 with every cluster and Escrow memory zero, or to ERROR 4. HBM training leads to
STAGE 6 with no page VALID, or to ERROR 5. Link training leaves every port of an axis of extent 2 or more DOWN
with bit 1 of its page, DEGRADED or UP by its good lanes: 16 to 31 lanes are DEGRADED, and that range and the
bit are the model's choice (log 17). READY follows and decodes every page. -/
def Obligations.BootTakesItsStagesInOrder : Prop :=
  (∀ (v : W32) (s : State), bit v.toNat 0 = true → s.boot.stage = 2 → s.boot.srcUsed = false →
    Completes (.fwPushGo v) s fun t => t = { s with boot := { s.boot with pushed := true } })
  ∧ (∀ (img : FwImage) (s : State), s.boot.stage = 2 → (s.boot.srcUsed = true ∨ s.boot.pushed = true) →
    Completes (.firmwareLoadDone img) s fun t =>
      if s.boot.srcUsed = true ∧ (img.readable = false ∨ 4096 < img.units.toNat) then
        t.boot.stage = 15 ∧ t.boot.error = 2 ∧ t.boot.fwVersion = s.boot.fwVersion ∧ Stands t pgBoot 0
      else if img.part = 0x1200 ∧ img.sigOk = true
          ∧ (s.boot.srcUsed = true ∨ img.units.toNat = s.boot.pushLen.toNat) then
        t = { s with boot := { s.boot with stage := 3, fwVersion := img.version } }
      else t.boot.stage = 15 ∧ t.boot.error = 1 ∧ t.boot.fwVersion = s.boot.fwVersion
        ∧ Stands t pgBoot 0 ∧ Stands t pgBoot 1)
  ∧ (∀ (pass : List (BitVec 160)) (s : State), s.boot.stage = 3 → s.boot.sparFailed = 0 →
    Completes (.bootSparing pass) s fun t =>
      (t.boot.stage = if ∀ d < s.dies, 150 ≤ popCount (pass.getD d 0).toNat 160 then 4 else 15)
      ∧ (t.boot.stage = 15 → t.boot.error = 3 ∧ Stands t pgBoot 0)
      ∧ ∀ d < s.dies, (t.spr d).fail = ~~~(pass.getD d 0) ∧ (t.spr d).applied &&& (t.spr d).fail = 0
          ∧ (t.spr d).staged = (s.spr d).staged)
  ∧ (∀ (ok : Bool) (s : State), s.boot.stage = 4 → Completes (.sramInit ok) s fun t =>
      t.cls = [] ∧ t.td = [] ∧ t.hbm = s.hbm ∧ t.nv = s.nv
      ∧ (if ok then t.boot.stage = 5 else t.boot.stage = 15 ∧ t.boot.error = 4 ∧ Stands t pgBoot 0))
  ∧ (∀ (good : BitVec 24) (w : U16) (s : State), s.boot.stage = 5 → Completes (.hbmTraining good w) s fun t =>
      t.pot = [] ∧ t.bursar.staticW = w ∧ t.nv = s.nv ∧ t.cls = s.cls
      ∧ (if ∀ m < 3 * s.dies, bit good.toNat m = true then t.boot.stage = 6
         else t.boot.stage = 15 ∧ t.boot.error = 5 ∧ Stands t pgBoot 0))
  ∧ (∀ (good : List W32) (peers : List DevId) (s : State), s.boot.stage = 6 →
    Completes (.linkTraining good peers) s fun t => t.boot.linksDone = true ∧ t.boot.stage = 6 ∧ t.nv = s.nv
      ∧ ∀ p : PortId,
        let a := (s.cell (4 + p.val)).val.setWidth 32 &&& good.getD p.val 0
        if s.extent (p.val / 2) < 2 then t.prt6 p.val = s.prt6 p.val
        else if popCount a.toNat 32 < 16 then (t.prt6 p.val).st = .down ∧ Stands t (pgPort p.val) 1
        else (t.prt6 p.val).lanes = a ∧ (t.prt6 p.val).peer = peers.getD p.val 0
          ∧ (t.prt6 p.val).st = (if popCount a.toNat 32 < 32 then .degraded else .up))
  ∧ (∀ s : State, s.boot.stage = 6 → s.boot.linksDone = true → Completes .bootReady s fun t =>
      t.boot = { s.boot with stage := 7 } ∧ (∀ p, (pageType p).isSome = true → t.decoded p false = true)
      ∧ t.ctxs = s.ctxs ∧ t.hbm = s.hbm ∧ t.nv = s.nv ∧ t.cls = s.cls)

/-- O17. An edge of TSYNC sets, corrects or leaves device time. With a pending SET_TIME the edge sets device time to
the written value. Otherwise, within 1 ms of a multiple of 10^9 ns, device time is corrected to that multiple,
and the time shown never decreases; otherwise the edge is ignored and DEVICE bit 0 is raised. Local time never
changes. SET_TIME over SMBus is held for the next edge, and refused with NACK while any context is IN. That the
edge is held against the running device time, not the time shown, is the choice of the model (log 24). -/
def Obligations.DeviceTimeFollowsTsync : Prop :=
  (∀ s : State, s.boot.stage ≠ 0 → Completes .tsyncEdge s fun t =>
    t.time.steps = s.time.steps
    ∧ match s.time.setTime with
      | some v => t = { s with time := { s.time with true5 := 5 * v.toNat, shown5 := 5 * v.toNat, setTime := none } }
      | none =>
        let r := s.time.true5 % 5000000000
        if r ≤ 5000000 ∨ 4995000000 ≤ r then
          t = { s with time := t.time } ∧ t.time.true5 % 5000000000 = 0
          ∧ t.time.true5 ≤ s.time.true5 + 5000000 ∧ s.time.true5 ≤ t.time.true5 + 5000000
          ∧ s.time.shown5 ≤ t.time.shown5 ∧ (t.time.shown5 = s.time.shown5 ∨ t.time.shown5 = t.time.true5)
        else Stands t pgDevice 0 ∧ AlarmOnly s t)
  ∧ (∀ (v : W64) (s : State), s.boot.powered = true → (∀ c x, (c, x) ∈ s.ctxs → x.st ≠ .resident) →
    Completes (.setTime v) s fun t =>
      t = { s with time := { s.time with setTime := some v }, smb := { data := [], nack := false } })
  ∧ (∀ (v : W64) (s : State), s.boot.powered = true → (∃ c x, (c, x) ∈ s.ctxs ∧ x.st = .resident) →
    Completes (.setTime v) s fun t => t = { s with smb := { data := [], nack := true } })

/-- O18. The SMBus commands are answered whenever 3V3_AUX is present. Each read of Table EL.5 answers its number of
bytes without NACK and changes nothing but the answer: DEV_PART and both words of DEV_SERIAL, BOOT.STATUS, the
hottest die sensor and the hottest stack, PWR_NOW, ALARM_PEND, and device time, each as the registers read once
their pages decode; before READY the temperatures and PWR_NOW are zeros. SET_TIME is pending until the next
TSYNC edge, or answered with NACK and without effect while a context is IN. -/
def Obligations.SmbusAnswersWhenPowered : Prop :=
  ∀ s : State, s.boot.powered = true →
    Completes .smbusReadPart s (fun t => t = { s with smb := t.smb } ∧ t.smb.nack = false ∧ t.smb.data.length = 12
      ∧ t.smb.data.take 4 = [0x00#8, 0x12#8, 0x01#8, 0x00#8] ∧ leNat (t.smb.data.drop 4) = Config.serial.toNat
      ∧ (s.boot.stage ≠ 0 → leNat t.smb.data = (s.readReg pgDevice 0x40).toNat
          + 2 ^ 32 * (s.readReg pgDevice 0x44).toNat + 2 ^ 64 * (s.readReg pgDevice 0x48).toNat))
    ∧ Completes .smbusReadBootStatus s (fun t => t = { s with smb := t.smb } ∧ t.smb.nack = false
      ∧ t.smb.data.length = 4 ∧ leNat t.smb.data % 16 = s.boot.stage.toNat
      ∧ (s.boot.stage ≠ 0 → leNat t.smb.data = (s.readReg pgBoot 0x40).toNat))
    ∧ Completes .smbusReadTemperatures s (fun t => t = { s with smb := t.smb } ∧ t.smb.nack = false
      ∧ t.smb.data.length = 2 ∧ (s.boot.stage ≠ 7 → t.smb.data = [0, 0])
      ∧ (s.boot.stage = 7 →
          (∀ d < s.dies, (s.dpow d).temp ≤ t.smb.data.getD 0 0) ∧ (∃ d < s.dies, (s.dpow d).temp = t.smb.data.getD 0 0)
          ∧ (∀ d < s.dies, (s.dpow d).stackTemp ≤ t.smb.data.getD 1 0)
          ∧ ∃ d < s.dies, (s.dpow d).stackTemp = t.smb.data.getD 1 0))
    ∧ Completes .smbusReadPower s (fun t => t = { s with smb := t.smb } ∧ t.smb.nack = false
      ∧ t.smb.data.length = 4 ∧ (s.boot.stage ≠ 7 → leNat t.smb.data = 0)
      ∧ (s.boot.stage = 7 → leNat t.smb.data = s.bursar.measured.toNat + 65536 * s.bursar.est.toNat
          ∧ leNat t.smb.data = (s.readReg pgBursar 0x50).toNat))
    ∧ Completes .smbusReadAlarms s (fun t => t = { s with smb := t.smb } ∧ t.smb.nack = false
      ∧ t.smb.data.length = 4 ∧ leNat t.smb.data = s.alarmPend.toNat
      ∧ (s.boot.stage ≠ 0 → leNat t.smb.data = (s.readReg pgIrq 0x40).toNat))
    ∧ Completes .smbusReadTime s (fun t => t = { s with smb := t.smb } ∧ t.smb.nack = false
      ∧ t.smb.data.length = 8 ∧ leNat t.smb.data = s.devTime.toNat)
    ∧ ∀ v : W64,
      ((∀ c x, (c, x) ∈ s.ctxs → x.st ≠ .resident) → Completes (.setTime v) s fun t =>
        t = { s with time := { s.time with setTime := some v }, smb := { data := [], nack := false } })
      ∧ ((∃ c x, (c, x) ∈ s.ctxs ∧ x.st = .resident) → Completes (.setTime v) s fun t =>
        t = { s with smb := { data := [], nack := true } })

/-- O19. Link-down resets the MSI-X table and loses no message; link return sends what waited. Link-down masks every
vector of the table and takes the host port down, and changes nothing else: no held or pending event is lost. On
link return the vectors that hold events, are unmasked and have sent nothing in the window send one message
each; the held events of masked vectors become pending; and the next block for the host tier is written at
HOST_BASE when that tier is active and the host has taken the last one. Nothing else changes. That a reset MSI-X
table masks every vector is presumed (log 8). -/
def Obligations.HostLinkDownWaitsWithoutLoss : Prop :=
  (∀ s : State, Completes .pcieLinkDown s fun t =>
    t = { s with boot := { s.boot with hostUp := false }, irq := { s.irq with vec := t.irq.vec } }
    ∧ (∀ v, t.vec v = { s.vec v with masked := true }))
  ∧ (∀ s : State, s.boot.hostUp = false → s.boot.stage ≠ 0 → Completes .pcieLinkUp s fun t =>
    t = { s with
      boot := { s.boot with hostUp := true }, irq := { s.irq with log := t.irq.log, vec := t.irq.vec }, host := t.host, sg := t.sg }
    ∧ (match s.sg.outbox with
      | [] => t.host = s.host ∧ t.sg = s.sg
      | b :: r => if s.sg.tierActive = 3 ∧ s.sg.hostAck = s.sg.hostSent then
          t.host = Mem.writeBytes s.host s.sg.hostBase.toNat b.2 ∧ t.sg = { s.sg with outbox := r, hostSent := s.sg.hostSent + 1 }
        else t.host = s.host ∧ t.sg = s.sg)
    ∧ ∃ sent, t.irq.log = s.irq.log ++ sent
      ∧ (∀ v, v ∈ sent ↔ ∃ x, (v, x) ∈ s.irq.vec ∧ x.held = true ∧ x.masked = false ∧ x.sent = false)
      ∧ (∀ v, t.vec v = if (s.vec v).held && (s.vec v).masked then { s.vec v with held := false, pend := true }
          else if (s.vec v).held && !(s.vec v).sent then { s.vec v with held := false, sent := true } else s.vec v))

/-- O20. The TAP: five cycles of TMS reset it, IDCODE shifts out, TRST# selects IDCODE. TRST# puts the controller
into Test-Logic-Reset with IDCODE selected. Otherwise a cycle of TCK moves the controller as IEEE 1149.1 does
(from any state five cycles with TMS high reach Test-Logic-Reset), Capture-DR under IDCODE loads 0x1120_04B3,
and a shift of the data register shows its first bit on TDO and takes TDI in at the end. Nothing but the JTAG
state ever changes. The moves of the controller and what TRST# selects are presumed from IEEE 1149.1 (log 40). -/
def Obligations.JtagIsTheStandardController : Prop :=
  (∀ (tms tdi : Bool) (pins : List Bool) (s : State), Completes (.jtagTap tms tdi true pins) s fun t =>
    t = { s with jtag := { s.jtag with tap := .reset, instr := .idcode } })
  ∧ (∀ (tms tdi : Bool) (pins : List Bool) (s : State), Completes (.jtagTap tms tdi false pins) s fun t =>
    t = { s with jtag := t.jtag } ∧ t.jtag.tap = s.jtag.tap.next tms
    ∧ (s.jtag.tap = .capDr → s.jtag.instr = .idcode → t.jtag.dr = (List.range 32).map fun i => bit 0x112004B3 i)
    ∧ (s.jtag.tap = .shiftDr → ∀ b r, s.jtag.dr = b :: r → t.jtag.tdo = b ∧ t.jtag.dr = r ++ [tdi])
    ∧ (s.jtag.tap = .shiftIr → ∀ b r, s.jtag.ir = b :: r → t.jtag.tdo = b ∧ t.jtag.ir = r ++ [tdi])
    ∧ (s.jtag.tap = .reset → t.jtag.instr = .idcode))
  ∧ ∀ x : Tap, ((((x.next true).next true).next true).next true).next true = .reset

/-- O21. CAP is clamped to 600 to 3,200 W, SHARE_ORDER takes permutations only. A write of CAP in range stores it
and clears CAP_CLAMPED; outside it the nearer limit is stored, CAP_CLAMPED is set and BURSAR bit 0 raised. A
write of SHARE_ORDER that permutes the three domains is stored; any other is ignored and raises bit 5.
PACE_CLEAR of a die sets its PACE_LOW to 0xFFFF. Nothing else changes but what an alarm changes. That a bad
order is refused with bit 5 is R250 and Table PW.4; the reset value 0xFFFF that PACE_CLEAR restores is the
model's reading (log 6). -/
def Obligations.CapAndShareOrderTakeLegalValues : Prop :=
  (∀ (v : W32) (s : State), s.canWrite pgBursar = true → Completes (.capWrite v) s fun t =>
    let w := v.toNat % 4096
    t.bursar.cap.toNat = max 600 (min 3200 w) ∧ t.bursar.capIn = s.bursar.capIn
    ∧ AlarmOnly { s with bursar := { s.bursar with cap := t.bursar.cap, capClamped := t.bursar.capClamped } } t
    ∧ (if 600 ≤ w ∧ w ≤ 3200 then t.bursar.capClamped = false ∧ t.hdr = s.hdr ∧ t.irq = s.irq
       else t.bursar.capClamped = true ∧ Stands t pgBursar 0))
  ∧ (∀ (v : W32) (s : State), s.canWrite pgBursar = true → Completes (.shareOrderWrite v) s fun t =>
    let o := v.toNat % 64
    if List.Perm [o % 4, o / 4 % 4, o / 16] [0, 1, 2] then
      t = { s with bursar := { s.bursar with shareOrder := BitVec.ofNat 6 o } }
    else Stands t pgBursar 5 ∧ AlarmOnly s t)
  ∧ (∀ (d : Die) (v : W32) (s : State), s.canWrite (pgPace d.val) = true → bit v.toNat 0 = true →
    Completes (.paceClear d v) s fun t => t = { s with pace := t.pace }
      ∧ t.pac d.val = { s.pac d.val with low := 0xFFFF } ∧ SameBut State.pac d.val s t)

/-- O22. Hold: entered after ten windows or by a regulator, ended only by a granted release. A power window stores
measured power and counts consecutive windows above 1.05 x CAP; one without an answer leaves measured power
absent. At ten such windows the device enters Hold: HOLD_COUNT rises, PWR_ALERT# is asserted, BURSAR bit 1 is
raised, no cluster may take a step, and nothing but alarm state changes. A regulator fault enters Hold with
measured power absent. RELEASE is granted when the last measured window is at or below CAP and the bits that
caused Hold are clear: Hold ends, PWR_ALERT# is de-asserted and every powered die stands at 0.60 V; otherwise
the write changes nothing. -/
def Obligations.HoldEntersAndEndsAsStated : Prop :=
  (∀ (w : Option U16) (s : State), s.boot.stage = 7 → Completes (.powerWindow w) s fun t =>
    match w with
    | some p => t = { s with bursar := { s.bursar with measured := p, measuredOk := true, overWindows :=
        if 105 * s.bursar.capIn.toNat < 100 * p.toNat then s.bursar.overWindows + 1 else 0 } }
    | none => t = { s with bursar := { s.bursar with measuredOk := false, overWindows := 0 } })
  ∧ (∀ s : State, 10 ≤ s.bursar.overWindows → s.bursar.hold = false → Completes .holdEnter s fun t =>
    t.bursar.hold = true ∧ t.bursar.holdCount = s.bursar.holdCount + 1 ∧ t.boot.pwrAlert = true
    ∧ Stands t pgBursar 1 ∧ (∀ cl, t.clOpen cl = false) ∧ AlarmOnly s t)
  ∧ (∀ s : State, s.boot.stage ≠ 0 → Completes .regulatorFault s fun t =>
    t.bursar.hold = true ∧ t.bursar.measuredOk = false ∧ (s.bursar.hold = false → Stands t pgBursar 1)
    ∧ AlarmOnly { s with bursar := { s.bursar with measuredOk := false, regFails := t.bursar.regFails } } t)
  ∧ (∀ (v : W32) (s : State), bit v.toNat 0 = true → s.canWrite pgBursar = true → s.bursar.hold = true →
    s.bursar.measuredOk = true → s.bursar.measured.toNat ≤ s.bursar.capIn.toNat →
    (∀ p ∈ s.irq.holdBits, ¬Stands s p.1 p.2) → Completes (.holdRelease v) s fun t =>
      t.bursar.hold = false ∧ t.boot = { s.boot with pwrAlert := false } ∧ (∀ d < s.dies, (t.dpow d).point = 0)
      ∧ t.hdr = s.hdr ∧ t = { s with bursar := t.bursar, boot := t.boot, irq := t.irq, dp := t.dp, free := t.free })
  ∧ (∀ (v : W32) (s : State), (bit v.toNat 0 = false ∨ s.bursar.measuredOk = false
      ∨ s.bursar.capIn.toNat < s.bursar.measured.toNat ∨ ∃ p ∈ s.irq.holdBits, Stands s p.1 p.2) →
    exec (.holdRelease v) s = .next s)

/-- O23. Droop and cap gates open and close, and a voltage step moves a die by one point. A droop gate that closes
is shown closed, counted, remembered for the next heartbeat and raised as bit 0 of the die's POWER page; one
that opens is open. The cap gate is open while the microsecond of the period is below the smaller of the
division's duty and the heat duty, and the die's GATED_US counts that microsecond, without wrapping, unless no
gate and no Hold closes issue in it. A voltage step moves every powered die one point toward the lower of its
target and its heat allowance, or leaves it there; every other die keeps its record. -/
def Obligations.GatesAndVoltagePoints : Prop :=
  (∀ (d : Die) (s : State), s.boot.stage ≠ 0 → s.diePowered d.val = true → (s.dpow d.val).droop = false →
    Completes (.droopGateClose d) s fun t =>
      t.dpow d.val = { s.dpow d.val with droop := true, droopSeen := true, droopCount := satInc (s.dpow d.val).droopCount }
      ∧ SameBut State.dpow d.val s t ∧ Stands t (pgPower d.val) 0 ∧ AlarmOnly { s with dp := t.dp } t)
  ∧ (∀ (d : Die) (s : State), s.boot.stage ≠ 0 → s.diePowered d.val = true → Completes (.droopGateOpen d) s fun t =>
      t.dpow d.val = { s.dpow d.val with droop := false } ∧ SameBut State.dpow d.val s t ∧ t = { s with dp := t.dp })
  ∧ (∀ (d : Die) (us : BitVec 6) (s : State), s.boot.stage = 7 → s.diePowered d.val = true →
    Completes (.capGatePeriod d us) s fun t =>
      ((t.dpow d.val).capOpen = true ↔ us.toNat < min (s.dpow d.val).duty.toNat (s.dpow d.val).heatDuty.toNat)
      ∧ t.dpow d.val = { s.dpow d.val with capOpen := (t.dpow d.val).capOpen, gatedUs := (t.dpow d.val).gatedUs }
      ∧ (t.dpow d.val).gatedUs.toNat = (if (t.dpow d.val).capOpen = true ∧ (s.dpow d.val).droop = false
          ∧ (s.dpow d.val).thermDie = false ∧ (s.dpow d.val).thermStack = false ∧ s.bursar.hold = false
          then (s.dpow d.val).gatedUs.toNat else min (2 ^ 32 - 1) ((s.dpow d.val).gatedUs.toNat + 1))
      ∧ SameBut State.dpow d.val s t ∧ t = { s with dp := t.dp })
  ∧ (∀ s : State, s.boot.stage = 7 → Completes .voltageStep s fun t =>
      t = { s with dp := t.dp, bursar := { s.bursar with ramping := t.bursar.ramping } }
      ∧ ∀ d, if d < s.dies then
          let goal := min (s.dpow d).target.toNat (s.dpow d).allow.toNat
          (t.dpow d).point.toNat = (if (s.dpow d).point.toNat < goal then (s.dpow d).point.toNat + 1
            else if goal < (s.dpow d).point.toNat then (s.dpow d).point.toNat - 1 else (s.dpow d).point.toNat)
          ∧ (t.dpow d).target = (s.dpow d).target ∧ (t.dpow d).allow = (s.dpow d).allow
        else t.dpow d = s.dpow d)

/-- O24. The thermal check throttles at 95 °C until below 93 °C and gates at 105 °C until below 100 °C. After a
check each powered die shows its hottest sensor and its hottest stack; it throttles from 95 °C until below 93
°C; its thermal gate is closed from 105 °C until below 100 °C of the die, and likewise of its stacks; while
throttling its allowance has fallen by one point (not below 0). A throttle that begins raises bit 1 of the die's
POWER page, a thermal gate that closes bit 2, and a die that reaches 105 °C bit 2 of the BURSAR page and of its
POWER page as well. The records of other dies, and everything but alarm state, are as before. -/
def Obligations.HeatThrottlesWithHysteresis : Prop :=
  ∀ (dc sc : List Byte) (s : State), s.boot.stage = 7 → Completes (.thermalCheck dc sc) s fun t =>
    AlarmOnly { s with dp := t.dp } t
    ∧ ∀ d, if d < s.dies then
        let c := (dc.getD d 0).toNat
        let m := max (sc.getD (3 * d) 0).toNat (max (sc.getD (3 * d + 1) 0).toNat (sc.getD (3 * d + 2) 0).toNat)
        (t.dpow d).temp.toNat = c ∧ (sc.length = 24 → (t.dpow d).stackTemp.toNat = m)
        ∧ ((t.dpow d).throttle = true ↔ 95 ≤ c ∨ ((s.dpow d).throttle = true ∧ 93 ≤ c))
        ∧ ((t.dpow d).thermDie = true ↔ 105 ≤ c ∨ ((s.dpow d).thermDie = true ∧ 100 ≤ c))
        ∧ (sc.length = 24 → ((t.dpow d).thermStack = true ↔ 105 ≤ m ∨ ((s.dpow d).thermStack = true ∧ 100 ≤ m)))
        ∧ ((t.dpow d).throttle = true → (t.dpow d).allow.toNat = (s.dpow d).allow.toNat - 1)
        ∧ ((t.dpow d).throttle = true → (s.dpow d).throttle = false → Stands t (pgPower d) 1)
        ∧ ((t.dpow d).thermDie = true → (s.dpow d).thermDie = false → Stands t (pgPower d) 2 ∧ Stands t pgBursar 2)
        ∧ ((t.dpow d).thermStack = true → (s.dpow d).thermDie = false → (s.dpow d).thermStack = false →
            Stands t (pgPower d) 2)
        ∧ (t.dpow d).point = (s.dpow d).point ∧ (t.dpow d).target = (s.dpow d).target
      else t.dpow d = s.dpow d

/-- O25. In FULL a division of the cap leaves predicted draw within the cap, or every die at the lowest point. When
a hint ends, and when boot reaches READY, in FULL and with every demand entry finite and no allowance above
point 25: the sum of pred(d) at the new targets is at most what the cap leaves, or every powered die's target is
point 0. The hint that ended is gone from the list and every other hint stays. A hint ends only when its
duration is over or, of duration 0, when others have superseded it on all its dies: of one that has no duration
and still stands, nothing ends. A die that it did not govern keeps its demand entries (R251; which dies those
are is the model's reading, log 104). -/
def Obligations.DivisionMeetsTheCapOrTheFloor : Prop :=
  ∀ s : State, s.boot.profile = 2 → (∀ d < 8, (s.dpow d).allow.toNat ≤ 25) →
    (∀ (no span : Nat) (obs : List HintObs), (∃ h ∈ s.bursar.hints, h.no = no) →
      (∀ h ∈ s.bursar.hints, h.no = no → h.dur ≠ 0 ∨ h.live = 0) →
      Completes (.hintExpire no span obs) s fun t =>
        t.bursar.hints = s.bursar.hints.filter (fun h => h.no ≠ no)
        ∧ (∀ h d c, s.bursar.hints.find? (fun h => h.no = no) = some h → d < 8 → c < 16 →
            bit (h.ruled ||| s.governed h).toNat d = false → t.demand d c = s.demand d c)
        ∧ t = { s with bursar := t.bursar, dp := t.dp }
        ∧ ((∀ d c, isFinite (t.demand d c).1 = true ∧ isFinite (t.demand d c).2 = true) →
            t.predSum ((List.range t.dies).map fun d => (t.dpow d).target.toNat) ≤ t.left
            ∨ ∀ d < t.dies, (t.dpow d).target = 0))
    ∧ (∀ (no span : Nat) (obs : List HintObs), (∀ h ∈ s.bursar.hints, h.no = no → h.dur = 0 ∧ h.live ≠ 0) →
      exec (.hintExpire no span obs) s = .next s)
    ∧ (s.boot.stage = 6 → s.boot.linksDone = true → Completes .bootReady s fun t =>
        t.boot.stage = 7
        ∧ ((∀ d c, isFinite (t.demand d c).1 = true ∧ isFinite (t.demand d c).2 = true) →
            t.predSum ((List.range t.dies).map fun d => (t.dpow d).target.toNat) ≤ t.left
            ∨ ∀ d < t.dies, (t.dpow d).target = 0))

/-- O26. The close of a PACE window reports the slowest ring of each die and sends the heartbeats. At the close of a
window each powered die's PACE MIN is the smallest of its four ring counts, with RING the lowest index that has
it, its MEAN the floor of their mean, PACE_LOW the lowest MIN since it was cleared, and PACE_SEQ one more;
unpowered dies keep theirs. Every port that is UP or DEGRADED gets exactly one HEARTBEAT more to send, for the
neighbour, which holds its credits, and counts one more window without one from there; FEC_CORR advances,
saturating, by the corrected codewords that the close reports (log 90); no other port gets one; no context,
memory or cell changes. -/
def Obligations.PaceWindowReportsTheSlowestRing : Prop :=
  ∀ (w : WindowIn) (s : State), w.rings.length = 32 → Completes (.paceWindowClose w) s fun t =>
    (∀ d, if d < s.dies then
        let r := fun i => (w.rings.getD (4 * d + i) 0).toNat
        (t.pac d).min.toNat = min (min (r 0) (r 1)) (min (r 2) (r 3))
        ∧ r (t.pac d).ring.toNat = (t.pac d).min.toNat ∧ (t.pac d).ring.toNat < 4
        ∧ (∀ i < (t.pac d).ring.toNat, (t.pac d).min.toNat < r i)
        ∧ (t.pac d).mean.toNat = (r 0 + r 1 + r 2 + r 3) / 4
        ∧ (t.pac d).low.toNat = min (s.pac d).low.toNat (t.pac d).min.toNat
        ∧ (t.pac d).seq = (s.pac d).seq + 1
      else t.pac d = s.pac d)
    ∧ t = { s with pace := t.pace, dp := t.dp, bursar := t.bursar, port := t.port, links := t.links }
    ∧ (∀ p < 6, if (s.prt6 p).usable = true then
        ∃ k : Packet, t.prt6 p = { (s.prt6 p).queue k with
            silentRun := (s.prt6 p).silentRun + 1, fecCorr := satAdd (s.prt6 p).fecCorr (w.fec.getD p 0) }
          ∧ k.ty = 15 ∧ k.vc = 0 ∧ k.dst = s.neighbour p ∧ k.src = s.devId ∧ k.payload.length = 64
      else t.prt6 p = s.prt6 p)

/-- O27. A HINT joins the hints of its dies and completes; SELF_LAG is raised after 100 windows. A HINT with a
defined phase class at the head of its queue leaves it and completes: its token is freed, it stands completed in
its context's sequence and its completion record waits if it makes one (where the record buffer is full, the
command waits with it: log 92). It is the last of the list, naming the powered dies of its mask (all when the
mask is 0); an earlier hint of the same context is superseded on those dies and only there: its live bits on
other dies stay, and so does every hint of another context. After 100 slow windows SELF_LAG is set in the link
and power state and LINKS bit 2 and BURSAR bit 4 stand. That only a hint of the same context is superseded is
the model's reading of R249 (log 45). -/
def Obligations.HintIsTakenAtDispatch : Prop :=
  (∀ (c : CtxId) (q : QE) (s : State), s.sched.hint.find? (fun q => q.ctx = c) = some q → fld q.img 0x10 3 0 < 7 →
    Completes (.hint c) s fun t =>
      Finishes s t q 0 ∧ t.sched = { s.sched with hint := s.sched.hint.erase q, tokens := s.tokensAfter q }
      ∧ (∃ h : HintRec, t.bursar.hints.getLast? = some h ∧ h.ctx = c ∧ h.cls.toNat = fld q.img 0x10 3 0
          ∧ h.live = h.mask ∧ t.bursar.hints.length = s.bursar.hints.length + 1
          ∧ (∀ d < 8, bit h.mask.toNat d = true ↔ (d < s.dies ∧ (fld q.img 0x18 7 0 = 0 ∨ bit (fld q.img 0x18 7 0) d = true)))
          ∧ ∀ (i : Nat) (g : HintRec), s.bursar.hints[i]? = some g → ∃ g' : HintRec, t.bursar.hints[i]? = some g'
            ∧ g' = { g with live := g'.live, ruled := g'.ruled }
            ∧ (g.ctx ≠ c → g' = g)
            ∧ (g.ctx = c → ∀ d < 8, bit g'.live.toNat d = (bit g.live.toNat d && !bit h.mask.toNat d)))
      ∧ t = { s with sched := t.sched, bursar := t.bursar, dp := t.dp, ctxs := t.ctxs })
  ∧ (∀ s : State, 100 ≤ s.links.lagRun → s.boot.stage = 7 → Completes .selfLag s fun t =>
      t.links.selfLag = true ∧ t.bursar.selfLag = true
      ∧ Stands t pgLinks 2 ∧ Stands t pgBursar 4
      ∧ t.ctxs = s.ctxs ∧ t.nv = s.nv ∧ t.hbm = s.hbm ∧ t.cls = s.cls)

/-- O28. ENABLE starts training, its end sets the port by its good lanes, going DOWN reroutes; transit packets go
on. Enabling a port of an axis of extent 2 or more puts it into TRAINING under the persistent LANE_MAP of that
moment. When training ends, its active lanes are the good ones of that LANE_MAP, but for a lane under test: 32
leave it UP, 16 to 31 DEGRADED, fewer DOWN with bit 1 of its page (the range of DEGRADED and the bit are log 17,
the model's choice). Disabling takes it DOWN with no lane and nothing left to send or replay. Wherever it goes
DOWN, the packets that were not acknowledged and then those that waited, heartbeats apart, join the queue of the
axis's other port in that order, on the detour's dateline class, where that port is not DOWN and they travel on
the axis. A packet that the link layer gives on and that names another device, of any type with a row of its own
but a heartbeat, joins the queue of its route's port, its credits owed back, and nothing else changes (which
port and which dateline class a packet in transit takes is the model's choice, log 88). A lane that fails leaves
the active set, raises bit 0, starts re-striping and is told to the other end in a control block (whose form is
the model's, log 103); with fewer than 16 lanes left the port goes DOWN with bit 1. When re-striping ends the
frames in flight go on the wire again, in order. -/
def Obligations.PortsComeUpAndGoDown : Prop :=
  (∀ (p : PortId) (s : State), s.canWrite (pgPort p.val) = true → 2 ≤ s.extent (p.val / 2) →
    Completes (.enablePort p) s fun t => (t.prt6 p.val).st = .training ∧ (t.prt6 p.val).lanes = 0
      ∧ (t.prt6 p.val).laneMap = (s.cell (4 + p.val)).val.setWidth 32
      ∧ SameBut State.prt6 p.val s t ∧ t = { s with port := t.port })
  ∧ (∀ (p : PortId) (s : State), s.canWrite (pgPort p.val) = true → Completes (.disablePort p) s fun t =>
      (t.prt6 p.val).st = .down ∧ (t.prt6 p.val).lanes = 0 ∧ (t.prt6 p.val).txq = [] ∧ (t.prt6 p.val).replay = []
      ∧ t.nv = s.nv ∧ t.hbm = s.hbm ∧ Reroutes s t p)
  ∧ (∀ (p : PortId) (good : W32) (peer : DevId) (s : State), (s.prt6 p.val).st = .training →
    Completes (.portTrainingDone p good peer) s fun t =>
      let m := (s.prt6 p.val).laneMap &&& good &&& ~~~(s.prt6 p.val).failed
      let a := m &&& ~~~s.laneTested p.val
      let n := popCount a.toNat 32
      t.nv = s.nv ∧ t.hbm = s.hbm ∧ (t.prt6 p.val).mayUse = m
      ∧ (t.prt6 p.val).failed = (s.prt6 p.val).laneMap &&& ~~~good ||| (s.prt6 p.val).failed ∧ (t.prt6 p.val).laneBad = (s.prt6 p.val).laneBad
      ∧ (if n < 16 then (t.prt6 p.val).st = .down ∧ (t.prt6 p.val).lanes = 0 ∧ Stands t (pgPort p.val) 1 ∧ Reroutes s t p
         else (t.prt6 p.val).st = (if n < 32 then .degraded else .up) ∧ (t.prt6 p.val).lanes = a
           ∧ (t.prt6 p.val).peer = peer ∧ SameBut State.prt6 p.val s t ∧ t = { s with port := t.port }))
  ∧ (∀ (p : PortId) (lane : BitVec 5) (s : State), (s.prt6 p.val).usable = true →
      bit (s.prt6 p.val).lanes.toNat lane.toNat = true → Completes (.laneFail p lane) s fun t =>
      let m := (s.prt6 p.val).lanes &&& ~~~BitVec.ofNat 32 (2 ^ lane.toNat)
      Stands t (pgPort p.val) 0 ∧ bit (t.prt6 p.val).failed.toNat lane.toNat = true
      ∧ (t.prt6 p.val).mayUse = (s.prt6 p.val).mayUse &&& ~~~BitVec.ofNat 32 (2 ^ lane.toNat)
      ∧ (if popCount m.toNat 32 < 16 then (t.prt6 p.val).st = .down ∧ Stands t (pgPort p.val) 1 ∧ Reroutes s t p
         else (t.prt6 p.val).st = .degraded ∧ (t.prt6 p.val).lanes = m ∧ (t.prt6 p.val).restripe = true
           ∧ (t.prt6 p.val).blocks = (s.prt6 p.val).blocks ++ [.lanes m]
           ∧ SameBut State.prt6 p.val s t ∧ AlarmOnly { s with port := t.port } t))
  ∧ (∀ (p : PortId) (s : State), (s.prt6 p.val).restripe = true → Completes (.laneRestripeDone p) s fun t =>
      (t.prt6 p.val).restripe = false ∧ (t.prt6 p.val).wire = (s.prt6 p.val).wire ++ (s.prt6 p.val).replay
      ∧ (t.prt6 p.val).replay = (s.prt6 p.val).replay ∧ SameBut State.prt6 p.val s t ∧ t = { s with port := t.port })
  ∧ (∀ (p : PortId) (k : Packet) (i : Instr) (q : Nat) (dt : Bool) (s : State), packetRow p k = some i → LinkTakes s p k →
    k.dst ≠ s.devId → s.route k.dst (some p.val) = some (q, dt) → Completes i s fun t =>
      t = (s.given p k).modPort q fun x => x.queue { k with
        dateline := dt || s.wraps q || (decide (p.val / 2 = q / 2) && k.dateline), lsn := 0 })

/-- O29. A frame is sent once its credits are free and stays in the replay buffer until acknowledged. At a packet
boundary of a usable port that is not re-striping the control blocks due go first: the credits owed, the
acknowledge of the last packet taken, a negative acknowledge for each packet that failed. When the port picks a
packet (its credits being free) and the replay buffer has room, exactly that packet leaves the transmit queue
and goes on the wire as a frame with the next link sequence number and its CRC, and is kept for replay; it keeps
the credits it took when it was queued. A control block returns credits and drops acknowledged frames, a
negative acknowledge puts that frame and every later one on the wire again in order and counts one retry (that
CRC_RETRY counts once per replay is the model's choice, log 17), and a packet that fails its CRC will be
negatively acknowledged (and counts as uncorrected, log 90). Only the one port changes. -/
def Obligations.FramesAreSentKeptAndReplayed : Prop :=
  (∀ (p : PortId) (v rr : Nat) (k : Packet) (s : State), (s.prt6 p.val).usable = true → (s.prt6 p.val).restripe = false →
    (s.prt6 p.val).pick = some (v, rr) → (s.prt6 p.val).sendable v = some k →
    ((s.prt6 p.val).replay.map fun f => frameBytes f.pkt).sum + frameBytes k ≤ 262144 →
    Completes (.packetTransmit p) s fun t =>
      let x := s.prt6 p.val
      let f : Frame := { lsn := x.lsn, pkt := k, crc := pktCrc k }
      k ∈ x.txq ∧ pktCredits k ≤ x.free (pktChan k)
      ∧ t.prt6 p.val = { x with
          txq := x.txq.erase k, rr := rr, wire := x.wire ++ [f], replay := x.replay ++ [f], lsn := x.lsn + 1
          blocks := (t.prt6 p.val).blocks, owed := [], ackDue := none, nacks := [] }
      ∧ SameBut State.prt6 p.val s t ∧ t = { s with port := t.port })
  ∧ (∀ (p : PortId) (s : State), (s.prt6 p.val).usable = true → (s.prt6 p.val).restripe = false →
    Completes (.packetTransmit p) s fun t =>
      let x := s.prt6 p.val
      (∃ b : List CtlBlock, (t.prt6 p.val).blocks = x.blocks ++ b
        ∧ (∀ l, CtlBlock.ack l ∈ b ↔ x.ackDue = some l) ∧ (∀ l, CtlBlock.nack l ∈ b ↔ l ∈ x.nacks)
        ∧ ∀ l, CtlBlock.credits l ∈ b ↔ l = x.owed ∧ l ≠ [])
      ∧ (t.prt6 p.val).owed = [] ∧ (t.prt6 p.val).ackDue = none ∧ (t.prt6 p.val).nacks = []
      ∧ (x.pick = none → (t.prt6 p.val).txq = x.txq ∧ (t.prt6 p.val).wire = x.wire ∧ (t.prt6 p.val).lsn = x.lsn))
  ∧ (∀ (p : PortId) (ch n : Nat) (l : W32) (s : State), (s.prt6 p.val).usable = true →
    Completes (.linkCreditBlock p [(ch, n)] (some l)) s fun t =>
      SMap.get 0 (t.prt6 p.val).used ch = SMap.get 0 (s.prt6 p.val).used ch - n
      ∧ (∀ f, f ∈ (t.prt6 p.val).replay ↔ f ∈ (s.prt6 p.val).replay ∧ seqLe f.lsn l = false)
      ∧ (t.prt6 p.val).txq = (s.prt6 p.val).txq ∧ (t.prt6 p.val).wire = (s.prt6 p.val).wire
      ∧ SameBut State.prt6 p.val s t ∧ t = { s with port := t.port })
  ∧ (∀ (p : PortId) (l : W32) (s : State), (s.prt6 p.val).usable = true →
    (∃ f ∈ (s.prt6 p.val).replay, seqLe l f.lsn = true) → Completes (.linkNack p l) s fun t =>
      (t.prt6 p.val).wire = (s.prt6 p.val).wire ++ (s.prt6 p.val).replay.filter (fun f => seqLe l f.lsn)
      ∧ (t.prt6 p.val).replay = (s.prt6 p.val).replay ∧ (t.prt6 p.val).crcRetry = satInc (s.prt6 p.val).crcRetry
      ∧ SameBut State.prt6 p.val s t ∧ t = { s with port := t.port })
  ∧ (∀ (p : PortId) (l : W32) (s : State), (s.prt6 p.val).usable = true → Completes (.crcFail p l) s fun t =>
      t.prt6 p.val = { s.prt6 p.val with
        nacks := (s.prt6 p.val).nacks ++ [l], fecUncorr := satInc (s.prt6 p.val).fecUncorr }
      ∧ SameBut State.prt6 p.val s t ∧ t = { s with port := t.port })

/-- O30. VC_CFG is taken only while the port is DOWN, link context registers only while the context is not IN. While
the port is DOWN a VC_CFG of a weight of at least 1 whose shares stay within 65,536 credits with at least 65 a
class is stored, and otherwise it is refused with bit 5 of the port page. A write of JOB_ORIGIN, JOB_EXTENT or
the collective queue's size and COLL_SEM for a context that is not IN is stored for the selected context alone;
while it is IN the write of JOB_ORIGIN is refused with LINKS bit 0. That a weight of 0 is refused is the model's
reading (Table LK.9). -/
def Obligations.ChannelAndContextRegistersOfTheLinks : Prop :=
  (∀ (p : PortId) (vc : Fin 8) (v : W32) (s : State), s.canWrite (pgPort p.val) = true →
    Completes (.vcCfgWrite p vc v) s fun t =>
      let cr := v.toNat % 2 ^ 17
      let w := v.toNat / 2 ^ 20 % 16
      let sum := ((List.range 8).map fun i => if i = vc.val then cr else ((s.prt6 p.val).vcOf i).credits).sum
      if (s.prt6 p.val).st = .down ∧ sum ≤ 65536 ∧ 65 ≤ cr / 2 ∧ w ≠ 0 then
        (t.prt6 p.val).vcOf vc.val = { credits := cr, weight := w }
        ∧ (∀ u, u ≠ vc.val → (t.prt6 p.val).vcOf u = (s.prt6 p.val).vcOf u)
        ∧ SameBut State.prt6 p.val s t ∧ t = { s with port := t.port }
      else Stands t (pgPort p.val) 5 ∧ AlarmOnly s t)
  ∧ (∀ (off : BitVec 12) (v : W32) (s : State), s.canWrite pgLinks = true →
    (s.ctx s.sel.lkCtx.toNat).st ≠ .resident → Completes (.lkCtxRegWrite off v) s fun t =>
      (off = 0x054 → t.lkc s.sel.lkCtx.toNat = { s.lkc s.sel.lkCtx.toNat with jobOrigin := v.setWidth 12 })
      ∧ (off = 0x058 → t.lkc s.sel.lkCtx.toNat = { s.lkc s.sel.lkCtx.toNat with jobExtent := v.setWidth 12 })
      ∧ (off = 0x064 → t.lkc s.sel.lkCtx.toNat = { s.lkc s.sel.lkCtx.toNat with
            collqLog := v.setWidth 4, collSem := (v >>> 16).setWidth 14 })
      ∧ SameBut State.lkc s.sel.lkCtx.toNat s t ∧ t = { s with lkC := t.lkC })
  ∧ (∀ (v : W32) (s : State), s.canWrite pgLinks = true → (s.ctx s.sel.lkCtx.toNat).st = .resident →
    s.action pgLinks 0 ≠ 2 → Completes (.lkCtxRegWrite 0x054 v) s fun t => Stands t pgLinks 0 ∧ AlarmOnly s t)

/-- O31. A WRITE or MIRROR packet stores at the place it names alone; a packet not admitted is discarded. A WRITE
that is taken and names HBM pages its destination context may write, unguarded, stores exactly its payload
there, adds 1 to the semaphore it names when it asks to and the context owns it, and every other byte of HBM
reads as before; one that names owned cluster memory of an IN context, its cluster not in SERVICE, stores there
alone; one that fails the check stores nothing. A MIRROR stores only inside the partner reserve. In each case
the credits are owed back and nothing but the queues of the ports changes besides, and what the Strongroom notes
of written bytes. A write or a MIRROR to a guarded page waits at its port (R266, log 58) and stores nothing yet.
A write to cluster memory waits there too while its context is not IN (log 55) or its cluster is in SERVICE (log
53); both waits are the model's. A packet of a reserved type that the port takes is discarded with bit 3 of the
port page. So is one for this device that no filter entry admits, whatever its type (heartbeats apart):
FILTER_DROP counts it, and where its type is one that R230 refuses and its sender has a route, a REFUSAL with
TS_PARTITION for a deposit and else LK_FILTER goes back. One that is admitted for a context that is STOPPED,
UNUSED, SCRUBBING or FAULTED is discarded and counted in DROP_FAULTED, but for a deposit and a CREDIT_REQUEST;
that request is refused with TS_PARTITION. -/
def Obligations.RemoteWritesLandWhereTheyMay : Prop :=
  (∀ (p : PortId) (k : Packet) (a : Nat) (s : State), Arrives s p k 1 → k.target.toNat % 4 = 2 →
    k.target.toNat / 8192 = a → s.hbmCheck k.dstCtx.toNat a k.payload.length true false = none →
    s.guarded a k.payload.length = false →
    (bit k.aux.toNat 14 = true → s.semOf (k.aux.toNat % 2 ^ 14) k.dstCtx = true) →
    Completes (.linkWrite p k) s fun t =>
      t.hbm.readBytes a k.payload.length = k.payload ∧ BytesBut a k.payload.length s.hbm t.hbm
      ∧ (if bit k.aux.toNat 14 then
          (t.sem (k.aux.toNat % 2 ^ 14)).value = (s.sem (k.aux.toNat % 2 ^ 14)).value + 1
          ∧ SameBut State.sem (k.aux.toNat % 2 ^ 14) s t else t.sems = s.sems)
      ∧ Owes s t p k
      ∧ NotesOnly { s with hbm := t.hbm, sems := t.sems, port := t.port, links := t.links } t)
  ∧ (∀ (p : PortId) (k : Packet) (s : State), Arrives s p k 1 → k.target.toNat % 4 = 2 →
    s.guarded (k.target.toNat / 8192) k.payload.length = true → Completes (.linkWrite p k) s fun t =>
      k ∈ (t.prt6 p.val).rxq ∧ SameBut State.prt6 p.val s t ∧ t = { s with port := t.port })
  ∧ (∀ (p : PortId) (k : Packet) (s : State), Arrives s p k 1 → k.target.toNat % 4 = 1 →
    ((s.ctx k.dstCtx.toNat).st ≠ .resident ∨ s.cluShut (bits k.target.toNat 12 2) = true) →
    Completes (.linkWrite p k) s fun t =>
      k ∈ (t.prt6 p.val).rxq ∧ SameBut State.prt6 p.val s t ∧ t = { s with port := t.port })
  ∧ (∀ (p : PortId) (k : Packet) (cl : ClId) (o : Nat) (s : State), Arrives s p k 1 → k.target.toNat % 4 = 1 →
    cl = BitVec.ofNat 11 (bits k.target.toNat 12 2) → o = k.target.toNat / 8192 →
    (s.ctx k.dstCtx.toNat).st = .resident → s.cluShut cl.toNat = false →
    s.locCheck k.dstCtx (.clu cl o) k.payload.length true = none →
    bit k.aux.toNat 14 = false → Completes (.linkWrite p k) s fun t =>
      (t.clu cl.toNat).mem.readBytes o k.payload.length = k.payload
      ∧ BytesBut o k.payload.length (s.clu cl.toNat).mem (t.clu cl.toNat).mem
      ∧ t.clu cl.toNat = { s.clu cl.toNat with mem := (t.clu cl.toNat).mem } ∧ SameBut State.clu cl.toNat s t
      ∧ Owes s t p k ∧ t = { s with cls := t.cls, port := t.port, links := t.links })
  ∧ (∀ (p : PortId) (k : Packet) (f : U16) (s : State), Arrives s p k 1 → k.target.toNat % 4 = 2 →
    s.hbmCheck k.dstCtx.toNat (k.target.toNat / 8192) k.payload.length true false = some f →
    s.guarded (k.target.toNat / 8192) k.payload.length = false →
    Completes (.linkWrite p k) s fun t => Owes s t p k ∧ t = { s with port := t.port, links := t.links })
  ∧ (∀ (p : PortId) (k : Packet) (a : Nat) (s : State), Arrives s p k 9 → k.target.toNat % 4 = 2 →
    k.target.toNat / 8192 = a → Completes (.mirror p k) s fun t =>
      if s.inReserve a k.payload.length = false then Owes s t p k ∧ t = { s with port := t.port, links := t.links }
      else if s.guarded a k.payload.length = true then
        k ∈ (t.prt6 p.val).rxq ∧ SameBut State.prt6 p.val s t ∧ t = { s with port := t.port }
      else Owes s t p k ∧ t.hbm.readBytes a k.payload.length = k.payload ∧ BytesBut a k.payload.length s.hbm t.hbm
        ∧ NotesOnly { s with hbm := t.hbm, port := t.port, links := t.links } t)
  ∧ (∀ (p : PortId) (k : Packet) (s : State), LinkTakes s p k → k.ty.toNat ∈ [0, 12, 13, 14] →
    Completes (.reservedPacketDiscard p k) s fun t =>
      Owes s t p k ∧ Stands t (pgPort p.val) 3 ∧ SameBut State.prt6 p.val s t ∧ AlarmOnly { s with port := t.port } t)
  ∧ (∀ (p : PortId) (k : Packet) (i : Instr) (s : State), packetRow p k = some i → LinkTakes s p k → k.dst = s.devId →
    (s.prt6 p.val).admits k = false → Completes i s fun t =>
      Owes s t p k ∧ (t.prt6 p.val).filterDrop = satInc (s.prt6 p.val).filterDrop ∧ Stands t (pgPort p.val) 3
      ∧ AlarmOnly { s with port := t.port, links := t.links } t
      ∧ (refusedType k.ty.toNat = false → t.links = s.links ∧ SameBut State.prt6 p.val s t)
      ∧ (refusedType k.ty.toNat = true → s.remapped k.src ≠ s.devId → ∀ q dt, s.route (s.remapped k.src) = some (q, dt) →
          ∃ r : Packet, (t.prt6 q).txq = (s.prt6 q).txq ++ [r] ∧ r.ty = 4 ∧ r.dst = s.remapped k.src ∧ r.dstCtx = k.srcCtx
            ∧ r.srcCtx = k.dstCtx ∧ r.target = pktHead k ∧ r.aux = if k.ty = 2 then 0x0202 else 0x0402))
  ∧ (∀ (p : PortId) (k : Packet) (i : Instr) (s : State), packetRow p k = some i → LinkTakes s p k → k.dst = s.devId →
    (s.prt6 p.val).admits k = true → k.ty ≠ 2 → k.ty ≠ 11 → (s.ctx k.dstCtx.toNat).st.deaf = true → Completes i s fun t =>
      t = { s.given p k with links := { s.links with dropFaulted := satInc s.links.dropFaulted } })
  ∧ (∀ (p : PortId) (k : Packet) (q : Nat) (dt : Bool) (s : State), k.ty = 11 → LinkTakes s p k → k.dst = s.devId →
    (s.prt6 p.val).admits k = true → (s.ctx k.dstCtx.toNat).st.deaf = true → s.remapped k.src ≠ s.devId →
    s.route (s.remapped k.src) = some (q, dt) → Completes (.creditRequest p k) s fun t =>
      (∃ r : Packet, (t.prt6 q).txq = (s.prt6 q).txq ++ [r] ∧ r.ty = 4 ∧ r.dst = s.remapped k.src ∧ r.dstCtx = k.srcCtx
        ∧ r.aux = 0x0202) ∧ t = { s with port := t.port })

/-- O32. A REFUSAL faults the sending context with its code; the last ACK completes a remote write. A REFUSAL that
is taken faults the context it names with the code it carries, and changes no other context, memory, semaphore
or page ownership; one of a MIRROR packet faults its context only where the filter refused it (LK_FILTER), and
while the partner's tier is the active one that tier is lost. An ACK that is taken for the command a DMA engine
waits on leaves one packet less to await, and with none left the engine's command is done; no other cluster
changes. One of number 0, which no command has, leaves the context one MIRROR packet less to await (log 54). -/
def Obligations.RefusalsFaultAndAcksComplete : Prop :=
  (∀ (p : PortId) (k : Packet) (s : State), Arrives s p k 4 →
    (k.target.toNat % 16 ≠ 9 → Completes (.refusal p k) s fun t => Faulted s t k.dstCtx (k.aux.setWidth 16))
    ∧ (k.target.toNat % 16 = 9 → k.aux.setWidth 16 = 0x0402#16 → Completes (.refusal p k) s fun t =>
        (t.ctx k.dstCtx.toNat).st = .scrubbing ∧ (t.ctx k.dstCtx.toNat).lastFault = 0x0402 ∧ SameBut State.ctx k.dstCtx.toNat s t
        ∧ t.nv = s.nv ∧ (s.sg.tierActive = 1 → 1 ∈ t.sg.lost))
    ∧ (k.target.toNat % 16 = 9 → k.aux.setWidth 16 ≠ 0x0402#16 → Completes (.refusal p k) s fun t =>
        t.ctxs = s.ctxs ∧ t.nv = s.nv ∧ (s.sg.tierActive = 1 → 1 ∈ t.sg.lost)
        ∧ (s.sg.tierActive ≠ 1 → t = { s with port := t.port })))
  ∧ (∀ (p : PortId) (k : Packet) (cl : Nat) (s : State), Arrives s p k 10 →
    s.ackWaiter k.dstCtx (k.target.setWidth 32) = some cl → Completes (.linkAck p k) s fun t =>
      t.clu cl = { s.clu cl with
        dleft := (s.clu cl).dleft - 1, dwait := decide (1 < (s.clu cl).dleft), ddone := decide ((s.clu cl).dleft ≤ 1) }
      ∧ SameBut State.clu cl s t ∧ t.ctxs = s.ctxs ∧ t = { s with cls := t.cls, port := t.port })
  ∧ (∀ (p : PortId) (k : Packet) (s : State), Arrives s p k 10 → k.target = 0 → s.ackWaiter k.dstCtx 0 = none →
    Completes (.linkAck p k) s fun t =>
      t.sgc k.dstCtx.toNat = { s.sgc k.dstCtx.toNat with acks := (s.sgc k.dstCtx.toNat).acks - 1 }
      ∧ SameBut State.sgc k.dstCtx.toNat s t ∧ t = { s with sgC := t.sgC, port := t.port })

/-- O33. A heartbeat is stored and resets silence; lag and silence are raised after their counts. A heartbeat of 64
bytes that the link layer gives on leaves its PACE and flags as HB_LAST, ends silence, and counts one more slow
heartbeat when a job peer's PACE is below 95 % of the own PACE and none otherwise. After 100 slow heartbeats
PEER_LAG is set and bit 2 of the port page raised; after 10 windows without one from a job peer PEER_SILENT is
set and bit 4 raised. That the next heartbeat clears PEER_SILENT is the model's reading (log 19). -/
def Obligations.HeartbeatsTellLagAndSilence : Prop :=
  (∀ (p : PortId) (k : Packet) (s : State), k.ty = 15 → LinkTakes s p k →
    k.payload.length = 64 → Completes (.heartbeat p k) s fun t =>
      (t.prt6 p.val).hbLast.toNat = leNat ((k.payload.drop 4).take 4) % 2 ^ 20
      ∧ (t.prt6 p.val).silentRun = 0 ∧ (t.prt6 p.val).peerSilent = false
      ∧ (t.prt6 p.val).lagRun = (if (s.prt6 p.val).jobBits ≠ []
          ∧ 100 * (leNat ((k.payload.drop 4).take 4) % 65536) < 95 * s.pace1 then (s.prt6 p.val).lagRun + 1 else 0)
      ∧ (t.prt6 p.val).txq = (s.prt6 p.val).txq ∧ SameBut State.prt6 p.val s t ∧ t = { s with port := t.port })
  ∧ (∀ (p : PortId) (s : State), 100 ≤ (s.prt6 p.val).lagRun → (s.prt6 p.val).peerLag = false →
    Completes (.peerLag p) s fun t => t.prt6 p.val = { s.prt6 p.val with peerLag := true }
      ∧ Stands t (pgPort p.val) 2 ∧ SameBut State.prt6 p.val s t ∧ AlarmOnly { s with port := t.port } t)
  ∧ (∀ (p : PortId) (s : State), (s.prt6 p.val).usable = true → 10 ≤ (s.prt6 p.val).silentRun →
      (s.prt6 p.val).jobBits ≠ [] →
      (s.prt6 p.val).peerSilent = false → Completes (.peerSilent p) s fun t =>
      t.prt6 p.val = { s.prt6 p.val with peerSilent := true }
      ∧ Stands t (pgPort p.val) 4 ∧ SameBut State.prt6 p.val s t ∧ AlarmOnly { s with port := t.port } t)

/-- O34. A credit request is answered with the partition's C; a return updates the shadows that wait for it. A
CREDIT_REQUEST for a valid partition that takes deposits lists the requesting pair with the present C and queues
one CREDIT_RETURN carrying C, the slots, the segments, the mode and K on the way back. A CREDIT_RETURN that is
taken gives exactly the shadows of its own context that name the sending device, die and context the C, slots,
segments, mode and K it carries, and no longer asked; no other partition, slot or token changes. -/
def Obligations.CreditFollowsTheRequest : Prop :=
  (∀ (p : PortId) (k : Packet) (q : Nat) (dt : Bool) (s : State), Arrives s p k 11 →
    let die := bits k.target.toNat 34 32
    let c := k.dstCtx.toNat
    (s.prt die c).valid = true → (s.prt die c).refusing = false → s.diePowered die = true → s.unitOn 0 = true →
    (s.prt die c).geo.segs < 1024 → (s.prt die c).geo.k < 512 →
    s.remapped k.src ≠ s.devId → s.route (s.remapped k.src) = some (q, dt) →
    Completes (.creditRequest p k) s fun t =>
      (k.src, k.srcCtx, BitVec.ofNat 32 (s.prt die c).c64.toNat) ∈ (t.prt die c).pairs
      ∧ (∃ r : Packet, (t.prt6 q).txq = (s.prt6 q).txq ++ [r] ∧ r.ty = 3 ∧ r.dst = s.remapped k.src
          ∧ r.dstCtx = k.srcCtx ∧ r.target.toNat % 2 ^ 32 = (s.prt die c).c64.toNat % 2 ^ 32
          ∧ bits r.target.toNat 34 32 = die ∧ bits r.aux.toNat 15 0 = (s.prt die c).geo.slots % 2 ^ 16
          ∧ bits r.aux.toNat 25 16 = (s.prt die c).geo.segs ∧ bits r.aux.toNat 27 26 = (s.prt die c).geo.mode.toNat
          ∧ bits r.aux.toNat 36 28 = (s.prt die c).geo.k)
      ∧ t.prt die c = { s.prt die c with pairs := (t.prt die c).pairs }
      ∧ SameBut State.tdie die s t ∧ t = { s with td := t.td, port := t.port })
  ∧ (∀ (p : PortId) (k : Packet) (s : State), Arrives s p k 3 → Completes (.creditReturn p k) s fun t =>
      t = { s with td := t.td, port := t.port } ∧ Owes s t p k
      ∧ (∀ d, t.tdie d = { s.tdie d with part := (t.tdie d).part }
        ∧ (∀ c, c ≠ k.dstCtx.toNat → t.prt d c = s.prt d c)
        ∧ t.prt d k.dstCtx.toNat = { s.prt d k.dstCtx.toNat with shadow := (t.prt d k.dstCtx.toNat).shadow }
        ∧ (t.prt d k.dstCtx.toNat).shadow.length = (s.prt d k.dstCtx.toNat).shadow.length
        ∧ ∀ h ∈ (t.prt d k.dstCtx.toNat).shadow,
            if h.dev = k.src ∧ h.ctx = k.srcCtx ∧ h.die.toNat = bits k.target.toNat 34 32
            then h.c = some (k.target.setWidth 32) ∧ h.asked = false ∧ h.slots = bits k.aux.toNat 15 0
              ∧ h.segs = bits k.aux.toNat 25 16 ∧ h.mode.toNat = bits k.aux.toNat 27 26 ∧ h.k = bits k.aux.toNat 36 28 else h ∈ (s.prt d k.dstCtx.toNat).shadow))

/-- O35. A collective starts from its descriptor and ends with its result stored and its semaphore signalled. With a
unit to start, none running, no Hold and a context that is IN, or OUT with no operand in cluster memory, a
descriptor that reads, parses and passes its checks, whose source list and sources need no wait and whose next
positions of the ring have a route, starts: one more has started, one unit less waits, the running collective is
the descriptor's, and nothing outside the links changes. A collective whose result is complete, whose semaphore
the context owns and whose destination it may write stores the result's bytes at DST (ALL_REDUCE_MINT stores
none) and adds ADDEND to the semaphore; none runs then. That DST lies in the source's space, HBM or cluster
memory, is the model's reading (log 57), as is that a result for a cluster in SERVICE waits (log 53). A result
is complete when every element of it is there and every partial that is this position's to pass on has been
passed on. When a wait in one direction, of the collective or of the control reduction, exceeds its limit the
context faults STRAGGLER, naming the port and the device that it waits for (that each counts its own waits is
log 89). -/
def Obligations.CollectivesStartAndFinish : Prop :=
  (∀ (c : CtxId) (x : Coll) (s : State),
    let a := (s.lkc c.toNat).collqBase.toNat + (s.lkc c.toNat).started % 2 ^ (s.lkc c.toNat).collqLog.toNat * 128
    (s.lkc c.toNat).units ≠ 0 → (s.lkc c.toNat).coll = none → s.bursar.hold = false →
    ((s.ctx c.toNat).st = .resident ∨ ((s.ctx c.toNat).st = .out ∧ x.clusters = [])) → s.hbmWait a 128 = false → s.collListWaits c a = false →
    s.hbmCheck c.toNat a 128 false false = none → s.parseColl c a = .ok x → s.collWait x = false →
    s.collCheck c x = none →
    (∀ i, i = (x.pos + 1) % x.n ∨ (x.bidir = true ∧ i = (x.pos + x.n - 1) % x.n) →
      s.remapped (x.devs.getD i 0) = s.devId ∨ (s.route (s.remapped (x.devs.getD i 0))).isSome = true) →
    Completes (.collStart c) s fun t =>
      (∃ y, t.lkc c.toNat = { s.lkc c.toNat with
          started := (s.lkc c.toNat).started + 1, units := (s.lkc c.toNat).units - 1, coll := some y }
        ∧ x = { y with res := x.res, got := x.got, sent := x.sent })
      ∧ SameBut State.lkc c.toNat s t ∧ t = { s with lkC := t.lkC, port := t.port, links := t.links })
  ∧ (∀ (c : CtxId) (x : Coll) (a : Nat) (s : State), (s.lkc c.toNat).coll = some x → x.complete = true → x.op ≠ 4 →
    x.dstLoc = .hbm a → s.guarded a x.bytes.length = false → s.semOf x.doneSem.toNat c = true →
    s.hbmCheck c.toNat a x.bytes.length true false = none → Completes (.collDone c) s fun t =>
      t.hbm.readBytes a x.bytes.length = x.bytes ∧ BytesBut a x.bytes.length s.hbm t.hbm
      ∧ (t.sem x.doneSem.toNat).value = (s.sem x.doneSem.toNat).value + x.addend ∧ SameBut State.sem x.doneSem.toNat s t
      ∧ (t.lkc c.toNat).coll = none ∧ (t.lkc c.toNat).collDone = (s.lkc c.toNat).collDone + 1
      ∧ SameBut State.lkc c.toNat s t ∧ NotesOnly { s with hbm := t.hbm, sems := t.sems, lkC := t.lkC } t)
  ∧ (∀ (c : CtxId) (x : Coll) (cl : ClId) (o : Nat) (s : State), (s.lkc c.toNat).coll = some x → x.complete = true → x.op ≠ 4 →
    x.dstLoc = .clu cl o → s.cluShut cl.toNat = false → s.semOf x.doneSem.toNat c = true →
    s.locCheck c (.clu cl o) x.bytes.length true = none → Completes (.collDone c) s fun t =>
      (t.clu cl.toNat).mem.readBytes o x.bytes.length = x.bytes
      ∧ BytesBut o x.bytes.length (s.clu cl.toNat).mem (t.clu cl.toNat).mem
      ∧ t.clu cl.toNat = { s.clu cl.toNat with mem := (t.clu cl.toNat).mem } ∧ SameBut State.clu cl.toNat s t
      ∧ (t.sem x.doneSem.toNat).value = (s.sem x.doneSem.toNat).value + x.addend ∧ SameBut State.sem x.doneSem.toNat s t
      ∧ (t.lkc c.toNat).coll = none ∧ (t.lkc c.toNat).collDone = (s.lkc c.toNat).collDone + 1
      ∧ SameBut State.lkc c.toNat s t ∧ t = { s with cls := t.cls, sems := t.sems, lkC := t.lkC })
  ∧ (∀ (c : CtxId) (x : Coll) (s : State), (s.lkc c.toNat).coll = some x → x.complete = true → x.op = 4 →
    s.semOf x.doneSem.toNat c = true → Completes (.collDone c) s fun t =>
      (t.sem x.doneSem.toNat).value = (s.sem x.doneSem.toNat).value + x.addend ∧ SameBut State.sem x.doneSem.toNat s t
      ∧ (t.lkc c.toNat).coll = none ∧ SameBut State.lkc c.toNat s t ∧ t = { s with sems := t.sems, lkC := t.lkC })
  ∧ (∀ (w : LateHalf) (p : Nat) (d : DevId) (s : State), s.awaited w = some (p, d) →
      ((s.ctx w.ctx.toNat).st = .resident ∨ (s.ctx w.ctx.toNat).st = .out) → Completes (.straggler w) s fun t =>
      FaultedAt s t w.ctx 0x0401 (p + d.toNat * 256))

/-- O36. A chunk is combined with the own values and finished at its owner; a control word is combined on its axis.
In the reduce part a chunk that is the position's own finishes here: each element becomes the WIRE rounding of
the received value plus the own value, in a reduce-scatter with nothing further sent. Another chunk of the
reduce part, in one packet, goes on to the next position of its direction with the step after, each element that
rounding of the sum, and is noted as passed on. Where an own value is read from HBM in error the context faults
MEM_UE and names its address (log 28). In the gather part at the last hop each element of the chunk is stored as
received, and nothing is sent. A CTRL_REDUCE word for the present, last axis of a running reduction is combined
by the operation it carries, counted on the side of the neighbour that sent it (or, from neither, of its port:
log 20), and sent on the way it travels exactly while it has further to go; done is set exactly when both sides
are complete. One for another axis, for a reduction not yet begun, or from a side that has all its words is kept
with its side, axis and operation. No memory or semaphore changes. -/
def Obligations.RingStepsCombineAndForward : Prop :=
  (∀ (p : PortId) (k : Packet) (x : Coll) (s : State), Arrives s p k 5 → (s.lkc k.dstCtx.toNat).coll = some x →
    x.number = k.target.setWidth 16 → k.payload.length % (if x.wire32 then 4 else 2) = 0 → x.op = 1 →
    bits k.target.toNat 31 16 + 1 < x.n → k.aux.toNat % 4096 = x.pos → s.chunkWaits k.dstCtx x true = false →
    s.ownBad x (k.target.toNat / 2 ^ 32) (chunkVals x.wire32 k.payload).length = none →
    Completes (.collChunk p k) s fun t =>
      let vs := chunkVals x.wire32 k.payload
      let first := k.target.toNat / 2 ^ 32
      t = { s.given p k with lkC := t.lkC } ∧ SameBut State.lkc k.dstCtx.toNat s t
      ∧ ∃ y, (t.lkc k.dstCtx.toNat).coll = some y ∧ x = { y with res := x.res, got := x.got }
        ∧ ∀ i (h : i < vs.length), SMap.get false y.got (first + i) = true
          ∧ Words.get y.res (first + i) = toWire x.wire32 (fadd (ofWire x.wire32 vs[i]) (s.ownVal x (first + i))))
  ∧ (∀ (p : PortId) (k : Packet) (x : Coll) (q : Nat) (dt : Bool) (s : State), Arrives s p k 5 →
    (s.lkc k.dstCtx.toNat).coll = some x → x.number = k.target.setWidth 16 →
    k.payload.length % (if x.wire32 then 4 else 2) = 0 → bits k.target.toNat 31 16 + 1 < x.n → k.aux.toNat % 4096 ≠ x.pos →
    s.chunkWaits k.dstCtx x true = false →
    let vs := chunkVals x.wire32 k.payload
    let first := k.target.toNat / 2 ^ 32
    let d := s.remapped (x.devs.getD (if (x.half first).2.2 then (x.pos + x.n - 1) % x.n else (x.pos + 1) % x.n) 0)
    s.ownBad x first vs.length = none → vs ≠ [] → vs.length ≤ 1024 → d ≠ s.devId → s.route d = some (q, dt) →
    Completes (.collChunk p k) s fun t =>
      t = { s.given p k with lkC := t.lkC, port := t.port } ∧ SameBut State.lkc k.dstCtx.toNat s t
      ∧ (∃ y, (t.lkc k.dstCtx.toNat).coll = some y ∧ x = { y with passed := x.passed }
        ∧ ∀ i, SMap.get false y.passed i = (SMap.get false x.passed i || (decide (first ≤ i) && decide (i < first + vs.length))))
      ∧ ∃ w : Packet, t.port = ((s.given p k).modPort q fun z => z.queue w).port ∧ w.ty = 5 ∧ w.vc = 5 ∧ w.dst = d
        ∧ w.dstCtx = k.dstCtx ∧ w.step = x.step ∧ w.aux.toNat = k.aux.toNat % 4096
        ∧ w.target = BitVec.ofNat 64 (x.number.toNat + (bits k.target.toNat 31 16 + 1) * 2 ^ 16 + first * 2 ^ 32)
        ∧ w.payload = (vs.zipIdx.map fun v => leBytes (if x.wire32 then 4 else 2)
            (toWire x.wire32 (fadd (ofWire x.wire32 v.1) (s.ownVal x (first + v.2)))).toNat).flatten)
  ∧ (∀ (p : PortId) (k : Packet) (x : Coll) (a : Nat) (s : State), Arrives s p k 5 → (s.lkc k.dstCtx.toNat).coll = some x →
    x.number = k.target.setWidth 16 → k.payload.length % (if x.wire32 then 4 else 2) = 0 →
    bits k.target.toNat 31 16 + 1 < x.n → s.chunkWaits k.dstCtx x true = false →
    s.ownBad x (k.target.toNat / 2 ^ 32) (chunkVals x.wire32 k.payload).length = some a →
    (s.ctx k.dstCtx.toNat).st = .resident ∨ (s.ctx k.dstCtx.toNat).st = .out →
    Completes (.collChunk p k) s fun t => FaultedAt s t k.dstCtx 0x0501 a)
  ∧ (∀ (p : PortId) (k : Packet) (x : Coll) (s : State), Arrives s p k 5 → (s.lkc k.dstCtx.toNat).coll = some x →
    x.number = k.target.setWidth 16 → k.payload.length % (if x.wire32 then 4 else 2) = 0 → x.op ≠ 4 →
    x.n ≤ bits k.target.toNat 31 16 + 1 → 2 * x.n ≤ bits k.target.toNat 31 16 + 3 → s.bursar.hold = false →
    Completes (.collChunk p k) s fun t =>
      let vs := chunkVals x.wire32 k.payload
      let first := k.target.toNat / 2 ^ 32
      t = { s.given p k with lkC := t.lkC } ∧ SameBut State.lkc k.dstCtx.toNat s t
      ∧ ∃ y, (t.lkc k.dstCtx.toNat).coll = some y ∧ x = { y with res := x.res, got := x.got }
        ∧ ∀ i (h : i < vs.length), SMap.get false y.got (first + i) = true ∧ Words.get y.res (first + i) = vs[i])
  ∧ (∀ (p : PortId) (k : Packet) (r : Reduce) (s : State), Arrives s p k 8 → (s.lkc k.dstCtx.toNat).red = some r →
    r.axis = 2 → r.done = false → k.target.toNat % 4 = 2 → (s.prt6 4).st ≠ .down → (s.prt6 5).st ≠ .down →
    s.peerOf 4 = s.neighbour 4 → s.peerOf 5 = s.neighbour 5 →
    s.sideFull k.dstCtx r (s.ctlWord p.val k) = false →
    ∀ (n sm : Bool), (n = true ↔ k.src = s.peerOf 5 ∨ (k.src ≠ s.peerOf 4 ∧ p.val % 2 = 1)) →
    (sm = true ↔ bits k.target.toNat 3 2 = 1) → Completes (.ctrlReduce p k) s fun t =>
      let f := if n then 4 else 5
      t = { s.given p k with lkC := t.lkC, port := t.port } ∧ SameBut State.lkc k.dstCtx.toNat s t
      ∧ (if (if n then s.goesUp (s.lkc k.dstCtx.toNat) 2 (r.gotN + 1) else s.goesDown (s.lkc k.dstCtx.toNat) 2 (r.gotP + 1)) = true then
          ∃ w : Packet, t.port = ((s.given p k).modPort f fun x => x.queue w).port ∧ w.ty = 8 ∧ w.dst = s.neighbour f
            ∧ w.dstCtx = k.dstCtx ∧ w.aux = (k.aux.setWidth 32).setWidth 64 ∧ w.target.toNat = 2 + 4 * sm.toNat
         else t.port = (s.given p k).port)
      ∧ ∃ y, (t.lkc k.dstCtx.toNat).red = some y
        ∧ y.acc = (if sm then r.acc + k.aux.setWidth 32 else r.acc ||| k.aux.setWidth 32)
        ∧ y.gotN = r.gotN + n.toNat ∧ y.gotP = r.gotP + (!n).toNat
        ∧ (y.done = true ↔ y.gotN = s.fromN (s.lkc k.dstCtx.toNat) 2 ∧ y.gotP = s.fromP (s.lkc k.dstCtx.toNat) 2))
  ∧ (∀ (p : PortId) (k : Packet) (s : State), Arrives s p k 8 →
    (∀ r, (s.lkc k.dstCtx.toNat).red = some r →
      r.axis ≠ k.target.toNat % 4 ∨ r.done = true ∨ s.sideFull k.dstCtx r (s.ctlWord p.val k) = true) →
    Completes (.ctrlReduce p k) s fun t =>
      let a := k.target.toNat % 4
      (∃ n : Bool, (t.lkc k.dstCtx.toNat).early = (s.lkc k.dstCtx.toNat).early
            ++ [(n, a, decide (bits k.target.toNat 3 2 = 1), k.aux.setWidth 32)]
          ∧ (n = true ↔ k.src = s.peerOf (2 * a + 1) ∨ (k.src ≠ s.peerOf (2 * a) ∧ p.val % 2 = 1)))
      ∧ t.lkc k.dstCtx.toNat = { s.lkc k.dstCtx.toNat with early := (t.lkc k.dstCtx.toNat).early }
      ∧ SameBut State.lkc k.dstCtx.toNat s t ∧ t = { s with lkC := t.lkC, port := t.port })

/-- O37. CAP is clamped, takes effect at the next PACE window close, and starts as CAP_DEFAULT. A write within 600
to 3,200 W stores the value and clears CAP_CLAMPED; one outside stores the nearer limit, sets CAP_CLAMPED and
raises BURSAR bit 0. The cap in force does not change with the write; it is CAP after the next PACE window close
in READY. At each de-assertion of PERST# CAP is CAP_DEFAULT's value. -/
def Obligations.CapTakesEffectAtTheWindow : Prop :=
  (∀ (v : W32) (s : State), s.canWrite pgBursar = true → 600 ≤ v.toNat % 4096 → v.toNat % 4096 ≤ 3200 →
    Completes (.capWrite v) s fun t =>
      t = { s with bursar := { s.bursar with cap := v.setWidth 12, capClamped := false } })
  ∧ (∀ (v : W32) (s : State), s.canWrite pgBursar = true → (v.toNat % 4096 < 600 ∨ 3200 < v.toNat % 4096) →
    Completes (.capWrite v) s fun t =>
      t.bursar.cap = (if v.toNat % 4096 < 600 then 600 else 3200) ∧ t.bursar.capClamped = true
      ∧ t.bursar.capIn = s.bursar.capIn ∧ Stands t pgBursar 0)
  ∧ (∀ (w : WindowIn) (s : State), s.boot.stage = 7 → Completes (.paceWindowClose w) s fun t =>
      t.bursar.capIn = s.bursar.cap ∧ t.bursar.cap = s.bursar.cap ∧ t.bursar.capClamped = s.bursar.capClamped)
  ∧ (∀ s : State, s.boot.perst = true → s.boot.tripped = false → Completes .perstDeassert s fun t =>
      t.bursar.cap = (s.cell 0).val.setWidth 12)

/-- O38. CREATE, START, STOP, RESET and DESTROY move the selected context as Table CS.3 says. CREATE makes an UNUSED
context STOPPED with its sequence numbers, statistics and numerics registers at reset and no Census count left
of an earlier one. START checks the cluster table: with every check passed the context is OUT under the checked
table, else it stays STOPPED with CMD_REJECT and START_ERR naming the first failed check. STOP of an OUT context
makes it STOPPED and asks an IN one to leave; RESET makes a FAULTED or STOPPED one STOPPED with its partitions
taking deposits again; DESTROY makes it UNUSED, its semaphores invalid and its Ledger entries free, its pages
still owned. In any other state CMD_REJECT is set and nothing else changes (log 10). -/
def Obligations.ContextCommandsMoveBetweenStates : Prop :=
  (∀ s : State, s.canWrite pgClear = true → (s.ctx s.sel.csCtx.toNat).st = .unused → Completes .ctxCreate s fun t =>
    let c := s.sel.csCtx.toNat
    (t.ctx c).st = .stopped ∧ (t.ctx c).acceptSeq = 0 ∧ (t.ctx c).completeSeq = 0 ∧ (t.ctx c).tail = 0
    ∧ (t.ctx c).cplWritten = 0 ∧ (t.ctx c).faults = 0 ∧ (t.ctx c).ringBase = (s.ctx c).ringBase
    ∧ (t.ctx c).cltabBase = (s.ctx c).cltabBase ∧ t.nums c = {} ∧ SameBut State.ctx c s t ∧ SameBut State.nums c s t
    ∧ (∀ k, SMap.get 0 t.census k = if k / 512 % 4096 = c then 0 else SMap.get 0 s.census k)
    ∧ t = { s with ctxs := t.ctxs, num := t.num, census := t.census, sg := { s.sg with adds := s.sg.adds.filter (·.1 ≠ c) } })
  ∧ (∀ s : State, s.canWrite pgClear = true → (s.ctx s.sel.csCtx.toNat).st ≠ .unused → Completes .ctxCreate s fun t =>
    let c := s.sel.csCtx.toNat
    t.ctx c = { s.ctx c with cmdReject := true } ∧ SameBut State.ctx c s t ∧ t = { s with ctxs := t.ctxs })
  ∧ (∀ s : State, s.canWrite pgClear = true → (s.ctx s.sel.csCtx.toNat).st ≠ .stopped → Completes .ctxStart s fun t =>
    let c := s.sel.csCtx.toNat
    t.ctx c = { s.ctx c with cmdReject := true } ∧ SameBut State.ctx c s t ∧ t = { s with ctxs := t.ctxs })
  ∧ (∀ s : State, s.canWrite pgClear = true → (s.ctx s.sel.csCtx.toNat).st = .stopped →
      s.action pgClear 0 ≠ 2 → Completes .ctxStart s fun t =>
      let c := s.sel.csCtx.toNat
      SameBut State.ctx c s t ∧ t.nv = s.nv ∧ t.hbm = s.hbm
      ∧ (if s.startErr c = 0 then (t.ctx c).st = .out ∧ (t.ctx c).cltab = s.table c ∧ (t.ctx c).cmdReject = false
          ∧ t = { s with ctxs := t.ctxs, sched := { s.sched with clock := t.sched.clock } }
         else (t.ctx c).st = .stopped ∧ (t.ctx c).cmdReject = true ∧ (t.ctx c).startErr = s.startErr c
          ∧ Stands t pgClear 0))
  ∧ (∀ s : State, s.canWrite pgClear = true → Completes .ctxStop s fun t =>
      let c := s.sel.csCtx.toNat
      SameBut State.ctx c s t ∧ t = { s with ctxs := t.ctxs }
      ∧ ((s.ctx c).st = .out → (t.ctx c).st = .stopped ∧ (t.ctx c).cmdReject = false)
      ∧ ((s.ctx c).st = .resident → (t.ctx c).st = .resident ∧ (t.ctx c).preemptReq = true ∧ (t.ctx c).stopReq = true)
      ∧ ((s.ctx c).st ≠ .out → (s.ctx c).st ≠ .resident → t.ctx c = { s.ctx c with cmdReject := true }))
  ∧ (∀ s : State, s.canWrite pgClear = true → Completes .ctxReset s fun t =>
      let c := s.sel.csCtx.toNat
      SameBut State.ctx c s t
      ∧ (if (s.ctx c).st = .faulted ∨ (s.ctx c).st = .stopped then
          (t.ctx c).st = .stopped ∧ (∀ d, (t.prt d c) = { s.prt d c with refusing := false })
          ∧ (∀ d e, e ≠ c → t.prt d e = s.prt d e) ∧ t = { s with ctxs := t.ctxs, td := t.td }
         else t.ctx c = { s.ctx c with cmdReject := true } ∧ t = { s with ctxs := t.ctxs }))
  ∧ (∀ s : State, s.canWrite pgClear = true → Completes .ctxDestroy s fun t =>
      let c := s.sel.csCtx.toNat
      if (s.ctx c).st = .faulted ∨ (s.ctx c).st = .stopped then
        (t.ctx c).st = .unused ∧ (∀ i, (t.sem i).owner.toNat = c → (t.sem i).valid = false)
        ∧ (∀ i, (s.lgc c).entFirst ≤ i → i < (s.lgc c).entFirst + (s.lgc c).entCount → t.ent i = {})
        ∧ t.pot = s.pot ∧ t.hbm = s.hbm ∧ t.nv = s.nv
      else t.ctx c = { s.ctx c with cmdReject := true } ∧ SameBut State.ctx c s t ∧ t = { s with ctxs := t.ctxs })

/-- O39. Definition registers, doorbells, semaphore owners and page ownership take the values that are allowed. A
definition register of the selected context is stored while it is UNUSED or STOPPED (shown for the priority,
class and JOB word and for the ring sizes, each from 6 to 16), and refused with CLEARINGHOUSE bit 0 otherwise. A
tail at most a ring ahead of ACCEPT_SEQ and a head not past the last record written are stored for that context
alone; others are refused with bit 0 of its doorbell page. SEM_OWNER sets owner and VALID of the selected
semaphore. POT_DATA sets the entry of a page that may be set; a page given another OWNER reads zero in all its
bytes and no other byte of HBM changes, or, while an epoch protects it, waits to be zeroed; with the same OWNER
no byte changes; an entry whose owner is resident is not given away, and bit 3 is raised. A staging page that
holds a page of an epoch and is given away ends that epoch, which is due again. That, and that a page is zeroed
at the write itself, whatever its VALID bit, are readings of the model (log 96). -/
def Obligations.DefinitionsDoorbellsAndOwnership : Prop :=
  (∀ (v : W32) (s : State), s.canWrite pgClear = true →
    ((s.ctx s.sel.csCtx.toNat).st = .unused ∨ (s.ctx s.sel.csCtx.toNat).st = .stopped) →
    Completes (.ctxDefinitionWrite 0x04C v) s (fun t =>
      t.ctx s.sel.csCtx.toNat = { s.ctx s.sel.csCtx.toNat with priority := v.setWidth 4, legacy := bit v.toNat 4
                                                               exclusive := bit v.toNat 5, job := (v >>> 16).setWidth 16 }
      ∧ SameBut State.ctx s.sel.csCtx.toNat s t ∧ t = { s with ctxs := t.ctxs })
    ∧ Completes (.ctxDefinitionWrite 0x058 v) s (fun t =>
      if 6 ≤ v.toNat % 32 ∧ v.toNat % 32 ≤ 16 ∧ 6 ≤ v.toNat / 256 % 32 ∧ v.toNat / 256 % 32 ≤ 16 then
        (t.ctx s.sel.csCtx.toNat).ringN.toNat = v.toNat % 32 ∧ (t.ctx s.sel.csCtx.toNat).ringM.toNat = v.toNat / 256 % 32
        ∧ SameBut State.ctx s.sel.csCtx.toNat s t ∧ t = { s with ctxs := t.ctxs }
      else Stands t pgClear 0))
  ∧ (∀ (off : BitVec 12) (v : W32) (s : State), s.canWrite pgClear = true → 0x04C ≤ off.toNat → off.toNat ≤ 0x074 →
    off.toNat % 4 = 0 → (s.ctx s.sel.csCtx.toNat).st ≠ .unused → (s.ctx s.sel.csCtx.toNat).st ≠ .stopped →
    s.action pgClear 0 ≠ 2 →
    Completes (.ctxDefinitionWrite off v) s fun t => Stands t pgClear 0 ∧ AlarmOnly s t)
  ∧ (∀ (c : CtxId) (v : W32) (s : State), s.canWrite (pgDoor c.toNat) = true → (s.ctx c.toNat).st ≠ .unused →
    Completes (.dbTailWrite c v) s (fun t =>
      if (v - (s.ctx c.toNat).acceptSeq).toNat ≤ 2 ^ (s.ctx c.toNat).ringN.toNat then
        t.ctx c.toNat = { s.ctx c.toNat with tail := v } ∧ SameBut State.ctx c.toNat s t ∧ t = { s with ctxs := t.ctxs }
      else Stands t (pgDoor c.toNat) 0 ∧ AlarmOnly s t)
    ∧ Completes (.cplHeadWrite c v) s (fun t =>
      if (v - (s.ctx c.toNat).cplHead).toNat ≤ ((s.ctx c.toNat).cplWritten - (s.ctx c.toNat).cplHead).toNat then
        t.ctx c.toNat = { s.ctx c.toNat with cplHead := v } ∧ SameBut State.ctx c.toNat s t ∧ t = { s with ctxs := t.ctxs }
      else Stands t (pgDoor c.toNat) 0 ∧ AlarmOnly s t))
  ∧ (∀ (v : W32) (s : State), s.canWrite pgClear = true → Completes (.semOwnerWrite v) s fun t =>
      t.sem s.sel.sem.toNat = { s.sem s.sel.sem.toNat with owner := v.setWidth 12, valid := bit v.toNat 12 }
      ∧ SameBut State.sem s.sel.sem.toNat s t
      ∧ ((∀ k ∈ s.sched.sync, k.waiting = false) → t = { s with sems := t.sems }))
  ∧ (∀ (v : W32) (s : State), s.canWrite pgClear = true → s.action pgClear 3 ≠ 2 →
    Completes (.potDataWrite v) s fun t =>
      let p := s.sel.pot.toNat
      if s.settable p = true ∧ s.ownerHeld p v.toNat = false then
        t.page p = v.toNat % 2 ^ 15 ∧ SameBut State.page p s t
        ∧ (if v.toNat % 4096 = s.page p % 4096 then t = { s with pot := t.pot }
           else (∀ e ∈ s.sgC, ∀ x, e.2.epoch = some x → ∀ y ∈ x.staged, e.2.stageBase.toNat / 65536 + y.2 ≠ p) →
            if s.protectedPage p = true then
             p ∈ t.sg.scrub ∧ t = { s with pot := t.pot, sg := { s.sg with scrub := t.sg.scrub } }
           else NotesOnly { s with pot := t.pot, hbm := t.hbm } t
             ∧ ∀ a, t.hbm.read a = if p * 65536 ≤ a ∧ a < p * 65536 + 65536 then 0 else s.hbm.read a)
      else Stands t pgClear 3 ∧ AlarmOnly s t)
  ∧ (∀ (v : W32) (c : CtxId) (x : Epoch) (s : State), s.canWrite pgClear = true →
    let p := s.sel.pot.toNat
    s.settable p = true → s.ownerHeld p v.toNat = false → v.toNat % 4096 ≠ s.page p % 4096 →
    (s.sgc c.toNat).epoch = some x → (∃ y ∈ x.staged, (s.sgc c.toNat).stageBase.toNat / 65536 + y.2 = p) →
    Completes (.potDataWrite v) s fun t =>
      t.page p = v.toNat % 2 ^ 15 ∧ SameBut State.page p s t ∧ (t.sgc c.toNat).epoch = none ∧ (t.sgc c.toNat).due = true
      ∧ t.ctxs = s.ctxs ∧ t.nv = s.nv)

/-- O40. The next announced command is accepted, or faults its context. With the context IN, a tail ahead of
ACCEPT_SEQ, a token free and the host port up, the command in the next slot of the ring is the next of the
sequence: one whose CMD_SEQ is its number and whose image has no reserved value or bit is accepted (ACCEPT_SEQ
is its number, it stands queued at the end of the sequence, a token is taken); one with another CMD_SEQ faults
BAD_SEQ, one with a reserved value or bit BAD_OP, one with a reserved value of a MATMUL whose table names it
BAD_FORMAT, and one that names a Till entry or a byte of cluster memory which the context does not own
BAD_ADDRESS with that address in DETAIL; that order, and which addresses the image alone gives, are the model's
choice (logs 27, 100 and 113). No other context changes. The host's stores come first (log 4). -/
def Obligations.CommandsAreAcceptedInOrder : Prop :=
  ∀ (c : CtxId) (h : HostStores) (s : State),
    let u := s.hostStores h
    let x := s.ctx c.toNat
    let q := x.acceptSeq + 1
    let i := u.ringImage x q
    x.st = .resident → seqLt x.acceptSeq x.tail = true → s.sched.tokens < 65536 → s.boot.hostUp = true →
    Completes (.commandAccept c h) s fun t =>
      if cSeq i ≠ q then Faulted u t c 0x0005
      else if imageBad i = true then Faulted u t c 0x0001
      else match u.acceptFault (cmdOf c q i) with
      | some f => FaultedAt u t c f.1 f.2
      | none => (t.ctx c.toNat).acceptSeq = q ∧ t.sched.tokens = s.sched.tokens + 1
        ∧ (∃ f, (t.ctx c.toNat).flight.getLast? = some f ∧ f.seq = q ∧ f.img = i ∧ f.phase = .queued)
        ∧ (t.ctx c.toNat).recs = x.recs ∧ SameBut State.ctx c.toNat s t
        ∧ t = { s with host := Mem.stores s.host h, ctxs := t.ctxs
                       sched := { s.sched with clock := t.sched.clock, tokens := t.sched.tokens } }

/-- O41. A free slot of an engine takes the ready head of the highest effective priority, the earliest accepted
among equals. Among the ready heads for an engine with a free slot, the one that goes before every other (higher
effective priority, then earlier acceptance) is dispatched: it is marked dispatched in its context, and stands
last in the engine's queue (of a cluster, of a Touchstone, or of the device); when the command meets a dispatch
fault its context faults with that code instead, the address of one that the context does not own in DETAIL (log
27); which of several faults is reported is log 100, the model's choice. No other context changes. -/
def Obligations.DispatchTakesTheFirstByPriority : Prop :=
  ∀ (e : Engine) (c : Nat) (f : Flight) (s : State), s.slotOpen e = true → c < 4096 → (c, f) ∈ s.heads e →
    (∀ g ∈ s.heads e, g ≠ (c, f) → s.eff g.1 < s.eff c
      ∨ (s.eff g.1 = s.eff c ∧ f.acc < g.2.acc)) →
    (∀ code a, s.dispatchFault (BitVec.ofNat 12 c) f = some (code, a) → Completes (.commandDispatch e) s fun t =>
      (s.ctx c).st = .resident → FaultedAt s t (BitVec.ofNat 12 c) code a)
    ∧ (s.dispatchFault (BitVec.ofNat 12 c) f = none → Completes (.commandDispatch e) s fun t =>
      let q : QE := { ctx := BitVec.ofNat 12 c, seq := f.seq, img := f.img, issued := false, acc := f.acc }
      (∀ g ∈ (t.ctx c).flight, g.seq = f.seq → g.phase = .dispatched) ∧ SameBut State.ctx c s t
      ∧ t = { s with ctxs := t.ctxs, cls := t.cls, td := t.td, sched := t.sched } ∧ t.sched.tokens = s.sched.tokens
      ∧ match e with
        | .matrix cl => t.clu cl.toNat = { s.clu cl.toNat with mq := (s.clu cl.toNat).mq ++ [{ q := q }] }
        | .vector cl => t.clu cl.toNat = { s.clu cl.toNat with vq := (s.clu cl.toNat).vq ++ [q] }
        | .dma cl => t.clu cl.toNat = { s.clu cl.toNat with dq := (s.clu cl.toNat).dq ++ [q] }
        | .teller cl => t.clu cl.toNat = { s.clu cl.toNat with callq := (s.clu cl.toNat).callq ++ [q] }
        | .touch d => (t.tdie d.val).tq = (s.tdie d.val).tq ++ [q]
        | .sync => t.sched.sync = s.sched.sync ++ [{ q := q, waiting := false, age := 0 }]
        | .mint => t.sched = { s.sched with update := s.sched.update ++ [q] } ∧ t.cls = s.cls ∧ t.td = s.td
        | .bursar => t.sched = { s.sched with hint := s.sched.hint ++ [q] } ∧ t.cls = s.cls ∧ t.td = s.td
        | .cheap _ => t.sched = { s.sched with cheap := s.sched.cheap ++ [q] } ∧ t.cls = s.cls ∧ t.td = s.td
        | .strongroom => t.sched = { s.sched with ckpt := s.sched.ckpt ++ [q] } ∧ t.cls = s.cls ∧ t.td = s.td
        | .ledger => t.sched = { s.sched with seq := s.sched.seq ++ [q] } ∧ t.cls = s.cls ∧ t.td = s.td
        | .eval => t.sched = { s.sched with eval := s.sched.eval ++ [q] } ∧ t.cls = s.cls ∧ t.td = s.td)

/-- O42. An engine that is done completes its command, and the oldest waiting record goes to the completion ring. A
matrix, vector, Teller or DMA command that is done, its context IN and nothing of it outstanding, leaves its
engine and completes: its token is freed, its record joins the record buffer if it asked for one (or the command
waits for a place there, log 92), a context that has run a CHEAP there is noted to have gone on since, and a
MATMUL or DMA command with LANDING_RELEASE releases the filled slots of its context's landing ring that the
ranges it read overlap (RELEASE_IDX is then the oldest filled slot, or FILL_IDX where none is); no other ring,
cluster, or context changes. The oldest waiting record of a context is written as 32 bytes into the next slot of
its ring when the ring has room and the host port is up, and every other byte of host memory reads as before;
the oldest record that found the buffer full then takes the place, and its command completes. -/
def Obligations.EnginesCompleteAndRecordsAreWritten : Prop :=
  (∀ (cl : ClId) (k : Nat) (m : MxRun) (s : State), (s.clu cl.toNat).mq[k]? = some m → m.done = true →
    (s.ctx m.q.ctx.toNat).st = .resident → cCluster m.q.img = cl →
    Completes (.commandComplete (.matrix cl) k) s fun t =>
      Finishes s t m.q 0
      ∧ (∀ j, t.clu j = { s.clu j with
          mq := if j = cl.toNat then dropAt (s.clu j).mq k else (s.clu j).mq, per := (t.clu j).per })
      ∧ LeftBy s t cl m.q ∧ t = { s with cls := t.cls, ctxs := t.ctxs, sched := t.sched })
  ∧ (∀ (cl : ClId) (q : QE) (rest : List QE) (r : VecRun) (k : Nat) (s : State), (s.clu cl.toNat).vq = q :: rest →
    (s.clu cl.toNat).vrun = some r → r.done = true → (s.ctx q.ctx.toNat).st = .resident →
    (∀ j ∈ (s.clu cl.toNat).tally, j.ctx ≠ q.ctx) → cCluster q.img = cl →
    Completes (.commandComplete (.vector cl) k) s fun t =>
      Finishes s t q 0
      ∧ (∀ j, t.clu j = { s.clu j with
          vq := if j = cl.toNat then rest else (s.clu j).vq, vrun := if j = cl.toNat then none else (s.clu j).vrun
          per := (t.clu j).per })
      ∧ LeftBy s t cl q ∧ t = { s with cls := t.cls, ctxs := t.ctxs, sched := t.sched })
  ∧ (∀ (cl : ClId) (k : Nat) (q : QE) (rest : List QE) (s : State), (s.clu cl.toNat).dq = q :: rest →
    (s.clu cl.toNat).ddone = true → (s.ctx q.ctx.toNat).st = .resident → cCluster q.img = cl →
    Completes (.commandComplete (.dma cl) k) s fun t =>
      Finishes s t q 0
      ∧ (∀ j, t.clu j = { s.clu j with
          dq := if j = cl.toNat then rest else (s.clu j).dq, ddone := if j = cl.toNat then false else (s.clu j).ddone
          per := (t.clu j).per })
      ∧ LeftBy s t cl q ∧ t = { s with cls := t.cls, ctxs := t.ctxs, sched := t.sched })
  ∧ (∀ (cl : ClId) (k : Nat) (x : Tel) (s : State), (s.clu cl.toNat).tel = some x → x.ended = true →
    (s.ctx x.q.ctx.toNat).st = .resident → (∀ n < 3, s.issuedOn cl x.q n = 0) → cCluster x.q.img = cl →
    Completes (.commandComplete (.teller cl) k) s fun t =>
      Finishes s t x.q 0
      ∧ (∀ j, t.clu j = { s.clu j with tel := if j = cl.toNat then none else (s.clu j).tel, per := (t.clu j).per })
      ∧ LeftBy s t cl x.q ∧ t = { s with cls := t.cls, ctxs := t.ctxs, sched := t.sched })
  ∧ (∀ (c : CtxId) (r : Rec) (rest : List Rec) (s : State), (s.ctx c.toNat).recs = r :: rest →
    ((s.ctx c.toNat).cplWritten - (s.ctx c.toNat).cplHead).toNat < 2 ^ (s.ctx c.toNat).ringM.toNat → s.boot.hostUp = true →
    Completes (.completionRecordWrite c) s fun t =>
      let x := s.ctx c.toNat
      let n := x.cplWritten + 1
      let a := x.cplBase.toNat + n.toNat % 2 ^ x.ringM.toNat * 32
      t.host.readBytes a 32 = leBytes 4 n.toNat ++ leBytes 4 r.cmd.toNat ++ leBytes 4 r.kind.toNat ++ leBytes 2 r.code.toNat
        ++ leBytes 2 r.unit.toNat ++ leBytes 8 r.detail.toNat ++ leBytes 8 r.time.toNat
      ∧ BytesBut a 32 s.host t.host ∧ (r.irq = false → t.irq = s.irq)
      ∧ t = { s with host := t.host, ctxs := t.ctxs, irq := t.irq, sched := { s.sched with tokens := t.sched.tokens } }
      ∧ (∀ j, j ≠ c.toNat → (∀ e q, x.late.head? = some e → e.q = some q → q.ctx.toNat ≠ j) → t.ctx j = s.ctx j)
      ∧ (x.late = [] ∨ 16 ≤ rest.length →
          t.ctx c.toNat = { x with recs := rest, cplWritten := n } ∧ t.sched = s.sched)
      ∧ (∀ e l, x.late = e :: l → rest.length < 16 →
          (e.q = none → t.ctx c.toNat = { x with recs := rest ++ [e.record], late := l, cplWritten := n } ∧ t.sched = s.sched)
          ∧ (∀ q, e.q = some q → q.ctx = c →
            (t.ctx c.toNat).recs = rest ++ [{ e.record with time := s.devTime }] ∧ (t.ctx c.toNat).late = l
            ∧ (t.ctx c.toNat).cplWritten = n ∧ t.sched.tokens = s.sched.tokens - 1
            ∧ (q.issued = false → ∀ f ∈ (t.ctx c.toNat).flight, f.seq = q.seq → f.phase = .completed))))

/-- O43. SYNC and EVAL: a signal adds, a wait ends when met, EVAL opens and closes its window, CHEAP names the live
set. The context's first SIGNAL that no FENCE holds, by the owner of a valid semaphore, adds its addend to that
semaphore alone, starts as many collectives where that is the context's COLL_SEM, and completes. A WAIT_GE on a
valid semaphore of a context with the same JOB, and a WAIT_CMD, complete at once when their condition holds and
otherwise wait with nothing else changed but inherited priorities; a wait whose condition has come to hold
completes. EVAL BEGIN completes at its place, EVAL END once every earlier command has completed; at the first
place of the sequence, with the next command not complete, BEGIN leaves the window open and END leaves it
closed. CHEAP, once no earlier command of the context on its cluster is outstanding, stores the 128-byte live
set and completes. -/
def Obligations.SyncSignalsAndWaits : Prop :=
  (∀ (c : CtxId) (k : SyncCmd) (s : State), s.signalHead c = some k → (s.ctx c.toNat).st = .resident →
    (s.sem (syncSem k.q.img)).valid = true → (s.sem (syncSem k.q.img)).owner = c →
    Completes (.signal c) s fun t =>
      (t.sem (syncSem k.q.img)).value = (s.sem (syncSem k.q.img)).value + w32 k.q.img 0x18
      ∧ SameBut State.sem (syncSem k.q.img) s t ∧ Finishes s t k.q 0
      ∧ (t.lkc c.toNat).units = (if (s.lkc c.toNat).collSem.toNat = syncSem k.q.img ∧ 4 ≤ (s.lkc c.toNat).collqLog.toNat then
          (s.lkc c.toNat).units + (w32 k.q.img 0x18).toNat else (s.lkc c.toNat).units)
      ∧ t.sched.sync = s.sched.sync.filter (fun x => x.q ≠ k.q)
      ∧ t = { s with sems := t.sems, lkC := t.lkC, ctxs := t.ctxs, sched := t.sched })
  ∧ (∀ (c : CtxId) (k : SyncCmd) (s : State),
    s.sched.sync.find? (fun x => x.q.ctx = c && fld x.q.img 0x10 2 0 == 1 && !x.waiting) = some k →
    (s.ctx c.toNat).st = .resident → (s.sem (syncSem k.q.img)).valid = true →
    (s.ctx (s.sem (syncSem k.q.img)).owner.toNat).job = (s.ctx c.toNat).job → Completes (.waitGe c) s fun t =>
      if ((s.sem (syncSem k.q.img)).value - w32 k.q.img 0x18).toNat < 2 ^ 31 then
        Finishes s t k.q 0 ∧ t = { s with ctxs := t.ctxs, sched := t.sched }
      else ∃ u, InheritOnly u t ∧ u = { s with sched := t.sched } ∧ t.sched.tokens = s.sched.tokens
        ∧ (∀ x ∈ t.sched.sync, x.q = k.q → x.waiting = true) ∧ t.sched.sync.map (·.q) = s.sched.sync.map (·.q))
  ∧ (∀ (c : CtxId) (k : SyncCmd) (s : State),
    s.sched.sync.find? (fun x => x.q.ctx = c && fld x.q.img 0x10 2 0 == 2 && !x.waiting) = some k →
    (s.ctx c.toNat).st = .resident → Completes (.waitCmd c) s fun t =>
      if seqLe (w32 k.q.img 0x1C) (s.ctx k.q.ctx.toNat).completeSeq = true then
        Finishes s t k.q 0 ∧ t = { s with ctxs := t.ctxs, sched := t.sched }
      else ∃ u, InheritOnly u t ∧ u = { s with sched := t.sched } ∧ t.sched.tokens = s.sched.tokens
        ∧ (∀ x ∈ t.sched.sync, x.q = k.q → x.waiting = true) ∧ t.sched.sync.map (·.q) = s.sched.sync.map (·.q))
  ∧ (∀ (c : CtxId) (seq : W32) (k : SyncCmd) (s : State),
    s.sched.sync.find? (fun x => x.q.ctx = c && x.q.seq = seq && x.waiting) = some k → s.syncMet k.q = true →
    Completes (.syncWaitSatisfied c seq) s fun t =>
      ∃ u, InheritOnly u t ∧ Finishes s u k.q 0 ∧ u = { s with ctxs := u.ctxs, sched := u.sched }
        ∧ u.sched.sync = s.sched.sync.filter (fun x => x.q ≠ k.q))
  ∧ (∀ (c : CtxId) (q : QE) (s : State), s.evalHead c true = some q → (s.ctx c.toNat).st = .resident →
    Completes (.evalBegin c) s fun t => Finishes s t q 0 ∧ t.sched.eval = s.sched.eval.filter (· ≠ q)
      ∧ WindowAt s t q true ∧ t = { s with ctxs := t.ctxs, sched := t.sched })
  ∧ (∀ (c : CtxId) (q : QE) (s : State), s.evalHead c false = some q → (s.ctx c.toNat).st = .resident →
    (s.ctx c.toNat).completeSeq = q.seq - 1 → Completes (.evalEnd c) s fun t =>
      Finishes s t q 0 ∧ t.sched.eval = s.sched.eval.filter (· ≠ q) ∧ WindowAt s t q false
      ∧ t = { s with ctxs := t.ctxs, sched := t.sched })
  ∧ (∀ (c : CtxId) (cl : ClId) (q : QE) (s : State), s.sched.cheap.find? (fun q => q.ctx = c && cCluster q.img = cl) = some q →
    (s.ctx c.toNat).st = .resident →
    (∀ g ∈ (s.ctx c.toNat).earlier q.seq, namesCluster g.img ≠ some cl) →
    s.ownsIn c cl (fld q.img 0x10 15 0 * 128) 128 = true → Completes (.cheap c cl) s fun t =>
      Finishes s t q 0 ∧ ((t.clu cl.toNat).pc c.toNat).cheap = true ∧ ((t.clu cl.toNat).pc c.toNat).ran = false
      ∧ ((t.clu cl.toNat).pc c.toNat).live = (s.clu cl.toNat).mem.readN (fld q.img 0x10 15 0 * 128) 128
      ∧ t.clu cl.toNat = { s.clu cl.toNat with per := (t.clu cl.toNat).per } ∧ SameBut State.clu cl.toNat s t
      ∧ t = { s with cls := t.cls, ctxs := t.ctxs, sched := t.sched })

/-- O44. Swap-in, pre-emption, saving and eviction move a context between OUT, LOADING, IN and SAVING. A runnable
context with work that nothing stands in the way of becomes LOADING, and IN when its restore ends, once every
die's token table has room for the entries that come back (log 106), with what was saved used up and a RESUMED
event waiting; a saved command that names a failed unit faults it UNIT_FAIL, a saved packet without a route
LK_UNREACH (both at the restore's end: logs 42, 87). A pre-emption request is met by SAVING at a cheap point,
or, when the time is over, by a forced save that is counted and raises CLEARINGHOUSE bit 2. When every IN
context is blocked and an OUT one can run, the one that has waited longest is SAVING (that an idle context
counts as blocked, and how long a wait lasts, is the model's reading: logs 43, 99). A save that ends leaves the
context OUT (STOPPED when the driver asked), none of its commands in a cluster's queues, and the events
FORCED_SAVE, for a forced one, then PREEMPTED; an event that finds the record buffer full waits for a place (log
92). Of the contexts that one contest pre-empts (R185), the one of lower effective priority, then the one
resumed most recently, goes first: another stays as it is while such a one is IN. Nothing is pre-empted or
evicted in Hold. Other contexts change in their inherited priority alone. That a STOP writes no event is the
model's reading (Table CS.3). -/
def Obligations.ContextsSwapInAndOut : Prop :=
  (∀ (c : CtxId) (s : State), s.boot.stage = 7 → s.runnable c.toNat = true → s.hasWork c.toNat = true →
    s.outranked c.toNat = false → s.wayFree c.toNat = true →
    Completes (.swapIn c) s fun t => (t.ctx c.toNat).st = .loading ∧ t = { s with ctxs := t.ctxs }
      ∧ ∀ d, d ≠ c.toNat → t.ctx d = { s.ctx d with inherit := (t.ctx d).inherit })
  ∧ (∀ (c : CtxId) (q : QE) (s : State), (s.ctx c.toNat).st = .loading → s.savedFailed c = some q →
    Completes (.swapInDone c) s fun t => Faulted s t c 0x0504)
  ∧ (∀ (c : CtxId) (s : State), (s.ctx c.toNat).st = .loading → s.savedFailed c = none →
    ((s.ctx c.toNat).cltab.all fun d => (s.clu d.cl.toNat).canRejoin ((s.ctx c.toNat).savedOf d.cl)) = true →
    (s.tokRoom (s.ctx c.toNat).savedTok = false → Completes (.swapInDone c) s fun t => t = s)
    ∧ (s.tokRoom (s.ctx c.toNat).savedTok = true →
    s.rangesFault c (s.loadRanges c) false = none → (∀ r ∈ s.loadRanges c, s.hbmWait r.1 r.2 = false) →
    ((∃ k ∈ (s.ctx c.toNat).savedTx, k.dst ≠ s.devId ∧ (s.route k.dst).isSome = false) → Completes (.swapInDone c) s fun t =>
      (t.ctx c.toNat).st = .scrubbing ∧ (t.ctx c.toNat).lastFault = 0x0403 ∧ t.hbm = s.hbm ∧ t.nv = s.nv)
    ∧ ((∀ k ∈ (s.ctx c.toNat).savedTx, k.dst = s.devId ∨ (s.route k.dst).isSome = true) →
    (∀ d, ∀ o ∈ (s.prt d c.toNat).teacher, o.2.dev = s.devId) → Completes (.swapInDone c) s fun t =>
      (t.ctx c.toNat).st = .resident ∧ (t.ctx c.toNat).saved = []
      ∧ Records s t c none (fun r => r.kind = 2 ∧ r.code = 2)
      ∧ (∀ d, d ≠ c.toNat → t.ctx d = { s.ctx d with inherit := (t.ctx d).inherit })
      ∧ t.hbm = s.hbm ∧ t.nv = s.nv ∧ t.sems = s.sems)))
  ∧ (∀ (c : CtxId) (s : State), (s.ctx c.toNat).st = .resident → (s.ctx c.toNat).preemptReq = true →
    s.meetsTest c = false → s.bursar.hold = false → s.leavesLater c.toNat = false →
    (s.atCheap c = true → Completes (.cheapPointSave c) s fun t => (t.ctx c.toNat).st = .saving
      ∧ (t.ctx c.toNat).preemptReq = false ∧ (t.ctx c.toNat).forcedSaves = (s.ctx c.toNat).forcedSaves
      ∧ SameBut State.ctx c.toNat s t ∧ t = { s with ctxs := t.ctxs, cls := t.cls })
    ∧ (s.atCheap c = false → s.action pgClear 2 ≠ 2 → Completes (.preemptTimeout c) s fun t =>
        (t.ctx c.toNat).st = .saving ∧ (t.ctx c.toNat).forcedSaves = (s.ctx c.toNat).forcedSaves + 1
        ∧ Stands t pgClear 2 ∧ SameBut State.ctx c.toNat s t ∧ AlarmOnly { s with ctxs := t.ctxs, cls := t.cls } t))
  ∧ (∀ (c : CtxId) (k d : Nat) (s : State), d ≠ c.toNat → (d, s.ctx d) ∈ s.ctxs → (s.ctx d).st = .resident →
    k ∈ (s.ctx d).askedBy → k ∈ (s.ctx c.toNat).askedBy → (s.ctx c.toNat).stopReq = false →
    (s.eff d < s.eff c.toNat ∨ (s.eff d = s.eff c.toNat ∧ (s.ctx c.toNat).resumedNo < (s.ctx d).resumedNo)) →
    Completes (.cheapPointSave c) s (fun t => t = s) ∧ Completes (.preemptTimeout c) s (fun t => t = s))
  ∧ (∀ (c : CtxId) (s : State), s.bursar.hold = true → Completes (.cheapPointSave c) s (fun t => t = s)
    ∧ Completes (.preemptTimeout c) s (fun t => t = s) ∧ Completes .eviction s (fun t => t = s))
  ∧ (∀ (c : CtxId) (s : State), (s.ctx c.toNat).st = .saving → s.copyOut c = false → s.collHolds c = false →
    s.rangesFault c (s.saveRanges c) true = none → (∀ r ∈ s.saveRanges c, s.guarded r.1 r.2 = false) → Completes (.saveDone c) s fun t =>
      (t.ctx c.toNat).st = (if (s.ctx c.toNat).stopReq then .stopped else .out)
      ∧ (∀ d ∈ (s.ctx c.toNat).cltab, (∀ m ∈ (t.clu d.cl.toNat).mq, m.q.ctx ≠ c) ∧ (∀ q ∈ (t.clu d.cl.toNat).vq, q.ctx ≠ c)
          ∧ (∀ q ∈ (t.clu d.cl.toNat).dq, q.ctx ≠ c) ∧ (∀ q ∈ (t.clu d.cl.toNat).callq, q.ctx ≠ c))
      ∧ (t.ctx c.toNat).preempts = (if (s.ctx c.toNat).stopReq then (s.ctx c.toNat).preempts else (s.ctx c.toNat).preempts + 1)
      ∧ (∃ l m : List Rec, (t.ctx c.toNat).recs = (s.ctx c.toNat).recs ++ l
          ∧ (t.ctx c.toNat).late = (s.ctx c.toNat).late ++ m.map (fun r => { q := none, record := r })
          ∧ (m = [] ∨ 16 ≤ (s.ctx c.toNat).recs.length + l.length) ∧ (l = [] ∨ (s.ctx c.toNat).recs.length + l.length ≤ 16)
          ∧ ((l ++ m).map fun r => (r.kind.toNat, r.code.toNat))
            = (if (s.ctx c.toNat).forced then [(2, 3)] else []) ++ (if (s.ctx c.toNat).stopReq then [] else [(2, 1)]))
      ∧ (∀ d, d ≠ c.toNat → t.ctx d = { s.ctx d with inherit := (t.ctx d).inherit }) ∧ t.nv = s.nv ∧ t.sems = s.sems)
  ∧ (∀ (k : Nat) (s : State), k < 4096 →
      s.longest ((s.ctxs.filter fun p => p.2.st = .resident).map Prod.fst) = some k →
      ((s.ctxs.filter fun p => p.2.st = .resident).map Prod.fst).all (fun c => s.blocked (BitVec.ofNat 12 c)) = true →
      (s.ctxs.any fun p => s.runnable p.1 && s.hasWork p.1) = true → s.meetsTest (BitVec.ofNat 12 k) = false →
      s.bursar.hold = false → Completes .eviction s fun t => (t.ctx k).st = .saving ∧ SameBut State.ctx k s t
        ∧ t = { s with ctxs := t.ctxs, cls := t.cls })

/-- O45. A fault stops and scrubs its own context and no other. A fault of a context that is IN, LOADING, SAVING or
OUT makes it SCRUBBING, discards its commands in every queue and its unsent packets (which ones: log 87), counts
one fault and raises CLEARINGHOUSE bit 1; no other context, and no memory, semaphore or page ownership, changes.
Of the records that wait for a place in the record buffer those of events stay, and those of commands, which are
not complete, are discarded with them (R180; log 92). When the scrub ends (what a self-test moved out of its
clusters is back first, log 53) the context is FAULTED with its one fault record waiting, COMPLETE_SEQ equals
ACCEPT_SEQ, the owned cluster memory of an IN context reads zero, its partitions are empty, and no other context
changes. That HBM keeps the bytes of an abandoned update is the model's reading (log 25). -/
def Obligations.FaultsTearDownTheirContextAlone : Prop :=
  (∀ (c : CtxId) (code : U16) (detail : W64) (cmd : W32) (unit : U16) (s : State),
    ((s.ctx c.toNat).st = .resident ∨ (s.ctx c.toNat).st = .loading ∨ (s.ctx c.toNat).st = .saving ∨ (s.ctx c.toNat).st = .out) →
    Completes (.contextFault c code detail cmd unit) s fun t =>
      Faulted s t c code ∧ (t.ctx c.toNat).faults = (s.ctx c.toNat).faults + 1 ∧ Stands t pgClear 1
      ∧ (t.ctx c.toNat).late = (s.ctx c.toNat).late.filter (fun e => e.q.isNone)
      ∧ (∃ r, (t.ctx c.toNat).faultRec = some r ∧ r.kind = 1 ∧ r.code = code ∧ r.detail = detail ∧ r.cmd = cmd ∧ r.unit = unit)
      ∧ (∀ cl, (∀ m ∈ (t.clu cl).mq, m.q.ctx ≠ c) ∧ (∀ q ∈ (t.clu cl).vq, q.ctx ≠ c) ∧ (∀ q ∈ (t.clu cl).dq, q.ctx ≠ c)
          ∧ (t.clu cl).mem = (s.clu cl).mem ∧ (t.clu cl).till = (s.clu cl).till)
      ∧ (∀ cl, (∀ q ∈ (t.clu cl).callq, q.ctx ≠ c) ∧ (∀ x, (t.clu cl).tel = some x → x.q.ctx ≠ c)
          ∧ (∀ x ∈ (t.clu cl).tileq, x.ctx ≠ c) ∧ ∀ x ∈ (t.clu cl).tally, x.ctx ≠ c)
      ∧ (∀ d, ∀ q ∈ (t.tdie d).tq, q.ctx ≠ c)
      ∧ (∀ x ∈ t.sched.sync, x.q.ctx ≠ c) ∧ (∀ u ∈ t.upd, u.ctx ≠ c)
      ∧ (∀ q ∈ t.sched.update ++ t.sched.hint ++ t.sched.cheap ++ t.sched.ckpt ++ t.sched.seq ++ t.sched.eval, q.ctx ≠ c)
      ∧ (t.lkc c.toNat).coll = none ∧ (t.lkc c.toNat).red = none
      ∧ (∀ p, ∀ k ∈ (t.prt6 p).txq, s.ownPacket c k = false)
      ∧ (∀ d e, e ≠ c.toNat → t.prt d e = s.prt d e) ∧ (∀ d, (t.prt d c.toNat).valid = true → (t.prt d c.toNat).refusing = true))
  ∧ (∀ (c : CtxId) (r : Rec) (s : State), (s.ctx c.toNat).st = .scrubbing → (s.ctx c.toNat).faultRec = some r →
    ((s.ctx c.toNat).faultOut = false → ∀ d ∈ (s.ctx c.toNat).cltab, s.cluShut d.cl.toNat = false) →
    Completes (.scrubDone c) s fun t =>
      (t.ctx c.toNat).st = .faulted ∧ (t.ctx c.toNat).completeSeq = (s.ctx c.toNat).acceptSeq
      ∧ Records s t c none (fun y => y = { r with time := s.devTime })
      ∧ SameBut State.ctx c.toNat s t ∧ (∀ d e, e ≠ c.toNat → t.prt d e = s.prt d e)
      ∧ (∀ d, (t.prt d c.toNat).slots = [] ∧ (t.prt d c.toNat).geo = (s.prt d c.toNat).geo)
      ∧ ((s.ctx c.toNat).faultOut = false → ∀ d ∈ (s.ctx c.toNat).cltab, ∀ a, d.memBase * 128 ≤ a →
          a < (d.memBase + d.memSize) * 128 → (t.clu d.cl.toNat).mem.read a = 0)
      ∧ (∀ cl, (∀ d ∈ (s.ctx c.toNat).cltab, d.cl.toNat ≠ cl) → t.clu cl = s.clu cl)
      ∧ t = { s with ctxs := t.ctxs, cls := t.cls, td := t.td })

/-- O46. A step close is issued at LS_STEP, quiesces, takes the job's OR into the loss scale, and advances the step.
STEP_CLOSE of the step LS_STEP (its overflow word, if any, in the context's region) opens a close and the SYNC
command waits; of another step it faults LS_SKEW, with a word it may not read the fault of R173. LOCAL_QUIESCE,
once no earlier UPDATE of the step is pending, no Hold is in force and the context is IN where it has a word,
forms the word of overflow bit (reports stamped with the step or an earlier one) and epoch-due bit, drops those
reports and begins the OR; on a job of one device the OR is that word at once. JOB_AGREEMENT sets E, E_PREV,
CLEAN and the overflow count by Table NU.7 and empties the context's Census counters; bit 1 is raised when E
could not fall. STEP_ADVANCE sets LS_STEP to the close's step plus one and completes the SYNC command; other
contexts' numerics do not change. LS_STEP counts modulo 2^32. What the advance reads of HBM for the delta and
the epoch's copies it waits for where a page is to come, and in error it faults MEM_UE (log 28). Readings of the
model: with no active tier a due epoch stays due and no delta leaves (log 91); the step does not advance while a
Census add of the context waits (log 101). -/
def Obligations.StepClosesFollowTheJob : Prop :=
  (∀ (c : CtxId) (k : SyncCmd) (s : State), s.syncHead c 3 = some k → (s.nums c.toNat).close = none →
    (s.ctx c.toNat).st = .resident → cStep k.q.img = (s.nums c.toNat).step →
    (∀ cl a, ovfWord k.q.img = some (cl, a) → s.locCheck c (.clu cl a) 4 false = none) → Completes (.stepClose c) s fun t =>
      t.nums c.toNat = { s.nums c.toNat with
        close := some { seq := k.q.seq, step := (s.nums c.toNat).step, phase := .issued, word := false, ovf := false, epoch := false } }
      ∧ SameBut State.nums c.toNat s t ∧ t.sched.sync.map (·.q) = s.sched.sync.map (·.q)
      ∧ (∀ x ∈ t.sched.sync, x.q = k.q → x.waiting = true)
      ∧ t = { s with num := t.num, sched := { s.sched with sync := t.sched.sync, clock := t.sched.clock } })
  ∧ (∀ (c : CtxId) (k : SyncCmd) (s : State), s.syncHead c 3 = some k → k.q.ctx = c → (s.nums c.toNat).close = none →
    (s.ctx c.toNat).st = .resident → cStep k.q.img ≠ (s.nums c.toNat).step → Completes (.stepClose c) s fun t =>
      Faulted s t c 0x000E)
  ∧ (∀ (c : CtxId) (k : SyncCmd) (cl : ClId) (a : Nat) (f : U16) (s : State), s.syncHead c 3 = some k → k.q.ctx = c →
    (s.nums c.toNat).close = none → (s.ctx c.toNat).st = .resident → cStep k.q.img = (s.nums c.toNat).step →
    ovfWord k.q.img = some (cl, a) → s.locCheck c (.clu cl a) 4 false = some f → Completes (.stepClose c) s fun t => Faulted s t c f)
  ∧ (∀ (c : CtxId) (r : CloseRun) (k : SyncCmd) (s : State), (s.nums c.toNat).close = some r → s.syncHead c 3 = some k →
    r.phase = .issued → s.updatesPending c.toNat r = false → s.bursar.hold = false →
    (ovfWord k.q.img ≠ none → (s.ctx c.toNat).st = .resident) →
    let word := match ovfWord k.q.img with
      | some (cl, a) => decide ((s.clu cl.toNat).mem.readN a 4 ≠ 0)
      | none => false
    let w : W32 := BitVec.ofNat 32 (((s.nums c.toNat).pendOvf.any (fun n => seqLe n r.step) || word).toNat + 2 * (s.epochDue c.toNat).toNat)
    let u := s.modNum c.toNat fun x => { x with
      pendOvf := x.pendOvf.filter (fun n => !seqLe n r.step), close := some { r with phase := .quiesced, word := word } }
    Completes (.localQuiesce c) s fun t => t = u.ctlStart c false w
      ∧ ((∀ a < 3, s.boxExt (s.lkc c.toNat) a = 1 ∧ s.boxIdx (s.lkc c.toNat) a = 0) → (s.lkc c.toNat).early = [] →
          (s.ctx c.toNat).st = .resident →
          (t.lkc c.toNat).red.map (fun d => (d.acc, d.done)) = some (w, true) ∧ t = { u with lkC := t.lkC }))
  ∧ (∀ (c : CtxId) (r : CloseRun) (d : Reduce) (s : State), (s.nums c.toNat).close = some r → (s.lkc c.toNat).red = some d →
    r.phase = .quiesced → d.done = true → s.action pgNumerics 1 ≠ 2 → Completes (.jobAgreement c) s fun t =>
      let x := s.nums c.toNat
      let run : CloseRun := { r with phase := .agreed, ovf := bit d.acc.toNat 0, epoch := bit d.acc.toNat 1 }
      (if bit d.acc.toNat 0 = true then
        t.nums c.toNat = { x with ePrev := x.e, e := if x.e.toInt - 1 < x.eMin.toInt then x.eMin else x.e - 1, clean := 0, ovfCount := x.ovfCount + 1, close := some run }
        ∧ (x.e.sle x.eMin = true → Stands t pgNumerics 1)
       else
        let n : U16 := if x.clean = 0xFFFF then 0xFFFF else x.clean + 1
        t.nums c.toNat = (if x.interval ≠ 0 ∧ x.interval ≤ n
          then { x with ePrev := x.e, e := if x.eMax.toInt < x.e.toInt + 1 then x.eMax else x.e + 1, clean := 0, close := some run }
          else { x with ePrev := x.e, clean := n, close := some run }))
      ∧ (t.lkc c.toNat).red = none ∧ SameBut State.nums c.toNat s t ∧ SameBut State.lkc c.toNat s t
      ∧ (∀ i, SMap.get 0 t.census i = if i / 512 % 4096 = c.toNat then 0 else SMap.get 0 s.census i)
      ∧ BytesBut x.censusBase.toNat 4096 s.hbm t.hbm ∧ (x.censusBase = 0 → t.hbm = s.hbm)
      ∧ ∃ u, NotesOnly { s with num := t.num, lkC := t.lkC, hbm := t.hbm, census := t.census } u ∧ AlarmOnly u t)
  ∧ (∀ (c : CtxId) (r : CloseRun) (k : SyncCmd) (s : State), (s.nums c.toNat).close = some r → s.syncHead c 3 = some k →
    r.phase = .agreed → (s.unitOn 2 = false ∨ (s.sgc c.toNat).delta = none) → (s.sgc c.toNat).epoch = none →
    (s.addsWait c.toNat = false → (∀ a ∈ s.advanceReads c r.epoch, s.hbmWait a.1 a.2 = false) →
      (∃ a ∈ s.advanceReads c r.epoch, s.ueMeets a.1 a.2 = true) → (s.ctx c.toNat).st = .resident →
      (∀ a ∈ s.advanceReads c r.epoch, ∀ u ∈ s.ueIn a.1 a.2,
        s.ownerOf u = some c ∧ s.moving (u / 65536) none = none ∧ bit (s.page (u / 65536)) 13 = false) →
      Completes (.stepAdvance c) s fun t => ∃ u, FaultedAt s t c 0x0501 u ∧ s.ueMeets u 1 = true)
    ∧ (s.addsWait c.toNat = false → (∃ a ∈ s.advanceReads c r.epoch, s.hbmWait a.1 a.2 = true) →
      Completes (.stepAdvance c) s (· = s))
    ∧ (s.addsWait c.toNat = false → (∀ a ∈ s.advanceReads c r.epoch, s.hbmWait a.1 a.2 = false ∧ s.ueMeets a.1 a.2 = false) →
    Completes (.stepAdvance c) s fun t =>
      t.nums c.toNat = { s.nums c.toNat with step := r.step + 1, close := none } ∧ SameBut State.nums c.toNat s t
      ∧ Finishes s t k.q 0 ∧ SameBut State.sgc c.toNat s t
      ∧ (if r.epoch = true ∧ s.unitOn 2 = true ∧ (s.sgc c.toNat).valid = true ∧ s.sg.tierActive ≠ 0 then
          ∃ e, (t.sgc c.toNat).epoch = some e ∧ e.step = r.step ∧ e.prot = (s.sgc c.toNat).snapshot.filter (s.ownsPage c.toNat)
              ∧ (t.sgc c.toNat).due = false
         else (t.sgc c.toNat).epoch = none ∧ (t.sgc c.toNat).due = (s.sgc c.toNat).due)
      ∧ (if s.unitOn 2 = true ∧ (s.sgc c.toNat).valid = true ∧ s.sg.tierActive ≠ 0
          then (t.sgc c.toNat).delta = some r.step ∧ (t.sgc c.toNat).dirty = [] else t.sgc c.toNat = s.sgc c.toNat)
      ∧ t = { s with num := t.num, ctxs := t.ctxs, sched := t.sched, sgC := t.sgC, sg := t.sg, port := t.port, links := t.links
                     host := t.host, free := t.free }))

/-- O47. A spill adds a die's counters to the census area as 64-bit adds; base and loss-scale writes are checked.
When a die reuses the counters of a context and class, each of the 32 counters is added modulo 2^64 to its word
of the area of Table NU.8 and becomes 0, an add to a page under an epoch waiting, and one whose word is in error
waiting too and faulting its context with MEM_UE (log 101); no other byte of HBM and no other counter changes;
with CENSUS_BASE 0 the counts are discarded. CENSUS_FLUSH does so for every counter of the selected context and
is busy until its end. The low half of CENSUS_BASE is held pending; the high half installs the whole base when
it is 0 or its area is the context's, else bit 3 is raised and the base stays. LS_STATE and LS_STEP are written
while the context is not IN; else the write is ignored and bit 0 raised. -/
def Obligations.CensusCountersReachTheirArea : Prop :=
  (∀ (d : Die) (c : CtxId) (cls : BitVec 4) (s : State),
    let b := (s.nums c.toNat).censusBase.toNat
    (b ≠ 0 → s.ueIn b 4096 = []) → (∀ r ∈ s.sg.adds, r.1 = c.toNat → s.ueIn r.2.1 8 = []) →
    Completes (.censusCounterSpill d c cls) s fun t =>
    (∀ fmt k, fmt < 8 → k < 4 →
      SMap.get 0 t.census (censusKey d.val c.toNat cls.toNat fmt k) = 0
      ∧ (b ≠ 0 → s.hbmCheck c.toNat b 4096 true false = none → s.guarded b 4096 = false →
          t.hbm.readN (b + 256 * cls.toNat + 32 * fmt + 8 * k) 8
          = (s.hbm.readN (b + 256 * cls.toNat + 32 * fmt + 8 * k) 8
              + (SMap.get 0 s.census (censusKey d.val c.toNat cls.toNat fmt k)).toNat) % 2 ^ 64))
    ∧ (∀ i, (∀ fmt k, fmt < 8 → k < 4 → i ≠ censusKey d.val c.toNat cls.toNat fmt k) → SMap.get 0 t.census i = SMap.get 0 s.census i)
    ∧ (b ≠ 0 → s.hbmCheck c.toNat b 4096 true false = none →
        (∀ i < 32, s.guarded (b + 256 * cls.toNat + 8 * i) 8 = true) → t.hbm = s.hbm
        ∧ ∀ fmt k, fmt < 8 → k < 4 → SMap.get 0 s.census (censusKey d.val c.toNat cls.toNat fmt k) ≠ 0 →
            (c.toNat, b + 256 * cls.toNat + 32 * fmt + 8 * k,
              (SMap.get 0 s.census (censusKey d.val c.toNat cls.toNat fmt k)).toNat) ∈ t.sg.adds)
    ∧ (if b = 0 then t.hbm = s.hbm else BytesBut (b + 256 * cls.toNat) 256 s.hbm t.hbm)
    ∧ NotesOnly { s with hbm := t.hbm, census := t.census } t)
  ∧ (∀ (d : Die) (c : CtxId) (cls : BitVec 4) (s : State),
    let b := (s.nums c.toNat).censusBase.toNat
    let w (fmt k : Nat) : Nat := b + 256 * cls.toNat + 32 * fmt + 8 * k
    b ≠ 0 → s.hbmCheck c.toNat b 4096 true false = none → s.addsWait c.toNat = false → (s.ctx c.toNat).st = .resident →
    (∀ u ∈ s.ueIn b 4096, s.ownerOf u = some c ∧ s.moving (u / 65536) none = none ∧ bit (s.page (u / 65536)) 13 = false) →
    ∀ fmt k, fmt < 8 → k < 4 → SMap.get 0 s.census (censusKey d.val c.toNat cls.toNat fmt k) ≠ 0 → s.ueIn (w fmt k) 8 ≠ [] →
    Completes (.censusCounterSpill d c cls) s fun t =>
      (t.ctx c.toNat).st = .scrubbing ∧ (t.ctx c.toNat).lastFault = 0x0501 ∧ SameBut State.ctx c.toNat s t
      ∧ SMap.get 0 t.census (censusKey d.val c.toNat cls.toNat fmt k) = 0
      ∧ t.hbm.readN (w fmt k) 8 = s.hbm.readN (w fmt k) 8 ∧ BytesBut (b + 256 * cls.toNat) 256 s.hbm t.hbm)
  ∧ (∀ (v : W32) (s : State), bit v.toNat 0 = true → s.canWrite pgNumerics = true →
      let c := s.sel.nuCtx.toNat
      ((s.nums c).censusBase ≠ 0 → s.ueIn (s.nums c).censusBase.toNat 4096 = []) →
      (∀ r ∈ s.sg.adds, r.1 = c → s.ueIn r.2.1 8 = []) → Completes (.censusFlush v) s fun t =>
      (∀ i, SMap.get 0 t.census i = if i / 512 % 4096 = c then 0 else SMap.get 0 s.census i)
      ∧ BytesBut (s.nums c).censusBase.toNat 4096 s.hbm t.hbm ∧ ((s.nums c).censusBase = 0 → t.hbm = s.hbm)
      ∧ t.nums c = { s.nums c with flushBusy := true } ∧ SameBut State.nums c s t
      ∧ NotesOnly { s with hbm := t.hbm, census := t.census, num := t.num } t)
  ∧ (∀ (c : CtxId) (s : State), (s.nums c.toNat).flushBusy = true →
      (s.addsWait c.toNat = false → Completes (.censusFlushDone c) s fun t =>
        t.nums c.toNat = { s.nums c.toNat with flushBusy := false } ∧ SameBut State.nums c.toNat s t ∧ t = { s with num := t.num })
      ∧ (s.addsWait c.toNat = true → (∀ r ∈ s.sg.adds, r.1 = c.toNat → s.ueMeets r.2.1 8 = false) →
          Completes (.censusFlushDone c) s (· = s))
      ∧ (s.addsWait c.toNat = true → (∃ r ∈ s.sg.adds, r.1 = c.toNat ∧ s.ueMeets r.2.1 8 = true) →
          (s.ctx c.toNat).st = .resident →
          (∀ r ∈ s.sg.adds, r.1 = c.toNat → ∀ u ∈ s.ueIn r.2.1 8,
            s.ownerOf u = some c ∧ s.moving (u / 65536) none = none ∧ bit (s.page (u / 65536)) 13 = false) →
          Completes (.censusFlushDone c) s fun t => ∃ u, FaultedAt s t c 0x0501 u ∧ s.ueMeets u 1 = true))
  ∧ (∀ (v : W32) (s : State), s.canWrite pgNumerics = true →
    let c := s.sel.nuCtx.toNat
    let x := s.nums c
    Completes (.censusBaseLoWrite v) s (fun t =>
      t.nums c = { x with censusLo := some (v &&& 0xFFFFF000#32) } ∧ SameBut State.nums c s t ∧ t = { s with num := t.num })
    ∧ (let b := v.toNat * 2 ^ 32 + ((x.censusLo.map BitVec.toNat).getD (x.censusBase.toNat % 2 ^ 32))
       (b = 0 ∨ s.ownsArea c b 4096 = true → Completes (.censusBaseHiWrite v) s fun t =>
          (t.nums c).censusBase.toNat = b ∧ (t.nums c).censusLo = none ∧ SameBut State.nums c s t ∧ t = { s with num := t.num })
       ∧ (b ≠ 0 → s.ownsArea c b 4096 = false → s.action pgNumerics 3 ≠ 2 → Completes (.censusBaseHiWrite v) s fun t =>
          t.nums c = { x with censusLo := none } ∧ SameBut State.nums c s t ∧ Stands t pgNumerics 3
          ∧ AlarmOnly { s with num := t.num } t))
    ∧ ((s.ctx c).st ≠ .resident →
        Completes (.lsStateWrite v) s (fun t =>
          t.nums c = { x with e := v.setWidth 8, ePrev := (v >>> 8).setWidth 8, clean := (v >>> 16).setWidth 16 }
          ∧ SameBut State.nums c s t ∧ t = { s with num := t.num })
        ∧ Completes (.lsStepWrite v) s (fun t =>
          t.nums c = { x with step := v } ∧ SameBut State.nums c s t ∧ t = { s with num := t.num }))
    ∧ ((s.ctx c).st = .resident → s.action pgNumerics 0 ≠ 2 →
        Completes (.lsStateWrite v) s (fun t => Stands t pgNumerics 0 ∧ AlarmOnly s t)
        ∧ Completes (.lsStepWrite v) s (fun t => Stands t pgNumerics 0 ∧ AlarmOnly s t)))

/-- O48. TEACHER, STUDENT, GRADIENT, FEATURE and RESET_STATS set their operation and complete; G follows E(s). The
oldest TOUCH command of its context on a die takes effect: its operation is added to those of the context's
partition there (RESET_STATS clears the two counts), and it completes; no other partition changes. STUDENT
faults BAD_ADDRESS unless its LABEL and LOSS vectors lie in the context's region of the named cluster. GRADIENT
forms G = GRAD_SCALE times 2^E(s), with E(s) = E at LS_STEP and E_PREV one step before, waits for a step to
come, and faults LS_SKEW on an older one. A TEACHER operation with a remote target that has not been asked sends
one CREDIT_REQUEST. That it goes out at the operation, and that the shadow is that of the remapped device, is
the choice of the model (log 35). -/
def Obligations.TouchOperationsGovernLaterCommands : Prop :=
  (∀ (d : Die) (q : QE) (s : State), s.touchHead d.val 1 = some q → (teacherOf q.img).dev = s.devId → Completes (.teacher d) s fun t =>
    t.prt d.val q.ctx.toNat = { s.prt d.val q.ctx.toNat with teacher := (s.prt d.val q.ctx.toNat).teacher ++ [(q.seq, { teacherOf q.img with ctx := q.ctx })] }
    ∧ (t.tdie d.val).tq = (s.tdie d.val).tq.filter (· ≠ q) ∧ SameBut State.tdie d.val s t
    ∧ (∀ e, e ≠ q.ctx.toNat → t.prt d.val e = s.prt d.val e) ∧ Finishes s t q 0
    ∧ t = { s with td := t.td, ctxs := t.ctxs, sched := t.sched })
  ∧ (∀ (d : Die) (q : QE) (p : Nat) (dt : Bool) (s : State), s.touchHead d.val 1 = some q →
    let o := teacherOf q.img
    o.dev ≠ s.devId → s.remapped o.dev ≠ s.devId → s.route (s.remapped o.dev) = some (p, dt) →
    (s.prt d.val q.ctx.toNat).shadowOf (s.remapped o.dev) o.die o.ctx = none → Completes (.teacher d) s fun t =>
      (t.prt d.val q.ctx.toNat).teacher = (s.prt d.val q.ctx.toNat).teacher ++ [(q.seq, o)]
      ∧ (∃ h, (t.prt d.val q.ctx.toNat).shadow = (s.prt d.val q.ctx.toNat).shadow ++ [h] ∧ h.dev = s.remapped o.dev
          ∧ h.die = o.die ∧ h.ctx = o.ctx ∧ h.c = none ∧ h.asked = true)
      ∧ (∃ k : Packet, (t.prt6 p).txq = (s.prt6 p).txq ++ [k] ∧ k.ty = 11 ∧ k.dst = s.remapped o.dev ∧ k.dstCtx = o.ctx
          ∧ k.srcCtx = q.ctx ∧ bits k.target.toNat 34 32 = o.die.toNat)
      ∧ Finishes s t q 0 ∧ SameBut State.tdie d.val s t ∧ SameBut State.prt6 p s t
      ∧ t = { s with td := t.td, ctxs := t.ctxs, sched := t.sched, port := t.port })
  ∧ (∀ (d : Die) (q : QE) (s : State), s.touchHead d.val 2 = some q → s.vectorsOk q.ctx (studentOf q.img) = true →
    Completes (.student d) s fun t =>
      t.prt d.val q.ctx.toNat = { s.prt d.val q.ctx.toNat with student := (s.prt d.val q.ctx.toNat).student ++ [(q.seq, studentOf q.img)] }
      ∧ (t.tdie d.val).tq = (s.tdie d.val).tq.filter (· ≠ q) ∧ SameBut State.tdie d.val s t
      ∧ (∀ e, e ≠ q.ctx.toNat → t.prt d.val e = s.prt d.val e) ∧ Finishes s t q 0
      ∧ t = { s with td := t.td, ctxs := t.ctxs, sched := t.sched })
  ∧ (∀ (d : Die) (q : QE) (s : State), s.touchHead d.val 2 = some q → (s.ctx q.ctx.toNat).st = .resident →
    s.vectorsOk q.ctx (studentOf q.img) = false → Completes (.student d) s fun t => Faulted s t q.ctx 0x0003)
  ∧ (∀ (d : Die) (q : QE) (s : State), s.touchHead d.val 3 = some q → (s.ctx q.ctx.toNat).st = .resident →
    let x := s.nums q.ctx.toNat
    let n := cStep q.img
    (∀ e, (n = x.step ∧ e = x.e) ∨ (n = x.step - 1 ∧ e = x.ePrev) → Completes (.gradient d) s fun t =>
      (t.prt d.val q.ctx.toNat).grad = (s.prt d.val q.ctx.toNat).grad ++ [(q.seq, gradOf q.img e)]
      ∧ (gradOf q.img e).g = fmul (w32 q.img 0x20) (pow2 e.toInt)
      ∧ t.prt d.val q.ctx.toNat = { s.prt d.val q.ctx.toNat with grad := (t.prt d.val q.ctx.toNat).grad }
      ∧ (t.tdie d.val).tq = (s.tdie d.val).tq.filter (· ≠ q) ∧ SameBut State.tdie d.val s t
      ∧ (∀ e, e ≠ q.ctx.toNat → t.prt d.val e = s.prt d.val e) ∧ Finishes s t q 0
      ∧ t = { s with td := t.td, ctxs := t.ctxs, sched := t.sched })
    ∧ (n ≠ x.step → (n - x.step).toNat < 2 ^ 31 → Completes (.gradient d) s (· = s))
    ∧ (n ≠ x.step - 1 → 2 ^ 31 ≤ (n - x.step).toNat → Completes (.gradient d) s fun t => Faulted s t q.ctx 0x000E))
  ∧ (∀ (d : Die) (q : QE) (s : State), s.touchHead d.val 4 = some q → Completes (.featureLoss d) s fun t =>
      t.prt d.val q.ctx.toNat = { s.prt d.val q.ctx.toNat with
        feat := (s.prt d.val q.ctx.toNat).feat ++ [(q.seq, { cos := bit (fld q.img 0x10 31 0) 6, w := w32 q.img 0x20 })] }
      ∧ SameBut State.tdie d.val s t ∧ (∀ e, e ≠ q.ctx.toNat → t.prt d.val e = s.prt d.val e) ∧ Finishes s t q 0
      ∧ t = { s with td := t.td, ctxs := t.ctxs, sched := t.sched })
  ∧ (∀ (d : Die) (q : QE) (s : State), s.touchHead d.val 5 = some q → Completes (.resetStats d) s fun t =>
      t.prt d.val q.ctx.toNat = { s.prt d.val q.ctx.toNat with poisonCount := 0, nfCount := 0 }
      ∧ SameBut State.tdie d.val s t ∧ (∀ e, e ≠ q.ctx.toNat → t.prt d.val e = s.prt d.val e) ∧ Finishes s t q 0
      ∧ t = { s with td := t.td, ctxs := t.ctxs, sched := t.sched })

/-- O49. A deposit the die takes fills its segment; others are discarded with bit 3 raised; PART_APPLY installs a
sound partition. A deposit over an edge that the addressed die takes: BASE, SIGMA and the 256 data elements of
its segment stand in the token's slot, FILLED has grown by one, the slot is COMPLETE once every segment is
there, DEPOSIT_SEQ has passed the token, and no other slot changes. A deposit of another mode, an unknown
segment or past the window faults TS_PARTITION on the producing context; one for a segment already filled faults
TS_DUP; both raise bit 3 of the page. Over a link the producer joins the partition's list. PART_APPLY installs
the staged geometry empty, with both counters 0, and is busy until its end; one that R116 rejects, or any where
Touchstone is disabled (R9), changes only REJECT and raises bit 0. That the write itself installs the geometry,
APPLY_BUSY standing until PART_APPLY_DONE, and that a staged size of 0 is accepted whatever the other fields
hold are the model's choices (log 60). -/
def Obligations.DepositsFillTheirSlotOrAreDiscarded : Prop :=
  (∀ (a b : Die) (d : Deposit) (s : State), (s.tdie b.val).dep.find? (fun d => d.src = a) = some d →
    let p := s.prt b.val d.ctx.toNat
    p.judge d = .take → d.slot = none → p.poisons d s.devId = false → Completes (.escrowDeposit (.edge a b)) s fun t =>
      let x := p.slot d.token
      let q := t.prt b.val d.ctx.toNat
      let y := q.slot d.token
      y.baseAt d.seg = d.base ∧ Words.get y.sigma d.seg = d.sigma ∧ (∀ j, j < 256 → y.elem d.seg j = SMap.get 0 d.data j)
      ∧ (∀ k, k ≠ d.seg → y.baseAt k = x.baseAt k ∧ Words.get y.sigma k = Words.get x.sigma k
          ∧ ∀ j, j < 256 → y.elem k j = x.elem k j)
      ∧ y.filled = x.filled + 1
      ∧ y.state = (if x.filled + 1 = p.geo.segs then 2 else if x.state = 0 then 1 else x.state)
      ∧ (x.state = 0 → y.token = d.token ∧ y.srcDev = s.devId ∧ y.invTau = d.invTau)
      ∧ (∀ i, i ≠ p.slotIx d.token → SMap.get {} q.slots i = SMap.get {} p.slots i)
      ∧ (p.c64.toNat + p.geo.slots < 2 ^ 64 → p.big d.token < q.deposit.toNat ∧ p.deposit.toNat ≤ q.deposit.toNat) ∧ q.geo = p.geo ∧ q.c64 = p.c64
      ∧ (t.tdie b.val).dep = (s.tdie b.val).dep.erase d ∧ SameBut State.tdie b.val s t
      ∧ (∀ e, e ≠ d.ctx.toNat → t.prt b.val e = s.prt b.val e) ∧ t = { s with td := t.td })
  ∧ (∀ (a b : Die) (d : Deposit) (s : State), (s.tdie b.val).dep.find? (fun d => d.src = a) = some d →
    (s.ctx d.ctx.toNat).st = .resident → s.action (pgTouch b.val) 3 ≠ 2 →
    ((s.prt b.val d.ctx.toNat).judge d = .refuse → Completes (.escrowDeposit (.edge a b)) s fun t =>
      Faulted s t d.ctx 0x0202 ∧ Stands t (pgTouch b.val) 3 ∧ (t.prt b.val d.ctx.toNat).slots = (s.prt b.val d.ctx.toNat).slots)
    ∧ (∀ code, (s.prt b.val d.ctx.toNat).judge d = .fault code → Completes (.escrowDeposit (.edge a b)) s fun t =>
      Faulted s t d.ctx code ∧ Stands t (pgTouch b.val) 3 ∧ (t.prt b.val d.ctx.toNat).slots = (s.prt b.val d.ctx.toNat).slots))
  ∧ (∀ (p : Part) (d : Deposit), p.valid = true → p.refusing = false →
      (d.mode ≠ p.geo.mode ∨ p.geo.segs ≤ d.seg ∨ (p.c64.toNat : Int) + p.geo.slots ≤ p.big d.token → p.judge d = .refuse)
      ∧ (d.mode = p.geo.mode → d.seg < p.geo.segs → p.inWindow d.token = true → p.geo.mode ≠ 2 →
          (p.slot d.token).baseAt d.seg ≠ unfilled → p.judge d = .fault 0x0203))
  ∧ (∀ (p : PortId) (k : Packet) (s : State), Arrives s p k 2 → k.payload.length = depositLen (depositOf k).mode →
    let d := depositOf k
    let x := s.prt d.dst.val d.ctx.toNat
    s.diePowered d.dst.val = true → s.unitOn 0 = true → x.judge d = .take → x.poisons d k.src = false → Completes (.escrowDeposit (.link p k)) s fun t =>
      t.prt d.dst.val d.ctx.toNat = ((x.listed k.src k.srcCtx).placed d k.src) ∧ Owes s t p k ∧ SameBut State.tdie d.dst.val s t
      ∧ (∀ e, e ≠ d.ctx.toNat → t.prt d.dst.val e = s.prt d.dst.val e) ∧ t = { s with td := t.td, port := t.port })
  ∧ (∀ (d : Die) (v : W32) (s : State), bit v.toNat 0 = true → s.canWrite (pgTouch d.val) = true →
    let c := (s.tdie d.val).sel.toNat
    let p := s.prt d.val c
    (s.unitOn 0 = true → (s.tdie d.val).badPart c = false → Completes (.partApply d v) s fun t =>
      t.prt d.val c = { p with geo := p.stg, valid := decide (p.stg.size ≠ 0), reject := false, busy := true, c64 := 0, deposit := 0
                               withdrawn := [], slots := [], pairs := [] }
      ∧ SameBut State.tdie d.val s t ∧ (∀ e, e ≠ c → t.prt d.val e = s.prt d.val e) ∧ t = { s with td := t.td })
    ∧ (s.unitOn 0 = false ∨ (s.tdie d.val).badPart c = true → s.action (pgTouch d.val) 0 ≠ 2 → Completes (.partApply d v) s fun t =>
      t.prt d.val c = { p with reject := true } ∧ SameBut State.tdie d.val s t ∧ (∀ e, e ≠ c → t.prt d.val e = s.prt d.val e)
      ∧ Stands t (pgTouch d.val) 0 ∧ AlarmOnly { s with td := t.td } t))
  ∧ (∀ (d : Die) (c : CtxId) (s : State), (s.prt d.val c.toNat).busy = true → Completes (.partApplyDone d c) s fun t =>
      t.prt d.val c.toNat = { s.prt d.val c.toNat with busy := false } ∧ SameBut State.tdie d.val s t
      ∧ (∀ e, e ≠ c.toNat → t.prt d.val e = s.prt d.val e) ∧ t = { s with td := t.td })

/-- O50. Touchstone takes a group when its window, its slots and its ring admit it, and carries it through its pass.
A teacher group of mode FULL or FEATURE for another die of this device that the window admits leaves one deposit
per row on the edge, each with BASE, SIGMA and data of R101 or R110, its 16 tiles are acknowledged; one of a
command with fewer than 16 entries is accepted from its first tile, and the tiles it has are acknowledged (log
68); one that the window withholds costs one stalled beat. A pass-S group is taken when every row's slot is
COMPLETE, token-table entries are free and the cluster of the LOSS vector is not in SERVICE (log 53): with a
single row of a token of one segment the loss word and the flags stand in the LOSS vector and the slot is
STUDENT. A pass-B group whose slots are STUDENT and whose maxima recompute takes a free landing slot: the ring
fills by one slot and no byte of the cluster's memory outside that slot and the command's amax word changes (no
mask being written); groups outside the operation's tokens fault TS_RANGE, differing maxima TS_RECOMPUTE. That a
withheld accept costs one STALL_BEATS and that TS_RANGE is found at acceptance are the readings of the model
(logs 35, 33). -/
def Obligations.SegmentGroupsGoThroughTheirPass : Prop :=
  (∀ (cl : ClId) (k : Nat) (g : Grp) (o : TeacherOp) (mode : BitVec 2) (segs kk : Nat) (s : State), s.groupAt cl.toNat k 1 = some g →
    opAt (s.prt g.die g.c).teacher g.q.seq = some o → s.teacherAdmit g o = .take mode segs kk →
    (mode ≠ 2 ∨ s.tableRoom g.die g.q.ctx (s.teaNew g o) = true) →
    (g.complete = false → Completes (.teacherGroupAccept cl k) s fun t =>
      ∃ r, (t.clu cl.toNat).mq[k]? = some r ∧ r.acked = g.r.acked + g.os.length ∧ r.offers = g.r.offers ∧ r.drained = g.r.drained
        ∧ r.grant = some { mode := mode, segs := segs, k := kk, land := 0 }
        ∧ NotesOnly { s with cls := t.cls, td := t.td, census := t.census, hbm := t.hbm } t
        ∧ (g.x.cvt = 0 → t = { s with cls := t.cls, td := t.td }))
    ∧ (g.complete = true → Completes (.teacherGroupAccept cl k) s fun t =>
      t = (if mode = 2 then (s.ackGroup cl.toNat k g).teachTopk g o segs kk else (s.ackGroup cl.toNat k g).teachFull g o mode segs kk)
      ∧ (mode ≠ 2 → o.dev = s.devId → o.die.toNat ≠ g.die →
          (t.tdie o.die.toNat).dep = (s.tdie o.die.toNat).dep ++ g.rows.map (g.fullRow o mode s.free)
          ∧ SameBut State.tdie o.die.toNat s t ∧ t.ctxs = s.ctxs ∧ t.free = s.free + 256 * g.x.rows
          ∧ NotesOnly { s with cls := t.cls, td := t.td, hbm := t.hbm, census := t.census, free := t.free } t)))
  ∧ (∀ (cl : ClId) (k : Nat) (g : Grp) (o : TeacherOp) (s : State), s.groupAt cl.toNat k 1 = some g →
    opAt (s.prt g.die g.c).teacher g.q.seq = some o → o.dev = s.devId → (s.prt o.die.toNat g.c).valid = true →
    (s.prt o.die.toNat g.c).admitsTok g.t0 g.x.rows = false → Completes (.teacherGroupAccept cl k) s fun t =>
      t.prt o.die.toNat g.c = { s.prt o.die.toNat g.c with stall := satInc (s.prt o.die.toNat g.c).stall } ∧ t = { s with td := t.td })
  ∧ (∀ (cl : ClId) (k : Nat) (g : Grp) (o : StudentOp) (s : State), s.groupAt cl.toNat k 2 = some g →
    let p := s.prt g.die g.c
    opAt p.student g.q.seq = some o → (∀ r ∈ g.rows, p.tokSt (g.tok r) = 2) → s.cluShut o.cl.toNat = false →
    s.tableRoom g.die g.q.ctx
      (g.rows.filter fun r => !((s.tdie g.die).tok.any (isStu g.q.ctx (p.num64 (g.tok r))))).length = true →
    (∀ f, s.passSFault g p o = some f → (s.ctx g.q.ctx.toNat).st = .resident →
      Completes (.passSGroupAccept cl k) s fun t => Faulted s t g.q.ctx f)
    ∧ (s.passSFault g p o = none → g.complete = true → Completes (.passSGroupAccept cl k) s fun t =>
      t = g.rows.foldl (fun s r => s.passSRow g o r) (s.ackGroup cl.toNat k g)
      ∧ (g.rows = [0] → p.geo.segs = 1 → g.seg = 0 → o.noGrad = false →
          (s.tdie g.die).tok.find? (isStu g.q.ctx (p.num64 g.t0)) = none →
          let x := p.slot g.t0
          let e : TokE := { ctx := g.q.ctx, tok := p.num64 g.t0, teacher := false, stu := some o
                            label := (s.ackGroup cl.toNat k g).labelOf o g.t0 }
          let v := (e.streamed p.geo x o.invTau 0 (g.val 0)).merge p.geo x o (State.featAt p g.q.seq)
          (t.clu o.cl.toNat).mem.read32 (o.loss + 8 * (g.t0 - o.t).toNat) = v.2.1
          ∧ (t.clu o.cl.toNat).mem.read32 (o.loss + 8 * (g.t0 - o.t).toNat + 4) = v.2.2
          ∧ ((t.prt g.die g.c).slot g.t0).state = 3)))
  ∧ (∀ (cl : ClId) (k : Nat) (g : Grp) (go : GradOp) (ring : Ring) (s : State), s.groupAt cl.toNat k 3 = some g →
    let p := s.prt g.die g.c
    opAt p.grad g.q.seq = some go → ((s.clu cl.toNat).pc g.c).ring.offer go = some ring → (s.ctx g.q.ctx.toNat).st = .resident →
    (inTokens g.t0 g.x.rows go.t go.count = false → Completes (.passBGroupAccept cl k) s fun t => Faulted s t g.q.ctx 0x0207)
    ∧ (inTokens g.t0 g.x.rows go.t go.count = true → (∀ r ∈ g.rows, p.tokSt (g.tok r) = 3) → g.complete = true →
        (g.rows.all (s.recomputed g p) = false → Completes (.passBGroupAccept cl k) s fun t => Faulted s t g.q.ctx 0x0204)
        ∧ (g.rows.all (s.recomputed g p) = true → g.x.masksel = 0 → g.x.rows ≤ 16 → Completes (.passBGroupAccept cl k) s fun t =>
          ((t.clu cl.toNat).pc g.c).ring = ring.filled ∧ ring.filled.full = ring.full ++ [ring.fill]
          ∧ (∀ b, ¬(ring.base * 128 + 8192 * ring.fill ≤ b ∧ b < ring.base * 128 + 8192 * ring.fill + 8192) →
              ¬(g.x.amaxEn = true ∧ g.x.amaxA ≤ b ∧ b < g.x.amaxA + 4) →
              (t.clu cl.toNat).mem.read b = (s.clu cl.toNat).mem.read b)
          ∧ (∀ j, j ≠ cl.toNat → (t.clu j).mem = (s.clu j).mem) ∧ t.sems = s.sems ∧ t.nv = s.nv)))

/-- O51. MATMUL begins when its entries are free, accumulates tile by tile, drains in order, and its destination
releases the entries. A sound MATMUL at its turn begins, or waits while an earlier command of the cluster holds
an entry it names, and begins when that ends; an unsound one faults with the code of its first check. Each
tile's 256 words become the sums of Table MX.5's initial words and the products of the command's K beats, KCOUNT
grows by K up to 131,071, and no other entry and no memory changes. A FULL drain writes the 256 words and the
tag of Table MX.4 at their places of R65 and no other byte, a FUSE drain offers the next tile or pair (R64) and
writes no memory, and a group already accepted takes it at once (log 68). A tile accepted by cluster memory or
the Vault stands at its place; with its acceptance alone the amax word and the Census take its values and a
releasing drain mode empties its entry. A legacy command takes its tile by handle and shape or faults TILL_FULL
or BAD_HANDLE, accumulates in its run, and when it is done a releasing drain or its RELEASE flag empties the
whole run. With DEST Vault the record joins its stack, in the Vault or at the fallback (counted), or faults.
Operand and record layouts are the model's readings (log 62, 65, 67); RESIDUAL read in the format A_FMT (logs
61, 109), the order and packing of legacy entries (log 66) and that a released entry reads zero in its words and
its whole tag (log 93) are its choices. -/
def Obligations.MatrixCommandsAccumulateAndDrain : Prop :=
  (∀ (cl : ClId) (k : Nat) (r : MxRun) (s : State), (s.clu cl.toNat).mq[k]? = some r → r.done = false →
    (s.ctx r.q.ctx.toNat).st = .resident →
    let x := Mx.of r.q.img
    let run : MxRun := { r with started := true, waiting := false, done := decide (x.tiles = 0) }
    (s.clOpen cl.toNat = true → r.started = false → r.waiting = false → s.touchPending r.q = false → s.vaultBusy r.q = false →
      (∀ f, s.mxCheck r.q = some f → Completes (.matmul cl k) s fun t => FaultedAt s t r.q.ctx f.1 f.2)
      ∧ (s.mxCheck r.q = none → s.entryHeld cl.toNat k r = true → Completes (.matmul cl k) s fun t =>
          t.clu cl.toNat = { s.clu cl.toNat with mq := (s.clu cl.toNat).mq.set k { r with waiting := true } } ∧ ClusterOnly cl s t))
    ∧ (∀ (j : Instr) (till : SMap TillE),
        (j = .matmul cl k ∧ s.clOpen cl.toNat = true ∧ r.started = false ∧ r.waiting = false ∧ s.touchPending r.q = false
            ∧ s.vaultBusy r.q = false ∧ s.mxCheck r.q = none) ∨ (j = .matmulEntryWaitEnd cl k ∧ s.clOpen cl.toNat = true ∧ r.waiting = true) →
        s.entryHeld cl.toNat k r = false →
        (s.legacy r.q = false → till = (s.clu cl.toNat).till) →
        (s.legacy r.q = true → ∃ d, (s.ctx r.q.ctx.toNat).desc (cCluster r.q.img) = some d
          ∧ legacyTake (s.clu cl.toNat).till d r.q.img = .ok till) →
        (vaultStackOf r.q.img = none → Completes j s fun t =>
            t.clu cl.toNat = { s.clu cl.toNat with till := till, mq := (s.clu cl.toNat).mq.set k run } ∧ ClusterOnly cl s t)
        ∧ (∀ i, vaultStackOf r.q.img = some i → cCluster r.q.img = cl →
          let recs (u : State) : Nat := (SMap.get {} ((u.clu cl.toNat).pc r.q.ctx.toNat).vault i).recs
          let w := s.pushTo r.q.ctx cl i x.recordLen (x.w28 % 2 ^ 25 * 65536)
          (∀ a, w = .vault a → Completes j s fun t =>
            (t.clu cl.toNat).till = till ∧ (t.clu cl.toNat).mq = (s.clu cl.toNat).mq.set k { run with vaultAt := some a }
            ∧ recs t = recs s + 1 ∧ ClusterOnly cl s t)
          ∧ (w = .hbm → Completes j s fun t =>
            (t.clu cl.toNat).till = till ∧ (t.clu cl.toNat).mq = (s.clu cl.toNat).mq.set k run ∧ recs t = recs s + 1
            ∧ t.ctx r.q.ctx.toNat = { s.ctx r.q.ctx.toNat with vaultSpills := satInc (s.ctx r.q.ctx.toNat).vaultSpills }
            ∧ SameBut State.ctx r.q.ctx.toNat s t ∧ SameBut State.clu cl.toNat s t ∧ t = { s with cls := t.cls, ctxs := t.ctxs })
          ∧ (∀ f a, w = .fault f a → Completes j s fun t => FaultedAt s t r.q.ctx f a)))
    ∧ (∀ (j : Instr) (d : CluDesc) (f : U16),
        (j = .matmul cl k ∧ s.clOpen cl.toNat = true ∧ r.started = false ∧ r.waiting = false ∧ s.touchPending r.q = false
            ∧ s.vaultBusy r.q = false ∧ s.mxCheck r.q = none) ∨ (j = .matmulEntryWaitEnd cl k ∧ s.clOpen cl.toNat = true ∧ r.waiting = true) →
        s.entryHeld cl.toNat k r = false → s.legacy r.q = true → (s.ctx r.q.ctx.toNat).desc (cCluster r.q.img) = some d →
        legacyTake (s.clu cl.toNat).till d r.q.img = .error f → Completes j s fun t => Faulted s t r.q.ctx f)
    ∧ (∀ e0, s.clOpen cl.toNat = true → r.started = true → r.waiting = false → r.tile < x.tiles → x.slotFree r r.tile = true →
        s.legacy r.q = false →
        let e := s.entryOf cl.toNat r.q r.tile
        let m := (s.clu cl.toNat).mem
        x.initTile m (SMap.get {} (s.clu cl.toNat).till e) r.tile = some e0 → Completes (.matmul cl k) s fun t =>
          let y := SMap.get {} (t.clu cl.toNat).till e
          let rc := x.tileRC r.tile
          (∀ j < 256, Words.get y.words j = (x.accum m (16 * rc.1 + j / 16) (16 * rc.2 + j % 16) (Words.get e0.words j)).1)
          ∧ y.kcount.toNat = min 131071 (e0.kcount.toNat + x.k) ∧ y.cls = e0.cls
          ∧ y.long = (e0.long || decide (65536 < e0.kcount.toNat + x.k))
          ∧ (∀ i, i ≠ e → SMap.get {} (t.clu cl.toNat).till i = SMap.get {} (s.clu cl.toNat).till i)
          ∧ (∃ u, (t.clu cl.toNat).mq = (s.clu cl.toNat).mq.set k u ∧ u = { r with tile := r.tile + 1, done := u.done })
          ∧ t.clu cl.toNat = { s.clu cl.toNat with till := (t.clu cl.toNat).till, mq := (t.clu cl.toNat).mq } ∧ ClusterOnly cl s t)
    ∧ (∀ d b e', s.clOpen cl.toNat = true → r.started = true → r.waiting = false → r.tile < x.tiles → x.slotFree r r.tile = true →
        s.legacy r.q = true → (s.ctx r.q.ctx.toNat).desc (cCluster r.q.img) = some d →
        legacyAt (s.clu cl.toNat).till d x.ebase = some b →
        let fin := if x.drain = 0 then decide (x.tiles ≤ r.tile + 1) else decide (x.tiles ≤ r.acked)
        let e := s.entryOf cl.toNat r.q r.tile
        x.ztTile (legacyHalf r.q.img) (legacyRows r.q.img) (s.clu cl.toNat).mem (SMap.get {} (s.clu cl.toNat).till e)
          (legacyEnts r.q.img) r.tile = some e' → Completes (.matmul cl k) s fun t =>
          (∀ i, SMap.get {} (t.clu cl.toNat).till i = if legacyFrees r.q b fin i = true then {}
            else if i = e then e' else SMap.get {} (s.clu cl.toNat).till i)
          ∧ (t.clu cl.toNat).mq = (s.clu cl.toNat).mq.set k { r with tile := r.tile + 1, done := fin }
          ∧ t.clu cl.toNat = { s.clu cl.toNat with till := (t.clu cl.toNat).till, mq := (t.clu cl.toNat).mq } ∧ ClusterOnly cl s t))
  ∧ (∀ (cl : ClId) (k : Nat) (r : MxRun) (s : State), (s.clu cl.toNat).mq[k]? = some r → r.done = false →
    (s.ctx r.q.ctx.toNat).st = .resident →
    let x := Mx.of r.q.img
    let e := s.entryOf cl.toNat r.q r.drained
    let v := SMap.get {} (s.clu cl.toNat).till e
    r.drained < r.tile → r.drained < x.tiles →
    (x.full = true →
      let j := if s.legacy r.q && legacyHalf r.q.img then r.drained / 2 else r.drained
      let a := x.dst + 1024 * j
      let b := x.dst + 1024 * s.mxEnts r.q + 4 * j
      Completes (.drain cl k) s fun t =>
        (∀ w < 256, (t.clu cl.toNat).mem.read32 (a + 4 * w) = Words.get v.words w)
        ∧ (t.clu cl.toNat).mem.readN b 4 = Mx.tagOf v
        ∧ (∀ p, ¬(a ≤ p ∧ p < a + 1024) → ¬(b ≤ p ∧ p < b + 4) → (t.clu cl.toNat).mem.read p = (s.clu cl.toNat).mem.read p)
        ∧ (s.legacy r.q = false → (∀ i, SMap.get {} (t.clu cl.toNat).till i
            = if x.frees = true ∧ i = e then {} else SMap.get {} (s.clu cl.toNat).till i))
        ∧ (s.legacy r.q = true → ∀ d b, (s.ctx r.q.ctx.toNat).desc (cCluster r.q.img) = some d →
            legacyAt (s.clu cl.toNat).till d x.ebase = some b → ∀ i, SMap.get {} (t.clu cl.toNat).till i
              = if legacyFrees r.q b (decide (x.tiles ≤ r.drained + 1)) i = true then {} else SMap.get {} (s.clu cl.toNat).till i)
        ∧ (∃ u, (t.clu cl.toNat).mq = (s.clu cl.toNat).mq.set k u
            ∧ u = { r with drained := r.drained + 1, acked := r.drained + 1, done := u.done }) ∧ ClusterOnly cl s t)
    ∧ (x.fuse = true → r.drained + x.step ≤ r.tile → r.grant = none → Completes (.drain cl k) s fun t =>
        (t.clu cl.toNat).mq = (s.clu cl.toNat).mq.set k
          { r with drained := r.drained + x.step, offers := r.offers ++ s.mxOffers cl.toNat r, since := s.sched.clock }
        ∧ t.clu cl.toNat = { s.clu cl.toNat with mq := (t.clu cl.toNat).mq } ∧ ClusterOnly cl s t)
    ∧ (∀ gr, x.fuse = true → r.drained + x.step ≤ r.tile → r.grant = some gr → r.acked = r.drained →
        r.offers.length + x.step < 16 → Completes (.drain cl k) s fun t =>
        (∃ u, (t.clu cl.toNat).mq = (s.clu cl.toNat).mq.set k u
          ∧ u = { r with drained := r.drained + x.step, acked := r.drained + x.step, since := s.sched.clock, done := u.done
                         offers := r.offers ++ s.mxOffers cl.toNat r })
        ∧ (t.clu cl.toNat).mem =
            (s.mxOffers cl.toNat r).foldl (fun m o => x.storePeak (x.storeMask m o) o) (s.clu cl.toNat).mem
        ∧ t.census = ((s.mxOffers cl.toNat r).foldl (fun s o => s.reportOffer r.q o) s).census
        ∧ (s.legacy r.q = false → ∀ i, SMap.get {} (t.clu cl.toNat).till i =
            if x.frees = true ∧ i ∈ (s.mxOffers cl.toNat r).map (·.entry) then {} else SMap.get {} (s.clu cl.toNat).till i)
        ∧ (s.legacy r.q = true → ∀ d b, (s.ctx r.q.ctx.toNat).desc (cCluster r.q.img) = some d →
            legacyAt (s.clu cl.toNat).till d x.ebase = some b → ∀ i, SMap.get {} (t.clu cl.toNat).till i
              = if legacyFrees r.q b (decide (x.tiles ≤ r.drained + x.step)) i = true then {} else SMap.get {} (s.clu cl.toNat).till i)
        ∧ SameBut State.clu cl.toNat s t ∧ NotesOnly { s with cls := t.cls, census := t.census, hbm := t.hbm } t))
  ∧ (∀ (cl : ClId) (k : Nat) (r : MxRun) (o : Offer) (os : List Offer) (s : State), (s.clu cl.toNat).mq[k]? = some r →
    r.offers = o :: os → (s.ctx r.q.ctx.toNat).st = .resident →
    let x := Mx.of r.q.img
    let rc := x.tileRC o.tile
    let offDest (a n : Nat) : Prop := x.amaxEn = true → x.amaxA + 4 ≤ a ∨ a + n ≤ x.amaxA
    let stored (a n : Nat) (t : State) : Prop :=
      (∀ b, ¬(a ≤ b ∧ b < a + n) → ¬(x.amaxEn = true ∧ x.amaxA ≤ b ∧ b < x.amaxA + 4) →
        (t.clu cl.toNat).mem.read b = (s.clu cl.toNat).mem.read b)
      ∧ (x.amaxEn = true → (t.clu cl.toNat).mem.read32 x.amaxA
          = match o.peak with
            | some p => fmax ((s.clu cl.toNat).mem.read32 x.amaxA) p
            | none => (s.clu cl.toNat).mem.read32 x.amaxA)
      ∧ t.census = (s.reportOffer r.q o).census ∧ SameBut State.clu cl.toNat s t
      ∧ NotesOnly { s with cls := t.cls, census := t.census, hbm := t.hbm } t
    (x.dest = 0 → Completes (.fuseTileAccept cl k) s fun t =>
      t = (s.modCl cl.toNat fun y => { y with mem := x.storeTile y.mem o }).mxAck cl.toNat k r 1)
    ∧ (x.masksel = 0 →
      (x.dest = 0 → x.cvt ≠ 0 → rc.1 < x.mt → rc.2 < x.nt → offDest x.dst (tensorBytes x.outFmt (x.mm * x.nn)) →
        Completes (.fuseTileAccept cl k) s fun t =>
      (∀ i j, i < 16 → j < 16 → codeAt (t.clu cl.toNat).mem x.outFmt x.dst ((16 * rc.1 + i) * x.nn + 16 * rc.2 + j)
        = (Words.get o.codes (16 * i + j)).toNat % 2 ^ elemBits x.outFmt)
      ∧ stored x.dst (tensorBytes x.outFmt (x.mm * x.nn)) t
      ∧ (s.legacy r.q = false → ∀ i, SMap.get {} (t.clu cl.toNat).till i
          = if x.frees = true ∧ i = o.entry then {} else SMap.get {} (s.clu cl.toNat).till i)
      ∧ (s.legacy r.q = true → ∀ d b, (s.ctx r.q.ctx.toNat).desc (cCluster r.q.img) = some d →
          legacyAt (s.clu cl.toNat).till d x.ebase = some b → ∀ i, SMap.get {} (t.clu cl.toNat).till i
            = if legacyFrees r.q b (if x.drain = 0 then decide (x.tiles ≤ r.tile) else decide (x.tiles ≤ r.acked + 1)) i = true then {} else SMap.get {} (s.clu cl.toNat).till i)
      ∧ (∃ u, (t.clu cl.toNat).mq = (s.clu cl.toNat).mq.set k u ∧ u = { r with offers := os, acked := r.acked + 1, done := u.done }))
    ∧ (∀ a, x.dest = 3 → x.cvt ≠ 0 → x.cvt ≠ 5 → r.vaultAt = some a →
      let bs := ((List.range 16).map fun k => o.row x.outFmt k).flatten
      offDest (a + elemBytes x.outFmt 256 * o.tile) bs.length → Completes (.fuseTileAccept cl k) s fun t =>
      (t.clu cl.toNat).mem.readBytes (a + elemBytes x.outFmt 256 * o.tile) bs.length = bs
      ∧ stored (a + elemBytes x.outFmt 256 * o.tile) bs.length t
      ∧ (∃ u, (t.clu cl.toNat).mq = (s.clu cl.toNat).mq.set k u ∧ u = { r with offers := os, acked := r.acked + 1, done := u.done }))
    ∧ (x.dest = 3 → r.vaultAt = none →
      let a := x.w28 % 2 ^ 25 * 65536
      s.guarded a x.recordLen = false → s.hbmCheck r.q.ctx.toNat a x.recordLen true false = none →
      Completes (.fuseTileAccept cl k) s fun t =>
        t = ((x.recordParts o).foldl (fun s p => s.hbmWrite (a + p.1) p.2) s).mxAck cl.toNat k r 1)))

/-- O52. Every operation on lanes and masks writes its register under MASK and ZERO and changes nothing else. At a
VEC instruction of the row's operation the active lanes of v(VD) take the operation of Table VX.2 on v(VA),
v(VB), v(VC), inactive lanes are kept or zeroed, no other register changes and the program moves on; compares
and mask operations do the same with k(VD). SEL chooses by k(VC); BCAST takes the immediate; IDX the element
number 64 times the repetition plus lane from the command's base. The magnitude and negative of the most
negative INT32 are free values. VEC clears the registers and begins at the first word of a program in the
context's region, and faults BAD_OP at a word outside the table. Readings of the fields are the model's where
log 70 says so; so are FMA under TYPE 9 modulo 2^32, the quarter-rate operations on binary32 whatever TYPE, and
the low 32 bits of IDX (log 94). -/
def Obligations.VectorLanesFollowTheTable : Prop :=
  (∀ (row : (ClId → Instr) × List Nat), row ∈
      ([(.vAdd, [0x01]), (.vSub, [0x02]), (.vMul, [0x03]), (.vFma, [0x04]), (.vMin, [0x05]), (.vMax, [0x06]), (.vAbs, [0x07])
       , (.vNeg, [0x08]), (.vLogic, [0x0E, 0x0F, 0x10]), (.vShift, [0x11, 0x12]), (.vCvt, [0x13]), (.vExp2, [0x30])
       , (.vLog2, [0x31]), (.vRcp, [0x32]), (.vRsqrt, [0x33])] : List ((ClId → Instr) × List Nat)) →
    ∀ (cl : ClId) (q : QE) (r : VecRun) (i : VI) (s : State), VecAt s cl q r i → i.op ∈ row.2 → Completes (row.1 cl) s fun t =>
      let x := s.clu cl.toNat
      Lanes s t cl i i.vd (fun j => alu i.op i.int (s.free + j) (x.lane i.va j) (x.lane i.vb j) (x.lane i.vc j))
      ∧ t.clu cl.toNat = { x with v := (t.clu cl.toNat).v, vrun := some (r.step q.img) } ∧ SameBut State.clu cl.toNat s t
      ∧ t = { s with cls := t.cls, free := if (i.op = 7 ∨ i.op = 8) ∧ i.int = true then s.free + 64 else s.free })
  ∧ (∀ (cl : ClId) (q : QE) (r : VecRun) (i : VI) (s : State), VecAt s cl q r i →
    let x := s.clu cl.toNat
    (i.op = 0x0D → Completes (.vSel cl) s fun t =>
      Lanes s t cl i i.vd (fun j => if bit (x.kreg i.vc).toNat j = true then x.lane i.va j else x.lane i.vb j)
      ∧ t.clu cl.toNat = { x with v := (t.clu cl.toNat).v, vrun := some (r.step q.img) } ∧ ClusterOnly cl s t)
    ∧ (i.op = 0x14 → Completes (.vBcast cl) s fun t => Lanes s t cl i i.vd (fun _ => i.imm)
      ∧ t.clu cl.toNat = { x with v := (t.clu cl.toNat).v, vrun := some (r.step q.img) } ∧ ClusterOnly cl s t)
    ∧ (i.op = 0x15 → Completes (.vIdx cl) s fun t => Lanes s t cl i i.vd (fun j => BitVec.ofNat 32 (vElem q.img + 64 * r.rep + j))
      ∧ t.clu cl.toNat = { x with v := (t.clu cl.toNat).v, vrun := some (r.step q.img) } ∧ ClusterOnly cl s t)
    ∧ (i.op ∈ [0x09, 0x0A, 0x0B, 0x0C] → Completes (.vCmp cl) s fun t =>
      Masks s t cl i i.vd (fun j => vcmp i.op i.int (x.lane i.va j) (x.lane i.vb j))
      ∧ t.clu cl.toNat = { x with k := (t.clu cl.toNat).k, vrun := some (r.step q.img) } ∧ ClusterOnly cl s t)
    ∧ (i.op ∈ [0x18, 0x19, 0x1A] → Completes (.vMaskOp cl) s fun t =>
      Masks s t cl i i.vd (fun j => if i.op = 0x18 then bit (x.kreg i.va).toNat j && bit (x.kreg i.vb).toNat j
        else if i.op = 0x19 then bit (x.kreg i.va).toNat j || bit (x.kreg i.vb).toNat j else !bit (x.kreg i.va).toNat j)
      ∧ t.clu cl.toNat = { x with k := (t.clu cl.toNat).k, vrun := some (r.step q.img) } ∧ ClusterOnly cl s t))
  ∧ (∀ (a b : W32) (fr : Nat) (c : W32), alu 0x01 true fr a b c = a + b ∧ alu 0x02 true fr a b c = a - b
      ∧ alu 0x04 true fr a b c = a * b + c ∧ (alu 0x06 true fr a b c).toInt = max a.toInt b.toInt
      ∧ (alu 0x05 true fr a b c).toInt = min a.toInt b.toInt
      ∧ (a ≠ 0x80000000#32 → (alu 0x07 true fr a b c).toInt = |a.toInt| ∧ (alu 0x08 true fr a b c).toInt = -a.toInt)
      ∧ (alu 0x12 false fr a b c).toNat = a.toNat / 2 ^ (b.toNat % 32))
  ∧ (∀ (cl : ClId) (q : QE) (s : State), s.vecHead cl = some (q, none) →
    (s.ownsIn q.ctx cl (vProg q.img) (8 * vCount q.img) = true → Completes (.vec cl) s fun t =>
      t.clu cl.toNat = { s.clu cl.toNat with vrun := some {}, v := [], k := [] } ∧ ClusterOnly cl s t)
    ∧ (s.ownsIn q.ctx cl (vProg q.img) (8 * vCount q.img) = false → Completes (.vec cl) s fun t => Faulted s t q.ctx 0x0003))
  ∧ (∀ (cl : ClId) (q : QE) (r : VecRun) (s : State), s.vecHead cl = some (q, some r) → r.done = false →
    (vWord (s.clu cl.toNat) q r).bad q.issued = true → Completes (.vec cl) s fun t => Faulted s t q.ctx 0x0001)

/-- O53. Vector loads, stores and pops, Tally results and fused chains move exactly the elements they name. LD
expands 64 elements into the active lanes; ST writes the active lanes' codes (inactive elements kept, or zero
under ZERO) and no byte outside the 64 elements and, for FP4, two scale bytes; KLD and KST move 8 bytes. An
access outside the context's region faults BAD_ADDRESS. TQPOP takes the head tile into four registers, or waits
on an empty queue; a tile enters the queue when it has room and no other context's tile (the second is a choice
of the model, log 110). TALLY reads its registers now and its result, combined under ACC, is written later:
VALUE and AUX, 8 bytes, or a summary register, whose OVR is set when the last value was not taken. A fused chain
in SERVICE or STAGE 4 within Table VX.7 computes its elements in order. That TALLY reads its registers and
address at issue and writes later is the reading of the model (logs 38, 94). -/
def Obligations.VectorMemoryTilesAndReductions : Prop :=
  (∀ (cl : ClId) (q : QE) (r : VecRun) (i : VI) (s : State), VecAt s cl q r i →
    let x := s.clu cl.toNat
    let a := vAddr q.img r.rep i.off
    let sc := vScale q.img r.rep i.off
    (i.op = 0x20 → s.vecOwns q cl i.ty a sc = true → Completes (.vLd cl) s fun t =>
      Lanes s t cl i i.vd (fun j => x.loadLane i.ty a sc j)
      ∧ t.clu cl.toNat = { x with v := (t.clu cl.toNat).v, vrun := some (r.step q.img) } ∧ ClusterOnly cl s t)
    ∧ (i.op = 0x20 → s.vecOwns q cl i.ty a sc = false → Completes (.vLd cl) s fun t => Faulted s t q.ctx 0x0003)
    ∧ (i.op = 0x21 → s.vecOwns q cl i.ty a sc = false → Completes (.vSt cl) s fun t => Faulted s t q.ctx 0x0003)
    ∧ (i.op = 0x1B → s.ownsIn q.ctx cl a 8 = false → Completes (.vKld cl) s fun t => Faulted s t q.ctx 0x0003)
    ∧ (i.op = 0x1C → s.ownsIn q.ctx cl a 8 = false → Completes (.vKst cl) s fun t => Faulted s t q.ctx 0x0003)
    ∧ (i.op = 0x40 → i.rnd = false → s.ownsIn q.ctx cl a 8 = false → Completes (.vTally cl) s fun t =>
      Faulted s t q.ctx 0x0003)
    ∧ (i.op = 0x21 → s.vecOwns q cl i.ty a sc = true → Completes (.vSt cl) s fun t =>
      (i.ty ≠ 4 → ∀ j < 64, codeAt (t.clu cl.toNat).mem (min i.ty 8) a j =
        (if i.active x j = true then
          (if 7 < i.ty then (x.lane i.va j).toNat
           else (convert i.ty (vRnd i q (s.nums q.ctx.toNat).seed r.rep j) (x.lane i.va j) 0).code % 2 ^ elemBits i.ty)
         else if i.zero = true then 0 else codeAt x.mem (min i.ty 8) a j))
      ∧ (∀ b, ¬(a ≤ b ∧ b < a + elemBytes i.ty 64) → ¬(i.ty = 4 ∧ sc ≤ b ∧ b < sc + 2) → (t.clu cl.toNat).mem.read b = x.mem.read b)
      ∧ t.clu cl.toNat = { x with mem := (t.clu cl.toNat).mem, vrun := some (r.step q.img) } ∧ SameBut State.clu cl.toNat s t
      ∧ NotesOnly { s with cls := t.cls, census := t.census, hbm := t.hbm } t)
    ∧ (i.op = 0x1B → s.ownsIn q.ctx cl a 8 = true → Completes (.vKld cl) s fun t =>
      (t.clu cl.toNat).kreg i.vd = x.mem.read64 a ∧ (∀ n, n % 8 ≠ i.vd % 8 → (t.clu cl.toNat).kreg n = x.kreg n)
      ∧ t.clu cl.toNat = { x with k := (t.clu cl.toNat).k, vrun := some (r.step q.img) } ∧ ClusterOnly cl s t)
    ∧ (i.op = 0x1C → s.ownsIn q.ctx cl a 8 = true → Completes (.vKst cl) s fun t =>
      (t.clu cl.toNat).mem.read64 a = x.kreg i.va ∧ BytesBut a 8 x.mem (t.clu cl.toNat).mem
      ∧ t.clu cl.toNat = { x with mem := (t.clu cl.toNat).mem, vrun := some (r.step q.img) } ∧ ClusterOnly cl s t)
    ∧ (i.op = 0x22 → (∀ tl l, x.tileq = tl :: l → tl.ctx = q.ctx → Completes (.vTqpop cl) s fun t =>
        (∀ g j, g < 4 → j < 64 → i.active x j = true → (t.clu cl.toNat).lane (i.vd + g) j = tl.elem (4 * g + j / 16) (j % 16))
        ∧ (∀ n j, (n < i.vd ∨ i.vd + 4 ≤ n) → j < 64 → (t.clu cl.toNat).lane n j = x.lane n j)
        ∧ t.clu cl.toNat = { x with tileq := l, v := (t.clu cl.toNat).v, vrun := some (r.step q.img) } ∧ ClusterOnly cl s t)
      ∧ (x.tileq = [] → Completes (.vTqpop cl) s fun t =>
        t.clu cl.toNat = { x with vrun := some { r with
            waiting := true, since := if r.waiting = true then r.since else s.sched.clock } } ∧ ClusterOnly cl s t))
    ∧ (i.op = 0x40 → (i.rnd = true ∨ s.ownsIn q.ctx cl a 8 = true) → Completes (.vTally cl) s fun t =>
      let v := tallyRun i.vd (i.vb + 1) (fun g j => x.lane (i.va + g) j) (fun _ => i.active x) (x.kreg i.va).toNat (vElem q.img)
      t.clu cl.toNat = { x with
        tally := x.tally ++ [{ ctx := q.ctx, seq := q.seq, code := i.vd, value := v.1, aux := v.2, toq := i.rnd, accum := i.acc
                               dest := if i.rnd = true then i.vc % 8 else a }]
        vrun := some (r.step q.img) } ∧ ClusterOnly cl s t))
  ∧ (∀ (cl : ClId) (j : TallyJob) (l : List TallyJob) (s : State), (s.clu cl.toNat).tally = j :: l →
    (s.ctx j.ctx.toNat).st = .resident → Completes (.tallyResultWrite cl) s fun t =>
      let x := s.clu cl.toNat
      (t.clu cl.toNat).tally = l ∧ ClusterOnly cl s t
      ∧ (j.toq = false →
          let v := if j.accum = true then tallyAcc j.code (x.mem.read32 j.dest, x.mem.read32 (j.dest + 4)) (j.value, j.aux) else (j.value, j.aux)
          (t.clu cl.toNat).mem.read32 j.dest = v.1 ∧ (t.clu cl.toNat).mem.read32 (j.dest + 4) = v.2
          ∧ BytesBut j.dest 8 x.mem (t.clu cl.toNat).mem
          ∧ t.clu cl.toNat = { x with tally := l, mem := (t.clu cl.toNat).mem })
      ∧ (j.toq = true →
          let old := SMap.get {} (x.pc j.ctx.toNat).q j.dest
          let new := SMap.get {} ((t.clu cl.toNat).pc j.ctx.toNat).q j.dest
          new.valid = true ∧ new.ovr = (old.ovr || old.valid)
          ∧ (new.value, new.aux) = (if j.accum = true then tallyAcc j.code (old.value, old.aux) (j.value, j.aux) else (j.value, j.aux))
          ∧ t.clu cl.toNat = { x with tally := l, per := (t.clu cl.toNat).per }))
  ∧ (∀ (cl : ClId) (k : Nat) (r : MxRun) (o : Offer) (os : List Offer) (s : State), (s.clu cl.toNat).mq[k]? = some r →
    r.offers = o :: os → (Mx.of r.q.img).dest = 1 → (s.ctx r.q.ctx.toNat).st = .resident → (s.clu cl.toNat).tileq.length < 16 →
    (∀ u ∈ (s.clu cl.toNat).tileq, u.ctx = r.q.ctx) → Completes (.tileQueueAccept cl k) s fun t =>
      (t.clu cl.toNat).tileq = (s.clu cl.toNat).tileq ++
        [{ ctx := r.q.ctx, fmt := (Mx.of r.q.img).outFmt, codes := o.codes, scales := o.scales }]
      ∧ (∃ u, (t.clu cl.toNat).mq = (s.clu cl.toNat).mq.set k u ∧ u = { r with offers := os, acked := r.acked + 1, done := u.done })
      ∧ (t.clu cl.toNat).mem = (Mx.of r.q.img).storePeak ((Mx.of r.q.img).storeMask (s.clu cl.toNat).mem o) o
      ∧ t.census = (s.reportOffer r.q o).census ∧ SameBut State.clu cl.toNat s t
      ∧ NotesOnly { s with cls := t.cls, census := t.census, hbm := t.hbm } t)
  ∧ (∀ (cl : ClId) (c : Chain) (s : State),
    ((s.clu cl.toNat).service = true ∧ s.issueOpen (cl.toNat / 256) = true) ∨ s.boot.stage = 4 →
    chainFits c (s.boot.stage == 4) cl = true → cl.toNat % 256 < 150 → Completes (.fusedChain cl c) s fun t =>
      t = { s with cls := t.cls, td := t.td, free := s.free + 8 * c.count }
      ∧ (c.write = none → t.td = s.td ∧ t.clu cl.toNat = { s.clu cl.toNat with
            fused := (t.clu cl.toNat).fused, k := (t.clu cl.toNat).k }
          ∧ SameBut State.clu cl.toNat s t)
      ∧ (∀ a, c.write = some (.mem, a) → c.count = 1 →
          let r := chainVal c (s.clu cl.toNat) s.free 0 (c.reads.map (s.chainIn cl 0))
          (t.clu cl.toNat).mem.read32 a = r.out.getD r.val
          ∧ BytesBut a 4 (s.clu cl.toNat).mem (t.clu cl.toNat).mem ∧ t.td = s.td))

/-- O54. CALL starts a kernel and each Teller instruction sets its register, memory, queue or index and nothing
else. CALL starts the next kernel at its index with s1 to s4 the arguments, an empty set of summary registers
and its budget (0 is 2^32). An integer, immediate, float or convert instruction sets s(DST) alone (s0 stays
zero; a shift by 32 or more gives a free value) and goes on; LW and SW move one word of the context's region; a
taken branch or JMP goes to its index, or faults BAD_KERNEL outside the pages. GETQ takes VALUE and clears
VALID, or waits; GETQA and GETQF read. ISSUE puts a sound command into its queue and takes a token, or waits;
WAITQ waits for the queue's issued commands; RET ends and FAIL faults. TELLER_WAIT_END completes a wait whose
condition holds, that of ISSUE with its command queued. Without budget every operation faults TELLER_LIMIT.
BAD_KERNEL at the jump (log 71), unaligned addresses used as they are and the cluster of an issued image (log
94), and what ORDERED holds of one (log 44) are readings of the model. -/
def Obligations.TellerKernelsRunTheirTable : Prop :=
  (∀ (cl : ClId) (q : QE) (l : List QE) (s : State), (s.clu cl.toNat).tel = none → (s.clu cl.toNat).callq = q :: l →
    s.clOpen cl.toNat = true → (s.ctx q.ctx.toNat).st = .resident →
    ((s.clu cl.toNat).fetch q.ctx.toNat (fld q.img 0x10 12 0)).isSome = true → Completes (.call cl) s fun t =>
      ∃ x, (t.clu cl.toNat).tel = some x ∧ x.q = q ∧ x.pc = fld q.img 0x10 12 0 ∧ x.wait = .none ∧ x.ended = false
        ∧ x.budget = (if fld q.img 0x14 31 0 = 0 then 2 ^ 32 else fld q.img 0x14 31 0)
        ∧ (∀ n, x.get n = if 1 ≤ n ∧ n ≤ 4 then w32 q.img (0x14 + 4 * n) else 0)
        ∧ (t.clu cl.toNat).callq = l ∧ ((t.clu cl.toNat).pc q.ctx.toNat).q = []
        ∧ t.clu cl.toNat = { s.clu cl.toNat with tel := some x, callq := l, per := (t.clu cl.toNat).per } ∧ ClusterOnly cl s t)
  ∧ (∀ (cl : ClId) (x : Tel) (i : TI) (s : State), TelAt s cl x i →
    let a := telAddr x i
    let m := (s.clu cl.toNat).mem
    (1 ≤ i.op → i.op ≤ 0xB → Completes (.tellerIntegerOp cl) s fun t =>
      TelSets { s with free := t.free } t cl x (x.pc + 1) i.dst (telInt (i.op % 16) s.free (x.get i.src1) (x.get i.src2)))
    ∧ (0x11 ≤ i.op → i.op ≤ 0x1B → Completes (.tellerImmediateOp cl) s fun t =>
      TelSets { s with free := t.free } t cl x (x.pc + 1) i.dst (telInt (i.op % 16) s.free (x.get i.src1) i.imm))
    ∧ (0x20 ≤ i.op → i.op ≤ 0x24 → Completes (.tellerFloatOp cl) s fun t =>
      TelSets s t cl x (x.pc + 1) i.dst (telFloat i.op (x.get i.src1) (x.get i.src2)))
    ∧ (i.op = 0x25 → Completes (.tellerFcvt cl) s fun t =>
      TelSets s t cl x (x.pc + 1) i.dst (if i.func = 0 then cvtFromInt (x.get i.src1) else cvtToInt (x.get i.src1)))
    ∧ (i.op = 0x30 → s.ownsIn x.q.ctx cl a 4 = true → Completes (.tellerLw cl) s fun t =>
      TelSets s t cl x (x.pc + 1) i.dst (m.read32 a))
    ∧ (i.op = 0x30 → s.ownsIn x.q.ctx cl a 4 = false → Completes (.tellerLw cl) s fun t => Faulted s t x.q.ctx 0x0003)
    ∧ (i.op = 0x31 → s.ownsIn x.q.ctx cl a 4 = true → Completes (.tellerSw cl) s fun t =>
      (t.clu cl.toNat).mem.read32 a = x.get i.src2 ∧ BytesBut a 4 m (t.clu cl.toNat).mem
      ∧ t.clu cl.toNat = { s.clu cl.toNat with
        mem := (t.clu cl.toNat).mem, tel := some { x with pc := x.pc + 1, budget := x.budget - 1 } } ∧ ClusterOnly cl s t)
    ∧ (0x40 ≤ i.op → i.op ≤ 0x43 → ((s.clu cl.toNat).fetch x.q.ctx.toNat i.imm.toNat).isSome = true →
      Completes (.tellerBranch cl) s fun t =>
        TelSets s t cl x (if telCmp i.op (x.get i.src1) (x.get i.src2) = true then i.imm.toNat else x.pc + 1) 0 0)
    ∧ (0x40 ≤ i.op → i.op ≤ 0x43 → telCmp i.op (x.get i.src1) (x.get i.src2) = true →
      ((s.clu cl.toNat).fetch x.q.ctx.toNat i.imm.toNat).isSome = false →
      Completes (.tellerBranch cl) s fun t => Faulted s t x.q.ctx 0x0007)
    ∧ (0x40 ≤ i.op → i.op ≤ 0x43 → telCmp i.op (x.get i.src1) (x.get i.src2) = false → Completes (.tellerBranch cl) s fun t =>
      TelSets s t cl x (x.pc + 1) 0 0)
    ∧ (i.op = 0x44 → ((s.clu cl.toNat).fetch x.q.ctx.toNat i.imm.toNat).isSome = true → Completes (.tellerJmp cl) s fun t =>
      TelSets s t cl x i.imm.toNat 0 0)
    ∧ (i.op = 0x44 → ((s.clu cl.toNat).fetch x.q.ctx.toNat i.imm.toNat).isSome = false → Completes (.tellerJmp cl) s fun t =>
      Faulted s t x.q.ctx 0x0007)
    ∧ (i.op = 0x50 → Completes (.tellerGetq cl) s fun t =>
      let y := s.summary cl x i
      if y.valid = true then
        (∃ z, (t.clu cl.toNat).tel = some z ∧ z.pc = x.pc + 1 ∧ (i.dst ≠ 0 → z.get i.dst = y.value))
        ∧ SMap.get {} ((t.clu cl.toNat).pc x.q.ctx.toNat).q (i.func % 8) = { y with valid := false }
        ∧ t.clu cl.toNat = { s.clu cl.toNat with tel := (t.clu cl.toNat).tel, per := (t.clu cl.toNat).per } ∧ ClusterOnly cl s t
      else t.clu cl.toNat = { s.clu cl.toNat with tel := some { x with wait := .getq, since := s.sched.clock } } ∧ ClusterOnly cl s t)
    ∧ (i.op = 0x51 → Completes (.tellerGetqa cl) s fun t => TelSets s t cl x (x.pc + 1) i.dst (s.summary cl x i).aux)
    ∧ (i.op = 0x52 → Completes (.tellerGetqf cl) s fun t =>
      TelSets s t cl x (x.pc + 1) i.dst (BitVec.ofNat 32 (2 * (s.summary cl x i).ovr.toNat + (s.summary cl x i).valid.toNat)))
    ∧ (i.op = 0x60 → s.ownsIn x.q.ctx cl a 64 = true →
      let n := i.func % 4
      let raw : Image := BitVec.ofNat 512 (m.readN a 64)
      let img := issuedImage raw x.q cl
      let q : QE := { ctx := x.q.ctx, seq := x.q.seq, img := img, issued := true, acc := s.sched.clock }
      cClass img = (if n = 0 then 1 else if n = 1 then 2 else 4) → imageBad img = false →
      (∀ e b, s.issueFault x.q.ctx raw q = some (e, b) → Completes (.tellerIssue cl) s fun t => FaultedAt s t x.q.ctx e b)
      ∧ (s.issueFault x.q.ctx raw q = none → Completes (.tellerIssue cl) s fun t =>
        if (s.clu cl.toNat).full n = false ∧ (s.clu cl.toNat).foreignTile img x.q.ctx = false ∧ s.sched.tokens < 65536
            ∧ (cNotify img = true → (s.ctx x.q.ctx.toNat).bufferFull = false)
            ∧ (cOrdered img = true → s.issueHeld cl x.q = false) then
          t.sched = { s.sched with clock := s.sched.clock + 1, tokens := s.sched.tokens + 1 }
            ∧ t.clu cl.toNat = { (s.clu cl.toNat).enqueue n q with tel := some { x with pc := x.pc + 1, budget := x.budget - 1 } }
            ∧ SameBut State.clu cl.toNat s t ∧ t = { s with cls := t.cls, sched := t.sched }
        else t.clu cl.toNat = { s.clu cl.toNat with tel := some { x with wait := .issue, since := s.sched.clock } } ∧ ClusterOnly cl s t))
    ∧ (i.op = 0x62 → Completes (.tellerWaitq cl) s fun t =>
      if s.issuedOn cl x.q (i.func % 4) = 0 then TelSets s t cl x (x.pc + 1) 0 0
      else t.clu cl.toNat = { s.clu cl.toNat with tel := some { x with wait := .waitq, since := s.sched.clock } } ∧ ClusterOnly cl s t)
    ∧ (i.op = 0x70 → Completes (.tellerRet cl) s fun t =>
      t.clu cl.toNat = { s.clu cl.toNat with tel := some { x with pc := x.pc + 1, budget := x.budget - 1, ended := true } }
      ∧ ClusterOnly cl s t)
    ∧ (i.op = 0x71 → Completes (.tellerFail cl) s fun t => Faulted s t x.q.ctx 0x0008
      ∧ ∃ r, (t.ctx x.q.ctx.toNat).faultRec = some r ∧ r.detail = BitVec.ofNat 64 (i.imm.toNat % 65536)))
  ∧ (∀ (cl : ClId) (x : Tel) (w : W64) (s : State), s.telHead cl = some x → (s.clu cl.toNat).fetch x.q.ctx.toNat x.pc = some w →
    (x.wait = .waitq → s.issuedOn cl x.q ((TI.of w).func % 4) = 0 → Completes (.tellerWaitEnd cl) s fun t =>
      t.clu cl.toNat = { s.clu cl.toNat with tel := some { x with pc := x.pc + 1, budget := x.budget - 1, wait := .none } }
      ∧ ClusterOnly cl s t)
    ∧ (x.wait = .getq → (s.summary cl x (TI.of w)).valid = true → Completes (.tellerWaitEnd cl) s fun t =>
      (∃ z, (t.clu cl.toNat).tel = some z ∧ z.pc = x.pc + 1 ∧ z.wait = .none
        ∧ ((TI.of w).dst ≠ 0 → z.get (TI.of w).dst = (s.summary cl x (TI.of w)).value)) ∧ ClusterOnly cl s t)
    ∧ (let n := (TI.of w).func % 4
       let a := telAddr x (TI.of w)
       let raw : Image := BitVec.ofNat 512 ((s.clu cl.toNat).mem.readN a 64)
       let img := issuedImage raw x.q cl
       let q : QE := { ctx := x.q.ctx, seq := x.q.seq, img := img, issued := true, acc := s.sched.clock }
       x.wait = .issue → s.ownsIn x.q.ctx cl a 64 = true → cClass img = (if n = 0 then 1 else if n = 1 then 2 else 4) →
       imageBad img = false → s.issueFault x.q.ctx raw q = none → s.issueWaits cl x.q n img = false → Completes (.tellerWaitEnd cl) s fun t =>
        t.sched = { s.sched with clock := s.sched.clock + 1, tokens := s.sched.tokens + 1 }
          ∧ t.clu cl.toNat = { (s.clu cl.toNat).enqueue n q with
              tel := some { x with pc := x.pc + 1, budget := x.budget - 1, wait := .none } }
          ∧ SameBut State.clu cl.toNat s t ∧ t = { s with cls := t.cls, sched := t.sched }))
  ∧ (∀ (row : (ClId → Instr) × Nat × Nat), row ∈
      ([(.tellerIntegerOp, 0x01, 0x0B), (.tellerImmediateOp, 0x11, 0x1B), (.tellerFloatOp, 0x20, 0x24), (.tellerFcvt, 0x25, 0x25)
       , (.tellerLw, 0x30, 0x30), (.tellerSw, 0x31, 0x31), (.tellerBranch, 0x40, 0x43), (.tellerJmp, 0x44, 0x44)
       , (.tellerGetq, 0x50, 0x50), (.tellerGetqa, 0x51, 0x51), (.tellerGetqf, 0x52, 0x52), (.tellerIssue, 0x60, 0x60)
       , (.tellerWaitq, 0x62, 0x62), (.tellerRet, 0x70, 0x70), (.tellerFail, 0x71, 0x71)] : List ((ClId → Instr) × Nat × Nat)) →
    ∀ (cl : ClId) (x : Tel) (w : W64) (s : State), s.telHead cl = some x → x.wait = .none →
    (s.clu cl.toNat).fetch x.q.ctx.toNat x.pc = some w → row.2.1 ≤ (TI.of w).op → (TI.of w).op ≤ row.2.2 →
    (TI.of w).known = true → x.budget = 0 → Completes (row.1 cl) s fun t => Faulted s t x.q.ctx 0x0009)

/-- O55. DMA copies, transposes, spills, Vault records and Teller loads move exactly the bytes they name. A transfer
whose places its context may reach and that need not wait stores at its destination the source's bytes
(transposed, encoded or decoded as the mode says) and changes no other byte of any memory (SPILL_OUT with a
Census area: none outside that area besides): COPY, TRANSPOSE of an FP8, INT8 or INT4 tensor (element (i, j)
becomes (j, i)), SPILL_OUT and SPILL_IN. PLANE decodes to what was encoded. A remote COPY sends the source's
bytes in WRITE packets in order and waits for their acknowledgements. VAULT_PUSH puts data and trailer into the
Vault and counts one record more, or in HBM when the stack is full; VAULT_POP copies the top record out and
counts one less; of an empty stack it faults VAULT_ORDER. TELLER_LOAD fills the named page. Of every one of
these commands a place that is not allowed faults the context with the first check's code and the place's
address in DETAIL (the address is the choice of log 27), a malformed HBM address before all others; beside the
record and its trailer a push changes no byte of the cluster's memory. Readings of lengths and layouts are the
model's (log 67, 72). That TRANSPOSE moves ROWS x COLS elements and does not read LENGTH is its choice (log 93);
what the host wrote meanwhile is an operand (log 4). -/
def Obligations.TransfersMoveExactBytes : Prop :=
  (∀ (cl : ClId) (h : HostStores) (q : QE) (s : State),
    let u := s.hostStores h
    let i := q.img
    u.dmaHead cl 0 = some q →
    (bit (fld i 0x28 31 0) 12 = false → u.locCheck q.ctx (dSrc i) (dLen i) false = none →
      u.locCheck q.ctx (dDst i) (dLen i) true = none → u.srcWait (dSrc i) (dLen i) = false → u.locWait (dDst i) (dLen i) = false →
      Completes (.copy cl h) s fun t => Lands u t (dDst i) (u.locRead (dSrc i) (dLen i)) ∧ DmaRan u t cl)
    ∧ (∀ e b, PlaceFault u q.ctx ((dSrc i, dLen i, false)
          :: if bit (fld i 0x28 31 0) 12 = true then [] else [(dDst i, dLen i, true)]) e b →
        Completes (.copy cl h) s fun t => FaultedAt u t q.ctx e b)
    ∧ (∀ p dt, bit (fld i 0x28 31 0) 12 = true → u.locCheck q.ctx (dSrc i) (dLen i) false = none → u.srcWait (dSrc i) (dLen i) = false →
      let dev : DevId := BitVec.ofNat 12 (fld i 0x28 11 0)
      u.remapped dev ≠ u.devId → u.route (u.remapped dev) = some (p, dt) → Completes (.copy cl h) s fun t =>
        ∃ ps : List Packet, (t.prt6 p).txq = (u.prt6 p).txq ++ ps ∧ (ps.map (·.payload)).flatten = u.locRead (dSrc i) (dLen i)
          ∧ (∀ k ∈ ps, k.ty = 1 ∧ k.dst = u.remapped dev ∧ k.srcCtx = q.ctx ∧ k.payload.length ≤ 4096)
          ∧ t.clu cl.toNat = { u.clu cl.toNat with dwait := true, dleft := ps.length } ∧ SameBut State.clu cl.toNat u t
          ∧ SameBut State.prt6 p u t ∧ t = { u with cls := t.cls, port := t.port }))
  ∧ (∀ (cl : ClId) (h : HostStores) (q : QE) (s : State),
    let u := s.hostStores h
    let i := q.img
    let n := elemBytes (dFmt i) (fld i 0x28 15 0 * fld i 0x28 31 16)
    u.dmaHead cl 1 = some q → dFmt i ∈ [2, 3, 5, 6] →
    (∀ e b, PlaceFault u q.ctx [(dSrc i, n, false), (dDst i, n, true)] e b → Completes (.transpose cl h) s fun t => FaultedAt u t q.ctx e b)
    ∧ (u.locCheck q.ctx (dSrc i) n false = none → u.locCheck q.ctx (dDst i) n true = none →
    u.srcWait (dSrc i) n = false → u.locWait (dDst i) n = false → Completes (.transpose cl h) s fun t =>
      Lands u t (dDst i) (transposed (dFmt i) (fld i 0x28 15 0) (fld i 0x28 31 16) (u.locRead (dSrc i) n)) ∧ DmaRan u t cl))
  ∧ (∀ (fmt r c i j : Nat) (bs : List Byte), fmt ∈ [2, 3, 5, 6] → i < r → j < c →
      codeAt (asMem (transposed fmt r c bs)) fmt 0 (j * r + i) = codeAt (asMem bs) fmt 0 (i * c + j))
  ∧ (∀ (cl : ClId) (q : QE) (s : State), s.dmaHead cl 2 = some q →
    let i := q.img
    let r := spillEnc i (s.locRead (dSrc i) (dLen i))
    let aux := auxOf i r.2.1.length
    spillFmtBad i = false →
    (∀ e b, PlaceFault s q.ctx ((dSrc i, dLen i, false) :: (dDst i, r.1.length, true) :: aux.map fun a => (a.1, a.2, true)) e b →
      Completes (.spillOut cl) s fun t => FaultedAt s t q.ctx e b)
    ∧ (s.locCheck q.ctx (dSrc i) (dLen i) false = none → s.locCheck q.ctx (dDst i) r.1.length true = none →
    (∀ a ∈ aux, s.locCheck q.ctx a.1 a.2 true = none ∧ s.locWait a.1 a.2 = false) →
    s.srcWait (dSrc i) (dLen i) = false → s.locWait (dDst i) r.1.length = false → Completes (.spillOut cl) s fun t =>
      (dEnc i = 0 → Lands s t (dDst i) r.1 ∧ DmaRan s t cl)
      ∧ (dEnc i = 1 ∨ (s.nums q.ctx.toNat).censusBase = 0 → (dEnc i ≠ 0 → t.locRead (dAux i) r.2.1.length = r.2.1)
        ∧ ∀ a b, dDst i = .hbm a → dAux i = .hbm b → a + r.1.length ≤ b →
          t.hbm.readBytes a r.1.length = r.1
          ∧ ∀ p, ¬(a ≤ p ∧ p < a + r.1.length) → ¬(b ≤ p ∧ p < b + r.2.1.length) → t.hbm.read p = s.hbm.read p)
      ∧ (∀ j, t.clu j = { s.clu j with mem := (t.clu j).mem, ddone := (s.clu j).ddone || decide (j = cl.toNat) })
      ∧ (let base := (s.nums q.ctx.toNat).censusBase.toNat
         Untouched s t ((dDst i, r.1.length) :: aux ++ [(.hbm base, if base = 0 then 0 else 4096)]))
      ∧ NotesOnly { s with cls := t.cls, hbm := t.hbm, host := t.host, census := t.census } t))
  ∧ (∀ (fmt : Nat) (l : List Nat), fmt < 2 → l.length = 256 → (∀ c ∈ l, c < 65536) →
      planeDec (fmtOf fmt) (planeEnc (fmtOf fmt) l).1 (planeEnc (fmtOf fmt) l).2 = l)
  ∧ (∀ (cl : ClId) (h : HostStores) (q : QE) (s : State),
    let u := s.hostStores h
    let i := q.img
    let n := u.spillInLen i
    u.dmaHead cl 3 = some q → spillFmtBad i = false →
    (∀ e b, PlaceFault u q.ctx (((auxOf i n.2).map fun a => (a.1, a.2, false)) ++ [(dSrc i, n.1, false), (dDst i, dLen i, true)]) e b →
      Completes (.spillIn cl h) s fun t => FaultedAt u t q.ctx e b)
    ∧ ((∀ a ∈ auxOf i n.2, u.locCheck q.ctx a.1 a.2 false = none ∧ u.srcWait a.1 a.2 = false) → u.locCheck q.ctx (dSrc i) n.1 false = none → u.locCheck q.ctx (dDst i) (dLen i) true = none → u.srcWait (dSrc i) n.1 = false → u.locWait (dDst i) (dLen i) = false → Completes (.spillIn cl h) s fun t =>
      Lands u t (dDst i) ((packCodes (dFmt i) ((u.spillDec i).take (spillCount i))).take (dLen i)) ∧ DmaRan u t cl))
  ∧ (∀ (cl : ClId) (h : HostStores) (q : QE) (d : CluDesc) (s : State),
    let u := s.hostStores h
    let i := q.img
    let st := SMap.get {} ((u.clu cl.toNat).pc q.ctx.toNat).vault (dStack i)
    let x := d.trailer (dStack i) st.recs
    let stk := fun (w : State) (j : Nat) => SMap.get {} ((w.clu cl.toNat).pc q.ctx.toNat).vault j
    u.dmaHead cl 4 = some q → dLen i % 32 = 0 → (u.ctx q.ctx.toNat).desc cl = some d →
    (u.locNone (dSrc i) (dLen i) = true → Completes (.vaultPush cl h) s fun t => FaultedAt u t q.ctx 0x0003 (dSrc i).addr)
    ∧ (∀ f b, u.locNone (dSrc i) (dLen i) = false → u.pushTo q.ctx cl (dStack i) (dLen i) (fld i 0x2C 63 0) = .fault f b →
      Completes (.vaultPush cl h) s fun t => FaultedAt u t q.ctx f b)
    ∧ (∀ a e b, u.pushTo q.ctx cl (dStack i) (dLen i) (fld i 0x2C 63 0) = .vault a →
      PlaceFault u q.ctx [(dSrc i, dLen i, false), (.clu cl a, dLen i, true)] e b → Completes (.vaultPush cl h) s fun t =>
      FaultedAt u t q.ctx e b)
    ∧ (∀ e b, u.pushTo q.ctx cl (dStack i) (dLen i) (fld i 0x2C 63 0) = .hbm →
      PlaceFault u q.ctx [(dSrc i, dLen i, false), (.hbm (fld i 0x2C 63 0), dLen i, true)] e b → Completes (.vaultPush cl h) s fun t =>
      FaultedAt u t q.ctx e b)
    ∧ (u.locCheck q.ctx (dSrc i) (dLen i) false = none → u.srcWait (dSrc i) (dLen i) = false →
    (∀ a, u.pushTo q.ctx cl (dStack i) (dLen i) (fld i 0x2C 63 0) = .vault a → u.locCheck q.ctx (.clu cl a) (dLen i) true = none →
      Completes (.vaultPush cl h) s fun t =>
        (t.clu cl.toNat).mem.readBytes a (dLen i) = u.locRead (dSrc i) (dLen i)
        ∧ (t.clu cl.toNat).mem.read32 x = BitVec.ofNat 32 (fld i 0x28 31 0) ∧ (t.clu cl.toNat).mem.readN (x + 4) 4 = dLen i
        ∧ stk t (dStack i) = { top := st.top + dLen i, recs := st.recs + 1 } ∧ SameBut stk (dStack i) u t
        ∧ (∀ p, ¬(a ≤ p ∧ p < a + dLen i) → ¬(x ≤ p ∧ p < x + 32) → (t.clu cl.toNat).mem.read p = (u.clu cl.toNat).mem.read p)
        ∧ t.clu cl.toNat = { u.clu cl.toNat with mem := (t.clu cl.toNat).mem, per := (t.clu cl.toNat).per, ddone := true }
        ∧ ClusterOnly cl u t)
    ∧ (let fb := fld i 0x2C 63 0
       u.pushTo q.ctx cl (dStack i) (dLen i) fb = .hbm → u.hbmCheck q.ctx.toNat fb (dLen i) true false = none → u.guarded fb (dLen i) = false →
       Completes (.vaultPush cl h) s fun t =>
        t.hbm.readBytes fb (dLen i) = u.locRead (dSrc i) (dLen i) ∧ BytesBut fb (dLen i) u.hbm t.hbm
        ∧ (t.clu cl.toNat).mem.read32 x = BitVec.ofNat 32 (fld i 0x28 31 0) ∧ (t.clu cl.toNat).mem.readN (x + 4) 4 = dLen i
        ∧ stk t (dStack i) = { top := st.top, recs := st.recs + 1 } ∧ SameBut stk (dStack i) u t
        ∧ BytesBut x 32 (u.clu cl.toNat).mem (t.clu cl.toNat).mem ∧ SameBut State.clu cl.toNat u t
        ∧ t.clu cl.toNat = { u.clu cl.toNat with mem := (t.clu cl.toNat).mem, per := (t.clu cl.toNat).per, ddone := true }
        ∧ t.ctx q.ctx.toNat = { u.ctx q.ctx.toNat with vaultSpills := satInc (u.ctx q.ctx.toNat).vaultSpills }
        ∧ SameBut State.ctx q.ctx.toNat u t ∧ NotesOnly { u with cls := t.cls, hbm := t.hbm, ctxs := t.ctxs } t)))
  ∧ (∀ (cl : ClId) (q : QE) (d : CluDesc) (s : State), s.dmaHead cl 5 = some q →
    (s.ctx q.ctx.toNat).desc cl = some d → d.vaultSize ≠ 0 →
    (SMap.get {} ((s.clu cl.toNat).pc q.ctx.toNat).vault (dStack q.img)).recs = 0 → Completes (.vaultPop cl) s fun t =>
      Faulted s t q.ctx 0x000D ∧ ∀ j, (t.clu j).mem = (s.clu j).mem)
  ∧ (∀ (cl : ClId) (q : QE) (d : CluDesc) (tag : W32) (n : Nat) (l : Loc) (s : State), s.dmaHead cl 5 = some q →
    (s.ctx q.ctx.toNat).desc cl = some d → d.vaultSize ≠ 0 → s.topRecord q.ctx cl (dStack q.img) = some (tag, n, l) →
    (tag.toNat = fld q.img 0x28 31 0 → s.locCheck q.ctx l n false = none → s.locCheck q.ctx (dDst q.img) n true = none →
      s.srcWait l n = false → s.locWait (dDst q.img) n = false → Completes (.vaultPop cl) s fun t =>
        let old := SMap.get {} ((s.clu cl.toNat).pc q.ctx.toNat).vault (dStack q.img)
        Lands s t (dDst q.img) (s.locRead l n) ∧ (t.clu cl.toNat).ddone = true
        ∧ (SMap.get {} ((t.clu cl.toNat).pc q.ctx.toNat).vault (dStack q.img)).recs = old.recs - 1
        ∧ (∀ a, l = .clu cl a → (SMap.get {} ((t.clu cl.toNat).pc q.ctx.toNat).vault (dStack q.img)).top = old.top - n)
        ∧ (∀ j, t.clu j = { s.clu j with
              mem := (t.clu j).mem, per := (t.clu j).per, ddone := (s.clu j).ddone || decide (j = cl.toNat) })
        ∧ NotesOnly { s with cls := t.cls, hbm := t.hbm, host := t.host } t)
    ∧ (∀ e b, tag.toNat = fld q.img 0x28 31 0 → PlaceFault s q.ctx [(l, n, false), (dDst q.img, n, true)] e b →
      Completes (.vaultPop cl) s fun t => FaultedAt s t q.ctx e b)
    ∧ (tag.toNat ≠ fld q.img 0x28 31 0 → Completes (.vaultPop cl) s fun t => Faulted s t q.ctx 0x000D))
  ∧ (∀ (cl : ClId) (h : HostStores) (q : QE) (s : State),
    let u := s.hostStores h
    let i := q.img
    let pages := ((u.clu cl.toNat).pc q.ctx.toNat).tpages
    u.dmaHead cl 6 = some q →
    (∀ e b, fld i 0x28 31 0 * 4096 + dLen i ≤ 4096 * pages.length → PlaceFault u q.ctx [(dSrc i, dLen i, false)] e b →
      Completes (.tellerLoad cl h) s fun t => FaultedAt u t q.ctx e b)
    ∧ (fld i 0x28 31 0 * 4096 + dLen i ≤ 4096 * pages.length → u.locCheck q.ctx (dSrc i) (dLen i) false = none →
      u.srcWait (dSrc i) (dLen i) = false → Completes (.tellerLoad cl h) s fun t =>
        (dLen i ≤ 4096 →
          (∀ b < dLen i, imemByte (t.clu cl.toNat).imem (pages.getD (fld i 0x28 31 0) 0 * 4096 + b) = (u.locRead (dSrc i) (dLen i)).getD b 0)
          ∧ ∀ p, ¬(pages.getD (fld i 0x28 31 0) 0 * 4096 ≤ p ∧ p < pages.getD (fld i 0x28 31 0) 0 * 4096 + dLen i) →
              imemByte (t.clu cl.toNat).imem p = imemByte (u.clu cl.toNat).imem p)
        ∧ t.clu cl.toNat = { u.clu cl.toNat with imem := (t.clu cl.toNat).imem, ddone := true } ∧ ClusterOnly cl u t)
    ∧ (4096 * pages.length < fld i 0x28 31 0 * 4096 + dLen i → Completes (.tellerLoad cl h) s fun t => Faulted u t q.ctx 0x0007))

/-- O56. DESC_APPLY, LG_APPLY, SET_APPLY and the range and base registers install a sound table and reject another
with bit 0 raised. DESC_APPLY of a sound table installs its base, count and coefficients and is busy until its
end; otherwise, or while an update of the context is armed, REJECT is set with the first offending index and bit
0 raised. DESC_BASE, DESC_COUNT (at most 4,096) and COEFF_BASE are written while the context has no update. A
Ledger range is written unless it runs past the table, the context is IN, an entry of its present range is not
FREE, or another defined context's range overlaps; LG_APPLY puts every pool index on the free list in ascending
order, and is rejected without pages or over an entry in use. SET_APPLY installs the items of a sound set and
keeps what has been written since the last delta; in an epoch it is rejected. What a sound table (log 77) and a
sound set (log 52) are is the model's choice where the spec leaves it. A table that meets a byte in error is
rejected, and the error has the outcome of Table SG.5 (that it is rejected is the model's choice, log 28). A
table or range that the active tier's reserve cannot hold loses that tier (log 86). That a range past the
table's end is refused is the model's choice (log 83). So is that DESC_APPLY installs at once while BUSY shows
(log 48) and that what an item held when it was installed goes in the next delta (log 102). -/
def Obligations.TablesInstallOrAreRejected : Prop :=
  (∀ (v : W32) (s : State), bit v.toNat 0 = true → s.canWrite pgMintCtx = true →
    let c := s.sel.mtCtx
    let x := s.mtc c.toNat
    let l := (List.range x.descCount.toNat).map fun i =>
      (descOf s.hbm (x.descBase.toNat + 128 * i), s.factored x.coeffBase.toNat (descOf s.hbm (x.descBase.toNat + 128 * i)))
    let reads := (List.range l.length).flatMap (s.descReads c.toNat)
    (s.unitOn 1 = true → s.hasUpdate c = false → s.descOffender l = none → (∀ r ∈ reads, s.ueMeets r.1 r.2 = false) →
      Completes (.descApply v) s fun t => ∃ u,
      u.mtc c.toNat = { x with valid := true, reject := false, busy := true, first := 0, instBase := x.descBase
                               instCount := x.descCount, instCoeff := x.coeffBase }
      ∧ SameBut State.mtc c.toNat s u ∧ u = { s with mctx := u.mctx } ∧ TierKept u t)
    ∧ (∀ i, s.unitOn 1 = true → s.hasUpdate c = false → s.descOffender l = some i → (∀ r ∈ reads, s.ueMeets r.1 r.2 = false) →
      s.action pgMintCtx 0 ≠ 2 → Completes (.descApply v) s fun t =>
        t.mtc c.toNat = { x with reject := true, first := BitVec.ofNat 12 i } ∧ SameBut State.mtc c.toNat s t
        ∧ Stands t pgMintCtx 0 ∧ AlarmOnly { s with mctx := t.mctx } t)
    ∧ (∀ w, s.unitOn 1 = true → s.hasUpdate c = false → s.meetUe reads = some w → s.action pgMintCtx 0 ≠ 2 →
      Completes (.descApply v) s fun t => (t.mtc c.toNat).reject = true ∧ (t.mtc c.toNat).instBase = x.instBase
        ∧ Stands t pgMintCtx 0 ∧ AlarmOnly { w with mctx := t.mctx } t)
    ∧ (s.hasUpdate c = true → s.action pgMintCtx 0 ≠ 2 → Completes (.descApply v) s fun t =>
        (t.mtc c.toNat).reject = true ∧ (t.mtc c.toNat).instBase = x.instBase ∧ Stands t pgMintCtx 0
        ∧ (s.unitOn 1 = true → ∀ i, s.applyBad c l = some i → (t.mtc c.toNat).first = BitVec.ofNat 12 i)))
  ∧ (∀ (c : CtxId) (l : List (Desc × Bool)) (i : Nat) (s : State), s.applyBad c l = some i →
      (∀ u ∈ s.upd, u.ctx = c → i ≤ u.desc.toNat) ∧ (∀ k, s.descBad c.toNat l = some k → i ≤ k)
      ∧ (s.descBad c.toNat l = some i ∨ ∃ u ∈ s.upd, u.ctx = c ∧ u.desc.toNat = i))
  ∧ (∀ (c : CtxId) (s : State), (s.mtc c.toNat).busy = true → Completes (.descApplyDone c) s fun t =>
      t.mtc c.toNat = { s.mtc c.toNat with busy := false } ∧ SameBut State.mtc c.toNat s t ∧ t = { s with mctx := t.mctx })
  ∧ (∀ (v : W32) (s : State), s.canWrite pgMintCtx = true →
    let c := s.sel.mtCtx.toNat
    let x := s.mtc c
    (s.hasUpdate s.sel.mtCtx = false →
      Completes (.mintTableBaseWrite 0x48 v) s (fun t => t.mtc c = { x with descBase := v ++ x.descBase.setWidth 32 }
        ∧ SameBut State.mtc c s t ∧ t = { s with mctx := t.mctx })
      ∧ Completes (.mintTableBaseWrite 0x44 v) s (fun t =>
        t.mtc c = { x with descBase := (x.descBase >>> 32).setWidth 32 ++ (v &&& 0xFFFFFF80#32) }
        ∧ SameBut State.mtc c s t ∧ t = { s with mctx := t.mctx })
      ∧ Completes (.mintTableBaseWrite 0x54 v) s (fun t => t.mtc c = { x with coeffBase := v ++ x.coeffBase.setWidth 32 }
        ∧ SameBut State.mtc c s t ∧ t = { s with mctx := t.mctx })
      ∧ Completes (.mintTableBaseWrite 0x50 v) s (fun t =>
        t.mtc c = { x with coeffBase := (x.coeffBase >>> 32).setWidth 32 ++ (v &&& 0xFFFFF000#32) }
        ∧ SameBut State.mtc c s t ∧ t = { s with mctx := t.mctx })
      ∧ (v.toNat % 2 ^ 13 ≤ 4096 → Completes (.mintTableBaseWrite 0x4C v) s fun t => t.mtc c = { x with descCount := v.setWidth 13 }
        ∧ SameBut State.mtc c s t ∧ t = { s with mctx := t.mctx }))
    ∧ (∀ off : BitVec 12, off ∈ [0x44, 0x48, 0x4C, 0x50, 0x54] →
        (s.hasUpdate s.sel.mtCtx = true ∨ (off = 0x4C ∧ 4096 < v.toNat % 2 ^ 13)) → s.action pgMintCtx 0 ≠ 2 →
        Completes (.mintTableBaseWrite off v) s fun t => Stands t pgMintCtx 0 ∧ AlarmOnly s t))
  ∧ (∀ (v : W32) (s : State), s.canWrite pgLedger = true →
    let c := s.sel.lgCtx
    let x := s.lgc c.toNat
    (if s.rangeRefused c (v.toNat % 2 ^ 14) (v.toNat / 65536 % 2 ^ 15) 16384 (fun x => (x.entFirst, x.entCount)) = false then
      Completes (.lgEntRangeWrite v) s fun t => ∃ u,
        u.lgc c.toNat = { x with entFirst := v.toNat % 2 ^ 14, entCount := v.toNat / 65536 % 2 ^ 15 }
        ∧ SameBut State.lgc c.toNat s u ∧ u = { s with lgC := u.lgC } ∧ TierKept u t
     else s.action pgLedger 0 ≠ 2 → Completes (.lgEntRangeWrite v) s fun t => Stands t pgLedger 0 ∧ AlarmOnly s t)
    ∧ (if s.rangeRefused c (v.toNat % 2 ^ 9) (v.toNat / 65536 % 2 ^ 10) 512 (fun x => (x.adpFirst, x.adpCount)) = false then
      Completes (.lgAdpRangeWrite v) s fun t => ∃ u,
        u.lgc c.toNat = { x with adpFirst := v.toNat % 2 ^ 9, adpCount := v.toNat / 65536 % 2 ^ 10 }
        ∧ SameBut State.lgc c.toNat s u ∧ u = { s with lgC := u.lgC } ∧ TierKept u t
     else s.action pgLedger 0 ≠ 2 → Completes (.lgAdpRangeWrite v) s fun t => Stands t pgLedger 0 ∧ AlarmOnly s t)
    ∧ (bit v.toNat 0 = true → Completes (.lgApply v) s fun t =>
        (x.poolCount ≠ 0 → (∀ i ∈ x.ents, (s.ent i).state = 0) →
          t.lgc c.toNat = { x with valid := true, reject := false, free := List.range x.poolCount, iKv := x.kvCfg, iPool := x.poolBase
                                   iCount := x.poolCount, iLink := x.linkBase }
          ∧ SameBut State.lgc c.toNat s t ∧ t = { s with lgC := t.lgC })
        ∧ (x.poolCount = 0 → s.action pgLedger 0 ≠ 2 → t.lgc c.toNat = { x with reject := true } ∧ Stands t pgLedger 0
          ∧ AlarmOnly { s with lgC := t.lgC } t)
        ∧ ((∃ i ∈ x.ents, (s.ent i).state ≠ 0) → s.action pgLedger 0 ≠ 2 → t.lgc c.toNat = { x with reject := true }
          ∧ Stands t pgLedger 0 ∧ AlarmOnly { s with lgC := t.lgC } t)))
  ∧ (∀ (v : W32) (s : State), bit v.toNat 0 = true → s.canWrite pgStrong = true →
    let c := s.sel.sgCtx
    let x := s.sgc c.toNat
    let l := s.setTable c.toNat
    (x.epoch ≠ none → s.action pgStrong 0 ≠ 2 → Completes (.setApply v) s fun t =>
      t.sgc c.toNat = { x with reject := true, first := 0 } ∧ SameBut State.sgc c.toNat s t
      ∧ Stands t pgStrong 0 ∧ AlarmOnly { s with sgC := t.sgC } t)
    ∧ (s.unitOn 2 = true → x.epoch = none → s.offender c.toNat l = none → Completes (.setApply v) s fun t => ∃ u,
      u.sgc c.toNat = { x with items := l, valid := true, reject := false, first := 0, dirty := (u.sgc c.toNat).dirty }
      ∧ (∀ g ∈ x.dirty, g ∈ (u.sgc c.toNat).dirty)
      ∧ (∀ it ∈ l, it.kind = 1 → ∀ g ∈ granulesOf it.base it.len, it.base ≤ 256 * g → 256 * g < it.base + it.len →
          x.mirrored g = false → g ∈ (u.sgc c.toNat).dirty)
      ∧ SameBut State.sgc c.toNat s u ∧ u = { s with sgC := u.sgC } ∧ TierKept u t)
    ∧ (∀ w, s.unitOn 2 = true → x.epoch = none → s.meetUe [(x.itemPlace 0, 32 * l.length)] = some w → s.action pgStrong 0 ≠ 2 →
      Completes (.setApply v) s fun t =>
        (t.sgc c.toNat).reject = true ∧ Stands t pgStrong 0 ∧ AlarmOnly { w with sgC := t.sgC } t)
    ∧ (∀ i, s.unitOn 2 = true → x.epoch = none → s.offender c.toNat l = some i → s.meetUe [(x.itemPlace 0, 32 * l.length)] = none →
      s.action pgStrong 0 ≠ 2 → Completes (.setApply v) s fun t =>
        t.sgc c.toNat = { x with reject := true, first := BitVec.ofNat 10 i } ∧ SameBut State.sgc c.toNat s t
        ∧ Stands t pgStrong 0 ∧ AlarmOnly { s with sgC := t.sgC } t))

/-- O57. An UPDATE arms on its Mints, takes one OPEN, applies its bundles in order, runs its second pass and
completes. A sound UPDATE joins the updates, armed when every Mint of its stripe has a slot (then the clip
factor is read); a check of R156 that fails faults with its status, shown in MINT_LAST_FAULT (of CLIP_SRC and
NORM_DEST an absent cluster before an address). A waiting one goes on claiming. An OPEN of its step opens it
once, with the inverse scale 2^-E(s) of R134. A bundle that is next is applied: only bytes of its own elements,
and of its row, change, and the element update of R162 is written by stochastic rounding; one that is early
waits in its Mint's reorder buffer of 64. Pass 2 runs on every Mint. At completion STEP, LAST_DONE and the norm
word are written, nothing else, and the command completes with status 0, 1 after a skipped element, or 2 for a
frozen layer, which writes nothing. That the clip factor is read when every Mint is armed is the reading of the
model (log 46), as are which Mint notes a fault (log 98) and the wait of a NORM_DEST in a cluster in SERVICE
(log 53). A NORM_DEST or CLIP_SRC in a cluster that has failed faults UNIT_FAIL. -/
def Obligations.UpdatesArmOpenApplyAndComplete : Prop :=
  (∀ (c : CtxId) (q : QE) (s : State), s.sched.update.find? (fun q => q.ctx = c) = some q → (s.ctx c.toNat).st = .resident →
    (∀ u, s.arming q = .go u → (∀ h ∈ u.shares, s.slotFree u h.stack = true) → Completes (.update c) s fun t =>
      ∃ w, t.upd = s.upd ++ [w] ∧ w.armed = true ∧ w = { u with shares := w.shares, clip := w.clip }
        ∧ w.clip = (if u.frozen = false ∧ u.d.clipSrc ≠ 0
            then (s.clu (wordAt u.d.clipSrc).1.toNat).mem.read32 (wordAt u.d.clipSrc).2 else u.clip)
        ∧ t.sched = { s.sched with update := s.sched.update.filter (· ≠ q) } ∧ SameBut State.ctx c.toNat s t
        ∧ t = { s with upd := t.upd, sched := t.sched, ctxs := t.ctxs })
    ∧ (∀ st m, s.arming q = .status st (some m) → Completes (.update c) s fun t =>
      Faulted s t c (BitVec.ofNat 16 (0x100 + st))
      ∧ (t.mnt m).lastFault = BitVec.ofNat 32 (st + fld q.img 0x10 11 0 * 2 ^ 8 + c.toNat * 2 ^ 20))
    ∧ (∀ f m a, s.arming q = .code f m a → Completes (.update c) s fun t => FaultedAt s t c f a))
  ∧ (∀ (c : CtxId) (ws : List W32) (f : U16 × Nat) (s : State), s.wordsFault c ws = some f →
    (∃ w ∈ ws, s.wordFault c w = some f) ∧ (f.1 ≠ 0x0004 → ∀ w ∈ ws, ∀ a, s.wordFault c w ≠ some (0x0004, a)))
  ∧ (∀ (c : CtxId) (desc : BitVec 12) (u : Update) (s : State), s.updOf c desc = some u → u.armed = false →
    (s.ctx c.toNat).st = .resident →
    (u.frozen = false → s.wordFailed u.d.clipSrc = true ∨ s.wordFailed u.d.normDest = true → Completes (.updateArmResume c desc) s fun t =>
      Faulted s t c 0x0504)
    ∧ (u.frozen = true ∨ (s.wordFailed u.d.clipSrc = false ∧ s.wordFailed u.d.normDest = false) →
      (∀ h ∈ u.shares, s.slotFree u h.stack = true) → Completes (.updateArmResume c desc) s fun t =>
      (∃ w, t.updOf c desc = some w ∧ w.armed = true ∧ w = { u with shares := w.shares, clip := w.clip })
      ∧ t.upd.length = s.upd.length ∧ SameBut State.ctx c.toNat s t ∧ t = { s with upd := t.upd, ctxs := t.ctxs }))
  ∧ (∀ (p : PortId) (k : Packet) (more : Option Packet) (u : Update) (s : State), Arrives s p k 6 →
    let desc := BitVec.ofNat 12 k.target.toNat
    let n := k.aux.toNat % 2 ^ 48
    let x := s.nums k.dstCtx.toNat
    s.updOf k.dstCtx desc = some u → u.armed = true → (∀ h ∈ u.shares, s.mintHeld h.stack = false) → k.step = u.step →
    u.opened = false → (if u.d.rows = true then n % u.d.nCols = 0 else n = u.d.total) → u.frozen = false →
    ∀ e, (k.step = x.step ∧ e = x.e) ∨ (k.step = x.step - 1 ∧ e = x.ePrev) → Completes (.mintOpen (.link p k more)) s fun t =>
      t.updOf k.dstCtx desc = some { u with opened := true, total := n, scale := pow2 (-e.toInt) } ∧ Owes s t p k
      ∧ t = { s with upd := t.upd, port := t.port })
  ∧ (∀ (i : Nat) (b : Bundle) (u : Update) (s : State),
    s.engineMsg true (fun b => (s.doOpen b.ctx b.desc b.step b.count).isSome) = some (i, b) →
    s.opening b.ctx b.desc b.step b.count = .go u → Completes (.mintOpen .engine) s fun t => t = (s.dropMsg i).setUpd u)
  ∧ (∀ (p : PortId) (k : Packet) (more : Option Packet) (u : Update) (i pos : Nat) (h : Share) (s : State), Arrives s p k 7 →
    (∀ m ∈ more, m ∉ s.links.loop ∧ Arrives (s.given p k) p m 7) →
    let w := more.elim (s.given p k) fun m => (s.given p k).given p m
    let b := w.bundleOf k more
    s.upd.find? (fun u => u.is b.ctx b.desc && u.opened && u.step == b.step) = some u →
    (∀ h ∈ u.shares, (s.mnt h.stack).service = false) → b.vals.all isFinite = true →
    (u.fate b = .apply i pos → u.shares[i]? = some h → u.frozen = false → s.issueOpen (h.stack / 3) = true →
      (s.nums u.ctx.toNat).censusBase = 0 →
      let j : Job := { u := u, i := i, seed := (s.nums u.ctx.toNat).seed }
      (∀ r ∈ j.ranges pos b.vals.length, s.guarded r.1 r.2 = false) → (∀ r ∈ j.reads pos b.vals.length, s.hbmWait r.1 r.2 = false) →
      s.mintCheck u.ctx (j.ranges pos b.vals.length) (j.reads pos b.vals.length) = none →
      Completes (.mintBundle (.link p k more)) s fun t =>
        (∀ a, (∀ r ∈ j.ranges pos b.vals.length, ¬(r.1 ≤ a ∧ a < r.1 + r.2)) → t.hbm.read a = s.hbm.read a)
        ∧ (t.mnt h.stack).elems = (s.mnt h.stack).elems + BitVec.ofNat 32 b.vals.length ∧ SameBut State.mnt h.stack s t
        ∧ NotesOnly { w with hbm := t.hbm, upd := t.upd, mint := t.mint, mctx := t.mctx, num := t.num, census := t.census } t
        ∧ (∀ g, b.vals = [g] → u.d.rows = false → u.d.wFmt < 2 → u.c.mFull = false → u.c.vMode = 0 → u.c.two = false →
            let g0 := fmul g (fmul u.scale u.clip)
            let g1 := if isZero u.c.gClip = true then g0 else fclamp g0 (fneg u.c.gClip) u.c.gClip
            let old := j.rdW s.hbm pos
            isFinite g1 = true →
            t.hbm.readN (j.at_ u.d.wBase (2 * pos)) 2 = (convert u.d.wFmt (j.rnd u.d.tidW (u.d.elem i pos))
              (u.wnew old (u.c.dir (j.corr s.hbm pos) (fma u.c.e1 0 (fma u.c.e2 g1 (fmul u.c.e3 0))) 0) one32) 0).code % 65536))
    ∧ (u.fate b = .buffer i pos → u.shares[i]? = some h → s.buffered h.stack < 64 → Completes (.mintBundle (.link p k more)) s fun t =>
        t = w.setUpd (u.putShare { h with reorder := h.reorder ++ [b] })))
  ∧ (∀ (i : Nat) (b : Bundle) (s s' : State), s.engineMsg false (fun b => (s.takeBundle (s.cut b).1).isSome) = some (i, b) →
    (s.cut b).2 = none → (s.dropMsg i).takeBundle (s.cut b).1 = some s' → Completes (.mintBundle .engine) s (· = s'))
  ∧ (∀ (m : StackId) (c : CtxId) (desc : BitVec 12) (u : Update) (h : Share) (i : Nat) (b : Bundle) (s s' : State),
    s.updOf c desc = some u → u.shares.zipIdx.find? (fun h => h.1.stack = m.val) = some (h, i) →
    h.reorder.find? (fun b => (u.d.place b.first).2 = h.next) = some b →
    s.applyAt (u.putShare { h with reorder := h.reorder.filter (· ≠ b) }) i h.next b.vals = some s' →
    Completes (.reorderBundleApply m c desc) s (· = s'))
  ∧ (∀ (c : CtxId) (desc : BitVec 12) (u : Update) (s : State), s.updOf c desc = some u → u.pass1Done = true →
    (u.c.two = true → u.frozen = false → (∀ h ∈ u.shares, h.pass2 = false ∧ s.mintRuns h.stack = true) →
      (∀ r ∈ u.pass2Ranges, s.guarded r.1 r.2 = false) → (∀ r ∈ u.pass2Reads, s.hbmWait r.1 r.2 = false) →
      s.mintCheck c u.pass2Ranges u.pass2Reads = none → Completes (.pass2Start c desc) s fun t =>
        (∃ w, t.updOf c desc = some w ∧ (∀ h ∈ w.shares, h.pass2 = true) ∧ w = { u with shares := w.shares }
          ∧ w.shares.length = u.shares.length)
        ∧ NotesOnly { s with hbm := t.hbm, upd := t.upd, mint := t.mint, census := t.census } t)
    ∧ (let a := (s.mtc c.toNat).instBase.toNat + 128 * desc.toNat + 4
       u.torn = false → u.frozen = false → (u.c.two = true → ∀ h ∈ u.shares, h.pass2 = true) → s.guarded a 8 = false →
       (u.d.normDest ≠ 0 → (s.ctx c.toNat).st = .resident ∧ s.cluShut (wordAt u.d.normDest).1.toNat = false) →
       (s.wordFailed u.d.normDest = true → Completes (.updateComplete c desc) s fun t => Faulted s t c 0x0504)
       ∧ (s.wordFailed u.d.normDest = false → s.hbmCheck c.toNat a 8 true true = none → s.action pgMintCtx 3 ≠ 2 →
       Completes (.updateComplete c desc) s fun t =>
        t.hbm.read32 a = u.step + 1 ∧ t.hbm.read32 (a + 4) = u.step ∧ BytesBut a 8 s.hbm t.hbm
        ∧ (if u.d.normDest = 0 then t.cls = s.cls else
            (t.clu (wordAt u.d.normDest).1.toNat).mem.read32 (wordAt u.d.normDest).2 = u.merged (·.norm)
            ∧ BytesBut (wordAt u.d.normDest).2 4 (s.clu (wordAt u.d.normDest).1.toNat).mem (t.clu (wordAt u.d.normDest).1.toNat).mem
            ∧ SameBut State.clu (wordAt u.d.normDest).1.toNat s t)
        ∧ Finishes s t (s.updCmd u) (if u.nonfinite = true then 1 else 0) ∧ t.upd = s.upd.filter (fun x => !x.is u.ctx u.desc)
        ∧ (t.mtc c.toNat).updates = (s.mtc c.toNat).updates + 1 ∧ (u.nonfinite = true → Stands t pgMintCtx 3) ∧ t.pot = s.pot))
    ∧ (u.torn = false → u.frozen = true → s.action pgMintCtx 1 ≠ 2 → Completes (.updateComplete c desc) s fun t =>
        t.hbm = s.hbm ∧ t.cls = s.cls ∧ Finishes s t (s.updCmd u) 2 ∧ Stands t pgMintCtx 1
        ∧ t.upd = s.upd.filter (fun x => !x.is u.ctx u.desc) ∧ (t.mtc c.toNat).frozenCount = (s.mtc c.toNat).frozenCount + 1))

/-- O58. SEQ commands open, set, pause, resume, free, gather, commit, and load adapters and variants as the Ledger's
tables say. With the Ledger enabled, OPEN fills a FREE entry and takes an adapter reference; SET replaces
PRIORITY and DEADLINE; FREE returns the pages, exact before compressed, to the head of the free list; PAUSE,
exact or compressing, and RESUME change the page lists as R207 and R208 say, with KEPT_EXACT and waiting for
pages as completion codes; an entry IN_STEP takes a pending flag. GATHER marks what it takes, keeps within
ROW_MAX and TOKEN_BUDGET, and leaves its manifest outstanding and written; COMMIT applies Table LG.6, frees the
pages beyond, acts on pending flags and ends the manifest. ADAPTER_LOAD moves CUR to OLD, or completes
SLOT_BUSY; VARIANT_LOAD copies its bytes and sets the variant. An entry outside the range, a state the table
does not admit, a manifest already or not outstanding, a result past its row, a bad slot and a failed source
fault; a disabled Ledger faults all nine. Nothing else changes. NEXT_TOKEN after OPEN, the same for equal
commands (R198), and the links of freed pages are free values (log 78, 79); the order of groups in a compression
is the model's (log 80). So are that ADAPTER_LOAD of rank 0 and address 0 takes VERSION + 1 (log 81), that a
pending pause remembers EXACT (log 50), that LG_ENTRY is found before LG_STATE, that an adapter slot is ignored
where ADAPTER_EN is 0 and that an empty manifest is outstanding (log 49), and flash bytes as an operand of the
load (log 82). -/
def Obligations.SequenceCommandsKeepTheTable : Prop :=
  (∀ (c : CtxId) (q : QE) (s : State) (op : Instr × Nat),
    op ∈ [(Instr.seqOpen c, 1), (.seqGather c, 2), (.seqCommit c, 3), (.seqPause c, 4), (.seqResume c, 5), (.seqFree c, 6), (.seqSet c, 7),
      (.seqAdapterLoad c, 8), (.seqVariantLoad c true [], 9)] →
    s.seqHead c op.2 = some q → s.unitOn 3 = false → Completes op.1 s fun t => Faulted s t c 0x0301)
  ∧ (∀ (c : CtxId) (q : QE) (s : State) (op : Instr × Nat),
    op ∈ [(Instr.seqOpen c, 1), (.seqPause c, 4), (.seqResume c, 5), (.seqFree c, 6), (.seqSet c, 7)] → s.seqHead c op.2 = some q →
    s.unitOn 3 = true →
    let i := fld q.img 0x14 13 0
    let st := (s.ent i).state
    ((s.lgc c.toNat).hasEnt i = false → Completes op.1 s fun t => Faulted s t c 0x0302)
    ∧ ((s.lgc c.toNat).hasEnt i = true →
        (op.2 = 1 ∧ st ≠ 0) ∨ ((op.2 = 6 ∨ op.2 = 7) ∧ st = 0) ∨ (op.2 = 4 ∧ st ∈ [0, 5, 6, 7]) ∨ (op.2 = 5 ∧ st ≠ 5) →
        Completes op.1 s fun t => Faulted s t c 0x0303))
  ∧ (∀ (c : CtxId) (q : QE) (s : State), s.seqHead c 1 = some q → s.unitOn 3 = true →
    let i := fld q.img 0x14 13 0
    let k := fld q.img 0x28 8 0
    let en := bit (fld q.img 0x28 31 0) 9
    (s.lgc c.toNat).hasEnt i = true → (s.ent i).state = 0 →
    (en = true → (s.lgc c.toNat).hasAdp k = true ∧ (s.adp k).cur.rank ≠ 0) → Completes (.seqOpen c) s fun t =>
      t.ent i = { state := 1, owner := c, prio := BitVec.ofNat 8 (fld q.img 0x18 7 0), draftLen := fld q.img 0x18 12 8
                  deadline := w32 q.img 0x1C, maxLen := fld q.img 0x20 19 0, promptLeft := fld q.img 0x24 19 0
                  user := w32 q.img 0x2C, variant := (s.lgc c.toNat).variant, slot := BitVec.ofNat 9 k, adpEn := en
                  version := if en = true then (s.adp k).cur.version else 0, nextToken := Config.openToken i (s.lgc c.toNat).opens }
      ∧ SameBut State.ent i s t
      ∧ (if en = true then t.adp k = { s.adp k with cur := { (s.adp k).cur with refs := (s.adp k).cur.refs + 1 } }
          ∧ SameBut State.adp k s t else t.lgA = s.lgA)
      ∧ t.lgc c.toNat = { s.lgc c.toNat with opens := (s.lgc c.toNat).opens + 1 } ∧ SameBut State.lgc c.toNat s t
      ∧ SeqDone s t q 0 ∧ t = { s with lgE := t.lgE, lgA := t.lgA, lgC := t.lgC, sched := t.sched, ctxs := t.ctxs })
  ∧ (∀ (c : CtxId) (q : QE) (s : State), s.seqHead c 7 = some q → s.unitOn 3 = true →
    let i := fld q.img 0x14 13 0
    (s.lgc c.toNat).hasEnt i = true → (s.ent i).state ≠ 0 → Completes (.seqSet c) s fun t =>
      t.ent i = { s.ent i with prio := BitVec.ofNat 8 (fld q.img 0x18 7 0), deadline := w32 q.img 0x1C }
      ∧ SameBut State.ent i s t ∧ SeqDone s t q 0 ∧ t = { s with lgE := t.lgE, sched := t.sched, ctxs := t.ctxs })
  ∧ (∀ (c : CtxId) (q : QE) (s : State), s.seqHead c 6 = some q → s.unitOn 3 = true →
    let i := fld q.img 0x14 13 0
    let e := s.ent i
    let l := e.pages ++ e.cpages
    (s.lgc c.toNat).hasEnt i = true → e.state ≠ 0 →
    (e.inStep = true → Completes (.seqFree c) s fun t =>
      t.ent i = { e with freePend := true } ∧ SameBut State.ent i s t ∧ SeqDone s t q 0
      ∧ t = { s with lgE := t.lgE, sched := t.sched, ctxs := t.ctxs })
    ∧ (e.inStep = false → LinksOk s c l → Completes (.seqFree c) s fun t =>
      t.ent i = {} ∧ SameBut State.ent i s t
      ∧ t.lgc c.toNat = { s.lgc c.toNat with free := l.foldl (fun f p => p :: f) (s.lgc c.toNat).free } ∧ SameBut State.lgc c.toNat s t
      ∧ (if e.holds = true then t.adp e.slot.toNat = (s.adp e.slot.toNat).release e.version ∧ SameBut State.adp e.slot.toNat s t
          else t.lgA = s.lgA)
      ∧ LinksBut s t c l ∧ SeqDone s t q 0 ∧ LedgerOnly s t))
  ∧ (∀ (c : CtxId) (q : QE) (s : State), s.seqHead c 4 = some q → s.unitOn 3 = true →
    let i := fld q.img 0x14 13 0
    let e := s.ent i
    let x := s.lgc c.toNat
    let exact := bit (fld q.img 0x18 31 0) 0
    let p : Entry := { e with state := 5, pausePend := false, pauseExact := false }
    x.hasEnt i = true → e.state = 1 ∨ e.state = 2 ∨ e.state = 3 ∨ e.state = 4 →
    (e.inStep = true ∨ e.state = 3 ∨ e.state = 4 → Completes (.seqPause c) s fun t =>
      t.ent i = { e with pausePend := true, pauseExact := exact } ∧ SameBut State.ent i s t ∧ SeqDone s t q 0
      ∧ t = { s with lgE := t.lgE, sched := t.sched, ctxs := t.ctxs })
    ∧ (e.inStep = false → e.state = 1 ∨ e.state = 2 → LinksOk s c (e.pages ++ e.cpages) →
        exact = true ∨ 1 < x.kvFmt ∨ x.free.length < 2 → Completes (.seqPause c) s fun t =>
        t.ent i = p ∧ SameBut State.ent i s t ∧ SeqDone s t q (if exact = true then 0 else 2) ∧ LedgerOnly s t
        ∧ t.lgA = s.lgA ∧ t.lgC = s.lgC ∧ LinksBut s t c (e.pages ++ e.cpages)
        ∧ ((e.pages ++ e.cpages).Nodup → (∀ n ∈ e.pages ++ e.cpages, n < 2 ^ 24) →
            ∀ l ∈ e.links, t.hbm.readN (x.link l.1) 8 = l.2.1 + l.2.2 * 2 ^ 32))
    ∧ (∀ s', e.inStep = false → e.state = 1 ∨ e.state = 2 → exact = false → x.kvFmt ≤ 1 → 2 ≤ x.free.length →
        s.pauseEnt c.toNat i false = .done s' false → LinksOk s c ((s'.ent i).pages ++ (s'.ent i).cpages ++ s.freed s' c.toNat) →
        Completes (.seqPause c) s fun t =>
        let n := e.old x.tpp
        let z := squeeze x.free (e.pages.take n)
        t.ent i = { p with pages := e.pages.drop n, cpages := z.data ++ z.scale, cold := n, compressed := true }
        ∧ SameBut State.ent i s t ∧ t.lgc c.toNat = { x with free := z.free } ∧ SameBut State.lgc c.toNat s t
        ∧ SeqDone s t q 0 ∧ t.lgA = s.lgA ∧ LedgerOnly { s with census := t.census } t))
  ∧ (∀ (c : CtxId) (q : QE) (s : State), s.seqHead c 5 = some q → s.unitOn 3 = true →
    let i := fld q.img 0x14 13 0
    let e := s.ent i
    let x := s.lgc c.toNat
    let new := x.free.take e.cold
    let page := fun j => s.poolPage c.toNat j
    x.hasEnt i = true → e.state = 5 →
    (e.compressed = false → Completes (.seqResume c) s fun t =>
      t.ent i = { e with state := 1 } ∧ SameBut State.ent i s t ∧ SeqDone s t q 0
      ∧ t = { s with lgE := t.lgE, sched := t.sched, ctxs := t.ctxs })
    ∧ (e.compressed = true → x.free.length < e.cold → Completes (.seqResume c) s fun t =>
      SeqDone s t q 3 ∧ t = { s with sched := t.sched, ctxs := t.ctxs })
    ∧ (e.compressed = true → e.cold ≤ x.free.length →
      (∀ j ∈ new ++ e.cpages, s.hbmCheck c.toNat (x.word j) 4 false false = none) →
      (∀ j ∈ e.cpages, s.hbmCheck c.toNat (65536 * page j) 65536 false false = none) →
      (∀ j ∈ new, s.hbmCheck c.toNat (65536 * page j) 65536 true false = none ∧ s.guarded (65536 * page j) 65536 = false) →
      (∀ j ∈ new ++ e.cpages, s.hbmWait (x.word j) 4 = false) → (∀ j ∈ e.cpages, s.hbmWait (65536 * page j) 65536 = false) →
      LinksOk s c (new ++ e.pages ++ e.cpages) → Completes (.seqResume c) s fun t =>
        t.ent i = { e with state := 1, pages := new ++ e.pages, cpages := [], cold := 0, compressed := false }
        ∧ SameBut State.ent i s t
        ∧ t.lgc c.toNat = { x with free := e.cpages.foldl (fun f p => p :: f) (x.free.drop e.cold) } ∧ SameBut State.lgc c.toNat s t
        ∧ SeqDone s t q 0 ∧ LedgerOnly s t ∧ t.lgA = s.lgA))
  ∧ (∀ (c : CtxId) (q : QE) (s : State), s.seqHead c 2 = some q → s.unitOn 3 = true →
    let g := gOps q.img
    let x := s.lgc c.toNat
    let p := s.pick c g
    let bs := p.manifest c g
    let l := (p.rows.map fun r => (p.s.ent r.1.entry).pages ++ (p.s.ent r.1.entry).cpages).flatten
    ((x.man g.man).isSome = true → Completes (.seqGather c) s fun t => Faulted s t c 0x0304)
    ∧ (x.man g.man = none → s.hbmCheck c.toNat g.addr bs.length true false = none → s.guarded g.addr bs.length = false →
      (∀ i ∈ p.named, s.hbmCheck c.toNat (x.word i) 4 false false = none ∧ s.hbmWait (x.word i) 4 = false) → LinksOk s c l → s.action pgLedger 2 ≠ 2 →
      s.action pgLedger 3 ≠ 2 → Completes (.seqGather c) s fun t =>
        (t.lgc c.toNat).man g.man = some { phase := BitVec.ofNat 2 g.phase, rows := p.rows.map Prod.fst }
        ∧ t.lgE = p.s.lgE ∧ t.lgA = s.lgA ∧ (t.lgc c.toNat).free = (p.s.lgc c.toNat).free ∧ SameBut State.lgc c.toNat s t
        ∧ p.rows.length ≤ g.rowMax ∧ p.tokens ≤ g.budget ∧ p.tokens = (p.rows.map fun r => r.1.count).sum
        ∧ (∀ r ∈ p.rows, r.1.entry ∈ s.eligible c g.phase ∧ (s.ent r.1.entry).variant = x.variant ∧ 0 < r.1.count
            ∧ (t.ent r.1.entry).inStep = true ∧ (t.ent r.1.entry).preState = (s.ent r.1.entry).state
            ∧ (s.ent r.1.entry).reach g.phase r.1.count / x.tpp < (t.ent r.1.entry).pages.length)
        ∧ (∀ i, (∀ r ∈ p.rows, r.1.entry ≠ i) → t.ent i = s.ent i)
        ∧ ((∀ i ∈ l, x.link i + 8 ≤ g.addr ∨ g.addr + bs.length ≤ x.link i) → t.hbm.readBytes g.addr bs.length = bs)
        ∧ SeqDone s t q 0
        ∧ ∃ u, NotesOnly { s with lgE := t.lgE, lgC := t.lgC, hbm := t.hbm, ctxs := t.ctxs, sched := t.sched, free := t.free } u
          ∧ AlarmOnly u t))
  ∧ (∀ (c : CtxId) (q : QE) (s : State), s.seqHead c 3 = some q → s.unitOn 3 = true →
    let m := fld q.img 0x14 1 0
    let a := fld q.img 0x18 63 0
    let x := s.lgc c.toNat
    (x.man m = none → Completes (.seqCommit c) s fun t => Faulted s t c 0x0304)
    ∧ (∀ man, x.man m = some man → s.hbmCheck c.toNat a (8 * man.rows.length) false false = none →
      s.hbmWait a (8 * man.rows.length) = false →
      ((man.results s.hbm a).any (s.badResult man.phase.toNat) = true → Completes (.seqCommit c) s fun t => Faulted s t c 0x0305)
      ∧ (∀ s3 b, (man.results s.hbm a).any (s.badResult man.phase.toNat) = false → s.committed c.toNat man a = .done s3 b →
          LinksOk s c ((man.rows.map fun r => (s3.ent r.entry).pages ++ (s3.ent r.entry).cpages).flatten ++ s.freed s3 c.toNat) →
          Completes (.seqCommit c) s fun t =>
            t.lgE = s3.lgE ∧ t.lgA = s3.lgA ∧ (t.lgc c.toNat).man m = none ∧ (t.lgc c.toNat).free = (s3.lgc c.toNat).free
            ∧ SeqDone s t q 0 ∧ LedgerOnly { s with census := t.census } t)
      ∧ (∀ r, man.rows = [r] → (man.results s.hbm a).any (s.badResult man.phase.toNat) = false →
          let e := s.ent r.entry
          let e' := e.apply man.phase.toNat r (resultAt s.hbm a)
          let k := e'.keep x.tpp
          e.freePend = false → e.pausePend = false → LinksOk s c (e.pages ++ e.cpages) → Completes (.seqCommit c) s fun t =>
            t.ent r.entry = { e' with pages := e.pages.take k } ∧ SameBut State.ent r.entry s t
            ∧ (t.lgc c.toNat).free = (e.pages.drop k).foldl (fun f p => p :: f) x.free ∧ (t.lgc c.toNat).man m = none
            ∧ (if e'.state = 6 ∧ e.holds = true then t.adp e.slot.toNat = (s.adp e.slot.toNat).release e.version else t.lgA = s.lgA)
            ∧ LinksBut s t c (e.pages ++ e.cpages) ∧ SeqDone s t q 0 ∧ LedgerOnly s t)))
  ∧ (∀ (e : Entry) (phase : Nat) (r : MRow) (v : Result),
    (v.drop = true → e.apply phase r v = { e with inStep := false, state := if phase = 1 then 2 else e.state })
    ∧ (v.drop = false → phase = 0 → r.prompt = true → e.length + r.count < e.maxLen → e.apply phase r v =
        { e with inStep := false, length := e.length + r.count, promptLeft := e.promptLeft - r.count
                 nextToken := if e.promptLeft - r.count = 0 then v.token else e.nextToken })
    ∧ (v.drop = false → phase = 0 → r.prompt = false → e.length + 1 < e.maxLen → e.apply phase r v =
        { e with inStep := false, length := e.length + 1, nextToken := v.token, state := if v.done = true then 6 else e.state })
    ∧ (v.drop = false → phase = 1 → e.length < e.maxLen → e.apply phase r v =
        { e with inStep := false, drafted := v.n, state := if 0 < v.n then 4 else 2 })
    ∧ (v.drop = false → phase = 2 → e.length + 1 + v.n < e.maxLen → e.apply phase r v =
        { e with inStep := false, length := e.length + 1 + v.n, nextToken := v.token, drafted := 0
                 state := if v.done = true then 6 else 2 })
    ∧ (v.drop = false → (phase = 0 ∧ r.prompt = true ∧ e.maxLen ≤ e.length + r.count) ∨ (phase = 0 ∧ r.prompt = false ∧ e.maxLen ≤ e.length + 1)
        ∨ (phase = 2 ∧ e.maxLen ≤ e.length + 1 + v.n) →
        (e.apply phase r v).length = e.maxLen ∧ (e.apply phase r v).trunc = true ∧ (e.apply phase r v).state = 6
        ∧ (e.apply phase r v).inStep = false ∧ (e.apply phase r v).pages = e.pages))
  ∧ (∀ (c : CtxId) (q : QE) (s : State), s.seqHead c 8 = some q → s.unitOn 3 = true →
    let k := fld q.img 0x14 8 0
    let rank := fld q.img 0x18 7 0
    let addr := w64 q.img 0x20
    if (s.lgc c.toNat).hasAdp k = true ∧ ¬(rank = 0 ∧ addr ≠ 0) ∧ rank ≤ 128 then
      ((s.adp k).old.refs ≠ 0 → Completes (.seqAdapterLoad c) s fun t =>
        SeqDone s t q 1 ∧ t = { s with sched := t.sched, ctxs := t.ctxs })
      ∧ ((s.adp k).old.refs = 0 → Completes (.seqAdapterLoad c) s fun t =>
        t.adp k = { old := (s.adp k).cur
                    cur := { version := (s.adp k).cur.version + 1, rank := BitVec.ofNat 8 rank, addr := addr, refs := 0 } }
        ∧ SameBut State.adp k s t ∧ SeqDone s t q 0 ∧ t = { s with lgA := t.lgA, sched := t.sched, ctxs := t.ctxs })
    else Completes (.seqAdapterLoad c) s fun t => Faulted s t c 0x0306)
  ∧ (∀ (c : CtxId) (ok : Bool) (h : HostStores) (q : QE) (s : State),
    let flash := bit (fld q.img 0x14 31 0) 8
    let u := if flash = true then s else s.hostStores h
    let d := fld q.img 0x28 63 0
    let n := fld q.img 0x30 31 0 * 4096
    let src := if flash = true then (Mem.stores [] h).readBytes 0 n else u.host.readBytes (fld q.img 0x18 63 0) n
    s.seqHead c 9 = some q → s.unitOn 3 = true →
    ((∃ i ∈ (s.lgc c.toNat).ents, (s.ent i).inStep = true) → Completes (.seqVariantLoad c ok h) s fun t => Faulted u t c 0x0303)
    ∧ ((∀ i ∈ (s.lgc c.toNat).ents, (s.ent i).inStep = false) → s.hbmCheck c.toNat d n true false = none → s.guarded d n = false →
      flash = true ∨ s.boot.hostUp = true →
      (ok = false → Completes (.seqVariantLoad c ok h) s fun t => Faulted u t c 0x0307)
      ∧ (ok = true → Completes (.seqVariantLoad c ok h) s fun t =>
        t.hbm.readBytes d n = src ∧ BytesBut d n u.hbm t.hbm
        ∧ t.lgc c.toNat = { s.lgc c.toNat with variant := BitVec.ofNat 8 (fld q.img 0x14 7 0) } ∧ SameBut State.lgc c.toNat s t
        ∧ SeqDone u t q 0 ∧ LedgerOnly u t ∧ t.lgE = s.lgE ∧ t.lgA = s.lgA)))

/-- O59. Deltas, epochs, tiers and restores: pages are kept as they stood, sealed with their step, and written back.
A delta that the tier has acknowledged is applied to the mirror image and shows its step. A timer or CKPT
EPOCH_NOW makes an epoch due, or is skipped with EPOCH_SKIP and bit 1 while one is unsealed; TEACHER_SEAL
records the checksum of every TEACHER page. In an epoch a touched page is copied to a free page of staging, else
its write waits; staged pages ship first, then protected ones, with their checksums; a staging page that is the
context's no more ends the epoch, due again; the seal, once the tier has acknowledged all, writes SEALED_STEP
and the generation and scrubs staging, a page that another epoch or a test still holds when that ends. A tier is
usable when it is not lost and meets Table SG.3; a lost one abandons every epoch, gives TIER_ACTIVE to the
highest usable tier below it, or 0, makes an epoch due for every set and raises bit 2; TIER_RESET ranks all
anew; HOST_ACK lets the next block go. RESTORE_GO needs a STOPPED or FAULTED context; without a generation it
ends with status 2, else it writes back the pages and the pinned numerics, faulting where a page is not the
context's, voids manifests and commands and keeps the sequence counters, or waits; RESTORE_VALIDATE decides each
page by R270; that RESTORE_STATUS reads 3 after one that faults is the model's choice (log 53). Readings are the
model's (logs 28, 74, 75, 86, 91, 96, 101). -/
def Obligations.TheStrongroomKeepsSealedSteps : Prop :=
  (∀ (c : CtxId) (n : W32) (s : State), (s.sgc c.toNat).delta = some n →
    (s.tierAcked c = true → Completes (.mirrorDeltaAck c) s fun t =>
      let x := s.sgc c.toNat
      t.sgc c.toNat = { x with delta := none, mirrorStep := n, image := x.image.apply x.deltaPin, deltaPin := {} }
      ∧ SameBut State.sgc c.toNat s t ∧ t = { s with sgC := t.sgC })
    ∧ (s.tierAcked c = false → Completes (.mirrorDeltaAck c) s (· = s)))
  ∧ (∀ i d : Pinned, (i.apply d).num = d.num ∧ (i.apply d).entries = d.entries ∧ (∀ g ∈ d.mirror, g ∈ (i.apply d).mirror)
      ∧ ∀ g ∈ i.mirror, (∀ f ∈ d.mirror, f.1 ≠ g.1) → g ∈ (i.apply d).mirror)
  ∧ (∀ (c : CtxId) (s : State), s.unitOn 2 = true → (s.sgc c.toNat).valid = true → (s.sgc c.toNat).period ≠ 0 →
    let x := s.sgc c.toNat
    (x.epoch = none → Completes (.epochTimer c) s fun t =>
      t.sgc c.toNat = { x with due := true } ∧ SameBut State.sgc c.toNat s t ∧ t = { s with sgC := t.sgC })
    ∧ (x.epoch.isSome = true → s.action pgStrong 1 ≠ 2 → Completes (.epochTimer c) s fun t =>
      t.sgc c.toNat = { x with skip := x.skip + 1 } ∧ SameBut State.sgc c.toNat s t ∧ Stands t pgStrong 1
      ∧ AlarmOnly { s with sgC := t.sgC } t))
  ∧ (∀ (c : CtxId) (q : QE) (s : State), s.ckptHead c 1 = some q → (s.sgc c.toNat).epoch = none → Completes (.epochNow c) s fun t =>
    t.sgc c.toNat = { s.sgc c.toNat with due := true } ∧ SameBut State.sgc c.toNat s t ∧ Finishes s t q 0
    ∧ t.sched.ckpt = s.sched.ckpt.filter (· ≠ q) ∧ t = { s with sgC := t.sgC, sched := t.sched, ctxs := t.ctxs })
  ∧ (∀ (c : CtxId) (q : QE) (s : State), s.ckptHead c 2 = some q →
    (∀ g ∈ (s.sgc c.toNat).teachers, s.hbmWait (65536 * g) 65536 = false ∧ s.ueMeets (65536 * g) 65536 = false) →
    Completes (.teacherSeal c) s fun t =>
    (∀ g, SMap.get none (t.sgc c.toNat).teacherRec g =
      if g ∈ (s.sgc c.toNat).teachers then some (pageSum s.hbm (65536 * g)) else none)
    ∧ t.sgc c.toNat = { s.sgc c.toNat with teacherRec := (t.sgc c.toNat).teacherRec } ∧ SameBut State.sgc c.toNat s t
    ∧ Finishes s t q 0 ∧ t.sched.ckpt = s.sched.ckpt.filter (· ≠ q) ∧ t = { s with sgC := t.sgC, sched := t.sched, ctxs := t.ctxs })
  ∧ (∀ (p : BitVec 25) (c : Nat) (e : Epoch) (s : State), (s.sgc c).epoch = some e →
    (s.epochOf (·.prot) p.toNat = some (c, e) →
      (e.copying.length < (s.freeSlots c e).length → Completes (.pageTouch p) s fun t =>
        (t.sgc c).epoch = some { e with prot := e.prot.erase p.toNat, copying := e.copying ++ [p.toNat] }
        ∧ SameBut State.sgc c s t ∧ t = { s with sgC := t.sgC })
      ∧ ((s.freeSlots c e).length ≤ e.copying.length → Completes (.pageTouch p) s (· = s)))
    ∧ (∀ i r, s.epochOf (·.copying) p.toNat = some (c, e) → s.freeSlots c e = i :: r → s.sg.scrub = [] → s.sg.adds = [] →
      s.ueIn (65536 * p.toNat) 65536 = [] →
      Completes (.touchCopyDone p) s fun t =>
        let a := (s.sgc c).slotPlace i
        (t.sgc c).epoch = some { e with copying := e.copying.erase p.toNat, staged := e.staged ++ [(p.toNat, i)] }
        ∧ (∀ b < 65536, t.hbm.read (a + b) = s.hbm.read (65536 * p.toNat + b)) ∧ BytesBut a 65536 s.hbm t.hbm
        ∧ (∀ k, k ≠ c → t.sgc k = { s.sgc k with dirty := (t.sgc k).dirty }) ∧ NotesOnly { s with hbm := t.hbm } t))
  ∧ (∀ (c : CtxId) (e : Epoch) (s : State), (s.sgc c.toNat).epoch = some e →
    let x := s.sgc c.toNat
    let stageFree : Prop := ∀ g ∈ s.stagePages c.toNat, (s.modSgc c.toNat fun x => { x with epoch := none }).protectedPage g = false
    (∀ g a e', e.shipNext x = some (g, a, e') → s.tierOpen = true → e.staged = [] ∨ s.ownsPage c.toNat (a / 65536) = true →
      s.sg.scrub = [] → s.sg.adds = [] → s.ueIn a 65536 = [] → Completes (.shipPage c) s fun t =>
      (∃ m, (t.sgc c.toNat).epoch = some { e' with shipped := e.shipped ++ [{ page := g, sum := pageSum s.hbm a, data := m }] }
        ∧ (∀ b < 65536, m.read b = s.hbm.read (a + b)))
      ∧ SameBut State.sgc c.toNat s t ∧ t = { s with sgC := t.sgC, sg := t.sg, port := t.port, links := t.links, host := t.host }
      ∧ (s.sg.tierActive = 1 → (t.sgc c.toNat).acks = x.acks + 17 ∧ t.host = s.host)
      ∧ (s.sg.tierActive = 2 → t = { s with sgC := t.sgC })
      ∧ (s.sg.tierActive = 3 → s.sg.outbox = [] → s.sg.hostAck = s.sg.hostSent →
          t.sg = { s.sg with hostSent := s.sg.hostSent + 1 } ∧ BytesBut s.sg.hostBase.toNat 65544 s.host t.host
          ∧ t.host.readN (s.sg.hostBase.toNat + 65536) 8 = (pageSum s.hbm a).toNat
          ∧ ∀ b < 65536, t.host.read (s.sg.hostBase.toNat + b) = s.hbm.read (a + b)))
    ∧ (∀ g a e', e.shipNext x = some (g, a, e') → s.tierOpen = true → e.staged ≠ [] → s.ownsPage c.toNat (a / 65536) = false →
      s.sg.scrub = [] → s.sg.adds = [] → stageFree → Completes (.shipPage c) s fun t =>
        (t.sgc c.toNat).epoch = none ∧ (t.sgc c.toNat).due = true ∧ (t.sgc c.toNat).gens = x.gens
        ∧ ∀ b, t.hbm.read b = if b / 65536 ∈ s.stagePages c.toNat then 0 else s.hbm.read b)
    ∧ (∀ g a e', e.shipNext x = some (g, a, e') → s.tierOpen = true → e.staged = [] ∨ s.ownsPage c.toNat (a / 65536) = true →
        s.ueIn a 65536 ≠ [] → bit (s.page g) 12 = true →
        a = 65536 * g → (s.ctx (s.page g % 4096)).st = .resident → s.epochOf (·.prot) g = some (c.toNat, e) →
        s.sg.scrub = [] → s.sg.adds = [] → Completes (.shipPage c) s fun t =>
          (t.ctx (s.page g % 4096)).st = .scrubbing ∧ (t.ctx (s.page g % 4096)).lastFault = 0x0501)
    ∧ (e.allShipped = true → s.tierAcked c = true → s.sg.scrub = [] → s.sg.adds = [] → stageFree → Completes (.epochSeal c) s fun t =>
        t.sgc c.toNat = { x with epoch := none, sealed := e.step, dirty := (t.sgc c.toNat).dirty, acks := (t.sgc c.toNat).acks
                                 gens := { step := e.step, tier := s.sg.tierActive.toNat, pages := e.shipped, pin := e.pin } :: x.gens }
        ∧ (∀ k, k ≠ c.toNat → t.sgc k = { s.sgc k with dirty := (t.sgc k).dirty })
        ∧ (∀ a, t.hbm.read a = if a / 65536 ∈ s.stagePages c.toNat then 0 else s.hbm.read a)
        ∧ (s.sg.tierActive = 1 → (t.sgc c.toNat).acks = x.acks + 1)
        ∧ (s.sg.tierActive = 3 → s.sg.outbox = [] → t.host.readBytes s.sg.hostBase.toNat 8 = leBytes 4 e.step.toNat ++ leBytes 4 e.shipped.length
            ∧ BytesBut s.sg.hostBase.toNat 8 s.host t.host)
        ∧ NotesOnly { s with hbm := t.hbm, sg := t.sg, port := t.port, links := t.links, host := t.host } t)
    ∧ (e.allShipped = true → s.tierAcked c = true → s.sg.adds = [] → Completes (.epochSeal c) s fun t =>
        ∀ g ∈ s.stagePages c.toNat, g ∈ t.sg.scrub ∨ ∀ b < 65536, t.hbm.read (65536 * g + b) = 0)
    ∧ (e.allShipped = false ∨ s.tierAcked c = false → Completes (.epochSeal c) s (· = s))
    ∧ (s.tierOpen = false → Completes (.shipPage c) s (· = s)))
  ∧ (∀ (x : SgCtx) (e : Epoch),
    (∀ g i r, e.staged = (g, i) :: r → e.shipNext x = some (g, x.slotPlace i, { e with staged := r }))
    ∧ (∀ g r, e.staged = [] → e.prot = g :: r → e.shipNext x = some (g, 65536 * g, { e with prot := r })))
  ∧ (∀ s : State, (s.tierUsable 1 = true ↔ 1 ∉ s.sg.lost ∧ s.sg.partner ≠ s.devId ∧ (s.route s.sg.partner).isSome = true
        ∧ s.sg.reserveSize ≠ 0 ∧ s.reserveNeed ≤ 65536 * s.sg.reserveSize.toNat)
    ∧ (s.tierUsable 2 = true ↔ 2 ∉ s.sg.lost ∧ s.sg.flashNsid ≠ 0 ∧ Config.flashUsable s.sg.flashNsid s.reserveNeed = true)
    ∧ (s.tierUsable 3 = true ↔ 3 ∉ s.sg.lost ∧ s.sg.hostBase ≠ 0))
  ∧ (∀ s : State, s.sg.tierActive ≠ 0 → Completes .tierLost s fun t =>
      let r := s.sg.tierActive.toNat
      let u : State := { s with sg := { s.sg with lost := s.sg.lost ++ [r] } }
      t.sg.lost = u.sg.lost
      ∧ (t.sg.tierActive ≠ 0 → r < t.sg.tierActive.toNat ∧ u.tierUsable t.sg.tierActive.toNat = true)
      ∧ (∀ k, r < k → k ≤ 3 → u.tierUsable k = true → t.sg.tierActive ≠ 0 ∧ t.sg.tierActive.toNat ≤ k)
      ∧ Stands t pgStrong 2
      ∧ (∀ k, (t.sgc k).epoch = none ∧ (t.sgc k).due = ((s.sgc k).valid || (s.sgc k).due || (s.sgc k).epoch.isSome)
          ∧ (t.sgc k).gens = (s.sgc k).gens ∧ (t.sgc k).sealed = (s.sgc k).sealed)
      ∧ ((∀ k, (s.sgc k).delta = none) → s.sg.scrub = [] → s.sg.adds = [] → (∀ k, ∀ g ∈ s.stagePages k, s.protectedPage g = false) →
          (∀ k, t.sgc k = { s.sgc k with
            epoch := none, due := (t.sgc k).due, acks := 0, dirty := (t.sgc k).dirty, deltaPin := (t.sgc k).deltaPin })
          ∧ (∀ a k, (s.sgc k).epoch.isSome = true → a / 65536 ∈ s.stagePages k → t.hbm.read a = 0)
          ∧ (∀ a, (∀ k, (s.sgc k).epoch.isSome = true → a / 65536 ∉ s.stagePages k) → t.hbm.read a = s.hbm.read a)
          ∧ t.sg = { s.sg with lost := t.sg.lost, tierActive := t.sg.tierActive, outbox := [], ueAt := t.sg.ueAt }
          ∧ AlarmOnly { s with sg := t.sg, sgC := t.sgC, hbm := t.hbm } t)
      ∧ (∀ k n, t.sg.tierActive = 0 → (s.sgc k).delta = some n →
          (t.sgc k).delta = none ∧ ∀ g ∈ (s.sgc k).deltaPin.mirror, g.1 / 256 ∈ (t.sgc k).dirty))
  ∧ (∀ (v : W32) (s : State), bit v.toNat 0 = true → s.canWrite pgStrong = true → Completes (.tierReset v) s fun t =>
      let u : State := { s with sg := { s.sg with lost := [] } }
      t.sg.lost = [] ∧ (t.sg.tierActive ≠ 0 → u.tierUsable t.sg.tierActive.toNat = true)
      ∧ (∀ r, 1 ≤ r → r ≤ 3 → u.tierUsable r = true → t.sg.tierActive ≠ 0 ∧ t.sg.tierActive.toNat ≤ r)
      ∧ (if t.sg.tierActive = s.sg.tierActive then t = u
         else ∀ k, (t.sgc k).epoch = none ∧ (t.sgc k).due = ((s.sgc k).due || (s.sgc k).epoch.isSome)))
  ∧ (∀ (v : W32) (s : State), s.canWrite pgStrong = true → Completes (.hostAckWrite v) s fun t =>
      let g := { s.sg with hostAck := v }
      match s.sg.outbox with
      | (_, bs) :: r =>
        if s.sg.tierActive = 3 ∧ v = s.sg.hostSent ∧ s.boot.hostUp = true then
          t = { s with host := t.host, sg := { g with outbox := r, hostSent := s.sg.hostSent + 1 } }
          ∧ t.host.readBytes s.sg.hostBase.toNat bs.length = bs ∧ BytesBut s.sg.hostBase.toNat bs.length s.host t.host
        else t = { s with sg := g }
      | [] => t = { s with sg := g })
  ∧ (∀ (v : W32) (s : State), bit v.toNat 0 = true → s.canWrite pgStrong = true →
    let k := s.sel.sgCtx.toNat
    let x := s.sgc k
    ((s.ctx k).st ≠ .stopped → (s.ctx k).st ≠ .faulted → s.action pgStrong 0 ≠ 2 → Completes (.restoreGo v) s fun t =>
      Stands t pgStrong 0 ∧ AlarmOnly s t)
    ∧ ((s.ctx k).st = .stopped ∨ (s.ctx k).st = .faulted →
      (s.unitOn 2 = false ∨ s.genOf k x.restoreStep = none → Completes (.restoreGo v) s fun t =>
        t.sgc k = { x with restoreStatus := 2, refetched := 0, restoreWait := false } ∧ SameBut State.sgc k s t
        ∧ t = { s with sgC := t.sgC })
      ∧ (∀ g, s.unitOn 2 = true → s.genOf k x.restoreStep = some g → s.restoreReady k g = false → Completes (.restoreGo v) s fun t =>
        t.sgc k = { x with restoreStatus := 1, refetched := 0, restoreWait := true } ∧ SameBut State.sgc k s t
        ∧ t = { s with sgC := t.sgC })
      ∧ (∀ g, s.unitOn 2 = true → s.genOf k x.restoreStep = some g → s.restoreReady k g = true → Completes (.restoreGo v) s fun t => ∃ u : State,
        u.sgc k = { x with restoreStatus := 1, refetched := 0, restoreWait := false, dirty := (u.sgc k).dirty }
        ∧ (∀ j, j ≠ k → u.sgc j = { s.sgc j with dirty := (u.sgc j).dirty })
        ∧ (∀ r ∈ g.pages, (g.pages.map (·.page)).Nodup → s.hbmCheck k (65536 * r.page) 65536 true true = none →
            ∀ b < 65536, g.pin.misses s k (65536 * r.page + b) → u.hbm.read (65536 * r.page + b) = r.data.read b)
        ∧ (∀ a, (∀ r ∈ g.pages, ¬(65536 * r.page ≤ a ∧ a < 65536 * r.page + 65536)) → g.pin.misses s k a → u.hbm.read a = s.hbm.read a)
        ∧ (∀ a, s.ownsPage k (a / 65536) = false → u.hbm.read a = s.hbm.read a)
        ∧ (∀ m, g.pin.mirror = [m] → (s.nums k).censusBase = 0 → g.pin.table = none →
            s.hbmCheck k m.1 m.2.1 true true = none → ∀ b < m.2.1, u.hbm.read (m.1 + b) = m.2.2.read b)
        ∧ (∀ r ∈ g.pages, s.hbmCheck k (65536 * r.page) 65536 true true ≠ none → (u.ctx k).st = .faulted)
        ∧ u.mtc k = (s.mtc k).restored g.pin ∧ SameBut State.mtc k s u
        ∧ (∀ i, SMap.get 0 u.census i = if i / 512 % 4096 = k then 0 else SMap.get 0 s.census i)
        ∧ u.nums k = (s.nums k).restored g.pin.num ∧ SameBut State.nums k s u
        ∧ u.lgc k = { s.lgc k with manifests := [], variant := 0, opens := 0 } ∧ SameBut State.lgc k s u ∧ u.pot = s.pot ∧ u.nv = s.nv ∧ u.sems = s.sems
        ∧ (u.ctx k).flight = [] ∧ (u.ctx k).saved = [] ∧ (u.ctx k).acceptSeq = (s.ctx k).acceptSeq
        ∧ (u.ctx k).dispatchSeq = (s.ctx k).dispatchSeq ∧ (u.ctx k).completeSeq = (s.ctx k).completeSeq ∧ SameBut State.ctx k s u ∧ TierKept u t)))
  ∧ (∀ (c : CtxId) (l : List ReplicaPage) (g : Gen) (s : State),
    let k := c.toNat
    let x := s.sgc k
    x.restoreStatus = 1 → s.genOf k x.restoreStep = some g →
    (x.restoreWait = true → s.restoreReady k g = false → Completes (.restoreValidate c l) s (· = s))
    ∧ (x.restoreWait = false → (∀ r, g.pages = [r] → s.ueMeets (65536 * r.page) 65536 = true → Completes (.restoreValidate c l) s fun t =>
        (t.sgc k).restoreStatus = 3 ∧ (t.ctx k).st = .faulted ∧ (t.ctx k).lastFault = 0x0501 ∧ SameBut State.ctx k s t ∧ t.hbm = s.hbm))
    ∧ (x.restoreWait = false → (∀ r ∈ g.pages, s.ueMeets (65536 * r.page) 65536 = false) →
    ((∀ r ∈ g.pages, pageSum s.hbm (65536 * r.page) = r.sum) → x.replica = 0xFFF → Completes (.restoreValidate c l) s fun t =>
      t.sgc k = { x with restoreStatus := 3 } ∧ SameBut State.sgc k s t ∧ t = { s with sgC := t.sgC })
    ∧ (∀ r, g.pages = [r] →
      (pageSum s.hbm (65536 * r.page) ≠ r.sum → x.replica = 0xFFF → Completes (.restoreValidate c l) s fun t =>
        (t.sgc k).restoreStatus = 3 ∧ (t.ctx k).st = .faulted ∧ (t.ctx k).lastFault = 0x0502 ∧ SameBut State.ctx k s t ∧ t.hbm = s.hbm)
      ∧ (∀ p, x.replica ≠ 0xFFF → l.find? (fun p => p.addr.toNat = 65536 * r.page) = some p →
        (pageSum s.hbm (65536 * r.page) = r.sum →
          if p.matchesRec = true ∧ p.sum ≠ r.sum then Completes (.restoreValidate c l) s fun t =>
            (t.ctx k).st = .faulted ∧ (t.ctx k).lastFault = 0x0503 ∧ SameBut State.ctx k s t ∧ t.hbm = s.hbm
          else Completes (.restoreValidate c l) s fun t => t.sgc k = { x with restoreStatus := 3 } ∧ t = { s with sgC := t.sgC })
        ∧ (pageSum s.hbm (65536 * r.page) ≠ r.sum →
          let m := Mem.stores [] (p.data.filter fun d => decide (d.1 < 65536))
          (p.matchesRec = true → pageSum m 0 = r.sum → s.hbmCheck k (65536 * r.page) 65536 true true = none →
            Completes (.restoreValidate c l) s fun t =>
              (∀ b < 65536, t.hbm.read (65536 * r.page + b) = m.read b) ∧ BytesBut (65536 * r.page) 65536 s.hbm t.hbm
              ∧ t.sgc k = { x with restoreStatus := 3, refetched := x.refetched + 1, dirty := (t.sgc k).dirty }
              ∧ NotesOnly { s with hbm := t.hbm } t)
          ∧ (p.matchesRec = false ∨ pageSum m 0 ≠ r.sum → Completes (.restoreValidate c l) s fun t =>
              (t.ctx k).st = .faulted ∧ (t.ctx k).lastFault = 0x0502 ∧ t.hbm = s.hbm))))))

/-- O60. Memory errors are counted, logged, refetched or fault the owner; a self-test withdraws its unit and returns
or fails it. A corrected error in HBM, cluster memory or Escrow advances CE_COUNT, and CL_MEM_CE of its cluster;
a scrub counts corrected errors and logs an uncorrectable one; retraining changes nothing. An uncorrectable
error raises bit 3 and writes UE_LOG (an HBM address; free values elsewhere), and by Table SG.5 faults its owner
with MEM_UE, is fetched anew from TEACHER_SRC, abandons the epoch that was copying its page, or is only logged;
one in cluster memory marks bit 1 of its CLUSTER page. A refetched page is checked against the teacher record,
written and counted, or faults its reader. TEST_REQ with GO begins a withdrawal of a unit that exists; once
quiet, and its service buffer VALID to no context, it is in SERVICE; the state of Table SG.6 is copied to
SVC_BASE, and for the SRAM march the cluster memory moves there and back; a passed test returns the unit, a
failed one keeps it withdrawn, is shown in UNIT_FAILED, marks bit 0 of the self-test page and of a cluster's
page, and faults with UNIT_FAIL each context with state held; the service buffer the state went to, whatever
SVC_BASE has become, is scrubbed, and nothing else writes it meanwhile. The layout of the buffer with offset 0,
that what no firmware can write stays in place too, and that a corrected Till error is not counted are the
choices of the model (log 53); the list of addresses in error is its reading (log 28). A lane under test leaves
its port, and returns where LANE_MAP at the last training and its health allow; that a port of 16 to 31 lanes is
DEGRADED (log 17) and the control block that tells the neighbour (log 103) are the model's choices. -/
def Obligations.ErrorsAndTestsReachTheirOwners : Prop :=
  (∀ (l : ErrLoc) (s : State), s.ready = true → Completes (.correctableError l) s fun t =>
    let u : State := { s with sg := { s.sg with ceCount := satAdd s.sg.ceCount 1 } }
    match l with
    | .cluster cl _ => t.clu cl.toNat = { s.clu cl.toNat with memCe := satAdd (s.clu cl.toNat).memCe 1 } ∧ SameBut State.clu cl.toNat s t
        ∧ t = { u with cls := t.cls }
    | .till .. => t = s
    | .hbm .. | .escrow .. => t = u)
  ∧ (∀ (m : StackId) (ch : BitVec 5) (n : Nat) (a : BitVec 41) (s : State), Completes (.hbmRetrain m ch) s (· = s)
    ∧ (s.ready = true →
      Completes (.patrolScrub m n none) s (· = { s with sg := { s.sg with ceCount := satAdd s.sg.ceCount n } })
      ∧ (s.action pgStrong 3 ≠ 2 → Completes (.patrolScrub m n (some a)) s fun t =>
        t.sg = { s.sg with ceCount := satAdd s.sg.ceCount n, ueLog := a.setWidth 64, ueAt := s.sg.ueAt ++ [a.toNat] }
        ∧ Stands t pgStrong 3 ∧ AlarmOnly { s with sg := t.sg } t)))
  ∧ (∀ (a : BitVec 41) (r : Option CtxId) (s : State), s.ready = true →
    let g := a.toNat / 65536
    let o : CtxId := BitVec.ofNat 12 (s.page g)
    (∀ c, s.moving g r = some c → bit (s.page g) 12 = true → (s.ctx o.toNat).st = .resident →
      Completes (.uncorrectableError (.hbm a r)) s fun t =>
        (t.sgc c).epoch = none ∧ (t.sgc c).gens = (s.sgc c).gens ∧ (t.ctx o.toNat).st = .scrubbing ∧ (t.ctx o.toNat).lastFault = 0x0501
        ∧ SameBut State.ctx o.toNat s t ∧ t.sg.ueLog = a.setWidth 64 ∧ Stands t pgStrong 3)
    ∧ (s.moving g r = none →
      (bit (s.page g) 12 = false → Completes (.uncorrectableError (.hbm a r)) s fun t =>
        t.sg = { s.sg with ueLog := a.setWidth 64, ueAt := s.sg.ueAt ++ [a.toNat] } ∧ Stands t pgStrong 3
        ∧ AlarmOnly { s with sg := t.sg } t)
      ∧ (bit (s.page g) 12 = true → ¬(bit (s.page g) 13 = true ∧ g ∈ (s.sgc o.toNat).teachers) → (s.ctx o.toNat).st = .resident →
        Completes (.uncorrectableError (.hbm a r)) s fun t =>
          Faulted s t o 0x0501 ∧ t.sg.ueLog = a.setWidth 64 ∧ Stands t pgStrong 3)
      ∧ (bit (s.page g) 12 = true → bit (s.page g) 13 = true → g ∈ (s.sgc o.toNat).teachers →
        (s.teacherSrc o.toNat = true → s.action pgStrong 3 ≠ 2 → Completes (.uncorrectableError (.hbm a r)) s fun t =>
          t.sg = { s.sg with ueLog := a.setWidth 64, ueAt := s.sg.ueAt ++ [a.toNat], refetch := s.sg.refetch ++ [(g, r.getD o)] }
          ∧ Stands t pgStrong 3
          ∧ AlarmOnly { s with sg := t.sg } t)
        ∧ (s.teacherSrc o.toNat = false → (s.ctx (r.getD o).toNat).st = .resident → Completes (.uncorrectableError (.hbm a r)) s fun t =>
          Faulted s t (r.getD o) 0x0501 ∧ t.sg.ueLog = a.setWidth 64 ∧ Stands t pgStrong 3))))
  ∧ (∀ (cl : ClId) (off : BitVec 23) (n : BitVec 9) (d : Die) (gr : U16) (c : CtxId) (s : State), s.ready = true → (s.ctx c.toNat).st = .resident →
    (s.clusterOwner cl (fun d => d.owns off.toNat 1) = some c → Completes (.uncorrectableError (.cluster cl off)) s fun t =>
      Faulted s t c 0x0501 ∧ Stands t pgStrong 3 ∧ Stands t (pgCluster cl.toNat) 1)
    ∧ (s.clusterOwner cl (fun d => d.owns off.toNat 1) = none → Completes (.uncorrectableError (.cluster cl off)) s fun t =>
      Stands t pgStrong 3 ∧ Stands t (pgCluster cl.toNat) 1 ∧ t.sg = { s.sg with ueLog := t.sg.ueLog }
      ∧ AlarmOnly { s with sg := t.sg, free := t.free } t)
    ∧ (s.clusterOwner cl (fun d => decide (d.tillBase ≤ n.toNat) && decide (n.toNat < d.tillBase + 2 ^ d.tillLog)) = some c →
      Completes (.uncorrectableError (.till cl n)) s fun t => Faulted s t c 0x0501 ∧ Stands t pgStrong 3)
    ∧ (s.partOwner d.val gr.toNat = some c →
      Completes (.uncorrectableError (.escrow d gr)) s fun t => Faulted s t c 0x0501 ∧ Stands t pgStrong 3))
  ∧ (∀ (p : BitVec 25) (data : List (Nat × Byte)) (r : CtxId) (s : State),
    s.refetcher p.toNat = some r →
    let m := Mem.stores [] (data.filter fun d => decide (d.1 < 65536))
    let o := s.page p.toNat % 4096
    (SMap.get none (s.sgc o).teacherRec p.toNat = some (pageSum m 0) → Completes (.teacherRefetchDone p data) s fun t =>
      (∀ b < 65536, t.hbm.read (65536 * p.toNat + b) = m.read b) ∧ BytesBut (65536 * p.toNat) 65536 s.hbm t.hbm
      ∧ t.sg = { s.sg with
          refetch := s.sg.refetch.filter (·.1 ≠ p.toNat), ueRefetch := satAdd s.sg.ueRefetch 1, ueAt := t.sg.ueAt }
      ∧ NotesOnly { s with hbm := t.hbm, sg := t.sg } t)
    ∧ (SMap.get none (s.sgc o).teacherRec p.toNat ≠ some (pageSum m 0) → (s.ctx r.toNat).st = .resident →
      Completes (.teacherRefetchDone p data) s fun t =>
        Faulted s t r 0x0501 ∧ t.sg = { s.sg with refetch := s.sg.refetch.filter (·.1 ≠ p.toNat) })
    ∧ (SMap.get none (s.sgc o).teacherRec p.toNat ≠ some (pageSum m 0) → (s.ctx r.toNat).st = .stopped ∨ (s.ctx r.toNat).st = .faulted →
      Completes (.teacherRefetchDone p data) s fun t => (t.ctx r.toNat).st = .faulted ∧ (t.ctx r.toNat).lastFault = 0x0501
        ∧ SameBut State.ctx r.toNat s t ∧ t.hbm = s.hbm))
  ∧ (∀ (v : W32) (s : State), s.canWrite pgSelfTest = true → s.st.st = 0 →
    let x : SelfTest := { s.st with req := v &&& 0x8007FFFF#32 }
    if bit v.toNat 31 = true ∧ s.unitExists x = true then
      Completes (.testReq v) s (· = { s with st := { x with st := 1, pass := false, fail := false } })
    else Completes (.testReq v) s (· = { s with st := x }))
  ∧ (∀ s : State, s.st.st = 1 → s.unitQuiet = true → (s.usesSvc = true → s.svcOpen = true) →
    let u := s.st.unit
    (u.1 = 0 → Completes .unitWithdrawn s fun t =>
      t.st = { s.st with st := 2, svcAt := s.st.svcBase, heldTill := (s.clu u.2).till, heldImem := (s.clu u.2).imem }
      ∧ t.clu u.2 = { s.clu u.2 with service := true } ∧ SameBut State.clu u.2 s t
      ∧ t.hbm = s.moveOut.hbm ∧ BytesBut s.st.svcBase.toNat (2 ^ 23) s.hbm t.hbm
      ∧ NotesOnly { s with st := t.st, cls := t.cls, hbm := t.hbm } t)
    ∧ (u.1 = 1 → Completes .unitWithdrawn s fun t =>
      t.st = { s.st with st := 2, svcAt := s.st.svcBase, heldTill := (s.clu u.2).till, heldImem := (s.clu u.2).imem }
      ∧ t.clu u.2 = { s.clu u.2 with service := true } ∧ SameBut State.clu u.2 s t
      ∧ (∀ b < cluBytes, t.hbm.read (s.st.svcBase.toNat + b) = (s.clu u.2).mem.read b)
      ∧ t.hbm = s.moveOut.hbm ∧ BytesBut s.st.svcBase.toNat (2 ^ 23) s.hbm t.hbm ∧ NotesOnly { s with st := t.st, cls := t.cls, hbm := t.hbm } t)
    ∧ (u.1 = 4 → (s.prt6 u.2).usable = true →
      let b : W32 := BitVec.ofNat 32 (2 ^ bits s.st.req.toNat 18 14)
      16 ≤ popCount ((s.prt6 u.2).lanes &&& ~~~b).toNat 32 → Completes .unitWithdrawn s fun t =>
        t.prt6 u.2 = { s.prt6 u.2 with
          lanes := (s.prt6 u.2).lanes &&& ~~~b, recal := true, restripe := true
          st := if popCount ((s.prt6 u.2).lanes &&& ~~~b).toNat 32 < 32 then .degraded else .up
          blocks := (s.prt6 u.2).blocks ++ [.lanes ((s.prt6 u.2).lanes &&& ~~~b)] }
        ∧ SameBut State.prt6 u.2 s t ∧ t.st = { s.st with st := 2, svcAt := s.st.svcBase } ∧ t = { s with st := t.st, port := t.port })
    ∧ (u.1 = 2 → Completes .unitWithdrawn s fun t =>
      t.st = { s.st with st := 2, svcAt := s.st.svcBase } ∧ t.tdie u.2 = { s.tdie u.2 with service := true } ∧ SameBut State.tdie u.2 s t
      ∧ t.hbm = s.moveOut.hbm ∧ BytesBut s.st.svcBase.toNat (2 ^ 23) s.hbm t.hbm
      ∧ NotesOnly { s with st := t.st, td := t.td, hbm := t.hbm } t)
    ∧ (u.1 = 3 → Completes .unitWithdrawn s fun t =>
      t.st = { s.st with st := 2, svcAt := s.st.svcBase } ∧ t.mnt u.2 = { s.mnt u.2 with service := true } ∧ SameBut State.mnt u.2 s t
      ∧ t = { s with st := t.st, mint := t.mint }))
  ∧ (∀ s : State, s.st.st = 1 → s.unitQuiet = false ∨ (s.usesSvc = true ∧ s.svcOpen = false) → Completes .unitWithdrawn s (· = s))
  ∧ (∀ s : State, s.st.st = 2 →
    let w : State := { s with st := { s.st with st := 0 } }
    s.usesSvc = true → w.guarded s.st.svcAt.toNat (2 ^ 23) = true → s.sg.adds = [] → Completes (.testDone true) s fun t =>
      t.st.st = 0 ∧ ∀ g ∈ pagesOf s.st.svcAt.toNat (2 ^ 23), g ∈ t.sg.scrub ∨ ∀ b < 65536, t.hbm.read (65536 * g + b) = 0)
  ∧ (∀ s : State, s.st.st = 2 →
    let w : State := { s with st := { s.st with st := 0 } }
    (s.usesSvc = true → w.guarded s.st.svcAt.toNat (2 ^ 23) = false) →
    let u := s.st.unit
    (u.1 ≤ 3 → Completes (.testDone true) s fun t =>
      t.st = { s.st with
          st := 0, pass := true, heldTill := if u.1 ≤ 1 then [] else s.st.heldTill
          heldImem := if u.1 ≤ 1 then [] else s.st.heldImem }
      ∧ (if u.1 ≤ 1 then t.clu u.2 = { s.clu u.2 with
            service := false, till := s.st.heldTill, imem := s.st.heldImem, mem := (t.clu u.2).mem } ∧ SameBut State.clu u.2 s t
          else t.cls = s.cls)
      ∧ (u.1 = 0 → (t.clu u.2).mem = (s.clu u.2).mem)
      ∧ (u.1 = 1 → ∀ b < cluBytes, (t.clu u.2).mem.read b = s.hbm.read (s.st.svcAt.toNat + b))
      ∧ (if u.1 = 2 then t.tdie u.2 = { s.tdie u.2 with service := false } ∧ SameBut State.tdie u.2 s t else t.td = s.td)
      ∧ (if u.1 = 3 then t.mnt u.2 = { s.mnt u.2 with service := false } ∧ SameBut State.mnt u.2 s t else t.mint = s.mint)
      ∧ (u.1 ≤ 2 → ∀ a, s.st.svcAt.toNat ≤ a → a < s.st.svcAt.toNat + 2 ^ 23 → t.hbm.read a = 0)
      ∧ (u.1 = 3 → t.hbm = s.hbm) ∧ BytesBut s.st.svcAt.toNat (2 ^ 23) s.hbm t.hbm
      ∧ NotesOnly { s with st := t.st, hbm := t.hbm, cls := t.cls, td := t.td, mint := t.mint } t)
    ∧ (u.1 ≤ 3 → Completes (.testDone false) s fun t =>
      t.st = { s.st with
          st := 0, fail := true, unitFailed := some (BitVec.ofNat 14 s.st.req.toNat), heldTill := [], heldImem := [] }
      ∧ (u.1 ≤ 1 → (t.clu u.2).failed = true ∧ (t.clu u.2).service = (s.clu u.2).service ∧ Stands t (pgCluster u.2) 0)
      ∧ (u.1 = 2 → (t.tdie u.2).failed = true ∧ (t.tdie u.2).service = (s.tdie u.2).service)
      ∧ (u.1 = 3 → (t.mnt u.2).failed = true ∧ (t.mnt u.2).service = (s.mnt u.2).service)
      ∧ Stands t pgSelfTest 0 ∧ BytesBut s.st.svcAt.toNat (2 ^ 23) s.hbm t.hbm
      ∧ (∀ c ∈ s.heldFor, (s.ctx c.toNat).st = .resident → (t.ctx c.toNat).st = .scrubbing ∧ (t.ctx c.toNat).lastFault = 0x0504)
      ∧ (∀ c : CtxId, c ∉ s.heldFor → t.ctx c.toNat = s.ctx c.toNat))
    ∧ (u.1 = 4 → (s.prt6 u.2).usable = true →
      let x := s.prt6 u.2
      let b : W32 := BitVec.ofNat 32 (2 ^ bits s.st.req.toNat 18 14)
      let m := x.lanes ||| (b &&& x.mayUse)
      Completes (.testDone true) s (fun t =>
        t.prt6 u.2 = { x with
          lanes := m, st := if popCount m.toNat 32 < 32 then .degraded else .up, recal := false, blocks := x.blocks ++ [.lanes m] }
        ∧ SameBut State.prt6 u.2 s t ∧ t.st = { s.st with st := 0, pass := true } ∧ t = { s with st := t.st, port := t.port })
      ∧ Completes (.testDone false) s fun t =>
        t.prt6 u.2 = { x with recal := false, laneBad := true, failed := x.failed ||| b, mayUse := x.mayUse &&& ~~~b, st := .degraded }
        ∧ SameBut State.prt6 u.2 s t ∧ t.st.fail = true ∧ Stands t pgSelfTest 0
        ∧ AlarmOnly { s with st := t.st, port := t.port } t)
    ∧ (u.1 = 4 → (s.prt6 u.2).usable = false → Completes (.testDone true) s fun t =>
        t.prt6 u.2 = { s.prt6 u.2 with recal := false } ∧ SameBut State.prt6 u.2 s t ∧ t.st = { s.st with st := 0, pass := true }
        ∧ t = { s with st := t.st, port := t.port }))
end

