-- ==== Sys2Proof/Laws/SMap.lean ====
section
/-! SUPPORT. Sparse maps: reading after writing, the canonical form and what keeps it; memories with them. -/

namespace Sys2Proof.Machine

namespace SMap
set_option linter.unusedSectionVars false
variable {α : Type} [DecidableEq α] {d : α}

@[simp] theorem get_nil (k : Nat) : get d ([] : SMap α) k = d := rfl

theorem get_dropTo (m : SMap α) {k j : Nat} (h : k < j) : get d (dropTo k m) j = get d m j := by
  induction m with
  | nil => rfl
  | cons p t ih =>
    obtain ⟨a, v⟩ := p
    simp only [dropTo]
    split
    · rw [ih]; simp only [get]; rw [if_neg (by omega), if_neg (by omega)]
    · rfl

theorem get_dropTo_le (m : SMap α) {k j : Nat} (h : j ≤ k) : get d (dropTo k m) j = d := by
  induction m with
  | nil => rfl
  | cons p t ih =>
    obtain ⟨a, v⟩ := p
    simp only [dropTo]
    split
    · exact ih
    · simp only [get]; rw [if_pos (by omega)]

/-- A value reads back. -/
@[simp] theorem get_set_same (m : SMap α) (k : Nat) (v : α) : get d (set d m k v) k = v := by
  induction m with
  | nil => simp only [set]; split <;> simp_all [get]
  | cons p t ih =>
    obtain ⟨a, w⟩ := p
    simp only [set]
    split
    · split
      · simp_all [get]
      · simp [get]
    · split
      · split
        · subst_vars; exact get_dropTo_le t (Nat.le_refl _)
        · simp [get]
      · simp only [get]; rw [if_neg (by omega), if_neg (by omega)]; exact ih

/-- Other keys keep their values. -/
theorem get_set_ne (m : SMap α) {k j : Nat} (v : α) (h : j ≠ k) : get d (set d m k v) j = get d m j := by
  induction m with
  | nil => simp only [set]; split <;> simp [get, h]
  | cons p t ih =>
    obtain ⟨a, w⟩ := p
    simp only [set]
    split
    · split
      · rfl
      · simp only [get]
        rcases Nat.lt_or_ge j k with hj | hj
        · rw [if_pos hj, if_pos (by omega)]
        · rw [if_neg (by omega), if_neg h]
    · split
      · subst_vars
        split
        · simp only [get]
          rcases Nat.lt_or_ge j a with hj | hj
          · rw [if_pos hj, get_dropTo_le t (by omega)]
          · rw [if_neg (by omega), if_neg h, get_dropTo t (by omega)]
        · simp only [get]; rcases Nat.lt_or_ge j a with hj | hj
          · rw [if_pos hj, if_pos hj]
          · rw [if_neg (by omega), if_neg h, if_neg (by omega), if_neg h]
      · simp only [get, ih]

theorem get_set (m : SMap α) (k j : Nat) (v : α) :
    get d (set d m k v) j = if j = k then v else get d m j := by
  split
  · subst_vars; exact get_set_same m _ v
  · exact get_set_ne m v ‹_›

theorem get_upd (m : SMap α) (k j : Nat) (f : α → α) :
    get d (upd d m k f) j = if j = k then f (get d m k) else get d m j := get_set m k j _

@[simp] theorem get_upd_same (m : SMap α) (k : Nat) (f : α → α) : get d (upd d m k f) k = f (get d m k) :=
  get_set_same m k _

theorem get_upd_ne (m : SMap α) {k j : Nat} (f : α → α) (h : j ≠ k) : get d (upd d m k f) j = get d m j :=
  get_set_ne m _ h

/-! ### The canonical form -/

theorem wfFrom_mono {m : SMap α} {lo lo' : Nat} (h : lo' ≤ lo) (hm : wfFrom d lo m = true) : wfFrom d lo' m = true := by
  cases m with
  | nil => rfl
  | cons p t =>
    obtain ⟨a, v⟩ := p
    simp only [wfFrom, Bool.and_eq_true, decide_eq_true_eq] at hm ⊢
    exact ⟨⟨by omega, hm.1.2⟩, hm.2⟩

/-- In a canonical map nothing is dropped past a smaller key. -/
theorem dropTo_wf {m : SMap α} {lo k : Nat} (h : k < lo) (hm : wfFrom d lo m = true) : dropTo k m = m := by
  cases m with
  | nil => rfl
  | cons p t =>
    obtain ⟨a, v⟩ := p
    simp only [wfFrom, Bool.and_eq_true, decide_eq_true_eq] at hm
    simp only [dropTo]; rw [if_neg (by omega)]

theorem set_wfFrom {m : SMap α} {lo k : Nat} (v : α) (hk : lo ≤ k) (hm : wfFrom d lo m = true) :
    wfFrom d lo (set d m k v) = true := by
  induction m generalizing lo with
  | nil => simp only [set]; split <;> simp_all [wfFrom]
  | cons p t ih =>
    obtain ⟨a, w⟩ := p
    have hm' := hm
    simp only [wfFrom, Bool.and_eq_true, decide_eq_true_eq] at hm
    obtain ⟨⟨h1, h2⟩, h3⟩ := hm
    simp only [set]
    split
    · split
      · exact hm'
      · simp only [wfFrom, Bool.and_eq_true, decide_eq_true_eq]
        exact ⟨⟨hk, ‹_›⟩, ⟨by omega, h2⟩, h3⟩
    · split
      · split
        · subst_vars
          rw [dropTo_wf (Nat.lt_succ_self _) h3]
          exact wfFrom_mono (by omega) h3
        · subst_vars
          simp only [wfFrom, Bool.and_eq_true, decide_eq_true_eq]
          exact ⟨⟨h1, ‹_›⟩, h3⟩
      · simp only [wfFrom, Bool.and_eq_true, decide_eq_true_eq]
        exact ⟨⟨h1, h2⟩, ih (by omega) h3⟩

/-- A write keeps the canonical form. -/
theorem set_wf {m : SMap α} (k : Nat) (v : α) (hm : wf d m = true) : wf d (set d m k v) = true :=
  set_wfFrom v (Nat.zero_le _) hm

theorem upd_wf {m : SMap α} (k : Nat) (f : α → α) (hm : wf d m = true) : wf d (upd d m k f) = true := set_wf k _ hm

/-! ### Keys, dropping and mapping -/

theorem mem_keys {m : SMap α} {k : Nat} : k ∈ keys m ↔ ∃ v, (k, v) ∈ m := by
  induction m with
  | nil => simp [keys]
  | cons p t ih =>
    obtain ⟨a, v⟩ := p
    simp only [keys]
    split
    · rename_i h
      rw [List.contains_iff_mem] at h
      constructor
      · intro hk; obtain ⟨w, hw⟩ := ih.1 hk; exact ⟨w, List.mem_cons_of_mem _ hw⟩
      · rintro ⟨w, hw⟩
        rcases List.mem_cons.1 hw with e | hw
        · cases e; exact h
        · exact ih.2 ⟨w, hw⟩
    · constructor
      · intro hk
        rcases List.mem_cons.1 hk with e | hk
        · subst e; exact ⟨v, List.mem_cons_self ..⟩
        · obtain ⟨w, hw⟩ := ih.1 hk; exact ⟨w, List.mem_cons_of_mem _ hw⟩
      · rintro ⟨w, hw⟩
        rcases List.mem_cons.1 hw with e | hw
        · cases e; exact List.mem_cons_self ..
        · exact List.mem_cons_of_mem _ (ih.2 ⟨w, hw⟩)

theorem keys_nodup (m : SMap α) : (keys m).Nodup := by
  induction m with
  | nil => exact List.nodup_nil
  | cons p t ih =>
    simp only [keys]
    split
    · exact ih
    · rename_i h
      exact List.nodup_cons.2 ⟨fun hk => h (List.contains_iff_mem.2 hk), ih⟩

/-- A key that is not listed reads as the default. -/
theorem get_unlisted (m : SMap α) {k : Nat} (h : k ∉ keys m) : get d m k = d := by
  have h' : ∀ v, (k, v) ∉ m := fun v hv => h (mem_keys.2 ⟨v, hv⟩)
  clear h
  induction m with
  | nil => rfl
  | cons p t ih =>
    obtain ⟨a, v⟩ := p
    have hne : k ≠ a := fun e => h' v (by subst e; exact List.mem_cons_self ..)
    simp only [get]
    split
    · rfl
    · exact ih fun w hw => h' w (List.mem_cons_of_mem _ hw)

theorem foldl_upd_get (f : Nat → α → α) (l : List Nat) (hl : l.Nodup) (m : SMap α) (k : Nat) :
    get d (l.foldl (fun a j => upd d a j (f j)) m) k = if k ∈ l then f k (get d m k) else get d m k := by
  induction l generalizing m with
  | nil => simp
  | cons j t ih =>
    obtain ⟨hj, ht⟩ := List.nodup_cons.1 hl
    simp only [List.foldl_cons]
    rw [ih ht]
    by_cases e : k = j
    · subst e; simp [hj]
    · simp [e, get_upd_ne m _ e]

/-- Mapping changes each value by `f`, when `f` keeps the default. -/
theorem get_mapV (f : Nat → α → α) (m : SMap α) (k : Nat) (hf : f k d = d) : get d (mapV d f m) k = f k (get d m k) := by
  unfold mapV
  rw [foldl_upd_get f _ (keys_nodup m)]
  split
  · rfl
  · rw [get_unlisted m ‹_›, hf]

theorem foldl_set_get (v : α) (l : List Nat) (m : SMap α) (k : Nat) :
    get d (l.foldl (fun a j => set d a j v) m) k = if k ∈ l then v else get d m k := by
  induction l generalizing m with
  | nil => simp
  | cons j t ih =>
    simp only [List.foldl_cons]
    rw [ih]
    by_cases e : k = j
    · subst e; simp
    · simp [e, get_set_ne m _ e]

/-- Dropped keys read as the default, the rest as before. -/
theorem get_drop (p : Nat → Bool) (m : SMap α) (k : Nat) : get d (drop d p m) k = if p k then d else get d m k := by
  unfold drop
  rw [foldl_set_get]
  by_cases hk : k ∈ keys m
  · simp [hk]
  · simp [hk, get_unlisted m hk]

/-- A cleared range reads as the default, the rest as before. -/
theorem get_clear (m : SMap α) (lo hi j : Nat) : get d (clear d lo hi m) j = if lo ≤ j ∧ j < hi then d else get d m j := by
  unfold clear; rw [get_drop]; simp

theorem foldl_wf {β : Type} {g : SMap α → β → SMap α} (hg : ∀ a b, wf d a = true → wf d (g a b) = true) (l : List β)
    {m : SMap α} (hm : wf d m = true) : wf d (l.foldl g m) = true := by
  induction l generalizing m with
  | nil => exact hm
  | cons b t ih => exact ih (hg _ _ hm)

theorem mapV_wf {m : SMap α} (f : Nat → α → α) (hm : wf d m = true) : wf d (mapV d f m) = true :=
  foldl_wf (fun _ _ h => upd_wf _ _ h) _ hm
theorem drop_wf {m : SMap α} (p : Nat → Bool) (hm : wf d m = true) : wf d (drop d p m) = true :=
  foldl_wf (fun _ _ h => set_wf _ _ h) _ hm
/-- Clearing a range keeps the canonical form. -/
theorem clear_wf {m : SMap α} (lo hi : Nat) (hm : wf d m = true) : wf d (clear d lo hi m) = true := drop_wf _ hm

theorem foldl_put_get (f g : Nat → Nat) (v : Nat → α) (hfg : ∀ k, g (f k) = k) (l : List Nat) (hl : l.Nodup) (m : SMap α) (k : Nat) :
    get d (l.foldl (fun a j => set d a (f j) (v j)) m) k = if g k ∈ l ∧ f (g k) = k then v (g k) else get d m k := by
  induction l generalizing m with
  | nil => simp
  | cons j t ih =>
    obtain ⟨hj, ht⟩ := List.nodup_cons.1 hl
    simp only [List.foldl_cons]
    rw [ih ht, get_set]
    by_cases e : k = f j
    · subst e; simp [hfg, hj]
    · have e' : ¬ (g k = j ∧ f (g k) = k) := by rintro ⟨h1, h2⟩; exact e (by rw [← h2, h1])
      by_cases h : g k ∈ t ∧ f (g k) = k
      · simp [h, e]
      · have : ¬ (g k ∈ j :: t ∧ f (g k) = k) := by
          rintro ⟨h1, h2⟩
          rcases List.mem_cons.1 h1 with h1 | h1
          · exact e' ⟨h1, h2⟩
          · exact h ⟨h1, h2⟩
        rw [if_neg h, if_neg e, if_neg this]

/-- A spliced map reads from the source inside the range and as before outside it. -/
theorem get_splice (m src : SMap α) (lo n k : Nat) :
    get d (splice d lo n m src) k = if lo ≤ k ∧ k < lo + n then get d src (k - lo) else get d m k := by
  unfold splice
  rw [foldl_put_get (fun j => lo + j) (fun j => j - lo) (fun j => get d src j) (by intro j; simp) _ ((keys_nodup src).filter _), get_clear]
  by_cases h : lo ≤ k ∧ k < lo + n
  · rw [if_pos h, if_pos h]
    by_cases hk : k - lo ∈ keys src
    · rw [if_pos ⟨List.mem_filter.2 ⟨hk, by simp; omega⟩, by omega⟩]
    · rw [if_neg (fun c => hk (List.mem_filter.1 c.1).1), get_unlisted src hk]
  · rw [if_neg h, if_neg h, if_neg]
    rintro ⟨h1, h2⟩
    have := (List.mem_filter.1 h1).2
    simp at this
    omega

/-- A slice reads as the map inside the range. -/
theorem get_slice (m : SMap α) (lo hi k : Nat) :
    get d (slice d lo hi m) k = if lo + k < hi then get d m (lo + k) else d := by
  unfold slice
  have key : ∀ (l : List Nat), l.Nodup → (∀ j ∈ l, lo ≤ j) → ∀ a : SMap α,
      get d (l.foldl (fun a j => set d a (j - lo) (get d m j)) a) k = if lo + k ∈ l then get d m (lo + k) else get d a k := by
    intro l
    induction l with
    | nil => intro _ _ a; simp
    | cons j t ih =>
      intro hl hlo a
      obtain ⟨hj, ht⟩ := List.nodup_cons.1 hl
      have h0 := hlo j (List.mem_cons_self ..)
      simp only [List.foldl_cons]
      rw [ih ht fun i hi => hlo i (List.mem_cons_of_mem _ hi), get_set]
      by_cases e : k = j - lo
      · have e' : lo + k = j := by omega
        simp [e, show lo + (j - lo) = j by omega, hj]
      · have e' : ¬ lo + k = j := by omega
        simp [e, e']
  rw [key _ ((keys_nodup m).filter _) (fun j hj => by have := (List.mem_filter.1 hj).2; simp at this; exact this.1)]
  by_cases h : lo + k < hi
  · rw [if_pos h]
    by_cases hk : lo + k ∈ keys m
    · rw [if_pos (List.mem_filter.2 ⟨hk, by simp [h]⟩)]
    · rw [if_neg (fun c => hk (List.mem_filter.1 c).1), get_unlisted m hk]; rfl
  · rw [if_neg h, if_neg]
    · rfl
    · intro c; have := (List.mem_filter.1 c).2; simp at this; omega

theorem splice_wf {m : SMap α} (lo n : Nat) (src : SMap α) (hm : wf d m = true) : wf d (splice d lo n m src) = true :=
  foldl_wf (fun _ _ h => set_wf _ _ h) _ (clear_wf _ _ hm)
theorem slice_wf (lo hi : Nat) (m : SMap α) : wf d (slice d lo hi m) = true := foldl_wf (fun _ _ h => set_wf _ _ h) _ rfl

end SMap

/-! ### Memories -/

namespace Mem

theorem read_write (m : Mem) (a b : Nat) (v : Byte) : read (write m a v) b = if b = a then v else read m b :=
  SMap.get_set m a b v

theorem write_wf {m : Mem} (a : Nat) (v : Byte) (h : wf m = true) : wf (write m a v) = true := SMap.set_wf a v h

theorem writeN_wf {m : Mem} (a n v : Nat) (h : wf m = true) : wf (writeN m a n v) = true := by
  induction n generalizing m a v with
  | zero => exact h
  | succ n ih => exact ih _ _ (write_wf a _ h)

theorem writeBytes_wf {m : Mem} (a : Nat) (l : List Byte) (h : wf m = true) : wf (writeBytes m a l) = true := by
  induction l generalizing m a with
  | nil => exact h
  | cons b t ih => exact ih _ (write_wf a b h)

theorem stores_wf {m : Mem} (l : List (Nat × Byte)) (h : wf m = true) : wf (stores m l) = true := by
  induction l generalizing m with
  | nil => exact h
  | cons p t ih => exact ih (write_wf p.1 p.2 h)

/-- A store of bytes: the bytes it names read back, every other address reads as before. -/
theorem read_writeBytes (m : Mem) (a b : Nat) (l : List Byte) :
    read (writeBytes m a l) b = if a ≤ b ∧ b < a + l.length then l.getD (b - a) 0 else read m b := by
  induction l generalizing m a with
  | nil => simp [writeBytes]
  | cons x t ih =>
    simp only [writeBytes, ih, read_write, List.length_cons]
    rcases Nat.lt_trichotomy b a with h | h | h
    · rw [if_neg (by omega), if_neg (by omega), if_neg (by omega)]
    · subst h; rw [if_neg (by omega), if_pos rfl, if_pos (by omega)]; simp
    · rw [if_neg (show ¬ b = a by omega)]
      by_cases hb : b < a + (t.length + 1)
      · rw [if_pos (by omega), if_pos (by omega)]
        obtain ⟨k, rfl⟩ : ∃ k, b = a + 1 + k := ⟨b - (a + 1), by omega⟩
        rw [show a + 1 + k - (a + 1) = k by omega, show a + 1 + k - a = k + 1 by omega, List.getD_cons_succ]
      · rw [if_neg (by omega), if_neg (by omega)]

theorem read_writeN (m : Mem) (a n v b : Nat) :
    read (writeN m a n v) b = if a ≤ b ∧ b < a + n then BitVec.ofNat 8 (v / 256 ^ (b - a)) else read m b := by
  induction n generalizing m a v with
  | zero => simp [writeN]
  | succ n ih =>
    simp only [writeN, ih, read_write]
    rcases Nat.lt_trichotomy b a with h | h | h
    · rw [if_neg (by omega), if_neg (by omega), if_neg (by omega)]
    · subst h; rw [if_neg (by omega), if_pos rfl, if_pos (by omega)]; simp
    · rw [if_neg (show ¬ b = a by omega)]
      by_cases hb : b < a + (n + 1)
      · rw [if_pos (by omega), if_pos (by omega)]
        obtain ⟨k, rfl⟩ : ∃ k, b = a + 1 + k := ⟨b - (a + 1), by omega⟩
        rw [show a + 1 + k - (a + 1) = k by omega, show a + 1 + k - a = k + 1 by omega, Nat.div_div_eq_div_mul, Nat.pow_succ,
          Nat.mul_comm]
      · rw [if_neg (by omega), if_neg (by omega)]

/-- What was written reads back, little-endian. -/
theorem readN_writeN (m : Mem) (a n v : Nat) (h : v < 256 ^ n) : readN (writeN m a n v) a n = v := by
  have key : ∀ (k : Nat), k ≤ n → readN (writeN m a n v) (a + (n - k)) k = v / 256 ^ (n - k) := by
    intro k
    induction k with
    | zero => intro _; simp [readN, Nat.div_eq_of_lt h]
    | succ k ih =>
      intro hk
      have ih' := ih (by omega)
      have e : a + (n - (k + 1)) + 1 = a + (n - k) := by omega
      simp only [readN, read_writeN]
      rw [if_pos (by omega), e, ih', show a + (n - (k + 1)) - a = n - (k + 1) by omega]
      have e2 : n - k = (n - (k + 1)) + 1 := by omega
      rw [e2, Nat.pow_succ, ← Nat.div_div_eq_div_mul, BitVec.toNat_ofNat, show (2 : Nat) ^ 8 = 256 from rfl]
      exact Nat.mod_add_div _ 256
  have := key n (Nat.le_refl n)
  simpa using this

/-- A store of bytes reads back as those bytes. -/
theorem readBytes_writeBytes (m : Mem) (a : Nat) (l : List Byte) : readBytes (writeBytes m a l) a l.length = l := by
  apply List.ext_getElem
  · simp [readBytes]
  · intro i h1 h2
    simp only [readBytes, List.getElem_map, List.getElem_range, read_writeBytes]
    rw [if_pos ⟨by omega, by omega⟩]
    simp [List.getD_eq_getElem?_getD, h2]

end Mem

end Sys2Proof.Machine
end

