-- ==== Sys2Proof/Laws/State.lean ====
section
/-! SUPPORT. What each update of a table of State changes and leaves alone: the entry it names takes its new
value, every other entry and every other field is as before. -/

namespace Sys2Proof.Machine

/-! ### modCell -/

@[simp] theorem State.modCell_same (s : State) (i : Nat) (f : Cell → Cell) : (s.modCell i f).cell i = f (s.cell i) := SMap.get_upd_same _ _ _
theorem State.modCell_ne (s : State) {i j : Nat} (f : Cell → Cell) (h : j ≠ i) : (s.modCell i f).cell j = s.cell j := SMap.get_upd_ne _ _ h
@[simp] theorem State.modCell_boot (s : State) (i : Nat) (f : Cell → Cell) : (s.modCell i f).boot = s.boot := rfl
@[simp] theorem State.modCell_sel (s : State) (i : Nat) (f : Cell → Cell) : (s.modCell i f).sel = s.sel := rfl
@[simp] theorem State.modCell_hdr (s : State) (i : Nat) (f : Cell → Cell) : (s.modCell i f).hdr = s.hdr := rfl
@[simp] theorem State.modCell_irq (s : State) (i : Nat) (f : Cell → Cell) : (s.modCell i f).irq = s.irq := rfl
@[simp] theorem State.modCell_time (s : State) (i : Nat) (f : Cell → Cell) : (s.modCell i f).time = s.time := rfl
@[simp] theorem State.modCell_jtag (s : State) (i : Nat) (f : Cell → Cell) : (s.modCell i f).jtag = s.jtag := rfl
@[simp] theorem State.modCell_smb (s : State) (i : Nat) (f : Cell → Cell) : (s.modCell i f).smb = s.smb := rfl
@[simp] theorem State.modCell_spare (s : State) (i : Nat) (f : Cell → Cell) : (s.modCell i f).spare = s.spare := rfl
@[simp] theorem State.modCell_pace (s : State) (i : Nat) (f : Cell → Cell) : (s.modCell i f).pace = s.pace := rfl
@[simp] theorem State.modCell_bursar (s : State) (i : Nat) (f : Cell → Cell) : (s.modCell i f).bursar = s.bursar := rfl
@[simp] theorem State.modCell_dp (s : State) (i : Nat) (f : Cell → Cell) : (s.modCell i f).dp = s.dp := rfl
@[simp] theorem State.modCell_ctxs (s : State) (i : Nat) (f : Cell → Cell) : (s.modCell i f).ctxs = s.ctxs := rfl
@[simp] theorem State.modCell_sched (s : State) (i : Nat) (f : Cell → Cell) : (s.modCell i f).sched = s.sched := rfl
@[simp] theorem State.modCell_sems (s : State) (i : Nat) (f : Cell → Cell) : (s.modCell i f).sems = s.sems := rfl
@[simp] theorem State.modCell_pot (s : State) (i : Nat) (f : Cell → Cell) : (s.modCell i f).pot = s.pot := rfl
@[simp] theorem State.modCell_hbm (s : State) (i : Nat) (f : Cell → Cell) : (s.modCell i f).hbm = s.hbm := rfl
@[simp] theorem State.modCell_host (s : State) (i : Nat) (f : Cell → Cell) : (s.modCell i f).host = s.host := rfl
@[simp] theorem State.modCell_cls (s : State) (i : Nat) (f : Cell → Cell) : (s.modCell i f).cls = s.cls := rfl
@[simp] theorem State.modCell_td (s : State) (i : Nat) (f : Cell → Cell) : (s.modCell i f).td = s.td := rfl
@[simp] theorem State.modCell_num (s : State) (i : Nat) (f : Cell → Cell) : (s.modCell i f).num = s.num := rfl
@[simp] theorem State.modCell_census (s : State) (i : Nat) (f : Cell → Cell) : (s.modCell i f).census = s.census := rfl
@[simp] theorem State.modCell_mctx (s : State) (i : Nat) (f : Cell → Cell) : (s.modCell i f).mctx = s.mctx := rfl
@[simp] theorem State.modCell_mint (s : State) (i : Nat) (f : Cell → Cell) : (s.modCell i f).mint = s.mint := rfl
@[simp] theorem State.modCell_upd (s : State) (i : Nat) (f : Cell → Cell) : (s.modCell i f).upd = s.upd := rfl
@[simp] theorem State.modCell_lgE (s : State) (i : Nat) (f : Cell → Cell) : (s.modCell i f).lgE = s.lgE := rfl
@[simp] theorem State.modCell_lgA (s : State) (i : Nat) (f : Cell → Cell) : (s.modCell i f).lgA = s.lgA := rfl
@[simp] theorem State.modCell_lgC (s : State) (i : Nat) (f : Cell → Cell) : (s.modCell i f).lgC = s.lgC := rfl
@[simp] theorem State.modCell_links (s : State) (i : Nat) (f : Cell → Cell) : (s.modCell i f).links = s.links := rfl
@[simp] theorem State.modCell_lkC (s : State) (i : Nat) (f : Cell → Cell) : (s.modCell i f).lkC = s.lkC := rfl
@[simp] theorem State.modCell_port (s : State) (i : Nat) (f : Cell → Cell) : (s.modCell i f).port = s.port := rfl
@[simp] theorem State.modCell_sg (s : State) (i : Nat) (f : Cell → Cell) : (s.modCell i f).sg = s.sg := rfl
@[simp] theorem State.modCell_sgC (s : State) (i : Nat) (f : Cell → Cell) : (s.modCell i f).sgC = s.sgC := rfl
@[simp] theorem State.modCell_st (s : State) (i : Nat) (f : Cell → Cell) : (s.modCell i f).st = s.st := rfl
@[simp] theorem State.modCell_free (s : State) (i : Nat) (f : Cell → Cell) : (s.modCell i f).free = s.free := rfl
@[simp] theorem State.modCell_pending (s : State) (i : Nat) (f : Cell → Cell) : (s.modCell i f).pending = s.pending := rfl

/-! ### modDp -/

@[simp] theorem State.modDp_same (s : State) (i : Nat) (f : DiePower → DiePower) : (s.modDp i f).dpow i = f (s.dpow i) := SMap.get_upd_same _ _ _
theorem State.modDp_ne (s : State) {i j : Nat} (f : DiePower → DiePower) (h : j ≠ i) : (s.modDp i f).dpow j = s.dpow j := SMap.get_upd_ne _ _ h
@[simp] theorem State.modDp_boot (s : State) (i : Nat) (f : DiePower → DiePower) : (s.modDp i f).boot = s.boot := rfl
@[simp] theorem State.modDp_sel (s : State) (i : Nat) (f : DiePower → DiePower) : (s.modDp i f).sel = s.sel := rfl
@[simp] theorem State.modDp_nv (s : State) (i : Nat) (f : DiePower → DiePower) : (s.modDp i f).nv = s.nv := rfl
@[simp] theorem State.modDp_hdr (s : State) (i : Nat) (f : DiePower → DiePower) : (s.modDp i f).hdr = s.hdr := rfl
@[simp] theorem State.modDp_irq (s : State) (i : Nat) (f : DiePower → DiePower) : (s.modDp i f).irq = s.irq := rfl
@[simp] theorem State.modDp_time (s : State) (i : Nat) (f : DiePower → DiePower) : (s.modDp i f).time = s.time := rfl
@[simp] theorem State.modDp_jtag (s : State) (i : Nat) (f : DiePower → DiePower) : (s.modDp i f).jtag = s.jtag := rfl
@[simp] theorem State.modDp_smb (s : State) (i : Nat) (f : DiePower → DiePower) : (s.modDp i f).smb = s.smb := rfl
@[simp] theorem State.modDp_spare (s : State) (i : Nat) (f : DiePower → DiePower) : (s.modDp i f).spare = s.spare := rfl
@[simp] theorem State.modDp_pace (s : State) (i : Nat) (f : DiePower → DiePower) : (s.modDp i f).pace = s.pace := rfl
@[simp] theorem State.modDp_bursar (s : State) (i : Nat) (f : DiePower → DiePower) : (s.modDp i f).bursar = s.bursar := rfl
@[simp] theorem State.modDp_ctxs (s : State) (i : Nat) (f : DiePower → DiePower) : (s.modDp i f).ctxs = s.ctxs := rfl
@[simp] theorem State.modDp_sched (s : State) (i : Nat) (f : DiePower → DiePower) : (s.modDp i f).sched = s.sched := rfl
@[simp] theorem State.modDp_sems (s : State) (i : Nat) (f : DiePower → DiePower) : (s.modDp i f).sems = s.sems := rfl
@[simp] theorem State.modDp_pot (s : State) (i : Nat) (f : DiePower → DiePower) : (s.modDp i f).pot = s.pot := rfl
@[simp] theorem State.modDp_hbm (s : State) (i : Nat) (f : DiePower → DiePower) : (s.modDp i f).hbm = s.hbm := rfl
@[simp] theorem State.modDp_host (s : State) (i : Nat) (f : DiePower → DiePower) : (s.modDp i f).host = s.host := rfl
@[simp] theorem State.modDp_cls (s : State) (i : Nat) (f : DiePower → DiePower) : (s.modDp i f).cls = s.cls := rfl
@[simp] theorem State.modDp_td (s : State) (i : Nat) (f : DiePower → DiePower) : (s.modDp i f).td = s.td := rfl
@[simp] theorem State.modDp_num (s : State) (i : Nat) (f : DiePower → DiePower) : (s.modDp i f).num = s.num := rfl
@[simp] theorem State.modDp_census (s : State) (i : Nat) (f : DiePower → DiePower) : (s.modDp i f).census = s.census := rfl
@[simp] theorem State.modDp_mctx (s : State) (i : Nat) (f : DiePower → DiePower) : (s.modDp i f).mctx = s.mctx := rfl
@[simp] theorem State.modDp_mint (s : State) (i : Nat) (f : DiePower → DiePower) : (s.modDp i f).mint = s.mint := rfl
@[simp] theorem State.modDp_upd (s : State) (i : Nat) (f : DiePower → DiePower) : (s.modDp i f).upd = s.upd := rfl
@[simp] theorem State.modDp_lgE (s : State) (i : Nat) (f : DiePower → DiePower) : (s.modDp i f).lgE = s.lgE := rfl
@[simp] theorem State.modDp_lgA (s : State) (i : Nat) (f : DiePower → DiePower) : (s.modDp i f).lgA = s.lgA := rfl
@[simp] theorem State.modDp_lgC (s : State) (i : Nat) (f : DiePower → DiePower) : (s.modDp i f).lgC = s.lgC := rfl
@[simp] theorem State.modDp_links (s : State) (i : Nat) (f : DiePower → DiePower) : (s.modDp i f).links = s.links := rfl
@[simp] theorem State.modDp_lkC (s : State) (i : Nat) (f : DiePower → DiePower) : (s.modDp i f).lkC = s.lkC := rfl
@[simp] theorem State.modDp_port (s : State) (i : Nat) (f : DiePower → DiePower) : (s.modDp i f).port = s.port := rfl
@[simp] theorem State.modDp_sg (s : State) (i : Nat) (f : DiePower → DiePower) : (s.modDp i f).sg = s.sg := rfl
@[simp] theorem State.modDp_sgC (s : State) (i : Nat) (f : DiePower → DiePower) : (s.modDp i f).sgC = s.sgC := rfl
@[simp] theorem State.modDp_st (s : State) (i : Nat) (f : DiePower → DiePower) : (s.modDp i f).st = s.st := rfl
@[simp] theorem State.modDp_free (s : State) (i : Nat) (f : DiePower → DiePower) : (s.modDp i f).free = s.free := rfl
@[simp] theorem State.modDp_pending (s : State) (i : Nat) (f : DiePower → DiePower) : (s.modDp i f).pending = s.pending := rfl

/-! ### modCtx -/

@[simp] theorem State.modCtx_same (s : State) (i : Nat) (f : Ctx → Ctx) : (s.modCtx i f).ctx i = f (s.ctx i) := SMap.get_upd_same _ _ _
theorem State.modCtx_ne (s : State) {i j : Nat} (f : Ctx → Ctx) (h : j ≠ i) : (s.modCtx i f).ctx j = s.ctx j := SMap.get_upd_ne _ _ h
@[simp] theorem State.modCtx_boot (s : State) (i : Nat) (f : Ctx → Ctx) : (s.modCtx i f).boot = s.boot := rfl
@[simp] theorem State.modCtx_sel (s : State) (i : Nat) (f : Ctx → Ctx) : (s.modCtx i f).sel = s.sel := rfl
@[simp] theorem State.modCtx_nv (s : State) (i : Nat) (f : Ctx → Ctx) : (s.modCtx i f).nv = s.nv := rfl
@[simp] theorem State.modCtx_hdr (s : State) (i : Nat) (f : Ctx → Ctx) : (s.modCtx i f).hdr = s.hdr := rfl
@[simp] theorem State.modCtx_irq (s : State) (i : Nat) (f : Ctx → Ctx) : (s.modCtx i f).irq = s.irq := rfl
@[simp] theorem State.modCtx_time (s : State) (i : Nat) (f : Ctx → Ctx) : (s.modCtx i f).time = s.time := rfl
@[simp] theorem State.modCtx_jtag (s : State) (i : Nat) (f : Ctx → Ctx) : (s.modCtx i f).jtag = s.jtag := rfl
@[simp] theorem State.modCtx_smb (s : State) (i : Nat) (f : Ctx → Ctx) : (s.modCtx i f).smb = s.smb := rfl
@[simp] theorem State.modCtx_spare (s : State) (i : Nat) (f : Ctx → Ctx) : (s.modCtx i f).spare = s.spare := rfl
@[simp] theorem State.modCtx_pace (s : State) (i : Nat) (f : Ctx → Ctx) : (s.modCtx i f).pace = s.pace := rfl
@[simp] theorem State.modCtx_bursar (s : State) (i : Nat) (f : Ctx → Ctx) : (s.modCtx i f).bursar = s.bursar := rfl
@[simp] theorem State.modCtx_dp (s : State) (i : Nat) (f : Ctx → Ctx) : (s.modCtx i f).dp = s.dp := rfl
@[simp] theorem State.modCtx_sched (s : State) (i : Nat) (f : Ctx → Ctx) : (s.modCtx i f).sched = s.sched := rfl
@[simp] theorem State.modCtx_sems (s : State) (i : Nat) (f : Ctx → Ctx) : (s.modCtx i f).sems = s.sems := rfl
@[simp] theorem State.modCtx_pot (s : State) (i : Nat) (f : Ctx → Ctx) : (s.modCtx i f).pot = s.pot := rfl
@[simp] theorem State.modCtx_hbm (s : State) (i : Nat) (f : Ctx → Ctx) : (s.modCtx i f).hbm = s.hbm := rfl
@[simp] theorem State.modCtx_host (s : State) (i : Nat) (f : Ctx → Ctx) : (s.modCtx i f).host = s.host := rfl
@[simp] theorem State.modCtx_cls (s : State) (i : Nat) (f : Ctx → Ctx) : (s.modCtx i f).cls = s.cls := rfl
@[simp] theorem State.modCtx_td (s : State) (i : Nat) (f : Ctx → Ctx) : (s.modCtx i f).td = s.td := rfl
@[simp] theorem State.modCtx_num (s : State) (i : Nat) (f : Ctx → Ctx) : (s.modCtx i f).num = s.num := rfl
@[simp] theorem State.modCtx_census (s : State) (i : Nat) (f : Ctx → Ctx) : (s.modCtx i f).census = s.census := rfl
@[simp] theorem State.modCtx_mctx (s : State) (i : Nat) (f : Ctx → Ctx) : (s.modCtx i f).mctx = s.mctx := rfl
@[simp] theorem State.modCtx_mint (s : State) (i : Nat) (f : Ctx → Ctx) : (s.modCtx i f).mint = s.mint := rfl
@[simp] theorem State.modCtx_upd (s : State) (i : Nat) (f : Ctx → Ctx) : (s.modCtx i f).upd = s.upd := rfl
@[simp] theorem State.modCtx_lgE (s : State) (i : Nat) (f : Ctx → Ctx) : (s.modCtx i f).lgE = s.lgE := rfl
@[simp] theorem State.modCtx_lgA (s : State) (i : Nat) (f : Ctx → Ctx) : (s.modCtx i f).lgA = s.lgA := rfl
@[simp] theorem State.modCtx_lgC (s : State) (i : Nat) (f : Ctx → Ctx) : (s.modCtx i f).lgC = s.lgC := rfl
@[simp] theorem State.modCtx_links (s : State) (i : Nat) (f : Ctx → Ctx) : (s.modCtx i f).links = s.links := rfl
@[simp] theorem State.modCtx_lkC (s : State) (i : Nat) (f : Ctx → Ctx) : (s.modCtx i f).lkC = s.lkC := rfl
@[simp] theorem State.modCtx_port (s : State) (i : Nat) (f : Ctx → Ctx) : (s.modCtx i f).port = s.port := rfl
@[simp] theorem State.modCtx_sg (s : State) (i : Nat) (f : Ctx → Ctx) : (s.modCtx i f).sg = s.sg := rfl
@[simp] theorem State.modCtx_sgC (s : State) (i : Nat) (f : Ctx → Ctx) : (s.modCtx i f).sgC = s.sgC := rfl
@[simp] theorem State.modCtx_st (s : State) (i : Nat) (f : Ctx → Ctx) : (s.modCtx i f).st = s.st := rfl
@[simp] theorem State.modCtx_free (s : State) (i : Nat) (f : Ctx → Ctx) : (s.modCtx i f).free = s.free := rfl
@[simp] theorem State.modCtx_pending (s : State) (i : Nat) (f : Ctx → Ctx) : (s.modCtx i f).pending = s.pending := rfl

/-! ### modSem -/

@[simp] theorem State.modSem_same (s : State) (i : Nat) (f : Sem → Sem) : (s.modSem i f).sem i = f (s.sem i) := SMap.get_upd_same _ _ _
theorem State.modSem_ne (s : State) {i j : Nat} (f : Sem → Sem) (h : j ≠ i) : (s.modSem i f).sem j = s.sem j := SMap.get_upd_ne _ _ h
@[simp] theorem State.modSem_boot (s : State) (i : Nat) (f : Sem → Sem) : (s.modSem i f).boot = s.boot := rfl
@[simp] theorem State.modSem_sel (s : State) (i : Nat) (f : Sem → Sem) : (s.modSem i f).sel = s.sel := rfl
@[simp] theorem State.modSem_nv (s : State) (i : Nat) (f : Sem → Sem) : (s.modSem i f).nv = s.nv := rfl
@[simp] theorem State.modSem_hdr (s : State) (i : Nat) (f : Sem → Sem) : (s.modSem i f).hdr = s.hdr := rfl
@[simp] theorem State.modSem_irq (s : State) (i : Nat) (f : Sem → Sem) : (s.modSem i f).irq = s.irq := rfl
@[simp] theorem State.modSem_time (s : State) (i : Nat) (f : Sem → Sem) : (s.modSem i f).time = s.time := rfl
@[simp] theorem State.modSem_jtag (s : State) (i : Nat) (f : Sem → Sem) : (s.modSem i f).jtag = s.jtag := rfl
@[simp] theorem State.modSem_smb (s : State) (i : Nat) (f : Sem → Sem) : (s.modSem i f).smb = s.smb := rfl
@[simp] theorem State.modSem_spare (s : State) (i : Nat) (f : Sem → Sem) : (s.modSem i f).spare = s.spare := rfl
@[simp] theorem State.modSem_pace (s : State) (i : Nat) (f : Sem → Sem) : (s.modSem i f).pace = s.pace := rfl
@[simp] theorem State.modSem_bursar (s : State) (i : Nat) (f : Sem → Sem) : (s.modSem i f).bursar = s.bursar := rfl
@[simp] theorem State.modSem_dp (s : State) (i : Nat) (f : Sem → Sem) : (s.modSem i f).dp = s.dp := rfl
@[simp] theorem State.modSem_ctxs (s : State) (i : Nat) (f : Sem → Sem) : (s.modSem i f).ctxs = s.ctxs := rfl
@[simp] theorem State.modSem_sched (s : State) (i : Nat) (f : Sem → Sem) : (s.modSem i f).sched = s.sched := rfl
@[simp] theorem State.modSem_pot (s : State) (i : Nat) (f : Sem → Sem) : (s.modSem i f).pot = s.pot := rfl
@[simp] theorem State.modSem_hbm (s : State) (i : Nat) (f : Sem → Sem) : (s.modSem i f).hbm = s.hbm := rfl
@[simp] theorem State.modSem_host (s : State) (i : Nat) (f : Sem → Sem) : (s.modSem i f).host = s.host := rfl
@[simp] theorem State.modSem_cls (s : State) (i : Nat) (f : Sem → Sem) : (s.modSem i f).cls = s.cls := rfl
@[simp] theorem State.modSem_td (s : State) (i : Nat) (f : Sem → Sem) : (s.modSem i f).td = s.td := rfl
@[simp] theorem State.modSem_num (s : State) (i : Nat) (f : Sem → Sem) : (s.modSem i f).num = s.num := rfl
@[simp] theorem State.modSem_census (s : State) (i : Nat) (f : Sem → Sem) : (s.modSem i f).census = s.census := rfl
@[simp] theorem State.modSem_mctx (s : State) (i : Nat) (f : Sem → Sem) : (s.modSem i f).mctx = s.mctx := rfl
@[simp] theorem State.modSem_mint (s : State) (i : Nat) (f : Sem → Sem) : (s.modSem i f).mint = s.mint := rfl
@[simp] theorem State.modSem_upd (s : State) (i : Nat) (f : Sem → Sem) : (s.modSem i f).upd = s.upd := rfl
@[simp] theorem State.modSem_lgE (s : State) (i : Nat) (f : Sem → Sem) : (s.modSem i f).lgE = s.lgE := rfl
@[simp] theorem State.modSem_lgA (s : State) (i : Nat) (f : Sem → Sem) : (s.modSem i f).lgA = s.lgA := rfl
@[simp] theorem State.modSem_lgC (s : State) (i : Nat) (f : Sem → Sem) : (s.modSem i f).lgC = s.lgC := rfl
@[simp] theorem State.modSem_links (s : State) (i : Nat) (f : Sem → Sem) : (s.modSem i f).links = s.links := rfl
@[simp] theorem State.modSem_lkC (s : State) (i : Nat) (f : Sem → Sem) : (s.modSem i f).lkC = s.lkC := rfl
@[simp] theorem State.modSem_port (s : State) (i : Nat) (f : Sem → Sem) : (s.modSem i f).port = s.port := rfl
@[simp] theorem State.modSem_sg (s : State) (i : Nat) (f : Sem → Sem) : (s.modSem i f).sg = s.sg := rfl
@[simp] theorem State.modSem_sgC (s : State) (i : Nat) (f : Sem → Sem) : (s.modSem i f).sgC = s.sgC := rfl
@[simp] theorem State.modSem_st (s : State) (i : Nat) (f : Sem → Sem) : (s.modSem i f).st = s.st := rfl
@[simp] theorem State.modSem_free (s : State) (i : Nat) (f : Sem → Sem) : (s.modSem i f).free = s.free := rfl
@[simp] theorem State.modSem_pending (s : State) (i : Nat) (f : Sem → Sem) : (s.modSem i f).pending = s.pending := rfl

/-! ### modCl -/

@[simp] theorem State.modCl_same (s : State) (i : Nat) (f : Cluster → Cluster) : (s.modCl i f).clu i = f (s.clu i) := SMap.get_upd_same _ _ _
theorem State.modCl_ne (s : State) {i j : Nat} (f : Cluster → Cluster) (h : j ≠ i) : (s.modCl i f).clu j = s.clu j := SMap.get_upd_ne _ _ h
@[simp] theorem State.modCl_boot (s : State) (i : Nat) (f : Cluster → Cluster) : (s.modCl i f).boot = s.boot := rfl
@[simp] theorem State.modCl_sel (s : State) (i : Nat) (f : Cluster → Cluster) : (s.modCl i f).sel = s.sel := rfl
@[simp] theorem State.modCl_nv (s : State) (i : Nat) (f : Cluster → Cluster) : (s.modCl i f).nv = s.nv := rfl
@[simp] theorem State.modCl_hdr (s : State) (i : Nat) (f : Cluster → Cluster) : (s.modCl i f).hdr = s.hdr := rfl
@[simp] theorem State.modCl_irq (s : State) (i : Nat) (f : Cluster → Cluster) : (s.modCl i f).irq = s.irq := rfl
@[simp] theorem State.modCl_time (s : State) (i : Nat) (f : Cluster → Cluster) : (s.modCl i f).time = s.time := rfl
@[simp] theorem State.modCl_jtag (s : State) (i : Nat) (f : Cluster → Cluster) : (s.modCl i f).jtag = s.jtag := rfl
@[simp] theorem State.modCl_smb (s : State) (i : Nat) (f : Cluster → Cluster) : (s.modCl i f).smb = s.smb := rfl
@[simp] theorem State.modCl_spare (s : State) (i : Nat) (f : Cluster → Cluster) : (s.modCl i f).spare = s.spare := rfl
@[simp] theorem State.modCl_pace (s : State) (i : Nat) (f : Cluster → Cluster) : (s.modCl i f).pace = s.pace := rfl
@[simp] theorem State.modCl_bursar (s : State) (i : Nat) (f : Cluster → Cluster) : (s.modCl i f).bursar = s.bursar := rfl
@[simp] theorem State.modCl_dp (s : State) (i : Nat) (f : Cluster → Cluster) : (s.modCl i f).dp = s.dp := rfl
@[simp] theorem State.modCl_ctxs (s : State) (i : Nat) (f : Cluster → Cluster) : (s.modCl i f).ctxs = s.ctxs := rfl
@[simp] theorem State.modCl_sched (s : State) (i : Nat) (f : Cluster → Cluster) : (s.modCl i f).sched = s.sched := rfl
@[simp] theorem State.modCl_sems (s : State) (i : Nat) (f : Cluster → Cluster) : (s.modCl i f).sems = s.sems := rfl
@[simp] theorem State.modCl_pot (s : State) (i : Nat) (f : Cluster → Cluster) : (s.modCl i f).pot = s.pot := rfl
@[simp] theorem State.modCl_hbm (s : State) (i : Nat) (f : Cluster → Cluster) : (s.modCl i f).hbm = s.hbm := rfl
@[simp] theorem State.modCl_host (s : State) (i : Nat) (f : Cluster → Cluster) : (s.modCl i f).host = s.host := rfl
@[simp] theorem State.modCl_td (s : State) (i : Nat) (f : Cluster → Cluster) : (s.modCl i f).td = s.td := rfl
@[simp] theorem State.modCl_num (s : State) (i : Nat) (f : Cluster → Cluster) : (s.modCl i f).num = s.num := rfl
@[simp] theorem State.modCl_census (s : State) (i : Nat) (f : Cluster → Cluster) : (s.modCl i f).census = s.census := rfl
@[simp] theorem State.modCl_mctx (s : State) (i : Nat) (f : Cluster → Cluster) : (s.modCl i f).mctx = s.mctx := rfl
@[simp] theorem State.modCl_mint (s : State) (i : Nat) (f : Cluster → Cluster) : (s.modCl i f).mint = s.mint := rfl
@[simp] theorem State.modCl_upd (s : State) (i : Nat) (f : Cluster → Cluster) : (s.modCl i f).upd = s.upd := rfl
@[simp] theorem State.modCl_lgE (s : State) (i : Nat) (f : Cluster → Cluster) : (s.modCl i f).lgE = s.lgE := rfl
@[simp] theorem State.modCl_lgA (s : State) (i : Nat) (f : Cluster → Cluster) : (s.modCl i f).lgA = s.lgA := rfl
@[simp] theorem State.modCl_lgC (s : State) (i : Nat) (f : Cluster → Cluster) : (s.modCl i f).lgC = s.lgC := rfl
@[simp] theorem State.modCl_links (s : State) (i : Nat) (f : Cluster → Cluster) : (s.modCl i f).links = s.links := rfl
@[simp] theorem State.modCl_lkC (s : State) (i : Nat) (f : Cluster → Cluster) : (s.modCl i f).lkC = s.lkC := rfl
@[simp] theorem State.modCl_port (s : State) (i : Nat) (f : Cluster → Cluster) : (s.modCl i f).port = s.port := rfl
@[simp] theorem State.modCl_sg (s : State) (i : Nat) (f : Cluster → Cluster) : (s.modCl i f).sg = s.sg := rfl
@[simp] theorem State.modCl_sgC (s : State) (i : Nat) (f : Cluster → Cluster) : (s.modCl i f).sgC = s.sgC := rfl
@[simp] theorem State.modCl_st (s : State) (i : Nat) (f : Cluster → Cluster) : (s.modCl i f).st = s.st := rfl
@[simp] theorem State.modCl_free (s : State) (i : Nat) (f : Cluster → Cluster) : (s.modCl i f).free = s.free := rfl
@[simp] theorem State.modCl_pending (s : State) (i : Nat) (f : Cluster → Cluster) : (s.modCl i f).pending = s.pending := rfl

/-! ### modTd -/

@[simp] theorem State.modTd_same (s : State) (i : Nat) (f : TouchDie → TouchDie) : (s.modTd i f).tdie i = f (s.tdie i) := SMap.get_upd_same _ _ _
theorem State.modTd_ne (s : State) {i j : Nat} (f : TouchDie → TouchDie) (h : j ≠ i) : (s.modTd i f).tdie j = s.tdie j := SMap.get_upd_ne _ _ h
@[simp] theorem State.modTd_boot (s : State) (i : Nat) (f : TouchDie → TouchDie) : (s.modTd i f).boot = s.boot := rfl
@[simp] theorem State.modTd_sel (s : State) (i : Nat) (f : TouchDie → TouchDie) : (s.modTd i f).sel = s.sel := rfl
@[simp] theorem State.modTd_nv (s : State) (i : Nat) (f : TouchDie → TouchDie) : (s.modTd i f).nv = s.nv := rfl
@[simp] theorem State.modTd_hdr (s : State) (i : Nat) (f : TouchDie → TouchDie) : (s.modTd i f).hdr = s.hdr := rfl
@[simp] theorem State.modTd_irq (s : State) (i : Nat) (f : TouchDie → TouchDie) : (s.modTd i f).irq = s.irq := rfl
@[simp] theorem State.modTd_time (s : State) (i : Nat) (f : TouchDie → TouchDie) : (s.modTd i f).time = s.time := rfl
@[simp] theorem State.modTd_jtag (s : State) (i : Nat) (f : TouchDie → TouchDie) : (s.modTd i f).jtag = s.jtag := rfl
@[simp] theorem State.modTd_smb (s : State) (i : Nat) (f : TouchDie → TouchDie) : (s.modTd i f).smb = s.smb := rfl
@[simp] theorem State.modTd_spare (s : State) (i : Nat) (f : TouchDie → TouchDie) : (s.modTd i f).spare = s.spare := rfl
@[simp] theorem State.modTd_pace (s : State) (i : Nat) (f : TouchDie → TouchDie) : (s.modTd i f).pace = s.pace := rfl
@[simp] theorem State.modTd_bursar (s : State) (i : Nat) (f : TouchDie → TouchDie) : (s.modTd i f).bursar = s.bursar := rfl
@[simp] theorem State.modTd_dp (s : State) (i : Nat) (f : TouchDie → TouchDie) : (s.modTd i f).dp = s.dp := rfl
@[simp] theorem State.modTd_ctxs (s : State) (i : Nat) (f : TouchDie → TouchDie) : (s.modTd i f).ctxs = s.ctxs := rfl
@[simp] theorem State.modTd_sched (s : State) (i : Nat) (f : TouchDie → TouchDie) : (s.modTd i f).sched = s.sched := rfl
@[simp] theorem State.modTd_sems (s : State) (i : Nat) (f : TouchDie → TouchDie) : (s.modTd i f).sems = s.sems := rfl
@[simp] theorem State.modTd_pot (s : State) (i : Nat) (f : TouchDie → TouchDie) : (s.modTd i f).pot = s.pot := rfl
@[simp] theorem State.modTd_hbm (s : State) (i : Nat) (f : TouchDie → TouchDie) : (s.modTd i f).hbm = s.hbm := rfl
@[simp] theorem State.modTd_host (s : State) (i : Nat) (f : TouchDie → TouchDie) : (s.modTd i f).host = s.host := rfl
@[simp] theorem State.modTd_cls (s : State) (i : Nat) (f : TouchDie → TouchDie) : (s.modTd i f).cls = s.cls := rfl
@[simp] theorem State.modTd_num (s : State) (i : Nat) (f : TouchDie → TouchDie) : (s.modTd i f).num = s.num := rfl
@[simp] theorem State.modTd_census (s : State) (i : Nat) (f : TouchDie → TouchDie) : (s.modTd i f).census = s.census := rfl
@[simp] theorem State.modTd_mctx (s : State) (i : Nat) (f : TouchDie → TouchDie) : (s.modTd i f).mctx = s.mctx := rfl
@[simp] theorem State.modTd_mint (s : State) (i : Nat) (f : TouchDie → TouchDie) : (s.modTd i f).mint = s.mint := rfl
@[simp] theorem State.modTd_upd (s : State) (i : Nat) (f : TouchDie → TouchDie) : (s.modTd i f).upd = s.upd := rfl
@[simp] theorem State.modTd_lgE (s : State) (i : Nat) (f : TouchDie → TouchDie) : (s.modTd i f).lgE = s.lgE := rfl
@[simp] theorem State.modTd_lgA (s : State) (i : Nat) (f : TouchDie → TouchDie) : (s.modTd i f).lgA = s.lgA := rfl
@[simp] theorem State.modTd_lgC (s : State) (i : Nat) (f : TouchDie → TouchDie) : (s.modTd i f).lgC = s.lgC := rfl
@[simp] theorem State.modTd_links (s : State) (i : Nat) (f : TouchDie → TouchDie) : (s.modTd i f).links = s.links := rfl
@[simp] theorem State.modTd_lkC (s : State) (i : Nat) (f : TouchDie → TouchDie) : (s.modTd i f).lkC = s.lkC := rfl
@[simp] theorem State.modTd_port (s : State) (i : Nat) (f : TouchDie → TouchDie) : (s.modTd i f).port = s.port := rfl
@[simp] theorem State.modTd_sg (s : State) (i : Nat) (f : TouchDie → TouchDie) : (s.modTd i f).sg = s.sg := rfl
@[simp] theorem State.modTd_sgC (s : State) (i : Nat) (f : TouchDie → TouchDie) : (s.modTd i f).sgC = s.sgC := rfl
@[simp] theorem State.modTd_st (s : State) (i : Nat) (f : TouchDie → TouchDie) : (s.modTd i f).st = s.st := rfl
@[simp] theorem State.modTd_free (s : State) (i : Nat) (f : TouchDie → TouchDie) : (s.modTd i f).free = s.free := rfl
@[simp] theorem State.modTd_pending (s : State) (i : Nat) (f : TouchDie → TouchDie) : (s.modTd i f).pending = s.pending := rfl

/-! ### modNum -/

@[simp] theorem State.modNum_same (s : State) (i : Nat) (f : Numerics → Numerics) : (s.modNum i f).nums i = f (s.nums i) := SMap.get_upd_same _ _ _
theorem State.modNum_ne (s : State) {i j : Nat} (f : Numerics → Numerics) (h : j ≠ i) : (s.modNum i f).nums j = s.nums j := SMap.get_upd_ne _ _ h
@[simp] theorem State.modNum_boot (s : State) (i : Nat) (f : Numerics → Numerics) : (s.modNum i f).boot = s.boot := rfl
@[simp] theorem State.modNum_sel (s : State) (i : Nat) (f : Numerics → Numerics) : (s.modNum i f).sel = s.sel := rfl
@[simp] theorem State.modNum_nv (s : State) (i : Nat) (f : Numerics → Numerics) : (s.modNum i f).nv = s.nv := rfl
@[simp] theorem State.modNum_hdr (s : State) (i : Nat) (f : Numerics → Numerics) : (s.modNum i f).hdr = s.hdr := rfl
@[simp] theorem State.modNum_irq (s : State) (i : Nat) (f : Numerics → Numerics) : (s.modNum i f).irq = s.irq := rfl
@[simp] theorem State.modNum_time (s : State) (i : Nat) (f : Numerics → Numerics) : (s.modNum i f).time = s.time := rfl
@[simp] theorem State.modNum_jtag (s : State) (i : Nat) (f : Numerics → Numerics) : (s.modNum i f).jtag = s.jtag := rfl
@[simp] theorem State.modNum_smb (s : State) (i : Nat) (f : Numerics → Numerics) : (s.modNum i f).smb = s.smb := rfl
@[simp] theorem State.modNum_spare (s : State) (i : Nat) (f : Numerics → Numerics) : (s.modNum i f).spare = s.spare := rfl
@[simp] theorem State.modNum_pace (s : State) (i : Nat) (f : Numerics → Numerics) : (s.modNum i f).pace = s.pace := rfl
@[simp] theorem State.modNum_bursar (s : State) (i : Nat) (f : Numerics → Numerics) : (s.modNum i f).bursar = s.bursar := rfl
@[simp] theorem State.modNum_dp (s : State) (i : Nat) (f : Numerics → Numerics) : (s.modNum i f).dp = s.dp := rfl
@[simp] theorem State.modNum_ctxs (s : State) (i : Nat) (f : Numerics → Numerics) : (s.modNum i f).ctxs = s.ctxs := rfl
@[simp] theorem State.modNum_sched (s : State) (i : Nat) (f : Numerics → Numerics) : (s.modNum i f).sched = s.sched := rfl
@[simp] theorem State.modNum_sems (s : State) (i : Nat) (f : Numerics → Numerics) : (s.modNum i f).sems = s.sems := rfl
@[simp] theorem State.modNum_pot (s : State) (i : Nat) (f : Numerics → Numerics) : (s.modNum i f).pot = s.pot := rfl
@[simp] theorem State.modNum_hbm (s : State) (i : Nat) (f : Numerics → Numerics) : (s.modNum i f).hbm = s.hbm := rfl
@[simp] theorem State.modNum_host (s : State) (i : Nat) (f : Numerics → Numerics) : (s.modNum i f).host = s.host := rfl
@[simp] theorem State.modNum_cls (s : State) (i : Nat) (f : Numerics → Numerics) : (s.modNum i f).cls = s.cls := rfl
@[simp] theorem State.modNum_td (s : State) (i : Nat) (f : Numerics → Numerics) : (s.modNum i f).td = s.td := rfl
@[simp] theorem State.modNum_census (s : State) (i : Nat) (f : Numerics → Numerics) : (s.modNum i f).census = s.census := rfl
@[simp] theorem State.modNum_mctx (s : State) (i : Nat) (f : Numerics → Numerics) : (s.modNum i f).mctx = s.mctx := rfl
@[simp] theorem State.modNum_mint (s : State) (i : Nat) (f : Numerics → Numerics) : (s.modNum i f).mint = s.mint := rfl
@[simp] theorem State.modNum_upd (s : State) (i : Nat) (f : Numerics → Numerics) : (s.modNum i f).upd = s.upd := rfl
@[simp] theorem State.modNum_lgE (s : State) (i : Nat) (f : Numerics → Numerics) : (s.modNum i f).lgE = s.lgE := rfl
@[simp] theorem State.modNum_lgA (s : State) (i : Nat) (f : Numerics → Numerics) : (s.modNum i f).lgA = s.lgA := rfl
@[simp] theorem State.modNum_lgC (s : State) (i : Nat) (f : Numerics → Numerics) : (s.modNum i f).lgC = s.lgC := rfl
@[simp] theorem State.modNum_links (s : State) (i : Nat) (f : Numerics → Numerics) : (s.modNum i f).links = s.links := rfl
@[simp] theorem State.modNum_lkC (s : State) (i : Nat) (f : Numerics → Numerics) : (s.modNum i f).lkC = s.lkC := rfl
@[simp] theorem State.modNum_port (s : State) (i : Nat) (f : Numerics → Numerics) : (s.modNum i f).port = s.port := rfl
@[simp] theorem State.modNum_sg (s : State) (i : Nat) (f : Numerics → Numerics) : (s.modNum i f).sg = s.sg := rfl
@[simp] theorem State.modNum_sgC (s : State) (i : Nat) (f : Numerics → Numerics) : (s.modNum i f).sgC = s.sgC := rfl
@[simp] theorem State.modNum_st (s : State) (i : Nat) (f : Numerics → Numerics) : (s.modNum i f).st = s.st := rfl
@[simp] theorem State.modNum_free (s : State) (i : Nat) (f : Numerics → Numerics) : (s.modNum i f).free = s.free := rfl
@[simp] theorem State.modNum_pending (s : State) (i : Nat) (f : Numerics → Numerics) : (s.modNum i f).pending = s.pending := rfl

/-! ### modMtc -/

@[simp] theorem State.modMtc_same (s : State) (i : Nat) (f : MintCtx → MintCtx) : (s.modMtc i f).mtc i = f (s.mtc i) := SMap.get_upd_same _ _ _
theorem State.modMtc_ne (s : State) {i j : Nat} (f : MintCtx → MintCtx) (h : j ≠ i) : (s.modMtc i f).mtc j = s.mtc j := SMap.get_upd_ne _ _ h
@[simp] theorem State.modMtc_boot (s : State) (i : Nat) (f : MintCtx → MintCtx) : (s.modMtc i f).boot = s.boot := rfl
@[simp] theorem State.modMtc_sel (s : State) (i : Nat) (f : MintCtx → MintCtx) : (s.modMtc i f).sel = s.sel := rfl
@[simp] theorem State.modMtc_nv (s : State) (i : Nat) (f : MintCtx → MintCtx) : (s.modMtc i f).nv = s.nv := rfl
@[simp] theorem State.modMtc_hdr (s : State) (i : Nat) (f : MintCtx → MintCtx) : (s.modMtc i f).hdr = s.hdr := rfl
@[simp] theorem State.modMtc_irq (s : State) (i : Nat) (f : MintCtx → MintCtx) : (s.modMtc i f).irq = s.irq := rfl
@[simp] theorem State.modMtc_time (s : State) (i : Nat) (f : MintCtx → MintCtx) : (s.modMtc i f).time = s.time := rfl
@[simp] theorem State.modMtc_jtag (s : State) (i : Nat) (f : MintCtx → MintCtx) : (s.modMtc i f).jtag = s.jtag := rfl
@[simp] theorem State.modMtc_smb (s : State) (i : Nat) (f : MintCtx → MintCtx) : (s.modMtc i f).smb = s.smb := rfl
@[simp] theorem State.modMtc_spare (s : State) (i : Nat) (f : MintCtx → MintCtx) : (s.modMtc i f).spare = s.spare := rfl
@[simp] theorem State.modMtc_pace (s : State) (i : Nat) (f : MintCtx → MintCtx) : (s.modMtc i f).pace = s.pace := rfl
@[simp] theorem State.modMtc_bursar (s : State) (i : Nat) (f : MintCtx → MintCtx) : (s.modMtc i f).bursar = s.bursar := rfl
@[simp] theorem State.modMtc_dp (s : State) (i : Nat) (f : MintCtx → MintCtx) : (s.modMtc i f).dp = s.dp := rfl
@[simp] theorem State.modMtc_ctxs (s : State) (i : Nat) (f : MintCtx → MintCtx) : (s.modMtc i f).ctxs = s.ctxs := rfl
@[simp] theorem State.modMtc_sched (s : State) (i : Nat) (f : MintCtx → MintCtx) : (s.modMtc i f).sched = s.sched := rfl
@[simp] theorem State.modMtc_sems (s : State) (i : Nat) (f : MintCtx → MintCtx) : (s.modMtc i f).sems = s.sems := rfl
@[simp] theorem State.modMtc_pot (s : State) (i : Nat) (f : MintCtx → MintCtx) : (s.modMtc i f).pot = s.pot := rfl
@[simp] theorem State.modMtc_hbm (s : State) (i : Nat) (f : MintCtx → MintCtx) : (s.modMtc i f).hbm = s.hbm := rfl
@[simp] theorem State.modMtc_host (s : State) (i : Nat) (f : MintCtx → MintCtx) : (s.modMtc i f).host = s.host := rfl
@[simp] theorem State.modMtc_cls (s : State) (i : Nat) (f : MintCtx → MintCtx) : (s.modMtc i f).cls = s.cls := rfl
@[simp] theorem State.modMtc_td (s : State) (i : Nat) (f : MintCtx → MintCtx) : (s.modMtc i f).td = s.td := rfl
@[simp] theorem State.modMtc_num (s : State) (i : Nat) (f : MintCtx → MintCtx) : (s.modMtc i f).num = s.num := rfl
@[simp] theorem State.modMtc_census (s : State) (i : Nat) (f : MintCtx → MintCtx) : (s.modMtc i f).census = s.census := rfl
@[simp] theorem State.modMtc_mint (s : State) (i : Nat) (f : MintCtx → MintCtx) : (s.modMtc i f).mint = s.mint := rfl
@[simp] theorem State.modMtc_upd (s : State) (i : Nat) (f : MintCtx → MintCtx) : (s.modMtc i f).upd = s.upd := rfl
@[simp] theorem State.modMtc_lgE (s : State) (i : Nat) (f : MintCtx → MintCtx) : (s.modMtc i f).lgE = s.lgE := rfl
@[simp] theorem State.modMtc_lgA (s : State) (i : Nat) (f : MintCtx → MintCtx) : (s.modMtc i f).lgA = s.lgA := rfl
@[simp] theorem State.modMtc_lgC (s : State) (i : Nat) (f : MintCtx → MintCtx) : (s.modMtc i f).lgC = s.lgC := rfl
@[simp] theorem State.modMtc_links (s : State) (i : Nat) (f : MintCtx → MintCtx) : (s.modMtc i f).links = s.links := rfl
@[simp] theorem State.modMtc_lkC (s : State) (i : Nat) (f : MintCtx → MintCtx) : (s.modMtc i f).lkC = s.lkC := rfl
@[simp] theorem State.modMtc_port (s : State) (i : Nat) (f : MintCtx → MintCtx) : (s.modMtc i f).port = s.port := rfl
@[simp] theorem State.modMtc_sg (s : State) (i : Nat) (f : MintCtx → MintCtx) : (s.modMtc i f).sg = s.sg := rfl
@[simp] theorem State.modMtc_sgC (s : State) (i : Nat) (f : MintCtx → MintCtx) : (s.modMtc i f).sgC = s.sgC := rfl
@[simp] theorem State.modMtc_st (s : State) (i : Nat) (f : MintCtx → MintCtx) : (s.modMtc i f).st = s.st := rfl
@[simp] theorem State.modMtc_free (s : State) (i : Nat) (f : MintCtx → MintCtx) : (s.modMtc i f).free = s.free := rfl
@[simp] theorem State.modMtc_pending (s : State) (i : Nat) (f : MintCtx → MintCtx) : (s.modMtc i f).pending = s.pending := rfl

/-! ### modMnt -/

@[simp] theorem State.modMnt_same (s : State) (i : Nat) (f : MintUnit → MintUnit) : (s.modMnt i f).mnt i = f (s.mnt i) := SMap.get_upd_same _ _ _
theorem State.modMnt_ne (s : State) {i j : Nat} (f : MintUnit → MintUnit) (h : j ≠ i) : (s.modMnt i f).mnt j = s.mnt j := SMap.get_upd_ne _ _ h
@[simp] theorem State.modMnt_boot (s : State) (i : Nat) (f : MintUnit → MintUnit) : (s.modMnt i f).boot = s.boot := rfl
@[simp] theorem State.modMnt_sel (s : State) (i : Nat) (f : MintUnit → MintUnit) : (s.modMnt i f).sel = s.sel := rfl
@[simp] theorem State.modMnt_nv (s : State) (i : Nat) (f : MintUnit → MintUnit) : (s.modMnt i f).nv = s.nv := rfl
@[simp] theorem State.modMnt_hdr (s : State) (i : Nat) (f : MintUnit → MintUnit) : (s.modMnt i f).hdr = s.hdr := rfl
@[simp] theorem State.modMnt_irq (s : State) (i : Nat) (f : MintUnit → MintUnit) : (s.modMnt i f).irq = s.irq := rfl
@[simp] theorem State.modMnt_time (s : State) (i : Nat) (f : MintUnit → MintUnit) : (s.modMnt i f).time = s.time := rfl
@[simp] theorem State.modMnt_jtag (s : State) (i : Nat) (f : MintUnit → MintUnit) : (s.modMnt i f).jtag = s.jtag := rfl
@[simp] theorem State.modMnt_smb (s : State) (i : Nat) (f : MintUnit → MintUnit) : (s.modMnt i f).smb = s.smb := rfl
@[simp] theorem State.modMnt_spare (s : State) (i : Nat) (f : MintUnit → MintUnit) : (s.modMnt i f).spare = s.spare := rfl
@[simp] theorem State.modMnt_pace (s : State) (i : Nat) (f : MintUnit → MintUnit) : (s.modMnt i f).pace = s.pace := rfl
@[simp] theorem State.modMnt_bursar (s : State) (i : Nat) (f : MintUnit → MintUnit) : (s.modMnt i f).bursar = s.bursar := rfl
@[simp] theorem State.modMnt_dp (s : State) (i : Nat) (f : MintUnit → MintUnit) : (s.modMnt i f).dp = s.dp := rfl
@[simp] theorem State.modMnt_ctxs (s : State) (i : Nat) (f : MintUnit → MintUnit) : (s.modMnt i f).ctxs = s.ctxs := rfl
@[simp] theorem State.modMnt_sched (s : State) (i : Nat) (f : MintUnit → MintUnit) : (s.modMnt i f).sched = s.sched := rfl
@[simp] theorem State.modMnt_sems (s : State) (i : Nat) (f : MintUnit → MintUnit) : (s.modMnt i f).sems = s.sems := rfl
@[simp] theorem State.modMnt_pot (s : State) (i : Nat) (f : MintUnit → MintUnit) : (s.modMnt i f).pot = s.pot := rfl
@[simp] theorem State.modMnt_hbm (s : State) (i : Nat) (f : MintUnit → MintUnit) : (s.modMnt i f).hbm = s.hbm := rfl
@[simp] theorem State.modMnt_host (s : State) (i : Nat) (f : MintUnit → MintUnit) : (s.modMnt i f).host = s.host := rfl
@[simp] theorem State.modMnt_cls (s : State) (i : Nat) (f : MintUnit → MintUnit) : (s.modMnt i f).cls = s.cls := rfl
@[simp] theorem State.modMnt_td (s : State) (i : Nat) (f : MintUnit → MintUnit) : (s.modMnt i f).td = s.td := rfl
@[simp] theorem State.modMnt_num (s : State) (i : Nat) (f : MintUnit → MintUnit) : (s.modMnt i f).num = s.num := rfl
@[simp] theorem State.modMnt_census (s : State) (i : Nat) (f : MintUnit → MintUnit) : (s.modMnt i f).census = s.census := rfl
@[simp] theorem State.modMnt_mctx (s : State) (i : Nat) (f : MintUnit → MintUnit) : (s.modMnt i f).mctx = s.mctx := rfl
@[simp] theorem State.modMnt_upd (s : State) (i : Nat) (f : MintUnit → MintUnit) : (s.modMnt i f).upd = s.upd := rfl
@[simp] theorem State.modMnt_lgE (s : State) (i : Nat) (f : MintUnit → MintUnit) : (s.modMnt i f).lgE = s.lgE := rfl
@[simp] theorem State.modMnt_lgA (s : State) (i : Nat) (f : MintUnit → MintUnit) : (s.modMnt i f).lgA = s.lgA := rfl
@[simp] theorem State.modMnt_lgC (s : State) (i : Nat) (f : MintUnit → MintUnit) : (s.modMnt i f).lgC = s.lgC := rfl
@[simp] theorem State.modMnt_links (s : State) (i : Nat) (f : MintUnit → MintUnit) : (s.modMnt i f).links = s.links := rfl
@[simp] theorem State.modMnt_lkC (s : State) (i : Nat) (f : MintUnit → MintUnit) : (s.modMnt i f).lkC = s.lkC := rfl
@[simp] theorem State.modMnt_port (s : State) (i : Nat) (f : MintUnit → MintUnit) : (s.modMnt i f).port = s.port := rfl
@[simp] theorem State.modMnt_sg (s : State) (i : Nat) (f : MintUnit → MintUnit) : (s.modMnt i f).sg = s.sg := rfl
@[simp] theorem State.modMnt_sgC (s : State) (i : Nat) (f : MintUnit → MintUnit) : (s.modMnt i f).sgC = s.sgC := rfl
@[simp] theorem State.modMnt_st (s : State) (i : Nat) (f : MintUnit → MintUnit) : (s.modMnt i f).st = s.st := rfl
@[simp] theorem State.modMnt_free (s : State) (i : Nat) (f : MintUnit → MintUnit) : (s.modMnt i f).free = s.free := rfl
@[simp] theorem State.modMnt_pending (s : State) (i : Nat) (f : MintUnit → MintUnit) : (s.modMnt i f).pending = s.pending := rfl

/-! ### modEnt -/

@[simp] theorem State.modEnt_same (s : State) (i : Nat) (f : Entry → Entry) : (s.modEnt i f).ent i = f (s.ent i) := SMap.get_upd_same _ _ _
theorem State.modEnt_ne (s : State) {i j : Nat} (f : Entry → Entry) (h : j ≠ i) : (s.modEnt i f).ent j = s.ent j := SMap.get_upd_ne _ _ h
@[simp] theorem State.modEnt_boot (s : State) (i : Nat) (f : Entry → Entry) : (s.modEnt i f).boot = s.boot := rfl
@[simp] theorem State.modEnt_sel (s : State) (i : Nat) (f : Entry → Entry) : (s.modEnt i f).sel = s.sel := rfl
@[simp] theorem State.modEnt_nv (s : State) (i : Nat) (f : Entry → Entry) : (s.modEnt i f).nv = s.nv := rfl
@[simp] theorem State.modEnt_hdr (s : State) (i : Nat) (f : Entry → Entry) : (s.modEnt i f).hdr = s.hdr := rfl
@[simp] theorem State.modEnt_irq (s : State) (i : Nat) (f : Entry → Entry) : (s.modEnt i f).irq = s.irq := rfl
@[simp] theorem State.modEnt_time (s : State) (i : Nat) (f : Entry → Entry) : (s.modEnt i f).time = s.time := rfl
@[simp] theorem State.modEnt_jtag (s : State) (i : Nat) (f : Entry → Entry) : (s.modEnt i f).jtag = s.jtag := rfl
@[simp] theorem State.modEnt_smb (s : State) (i : Nat) (f : Entry → Entry) : (s.modEnt i f).smb = s.smb := rfl
@[simp] theorem State.modEnt_spare (s : State) (i : Nat) (f : Entry → Entry) : (s.modEnt i f).spare = s.spare := rfl
@[simp] theorem State.modEnt_pace (s : State) (i : Nat) (f : Entry → Entry) : (s.modEnt i f).pace = s.pace := rfl
@[simp] theorem State.modEnt_bursar (s : State) (i : Nat) (f : Entry → Entry) : (s.modEnt i f).bursar = s.bursar := rfl
@[simp] theorem State.modEnt_dp (s : State) (i : Nat) (f : Entry → Entry) : (s.modEnt i f).dp = s.dp := rfl
@[simp] theorem State.modEnt_ctxs (s : State) (i : Nat) (f : Entry → Entry) : (s.modEnt i f).ctxs = s.ctxs := rfl
@[simp] theorem State.modEnt_sched (s : State) (i : Nat) (f : Entry → Entry) : (s.modEnt i f).sched = s.sched := rfl
@[simp] theorem State.modEnt_sems (s : State) (i : Nat) (f : Entry → Entry) : (s.modEnt i f).sems = s.sems := rfl
@[simp] theorem State.modEnt_pot (s : State) (i : Nat) (f : Entry → Entry) : (s.modEnt i f).pot = s.pot := rfl
@[simp] theorem State.modEnt_hbm (s : State) (i : Nat) (f : Entry → Entry) : (s.modEnt i f).hbm = s.hbm := rfl
@[simp] theorem State.modEnt_host (s : State) (i : Nat) (f : Entry → Entry) : (s.modEnt i f).host = s.host := rfl
@[simp] theorem State.modEnt_cls (s : State) (i : Nat) (f : Entry → Entry) : (s.modEnt i f).cls = s.cls := rfl
@[simp] theorem State.modEnt_td (s : State) (i : Nat) (f : Entry → Entry) : (s.modEnt i f).td = s.td := rfl
@[simp] theorem State.modEnt_num (s : State) (i : Nat) (f : Entry → Entry) : (s.modEnt i f).num = s.num := rfl
@[simp] theorem State.modEnt_census (s : State) (i : Nat) (f : Entry → Entry) : (s.modEnt i f).census = s.census := rfl
@[simp] theorem State.modEnt_mctx (s : State) (i : Nat) (f : Entry → Entry) : (s.modEnt i f).mctx = s.mctx := rfl
@[simp] theorem State.modEnt_mint (s : State) (i : Nat) (f : Entry → Entry) : (s.modEnt i f).mint = s.mint := rfl
@[simp] theorem State.modEnt_upd (s : State) (i : Nat) (f : Entry → Entry) : (s.modEnt i f).upd = s.upd := rfl
@[simp] theorem State.modEnt_lgA (s : State) (i : Nat) (f : Entry → Entry) : (s.modEnt i f).lgA = s.lgA := rfl
@[simp] theorem State.modEnt_lgC (s : State) (i : Nat) (f : Entry → Entry) : (s.modEnt i f).lgC = s.lgC := rfl
@[simp] theorem State.modEnt_links (s : State) (i : Nat) (f : Entry → Entry) : (s.modEnt i f).links = s.links := rfl
@[simp] theorem State.modEnt_lkC (s : State) (i : Nat) (f : Entry → Entry) : (s.modEnt i f).lkC = s.lkC := rfl
@[simp] theorem State.modEnt_port (s : State) (i : Nat) (f : Entry → Entry) : (s.modEnt i f).port = s.port := rfl
@[simp] theorem State.modEnt_sg (s : State) (i : Nat) (f : Entry → Entry) : (s.modEnt i f).sg = s.sg := rfl
@[simp] theorem State.modEnt_sgC (s : State) (i : Nat) (f : Entry → Entry) : (s.modEnt i f).sgC = s.sgC := rfl
@[simp] theorem State.modEnt_st (s : State) (i : Nat) (f : Entry → Entry) : (s.modEnt i f).st = s.st := rfl
@[simp] theorem State.modEnt_free (s : State) (i : Nat) (f : Entry → Entry) : (s.modEnt i f).free = s.free := rfl
@[simp] theorem State.modEnt_pending (s : State) (i : Nat) (f : Entry → Entry) : (s.modEnt i f).pending = s.pending := rfl

/-! ### modAdp -/

@[simp] theorem State.modAdp_same (s : State) (i : Nat) (f : AdpSlot → AdpSlot) : (s.modAdp i f).adp i = f (s.adp i) := SMap.get_upd_same _ _ _
theorem State.modAdp_ne (s : State) {i j : Nat} (f : AdpSlot → AdpSlot) (h : j ≠ i) : (s.modAdp i f).adp j = s.adp j := SMap.get_upd_ne _ _ h
@[simp] theorem State.modAdp_boot (s : State) (i : Nat) (f : AdpSlot → AdpSlot) : (s.modAdp i f).boot = s.boot := rfl
@[simp] theorem State.modAdp_sel (s : State) (i : Nat) (f : AdpSlot → AdpSlot) : (s.modAdp i f).sel = s.sel := rfl
@[simp] theorem State.modAdp_nv (s : State) (i : Nat) (f : AdpSlot → AdpSlot) : (s.modAdp i f).nv = s.nv := rfl
@[simp] theorem State.modAdp_hdr (s : State) (i : Nat) (f : AdpSlot → AdpSlot) : (s.modAdp i f).hdr = s.hdr := rfl
@[simp] theorem State.modAdp_irq (s : State) (i : Nat) (f : AdpSlot → AdpSlot) : (s.modAdp i f).irq = s.irq := rfl
@[simp] theorem State.modAdp_time (s : State) (i : Nat) (f : AdpSlot → AdpSlot) : (s.modAdp i f).time = s.time := rfl
@[simp] theorem State.modAdp_jtag (s : State) (i : Nat) (f : AdpSlot → AdpSlot) : (s.modAdp i f).jtag = s.jtag := rfl
@[simp] theorem State.modAdp_smb (s : State) (i : Nat) (f : AdpSlot → AdpSlot) : (s.modAdp i f).smb = s.smb := rfl
@[simp] theorem State.modAdp_spare (s : State) (i : Nat) (f : AdpSlot → AdpSlot) : (s.modAdp i f).spare = s.spare := rfl
@[simp] theorem State.modAdp_pace (s : State) (i : Nat) (f : AdpSlot → AdpSlot) : (s.modAdp i f).pace = s.pace := rfl
@[simp] theorem State.modAdp_bursar (s : State) (i : Nat) (f : AdpSlot → AdpSlot) : (s.modAdp i f).bursar = s.bursar := rfl
@[simp] theorem State.modAdp_dp (s : State) (i : Nat) (f : AdpSlot → AdpSlot) : (s.modAdp i f).dp = s.dp := rfl
@[simp] theorem State.modAdp_ctxs (s : State) (i : Nat) (f : AdpSlot → AdpSlot) : (s.modAdp i f).ctxs = s.ctxs := rfl
@[simp] theorem State.modAdp_sched (s : State) (i : Nat) (f : AdpSlot → AdpSlot) : (s.modAdp i f).sched = s.sched := rfl
@[simp] theorem State.modAdp_sems (s : State) (i : Nat) (f : AdpSlot → AdpSlot) : (s.modAdp i f).sems = s.sems := rfl
@[simp] theorem State.modAdp_pot (s : State) (i : Nat) (f : AdpSlot → AdpSlot) : (s.modAdp i f).pot = s.pot := rfl
@[simp] theorem State.modAdp_hbm (s : State) (i : Nat) (f : AdpSlot → AdpSlot) : (s.modAdp i f).hbm = s.hbm := rfl
@[simp] theorem State.modAdp_host (s : State) (i : Nat) (f : AdpSlot → AdpSlot) : (s.modAdp i f).host = s.host := rfl
@[simp] theorem State.modAdp_cls (s : State) (i : Nat) (f : AdpSlot → AdpSlot) : (s.modAdp i f).cls = s.cls := rfl
@[simp] theorem State.modAdp_td (s : State) (i : Nat) (f : AdpSlot → AdpSlot) : (s.modAdp i f).td = s.td := rfl
@[simp] theorem State.modAdp_num (s : State) (i : Nat) (f : AdpSlot → AdpSlot) : (s.modAdp i f).num = s.num := rfl
@[simp] theorem State.modAdp_census (s : State) (i : Nat) (f : AdpSlot → AdpSlot) : (s.modAdp i f).census = s.census := rfl
@[simp] theorem State.modAdp_mctx (s : State) (i : Nat) (f : AdpSlot → AdpSlot) : (s.modAdp i f).mctx = s.mctx := rfl
@[simp] theorem State.modAdp_mint (s : State) (i : Nat) (f : AdpSlot → AdpSlot) : (s.modAdp i f).mint = s.mint := rfl
@[simp] theorem State.modAdp_upd (s : State) (i : Nat) (f : AdpSlot → AdpSlot) : (s.modAdp i f).upd = s.upd := rfl
@[simp] theorem State.modAdp_lgE (s : State) (i : Nat) (f : AdpSlot → AdpSlot) : (s.modAdp i f).lgE = s.lgE := rfl
@[simp] theorem State.modAdp_lgC (s : State) (i : Nat) (f : AdpSlot → AdpSlot) : (s.modAdp i f).lgC = s.lgC := rfl
@[simp] theorem State.modAdp_links (s : State) (i : Nat) (f : AdpSlot → AdpSlot) : (s.modAdp i f).links = s.links := rfl
@[simp] theorem State.modAdp_lkC (s : State) (i : Nat) (f : AdpSlot → AdpSlot) : (s.modAdp i f).lkC = s.lkC := rfl
@[simp] theorem State.modAdp_port (s : State) (i : Nat) (f : AdpSlot → AdpSlot) : (s.modAdp i f).port = s.port := rfl
@[simp] theorem State.modAdp_sg (s : State) (i : Nat) (f : AdpSlot → AdpSlot) : (s.modAdp i f).sg = s.sg := rfl
@[simp] theorem State.modAdp_sgC (s : State) (i : Nat) (f : AdpSlot → AdpSlot) : (s.modAdp i f).sgC = s.sgC := rfl
@[simp] theorem State.modAdp_st (s : State) (i : Nat) (f : AdpSlot → AdpSlot) : (s.modAdp i f).st = s.st := rfl
@[simp] theorem State.modAdp_free (s : State) (i : Nat) (f : AdpSlot → AdpSlot) : (s.modAdp i f).free = s.free := rfl
@[simp] theorem State.modAdp_pending (s : State) (i : Nat) (f : AdpSlot → AdpSlot) : (s.modAdp i f).pending = s.pending := rfl

/-! ### modLgc -/

@[simp] theorem State.modLgc_same (s : State) (i : Nat) (f : LgCtx → LgCtx) : (s.modLgc i f).lgc i = f (s.lgc i) := SMap.get_upd_same _ _ _
theorem State.modLgc_ne (s : State) {i j : Nat} (f : LgCtx → LgCtx) (h : j ≠ i) : (s.modLgc i f).lgc j = s.lgc j := SMap.get_upd_ne _ _ h
@[simp] theorem State.modLgc_boot (s : State) (i : Nat) (f : LgCtx → LgCtx) : (s.modLgc i f).boot = s.boot := rfl
@[simp] theorem State.modLgc_sel (s : State) (i : Nat) (f : LgCtx → LgCtx) : (s.modLgc i f).sel = s.sel := rfl
@[simp] theorem State.modLgc_nv (s : State) (i : Nat) (f : LgCtx → LgCtx) : (s.modLgc i f).nv = s.nv := rfl
@[simp] theorem State.modLgc_hdr (s : State) (i : Nat) (f : LgCtx → LgCtx) : (s.modLgc i f).hdr = s.hdr := rfl
@[simp] theorem State.modLgc_irq (s : State) (i : Nat) (f : LgCtx → LgCtx) : (s.modLgc i f).irq = s.irq := rfl
@[simp] theorem State.modLgc_time (s : State) (i : Nat) (f : LgCtx → LgCtx) : (s.modLgc i f).time = s.time := rfl
@[simp] theorem State.modLgc_jtag (s : State) (i : Nat) (f : LgCtx → LgCtx) : (s.modLgc i f).jtag = s.jtag := rfl
@[simp] theorem State.modLgc_smb (s : State) (i : Nat) (f : LgCtx → LgCtx) : (s.modLgc i f).smb = s.smb := rfl
@[simp] theorem State.modLgc_spare (s : State) (i : Nat) (f : LgCtx → LgCtx) : (s.modLgc i f).spare = s.spare := rfl
@[simp] theorem State.modLgc_pace (s : State) (i : Nat) (f : LgCtx → LgCtx) : (s.modLgc i f).pace = s.pace := rfl
@[simp] theorem State.modLgc_bursar (s : State) (i : Nat) (f : LgCtx → LgCtx) : (s.modLgc i f).bursar = s.bursar := rfl
@[simp] theorem State.modLgc_dp (s : State) (i : Nat) (f : LgCtx → LgCtx) : (s.modLgc i f).dp = s.dp := rfl
@[simp] theorem State.modLgc_ctxs (s : State) (i : Nat) (f : LgCtx → LgCtx) : (s.modLgc i f).ctxs = s.ctxs := rfl
@[simp] theorem State.modLgc_sched (s : State) (i : Nat) (f : LgCtx → LgCtx) : (s.modLgc i f).sched = s.sched := rfl
@[simp] theorem State.modLgc_sems (s : State) (i : Nat) (f : LgCtx → LgCtx) : (s.modLgc i f).sems = s.sems := rfl
@[simp] theorem State.modLgc_pot (s : State) (i : Nat) (f : LgCtx → LgCtx) : (s.modLgc i f).pot = s.pot := rfl
@[simp] theorem State.modLgc_hbm (s : State) (i : Nat) (f : LgCtx → LgCtx) : (s.modLgc i f).hbm = s.hbm := rfl
@[simp] theorem State.modLgc_host (s : State) (i : Nat) (f : LgCtx → LgCtx) : (s.modLgc i f).host = s.host := rfl
@[simp] theorem State.modLgc_cls (s : State) (i : Nat) (f : LgCtx → LgCtx) : (s.modLgc i f).cls = s.cls := rfl
@[simp] theorem State.modLgc_td (s : State) (i : Nat) (f : LgCtx → LgCtx) : (s.modLgc i f).td = s.td := rfl
@[simp] theorem State.modLgc_num (s : State) (i : Nat) (f : LgCtx → LgCtx) : (s.modLgc i f).num = s.num := rfl
@[simp] theorem State.modLgc_census (s : State) (i : Nat) (f : LgCtx → LgCtx) : (s.modLgc i f).census = s.census := rfl
@[simp] theorem State.modLgc_mctx (s : State) (i : Nat) (f : LgCtx → LgCtx) : (s.modLgc i f).mctx = s.mctx := rfl
@[simp] theorem State.modLgc_mint (s : State) (i : Nat) (f : LgCtx → LgCtx) : (s.modLgc i f).mint = s.mint := rfl
@[simp] theorem State.modLgc_upd (s : State) (i : Nat) (f : LgCtx → LgCtx) : (s.modLgc i f).upd = s.upd := rfl
@[simp] theorem State.modLgc_lgE (s : State) (i : Nat) (f : LgCtx → LgCtx) : (s.modLgc i f).lgE = s.lgE := rfl
@[simp] theorem State.modLgc_lgA (s : State) (i : Nat) (f : LgCtx → LgCtx) : (s.modLgc i f).lgA = s.lgA := rfl
@[simp] theorem State.modLgc_links (s : State) (i : Nat) (f : LgCtx → LgCtx) : (s.modLgc i f).links = s.links := rfl
@[simp] theorem State.modLgc_lkC (s : State) (i : Nat) (f : LgCtx → LgCtx) : (s.modLgc i f).lkC = s.lkC := rfl
@[simp] theorem State.modLgc_port (s : State) (i : Nat) (f : LgCtx → LgCtx) : (s.modLgc i f).port = s.port := rfl
@[simp] theorem State.modLgc_sg (s : State) (i : Nat) (f : LgCtx → LgCtx) : (s.modLgc i f).sg = s.sg := rfl
@[simp] theorem State.modLgc_sgC (s : State) (i : Nat) (f : LgCtx → LgCtx) : (s.modLgc i f).sgC = s.sgC := rfl
@[simp] theorem State.modLgc_st (s : State) (i : Nat) (f : LgCtx → LgCtx) : (s.modLgc i f).st = s.st := rfl
@[simp] theorem State.modLgc_free (s : State) (i : Nat) (f : LgCtx → LgCtx) : (s.modLgc i f).free = s.free := rfl
@[simp] theorem State.modLgc_pending (s : State) (i : Nat) (f : LgCtx → LgCtx) : (s.modLgc i f).pending = s.pending := rfl

/-! ### modLkc -/

@[simp] theorem State.modLkc_same (s : State) (i : Nat) (f : LkCtx → LkCtx) : (s.modLkc i f).lkc i = f (s.lkc i) := SMap.get_upd_same _ _ _
theorem State.modLkc_ne (s : State) {i j : Nat} (f : LkCtx → LkCtx) (h : j ≠ i) : (s.modLkc i f).lkc j = s.lkc j := SMap.get_upd_ne _ _ h
@[simp] theorem State.modLkc_boot (s : State) (i : Nat) (f : LkCtx → LkCtx) : (s.modLkc i f).boot = s.boot := rfl
@[simp] theorem State.modLkc_sel (s : State) (i : Nat) (f : LkCtx → LkCtx) : (s.modLkc i f).sel = s.sel := rfl
@[simp] theorem State.modLkc_nv (s : State) (i : Nat) (f : LkCtx → LkCtx) : (s.modLkc i f).nv = s.nv := rfl
@[simp] theorem State.modLkc_hdr (s : State) (i : Nat) (f : LkCtx → LkCtx) : (s.modLkc i f).hdr = s.hdr := rfl
@[simp] theorem State.modLkc_irq (s : State) (i : Nat) (f : LkCtx → LkCtx) : (s.modLkc i f).irq = s.irq := rfl
@[simp] theorem State.modLkc_time (s : State) (i : Nat) (f : LkCtx → LkCtx) : (s.modLkc i f).time = s.time := rfl
@[simp] theorem State.modLkc_jtag (s : State) (i : Nat) (f : LkCtx → LkCtx) : (s.modLkc i f).jtag = s.jtag := rfl
@[simp] theorem State.modLkc_smb (s : State) (i : Nat) (f : LkCtx → LkCtx) : (s.modLkc i f).smb = s.smb := rfl
@[simp] theorem State.modLkc_spare (s : State) (i : Nat) (f : LkCtx → LkCtx) : (s.modLkc i f).spare = s.spare := rfl
@[simp] theorem State.modLkc_pace (s : State) (i : Nat) (f : LkCtx → LkCtx) : (s.modLkc i f).pace = s.pace := rfl
@[simp] theorem State.modLkc_bursar (s : State) (i : Nat) (f : LkCtx → LkCtx) : (s.modLkc i f).bursar = s.bursar := rfl
@[simp] theorem State.modLkc_dp (s : State) (i : Nat) (f : LkCtx → LkCtx) : (s.modLkc i f).dp = s.dp := rfl
@[simp] theorem State.modLkc_ctxs (s : State) (i : Nat) (f : LkCtx → LkCtx) : (s.modLkc i f).ctxs = s.ctxs := rfl
@[simp] theorem State.modLkc_sched (s : State) (i : Nat) (f : LkCtx → LkCtx) : (s.modLkc i f).sched = s.sched := rfl
@[simp] theorem State.modLkc_sems (s : State) (i : Nat) (f : LkCtx → LkCtx) : (s.modLkc i f).sems = s.sems := rfl
@[simp] theorem State.modLkc_pot (s : State) (i : Nat) (f : LkCtx → LkCtx) : (s.modLkc i f).pot = s.pot := rfl
@[simp] theorem State.modLkc_hbm (s : State) (i : Nat) (f : LkCtx → LkCtx) : (s.modLkc i f).hbm = s.hbm := rfl
@[simp] theorem State.modLkc_host (s : State) (i : Nat) (f : LkCtx → LkCtx) : (s.modLkc i f).host = s.host := rfl
@[simp] theorem State.modLkc_cls (s : State) (i : Nat) (f : LkCtx → LkCtx) : (s.modLkc i f).cls = s.cls := rfl
@[simp] theorem State.modLkc_td (s : State) (i : Nat) (f : LkCtx → LkCtx) : (s.modLkc i f).td = s.td := rfl
@[simp] theorem State.modLkc_num (s : State) (i : Nat) (f : LkCtx → LkCtx) : (s.modLkc i f).num = s.num := rfl
@[simp] theorem State.modLkc_census (s : State) (i : Nat) (f : LkCtx → LkCtx) : (s.modLkc i f).census = s.census := rfl
@[simp] theorem State.modLkc_mctx (s : State) (i : Nat) (f : LkCtx → LkCtx) : (s.modLkc i f).mctx = s.mctx := rfl
@[simp] theorem State.modLkc_mint (s : State) (i : Nat) (f : LkCtx → LkCtx) : (s.modLkc i f).mint = s.mint := rfl
@[simp] theorem State.modLkc_upd (s : State) (i : Nat) (f : LkCtx → LkCtx) : (s.modLkc i f).upd = s.upd := rfl
@[simp] theorem State.modLkc_lgE (s : State) (i : Nat) (f : LkCtx → LkCtx) : (s.modLkc i f).lgE = s.lgE := rfl
@[simp] theorem State.modLkc_lgA (s : State) (i : Nat) (f : LkCtx → LkCtx) : (s.modLkc i f).lgA = s.lgA := rfl
@[simp] theorem State.modLkc_lgC (s : State) (i : Nat) (f : LkCtx → LkCtx) : (s.modLkc i f).lgC = s.lgC := rfl
@[simp] theorem State.modLkc_links (s : State) (i : Nat) (f : LkCtx → LkCtx) : (s.modLkc i f).links = s.links := rfl
@[simp] theorem State.modLkc_port (s : State) (i : Nat) (f : LkCtx → LkCtx) : (s.modLkc i f).port = s.port := rfl
@[simp] theorem State.modLkc_sg (s : State) (i : Nat) (f : LkCtx → LkCtx) : (s.modLkc i f).sg = s.sg := rfl
@[simp] theorem State.modLkc_sgC (s : State) (i : Nat) (f : LkCtx → LkCtx) : (s.modLkc i f).sgC = s.sgC := rfl
@[simp] theorem State.modLkc_st (s : State) (i : Nat) (f : LkCtx → LkCtx) : (s.modLkc i f).st = s.st := rfl
@[simp] theorem State.modLkc_free (s : State) (i : Nat) (f : LkCtx → LkCtx) : (s.modLkc i f).free = s.free := rfl
@[simp] theorem State.modLkc_pending (s : State) (i : Nat) (f : LkCtx → LkCtx) : (s.modLkc i f).pending = s.pending := rfl

/-! ### modPort -/

@[simp] theorem State.modPort_same (s : State) (i : Nat) (f : Port → Port) : (s.modPort i f).prt6 i = f (s.prt6 i) := SMap.get_upd_same _ _ _
theorem State.modPort_ne (s : State) {i j : Nat} (f : Port → Port) (h : j ≠ i) : (s.modPort i f).prt6 j = s.prt6 j := SMap.get_upd_ne _ _ h
@[simp] theorem State.modPort_boot (s : State) (i : Nat) (f : Port → Port) : (s.modPort i f).boot = s.boot := rfl
@[simp] theorem State.modPort_sel (s : State) (i : Nat) (f : Port → Port) : (s.modPort i f).sel = s.sel := rfl
@[simp] theorem State.modPort_nv (s : State) (i : Nat) (f : Port → Port) : (s.modPort i f).nv = s.nv := rfl
@[simp] theorem State.modPort_hdr (s : State) (i : Nat) (f : Port → Port) : (s.modPort i f).hdr = s.hdr := rfl
@[simp] theorem State.modPort_irq (s : State) (i : Nat) (f : Port → Port) : (s.modPort i f).irq = s.irq := rfl
@[simp] theorem State.modPort_time (s : State) (i : Nat) (f : Port → Port) : (s.modPort i f).time = s.time := rfl
@[simp] theorem State.modPort_jtag (s : State) (i : Nat) (f : Port → Port) : (s.modPort i f).jtag = s.jtag := rfl
@[simp] theorem State.modPort_smb (s : State) (i : Nat) (f : Port → Port) : (s.modPort i f).smb = s.smb := rfl
@[simp] theorem State.modPort_spare (s : State) (i : Nat) (f : Port → Port) : (s.modPort i f).spare = s.spare := rfl
@[simp] theorem State.modPort_pace (s : State) (i : Nat) (f : Port → Port) : (s.modPort i f).pace = s.pace := rfl
@[simp] theorem State.modPort_bursar (s : State) (i : Nat) (f : Port → Port) : (s.modPort i f).bursar = s.bursar := rfl
@[simp] theorem State.modPort_dp (s : State) (i : Nat) (f : Port → Port) : (s.modPort i f).dp = s.dp := rfl
@[simp] theorem State.modPort_ctxs (s : State) (i : Nat) (f : Port → Port) : (s.modPort i f).ctxs = s.ctxs := rfl
@[simp] theorem State.modPort_sched (s : State) (i : Nat) (f : Port → Port) : (s.modPort i f).sched = s.sched := rfl
@[simp] theorem State.modPort_sems (s : State) (i : Nat) (f : Port → Port) : (s.modPort i f).sems = s.sems := rfl
@[simp] theorem State.modPort_pot (s : State) (i : Nat) (f : Port → Port) : (s.modPort i f).pot = s.pot := rfl
@[simp] theorem State.modPort_hbm (s : State) (i : Nat) (f : Port → Port) : (s.modPort i f).hbm = s.hbm := rfl
@[simp] theorem State.modPort_host (s : State) (i : Nat) (f : Port → Port) : (s.modPort i f).host = s.host := rfl
@[simp] theorem State.modPort_cls (s : State) (i : Nat) (f : Port → Port) : (s.modPort i f).cls = s.cls := rfl
@[simp] theorem State.modPort_td (s : State) (i : Nat) (f : Port → Port) : (s.modPort i f).td = s.td := rfl
@[simp] theorem State.modPort_num (s : State) (i : Nat) (f : Port → Port) : (s.modPort i f).num = s.num := rfl
@[simp] theorem State.modPort_census (s : State) (i : Nat) (f : Port → Port) : (s.modPort i f).census = s.census := rfl
@[simp] theorem State.modPort_mctx (s : State) (i : Nat) (f : Port → Port) : (s.modPort i f).mctx = s.mctx := rfl
@[simp] theorem State.modPort_mint (s : State) (i : Nat) (f : Port → Port) : (s.modPort i f).mint = s.mint := rfl
@[simp] theorem State.modPort_upd (s : State) (i : Nat) (f : Port → Port) : (s.modPort i f).upd = s.upd := rfl
@[simp] theorem State.modPort_lgE (s : State) (i : Nat) (f : Port → Port) : (s.modPort i f).lgE = s.lgE := rfl
@[simp] theorem State.modPort_lgA (s : State) (i : Nat) (f : Port → Port) : (s.modPort i f).lgA = s.lgA := rfl
@[simp] theorem State.modPort_lgC (s : State) (i : Nat) (f : Port → Port) : (s.modPort i f).lgC = s.lgC := rfl
@[simp] theorem State.modPort_links (s : State) (i : Nat) (f : Port → Port) : (s.modPort i f).links = s.links := rfl
@[simp] theorem State.modPort_lkC (s : State) (i : Nat) (f : Port → Port) : (s.modPort i f).lkC = s.lkC := rfl
@[simp] theorem State.modPort_sg (s : State) (i : Nat) (f : Port → Port) : (s.modPort i f).sg = s.sg := rfl
@[simp] theorem State.modPort_sgC (s : State) (i : Nat) (f : Port → Port) : (s.modPort i f).sgC = s.sgC := rfl
@[simp] theorem State.modPort_st (s : State) (i : Nat) (f : Port → Port) : (s.modPort i f).st = s.st := rfl
@[simp] theorem State.modPort_free (s : State) (i : Nat) (f : Port → Port) : (s.modPort i f).free = s.free := rfl
@[simp] theorem State.modPort_pending (s : State) (i : Nat) (f : Port → Port) : (s.modPort i f).pending = s.pending := rfl

/-! ### modSgc -/

@[simp] theorem State.modSgc_same (s : State) (i : Nat) (f : SgCtx → SgCtx) : (s.modSgc i f).sgc i = f (s.sgc i) := SMap.get_upd_same _ _ _
theorem State.modSgc_ne (s : State) {i j : Nat} (f : SgCtx → SgCtx) (h : j ≠ i) : (s.modSgc i f).sgc j = s.sgc j := SMap.get_upd_ne _ _ h
@[simp] theorem State.modSgc_boot (s : State) (i : Nat) (f : SgCtx → SgCtx) : (s.modSgc i f).boot = s.boot := rfl
@[simp] theorem State.modSgc_sel (s : State) (i : Nat) (f : SgCtx → SgCtx) : (s.modSgc i f).sel = s.sel := rfl
@[simp] theorem State.modSgc_nv (s : State) (i : Nat) (f : SgCtx → SgCtx) : (s.modSgc i f).nv = s.nv := rfl
@[simp] theorem State.modSgc_hdr (s : State) (i : Nat) (f : SgCtx → SgCtx) : (s.modSgc i f).hdr = s.hdr := rfl
@[simp] theorem State.modSgc_irq (s : State) (i : Nat) (f : SgCtx → SgCtx) : (s.modSgc i f).irq = s.irq := rfl
@[simp] theorem State.modSgc_time (s : State) (i : Nat) (f : SgCtx → SgCtx) : (s.modSgc i f).time = s.time := rfl
@[simp] theorem State.modSgc_jtag (s : State) (i : Nat) (f : SgCtx → SgCtx) : (s.modSgc i f).jtag = s.jtag := rfl
@[simp] theorem State.modSgc_smb (s : State) (i : Nat) (f : SgCtx → SgCtx) : (s.modSgc i f).smb = s.smb := rfl
@[simp] theorem State.modSgc_spare (s : State) (i : Nat) (f : SgCtx → SgCtx) : (s.modSgc i f).spare = s.spare := rfl
@[simp] theorem State.modSgc_pace (s : State) (i : Nat) (f : SgCtx → SgCtx) : (s.modSgc i f).pace = s.pace := rfl
@[simp] theorem State.modSgc_bursar (s : State) (i : Nat) (f : SgCtx → SgCtx) : (s.modSgc i f).bursar = s.bursar := rfl
@[simp] theorem State.modSgc_dp (s : State) (i : Nat) (f : SgCtx → SgCtx) : (s.modSgc i f).dp = s.dp := rfl
@[simp] theorem State.modSgc_ctxs (s : State) (i : Nat) (f : SgCtx → SgCtx) : (s.modSgc i f).ctxs = s.ctxs := rfl
@[simp] theorem State.modSgc_sched (s : State) (i : Nat) (f : SgCtx → SgCtx) : (s.modSgc i f).sched = s.sched := rfl
@[simp] theorem State.modSgc_sems (s : State) (i : Nat) (f : SgCtx → SgCtx) : (s.modSgc i f).sems = s.sems := rfl
@[simp] theorem State.modSgc_pot (s : State) (i : Nat) (f : SgCtx → SgCtx) : (s.modSgc i f).pot = s.pot := rfl
@[simp] theorem State.modSgc_hbm (s : State) (i : Nat) (f : SgCtx → SgCtx) : (s.modSgc i f).hbm = s.hbm := rfl
@[simp] theorem State.modSgc_host (s : State) (i : Nat) (f : SgCtx → SgCtx) : (s.modSgc i f).host = s.host := rfl
@[simp] theorem State.modSgc_cls (s : State) (i : Nat) (f : SgCtx → SgCtx) : (s.modSgc i f).cls = s.cls := rfl
@[simp] theorem State.modSgc_td (s : State) (i : Nat) (f : SgCtx → SgCtx) : (s.modSgc i f).td = s.td := rfl
@[simp] theorem State.modSgc_num (s : State) (i : Nat) (f : SgCtx → SgCtx) : (s.modSgc i f).num = s.num := rfl
@[simp] theorem State.modSgc_census (s : State) (i : Nat) (f : SgCtx → SgCtx) : (s.modSgc i f).census = s.census := rfl
@[simp] theorem State.modSgc_mctx (s : State) (i : Nat) (f : SgCtx → SgCtx) : (s.modSgc i f).mctx = s.mctx := rfl
@[simp] theorem State.modSgc_mint (s : State) (i : Nat) (f : SgCtx → SgCtx) : (s.modSgc i f).mint = s.mint := rfl
@[simp] theorem State.modSgc_upd (s : State) (i : Nat) (f : SgCtx → SgCtx) : (s.modSgc i f).upd = s.upd := rfl
@[simp] theorem State.modSgc_lgE (s : State) (i : Nat) (f : SgCtx → SgCtx) : (s.modSgc i f).lgE = s.lgE := rfl
@[simp] theorem State.modSgc_lgA (s : State) (i : Nat) (f : SgCtx → SgCtx) : (s.modSgc i f).lgA = s.lgA := rfl
@[simp] theorem State.modSgc_lgC (s : State) (i : Nat) (f : SgCtx → SgCtx) : (s.modSgc i f).lgC = s.lgC := rfl
@[simp] theorem State.modSgc_links (s : State) (i : Nat) (f : SgCtx → SgCtx) : (s.modSgc i f).links = s.links := rfl
@[simp] theorem State.modSgc_lkC (s : State) (i : Nat) (f : SgCtx → SgCtx) : (s.modSgc i f).lkC = s.lkC := rfl
@[simp] theorem State.modSgc_port (s : State) (i : Nat) (f : SgCtx → SgCtx) : (s.modSgc i f).port = s.port := rfl
@[simp] theorem State.modSgc_sg (s : State) (i : Nat) (f : SgCtx → SgCtx) : (s.modSgc i f).sg = s.sg := rfl
@[simp] theorem State.modSgc_st (s : State) (i : Nat) (f : SgCtx → SgCtx) : (s.modSgc i f).st = s.st := rfl
@[simp] theorem State.modSgc_free (s : State) (i : Nat) (f : SgCtx → SgCtx) : (s.modSgc i f).free = s.free := rfl
@[simp] theorem State.modSgc_pending (s : State) (i : Nat) (f : SgCtx → SgCtx) : (s.modSgc i f).pending = s.pending := rfl

/-! ### modSpr -/

@[simp] theorem State.modSpr_same (s : State) (i : Nat) (f : Spare → Spare) : (s.modSpr i f).spr i = f (s.spr i) := SMap.get_upd_same _ _ _
theorem State.modSpr_ne (s : State) {i j : Nat} (f : Spare → Spare) (h : j ≠ i) : (s.modSpr i f).spr j = s.spr j := SMap.get_upd_ne _ _ h
@[simp] theorem State.modSpr_boot (s : State) (i : Nat) (f : Spare → Spare) : (s.modSpr i f).boot = s.boot := rfl
@[simp] theorem State.modSpr_sel (s : State) (i : Nat) (f : Spare → Spare) : (s.modSpr i f).sel = s.sel := rfl
@[simp] theorem State.modSpr_nv (s : State) (i : Nat) (f : Spare → Spare) : (s.modSpr i f).nv = s.nv := rfl
@[simp] theorem State.modSpr_hdr (s : State) (i : Nat) (f : Spare → Spare) : (s.modSpr i f).hdr = s.hdr := rfl
@[simp] theorem State.modSpr_irq (s : State) (i : Nat) (f : Spare → Spare) : (s.modSpr i f).irq = s.irq := rfl
@[simp] theorem State.modSpr_time (s : State) (i : Nat) (f : Spare → Spare) : (s.modSpr i f).time = s.time := rfl
@[simp] theorem State.modSpr_jtag (s : State) (i : Nat) (f : Spare → Spare) : (s.modSpr i f).jtag = s.jtag := rfl
@[simp] theorem State.modSpr_smb (s : State) (i : Nat) (f : Spare → Spare) : (s.modSpr i f).smb = s.smb := rfl
@[simp] theorem State.modSpr_pace (s : State) (i : Nat) (f : Spare → Spare) : (s.modSpr i f).pace = s.pace := rfl
@[simp] theorem State.modSpr_bursar (s : State) (i : Nat) (f : Spare → Spare) : (s.modSpr i f).bursar = s.bursar := rfl
@[simp] theorem State.modSpr_dp (s : State) (i : Nat) (f : Spare → Spare) : (s.modSpr i f).dp = s.dp := rfl
@[simp] theorem State.modSpr_ctxs (s : State) (i : Nat) (f : Spare → Spare) : (s.modSpr i f).ctxs = s.ctxs := rfl
@[simp] theorem State.modSpr_sched (s : State) (i : Nat) (f : Spare → Spare) : (s.modSpr i f).sched = s.sched := rfl
@[simp] theorem State.modSpr_sems (s : State) (i : Nat) (f : Spare → Spare) : (s.modSpr i f).sems = s.sems := rfl
@[simp] theorem State.modSpr_pot (s : State) (i : Nat) (f : Spare → Spare) : (s.modSpr i f).pot = s.pot := rfl
@[simp] theorem State.modSpr_hbm (s : State) (i : Nat) (f : Spare → Spare) : (s.modSpr i f).hbm = s.hbm := rfl
@[simp] theorem State.modSpr_host (s : State) (i : Nat) (f : Spare → Spare) : (s.modSpr i f).host = s.host := rfl
@[simp] theorem State.modSpr_cls (s : State) (i : Nat) (f : Spare → Spare) : (s.modSpr i f).cls = s.cls := rfl
@[simp] theorem State.modSpr_td (s : State) (i : Nat) (f : Spare → Spare) : (s.modSpr i f).td = s.td := rfl
@[simp] theorem State.modSpr_num (s : State) (i : Nat) (f : Spare → Spare) : (s.modSpr i f).num = s.num := rfl
@[simp] theorem State.modSpr_census (s : State) (i : Nat) (f : Spare → Spare) : (s.modSpr i f).census = s.census := rfl
@[simp] theorem State.modSpr_mctx (s : State) (i : Nat) (f : Spare → Spare) : (s.modSpr i f).mctx = s.mctx := rfl
@[simp] theorem State.modSpr_mint (s : State) (i : Nat) (f : Spare → Spare) : (s.modSpr i f).mint = s.mint := rfl
@[simp] theorem State.modSpr_upd (s : State) (i : Nat) (f : Spare → Spare) : (s.modSpr i f).upd = s.upd := rfl
@[simp] theorem State.modSpr_lgE (s : State) (i : Nat) (f : Spare → Spare) : (s.modSpr i f).lgE = s.lgE := rfl
@[simp] theorem State.modSpr_lgA (s : State) (i : Nat) (f : Spare → Spare) : (s.modSpr i f).lgA = s.lgA := rfl
@[simp] theorem State.modSpr_lgC (s : State) (i : Nat) (f : Spare → Spare) : (s.modSpr i f).lgC = s.lgC := rfl
@[simp] theorem State.modSpr_links (s : State) (i : Nat) (f : Spare → Spare) : (s.modSpr i f).links = s.links := rfl
@[simp] theorem State.modSpr_lkC (s : State) (i : Nat) (f : Spare → Spare) : (s.modSpr i f).lkC = s.lkC := rfl
@[simp] theorem State.modSpr_port (s : State) (i : Nat) (f : Spare → Spare) : (s.modSpr i f).port = s.port := rfl
@[simp] theorem State.modSpr_sg (s : State) (i : Nat) (f : Spare → Spare) : (s.modSpr i f).sg = s.sg := rfl
@[simp] theorem State.modSpr_sgC (s : State) (i : Nat) (f : Spare → Spare) : (s.modSpr i f).sgC = s.sgC := rfl
@[simp] theorem State.modSpr_st (s : State) (i : Nat) (f : Spare → Spare) : (s.modSpr i f).st = s.st := rfl
@[simp] theorem State.modSpr_free (s : State) (i : Nat) (f : Spare → Spare) : (s.modSpr i f).free = s.free := rfl
@[simp] theorem State.modSpr_pending (s : State) (i : Nat) (f : Spare → Spare) : (s.modSpr i f).pending = s.pending := rfl

/-! ### modPac -/

@[simp] theorem State.modPac_same (s : State) (i : Nat) (f : Pace → Pace) : (s.modPac i f).pac i = f (s.pac i) := SMap.get_upd_same _ _ _
theorem State.modPac_ne (s : State) {i j : Nat} (f : Pace → Pace) (h : j ≠ i) : (s.modPac i f).pac j = s.pac j := SMap.get_upd_ne _ _ h
@[simp] theorem State.modPac_boot (s : State) (i : Nat) (f : Pace → Pace) : (s.modPac i f).boot = s.boot := rfl
@[simp] theorem State.modPac_sel (s : State) (i : Nat) (f : Pace → Pace) : (s.modPac i f).sel = s.sel := rfl
@[simp] theorem State.modPac_nv (s : State) (i : Nat) (f : Pace → Pace) : (s.modPac i f).nv = s.nv := rfl
@[simp] theorem State.modPac_hdr (s : State) (i : Nat) (f : Pace → Pace) : (s.modPac i f).hdr = s.hdr := rfl
@[simp] theorem State.modPac_irq (s : State) (i : Nat) (f : Pace → Pace) : (s.modPac i f).irq = s.irq := rfl
@[simp] theorem State.modPac_time (s : State) (i : Nat) (f : Pace → Pace) : (s.modPac i f).time = s.time := rfl
@[simp] theorem State.modPac_jtag (s : State) (i : Nat) (f : Pace → Pace) : (s.modPac i f).jtag = s.jtag := rfl
@[simp] theorem State.modPac_smb (s : State) (i : Nat) (f : Pace → Pace) : (s.modPac i f).smb = s.smb := rfl
@[simp] theorem State.modPac_spare (s : State) (i : Nat) (f : Pace → Pace) : (s.modPac i f).spare = s.spare := rfl
@[simp] theorem State.modPac_bursar (s : State) (i : Nat) (f : Pace → Pace) : (s.modPac i f).bursar = s.bursar := rfl
@[simp] theorem State.modPac_dp (s : State) (i : Nat) (f : Pace → Pace) : (s.modPac i f).dp = s.dp := rfl
@[simp] theorem State.modPac_ctxs (s : State) (i : Nat) (f : Pace → Pace) : (s.modPac i f).ctxs = s.ctxs := rfl
@[simp] theorem State.modPac_sched (s : State) (i : Nat) (f : Pace → Pace) : (s.modPac i f).sched = s.sched := rfl
@[simp] theorem State.modPac_sems (s : State) (i : Nat) (f : Pace → Pace) : (s.modPac i f).sems = s.sems := rfl
@[simp] theorem State.modPac_pot (s : State) (i : Nat) (f : Pace → Pace) : (s.modPac i f).pot = s.pot := rfl
@[simp] theorem State.modPac_hbm (s : State) (i : Nat) (f : Pace → Pace) : (s.modPac i f).hbm = s.hbm := rfl
@[simp] theorem State.modPac_host (s : State) (i : Nat) (f : Pace → Pace) : (s.modPac i f).host = s.host := rfl
@[simp] theorem State.modPac_cls (s : State) (i : Nat) (f : Pace → Pace) : (s.modPac i f).cls = s.cls := rfl
@[simp] theorem State.modPac_td (s : State) (i : Nat) (f : Pace → Pace) : (s.modPac i f).td = s.td := rfl
@[simp] theorem State.modPac_num (s : State) (i : Nat) (f : Pace → Pace) : (s.modPac i f).num = s.num := rfl
@[simp] theorem State.modPac_census (s : State) (i : Nat) (f : Pace → Pace) : (s.modPac i f).census = s.census := rfl
@[simp] theorem State.modPac_mctx (s : State) (i : Nat) (f : Pace → Pace) : (s.modPac i f).mctx = s.mctx := rfl
@[simp] theorem State.modPac_mint (s : State) (i : Nat) (f : Pace → Pace) : (s.modPac i f).mint = s.mint := rfl
@[simp] theorem State.modPac_upd (s : State) (i : Nat) (f : Pace → Pace) : (s.modPac i f).upd = s.upd := rfl
@[simp] theorem State.modPac_lgE (s : State) (i : Nat) (f : Pace → Pace) : (s.modPac i f).lgE = s.lgE := rfl
@[simp] theorem State.modPac_lgA (s : State) (i : Nat) (f : Pace → Pace) : (s.modPac i f).lgA = s.lgA := rfl
@[simp] theorem State.modPac_lgC (s : State) (i : Nat) (f : Pace → Pace) : (s.modPac i f).lgC = s.lgC := rfl
@[simp] theorem State.modPac_links (s : State) (i : Nat) (f : Pace → Pace) : (s.modPac i f).links = s.links := rfl
@[simp] theorem State.modPac_lkC (s : State) (i : Nat) (f : Pace → Pace) : (s.modPac i f).lkC = s.lkC := rfl
@[simp] theorem State.modPac_port (s : State) (i : Nat) (f : Pace → Pace) : (s.modPac i f).port = s.port := rfl
@[simp] theorem State.modPac_sg (s : State) (i : Nat) (f : Pace → Pace) : (s.modPac i f).sg = s.sg := rfl
@[simp] theorem State.modPac_sgC (s : State) (i : Nat) (f : Pace → Pace) : (s.modPac i f).sgC = s.sgC := rfl
@[simp] theorem State.modPac_st (s : State) (i : Nat) (f : Pace → Pace) : (s.modPac i f).st = s.st := rfl
@[simp] theorem State.modPac_free (s : State) (i : Nat) (f : Pace → Pace) : (s.modPac i f).free = s.free := rfl
@[simp] theorem State.modPac_pending (s : State) (i : Nat) (f : Pace → Pace) : (s.modPac i f).pending = s.pending := rfl

end Sys2Proof.Machine
end

