-- ==== Sys2Proof/Laws/Alarms.lean ====
section
/-! SUPPORT. What alarm events do: the bit stands afterwards, every bit that stood goes on standing, and nothing
changes but headers, interrupts and Hold. -/

namespace Sys2Proof.Machine

theorem AlarmOnly.refl (s : State) : AlarmOnly s s := rfl

theorem AlarmOnly.trans {s t u : State} (h : AlarmOnly s t) (k : AlarmOnly t u) : AlarmOnly s u := by
  unfold AlarmOnly at *
  rw [k, h]

/-- Every bit that stands in `s` stands in `t`. -/
def StandsMono (s t : State) : Prop := ∀ p b, Stands s p b → Stands t p b

theorem StandsMono.refl (s : State) : StandsMono s s := fun _ _ h => h
theorem StandsMono.trans {s t u : State} (h : StandsMono s t) (k : StandsMono t u) : StandsMono s u :=
  fun p b x => k p b (h p b x)
theorem StandsMono.of_hdr {s t : State} (h : t.hdr = s.hdr) : StandsMono s t := fun p b x => by
  unfold Stands at *; rw [h]; exact x

theorem setHdr_only (s : State) (p : Nat) (h : Hdr) : AlarmOnly s (s.setHdr p h) := rfl
@[simp] theorem setHdr_hdr (s : State) (p : Nat) (h : Hdr) : (s.setHdr p h).hdr = SMap.set {} s.hdr p h := rfl

theorem mark_only (s : State) (p b : Nat) (c : Option Nat) : AlarmOnly s (s.mark p b c) := by
  unfold State.mark; cases c <;> rfl
@[simp] theorem mark_hdr (s : State) (p b : Nat) (c : Option Nat) : (s.mark p b c).hdr = SMap.upd {} s.hdr p
    fun h => { h with alarm := h.alarm ||| BitVec.ofNat 16 (2 ^ b), seq := h.seq + 1 } := by
  unfold State.mark; cases c <;> rfl

theorem bit_or_left (x y : U16) (b : Nat) (h : bit x.toNat b = true) : bit (x ||| y).toNat b = true := by
  simp [bit, Nat.testBit_or] at *; exact Or.inl h
theorem bit_or_pow (x : U16) (b : Nat) (h : b < 16) : bit (x ||| BitVec.ofNat 16 (2 ^ b)).toNat b = true := by
  have e : 2 ^ b % 65536 = 2 ^ b := Nat.mod_eq_of_lt (by
    calc 2 ^ b < 2 ^ 16 := Nat.pow_lt_pow_right (by omega) h
      _ = 65536 := by norm_num)
  simp [bit, Nat.testBit_or, e]

theorem mark_mono (s : State) (p b : Nat) (c : Option Nat) : StandsMono s (s.mark p b c) := by
  intro q k h
  unfold Stands at *
  rw [mark_hdr]
  by_cases e : q = p
  · subst e; rw [SMap.get_upd_same]; exact bit_or_left _ _ _ h
  · rw [SMap.get_upd_ne _ _ e]; exact h
theorem mark_stands (s : State) (p b : Nat) (c : Option Nat) (hb : b < 16) : Stands (s.mark p b c) p b := by
  unfold Stands; rw [mark_hdr, SMap.get_upd_same]; exact bit_or_pow _ _ hb

theorem msi_only (s : State) (v : Nat) : AlarmOnly s (s.msi v) := by
  unfold State.msi; split
  · rfl
  · split <;> rfl
@[simp] theorem msi_hdr (s : State) (v : Nat) : (s.msi v).hdr = s.hdr := by
  unfold State.msi; split
  · rfl
  · split <;> rfl
theorem msi_mono (s : State) (v : Nat) : StandsMono s (s.msi v) := .of_hdr (msi_hdr s v)

theorem holdOn_only (s : State) (q : Option (Nat × Nat)) : AlarmOnly s (s.holdOn q) := rfl
theorem holdOn_hdr (s : State) (q : Option (Nat × Nat)) : (s.holdOn q).hdr = s.hdr := rfl

theorem enterHold_only (s : State) (q : Option (Nat × Nat)) : AlarmOnly s (s.enterHold q) := by
  unfold State.enterHold
  split
  · rfl
  · dsimp only
    split
    · exact ((holdOn_only _ _).trans (mark_only _ _ _ _)).trans (msi_only _ _)
    · exact (holdOn_only _ _).trans (mark_only _ _ _ _)
theorem enterHold_mono (s : State) (q : Option (Nat × Nat)) : StandsMono s (s.enterHold q) := by
  unfold State.enterHold
  split
  · exact StandsMono.of_hdr (t := { s with irq := { s.irq with holdBits := s.irq.holdBits ++ q.toList } }) rfl
  · dsimp only
    split
    · exact (StandsMono.of_hdr (holdOn_hdr _ _)).trans ((mark_mono _ _ _ _).trans (msi_mono _ _))
    · exact (StandsMono.of_hdr (holdOn_hdr _ _)).trans (mark_mono _ _ _ _)

theorem actOn_only (s : State) (p b : Nat) (c : Option Nat) : AlarmOnly s (s.actOn p b c) := by
  unfold State.actOn
  split
  · exact msi_only _ _
  · split
    · exact msi_only _ _
    · exact .refl _
  · exact enterHold_only _ _
  · exact .refl _
theorem actOn_mono (s : State) (p b : Nat) (c : Option Nat) : StandsMono s (s.actOn p b c) := by
  unfold State.actOn
  split
  · exact msi_mono _ _
  · split
    · exact msi_mono _ _
    · exact .refl _
  · exact enterHold_mono _ _
  · exact .refl _

theorem noteDie_only (s : State) (p : Nat) (b : Bool) : AlarmOnly s (s.noteDie p b) := by
  unfold State.noteDie
  split
  · split
    · exact .refl _
    · exact (mark_only _ _ _ _).trans (actOn_only _ _ _ _)
  · exact .refl _
theorem noteDie_mono (s : State) (p : Nat) (b : Bool) : StandsMono s (s.noteDie p b) := by
  unfold State.noteDie
  split
  · split
    · exact .refl _
    · exact (mark_mono _ _ _ _).trans (actOn_mono _ _ _ _)
  · exact .refl _

/-- An alarm event changes headers, interrupts and Hold alone (R285 to R287). -/
theorem alarm0_only (s : State) (p b : Nat) (c : Option Nat) : AlarmOnly s (s.alarm0 p b c) := by
  unfold State.alarm0
  exact ((mark_only _ _ _ _).trans (actOn_only _ _ _ _)).trans (noteDie_only _ _ _)
theorem alarm0_mono (s : State) (p b : Nat) (c : Option Nat) : StandsMono s (s.alarm0 p b c) := by
  unfold State.alarm0
  exact ((mark_mono _ _ _ _).trans (actOn_mono _ _ _ _)).trans (noteDie_mono _ _ _)
/-- The bit of an alarm event stands after it, whatever the mask says (R285). -/
theorem alarm0_stands (s : State) (p b : Nat) (c : Option Nat) (hb : b < 16) : Stands (s.alarm0 p b c) p b := by
  unfold State.alarm0
  exact noteDie_mono _ _ _ _ _ (actOn_mono _ _ _ _ _ _ (mark_stands _ _ _ _ hb))

theorem alarm_only (s : State) (p b : Nat) : AlarmOnly s (s.alarm p b) := alarm0_only s p b none
theorem alarm_mono (s : State) (p b : Nat) : StandsMono s (s.alarm p b) := alarm0_mono s p b none
theorem alarm_stands (s : State) (p b : Nat) (hb : b < 16) : Stands (s.alarm p b) p b := alarm0_stands s p b none hb

end Sys2Proof.Machine
end

