-- ==== Sys2Proof/Laws/Effects.lean ====
section
/-! SUPPORT. What the shared operations do, each said once: a context fault, the completion of a command, a write of
bytes, a free value, a DMA transfer; the checks before a command runs, offers and contests. -/

namespace Sys2Proof.Machine

/-! ### Context faults (R191) -/

theorem AlarmOnly.ctx {s t : State} (h : AlarmOnly s t) (c : Nat) : t.ctx c = s.ctx c := by
  unfold AlarmOnly at h; rw [h]; rfl
theorem AlarmOnly.keeps {s t : State} (h : AlarmOnly s t) :
    t.nv = s.nv ∧ t.hbm = s.hbm ∧ t.host = s.host ∧ t.sems = s.sems ∧ t.pot = s.pot := by
  unfold AlarmOnly at h; rw [h]; exact ⟨rfl, rfl, rfl, rfl, rfl⟩

/-- The states in which a context holds something a fault stops. -/
def CtxSt.alive (x : CtxSt) : Prop := x = .resident ∨ x = .loading ∨ x = .saving ∨ x = .out

/-- A context as a fault leaves it. -/
def Ctx.faulted (x : Ctx) (code : U16) (detail : W64) (cmd : W32) (unit : U16) (irq : Bool) : Ctx :=
  { x with
    st := .scrubbing, flight := [], late := x.late.filter (·.q.isNone), saved := [], lastFault := code, faults := x.faults + 1
    preemptReq := false, askedBy := [], stopReq := false, forced := false, evictedSync := false, evalOpen := false
    inherit := [], faultOut := decide (x.st = .out)
    faultRec := some { cmd := cmd, kind := 1, code := code, unit := unit, detail := detail, time := 0, irq := irq } }

/-- What stops with the context: its commands in every engine, its updates, its collectives; no context's own
fields change. -/
theorem stopCtx_only (s : State) (c : CtxId) : s.stopCtx c = { s with
    cls := (s.stopCtx c).cls, td := (s.stopCtx c).td, sched := (s.stopCtx c).sched, upd := (s.stopCtx c).upd
    links := (s.stopCtx c).links, lkC := (s.stopCtx c).lkC, num := (s.stopCtx c).num, lgE := (s.stopCtx c).lgE
    lgC := (s.stopCtx c).lgC, port := (s.stopCtx c).port } := rfl

theorem stopCtx_ctx (s : State) (c : CtxId) (j : Nat) : (s.stopCtx c).ctx j = s.ctx j := by
  have e : (s.stopCtx c).ctxs = s.ctxs := by rw [stopCtx_only]
  unfold State.ctx; rw [e]

/-- A fault of a live context: it is stopped, faulted, and alarms follow. -/
theorem faultCtx_eq (s : State) (c : CtxId) (code : U16) (detail : W64) (cmd : W32) (unit : U16) (irq : Bool)
    (h : (s.ctx c.toNat).st.alive) :
    ∃ r, AlarmOnly ((s.stopCtx c).modCtx c.toNat fun x => x.faulted code detail cmd unit r) (faultCtx s c code detail cmd unit irq) := by
  unfold faultCtx
  rw [if_pos (show _ ∨ _ ∨ _ ∨ _ from h)]
  refine ⟨irq || ((s.ctx c.toNat).flight.find? (·.seq = cmd)).any fun f => bit (fld f.img 4 31 0) 5, ?_⟩
  have e : ((s.stopCtx c).modCtx c.toNat fun x =>
      x.faulted code detail cmd unit (irq || ((s.ctx c.toNat).flight.find? (·.seq = cmd)).any fun f => bit (fld f.img 4 31 0) 5))
      = (s.stopCtx c).modCtx c.toNat fun x => { x with
        st := .scrubbing, flight := [], late := x.late.filter (·.q.isNone), saved := [], lastFault := code, faults := x.faults + 1
        preemptReq := false, askedBy := [], stopReq := false, forced := false, evictedSync := false, evalOpen := false
        inherit := [], faultOut := decide ((s.ctx c.toNat).st = .out)
        faultRec := some { cmd := cmd, kind := 1, code := code, unit := unit, detail := detail, time := 0
                           irq := irq || ((s.ctx c.toNat).flight.find? (·.seq = cmd)).any fun f => bit (fld f.img 4 31 0) 5 } } := rfl
  rw [e]
  dsimp only
  split
  · exact (alarm0_only _ _ _ _).trans (alarm0_only _ _ _ _)
  · exact alarm0_only _ _ _ _

/-- A context in no such state does not fault. -/
theorem faultCtx_idle (s : State) (c : CtxId) (code : U16) (detail : W64) (cmd : W32) (unit : U16) (irq : Bool)
    (h : ¬(s.ctx c.toNat).st.alive) : faultCtx s c code detail cmd unit irq = s := by
  unfold faultCtx; exact if_neg h

/-- After a fault the context is SCRUBBING with that code, its commands are gone, and no other context, no memory,
no persistent cell, semaphore or page entry has changed (R191). -/
theorem faultCtx_faulted (s : State) (c : CtxId) (code : U16) (detail : W64) (cmd : W32) (unit : U16) (irq : Bool)
    (h : (s.ctx c.toNat).st.alive) : Faulted s (faultCtx s c code detail cmd unit irq) c code := by
  obtain ⟨r, k⟩ := faultCtx_eq s c code detail cmd unit irq h
  obtain ⟨k1, k2, k3, k4, k5⟩ := k.keeps
  have e := k.ctx c.toNat
  rw [State.modCtx_same] at e
  refine ⟨by rw [e]; rfl, by rw [e]; rfl, by rw [e]; rfl, fun j hj => ?_, k1.trans ?_, k2.trans ?_, k3.trans ?_, k4.trans ?_, k5.trans ?_⟩
  · rw [k.ctx, State.modCtx_ne _ _ hj, stopCtx_ctx]
  · rw [State.modCtx_nv, stopCtx_only]
  · rw [State.modCtx_hbm, stopCtx_only]
  · rw [State.modCtx_host, stopCtx_only]
  · rw [State.modCtx_sems, stopCtx_only]
  · rw [State.modCtx_pot, stopCtx_only]

/-- The fault record that the scrub will write (Table CS.4). -/
theorem faultCtx_record (s : State) (c : CtxId) (code : U16) (detail : W64) (cmd : W32) (unit : U16) (irq : Bool)
    (h : (s.ctx c.toNat).st.alive) : ∃ r, ((faultCtx s c code detail cmd unit irq).ctx c.toNat).faultRec = some r
      ∧ r.cmd = cmd ∧ r.kind = 1 ∧ r.code = code ∧ r.unit = unit ∧ r.detail = detail := by
  obtain ⟨r, k⟩ := faultCtx_eq s c code detail cmd unit irq h
  rw [k.ctx, State.modCtx_same]
  exact ⟨_, rfl, rfl, rfl, rfl, rfl, rfl⟩

theorem alive_resident {x : CtxSt} (h : x = .resident) : x.alive := .inl h
theorem isIn_alive {s : State} {c : Nat} (h : s.isIn c = true) : (s.ctx c).st.alive := .inl (of_decide_eq_true h)

/-- The fault of a command in an engine's hands. -/
theorem faultCmd_faulted (s : State) (q : QE) (code : U16) (detail : W64) (unit : U16) (h : (s.ctx q.ctx.toNat).st.alive) :
    Faulted s (s.faultCmd q code detail unit) q.ctx code := faultCtx_faulted s q.ctx code detail q.seq unit false h

/-! ### Completion (R179, R180, R185) -/

/-- A context's phases change, and with the completed prefix its counters, and nothing else. -/
theorem Ctx.phase_keeps (x : Ctx) (q : W32) (p : Phase) : x.phase q p = { x with
    flight := (x.phase q p).flight, evalOpen := (x.phase q p).evalOpen
    completeSeq := (x.phase q p).completeSeq, dispatchSeq := (x.phase q p).dispatchSeq } := rfl

/-- A command still in flight that a phase change names is in that phase. -/
theorem Ctx.phase_mem (x : Ctx) (q : W32) (p : Phase) {f : Flight} (h : f ∈ (x.phase q p).flight) (e : f.seq = q) : f.phase = p := by
  have h := (List.dropWhile_sublist _).subset h
  obtain ⟨g, -, rfl⟩ := List.mem_map.1 h
  split
  · rfl
  · rename_i n; rw [if_neg n] at e; exact absurd e n

theorem recOf_eq (s : State) (q : QE) (code unit : Nat) (detail : W64) :
    recOf s q code unit detail = if makesRecord q.img then
      some { cmd := q.seq, kind := 0, code := BitVec.ofNat 16 code, unit := BitVec.ofNat 16 unit, detail := detail
             time := s.devTime, irq := bit (fld q.img 4 31 0) 5 } else none := rfl

/-- A command at its end waits, or completes (R179). -/
theorem complete_cases (s : State) (q : QE) (code unit : Nat) (detail : W64) :
    (s.endWaits q = true ∧ ∃ r, recOf s q code unit detail = some r
      ∧ s.complete q code unit detail = s.modCtx q.ctx.toNat fun x => x.waitsToEnd q r s.sched.clock)
    ∨ (s.endWaits q = false ∧ s.complete q code unit detail = s.ends q (recOf s q code unit detail)) := by
  unfold State.endWaits State.complete
  rw [recOf_eq]
  cases m : makesRecord q.img
  · exact .inr ⟨rfl, rfl⟩
  · cases b : (s.ctx q.ctx.toNat).bufferFull
    · exact .inr ⟨rfl, by simp⟩
    · exact .inl ⟨rfl, _, rfl, by simp⟩

theorem complete_only (s : State) (q : QE) (code unit : Nat) (detail : W64) : s.complete q code unit detail = { s with
    sched := { s.sched with tokens := s.tokensAfter q }, ctxs := (s.complete q code unit detail).ctxs } := by
  rcases complete_cases s q code unit detail with ⟨w, r, -, e⟩ | ⟨w, e⟩
  · rw [e]; unfold State.tokensAfter; rw [w]; rfl
  · rw [e]; unfold State.tokensAfter; rw [w]; rfl

/-- The context of a command that completes. -/
theorem ends_ctx (s : State) (q : QE) (r : Option Rec) :
    (s.ends q r).ctx q.ctx.toNat =
      let x := s.ctx q.ctx.toNat
      let x := { x with recs := x.recs ++ r.toList }
      if q.issued then x else x.phase q.seq .completed := State.modCtx_same _ _ _

/-- A command still in flight that a wait names stands in a wait. -/
theorem Ctx.waitsFrom_mem (x : Ctx) (q : W32) (now : Nat) {f : Flight} (h : f ∈ (x.waitsFrom q now).flight) (e : f.seq = q) :
    f.phase = .waiting := by
  have h := (List.dropWhile_sublist _).subset h
  obtain ⟨g, -, rfl⟩ := List.mem_map.1 h
  split
  · rfl
  · rename_i n; rw [if_neg n] at e; exact absurd e n

/-- A record joins a buffer with room. -/
theorem Records.joins {s t : State} {c : CtxId} {q : Option QE} {P : Rec → Prop} {r : Rec}
    (h : (s.ctx c.toNat).bufferFull = false) (e : (t.ctx c.toNat).recs = (s.ctx c.toNat).recs ++ [r])
    (l : (t.ctx c.toNat).late = (s.ctx c.toNat).late) (p : P r) : Records s t c q P :=
  ⟨r, p, by rw [if_neg (by simp [h])]; exact ⟨e, l⟩⟩

/-- A record waits for a place in a full buffer. -/
theorem Records.waits {s t : State} {c : CtxId} {q : Option QE} {P : Rec → Prop} {r : Rec}
    (h : (s.ctx c.toNat).bufferFull = true) (e : (t.ctx c.toNat).recs = (s.ctx c.toNat).recs)
    (l : (t.ctx c.toNat).late = (s.ctx c.toNat).late ++ [{ q := q, record := r }]) (p : P r) : Records s t c q P :=
  ⟨r, p, by rw [if_pos h]; exact ⟨e, l⟩⟩

/-- What a record that no command makes does to its context's buffer. -/
theorem record_records (s t : State) (c : CtxId) (r : Rec) (P : Rec → Prop)
    (e : (t.ctx c.toNat).recs = ((s.ctx c.toNat).record r).recs) (l : (t.ctx c.toNat).late = ((s.ctx c.toNat).record r).late)
    (p : P r) : Records s t c none P := by
  unfold Ctx.record at e l
  cases b : (s.ctx c.toNat).bufferFull
  · rw [b] at e l; exact .joins b e l p
  · rw [b] at e l; exact .waits b e l p

/-- A command at its end has freed its token and stands completed, or waits with its record. -/
theorem complete_finishes (s : State) (q : QE) (code unit : Nat) (detail : W64) : Finishes s (s.complete q code unit detail) q code := by
  have tk : (s.complete q code unit detail).sched.tokens = s.tokensAfter q := by rw [complete_only]
  rcases complete_cases s q code unit detail with ⟨w, r, hr, e⟩ | ⟨w, e⟩
  · rw [recOf_eq] at hr
    unfold State.endWaits at w
    rw [Bool.and_eq_true] at w
    rw [w.1, if_pos rfl] at hr
    have hr := Option.some.inj hr
    refine ⟨tk, ?_, ?_, ?_, ?_⟩
    all_goals rw [e]
    · exact fun j hj => State.modCtx_ne _ _ hj
    · rw [State.modCtx_same]; unfold Ctx.waitsToEnd; dsimp only; split <;> rfl
    · intro hi f hf hs
      rw [State.modCtx_same] at hf; unfold Ctx.waitsToEnd at hf; dsimp only at hf; rw [hi, if_neg (by simp)] at hf
      rw [Ctx.waitsFrom_mem _ _ _ hf hs]; unfold State.endWaits; simp [w.1, w.2]
    · rw [if_pos w.1]
      have k : (((s.modCtx q.ctx.toNat fun x => x.waitsToEnd q r s.sched.clock).ctx q.ctx.toNat).recs = (s.ctx q.ctx.toNat).recs)
          ∧ ((s.modCtx q.ctx.toNat fun x => x.waitsToEnd q r s.sched.clock).ctx q.ctx.toNat).late
            = (s.ctx q.ctx.toNat).late ++ [{ q := some q, record := r }] := by
        rw [State.modCtx_same]; unfold Ctx.waitsToEnd; dsimp only; split <;> exact ⟨rfl, rfl⟩
      exact Records.waits w.2 k.1 k.2 (by rw [← hr]; exact ⟨rfl, rfl, rfl, rfl⟩)
  · refine ⟨tk, ?_, ?_, ?_, ?_⟩
    all_goals rw [e]
    · exact fun j hj => State.modCtx_ne _ _ hj
    · rw [ends_ctx]; dsimp only; split <;> rfl
    · intro hi f hf hs
      rw [ends_ctx] at hf; dsimp only at hf; rw [hi, if_neg (by simp)] at hf
      rw [w]; exact Ctx.phase_mem _ _ _ hf hs
    · have k : ((s.ends q (recOf s q code unit detail)).ctx q.ctx.toNat).recs
          = (s.ctx q.ctx.toNat).recs ++ (recOf s q code unit detail).toList
          ∧ ((s.ends q (recOf s q code unit detail)).ctx q.ctx.toNat).late = (s.ctx q.ctx.toNat).late := by
        rw [ends_ctx]; dsimp only; split <;> exact ⟨rfl, rfl⟩
      unfold State.endWaits at w
      rw [recOf_eq] at k ⊢
      cases m : makesRecord q.img
      · rw [m] at k; exact ⟨k.1.trans (List.append_nil _), k.2⟩
      · rw [m] at k w
        exact Records.joins (by simpa using w) k.1 k.2 ⟨rfl, rfl, rfl, rfl⟩

/-! ### Bytes -/

theorem BytesBut.refl (a n : Nat) (m : Mem) : BytesBut a n m m := fun _ _ => rfl
theorem writeBytes_but (m : Mem) (a : Nat) (bs : List Byte) : BytesBut a bs.length m (m.writeBytes a bs) := fun b h => by
  rw [Mem.read_writeBytes, if_neg h]

/-- Only the Strongroom's notes of written granules and of bytes in error change (R263, R271). -/
theorem noteWrite_only (s : State) (a n : Nat) : NotesOnly s (s.noteWrite a n) := rfl

/-- A write to HBM changes its bytes, and the Strongroom's notes. -/
theorem hbmWrite_only (s : State) (a : Nat) (bs : List Byte) :
    NotesOnly { s with hbm := s.hbm.writeBytes a bs } (s.hbmWrite a bs) := rfl
theorem hbmWrite_hbm (s : State) (a : Nat) (bs : List Byte) : (s.hbmWrite a bs).hbm = s.hbm.writeBytes a bs := rfl
theorem hbmWrite_but (s : State) (a : Nat) (bs : List Byte) : BytesBut a bs.length s.hbm (s.hbmWrite a bs).hbm :=
  writeBytes_but _ _ _
theorem hbmWrite_reads (s : State) (a : Nat) (bs : List Byte) : (s.hbmWrite a bs).hbm.readBytes a bs.length = bs :=
  Mem.readBytes_writeBytes _ _ _

/-- Bytes written at a place stand there, and every other byte of every memory is as before. -/
theorem locWrite_lands (s : State) (l : Loc) (bs : List Byte) : Lands s (s.locWrite l bs) l bs := by
  cases l with
  | clu k o =>
    have e : ((s.locWrite (.clu k o) bs).clu k.toNat) = { s.clu k.toNat with mem := (s.clu k.toNat).mem.writeBytes o bs } :=
      State.modCl_same _ _ _
    refine ⟨?_, ?_, rfl, rfl, fun j hj => ?_⟩
    · show Mem.readBytes ((s.locWrite (.clu k o) bs).clu k.toNat).mem o bs.length = bs
      rw [e]; exact Mem.readBytes_writeBytes _ _ _
    · rw [e]; exact writeBytes_but _ _ _
    · exact congrArg Cluster.mem (State.modCl_ne _ _ hj)
  | hbm a => exact ⟨hbmWrite_reads _ _ _, hbmWrite_but _ _ _, rfl, fun _ => rfl⟩
  | host a => exact ⟨Mem.readBytes_writeBytes _ _ _, writeBytes_but _ _ _, rfl, fun _ => rfl⟩

/-- A write at a place changes memories and the Strongroom's notes alone. -/
theorem locWrite_only (s : State) (l : Loc) (bs : List Byte) : NotesOnly
    { s with cls := (s.locWrite l bs).cls, hbm := (s.locWrite l bs).hbm, host := (s.locWrite l bs).host } (s.locWrite l bs) := by
  cases l <;> rfl
theorem locWrite_clu (s : State) (l : Loc) (bs : List Byte) (j : Nat) :
    (s.locWrite l bs).clu j = { s.clu j with mem := ((s.locWrite l bs).clu j).mem } := by
  cases l with
  | clu k o =>
    by_cases h : j = k.toNat
    · subst h
      have e : ((s.locWrite (.clu k o) bs).clu k.toNat) = { s.clu k.toNat with mem := (s.clu k.toNat).mem.writeBytes o bs } :=
        State.modCl_same _ _ _
      rw [e]
    · have e : ((s.locWrite (.clu k o) bs).clu j) = s.clu j := State.modCl_ne _ _ h
      rw [e]
  | hbm a => rfl
  | host a => rfl

/-! ### Free values (log 13) -/

@[simp] theorem draw_state (s : State) : s.draw.2 = { s with free := s.free + 1 } := rfl

/-! ### Packets (R222, R224, R229, R230) -/

theorem given_port (s : State) (p : PortId) (k : Packet) : (s.given p k).prt6 p.val =
    if k ∈ (s.prt6 p.val).rxq then (s.prt6 p.val).gone k else ((s.prt6 p.val).taken k).gone k := by
  unfold State.given; split <;> exact State.modPort_same _ _ _

/-- The port of a packet it has given on owes its credits. -/
theorem given_owes (s : State) (p : PortId) (k : Packet) : Owes s (s.given p k) p k := by
  unfold Owes
  rw [given_port]
  split <;> exact SMap.get_upd_same (d := 0) (s.prt6 p.val).owed (pktChan k) (· + pktCredits k)

/-- The link layer gives the packet on. -/
theorem linkIn_takes {s : State} {p : PortId} {k : Packet} (h : LinkTakes s p k) : s.linkIn p.val k = .take (s.given p k) := by
  obtain ⟨u, -, b, o⟩ := h
  unfold State.linkIn State.given
  by_cases m : k ∈ (s.prt6 p.val).rxq
  · simp [u, b, m]
  · have e : k.lsn = (s.prt6 p.val).rxNext := o.resolve_left m
    simp [u, b, m, e]

/-- A packet that arrives and is taken is handled by its type's rule; where the rule must wait, so does the packet. -/
theorem receive_arrives {s : State} {p : PortId} {k : Packet} {ty : Nat} (h : Arrives s p k ty) (hb : ty ≠ 15) (f : State → Option Out) :
    s.receive p.val k ty f = (f (s.given p k)).getD (.next (s.park p.val k)) := by
  obtain ⟨t, l, d, a, e⟩ := h
  have t15 : k.ty ≠ 15 := fun x => hb (by rw [← t, x]; rfl)
  have ap : ((s.given p k).prt6 p.val).admits k = true := by
    rw [given_port]; split <;> exact a
  unfold State.receive
  rw [if_neg (by omega)]
  unfold State.arrive
  rw [if_neg l.2.1, linkIn_takes l]
  unfold State.served State.takePkt
  simp only [t15, if_false]
  have d' : (s.given p k).devId = s.devId := by unfold State.given; split <;> rfl
  rw [if_neg (show ¬(k.dst ≠ (s.given p k).devId) from fun x => x (d.trans d'.symm)), ap]
  have e' : ((s.given p k).ctx k.dstCtx.toNat).st.deaf = false := by unfold State.given; split <;> exact e
  simp [e']

/-! ### DMA transfers (R231) -/

/-- A range that may be accessed has memory behind it. -/
theorem noMemory_of_hbmCheck {s : State} {c a n : Nat} {wr own : Bool} (h : s.hbmCheck c a n wr own = none) :
    s.noMemory a n = false := by
  unfold State.hbmCheck at h
  by_cases z : n = 0
  · subst z; rfl
  · rw [if_neg z] at h
    cases m : s.noMemory a n
    · rfl
    · rw [if_pos m] at h; cases h

theorem locNone_of_locCheck {s : State} {c : CtxId} {l : Loc} {n : Nat} {wr : Bool} (h : s.locCheck c l n wr = none) :
    s.locNone l n = false := by
  cases l with
  | hbm a => exact noMemory_of_hbmCheck h
  | _ => rfl

/-- Places that a context may all reach give no fault. -/
theorem locsFault_none {s : State} {c : CtxId} {l : List (Loc × Nat × Bool)}
    (h : ∀ x ∈ l, s.locCheck c x.1 x.2.1 x.2.2 = none) : s.locsFault c l = none := by
  unfold State.locsFault
  rw [List.find?_eq_none.2 fun x m => by simp [locNone_of_locCheck (h x m)]]
  exact List.findSome?_eq_none_iff.2 fun x m => by simp [h x m]

/-- Ranges of HBM that a context may all access give no fault. -/
theorem accessFault_none {s : State} {c : Nat} {l : List Access}
    (h : ∀ x ∈ l, s.hbmCheck c x.1 x.2.1 x.2.2.1 x.2.2.2 = none) : s.accessFault c l = none := by
  unfold State.accessFault
  rw [List.find?_eq_none.2 fun x m => by simp [noMemory_of_hbmCheck (h x m)]]
  exact List.findSome?_eq_none_iff.2 fun x m => by simp [h x m]

/-- A transfer whose places are allowed and that need not wait has its effect and is done. -/
theorem dmaRun_runs (s : State) (cl : ClId) (q : QE) (reads writes : List (Loc × Nat)) (f : State → State)
    (hr : ∀ r ∈ reads, s.locCheck q.ctx r.1 r.2 false = none) (hw : ∀ w ∈ writes, s.locCheck q.ctx w.1 w.2 true = none)
    (wr : ∀ r ∈ reads, s.srcWait r.1 r.2 = false) (ww : ∀ w ∈ writes, s.locWait w.1 w.2 = false) :
    s.dmaRun cl q reads writes f = .next ((f s).dmaDone cl) := by
  have h : s.locsFault q.ctx (dmaPlaces reads writes) = none := locsFault_none fun x hx => by
    rcases List.mem_append.1 hx with hx | hx
    · obtain ⟨r, m, rfl⟩ := List.mem_map.1 hx; exact hr r m
    · obtain ⟨w, m, rfl⟩ := List.mem_map.1 hx; exact hw w m
  unfold State.dmaRun
  rw [h]
  have a : reads.any (fun r => s.srcWait r.1 r.2) = false := List.any_eq_false.2 fun r m => by simp [wr r m]
  have b : writes.any (fun w => s.locWait w.1 w.2) = false := List.any_eq_false.2 fun w m => by simp [ww w m]
  simp [a, b]

/-! ### Checks, offers and contests (R60, R156, R181, R185) -/

/-- Acceptance finds BAD_FORMAT or BAD_ADDRESS beside the faults of the image (R181). -/
theorem State.acceptFault_code {s : State} {q : QE} {f : U16 × Nat} (h : s.acceptFault q = some f) : f.1 = 2 ∨ f.1 = 3 := by
  unfold State.acceptFault at h
  split at h
  · cases h; exact .inl rfl
  · obtain ⟨a, -, rfl⟩ := Option.map_eq_some_iff.mp h; exact .inr rfl

/-- A fault of the unit or cluster a command names comes before those of its fields (log 100). -/
theorem State.dispatchFault_of_name {s : State} {c : CtxId} {f : Flight} {e : U16} (h : s.nameFault c f = some e) :
    s.dispatchFault c f = some (e, 0) := by
  simp [State.dispatchFault, h]

/-- An offer waits for its destination: nothing but the command's place in its run changes (R60). -/
theorem State.drainFuse_frame (s : State) (cl k : Nat) (r : MxRun) :
    s.drainFuse cl k r = { s with cls := (s.drainFuse cl k r).cls } := rfl

/-- The fault of the words an update names is the fault of one of them (R156). -/
theorem State.wordsFault_of {s : State} {c : CtxId} {ws : List W32} {f : U16 × Nat} (h : s.wordsFault c ws = some f) :
    ∃ w ∈ ws, s.wordFault c w = some f := by
  obtain ⟨k, -, hk⟩ := List.exists_of_findSome?_eq_some h
  exact List.mem_filterMap.mp (List.mem_of_find?_eq_some hk)

/-- A context that leaves before another is of no higher priority (R185). -/
theorem State.leavesFirst_eff {s : State} {a b : Nat} (h : s.leavesFirst a b = true) : s.eff a ≤ s.eff b := by
  unfold State.leavesFirst at h
  simp only [Bool.or_eq_true, decide_eq_true_eq, Bool.and_eq_true, beq_iff_eq] at h
  omega

end Sys2Proof.Machine
end

