-- ==== Sys2Proof/WellFormed.lean ====
section
/-! DEFINITION. What a command must look like to be one the outside can send: addresses, packets and sampled
lists of the right size. A meaning is defined on every command; these checks say which ones an honest bus, link
or sensor produces. -/

namespace Sys2Proof

/-- An aligned access of 4 or 8 bytes (R280). -/
def alignedAccess (off size : Nat) : Bool := (size == 4 && off % 4 == 0) || (size == 8 && off % 8 == 0)

/-- A packet's payload is as long as its LENGTH says, at most 4,096 bytes (R220). -/
def Packet.wf (k : Packet) : Bool := decide (k.payload.length = k.length.toNat) && decide (k.length.toNat ≤ 4096)

/-- A packet of type `ty` as a row of the table takes it. -/
def Packet.ofType (k : Packet) (ty : Nat) : Bool := k.wf && decide (k.ty.toNat = ty)

/-- Only the second packet of a bundle has CONT set, and it follows a full one (R221). -/
def MintSrc.wf (ty : Nat) : MintSrc → Bool
  | .engine => true
  | .link _ k none => k.ofType ty && !k.cont
  | .link _ k (some m) => k.ofType ty && !k.cont && decide (k.length.toNat = 4096) && m.ofType ty && m.cont

def DepositSrc.wf : DepositSrc → Bool
  | .edge a b => decide (a ≠ b)
  | .link _ k => k.ofType 2

/-- The host stores below 2^64. -/
def hostWf (h : HostStores) : Bool := h.all fun p => decide (p.1 < 2 ^ 64)

def WindowIn.wf (w : WindowIn) : Bool :=
  decide (w.rings.length = 32) && decide (w.dieW.length = 8) && decide (w.stackW.length = 8)

/-- A fused chain runs at least one stage on at least one element and reads at most two streams (Table VX.7). -/
def Chain.wf (c : Chain) : Bool := decide (1 ≤ c.count) && !c.stages.isEmpty && decide (c.reads.length ≤ 2)

/-- The command is one that can be sent. -/
def Instr.wf : Instr → Bool
  | .registerWrite off wide _ => alignedAccess off.toNat (if wide then 8 else 4)
  | .badAccess off size _ => !alignedAccess off.toNat size && decide (1 ≤ size) && decide (off.toNat + size ≤ 2 ^ 26)
  | .ctxDefinitionWrite off _ => off.toNat % 4 == 0 && decide (0x4C ≤ off.toNat) && decide (off.toNat ≤ 0x74)
  | .mintTableBaseWrite off _ => off.toNat % 4 == 0 && decide (0x44 ≤ off.toNat) && decide (off.toNat ≤ 0x54)
  | .lkCtxRegWrite off _ => off.toNat % 4 == 0 && decide (0x54 ≤ off.toNat) && decide (off.toNat ≤ 0x64)
  | .linkWrite _ k => k.ofType 1
  | .creditReturn _ k => k.ofType 3
  | .refusal _ k => k.ofType 4
  | .collChunk _ k => k.ofType 5
  | .ctrlReduce _ k => k.ofType 8
  | .mirror _ k => k.ofType 9
  | .linkAck _ k => k.ofType 10
  | .creditRequest _ k => k.ofType 11
  | .heartbeat _ k => k.ofType 15
  | .reservedPacketDiscard _ k => k.wf && [0, 12, 13, 14].contains k.ty.toNat
  | .escrowDeposit src => src.wf
  | .mintOpen src => src.wf 6
  | .mintBundle src => src.wf 7
  | .commandAccept _ h => hostWf h
  | .copy _ h => hostWf h
  | .transpose _ h => hostWf h
  | .spillIn _ h => hostWf h
  | .vaultPush _ h => hostWf h
  | .tellerLoad _ h => hostWf h
  | .seqVariantLoad _ _ h => hostWf h
  | .paceWindowClose w => w.wf
  | .thermalCheck d m => decide (d.length = 8) && decide (m.length = 24)
  | .bootSparing l => decide (l.length = 8)
  | .linkTraining l p => decide (l.length = 6) && decide (p.length = 6)
  | .fusedChain _ c => c.wf
  | .msixVectorUnmask v => decide (v.toNat < 4160)
  | _ => true

/-- A command the outside can send. -/
abbrev WellFormed (i : Instr) : Prop := i.wf = true

end Sys2Proof
end

