-- ==== Sys2Proof/Tests/Slice0.lean ====
section
/-! SUPPORT. Tests: ill-formed commands are refused; states that meet the hypotheses of every obligation, clause by
clause, with what one step there must give by the manual. -/

namespace Sys2Proof.Tests
open Sys2Proof Sys2Proof.Machine
set_option Elab.async false

/-! ### Ill-formed commands -/

/-- A packet of a type with a payload of `n` zero bytes that says `len`. -/
def pkt (ty n len : Nat) : Packet where
  ty := BitVec.ofNat 4 ty
  vc := 3
  dateline := false
  dst := 0
  src := 1
  job := 7
  dstCtx := 1
  srcCtx := 1
  cont := false
  length := BitVec.ofNat 13 len
  step := 0
  target := 0
  aux := 0
  payload := List.replicate n 0

theorem wf_refuses_unaligned : ¬WellFormed (.registerWrite 2 false 0) ∧ ¬WellFormed (.registerWrite 4 true 0) := by decide +kernel
theorem wf_refuses_good_bad_access : ¬WellFormed (.badAccess 8 4 true) ∧ ¬WellFormed (.badAccess 8 0 true)
    ∧ ¬WellFormed (.badAccess 0x3FFFFFF 2 true) := by decide +kernel
theorem wf_refuses_offsets : ¬WellFormed (.ctxDefinitionWrite 0x48 0) ∧ ¬WellFormed (.ctxDefinitionWrite 0x4D 0)
    ∧ ¬WellFormed (.mintTableBaseWrite 0x58 0) ∧ ¬WellFormed (.lkCtxRegWrite 0x68 0) := by decide +kernel
theorem wf_refuses_length : ¬WellFormed (.linkWrite 0 (pkt 1 4 8)) ∧ WellFormed (.linkWrite 0 (pkt 1 4 4)) := by decide +kernel
theorem wf_refuses_types : ¬WellFormed (.linkWrite 0 (pkt 3 0 0)) ∧ ¬WellFormed (.creditReturn 0 (pkt 1 0 0))
    ∧ ¬WellFormed (.refusal 0 (pkt 1 0 0)) ∧ ¬WellFormed (.collChunk 0 (pkt 1 0 0)) ∧ ¬WellFormed (.ctrlReduce 0 (pkt 1 0 0))
    ∧ ¬WellFormed (.mirror 0 (pkt 1 0 0)) ∧ ¬WellFormed (.linkAck 0 (pkt 1 0 0)) ∧ ¬WellFormed (.creditRequest 0 (pkt 1 0 0))
    ∧ ¬WellFormed (.heartbeat 0 (pkt 1 0 0)) ∧ ¬WellFormed (.reservedPacketDiscard 0 (pkt 1 0 0)) := by decide +kernel
theorem wf_refuses_sources : ¬WellFormed (.escrowDeposit (.edge 1 1)) ∧ ¬WellFormed (.escrowDeposit (.link 0 (pkt 1 0 0)))
    ∧ ¬WellFormed (.mintOpen (.link 0 (pkt 7 0 0) none)) ∧ ¬WellFormed (.mintBundle (.link 0 { pkt 7 0 0 with cont := true } none))
    ∧ ¬WellFormed (.mintBundle (.link 0 (pkt 7 4 4) (some { pkt 7 4 4 with cont := true }))) := by decide +kernel
theorem wf_refuses_host_address : ¬WellFormed (.copy 0 [(2 ^ 64, 1)]) ∧ ¬WellFormed (.commandAccept 0 [(2 ^ 64, 1)])
    ∧ ¬WellFormed (.transpose 0 [(2 ^ 64, 1)]) ∧ ¬WellFormed (.spillIn 0 [(2 ^ 64, 1)]) ∧ ¬WellFormed (.vaultPush 0 [(2 ^ 64, 1)])
    ∧ ¬WellFormed (.tellerLoad 0 [(2 ^ 64, 1)]) ∧ ¬WellFormed (.seqVariantLoad 0 true [(2 ^ 64, 1)]) := by decide +kernel
theorem wf_refuses_samples : ¬WellFormed (.paceWindowClose ⟨[], 0, [], [], 0, 0, []⟩) ∧ ¬WellFormed (.thermalCheck [] [])
    ∧ ¬WellFormed (.bootSparing []) ∧ ¬WellFormed (.linkTraining [] []) := by decide +kernel
theorem wf_refuses_chains : ¬WellFormed (.fusedChain 0 ⟨0, [], [], none, none⟩) ∧ ¬WellFormed (.fusedChain 0 ⟨1, [], [], none, none⟩)
    ∧ ¬WellFormed (.msixVectorUnmask 4160) := by decide +kernel

/-! ### States and helpers -/

/-- Command `i` answers a next state at `s` of which `p` holds. -/
def after (i : Instr) (s : State) (p : State → Bool) : Bool :=
  match exec i s with
  | .next t => p t
  | _ => false

/-- A command image from (byte offset, 32-bit word) pairs. -/
def img (l : List (Nat × Nat)) : Image := BitVec.ofNat 512 ((l.map fun p => p.2 * 2 ^ (8 * p.1)).sum)

/-- Bytes at an address as a map of plain pairs. -/
def at_ (a : Nat) (bs : List Byte) : Mem := Mem.writeBytes [] a bs

/-- The device in READY, profile FULL, with the host port up. -/
def up : State :=
  { State.reset with boot := { State.reset.boot with perst := false, stage := 7, profile := 2, hostUp := true } }

/-- Cluster 0 as context 1 owns it: 16 Till entries, 64 KiB of memory, the second 64 KiB as a Vault of one stack. -/
def desc0 : CluDesc := { cl := 0, tillLog := 4, memSize := 1024, vaultBase := 1, vaultSize := 1, vaultStacks := 1 }

/-- Context 1, IN, of job 7, with cluster 0. -/
def ctx1 : Ctx := { st := .resident, job := 7, cltab := [desc0], ringBase := 0x1000, cplBase := 0x2000 }

/-- The device with context 1 and its HBM pages 16 to 19 of stack 0. -/
def dev : State := { up with ctxs := [(1, ctx1)], pot := [(16, 0x1001), (17, 0x1001), (18, 0x1001), (19, 0x1001)] }

/-- A command of context 1. -/
def cmd (i : Image) : QE := { ctx := 1, seq := 0, img := i, issued := false, acc := 0 }

/-- Context 1 with commands in flight, dispatched. -/
def fly (l : List (Nat × Image)) : Ctx :=
  { ctx1 with acceptSeq := BitVec.ofNat 32 l.length
              flight := l.map fun p => { seq := BitVec.ofNat 32 p.1, img := p.2, phase := .dispatched, acc := 0 } }

/-! ### Steps, cells and registers -/

theorem wit_empty_queue : up.pending = [] ∧ (match step up with
    | .next t => t.time.steps == 1
    | _ => false) = true := by decide +kernel

theorem wit_front_command : (match step { up with pending := [.capWrite 700, .hostAckWrite 1] } with
    | .next t => t.pending == [.hostAckWrite 1]
    | _ => false) = true := by decide +kernel

theorem wit_reset_cells : State.reset.nv.all fun p => decide (p.2.wear = 0) && !p.2.exhausted && !p.2.wearHigh && !p.2.busy := by decide +kernel

/-- A cell of a wear. -/
def worn (n : Nat) (e : Bool) : Cell := { wear := n, exhausted := e, wearHigh := decide (90000 < n) }

theorem wit_persist_accepted :
    persistRow (.profileWrite 0xFD) up = some ⟨pgBursar, 0x48, 1, 0xF1, none⟩ ∧ up.canWrite pgBursar true = true
    ∧ (up.cell 1).busy = false ∧ (up.cell 1).exhausted = false ∧ (up.cell 1).val ≠ 0xF1
    ∧ after (.profileWrite 0xFD) up (fun t => (t.cell 1).val == 0xF1 && (t.cell 1).busy && (t.cell 1).wear == 1
      && t.readReg pgBursar 0x48 == 0xF1) = true
    ∧ after (.torusCoordWrite 0x321) up (fun t => t.readReg pgLinks 0x40 == 0x321) = true
    ∧ after (.torusDimsWrite 0x777) up (fun t => t.readReg pgLinks 0x44 == 0x777) = true
    ∧ after (.laneMapWrite 5 0xFFFF) up (fun t => t.readReg (pgPort 5) 0x44 == 0xFFFF) = true
    ∧ after (.bootSrcWrite 1) up (fun t => t.readReg pgBoot 0x44 == 1) = true
    ∧ after (.bootNsidWrite 9) up (fun t => t.readReg pgBoot 0x48 == 9) = true := by decide +kernel
theorem wit_persist_bounds :
    persistRow (.capDefaultWrite 600) up = some ⟨pgBursar, 0x44, 0, 600, none⟩
    ∧ persistRow (.capDefaultWrite 3200) up = some ⟨pgBursar, 0x44, 0, 3200, none⟩ ∧ (up.cell 0).val = 3200
    ∧ persistRow (.capDefaultWrite 599) up = some ⟨pgBursar, 0x44, 0, 599, some (pgBursar, 5)⟩
    ∧ persistRow (.capDefaultWrite 3201) up = some ⟨pgBursar, 0x44, 0, 3201, some (pgBursar, 5)⟩
    ∧ after (.capDefaultWrite 3201) up (fun t => t.nv == up.nv && bit (SMap.get {} t.hdr pgBursar).alarm.toNat 5) = true
    ∧ after (.capDefaultWrite 3200) up (fun t => t == up) = true := by decide +kernel
theorem wit_persist_wear :
    ((up.modCell 1 fun _ => worn 90000 false).cell 1).wear = 90000
    ∧ after (.profileWrite 1) (up.modCell 1 fun _ => worn 90000 false) (fun t => (t.cell 1).wearHigh
      && bit (SMap.get {} t.hdr pgPersist).alarm.toNat 2) = true
    ∧ after (.profileWrite 1) (up.modCell 1 fun _ => worn 99999 false) (fun t => (t.cell 1).exhausted
      && bit (SMap.get {} t.hdr pgPersist).alarm.toNat 1) = true
    ∧ after (.profileWrite 1) (up.modCell 1 fun _ => worn 89999 false) (fun t => !(t.cell 1).wearHigh && t.hdr == up.hdr) = true
    ∧ up.boot.stage ≠ 0 ∧ (up.modCell 13 fun _ => worn 77 false).readReg (pgSparing 3) 0xC0 = 77 := by decide +kernel
theorem wit_persist_refused :
    ((up.modCell 1 fun c => { c with busy := true }).cell 1).busy = true
    ∧ ((up.modCell 1 fun _ => worn 100000 true).cell 1).exhausted = true
    ∧ ((up.modCell 1 fun _ => worn 100000 true).cell 1).wear = 100000
    ∧ after (.profileWrite 1) (up.modCell 1 fun _ => worn 100000 true) (fun t => (t.cell 1).lastRefused && (t.cell 1).val == 0) = true := by
  decide +kernel
theorem wit_exhausted_keeps :
    (match step { (up.modCell 1 fun _ => { worn 100000 true with busy := true, val := 1 }) with pending := [.powerLoss 0] } with
      | .next t => (t.cell 1).val == 0 && (t.cell 1).exhausted && (t.cell 1).wear == 100000
      | _ => false) = true := by decide +kernel
theorem wit_reserved_profile : (3 : W32).toNat % 4 = 3 ∧ up.canWrite pgBursar true = true ∧ (up.cell 1).busy = false
    ∧ (up.cell 1).exhausted = false ∧ after (.profileWrite 3) up (fun t => t.nv == up.nv) = true
    ∧ after (.profileWrite 3) (up.modCell 1 fun _ => worn 100000 true)
      (fun t => (t.cell 1).lastRefused && bit (SMap.get {} t.hdr pgPersist).alarm.toNat 1) = true := by decide +kernel

/-- The factory map with cluster 0 replaced by 150. -/
def staged : State := up.modSpr 2 fun x => { x with staged := BitVec.ofNat 160 (2 ^ 151 - 2) }
theorem wit_spare_commit : bit (1 : W32).toNat 0 = true ∧ staged.canWrite (pgSparing 2) true = true
    ∧ popCount (staged.spr 2).staged.toNat 160 = 150 ∧ (staged.cell 12).busy = false ∧ (staged.cell 12).exhausted = false
    ∧ persistRow (.spareCommit 2 1) staged = some ⟨pgSparing 2, 0x60, 12, BitVec.ofNat 160 (2 ^ 151 - 2), none⟩
    ∧ after (.spareCommit 2 1) staged (fun t => t.readReg (pgSparing 2) 0x60 == 0xFFFFFFFE) = true
    ∧ popCount (up.spr 2).staged.toNat 160 ≠ 150 ∧ bit (0 : W32).toNat 0 = false
    ∧ after (.spareCommit 2 1) staged (fun t => (t.cell 12).busy && (t.cell 12).val == BitVec.ofNat 160 (2 ^ 151 - 2)) = true
    ∧ after (.spareCommit 2 1) up (fun t => (t.spr 2).reject) = true := by decide +kernel
theorem wit_persist_done : ((up.modCell 19 fun c => { c with busy := true, val := 7 }).cell 19).busy = true
    ∧ after (.persistWriteDone 19) (up.modCell 19 fun c => { c with busy := true, val := 7 })
      (fun t => (t.cell 19).old == 7 && !(t.cell 19).busy) = true := by decide +kernel

theorem wit_register_write : (pgNumerics, 0x40, 0xFFF) ∈ plainRegs ∧ (pgCtxStat, 0x40, 0xFFF) ∈ plainRegs ∧ up.boot.stage = 7
    ∧ after (.registerWrite (BitVec.ofNat 26 (pgNumerics * 4096 + 0x40)) false 0x1234) up (fun t => t.sel.nuCtx == 0x234) = true := by decide +kernel
theorem wit_register_wide : (0x10044 : BitVec 26).toNat % 8 = 4 ∧ (0x10048 : BitVec 26).toNat % 8 = 0
    ∧ (match exec (.registerWrite 0x10040 false 5) up with
      | .next u => u.sel.nuCtx == 5
      | _ => false) = true := by decide +kernel
theorem wit_register_unmapped : (0x4000 : BitVec 26).toNat % 4 = 0 ∧ pageType 4 = none
    ∧ pageType 0x2FFF = none := by decide +kernel
theorem wit_register_misaligned : (6 : BitVec 26).toNat % 4 ≠ 0 ∧ up.boot.stage ≠ 0
    ∧ after (.registerWrite 6 false 5) up (fun t => bit (SMap.get {} t.hdr pgIrq).alarm.toNat 0) = true := by decide +kernel

/-- The device with an alarm on the numerics page. -/
def alarmed : State := up.alarm pgNumerics 3
theorem wit_page_header : alarmed.canWrite pgNumerics = true ∧ pgNumerics < 0x3000 ∧ alarmed.canWrite pgCtxStat = true
    ∧ alarmed.canWrite (pgPort 5) = true ∧ up.decoded pgDevice false = true
    ∧ ¬((4 = 4 ∧ (2 : BitVec 26).toNat % 4 = 0) ∨ (4 = 8 ∧ (2 : BitVec 26).toNat % 8 = 0))
    ∧ after (.blkAlarmClear (BitVec.ofNat 14 pgNumerics) 8 none) alarmed (fun t => (SMap.get {} t.hdr pgNumerics).alarm == 0) = true
    ∧ after (.blkAlarmClear (BitVec.ofNat 14 pgNumerics) 8 (some ⟨3, none⟩)) alarmed
        (fun t => bit (SMap.get {} t.hdr pgNumerics).alarm.toNat 3) = true
    ∧ after (.softReset (BitVec.ofNat 14 pgNumerics)) (alarmed.modNum 0 fun x => { x with ovfCount := 4 })
        (fun t => (t.nums 0).ovfCount == 0) = true := by decide +kernel

theorem wit_msix : (0x103F : BitVec 13).toNat < 4160
    ∧ after (.msixVectorUnmask 0x103F) (up.modVec 0x103F fun x => { x with pend := true }) (fun t => t.irq.log == [0x103F]) = true
    ∧ after .msixWindowClose (up.modVec 5 fun x => { x with masked := false, held := true, sent := true })
        (fun t => t.irq.log == [5] && (t.vec 5).sent) = true := by decide +kernel

theorem wit_supplies : up.boot.perst = false ∧ after .supplyFault up (fun t => t.boot.pwrAlert) = true
    ∧ after (.powerLoss 0) (up.modCell 1 fun c => { c with busy := true, val := 1 }) (fun t => (t.cell 1).val == 0 && (t.cell 1).interrupted) = true := by
  decide +kernel

theorem wit_perst_release : State.reset.boot.perst = true ∧ State.reset.boot.tripped = false
    ∧ after .perstDeassert State.reset (fun t => t.boot.stage == 1 && t.bursar.cap == 3200) = true := by decide +kernel
/-- Supplies lost during a persistent write. -/
def dark : State := { State.reset with boot := { State.reset.boot with powered := false, lossHit := true }, nv := [(1, { interrupted := true })] }
theorem wit_perst_interrupted : dark.boot.powered = false ∧ dark.boot.lossHit = true ∧ (1, ({ interrupted := true } : Cell)) ∈ dark.nv ∧ dark.boot.tripped = false
    ∧ after .perstDeassert dark (fun t => bit (SMap.get {} t.hdr pgPersist).alarm.toNat 3) = true := by decide +kernel

/-- The device in a stage of boot. -/
def booting (n : BitVec 4) : State := { up with boot := { up.boot with stage := n, pushed := true, pushLen := 2, linksDone := true } }
def fwOk : FwImage := { readable := true, part := 0x1200, units := 2, version := 9, sigOk := true }
theorem wit_boot_push : bit (1 : W32).toNat 0 = true ∧ (booting 2).boot.stage = 2 ∧ (booting 2).boot.srcUsed = false
    ∧ (booting 2).boot.pushed = true
    ∧ after (.firmwareLoadDone fwOk) (booting 2) (fun t => t.boot.stage == 3 && t.boot.fwVersion == 9) = true
    ∧ after (.firmwareLoadDone { fwOk with units := 3 }) (booting 2) (fun t => t.boot.stage == 15 && t.boot.error == 1) = true := by decide +kernel
theorem wit_boot_sparing : (booting 3).boot.stage = 3 ∧ (booting 3).boot.sparFailed = 0
    ∧ after (.bootSparing (List.replicate 8 (BitVec.ofNat 160 (2 ^ 150 - 1)))) (booting 3) (fun t => t.boot.stage == 4) = true
    ∧ after (.bootSparing (List.replicate 8 (BitVec.ofNat 160 (2 ^ 149 - 1)))) (booting 3) (fun t => t.boot.error == 3) = true := by decide +kernel
theorem wit_boot_stages : (booting 4).boot.stage = 4 ∧ (booting 5).boot.stage = 5 ∧ (booting 6).boot.stage = 6
    ∧ (booting 6).boot.linksDone = true ∧ after (.sramInit false) (booting 4) (fun t => t.boot.error == 4) = true
    ∧ after (.hbmTraining 0xFFFFFF 300) (booting 5) (fun t => t.boot.stage == 6) = true
    ∧ after (.hbmTraining 0x7FFFFF 300) (booting 5) (fun t => t.boot.error == 5) = true
    ∧ after .bootReady (booting 6) (fun t => t.boot.stage == 7) = true := by decide +kernel

/-- The device at a device time in fifths of a nanosecond. -/
def timed (n : Nat) (v : Option W64) : State := { up with time := { up.time with true5 := n, shown5 := n, setTime := v } }
theorem wit_tsync : up.boot.stage ≠ 0
    ∧ after .tsyncEdge (timed 5000000000 none) (fun t => t.time.true5 == 5000000000) = true
    ∧ after .tsyncEdge (timed 4995000000 none) (fun t => t.time.true5 == 5000000000) = true
    ∧ after .tsyncEdge (timed 4994999999 none) (fun t => bit (SMap.get {} t.hdr pgDevice).alarm.toNat 0) = true
    ∧ after .tsyncEdge (timed 5005000000 none) (fun t => t.time.true5 == 5000000000 && t.time.shown5 == 5005000000) = true
    ∧ after .tsyncEdge (timed 1 (some 77)) (fun t => t.time.shown5 == 385) = true := by decide +kernel
theorem wit_set_time : up.boot.powered = true ∧ up.ctxs = [] ∧ dev.boot.powered = true ∧ (1, ctx1) ∈ dev.ctxs ∧ ctx1.st = .resident
    ∧ after (.setTime 5) dev (fun t => t.smb.nack) = true ∧ after (.setTime 5) up (fun t => t.time.setTime == some 5) = true := by decide +kernel
theorem wit_smbus : up.boot.powered = true ∧ up.boot.stage = 7 ∧ State.reset.boot.stage ≠ 7 ∧ State.reset.boot.powered = true
    ∧ after .smbusReadPart up (fun t => t.smb.data.take 4 == [0x00, 0x12, 0x01, 0x00]) = true
    ∧ (up.modDp 7 fun x => { x with temp := 60, stackTemp := 61 }).boot.stage = 7
    ∧ after .smbusReadTemperatures (up.modDp 7 fun x => { x with temp := 60, stackTemp := 61 })
      (fun t => t.smb.data == [60, 61]) = true
    ∧ up.ctxs = [] ∧ (1, ctx1) ∈ dev.ctxs ∧ ctx1.st = .resident := by decide +kernel
theorem wit_pcie : ({ up with boot := { up.boot with hostUp := false } } : State).boot.hostUp = false ∧ up.boot.stage ≠ 0
    ∧ after .pcieLinkUp { up with boot := { up.boot with hostUp := false }, irq := { up.irq with vec := [(5, { masked := false, held := true })] } }
        (fun t => t.irq.log == [5]) = true := by decide +kernel
theorem wit_jtag : (Tap.reset.next false = .idle)
    ∧ after (.jtagTap false true false []) { up with jtag := { up.jtag with tap := .shiftDr, dr := [true, false] } }
        (fun t => t.jtag.tdo && t.jtag.dr == [false, true]) = true
    ∧ after (.jtagTap false true false []) { up with jtag := { up.jtag with tap := .shiftIr, ir := [true, false] } }
        (fun t => t.jtag.tdo && t.jtag.ir == [false, true]) = true := by decide +kernel

/-! ### Power, heat, PACE -/

theorem wit_cap : up.canWrite pgBursar = true ∧ 600 ≤ (600 : W32).toNat % 4096 ∧ (3200 : W32).toNat % 4096 ≤ 3200
    ∧ (599 : W32).toNat % 4096 < 600 ∧ 3200 < (3201 : W32).toNat % 4096 ∧ up.canWrite (pgPace 7) = true
    ∧ after (.capWrite 600) up (fun t => t.bursar.cap == 600 && !t.bursar.capClamped) = true
    ∧ after (.capWrite 3200) up (fun t => t.bursar.cap == 3200 && !t.bursar.capClamped) = true
    ∧ after (.capWrite 599) up (fun t => t.bursar.cap == 600 && t.bursar.capClamped) = true
    ∧ after (.capWrite 3201) up (fun t => t.bursar.cap == 3200 && t.bursar.capClamped) = true
    ∧ after (.paceClear 7 1) (up.modPac 7 fun x => { x with low := 4 }) (fun t => (t.pac 7).low == 0xFFFF) = true := by decide +kernel
theorem wit_share_order :
    after (.shareOrderWrite 0x24) up (fun t => t.bursar.shareOrder == 0x24) = true
    ∧ after (.shareOrderWrite 0x06) up (fun t => t.bursar.shareOrder == 0x06) = true
    ∧ after (.shareOrderWrite 0x25) up (fun t => bit (SMap.get {} t.hdr pgBursar).alarm.toNat 5 && t.bursar.shareOrder == up.bursar.shareOrder) = true := by
  decide +kernel

/-- Ten windows above the cap. -/
def hot : State := { up with bursar := { up.bursar with overWindows := 10, capIn := 1000, measured := 1000, measuredOk := true } }
/-- In Hold, nothing left to clear. -/
def held : State := { hot with bursar := { hot.bursar with hold := true } }
theorem wit_hold : up.boot.stage = 7 ∧ 10 ≤ hot.bursar.overWindows ∧ hot.bursar.hold = false ∧ up.boot.stage ≠ 0
    ∧ after (.powerWindow (some 1050)) hot (fun t => t.bursar.overWindows == 0) = true
    ∧ after (.powerWindow (some 1051)) hot (fun t => t.bursar.overWindows == 11) = true
    ∧ after .holdEnter hot (fun t => t.bursar.hold && t.boot.pwrAlert && t.bursar.holdCount == 1) = true
    ∧ after .regulatorFault up (fun t => t.bursar.hold && !t.bursar.measuredOk) = true := by decide +kernel
theorem wit_release : bit (1 : W32).toNat 0 = true ∧ held.canWrite pgBursar = true ∧ held.bursar.hold = true
    ∧ held.bursar.measuredOk = true ∧ held.bursar.measured.toNat ≤ held.bursar.capIn.toNat ∧ held.irq.holdBits = []
    ∧ ({ held with bursar := { held.bursar with measured := 1001 } } : State).bursar.capIn.toNat < 1001
    ∧ after (.holdRelease 1) held (fun t => !t.bursar.hold && (t.dpow 0).point == 0) = true
    ∧ after (.holdRelease 1) { held with bursar := { held.bursar with measured := 1001 } } (fun t => t.bursar.hold) = true := by
  decide +kernel

theorem wit_gates : up.boot.stage ≠ 0 ∧ up.diePowered 7 = true ∧ (up.dpow 7).droop = false ∧ up.boot.stage = 7
    ∧ after (.droopGateClose 7) up (fun t => (t.dpow 7).droop && (t.dpow 7).droopCount == 1) = true
    ∧ after (.droopGateOpen 7) (up.modDp 7 fun p => { p with droop := true }) (fun t => !(t.dpow 7).droop) = true
    ∧ after (.capGatePeriod 7 40) (up.modDp 7 fun p => { p with duty := 40 }) (fun t => !(t.dpow 7).capOpen) = true
    ∧ after (.capGatePeriod 7 39) (up.modDp 7 fun p => { p with duty := 40 }) (fun t => (t.dpow 7).capOpen) = true
    ∧ after .voltageStep (up.modDp 3 fun p => { p with point := 4, target := 9, allow := 5 }) (fun t => (t.dpow 3).point == 5) = true
    ∧ after .voltageStep (up.modDp 3 fun p => { p with point := 4, target := 9, allow := 3 }) (fun t => (t.dpow 3).point == 3) = true := by
  decide +kernel

/-- Readings of one die, the others cool. -/
def temps (c : Nat) : List Byte := BitVec.ofNat 8 c :: List.replicate 7 40
theorem wit_heat : up.boot.stage = 7 ∧ (List.replicate 24 (40 : Byte)).length = 24
    ∧ after (.thermalCheck (temps 95) (List.replicate 24 40)) up (fun t => (t.dpow 0).throttle && (t.dpow 0).allow == 24) = true
    ∧ after (.thermalCheck (temps 94) (List.replicate 24 40)) up (fun t => !(t.dpow 0).throttle) = true
    ∧ after (.thermalCheck (temps 93) (List.replicate 24 40)) (up.modDp 0 fun p => { p with throttle := true }) (fun t => (t.dpow 0).throttle) = true
    ∧ after (.thermalCheck (temps 92) (List.replicate 24 40)) (up.modDp 0 fun p => { p with throttle := true }) (fun t => !(t.dpow 0).throttle) = true
    ∧ after (.thermalCheck (temps 105) (List.replicate 24 40)) up (fun t => (t.dpow 0).thermDie) = true
    ∧ after (.thermalCheck (temps 99) (List.replicate 24 40)) (up.modDp 0 fun p => { p with thermDie := true }) (fun t => !(t.dpow 0).thermDie) = true := by
  decide +kernel

/-- A hint of context 1 in force. -/
def hinted : State := { up with bursar := { up.bursar with hints := [{ no := 3, ctx := 1, cls := 2, dur := 5, mask := 0xFF, live := 0xFF }] } }
theorem wit_division : hinted.boot.profile = 2 ∧ (∀ d < 8, (hinted.dpow d).allow.toNat ≤ 25)
    ∧ (∃ h ∈ hinted.bursar.hints, h.no = 3) ∧ (booting 6).boot.profile = 2 ∧ (booting 6).boot.stage = 6 ∧ (booting 6).boot.linksDone = true
    ∧ after (.hintExpire 3 1 []) hinted (fun t => t.bursar.hints.isEmpty) = true := by decide +kernel

/-- A window whose rings all count 100 but ring 2 of die 0, which counts 90. -/
def window : WindowIn := ⟨100 :: 100 :: 90 :: List.replicate 29 100, 900, List.replicate 8 50, List.replicate 8 20, 10, 10, [7]⟩
theorem wit_pace_window : window.rings.length = 32 ∧ up.boot.stage = 7
    ∧ after (.paceWindowClose window) up (fun t => (t.pac 0).min == 90 && (t.pac 0).ring == 2 && (t.pac 0).mean == 97 && (t.pac 1).min == 100
        && t.bursar.capIn == up.bursar.cap) = true := by decide +kernel

/-- A HINT of class 2 on dies 0 and 1. -/
def hintCmd : QE := cmd (img [(0x10, 2), (0x14, 50), (0x18, 3)])
theorem wit_hint : ({ dev with sched := { dev.sched with hint := [hintCmd] } } : State).sched.hint.find? (fun q => q.ctx = 1) = some hintCmd
    ∧ fld hintCmd.img 0x10 3 0 < 7
    ∧ after (.hint 1) { dev with sched := { dev.sched with hint := [hintCmd] } } (fun t => (t.bursar.hints.getLast?.map fun h => h.mask) == some 3) = true
    ∧ 100 ≤ ({ up with links := { up.links with lagRun := 100 } } : State).links.lagRun ∧ up.boot.stage = 7
    ∧ after .selfLag { up with links := { up.links with lagRun := 100 } } (fun t => t.links.selfLag) = true := by decide +kernel

/-! ### Links -/

/-- A port UP on all lanes with a filter entry that admits job 7 and context 1. -/
def openPort : Port := { st := .up, lanes := 0xFFFFFFFF, filter := [(0, { valid := true, job := 7, ctx := 1, types := 0xFFFF })] }
/-- The device at (0, 0, 0) of an 8 x 8 x 8 torus with all six ports UP. -/
def linked : State := { dev with
  boot := { dev.boot with dims := 0x777 }, port := [(0, openPort), (1, openPort), (2, openPort), (3, openPort), (4, openPort), (5, openPort)] }
/-- The same with port 5 in another state. -/
def port5 (f : Port → Port) : State := linked.modPort 5 f
/-- The lane map as every lane enabled. -/
def laned : State := (port5 fun x => { x with st := .training, laneMap := 0xFFFFFFFF }).modCell 9 fun c => { c with val := 0xFFFFFFFF, old := 0xFFFFFFFF }

theorem wit_port : linked.canWrite (pgPort 5) = true ∧ 2 ≤ linked.extent (5 / 2) ∧ (laned.prt6 5).st = .training
    ∧ (linked.prt6 5).usable = true ∧ bit (linked.prt6 5).lanes.toNat 31 = true ∧ ((port5 fun x => { x with restripe := true }).prt6 5).restripe = true
    ∧ after (.enablePort 5) (port5 fun x => { x with st := .down }) (fun t => (t.prt6 5).st == .training) = true
    ∧ after (.portTrainingDone 5 0xFFFFFFFF 9) { laned with st := { laned.st with st := 2, req := 4 + 5 * 8 + 3 * 2 ^ 14 } }
        (fun t => (t.prt6 5).lanes == 0xFFFFFFF7 && (t.prt6 5).mayUse == 0xFFFFFFFF && (t.prt6 5).st == .degraded) = true
    ∧ after (.disablePort 5) linked (fun t => (t.prt6 5).st == .down) = true
    ∧ after (.portTrainingDone 5 0xFFFFFFFF 9) laned (fun t => (t.prt6 5).st == .up && (t.prt6 5).peer == 9) = true
    ∧ after (.portTrainingDone 5 0xFFFF 9) laned (fun t => (t.prt6 5).st == .degraded) = true
    ∧ after (.portTrainingDone 5 0x7FFF 9) laned (fun t => (t.prt6 5).st == .down) = true
    ∧ after (.laneFail 5 31) linked (fun t => (t.prt6 5).lanes == 0x7FFFFFFF && (t.prt6 5).st == .degraded) = true
    ∧ after (.laneFail 5 15) (port5 fun x => { x with lanes := 0xFFFF }) (fun t => (t.prt6 5).st == .down) = true := by decide +kernel

/-- A packet to the device above on the Z axis waits on port 4 behind one that is not acknowledged. -/
def upward (n : Nat) : Packet := { pkt 1 n 32 with dst := 0x100 }
def busyUp : State := linked.modPort 4 fun x => { x with txq := [upward 1], replay := [{ lsn := 4, pkt := upward 2, crc := 0 }] }
theorem wit_reroute : (busyUp.prt6 5).st ≠ .down
    ∧ (∀ k ∈ (((busyUp.prt6 4).replay.map (·.pkt) ++ (busyUp.prt6 4).txq).filter fun k => k.ty ≠ 15),
        k.dst ≠ busyUp.devId ∧ busyUp.inTorus k.dst = true ∧ busyUp.nextAxis k.dst = some 2)
    ∧ after (.disablePort 4) busyUp (fun t => (t.prt6 5).txq
        == [{ upward 2 with dateline := true }, { upward 1 with dateline := true }] && (t.prt6 4).replay.isEmpty) = true := by decide +kernel
/-- A packet for another device, one axis on. -/
def passing : Packet := { pkt 5 0 0 with dst := 0x010 }
theorem wit_transit : packetRow 5 passing = some (.collChunk 5 passing) ∧ LinkTakes linked 5 passing ∧ passing.dst ≠ linked.devId
    ∧ linked.route passing.dst (some 5) = some (2, false)
    ∧ after (.collChunk 5 passing) linked (fun t => (t.prt6 2).txq == [passing] && (t.prt6 5).rxNext == 1) = true := by
  unfold LinkTakes; decide +kernel
/-- A packet of a job that no filter entry admits. -/
def stranger (ty : Nat) : Packet := { pkt ty 0 0 with job := 8 }
theorem wit_not_admitted : packetRow 5 (stranger 9) = some (.mirror 5 (stranger 9)) ∧ packetRow 5 (stranger 10) = some (.linkAck 5 (stranger 10))
    ∧ LinkTakes linked 5 (stranger 9) ∧ LinkTakes linked 5 (stranger 10) ∧ (stranger 9).dst = linked.devId ∧ (linked.prt6 5).admits (stranger 9) = false
    ∧ (linked.prt6 5).admits (stranger 10) = false ∧ refusedType 9 = true ∧ refusedType 10 = false
    ∧ linked.remapped 1 ≠ linked.devId ∧ linked.route (linked.remapped 1) = some (0, false)
    ∧ after (.mirror 5 (stranger 9)) linked (fun t => (t.prt6 0).txq.map (fun k => (k.ty, k.aux)) == [(4, 0x0402)]
        && (t.prt6 5).filterDrop == 1) = true
    ∧ after (.linkAck 5 (stranger 10)) linked (fun t => (t.prt6 0).txq.isEmpty && (t.prt6 5).filterDrop == 1) = true := by
  unfold LinkTakes; decide +kernel
def stoppedDev : State := linked.modCtx 1 fun x => { x with st := .stopped }
theorem wit_deaf : packetRow 5 (pkt 8 0 0) = some (.ctrlReduce 5 (pkt 8 0 0)) ∧ LinkTakes stoppedDev 5 (pkt 8 0 0)
    ∧ (stoppedDev.prt6 5).admits (pkt 8 0 0) = true ∧ (stoppedDev.ctx 1).st.deaf = true ∧ LinkTakes stoppedDev 5 (pkt 11 0 0)
    ∧ (stoppedDev.prt6 5).admits (pkt 11 0 0) = true ∧ stoppedDev.remapped 1 ≠ stoppedDev.devId ∧ stoppedDev.route (stoppedDev.remapped 1) = some (0, false)
    ∧ after (.ctrlReduce 5 (pkt 8 0 0)) stoppedDev (fun t => t.links.dropFaulted == 1) = true
    ∧ after (.creditRequest 5 (pkt 11 0 0)) stoppedDev (fun t => (t.prt6 0).txq.map (fun k => (k.ty, k.aux)) == [(4, 0x0202)]) = true := by
  unfold LinkTakes; decide +kernel

/-- A packet to device 1 waits on port 0, with 200 credits on channel 3. -/
def sending : State := linked.modPort 0 fun x => { x with txq := [pkt 1 32 32], used := [(6, 2)], vc := [(3, some { credits := 200, weight := 1 })] }
theorem wit_transmit : (sending.prt6 0).usable = true ∧ (sending.prt6 0).restripe = false ∧ ((sending.prt6 0).pick.map Prod.fst) = some 3
    ∧ (sending.prt6 0).sendable 3 = some (pkt 1 32 32) ∧ ((sending.prt6 0).replay.map fun f => frameBytes f.pkt).sum + frameBytes (pkt 1 32 32) ≤ 262144
    ∧ after (.packetTransmit 0) sending (fun t => (t.prt6 0).txq.isEmpty && (t.prt6 0).wire.length == 1
        && SMap.get 0 (t.prt6 0).used 6 == 2) = true := by decide +kernel
/-- Frame 4 is kept for replay. -/
def kept : State := linked.modPort 0 fun x => { x with replay := [{ lsn := 4, pkt := pkt 1 0 0, crc := 0 }], used := [(6, 3)] }
theorem wit_replay : (kept.prt6 0).usable = true ∧ (∃ f ∈ (kept.prt6 0).replay, seqLe 4 f.lsn = true)
    ∧ after (.linkCreditBlock 0 [(6, 2)] (some 4)) kept (fun t => (t.prt6 0).replay.isEmpty && SMap.get 0 (t.prt6 0).used 6 == 1) = true
    ∧ after (.linkCreditBlock 0 [(6, 2)] (some 3)) kept (fun t => (t.prt6 0).replay.length == 1) = true
    ∧ after (.linkNack 0 4) kept (fun t => (t.prt6 0).wire.length == 1 && (t.prt6 0).crcRetry == 1) = true
    ∧ after (.crcFail 0 9) kept (fun t => (t.prt6 0).nacks == [9]) = true := by decide +kernel

theorem wit_link_registers : linked.canWrite (pgPort 5) = true ∧ linked.canWrite pgLinks = true
    ∧ (linked.ctx linked.sel.lkCtx.toNat).st ≠ .resident
    ∧ ({ linked with sel := { linked.sel with lkCtx := 1 } } : State).canWrite pgLinks = true
    ∧ (({ linked with sel := { linked.sel with lkCtx := 1 } } : State).ctx 1).st = .resident ∧ linked.action pgLinks 0 ≠ 2
    ∧ after (.vcCfgWrite 5 7 (130 + 2 ^ 20)) (port5 fun x => { x with st := .down }) (fun t => ((t.prt6 5).vcOf 7).credits == 130) = true
    ∧ after (.vcCfgWrite 5 7 (129 + 2 ^ 20)) (port5 fun x => { x with st := .down }) (fun t => ((t.prt6 5).vcOf 7).credits != 129) = true
    ∧ after (.vcCfgWrite 5 7 130) (port5 fun x => { x with st := .down }) (fun t => bit (SMap.get {} t.hdr (pgPort 5)).alarm.toNat 5) = true
    ∧ after (.lkCtxRegWrite 0x054 0x123) linked (fun t => (t.lkc 0).jobOrigin == 0x123) = true
    ∧ after (.lkCtxRegWrite 0x058 0x456) linked (fun t => (t.lkc 0).jobExtent == 0x456) = true
    ∧ after (.lkCtxRegWrite 0x064 0x30005) linked (fun t => (t.lkc 0).collqLog == 5 && (t.lkc 0).collSem == 3) = true := by decide +kernel

/-- A packet of a type for context 1 with a target, an auxiliary word and a payload. -/
def pkto (ty : Nat) (target aux : Nat) (l : List Byte) : Packet :=
  { pkt ty 0 l.length with target := BitVec.ofNat 64 target, aux := BitVec.ofNat 64 aux, payload := l }
/-- Semaphore 9 belongs to context 1. -/
def semed : State := linked.modSem 9 fun _ => { owner := 1, valid := true, value := 4 }
/-- A write of two bytes to the last two bytes of page 16 that signals semaphore 9. -/
def toHbm : Packet := pkto 1 (2 + 0x10FFFE * 8192) (2 ^ 14 + 9) [7, 8]
theorem wit_remote_write : Arrives semed 5 toHbm 1 ∧ toHbm.target.toNat % 4 = 2 ∧ toHbm.target.toNat / 8192 = 0x10FFFE
    ∧ semed.hbmCheck toHbm.dstCtx.toNat 0x10FFFE toHbm.payload.length true false = none ∧ semed.guarded 0x10FFFE toHbm.payload.length = false
    ∧ bit toHbm.aux.toNat 14 = true ∧ semed.semOf (toHbm.aux.toNat % 2 ^ 14) toHbm.dstCtx = true
    ∧ after (.linkWrite 5 toHbm) semed (fun t => t.hbm == at_ 0x10FFFE [7, 8] && (t.sem 9).value == 5) = true := by
  unfold Arrives LinkTakes; decide +kernel
def toCluster : Packet := pkto 1 (1 + 0xFFFE * 8192) 0 [7, 8]
theorem wit_remote_cluster : Arrives linked 5 toCluster 1 ∧ toCluster.target.toNat % 4 = 1
    ∧ (0 : ClId) = BitVec.ofNat 11 (bits toCluster.target.toNat 12 2) ∧ 0xFFFE = toCluster.target.toNat / 8192
    ∧ (linked.ctx toCluster.dstCtx.toNat).st = .resident ∧ linked.locCheck toCluster.dstCtx (.clu 0 0xFFFE) toCluster.payload.length true = none
    ∧ bit toCluster.aux.toNat 14 = false
    ∧ after (.linkWrite 5 toCluster) linked (fun t => (t.clu 0).mem == at_ 0xFFFE [7, 8]) = true := by unfold Arrives LinkTakes; decide +kernel
/-- The same while context 1 is OUT, and while cluster 0 is in SERVICE. -/
def outLinked : State := linked.modCtx 1 fun x => { x with st := .out }
def shutLinked : State := linked.modCl 0 fun x => { x with service := true }
theorem wit_remote_waits : Arrives outLinked 5 toCluster 1 ∧ (outLinked.ctx toCluster.dstCtx.toNat).st ≠ .resident
    ∧ after (.linkWrite 5 toCluster) outLinked (fun t => (t.clu 0).mem == [] && (t.prt6 5).rxq == [toCluster]) = true
    ∧ Arrives shutLinked 5 toCluster 1 ∧ shutLinked.cluShut (bits toCluster.target.toNat 12 2) = true
    ∧ after (.linkWrite 5 toCluster) shutLinked (fun t => (t.clu 0).mem == [] && (t.prt6 5).rxq == [toCluster]) = true := by
  unfold Arrives LinkTakes; decide +kernel
/-- Past the end of page 19 the page is not the context's. -/
def toNone : Packet := pkto 1 (2 + 0x13FFFF * 8192) 0 [7, 8]
theorem wit_remote_refused : Arrives linked 5 toNone 1 ∧ toNone.target.toNat % 4 = 2
    ∧ linked.hbmCheck toNone.dstCtx.toNat (toNone.target.toNat / 8192) toNone.payload.length true false = some 0x0006
    ∧ linked.guarded (toNone.target.toNat / 8192) toNone.payload.length = false
    ∧ after (.linkWrite 5 toNone) linked (fun t => t.hbm == []) = true := by unfold Arrives LinkTakes; decide +kernel
/-- Page 32 is the partner reserve. -/
def reserved : State := { linked with sg := { linked.sg with reserveBase := 0x200000, reserveSize := 1 } }
theorem wit_mirror : Arrives reserved 5 (pkto 9 (2 + 0x200000 * 8192) 0 [7]) 9 ∧ (pkto 9 (2 + 0x200000 * 8192) 0 [7]).target.toNat % 4 = 2
    ∧ (pkto 9 (2 + 0x200000 * 8192) 0 [7]).target.toNat / 8192 = 0x200000 ∧ reserved.inReserve 0x200000 1 = true
    ∧ reserved.inReserve 0x210000 1 = false ∧ Arrives reserved 5 (pkto 9 (2 + 0x210000 * 8192) 0 [7]) 9
    ∧ after (.mirror 5 (pkto 9 (2 + 0x200000 * 8192) 0 [7])) reserved (fun t => t.hbm == at_ 0x200000 [7]) = true
    ∧ after (.mirror 5 (pkto 9 (2 + 0x210000 * 8192) 0 [7])) reserved (fun t => t.hbm == []) = true := by unfold Arrives LinkTakes; decide +kernel
theorem wit_reserved_type : (linked.prt6 5).usable = true ∧ (pkt 14 0 0).ty.toNat ∈ [0, 12, 13, 14]
    ∧ after (.reservedPacketDiscard 5 (pkt 14 0 0)) linked (fun t => bit (SMap.get {} t.hdr (pgPort 5)).alarm.toNat 3) = true := by decide +kernel

/-- Cluster 0's DMA engine waits for two packets of command 4. -/
def awaiting (n : Nat) : State := linked.modCl 0 fun x => { x with dwait := true, dleft := n, dq := [{ cmd 0 with seq := 4 }] }
theorem wit_refusal_ack : Arrives linked 5 (pkto 4 0 0x0402 []) 4 ∧ Arrives (awaiting 1) 5 (pkto 10 4 0 []) 10
    ∧ (awaiting 1).ackWaiter (pkto 10 4 0 []).dstCtx ((pkto 10 4 0 []).target.setWidth 32) = some 0
    ∧ after (.refusal 5 (pkto 4 0 0x0402 [])) linked (fun t => (t.ctx 1).st == .scrubbing && (t.ctx 1).lastFault == 0x0402) = true
    ∧ after (.linkAck 5 (pkto 10 4 0 [])) (awaiting 1) (fun t => (t.clu 0).ddone && !(t.clu 0).dwait) = true
    ∧ after (.linkAck 5 (pkto 10 4 0 [])) (awaiting 2) (fun t => !(t.clu 0).ddone && (t.clu 0).dleft == 1) = true := by
  unfold Arrives LinkTakes; decide +kernel

/-- A heartbeat of PACE 94 with flags 3. -/
def beat : Packet := pkto 15 0 0 (List.replicate 4 0 ++ [94, 0, 3, 0] ++ List.replicate 56 0)
/-- The own PACE is 100 and port 5's peer runs a job of this device. -/
def paced : State := { port5 fun x => { x with jobBits := [1], silentRun := 4, peerSilent := true } with
  pace := (List.range 8).map fun d => (d, { min := 100 }) }
theorem wit_heartbeat : beat.ty = 15 ∧ (paced.prt6 5).usable = true ∧ paced.links.loop.head? ≠ some beat ∧ beat.payload.length = 64
    ∧ 100 ≤ ((port5 fun x => { x with lagRun := 100 }).prt6 5).lagRun ∧ ((port5 fun x => { x with lagRun := 100 }).prt6 5).peerLag = false
    ∧ 10 ≤ ((port5 fun x => { x with silentRun := 10 }).prt6 5).silentRun ∧ ((port5 fun x => { x with silentRun := 10 }).prt6 5).peerSilent = false
    ∧ ((port5 fun x => { x with silentRun := 10 }).prt6 5).usable = true
    ∧ after (.heartbeat 5 beat) paced (fun t => (t.prt6 5).lagRun == 1 && !(t.prt6 5).peerSilent && (t.prt6 5).hbLast == 0x3005E) = true
    ∧ after (.peerLag 5) (port5 fun x => { x with lagRun := 100 }) (fun t => (t.prt6 5).peerLag) = true
    ∧ after (.peerSilent 5) (port5 fun x => { x with silentRun := 10, jobBits := [1] }) (fun t => (t.prt6 5).peerSilent) = true := by decide +kernel

/-- Context 1 has a partition of two slots on die 7. -/
def parted : State := linked.modPart 7 1 fun x => { x with valid := true, geo := { size := 100, segs := 3 }, c64 := 5 }
theorem wit_credit : Arrives parted 5 (pkto 11 (7 * 2 ^ 32) 0 []) 11 ∧ bits (pkto 11 (7 * 2 ^ 32) 0 []).target.toNat 34 32 = 7
    ∧ (parted.prt 7 1).valid = true ∧ (parted.prt 7 1).refusing = false ∧ parted.diePowered 7 = true ∧ parted.remapped 1 ≠ parted.devId
    ∧ parted.route (parted.remapped 1) = some (0, false) ∧ Arrives parted 5 (pkto 3 (5 + 7 * 2 ^ 32) 2 []) 3
    ∧ after (.creditRequest 5 (pkto 11 (7 * 2 ^ 32) 0 [])) parted (fun t => (t.prt 7 1).pairs == [(1, 1, 5)] && (t.prt6 0).txq.length == 1) = true
    ∧ after (.creditReturn 5 (pkto 3 (5 + 7 * 2 ^ 32) 2 []))
        (parted.modPart 0 1 fun x => { x with shadow := [{ dev := 1, die := 7, ctx := 1, c := none, slots := 0, segs := 0, mode := 0, k := 0, asked := true }] })
        (fun t => (t.prt 0 1).shadow.map (·.c) == [some 5]) = true := by unfold Arrives LinkTakes; decide +kernel

/-- 32-bit words in a memory. -/
def wordsAt (a : Nat) (l : List (Nat × Nat)) (m : Mem) : Mem := l.foldl (fun m p => Mem.writeN m (a + p.1) 4 p.2) m
/-- An ALL_REDUCE of two BF16 elements over this device alone: source at 0x100100, result at 0x100200. -/
def collMem : Mem := wordsAt 0x100000 [(0, 3), (16, 2), (20, 5), (0x18, 0x100080), (0x20, 0x100200), (40, 9), (44, 1), (48, 0)]
  (wordsAt 0x100080 [(0, 2), (4, 0x100100), (12, 4)] (wordsAt 0x100100 [(0, 0x40003F80)] []))
def collReady : State := { semed with hbm := collMem, lkC := [(1, { collqBase := 0x100000, units := 1 })] }
theorem wit_coll_start : (collReady.lkc 1).units ≠ 0 ∧ (collReady.lkc 1).coll = none ∧ collReady.bursar.hold = false
    ∧ (collReady.ctx 1).st = .resident ∧ collReady.hbmCheck 1 0x100000 128 false false = none
    ∧ (match collReady.parseColl 1 0x100000 with
      | .ok x => (x.op, x.elems, x.n, collReady.collCheck 1 x) == (3, 2, 1, none)
      | .error _ => false) = true
    ∧ after (.collStart 1) collReady (fun t => (t.lkc 1).started == 1 && (t.lkc 1).units == 0 && (t.lkc 1).coll.isSome) = true := by decide +kernel
/-- A collective of two elements over two devices, this one at position 0. -/
def coll2 (op : Nat) : Coll where
  op := op
  wire32 := true
  bidir := false
  srcFmt := 0
  devs := [0, 1]
  pos := 0
  elems := 2
  step := 5
  srcs := [(2, 0x100100, 4)]
  dst := 0x100200
  doneSem := 9
  addend := 3
  number := 6
def colling (x : Coll) : State := { semed with hbm := collMem, lkC := [(1, { coll := some x, units := 1 })] }
/-- Both elements have arrived. -/
def collFull (op : Nat) : Coll := { coll2 op with got := [(0, true), (1, true)], res := [(0, 0x3F800000), (1, 0x40000000)], sent := 2 }
theorem wit_coll_done : ((colling (collFull 3)).lkc 1).coll = some (collFull 3) ∧ (collFull 3).complete = true ∧ (collFull 3).op ≠ 4
    ∧ (collFull 3).dstLoc = .hbm 0x100200 ∧ (colling (collFull 3)).guarded 0x100200 (collFull 3).bytes.length = false
    ∧ (colling (collFull 3)).semOf 9 1 = true ∧ (colling (collFull 3)).hbmCheck 1 0x100200 (collFull 3).bytes.length true false = none
    ∧ (collFull 4).complete = true ∧ (collFull 4).op = 4 ∧ (colling (collFull 4)).semOf 9 1 = true
    ∧ after (.collDone 1) (colling (collFull 3)) (fun t => Mem.readN t.hbm 0x100200 4 == 0x40003F80 && (t.sem 9).value == 7) = true
    ∧ after (.collDone 1) (colling (collFull 4)) (fun t => (t.lkc 1).coll == none && (t.sem 9).value == 7) = true := by decide +kernel
theorem wit_straggler : (colling (coll2 3)).awaited ⟨1, true, false⟩ = some (0, 1) ∧ ((colling (coll2 3)).ctx 1).st = .resident
    ∧ after (.straggler ⟨1, true, false⟩) (colling (coll2 3)) (fun t => (t.ctx 1).lastFault == 0x0401) = true := by decide +kernel
/-- A chunk of element 0: step `i`, chunk `ch`. -/
def chunkOf (i ch : Nat) : Packet := pkto 5 (6 + i * 2 ^ 16) ch (leBytes 4 0x40400000)
theorem wit_chunks : Arrives (colling (coll2 1)) 5 (chunkOf 0 0) 5 ∧ (coll2 1).number = (chunkOf 0 0).target.setWidth 16
    ∧ (chunkOf 0 0).payload.length % 4 = 0 ∧ (coll2 1).op = 1 ∧ bits (chunkOf 0 0).target.toNat 31 16 + 1 < (coll2 1).n
    ∧ (chunkOf 0 0).aux.toNat % 4096 = (coll2 1).pos
    ∧ Arrives (colling (coll2 3)) 5 (chunkOf 1 1) 5 ∧ (coll2 3).op ≠ 4 ∧ (coll2 3).n ≤ bits (chunkOf 1 1).target.toNat 31 16 + 1
    ∧ 2 * (coll2 3).n ≤ bits (chunkOf 1 1).target.toNat 31 16 + 3
    ∧ after (.collChunk 5 (chunkOf 0 0)) (colling (coll2 1)) (fun t => ((t.lkc 1).coll.map fun x => Words.get x.res 0) == some 0x40800000) = true
    ∧ after (.collChunk 5 (chunkOf 1 1)) (colling (coll2 3)) (fun t => ((t.lkc 1).coll.map fun x => Words.get x.res 0) == some 0x40400000) = true := by
  unfold Arrives LinkTakes; decide +kernel
/-- The same over three devices, in a reduce-scatter: this position passes on the partial of element 1 and owns element 0. -/
def coll3 : Coll := { coll2 1 with devs := [0, 1, 2], elems := 3, srcs := [(2, 0x100100, 6)] }
theorem wit_pass : Arrives (colling coll3) 5 (chunkOf 0 1) 5 ∧ coll3.number = (chunkOf 0 1).target.setWidth 16
    ∧ bits (chunkOf 0 1).target.toNat 31 16 + 1 < coll3.n ∧ (chunkOf 0 1).aux.toNat % 4096 ≠ coll3.pos
    ∧ (colling coll3).chunkWaits 1 coll3 true = false ∧ (colling coll3).ownBad coll3 0 1 = none
    ∧ (chunkVals true (chunkOf 0 1).payload).length = 1 ∧ (colling coll3).remapped 1 ≠ (colling coll3).devId
    ∧ (colling coll3).route ((colling coll3).remapped 1) = some (0, false)
    ∧ after (.collChunk 5 (chunkOf 0 1)) (colling coll3) (fun t => ((t.lkc 1).coll.map (·.passed)) == some [(0, true)]
        && (t.prt6 0).txq.map (·.payload) == [leBytes 4 0x40800000]) = true
    ∧ ({ colling coll3 with sg := { up.sg with ueAt := [0x100100] } } : State).ownBad coll3 0 1 = some 0x100100
    ∧ after (.collChunk 5 (chunkOf 0 1)) { colling coll3 with sg := { up.sg with ueAt := [0x100100] } }
        (fun t => (t.ctx 1).lastFault == 0x0501 && ((t.ctx 1).faultRec.map (·.detail)) == some 0x100100) = true
    -- with elements 5 over four devices position 3 owns none, and is not complete until its partials have gone on
    ∧ ({ coll2 1 with devs := [0, 1, 2, 3], pos := 3, elems := 5 } : Coll).complete = false := by
  unfold Arrives LinkTakes; decide +kernel
/-- A control reduction on the Z axis awaits its words. -/
def reducing : State := { linked with lkC := [(1, { jobExtent := 0x111, red := some { axis := 2, sum := false, own := 1, acc := 1 } })] }
theorem wit_ctrl_reduce : Arrives reducing 4 (pkto 8 2 2 []) 8 ∧ reducing.sideFull 1 { axis := 2, sum := false, own := 1, acc := 1 } (reducing.ctlWord 4 (pkto 8 2 2 [])) = false
    ∧ Arrives reducing 5 (pkto 8 2 2 []) 8 ∧ reducing.sideFull 1 { axis := 2, sum := false, own := 1, acc := 1 } (reducing.ctlWord 5 (pkto 8 2 2 [])) = true
    ∧ ((reducing.lkc 1).red.map fun r => (r.axis, r.done)) = some (2, false)
    ∧ (4 : PortId).val / 2 = 2 ∧ (reducing.prt6 4).st ≠ .down ∧ (reducing.prt6 5).st ≠ .down ∧ Arrives linked 5 (pkto 8 2 2 []) 8
    ∧ (linked.lkc 1).red = none
    ∧ after (.ctrlReduce 4 (pkto 8 2 2 [])) reducing (fun t => ((t.lkc 1).red.map fun r => (r.acc, r.done)) == some (3, true)) = true
    ∧ after (.ctrlReduce 5 (pkto 8 2 2 [])) reducing (fun t => ((t.lkc 1).red.map (·.acc)) == some 1 && (t.lkc 1).early == [(true, 2, false, 2)]) = true
    ∧ after (.ctrlReduce 5 (pkto 8 2 2 [])) linked (fun t => (t.lkc 1).early.map (·.2) == [(2, false, 2)]) = true := by unfold Arrives LinkTakes; decide +kernel

/-! ### Contexts and scheduling -/

/-- Context 1 in another state, selected. -/
def ctxIn (f : Ctx → Ctx) : State := { dev with sel := { dev.sel with csCtx := 1 } }.modCtx 1 f
/-- The descriptor of cluster 0 stands at 0x200000: 16 Till entries, memory of 128 KiB, no Vault. -/
def tabled : State := { ctxIn fun x => { x with st := .stopped, cltabBase := 0x200000 } with
  hbm := wordsAt 0x200000 [(0, 0x08000000), (4, 0x04000000), (8, 0x10000)] [] }

theorem wit_ctx_commands : (ctxIn fun _ => {}).canWrite pgClear = true ∧ ((ctxIn fun _ => {}).ctx (ctxIn fun _ => {}).sel.csCtx.toNat).st = .unused
    ∧ (tabled.ctx tabled.sel.csCtx.toNat).st = .stopped ∧ tabled.action pgClear 0 ≠ 2 ∧ tabled.startErr 1 = 0
    ∧ ({ tabled with hbm := [] } : State).startErr 1 = 4
    ∧ after .ctxCreate (ctxIn fun _ => {}) (fun t => (t.ctx 1).st == .stopped) = true
    ∧ after .ctxStart tabled (fun t => (t.ctx 1).st == .out && (t.ctx 1).cltab == [{ cl := 0, tillLog := 4, memSize := 1024, vaultStacks := 1 }]) = true
    ∧ after .ctxStart { tabled with hbm := [] } (fun t => (t.ctx 1).st == .stopped && (t.ctx 1).cmdReject && (t.ctx 1).startErr == 4) = true
    ∧ after .ctxStop (ctxIn id) (fun t => (t.ctx 1).st == .resident && (t.ctx 1).stopReq) = true
    ∧ after .ctxStop (ctxIn fun x => { x with st := .out }) (fun t => (t.ctx 1).st == .stopped) = true
    ∧ after .ctxReset (ctxIn fun x => { x with st := .faulted }) (fun t => (t.ctx 1).st == .stopped) = true
    ∧ after .ctxReset (ctxIn id) (fun t => (t.ctx 1).st == .resident && (t.ctx 1).cmdReject) = true
    ∧ after .ctxDestroy (ctxIn fun x => { x with st := .stopped }) (fun t => (t.ctx 1).st == .unused) = true := by decide +kernel

theorem wit_definitions : (tabled.ctx tabled.sel.csCtx.toNat).st = .stopped ∧ 0x04C ≤ (0x074 : BitVec 12).toNat
    ∧ ((ctxIn id).ctx (ctxIn id).sel.csCtx.toNat).st = .resident ∧ (ctxIn id).action pgClear 0 ≠ 2
    ∧ dev.canWrite (pgDoor 1) = true ∧ (dev.ctx 1).st ≠ .unused ∧ dev.action pgClear 3 ≠ 2 ∧ (∀ k ∈ dev.sched.sync, k.waiting = false)
    ∧ after (.ctxDefinitionWrite 0x04C 0x7002A) tabled (fun t => (t.ctx 1).priority == 10 && (t.ctx 1).exclusive && !(t.ctx 1).legacy && (t.ctx 1).job == 7) = true
    ∧ after (.ctxDefinitionWrite 0x058 0x1006) tabled (fun t => (t.ctx 1).ringN == 6 && (t.ctx 1).ringM == 16) = true
    ∧ after (.ctxDefinitionWrite 0x058 0x1106) tabled (fun t => bit (SMap.get {} t.hdr pgClear).alarm.toNat 0) = true
    ∧ after (.ctxDefinitionWrite 0x074 1) (ctxIn id) (fun t => bit (SMap.get {} t.hdr pgClear).alarm.toNat 0) = true
    ∧ after (.dbTailWrite 1 64) dev (fun t => (t.ctx 1).tail == 64) = true
    ∧ after (.dbTailWrite 1 65) dev (fun t => (t.ctx 1).tail == 0 && bit (SMap.get {} t.hdr (pgDoor 1)).alarm.toNat 0) = true
    ∧ after (.cplHeadWrite 1 3) (ctxIn fun x => { x with cplWritten := 3 }) (fun t => (t.ctx 1).cplHead == 3) = true
    ∧ after (.cplHeadWrite 1 4) (ctxIn fun x => { x with cplWritten := 3 }) (fun t => (t.ctx 1).cplHead == 0) = true
    ∧ after (.semOwnerWrite 0x1005) dev (fun t => (t.sem 0).owner == 5 && (t.sem 0).valid) = true := by decide +kernel
/-- Page 17 is selected, and its last byte is not zero. -/
def paged : State := { ctxIn fun x => { x with st := .out } with sel := { dev.sel with pot := 33 }, pot := [(33, 0x1001)], hbm := [(0x21FFFF, 9)] }
theorem wit_pages : paged.settable paged.sel.pot.toNat = true ∧ paged.ownerHeld 33 0x1002 = false
    ∧ (paged.modCtx 1 fun x => { x with st := .resident }).ownerHeld 33 0x1002 = true
    ∧ after (.potDataWrite 0x1002) paged (fun t => t.page 33 == 0x1002 && t.hbm == []) = true
    ∧ after (.potDataWrite 0x3001) paged (fun t => t.page 33 == 0x3001 && t.hbm == paged.hbm) = true
    ∧ after (.potDataWrite 0x1002) (paged.modCtx 1 fun x => { x with st := .resident })
        (fun t => t.page 33 == 0x1001 && bit (SMap.get {} t.hdr pgClear).alarm.toNat 3) = true
    ∧ after (.potDataWrite 0x1002) { paged with sel := { dev.sel with pot := 31 } } (fun t => t.pot == paged.pot) = true := by decide +kernel

/-- Command 1 of the ring: a CKPT. -/
def ring1 (i : Image) : List (Nat × Byte) := (List.range 64).map fun k => (0x1040 + k, BitVec.ofNat 8 (i.toNat / 256 ^ k))
def rung : State := dev.modCtx 1 fun x => { x with tail := 1 }
theorem wit_accept : (rung.ctx 1).st = .resident ∧ seqLt (rung.ctx 1).acceptSeq (rung.ctx 1).tail = true ∧ rung.sched.tokens < 65536
    ∧ rung.boot.hostUp = true
    ∧ after (.commandAccept 1 (ring1 (img [(0, 1), (4, 10), (0x10, 1)]))) rung
        (fun t => (t.ctx 1).acceptSeq == 1 && t.sched.tokens == 1 && ((t.ctx 1).flight.map (·.phase)) == [.queued]) = true
    ∧ after (.commandAccept 1 (ring1 (img [(0, 2), (4, 10), (0x10, 1)]))) rung (fun t => (t.ctx 1).lastFault == 5) = true
    ∧ after (.commandAccept 1 (ring1 (img [(0, 1), (4, 10), (0x10, 3)]))) rung (fun t => (t.ctx 1).lastFault == 1) = true
    ∧ after (.commandAccept 1 (ring1 (img [(0, 1), (4, 10), (0x10, 1), (0x3C, 1)]))) rung (fun t => (t.ctx 1).lastFault == 1) = true := by
  decide +kernel

/-- A command queued in a context, accepted as number `acc` of the device. -/
def queued (i : Image) (acc : Nat) : Ctx := { ctx1 with acceptSeq := 1, flight := [{ seq := 1, img := i, phase := .queued, acc := acc }] }
/-- A COPY of cluster 0. -/
def copyImg : Image := img [(0, 1), (4, 4)]
/-- Contexts 1 and 2 each have a COPY for cluster 0. -/
def race : State := { dev with ctxs := [(1, queued copyImg 5), (2, queued copyImg 4)] }
theorem wit_dispatch : race.slotOpen (.dma 0) = true
    ∧ (race.heads (.dma 0)).map (fun p => (p.1, p.2.acc)) = [(1, 5), (2, 4)]
    ∧ race.eff 1 = race.eff 2 ∧ race.dispatchFault 2 { seq := 1, img := copyImg, phase := .queued, acc := 4 } = none
    ∧ after (.commandDispatch (.dma 0)) race (fun t => (t.clu 0).dq.map (·.ctx) == [2] && ((t.ctx 2).flight.map (·.phase)) == [.dispatched]) = true
    ∧ after (.commandDispatch (.dma 0)) (race.modCtx 1 fun x => { x with priority := 1 }) (fun t => (t.clu 0).dq.map (·.ctx) == [1]) = true
    ∧ after (.commandDispatch (.dma 0)) (race.modCtx 2 fun x => { x with cltab := [] }) (fun t => (t.ctx 2).lastFault == 4 && (t.ctx 2).st == .scrubbing) = true := by
  decide +kernel

/-- Command 1 of context 1 is in flight on an engine of cluster 0. -/
def inFlight (i : Image) (f : Cluster → QE → Cluster) : State :=
  ({ dev with ctxs := [(1, fly [(1, i)])], sched := { dev.sched with tokens := 1 } }).modCl 0 fun x =>
    f x { ctx := 1, seq := 1, img := i, issued := false, acc := 0 }
/-- A command of a class that asks for a record and an interrupt. -/
def noted (cls : Nat) : Image := img [(0, 1), (4, cls + 0x30)]
def mxDone : State := inFlight (noted 1) fun x q => { x with mq := [{ q := q, done := true }] }
def vecDone : State := inFlight (noted 2) fun x q => { x with vq := [q], vrun := some { done := true } }
def dmaDone : State := inFlight (noted 4) fun x q => { x with dq := [q], ddone := true }
def telOf (q : QE) : Tel := { q := q, regs := [], pc := 0, budget := 10 }
def telDone : State := inFlight (noted 3) fun x q => { x with tel := some { telOf q with ended := true } }
theorem wit_complete : ((mxDone.clu 0).mq[0]?).map (fun m => (m.done, cRelease m.q.img, (mxDone.ctx m.q.ctx.toNat).st)) = some (true, false, .resident)
    ∧ ((vecDone.clu 0).vrun.map (·.done)) = some true ∧ ((vecDone.clu 0).vq.map (·.ctx)) = [1] ∧ (vecDone.clu 0).tally = []
    ∧ (dmaDone.clu 0).ddone = true ∧ ((dmaDone.clu 0).dq.map (·.ctx)) = [1]
    ∧ ((telDone.clu 0).tel.map (·.ended)) = some true ∧ ((List.range 3).map fun n => (telDone.clu 0).issued 1 1 n) = [0, 0, 0]
    ∧ after (.commandComplete (.matrix 0) 0) mxDone (fun t => (t.clu 0).mq == [] && t.sched.tokens == 0 && (t.ctx 1).completeSeq == 1
        && ((t.ctx 1).recs.map fun r => (r.cmd, r.irq)) == [(1, true)]) = true
    ∧ after (.commandComplete (.vector 0) 0) vecDone (fun t => (t.clu 0).vq == [] && (t.clu 0).vrun == none && t.sched.tokens == 0) = true
    ∧ after (.commandComplete (.dma 0) 0) dmaDone (fun t => (t.clu 0).dq == [] && !(t.clu 0).ddone && t.sched.tokens == 0) = true
    ∧ after (.commandComplete (.teller 0) 0) telDone (fun t => (t.clu 0).tel == none && t.sched.tokens == 0) = true := by decide +kernel
/-- A record waits, and the ring of 64 holds `n` that the host has not read. -/
def recWaits (n : Nat) : State := ctxIn fun x =>
  { x with recs := [{ cmd := 9, kind := 0, code := 0, unit := 3, detail := 0x11, time := 5, irq := true }], cplWritten := BitVec.ofNat 32 n }
theorem wit_record : ((recWaits 63).ctx 1).recs.length = 1
    ∧ (((recWaits 63).ctx 1).cplWritten - ((recWaits 63).ctx 1).cplHead).toNat < 2 ^ ((recWaits 63).ctx 1).ringM.toNat ∧ (recWaits 63).boot.hostUp = true
    ∧ after (.completionRecordWrite 1) (recWaits 63) (fun t => Mem.readN t.host 0x2000 8 == 64 + 9 * 2 ^ 32 && Mem.readN t.host 0x200C 4 == 0x30000
        && (t.ctx 1).cplWritten == 64 && (t.vec 1).pend) = true
    ∧ after (.completionRecordWrite 1) (recWaits 64) (fun t => t.host == [] && (t.ctx 1).recs.length == 1) = true := by decide +kernel

/-- A SYNC of context 1 in the scheduler, command 2 after a command in flight or complete. -/
def syncing (op : Nat) (l : List (Nat × Nat)) (w : Bool) (value : Nat) : State :=
  let i := img ([(0, 2), (4, 7), (0x10, op), (0x14, 9)] ++ l)
  { (semed.modSem 9 fun x => { x with value := BitVec.ofNat 32 value }) with
    ctxs := [(1, { fly [(2, i)] with acceptSeq := 2, completeSeq := 1 })]
    sched := { dev.sched with tokens := 1, sync := [{ q := { ctx := 1, seq := 2, img := i, issued := false, acc := 0 }, waiting := w, age := 0 }] } }
theorem wit_sync : ((syncing 8 [(0x18, 3)] false 4).syncHead 1 0).isSome = true ∧ ((syncing 8 [(0x18, 3)] false 4).ctx 1).completeSeq = 2 - 1
    ∧ ((syncing 8 [(0x18, 3)] false 4).sem 9).owner = 1
    ∧ ((syncing 1 [(0x18, 5)] true 5).sched.sync.map fun k => (syncing 1 [(0x18, 5)] true 5).syncMet k.q) = [true]
    ∧ after (.signal 1) (syncing 8 [(0x18, 3)] false 4) (fun t => (t.sem 9).value == 7 && t.sched.sync.isEmpty && (t.ctx 1).completeSeq == 2) = true
    ∧ after (.waitGe 1) (syncing 1 [(0x18, 5)] false 5) (fun t => t.sched.sync.isEmpty && (t.ctx 1).completeSeq == 2) = true
    ∧ after (.waitGe 1) (syncing 1 [(0x18, 5)] false 4) (fun t => t.sched.sync.map (·.waiting) == [true]) = true
    ∧ after (.waitGe 1) (syncing 1 [(0x18, 0xFFFFFFFF)] false 0x7FFFFFFE) (fun t => t.sched.sync.isEmpty) = true
    ∧ after (.waitCmd 1) (syncing 2 [(0x1C, 1)] false 4) (fun t => t.sched.sync.isEmpty) = true
    ∧ after (.waitCmd 1) (syncing 2 [(0x1C, 2)] false 4) (fun t => t.sched.sync.map (·.waiting) == [true]) = true
    ∧ after (.syncWaitSatisfied 1 2) (syncing 1 [(0x18, 5)] true 5) (fun t => t.sched.sync.isEmpty && t.sched.tokens == 0) = true := by decide +kernel
/-- EVAL BEGIN or END, command 2. -/
def evaling (b : Nat) : State :=
  let i := img [(0, 2), (4, 12), (0x10, b)]
  { dev with ctxs := [(1, { fly [(2, i)] with acceptSeq := 2, completeSeq := 1 })]
             sched := { dev.sched with tokens := 1, eval := [{ ctx := 1, seq := 2, img := i, issued := false, acc := 0 }] } }
theorem wit_eval : ((evaling 1).evalHead 1 true).isSome = true ∧ ((evaling 0).evalHead 1 false).isSome = true
    ∧ ((evaling 0).ctx 1).completeSeq = 2 - 1
    ∧ after (.evalBegin 1) (evaling 1) (fun t => t.sched.eval.isEmpty && (t.ctx 1).evalOpen) = true
    ∧ after (.evalEnd 1) (evaling 0) (fun t => t.sched.eval.isEmpty && !(t.ctx 1).evalOpen) = true := by decide +kernel
/-- CHEAP with its live set in the last 128 bytes of the owned memory. -/
def cheaping : State :=
  let i := img [(0, 1), (4, 9), (0x10, 1023)]
  { inFlight i fun x _ => { x with mem := at_ 0x1FF80 [5, 6] } with
    sched := { dev.sched with tokens := 1, cheap := [{ ctx := 1, seq := 1, img := i, issued := false, acc := 0 }] } }
theorem wit_cheap : ((cheaping.ctx 1).earlier 1) = [] ∧ cheaping.ownsIn 1 0 (1023 * 128) 128 = true
    ∧ after (.cheap 1 0) cheaping (fun t => ((t.clu 0).pc 1).cheap && ((t.clu 0).pc 1).live == 0x605 && t.sched.cheap.isEmpty) = true := by decide +kernel

/-- Context 1 OUT with a command waiting in its ring. -/
def waitingOut : State := ctxIn fun x => { x with st := .out, tail := 1 }
/-- Context 1 asked to leave, at a cheap point of its one cluster. -/
def leaving (b : Bool) : State := (ctxIn fun x => { x with preemptReq := true }).modCl 0 fun x => x.modPc 1 fun y => { y with cheap := b }
/-- Pages 32 to 43, for save areas, are context 1's. -/
def areas (s : State) : State := { s with pot := (List.range 12).map fun i => (32 + i, 0x1001) }
/-- Context 1 saves. -/
def saving (b : Bool) : State := (areas (ctxIn fun x => { x with
    st := .saving, stopReq := b, forced := !b, cltab := [{ desc0 with save := 0x200000 }], saveBase := 0x2B0000 })).modCl 0 fun x =>
  { x.modPc 1 (fun y => { y with live := (1023 + 65536) * 2 ^ 640 }) with dq := [{ cmd copyImg with ctx := 2 }, cmd copyImg], mem := [(0x1FFFF, 9), (0x20000, 8)] }
/-- Context 1 waits on a semaphore; context 2 is OUT with work. -/
def stuck : State := { syncing 1 [(0x18, 5)] true 4 with
  ctxs := [(1, { fly [(2, img [(0, 2), (4, 7), (0x10, 1), (0x14, 9), (0x18, 5)])] with acceptSeq := 2, completeSeq := 1, tail := 2 })
         , (2, { ctx1 with st := .out, tail := 1 })] }
theorem wit_swap : waitingOut.runnable 1 = true ∧ waitingOut.hasWork 1 = true ∧ waitingOut.outranked 1 = false ∧ waitingOut.wayFree 1 = true
    ∧ ((ctxIn fun x => { x with st := .loading }).ctx 1).cltab.all (fun d => ((ctxIn fun x => { x with st := .loading }).clu d.cl.toNat).canRejoin
        (((ctxIn fun x => { x with st := .loading }).ctx 1).savedOf d.cl)) = true
    ∧ (leaving true).meetsTest 1 = false ∧ (leaving true).atCheap 1 = true ∧ (leaving false).atCheap 1 = false ∧ (leaving false).action pgClear 2 ≠ 2
    ∧ (saving true).copyOut 1 = false ∧ (saving true).collHolds 1 = false ∧ (saving true).rangesFault 1 ((saving true).saveRanges 1) true = none
    ∧ ((saving true).saveRanges 1).all (fun r => !(saving true).guarded r.1 r.2) = true
    ∧ (ctxIn fun x => { x with st := .loading }).rangesFault 1 ((ctxIn fun x => { x with st := .loading }).loadRanges 1) false = none
    ∧ after (.swapIn 1) waitingOut (fun t => (t.ctx 1).st == .loading) = true
    ∧ after (.swapInDone 1) (ctxIn fun x => { x with st := .loading }) (fun t => (t.ctx 1).st == .resident && ((t.ctx 1).recs.map (·.code)) == [2]) = true
    ∧ after (.cheapPointSave 1) (leaving true) (fun t => (t.ctx 1).st == .saving && (t.ctx 1).forcedSaves == 0) = true
    ∧ after (.preemptTimeout 1) (leaving false) (fun t => (t.ctx 1).st == .saving && (t.ctx 1).forcedSaves == 1) = true
    ∧ after (.saveDone 1) (saving false) (fun t => (t.ctx 1).st == .out && ((t.ctx 1).recs.map (·.code)) == [3, 1] && ((t.clu 0).dq.map (·.ctx)) == [2]) = true
    ∧ after (.saveDone 1) (saving true) (fun t => (t.ctx 1).st == .stopped && (t.ctx 1).recs == [] && Mem.readN t.hbm 0x2ABFFF 2 == 9
        && (t.clu 0).mem == [(0x20000, 8)]) = true
    ∧ after (.saveDone 1) { saving true with pot := [] } (fun t => (t.ctx 1).lastFault == 6) = true := by decide +kernel
theorem wit_eviction : stuck.longest ((stuck.ctxs.filter fun p => p.2.st = .resident).map Prod.fst) = some 1 ∧ stuck.blocked 1 = true
    ∧ (stuck.ctxs.any fun p => stuck.runnable p.1 && stuck.hasWork p.1) = true ∧ stuck.meetsTest 1 = false
    ∧ after .eviction stuck (fun t => (t.ctx 1).st == .saving && (t.ctx 1).evictedSync) = true := by decide +kernel

theorem wit_faults : (race.ctx 1).st = .resident
    ∧ ((ctxIn fun x => { x with st := .scrubbing, faultRec := some ⟨1, 1, 3, 0, 0, 0, false⟩ }).ctx 1).faultRec = some ⟨1, 1, 3, 0, 0, 0, false⟩
    ∧ after (.contextFault 1 3 0x44 1 0xFFFF) race (fun t => (t.ctx 1).st == .scrubbing && (t.ctx 2).st == .resident && (t.ctx 1).flight == []) = true
    ∧ after (.scrubDone 1) ((ctxIn fun x => { x with st := .scrubbing, acceptSeq := 4, faultRec := some ⟨1, 1, 3, 0, 0, 0, false⟩ }).modCl 0 fun x =>
        { x with mem := [(0x1FFFF, 1), (0x20000, 2)] })
        (fun t => (t.ctx 1).st == .faulted && (t.ctx 1).completeSeq == 4 && (t.clu 0).mem == [(0x20000, 2)]) = true := by decide +kernel
/-! ### Step closes and the Census -/

/-- A STEP_CLOSE of step 7 with the overflow word at byte 256 of cluster 0, its number 2, in the scheduler. -/
def closing (step : Nat) : State :=
  let i := img [(0, 2), (4, 7), (8, step), (0x10, 3), (0x20, 0x10002)]
  { dev with ctxs := [(1, { fly [(2, i)] with acceptSeq := 2, completeSeq := 1 })], num := [(1, { step := 7, e := 3, eMin := 2, clean := 1999 })]
             sched := { dev.sched with tokens := 1, sync := [{ q := { ctx := 1, seq := 2, img := i, issued := false, acc := 0 }, waiting := false, age := 0 }] } }
/-- The close in a phase. -/
def closed (ph : ClosePhase) (ep : Bool) : State :=
  (closing 7).modNum 1 fun x => { x with close := some { seq := 2, step := 7, phase := ph, word := false, ovf := false, epoch := ep } }
/-- The job's OR of context 1 has ended. -/
def agreed (w : W32) (e : Byte) : State :=
  ((closed .quiesced false).modLkc 1 fun x => { x with red := some { axis := 2, sum := false, own := w, acc := w, done := true } }).modNum 1 fun x => { x with e := e }
/-- A close agreed, its epoch due, the flash tier active. -/
def tiered (ph : ClosePhase) : State := { closed ph true with sg := { tierActive := 2 } }
theorem wit_close : ((closing 7).syncHead 1 3).isSome = true ∧ ((closing 7).nums 1).close = none ∧ ((closing 7).ctx 1).st = .resident
    ∧ (closing 7).locCheck 1 (.clu 0 256) 4 false = none ∧ ((closing 7).sched.sync.map fun k => (cStep k.q.img, ovfWord k.q.img)) = [(7, some (0, 256))]
    ∧ ((closing 8).sched.sync.map fun k => cStep k.q.img) = [8]
    ∧ after (.stepClose 1) (closing 7) (fun t => (t.nums 1).close.isSome && t.sched.sync.map (·.waiting) == [true]) = true
    ∧ after (.stepClose 1) (closing 8) (fun t => (t.ctx 1).lastFault == 0x0E) = true := by decide +kernel
theorem wit_quiesce : ((closed .issued false).nums 1).close.map (fun r => (r.phase, (closed .issued false).updatesPending 1 r)) = some (.issued, false)
    ∧ (closed .issued false).bursar.hold = false ∧ ((List.range 3).map fun a => (closed .issued false).boxExt ((closed .issued false).lkc 1) a) = [1, 1, 1]
    ∧ ((List.range 3).map fun a => (closed .issued false).boxIdx ((closed .issued false).lkc 1) a) = [0, 0, 0] ∧ ((closed .issued false).lkc 1).early = []
    ∧ after (.localQuiesce 1) ((closed .issued false).modCl 0 fun x => { x with mem := [(259, 1)] })
        (fun t => ((t.lkc 1).red.map fun d => (d.acc, d.done)) == some (1, true)) = true
    ∧ after (.localQuiesce 1) (closed .issued false) (fun t => ((t.lkc 1).red.map (·.acc)) == some 0) = true := by decide +kernel
theorem wit_agreement : (((agreed 1 3).nums 1).close.map (·.phase)) = some .quiesced ∧ (((agreed 1 3).lkc 1).red.map (·.done)) = some true
    ∧ (agreed 1 3).action pgNumerics 1 ≠ 2
    ∧ after (.jobAgreement 1) (agreed 1 3) (fun t => (t.nums 1).e == 2 && (t.nums 1).ePrev == 3 && (t.nums 1).clean == 0 && (t.nums 1).ovfCount == 1) = true
    ∧ after (.jobAgreement 1) (agreed 1 2) (fun t => (t.nums 1).e == 2 && bit (SMap.get {} t.hdr pgNumerics).alarm.toNat 1) = true
    ∧ after (.jobAgreement 1) (agreed 0 3) (fun t => (t.nums 1).e == 4 && (t.nums 1).ePrev == 3 && (t.nums 1).clean == 0) = true
    ∧ after (.jobAgreement 1) (agreed 2 32) (fun t => (t.nums 1).e == 32 && ((t.nums 1).close.map (·.epoch)) == some true) = true := by decide +kernel
theorem wit_advance : (tiered .agreed).sg.tierActive = 2 ∧ (((closed .agreed true).nums 1).close.map (·.phase)) = some .agreed ∧ ((closed .agreed true).sgc 1).delta = none
    ∧ ((closed .agreed true).sgc 1).epoch = none ∧ (closed .agreed true).unitOn 2 = true
    ∧ after (.stepAdvance 1) (closed .agreed false) (fun t => (t.nums 1).step == 8 && (t.ctx 1).completeSeq == 2) = true
    ∧ after (.stepAdvance 1) ((tiered .agreed).modSgc 1 fun x => { x with valid := true, due := true })
        (fun t => ((t.sgc 1).epoch.map (·.step)) == some 7 && !(t.sgc 1).due) = true := by decide +kernel

/-- Counters of context 1 on die 0, class 2; the area of context 1 at page 17. -/
def counted : State := { ctxIn fun x => { x with st := .out } with
  sel := { dev.sel with nuCtx := 1 }, num := [(1, { censusBase := 0x110000 })], hbm := [(0x110200, 255)]
  census := [(censusKey 0 1 2 0 0, 1), (censusKey 0 2 2 0 0, 9)] }
theorem wit_census : ((counted.nums 1).censusBase ≠ 0) ∧ counted.canWrite pgNumerics = true ∧ (counted.ctx counted.sel.nuCtx.toNat).st ≠ .resident
    ∧ counted.ownsArea 1 0x110000 4096 = true ∧ counted.ownsArea 1 0x140000 4096 = false ∧ counted.action pgNumerics 3 ≠ 2 ∧ counted.action pgNumerics 0 ≠ 2
    ∧ ((counted.modNum 1 fun x => { x with flushBusy := true }).nums 1).flushBusy = true
    ∧ after (.censusCounterSpill 0 1 2) counted (fun t => Mem.readN t.hbm 0x110200 8 == 256 && t.census == [(censusKey 0 2 2 0 0, 9)]) = true
    ∧ after (.censusFlush 1) counted (fun t => Mem.readN t.hbm 0x110200 8 == 256 && (t.nums 1).flushBusy) = true
    ∧ after (.censusFlushDone 1) (counted.modNum 1 fun x => { x with flushBusy := true }) (fun t => !(t.nums 1).flushBusy) = true
    ∧ after (.censusBaseLoWrite 0x120FFF) counted (fun t => (t.nums 1).censusLo == some 0x120000 && (t.nums 1).censusBase == 0x110000) = true
    ∧ after (.censusBaseHiWrite 0) (counted.modNum 1 fun x => { x with censusLo := some 0x120000 }) (fun t => (t.nums 1).censusBase == 0x120000) = true
    ∧ after (.censusBaseHiWrite 0) (counted.modNum 1 fun x => { x with censusLo := some 0x140000 })
        (fun t => (t.nums 1).censusBase == 0x110000 && bit (SMap.get {} t.hdr pgNumerics).alarm.toNat 3) = true := by decide +kernel
theorem wit_loss_scale : (counted.modCtx 1 fun x => { x with st := .resident }).isIn 1 = true
    ∧ after (.lsStateWrite 0x00050302) counted (fun t => (t.nums 1).e == 2 && (t.nums 1).ePrev == 3 && (t.nums 1).clean == 5) = true
    ∧ after (.lsStepWrite 0xFFFFFFFF) counted (fun t => (t.nums 1).step == 0xFFFFFFFF) = true
    ∧ after (.lsStepWrite 9) (counted.modCtx 1 fun x => { x with st := .resident })
        (fun t => (t.nums 1).step == 0 && bit (SMap.get {} t.hdr pgNumerics).alarm.toNat 0) = true := by decide +kernel

/-! ### Touchstone and Escrow -/

/-- 1.0 and 2.0 in FP32. -/
def f1 : W32 := 0x3F800000
def f2 : W32 := 0x40000000
/-- A TOUCH command of an operation, on die 0. -/
def touching (op step : Nat) (l : List (Nat × Nat)) : State :=
  let i := img ([(0, 1), (4, 5), (8, step), (0x10, op)] ++ l)
  { linked with ctxs := [(1, fly [(1, i)])], sched := { dev.sched with tokens := 1 }, num := [(1, { step := 7, e := 3, ePrev := 0xFF })]
                td := [(0, { tq := [{ ctx := 1, seq := 1, img := i, issued := false, acc := 0 }] })] }
/-- TEACHER for tokens 5 to 20 of die 1 of a device. -/
def teaching (d : Nat) : State := touching 1 0 [(0x14, d + 0x1000 + 0x20000), (0x18, 5), (0x1C, 16), (0x20, 0x3F800000)]
/-- STUDENT with 64 tokens: LABEL at 128 × 1022, LOSS at 0. -/
def studying (label : Nat) : State := touching 2 0 [(0x1C, 64), (0x20, 0x3F800000), (0x2C, label)]
theorem wit_touch : ((teaching 0).touchHead 0 1).isSome = true ∧ ((teaching 0).tdie 0).tq.map (fun q => (teacherOf q.img).dev) = [(teaching 0).devId]
    ∧ ((teaching 1).tdie 0).tq.map (fun q => ((teacherOf q.img).dev, (teacherOf q.img).ctx)) = [(1, 2)] ∧ (teaching 1).remapped 1 = 1
    ∧ (teaching 1).route 1 = some (0, false) ∧ ((teaching 1).prt 0 1).shadowOf 1 1 2 = none
    ∧ ((studying 1022).tdie 0).tq.map (fun q => (studying 1022).vectorsOk q.ctx (studentOf q.img)) = [true]
    ∧ ((studying 1023).tdie 0).tq.map (fun q => (studying 1023).vectorsOk q.ctx (studentOf q.img)) = [false]
    ∧ after (.teacher 0) (teaching 0) (fun t => ((t.prt 0 1).teacher.map fun o => (o.2.die, o.2.count)) == [(1, 16)] && (t.tdie 0).tq.isEmpty
        && (t.ctx 1).completeSeq == 1) = true
    ∧ after (.teacher 0) (teaching 1) (fun t => ((t.prt6 0).txq.map fun k => (k.ty, k.dst, k.dstCtx)) == [(11, 1, 2)]) = true
    ∧ after (.student 0) (studying 1022) (fun t => ((t.prt 0 1).student.map fun o => (o.2.label, o.2.loss)) == [(0x1FF00, 0)]) = true
    ∧ after (.student 0) (studying 1023) (fun t => (t.ctx 1).lastFault == 3) = true := by decide +kernel
theorem wit_gradient : ((touching 3 7 []).touchHead 0 3).isSome = true ∧ (((touching 3 7 []).nums 1).step, ((touching 3 7 []).nums 1).e) = (7, 3)
    ∧ (5 : W32) ≠ ((touching 3 5 []).nums 1).step - 1 ∧ 2 ^ 31 ≤ (5 - ((touching 3 5 []).nums 1).step).toNat ∧ (8 - ((touching 3 8 []).nums 1).step).toNat < 2 ^ 31
    ∧ ((touching 4 0 []).touchHead 0 4).isSome = true ∧ ((touching 5 0 []).touchHead 0 5).isSome = true
    ∧ after (.gradient 0) (touching 3 7 [(0x20, 0x3F800000)]) (fun t => ((t.prt 0 1).grad.map fun o => o.2.g) == [0x41000000]) = true
    ∧ after (.gradient 0) (touching 3 6 [(0x20, 0x3F800000)]) (fun t => ((t.prt 0 1).grad.map fun o => o.2.g) == [0x3F000000]) = true
    ∧ after (.gradient 0) (touching 3 8 []) (fun t => t == touching 3 8 []) = true
    ∧ after (.gradient 0) (touching 3 5 []) (fun t => (t.ctx 1).lastFault == 0x0E) = true
    ∧ after (.featureLoss 0) (touching 4 0 [(0x10, 0x40), (0x20, 7)]) (fun t => ((t.prt 0 1).feat.map fun o => o.2.w) == [7]) = true
    ∧ after (.resetStats 0) ((touching 5 0 []).modPart 0 1 fun p => { p with poisonCount := 3, nfCount := 4 })
        (fun t => (t.prt 0 1).poisonCount == 0 && (t.prt 0 1).nfCount == 0) = true := by decide +kernel

/-- Die 1 holds context 1's partition of two FULL segments, with one deposit from die 0 on its edge. -/
def depositing (token seg mode : Nat) : State :=
  let d : Deposit := { src := 0, dst := 1, ctx := 1, token := BitVec.ofNat 32 token, seg := seg, mode := BitVec.ofNat 2 mode, invTau := f1
                       base := f2, sigma := 9, data := [(0, 3), (255, 4)], slot := none }
  { dev with td := [(1, { dep := [d] })] }.modPart 1 1 fun p => { p with valid := true, geo := { size := 20, mode := 1, segs := 2, opens := 16 }, c64 := 5 }
theorem wit_deposit : (((depositing 24 1 1).tdie 1).dep.find? (fun d => d.src = 0)).map (fun d => (((depositing 24 1 1).prt 1 1).judge d,
      d.slot, ((depositing 24 1 1).prt 1 1).poisons d (depositing 24 1 1).devId)) = some (.take, none, false)
    ∧ ((depositing 25 1 1).tdie 1).dep.map (fun d => ((depositing 25 1 1).prt 1 1).judge d) = [.refuse]
    ∧ ((depositing 24 2 1).tdie 1).dep.map (fun d => ((depositing 24 2 1).prt 1 1).judge d) = [.refuse]
    ∧ ((depositing 24 1 3).tdie 1).dep.map (fun d => ((depositing 24 1 3).prt 1 1).judge d) = [.refuse]
    ∧ ((depositing 4 1 1).tdie 1).dep.map (fun d => ((depositing 4 1 1).prt 1 1).judge d) = [.fault 0x0203]
    ∧ (depositing 25 1 1).action (pgTouch 1) 3 ≠ 2
    ∧ after (.escrowDeposit (.edge 0 1)) (depositing 24 1 1) (fun t => let x := (t.prt 1 1).slot 24
        x.baseAt 1 == f2 && x.baseAt 0 == unfilled && x.elem 1 255 == 4 && x.filled == 1 && x.state == 1 && (t.prt 1 1).deposit == 25) = true
    ∧ after (.escrowDeposit (.edge 0 1)) (depositing 25 1 1) (fun t => (t.ctx 1).lastFault == 0x0202
        && bit (SMap.get {} t.hdr (pgTouch 1)).alarm.toNat 3 && (t.prt 1 1).slots.isEmpty) = true
    ∧ after (.escrowDeposit (.edge 0 1)) (depositing 4 1 1) (fun t => (t.ctx 1).lastFault == 0x0203) = true := by decide +kernel
/-- The same segment over a link, from context 1 of device 1. -/
def depositPkt : Packet := pkto 2 (24 + 2 ^ 32 + 2 ^ 42 + 2 ^ 45) 0x3F800000 (List.replicate 520 0)
def takenFrom : State := { linked with td := (depositing 24 1 1).td }
theorem wit_link_deposit : Arrives takenFrom 5 depositPkt 2 ∧ depositPkt.payload.length = depositLen (depositOf depositPkt).mode
    ∧ takenFrom.diePowered (depositOf depositPkt).dst.val = true ∧ (takenFrom.prt 1 1).judge (depositOf depositPkt) = .take
    ∧ (takenFrom.prt 1 1).poisons (depositOf depositPkt) depositPkt.src = false
    ∧ after (.escrowDeposit (.link 5 depositPkt)) takenFrom (fun t => ((t.prt 1 1).slot 24).baseAt 1 == 0 && (t.prt 1 1).pairs == [(1, 1, 5)]
        && ((t.prt 1 1).slot 24).srcDev == 1) = true := by unfold Arrives LinkTakes; decide +kernel
/-- A staged partition of 16 slots of 1 granule. -/
def staging (size : Nat) : State := ({ dev with td := [(1, { sel := 1 })] }).modPart 1 1 fun p => { p with stg := { size := size, mode := 1, segs := 1 } }
theorem wit_part_apply : bit (1 : W32).toNat 0 = true ∧ (staging 16).canWrite (pgTouch 1) = true ∧ ((staging 16).tdie 1).badPart 1 = false
    ∧ ((staging 15).tdie 1).badPart 1 = true ∧ (staging 15).action (pgTouch 1) 0 ≠ 2
    ∧ (((staging 15).modPart 1 1 fun p => { p with busy := true }).prt 1 1).busy = true
    ∧ after (.partApply 1 1) (staging 16) (fun t => (t.prt 1 1).valid && (t.prt 1 1).busy && (t.prt 1 1).geo.slots == 16) = true
    ∧ after (.partApply 1 1) (staging 15) (fun t => !(t.prt 1 1).valid && (t.prt 1 1).reject && bit (SMap.get {} t.hdr (pgTouch 1)).alarm.toNat 0) = true
    ∧ after (.partApplyDone 1 1) ((staging 15).modPart 1 1 fun p => { p with busy := true }) (fun t => !(t.prt 1 1).busy) = true := by decide +kernel

/-- 16 tiles of one row block, all 0 but element 0 of the row, 2.0. -/
def offers16 : List Offer := (List.range 16).map fun j => { tile := j, entry := j, codes := if j = 0 then [(0, f2)] else [], scales := [], mask := 0 }
/-- A MATMUL to the Touchstone in a role, one row from token 5 of segment 0. -/
def groupImg (role : Nat) : Image := img [(0, 1), (4, 1), (0x18, 0x100001), (0x20, 0x44000 + role * 0x8000), (0x24, 5)]
def grouping (role size : Nat) (f : Part → Part) : State :=
  ((((inFlight (groupImg role) fun x q => { x with mq := [{ q := q, started := true, drained := 16, tile := 16, offers := offers16 }] }).modPart 0 1 fun p =>
      f { p with teacher := [(0, { dev := 0, die := 1, ctx := 1, t := 5, count := 1, invTau := f1 })], feat := [(0, { cos := false, w := f1 })] }).modPart 1 1
    fun p => { p with valid := true, geo := { size := size, mode := 3, segs := 1 } }))
theorem wit_teacher_group : ((grouping 1 6 id).groupAt 0 0 1).isSome = true
    ∧ (opAt ((grouping 1 6 id).prt 0 1).teacher 1).map (fun o => (o.dev, o.die)) = some ((grouping 1 6 id).devId, 1)
    ∧ ((grouping 1 6 id).prt 1 1).admitsTok 5 1 = true ∧ ((grouping 1 5 id).prt 1 1).admitsTok 5 1 = false ∧ ((grouping 1 5 id).prt 1 1).valid = true
    ∧ after (.teacherGroupAccept 0 0) (grouping 1 6 id) (fun t => ((t.tdie 1).dep.map fun d => (d.token, d.base, d.sigma, SMap.get 0 d.data 0))
        == [(5, 0, 0x40800000, 0x4000)]) = true
    ∧ after (.teacherGroupAccept 0 0) (grouping 1 5 id) (fun t => (t.prt 1 1).stall == 1 && (t.tdie 1).dep.isEmpty) = true := by decide +kernel

/-- STUDENT of token 5: LABEL at 0, LOSS at 128. -/
def stu5 : StudentOp := { t := 5, count := 1, invTau := f1, wSoft := f1, wHard := f1, cl := 0, label := 0, loss := 128, noGrad := false }
/-- A FEATURE partition of one segment whose slot 5 is in a state, its teacher values zero. -/
def feat5 (st : BitVec 2) (p : Part) : Part := { p with
  valid := true, geo := { size := 20, mode := 3, segs := 1, opens := 16 }, student := [(0, stu5)]
  grad := [(0, { t := 5, count := 1, g := f1, rnd := false, tid := 0, step := 0, elemBase := 0, ring := 256, slots := 2 })]
  slots := [(5, { state := st, filled := 1, final := true, token := 5, invTau := f1, base := [(0, 0)] })] }
theorem wit_pass_s : ((grouping 2 6 (feat5 2)).groupAt 0 0 2).map (fun g => (g.rows, g.seg, g.t0)) = some ([0], 0, 5)
    ∧ (opAt ((grouping 2 6 (feat5 2)).prt 0 1).student 1).map (·.noGrad) = some false ∧ ((grouping 2 6 (feat5 2)).prt 0 1).tokSt 5 = 2
    ∧ (grouping 2 6 (feat5 2)).tableRoom 0 1 1 = true
    ∧ ((grouping 2 6 (feat5 2)).groupAt 0 0 2).map (fun g => (grouping 2 6 (feat5 2)).passSFault g ((grouping 2 6 (feat5 2)).prt 0 1) stu5) = some none
    ∧ ((grouping 2 6 (feat5 2)).tdie 0).tok = []
    ∧ ((grouping 2 6 fun p => feat5 2 { p with nfCount := 0 }).groupAt 0 0 2).map (fun g =>
        (grouping 2 6 (feat5 2)).passSFault g ((grouping 2 6 (feat5 2)).prt 0 1) { stu5 with t := 4 }) = some (some 0x0207)
    ∧ after (.passSGroupAccept 0 0) (grouping 2 6 (feat5 2)) (fun t => ((t.prt 0 1).slot 5).state == 3
        && Mem.readN (t.clu 0).mem 128 8 == 0x3C800000) = true
    ∧ after (.passSGroupAccept 0 0) (grouping 2 6 fun p => { feat5 2 p with student := [(0, { stu5 with t := 4 })] })
        (fun t => (t.ctx 1).lastFault == 0x0207) = true := by decide +kernel

/-- Token 5 has passed S with largest |s| `c`. -/
def passed (c : W32) (st : BitVec 2) (t : W32) : State :=
  (grouping 3 6 fun p => { feat5 st p with grad := (feat5 st p).grad.map fun o => (o.1, { o.2 with t := t }) }).modTd 0 fun d =>
    { d with tok := [{ ctx := 1, tok := 5, teacher := false, segs := [(0, some { c := c, s := 0, s1 := 0, d := 0 })], merged := true, stu := some stu5 }] }
theorem wit_pass_b : ((passed f2 3 5).groupAt 0 0 3).map (fun g => (g.x.masksel, g.x.rows, g.rows.all ((passed f2 3 5).recomputed g ((passed f2 3 5).prt 0 1)))) = some (0, 1, true)
    ∧ ((passed f1 3 5).groupAt 0 0 3).map (fun g => g.rows.all ((passed f1 3 5).recomputed g ((passed f1 3 5).prt 0 1))) = some false
    ∧ (opAt ((passed f2 3 5).prt 0 1).grad 1).map (fun go => (inTokens 5 1 go.t go.count, ((((passed f2 3 5).clu 0).pc 1).ring.offer go).isSome)) = some (true, true)
    ∧ ((passed f2 3 5).prt 0 1).tokSt 5 = 3 ∧ inTokens 5 1 6 1 = false
    ∧ after (.passBGroupAccept 0 0) (passed f2 3 5) (fun t => ((t.clu 0).pc 1).ring.full == [0] && ((t.clu 0).pc 1).ring.fill == 1
        && Mem.readN (t.clu 0).mem 32768 2 == 0x3C80) = true
    ∧ after (.passBGroupAccept 0 0) (passed f1 3 5) (fun t => (t.ctx 1).lastFault == 0x0204) = true
    ∧ after (.passBGroupAccept 0 0) (passed f2 3 6) (fun t => (t.ctx 1).lastFault == 0x0207) = true := by decide +kernel
/-! ### Matrix arrays and the Till -/

/-- A MATMUL of one 16 × 16 tile over K = 1, BF16: A at 0, B at 128, DST 256; DRAIN, DEST, entry, INIT 1. -/
def mmImg (drain dest entry : Nat) : Image :=
  img [(0, 1), (4, 1), (0x10, 0x10000), (0x14, 0x800 + drain * 0x4000 + entry * 0x40000), (0x18, 0x10001), (0x1C, 1)
      , (0x20, 0x40 + dest * 0x2000), (0x24, if dest = 0 then 2 else 0), (0x28, if dest = 3 then 17 else 0)]
/-- Column 0 of the stationary operand is 2.0, row 0 of the moving one 3.0. -/
def mmMem : Mem := [(1, 0x40), (128, 0x40), (129, 0x40)]
/-- The command in slot 0 at a place in its run. -/
def mming (i : Image) (f : MxRun → MxRun) : State := inFlight i fun x q => { x with mem := mmMem, mq := [f { q := q }] }
/-- The same with slot 1 behind an earlier command that holds entry 0. -/
def mmBehind (f : MxRun → MxRun) : State := inFlight (mmImg 1 0 0) fun x q => { x with mq := [{ q := q, started := true }, f { q := q }] }
def mm0 : State := mming (mmImg 1 0 0) id
def mm3 : State := mming (mmImg 1 3 0) id
theorem wit_matmul : (mm0.clu 0).mq.map (fun r => (r.done, r.started, r.waiting)) = [(false, false, false)]
    ∧ mm0.clOpen 0 = true
    ∧ (mm0.clu 0).mq.map (fun r => (mm0.touchPending r.q, mm0.vaultBusy r.q, mm0.entryHeld 0 0 r, mm0.legacy r.q)) = [(false, false, false, false)]
    ∧ (mm0.clu 0).mq.map (fun r => (mm0.mxCheck r.q, vaultStackOf r.q.img)) = [(none, none)]
    ∧ ((mming (mmImg 1 0 16) id).clu 0).mq.map (fun r => (mming (mmImg 1 0 16) id).mxCheck r.q) = [some (3, 16)]
    ∧ (((mmBehind id).clu 0).mq[1]?).map (fun r => ((mmBehind id).mxCheck r.q, (mmBehind id).entryHeld 0 1 r)) = some (none, true)
    ∧ (((mming (mmImg 1 0 0) fun r => { r with waiting := true }).clu 0).mq.map fun r => (r.waiting, mm0.entryHeld 0 0 r)) = [(true, false)]
    ∧ (mm3.clu 0).mq.map (fun r => (mm3.mxCheck r.q, vaultStackOf r.q.img, cCluster r.q.img)) = [(none, some 0, 0)]
    ∧ (mm3.clu 0).mq.map (fun r => mm3.pushTo r.q.ctx 0 0 (Mx.of r.q.img).recordLen 0x110000) = [.vault 0x10000]
    ∧ after (.matmul 0 0) mm0 (fun t => (t.clu 0).mq.map (·.started) == [true]) = true
    ∧ after (.matmul 0 0) (mming (mmImg 1 0 16) id) (fun t => (t.ctx 1).lastFault == 3) = true
    ∧ after (.matmul 0 1) (mmBehind id) (fun t => (t.clu 0).mq.map (·.waiting) == [false, true]) = true
    ∧ after (.matmulEntryWaitEnd 0 0) (mming (mmImg 1 0 0) fun r => { r with waiting := true }) (fun t => (t.clu 0).mq.map (·.started) == [true]) = true
    ∧ after (.matmul 0 0) mm3 (fun t => (t.clu 0).mq.map (·.vaultAt) == [some 0x10000]
        && (SMap.get {} ((t.clu 0).pc 1).vault 0).recs == 1) = true := by decide +kernel

/-- Its products are due. -/
def mmTiling : State := mming (mmImg 1 0 0) fun r => { r with started := true }
theorem wit_tile : ((mmTiling.clu 0).mq.map fun r => let x := Mx.of r.q.img
      (decide (r.tile < x.tiles), x.slotFree r r.tile, mmTiling.entryOf 0 r.q r.tile, (x.initTile (mmTiling.clu 0).mem {} 0).isSome)) = [(true, true, 0, true)]
    ∧ after (.matmul 0 0) mmTiling (fun t => let e := SMap.get {} (t.clu 0).till 0
        Words.get e.words 0 == 0x40C00000 && Words.get e.words 1 == 0 && e.kcount == 1 && e.cls == 1 && (t.clu 0).mq.map (·.tile) == [1]) = true := by
  decide +kernel

/-- A context that runs legacy commands. -/
def zt (s : State) : State := s.modCtx 1 fun x => { x with legacy := true }
theorem wit_legacy : (((zt mm0).clu 0).mq.map fun r => (zt mm0).legacy r.q) = [true]
    ∧ (((zt mm0).ctx 1).desc 0) = some desc0 ∧ (Mx.of (mmImg 1 0 0)).release = false := by decide +kernel
theorem wit_legacy_take : ∃ till, legacyTake [] desc0 (mmImg 1 0 0) = .ok till := by
  have h : legacyEnts (mmImg 1 0 0) = 1 := by
    have h1 : (Mx.of (mmImg 1 0 0)).tiles = 1 := by decide +kernel
    unfold legacyEnts
    rw [h1]
    split <;> rfl
  have h2 : legacyAt [] desc0 (Mx.of (mmImg 1 0 0)).ebase = none := by decide +kernel
  have h3 : (Mx.of (mmImg 1 0 0)).init = 1 := by decide +kernel
  have h4 : legacyFree [] desc0 1 = some 0 := by decide +kernel
  simp only [legacyTake, h2, h, h3, h4]
  exact ⟨_, rfl⟩
theorem wit_legacy_tile (half : Bool) (rows n : Nat) : ∃ e, (Mx.of (mmImg 1 0 0)).ztTile half rows mmMem {} n 0 = some e := by
  have h3 : (Mx.of (mmImg 1 0 0)).init = 1 := by decide +kernel
  simp [Mx.ztTile, h3]

/-- Entry 0 holds 6.0 in word 0, and tile 0 is ready to drain. -/
def draining (drain dest : Nat) : State :=
  (mming (mmImg drain dest 0) fun r => { r with started := true, tile := 1 }).modCl 0 fun x =>
    { x with till := [(0, { words := [(0, 0x40C00000)], cls := 1, kcount := 1 })] }
theorem wit_drain : ((draining 3 0).clu 0).mq.map (fun r => (decide (r.drained + (Mx.of r.q.img).step ≤ r.tile), (Mx.of r.q.img).full)) = [(true, true)]
    ∧ ((draining 1 0).clu 0).mq.map (fun r => ((Mx.of r.q.img).fuse, (Mx.of r.q.img).early)) = [(true, false)]
    ∧ after (.drain 0 0) (draining 3 0) (fun t => Mem.readN (t.clu 0).mem 256 8 == 0x40C00000 && Mem.readN (t.clu 0).mem 1280 4 == 65
        && (t.clu 0).till == [] && (t.clu 0).mq.map (·.done) == [true]) = true
    ∧ after (.drain 0 0) (draining 1 0) (fun t => (t.clu 0).mq.map (fun r => (r.drained, r.offers.map fun o => Words.get o.codes 0)) == [(1, [0x40C0])]
        && ((t.clu 0).till.map Prod.fst) == [0]) = true := by decide +kernel

/-- Tile 0 is offered to its destination. -/
def offering (dest : Nat) (v : Option Nat) : State :=
  ((draining 1 dest).modCl 0 fun x => { x with mq := x.mq.map fun r =>
    { r with drained := 1, vaultAt := v, offers := [{ tile := 0, entry := 0, codes := [(0, 0x40C0)], scales := [], mask := 0 }] } })
theorem wit_accept_tile : ((offering 0 none).clu 0).mq.map (fun r => let x := Mx.of r.q.img
      (x.dest, x.masksel, x.cvt, x.tileRC 0, x.mt, x.nt)) = [(0, 0, 1, (0, 0), 1, 1)]
    ∧ ((offering 3 none).clu 0).mq.map (fun r => let x := Mx.of r.q.img
      (x.dest, (offering 3 none).guarded 0x110000 x.recordLen, (offering 3 none).hbmCheck 1 0x110000 x.recordLen true false)) = [(3, false, none)]
    ∧ after (.fuseTileAccept 0 0) (offering 0 none) (fun t => Mem.readN (t.clu 0).mem 256 4 == 0x40C0 && (t.clu 0).till == []
        && (t.clu 0).mq.map (·.done) == [true]) = true
    ∧ after (.fuseTileAccept 0 0) (offering 3 (some 0x10000)) (fun t => Mem.readN (t.clu 0).mem 0x10000 4 == 0x40C0) = true
    ∧ after (.fuseTileAccept 0 0) (offering 3 none) (fun t => Mem.readN t.hbm 0x110000 4 == 0x40C0 && (t.clu 0).till == []) = true := by decide +kernel
/-! ### Vector engine, Tally, fused chains -/

/-- A vector instruction word. -/
def vw (op vd va vb vc mask z ty low : Nat) : Nat :=
  op * 2 ^ 56 + vd * 2 ^ 51 + va * 2 ^ 46 + vb * 2 ^ 41 + vc * 2 ^ 36 + mask * 2 ^ 33 + z * 2 ^ 32 + ty * 2 ^ 28 + low
/-- A VEC of a program of two words at 0, data at 256, scales at 1024, once. -/
def vecImg : Image := img [(0, 1), (4, 2), (0x10, 0x20000), (0x14, 0x80002), (0x18, 1)]
/-- It stands at word `w`; lane 0 of v1, v2, v4 is a, b, c; lane 0 alone is set in k1. -/
def vecAt (w : Nat) (a b c : W32) : State := inFlight vecImg fun x q =>
  { x with vq := [q], vrun := some {}, mem := Mem.writeN [] 0 8 w, k := [(1, 1)]
           v := Words.set (Words.set (Words.set (Words.set [] (64 * 3 + 1) 9) 64 a) 128 b) 256 c }
def vadd1 : Nat := vw 1 3 1 2 4 1 0 9 0
theorem wit_lanes : ((vecAt vadd1 5 7 2).vecHead 0).map (fun p => (p.1.ctx, p.2)) = some (1, some {})
    ∧ (vWord ((vecAt vadd1 5 7 2).clu 0) (cmd vecImg) {}).op = 1 ∧ (vWord ((vecAt vadd1 5 7 2).clu 0) (cmd vecImg) {}).bad false = false
    ∧ after (.vAdd 0) (vecAt vadd1 5 7 2) (fun t => (t.clu 0).lane 3 0 == 12 && (t.clu 0).lane 3 1 == 9
        && (t.clu 0).vrun == some { pc := 1 }) = true
    ∧ after (.vAdd 0) (vecAt (vw 1 3 1 2 4 1 1 9 0) 5 7 2) (fun t => (t.clu 0).lane 3 0 == 12 && (t.clu 0).lane 3 1 == 0) = true
    ∧ (([(.vSub 0, 2, 0xFFFFFFFE), (.vMul 0, 3, 35), (.vFma 0, 4, 37), (.vMin 0, 5, 5), (.vMax 0, 6, 7), (.vAbs 0, 7, 5), (.vNeg 0, 8, 0xFFFFFFFB)
        , (.vLogic 0, 0x0E, 5), (.vLogic 0, 0x0F, 7), (.vLogic 0, 0x10, 2), (.vShift 0, 0x11, 640), (.vShift 0, 0x12, 0), (.vCvt 0, 0x13, 0x40A00000)]
        : List (Instr × Nat × W32)).all fun p => after p.1 (vecAt (vw p.2.1 3 1 2 4 1 0 9 0) 5 7 2) fun t => (t.clu 0).lane 3 0 == p.2.2) = true := by
  decide +kernel
theorem wit_functions :
    (([(.vExp2 0, 0x30, 0, 0x3F800000), (.vLog2 0, 0x31, 0x3F800000, 0), (.vRcp 0, 0x32, 0x40000000, 0x3F000000), (.vRsqrt 0, 0x33, 0x40800000, 0x3F000000)
      , (.vCvt 0, 0x13, 0x40A00000, 5)] : List (Instr × Nat × W32 × W32)).all fun p =>
        after p.1 (vecAt (vw p.2.1 3 1 2 4 1 0 8 0) p.2.2.1 0 0) fun t => (t.clu 0).lane 3 0 == p.2.2.2) = true := by decide +kernel
theorem wit_masks :
    after (.vSel 0) (vecAt (vw 0x0D 3 1 2 1 0 0 9 0) 5 7 2) (fun t => (t.clu 0).lane 3 0 == 5 && (t.clu 0).lane 3 1 == 0) = true
    ∧ after (.vBcast 0) (vecAt (vw 0x14 3 0 0 0 0 0 0xF 0xFFFFFFF) 5 7 2) (fun t => (t.clu 0).lane 3 63 == 0xFFFFFFFF) = true
    ∧ after (.vIdx 0) (vecAt (vw 0x15 3 0 0 0 0 0 9 0) 5 7 2) (fun t => (t.clu 0).lane 3 63 == 63) = true
    ∧ after (.vCmp 0) (vecAt (vw 0x09 2 1 2 0 0 0 9 0) 0xFFFFFFFF 7 2) (fun t => (t.clu 0).kreg 2 == 1) = true
    ∧ after (.vMaskOp 0) (vecAt (vw 0x1A 2 1 0 0 0 0 9 0) 5 7 2) (fun t => (t.clu 0).kreg 2 == 0xFFFFFFFFFFFFFFFE) = true := by decide +kernel
/-- The VEC at the head has not begun. -/
def vecFresh (i : Image) : State := inFlight i fun x q => { x with vq := [q], v := [(5, 5)], k := [(1, 1)] }
theorem wit_vec : ((vecFresh vecImg).vecHead 0).map (·.2) = some none ∧ (vecFresh vecImg).ownsIn 1 0 (vProg vecImg) (8 * vCount vecImg) = true
    ∧ (vecFresh (img [(0, 1), (4, 2), (0x10, 0x203FF)])).ownsIn 1 0 (1023 * 128) 16 = true
    ∧ (vecFresh (img [(0, 1), (4, 2), (0x10, 0x1103FF)])).ownsIn 1 0 (1023 * 128) (8 * 17) = false
    ∧ (vWord ((vecAt (vw 0x16 0 0 0 0 0 0 9 0) 0 0 0).clu 0) (cmd vecImg) {}).bad false = true
    ∧ after (.vec 0) (vecFresh vecImg) (fun t => (t.clu 0).vrun == some {} && (t.clu 0).v == [] && (t.clu 0).k == []) = true
    ∧ after (.vec 0) (vecFresh (img [(0, 1), (4, 2), (0x10, 0x1103FF)])) (fun t => (t.ctx 1).lastFault == 3) = true
    ∧ after (.vec 0) (vecAt (vw 0x16 0 0 0 0 0 0 9 0) 0 0 0) (fun t => (t.ctx 1).lastFault == 1) = true := by decide +kernel
theorem wit_alu : alu 0x05 true 0 0x80000000 1 0 = 0x80000000 ∧ (0x80000001 : W32) ≠ 0x80000000#32
    ∧ alu 0x07 true 0 0x80000001 0 0 = 0x7FFFFFFF ∧ alu 0x12 false 0 0x80000000 31 0 = 1 := by decide +kernel

/-- Element `n` of the data is 2.0 in BF16. -/
def vecData (w n : Nat) : State := (vecAt w 0x40400000 7 2).modCl 0 fun x => { x with mem := Mem.writeN x.mem (256 + 2 * n) 2 0x4000 }
theorem wit_vec_memory : (vecData (vw 0x20 3 0 0 0 0 0 0 0) 63).vecOwns (cmd vecImg) 0 0 256 1024 = true
    ∧ (vecData (vw 0x20 3 0 0 0 0 0 0 0x1FF00) 63).vecOwns (cmd vecImg) 0 0 0x20000 0 = false
    ∧ after (.vLd 0) (vecData (vw 0x20 3 0 0 0 0 0 0 0) 63) (fun t => (t.clu 0).lane 3 63 == 0x40000000 && (t.clu 0).lane 3 0 == 0) = true
    ∧ after (.vLd 0) (vecData (vw 0x20 3 0 0 0 0 0 0 0x1FF00) 63) (fun t => (t.ctx 1).lastFault == 3) = true
    ∧ after (.vSt 0) (vecData (vw 0x21 0 1 0 0 1 0 0 0) 63) (fun t => Mem.readN (t.clu 0).mem 256 4 == 0x4040 && Mem.readN (t.clu 0).mem 382 2 == 0x4000) = true
    ∧ after (.vSt 0) (vecData (vw 0x21 0 1 0 0 1 1 0 0) 63) (fun t => Mem.readN (t.clu 0).mem 256 4 == 0x4040 && Mem.readN (t.clu 0).mem 382 2 == 0) = true
    ∧ after (.vKld 0) (vecData (vw 0x1B 2 0 0 0 0 0 9 0) 3) (fun t => (t.clu 0).kreg 2 == 0x4000000000000000) = true
    ∧ after (.vKst 0) (vecData (vw 0x1C 0 1 0 0 0 0 9 0) 3) (fun t => Mem.readN (t.clu 0).mem 256 8 == 1) = true := by decide +kernel
/-- A BF16 tile of context 1 at the head of the tile queue, element (15, 15) 2.0. -/
def tiled : State := (vecAt (vw 0x22 4 0 0 0 0 0 0 0) 0 0 0).modCl 0 fun x => { x with tileq := [{ ctx := 1, fmt := 0, codes := [(255, 0x4000)], scales := [] }] }
theorem wit_tiles : (tiled.clu 0).tileq.map (·.ctx) = [1] ∧ ((vecAt (vw 0x22 4 0 0 0 0 0 0 0) 0 0 0).clu 0).tileq = []
    ∧ ((offering 1 none).clu 0).mq.map (fun r => (Mx.of r.q.img).dest) = [1] ∧ ((offering 1 none).clu 0).tileq = []
    ∧ after (.vTqpop 0) tiled (fun t => (t.clu 0).lane 7 63 == 0x40000000 && (t.clu 0).tileq.isEmpty) = true
    ∧ after (.vTqpop 0) (vecAt (vw 0x22 4 0 0 0 0 0 0 0) 0 0 0) (fun t => (t.clu 0).vrun == some { waiting := true }) = true
    ∧ after (.tileQueueAccept 0 0) (offering 1 none) (fun t => (t.clu 0).tileq.map (fun x => (x.ctx, x.fmt, Words.get x.codes 0)) == [(1, 0, 0x40C0)]) = true := by
  decide +kernel
/-- A sum of integers waits to be written. -/
def jobbed (toq accum : Bool) : State := inFlight vecImg fun x _ =>
  { x with tally := [{ ctx := 1, seq := 1, code := 1, value := 5, aux := 2, toq := toq, accum := accum, dest := if toq then 7 else 256 }]
           mem := Mem.writeN [] 256 8 (3 + 4 * 2 ^ 32), per := [(1, { q := [(7, { value := 1, aux := 1, valid := true })] })] }
theorem wit_tally : ((jobbed true true).clu 0).tally.map (·.ctx) = [1]
    ∧ (vecAt (vw 0x40 1 1 0 0 0 0 9 0) 5 7 2).ownsIn 1 0 256 8 = true
    ∧ after (.vTally 0) (vecAt (vw 0x40 1 1 0 0 0 0 9 0) 5 7 2) (fun t => (t.clu 0).tally.map (fun j => (j.value, j.aux, j.dest)) == [(5, 64, 256)]) = true
    ∧ after (.tallyResultWrite 0) (jobbed false true) (fun t => Mem.readN (t.clu 0).mem 256 8 == 8 + 6 * 2 ^ 32) = true
    ∧ after (.tallyResultWrite 0) (jobbed false false) (fun t => Mem.readN (t.clu 0).mem 256 8 == 5 + 2 * 2 ^ 32) = true
    ∧ after (.tallyResultWrite 0) (jobbed true true) (fun t => let m := SMap.get {} ((t.clu 0).pc 1).q 7
        m.value == 6 && m.aux == 3 && m.valid && m.ovr) = true := by decide +kernel
/-- A chain of one integer addition of a word of memory and 7. -/
def chain1 : Chain := ⟨1, [⟨1, true, .stream 0, .imm 7, .imm 0, 0⟩], [(.mem, 0x5FFFFC, false)], some (.mem, 0), none⟩
def chained : State := up.modCl 0 fun x => { x with service := true, mem := Mem.writeN [] 0x5FFFFC 4 5 }
theorem wit_chain : (chained.clu 0).service = true ∧ chainFits chain1 (chained.boot.stage == 4) 0 = true
    ∧ chainFits { chain1 with reads := [(.mem, 0x600000, false)] } false 0 = false
    ∧ after (.fusedChain 0 chain1) chained (fun t => Mem.readN (t.clu 0).mem 0 4 == 12) = true := by decide +kernel

/-! ### Teller -/

/-- A Teller instruction word. -/
def tw (op dst s1 s2 func imm : Nat) : W64 :=
  BitVec.ofNat 64 (op * 2 ^ 56 + dst * 2 ^ 52 + s1 * 2 ^ 48 + s2 * 2 ^ 44 + func * 2 ^ 32 + imm)
def callImg : Image := img [(0, 1), (4, 3), (0x10, 511), (0x14, 0), (0x18, 5), (0x24, 8)]
/-- The kernel stands at index 0 of its one page with s1 = a, s2 = b. -/
def telAt (w : W64) (a b : W32) (f : Tel → Tel) : State := inFlight callImg fun x q =>
  { x with tel := some (f { telOf q with regs := Words.set (Words.set [] 1 a) 2 b }), imem := [(1536, w)], per := [(1, { tpages := [3] })] }
def called : State := inFlight callImg fun x q => { x with callq := [q], per := [(1, { tpages := [3] })] }
theorem wit_call : (called.clu 0).tel = none ∧ (called.clu 0).callq.length = 1 ∧ called.clOpen 0 = true
    ∧ ((called.clu 0).fetch 1 511).isSome = true ∧ ((called.clu 0).fetch 1 512).isSome = false
    ∧ after (.call 0) called (fun t => ((t.clu 0).tel.map fun x => (x.pc, x.budget, x.get 0, x.get 1, x.get 4)) == some (511, 2 ^ 32, 0, 5, 8)) = true := by
  decide +kernel
theorem wit_teller : ((telAt (tw 1 3 1 2 0 0) 5 7 id).telHead 0).map (fun x => (x.wait, x.budget)) = some (.none, 10)
    ∧ (TI.of (tw 1 3 1 2 0 0)).known = true ∧ ((telAt (tw 1 3 1 2 0 0) 5 7 id).clu 0).fetch 1 0 = some (tw 1 3 1 2 0 0)
    ∧ (([(.tellerIntegerOp 0, tw 1 3 1 2 0 0, 12), (.tellerIntegerOp 0, tw 2 3 1 2 0 0, 0xFFFFFFFE), (.tellerIntegerOp 0, tw 0xB 3 1 2 0 0, 1)
        , (.tellerImmediateOp 0, tw 0x11 3 1 0 0 0xFFFFFFFF, 4), (.tellerImmediateOp 0, tw 0x16 3 1 0 0 31, 0x80000000)
        , (.tellerFloatOp 0, tw 0x22 3 1 2 0 0, 1), (.tellerFcvt 0, tw 0x25 3 1 0 0 0, 0x40A00000)] : List (Instr × W64 × W32)).all fun p =>
        after p.1 (telAt p.2.1 5 7 id) fun t => ((t.clu 0).tel.map fun x => (x.pc, x.budget, x.get 3)) == some (1, 9, p.2.2)) = true
    ∧ after (.tellerIntegerOp 0) (telAt (tw 1 0 1 2 0 0) 5 7 id) (fun t => ((t.clu 0).tel.map fun x => (x.pc, x.get 0)) == some (1, 0)) = true
    ∧ after (.tellerIntegerOp 0) (telAt (tw 1 3 1 2 0 0) 5 7 fun x => { x with budget := 0 }) (fun t => (t.ctx 1).lastFault == 9) = true := by decide +kernel
theorem wit_teller_memory : (telAt (tw 0x30 3 1 0 0 0x1FFFB) 1 7 id).ownsIn 1 0 0x1FFFC 4 = true
    ∧ (telAt (tw 0x30 3 1 0 0 0x1FFFC) 1 7 id).ownsIn 1 0 0x1FFFD 4 = false
    ∧ after (.tellerLw 0) ((telAt (tw 0x30 3 1 0 0 0x1FFFB) 1 7 id).modCl 0 fun x => { x with mem := [(0x1FFFC, 6)] })
        (fun t => ((t.clu 0).tel.map fun x => x.get 3) == some 6) = true
    ∧ after (.tellerLw 0) (telAt (tw 0x30 3 1 0 0 0x1FFFC) 1 7 id) (fun t => (t.ctx 1).lastFault == 3) = true
    ∧ after (.tellerSw 0) (telAt (tw 0x31 0 1 2 0 0x1FFFB) 1 7 id) (fun t => Mem.readN (t.clu 0).mem 0x1FFFC 4 == 7) = true := by decide +kernel
theorem wit_teller_control : ((telAt (tw 0x40 0 1 2 0 511) 5 5 id).clu 0).fetch 1 511 = some 0 ∧ ((telAt (tw 0x44 0 0 0 0 512) 5 5 id).clu 0).fetch 1 512 = none
    ∧ after (.tellerBranch 0) (telAt (tw 0x40 0 1 2 0 511) 5 5 id) (fun t => ((t.clu 0).tel.map (·.pc)) == some 511) = true
    ∧ after (.tellerBranch 0) (telAt (tw 0x42 0 1 2 0 511) 5 0xFFFFFFFF id) (fun t => ((t.clu 0).tel.map (·.pc)) == some 1) = true
    ∧ after (.tellerJmp 0) (telAt (tw 0x44 0 0 0 0 511) 5 5 id) (fun t => ((t.clu 0).tel.map (·.pc)) == some 511) = true
    ∧ after (.tellerJmp 0) (telAt (tw 0x44 0 0 0 0 512) 5 5 id) (fun t => (t.ctx 1).lastFault == 7) = true
    ∧ after (.tellerRet 0) (telAt (tw 0x70 0 0 0 0 0) 5 5 id) (fun t => ((t.clu 0).tel.map (·.ended)) == some true) = true
    ∧ after (.tellerFail 0) (telAt (tw 0x71 0 0 0 0 0x12345) 5 5 id) (fun t => (t.ctx 1).lastFault == 8 && ((t.ctx 1).faultRec.map (·.detail)) == some 0x2345) = true := by
  decide +kernel
/-- Summary register 7 holds 6, its AUX 4. -/
def summed (w : W64) (v : Bool) (f : Tel → Tel) : State := (telAt w 5 7 f).modCl 0 fun x => x.modPc 1 fun y =>
  { y with q := [(7, { value := 6, aux := 4, valid := v, ovr := true })] }
theorem wit_summaries : ((summed (tw 0x50 3 0 0 7 0) true id).clu 0).tel.map (fun x => (summed (tw 0x50 3 0 0 7 0) true id).summary 0 x (TI.of (tw 0x50 3 0 0 7 0)))
      = some { value := 6, aux := 4, valid := true, ovr := true }
    ∧ after (.tellerGetq 0) (summed (tw 0x50 3 0 0 7 0) true id) (fun t => ((t.clu 0).tel.map fun x => (x.pc, x.get 3)) == some (1, 6)
        && !(SMap.get {} ((t.clu 0).pc 1).q 7).valid) = true
    ∧ after (.tellerGetq 0) (summed (tw 0x50 3 0 0 7 0) false id) (fun t => ((t.clu 0).tel.map fun x => (x.pc, x.wait)) == some (0, .getq)) = true
    ∧ after (.tellerGetqa 0) (summed (tw 0x51 3 0 0 7 0) true id) (fun t => ((t.clu 0).tel.map fun x => x.get 3) == some 4) = true
    ∧ after (.tellerGetqf 0) (summed (tw 0x52 3 0 0 7 0) true id) (fun t => ((t.clu 0).tel.map fun x => x.get 3) == some 3) = true
    ∧ after (.tellerWaitEnd 0) (summed (tw 0x50 3 0 0 7 0) true fun x => { x with wait := .getq })
        (fun t => ((t.clu 0).tel.map fun x => (x.pc, x.wait, x.get 3)) == some (1, .none, 6)) = true := by decide +kernel
/-- The image of a COPY stands at the last 64 bytes the context owns. -/
def issuing (n : Nat) : State := (telAt (tw 0x60 0 1 0 2 0) 0x1FFC0 0 id).modCl 0 fun x =>
  { x with mem := Mem.writeN [] 0x1FFC4 4 4, dq := List.replicate n (cmd copyImg) }
theorem wit_issue : (issuing 63).ownsIn 1 0 0x1FFC0 64 = true ∧ ((issuing 63).clu 0).full 2 = false ∧ ((issuing 64).clu 0).full 2 = true
    ∧ cClass (issuedImage (BitVec.ofNat 512 (Mem.readN ((issuing 63).clu 0).mem 0x1FFC0 64)) (cmd callImg) 0) = 4
    ∧ imageBad (issuedImage (BitVec.ofNat 512 (Mem.readN ((issuing 63).clu 0).mem 0x1FFC0 64)) (cmd callImg) 0) = false
    ∧ ((issuing 64).clu 0).issued 1 1 2 = 0
    ∧ after (.tellerIssue 0) (issuing 63) (fun t => (t.clu 0).dq.length == 64 && ((t.clu 0).dq.getLast?.map fun q => (q.issued, q.seq)) == some (true, 1)
        && t.sched.tokens == 2) = true
    ∧ after (.tellerIssue 0) (issuing 64) (fun t => ((t.clu 0).tel.map (·.wait)) == some .issue && t.sched.tokens == 1) = true
    ∧ after (.tellerWaitq 0) (telAt (tw 0x62 0 0 0 2 0) 0 0 id) (fun t => ((t.clu 0).tel.map (·.pc)) == some 1) = true
    ∧ after (.tellerWaitq 0) ((telAt (tw 0x62 0 0 0 2 0) 0 0 id).modCl 0 fun x => { x with dq := [{ cmd copyImg with seq := 1, issued := true }] })
        (fun t => ((t.clu 0).tel.map (·.wait)) == some .waitq) = true
    ∧ after (.tellerWaitEnd 0) (telAt (tw 0x62 0 0 0 2 0) 0 0 fun x => { x with wait := .waitq }) (fun t => ((t.clu 0).tel.map fun x => (x.pc, x.wait)) == some (1, .none)) = true := by
  decide +kernel

/-! ### O55 to O60: transfers, tables, updates, sequences, the Strongroom, errors -/

/-- A DMA command with these fields at the head of the queue of cluster 0, with HBM `m`. -/
def dmaOn (l : List (Nat × Nat)) (m : Mem) (f : Cluster → Cluster) : State :=
  { inFlight (img ([(0, 1), (4, 4)] ++ l)) (fun x q => f { x with dq := [q] }) with hbm := m }
/-- HBM [7, 0, 0, 9] to the last bytes of the context's memory. -/
def copying (n : Nat) : State := dmaOn [(0x10, 0x80), (0x14, n), (0x18, 0x100000), (0x20, 0x1FFFC)] [(0x100000, 7), (0x100003, 9)] id
/-- A copy of `n` bytes to device 1, over the link. -/
def remoting (n : Nat) : State :=
  let s := dmaOn [(0x10, 0x280), (0x14, n), (0x18, 0x100000), (0x20, 0x500000), (0x28, 0x1001 + 0x20010000)] [(0x100000, 7)] id
  { s with boot := linked.boot, port := linked.port }
def dq0 (s : State) (m : Nat) : Option Nat := (s.dmaHead 0 m).map fun q => dLen q.img
theorem wit_copy : dq0 (copying 4) 0 = some 4 ∧ dq0 (copying 5) 0 = some 5
    ∧ ((copying 4).dmaHead 0 0).map (fun q => (bit (fld q.img 0x28 31 0) 12, dSrc q.img, dDst q.img)) = some (false, .hbm 0x100000, .clu 0 0x1FFFC)
    ∧ (copying 4).locCheck 1 (.hbm 0x100000) 4 false = none ∧ (copying 4).locCheck 1 (.clu 0 0x1FFFC) 4 true = none
    ∧ (copying 4).srcWait (.hbm 0x100000) 4 = false ∧ (copying 4).locWait (.clu 0 0x1FFFC) 4 = false
    ∧ after (.copy 0 []) (copying 4) (fun t => (t.clu 0).mem.readBytes 0x1FFFC 4 == [7, 0, 0, 9] && (t.clu 0).ddone) = true
    ∧ ((dmaOn [(0x10, 0x200), (0x14, 5), (0x18, 0x1FFFC), (0x20, 0x100000)] [] id).locCheck 1 (.clu 0 0x1FFFC) 5 false) = some 3
    ∧ after (.copy 0 []) (dmaOn [(0x10, 0x200), (0x14, 5), (0x18, 0x1FFFC), (0x20, 0x100000)] [] id) (fun t => (t.ctx 1).lastFault == 3) = true := by
  decide +kernel
theorem wit_remote_copy : dq0 (remoting 4097) 0 = some 4097 ∧ ((remoting 3).route ((remoting 3).remapped 1)).isSome = true
    ∧ (remoting 3).remapped 1 = 1 ∧ (remoting 3).devId = 0 ∧ (remoting 3).locCheck 1 (.hbm 0x100000) 3 false = none
    ∧ ((remoting 3).dmaHead 0 0).map (fun q => bit (fld q.img 0x28 31 0) 12) = some true
    ∧ after (.copy 0 []) (remoting 3) (fun t => (t.prt6 (((remoting 3).route 1).getD (0, false)).1).txq.map (fun k => (k.ty, k.dst, k.payload)) == [(1, 1, [7, 0, 0])]
        && (t.clu 0).dwait && (t.clu 0).dleft == 1) = true
    ∧ (chunks (List.replicate 4097 0)).map List.length = [4096, 1] := by decide +kernel
def turning : State := dmaOn [(0x10, 0x881), (0x18, 0x100000), (0x20, 0), (0x28, 2 + 3 * 65536)] (at_ 0x100000 [1, 2, 3, 4, 5, 6]) id
theorem wit_transpose : (turning.dmaHead 0 1).map (fun q => (dFmt q.img, fld q.img 0x28 15 0, fld q.img 0x28 31 16)) = some (2, 2, 3)
    ∧ turning.locCheck 1 (.hbm 0x100000) 6 false = none ∧ turning.locCheck 1 (.clu 0 0) 6 true = none
    ∧ after (.transpose 0 []) turning (fun t => (t.clu 0).mem.readBytes 0 6 == [1, 4, 2, 5, 3, 6]) = true
    ∧ codeAt (asMem (transposed 6 1 2 [0x21])) 6 0 1 = 2 := by decide +kernel
def spilling (enc : Nat) : State :=
  dmaOn [(0x10, 0x202 + enc * 16), (0x14, 2), (0x18, 0), (0x20, 0x100000), (0x2C, 0x100800)] [] fun x => { x with mem := at_ 0 [0x81, 0x3F] }
theorem wit_spill_out : dq0 (spilling 1) 2 = some 2 ∧ (((spilling 2).dmaHead 0 2).map fun q => (spillFmtBad q.img, dDst q.img, dAux q.img)) = some (false, .hbm 0x100000, .hbm 0x100800)
    ∧ (spilling 1).locCheck 1 (.hbm 0x100000) 256 true = none ∧ (spilling 1).locCheck 1 (.hbm 0x100800) 2 true = none
    ∧ ((spilling 2).nums 1).censusBase = 0
    ∧ after (.spillOut 0) (spilling 1) (fun t => t.hbm.read 0x100800 == 127) = true
    ∧ (block8Enc 0 [0x3F80, 0x3F81, 0xBF00]).scale = 119 ∧ (block8Enc 0 [0x3F80, 0x3F81, 0xBF00]).elems.map (·.code) = [0x78, 0x78, 0xF0]
    ∧ after (.spillOut 0) (spilling 0) (fun t => t.hbm.read 0x100001 == 0x3F) = true := by decide +kernel
theorem wit_plane : planeDec (fmtOf 1) (planeEnc (fmtOf 1) ((List.range 256).map (· * 257))).1 (planeEnc (fmtOf 1) ((List.range 256).map (· * 257))).2
      = (List.range 256).map (· * 257)
    ∧ (planeEnc (fmtOf 0) (List.replicate 256 0xBF80)).1 = 127 ∧ (planeEnc (fmtOf 0) (0x3F80 :: List.replicate 255 0x4000)).1 = 127 + 256 := by decide +kernel
def reloading (l : List (Nat × Nat)) (m : Mem) : State := dmaOn (l ++ [(0x18, 0x100000), (0x20, 0), (0x2C, 0x100800)]) m id
def plain3 : State := reloading [(0x10, 0x883), (0x14, 3)] (at_ 0x100000 [1, 2, 3, 4])
def plane3 : State := reloading [(0x10, 0x93), (0x14, 4)] (at_ 0x100800 [127] ++ [])
theorem wit_spill_in : dq0 plain3 3 = some 3 ∧ dq0 plane3 3 = some 4 ∧ (plane3.dmaHead 0 3).map (fun q => plane3.spillInLen q.img) = some (256, 2)
    ∧ (plain3.dmaHead 0 3).map (fun q => (spillFmtBad q.img, plain3.spillInLen q.img, auxOf q.img 0)) = some (false, (256, 0), [])
    ∧ after (.spillIn 0 []) plain3 (fun t => (t.clu 0).mem.readBytes 0 4 == [1, 2, 3, 0]) = true
    ∧ after (.spillIn 0 []) plane3 (fun t => (t.clu 0).mem.readBytes 0 4 == [0x80, 0x3F, 0x80, 0x3F]) = true := by decide +kernel
/-- A push of 32 bytes with the stack's top at `top`. -/
def pushing (top : Nat) : State :=
  dmaOn [(0x10, 0x84), (0x14, 32), (0x18, 0x100000), (0x28, 77), (0x2C, 0x100800)] [(0x10001F, 5)] fun x =>
    { x with per := [(1, { vault := [(0, { top := top, recs := 3 })] })] }
theorem wit_vault_push : dq0 (pushing 0) 4 = some 32 ∧ (pushing 57312).pushTo 1 0 0 32 0x100800 = .vault 0x1DFE0
    ∧ (pushing 57344).pushTo 1 0 0 32 0x100800 = .hbm ∧ desc0.trailer 0 3 = 0x1E060
    ∧ (pushing 57312).locCheck 1 (.clu 0 0x1DFE0) 32 true = none ∧ (pushing 57344).hbmCheck 1 0x100800 32 true false = none
    ∧ after (.vaultPush 0 []) (pushing 57312) (fun t => (t.clu 0).mem.read 0x1DFFF == 5 && (t.clu 0).mem.read32 0x1E060 == 77
        && Mem.readN (t.clu 0).mem 0x1E064 4 == 32 && SMap.get {} ((t.clu 0).pc 1).vault 0 == { top := 57344, recs := 4 }) = true
    ∧ after (.vaultPush 0 []) (pushing 57344) (fun t => t.hbm.read 0x10081F == 5 && Mem.readN (t.clu 0).mem 0x1E070 8 == 0x100800
        && SMap.get {} ((t.clu 0).pc 1).vault 0 == { top := 57344, recs := 4 } && (t.ctx 1).vaultSpills == 1) = true := by decide +kernel
def popping (tag : Nat) : State :=
  dmaOn [(0x10, 0x205), (0x20, 0x100000), (0x28, tag)] [] fun x =>
    { x with mem := (at_ 0x1001F [5]) ++ (Mem.writeN (Mem.writeN [] 0x1E000 4 77) 0x1E004 4 32)
             per := [(1, { vault := [(0, { top := 32, recs := 1 })] })] }
theorem wit_vault_pop : (popping 77).topRecord 1 0 0 = some (77, 32, .clu 0 0x10000) ∧ ((popping 77).dmaHead 0 5).isSome = true
    ∧ (popping 77).locCheck 1 (.clu 0 0x10000) 32 false = none ∧ (popping 77).locCheck 1 (.hbm 0x100000) 32 true = none
    ∧ after (.vaultPop 0) (popping 77) (fun t => t.hbm.read 0x10001F == 5 && SMap.get {} ((t.clu 0).pc 1).vault 0 == {}) = true
    ∧ after (.vaultPop 0) (popping 78) (fun t => (t.ctx 1).lastFault == 0xD) = true := by decide +kernel
def paging (p : Nat) : State :=
  dmaOn [(0x10, 0x86), (0x14, 9), (0x18, 0x100000), (0x28, p)] (at_ 0x100000 [1, 2, 0, 0, 0, 0, 0, 0, 4]) fun x => { x with per := [(1, { tpages := [3] })] }
theorem wit_teller_load : dq0 (paging 0) 6 = some 9 ∧ ((paging 0).clu 0).pc 1 = { tpages := [3] } ∧ (paging 0).locCheck 1 (.hbm 0x100000) 9 false = none
    ∧ after (.tellerLoad 0 []) (paging 0) (fun t => (t.clu 0).imem == [(1536, 0x201), (1537, 4)] && (t.clu 0).ddone) = true
    ∧ after (.tellerLoad 0 []) (paging 1) (fun t => (t.ctx 1).lastFault == 7) = true := by decide +kernel

/-- A descriptor at 0x100000 of a layer of one row and `n` columns on stack 0, w in BF16 at 0x110000, and its
coefficients at 0x101000: u is the gradient. -/
def layer (n : Nat) : Mem := wordsAt 0x100000 [(0x08, 0xFFFFFFFF), (0x1C, 1), (0x20, n), (0x24, 1), (0x28, 0x110000)]
  (wordsAt 0x101018 [(0, 0x3F800000)] [])
def mintSel (m : Mem) (u : List Update) : State :=
  { dev with hbm := m, upd := u, sel := { dev.sel with mtCtx := 1 }, mctx := [(1, { descBase := 0x100000, descCount := 1, coeffBase := 0x101000 })] }
/-- An update of context 1, in step 0, with fields changed. -/
def updating (m : Mem) (f : Update → Update) : Update :=
  f { ctx := 1, seq := 1, desc := 0, step := 0, eta := 0x3F000000, lam := 0, d := descOf m 0x100000, c := coeffOf m 0x101000
      clip := one32, frozen := false, shares := [{ stack := 0, armed := true }] }
def tabled2 (s : State) : List (Desc × Bool) := [(descOf s.hbm 0x100000, s.factored 0x101000 (descOf s.hbm 0x100000))]
theorem wit_desc_apply : (mintSel (layer 2) []).canWrite pgMintCtx = true ∧ (mintSel (layer 2) []).unitOn 1 = true
    ∧ (mintSel (layer 2) []).hasUpdate 1 = false ∧ (mintSel (layer 2) []).descOffender (tabled2 (mintSel (layer 2) [])) = none
    ∧ (mintSel (layer 0) []).descOffender (tabled2 (mintSel (layer 0) [])) = some 0 ∧ (mintSel [] [updating [] id]).hasUpdate 1 = true
    ∧ dev.action pgMintCtx 0 ≠ 2
    ∧ after (.descApply 1) (mintSel (layer 2) []) (fun t => (t.mtc 1).valid && (t.mtc 1).busy && (t.mtc 1).instCount == 1) = true
    ∧ after (.descApply 1) (mintSel (layer 0) []) (fun t => (t.mtc 1).reject && !(t.mtc 1).valid) = true
    ∧ after (.descApply 1) (mintSel (layer 2) [updating [] id]) (fun t => (t.mtc 1).reject && (t.mtc 1).instBase == 0) = true
    ∧ after (.descApplyDone 1) { dev with mctx := [(1, { busy := true })] } (fun t => !(t.mtc 1).busy) = true := by decide +kernel
theorem wit_mint_tables : after (.mintTableBaseWrite 0x48 3) (mintSel [] []) (fun t => (t.mtc 1).descBase == 0x300100000) = true
    ∧ after (.mintTableBaseWrite 0x44 0xFFFFFFFF) (mintSel [] []) (fun t => (t.mtc 1).descBase == 0xFFFFFF80) = true
    ∧ (0x1000 : W32).toNat % 2 ^ 13 ≤ 4096 ∧ after (.mintTableBaseWrite 0x4C 0x1000) (mintSel [] []) (fun t => (t.mtc 1).descCount == 0x1000) = true
    ∧ after (.mintTableBaseWrite 0x54 3) (mintSel [] [updating [] id]) (fun t => (t.mtc 1).coeffBase == 0x101000) = true := by decide +kernel
/-- Contexts 1 and 2 of the Ledger; context 2 is STOPPED and selected. -/
def ranged : State :=
  { dev with ctxs := [(1, ctx1), (2, { ctx1 with st := .stopped })], sel := { dev.sel with lgCtx := 2 }
             lgC := [(1, { entFirst := 4, entCount := 2 }), (2, { poolCount := 2, poolBase := 0x100000 })] }
theorem wit_ledger_ranges : ranged.canWrite pgLedger = true ∧ ranged.rangeRefused 2 16383 1 16384 (fun x => (x.entFirst, x.entCount)) = false
    ∧ ranged.rangeRefused 2 16383 2 16384 (fun x => (x.entFirst, x.entCount)) = true ∧ ranged.rangeRefused 2 5 1 16384 (fun x => (x.entFirst, x.entCount)) = true
    ∧ ranged.rangeRefused 2 511 1 512 (fun x => (x.adpFirst, x.adpCount)) = false ∧ dev.action pgLedger 0 ≠ 2
    ∧ after (.lgEntRangeWrite 0x13FFF) ranged (fun t => (t.lgc 2).entFirst == 16383 && (t.lgc 2).entCount == 1) = true
    ∧ after (.lgEntRangeWrite 0x23FFF) ranged (fun t => (t.lgc 2).entCount == 0) = true
    ∧ after (.lgEntRangeWrite 0x10006) ranged (fun t => (t.lgc 2).entFirst == 6) = true
    ∧ after (.lgAdpRangeWrite 0x101FF) ranged (fun t => (t.lgc 2).adpFirst == 511 && (t.lgc 2).adpCount == 1) = true
    ∧ after (.lgApply 1) ranged (fun t => (t.lgc 2).free == [0, 1] && (t.lgc 2).valid && (t.lgc 2).iPool == 0x100000) = true
    ∧ after (.lgApply 1) { ranged with lgC := [] } (fun t => (t.lgc 2).reject && !(t.lgc 2).valid) = true := by decide +kernel
def setOf (m : Mem) : State := { dev with hbm := m, sel := { dev.sel with sgCtx := 1 }, sgC := [(1, { setBase := 0x100000, setCount := 1 })] }
/-- A MIRROR item of the last 256 bytes of page 19. -/
def item1 (k : Nat) : Mem := wordsAt 0x100000 [(0, k), (8, 0x13FF00), (16, 256)] []
theorem wit_set_apply : dev.canWrite pgStrong = true ∧ (setOf (item1 1)).offender 1 ((setOf (item1 1)).setTable 1) = none
    ∧ (setOf (item1 0)).offender 1 ((setOf (item1 0)).setTable 1) = some 0 ∧ dev.action pgStrong 0 ≠ 2 ∧ dev.unitOn 2 = true
    ∧ after (.setApply 1) (setOf (item1 1)) (fun t => (t.sgc 1).items == [{ kind := 1, tid := 0, base := 0x13FF00, len := 256 }] && (t.sgc 1).valid) = true
    ∧ after (.setApply 1) (setOf (item1 0)) (fun t => (t.sgc 1).reject && (t.sgc 1).items == []) = true := by decide +kernel

/-- An UPDATE of layer 0 in step `n`, in flight. -/
def updImg (n : Nat) : Image := img [(0, 1), (4, 5), (8, n), (0x14, 0x3F000000)]
def minting (n : Nat) (u : List Update) (m : Mem) : State :=
  let s := inFlight (updImg n) fun x _ => x
  { s with hbm := m, upd := u, boot := linked.boot, port := linked.port
           sched := { s.sched with update := [{ ctx := 1, seq := 1, img := updImg n, issued := false, acc := 0 }] }
           mctx := [(1, { instBase := 0x100000, instCount := 1, instCoeff := 0x101000, valid := true })] }
def armsAt (s : State) : Option Update := (s.sched.update.head?).bind fun q => match s.arming q with
  | .go u => some u
  | _ => none
def half (f : Update → Update) : State := minting 0 [updating (layer 2) f] (layer 2)
theorem wit_update : ((armsAt (minting 0 [] (layer 2))).map fun u => (u.frozen, u.shares.all fun h => (minting 0 [] (layer 2)).slotFree u h.stack)) = some (false, true)
    ∧ ((minting 0 [] (layer 2)).ctx 1).st = .resident ∧ (armsAt (minting 5 [] (layer 2))) = none
    ∧ after (.update 1) (minting 0 [] (layer 2)) (fun t => t.upd.map (fun u => (u.armed, u.eta, u.clip)) == [(true, 0x3F000000, one32)] && t.sched.update == []) = true
    ∧ after (.update 1) (minting 5 [] (layer 2)) (fun t => (t.ctx 1).lastFault == 0x110 && (t.mnt 0).lastFault == 0x100010) = true
    ∧ after (.updateArmResume 1 0) (half fun u => { u with shares := [{ stack := 0 }] }) (fun t => (t.upd.map (·.armed)) == [true]) = true := by decide +kernel
def opens (n : Nat) : Packet := { pkto 6 0 n [] with step := 0 }
theorem wit_mint_open : Arrives (half id) 5 (opens 2) 6 ∧ ((half id).updOf 1 0).map (fun u => (u.armed, u.opened, u.d.total)) = some (true, false, 2)
    ∧ ((half id).nums 1).step = 0 ∧ ((half id).mnt 0).service = false
    ∧ after (.mintOpen (.link 5 (opens 2) none)) (half id) (fun t => t.upd.map (fun u => (u.opened, u.total, u.scale)) == [(true, 2, 0x37800000)]) = true
    ∧ after (.mintOpen (.link 5 (opens 3) none)) (half id) (fun t => (t.ctx 1).lastFault == 0x114) = true := by
  unfold Arrives LinkTakes; decide +kernel
def opened (f : Update → Update) : State := half fun u => f { u with opened := true, total := 2, scale := one32 }
/-- The gradient 1.0 for element `e`. -/
def grad1 (e : Nat) : Packet := { pkto 7 (e * 2 ^ 12) (2 ^ 12) [0, 0, 0x80, 0x3F] with step := 0 }
def withW (s : State) : State := { s with hbm := Mem.writeN s.hbm 0x110000 4 0x40004000 }
def fates (s : State) (k : Packet) : Option (Bool × Nat × Nat) := (s.updOf 1 0).bind fun u => match u.fate (s.bundleOf k none) with
  | .apply i p => some (true, i, p)
  | .buffer i p => some (false, i, p)
  | _ => none
theorem wit_mint_arrives : Arrives (withW (opened id)) 5 (grad1 0) 7 ∧ Arrives (withW (opened id)) 5 (grad1 1) 7 := by
  unfold Arrives LinkTakes; decide +kernel
theorem wit_mint_bundle : fates (opened id) (grad1 0) = some (true, 0, 0) ∧ fates (opened id) (grad1 1) = some (false, 0, 1)
    ∧ ((opened id).bundleOf (grad1 1) none).vals = [one32] ∧ (opened id).issueOpen 0 = true ∧ ((opened id).nums 1).censusBase = 0
    ∧ ((opened id).updOf 1 0).map (fun u => ((⟨u, 0, 0⟩ : Job).ranges 0 1, (opened id).mintCheck 1 ((⟨u, 0, 0⟩ : Job).ranges 0 1), u.c.vMode, u.c.two, u.c.mFull))
      = some ([(0x110000, 2)], none, 0, false, false)
    ∧ after (.mintBundle (.link 5 (grad1 0) none)) (withW (opened id)) (fun t => Mem.readN t.hbm 0x110000 4 == 0x40003FC0
        && (t.mnt 0).elems == 1 && t.upd.map (fun u => u.shares.map fun h => (h.next, h.norm)) == [[(1, one32)]]) = true
    ∧ after (.mintBundle (.link 5 (grad1 1) none)) (withW (opened id)) (fun t => t.upd.map (fun u => u.shares.map fun h => h.reorder.length) == [[1]]
        && Mem.readN t.hbm 0x110000 4 == 0x40004000) = true := by decide +kernel
/-- The message of an engine for element `e`, or an OPEN of two elements. -/
def msg (e : Nat) (isOpen : Bool) : Bundle × Bool :=
  ({ ctx := 1, desc := 0, step := 0, first := e, col := 0, count := if isOpen then 2 else 1, fp32 := true, vals := [one32], lenOk := true }, isOpen)
def told (s : State) (m : Bundle × Bool) : State := { s with links := { s.links with toMint := [m] } }
theorem wit_engine_messages : ((told (half id) (msg 0 true)).engineMsg true fun b => ((told (half id) (msg 0 true)).doOpen b.ctx b.desc b.step b.count).isSome)
      = some (0, (msg 0 true).1)
    ∧ ((told (opened id) (msg 1 false)).engineMsg false fun b => ((told (opened id) (msg 1 false)).takeBundle ((told (opened id) (msg 1 false)).cut b).1).isSome)
      = some (0, (msg 1 false).1)
    ∧ ((told (opened id) (msg 1 false)).cut (msg 1 false).1).2 = none
    ∧ after (.mintOpen .engine) (told (half id) (msg 0 true)) (fun t => t.upd.map (·.opened) == [true] && t.links.toMint == []) = true
    ∧ after (.mintBundle .engine) (told (withW (opened id)) (msg 0 false)) (fun t => Mem.readN t.hbm 0x110000 4 == 0x40003FC0 && t.links.toMint == []) = true := by
  decide +kernel
def early : State := withW (opened fun u => { u with shares := [{ stack := 0, armed := true, next := 1, applied := 1, reorder := [(msg 1 false).1] }] })
theorem wit_reorder : (early.updOf 1 0).map (fun u => u.shares.map fun h => (h.reorder.find? fun b => (u.d.place b.first).2 = h.next).isSome) = some [true]
    ∧ after (.reorderBundleApply 0 1 0) early (fun t => Mem.readN t.hbm 0x110000 4 == 0x3FC04000 && t.upd.map (·.pass1Done) == [true]) = true := by decide +kernel
/-- All applied, with a trust ratio by layer: pass 2 is due. -/
def second : State := withW (opened fun u => { u with
  lam := one32, c := { u.c with modes := 0x20, e2 := 0 }, shares := [{ stack := 0, armed := true, next := 2, applied := 2, nw := one32, nu := one32 }] })
theorem wit_pass2 : (second.updOf 1 0).map (fun u => (u.pass1Done, u.c.two, u.frozen, u.pass2Ranges)) = some (true, true, false, [(0x110000, 4)])
    ∧ second.mintCheck 1 [(0x110000, 4)] = none ∧ second.issueOpen 0 = true
    ∧ after (.pass2Start 1 0) second (fun t => Mem.readN t.hbm 0x110000 4 == 0x3F803F80 && t.upd.map (fun u => u.shares.map (·.pass2)) == [[true]]) = true := by
  decide +kernel
/-- All applied, without a second pass, the squared norm to word 0x100 of cluster 0. -/
def through (f : Update → Update) : State := opened fun u => f { u with
  d := { u.d with normDest := 0x20000 }, shares := [{ stack := 0, armed := true, next := 2, applied := 2, norm := 0x40000000 }] }
theorem wit_update_complete : ((through id).updOf 1 0).map (fun u => (u.pass1Done, u.torn, u.frozen, u.c.two)) = some (true, false, false, false)
    ∧ (through id).hbmCheck 1 0x100004 8 true true = none ∧ dev.action pgMintCtx 3 ≠ 2 ∧ dev.action pgMintCtx 1 ≠ 2
    ∧ after (.updateComplete 1 0) (through id) (fun t => Mem.readN t.hbm 0x100004 8 == 1 && (t.clu 0).mem.read32 0x100 == 0x40000000
        && t.sched.tokens == 0 && (t.ctx 1).completeSeq == 1 && t.upd == [] && (t.mtc 1).updates == 1) = true
    ∧ after (.updateComplete 1 0) (through fun u => { u with frozen := true }) (fun t => (t.clu 0).mem == [] && (t.mtc 1).frozenCount == 1
        && (t.ctx 1).completeSeq == 1) = true := by decide +kernel

/-- A SEQ command of context 1 in progress, on entries 0 and 1 and adapter slot 0; 16 positions to a page. -/
def seqOn (l : List (Nat × Nat)) (e : Entry) (f : LgCtx → LgCtx) : State :=
  let i := img ([(0, 1), (4, 11)] ++ l)
  let s := inFlight i fun x _ => x
  { s with sched := { s.sched with seq := [{ ctx := 1, seq := 1, img := i, issued := false, acc := 0 }] }
           lgE := [(0, e)], lgA := [(0, { cur := { version := 3, rank := 8, addr := 0x100400, refs := 1 } })]
           lgC := [(1, f { entCount := 2, adpCount := 1, iKv := 4, iPool := 0x100000, iCount := 4, iLink := 0x100100, valid := true, free := [0, 1] })]
           hbm := wordsAt 0x100000 [(0, 16), (4, 17), (8, 18), (12, 19)] [] }
def done (t : State) : Bool := t.sched.seq == [] && (t.ctx 1).completeSeq == 1
def odd : State := seqOn [(0x10, 1), (0x14, 2)] {} id
theorem wit_seq_faults : (odd.seqHead 1 1).isSome = true ∧ odd.unitOn 3 = true ∧ (odd.lgc 1).hasEnt 2 = false ∧ (odd.lgc 1).hasEnt 1 = true
    ∧ State.unitOn { odd with boot := { odd.boot with profile := 1 } } 3 = false
    ∧ ([(.seqOpen 1, 1), (.seqPause 1, 4), (.seqResume 1, 5), (.seqFree 1, 6), (.seqSet 1, 7)] : List (Instr × Nat)).all (fun p =>
        after p.1 { seqOn [(0x10, p.2), (0x14, 2)] {} id with boot := { up.boot with profile := 1 } } (fun t => (t.ctx 1).lastFault == 0x301)
        && after p.1 (seqOn [(0x10, p.2), (0x14, 2)] {} id) (fun t => (t.ctx 1).lastFault == 0x302)
        && after p.1 (seqOn [(0x10, p.2), (0x14, if p.2 = 1 then 0 else 1)] { state := 1 } id) fun t => (t.ctx 1).lastFault == 0x303) = true := by decide +kernel
def opening : State := seqOn [(0x10, 1), (0x14, 1), (0x18, 0x205), (0x1C, 9), (0x20, 100), (0x24, 10), (0x28, 0x200), (0x2C, 77)] {} id
theorem wit_seq_open : (opening.ent 1).state = 0 ∧ (opening.lgc 1).hasAdp 0 = true ∧ (opening.adp 0).cur.rank ≠ 0 ∧ (opening.lgc 1).hasEnt 1 = true
    ∧ after (.seqOpen 1) opening (fun t => (t.ent 1).state == 1 && (t.ent 1).prio == 5 && (t.ent 1).draftLen == 2 && (t.ent 1).maxLen == 100
        && (t.ent 1).promptLeft == 10 && (t.ent 1).version == 3 && (t.adp 0).cur.refs == 2 && done t) = true
    ∧ after (.seqSet 1) (seqOn [(0x10, 7), (0x18, 5), (0x1C, 9)] { state := 2, prio := 1, length := 4 } id)
        (fun t => t.ent 0 == { state := 2, prio := 5, length := 4, deadline := 9 } && done t) = true := by decide +kernel
def freeing (b : Bool) : State := seqOn [(0x10, 6)] { state := 2, inStep := b, pages := [2], cpages := [3], adpEn := true, version := 3 } id
theorem wit_seq_free : (freeing true).ent 0 ≠ {} ∧ (LinksOk (freeing false) 1 [2, 3]) ∧ ((freeing false).ent 0).holds = true
    ∧ after (.seqFree 1) (freeing true) (fun t => (t.ent 0).freePend && done t) = true
    ∧ after (.seqFree 1) (freeing false) (fun t => t.ent 0 == {} && (t.lgc 1).free == [3, 2, 0, 1] && (t.adp 0).cur.refs == 0 && done t) = true := by
  unfold LinksOk; decide +kernel
def pausing (flags : Nat) (e : Entry) (f : LgCtx → LgCtx) : State := seqOn [(0x10, 4), (0x18, flags)] e f
def running : Entry := { state := 2, pages := [2], length := 16 }
theorem wit_seq_pause : (pausing 1 running id).ent 0 = running ∧ LinksOk (pausing 1 running id) 1 [2] ∧ ((pausing 0 running fun x => { x with free := [0] }).lgc 1).free.length < 2
    ∧ running.old 16 = 0 ∧ ((pausing 0 running id).lgc 1).kvFmt = 0 ∧ LinksOk (pausing 0 running id) 1 ([2] ++ [])
    ∧ (match (pausing 0 running id).pauseEnt 1 0 false with | .done s' _ => (s'.ent 0).pages ++ (s'.ent 0).cpages ++ (pausing 0 running id).freed s' 1 | _ => []) = [2]
    ∧ after (.seqPause 1) (pausing 1 { running with inStep := true } id) (fun t => (t.ent 0).pausePend && (t.ent 0).pauseExact && (t.ent 0).state == 2 && done t) = true
    ∧ after (.seqPause 1) (pausing 1 running id) (fun t => t.ent 0 == { running with state := 5 } && Mem.readN t.hbm 0x100110 8 == 0xFFFFFF00FFFFFF && done t) = true
    ∧ after (.seqPause 1) (pausing 0 running fun x => { x with free := [0] }) (fun t => t.ent 0 == { running with state := 5 } && done t) = true
    ∧ after (.seqPause 1) (pausing 0 running id) (fun t => t.ent 0 == { running with state := 5, compressed := true } && done t) = true := by
  unfold LinksOk; decide +kernel
theorem wit_squeeze : (squeeze [9, 8, 7] [0, 1, 2, 3, 4]).data = [9, 3] ∧ (squeeze [9, 8, 7] [0, 1, 2, 3, 4]).scale = [8]
    ∧ (squeeze [9, 8, 7] [0, 1, 2, 3, 4]).free = [4, 2, 1, 0, 7] ∧ ({ length := 256 + 47, pages := [1, 2, 3] } : Entry).old 16 = 2 := by decide +kernel
def resuming (e : Entry) (f : LgCtx → LgCtx) : State := seqOn [(0x10, 5)] { e with state := 5 } f
theorem wit_seq_resume : LinksOk (resuming { compressed := true, pages := [2] } id) 1 [2]
    ∧ ((resuming { compressed := true, cold := 3 } id).lgc 1).free.length < ((resuming { compressed := true, cold := 3 } id).ent 0).cold
    ∧ (resuming { compressed := true, cold := 1, cpages := [2, 3] } id).hbmCheck 1 0x100000 65536 true false = none
    ∧ (resuming { compressed := true, cold := 1, cpages := [2, 3] } id).poolPage 1 0 = 16 ∧ LinksOk (resuming { compressed := true, cold := 1, cpages := [2, 3] } id) 1 ([0] ++ [] ++ [2, 3])
    ∧ after (.seqResume 1) (resuming running id) (fun t => t.ent 0 == { running with state := 1 } && done t) = true
    ∧ after (.seqResume 1) (resuming { compressed := true, cold := 3 } id) (fun t => (t.ent 0).state == 5 && done t) = true
    ∧ after (.seqResume 1) (resuming { compressed := true, pages := [2] } id) (fun t => t.ent 0 == { state := 1, pages := [2] } && done t) = true := by
  unfold LinksOk; decide +kernel
/-- A prefill gather of at most 8 tokens in chunks of 4, one row, manifest 0 at 0x110000. -/
def gathering (f : LgCtx → LgCtx) : State :=
  seqOn [(0x10, 2), (0x1C, 1), (0x20, 8), (0x24, 4), (0x28, 0x110000), (0x30, 132)] { state := 1, maxLen := 100, promptLeft := 10, user := 9 } f
theorem wit_seq_gather : (gathering id).eligible 1 0 = [0] ∧ ((gathering id).lgc 1).man 0 = none ∧ dev.action pgLedger 2 ≠ 2 ∧ dev.action pgLedger 3 ≠ 2
    ∧ ((gathering id).seqHead 1 2).map (fun q => ((((gathering id).pick 1 (gOps q.img)).manifest 1 (gOps q.img)).length, ((gathering id).pick 1 (gOps q.img)).named)) = some (132, [0])
    ∧ (gathering id).hbmCheck 1 0x110000 132 true false = none ∧ LinksOk (gathering id) 1 [0]
    ∧ after (.seqGather 1) (gathering id) (fun t => (t.ent 0).inStep && (t.ent 0).state == 2 && (t.ent 0).preState == 1 && (t.ent 0).pages == [0]
        && (t.lgc 1).free == [1] && Mem.readN t.hbm 0x110004 4 == 4 && Mem.readN t.hbm 0x110048 4 == 4 && Mem.readN t.hbm 0x110080 4 == 16 && done t
        && (t.lgc 1).man 0 == some { phase := 0, rows := [{ entry := 0, count := 4, prompt := true }] }) = true
    ∧ after (.seqGather 1) (gathering fun x => { x with manifests := [(0, some { phase := 0, rows := [] })] }) (fun t => (t.ctx 1).lastFault == 0x304) = true := by
  unfold LinksOk; decide +kernel
/-- A commit of a manifest of one row; the results stand at 0x100200. -/
def committing (phase : BitVec 2) (r : MRow) (e : Entry) (n : Nat) : State :=
  let s := seqOn [(0x10, 3), (0x18, 0x100200)] { e with inStep := true } fun x => { x with manifests := [(0, some { phase := phase, rows := [r] })] }
  { s with hbm := wordsAt 0x100200 [(0, n), (4, 55)] s.hbm }
def prompted : State := committing 0 { entry := 0, count := 4, prompt := true } { state := 2, length := 12, maxLen := 99, promptLeft := 4, pages := [3, 2] } 0
def drafted3 : State := committing 1 { entry := 0, count := 2, prompt := false } { state := 3, maxLen := 99, draftLen := 2 } 3
theorem wit_seq_commit : (prompted.lgc 1).man 0 = some { phase := 0, rows := [{ entry := 0, count := 4, prompt := true }] }
    ∧ prompted.hbmCheck 1 0x100200 8 false false = none ∧ LinksOk prompted 1 [3, 2] ∧ prompted.badResult 0 ({ entry := 0, count := 4, prompt := true }, resultAt prompted.hbm 0x100200) = false
    ∧ (match prompted.committed 1 { phase := 0, rows := [{ entry := 0, count := 4, prompt := true }] } 0x100200 with | .done s _ => (s.ent 0).pages | _ => []) = [3]
    ∧ after (.seqCommit 1) prompted (fun t => t.ent 0 == { state := 2, length := 16, maxLen := 99, nextToken := 55, pages := [3] }
        && (t.lgc 1).free == [2, 0, 1] && (t.lgc 1).man 0 == none && done t) = true
    ∧ after (.seqCommit 1) drafted3 (fun t => (t.ctx 1).lastFault == 0x305) = true
    ∧ after (.seqCommit 1) (seqOn [(0x10, 3)] {} id) (fun t => (t.ctx 1).lastFault == 0x304) = true := by
  unfold LinksOk; decide +kernel
theorem wit_commit_rows : (({ state := 2, length := 12, maxLen := 13, inStep := true } : Entry).apply 0 { entry := 0, count := 1, prompt := false } ⟨0, false, false, 7⟩
      = { state := 6, length := 13, maxLen := 13, nextToken := 7, trunc := true })
    ∧ (({ state := 2, length := 12, maxLen := 14, inStep := true } : Entry).apply 0 { entry := 0, count := 1, prompt := false } ⟨0, true, false, 7⟩
      = { state := 6, length := 13, maxLen := 14, nextToken := 7 })
    ∧ (({ state := 3, length := 12, maxLen := 14, inStep := true } : Entry).apply 1 { entry := 0, count := 2, prompt := false } ⟨1, false, false, 7⟩
      = { state := 4, length := 12, maxLen := 14, drafted := 1 })
    ∧ (({ state := 4, length := 12, maxLen := 20, drafted := 3, inStep := true } : Entry).apply 2 { entry := 0, count := 4, prompt := false } ⟨3, false, false, 7⟩
      = { state := 2, length := 16, maxLen := 20, nextToken := 7 })
    ∧ (({ state := 3, length := 12, inStep := true } : Entry).apply 1 { entry := 0, count := 4, prompt := false } ⟨3, false, true, 7⟩ = { state := 2, length := 12 }) := by
  decide +kernel
def loading (rank addr : Nat) : State := seqOn [(0x10, 8), (0x18, rank), (0x20, addr)] {} id
theorem wit_adapter_load : ((loading 128 0x100800).adp 0).old.refs = 0 ∧ ((loading 128 0x100800).lgc 1).hasAdp 0 = true
    ∧ after (.seqAdapterLoad 1) (loading 128 0x100800) (fun t => t.adp 0 == { old := { version := 3, rank := 8, addr := 0x100400, refs := 1 }, cur := { version := 4, rank := 128, addr := 0x100800 } } && done t) = true
    ∧ after (.seqAdapterLoad 1) ((loading 128 0x100800).modAdp 0 fun x => { x with old := { refs := 1 } }) (fun t => (t.adp 0).cur.version == 3 && done t) = true
    ∧ after (.seqAdapterLoad 1) (loading 129 0x100800) (fun t => (t.ctx 1).lastFault == 0x306) = true
    ∧ after (.seqAdapterLoad 1) (loading 0 0x100800) (fun t => (t.ctx 1).lastFault == 0x306) = true := by decide +kernel
/-- No page is copied: the transfer is empty. -/
def variant (flash n : Nat) (e : Entry) : State := seqOn [(0x10, 9), (0x14, 5 + flash * 256), (0x18, 0x5000), (0x28, 0x110000), (0x30, n)] e id
theorem wit_variant_load : (variant 1 1 {}).hbmCheck 1 0x110000 4096 true false = none ∧ (variant 0 1 {}).boot.hostUp = true
    ∧ (variant 1 1 {}).hbmCheck 1 0x13F000 4096 true false = none ∧ (variant 1 1 {}).hbmCheck 1 0x13F001 4096 true false = some 6
    ∧ ((variant 1 1 { inStep := true }).lgc 1).ents = [0, 1]
    ∧ after (.seqVariantLoad 1 true [(1, 7)]) (variant 1 0 {}) (fun t => (t.lgc 1).variant == 5 && done t) = true
    ∧ after (.seqVariantLoad 1 true [(0x5001, 7)]) (variant 0 0 {}) (fun t => t.host == [(0x5001, 7)] && (t.lgc 1).variant == 5) = true
    ∧ after (.seqVariantLoad 1 false []) (variant 1 1 {}) (fun t => (t.ctx 1).lastFault == 0x307) = true
    ∧ after (.seqVariantLoad 1 true []) (variant 1 1 { inStep := true }) (fun t => (t.ctx 1).lastFault == 0x303) = true := by decide +kernel

/-- Context 1's Strongroom state, of a CKPT command of operation `op`. -/
def ckpt (op : Nat) (f : SgCtx → SgCtx) : State :=
  let i := img [(0, 1), (4, 10), (0x10, op)]
  let s := inFlight i fun x _ => x
  { s with sched := { s.sched with ckpt := [{ ctx := 1, seq := 1, img := i, issued := false, acc := 0 }] }
           sel := { s.sel with sgCtx := 1 }, sgC := [(1, f { valid := true })], sg := { tierActive := 2, flashNsid := 1, hostBase := 0x8000 } }
def epoch1 (e : Epoch) : State := ckpt 1 fun x => { x with stageBase := 0x130000, stageSize := 1, epoch := some e }
theorem wit_epochs : dev.unitOn 2 = true ∧ ((ckpt 1 id).sgc 1).period ≠ 0 ∧ ((ckpt 1 id).ckptHead 1 1).isSome = true ∧ ((ckpt 2 id).ckptHead 1 2).isSome = true
    ∧ dev.action pgStrong 1 ≠ 2 ∧ ((ckpt 2 id).sgc 1).teachers = []
    ∧ after (.mirrorDeltaAck 1) (ckpt 1 fun x => { x with delta := some 5 }) (fun t => (t.sgc 1).mirrorStep == 5 && (t.sgc 1).delta == none) = true
    ∧ after (.epochTimer 1) (ckpt 1 id) (fun t => (t.sgc 1).due) = true
    ∧ after (.epochTimer 1) (epoch1 { step := 3, prot := [] }) (fun t => (t.sgc 1).skip == 1 && !(t.sgc 1).due) = true
    ∧ after (.epochNow 1) (ckpt 1 id) (fun t => (t.sgc 1).due && t.sched.ckpt == [] && t.sched.tokens == 0) = true
    ∧ after (.teacherSeal 1) (ckpt 2 id) (fun t => (t.sgc 1).teacherRec == [] && t.sched.ckpt == [] && t.sched.tokens == 0) = true := by decide +kernel
theorem wit_epoch_pages : (epoch1 { step := 3, prot := [16] }).epochOf (·.prot) 16 = some (1, { step := 3, prot := [16] })
    ∧ after (.pageTouch 16) (epoch1 { step := 3, prot := [16] }) (fun t => (t.sgc 1).epoch == some { step := 3, prot := [], copying := [16] }) = true
    ∧ after (.pageTouch 16) (epoch1 { step := 3, prot := [16], copying := [17] }) (fun t => (t.sgc 1).epoch == some { step := 3, prot := [16], copying := [17] }) = true
    ∧ after (.touchCopyDone 16) { epoch1 { step := 3, prot := [], copying := [16] } with hbm := [(0x10FFFF, 5), (0x110000, 6)] }
        (fun t => (t.sgc 1).epoch == some { step := 3, prot := [], staged := [(16, 0)] } && t.hbm == [(0x10FFFF, 5), (0x110000, 6), (0x13FFFF, 5)]) = true
    ∧ after (.shipPage 1) (epoch1 { step := 3, prot := [17], staged := [(16, 0)] }) (fun t => ((t.sgc 1).epoch.map fun e => (e.prot, e.staged, e.shipped.map (·.page)))
        == some ([17], [], [16])) = true
    ∧ after (.shipPage 1) (epoch1 { step := 3, prot := [17, 18] }) (fun t => ((t.sgc 1).epoch.map fun e => (e.prot, e.shipped.map (·.page))) == some ([18], [17])) = true
    ∧ (⟨3, [], [], [], [], {}⟩ : Epoch).allShipped = true
    ∧ after (.epochSeal 1) { epoch1 { step := 3, prot := [] } with hbm := [(0x12FFFF, 1), (0x130000, 2), (0x13FFFF, 3), (0x140000, 4)] }
        (fun t => (t.sgc 1).epoch == none && (t.sgc 1).sealed == 3 && (t.sgc 1).gens.map (·.tier) == [2] && t.hbm == [(0x12FFFF, 1), (0x140000, 4)]) = true
    ∧ after (.shipPage 1) { epoch1 { step := 3, prot := [17] } with sg := {} } (fun t => ((t.sgc 1).epoch.map (·.prot)) == some [17]) = true := by decide +kernel
theorem wit_tiers : (ckpt 1 id).sg.tierActive ≠ 0
    ∧ after .tierLost (epoch1 { step := 3, prot := [16] }) (fun t => t.sg.tierActive == 3 && t.sg.lost == [2] && (t.sgc 1).epoch == none && (t.sgc 1).due) = true
    ∧ after .tierLost { ckpt 1 (fun x => { x with delta := some 4, deltaPin := { mirror := [(0x110000, 256, [])] } }) with sg := { tierActive := 3, hostBase := 0x8000 } }
        (fun t => t.sg.tierActive == 0 && (t.sgc 1).delta == none && (t.sgc 1).dirty == [0x1100]) = true
    ∧ after (.tierReset 1) { ckpt 1 id with sg := { tierActive := 0, lost := [2, 3], hostBase := 0x8000 } } (fun t => t.sg.tierActive == 3 && t.sg.lost == []) = true
    ∧ after (.hostAckWrite 9) dev (fun t => t.sg.hostAck == 9) = true
    ∧ after (.hostAckWrite 4) { dev with sg := { tierActive := 3, hostBase := 0x8000, hostSent := 4, outbox := [(1, [5])] } }
        (fun t => t.sg.hostSent == 5 && t.sg.outbox == [] && t.host == [(0x8000, 5)]) = true := by decide +kernel
/-- A generation of step 5 that holds page 16. -/
def saved (tier : Nat) : Gen :=
  { step := 5, tier := tier, pages := [{ page := 16, sum := 1, data := [(0, 7)] }], pin := { mirror := [(0x110000, 2, [(1, 8)])], num := { seed := 3 } } }
/-- Context 1 is STOPPED; its generation of step 5 holds page 16. -/
def gen5 (tier : Nat) (f : SgCtx → SgCtx) : State :=
  State.modCtx { (ckpt 1 fun x => f { x with restoreStep := 5, replica := 0xFFF, gens := [saved tier] }) with sg := { tierActive := 3, hostBase := 0x8000 } } 1 fun x => { x with st := .stopped }
/-- The host port is down. -/
def down (s : State) : State := { s with boot := { s.boot with hostUp := false } }
theorem wit_restore : (gen5 3 id).canWrite pgStrong = true ∧ ((gen5 3 id).ctx 1).st = .stopped
    ∧ ((gen5 3 id).genOf 1 5).map (fun g => ((gen5 3 id).restoreReady 1 g, (down (gen5 3 id)).restoreReady 1 g)) = some (true, false)
    ∧ State.genOf { gen5 3 id with sg := { lost := [3] } } 1 5 = none ∧ (gen5 3 id).hbmCheck 1 (65536 * 16) 65536 true true = none
    ∧ (gen5 3 id).hbmCheck 1 0x110000 2 true true = none
    ∧ ((gen5 3 id).nums 1).censusBase = 0 ∧ ((gen5 3 id).mtc 1).valid = false
    ∧ after (.restoreGo 1) (ckpt 1 id) (fun t => (t.sgc 1).restoreStatus == 0) = true
    ∧ after (.restoreGo 1) { gen5 3 id with sg := { lost := [3] } } (fun t => (t.sgc 1).restoreStatus == 2) = true
    ∧ after (.restoreGo 1) (down (gen5 3 id)) (fun t => (t.sgc 1).restoreWait && (t.sgc 1).restoreStatus == 1 && t.hbm == []) = true
    ∧ after (.restoreValidate 1 []) ((down (gen5 3 id)).modSgc 1 fun x => { x with restoreStatus := 1, restoreWait := true }) (fun t => (t.sgc 1).restoreWait) = true
    ∧ after (.restoreGo 1) { gen5 3 id with hbm := [(0x100001, 1), (0x110000, 2)] } (fun t => (t.sgc 1).restoreStatus == 1 && t.hbm == [(0x100000, 7), (0x110001, 8)]
        && (t.nums 1).seed == 3 && (t.ctx 1).flight == []) = true := by decide +kernel
/-- The checksum of an empty page. -/
def sum0 : W64 := pageSum [] 0
/-- The restored page stands in HBM as `m`; its record is of checksum `sum`. -/
def judging (m : Mem) (rep : CtxId) (sum : W64) : State :=
  { (gen5 3 fun x => { x with restoreStatus := 1, replica := rep, gens := [{ step := 5, tier := 3, pages := [{ page := 16, sum := sum, data := [] }], pin := {} }] }) with hbm := m }
def report (ok : Bool) (sum : W64) : List ReplicaPage := [{ addr := 0x100000, matchesRec := ok, sum := sum, data := [] }]
theorem readN_last (n : Nat) : ∀ a, a + n ≤ 0x10FFFF → Mem.readN [(0x10FFFF, 1)] a n = 0 := by
  induction n with
  | zero => exact fun _ _ => rfl
  | succ n ih =>
    intro a h
    have e : Mem.read [(0x10FFFF, 1)] a = 0 := if_pos (by omega)
    simp only [Mem.readN, e, ih (a + 1) (by omega)]; rfl
/-- The checksum of a page with one word that is not 0, its last. -/
def lastSum (w : W64) : W64 := (List.range 8192).foldl (fun c i => sumStep c (if i = 8191 then w else 0) i) 0x6a09e667f3bcc908#64
theorem pageSum_last : pageSum [(0x10FFFF, 1)] 0x100000 = lastSum 0x0100000000000000#64 := by
  refine List.foldl_ext _ _ _ (fun c i h => ?_)
  have h := List.mem_range.1 h
  by_cases e : i = 8191
  · subst e; exact congrArg (sumStep c · 8191) (by decide +kernel)
  · rw [if_neg e, Mem.read64, readN_last 8 _ (by omega)]; rfl
theorem sum0_last : sum0 = lastSum 0 := List.foldl_ext _ _ _ (fun c i _ => by rw [ite_self]; rfl)
theorem lastSum_ne : lastSum 0x0100000000000000#64 ≠ sum0 := by rw [sum0_last]; decide +kernel
theorem pageSum_nil (a : Nat) : pageSum [] a = sum0 := rfl
theorem judging_hbm (m : Mem) (rep : CtxId) (sum : W64) : (judging m rep sum).hbm = m := rfl
/-- The restored page agrees with its record; it does not, and the replica's page does. -/
theorem wit_restore_sums : pageSum (judging [] 1 sum0).hbm 0x100000 = sum0 ∧ pageSum (judging [] 1 (sum0 + 1)).hbm 0x100000 ≠ sum0 + 1
    ∧ pageSum (judging [(0x10FFFF, 1)] 1 sum0).hbm 0x100000 ≠ sum0 ∧ pageSum (Mem.stores [] []) 0 = sum0 := by
  rw [judging_hbm, judging_hbm, judging_hbm, pageSum_nil, pageSum_last]
  exact ⟨rfl, by simp, lastSum_ne, pageSum_nil 0⟩
theorem wit_restore_gen (m : Mem) (rep : CtxId) (sum : W64) :
    ((judging m rep sum).genOf 1 5).map (·.pages) = some [{ page := 16, sum := sum, data := [] }] := rfl
theorem wit_restore_validate : (report true 1).find? (fun p => p.addr.toNat = 65536 * 16) = (report true 1).head? ∧ ((report true 1).head?.map (·.matchesRec)) = some true
    ∧ (judging [] 1 1).hbmCheck 1 (65536 * 16) 65536 true true = none
    ∧ ((judging [] 1 1).sgc 1).restoreWait = false ∧ ((judging [] 1 1).sgc 1).restoreStatus = 1 ∧ ((judging [] 1 1).sgc 1).replica ≠ 0xFFF ∧ ((judging [] 0xFFF 1).sgc 1).replica = 0xFFF := by decide +kernel

/-- Context 1 with a partition of granules 4 to 7 of die 2; page 16 may be a TEACHER page with attributes. -/
def faulty (attr : Nat) (f : SgCtx → SgCtx) : State :=
  { linked with pot := [(16, BitVec.ofNat 16 (0x1001 + attr))], sgC := [(1, f { valid := true, items := [{ kind := 3, tid := 0, base := 0x100000, len := 65536 }] })]
                td := [(2, { part := [(1, { valid := true, geo := { base := 4, size := 4 } })] })] }
theorem wit_correctable : dev.ready = true ∧ after (.correctableError (.cluster 0 5)) dev (fun t => t.sg.ceCount == 1 && (t.clu 0).memCe == 1) = true
    ∧ after (.correctableError (.hbm 5 none)) dev (fun t => t.sg.ceCount == 1) = true ∧ after (.correctableError (.till 0 1)) dev (fun t => t.sg.ceCount == 0) = true
    ∧ after (.hbmRetrain 0 3) dev (fun t => t.sg == dev.sg) = true ∧ after (.patrolScrub 0 3 none) dev (fun t => t.sg.ceCount == 3 && t.sg.ueLog == 0) = true
    ∧ after (.patrolScrub 0 0xFFFFFFFF (some 0x64)) dev (fun t => t.sg.ceCount == 0xFFFFFFFF && t.sg.ueLog == 0x64 && bit (SMap.get {} t.hdr pgStrong).alarm.toNat 3) = true := by
  decide +kernel
theorem wit_uncorrectable : (faulty 0 id).page 16 = 0x1001 ∧ (faulty 0 id).epochOf (·.copying) 16 = none ∧ (faulty 0x2000 id).teacherSrc 1 = false
    ∧ (faulty 0x2000 fun x => { x with teacherSrc := 1 }).teacherSrc 1 = true ∧ bit ((faulty 0x2000 id).page 16) 13 = true ∧ ((faulty 0 id).sgc 1).teachers = [16]
    ∧ bit ((faulty 0 id).page 20) 12 = false
    ∧ (faulty 0 fun x => { x with epoch := some { step := 3, prot := [], copying := [16] } }).epochOf (·.copying) 16 = some (1, { step := 3, prot := [], copying := [16] })
    ∧ after (.uncorrectableError (.hbm 0x100000 none)) (faulty 0 fun x => { x with epoch := some { step := 3, prot := [], copying := [16] } })
        (fun t => (t.sgc 1).epoch == none && (t.ctx 1).lastFault == 0x501 && t.sg.ueLog == 0x100000) = true
    ∧ after (.uncorrectableError (.hbm 0x140000 none)) (faulty 0 id) (fun t => (t.ctx 1).st == .resident && t.sg.ueLog == 0x140000) = true
    ∧ after (.uncorrectableError (.hbm 0x10FFFF none)) (faulty 0 id) (fun t => (t.ctx 1).lastFault == 0x501) = true
    ∧ after (.uncorrectableError (.hbm 0x10FFFF (some 1))) (faulty 0x2000 id) (fun t => (t.ctx 1).lastFault == 0x501) = true
    ∧ after (.uncorrectableError (.hbm 0x10FFFF none)) (faulty 0x2000 fun x => { x with teacherSrc := 1 })
        (fun t => (t.ctx 1).st == .resident && t.sg.refetch == [(16, 1)]) = true := by decide +kernel
theorem wit_uncorrectable_places : dev.clusterOwner 0 (fun d => d.owns 0x1FFFF 1) = some 1 ∧ dev.clusterOwner 0 (fun d => d.owns 0x20000 1) = none
    ∧ dev.clusterOwner 0 (fun d => decide (d.tillBase ≤ 15) && decide (15 < d.tillBase + 2 ^ d.tillLog)) = some 1
    ∧ (faulty 0 id).partOwner 2 7 = some 1 ∧ (faulty 0 id).partOwner 2 8 = none
    ∧ after (.uncorrectableError (.cluster 0 0x1FFFF)) dev (fun t => (t.ctx 1).lastFault == 0x501 && bit (SMap.get {} t.hdr (pgCluster 0)).alarm.toNat 1) = true
    ∧ after (.uncorrectableError (.cluster 0 0x20000)) dev (fun t => (t.ctx 1).st == .resident && bit (SMap.get {} t.hdr (pgCluster 0)).alarm.toNat 1) = true
    ∧ after (.uncorrectableError (.till 0 15)) dev (fun t => (t.ctx 1).lastFault == 0x501) = true
    ∧ after (.uncorrectableError (.escrow 2 7)) (faulty 0 id) (fun t => (t.ctx 1).lastFault == 0x501) = true := by decide +kernel
/-- Page 16 is being fetched anew; its record is the empty page's, or none. -/
def fetching (r : SMap (Option W64)) : State :=
  { faulty 0x2000 (fun x => { x with teacherRec := r }) with sg := { refetch := [(16, 1)] }, hbm := [(0x10FFFF, 4), (0x110000, 5)] }
theorem wit_refetch : ((fetching []).sg.refetch.find? (·.1 = 16)) = some (16, 1) ∧ (fetching []).page 16 % 4096 = 1
    ∧ SMap.get none ((fetching [(16, some sum0)]).sgc 1).teacherRec 16 = some sum0 ∧ SMap.get none ((fetching []).sgc 1).teacherRec 16 = none
    ∧ after (.teacherRefetchDone 16 []) (fetching []) (fun t => (t.ctx 1).lastFault == 0x501 && t.sg.refetch == []) = true := by decide +kernel
theorem wit_refetch_sum : SMap.get none ((fetching [(16, some sum0)]).sgc 1).teacherRec 16 = some (pageSum (Mem.stores [] []) 0) := rfl
/-- A self-test of a kind of unit 0, in a phase. -/
def selftest (kind : Nat) (st : BitVec 2) : State :=
  { up with hbm := [(5, 1), (0x800007, 2), (0x800008, 3)], st := { req := BitVec.ofNat 32 (kind + 2 ^ 31), svcBase := 8, svcAt := 8, st := st } }
theorem wit_self_test : dev.canWrite pgSelfTest = true ∧ dev.unitExists { req := 0x80000000#32 } = true ∧ dev.unitExists { req := 0x800004B0#32 } = false
    ∧ (selftest 0 1).unitQuiet = true ∧ (selftest 2 1).unitQuiet = true ∧ (selftest 3 1).unitQuiet = true
    ∧ after (.testReq 0x80000000#32) dev (fun t => t.st.st == 1) = true ∧ after (.testReq 0x800004B0#32) dev (fun t => t.st.st == 0) = true
    ∧ after .unitWithdrawn (selftest 0 1) (fun t => t.st.st == 2 && (t.clu 0).service) = true
    ∧ after .unitWithdrawn (selftest 2 1) (fun t => t.st.st == 2 && (t.tdie 0).service) = true
    ∧ after .unitWithdrawn (selftest 3 1) (fun t => t.st.st == 2 && (t.mnt 0).service) = true
    ∧ (selftest 1 1).usesSvc = true ∧ (selftest 1 1).svcOpen = true ∧ State.svcOpen { selftest 1 1 with pot := [(0, 0x1001)] } = false
    ∧ after .unitWithdrawn ((selftest 1 1).modCl 0 fun x => { x with mem := [(0x5FFFFF, 9)] }) (fun t => t.st.st == 2 && (t.clu 0).service
        && t.hbm == [(5, 1), (0x600007, 9), (0x800008, 3)]) = true
    ∧ after .unitWithdrawn { selftest 1 1 with pot := [(0, 0x1001)] } (fun t => t.st.st == 1 && !(t.clu 0).service) = true
    ∧ after .unitWithdrawn ((selftest 4 1).modPort 0 fun x => { x with st := .up, lanes := 0x1FFFF }) (fun t => t.st.st == 2 && (t.prt6 0).lanes == 0x1FFFE
        && (t.prt6 0).restripe) = true := by decide +kernel
theorem wit_test_done : ((selftest 3 2).modMnt 0 fun x => { x with service := true }).st.st = 2
    ∧ after (.testDone true) ((selftest 3 2).modMnt 0 fun x => { x with service := true }) (fun t => !(t.mnt 0).service && t.st.pass && t.st.st == 0
        && t.hbm == [(5, 1), (0x800007, 2), (0x800008, 3)]) = true
    ∧ after (.testDone true) ((selftest 1 2).modCl 0 fun x => { x with service := true, mem := [(7, 7)] }) (fun t => !(t.clu 0).service && t.st.pass
        && (t.clu 0).mem == [] && t.hbm == [(5, 1), (0x800008, 3)]) = true
    ∧ after (.testDone false) ((selftest 3 2).modMnt 0 fun x => { x with service := true }) (fun t => (t.mnt 0).failed && (t.mnt 0).service && t.st.fail
        && t.st.unitFailed == some 3) = true
    ∧ after (.testDone false) ((selftest 2 2).modTd 0 fun x => { x with service := true }) (fun t => (t.tdie 0).failed && t.hbm == [(5, 1), (0x800008, 3)]) = true
    ∧ State.heldFor { selftest 0 2 with ctxs := [(1, ctx1)] } = [1]
    ∧ after (.testDone false) { selftest 0 2 with ctxs := [(1, ctx1)] } (fun t => (t.clu 0).failed && (t.ctx 1).lastFault == 0x504
        && bit (SMap.get {} t.hdr (pgCluster 0)).alarm.toNat 0 && bit (SMap.get {} t.hdr pgSelfTest).alarm.toNat 0) = true := by decide +kernel

/-! ### Further clauses of the statements -/

theorem wit_ctx_rejects : ((ctxIn id).ctx 1).st ≠ .unused ∧ ((ctxIn id).ctx 1).st ≠ .stopped
    ∧ after .ctxCreate (ctxIn id) (fun t => t.ctx 1 == { ctx1 with cmdReject := true }) = true
    ∧ after .ctxStart (ctxIn id) (fun t => t.ctx 1 == { ctx1 with cmdReject := true }) = true
    ∧ after .ctxStart (ctxIn fun x => { x with st := .out }) (fun t => (t.ctx 1).cmdReject && (t.ctx 1).st == .out) = true := by decide +kernel
theorem wit_definitions_refused : ([.out, .loading, .saving, .scrubbing, .faulted] : List CtxSt).all (fun st =>
      after (.ctxDefinitionWrite 0x04C 5) (ctxIn fun x => { x with st := st }) fun t =>
        (t.ctx 1).priority == 0 && bit (SMap.get {} t.hdr pgClear).alarm.toNat 0) = true
    ∧ (ctxIn id).action pgClear 0 ≠ 2 := by decide +kernel
/-- Page 33, protected by an epoch of context 1. -/
def pagedProtected : State := paged.modSgc 1 fun x => { x with epoch := some { step := 1, prot := [33] } }
theorem wit_page_protected : pagedProtected.protectedPage 33 = true ∧ pagedProtected.ownerHeld 33 0x1002 = false
    ∧ after (.potDataWrite 0x1002) pagedProtected (fun t => t.page 33 == 0x1002 && t.hbm == paged.hbm && t.sg.scrub == [33]) = true := by decide +kernel
theorem wit_coll_route : collReady.hbmWait 0x100000 128 = false ∧ collReady.remapped 0 = collReady.devId
    ∧ (match collReady.parseColl 1 0x100000 with
      | .ok x => !collReady.collWait x && x.pos == 0 && x.n == 1 && x.devs == [0] && !x.bidir
      | .error _ => false) = true := by decide +kernel
theorem wit_chunk_waits : (colling (coll2 1)).chunkWaits 1 (coll2 1) true = false ∧ (colling (coll2 3)).bursar.hold = false
    ∧ ((linked.lkc 1).red).isNone = true ∧ reducing.peerOf 4 = reducing.neighbour 4 ∧ reducing.peerOf 5 = reducing.neighbour 5
    ∧ after (.ctrlReduce 4 (pkto 8 6 2 [])) reducing (fun t => ((t.lkc 1).red.map fun r => (r.acc, r.gotN + r.gotP)) == some (3, 1)) = true := by
  decide +kernel
/-- A command of context 1 in every other queue of the device. -/
def busyAll : State :=
  let q := cmd copyImg
  { (inFlight copyImg fun x q => { x with callq := [q], tel := some (telOf q), tileq := [⟨1, 0, [], []⟩]
                                          tally := [⟨1, 1, 1, 0, 0, false, false, 0⟩] }) with
    td := [(3, { tq := [q] })]
    sched := { dev.sched with tokens := 1, sync := [⟨q, true, 0⟩], update := [q], hint := [q], cheap := [q], ckpt := [q], seq := [q], eval := [q] } }
theorem wit_fault_queues : (busyAll.ctx 1).st = .resident
    ∧ after (.contextFault 1 3 0 0 0xFFFF) busyAll (fun t => let s := t.sched
        s.sync.isEmpty && (s.update ++ s.hint ++ s.cheap ++ s.ckpt ++ s.seq ++ s.eval).isEmpty && (t.tdie 3).tq.isEmpty && (t.clu 0).callq.isEmpty
        && (t.clu 0).tel.isNone && (t.clu 0).tileq.isEmpty && (t.clu 0).tally.isEmpty) = true := by decide +kernel
/-- STEP_CLOSE with its overflow word past the context's region. -/
def closingOut : State :=
  let i := img [(0, 2), (4, 7), (8, 7), (0x10, 3), (0x20, 0x10400)]
  { closing 7 with sched := { (closing 7).sched with sync := [⟨{ ctx := 1, seq := 2, img := i, issued := false, acc := 0 }, false, 0⟩] } }
theorem wit_close_word : (closingOut.sched.sync.map fun k => ovfWord k.q.img) = [some (0, 0x20000)]
    ∧ closingOut.locCheck 1 (.clu 0 0x20000) 4 false = some 3
    ∧ after (.stepClose 1) closingOut (fun t => (t.ctx 1).lastFault == 3) = true := by decide +kernel
/-- The device in profile HALF, without the Touchstone. -/
def noTouch : State := { staging 16 with boot := { dev.boot with profile := 1, options := 2 } }
theorem wit_part_disabled : noTouch.unitOn 0 = false ∧ (noTouch.tdie 1).badPart 1 = false
    ∧ after (.partApply 1 1) noTouch (fun t => (t.prt 1 1).reject && !(t.prt 1 1).valid && bit (SMap.get {} t.hdr (pgTouch 1)).alarm.toNat 0) = true := by
  decide +kernel
/-- A teacher group of one Till entry, its first tile offered. -/
def earlyImg : Image := img [(0, 1), (4, 1), (0x14, 0x4000), (0x18, 0x100001), (0x20, 0x4C000), (0x24, 5)]
def earlyGroup (f : MxRun → MxRun) : State := (grouping 1 6 id).modCl 0 fun x =>
  { x with mq := x.mq.map fun r => f { r with q := { r.q with img := earlyImg }, tile := 1, drained := 1, offers := offers16.take 1 } }
theorem wit_early_group : ((earlyGroup id).groupAt 0 0 1).map (fun g => (g.complete, g.x.early)) = some (false, true)
    ∧ after (.teacherGroupAccept 0 0) (earlyGroup id) (fun t => (t.clu 0).mq.map (fun r => (r.acked, r.offers.length, r.grant.isSome)) == [(1, 1, true)]
        && (t.tdie 1).dep.isEmpty) = true
    ∧ after (.drain 0 0) (earlyGroup fun r => { r with tile := 2, acked := 1, grant := some {} })
        (fun t => (t.clu 0).mq.map (fun r => (r.acked, r.drained, r.offers.length)) == [(2, 2, 2)]) = true := by decide +kernel
theorem wit_vec_outside : ([(.vSt 0, 0x21, 0), (.vKld 0, 0x1B, 9), (.vKst 0, 0x1C, 9), (.vTally 0, 0x40, 9)] : List (Instr × Nat × Nat)).all (fun p =>
      after p.1 (vecData (vw p.2.1 1 1 0 0 0 0 p.2.2 0x1FF00) 63) fun t => (t.ctx 1).lastFault == 3 && (t.clu 0).tally.isEmpty) = true
    ∧ (vecData 0 63).ownsIn 1 0 0x20000 8 = false := by decide +kernel
theorem wit_teller_branches : ((telAt (tw 0x40 0 1 2 0 512) 5 5 id).clu 0).fetch 1 512 = none
    ∧ after (.tellerBranch 0) (telAt (tw 0x40 0 1 2 0 512) 5 5 id) (fun t => (t.ctx 1).lastFault == 7) = true
    ∧ after (.tellerBranch 0) (telAt (tw 0x40 0 1 2 0 512) 5 6 id) (fun t => ((t.clu 0).tel.map (·.pc)) == some 1) = true
    ∧ ([(.tellerImmediateOp 0, 0x11), (.tellerFloatOp 0, 0x20), (.tellerFcvt 0, 0x25), (.tellerLw 0, 0x30), (.tellerSw 0, 0x31), (.tellerBranch 0, 0x40)
        , (.tellerJmp 0, 0x44), (.tellerGetq 0, 0x50), (.tellerIssue 0, 0x60), (.tellerWaitq 0, 0x62), (.tellerRet 0, 0x70), (.tellerFail 0, 0x71)]
        : List (Instr × Nat)).all (fun p => after p.1 (telAt (tw p.2 0 0 0 0 0) 5 7 fun x => { x with budget := 0 }) fun t => (t.ctx 1).lastFault == 9) = true := by
  decide +kernel
theorem wit_issue_names : (issuing 63).issueFault 1 (BitVec.ofNat 512 (Mem.readN ((issuing 63).clu 0).mem 0x1FFC0 64))
      (cmdOf 1 1 (issuedImage (BitVec.ofNat 512 (Mem.readN ((issuing 63).clu 0).mem 0x1FFC0 64)) (cmd callImg) 0)) = none
    ∧ (issuing 63).issueHeld 0 { cmd callImg with seq := 1 } = false
    ∧ ((issuing 63).modCl 0 fun x => { x with dq := [{ cmd callImg with seq := 1, issued := true }] }).issueHeld 0 { cmd callImg with seq := 1 } = true
    ∧ after (.tellerIssue 0) ((issuing 63).modCl 0 fun x => { x with mem := Mem.writeN [] 0x1FFC4 4 0x9604 })
        (fun t => (t.ctx 1).lastFault == 4) = true
    ∧ after (.tellerIssue 0) ((issuing 63).modCl 0 fun x =>
          { x with mem := Mem.writeN [] 0x1FFC4 4 0x44, dq := [{ cmd callImg with seq := 1, issued := true }] })
        (fun t => (t.clu 0).dq.length == 1 && ((t.clu 0).tel.map (·.wait)) == some .issue) = true := by decide +kernel
theorem wit_issue_waited : (issuing 63).issueWaits 0 (cmd callImg) 2 (issuedImage (BitVec.ofNat 512 (Mem.readN ((issuing 63).clu 0).mem 0x1FFC0 64)) (cmd callImg) 0) = false
    ∧ after (.tellerWaitEnd 0) ((issuing 63).modCl 0 fun x => { x with tel := x.tel.map fun y => { y with wait := .issue } })
        (fun t => (t.clu 0).dq.length == 64 && ((t.clu 0).tel.map fun x => (x.pc, x.wait)) == some (1, .none) && t.sched.tokens == 2) = true := by decide +kernel
theorem wit_places : PlaceFault (dmaOn [] [] id) 1 [(.hbm 0x140000, 4, false), (.clu 0 0, 4, true)] 6 0x140000 := by
  refine .inr ⟨by decide +kernel, [], (.hbm 0x140000, 4, false), _, rfl, rfl, by simp, by decide +kernel⟩
theorem wit_place_faults :
    after (.copy 0 []) (dmaOn [(0x10, 0x80), (0x14, 4), (0x18, 0x140000), (0x20, 0)] [] id) (fun t => (t.ctx 1).lastFault == 6) = true
    ∧ after (.transpose 0 []) (dmaOn [(0x10, 0x881), (0x18, 0x140000), (0x20, 0), (0x28, 0x30002)] [] id) (fun t => (t.ctx 1).lastFault == 6) = true
    ∧ after (.spillOut 0) (dmaOn [(0x10, 0x202), (0x14, 2), (0x18, 0), (0x20, 0x140000)] [] id) (fun t => (t.ctx 1).lastFault == 6) = true
    ∧ after (.spillIn 0 []) (dmaOn [(0x10, 0x883), (0x14, 3), (0x18, 0x140000), (0x20, 0)] [] id) (fun t => (t.ctx 1).lastFault == 6) = true
    ∧ after (.vaultPush 0 []) (dmaOn [(0x10, 0x84), (0x14, 32), (0x18, 0x140000)] [] id) (fun t => (t.ctx 1).lastFault == 6) = true
    ∧ after (.vaultPop 0) (dmaOn [(0x10, 0x205), (0x20, 0x140000), (0x28, 77)] [] fun x => { x with
        mem := Mem.writeN (Mem.writeN [] 0x1E000 4 77) 0x1E004 4 32, per := [(1, { vault := [(0, { top := 32, recs := 1 })] })] })
        (fun t => (t.ctx 1).lastFault == 6) = true
    ∧ after (.tellerLoad 0 []) (dmaOn [(0x10, 0x86), (0x14, 9), (0x18, 0x140000)] [] fun x => { x with per := [(1, { tpages := [3] })] })
        (fun t => (t.ctx 1).lastFault == 6) = true := by decide +kernel
theorem wit_coeff_base : (mintSel [] []).hasUpdate 1 = false
    ∧ after (.mintTableBaseWrite 0x54 3) (mintSel [] []) (fun t => (t.mtc 1).coeffBase == 0x300101000) = true
    ∧ after (.mintTableBaseWrite 0x50 0xFFFFFFFF) (mintSel [] []) (fun t => (t.mtc 1).coeffBase == 0xFFFFF000) = true := by decide +kernel
/-- 64 bundles wait at the Mint of stack 0. -/
def fullMint : State := opened fun u => { u with shares := [{ stack := 0, armed := true, reorder := List.replicate 64 { (msg 1 false).1 with first := 9 } }] }
theorem wit_mint_full : (opened id).buffered 0 = 0 ∧ fullMint.buffered 0 = 64
    ∧ (fullMint.takeBundle (msg 1 false).1).isSome = false := by decide +kernel
theorem wit_open_count : after (.seqOpen 1) opening (fun t => (t.lgc 1).opens == 1 && (t.lgc 1).free == (opening.lgc 1).free) = true := by decide +kernel
/-- Tier 3 is the active one, or none is lost. -/
def tier3 (up : Bool) : State :=
  { epoch1 { step := 3, prot := [16] } with sg := { tierActive := 3, hostBase := 0x8000 }, hbm := [(0x10FFFF, 5)], boot := { dev.boot with hostUp := up } }
theorem wit_tier_usable : (tier3 true).tierUsable 3 = true ∧ State.tierUsable { tier3 true with sg := { lost := [3], hostBase := 0x8000 } } 3 = false
    ∧ (tier3 true).tierUsable 1 = false ∧ (tier3 true).tierUsable 2 = false ∧ (tier3 true).tierOpen = true ∧ (tier3 false).tierOpen = false
    ∧ after (.shipPage 1) (tier3 false) (fun t => t.host == [] && ((t.sgc 1).epoch.map (·.prot)) == some [16]) = true := by decide +kernel
/-- The Escrow's worked example (spec/05): a FULL partition of 768 segments over the whole slot space, token 1,041 in slot 42. -/
def bankPart : Part := { valid := true, geo := { size := 65408, mode := 1, segs := 768 }, c64 := 1000
                         slots := [(42, { state := 1, filled := 3, token := 1041 })] }
def bank1 : TouchDie := { part := [(1, bankPart)] }
/-- 333 slots of 196 granules; token 1,041 in slot 42, first granule 8,232, byte 0x0105_4000; its status word at 0x80A0. -/
theorem test_escrow_example : bankPart.geo.slots = 333 ∧ slotGran 1 768 = 196 ∧ bankPart.slotIx 1041 = 42
    ∧ (bank1.slotOf 8232).map (fun x => (x.2.1, x.2.2)) = some (42, 0) ∧ (0x1054000 - 0x40000) / 2048 = 8232
    ∧ (List.range 4).map (fun i => bank1.bank (0x80A0 + i)) = [0x0D, 0, 0x11, 0x04] := by decide +kernel
/-- A hint of context 1 for die 1 alone. -/
def hint1 : HintRec := { no := 3, ctx := 1, cls := 2, dur := 5, mask := 2, live := 2 }
def hintedOne : State := { dev with bursar := { dev.bursar with hints := [hint1] } }
theorem wit_hint_ruled : hintedOne.bursar.hints.find? (fun h => h.no = 3) = some hint1
    ∧ bit (hint1.ruled ||| hintedOne.governed hint1).toNat 0 = false ∧ bit (hint1.ruled ||| hintedOne.governed hint1).toNat 1 = true := by
  decide +kernel
theorem wit_corrected_words : after (.paceWindowClose window) linked (fun t => (t.prt6 0).fecCorr == 7 && (t.prt6 1).fecCorr == 0) = true := by
  decide +kernel
theorem wit_lane_told : after (.laneFail 5 3) linked (fun t => (t.prt6 5).blocks == [.lanes 0xFFFFFFF7]) = true := by decide +kernel
theorem wit_mirror_refused : Arrives linked 5 (pkto 4 9 0x0402 []) 4 ∧ (pkto 4 9 0x0402 []).target.toNat % 16 = 9
    ∧ after (.refusal 5 (pkto 4 9 0x0402 [])) linked (fun t => (t.ctx 1).st == .scrubbing && (t.ctx 1).lastFault == 0x0402) = true
    ∧ after (.refusal 5 (pkto 4 9 0x0003 [])) linked (fun t => (t.ctx 1).st == .resident) = true := by unfold Arrives LinkTakes; decide +kernel
/-- The same collective with its source, and its result, in the memory of cluster 0. -/
def collClu : Coll := { collFull 3 with srcs := [(1, 0, 4)], dst := 0x200 }
theorem wit_coll_cluster : collReady.collListWaits 1 0x100000 = false ∧ collClu.dstLoc = .clu 0 0x200 ∧ collClu.complete = true
    ∧ dev.cluShut 0 = false ∧ (colling collClu).locCheck 1 (.clu 0 0x200) collClu.bytes.length true = none
    ∧ after (.collDone 1) (colling collClu) (fun t => Mem.readN (t.clu 0).mem 0x200 4 == 0x40003F80 && (t.sem 9).value == 7) = true
    ∧ after (.collDone 1) ((colling collClu).modCl 0 fun x => { x with service := true }) (fun t => (t.lkc 1).coll.isSome) = true := by decide +kernel

/-- Context 1 comes back with a COPY for cluster 0, and a packet for device 1. -/
def comingIn (failed : Bool) : State := (ctxIn fun x => { x with
  st := .loading, saved := [(0, { dq := [cmd copyImg] })], savedTx := [{ pkto 1 0 0 [] with dst := 1 }] }).modCl 0 fun x => { x with failed := failed }
theorem wit_saved_failed : (comingIn true).savedFailed 1 = some (cmd copyImg) ∧ (comingIn false).savedFailed 1 = none
    ∧ after (.swapInDone 1) (comingIn true) (fun t => (t.ctx 1).lastFault == 0x504) = true
    ∧ (ctxIn fun x => { x with st := .loading }).savedFailed 1 = none := by decide +kernel
/-- The same without a saved command: its packet alone waits. -/
def packetOnly (s : State) : State := s.modCtx 1 fun x => { x with st := .loading, savedTx := [{ pkto 1 0 0 [] with dst := 1 }] }
theorem wit_saved_packet : ((packetOnly linked).route 1).isSome = true ∧ ((packetOnly dev).route 1).isSome = false
    ∧ after (.swapInDone 1) (packetOnly dev) (fun t => (t.ctx 1).lastFault == 0x403) = true
    ∧ after (.swapInDone 1) (packetOnly linked) (fun t => (t.ctx 1).st == .resident && (t.port.map fun p => p.2.txq.length).sum == 1) = true := by
  decide +kernel
theorem wit_scrub_waits : after (.scrubDone 1) ((ctxIn fun x => { x with st := .scrubbing, faultRec := some ⟨1, 1, 3, 0, 0, 0, false⟩ }).modCl 0 fun x =>
      { x with service := true }) (fun t => (t.ctx 1).st == .scrubbing) = true
    ∧ (ctxIn id).cluShut 0 = false := by decide +kernel
theorem wit_shut_cluster : stu5.cl = 0 ∧ (grouping 2 6 (feat5 2)).cluShut 0 = false ∧ (wordAt 0x20000).1 = 0 ∧ (through id).cluShut 0 = false
    ∧ after (.updateComplete 1 0) ((through id).modCl 0 fun x => { x with service := true }) (fun t => t.upd.length == 1) = true := by decide +kernel

/-! The self-test: Till word 3 of entry 2, the Teller's word 0 and memory byte 9 of cluster 0. -/
def testing (kind : Nat) (st : BitVec 2) : State := (selftest kind st).modCl 0 fun x =>
  { x with till := [(2, { words := [(3, 7)], cls := 2 })], imem := [(0, 5)], mem := [(9, 4)] }
theorem wit_test_moves : (testing 0 1).unitQuiet = true
    ∧ after .unitWithdrawn (testing 0 1) (fun t => Mem.readN t.hbm (8 + cluBytes + 2048 + 12) 4 == 7
        && Mem.readN t.hbm (8 + cluBytes + 0x120000) 8 == 5 && (t.clu 0).service && t.st.heldTill == (t.clu 0).till) = true
    ∧ after .unitWithdrawn (testing 1 1) (fun t => Mem.readN t.hbm 17 1 == 4 && Mem.readN t.hbm (8 + cluBytes + 2048 + 12) 4 == 7) = true := by
  decide +kernel
theorem wit_test_token : after .unitWithdrawn ((selftest 2 1).modTd 0 fun x => { x with tok := [{ ctx := 1, tok := 0, teacher := true, m := 9 }] })
    (fun t => Mem.readN t.hbm (8 + 16368) 4 == 9 && (t.tdie 0).service) = true := by decide +kernel
/-- The same cluster in SERVICE, its state held, and other words in it. -/
def tested (kind : Nat) : State :=
  let s := (selftest kind 2).modCl 0 fun x => { x with service := true, till := [(2, { words := [(3, 9)], cls := 2 })], imem := [] }
  { s with st := { s.st with heldTill := [(2, { words := [(3, 7)], cls := 2 })], heldImem := [(0, 5)] } }
theorem wit_test_returns : after (.testDone true) (tested 0) (fun t => !(t.clu 0).service && (t.clu 0).till == [(2, { words := [(3, 7)], cls := 2 })]
    && (t.clu 0).imem == [(0, 5)] && t.st.heldTill == []) = true := by decide +kernel
theorem wit_lane_test : ((selftest 4 2).modPort 0 fun x => { x with st := .up, lanes := 0xFFFFFFFE, recal := true, mayUse := 0xFFFFFFFF }).prt6 0
      = { ({} : Port) with st := .up, lanes := 0xFFFFFFFE, recal := true, mayUse := 0xFFFFFFFF }
    ∧ after (.testDone true) ((selftest 4 2).modPort 0 fun x => { x with st := .up, lanes := 0xFFFFFFFE, recal := true, mayUse := 0xFFFFFFFF })
        (fun t => (t.prt6 0).lanes == 0xFFFFFFFF && !(t.prt6 0).recal && (t.prt6 0).blocks == [.lanes 0xFFFFFFFF]) = true
    ∧ after (.testDone false) ((selftest 4 2).modPort 0 fun x => { x with st := .up, lanes := 0xFFFFFFFE, recal := true, mayUse := 0xFFFFFFFF })
        (fun t => (t.prt6 0).laneBad && (t.prt6 0).failed == 1 && t.pageFailed 0x0B 0 && bit (t.blkStatus (pgPort 0) 0x0B 0) 0) = true := by decide +kernel

/-! Addresses in error (R311). -/
/-- Byte 0x100005 of context 1's page 16 is in error, found by a scrub. -/
def scrubbed (attr : Nat) (f : SgCtx → SgCtx) : State := { faulty attr f with sg := { dev.sg with ueAt := [0x100005] } }
theorem wit_scrub_error : (scrubbed 0 id).ueMeets 0x100000 8 = true ∧ (scrubbed 0 id).hbmCheck 1 0x100000 8 false false = some 0x0501
    ∧ (scrubbed 0 id).hbmCheck 1 0x100000 8 true false = none ∧ (scrubbed 0 id).ueMeets 0x110000 8 = false := by decide +kernel
/-- A page about to be shipped holds an uncorrectable error: its context faults. -/
theorem wit_ship_error : let s := { epoch1 { step := 3, prot := [17] } with sg := { (epoch1 { step := 3, prot := [17] }).sg with ueAt := [0x110005] } }
    s.ueIn (65536 * 17) 65536 ≠ [] ∧ bit (s.page 17) 12 = true ∧ s.tierOpen = true ∧ s.epochOf (·.prot) 17 = some (1, { step := 3, prot := [17] })
    ∧ after (.shipPage 1) s (fun t => (t.ctx 1).st == .scrubbing && (t.ctx 1).lastFault == 0x501) = true := by decide +kernel
/-- The area of the counters of context 1 (page 16) is under an epoch: the adds wait, and the flush stays busy. -/
def areaHeld : State :=
  let s := epoch1 { step := 3, prot := [16] }
  { s with census := [(censusKey 0 1 2 0 0, 9)], num := [(1, { censusBase := 0x100000, flushBusy := true })] }
theorem wit_add_waits : areaHeld.hbmCheck 1 0x100000 4096 true false = none ∧ areaHeld.guarded (0x100000 + 512) 8 = true
    ∧ after (.censusCounterSpill 0 1 2) areaHeld (fun t => t.hbm == areaHeld.hbm && t.census == [] && t.sg.adds == [(1, 0x100200, 9)] && t.addsWait 1) = true
    ∧ after (.censusFlushDone 1) { areaHeld with sg := { areaHeld.sg with adds := [(1, 0x100200, 9)] } } (fun t => (t.nums 1).flushBusy) = true := by
  decide +kernel

/-! ### Forms the rules of the third review name -/
/-- A COPY that is done releases the older of the two filled slots of its landing ring (R105). -/
def releasing : State :=
  (dmaOn [(4, 0x80), (0x10, 0x200), (0x14, 5), (0x18, 0x4000), (0x20, 0x100000)] [] fun x => { x with ddone := true }).modCl 0 fun x =>
    x.modPc 1 fun y => { y with ring := { base := 0x80, slots := 2, full := [0, 1] } }
theorem wit_release_dma : ((releasing.clu 0).dq.map fun q => (cRelease q.img, cCluster q.img, releasing.freedBy q 0)) = [(true, 0, [(0x4000, 5)])]
    ∧ after (.commandComplete (.dma 0) 0) releasing (fun t => ((t.clu 0).pc 1).ring.full == [1] && ((t.clu 0).pc 1).ring.rel == 1 && (t.clu 0).dq == []) = true := by
  decide +kernel
/-- 16 records wait; a command, or an event, waits behind them. -/
def fullRecs (l : List LateEnd) : State := ({ inFlight (noted 4) fun x q => { x with dq := [q], ddone := true } with
  sched := { dev.sched with tokens := 1 } }).modCtx 1 fun x =>
  { x with recs := List.replicate 16 { cmd := 9, kind := 0, code := 0, unit := 3, detail := 0, time := 5, irq := false }, late := l }
def lateRec : Rec := { cmd := 1, kind := 0, code := 0, unit := 0xFFFF, detail := 0, time := 0, irq := false }
def lateCmd : LateEnd := { q := some { ctx := 1, seq := 1, img := noted 4, issued := false, acc := 0 }, record := lateRec }
theorem wit_late : ((fullRecs []).ctx 1).bufferFull = true
    ∧ after (.commandComplete (.dma 0) 0) (fullRecs []) (fun t => (t.ctx 1).recs.length == 16 && (t.ctx 1).late.length == 1 && t.sched.tokens == 1
        && (t.ctx 1).completeSeq == 0 && ((t.ctx 1).flight.map (·.phase)) == [.waiting] && (t.clu 0).dq == []) = true
    ∧ after (.completionRecordWrite 1) (fullRecs [{ lateCmd with q := none }]) (fun t => (t.ctx 1).recs.length == 16 && (t.ctx 1).late == []
        && t.sched.tokens == 1) = true
    ∧ after (.completionRecordWrite 1) (fullRecs [lateCmd]) (fun t => (t.ctx 1).recs.length == 16 && (t.ctx 1).late == [] && t.sched.tokens == 0
        && (t.ctx 1).completeSeq == 1) = true
    ∧ after (.completionRecordWrite 1) ((fullRecs [lateCmd]).modCtx 1 fun x => { x with recs := x.recs ++ [lateRec] })
        (fun t => (t.ctx 1).recs.length == 16 && (t.ctx 1).late == [lateCmd] && t.sched.tokens == 1) = true := by decide +kernel
/-- 65 entries of die 2 come back (R107). -/
def crowd (n : Nat) : State := ctxIn fun x => { x with
  st := .loading, savedTok := List.replicate n (2, { ctx := 1, tok := 0, teacher := true }) }
theorem wit_crowd : (crowd 65).tokRoom ((crowd 65).ctx 1).savedTok = false ∧ (crowd 64).tokRoom ((crowd 64).ctx 1).savedTok = true
    ∧ (crowd 65).savedFailed 1 = none
    ∧ after (.swapInDone 1) (crowd 65) (fun t => (t.ctx 1).st == .loading) = true := by decide +kernel
/-- Page 33, free to be set, holds a staged copy of context 1's page 16. -/
def stagedPage : State := paged.modSgc 1 fun x => { x with stageBase := 0x210000, stageSize := 1, epoch := some { step := 3, prot := [], staged := [(16, 0)] } }
theorem wit_staged_page : stagedPage.settable 33 = true ∧ stagedPage.ownerHeld 33 0x1002 = false
    ∧ ((stagedPage.sgc 1).epoch.map fun x => x.staged.any fun y => (stagedPage.sgc 1).stageBase.toNat / 65536 + y.2 == 33) = some true
    ∧ after (.potDataWrite 0x1002) stagedPage (fun t => t.page 33 == 0x1002 && (t.sgc 1).epoch == none && (t.sgc 1).due && t.hbm == []) = true := by
  decide +kernel
/-- A step close agreed, an epoch due, tier 3 active; the Set mirrors 256 bytes of page 16. -/
def advancing (ue : List Nat) (refetch : List (Nat × CtxId)) : State :=
  { closed .agreed true with sg := { tierActive := 3, hostBase := 0x8000, ueAt := ue, refetch := refetch }
                             sgC := [(1, { valid := true, due := true, items := [{ kind := 1, tid := 0, base := 0x100000, len := 256 }] })] }
theorem wit_advance_reads : (advancing [] []).advanceReads 1 true = [(0x100000, 256)] ∧ (advancing [0x100005] []).ueMeets 0x100000 256 = true
    ∧ (advancing [] [(16, 1)]).hbmWait 0x100000 256 = true ∧ (advancing [0x100005] []).ownerOf 0x100005 = some 1
    ∧ (advancing [0x100005] []).moving 16 none = none ∧ (advancing [] []).addsWait 1 = false
    ∧ after (.stepAdvance 1) (advancing [] [(16, 1)]) (fun t => (t.nums 1).step == 7 && (t.nums 1).close.isSome) = true
    ∧ after (.stepAdvance 1) (advancing [0x100005] []) (fun t => (t.ctx 1).st == .scrubbing && (t.ctx 1).lastFault == 0x501) = true
    ∧ after (.stepAdvance 1) (advancing [] []) (fun t => (t.nums 1).step == 8 && ((t.sgc 1).epoch.map (·.step)) == some 7) = true := by decide +kernel
/-- The word of a counter, at 0x110200, is in error; the context is IN. -/
def spoilt : State := { counted.modCtx 1 fun x => { x with st := .resident } with sg := { ueAt := [0x110203] } }
theorem wit_spoilt : spoilt.ueIn 0x110200 8 = [0x110203] ∧ spoilt.hbmCheck 1 0x110000 4096 true false = none
    ∧ (spoilt.ueIn 0x110000 4096).all (fun u => spoilt.ownerOf u == some 1 && spoilt.moving (u / 65536) none == none && !bit (spoilt.page (u / 65536)) 13) = true
    ∧ after (.censusCounterSpill 0 1 2) spoilt (fun t => (t.ctx 1).lastFault == 0x501 && Mem.readN t.hbm 0x110200 8 == 255
        && SMap.get 0 t.census (censusKey 0 1 2 0 0) == 0) = true
    ∧ State.addsWait { spoilt with sg := { ueAt := [0x110203], adds := [(1, 0x110200, 9)] } } 1 = true
    ∧ after (.censusFlushDone 1) ({ spoilt with sg := { ueAt := [0x110203], adds := [(1, 0x110200, 9)] } }.modNum 1 fun x => { x with flushBusy := true })
        (fun t => (t.ctx 1).lastFault == 0x501) = true := by decide +kernel
/-- A legacy command that does not start its tile, and names none that stands. -/
def keepImg : Image := img [(0, 1), (4, 1), (0x10, 0x10000), (0x14, 0x4000), (0x18, 0x10001), (0x1C, 1), (0x20, 0x40), (0x24, 2)]
theorem wit_legacy_error : legacyTake [] desc0 keepImg = .error 0xB := by
  have h : (Mx.of keepImg).init = 0 := by decide +kernel
  have h2 : legacyAt [] desc0 (Mx.of keepImg).ebase = none := by decide +kernel
  simp only [legacyTake, h2, h, if_pos]
theorem wit_legacy_at : legacyAt [(2, { cls := 1, head := true, handle := 0 })] desc0 (Mx.of (mmImg 1 0 0)).ebase = some 2 := by decide +kernel
/-- A MATMUL that drains to a Vault whose stack is full writes its fallback address; with none there it faults. -/
def mmFull (a : Nat) : State := (mming (mmImg 1 3 0 ||| img [(0x28, a)]) id).modCl 0 fun x => x.modPc 1 fun y => { y with vault := [(0, { top := 57344, recs := 3 })] }
theorem wit_matmul_vault : ((mmFull 0).clu 0).mq.map (fun r => (mmFull 0).pushTo r.q.ctx 0 0 (Mx.of r.q.img).recordLen ((Mx.of r.q.img).w28 % 2 ^ 25 * 65536)) = [.hbm]
    ∧ ((mmFull 0).clu 0).mq.map (fun r => ((mmFull 0).mxCheck r.q, (mmFull 0).vaultBusy r.q)) = [(none, false)]
    ∧ after (.matmul 0 0) (mmFull 0) (fun t => (t.clu 0).mq.map (fun r => (r.started, r.vaultAt)) == [(true, none)] && (t.ctx 1).vaultSpills == 1
        && (SMap.get {} ((t.clu 0).pc 1).vault 0).recs == 4) = true := by decide +kernel
/-- Malformed sources come first (R175). -/
theorem wit_malformed : PlaceFault (dmaOn [] [] id) 1 [(.hbm 0x140000, 4, false), (.hbm (2 ^ 41), 4, true)] 3 (2 ^ 41) := by
  refine .inl ⟨rfl, [(.hbm 0x140000, 4, false)], (.hbm (2 ^ 41), 4, true), [], rfl, rfl, ?_, by decide +kernel⟩
  simp only [List.mem_singleton, forall_eq]; decide +kernel
theorem wit_push_malformed : (pushing 0).locNone (.hbm (2 ^ 41)) 32 = true
    ∧ after (.vaultPush 0 []) (dmaOn [(0x10, 0x84), (0x14, 32), (0x1C, 0x200)] [] id) (fun t => (t.ctx 1).lastFault == 3) = true := by decide +kernel
/-- The descriptors' table holds an uncorrectable error: it is rejected. -/
theorem wit_desc_error : let s := { mintSel (layer 2) [] with sg := { ueAt := [0x100011] } }
    (s.meetUe ((List.range 1).flatMap (s.descReads 1))).isSome = true
    ∧ after (.descApply 1) s (fun t => (t.mtc 1).reject && !(t.mtc 1).valid && (t.ctx 1).lastFault == 0x501) = true := by decide +kernel
theorem wit_set_error : let s := { setOf (item1 1) with sg := { ueAt := [0x100011] } }
    (s.meetUe [((s.sgc 1).itemPlace 0, 32 * (s.setTable 1).length)]).isSome = true
    ∧ after (.setApply 1) s (fun t => (t.sgc 1).reject && (t.sgc 1).items == []) = true := by decide +kernel
/-- Tier 1 to device 1, with a reserve of one page: a SNAPSHOT item of the page does not fit twice. -/
def partnered : State := { setOf (wordsAt 0x100000 [(0, 2), (8, 0x110000), (16, 65536)] []) with
  boot := linked.boot, port := linked.port, sg := { tierActive := 1, partner := 1, reserveSize := 1, reserveBase := 0x200000 } }
theorem wit_tier_kept : partnered.tierUsable 1 = true ∧ partnered.offender 1 (partnered.setTable 1) = none
    ∧ after (.setApply 1) partnered (fun t => t.sg.lost == [1] && t.sg.tierActive == 0 && (t.sgc 1).due && (t.sgc 1).valid
        && bit (SMap.get {} t.hdr pgStrong).alarm.toNat 2) = true := by decide +kernel
/-- The staged copy's page is no longer the context's: the epoch is abandoned. -/
def staleStage : State := { tier3 true with pot := [(16, 0x1001), (17, 0x1001), (18, 0x1001), (19, 0x1002)] }.modSgc 1 fun x =>
  { x with epoch := some { step := 3, prot := [17], staged := [(16, 0)] } }
theorem wit_stale_stage : staleStage.ownsPage 1 19 = false ∧ (staleStage.sgc 1).slotPlace 0 / 65536 = 19
    ∧ after (.shipPage 1) staleStage (fun t => (t.sgc 1).epoch == none && (t.sgc 1).due && t.host == []) = true := by decide +kernel
/-- CLIP_SRC, or NORM_DEST, names a failed cluster. -/
def brokenMint : State := (minting 0 [] (layer 2 |>.writeN 0x10000C 4 0x20000)).modCl 0 fun x => { x with failed := true }
def brokenArm (f : Update → Update) : State := (half fun u => f { u with shares := [{ stack := 0 }] }).modCl 0 fun x => { x with failed := true }
theorem wit_word_failed :
    (brokenArm fun u => { u with d := { u.d with clipSrc := 0x20000 } }).wordFailed 0x20000 = true
    ∧ after (.updateArmResume 1 0) (brokenArm fun u => { u with d := { u.d with clipSrc := 0x20000 } }) (fun t => (t.ctx 1).lastFault == 0x504) = true
    ∧ after (.updateArmResume 1 0) (brokenArm fun u => { u with d := { u.d with normDest := 0x20000 } }) (fun t => (t.ctx 1).lastFault == 0x504) = true
    ∧ after (.updateComplete 1 0) ((through id).modCl 0 fun x => { x with failed := true }) (fun t => (t.ctx 1).lastFault == 0x504) = true
    ∧ second.mintCheck 1 [(0x110000, 4)] [] = none ∧ (second.updOf 1 0).map (·.pass2Reads) = some [] := by decide +kernel
/-- The restored page holds an uncorrectable error. -/
def judgedUe : State := { judging [] 0xFFF 1 with sg := { (judging [] 0xFFF 1).sg with ueAt := [0x100007] } }
theorem wit_restore_error : judgedUe.ueMeets 0x100000 65536 = true ∧ (judgedUe.sgc 1).restoreWait = false
    ∧ after (.restoreValidate 1 []) judgedUe (fun t => (t.sgc 1).restoreStatus == 3 && (t.ctx 1).lastFault == 0x501) = true := by decide +kernel
/-- The test of a lane ends after its port went DOWN. -/
theorem wit_lane_port_down : ((selftest 4 2).prt6 0).usable = false
    ∧ after (.testDone true) ((selftest 4 2).modPort 0 fun x => { x with recal := true }) (fun t => !(t.prt6 0).recal && (t.prt6 0).lanes == 0 && t.st.pass) = true := by
  decide +kernel

/-! ### Forms the rules of the fourth review name -/
theorem wit_accept_faults :
    after (.commandAccept 1 (ring1 (img [(0, 1), (4, 1), (0x14, 7), (0x18, 0x10001), (0x1C, 1)]))) rung (fun t => (t.ctx 1).lastFault == 2) = true
    ∧ after (.commandAccept 1 (ring1 (img [(0, 1), (4, 4), (0x10, 0x80), (0x14, 5), (0x18, 0x100000), (0x20, 0x1FFFC)]))) rung (fun t => (t.ctx 1).lastFault == 3
        && ((t.ctx 1).faultRec.map (·.detail)) == some 0x1FFFC) = true
    ∧ after (.commandAccept 1 (ring1 (img [(0, 1), (4, 1), (0x14, 0x400000), (0x18, 0x10001), (0x1C, 1)]))) rung (fun t => (t.ctx 1).lastFault == 3
        && ((t.ctx 1).faultRec.map (·.detail)) == some 16) = true := by decide +kernel
/-- A COPY that ends beyond what context 2 owns. -/
def overImg : Image := img [(0, 1), (4, 4), (0x10, 0x80), (0x14, 5), (0x18, 0x100000), (0x20, 0x1FFFC)]
def overRace : State := { dev with ctxs := [(1, queued copyImg 5), (2, queued overImg 4)] }
theorem wit_dispatch_address : overRace.dispatchFault 2 { seq := 1, img := overImg, phase := .queued, acc := 4 } = some (3, 0x1FFFC)
    ∧ (overRace.heads (.dma 0)).map (fun p => (p.1, p.2.acc)) = [(1, 5), (2, 4)]
    ∧ after (.commandDispatch (.dma 0)) overRace (fun t => (t.ctx 2).lastFault == 3 && ((t.ctx 2).faultRec.map (·.detail)) == some 0x1FFFC) = true := by
  decide +kernel
/-- Contexts 1 and 2 are both pre-empted by context 3; context 2 came back later. -/
def contested : State :=
  let s := (leaving true).modCtx 1 fun x => { x with askedBy := [3], resumedNo := 4 }
  { s with ctxs := s.ctxs ++ [(2, { ctx1 with cltab := [], preemptReq := true, askedBy := [3], resumedNo := 5 })] }
theorem wit_contest : (leaving true).leavesLater 1 = false ∧ (leaving true).bursar.hold = false ∧ (leaving false).leavesLater 1 = false
    ∧ (2, contested.ctx 2) ∈ contested.ctxs ∧ (contested.ctx 2).st = .resident ∧ 3 ∈ (contested.ctx 2).askedBy ∧ 3 ∈ (contested.ctx 1).askedBy
    ∧ (contested.ctx 1).stopReq = false ∧ contested.eff 2 = contested.eff 1 ∧ (contested.ctx 1).resumedNo < (contested.ctx 2).resumedNo
    ∧ (contested.modCtx 1 fun x => { x with priority := 1 }).eff 2 < (contested.modCtx 1 fun x => { x with priority := 1 }).eff 1
    ∧ after (.cheapPointSave 1) contested (fun t => t == contested) = true
    ∧ after (.cheapPointSave 2) contested (fun t => (t.ctx 2).st == .saving) = true
    ∧ after (.cheapPointSave 1) (contested.modCtx 2 fun x => { x with st := .out }) (fun t => (t.ctx 1).st == .saving) = true
    ∧ after (.cheapPointSave 1) { leaving true with bursar := { dev.bursar with hold := true } } (fun t => (t.ctx 1).st == .resident) = true := by decide +kernel
/-- The offered tile of 6.0, its amax word at `a`, its conversion counted. -/
def peaked (a dest : Nat) (v : Option Nat) : State := (offering dest v).modCl 0 fun x => { x with mq := x.mq.map fun r =>
  { r with q := { r.q with img := r.q.img + img [(0x20, 0x1000), (0x30, a * 65536)] }
           offers := r.offers.map fun o => { o with peak := some 0x40C00000, elems := { total := 256 } } } }
theorem wit_amax_at_acceptance : ((peaked 1 0 none).clu 0).mq.map (fun r => ((Mx.of r.q.img).amaxEn, (Mx.of r.q.img).amaxA, (Mx.of r.q.img).dst)) = [(true, 128, 256)]
    ∧ after (.fuseTileAccept 0 0) (peaked 1 0 none) (fun t => Mem.readN (t.clu 0).mem 128 4 == 0x40C00000 && Mem.readN (t.clu 0).mem 256 4 == 0x40C0
        && SMap.get 0 t.census (censusKey 0 1 0 0 0) == 256) = true
    ∧ after (.fuseTileAccept 0 0) (peaked 1 3 (some 0x10000)) (fun t => Mem.readN (t.clu 0).mem 128 4 == 0x40C00000 && Mem.readN (t.clu 0).mem 0x10000 4 == 0x40C0) = true
    ∧ after (.tileQueueAccept 0 0) (peaked 1 1 none) (fun t => Mem.readN (t.clu 0).mem 128 4 == 0x40C00000 && (t.clu 0).tileq.length == 1) = true
    ∧ after (.drain 0 0) ((draining 1 0).modCl 0 fun x => { x with mq := x.mq.map fun r => { r with q := { r.q with img := r.q.img + img [(0x20, 0x1000), (0x30, 0x10000)] } } })
        (fun t => Mem.readN (t.clu 0).mem 128 4 == Mem.readN mmMem 128 4 && t.census == []
          && (t.clu 0).mq.map (fun r => r.offers.map (·.peak)) == [[some 0x40C00000]]) = true := by decide +kernel
theorem wit_entry_wait_gate : (mming (mmImg 1 0 0) fun r => { r with waiting := true }).clOpen 0 = true
    ∧ after (.matmulEntryWaitEnd 0 0) { mming (mmImg 1 0 0) (fun r => { r with waiting := true }) with bursar := { dev.bursar with hold := true } }
        (fun t => (t.clu 0).mq.map (·.started) == [false]) = true := by decide +kernel
/-- Nothing stands in stack 0. -/
def drained0 : State := (popping 77).modCl 0 fun x => { x with per := [] }
theorem wit_vault_empty : (drained0.dmaHead 0 5).isSome = true ∧ (SMap.get {} ((drained0.clu 0).pc 1).vault 0).recs = 0 ∧ (drained0.ctx 1).desc 0 = some desc0
    ∧ after (.vaultPop 0) drained0 (fun t => (t.ctx 1).lastFault == 0xD && (t.clu 0).mem == (drained0.clu 0).mem) = true := by decide +kernel
theorem wit_more_rejects : after (.setApply 1) ((setOf (item1 1)).modSgc 1 fun x => { x with epoch := some { step := 0, prot := [] } })
        (fun t => (t.sgc 1).reject && (t.sgc 1).items == [] && bit (SMap.get {} t.hdr pgStrong).alarm.toNat 0) = true
    ∧ after (.mintTableBaseWrite 0x4C 0x1001) (mintSel [] []) (fun t => (t.mtc 1).descCount == 1 && bit (SMap.get {} t.hdr pgMintCtx).alarm.toNat 0) = true
    ∧ after (.lgApply 1) { ranged with lgC := [(2, { poolCount := 2, entFirst := 3, entCount := 1 })], lgE := [(3, { state := 1 })] }
        (fun t => (t.lgc 2).reject && !(t.lgc 2).valid && bit (SMap.get {} t.hdr pgLedger).alarm.toNat 0) = true
    ∧ (mintSel (layer 2) [updating [] fun u => { u with desc := 3 }]).applyBad 1 (tabled2 (mintSel (layer 2) [])) = some 3
    ∧ (mintSel (layer 0) [updating [] fun u => { u with desc := 3 }]).applyBad 1 (tabled2 (mintSel (layer 0) [])) = some 0
    ∧ after (.descApply 1) (mintSel (layer 2) [updating [] fun u => { u with desc := 3 }]) (fun t => (t.mtc 1).reject && (t.mtc 1).first == 3) = true := by
  decide +kernel
theorem wit_words_fault : dev.wordsFault 1 [4, 3] = some (4, 0) ∧ dev.wordFault 1 3 = some (4, 0)
    ∧ (dev.wordsFault 1 [0x8000 * 2048, 3]).map (·.1) = some 4 ∧ (dev.wordsFault 1 [0x8000 * 2048]).map (·.1) = some 3 := by decide +kernel
/-- A lane failed its test while the port trained. -/
theorem wit_trained_failed : after (.portTrainingDone 5 0xFFFFFFFF 9) (laned.modPort 5 fun x => { x with failed := 8, laneBad := true })
    (fun t => (t.prt6 5).lanes == 0xFFFFFFF7 && (t.prt6 5).failed == 8 && (t.prt6 5).laneBad && (t.prt6 5).st == .degraded) = true := by decide +kernel
theorem wit_mirror_guarded : let s := { reserved with sg := { reserved.sg with scrub := [32] } }
    Arrives s 5 (pkto 9 (2 + 0x200000 * 8192) 0 [7]) 9 ∧ s.guarded 0x200000 1 = true
    ∧ after (.mirror 5 (pkto 9 (2 + 0x200000 * 8192) 0 [7])) s (fun t => t.hbm == [] && (t.prt6 5).rxq.length == 1) = true := by
  unfold Arrives LinkTakes; decide +kernel
/-- Another epoch copies the staging page. -/
def heldStage : State := (epoch1 { step := 3, prot := [] }).modSgc 2 fun x => { x with epoch := some { step := 3, prot := [19] } }
theorem wit_stage_free : (epoch1 { step := 3, prot := [] }).stagePages 1 = [19]
    ∧ ((epoch1 { step := 3, prot := [] }).modSgc 1 fun x => { x with epoch := none }).protectedPage 19 = false
    ∧ (epoch1 { step := 3, prot := [16] }).protectedPage 19 = false ∧ (staleStage.stagePages 1) = []
    ∧ after (.epochSeal 1) { heldStage with hbm := [(0x130000, 2)] } (fun t => t.sg.scrub == [19] && t.hbm == [(0x130000, 2)]) = true := by decide +kernel
/-- The buffer the test's state went to is page 0 to 127; SVC_BASE has changed, and an epoch copies page 5. -/
def bufTest (g : List Nat) : State := { (selftest 1 2).modCl 0 (fun x => { x with service := true }) with
  hbm := [(8, 7)], st := { (selftest 1 2).st with svcBase := 0x1000000 }, sgC := [(3, { epoch := some { step := 0, prot := g } })] }
theorem wit_buffer_kept : State.guarded { bufTest [] with st := { (bufTest []).st with st := 0 } } 8 (2 ^ 23) = false
    ∧ (bufTest []).guarded 8 (2 ^ 23) = true ∧ State.guarded { bufTest [5] with st := { (bufTest [5]).st with st := 0 } } 8 (2 ^ 23) = true
    ∧ after (.testDone true) (bufTest []) (fun t => (t.clu 0).mem == [(0, 7)] && t.hbm == []) = true
    ∧ after (.testDone true) (bufTest [5]) (fun t => (t.clu 0).mem == [(0, 7)] && t.sg.scrub == [5] && t.st.st == 0) = true := by decide +kernel
/-- Hints of contexts 1 and 2 on dies 0 to 3; context 1 sends one more. -/
def hintTwice : State := { dev with
  sched := { dev.sched with hint := [hintCmd] }
  bursar := { dev.bursar with hintNo := 5, hints := [{ no := 3, ctx := 1, cls := 1, dur := 5, mask := 0xF, live := 0xF }, { no := 4, ctx := 2, cls := 1, dur := 5, mask := 0xF, live := 0xF }] } }
theorem wit_hint_frame : after (.hint 1) hintTwice (fun t => t.bursar.hints.map (fun h => (h.no, h.live)) == [(3, 0xC), (4, 0xF), (5, 3)] && t.free == dev.free) = true
    ∧ after .selfLag { up with links := { up.links with lagRun := 100, selfLag := true } } (fun t => bit (SMap.get {} t.hdr pgBursar).alarm.toNat 4) = true := by
  decide +kernel
/-- A teacher of this device keeps its own context, whatever the field says. -/
theorem wit_teacher_own : after (.teacher 0) (touching 1 0 [(0x14, 0x7000), (0x18, 5), (0x1C, 16), (0x20, 0x3F800000)])
    (fun t => ((t.prt 0 1).teacher.map fun o => o.2.ctx) == [1]) = true := by decide +kernel
theorem wit_coll_failed : (match collReady.parseColl 1 0x100000 with
    | .ok x => (collReady.modCl 0 fun c => { c with failed := true }).collCheck 1 { x with srcs := [(1, 0, 4)], dst := 0 }
    | .error _ => none) = some (0x504, 0) := by decide +kernel
end Sys2Proof.Tests
end

section
/-! SUPPORT. Further rules of alarms, faults and Touchstone's partitions: what an alarm leaves of each table, an alarm of
a context, what a fault leaves standing, and the update of one partition. -/

namespace Sys2Proof.Machine

/-! ### What an alarm leaves alone (R285 to R287) -/

theorem AlarmOnly.nv {s t : State} (h : AlarmOnly s t) : t.nv = s.nv := h.keeps.1
theorem AlarmOnly.td {s t : State} (h : AlarmOnly s t) : t.td = s.td := by
  unfold AlarmOnly at h; rw [h]
theorem AlarmOnly.boot {s t : State} (h : AlarmOnly s t) : t.boot = { s.boot with pwrAlert := t.boot.pwrAlert } := by
  unfold AlarmOnly at h; rw [h]
theorem AlarmOnly.cap {s t : State} (h : AlarmOnly s t) : t.bursar.cap = s.bursar.cap := by
  unfold AlarmOnly at h; rw [h]
theorem AlarmOnly.time {s t : State} (h : AlarmOnly s t) : t.time = s.time := by
  unfold AlarmOnly at h; rw [h]
theorem AlarmOnly.spare {s t : State} (h : AlarmOnly s t) : t.spare = s.spare := by
  unfold AlarmOnly at h; rw [h]
theorem AlarmOnly.ctxs {s t : State} (h : AlarmOnly s t) : t.ctxs = s.ctxs := by
  unfold AlarmOnly at h; rw [h]

theorem AlarmOnly.cell {s t : State} (h : AlarmOnly s t) (i : Nat) : t.cell i = s.cell i := by
  unfold State.cell; rw [h.nv]
theorem AlarmOnly.tdie {s t : State} (h : AlarmOnly s t) (d : Nat) : t.tdie d = s.tdie d := by
  unfold State.tdie; rw [h.td]
theorem AlarmOnly.prt {s t : State} (h : AlarmOnly s t) (d c : Nat) : t.prt d c = s.prt d c := by
  unfold State.prt; rw [h.tdie]

/-- An alarm after a change of one cell. -/
theorem AlarmOnly.of_modCell {s t : State} {i : Nat} {f : Cell → Cell} (h : AlarmOnly (s.modCell i f) t) :
    AlarmOnly { s with nv := t.nv } t := by
  rw [h.nv]; exact h

/-- An alarm after a change of one die's Touchstone. -/
theorem AlarmOnly.of_modTd {s t : State} {d : Nat} {f : TouchDie → TouchDie} (h : AlarmOnly (s.modTd d f) t) :
    AlarmOnly { s with td := t.td } t := by
  rw [h.td]; exact h

/-- An alarm of a context whose action is no context fault does what an alarm of no context does (R287). -/
theorem alarm_of_action_ne {s : State} {p b : Nat} (c : CtxId) (h : s.action p b ≠ 2) :
    s.alarm p b (some c) = s.alarm0 p b (some c.toNat) := if_neg h

/-! ### What a fault leaves standing (R191) -/

theorem stopCtx_hdr (s : State) (c : CtxId) : (s.stopCtx c).hdr = s.hdr := by rw [stopCtx_only]

/-- A context fault clears no alarm bit. -/
theorem faultCtx_mono (s : State) (c : CtxId) (code : U16) (detail : W64) (cmd : W32) (unit : U16) (irq : Bool) :
    StandsMono s (faultCtx s c code detail cmd unit irq) := by
  unfold faultCtx
  dsimp only
  split
  · have stopped (f : Ctx → Ctx) : StandsMono s ((s.stopCtx c).modCtx c.toNat f) := .of_hdr (stopCtx_hdr s c)
    split
    · exact (stopped _).trans ((alarm0_mono _ _ _ _).trans (alarm0_mono _ _ _ _))
    · exact (stopped _).trans (alarm0_mono _ _ _ _)
  · exact .refl s

/-- A fault that follows an alarm is a fault. -/
theorem Faulted.after_alarm {s u t : State} {c : CtxId} {code : U16} (h : AlarmOnly s u) (k : Faulted u t c code) :
    Faulted s t c code := by
  obtain ⟨hst, hlast, hflight, hctx, hnv, hhbm, hhost, hsems, hpot⟩ := k
  obtain ⟨anv, ahbm, ahost, asems, apot⟩ := h.keeps
  exact ⟨hst, hlast, hflight, fun j hj => (hctx j hj).trans (h.ctx j), hnv.trans anv, hhbm.trans ahbm, hhost.trans ahost,
    hsems.trans asems, hpot.trans apot⟩

/-- Mapping leaves what the mapped function leaves of each value, the unlisted ones included. -/
theorem SMap.get_mapV_keeps {α β : Type} [DecidableEq α] {d : α} (g : α → β) {f : Nat → α → α}
    (hf : ∀ k x, g (f k x) = g x)
    (m : SMap α) (k : Nat) : g (SMap.get d (SMap.mapV d f m) k) = g (SMap.get d m k) := by
  unfold SMap.mapV
  rw [SMap.foldl_upd_get f _ (SMap.keys_nodup m)]
  split
  · exact hf k _
  · rfl

/-- A fault discards no deposit: the slots of every partition stay as they are (R191). -/
theorem stopCtx_slots (s : State) (c : CtxId) (d k : Nat) : ((s.stopCtx c).prt d k).slots = (s.prt d k).slots := by
  have die : (s.stopCtx c).tdie d = { s.tdie d with
      tq := (s.tdie d).tq.filter (·.ctx ≠ c)
      part := SMap.mapV {} (fun k p => if k = c.toNat then { p with refusing := true } else p) (s.tdie d).part } :=
    SMap.get_mapV _ _ _ rfl
  unfold State.prt
  rw [die]
  refine SMap.get_mapV_keeps Part.slots (fun k p => ?_) _ _
  split <;> rfl

theorem faultCtx_slots {s : State} {c : CtxId} (code : U16) (detail : W64) (cmd : W32) (unit : U16) (irq : Bool)
    (h : (s.ctx c.toNat).st.alive) (d k : Nat) :
    ((faultCtx s c code detail cmd unit irq).prt d k).slots = (s.prt d k).slots := by
  obtain ⟨r, only⟩ := faultCtx_eq s c code detail cmd unit irq h
  rw [only.prt]
  exact stopCtx_slots s c d k

/-! ### One partition of one die -/

@[simp] theorem State.modPart_same (s : State) (d c : Nat) (f : Part → Part) : (s.modPart d c f).prt d c = f (s.prt d c) := by
  unfold State.modPart State.prt
  rw [State.modTd_same]
  exact SMap.get_upd_same _ _ _
theorem State.modPart_ctx_ne (s : State) (d : Nat) {c e : Nat} (f : Part → Part) (h : e ≠ c) :
    (s.modPart d c f).prt d e = s.prt d e := by
  unfold State.modPart State.prt
  rw [State.modTd_same]
  exact SMap.get_upd_ne _ _ h
theorem State.modPart_die_ne (s : State) {d j : Nat} (c : Nat) (f : Part → Part) (h : j ≠ d) :
    (s.modPart d c f).tdie j = s.tdie j := State.modTd_ne _ _ h
@[simp] theorem State.modPart_dep (s : State) (d c : Nat) (f : Part → Part) :
    ((s.modPart d c f).tdie d).dep = (s.tdie d).dep := by
  unfold State.modPart
  rw [State.modTd_same]

end Sys2Proof.Machine
end

section
/-! SUPPORT. The persistent cells: what a refused write does, and the notice of an interrupted one (R8, R293, R294). -/

namespace Sys2Proof.Machine

theorem cellWrite_busy {s : State} {i : Nat} (v : BitVec 160) (r : Option (Nat × Nat)) (h : (s.cell i).busy = true) :
    s.cellWrite i v r = (s.modCell i fun c => { c with lastRefused := true }).alarm pgPersist 0 := if_pos h

theorem cellWrite_exhausted {s : State} {i : Nat} (v : BitVec 160) (r : Option (Nat × Nat)) (hb : (s.cell i).busy = false)
    (h : (s.cell i).exhausted = true) :
    s.cellWrite i v r = (s.modCell i fun c => { c with lastRefused := true }).alarm pgPersist 1 := by
  unfold State.cellWrite
  rw [if_neg (by simp [hb]), if_pos h]

/-- An idle, unexhausted cell does not see a value that the owning page refuses. -/
theorem cellWrite_refused {s : State} {i : Nat} (v : BitVec 160) (p b : Nat) (hb : (s.cell i).busy = false)
    (h : (s.cell i).exhausted = false) : s.cellWrite i v (some (p, b)) = s.alarm p b := by
  unfold State.cellWrite
  rw [if_neg (by simp [hb]), if_neg (by simp [h])]

/-- What the cell's own refusal does: LAST_REFUSED, an alarm bit, and nothing else (R293). -/
theorem lastRefused_alarm (s : State) (i p : Nat) {b : Nat} (hb : b < 16) :
    let t := (s.modCell i fun c => { c with lastRefused := true }).alarm p b
    t.cell i = { s.cell i with lastRefused := true } ∧ SameBut State.cell i s t ∧ AlarmOnly { s with nv := t.nv } t
      ∧ Stands t p b := by
  intro t
  have only : AlarmOnly (s.modCell i fun c => { c with lastRefused := true }) t := alarm_only _ _ _
  refine ⟨?_, fun j hj => ?_, only.of_modCell, alarm_stands _ _ _ hb⟩
  · rw [only.cell, State.modCell_same]
  · rw [only.cell, State.modCell_ne _ _ hj]

/-- A write of the reserved profile that reaches the page is a write that the page refuses (R8). -/
theorem profileWrite_reserved {v : W32} {s : State} (hw : s.canWrite pgBursar true = true) (hv : v.toNat % 4 = 3) :
    exec (.profileWrite v) s = .next (s.cellWrite 1 (BitVec.ofNat 160 (v.toNat % 256 &&& 0xF3)) (some (pgBursar, 5))) := by
  show execProfileWrite v s = _
  unfold execProfileWrite State.regCell
  rw [if_pos hw, if_pos hv]

/-- Settles O9, by R293's order of the answers to a write: BUSY, EXHAUSTED, then the page's own refusal. -/
theorem reservedProfileIsIgnored : Obligations.ReservedProfileIsIgnored := by
  unfold Obligations.ReservedProfileIsIgnored
  intro v s hw hv
  refine ⟨_, profileWrite_reserved hw hv, ?_⟩
  cases hb : (s.cell 1).busy
  case true =>
    rw [cellWrite_busy _ _ hb]
    obtain ⟨own, others, only, stands⟩ := lastRefused_alarm s 1 pgPersist (b := 0) (by decide)
    rw [own]
    exact ⟨rfl, rfl, hb, others, only, stands⟩
  case false =>
    cases he : (s.cell 1).exhausted
    case true =>
      rw [cellWrite_exhausted _ _ hb he]
      obtain ⟨own, others, only, stands⟩ := lastRefused_alarm s 1 pgPersist (b := 1) (by decide)
      rw [own]
      exact ⟨rfl, rfl, hb, others, only, stands⟩
    case false =>
      rw [cellWrite_refused _ _ _ hb he]
      have only := alarm_only s pgBursar 5
      have same := only.cell
      refine ⟨by rw [same], by rw [same], by rw [same, hb], fun j _ => same j, ?_, only.nv, alarm_stands _ _ _ (by decide)⟩
      rw [only.nv]
      exact only

/-- The notice of an interrupted write clears its memory, and else is an alarm at most (R294). -/
theorem noteInterrupted_only (s : State) :
    AlarmOnly { s with boot := { s.boot with lossHit := false } } s.noteInterrupted := by
  unfold State.noteInterrupted
  split
  · exact alarm_only _ _ _
  · rename_i h
    rw [← Bool.eq_false_of_not_eq_true h]
    exact .refl s

theorem noteInterrupted_stands {s : State} (h : s.boot.lossHit = true) : Stands s.noteInterrupted pgPersist 3 := by
  unfold State.noteInterrupted
  rw [if_pos h]
  exact alarm_stands _ _ _ (by decide)

theorem noteInterrupted_of_no_loss {s : State} (h : s.boot.lossHit = false) : s.noteInterrupted = s := by
  unfold State.noteInterrupted
  exact if_neg (by simp [h])

/-- The state that the de-assertion of PERST# releases, before the notice of an interrupted write: everything is at its
reset value but the persistent cells and the settings that they give (R296, R297). -/
theorem perstDeassert_releases {s : State} (hp : s.boot.perst = true) (ht : s.boot.tripped = false) :
    ∃ u : State, exec .perstDeassert s = .next u.noteInterrupted
      ∧ u.boot = { s.boot with
          perst := false, powered := true, railGood := true, supplyLatched := false, pwrAlert := false
          stage := 1, failed := false, error := 0, hostUp := true
          srcUsed := bit (s.cell 18).val.toNat 0, profile := (s.cell 1).val.setWidth 2
          options := BitVec.ofNat 4 ((s.cell 1).val.toNat / 16)
          coord := (s.cell 2).val.setWidth 12, dims := (s.cell 3).val.setWidth 12 }
      ∧ u.bursar.cap = (s.cell 0).val.setWidth 12 ∧ (∀ d : Die, (u.spr d.val).applied = (s.cell (10 + d.val)).val)
      ∧ u.nv = s.nv ∧ u.time = {} ∧ u.hdr = [] ∧ u.ctxs = [] ∧ u.hbm = [] ∧ u.pot = [] := by
  refine ⟨_, show execPerstDeassert s = _ from if_neg (by simp [hp, ht]), rfl, rfl, fun d => ?_, rfl, rfl, rfl, rfl, rfl, rfl⟩
  unfold State.spr
  rw [SMap.foldl_upd_get _ _ List.nodup_range, if_pos (List.mem_range.2 d.isLt)]

/-- Settles O15: the released state shows each setting, and the notice of an interrupted write changes none. -/
theorem perstReleaseAppliesTheSettings : Obligations.PerstReleaseAppliesTheSettings := by
  unfold Obligations.PerstReleaseAppliesTheSettings
  intro s hp ht
  obtain ⟨u, run, boot, cap, spare, nv, time, hdr, ctxs, hbm, pot⟩ := perstDeassert_releases hp ht
  have only := noteInterrupted_only u
  obtain ⟨anv, ahbm, -, -, apot⟩ := only.keeps
  have loss : u.boot.lossHit = s.boot.lossHit := by rw [boot]
  refine ⟨_, run, ?stage, ?perst, anv.trans nv, ?lossHit, ?steps, ?shown, only.cap.trans cap, ?profile, ?options, ?devId, ?dims,
    fun d => ?applied, ?source, only.ctxs.trans ctxs, ahbm.trans hbm, apot.trans pot, ?noted, ?quiet⟩
  case applied => rw [← spare d]; unfold State.spr; rw [only.spare]
  case options => rw [only.boot, boot]; exact BitVec.toNat_ofNat _ _
  case devId => unfold State.devId; rw [only.boot, boot]
  case steps | shown => rw [only.time]; dsimp only; rw [time]
  case noted => exact fun h => noteInterrupted_stands (loss.trans h)
  case quiet => intro h; rw [noteInterrupted_of_no_loss (loss.trans h), hdr]
  case lossHit => rw [only.boot]
  all_goals rw [only.boot, boot]

end Sys2Proof.Machine
end

section
/-! SUPPORT. Escrow: what a deposit of one segment does to its slot and to its partition, when it is taken, and what a
deposit that is not taken leaves (R95 to R99, R102, R111, R116). -/

namespace Sys2Proof.Machine

/-! ### A slot after a deposit (R99, R102) -/

/-- The header of a token's first deposit, and no other (R99). -/
theorem Slot.opened_keeps (x : Slot) (d : Deposit) (dev : DevId) :
    (x.opened d dev).base = x.base ∧ (x.opened d dev).sigma = x.sigma ∧ (x.opened d dev).data = x.data
      ∧ (x.opened d dev).filled = x.filled := by
  unfold Slot.opened
  split <;> exact ⟨rfl, rfl, rfl, rfl⟩
theorem Slot.opened_state (x : Slot) (d : Deposit) (dev : DevId) :
    (x.opened d dev).state = if x.state = 0 then 1 else x.state := by
  unfold Slot.opened
  split <;> rfl
theorem Slot.opened_header {x : Slot} (d : Deposit) (dev : DevId) (h : x.state = 0) :
    (x.opened d dev).token = d.token ∧ (x.opened d dev).srcDev = dev ∧ (x.opened d dev).invTau = d.invTau := by
  unfold Slot.opened
  rw [if_pos h]
  exact ⟨rfl, rfl, rfl⟩

/-- Finalisation makes the slot COMPLETE and sets its POISON, FINAL, M and S, nothing else (R102). -/
theorem Slot.finalised_eq (x : Slot) (mode n : Nat) : x.finalised mode n =
    { x with state := 2, poison := (x.finalised mode n).poison, final := (x.finalised mode n).final
             m := (x.finalised mode n).m, s := (x.finalised mode n).s } := by
  unfold Slot.finalised
  dsimp only
  split
  · rfl
  · split <;> rfl

/-- A slot with one segment more, before finalisation. -/
def Slot.filledBy (x : Slot) (d : Deposit) (dev : DevId) : Slot :=
  { x.opened d dev with
    base := SMap.set unfilled x.base d.seg d.base
    sigma := Words.set x.sigma d.seg d.sigma
    data := SMap.splice 0 (256 * d.seg) 256 x.data d.data
    filled := x.filled + 1 }

/-- A deposit of one segment fills it, and the last one finalises the slot (R99, R102). -/
theorem Slot.deposited_segment {d : Deposit} (h : d.slot = none) (x : Slot) (g : Geo) (dev : DevId) :
    x.deposited g d dev = if x.filled + 1 = g.segs then (x.filledBy d dev).finalised g.mode.toNat g.segs else x.filledBy d dev := by
  obtain ⟨hbase, hsigma, hdata, hfilled⟩ := x.opened_keeps d dev
  unfold Slot.deposited Slot.filledBy
  simp only [h, hbase, hsigma, hdata, hfilled]

/-- What a slot holds after a deposit of one segment, but for POISON, FINAL, M and S (R99). -/
theorem Slot.deposited_fields {d : Deposit} (h : d.slot = none) (x : Slot) (g : Geo) (dev : DevId) :
    let y := x.deposited g d dev
    y.base = SMap.set unfilled x.base d.seg d.base ∧ y.sigma = Words.set x.sigma d.seg d.sigma
      ∧ y.data = SMap.splice 0 (256 * d.seg) 256 x.data d.data ∧ y.filled = x.filled + 1
      ∧ y.token = (x.opened d dev).token ∧ y.srcDev = (x.opened d dev).srcDev ∧ y.invTau = (x.opened d dev).invTau
      ∧ y.state = if x.filled + 1 = g.segs then 2 else if x.state = 0 then 1 else x.state := by
  dsimp only
  rw [Slot.deposited_segment h]
  split
  · rw [Slot.finalised_eq]
    exact ⟨rfl, rfl, rfl, rfl, rfl, rfl, rfl, rfl⟩
  · exact ⟨rfl, rfl, rfl, rfl, rfl, rfl, rfl, x.opened_state d dev⟩

theorem Slot.deposited_baseAt {d : Deposit} (h : d.slot = none) (x : Slot) (g : Geo) (dev : DevId) (k : Nat) :
    (x.deposited g d dev).baseAt k = if k = d.seg then d.base else x.baseAt k := by
  obtain ⟨hbase, -⟩ := Slot.deposited_fields h x g dev
  unfold Slot.baseAt
  rw [hbase, SMap.get_set]

theorem Slot.deposited_sigma {d : Deposit} (h : d.slot = none) (x : Slot) (g : Geo) (dev : DevId) (k : Nat) :
    Words.get (x.deposited g d dev).sigma k = if k = d.seg then d.sigma else Words.get x.sigma k := by
  obtain ⟨-, hsigma, -⟩ := Slot.deposited_fields h x g dev
  rw [hsigma]
  exact SMap.get_set _ _ _ _

theorem Slot.deposited_elem {d : Deposit} (h : d.slot = none) (x : Slot) (g : Geo) (dev : DevId) (k : Nat) {j : Nat}
    (hj : j < 256) :
    (x.deposited g d dev).elem k j = if k = d.seg then SMap.get 0 d.data j else x.elem k j := by
  obtain ⟨-, -, hdata, -⟩ := Slot.deposited_fields h x g dev
  unfold Slot.elem
  rw [hdata, SMap.get_splice]
  by_cases hk : k = d.seg
  · rw [if_pos hk, if_pos (by omega), hk, Nat.add_sub_cancel_left]
  · rw [if_neg hk, if_neg (by omega)]

/-! ### A partition after a deposit (R96, R98) -/

@[simp] theorem Part.placed_geo (p : Part) (d : Deposit) (dev : DevId) : (p.placed d dev).geo = p.geo := rfl
@[simp] theorem Part.placed_c64 (p : Part) (d : Deposit) (dev : DevId) : (p.placed d dev).c64 = p.c64 := rfl

/-- The token's slot has taken the deposit. -/
theorem Part.placed_slot (p : Part) (d : Deposit) (dev : DevId) :
    (p.placed d dev).slot d.token = (p.slot d.token).deposited p.geo d dev := by
  unfold Part.slot
  exact SMap.get_upd_same (d := ({} : Slot)) p.slots (p.slotIx d.token) fun x => x.deposited p.geo d dev
theorem Part.placed_slots_ne (p : Part) (d : Deposit) (dev : DevId) {i : Nat} (h : i ≠ p.slotIx d.token) :
    SMap.get {} (p.placed d dev).slots i = SMap.get {} p.slots i :=
  SMap.get_upd_ne (d := {}) p.slots (fun x => x.deposited p.geo d dev) h
theorem Part.placed_deposit (p : Part) (d : Deposit) (dev : DevId) :
    (p.placed d dev).deposit = BitVec.ofNat 64 (max p.deposit.toNat ((p.big d.token).toNat + 1)) := rfl

/-- A pair that joins the list changes nothing else. -/
theorem Part.listed_eq (p : Part) (dev : DevId) (c : CtxId) : p.listed dev c = { p with pairs := (p.listed dev c).pairs } := by
  unfold Part.listed
  split <;> rfl
theorem Part.listed_poisons (p : Part) (dev : DevId) (c : CtxId) (d : Deposit) (src : DevId) :
    (p.listed dev c).poisons d src = p.poisons d src := by
  rw [Part.listed_eq]
  unfold Part.poisons
  rw [Part.placed_slot, Part.placed_slot]
  rfl

/-! ### The verdict on a deposit (R99) -/

/-- A deposit that is taken is of a token inside the live window (R96). -/
theorem Part.judge_take_window {p : Part} {d : Deposit} (h : p.judge d = .take) :
    (p.c64.toNat : Int) ≤ p.big d.token ∧ p.big d.token < p.c64.toNat + p.geo.slots := by
  unfold Part.judge at h
  dsimp only at h
  split_ifs at h with _ _ _ past before <;> exact ⟨by simpa using before, by simpa using past⟩

/-- DEPOSIT_SEQ passes a token that is taken, and never goes back (R96). -/
theorem Part.placed_passes {p : Part} {d : Deposit} (dev : DevId) (h : p.judge d = .take)
    (fits : p.c64.toNat + p.geo.slots < 2 ^ 64) :
    p.big d.token < (p.placed d dev).deposit.toNat ∧ p.deposit.toNat ≤ (p.placed d dev).deposit.toNat := by
  obtain ⟨low, high⟩ := Part.judge_take_window h
  have old := p.deposit.isLt
  rw [Part.placed_deposit, BitVec.toNat_ofNat, Nat.mod_eq_of_lt (by omega)]
  omega

/-- Another mode, an unknown segment or a token past the window is refused (R99). -/
theorem Part.judge_refuse {p : Part} {d : Deposit} (hv : p.valid = true) (hr : p.refusing = false)
    (h : d.mode ≠ p.geo.mode ∨ p.geo.segs ≤ d.seg ∨ (p.c64.toNat : Int) + p.geo.slots ≤ p.big d.token) :
    p.judge d = .refuse := by
  unfold Part.judge
  rw [if_neg (by simp [hv, hr])]
  by_cases mode : d.mode = p.geo.mode
  · rw [if_neg (by simp [mode])]
    by_cases seg : p.geo.segs ≤ d.seg
    · rw [if_pos seg]
    · rw [if_neg seg, if_pos (by simpa [mode, seg] using h)]
  · rw [if_pos mode]

/-- A segment already filled is a second deposit of it: TS_DUP (R99). -/
theorem Part.judge_dup {p : Part} {d : Deposit} (hv : p.valid = true) (hr : p.refusing = false) (mode : d.mode = p.geo.mode)
    (seg : d.seg < p.geo.segs) (win : p.inWindow d.token = true) (one : p.geo.mode ≠ 2)
    (full : (p.slot d.token).baseAt d.seg ≠ unfilled) : p.judge d = .fault 0x0203 := by
  unfold Part.inWindow at win
  simp only [Bool.and_eq_true, decide_eq_true_eq] at win
  obtain ⟨low, high⟩ := win
  unfold Part.judge
  rw [if_neg (by simp [hv, hr]), if_neg (by simp [mode]), if_neg (by omega), if_neg (by simpa using high),
    if_neg (by simpa using low), if_pos (by rw [if_neg one]; simpa using full)]

/-! ### A deposit arrives (R99) -/

/-- A deposit that poisons no token is placed, and that is all. -/
theorem State.place_clean {s : State} {die : Nat} {d : Deposit} {dev : DevId} (h : (s.prt die d.ctx.toNat).poisons d dev = false) :
    s.place die d dev = s.modPart die d.ctx.toNat fun p => p.placed d dev := by
  unfold State.place
  exact if_neg (by simp [h])

theorem State.depositLocal_take {s : State} {die : Nat} {d : Deposit} (h : (s.prt die d.ctx.toNat).judge d = .take) :
    s.depositLocal die d = s.place die d s.devId := by
  unfold State.depositLocal
  rw [h]
theorem State.depositLocal_refuse {s : State} {die : Nat} {d : Deposit} (h : (s.prt die d.ctx.toNat).judge d = .refuse) :
    s.depositLocal die d = (s.alarm (pgTouch die) 3 (some d.ctx)).tsFault d.src.val d.ctx 0x0202 := by
  unfold State.depositLocal
  rw [h]
theorem State.depositLocal_fault {s : State} {die : Nat} {d : Deposit} {code : U16}
    (h : (s.prt die d.ctx.toNat).judge d = .fault code) :
    s.depositLocal die d = (s.alarm (pgTouch die) 3 (some d.ctx)).tsFault die d.ctx code := by
  unfold State.depositLocal
  rw [h]

/-- The device once deposit `d` has left the edges to a die. -/
def State.depTaken (s : State) (die : Nat) (d : Deposit) : State := s.modTd die fun x => { x with dep := x.dep.erase d }

@[simp] theorem State.depTaken_dep (s : State) (die : Nat) (d : Deposit) :
    ((s.depTaken die d).tdie die).dep = (s.tdie die).dep.erase d := by
  unfold State.depTaken
  rw [State.modTd_same]
@[simp] theorem State.depTaken_prt (s : State) (die : Nat) (d : Deposit) (e c : Nat) : (s.depTaken die d).prt e c = s.prt e c := by
  unfold State.depTaken State.prt
  by_cases h : e = die
  · rw [h, State.modTd_same]
  · rw [State.modTd_ne _ _ h]
theorem State.depTaken_die_ne (s : State) {die j : Nat} (d : Deposit) (h : j ≠ die) : (s.depTaken die d).tdie j = s.tdie j :=
  State.modTd_ne _ _ h

@[simp] theorem State.depTaken_devId (s : State) (die : Nat) (d : Deposit) : (s.depTaken die d).devId = s.devId := rfl

/-- The oldest deposit on an edge leaves it, and the die decides (R16, R99). -/
theorem escrowDeposit_edge {a b : Die} {d : Deposit} {s : State} (h : (s.tdie b.val).dep.find? (fun d => d.src = a) = some d) :
    exec (.escrowDeposit (.edge a b)) s = .next ((s.depTaken b.val d).depositLocal b.val d) := by
  show execEscrowDeposit (.edge a b) s = _
  unfold execEscrowDeposit
  simp only [h]
  rfl

/-- A deposit from an edge that is taken and poisons no token is placed. -/
theorem escrowDeposit_edge_take {a b : Die} {d : Deposit} {s : State}
    (h : (s.tdie b.val).dep.find? (fun d => d.src = a) = some d) (take : (s.prt b.val d.ctx.toNat).judge d = .take)
    (clean : (s.prt b.val d.ctx.toNat).poisons d s.devId = false) :
    exec (.escrowDeposit (.edge a b)) s =
      .next ((s.depTaken b.val d).modPart b.val d.ctx.toNat fun p => p.placed d s.devId) := by
  rw [escrowDeposit_edge h, State.depositLocal_take (by rw [State.depTaken_prt]; exact take),
    State.place_clean (by rw [State.depTaken_prt]; exact clean), State.depTaken_devId]

/-- A deposit that is not taken: bit 3 of the die's page, the fault of its context, and no slot changes (R99). -/
theorem alarm_tsFault {s : State} {die unit : Nat} {c : CtxId} (code : U16) (hc : (s.ctx c.toNat).st = .resident)
    (ha : s.action (pgTouch die) 3 ≠ 2) :
    let t := (s.alarm (pgTouch die) 3 (some c)).tsFault unit c code
    Faulted s t c code ∧ Stands t (pgTouch die) 3 ∧ ∀ d k, (t.prt d k).slots = (s.prt d k).slots := by
  dsimp only
  rw [alarm_of_action_ne c ha]
  have only := alarm0_only s (pgTouch die) 3 (some c.toNat)
  have alive : ((s.alarm0 (pgTouch die) 3 (some c.toNat)).ctx c.toNat).st.alive := by rw [only.ctx]; exact alive_resident hc
  refine ⟨(faultCtx_faulted _ _ _ _ _ _ _ alive).after_alarm only,
    faultCtx_mono _ _ _ _ _ _ _ _ _ (alarm0_stands _ _ _ _ (by decide)),
    fun d k => ?_⟩
  exact (faultCtx_slots _ _ _ _ _ alive d k).trans (by rw [only.prt])

/-- A deposit that arrives over a link and that its die takes: the producer joins the list, and it is placed (R98). -/
theorem State.depositLink_take {s : State} {k : Packet} (hd : (s.ctx k.dstCtx.toNat).st.deaf = false)
    (hp : s.diePowered (depositOf k).dst.val = true) (hu : s.unitOn 0 = true)
    (h : (s.prt (depositOf k).dst.val (depositOf k).ctx.toNat).judge (depositOf k) = .take)
    (clean : (s.prt (depositOf k).dst.val (depositOf k).ctx.toNat).poisons (depositOf k) k.src = false) :
    s.depositLink k = (s.modPart (depositOf k).dst.val (depositOf k).ctx.toNat fun p => p.listed k.src k.srcCtx).modPart
      (depositOf k).dst.val (depositOf k).ctx.toNat fun p => p.placed (depositOf k) k.src := by
  unfold State.depositLink
  simp only [hd, hp, hu, h, Bool.not_true, Bool.or_false, Bool.false_eq_true, if_false]
  exact State.place_clean (by rw [State.modPart_same, Part.listed_poisons]; exact clean)

theorem given_frame (s : State) (p : PortId) (k : Packet) : s.given p k = { s with port := (s.given p k).port } := by
  unfold State.given
  split <;> rfl

/-- A deposit with a payload of its mode's length reaches the die it names (Table LK.3). -/
theorem escrowDeposit_link {s : State} {p : PortId} {k : Packet} (h : Arrives s p k 2)
    (len : k.payload.length = depositLen (depositOf k).mode) :
    exec (.escrowDeposit (.link p k)) s = .next ((s.given p k).depositLink k) := by
  show s.receive p.val k 2 _ = _
  rw [receive_arrives h (by decide), if_neg (by simp [len])]
  rfl

/-! ### PART_APPLY (R116) -/

theorem partApply_installs {d : Die} {v : W32} {s : State} (hv : bit v.toNat 0 = true) (hw : s.canWrite (pgTouch d.val) = true)
    (hu : s.unitOn 0 = true) (hb : (s.tdie d.val).badPart (s.tdie d.val).sel.toNat = false) :
    exec (.partApply d v) s = .next (s.modPart d.val (s.tdie d.val).sel.toNat fun p => { p with
      geo := p.stg, valid := decide (p.stg.size ≠ 0), reject := false, busy := true
      c64 := 0, deposit := 0, withdrawn := [], slots := [], pairs := [] }) := by
  show execPartApply d v s = _
  unfold execPartApply
  have size (n : Nat) : (n != 0) = decide (n ≠ 0) := decide_not.symm
  simp only [size]
  rw [if_neg (by simp [hv, hw])]
  exact if_neg (by simp [hu, hb])

theorem partApply_rejects {d : Die} {v : W32} {s : State} (hv : bit v.toNat 0 = true) (hw : s.canWrite (pgTouch d.val) = true)
    (h : s.unitOn 0 = false ∨ (s.tdie d.val).badPart (s.tdie d.val).sel.toNat = true) (ha : s.action (pgTouch d.val) 0 ≠ 2) :
    exec (.partApply d v) s = .next ((s.modPart d.val (s.tdie d.val).sel.toNat fun p => { p with reject := true }).alarm0
      (pgTouch d.val) 0 (some (s.tdie d.val).sel.toNat)) := by
  have log : (s.modPart d.val (s.tdie d.val).sel.toNat fun p => { p with reject := true }).action (pgTouch d.val) 0 ≠ 2 := ha
  show execPartApply d v s = _
  unfold execPartApply
  rw [if_neg (by simp [hv, hw]), ← alarm_of_action_ne _ log]
  exact if_pos (by simpa using h)

theorem partApplyDone_ends {d : Die} {c : CtxId} {s : State} (h : (s.prt d.val c.toNat).busy = true) :
    exec (.partApplyDone d c) s = .next (s.modPart d.val c.toNat fun p => { p with busy := false }) := if_pos h

/-- Settles O49, clause by clause: a deposit placed or refused, the verdicts, a deposit over a link, PART_APPLY. -/
theorem depositsFillTheirSlotOrAreDiscarded : Obligations.DepositsFillTheirSlotOrAreDiscarded := by
  unfold Obligations.DepositsFillTheirSlotOrAreDiscarded
  refine ⟨?taken, ?discarded, ?verdicts, ?link, ?apply, ?done⟩
  case taken =>
    intro a b d s hd p take one clean
    refine ⟨_, escrowDeposit_edge_take hd take clean, ?_⟩
    dsimp only
    rw [State.modPart_same, State.depTaken_prt, Part.placed_slot]
    obtain ⟨-, -, -, filled, token, dev, tau, state⟩ := Slot.deposited_fields one (p.slot d.token) p.geo s.devId
    refine ⟨?base, ?sigma, fun j hj => ?elem, fun k hk => ⟨?bases, ?sigmas, fun j hj => ?elems⟩, filled, state,
      fun empty => ?header, fun i hi => p.placed_slots_ne d _ hi, p.placed_passes _ take, p.placed_geo _ _, p.placed_c64 _ _, ?edge, fun j hj => ?dies,
      fun e he => ?parts, rfl⟩
    case base => rw [Slot.deposited_baseAt one, if_pos rfl]
    case sigma => rw [Slot.deposited_sigma one, if_pos rfl]
    case elem => rw [Slot.deposited_elem one _ _ _ _ hj, if_pos rfl]
    case bases => rw [Slot.deposited_baseAt one, if_neg hk]
    case sigmas => rw [Slot.deposited_sigma one, if_neg hk]
    case elems => rw [Slot.deposited_elem one _ _ _ _ hj, if_neg hk]
    case header =>
      obtain ⟨htoken, hdev, htau⟩ := Slot.opened_header d s.devId empty
      exact ⟨token.trans htoken, dev.trans hdev, tau.trans htau⟩
    case edge => rw [State.modPart_dep, State.depTaken_dep]
    case dies => rw [State.modPart_die_ne _ _ _ hj, State.depTaken_die_ne _ _ hj]
    case parts => rw [State.modPart_ctx_ne _ _ _ he, State.depTaken_prt]
  case discarded =>
    intro a b d s hd hc ha
    have outcome (unit : Nat) (code : U16) := alarm_tsFault (s := s.depTaken b.val d) (unit := unit) code hc ha
    refine ⟨fun hj => ?_, fun code hj => ?_⟩
    · refine ⟨_, escrowDeposit_edge hd, ?_⟩
      rw [State.depositLocal_refuse (by rw [State.depTaken_prt]; exact hj)]
      obtain ⟨faulted, stands, slots⟩ := outcome d.src.val 0x0202
      exact ⟨faulted, stands, (slots _ _).trans (by rw [State.depTaken_prt])⟩
    · refine ⟨_, escrowDeposit_edge hd, ?_⟩
      rw [State.depositLocal_fault (by rw [State.depTaken_prt]; exact hj)]
      obtain ⟨faulted, stands, slots⟩ := outcome b.val code
      exact ⟨faulted, stands, (slots _ _).trans (by rw [State.depTaken_prt])⟩
  case verdicts =>
    intro p d hv hr
    exact ⟨Part.judge_refuse hv hr, Part.judge_dup hv hr⟩
  case link =>
    intro p k s arr len d x hp hu take clean
    have hd : ((s.given p k).ctx k.dstCtx.toNat).st.deaf = false := by
      obtain ⟨-, -, -, -, hd⟩ := arr
      rw [given_frame]; exact hd
    have run := escrowDeposit_link arr len
    rw [State.depositLink_take hd (by rw [given_frame]; exact hp) (by rw [given_frame]; exact hu)
      (by rw [given_frame]; exact take) (by rw [given_frame]; exact clean)] at run
    refine ⟨_, run, ?_, given_owes s p k, fun j hj => ?_, fun e he => ?_, ?_⟩
    · rw [State.modPart_same, State.modPart_same, given_frame]; rfl
    · rw [State.modPart_die_ne _ _ _ hj, State.modPart_die_ne _ _ _ hj, given_frame]; rfl
    · rw [State.modPart_ctx_ne _ _ _ he, State.modPart_ctx_ne _ _ _ he, given_frame]; rfl
    · rw [given_frame]; rfl
  case apply =>
    intro d v s hv hw c p
    refine ⟨fun hu hb => ?installs, fun h ha => ?rejects⟩
    case installs =>
      exact ⟨_, partApply_installs hv hw hu hb, State.modPart_same _ _ _ _, fun j hj => State.modPart_die_ne _ _ _ hj,
        fun e he => State.modPart_ctx_ne _ _ _ he, rfl⟩
    case rejects =>
      refine ⟨_, partApply_rejects hv hw h ha, ?_⟩
      have only := alarm0_only (s.modPart d.val c fun p => { p with reject := true }) (pgTouch d.val) 0 (some c)
      refine ⟨?_, fun j hj => ?_, fun e he => ?_, alarm0_stands _ _ _ _ (by decide), only.of_modTd⟩
      · rw [only.prt, State.modPart_same]
      · rw [only.tdie, State.modPart_die_ne _ _ _ hj]
      · rw [only.prt, State.modPart_ctx_ne _ _ _ he]
  case done =>
    intro d c s hb
    exact ⟨_, partApplyDone_ends hb, State.modPart_same _ _ _ _, fun j hj => State.modPart_die_ne _ _ _ hj,
      fun e he => State.modPart_ctx_ne _ _ _ he, rfl⟩

end Sys2Proof.Machine
end

section
/-! SUPPORT. What a write of CAP, of SHARE_ORDER and of PACE_CLEAR does (R42, R250, R253). -/

namespace Sys2Proof.Machine

/-- Of the Bursar an alarm changes Hold and its count alone. -/
theorem AlarmOnly.bursar {s t : State} (h : AlarmOnly s t) :
    t.bursar = { s.bursar with hold := t.bursar.hold, holdCount := t.bursar.holdCount } := by
  unfold AlarmOnly at h; rw [h]

theorem capWrite_in_range {v : W32} {s : State} (hw : s.canWrite pgBursar = true)
    (h : 600 ≤ v.toNat % 4096 ∧ v.toNat % 4096 ≤ 3200) :
    exec (.capWrite v) s =
      .next { s with bursar := { s.bursar with cap := BitVec.ofNat 12 (v.toNat % 4096), capClamped := false } } := by
  show execCapWrite v s = _
  unfold execCapWrite
  have keep : (if v.toNat % 4096 < 600 then 600 else if 3200 < v.toNat % 4096 then 3200 else v.toNat % 4096) = v.toNat % 4096 := by
    rw [if_neg (by omega), if_neg (by omega)]
  simp [hw, keep]

/-- A value outside the range: the nearer limit is stored, and the alarm follows. -/
theorem capWrite_out_of_range {v : W32} {s : State} (hw : s.canWrite pgBursar = true)
    (h : ¬(600 ≤ v.toNat % 4096 ∧ v.toNat % 4096 ≤ 3200)) :
    exec (.capWrite v) s =
      .next (State.alarm { s with bursar := { s.bursar with
        cap := BitVec.ofNat 12 (max 600 (min 3200 (v.toNat % 4096))), capClamped := true } } pgBursar 0) := by
  show execCapWrite v s = _
  unfold execCapWrite
  have limit : (if v.toNat % 4096 < 600 then 600 else if 3200 < v.toNat % 4096 then 3200 else v.toNat % 4096)
      = max 600 (min 3200 (v.toNat % 4096)) := by
    split_ifs <;> omega
  have clamped : max 600 (min 3200 (v.toNat % 4096)) ≠ v.toNat % 4096 := by omega
  simp [hw, limit, clamped]

/-- The six codes that SHARE_ORDER takes are those whose three fields permute the domains (R250). -/
theorem shareOrder_legal : ∀ o < 64,
    (o % 4 < 3 ∧ o / 4 % 4 < 3 ∧ o / 16 % 4 < 3 ∧ o % 4 ≠ o / 4 % 4 ∧ o / 4 % 4 ≠ o / 16 % 4 ∧ o % 4 ≠ o / 16 % 4)
      ↔ List.Perm [o % 4, o / 4 % 4, o / 16] [0, 1, 2] := by
  decide

theorem shareOrderWrite_eq {v : W32} {s : State} (hw : s.canWrite pgBursar = true) :
    exec (.shareOrderWrite v) s =
      if List.Perm [v.toNat % 64 % 4, v.toNat % 64 / 4 % 4, v.toNat % 64 / 16] [0, 1, 2] then
        .next { s with bursar := { s.bursar with shareOrder := BitVec.ofNat 6 (v.toNat % 64) } }
      else .next (s.alarm pgBursar 5) := by
  show execShareOrderWrite v s = _
  unfold execShareOrderWrite
  rw [if_pos hw]
  exact if_congr (shareOrder_legal _ (Nat.mod_lt _ (by decide))) rfl rfl

theorem paceClear_eq {d : Die} {v : W32} {s : State} (hw : s.canWrite (pgPace d.val) = true) (hv : bit v.toNat 0 = true) :
    exec (.paceClear d v) s = .next (s.modPac d.val fun p => { p with low := 0xFFFF }) := if_pos (by simp [hv, hw])

/-- Settles O21, register by register: CAP within and outside its range, SHARE_ORDER, PACE_CLEAR. -/
theorem capAndShareOrderTakeLegalValues : Obligations.CapAndShareOrderTakeLegalValues := by
  unfold Obligations.CapAndShareOrderTakeLegalValues
  refine ⟨?cap, ?order, ?clear⟩
  case cap =>
    intro v s hw
    by_cases h : 600 ≤ v.toNat % 4096 ∧ v.toNat % 4096 ≤ 3200
    · refine ⟨_, capWrite_in_range hw h, ?_, rfl, rfl, ?_⟩
      · dsimp only
        rw [BitVec.toNat_ofNat]
        omega
      · rw [if_pos h]
        exact ⟨rfl, rfl, rfl⟩
    · refine ⟨_, capWrite_out_of_range hw h, ?_⟩
      set w := v.toNat % 4096
      have only := alarm_only { s with bursar := { s.bursar with cap := BitVec.ofNat 12 (max 600 (min 3200 w)), capClamped := true } }
        pgBursar 0
      have bursar := only.bursar
      refine ⟨?stored, by rw [bursar], ?frame, ?raised⟩
      case stored =>
        rw [only.cap, BitVec.toNat_ofNat]
        omega
      case frame =>
        rw [bursar]
        exact only
      case raised =>
        rw [if_neg h]
        exact ⟨by rw [bursar], alarm_stands _ _ _ (by decide)⟩
  case order =>
    intro v s hw
    unfold Completes
    rw [shareOrderWrite_eq hw]
    dsimp only
    split
    · exact ⟨_, rfl, rfl⟩
    · exact ⟨_, rfl, alarm_stands _ _ _ (by decide), alarm_only _ _ _⟩
  case clear =>
    intro d v s hw hv
    exact ⟨_, paceClear_eq hw hv, rfl, State.modPac_same _ _ _, fun j hj => State.modPac_ne _ _ hj⟩

end Sys2Proof.Machine
end

section
/-! SUPPORT. The commit of a sparing map and the end of a persistent write (R32, R293, R294). -/

namespace Sys2Proof.Machine

/-! ### The answer of the cell (R293) -/

/-- The cell itself refuses a write, whatever the value, while it is BUSY or EXHAUSTED. -/
theorem cellWrite_refused_by_cell {s : State} {i : Nat} (v : BitVec 160) (r : Option (Nat × Nat))
    (h : (s.cell i).busy = true ∨ (s.cell i).exhausted = true) :
    let t := s.cellWrite i v r
    t.cell i = { s.cell i with lastRefused := true } ∧ SameBut State.cell i s t ∧ AlarmOnly { s with nv := t.nv } t := by
  cases hb : (s.cell i).busy
  case true =>
    rw [cellWrite_busy _ _ hb]
    obtain ⟨own, others, only, -⟩ := lastRefused_alarm s i pgPersist (b := 0) (by decide)
    exact ⟨own, others, only⟩
  case false =>
    rw [cellWrite_exhausted _ _ hb (h.resolve_left (by simp [hb]))]
    obtain ⟨own, others, only, -⟩ := lastRefused_alarm s i pgPersist (b := 1) (by decide)
    exact ⟨own, others, only⟩

/-- An idle, unexhausted cell takes a value that its page does not refuse, unless it is the stored one. -/
theorem cellWrite_taken {s : State} {i : Nat} (v : BitVec 160) (hb : (s.cell i).busy = false)
    (he : (s.cell i).exhausted = false) :
    let t := s.cellWrite i v none
    (t.cell i = if (s.cell i).val = v then s.cell i else (s.cell i).accepted v)
      ∧ SameBut State.cell i s t ∧ AlarmOnly { s with nv := t.nv } t := by
  intro t
  by_cases hv : (s.cell i).val = v
  case pos =>
    have same : t = s := by simp [t, State.cellWrite, hb, he, hv]
    rw [same, if_pos hv]
    exact ⟨rfl, fun _ _ => rfl, rfl⟩
  case neg =>
    have only : AlarmOnly (s.modCell i fun c => c.accepted v) t := by
      simp only [t, State.cellWrite, hb, he, hv, Bool.false_eq_true, if_false]
      split
      · exact alarm_only _ _ _
      · split
        · exact alarm_only _ _ _
        · exact .refl _
    refine ⟨?_, fun j hj => ?_, only.of_modCell⟩
    · rw [only.cell, State.modCell_same, if_neg hv]
    · rw [only.cell, State.modCell_ne _ _ hj]

/-! ### The sparing record (R32) -/

theorem AlarmOnly.spr {s t : State} (h : AlarmOnly s t) (d : Nat) : t.spr d = s.spr d := by
  unfold State.spr; rw [h.spare]

/-- After a write of cells, `u`, a change of one sparing record and at most alarms change nothing else. -/
theorem AlarmOnly.of_modSpr {s u t : State} {d : Nat} {f : Spare → Spare} (h : AlarmOnly { s with nv := u.nv } u)
    (k : AlarmOnly (u.modSpr d f) t) :
    t.cell = u.cell ∧ t.spr d = f (s.spr d) ∧ SameBut State.spr d s t ∧ AlarmOnly { s with nv := t.nv, spare := t.spare } t := by
  refine ⟨funext k.cell, ?own, fun j hj => ?others, ?frame⟩
  case own => rw [k.spr, State.modSpr_same, h.spr]; rfl
  case others => rw [k.spr, State.modSpr_ne _ _ hj, h.spr]; rfl
  case frame =>
    have nv : t.nv = u.nv := k.nv
    have mid : AlarmOnly { s with nv := t.nv, spare := t.spare } (u.modSpr d f) := by
      rw [k.spare, nv]
      unfold AlarmOnly at h ⊢
      rw [h]
      rfl
    exact mid.trans k

/-! ### SPARE_COMMIT (R32) -/

theorem spareCommit_ignored {d : Die} {v : W32} {s : State} (h : bit v.toNat 0 = false) :
    exec (.spareCommit d v) s = .next s := if_neg (by simp [h])

theorem spareCommit_runs {d : Die} {v : W32} {s : State} (hv : bit v.toNat 0 = true)
    (hw : s.canWrite (pgSparing d.val) true = true) :
    exec (.spareCommit d v) s = .next (s.spareCommit d.val (s.spr d.val).staged) := if_pos (by simp [hv, hw])

theorem spareCommit_taken {s : State} {d : Nat} {m : BitVec 160} (hm : popCount m.toNat 160 = 150)
    (hb : (s.cell (10 + d)).busy = false) (he : (s.cell (10 + d)).exhausted = false) :
    s.spareCommit d m = (s.cellWrite (10 + d) m none).modSpr d fun x => { x with reject := false } := by
  simp [State.spareCommit, hm, hb, he]

theorem spareCommit_refused_by_cell {s : State} {d : Nat} {m : BitVec 160}
    (h : (s.cell (10 + d)).busy = true ∨ (s.cell (10 + d)).exhausted = true ∧ popCount m.toNat 160 ≠ 150) :
    ∃ r, s.spareCommit d m =
      ((s.cellWrite (10 + d) m r).modSpr d fun x => { x with reject := true }).alarm (pgSparing d) 0 :=
  ⟨_, if_pos (by simpa using h)⟩

theorem spareCommit_refused_by_page {s : State} {d : Nat} {m : BitVec 160} (hm : popCount m.toNat 160 ≠ 150)
    (hb : (s.cell (10 + d)).busy = false) (he : (s.cell (10 + d)).exhausted = false) :
    s.spareCommit d m = (s.alarm (pgSparing d) 0).modSpr d fun x => { x with reject := true } := by
  rw [← cellWrite_refused m (pgSparing d) 0 hb he]
  simp [State.spareCommit, hm, hb, he]

/-- A rejected commit is a write, to `u`, that the cell or the page refuses; REJECT and bit 0 of the page come with it. -/
theorem spareCommit_rejected {s : State} {d : Nat} {m : BitVec 160}
    (h : (s.cell (10 + d)).busy = true ∨ popCount m.toNat 160 ≠ 150) :
    ∃ u : State, (u.cell (10 + d)).val = (s.cell (10 + d)).val ∧ (u.cell (10 + d)).wear = (s.cell (10 + d)).wear
      ∧ SameBut State.cell (10 + d) s u ∧ AlarmOnly { s with nv := u.nv } u
      ∧ AlarmOnly (u.modSpr d fun x => { x with reject := true }) (s.spareCommit d m)
      ∧ Stands (s.spareCommit d m) (pgSparing d) 0 := by
  by_cases byCell : (s.cell (10 + d)).busy = true ∨ (s.cell (10 + d)).exhausted = true ∧ popCount m.toNat 160 ≠ 150
  case pos =>
    obtain ⟨r, run⟩ := spareCommit_refused_by_cell byCell
    obtain ⟨own, others, only⟩ := cellWrite_refused_by_cell m r (byCell.imp_right And.left)
    rw [run]
    exact ⟨_, by rw [own], by rw [own], others, only, alarm_only _ _ _, alarm_stands _ _ _ (by decide)⟩
  case neg =>
    obtain ⟨hb, rest⟩ := not_or.1 byCell
    have hm := h.resolve_left hb
    have he := fun he => rest ⟨he, hm⟩
    rw [spareCommit_refused_by_page hm (Bool.eq_false_of_not_eq_true hb) (Bool.eq_false_of_not_eq_true he)]
    have only := alarm_only s (pgSparing d) 0
    refine ⟨_, by rw [only.cell], by rw [only.cell], fun j _ => only.cell j, ?_, .refl _, alarm_stands _ _ _ (by decide)⟩
    rw [only.nv]
    exact only

theorem persistWriteDone_ends {i : Fin 20} {s : State} (h : (s.cell i.val).busy = true) :
    exec (.persistWriteDone i) s = .next (s.modCell i.val fun c => { c with busy := false, old := c.val }) := if_pos h

/-- Settles O10: the commit that is taken, the commit that is rejected, the write of 0, and the end of a write. -/
theorem spareCommitPersistsOrRejects : Obligations.SpareCommitPersistsOrRejects := by
  unfold Obligations.SpareCommitPersistsOrRejects
  refine ⟨?taken, ?rejected, fun d v s hv => spareCommit_ignored hv, ?done⟩
  case taken =>
    intro d v s hv hw hm hb he
    refine ⟨_, spareCommit_runs hv hw, ?_⟩
    rw [spareCommit_taken hm hb he]
    obtain ⟨own, others, only⟩ := cellWrite_taken (s.spr d.val).staged hb he
    obtain ⟨-, spare, spares, frame⟩ := only.of_modSpr (.refl _)
    exact ⟨own, others, spare, spares, frame⟩
  case rejected =>
    intro d v s hv hw h
    refine ⟨_, spareCommit_runs hv hw, ?_⟩
    obtain ⟨u, val, wear, others, write, mark, stands⟩ := spareCommit_rejected h
    obtain ⟨cells, spare, spares, frame⟩ := write.of_modSpr mark
    unfold SameBut
    rw [cells]
    exact ⟨val, wear, others, spare, spares, stands, frame⟩
  case done =>
    intro i s hb
    exact ⟨_, persistWriteDone_ends hb, State.modCell_same _ _ _, fun j hj => State.modCell_ne _ _ hj, rfl⟩

end Sys2Proof.Machine
end

section
/-! SUPPORT. The close of a PACE window: what the window control may change, a change of every usable port, the slowest
ring, the report of a die and the heartbeats (R41, R42, R239, R250 to R254). -/

namespace Sys2Proof.Machine

/-! ### The window control changes power alone (R250 to R254) -/

/-- From `s` to `t` nothing changes but the Bursar and the power records of the dies. -/
def PowerOnly (s t : State) : Prop := t = { s with dp := t.dp, bursar := t.bursar }

theorem PowerOnly.refl (s : State) : PowerOnly s s := rfl

theorem PowerOnly.trans {s t u : State} (h : PowerOnly s t) (k : PowerOnly t u) : PowerOnly s u := by
  unfold PowerOnly at *
  rw [k, h]

theorem powerOnly_bursar (s : State) (b : Bursar) : PowerOnly s { s with bursar := b } := rfl

theorem eachDie_powerOnly (s : State) (f : Nat → DiePower → DiePower) : PowerOnly s (s.eachDie f) :=
  List.foldlRecOn _ _ (.refl s) fun _ h _ _ => h.trans rfl

theorem endRamp_powerOnly (s : State) : PowerOnly s s.endRamp := by
  unfold State.endRamp
  split
  · exact (powerOnly_bursar s _).trans (eachDie_powerOnly _ _)
  · exact .refl s

theorem divide_powerOnly (s : State) : PowerOnly s s.divide := by
  unfold State.divide
  split
  · exact .refl s
  · exact (eachDie_powerOnly s _).trans ((powerOnly_bursar _ _).trans (endRamp_powerOnly _))

theorem correct_powerOnly (s : State) : PowerOnly s s.correct := by
  have counted := powerOnly_bursar s { s.bursar with raiseWait := s.bursar.raiseWait - 1 }
  unfold State.correct
  dsimp only
  split
  · exact counted.trans (eachDie_powerOnly _ _)
  · split
    · exact counted.trans (eachDie_powerOnly _ _)
    · split
      · exact rfl
      · exact counted

theorem lowerDomain_powerOnly {s t : State} {k : Nat} (h : s.lowerDomain k = some t) : PowerOnly s t := by
  unfold State.lowerDomain at h
  dsimp only at h
  split_ifs at h <;> cases h
  · rfl
  · rfl
  · exact eachDie_powerOnly _ _
  · exact eachDie_powerOnly _ _

theorem raiseDomain_powerOnly {s t : State} {k : Nat} (h : s.raiseDomain k = some t) : PowerOnly s t := by
  unfold State.raiseDomain at h
  dsimp only at h
  split_ifs at h <;> cases h
  · rfl
  · rfl
  · exact eachDie_powerOnly _ _
  · exact eachDie_powerOnly _ _

/-- A step of the first domain that has one is a step of a domain. -/
theorem firstSome_powerOnly {s : State} {f : Nat → Option State} (hf : ∀ {k t}, f k = some t → PowerOnly s t)
    (l : List Nat) : PowerOnly s ((firstSome f l).getD s) := by
  induction l with
  | nil => exact .refl s
  | cons k l ih =>
    unfold firstSome
    split
    · exact hf ‹_›
    · exact ih

theorem control_powerOnly (s : State) : PowerOnly s s.control := by
  unfold State.control
  dsimp only
  have sampled : PowerOnly s (if s.bursar.capIn = s.bursar.cap then s
      else ({ s with bursar := { s.bursar with capIn := s.bursar.cap } } : State).divide) := by
    split
    · exact .refl s
    · exact (powerOnly_bursar s _).trans (divide_powerOnly _)
  refine sampled.trans ?_
  generalize (if s.bursar.capIn = s.bursar.cap then s else _) = u
  split
  · split
    · split
      · exact eachDie_powerOnly _ _
      · exact endRamp_powerOnly _
    · exact correct_powerOnly _
  · split
    · exact firstSome_powerOnly lowerDomain_powerOnly _
    · split
      · exact firstSome_powerOnly raiseDomain_powerOnly _
      · exact .refl _

/-! ### A change of every usable port -/

/-- A change of every usable port, port by port; what it takes of the device is read at the port's turn. -/
def State.eachUsable (s : State) (g : State → Nat → Port → Port) : State :=
  (List.range 6).foldl (fun s p => if (s.prt6 p).usable then s.modPort p (g s p) else s) s

/-- Each usable port is changed once, and nothing else, by what `g` takes of the device but its ports. -/
theorem foldl_usable {g : State → Nat → Port → Port} (hg : ∀ s m, g { s with port := m } = g s) (l : List Nat) (hl : l.Nodup)
    (s : State) :
    let t := l.foldl (fun s p => if (s.prt6 p).usable then s.modPort p (g s p) else s) s
    t = { s with port := t.port }
      ∧ ∀ p, t.prt6 p = if p ∈ l ∧ (s.prt6 p).usable = true then g s p (s.prt6 p) else s.prt6 p := by
  induction l generalizing s with
  | nil => exact ⟨rfl, fun p => by simp⟩
  | cons a l ih =>
    obtain ⟨ha, hl⟩ := List.nodup_cons.1 hl
    rw [List.foldl_cons]
    by_cases hu : (s.prt6 a).usable = true
    case neg =>
      rw [if_neg hu]
      obtain ⟨frame, ports⟩ := ih hl s
      refine ⟨frame, fun p => (ports p).trans (if_congr ?_ rfl rfl)⟩
      rw [List.mem_cons]
      exact ⟨fun ⟨hp, h⟩ => ⟨.inr hp, h⟩, fun ⟨hp, h⟩ => ⟨hp.resolve_left (by rintro rfl; exact hu h), h⟩⟩
    case pos =>
      rw [if_pos hu]
      obtain ⟨frame, ports⟩ := ih hl (s.modPort a (g s a))
      have same : g (s.modPort a (g s a)) = g s := hg s _
      refine ⟨frame, fun p => (ports p).trans ?_⟩
      rw [same]
      by_cases hp : p = a
      · subst hp
        rw [if_neg (by simp [ha]), if_pos (by simp [hu]), State.modPort_same]
      · rw [State.modPort_ne _ _ hp]
        simp [hp]

theorem eachUsable_spec (s : State) {g : State → Nat → Port → Port} (hg : ∀ s m, g { s with port := m } = g s) :
    s.eachUsable g = { s with port := (s.eachUsable g).port }
      ∧ ∀ p < 6, (s.eachUsable g).prt6 p = if (s.prt6 p).usable = true then g s p (s.prt6 p) else s.prt6 p := by
  obtain ⟨frame, ports⟩ := foldl_usable hg (List.range 6) List.nodup_range s
  exact ⟨frame, fun p hp => (ports p).trans (if_congr (by simp [hp]) rfl rfl)⟩

/-- FEC_CORR of every usable port advances; nothing else changes (R243). -/
theorem fecCounts_spec (s : State) (w : WindowIn) :
    s.fecCounts w = { s with port := (s.fecCounts w).port }
      ∧ ∀ p < 6, (s.fecCounts w).prt6 p = if (s.prt6 p).usable = true
        then { s.prt6 p with fecCorr := satAdd (s.prt6 p).fecCorr (w.fec.getD p 0) } else s.prt6 p :=
  eachUsable_spec s (g := fun _ p x => { x with fecCorr := satAdd x.fecCorr (w.fec.getD p 0) }) fun _ _ => rfl

/-! ### Heartbeats (R239) -/

/-- The HEARTBEAT for the neighbour through port `p` (Table LK.6). -/
def State.heartbeat (s : State) (pay : List Byte) (p : Nat) : Packet where
  ty := 15
  vc := 0
  dateline := false
  dst := s.neighbour p
  src := s.devId
  job := 0
  dstCtx := 0
  srcCtx := 0
  cont := false
  length := 64
  step := 0
  target := 0
  aux := 0
  payload := pay

@[simp] theorem leBytes_length (n v : Nat) : (leBytes n v).length = n := by
  induction n generalizing v with
  | zero => rfl
  | succ n ih => exact congrArg (· + 1) (ih _)

theorem hbPayload_length (s : State) : s.hbPayload.length = 64 := by
  simp [State.hbPayload, Function.comp_def]

/-- The port queues the heartbeat for its neighbour and counts a window without one from there. -/
def Port.beat (pay : List Byte) (s : State) (p : Nat) (x : Port) : Port :=
  { x.queue (s.heartbeat pay p) with silentRun := x.silentRun + 1 }

theorem heartbeats_eq (s : State) :
    s.heartbeats = { s.eachUsable (Port.beat s.hbPayload) with links := s.heartbeats.links } := by
  unfold State.heartbeats
  rfl

/-- Every usable port has its heartbeat, the JOB values of the next ones move on, and nothing else changes. -/
theorem heartbeats_spec (s : State) :
    s.heartbeats = { s with port := s.heartbeats.port, links := s.heartbeats.links }
      ∧ ∀ p < 6, s.heartbeats.prt6 p = if (s.prt6 p).usable = true then (s.prt6 p).beat s.hbPayload s p else s.prt6 p := by
  obtain ⟨frame, ports⟩ := eachUsable_spec s (g := Port.beat s.hbPayload) fun _ _ => rfl
  constructor
  · rw [heartbeats_eq, frame]
  · have port : s.heartbeats.port = (s.eachUsable (Port.beat s.hbPayload)).port := by rw [heartbeats_eq]
    intro p hp
    rw [← ports p hp]
    unfold State.prt6
    rw [port]

/-! ### The slowest ring (R41; log 108) -/

/-- The fold keeps the least value seen, and the first index that has it. -/
theorem foldl_min_spec (f : Nat → Nat) (n : Nat) :
    let b := (List.range n).foldl (fun b i => if f i < b.1 then (f i, i) else b) (f 0, 0)
    f b.2 = b.1 ∧ (∀ i < n, b.1 ≤ f i) ∧ (∀ i < b.2, b.1 < f i) ∧ (b.2 < n ∨ b.2 = 0) := by
  induction n with
  | zero => simp
  | succ n ih =>
    rw [List.range_succ, List.foldl_append]
    generalize (List.range n).foldl _ _ = b at ih
    obtain ⟨has, least, first, bound⟩ := ih
    by_cases h : f n < b.1
    case pos =>
      rw [List.foldl_cons, List.foldl_nil, if_pos h]
      refine ⟨rfl, fun i hi => ?_, fun i hi => h.trans_le (least i hi), .inl n.lt_succ_self⟩
      rcases Nat.lt_succ_iff_lt_or_eq.1 hi with hi | rfl
      · exact (h.trans_le (least i hi)).le
      · exact le_rfl
    case neg =>
      rw [List.foldl_cons, List.foldl_nil, if_neg h]
      refine ⟨has, fun i hi => ?_, first, by omega⟩
      rcases Nat.lt_succ_iff_lt_or_eq.1 hi with hi | rfl
      · exact least i hi
      · exact not_lt.1 h

/-- The slowest ring has the least of the four counts, and no ring before it does. -/
theorem minRing_spec (r : List U16) :
    let f := fun i => (r.getD i 0).toNat
    (minRing r).1 = min (min (f 0) (f 1)) (min (f 2) (f 3)) ∧ f (minRing r).2 = (minRing r).1 ∧ (minRing r).2 < 4
      ∧ ∀ i < (minRing r).2, (minRing r).1 < f i := by
  intro f
  obtain ⟨has, least, first, bound⟩ : f (minRing r).2 = (minRing r).1 ∧ (∀ i < 4, (minRing r).1 ≤ f i)
    ∧ (∀ i < (minRing r).2, (minRing r).1 < f i) ∧ ((minRing r).2 < 4 ∨ (minRing r).2 = 0) := foldl_min_spec f 4
  have ring : (minRing r).2 < 4 := by omega
  refine ⟨le_antisymm ?_ ?_, has, ring, first⟩
  · exact le_min (le_min (least 0 (by decide)) (least 1 (by decide))) (le_min (least 2 (by decide)) (least 3 (by decide)))
  · rw [← has]
    generalize (minRing r).2 = i at ring
    interval_cases i <;> omega

/-- The report of a die at the close, for ring counts `f` (R41, R42). -/
theorem paceClose_spec (p : Pace) {r : List U16} {f : Nat → Nat} (hf : ∀ i < 4, (r.getD i 0).toNat = f i) :
    let q := p.close r
    q.min.toNat = min (min (f 0) (f 1)) (min (f 2) (f 3)) ∧ f q.ring.toNat = q.min.toNat ∧ q.ring.toNat < 4
      ∧ (∀ i < q.ring.toNat, q.min.toNat < f i) ∧ q.mean.toNat = (f 0 + f 1 + f 2 + f 3) / 4
      ∧ q.low.toNat = min p.low.toNat q.min.toNat ∧ q.seq = p.seq + 1 := by
  intro q
  obtain ⟨least, has, ring, first⟩ := minRing_spec r
  dsimp only at least has first
  have count (i : Nat) : (r.getD i 0).toNat < 65536 := (r.getD i 0).isLt
  have bound : (minRing r).1 < 65536 := has ▸ count _
  have hmin : q.min = BitVec.ofNat 16 (minRing r).1 := rfl
  have hring : q.ring = BitVec.ofNat 8 (minRing r).2 := rfl
  have hmean : q.mean = BitVec.ofNat 16 (((List.range 4).map fun i => (r.getD i 0).toNat).sum / 4) := rfl
  have hlow : q.low = if (minRing r).1 < p.low.toNat then BitVec.ofNat 16 (minRing r).1 else p.low := rfl
  have sum : ((List.range 4).map fun i => (r.getD i 0).toNat).sum
      = (r.getD 0 0).toNat + (r.getD 1 0).toNat + (r.getD 2 0).toNat + (r.getD 3 0).toNat := by
    simp [List.range_succ, Nat.add_assoc]
  rw [hring, hmin, hmean, hlow, sum, BitVec.toNat_ofNat, BitVec.toNat_ofNat, BitVec.toNat_ofNat, Nat.mod_eq_of_lt bound,
    Nat.mod_eq_of_lt (show (minRing r).2 < 2 ^ 8 by omega), ← hf 0 (by decide), ← hf 1 (by decide), ← hf 2 (by decide),
    ← hf 3 (by decide)]
  refine ⟨least, (hf _ ring).symm.trans has, ring, fun i hi => hf i (by omega) ▸ first i hi, ?mean, ?low, rfl⟩
  case mean =>
    have := count 0
    have := count 1
    have := count 2
    have := count 3
    omega
  case low =>
    split
    · rw [BitVec.toNat_ofNat, Nat.mod_eq_of_lt bound]
      omega
    · omega

/-! ### The reports of the dies (R41, R42) -/

/-- PACE of every powered die takes the window's counts. -/
def State.closePaces (s : State) (w : WindowIn) : State :=
  (List.range s.dies).foldl (fun s d => s.modPac d fun p => p.close ((w.rings.drop (4 * d)).take 4)) s

theorem foldl_modPac (f : Nat → Pace → Pace) (l : List Nat) (s : State) :
    l.foldl (fun s d => s.modPac d (f d)) s = { s with pace := l.foldl (fun m d => SMap.upd {} m d (f d)) s.pace } := by
  induction l generalizing s with
  | nil => rfl
  | cons d l ih => exact ih _

theorem closePaces_spec (s : State) (w : WindowIn) :
    s.closePaces w = { s with pace := (s.closePaces w).pace }
      ∧ ∀ d, (s.closePaces w).pac d = if d < s.dies then (s.pac d).close ((w.rings.drop (4 * d)).take 4) else s.pac d := by
  unfold State.closePaces
  rw [foldl_modPac fun d p => p.close ((w.rings.drop (4 * d)).take 4)]
  refine ⟨rfl, fun d => ?_⟩
  refine (SMap.foldl_upd_get _ _ List.nodup_range _ _).trans (if_congr List.mem_range rfl rfl)

/-- Ring `i` of die `d` is entry `4 d + i` of the window's counts. -/
theorem ringsOf_getD (l : List U16) (d : Nat) {i : Nat} (hi : i < 4) : ((l.drop (4 * d)).take 4).getD i 0 = l.getD (4 * d + i) 0 := by
  simp [List.getD_eq_getElem?_getD, hi]

/-! ### PACE_WINDOW_CLOSE -/

/-- The window control on the estimates of the window (R250, R251). -/
def State.windowControl (s : State) (w : WindowIn) : State :=
  let s := s.eachDie fun d p => { p with computeW := w.dieW.getD d 0, stackW := w.stackW.getD d 0 }
  State.control (State.seeWindow { s with bursar := { s.bursar with est := w.est, memW := w.memW, linkW := w.linkW } })

/-- The droop gates that a window saw are forgotten (R259). -/
def State.forgetDroop (s : State) : State := s.eachDie fun _ p => { p with droopSeen := false }

theorem windowControl_powerOnly (s : State) (w : WindowIn) : PowerOnly s (s.windowControl w) :=
  (eachDie_powerOnly s _).trans ((powerOnly_bursar _ _).trans ((powerOnly_bursar _ _).trans (control_powerOnly _)))

theorem forgetDroop_powerOnly (s : State) : PowerOnly s s.forgetDroop := eachDie_powerOnly _ _

theorem paceWindowClose_eq (w : WindowIn) (s : State) :
    exec (.paceWindowClose w) s =
      if !((s.fecCounts w).closePaces w).ready then .next ((s.fecCounts w).closePaces w).heartbeats.forgetDroop
      else
        let x := (((s.fecCounts w).closePaces w).windowControl w).heartbeats.forgetDroop
        .next { x with links := { x.links with lagRun := if decide (100 * x.pace1 < 95 * x.peerMax) then x.links.lagRun + 1 else 0 } } := by
  show execPaceWindowClose w s = _
  unfold execPaceWindowClose State.windowControl State.closePaces State.forgetDroop
  with_reducible rfl

/-- Power alone has changed, and at most the links' own counts beside it. -/
theorem PowerOnly.and_links {s t : State} (h : PowerOnly s t) :
    t = { s with dp := t.dp, bursar := t.bursar, links := t.links } := by
  unfold PowerOnly at h
  rw [h]

theorem PowerOnly.with_links {s t : State} (h : PowerOnly s t) (l : Links) :
    { t with links := l } = { s with dp := t.dp, bursar := t.bursar, links := l } := by
  unfold PowerOnly at h
  rw [h]

/-- After the reports of the dies, power alone changes; then the heartbeats go out, and power and the links' counts change. -/
theorem paceWindowClose_runs (w : WindowIn) (s : State) :
    ∃ v t : State, exec (.paceWindowClose w) s = .next t ∧ PowerOnly ((s.fecCounts w).closePaces w) v
      ∧ t = { v.heartbeats with dp := t.dp, bursar := t.bursar, links := t.links } := by
  rw [paceWindowClose_eq]
  generalize (s.fecCounts w).closePaces w = u
  split
  · exact ⟨u, _, rfl, .refl u, (forgetDroop_powerOnly u.heartbeats).and_links⟩
  · have control := windowControl_powerOnly u w
    generalize u.windowControl w = v at control
    have last := forgetDroop_powerOnly v.heartbeats
    generalize v.heartbeats.forgetDroop = x at last
    exact ⟨v, _, rfl, control, last.with_links _⟩

/-- Settles O26, in the order of the close: FEC counts, the reports of the dies, the window control, the heartbeats. -/
theorem paceWindowReportsTheSlowestRing : Obligations.PaceWindowReportsTheSlowestRing := by
  unfold Obligations.PaceWindowReportsTheSlowestRing
  intro w s _
  obtain ⟨v, t, run, control, last⟩ := paceWindowClose_runs w s
  unfold PowerOnly at control
  obtain ⟨fecFrame, fec⟩ := fecCounts_spec s w
  obtain ⟨paceFrame, paces⟩ := closePaces_spec (s.fecCounts w) w
  obtain ⟨beatFrame, beats⟩ := heartbeats_spec v
  have before : v = { s with pace := v.pace, dp := v.dp, bursar := v.bursar, port := v.port } := by
    rw [control, paceFrame, fecFrame]
  refine ⟨t, run, fun d => ?dies, ?frame, fun p hp => ?ports⟩
  case dies =>
    have pace : t.pace = ((s.fecCounts w).closePaces w).pace := by rw [last, beatFrame, control]
    have boot : (s.fecCounts w).boot = s.boot := by rw [fecFrame]
    have pace' : (s.fecCounts w).pace = s.pace := by rw [fecFrame]
    have reported : t.pac d = ((s.fecCounts w).closePaces w).pac d := by unfold State.pac; rw [pace]
    have powered : (s.fecCounts w).dies = s.dies := by unfold State.dies; rw [boot]
    have earlier : (s.fecCounts w).pac d = s.pac d := by unfold State.pac; rw [pace']
    rw [reported, paces d, powered, earlier]
    by_cases hd : d < s.dies
    · rw [if_pos hd, if_pos hd]
      exact paceClose_spec _ fun i hi => congrArg _ (ringsOf_getD _ _ hi)
    · rw [if_neg hd, if_neg hd]
  case frame => rw [last, beatFrame, before]
  case ports =>
    have port : t.port = v.heartbeats.port := by rw [last]
    have port' : v.port = (s.fecCounts w).port := by rw [control, paceFrame]
    have boot : v.boot = s.boot := by rw [before]
    have sent : t.prt6 p = v.heartbeats.prt6 p := by unfold State.prt6; rw [port]
    have counted : v.prt6 p = (s.fecCounts w).prt6 p := by unfold State.prt6; rw [port']
    rw [sent, beats p hp, counted, fec p hp]
    by_cases hu : (s.prt6 p).usable = true
    · rw [if_pos hu, if_pos hu]
      have neighbour : v.neighbour p = s.neighbour p := by unfold State.neighbour State.hop State.extent State.devId; rw [boot]
      have own : v.devId = s.devId := by unfold State.devId; rw [boot]
      exact ⟨v.heartbeat v.hbPayload p, if_pos hu, rfl, rfl, neighbour, own, hbPayload_length v⟩
    · rw [if_neg hu, if_neg hu, if_neg hu]

end Sys2Proof.Machine
end
section
/-! SUPPORT. Memories and stored elements: what a read sees of a write elsewhere, little-endian numbers, and packed codes
read back (R12, R119). -/

namespace Sys2Proof.Machine

/-! ### Reads (R12) -/

namespace Mem

/-- A number is read from its own bytes alone. -/
theorem readN_congr {m m' : Mem} {a n : Nat} (h : ∀ b, a ≤ b → b < a + n → read m' b = read m b) : readN m' a n = readN m a n := by
  induction n generalizing a with
  | zero => rfl
  | succ n ih =>
    unfold readN
    rw [h a (by omega) (by omega), ih fun b low high => h b (by omega) (by omega)]

theorem read32_congr {m m' : Mem} {a : Nat} (h : ∀ b, a ≤ b → b < a + 4 → read m' b = read m b) : read32 m' a = read32 m a := by
  unfold read32
  rw [readN_congr h]

theorem readBytes_congr {m m' : Mem} {a n : Nat} (h : ∀ b, a ≤ b → b < a + n → read m' b = read m b) :
    readBytes m' a n = readBytes m a n := by
  refine List.map_congr_left fun i hi => h _ (by omega) ?_
  have := List.mem_range.1 hi
  omega

theorem readN_lt (m : Mem) (a n : Nat) : readN m a n < 256 ^ n := by
  induction n generalizing a with
  | zero => simp [readN]
  | succ n ih =>
    have low := (read m a).isLt
    have high := ih (a + 1)
    unfold readN
    rw [Nat.pow_succ]
    omega

@[simp] theorem readBytes_length (m : Mem) (a n : Nat) : (readBytes m a n).length = n := by
  simp [readBytes]

theorem writeBytes_append (m : Mem) (a : Nat) (l k : List Byte) :
    writeBytes m a (l ++ k) = writeBytes (writeBytes m a l) (a + l.length) k := by
  induction l generalizing m a with
  | nil => rfl
  | cons b l ih =>
    show writeBytes (write m a b) (a + 1) (l ++ k) = writeBytes (writeBytes (write m a b) (a + 1) l) _ k
    rw [ih, List.length_cons, Nat.add_assoc, Nat.add_comm 1]

/-- Bytes outside a store of bytes read as before. -/
theorem read_writeBytes_out {m : Mem} {a b : Nat} {l : List Byte} (h : b < a ∨ a + l.length ≤ b) :
    read (writeBytes m a l) b = read m b := by
  rw [read_writeBytes, if_neg (by omega)]

theorem read_writeN_out {m : Mem} {a n v b : Nat} (h : b < a ∨ a + n ≤ b) : read (writeN m a n v) b = read m b := by
  rw [read_writeN, if_neg (by omega)]

/-- A store of a number is a store of its bytes. -/
theorem writeN_eq_writeBytes (m : Mem) (a n v : Nat) : writeN m a n v = writeBytes m a (leBytes n v) := by
  induction n generalizing m a v with
  | zero => rfl
  | succ n ih => exact ih _ _ _

/-- A word of 32 bits reads back. -/
theorem read32_writeN (m : Mem) (a : Nat) (v : W32) : read32 (writeN m a 4 v.toNat) a = v := by
  unfold read32
  rw [readN_writeN _ _ _ _ (show v.toNat < 256 ^ 4 from v.isLt)]
  exact BitVec.ofNat_toNat ..

/-- What of a number fits the bytes reads back. -/
theorem readN_writeBytes_leBytes (m : Mem) (a n v : Nat) : readN (writeBytes m a (leBytes n v)) a n = v % 256 ^ n := by
  induction n generalizing m a v with
  | zero => simp [readN, Nat.mod_one]
  | succ n ih =>
    have first : read (writeBytes m a (leBytes (n + 1) v)) a = BitVec.ofNat 8 v := by
      rw [read_writeBytes, if_pos (by simp), Nat.sub_self]
      rfl
    have rest : readN (writeBytes m a (leBytes (n + 1) v)) (a + 1) n = v / 256 % 256 ^ n := ih _ _ _
    unfold readN
    rw [first, rest, BitVec.toNat_ofNat, Nat.pow_succ' (n := n), Nat.mod_mul (a := 256) (b := 256 ^ n)]

end Mem

/-! ### Little-endian numbers as bytes -/

theorem leNat_leBytes (n v : Nat) : leNat (leBytes n v) = v % 256 ^ n := by
  induction n generalizing v with
  | zero => simp [leNat, leBytes, Nat.mod_one]
  | succ n ih =>
    show (BitVec.ofNat 8 v).toNat + 256 * leNat (leBytes n (v / 256)) = _
    rw [ih, BitVec.toNat_ofNat, Nat.pow_succ' (n := n), Nat.mod_mul (a := 256) (b := 256 ^ n)]

/-! ### Packed elements (R119) -/

/-- The formats of whole bytes, and those of 4 bits (Tables MX.1, NU.1). -/
theorem elemBits_cases (fmt : Nat) : elemBits fmt = 4 ∨ ∃ w, 0 < w ∧ elemBits fmt = 8 * w := by
  unfold elemBits
  split
  case h_5 | h_7 => exact .inl rfl
  case h_1 | h_2 => exact .inr ⟨2, by decide, rfl⟩
  case h_3 | h_4 | h_6 => exact .inr ⟨1, by decide, rfl⟩
  case h_8 => exact .inr ⟨4, by decide, rfl⟩

theorem elemBytes_of_bytes {fmt w : Nat} (h : elemBits fmt = 8 * w) (n : Nat) : elemBytes fmt n = n * w := by
  unfold elemBytes
  rw [h, show n * (8 * w) = 8 * (n * w) by ring]
  omega

theorem elemBytes_of_nibbles {fmt : Nat} (h : elemBits fmt = 4) (n : Nat) : elemBytes fmt n = (n + 1) / 2 := by
  unfold elemBytes
  rw [h]
  omega

theorem codeAt_lt (m : Mem) (fmt a i : Nat) : codeAt m fmt a i < 2 ^ elemBits fmt := by
  unfold codeAt
  rcases elemBits_cases fmt with h | ⟨w, hw, h⟩
  · rw [if_pos h, h]
    exact Nat.mod_lt _ (by decide)
  · rw [if_neg (by omega), h, Nat.mul_div_cancel_left _ (by decide), Nat.pow_mul]
    exact Mem.readN_lt _ _ _

theorem packCodes_bytes {fmt w : Nat} (h : elemBits fmt = 8 * w) (c : Nat) (l : List Nat) :
    packCodes fmt (c :: l) = leBytes w c ++ packCodes fmt l := by
  have wide : ¬8 * w = 4 := by omega
  cases l <;> simp [packCodes, h, wide]
theorem packCodes_nibble {fmt : Nat} (h : elemBits fmt = 4) (c : Nat) : packCodes fmt [c] = [BitVec.ofNat 8 c] := by
  unfold packCodes
  rw [if_pos h]
theorem packCodes_nibbles {fmt : Nat} (h : elemBits fmt = 4) (c d : Nat) (l : List Nat) :
    packCodes fmt (c :: d :: l) = BitVec.ofNat 8 (c % 16 + 16 * d) :: packCodes fmt l := by
  rw [packCodes, if_pos h]

theorem packCodes_length (fmt : Nat) (l : List Nat) : (packCodes fmt l).length = elemBytes fmt l.length := by
  rcases elemBits_cases fmt with h | ⟨w, hw, h⟩
  · rw [elemBytes_of_nibbles h]
    induction l using List.twoStepInduction with
    | nil => rfl
    | singleton c => rw [packCodes_nibble h]; simp
    | cons_cons c d l ih =>
      rw [packCodes_nibbles h, List.length_cons, ih, List.length_cons, List.length_cons]
      omega
  · rw [elemBytes_of_bytes h]
    induction l with
    | nil => simp [packCodes]
    | cons c l ih =>
      rw [packCodes_bytes h, List.length_append, ih, leBytes_length, List.length_cons]
      ring

/-- A code of packed 4-bit codes, stored from an even element on. -/
theorem codeAt_packed_nibbles {fmt : Nat} (h : elemBits fmt = 4) (l : List Nat) (m : Mem) (a e : Nat) {j : Nat} (hj : j < l.length) :
    codeAt (m.writeBytes (a + e) (packCodes fmt l)) fmt a (2 * e + j) = l.getD j 0 % 16 := by
  unfold codeAt
  rw [if_pos h]
  induction l using List.twoStepInduction generalizing m e j with
  | nil => simp at hj
  | singleton c =>
    have only : j = 0 := by simpa using hj
    have store : Mem.read (m.writeBytes (a + e) [BitVec.ofNat 8 c]) (a + e) = BitVec.ofNat 8 c := by
      rw [Mem.read_writeBytes, if_pos (by simp)]; simp
    subst only
    rw [packCodes_nibble h, Nat.add_zero, Nat.mul_div_cancel_left _ (by decide), store, Nat.mul_mod_right, BitVec.toNat_ofNat]
    simp only [List.getD_cons_zero]
    omega
  | cons_cons c d l ih =>
    rw [packCodes_nibbles h]
    show (Mem.read ((m.write (a + e) _).writeBytes (a + e + 1) _) _).toNat / _ % _ = _
    rcases j with _ | _ | j
    case succ.succ =>
      have next := ih (m.write (a + e) (BitVec.ofNat 8 (c % 16 + 16 * d))) (e + 1) (j := j) (by simpa using hj)
      rw [show 2 * e + (j + 1 + 1) = 2 * (e + 1) + j by ring, Nat.add_assoc a e 1, next]
      rfl
    all_goals
      rw [show a + (2 * e + _) / 2 = a + e by omega, Mem.read_writeBytes_out (by omega), Mem.read_write, if_pos rfl, BitVec.toNat_ofNat]
    case zero =>
      rw [show (2 * e + 0) % 2 = 0 by omega, Nat.pow_zero, Nat.div_one, List.getD_cons_zero]
      omega
    case succ.zero =>
      rw [show (2 * e + (0 + 1)) % 2 = 1 by omega, Nat.pow_one, List.getD_cons_succ, List.getD_cons_zero]
      omega

/-- A code of packed codes of whole bytes. -/
theorem codeAt_packed_bytes {fmt w : Nat} (h : elemBits fmt = 8 * w) (l : List Nat) (m : Mem) (a e : Nat) {j : Nat}
    (hj : j < l.length) :
    codeAt (m.writeBytes (a + e * w) (packCodes fmt l)) fmt a (e + j) = l.getD j 0 % 2 ^ elemBits fmt := by
  unfold codeAt
  rw [if_neg (by omega), elemBytes_of_bytes h, h, Nat.mul_div_cancel_left _ (by decide)]
  induction l generalizing m e j with
  | nil => simp at hj
  | cons c l ih =>
    rw [packCodes_bytes h, Mem.writeBytes_append, leBytes_length]
    cases j with
    | zero =>
      have after : ∀ b, a + (e + 0) * w ≤ b → b < a + (e + 0) * w + w →
          Mem.read (((m.writeBytes (a + e * w) (leBytes w c)).writeBytes (a + e * w + w) (packCodes fmt l))) b
            = Mem.read (m.writeBytes (a + e * w) (leBytes w c)) b := fun b _ high =>
        Mem.read_writeBytes_out (.inl (by simpa using high))
      rw [Mem.readN_congr after, Nat.add_zero, Mem.readN_writeBytes_leBytes, Nat.pow_mul]
      rfl
    | succ j =>
      have next := ih (m.writeBytes (a + e * w) (leBytes w c)) (e + 1) (j := j) (by simpa using hj)
      rw [show a + e * w + w = a + (e + 1) * w by ring, show e + (j + 1) = e + 1 + j by ring, next]
      rfl

/-- Packed codes read back, stored from element `e` on, where 4-bit codes begin a byte (R119). -/
theorem codeAt_packed (fmt : Nat) (l : List Nat) (m : Mem) (a : Nat) {e j : Nat} (he : e % 2 = 0) (hj : j < l.length) :
    codeAt (m.writeBytes (a + elemBytes fmt e) (packCodes fmt l)) fmt a (e + j) = l.getD j 0 % 2 ^ elemBits fmt := by
  rcases elemBits_cases fmt with h | ⟨w, hw, h⟩
  · obtain ⟨k, rfl⟩ : ∃ k, e = 2 * k := ⟨e / 2, by omega⟩
    rw [elemBytes_of_nibbles h, show (2 * k + 1) / 2 = k by omega, codeAt_packed_nibbles h l m a k hj, h]
    rfl
  · rw [elemBytes_of_bytes h, codeAt_packed_bytes h l m a e hj]

end Sys2Proof.Machine
end
section
/-! SUPPORT. What the DMA engine makes of bytes: transposed tensors, PLANE blocks, the payloads of a remote copy, and the
bytes of Teller pages (R49, R150, R174, R231). -/

namespace Sys2Proof.Machine

/-! ### TRANSPOSE (R49) -/

/-- Packed codes as a memory of their own. -/
theorem codeAt_asMem_packCodes (fmt : Nat) (l : List Nat) {j : Nat} (hj : j < l.length) :
    codeAt (asMem (packCodes fmt l)) fmt 0 j = l.getD j 0 % 2 ^ elemBits fmt := by
  have start : elemBytes fmt 0 = 0 := by simp [elemBytes]
  have packed := codeAt_packed fmt l [] 0 (e := 0) rfl hj
  rwa [start, Nat.zero_add, Nat.zero_add] at packed

/-- Element (i, j) of a tensor is element (j, i) of the transposed one. -/
theorem codeAt_transposed (fmt : Nat) {r c i j : Nat} (bs : List Byte) (hi : i < r) (hj : j < c) :
    codeAt (asMem (transposed fmt r c bs)) fmt 0 (j * r + i) = codeAt (asMem bs) fmt 0 (i * c + j) := by
  have inside : j * r + i < r * c := calc
    j * r + i < (j + 1) * r := by rw [Nat.add_mul]; omega
    _ ≤ c * r := Nat.mul_le_mul_right r hj
    _ = r * c := Nat.mul_comm c r
  have row : (j * r + i) % r = i := by rw [Nat.mul_comm, Nat.mul_add_mod, Nat.mod_eq_of_lt hi]
  have column : (j * r + i) / r = j := by
    rw [Nat.mul_comm, Nat.mul_add_div (by omega), Nat.div_eq_of_lt hi, Nat.add_zero]
  unfold transposed
  rw [codeAt_asMem_packCodes fmt _ (by simpa using inside)]
  simp only [List.getD_eq_getElem?_getD, List.getElem?_map, List.getElem?_range inside, Option.map_some, Option.getD_some, row,
    column]
  exact Nat.mod_eq_of_lt (codeAt_lt _ _ _ _)

/-! ### Fields of `w` bits (R150) -/

/-- Fields as the digits of one number. -/
theorem sum_fields (w : Nat) (l : List Nat) (n : Nat) :
    ((l.zipIdx n).map fun v => v.1 * 2 ^ (w * v.2)).sum = 2 ^ (w * n) * Nat.ofDigits (2 ^ w) l := by
  induction l generalizing n with
  | nil => simp
  | cons c l ih =>
    rw [List.zipIdx_cons, List.map_cons, List.sum_cons, ih, Nat.ofDigits_cons, Nat.mul_succ, Nat.pow_add]
    ring

theorem ofDigits_lt {b : Nat} {l : List Nat} (h : ∀ c ∈ l, c < b) : Nat.ofDigits b l < b ^ l.length := by
  induction l with
  | nil => simp
  | cons c l ih =>
    obtain ⟨first, rest⟩ := List.forall_mem_cons.1 h
    have := Nat.mul_le_mul_left b (ih rest)
    rw [Nat.ofDigits_cons, List.length_cons, Nat.pow_succ']
    rw [Nat.mul_succ] at this
    omega

theorem ofDigits_digit {b : Nat} (hb : 0 < b) {l : List Nat} (h : ∀ c ∈ l, c < b) (k : Nat) :
    Nat.ofDigits b l / b ^ k % b = l.getD k 0 := by
  induction l generalizing k with
  | nil => simp
  | cons c l ih =>
    obtain ⟨first, rest⟩ := List.forall_mem_cons.1 h
    rw [Nat.ofDigits_cons]
    cases k with
    | zero => rw [Nat.pow_zero, Nat.div_one, Nat.add_mul_mod_self_left, Nat.mod_eq_of_lt first, List.getD_cons_zero]
    | succ k =>
      rw [Nat.pow_succ', ← Nat.div_div_eq_div_mul, Nat.add_mul_div_left _ _ hb, Nat.div_eq_of_lt first, Nat.zero_add, ih rest,
        List.getD_cons_succ]

@[simp] theorem packBits_length (w : Nat) (l : List Nat) : (packBits w l).length = 32 * w := leBytes_length _ _

/-- 256 fields of `w` bits read back. -/
theorem unpackBits_packBits {w : Nat} {l : List Nat} (len : l.length = 256) (h : ∀ c ∈ l, c < 2 ^ w) :
    unpackBits w (packBits w l) = l := by
  have base : 0 < 2 ^ w := Nat.two_pow_pos w
  have number : leNat (packBits w l) = Nat.ofDigits (2 ^ w) l := by
    have fits := ofDigits_lt h
    rw [len, ← Nat.pow_mul, show w * 256 = 8 * (32 * w) by ring, Nat.pow_mul] at fits
    unfold packBits
    rw [leNat_leBytes, sum_fields, Nat.mul_zero, Nat.pow_zero, Nat.one_mul]
    exact Nat.mod_eq_of_lt fits
  refine List.ext_getElem (by simp [unpackBits, len]) fun k _ hk => ?_
  have field := ofDigits_digit base h k
  rw [← Nat.pow_mul] at field
  simp only [unpackBits, List.getElem_map, List.getElem_range, number, field]
  simp [List.getD_eq_getElem?_getD, hk]

/-! ### PLANE (R150) -/

theorem lt_two_pow_bitsFor (d : Nat) : d < 2 ^ bitsFor d := by
  unfold bitsFor
  split
  · omega
  · exact Nat.lt_log2_self

theorem bitsFor_le {d n : Nat} (h : d < 2 ^ n) : bitsFor d ≤ n := by
  unfold bitsFor
  split
  case isTrue => exact Nat.zero_le n
  case isFalse nonzero => exact (Nat.log2_lt nonzero).2 h

theorem foldl_min_le (l : List Nat) (a : Nat) : l.foldl min a ≤ a ∧ ∀ c ∈ l, l.foldl min a ≤ c := by
  induction l generalizing a with
  | nil => simp
  | cons b l ih =>
    obtain ⟨start, each⟩ := ih (min a b)
    refine ⟨start.trans (min_le_left _ _), List.forall_mem_cons.2 ⟨start.trans (min_le_right _ _), each⟩⟩

theorem le_foldl_max (l : List Nat) (a : Nat) : a ≤ l.foldl max a ∧ ∀ c ∈ l, c ≤ l.foldl max a := by
  induction l generalizing a with
  | nil => simp
  | cons b l ih =>
    obtain ⟨start, each⟩ := ih (max a b)
    refine ⟨(le_max_left _ _).trans start, List.forall_mem_cons.2 ⟨(le_max_right _ _).trans start, each⟩⟩

theorem foldl_max_lt {l : List Nat} {a n : Nat} (ha : a < n) (h : ∀ c ∈ l, c < n) : l.foldl max a < n := by
  induction l generalizing a with
  | nil => exact ha
  | cons b l ih =>
    obtain ⟨first, rest⟩ := List.forall_mem_cons.1 h
    exact ih (max_lt ha first) rest

/-- A 16-bit code is its two planes. -/
theorem planes_join (f : Flt) (c : Nat) :
    planeA f c / 2 ^ f.mb * 2 ^ (f.eb + f.mb) + planeB f c * 2 ^ f.mb + planeA f c % 2 ^ f.mb = c := by
  have mant : 0 < 2 ^ f.mb := Nat.two_pow_pos _
  have sign : planeA f c / 2 ^ f.mb = c / 2 ^ (f.eb + f.mb) := by
    unfold planeA
    rw [Nat.mul_comm, Nat.mul_add_div mant, Nat.div_eq_of_lt (Nat.mod_lt _ mant), Nat.add_zero]
  have low : planeA f c % 2 ^ f.mb = c % 2 ^ f.mb := by
    unfold planeA
    rw [Nat.mul_comm, Nat.mul_add_mod, Nat.mod_mod]
  have high : c / 2 ^ f.mb / 2 ^ f.eb = c / 2 ^ (f.eb + f.mb) := by
    rw [Nat.div_div_eq_div_mul, ← Nat.pow_add, Nat.add_comm f.mb]
  have whole := Nat.div_add_mod c (2 ^ f.mb)
  have upper := Nat.div_add_mod (c / 2 ^ f.mb) (2 ^ f.eb)
  rw [sign, low]
  unfold planeB
  calc c / 2 ^ (f.eb + f.mb) * 2 ^ (f.eb + f.mb) + c / 2 ^ f.mb % 2 ^ f.eb * 2 ^ f.mb + c % 2 ^ f.mb
      = 2 ^ f.mb * (2 ^ f.eb * (c / 2 ^ f.mb / 2 ^ f.eb) + c / 2 ^ f.mb % 2 ^ f.eb) + c % 2 ^ f.mb := by
        rw [high, Nat.pow_add]; ring
    _ = c := by rw [upper, whole]

theorem planeA_lt {f : Flt} (hf : f.eb + f.mb = 15) {c : Nat} (hc : c < 65536) : planeA f c < 2 ^ (f.mb + 1) := by
  have mant : c % 2 ^ f.mb < 2 ^ f.mb := Nat.mod_lt _ (Nat.two_pow_pos _)
  have sign : c / 2 ^ (f.eb + f.mb) ≤ 1 := by rw [hf]; omega
  have := Nat.mul_le_mul_right (2 ^ f.mb) sign
  unfold planeA
  rw [Nat.pow_succ]
  omega

/-- A PLANE block decodes to the codes it encodes (R150). -/
theorem planeDec_planeEnc {f : Flt} (hf : f.eb + f.mb = 15) (he : f.eb ≤ 8) {l : List Nat} (len : l.length = 256)
    (h : ∀ c ∈ l, c < 65536) : planeDec f (planeEnc f l).1 (planeEnc f l).2 = l := by
  have exps : ∀ e ∈ l.map (planeB f), e < 2 ^ f.eb := List.forall_mem_map.2 fun c _ => Nat.mod_lt _ (Nat.two_pow_pos _)
  have small : 2 ^ f.eb ≤ 256 := Nat.pow_le_pow_right (by decide) he
  unfold planeEnc planeDec
  dsimp only
  obtain ⟨-, lower⟩ := foldl_min_le (l.map (planeB f)) ((l.map (planeB f)).headD 0)
  obtain ⟨-, upper⟩ := le_foldl_max (l.map (planeB f)) 0
  have most := foldl_max_lt (Nat.two_pow_pos f.eb) exps
  have least : (l.map (planeB f)).foldl min ((l.map (planeB f)).headD 0) < 256 := by
    obtain ⟨c, hc⟩ : ∃ c, c ∈ l := List.exists_mem_of_length_pos (by omega)
    have := lower _ (List.mem_map_of_mem hc)
    have := exps _ (List.mem_map_of_mem hc)
    omega
  generalize (l.map (planeB f)).foldl min ((l.map (planeB f)).headD 0) = base at lower least
  generalize (l.map (planeB f)).foldl max 0 = top at upper most
  have width : bitsFor (top - base) ≤ 8 := (bitsFor_le (n := f.eb) (by omega)).trans he
  have fits := lt_two_pow_bitsFor (top - base)
  generalize bitsFor (top - base) = w at width fits
  have index : bits (base + w * 256) 11 8 = w := by
    unfold bits
    rw [Nat.shiftRight_eq_div_pow]
    omega
  have low : (base + w * 256) % 256 = base := by omega
  have fieldsA : ∀ a ∈ l.map (planeA f), a < 2 ^ (f.mb + 1) := List.forall_mem_map.2 fun c hc => planeA_lt hf (h c hc)
  have fieldsB : ∀ b ∈ (l.map (planeB f)).map (· - base), b < 2 ^ w := List.forall_mem_map.2 fun e he => by
    have := upper e he
    omega
  rw [index, low, List.take_left' (packBits_length _ _), List.drop_left' (packBits_length _ _),
    unpackBits_packBits (by simpa using len) fieldsA, unpackBits_packBits (by simpa using len) fieldsB, List.map_map,
    List.zip_map', List.map_map]
  refine (List.map_congr_left fun c hc => ?_).trans (List.map_id' l)
  have above := lower _ (List.mem_map_of_mem hc)
  have below := exps _ (List.mem_map_of_mem hc)
  show planeA f c / 2 ^ f.mb * 2 ^ (f.eb + f.mb) + (base + (planeB f c - base)) % 2 ^ f.eb * 2 ^ f.mb + planeA f c % 2 ^ f.mb = c
  rw [Nat.add_sub_cancel' above, Nat.mod_eq_of_lt below]
  exact planes_join f c

/-! ### Payloads of a remote copy (R231) -/

theorem flatten_slices {α : Type} (l : List α) (m n : Nat) :
    ((List.range n).map fun k => (l.drop (m * k)).take m).flatten = l.take (m * n) := by
  induction n with
  | zero => simp
  | succ n ih =>
    rw [List.range_succ, List.map_append, List.flatten_append, ih, Nat.mul_succ, List.take_add]
    simp

theorem chunks_flatten (bs : List Byte) : (chunks bs).flatten = bs := by
  unfold chunks
  rw [flatten_slices]
  exact List.take_of_length_le (by omega)

theorem chunks_length_le {bs c : List Byte} (h : c ∈ chunks bs) : c.length ≤ 4096 := by
  obtain ⟨k, -, rfl⟩ := List.mem_map.1 h
  exact List.length_take_le _ _

/-! ### Teller pages (R174) -/

/-- A number with byte `x` above `8 j` bits: its byte `k`. -/
theorem byteOf_join {j k h x lo : Nat} (hx : x < 256) (hlo : lo < 2 ^ (8 * j)) :
    (2 ^ (8 * j) * (256 * h + x) + lo) / 2 ^ (8 * k) % 256
      = if k = j then x else if k < j then lo / 2 ^ (8 * k) % 256 else h / 2 ^ (8 * (k - j - 1)) % 256 := by
  have pos (n : Nat) : 0 < 2 ^ n := Nat.two_pow_pos n
  rcases Nat.lt_trichotomy k j with below | rfl | above
  · have scale : 2 ^ (8 * j) = 2 ^ (8 * k) * (256 * 2 ^ (8 * (j - k - 1))) := by
      rw [show 256 = 2 ^ 8 from rfl, ← Nat.pow_add, ← Nat.pow_add]
      congr 1
      omega
    rw [if_neg (by omega), if_pos below, scale, Nat.mul_assoc, Nat.mul_add_div (pos _), Nat.mul_assoc, Nat.mul_add_mod]
  · rw [if_pos rfl, Nat.mul_add_div (pos _), Nat.div_eq_of_lt hlo, Nat.add_zero, Nat.mul_add_mod, Nat.mod_eq_of_lt hx]
  · have scale : 2 ^ (8 * k) = 2 ^ (8 * j) * (256 * 2 ^ (8 * (k - j - 1))) := by
      rw [show 256 = 2 ^ 8 from rfl, ← Nat.pow_add, ← Nat.pow_add]
      congr 1
      omega
    rw [if_neg (by omega), if_neg (by omega), scale, ← Nat.div_div_eq_div_mul, Nat.mul_add_div (pos _), Nat.div_eq_of_lt hlo,
      Nat.add_zero, ← Nat.div_div_eq_div_mul, Nat.mul_add_div (by decide), Nat.div_eq_of_lt hx, Nat.add_zero]

/-- Byte `k` of a word, after byte `j` has been replaced. -/
theorem byteOf_put {w b j : Nat} (k : Nat) (hw : w < 2 ^ 64) (hb : b < 256) (hj : j < 8) :
    (w - w / 2 ^ (8 * j) % 256 * 2 ^ (8 * j) + b * 2 ^ (8 * j)) % 2 ^ 64 / 2 ^ (8 * k) % 256
      = if k = j then b else w / 2 ^ (8 * k) % 256 := by
  obtain ⟨h, x, lo, hx, hlo, rfl⟩ : ∃ h x lo, x < 256 ∧ lo < 2 ^ (8 * j) ∧ w = 2 ^ (8 * j) * (256 * h + x) + lo :=
    ⟨w / 2 ^ (8 * j) / 256, w / 2 ^ (8 * j) % 256, w % 2 ^ (8 * j), Nat.mod_lt _ (by decide), Nat.mod_lt _ (Nat.two_pow_pos _),
      by rw [Nat.div_add_mod, Nat.div_add_mod]⟩
  have old := byteOf_join (j := j) (k := j) (h := h) hx hlo
  rw [if_pos rfl] at old
  have put : 2 ^ (8 * j) * (256 * h + x) + lo - x * 2 ^ (8 * j) + b * 2 ^ (8 * j) = 2 ^ (8 * j) * (256 * h + b) + lo := by
    rw [Nat.mul_add, Nat.mul_add, Nat.mul_comm x, Nat.mul_comm b]
    omega
  have size : 2 ^ 64 = 2 ^ (8 * j) * (256 * 2 ^ (56 - 8 * j)) := by
    rw [show 256 = 2 ^ 8 from rfl, ← Nat.pow_add, ← Nat.pow_add]
    congr 1
    omega
  have high : 256 * h + x < 256 * 2 ^ (56 - 8 * j) := by
    rw [size] at hw
    exact Nat.lt_of_mul_lt_mul_left (Nat.lt_of_le_of_lt (Nat.le_add_right _ _) hw)
  have fits : 2 ^ (8 * j) * (256 * h + b) + lo < 2 ^ 64 := by
    rw [size]
    calc 2 ^ (8 * j) * (256 * h + b) + lo < 2 ^ (8 * j) * (256 * h + b + 1) := by rw [Nat.mul_succ]; omega
      _ ≤ 2 ^ (8 * j) * (256 * 2 ^ (56 - 8 * j)) := Nat.mul_le_mul_left _ (by omega)
  rw [old, put, Nat.mod_eq_of_lt fits, byteOf_join hb hlo, byteOf_join hx hlo]
  split <;> rfl
theorem imemByte_put (m : SMap W64) (a c : Nat) (b : Byte) :
    imemByte (imemPutByte m a b) c = if c = a then b else imemByte m c := by
  unfold imemPutByte imemByte
  rw [SMap.get_upd]
  by_cases same : c / 8 = a / 8
  · rw [if_pos same, same]
    apply BitVec.eq_of_toNat_eq
    rw [BitVec.toNat_ofNat, BitVec.toNat_ofNat, BitVec.toNat_ofNat]
    have put := byteOf_put (c % 8) (SMap.get 0 m (a / 8)).isLt b.isLt (Nat.mod_lt a (by decide))
    refine put.trans ?_
    by_cases h : c = a
    · rw [if_pos (by rw [h]), if_pos h]
    · rw [if_neg (by omega), if_neg h, BitVec.toNat_ofNat]
  · rw [if_neg same, if_neg (by rintro rfl; exact same rfl)]

/-- Bytes written at places `f` of an instruction memory, each place once. -/
theorem imemByte_foldl_put (f : Nat → Nat) (bs : List Byte) (n : Nat) (m : SMap W64) (p : Nat) :
    (∀ k < bs.length, f (n + k) = f n + k) →
    imemByte ((bs.zipIdx n).foldl (fun m v => imemPutByte m (f v.2) v.1) m) p
      = if f n ≤ p ∧ p < f n + bs.length then bs.getD (p - f n) 0 else imemByte m p := by
  induction bs generalizing n m with
  | nil => intro _; simp
  | cons b bs ih =>
    intro place
    have next : ∀ k < bs.length, f (n + 1 + k) = f (n + 1) + k := fun k hk => by
      have one := place 1 (by rw [List.length_cons]; omega)
      have all := place (k + 1) (by rw [List.length_cons]; omega)
      rw [show n + 1 + k = n + (k + 1) by ring, all, one]
      ring
    rw [List.zipIdx_cons, List.foldl_cons, ih _ _ next, imemByte_put, List.length_cons]
    dsimp only
    by_cases none : bs.length = 0
    · rw [List.length_eq_zero_iff.1 none, List.length_nil, if_neg (by omega)]
      refine if_ctx_congr (by omega) (fun h => ?_) fun _ => rfl
      rw [show p - f n = 0 by omega, List.getD_cons_zero]
    · have one := place 1 (by rw [List.length_cons]; omega)
      rcases Nat.lt_trichotomy p (f n) with h | h | h
      · rw [if_neg (by omega), if_neg (by omega), if_neg (by omega)]
      · rw [if_neg (by omega), if_pos h, if_pos (by omega), h, Nat.sub_self, List.getD_cons_zero]
      · rw [if_neg (show ¬p = f n by omega)]
        refine if_congr (by omega) ?_ rfl
        rw [show p - f n = p - f (n + 1) + 1 by omega, List.getD_cons_succ]

/-- Bytes loaded into one page stand there, and no other byte changes. -/
theorem imemByte_loadPages (m : SMap W64) (pages : List Nat) (g : Nat) {bs : List Byte} (h : bs.length ≤ 4096) (p : Nat) :
    imemByte (loadPages m pages (g * 4096) bs) p
      = if pages.getD g 0 * 4096 ≤ p ∧ p < pages.getD g 0 * 4096 + bs.length then bs.getD (p - pages.getD g 0 * 4096) 0
        else imemByte m p := by
  have page : ∀ k < 4096, pageByte pages (g * 4096 + k) = pages.getD g 0 * 4096 + k := fun k hk => by
    unfold pageByte
    rw [show (g * 4096 + k) / 4096 = g by omega, show (g * 4096 + k) % 4096 = k by omega]
  have start := page 0 (by decide)
  rw [← Nat.add_zero (pages.getD g 0 * 4096), ← start]
  exact imemByte_foldl_put (fun k => pageByte pages (g * 4096 + k)) bs 0 m p fun k hk => by
    rw [Nat.zero_add, page k (by omega), start, Nat.add_zero]

end Sys2Proof.Machine
end
section
/-! SUPPORT. What engines that move data change: the memories with the Strongroom's notes of them, and the reports of the
Census (R63, R135 to R137, R263, R271). -/

namespace Sys2Proof.Machine

/-- What every step of a fold keeps, the fold keeps. -/
theorem foldl_rel {α β : Type} {R : α → α → Prop} (refl : ∀ s, R s s) (trans : ∀ {s t u}, R s t → R t u → R s u) {g : α → β → α}
    {l : List β} (step : ∀ s, ∀ b ∈ l, R s (g s b)) (s : α) : R s (l.foldl g s) := by
  induction l generalizing s with
  | nil => exact refl s
  | cons b l ih =>
    obtain ⟨first, rest⟩ := List.forall_mem_cons.1 (fun b hb s => step s b hb)
    exact trans (first s) (ih (fun s b hb => rest b hb s) _)

theorem BytesBut.trans {a n : Nat} {m m' m'' : Mem} (h : BytesBut a n m m') (k : BytesBut a n m' m'') : BytesBut a n m m'' :=
  fun b out => (k b out).trans (h b out)

/-! ### What a data engine may change -/

/-- From `s` to `t` nothing changes but clusters, Touchstones, memories, the Census, free values, and what the Strongroom
notes of written bytes. -/
def DataOnly (s t : State) : Prop := NotesOnly { s with
  cls := t.cls, td := t.td, hbm := t.hbm, host := t.host, census := t.census, free := t.free } t

theorem DataOnly.refl (s : State) : DataOnly s s := rfl

theorem DataOnly.trans {s t u : State} (h : DataOnly s t) (k : DataOnly t u) : DataOnly s u := by
  unfold DataOnly NotesOnly at *
  rw [k, h]

theorem modCl_dataOnly (s : State) (i : Nat) (f : Cluster → Cluster) : DataOnly s (s.modCl i f) := rfl
theorem locWrite_dataOnly (s : State) (l : Loc) (bs : List Byte) : DataOnly s (s.locWrite l bs) := by
  cases l <;> rfl

section
variable {s t : State} (h : DataOnly s t)
include h
theorem DataOnly.ctxs : t.ctxs = s.ctxs := by unfold DataOnly NotesOnly at h; rw [h]
theorem DataOnly.nv : t.nv = s.nv := by unfold DataOnly NotesOnly at h; rw [h]
theorem DataOnly.sems : t.sems = s.sems := by unfold DataOnly NotesOnly at h; rw [h]
theorem DataOnly.num : t.num = s.num := by unfold DataOnly NotesOnly at h; rw [h]
theorem DataOnly.boot : t.boot = s.boot := by unfold DataOnly NotesOnly at h; rw [h]
theorem DataOnly.sched : t.sched = s.sched := by unfold DataOnly NotesOnly at h; rw [h]
theorem DataOnly.ctx (c : Nat) : t.ctx c = s.ctx c := by unfold State.ctx; rw [h.ctxs]
theorem DataOnly.nums (c : Nat) : t.nums c = s.nums c := by unfold State.nums; rw [h.num]
theorem DataOnly.devId : t.devId = s.devId := by unfold State.devId; rw [h.boot]
theorem DataOnly.legacy (q : QE) : t.legacy q = s.legacy q := by unfold State.legacy; rw [h.ctx]

/-- What engines outside the Touchstones change. -/
theorem DataOnly.memories (td : t.td = s.td) (free : t.free = s.free) :
    NotesOnly { s with cls := t.cls, hbm := t.hbm, host := t.host, census := t.census } t := by
  unfold DataOnly at h
  rw [td, free] at h
  exact h
/-- What the DMA engine changes beside the Census. -/
theorem DataOnly.transfer (td : t.td = s.td) (free : t.free = s.free) (census : t.census = s.census) :
    NotesOnly { s with cls := t.cls, hbm := t.hbm, host := t.host } t := by
  have memories := h.memories td free
  rw [census] at memories
  exact memories
/-- What a matrix drain changes. -/
theorem DataOnly.drain (td : t.td = s.td) (free : t.free = s.free) (host : t.host = s.host) :
    NotesOnly { s with cls := t.cls, census := t.census, hbm := t.hbm } t := by
  have memories := h.memories td free
  rw [host] at memories
  exact memories
end

/-! ### Reports to the Census (R135 to R137) -/

/-- From `s` to `t` conversions are reported for context `c`: the counters change, and bytes of the context's Census area
with what the Strongroom notes of them; without an area no byte. -/
def Reports (c : Nat) (s t : State) : Prop :=
  NotesOnly { s with census := t.census, hbm := t.hbm } t
    ∧ BytesBut (s.nums c).censusBase.toNat 4096 s.hbm t.hbm ∧ ((s.nums c).censusBase = 0 → t.hbm = s.hbm)

theorem Reports.refl (c : Nat) (s : State) : Reports c s s := ⟨rfl, .refl _ _ _, fun _ => rfl⟩

theorem Reports.frame {c : Nat} {s t : State} (h : Reports c s t) :
    t = { s with census := t.census, hbm := t.hbm, sgC := t.sgC, sg := { s.sg with ueAt := t.sg.ueAt, adds := t.sg.adds } } := h.1

theorem Reports.nums {c : Nat} {s t : State} (h : Reports c s t) (e : Nat) : t.nums e = s.nums e := by
  unfold State.nums
  rw [h.frame]

theorem Reports.trans {c : Nat} {s t u : State} (h : Reports c s t) (k : Reports c t u) : Reports c s u := by
  have nums := h.nums c
  obtain ⟨only, bytes, none⟩ := h
  obtain ⟨only', bytes', none'⟩ := k
  rw [nums] at bytes' none'
  refine ⟨?_, bytes.trans bytes', fun z => (none' z).trans (none z)⟩
  unfold NotesOnly at *
  rw [only', only]

section
variable {c : Nat} {s t : State} (h : Reports c s t)
include h
theorem Reports.dataOnly : DataOnly s t := by
  unfold DataOnly NotesOnly
  rw [h.frame]
theorem Reports.cls : t.cls = s.cls := by rw [h.frame]
theorem Reports.td : t.td = s.td := by rw [h.frame]
theorem Reports.host : t.host = s.host := by rw [h.frame]
theorem Reports.free : t.free = s.free := by rw [h.frame]
theorem Reports.clu (j : Nat) : t.clu j = s.clu j := by unfold State.clu; rw [h.cls]
theorem Reports.tdie (d : Nat) : t.tdie d = s.tdie d := by unfold State.tdie; rw [h.td]
end

theorem Reports.of_census (c : Nat) (s : State) (m : SMap W32) : Reports c s { s with census := m } :=
  ⟨rfl, .refl _ _ _, fun _ => rfl⟩

/-- An amount goes into the context's area, or waits, or is discarded. -/
theorem spillInto_reports (s : State) {c cls fmt k : Nat} (n : Nat) (hc : cls < 16) (hf : fmt < 8) (hk : k < 4) :
    Reports c s (s.spillInto c cls fmt k n) := by
  unfold State.spillInto
  dsimp only
  split
  case isTrue => exact .refl c s
  case isFalse area =>
    have base : (s.nums c).censusBase ≠ 0 := fun z => area (.inl (by rw [z]; rfl))
    unfold State.censusAdd
    split
    · exact .refl c s
    · split
      · exact ⟨rfl, .refl _ _ _, fun _ => rfl⟩
      · refine ⟨rfl, fun b hb => ?_, fun z => absurd z base⟩
        rw [hbmWrite_hbm]
        exact Mem.read_writeBytes_out (by rw [leBytes_length]; omega)

theorem spillOne_reports (s : State) (d : Nat) {c cls fmt k : Nat} (hc : cls < 16) (hf : fmt < 8) (hk : k < 4) :
    Reports c s (s.spillOne d c cls fmt k) :=
  (spillInto_reports s _ hc hf hk).trans (.of_census c _ _)

theorem spillOn_reports (s : State) (c : Nat) (f : Nat → Bool) : Reports c s (s.spillOn c f) := by
  refine foldl_rel (.refl c) .trans (fun s k _ => ?_) s
  split
  · exact spillOne_reports s _ (Nat.mod_lt _ (by decide)) (Nat.mod_lt _ (by decide)) (Nat.mod_lt _ (by decide))
  · exact .refl c s

theorem countOne_reports (s : State) (d : Nat) {c cls fmt k : Nat} (n : Nat) (hc : cls < 16) (hf : fmt < 8) (hk : k < 4) :
    Reports c s (s.countOne d c cls fmt k n) := by
  unfold State.countOne
  dsimp only
  split
  · exact .refl c s
  · split
    · exact (Reports.of_census c s _).trans ((spillInto_reports _ _ hc hf hk).trans (spillOn_reports _ _ _))
    · exact .of_census c s _

theorem count_reports (s : State) (d c : Nat) (tid : W32) {fmt : Nat} (t : Tally4) (hf : fmt < 8) :
    Reports c s (s.count d c tid fmt t) := by
  have cls : tid.toNat / 2 ^ 28 < 16 := by have := tid.isLt; omega
  unfold State.count
  exact (countOne_reports s d _ cls hf (by decide)).trans ((countOne_reports _ d _ cls hf (by decide)).trans
    ((countOne_reports _ d _ cls hf (by decide)).trans (countOne_reports _ d _ cls hf (by decide))))

theorem countFor_reports (s : State) (q : QE) {fmt : Nat} (t : Tally4) (hf : fmt < 8) :
    Reports q.ctx.toNat s (s.countFor q fmt t) := count_reports s _ _ _ t hf

/-- Nothing counted is nothing reported. -/
@[simp] theorem countFor_nothing (s : State) (q : QE) (fmt : Nat) : s.countFor q fmt {} = s := rfl

/-! ### The Census does not look at the clusters -/

theorem censusAdd_cls (s : State) (m : SMap Cluster) (c a n : Nat) :
    State.censusAdd { s with cls := m } c a n = { s.censusAdd c a n with cls := m } := by
  unfold State.censusAdd
  by_cases refused : (s.hbmCheck c a 8 true false).isSome
  · rw [if_pos refused]; exact if_pos refused
  · rw [if_neg refused]
    by_cases waits : (s.guarded a 8 || !(s.ueIn a 8).isEmpty) = true
    · rw [if_pos waits]; exact (if_neg refused).trans (if_pos waits)
    · rw [if_neg waits]; exact (if_neg refused).trans (if_neg waits)

theorem spillInto_cls (s : State) (m : SMap Cluster) (c cls fmt k n : Nat) :
    State.spillInto { s with cls := m } c cls fmt k n = { s.spillInto c cls fmt k n with cls := m } := by
  unfold State.spillInto
  by_cases none : (s.nums c).censusBase.toNat = 0 ∨ n = 0
  · rw [if_pos none]; exact if_pos none
  · rw [if_neg none]; exact (if_neg none).trans (censusAdd_cls s m _ _ _)

theorem spillOne_cls (s : State) (m : SMap Cluster) (d c cls fmt k : Nat) :
    State.spillOne { s with cls := m } d c cls fmt k = { s.spillOne d c cls fmt k with cls := m } := by
  unfold State.spillOne
  dsimp only
  rw [spillInto_cls]

theorem spillOn_cls (s : State) (m : SMap Cluster) (c : Nat) (f : Nat → Bool) :
    State.spillOn { s with cls := m } c f = { s.spillOn c f with cls := m } := by
  refine List.foldl_hom (fun s : State => { s with cls := m }) fun s k => ?_
  split
  · exact spillOne_cls s m _ _ _ _ _
  · rfl

theorem countOne_cls (s : State) (m : SMap Cluster) (d c cls fmt k n : Nat) :
    State.countOne { s with cls := m } d c cls fmt k n = { s.countOne d c cls fmt k n with cls := m } := by
  unfold State.countOne
  dsimp only
  by_cases none : n = 0
  · rw [if_pos none, if_pos none]
  · rw [if_neg none, if_neg none]
    by_cases past : 2 ^ 31 < (SMap.get 0 s.census (censusKey d c cls fmt k)).toNat + n
    · rw [if_pos past, if_pos past, ← spillOn_cls, ← spillInto_cls]
    · rw [if_neg past, if_neg past]

theorem count_cls (s : State) (m : SMap Cluster) (d c : Nat) (tid : W32) (fmt : Nat) (t : Tally4) :
    State.count { s with cls := m } d c tid fmt t = { s.count d c tid fmt t with cls := m } := by
  unfold State.count
  simp only [countOne_cls]

theorem countFor_cls (s : State) (m : SMap Cluster) (q : QE) (fmt : Nat) (t : Tally4) :
    State.countFor { s with cls := m } q fmt t = { s.countFor q fmt t with cls := m } := count_cls s m _ _ _ _ _

end Sys2Proof.Machine
end
section
/-! SUPPORT. Places and transfers: the first fault of the places a command names, what stores at a place leave elsewhere,
and the records of the Vault (R146 to R148, R173, R175, R191). -/

namespace Sys2Proof.Machine

/-! ### Faults of places (R173, R175) -/

theorem locsFault_of_placeFault {s : State} {c : CtxId} {l : List (Loc × Nat × Bool)} {e : U16} {a : Nat}
    (h : PlaceFault s c l e a) : s.locsFault c l = some (e, a) := by
  unfold State.locsFault
  rcases h with ⟨rfl, b, x, d, rfl, rfl, before, bad⟩ | ⟨sound, b, x, d, rfl, rfl, before, bad⟩
  · have first : (b ++ x :: d).find? (fun r => s.locNone r.1 r.2.1) = some x := by
      rw [List.find?_append, List.find?_eq_none.2 (by simpa using before)]
      simp [bad]
    rw [first]
  · rw [List.find?_eq_none.2 (by simpa using sound), List.findSome?_append,
      List.findSome?_eq_none_iff.2 (by simpa using before)]
    simp [bad]

/-- A command of a context that is IN faults at an address, which its record gives (log 27). -/
theorem faultAt_faultedAt {s : State} (q : QE) (f : U16 × Nat) (unit : U16) (h : (s.ctx q.ctx.toNat).st = .resident) :
    FaultedAt s (s.faultAt q f unit) q.ctx f.1 f.2 := by
  have alive := alive_resident h
  obtain ⟨r, record, -, kind, code, -, detail⟩ := faultCtx_record s q.ctx f.1 (BitVec.ofNat 64 f.2) q.seq unit false alive
  exact ⟨faultCmd_faulted _ _ _ _ _ alive, r, record, kind, code, detail⟩

theorem dmaRun_placeFault {s : State} {cl : ClId} {q : QE} {reads writes : List (Loc × Nat)} {f : State → State} {e : U16} {a : Nat}
    (h : PlaceFault s q.ctx (dmaPlaces reads writes) e a) :
    s.dmaRun cl q reads writes f = .next (s.faultAt q (e, a) (clUnit q.img)) := by
  unfold State.dmaRun
  rw [locsFault_of_placeFault h]

/-- The clusters after a fault are those without the context's commands. -/
theorem faultCtx_cls (s : State) (c : CtxId) (code : U16) (detail : W64) (cmd : W32) (unit : U16) (irq : Bool)
    (h : (s.ctx c.toNat).st.alive) : (faultCtx s c code detail cmd unit irq).cls = SMap.mapV {} (fun _ x => x.dropCtx c) s.cls := by
  obtain ⟨r, only⟩ := faultCtx_eq s c code detail cmd unit irq h
  unfold AlarmOnly at only
  rw [only]
  rfl

/-- A context fault stops commands, and no byte of a cluster's memory changes (R191). -/
theorem faultCtx_mem (s : State) (c : CtxId) (code : U16) (detail : W64) (cmd : W32) (unit : U16) (irq : Bool)
    (h : (s.ctx c.toNat).st.alive) (j : Nat) : ((faultCtx s c code detail cmd unit irq).clu j).mem = (s.clu j).mem := by
  unfold State.clu
  rw [faultCtx_cls _ _ _ _ _ _ _ h]
  exact SMap.get_mapV_keeps Cluster.mem (f := fun _ x => x.dropCtx c) (fun _ _ => rfl) s.cls j

/-- Nor anything that a cluster keeps for a context. -/
theorem faultCtx_per (s : State) (c : CtxId) (code : U16) (detail : W64) (cmd : W32) (unit : U16) (irq : Bool)
    (h : (s.ctx c.toNat).st.alive) (j : Nat) : ((faultCtx s c code detail cmd unit irq).clu j).per = (s.clu j).per := by
  unfold State.clu
  rw [faultCtx_cls _ _ _ _ _ _ _ h]
  exact SMap.get_mapV_keeps Cluster.per (f := fun _ x => x.dropCtx c) (fun _ _ => rfl) s.cls j

/-! ### The head of a DMA queue -/

theorem dmaHead_ready {s : State} {cl : ClId} {mode : Nat} {q : QE} (h : s.dmaHead cl mode = some q) :
    s.clOpen cl.toNat = true ∧ (s.ctx q.ctx.toNat).st = .resident := by
  unfold State.dmaHead at h
  dsimp only at h
  split at h
  · cases h
  · split at h
    · rename_i ready
      cases h
      simp only [Bool.and_eq_true] at ready
      obtain ⟨⟨⟨⟨⟨openCl, isIn⟩, -⟩, -⟩, -⟩, -⟩ := ready
      exact ⟨openCl, of_decide_eq_true isIn⟩
    · cases h

/-- A cluster that may step is not shut to stores from outside. -/
theorem cluShut_of_clOpen {s : State} {j : Nat} (h : s.clOpen j = true) : s.cluShut j = false := by
  unfold State.clOpen at h
  unfold State.cluShut
  simp only [Bool.and_eq_true, Bool.not_eq_true'] at h
  rw [h.1.2, Bool.false_and]

/-! ### Memories -/

/-- Every memory is as before. -/
def SameMems (s t : State) : Prop := (∀ j, (t.clu j).mem = (s.clu j).mem) ∧ t.hbm = s.hbm ∧ t.host = s.host

theorem SameMems.refl (s : State) : SameMems s s := ⟨fun _ => rfl, rfl, rfl⟩

theorem SameMems.locRead {s t : State} (h : SameMems s t) (l : Loc) (n : Nat) : t.locRead l n = s.locRead l n := by
  obtain ⟨clusters, hbm, host⟩ := h
  cases l with
  | clu c o => exact congrArg (Mem.readBytes · o n) (clusters c.toNat)
  | hbm a => exact congrArg (Mem.readBytes · a n) hbm
  | host a => exact congrArg (Mem.readBytes · a n) host

/-- What has landed stays while no memory changes. -/
theorem Lands.kept {s t u : State} {l : Loc} {bs : List Byte} (h : Lands s t l bs) (k : SameMems t u) : Lands s u l bs := by
  obtain ⟨stands, rest⟩ := h
  refine ⟨(k.locRead l _).trans stands, ?_⟩
  obtain ⟨clusters, hbm, host⟩ := k
  cases l with
  | clu c o =>
    obtain ⟨bytes, hbm', host', others⟩ := rest
    exact ⟨by rw [clusters]; exact bytes, hbm.trans hbm', host.trans host', fun j hj => (clusters j).trans (others j hj)⟩
  | hbm a =>
    obtain ⟨bytes, host', others⟩ := rest
    exact ⟨by rw [hbm]; exact bytes, host.trans host', fun j => (clusters j).trans (others j)⟩
  | host a =>
    obtain ⟨bytes, hbm', others⟩ := rest
    exact ⟨by rw [host]; exact bytes, hbm.trans hbm', fun j => (clusters j).trans (others j)⟩

/-- The cluster a store to it changes, and what it leaves. -/
theorem locWrite_clu_own (s : State) (cl : ClId) (o : Nat) (bs : List Byte) :
    (s.locWrite (.clu cl o) bs).clu cl.toNat
      = { s.clu cl.toNat with mem := (s.clu cl.toNat).mem.writeBytes o bs } := State.modCl_same ..

theorem locWrite_clu_ne (s : State) {cl : ClId} (o : Nat) (bs : List Byte) {j : Nat} (hj : j ≠ cl.toNat) :
    (s.locWrite (.clu cl o) bs).clu j = s.clu j := State.modCl_ne _ _ hj

theorem locWrite_hbm_clu (s : State) (a : Nat) (bs : List Byte) (j : Nat) :
    (s.locWrite (.hbm a) bs).clu j = s.clu j := rfl

theorem locWrite_ctx (s : State) (l : Loc) (bs : List Byte) (c : Nat) : (s.locWrite l bs).ctx c = s.ctx c :=
  (locWrite_dataOnly s l bs).ctx c

/-- A byte outside what has landed reads as before. -/
theorem Lands.elsewhere {s t : State} {l : Loc} {bs : List Byte} (h : Lands s t l bs) {y : Loc}
    (out : ∀ k < bs.length, l.shift k ≠ y) : t.locRead y 1 = s.locRead y 1 := by
  obtain ⟨-, rest⟩ := h
  have away {a b : Nat} (at_ : ∀ k, a + k = b → l.shift k = y) :
      ¬(a ≤ b ∧ b < a + bs.length) := fun ⟨low, high⟩ => out (b - a) (by omega) (at_ _ (by omega))
  cases l with
  | clu c o =>
    obtain ⟨bytes, hbm, host, others⟩ := rest
    cases y with
    | clu c' o' =>
      by_cases same : c' = c
      · subst same
        have := bytes o' (away fun k hk => by rw [Loc.shift, hk])
        exact congrArg (fun b => [b]) this
      · exact congrArg (Mem.readBytes · o' 1) (others _ fun h => same (BitVec.eq_of_toNat_eq h))
    | hbm a => exact congrArg (Mem.readBytes · a 1) hbm
    | host a => exact congrArg (Mem.readBytes · a 1) host
  | hbm a =>
    obtain ⟨bytes, host, others⟩ := rest
    cases y with
    | clu c' o' => exact congrArg (Mem.readBytes · o' 1) (others _)
    | hbm b =>
      have := bytes b (away fun k hk => by rw [Loc.shift, hk])
      exact congrArg (fun b => [b]) this
    | host b => exact congrArg (Mem.readBytes · b 1) host
  | host a =>
    obtain ⟨bytes, hbm, others⟩ := rest
    cases y with
    | clu c' o' => exact congrArg (Mem.readBytes · o' 1) (others _)
    | hbm b => exact congrArg (Mem.readBytes · b 1) hbm
    | host b =>
      have := bytes b (away fun k hk => by rw [Loc.shift, hk])
      exact congrArg (fun b => [b]) this

/-! ### A DMA command that is done -/

theorem dmaDone_clu (s : State) (cl : ClId) (j : Nat) :
    (s.dmaDone cl).clu j = { s.clu j with ddone := (s.clu j).ddone || decide (j = cl.toNat) } := by
  unfold State.dmaDone
  by_cases h : j = cl.toNat
  · rw [h, State.modCl_same]; simp
  · rw [State.modCl_ne _ _ h]; simp [h]

theorem modCl_dmaDone_own (s : State) (cl : ClId) (f : Cluster → Cluster) :
    ((s.modCl cl.toNat f).dmaDone cl).clu cl.toNat = { f (s.clu cl.toNat) with ddone := true } := by
  rw [dmaDone_clu, State.modCl_same, decide_eq_true rfl, Bool.or_true]
theorem modCl_dmaDone_ne (s : State) {cl : ClId} {j : Nat} (f : Cluster → Cluster) (h : j ≠ cl.toNat) :
    ((s.modCl cl.toNat f).dmaDone cl).clu j = s.clu j := by
  rw [dmaDone_clu, State.modCl_ne _ _ h, decide_eq_false h, Bool.or_false]

theorem dmaDone_mems (s : State) (cl : ClId) : SameMems s (s.dmaDone cl) := ⟨fun j => by rw [dmaDone_clu], rfl, rfl⟩

@[simp] theorem dmaDone_ctx (s : State) (cl : ClId) (c : Nat) : (s.dmaDone cl).ctx c = s.ctx c := rfl
theorem dmaDone_dataOnly (s : State) (cl : ClId) : DataOnly s (s.dmaDone cl) := rfl

/-- A store of bytes and the end of its command. -/
theorem locWrite_dmaDone (s : State) (cl : ClId) (l : Loc) (bs : List Byte) :
    Lands s ((s.locWrite l bs).dmaDone cl) l bs ∧ DmaRan s ((s.locWrite l bs).dmaDone cl) cl := by
  refine ⟨(locWrite_lands s l bs).kept (dmaDone_mems _ _), fun j => ?_, by cases l <;> rfl⟩
  rw [dmaDone_clu, locWrite_clu]

/-- A transfer that faults at the first of its places that is not allowed. -/
theorem Completes.of_placeFault {i : Instr} {s u : State} {cl : ClId} {q : QE} {reads writes : List (Loc × Nat)} {f : State → State}
    (run : exec i s = u.dmaRun cl q reads writes f) (h : (u.ctx q.ctx.toNat).st = .resident) {e : U16} {a : Nat}
    (bad : PlaceFault u q.ctx (dmaPlaces reads writes) e a) : Completes i s fun t => FaultedAt u t q.ctx e a :=
  ⟨_, run.trans (dmaRun_placeFault bad), faultAt_faultedAt _ _ _ h⟩

/-- A transfer from one place to another stores bytes at its destination and is done. -/
theorem Completes.of_transfer {i : Instr} {s u : State} {cl : ClId} {q : QE} {src dst : Loc} {n m : Nat} {f : State → List Byte}
    (run : exec i s = u.dmaRun cl q [(src, n)] [(dst, m)] fun s => s.locWrite dst (f s))
    (read : u.locCheck q.ctx src n false = none) (write : u.locCheck q.ctx dst m true = none)
    (free : u.srcWait src n = false) (open_ : u.locWait dst m = false) :
    Completes i s fun t => Lands u t dst (f u) ∧ DmaRan u t cl := by
  refine ⟨_, run.trans (dmaRun_runs _ _ _ _ _ _ ?_ ?_ ?_ ?_), locWrite_dmaDone u cl dst (f u)⟩
  all_goals exact List.forall_mem_singleton.2 (by assumption)

end Sys2Proof.Machine
end
section
/-! SUPPORT. The records of the Vault: what a push takes, where its data and trailer stand, what a pop frees (R146 to R148). -/

namespace Sys2Proof.Machine

/-! ### What a push changes -/

/-- A context's stack `i` on a cluster with one record more, `taken` bytes of it in the Vault (R147). -/
def CtxCl.pushed (y : CtxCl) (i taken : Nat) : CtxCl :=
  { y with vault := SMap.upd {} y.vault i fun v => { top := v.top + taken, recs := v.recs + 1 } }

/-- A cluster with that record, and with the memory `m`. -/
def Cluster.pushed (x : Cluster) (c i taken : Nat) (m : Mem) : Cluster :=
  { x.modPc c fun y => y.pushed i taken with mem := m }

/-- A cluster's memory with the trailer of context `c`'s next record on stack `i` (Table BK.6). -/
def Cluster.trailed (x : Cluster) (c : Nat) (d : CluDesc) (i : Nat) (tag : W32) (len fallback : Nat) : Mem :=
  x.mem.writeBytes (d.trailer i (SMap.get {} (x.pc c).vault i).recs) (trailerBytes tag len fallback)

theorem Cluster.pushed_pc (x : Cluster) (c i taken : Nat) (m : Mem) : (x.pushed c i taken m).pc c = (x.pc c).pushed i taken :=
  SMap.get_upd_same (d := ({} : CtxCl)) x.per c fun y => y.pushed i taken

theorem CtxCl.pushed_stack (y : CtxCl) (i taken j : Nat) :
    SMap.get {} (y.pushed i taken).vault j =
      if j = i then { top := (SMap.get {} y.vault i).top + taken, recs := (SMap.get {} y.vault i).recs + 1 }
      else SMap.get {} y.vault j := by
  unfold CtxCl.pushed
  rw [SMap.get_upd]

/-- A push into the Vault takes its bytes and a trailer, and nothing else changes. -/
theorem pushRecord_vault {s : State} {c : CtxId} {cl : ClId} {d : CluDesc} (h : (s.ctx c.toNat).desc cl = some d) (i : Nat)
    (tag : W32) (len fallback a : Nat) :
    s.pushRecord c cl i tag len fallback (.vault a)
      = s.modCl cl.toNat fun x => x.pushed c.toNat i len (x.trailed c.toNat d i tag len 0) := by
  unfold State.pushRecord
  rw [h]
  dsimp only
  have inside : PushTo.vault a ≠ .hbm := nofun
  rw [if_pos inside, if_pos inside, if_pos inside]
  unfold Cluster.trailed
  generalize trailerBytes tag len 0 = bytes
  generalize d.trailer i = place
  rfl

/-- A record of context `c` counted that went to the fallback (R148). -/
def State.spillCounted (s : State) (c : CtxId) : State := s.modCtx c.toNat fun x => { x with vaultSpills := satInc x.vaultSpills }

@[simp] theorem State.spillCounted_clu (s : State) (c : CtxId) (j : Nat) : (s.spillCounted c).clu j = s.clu j := rfl
@[simp] theorem State.spillCounted_ctx (s : State) (c : CtxId) : (s.spillCounted c).ctx c.toNat =
    { s.ctx c.toNat with vaultSpills := satInc (s.ctx c.toNat).vaultSpills } := State.modCtx_same _ _ _
theorem State.spillCounted_ctx_ne (s : State) {c : CtxId} {j : Nat} (h : j ≠ c.toNat) : (s.spillCounted c).ctx j = s.ctx j :=
  State.modCtx_ne _ _ h

/-- A push to the fallback takes a trailer alone, and is counted (R148). -/
theorem pushRecord_hbm {s : State} {c : CtxId} {cl : ClId} {d : CluDesc} (h : (s.ctx c.toNat).desc cl = some d) (i : Nat)
    (tag : W32) (len fallback : Nat) :
    s.pushRecord c cl i tag len fallback .hbm
      = (s.modCl cl.toNat fun x => x.pushed c.toNat i 0 (x.trailed c.toNat d i tag len fallback)).spillCounted c := by
  unfold State.pushRecord
  rw [h]
  dsimp only
  have outside : ¬PushTo.hbm ≠ .hbm := fun n => n rfl
  rw [if_neg outside, if_neg outside, if_neg outside]
  unfold Cluster.trailed
  generalize trailerBytes tag len fallback = bytes
  generalize d.trailer i = place
  rfl
/-! ### Where a record stands -/

theorem pushTo_vault {s : State} {c : CtxId} {cl : ClId} {d : CluDesc} {i len fallback a : Nat}
    (h : (s.ctx c.toNat).desc cl = some d) (w : s.pushTo c cl i len fallback = .vault a) :
    let st := SMap.get {} ((s.clu cl.toNat).pc c.toNat).vault i
    d.vaultSize ≠ 0 ∧ i < d.vaultStacks ∧ st.top + len ≤ d.vaultArea ∧ a = d.vaultData i + st.top := by
  unfold State.pushTo at w
  rw [h] at w
  dsimp only at w ⊢
  split_ifs at w with absent room
  · cases w
    exact ⟨fun z => absent (.inl z), by omega, room, rfl⟩
  · split at w <;> cases w

theorem pushTo_desc {s : State} {c : CtxId} {cl : ClId} {i len fallback : Nat} (w : ∀ f a, s.pushTo c cl i len fallback ≠ .fault f a) :
    ∃ d, (s.ctx c.toNat).desc cl = some d := by
  cases h : (s.ctx c.toNat).desc cl with
  | none => exact absurd (by unfold State.pushTo; rw [h]) (w 0x0004 0)
  | some d => exact ⟨d, rfl⟩

/-- The data of every stack stand before every trailer. -/
theorem vaultData_before_trailer {d : CluDesc} {i : Nat} (hs : d.vaultSize ≠ 0) (hi : i < d.vaultStacks) (k j : Nat) :
    d.vaultData i + d.vaultArea ≤ d.trailer k j := by
  have all : (i + 1) * d.vaultArea ≤ d.vaultSize * 65536 - 8192 := calc
    (i + 1) * d.vaultArea ≤ d.vaultStacks * d.vaultArea := Nat.mul_le_mul_right _ hi
    _ ≤ d.vaultSize * 65536 - 8192 := Nat.mul_div_le _ _
  have size : 65536 ≤ d.vaultSize * 65536 := Nat.le_mul_of_pos_left _ (Nat.pos_of_ne_zero hs)
  unfold CluDesc.vaultData CluDesc.trailer
  rw [Nat.add_mul] at all ⊢
  omega

/-! ### Trailers (Table BK.6) -/

@[simp] theorem trailerBytes_length (tag : W32) (len fallback : Nat) : (trailerBytes tag len fallback).length = 32 := by
  simp [trailerBytes]

/-- The tag and the length of a record read back from its trailer. -/
theorem trailer_reads (m : Mem) (x : Nat) (tag : W32) {len : Nat} (fallback : Nat) (h : len < 2 ^ 32) :
    (m.writeBytes x (trailerBytes tag len fallback)).read32 x = tag
      ∧ (m.writeBytes x (trailerBytes tag len fallback)).readN (x + 4) 4 = len := by
  obtain ⟨rest, parts⟩ : ∃ rest, trailerBytes tag len fallback = leBytes 4 tag.toNat ++ (leBytes 4 len ++ rest) :=
    ⟨[if fallback = 0 then 0 else 1] ++ (List.replicate 7 0 ++ (leBytes 8 fallback ++ List.replicate 8 0)), by
      unfold trailerBytes
      simp only [List.append_assoc]⟩
  rw [parts, Mem.writeBytes_append, Mem.writeBytes_append, leBytes_length, leBytes_length]
  constructor
  · have own : ∀ b, x ≤ b → b < x + 4 →
        (((m.writeBytes x (leBytes 4 tag.toNat)).writeBytes (x + 4) (leBytes 4 len)).writeBytes (x + 4 + 4) rest).read b
          = (m.writeBytes x (leBytes 4 tag.toNat)).read b := fun b low high => by
      rw [Mem.read_writeBytes_out (.inl (by omega)), Mem.read_writeBytes_out (.inl (by omega))]
    rw [Mem.read32_congr own, ← Mem.writeN_eq_writeBytes, Mem.read32_writeN]
  · rw [Mem.readN_congr fun b low high => Mem.read_writeBytes_out (.inl high), Mem.readN_writeBytes_leBytes,
      Nat.mod_eq_of_lt (show len < 256 ^ 4 from h)]

/-- A trailer's bytes alone change. -/
theorem Cluster.read_trailed_out {x : Cluster} {c : Nat} {d : CluDesc} {i : Nat} {tag : W32} {len fallback b : Nat}
    (h : b < d.trailer i (SMap.get {} (x.pc c).vault i).recs ∨ d.trailer i (SMap.get {} (x.pc c).vault i).recs + 32 ≤ b) :
    (x.trailed c d i tag len fallback).read b = x.mem.read b :=
  Mem.read_writeBytes_out (by rw [trailerBytes_length]; exact h)

/-! ### What a pop frees -/

theorem popRecord_clu (s : State) (c : CtxId) (cl : ClId) (i n : Nat) (inVault : Bool) (j : Nat) :
    (s.popRecord c cl i n inVault).clu j = { s.clu j with per := ((s.popRecord c cl i n inVault).clu j).per } := by
  unfold State.popRecord
  by_cases h : j = cl.toNat
  · rw [h, State.modCl_same]; rfl
  · rw [State.modCl_ne _ _ h]

theorem popRecord_mems (s : State) (c : CtxId) (cl : ClId) (i n : Nat) (inVault : Bool) : SameMems s (s.popRecord c cl i n inVault) :=
  ⟨fun j => by rw [popRecord_clu], rfl, rfl⟩

theorem popRecord_stack (s : State) (c : CtxId) (cl : ClId) (i n : Nat) (inVault : Bool) :
    SMap.get {} (((s.popRecord c cl i n inVault).clu cl.toNat).pc c.toNat).vault i =
      { top := if inVault then (SMap.get {} ((s.clu cl.toNat).pc c.toNat).vault i).top - n
          else (SMap.get {} ((s.clu cl.toNat).pc c.toNat).vault i).top
        recs := (SMap.get {} ((s.clu cl.toNat).pc c.toNat).vault i).recs - 1 } := by
  unfold State.popRecord Cluster.pc Cluster.modPc
  rw [State.modCl_same, SMap.get_upd_same, SMap.get_upd_same]

end Sys2Proof.Machine
end
section
/-! SUPPORT. The DMA engine's commands one by one: what each answers at the head of its queue (R49, R146 to R151, R174,
R231). -/

namespace Sys2Proof.Machine

/-! ### COPY (R231) -/

theorem copy_within {cl : ClId} {h : HostStores} {q : QE} {s : State} (head : (s.hostStores h).dmaHead cl 0 = some q)
    (here : bit (fld q.img 0x28 31 0) 12 = false) :
    exec (.copy cl h) s = (s.hostStores h).dmaRun cl q [(dSrc q.img, dLen q.img)] [(dDst q.img, dLen q.img)]
      fun s => s.locWrite (dDst q.img) (s.locRead (dSrc q.img) (dLen q.img)) := by
  show execCopy cl h s = _
  unfold execCopy
  simp only [head]
  exact if_neg (by simp [here])

theorem copy_away {cl : ClId} {h : HostStores} {q : QE} {s : State} (head : (s.hostStores h).dmaHead cl 0 = some q)
    (away : bit (fld q.img 0x28 31 0) 12 = true) : exec (.copy cl h) s = (s.hostStores h).copyRemote cl q := by
  show execCopy cl h s = _
  unfold execCopy
  simp only [head]
  exact if_pos away

theorem copyRemote_placeFault {s : State} {cl : ClId} {q : QE} {e : U16} {a : Nat}
    (h : PlaceFault s q.ctx [(dSrc q.img, dLen q.img, false)] e a) :
    s.copyRemote cl q = .next (s.faultAt q (e, a) (clUnit q.img)) := by
  unfold State.copyRemote
  simp only [locsFault_of_placeFault h]

/-- The device while its remote copy awaits `n` acknowledgements. -/
def State.copyWaits (s : State) (cl : ClId) (n : Nat) : State := s.modCl cl.toNat fun x => { x with dwait := true, dleft := n }

/-- A remote copy sends its packets. -/
theorem copyRemote_sends {s : State} {cl : ClId} {q : QE} (read : s.locCheck q.ctx (dSrc q.img) (dLen q.img) false = none)
    (free : s.srcWait (dSrc q.img) (dLen q.img) = false) :
    let cs := chunks (s.locRead (dSrc q.img) (dLen q.img))
    s.copyRemote cl q = .next (cs.zipIdx.foldl (fun s c => s.send (s.remotePkt q c.2 cs.length c.1) q.seq) (s.copyWaits cl cs.length)) := by
  have sound : s.locsFault q.ctx [(dSrc q.img, dLen q.img, false)] = none :=
    locsFault_none (List.forall_mem_singleton.2 read)
  unfold State.copyRemote
  simp only [sound, free]
  rfl

/-- A packet for another device with a route joins the queue of the route's port (R228). -/
theorem send_routed {s : State} {k : Packet} {p : Nat} {dt : Bool} (cmd : W32) (away : s.remapped k.dst ≠ s.devId)
    (route : s.route (s.remapped k.dst) = some (p, dt)) :
    s.send k cmd = s.modPort p fun x => x.queue { k with dst := s.remapped k.dst, dateline := dt || s.wraps p, lsn := 0 } := by
  unfold State.send State.enqueue
  dsimp only
  rw [if_neg away, route]
  simp

/-- Routes look at whether ports are DOWN, not at what they queue (R228). -/
theorem route_queued (s : State) (p : Nat) (k : Packet) (d : DevId) :
    (s.modPort p fun x => x.queue k).route d = s.route d := by
  have state (j : Nat) : ((s.modPort p fun x => x.queue k).prt6 j).st = (s.prt6 j).st := by
    by_cases h : j = p
    · rw [h, State.modPort_same]; rfl
    · rw [State.modPort_ne _ _ h]
  unfold State.route
  simp only [state]
  rfl

/-- The packets of a remote copy stand in its route's port, with their payloads in order (R231). -/
theorem sends_remotePkts {q : QE} {n p : Nat} {dt : Bool} (l : List (List Byte × Nat)) (s : State)
    (away : s.remapped (BitVec.ofNat 12 (fld q.img 0x28 11 0)) ≠ s.devId)
    (route : s.route (s.remapped (BitVec.ofNat 12 (fld q.img 0x28 11 0))) = some (p, dt)) :
    let t := l.foldl (fun s c => s.send (s.remotePkt q c.2 n c.1) q.seq) s
    ∃ ps : List Packet, (t.prt6 p).txq = (s.prt6 p).txq ++ ps ∧ ps.map (·.payload) = l.map Prod.fst
      ∧ (∀ k ∈ ps, k.ty = 1 ∧ k.dst = s.remapped (BitVec.ofNat 12 (fld q.img 0x28 11 0)) ∧ k.srcCtx = q.ctx)
      ∧ SameBut State.prt6 p s t ∧ t = { s with port := t.port } := by
  induction l generalizing s with
  | nil => exact ⟨[], (List.append_nil _).symm, rfl, nofun, fun _ _ => rfl, rfl⟩
  | cons c l ih =>
    have first := send_routed (k := s.remotePkt q c.2 n c.1) q.seq away route
    generalize packet : ({ s.remotePkt q c.2 n c.1 with
      dst := s.remapped (s.remotePkt q c.2 n c.1).dst, dateline := dt || s.wraps p, lsn := 0 } : Packet) = k at first
    obtain ⟨ps, queue, payloads, each, others, only⟩ := ih (s.modPort p fun x => x.queue k) away ((route_queued s p k _).trans route)
    dsimp only
    rw [List.foldl_cons, first]
    refine ⟨k :: ps, ?_, ?_, ?_, fun j hj => (others j hj).trans (State.modPort_ne _ _ hj), only⟩
    · rw [queue, State.modPort_same]
      exact List.append_assoc _ [k] ps
    · rw [List.map_cons, List.map_cons, payloads, ← packet]
      rfl
    · refine List.forall_mem_cons.2 ⟨?_, each⟩
      rw [← packet]
      exact ⟨rfl, rfl, rfl⟩

/-! ### TRANSPOSE, SPILL_OUT, SPILL_IN (R49, R150) -/

theorem transpose_runs {cl : ClId} {h : HostStores} {q : QE} {s : State} (head : (s.hostStores h).dmaHead cl 1 = some q)
    (fmt : dFmt q.img ∈ [2, 3, 5, 6]) :
    let r := fld q.img 0x28 15 0
    let c := fld q.img 0x28 31 16
    let n := elemBytes (dFmt q.img) (r * c)
    exec (.transpose cl h) s = (s.hostStores h).dmaRun cl q [(dSrc q.img, n)] [(dDst q.img, n)]
      fun s => s.locWrite (dDst q.img) (transposed (dFmt q.img) r c (s.locRead (dSrc q.img) n)) := by
  show execTranspose cl h s = _
  unfold execTranspose
  simp only [head]
  exact if_neg (by rw [List.contains_iff_mem.2 fmt]; decide)

/-- What a spill stores and reports. -/
def State.spilled (s : State) (q : QE) (r : List Byte × List Byte × Tally4 × Tally4) : State :=
  (((s.locWrite (dDst q.img) r.1).locWrite (dAux q.img) r.2.1).countFor q 2 r.2.2.1).countFor q 7 r.2.2.2

theorem spillOut_runs {cl : ClId} {q : QE} {s : State} (head : s.dmaHead cl 2 = some q) (fmt : spillFmtBad q.img = false) :
    let r := spillEnc q.img (s.locRead (dSrc q.img) (dLen q.img))
    exec (.spillOut cl) s = s.dmaRun cl q [(dSrc q.img, dLen q.img)] ((dDst q.img, r.1.length) :: auxOf q.img r.2.1.length)
      fun s => s.spilled q r := by
  show execSpillOut cl s = _
  unfold execSpillOut
  simp only [head]
  exact if_neg (by simp [fmt])

theorem spillIn_runs {cl : ClId} {h : HostStores} {q : QE} {s : State} (head : (s.hostStores h).dmaHead cl 3 = some q)
    (fmt : spillFmtBad q.img = false) :
    let n := (s.hostStores h).spillInLen q.img
    exec (.spillIn cl h) s = (s.hostStores h).dmaRun cl q (auxOf q.img n.2 ++ [(dSrc q.img, n.1)]) [(dDst q.img, dLen q.img)]
      fun s => s.locWrite (dDst q.img)
        ((packCodes (dFmt q.img) ((s.spillDec q.img).take (spillCount q.img))).take (dLen q.img)) := by
  show execSpillIn cl h s = _
  unfold execSpillIn
  simp only [head]
  exact if_neg (by simp [fmt])

/-! ### What a spill leaves (R150, R151) -/

/-- Encodings but BLOCK8 report nothing. -/
theorem spillEnc_silent {i : Image} (h : dEnc i ≠ 2) (bs : List Byte) : (spillEnc i bs).2.2 = ({}, {}) := by
  unfold spillEnc
  dsimp only
  rw [if_neg h]
  split <;> rfl

/-- Without an encoding no array goes beside the data. -/
theorem spillEnc_plain {i : Image} (h : dEnc i = 0) (bs : List Byte) : (spillEnc i bs).2.1 = [] := by
  unfold spillEnc
  dsimp only
  rw [if_neg (by omega), if_neg (by omega)]

/-- No byte is stored at a place. -/
theorem locWrite_nil (s : State) (l : Loc) : SameMems s (s.locWrite l []) := by
  refine ⟨fun j => ?_, by cases l <;> rfl, by cases l <;> rfl⟩
  cases l with
  | clu c o =>
    show ((s.modCl c.toNat _).clu j).mem = _
    by_cases h : j = c.toNat
    · rw [h, State.modCl_same]; rfl
    · rw [State.modCl_ne _ _ h]
  | hbm a => rfl
  | host a => rfl

theorem locWrite_same (s : State) (l : Loc) (bs : List Byte) :
    (s.locWrite l bs).td = s.td ∧ (s.locWrite l bs).free = s.free ∧ (s.locWrite l bs).census = s.census := by
  cases l <;> exact ⟨rfl, rfl, rfl⟩

section
variable (s : State) (q : QE) (r : List Byte × List Byte × Tally4 × Tally4)

/-- The device between a spill's stores and its reports. -/
def State.spillStored : State := (s.locWrite (dDst q.img) r.1).locWrite (dAux q.img) r.2.1

theorem spilled_reports : Reports q.ctx.toNat (s.spillStored q r) (s.spilled q r) :=
  (countFor_reports _ _ _ (by decide)).trans (countFor_reports _ _ _ (by decide))

theorem spillStored_clu (j : Nat) : (s.spillStored q r).clu j = { s.clu j with mem := ((s.spillStored q r).clu j).mem } := by
  unfold State.spillStored
  rw [locWrite_clu, locWrite_clu]

theorem spillStored_dataOnly : DataOnly s (s.spillStored q r) :=
  (locWrite_dataOnly _ _ _).trans (locWrite_dataOnly _ _ _)

theorem spilled_clu (j : Nat) : (s.spilled q r).clu j = { s.clu j with mem := ((s.spilled q r).clu j).mem } := by
  rw [(spilled_reports s q r).clu]
  exact spillStored_clu s q r j

theorem spillStored_num (c : Nat) : (s.spillStored q r).nums c = s.nums c := (spillStored_dataOnly s q r).nums c

theorem spillStored_same : (s.spillStored q r).td = s.td ∧ (s.spillStored q r).free = s.free ∧ (s.spillStored q r).census = s.census := by
  obtain ⟨td, free, census⟩ := locWrite_same s (dDst q.img) r.1
  obtain ⟨td', free', census'⟩ := locWrite_same (s.locWrite (dDst q.img) r.1) (dAux q.img) r.2.1
  exact ⟨td'.trans td, free'.trans free, census'.trans census⟩

/-- A spill that is done has changed memories, the Census and notes. -/
theorem spilled_memories (cl : ClId) : NotesOnly { s with
    cls := ((s.spilled q r).dmaDone cl).cls, hbm := ((s.spilled q r).dmaDone cl).hbm, host := ((s.spilled q r).dmaDone cl).host
    census := ((s.spilled q r).dmaDone cl).census } ((s.spilled q r).dmaDone cl) := by
  obtain ⟨td, free, -⟩ := spillStored_same s q r
  have reports := spilled_reports s q r
  exact ((spillStored_dataOnly s q r).trans (reports.dataOnly.trans (dmaDone_dataOnly _ cl))).memories (reports.td.trans td)
    (reports.free.trans free)

theorem spilledDone_clu (cl : ClId) (j : Nat) : ((s.spilled q r).dmaDone cl).clu j = { s.clu j with
    mem := (((s.spilled q r).dmaDone cl).clu j).mem, ddone := (s.clu j).ddone || decide (j = cl.toNat) } := by
  rw [dmaDone_clu, spilled_clu]

theorem spilled_silent (h : r.2.2 = ({}, {})) : s.spilled q r = s.spillStored q r := by
  unfold State.spilled
  rw [h, countFor_nothing, countFor_nothing]
  rfl

/-- Where nothing is reported, or there is no Census area, the reports change no memory. -/
theorem spilled_mems (h : r.2.2 = ({}, {}) ∨ (s.nums q.ctx.toNat).censusBase = 0) : SameMems (s.spillStored q r) (s.spilled q r) := by
  have reports := spilled_reports s q r
  refine ⟨fun j => by rw [reports.clu], ?_, reports.host⟩
  rcases h with silent | none
  · rw [spilled_silent s q r silent]
  · exact reports.2.2 ((congrArg _ (spillStored_num s q r _)).trans none)

/-- A byte outside a spill's places and the Census area reads as before. -/
theorem spilled_elsewhere {y : Loc} (dst : ∀ k < r.1.length, (dDst q.img).shift k ≠ y)
    (aux : ∀ k < r.2.1.length, (dAux q.img).shift k ≠ y)
    (area : (s.nums q.ctx.toNat).censusBase ≠ 0 →
      ∀ k < 4096, (Loc.hbm (s.nums q.ctx.toNat).censusBase.toNat).shift k ≠ y) :
    (s.spilled q r).locRead y 1 = s.locRead y 1 := by
  have reports := spilled_reports s q r
  have stored : (s.spillStored q r).locRead y 1 = s.locRead y 1 :=
    ((locWrite_lands _ _ _).elsewhere aux).trans ((locWrite_lands _ _ _).elsewhere dst)
  rw [← stored]
  cases y with
  | clu c o => exact congrArg (fun x : Cluster => x.mem.readBytes o 1) (reports.clu c.toNat)
  | host a => exact congrArg (Mem.readBytes · a 1) reports.host
  | hbm a =>
    obtain ⟨-, bytes, none⟩ := reports
    rw [spillStored_num] at bytes none
    by_cases base : (s.nums q.ctx.toNat).censusBase = 0
    · exact congrArg (Mem.readBytes · a 1) (none base)
    · have out := bytes a fun ⟨low, high⟩ => area base (a - (s.nums q.ctx.toNat).censusBase.toNat) (by omega)
        (by rw [Loc.shift, Nat.add_sub_cancel' low])
      exact congrArg (fun b => [b]) out

end

end Sys2Proof.Machine
end
section
/-! SUPPORT. Vault commands and Teller loads of the DMA engine, and the statement on transfers (R146 to R149, R174). -/

namespace Sys2Proof.Machine

/-! ### VAULT_PUSH (R147, R148) -/

section
variable {cl : ClId} {h : HostStores} {q : QE} {s : State} (head : (s.hostStores h).dmaHead cl 4 = some q)
  (whole : dLen q.img % 32 = 0)
include head whole

theorem vaultPush_malformed (none : (s.hostStores h).locNone (dSrc q.img) (dLen q.img) = true) :
    exec (.vaultPush cl h) s = .next ((s.hostStores h).faultAt q (0x0003, (dSrc q.img).addr) (clUnit q.img)) := by
  show execVaultPush cl h s = _
  unfold execVaultPush
  simp only [head]
  rw [if_neg (by omega), if_pos none]

theorem vaultPush_fault {f : U16} {b : Nat} (sound : (s.hostStores h).locNone (dSrc q.img) (dLen q.img) = false)
    (place : (s.hostStores h).pushTo q.ctx cl (dStack q.img) (dLen q.img) (fld q.img 0x2C 63 0) = .fault f b) :
    exec (.vaultPush cl h) s = .next ((s.hostStores h).faultAt q (f, b) (clUnit q.img)) := by
  show execVaultPush cl h s = _
  unfold execVaultPush
  simp only [head, place]
  rw [if_neg (by omega), if_neg (by simp [sound])]

theorem vaultPush_vault {a : Nat} (sound : (s.hostStores h).locNone (dSrc q.img) (dLen q.img) = false)
    (place : (s.hostStores h).pushTo q.ctx cl (dStack q.img) (dLen q.img) (fld q.img 0x2C 63 0) = .vault a) :
    exec (.vaultPush cl h) s = (s.hostStores h).dmaRun cl q [(dSrc q.img, dLen q.img)] [(.clu cl a, dLen q.img)] fun s =>
      (s.pushRecord q.ctx cl (dStack q.img) (BitVec.ofNat 32 (fld q.img 0x28 31 0)) (dLen q.img) (fld q.img 0x2C 63 0)
        (.vault a)).locWrite (.clu cl a) (s.locRead (dSrc q.img) (dLen q.img)) := by
  show execVaultPush cl h s = _
  unfold execVaultPush
  simp only [head, place]
  rw [if_neg (by omega), if_neg (by simp [sound])]

theorem vaultPush_hbm (sound : (s.hostStores h).locNone (dSrc q.img) (dLen q.img) = false)
    (place : (s.hostStores h).pushTo q.ctx cl (dStack q.img) (dLen q.img) (fld q.img 0x2C 63 0) = .hbm) :
    exec (.vaultPush cl h) s = (s.hostStores h).dmaRun cl q [(dSrc q.img, dLen q.img)] [(.hbm (fld q.img 0x2C 63 0), dLen q.img)]
      fun s => (s.pushRecord q.ctx cl (dStack q.img) (BitVec.ofNat 32 (fld q.img 0x28 31 0)) (dLen q.img) (fld q.img 0x2C 63 0)
        .hbm).locWrite (.hbm (fld q.img 0x2C 63 0)) (s.locRead (dSrc q.img) (dLen q.img)) := by
  show execVaultPush cl h s = _
  unfold execVaultPush
  simp only [head, place]
  rw [if_neg (by omega), if_neg (by simp [sound])]

/-- A push faults at its source, or at the place its record takes. -/
theorem vaultPush_placeFault {dst : Loc} (hin : ((s.hostStores h).ctx q.ctx.toNat).st = .resident) {f : State → State} {e : U16} {b : Nat}
    (run : (s.hostStores h).locNone (dSrc q.img) (dLen q.img) = false →
      exec (.vaultPush cl h) s = (s.hostStores h).dmaRun cl q [(dSrc q.img, dLen q.img)] [(dst, dLen q.img)] f)
    (bad : PlaceFault (s.hostStores h) q.ctx [(dSrc q.img, dLen q.img, false), (dst, dLen q.img, true)] e b) :
    Completes (.vaultPush cl h) s fun t => FaultedAt (s.hostStores h) t q.ctx e b := by
  cases none : (s.hostStores h).locNone (dSrc q.img) (dLen q.img) with
  | false => exact .of_placeFault (run none) hin bad
  | true =>
    have first := locsFault_of_placeFault bad
    unfold State.locsFault at first
    rw [List.find?_cons_of_pos (p := fun r => (s.hostStores h).locNone r.1 r.2.1) (a := (dSrc q.img, dLen q.img, false)) none]
      at first
    cases first
    exact ⟨_, vaultPush_malformed head whole none, faultAt_faultedAt _ _ _ hin⟩

end

/-- The cluster of a push into the Vault, its data stored. -/
theorem pushed_vault_clu (s : State) (cl : ClId) (c i len a : Nat) (m : Cluster → Mem) (bs : List Byte) :
    let t := ((s.modCl cl.toNat fun x => x.pushed c i len (m x)).locWrite (.clu cl a) bs).dmaDone cl
    t.clu cl.toNat = { (s.clu cl.toNat).pushed c i len ((m (s.clu cl.toNat)).writeBytes a bs) with ddone := true }
      ∧ ClusterOnly cl s t := by
  dsimp only
  refine ⟨?_, fun j hj => ?_, rfl⟩
  · rw [dmaDone_clu, locWrite_clu_own, State.modCl_same, decide_eq_true rfl, Bool.or_true]
    rfl
  · rw [dmaDone_clu, locWrite_clu_ne _ _ _ hj, State.modCl_ne _ _ hj, decide_eq_false hj, Bool.or_false]

/-- The cluster of a push to the fallback, and what else it changes. -/
theorem pushed_hbm_clu (s : State) (cl : ClId) (c : CtxId) (i a : Nat) (m : Cluster → Mem) (bs : List Byte) :
    let t := (((s.modCl cl.toNat fun x => x.pushed c.toNat i 0 (m x)).spillCounted c).locWrite (.hbm a) bs).dmaDone cl
    t.clu cl.toNat = { (s.clu cl.toNat).pushed c.toNat i 0 (m (s.clu cl.toNat)) with ddone := true }
      ∧ SameBut State.clu cl.toNat s t ∧ t.hbm = s.hbm.writeBytes a bs
      ∧ t.ctx c.toNat = { s.ctx c.toNat with vaultSpills := satInc (s.ctx c.toNat).vaultSpills }
      ∧ SameBut State.ctx c.toNat s t ∧ NotesOnly { s with cls := t.cls, hbm := t.hbm, ctxs := t.ctxs } t := by
  dsimp only
  refine ⟨?_, fun j hj => ?_, rfl, ?_, fun j hj => ?_, rfl⟩
  · rw [dmaDone_clu, locWrite_hbm_clu, State.spillCounted_clu, State.modCl_same, decide_eq_true rfl, Bool.or_true]
  · rw [dmaDone_clu, locWrite_hbm_clu, State.spillCounted_clu, State.modCl_ne _ _ hj, decide_eq_false hj, Bool.or_false]
  · rw [dmaDone_ctx, locWrite_ctx, State.spillCounted_ctx]
    rfl
  · rw [dmaDone_ctx, locWrite_ctx, State.spillCounted_ctx_ne _ hj]
    rfl

/-! ### VAULT_POP (R147) -/

theorem topRecord_empty {s : State} {c : CtxId} {cl : ClId} {i : Nat}
    (h : (SMap.get {} ((s.clu cl.toNat).pc c.toNat).vault i).recs = 0) : s.topRecord c cl i = none := by
  unfold State.topRecord
  cases (s.ctx c.toNat).desc cl with
  | none => rfl
  | some d => exact if_pos (.inl h)

section
variable {cl : ClId} {q : QE} {d : CluDesc} {s : State} (head : s.dmaHead cl 5 = some q)
  (desc : (s.ctx q.ctx.toNat).desc cl = some d) (vault : d.vaultSize ≠ 0)
include head desc vault

theorem vaultPop_empty (h : s.topRecord q.ctx cl (dStack q.img) = none) :
    exec (.vaultPop cl) s = .next (s.dmaFault q 0x000D) := by
  show execVaultPop cl s = _
  unfold execVaultPop
  simp only [head, h, desc]
  exact if_neg (by simp [vault])

theorem vaultPop_mistagged {tag : W32} {n : Nat} {l : Loc} (h : s.topRecord q.ctx cl (dStack q.img) = some (tag, n, l))
    (tagged : tag.toNat ≠ fld q.img 0x28 31 0) : exec (.vaultPop cl) s = .next (s.dmaFault q 0x000D) := by
  show execVaultPop cl s = _
  unfold execVaultPop
  simp only [head, h, desc]
  rw [if_neg (by simp [vault]), if_pos tagged]

/-- Does a record's data stand in the Vault? -/
def Loc.inClu : Loc → Bool
  | .clu .. => true
  | _ => false

theorem vaultPop_runs {tag : W32} {n : Nat} {l : Loc} (h : s.topRecord q.ctx cl (dStack q.img) = some (tag, n, l))
    (tagged : tag.toNat = fld q.img 0x28 31 0) :
    exec (.vaultPop cl) s = s.dmaRun cl q [(l, n)] [(dDst q.img, n)] fun s =>
      (s.locWrite (dDst q.img) (s.locRead l n)).popRecord q.ctx cl (dStack q.img) n l.inClu := by
  show execVaultPop cl s = _
  unfold execVaultPop
  simp only [head, h, desc]
  rw [if_neg (by simp [vault]), if_neg (not_not.2 tagged)]
  cases l <;> rfl
end

/-! ### TELLER_LOAD (R174) -/

theorem tellerLoad_past {cl : ClId} {h : HostStores} {q : QE} {s : State} (head : (s.hostStores h).dmaHead cl 6 = some q)
    (past : 4096 * (((s.hostStores h).clu cl.toNat).pc q.ctx.toNat).tpages.length < fld q.img 0x28 31 0 * 4096 + dLen q.img) :
    exec (.tellerLoad cl h) s = .next ((s.hostStores h).dmaFault q 0x0007) := by
  show execTellerLoad cl h s = _
  unfold execTellerLoad
  simp only [head]
  exact if_pos past

theorem tellerLoad_runs {cl : ClId} {h : HostStores} {q : QE} {s : State} (head : (s.hostStores h).dmaHead cl 6 = some q)
    (fits : fld q.img 0x28 31 0 * 4096 + dLen q.img ≤ 4096 * (((s.hostStores h).clu cl.toNat).pc q.ctx.toNat).tpages.length) :
    exec (.tellerLoad cl h) s = (s.hostStores h).dmaRun cl q [(dSrc q.img, dLen q.img)] [] fun u => u.modCl cl.toNat fun x =>
      { x with imem := loadPages x.imem (((s.hostStores h).clu cl.toNat).pc q.ctx.toNat).tpages (fld q.img 0x28 31 0 * 4096)
                           (u.locRead (dSrc q.img) (dLen q.img)) } := by
  show execTellerLoad cl h s = _
  unfold execTellerLoad
  simp only [head]
  exact if_neg (not_lt.2 fits)

end Sys2Proof.Machine
end
section
/-! SUPPORT. The statement on transfers (O55). -/
namespace Sys2Proof.Machine

/-- A push into the Vault: data and trailer stand, one record more, and nothing else changes. -/
theorem vaultPush_into_vault {cl : ClId} {h : HostStores} {q : QE} {d : CluDesc} {s : State} {a : Nat}
    (head : (s.hostStores h).dmaHead cl 4 = some q) (whole : dLen q.img % 32 = 0)
    (desc : ((s.hostStores h).ctx q.ctx.toNat).desc cl = some d)
    (read : (s.hostStores h).locCheck q.ctx (dSrc q.img) (dLen q.img) false = none)
    (free : (s.hostStores h).srcWait (dSrc q.img) (dLen q.img) = false)
    (place : (s.hostStores h).pushTo q.ctx cl (dStack q.img) (dLen q.img) (fld q.img 0x2C 63 0) = .vault a)
    (write : (s.hostStores h).locCheck q.ctx (.clu cl a) (dLen q.img) true = none) :
    let u := s.hostStores h
    let x := u.clu cl.toNat
    let bs := u.locRead (dSrc q.img) (dLen q.img)
    Completes (.vaultPush cl h) s fun t =>
      t.clu cl.toNat = { x.pushed q.ctx.toNat (dStack q.img) (dLen q.img)
        ((x.trailed q.ctx.toNat d (dStack q.img) (BitVec.ofNat 32 (fld q.img 0x28 31 0)) (dLen q.img) 0).writeBytes a bs) with
          ddone := true } ∧ ClusterOnly cl u t := by
  intro u x bs
  have run := vaultPush_vault head whole (locNone_of_locCheck read) place
  have open_ : u.locWait (.clu cl a) (dLen q.img) = false := cluShut_of_clOpen (dmaHead_ready head).1
  refine ⟨_, run.trans (dmaRun_runs _ _ _ _ _ _ ?_ ?_ ?_ ?_), ?_⟩
  case refine_5 =>
    rw [pushRecord_vault desc]
    exact pushed_vault_clu u cl _ _ _ a _ bs
  all_goals exact List.forall_mem_singleton.2 (by assumption)

theorem vaultPush_to_hbm {cl : ClId} {h : HostStores} {q : QE} {d : CluDesc} {s : State}
    (head : (s.hostStores h).dmaHead cl 4 = some q) (whole : dLen q.img % 32 = 0)
    (desc : ((s.hostStores h).ctx q.ctx.toNat).desc cl = some d)
    (read : (s.hostStores h).locCheck q.ctx (dSrc q.img) (dLen q.img) false = none)
    (free : (s.hostStores h).srcWait (dSrc q.img) (dLen q.img) = false)
    (place : (s.hostStores h).pushTo q.ctx cl (dStack q.img) (dLen q.img) (fld q.img 0x2C 63 0) = .hbm)
    (write : (s.hostStores h).hbmCheck q.ctx.toNat (fld q.img 0x2C 63 0) (dLen q.img) true false = none)
    (open_ : (s.hostStores h).guarded (fld q.img 0x2C 63 0) (dLen q.img) = false) :
    let u := s.hostStores h
    let x := u.clu cl.toNat
    let bs := u.locRead (dSrc q.img) (dLen q.img)
    Completes (.vaultPush cl h) s fun t =>
      t.clu cl.toNat = { x.pushed q.ctx.toNat (dStack q.img) 0
        (x.trailed q.ctx.toNat d (dStack q.img) (BitVec.ofNat 32 (fld q.img 0x28 31 0)) (dLen q.img) (fld q.img 0x2C 63 0)) with
          ddone := true }
      ∧ SameBut State.clu cl.toNat u t ∧ t.hbm = u.hbm.writeBytes (fld q.img 0x2C 63 0) bs
      ∧ t.ctx q.ctx.toNat = { u.ctx q.ctx.toNat with vaultSpills := satInc (u.ctx q.ctx.toNat).vaultSpills }
      ∧ SameBut State.ctx q.ctx.toNat u t ∧ NotesOnly { u with cls := t.cls, hbm := t.hbm, ctxs := t.ctxs } t := by
  intro u x bs
  have run := vaultPush_hbm head whole (locNone_of_locCheck read) place
  refine ⟨_, run.trans (dmaRun_runs _ _ _ _ _ _ ?_ ?_ ?_ ?_), ?_⟩
  case refine_5 =>
    rw [pushRecord_hbm desc]
    exact pushed_hbm_clu u cl q.ctx _ _ _ bs
  all_goals exact List.forall_mem_singleton.2 (by assumption)

/-- The length of a transfer is 32 bits. -/
theorem dLen_lt (i : Image) : dLen i < 2 ^ 32 := Nat.mod_lt _ (by decide)

/-- A remote copy to a device with a route: what it leaves (R231). -/
theorem copyRemote_leaves {s : State} {cl : ClId} {q : QE} {p : Nat} {dt : Bool} (cs : List (List Byte))
    (away : s.remapped (BitVec.ofNat 12 (fld q.img 0x28 11 0)) ≠ s.devId)
    (route : s.route (s.remapped (BitVec.ofNat 12 (fld q.img 0x28 11 0))) = some (p, dt)) :
    let t := cs.zipIdx.foldl (fun s c => s.send (s.remotePkt q c.2 cs.length c.1) q.seq) (s.copyWaits cl cs.length)
    ∃ ps : List Packet, (t.prt6 p).txq = (s.prt6 p).txq ++ ps ∧ ps.map (·.payload) = cs
      ∧ (∀ k ∈ ps, k.ty = 1 ∧ k.dst = s.remapped (BitVec.ofNat 12 (fld q.img 0x28 11 0)) ∧ k.srcCtx = q.ctx)
      ∧ t.clu cl.toNat = { s.clu cl.toNat with dwait := true, dleft := ps.length } ∧ SameBut State.clu cl.toNat s t
      ∧ SameBut State.prt6 p s t ∧ t = { s with cls := t.cls, port := t.port } := by
  obtain ⟨ps, queue, payloads, each, others, only⟩ :=
    sends_remotePkts (q := q) (n := cs.length) cs.zipIdx (s.copyWaits cl cs.length) away route
  rw [List.zipIdx_map_fst] at payloads
  dsimp only
  generalize List.foldl _ _ _ = t at queue others only
  have clusters : t.cls = (s.copyWaits cl cs.length).cls := by rw [only]
  have len : ps.length = cs.length := by rw [← payloads, List.length_map]
  refine ⟨ps, queue, payloads, each, ?_, fun j hj => ?_, others, by rw [only]; rfl⟩
  · unfold State.clu
    rw [clusters, len]
    exact State.modCl_same s cl.toNat _
  · unfold State.clu
    rw [clusters]
    exact State.modCl_ne s _ hj

/-- What a spill leaves once it is done (R150, R151). -/
theorem spillOut_leaves (cl : ClId) {q : QE} {s : State} :
    let i := q.img
    let r := spillEnc i (s.locRead (dSrc i) (dLen i))
    let t := (s.spilled q r).dmaDone cl
    (dEnc i = 0 → Lands s t (dDst i) r.1 ∧ DmaRan s t cl)
      ∧ (dEnc i = 1 ∨ (s.nums q.ctx.toNat).censusBase = 0 → (dEnc i ≠ 0 → t.locRead (dAux i) r.2.1.length = r.2.1)
        ∧ ∀ a b, dDst i = .hbm a → dAux i = .hbm b → a + r.1.length ≤ b →
          t.hbm.readBytes a r.1.length = r.1
          ∧ ∀ p, ¬(a ≤ p ∧ p < a + r.1.length) → ¬(b ≤ p ∧ p < b + r.2.1.length) → t.hbm.read p = s.hbm.read p)
      ∧ (∀ j, t.clu j = { s.clu j with mem := (t.clu j).mem, ddone := (s.clu j).ddone || decide (j = cl.toNat) })
      ∧ (let base := (s.nums q.ctx.toNat).censusBase.toNat
         Untouched s t ((dDst i, r.1.length) :: auxOf i r.2.1.length ++ [(.hbm base, if base = 0 then 0 else 4096)]))
      ∧ NotesOnly { s with cls := t.cls, hbm := t.hbm, host := t.host, census := t.census } t := by
  intro i r t
  have done : SameMems (s.spilled q r) t := dmaDone_mems _ _
  have quietMems (quiet : dEnc i = 1 ∨ (s.nums q.ctx.toNat).censusBase = 0) : SameMems (s.spillStored q r) (s.spilled q r) :=
    spilled_mems s q r (quiet.imp_left fun h => spillEnc_silent (by omega) _)
  refine ⟨fun plain => ?plain, fun quiet => ⟨fun _ => ?aux, fun a b dst beside order => ?apart⟩, spilledDone_clu s q r cl,
    fun y out => ?untouched, spilled_memories s q r cl⟩
  case plain =>
    have silent := spilled_silent s q r (spillEnc_silent (by omega) _)
    have nothing : r.2.1 = [] := spillEnc_plain plain _
    obtain ⟨td, free, census⟩ := spillStored_same s q r
    have lands : Lands s (s.spilled q r) (dDst i) r.1 := by
      rw [silent]
      unfold State.spillStored
      rw [nothing]
      exact (locWrite_lands _ _ _).kept (locWrite_nil _ _)
    refine ⟨lands.kept done, spilledDone_clu s q r cl, ?_⟩
    show NotesOnly _ ((s.spilled q r).dmaDone cl)
    rw [show t = (s.spillStored q r).dmaDone cl from congrArg (State.dmaDone · cl) silent, silent]
    exact ((spillStored_dataOnly s q r).trans (dmaDone_dataOnly _ cl)).transfer td free census
  case aux =>
    rw [done.locRead, (quietMems quiet).locRead]
    exact (locWrite_lands _ _ _).1
  case apart =>
    have hbm : t.hbm = (s.hbm.writeBytes a r.1).writeBytes b r.2.1 := by
      refine (done.2.1.trans (quietMems quiet).2.1).trans ?_
      unfold State.spillStored
      rw [dst, beside]
      rfl
    rw [hbm]
    constructor
    · rw [Mem.readBytes_congr fun p _ high => Mem.read_writeBytes_out (.inl (by omega)), Mem.readBytes_writeBytes]
    · intro p outA outB
      rw [Mem.read_writeBytes_out (by omega), Mem.read_writeBytes_out (by omega)]
  case untouched =>
    rw [done.locRead]
    refine spilled_elsewhere s q r (out (dDst i, r.1.length) (by simp)) (fun k hk => ?_) fun base k hk => ?_
    · by_cases plain : dEnc i = 0
      · rw [show r.2.1 = [] from spillEnc_plain plain _] at hk
        exact absurd hk (Nat.not_lt_zero k)
      · exact out (dAux i, r.2.1.length) (by simp [auxOf, plain]) k hk
    · have area : (s.nums q.ctx.toNat).censusBase.toNat ≠ 0 := fun z => base (BitVec.eq_of_toNat_eq z)
      exact out (.hbm _, if (s.nums q.ctx.toNat).censusBase.toNat = 0 then 0 else 4096) (by simp) k (by rwa [if_neg area])

/-- The source of a transfer gives as many bytes as the transfer has. -/
@[simp] theorem locRead_length (s : State) (l : Loc) (n : Nat) : (s.locRead l n).length = n := by
  cases l <;> exact Mem.readBytes_length _ _ _

/-- The stacks, the cluster and the memory once a push has taken a trailer and the memory is `m` at the end. -/
theorem pushed_stacks {t u : State} {cl : ClId} {c i taken : Nat} {m : Mem}
    (own : t.clu cl.toNat = { (u.clu cl.toNat).pushed c i taken m with ddone := true }) :
    let stk := fun (w : State) (j : Nat) => SMap.get {} ((w.clu cl.toNat).pc c).vault j
    stk t i = { top := (stk u i).top + taken, recs := (stk u i).recs + 1 } ∧ SameBut stk i u t
      ∧ (t.clu cl.toNat).mem = m
      ∧ t.clu cl.toNat = { u.clu cl.toNat with mem := (t.clu cl.toNat).mem, per := (t.clu cl.toNat).per, ddone := true } := by
  intro stk
  have stack (j : Nat) : stk t j = if j = i then { top := (stk u i).top + taken, recs := (stk u i).recs + 1 } else stk u j := by
    show SMap.get {} ((t.clu cl.toNat).pc c).vault j = _
    rw [own]
    show SMap.get {} (((u.clu cl.toNat).pushed c i taken m).pc c).vault j = _
    rw [Cluster.pushed_pc, CtxCl.pushed_stack]
  refine ⟨(stack i).trans (if_pos rfl), fun j hj => (stack j).trans (if_neg hj), by rw [own]; rfl, by rw [own]; rfl⟩

/-- What a pop leaves: the record's bytes at its destination, and one record less (R147). -/
theorem vaultPop_leaves (s : State) (cl : ClId) (q : QE) (l : Loc) (n : Nat) :
    let old := SMap.get {} ((s.clu cl.toNat).pc q.ctx.toNat).vault (dStack q.img)
    let t := ((s.locWrite (dDst q.img) (s.locRead l n)).popRecord q.ctx cl (dStack q.img) n l.inClu).dmaDone cl
    Lands s t (dDst q.img) (s.locRead l n) ∧ (t.clu cl.toNat).ddone = true
      ∧ (SMap.get {} ((t.clu cl.toNat).pc q.ctx.toNat).vault (dStack q.img)).recs = old.recs - 1
      ∧ (∀ a, l = .clu cl a → (SMap.get {} ((t.clu cl.toNat).pc q.ctx.toNat).vault (dStack q.img)).top = old.top - n)
      ∧ (∀ j, t.clu j = { s.clu j with
            mem := (t.clu j).mem, per := (t.clu j).per, ddone := (s.clu j).ddone || decide (j = cl.toNat) })
      ∧ NotesOnly { s with cls := t.cls, hbm := t.hbm, host := t.host } t := by
  intro old t
  have stack : SMap.get {} ((t.clu cl.toNat).pc q.ctx.toNat).vault (dStack q.img)
      = { top := if l.inClu then old.top - n else old.top, recs := old.recs - 1 } := by
    have popped := popRecord_stack (s.locWrite (dDst q.img) (s.locRead l n)) q.ctx cl (dStack q.img) n l.inClu
    rw [locWrite_clu] at popped
    refine Eq.trans ?_ popped
    show SMap.get {} (((State.dmaDone _ cl).clu cl.toNat).pc q.ctx.toNat).vault (dStack q.img) = _
    rw [dmaDone_clu]
    rfl
  obtain ⟨td, free, census⟩ := locWrite_same s (dDst q.img) (s.locRead l n)
  refine ⟨((locWrite_lands _ _ _).kept (popRecord_mems _ _ _ _ _ _)).kept (dmaDone_mems _ _), ?_, ?_, ?_, fun j => ?_,
    ((locWrite_dataOnly s _ _).trans (modCl_dataOnly _ _ _ |>.trans (dmaDone_dataOnly _ cl))).transfer td free census⟩
  · rw [dmaDone_clu]
    simp
  · rw [stack]
  · rintro a rfl
    rw [stack]
    rfl
  · rw [dmaDone_clu, popRecord_clu, locWrite_clu]

/-- Settles O55, command by command. -/
theorem transfersMoveExactBytes : Obligations.TransfersMoveExactBytes := by
  unfold Obligations.TransfersMoveExactBytes
  refine ⟨?copy, ?transpose, fun fmt r c i j bs _ hi hj => codeAt_transposed fmt bs hi hj, ?spillOut, ?plane, ?spillIn, ?push,
    ?popEmpty, ?pop, ?load⟩
  case copy =>
    intro cl h q s u i head
    obtain ⟨-, resident⟩ := dmaHead_ready head
    refine ⟨fun here read write free open_ => .of_transfer (copy_within head here) read write free open_,
      fun e b bad => ?_, fun p dt away read free => ?_⟩
    · cases away : bit (fld i 0x28 31 0) 12 with
      | false =>
        rw [away] at bad
        exact .of_placeFault (copy_within head away) resident bad
      | true =>
        rw [away] at bad
        exact ⟨_, (copy_away head away).trans (copyRemote_placeFault bad), faultAt_faultedAt _ _ _ resident⟩
    · intro dev other route
      obtain ⟨ps, queue, payloads, each, rest⟩ :=
        copyRemote_leaves (cl := cl) (chunks (u.locRead (dSrc i) (dLen i))) other route
      refine ⟨_, (copy_away head away).trans (copyRemote_sends read free), ps, queue, ?_, fun k hk => ?_, rest⟩
      · rw [payloads]
        exact chunks_flatten _
      · obtain ⟨ty, dst, src⟩ := each k hk
        refine ⟨ty, dst, src, chunks_length_le (bs := u.locRead (dSrc i) (dLen i)) ?_⟩
        rw [← payloads]
        exact List.mem_map_of_mem hk
  case transpose =>
    intro cl h q s u i n head fmt
    obtain ⟨-, resident⟩ := dmaHead_ready head
    exact ⟨fun e b bad => .of_placeFault (transpose_runs head fmt) resident bad,
      fun read write free open_ => .of_transfer (transpose_runs head fmt) read write free open_⟩
  case spillOut =>
    intro cl q s head i r aux fmt
    obtain ⟨-, resident⟩ := dmaHead_ready head
    refine ⟨fun e b bad => .of_placeFault (spillOut_runs head fmt) resident ?_, fun read write auxOk free open_ => ?_⟩
    · simpa [dmaPlaces, aux] using bad
    refine ⟨_, (spillOut_runs head fmt).trans (dmaRun_runs _ _ _ _ _ _ (List.forall_mem_singleton.2 read)
      (List.forall_mem_cons.2 ⟨write, fun a ha => (auxOk a ha).1⟩) (List.forall_mem_singleton.2 free)
      (List.forall_mem_cons.2 ⟨open_, fun a ha => (auxOk a ha).2⟩)), ?_⟩
    exact spillOut_leaves cl
  case plane =>
    intro fmt l hf len h
    interval_cases fmt <;> exact planeDec_planeEnc (by decide) (by decide) len h
  case spillIn =>
    intro cl h q s u i n head fmt
    obtain ⟨-, resident⟩ := dmaHead_ready head
    refine ⟨fun e b bad => .of_placeFault (spillIn_runs head fmt) resident ?_, fun auxOk read write free open_ => ?_⟩
    · simpa [dmaPlaces] using bad
    refine ⟨_, (spillIn_runs head fmt).trans (dmaRun_runs _ _ _ _ _ _ ?_ (List.forall_mem_singleton.2 write) ?_
      (List.forall_mem_singleton.2 open_)), locWrite_dmaDone u cl _ _⟩
    · exact List.forall_mem_append.2 ⟨fun a ha => (auxOk a ha).1, List.forall_mem_singleton.2 read⟩
    · exact List.forall_mem_append.2 ⟨fun a ha => (auxOk a ha).2, List.forall_mem_singleton.2 free⟩
  case push =>
    intro cl h q d s u i st x stk head whole desc
    obtain ⟨-, resident⟩ := dmaHead_ready head
    refine ⟨fun none => ⟨_, vaultPush_malformed head whole none, faultAt_faultedAt _ _ _ resident⟩,
      fun f b sound place => ⟨_, vaultPush_fault head whole sound place, faultAt_faultedAt _ _ _ resident⟩,
      fun a e b place => vaultPush_placeFault head whole resident fun sound => vaultPush_vault head whole sound place,
      fun e b place => vaultPush_placeFault head whole resident fun sound => vaultPush_hbm head whole sound place,
      fun read free => ⟨fun a place write => ?_, ?_⟩⟩
    · obtain ⟨t, run, own, only⟩ := vaultPush_into_vault head whole desc read free place write
      obtain ⟨size, stack, room, rfl⟩ := pushTo_vault desc place
      have apart : d.vaultData (dStack i) + st.top + dLen i ≤ x :=
        (Nat.add_assoc _ _ _).trans_le ((Nat.add_le_add_left room _).trans (vaultData_before_trailer size stack _ _))
      obtain ⟨top, others, mem, frame⟩ := pushed_stacks own
      obtain ⟨tag, length⟩ := trailer_reads (u.clu cl.toNat).mem x (BitVec.ofNat 32 (fld i 0x28 31 0)) 0 (dLen_lt i)
      have data : (u.locRead (dSrc i) (dLen i)).length = dLen i := locRead_length _ _ _
      have trailer (b : Nat) (low : x ≤ b) : (t.clu cl.toNat).mem.read b = _ :=
        (congrArg (Mem.read · b) mem).trans (Mem.read_writeBytes_out (.inr (by rw [data]; exact apart.trans low)))
      refine ⟨t, run, ?_, ?_, ?_, top, others, fun p outData outTrailer => ?_, frame, only⟩
      · have stands := Mem.readBytes_writeBytes
          ((u.clu cl.toNat).trailed q.ctx.toNat d (dStack i) (BitVec.ofNat 32 (fld i 0x28 31 0)) (dLen i) 0)
          (d.vaultData (dStack i) + st.top) (u.locRead (dSrc i) (dLen i))
        rw [data] at stands
        rw [mem]
        exact stands
      · exact (Mem.read32_congr fun b low _ => trailer b low).trans tag
      · exact (Mem.readN_congr fun b low _ => trailer b (by omega)).trans length
      · rw [mem, Mem.read_writeBytes_out (by rw [data]; omega)]
        exact Cluster.read_trailed_out (show p < x ∨ x + 32 ≤ p by omega)
    · intro fb place write open_
      obtain ⟨t, run, own, clusters, hbm, ctx, ctxs, only⟩ := vaultPush_to_hbm head whole desc read free place write open_
      obtain ⟨top, others, mem, frame⟩ := pushed_stacks own
      obtain ⟨tag, length⟩ := trailer_reads (u.clu cl.toNat).mem x (BitVec.ofNat 32 (fld i 0x28 31 0)) fb (dLen_lt i)
      have data : (u.locRead (dSrc i) (dLen i)).length = dLen i := locRead_length _ _ _
      have stands := Mem.readBytes_writeBytes u.hbm fb (u.locRead (dSrc i) (dLen i))
      have bytes := writeBytes_but u.hbm fb (u.locRead (dSrc i) (dLen i))
      rw [data] at stands bytes
      refine ⟨t, run, by rw [hbm]; exact stands, by rw [hbm]; exact bytes, ?_, ?_, top, others, fun p out => ?_, clusters, frame, ctx,
        ctxs, only⟩
      · rw [mem]; exact tag
      · rw [mem]; exact length
      · rw [mem]; exact Cluster.read_trailed_out (show p < x ∨ x + 32 ≤ p by omega)
  case popEmpty =>
    intro cl q d s head desc vault empty
    have alive := alive_resident (dmaHead_ready head).2
    exact ⟨_, vaultPop_empty head desc vault (topRecord_empty empty), faultCmd_faulted _ _ _ _ _ alive,
      faultCtx_mem _ _ _ _ _ _ _ alive⟩
  case pop =>
    intro cl q d tag n l s head desc vault top
    obtain ⟨-, resident⟩ := dmaHead_ready head
    refine ⟨fun tagged read write free open_ => ?_,
      fun e b tagged bad => .of_placeFault (vaultPop_runs head desc vault top tagged) resident bad,
      fun tagged => ⟨_, vaultPop_mistagged head desc vault top tagged, faultCmd_faulted _ _ _ _ _ (alive_resident resident)⟩⟩
    refine ⟨_, (vaultPop_runs head desc vault top tagged).trans (dmaRun_runs _ _ _ _ _ _ (List.forall_mem_singleton.2 read)
      (List.forall_mem_singleton.2 write) (List.forall_mem_singleton.2 free) (List.forall_mem_singleton.2 open_)), ?_⟩
    exact vaultPop_leaves s cl q l n
  case load =>
    intro cl h q s u i pages head
    obtain ⟨-, resident⟩ := dmaHead_ready head
    refine ⟨fun e b fits bad => .of_placeFault (tellerLoad_runs head fits) resident bad, fun fits read free => ?_,
      fun past => ⟨_, tellerLoad_past head past, faultCmd_faulted _ _ _ _ _ (alive_resident resident)⟩⟩
    refine ⟨_, (tellerLoad_runs head fits).trans (dmaRun_runs _ _ _ _ _ _ (List.forall_mem_singleton.2 read) nofun
      (List.forall_mem_singleton.2 free) nofun), ?_⟩
    refine ⟨fun short => ?_, by rw [modCl_dmaDone_own], fun j hj => modCl_dmaDone_ne _ _ hj, rfl⟩
    · have bytes := imemByte_loadPages (u.clu cl.toNat).imem pages (fld i 0x28 31 0) (bs := u.locRead (dSrc i) (dLen i))
        (by rwa [locRead_length])
      rw [modCl_dmaDone_own]
      simp only [locRead_length] at bytes
      refine ⟨fun b hb => (bytes _).trans ?_, fun p out => (bytes p).trans (if_neg out)⟩
      rw [if_pos ⟨Nat.le_add_right _ _, Nat.add_lt_add_left hb _⟩, Nat.add_sub_cancel_left]

end Sys2Proof.Machine
end
section
/-! SUPPORT. The matrix queue: a command at its turn begins, and its tiles accumulate (R51 to R54, R72, Table MX.5). -/

namespace Sys2Proof.Machine

/-! ### Words -/

/-- A value after smaller keys. -/
theorem SMap.get_concat {α : Type} {d : α} (l : SMap α) {n : Nat} (v : α) (below : ∀ p ∈ l, p.1 < n) (j : Nat) :
    SMap.get d (l ++ [(n, v)]) j = if j = n then v else SMap.get d l j := by
  induction l with
  | nil => simp only [List.nil_append, SMap.get]; grind
  | cons p l ih =>
    obtain ⟨head, tail⟩ := List.forall_mem_cons.1 below
    simp only [List.cons_append, SMap.get]
    rw [ih tail]
    grind

theorem SMap.get_ofFn {α : Type} [DecidableEq α] (d : α) (n : Nat) (f : Nat → α) (j : Nat) :
    SMap.get d (SMap.ofFn d n f) j = if j < n then f j else d := by
  induction n with
  | zero => rfl
  | succ n ih =>
    have below : ∀ p ∈ SMap.ofFn d n f, p.1 < n := by
      intro p hp
      obtain ⟨i, hi, he⟩ := List.mem_filterMap.1 hp
      split at he
      · cases he
      · cases he; exact List.mem_range.1 hi
    have last : SMap.ofFn d (n + 1) f = SMap.ofFn d n f ++ if f n = d then [] else [(n, f n)] := by
      unfold SMap.ofFn
      rw [List.range_succ, List.filterMap_append]
      congr 1
      by_cases h : f n = d
      · simp [h]
      · simp [h]
    rw [last]
    by_cases h : f n = d
    · rw [if_pos h, List.append_nil, ih]
      grind
    · rw [if_neg h, SMap.get_concat _ _ below, ih]
      grind

theorem Words.get_ofFn {n j : Nat} (f : Nat → W32) (h : j < n) : Words.get (Words.ofFn n f) j = f j :=
  (SMap.get_ofFn 0 n f j).trans (if_pos h)

/-! ### A cluster alone changes -/

theorem ClusterOnly.refl (cl : ClId) (s : State) : ClusterOnly cl s s := ⟨fun _ _ => rfl, rfl⟩

theorem ClusterOnly.trans {cl : ClId} {s t u : State} (h : ClusterOnly cl s t) (k : ClusterOnly cl t u) : ClusterOnly cl s u := by
  obtain ⟨others, frame⟩ := h
  obtain ⟨others', frame'⟩ := k
  exact ⟨fun j hj => (others' j hj).trans (others j hj), by rw [frame', frame]⟩

theorem modCl_clusterOnly (cl : ClId) (s : State) (f : Cluster → Cluster) : ClusterOnly cl s (s.modCl cl.toNat f) :=
  ⟨fun _ hj => State.modCl_ne _ _ hj, rfl⟩

@[simp] theorem modCl_ctx (s : State) (i : Nat) (f : Cluster → Cluster) (c : Nat) : (s.modCl i f).ctx c = s.ctx c := rfl

theorem ClusterOnly.ctx {cl : ClId} {s t : State} (h : ClusterOnly cl s t) (c : Nat) : t.ctx c = s.ctx c := by
  rw [h.2]; rfl

/-! ### The run of a command (R58) -/

@[simp] theorem setRun_clu (s : State) (i k : Nat) (r : MxRun) :
    (s.setRun i k r).clu i = { s.clu i with mq := (s.clu i).mq.set k r } := State.modCl_same ..

theorem setRun_clu_ne (s : State) {i j : Nat} (k : Nat) (r : MxRun) (h : j ≠ i) : (s.setRun i k r).clu j = s.clu j :=
  State.modCl_ne _ _ h

@[simp] theorem setRun_ctx (s : State) (i k : Nat) (r : MxRun) (c : Nat) : (s.setRun i k r).ctx c = s.ctx c := rfl

theorem setRun_only (s : State) (cl : ClId) (k : Nat) (r : MxRun) : ClusterOnly cl s (s.setRun cl.toNat k r) :=
  modCl_clusterOnly cl s _

/-- A command once its first beat has begun. -/
def MxRun.begun (r : MxRun) : MxRun := { r with started := true, waiting := false, done := decide ((Mx.of r.q.img).tiles = 0) }

/-- A command that may take its first beat: at its turn with nothing held against it, or at the end of its wait. -/
def BeginsAt (j : Instr) (cl : ClId) (k : Nat) (r : MxRun) (s : State) : Prop :=
  (j = .matmul cl k ∧ s.clOpen cl.toNat = true ∧ r.started = false ∧ r.waiting = false ∧ s.touchPending r.q = false
      ∧ s.vaultBusy r.q = false ∧ s.mxCheck r.q = none)
    ∨ (j = .matmulEntryWaitEnd cl k ∧ s.clOpen cl.toNat = true ∧ r.waiting = true)

section
variable {cl : ClId} {k : Nat} {r : MxRun} {s : State} (hr : (s.clu cl.toNat).mq[k]? = some r)
include hr

/-- MATMUL at a command that has not begun. -/
theorem matmul_first (isIn : (s.ctx r.q.ctx.toNat).st = .resident) (undone : r.done = false) (open_ : s.clOpen cl.toNat = true)
    (fresh : r.started = false) (awake : r.waiting = false) (touch : s.touchPending r.q = false) (vault : s.vaultBusy r.q = false) :
    exec (.matmul cl k) s = match s.mxCheck r.q with
      | some f => .next (s.faultAt r.q f (mxUnit r.q.img f.1))
      | none => if s.entryHeld cl.toNat k r then .next (s.setRun cl.toNat k { r with waiting := true })
        else .next (s.mxBegin cl.toNat k r) := by
  show execMatmul cl k s = _
  unfold execMatmul State.isIn
  rw [hr]
  dsimp only
  rw [isIn, undone, open_, awake, fresh, touch, vault]
  rfl

/-- MATMUL at a command that has begun: its next tile. -/
theorem matmul_tile (isIn : (s.ctx r.q.ctx.toNat).st = .resident) (undone : r.done = false) (open_ : s.clOpen cl.toNat = true)
    (begun : r.started = true) (awake : r.waiting = false) (more : r.tile < (Mx.of r.q.img).tiles)
    (slot : (Mx.of r.q.img).slotFree r r.tile = true) :
    exec (.matmul cl k) s = .next (s.mxTile cl.toNat k r) := by
  show execMatmul cl k s = _
  unfold execMatmul State.isIn
  rw [hr]
  dsimp only
  rw [isIn, undone, open_, awake, begun, slot, decide_eq_true more]
  rfl

theorem begins {j : Instr} (isIn : (s.ctx r.q.ctx.toNat).st = .resident) (undone : r.done = false) (at_ : BeginsAt j cl k r s)
    (free : s.entryHeld cl.toNat k r = false) : exec j s = .next (s.mxBegin cl.toNat k r) := by
  obtain ⟨rfl, open_, fresh, awake, touch, vault, sound⟩ | ⟨rfl, open_, waits⟩ := at_
  · rw [matmul_first hr isIn undone open_ fresh awake touch vault, sound]
    dsimp only
    rw [free]
    rfl
  · show execMatmulEntryWaitEnd cl k s = _
    unfold execMatmulEntryWaitEnd State.isIn
    rw [hr]
    dsimp only
    rw [isIn, open_, waits, free]
    rfl

end

/-! ### The first beat (R51, R72, R147) -/

/-- Between `s` and `u` a command's tile is in the Till: as it was for a native command, found or placed for a legacy
one. -/
def TillTaken (s u : State) (cl : ClId) (till : SMap TillE) : Prop :=
  u.clu cl.toNat = { s.clu cl.toNat with till := till } ∧ ClusterOnly cl s u

theorem tileTake_ok {s : State} {cl : ClId} {q : QE} {till : SMap TillE}
    (native : s.legacy q = false → till = (s.clu cl.toNat).till)
    (legacy : s.legacy q = true → ∃ d, (s.ctx q.ctx.toNat).desc (cCluster q.img) = some d
      ∧ legacyTake (s.clu cl.toNat).till d q.img = .ok till) :
    ∃ u, s.tileTake cl.toNat q = .ok u ∧ TillTaken s u cl till := by
  unfold State.tileTake
  cases h : s.legacy q with
  | false => exact ⟨s, rfl, by rw [native h], .refl cl s⟩
  | true =>
    obtain ⟨d, desc, take⟩ := legacy h
    rw [desc]
    dsimp only
    rw [take]
    exact ⟨_, rfl, State.modCl_same .., modCl_clusterOnly ..⟩

theorem tileTake_error {s : State} {cl : ClId} {q : QE} {d : CluDesc} {f : U16} (h : s.legacy q = true)
    (desc : (s.ctx q.ctx.toNat).desc (cCluster q.img) = some d) (bad : legacyTake (s.clu cl.toNat).till d q.img = .error f) :
    s.tileTake cl.toNat q = .error f := by
  unfold State.tileTake
  rw [h, desc]
  dsimp only
  rw [bad]
  rfl

section
variable {s u : State} {cl : ClId} {k : Nat} {r : MxRun} {till : SMap TillE} (take : s.tileTake cl.toNat r.q = .ok u)
include take

theorem mxBegin_plain (none : vaultStackOf r.q.img = none) : s.mxBegin cl.toNat k r = u.setRun cl.toNat k r.begun := by
  unfold State.mxBegin
  dsimp only
  rw [take, none]
  rfl

theorem mxBegin_vault {i a : Nat} (stack : vaultStackOf r.q.img = some i)
    (at_ : s.pushTo r.q.ctx (cCluster r.q.img) i (Mx.of r.q.img).recordLen ((Mx.of r.q.img).w28 % 2 ^ 25 * 65536) = .vault a) :
    s.mxBegin cl.toNat k r = (u.pushRecord r.q.ctx (cCluster r.q.img) i (Mx.of r.q.img).w24 (Mx.of r.q.img).recordLen 0 (.vault a)).setRun
      cl.toNat k { r.begun with vaultAt := some a } := by
  unfold State.mxBegin
  dsimp only
  rw [take, stack]
  dsimp only
  rw [at_]
  rfl

theorem mxBegin_hbm {i : Nat} (stack : vaultStackOf r.q.img = some i)
    (at_ : s.pushTo r.q.ctx (cCluster r.q.img) i (Mx.of r.q.img).recordLen ((Mx.of r.q.img).w28 % 2 ^ 25 * 65536) = .hbm) :
    s.mxBegin cl.toNat k r = (u.pushRecord r.q.ctx (cCluster r.q.img) i (Mx.of r.q.img).w24 (Mx.of r.q.img).recordLen
      ((Mx.of r.q.img).w28 % 2 ^ 25 * 65536) .hbm).setRun cl.toNat k r.begun := by
  unfold State.mxBegin
  dsimp only
  rw [take, stack]
  dsimp only
  rw [at_]
  rfl

theorem mxBegin_fault {i : Nat} {f : U16} {a : Nat} (stack : vaultStackOf r.q.img = some i)
    (at_ : s.pushTo r.q.ctx (cCluster r.q.img) i (Mx.of r.q.img).recordLen ((Mx.of r.q.img).w28 % 2 ^ 25 * 65536) = .fault f a) :
    s.mxBegin cl.toNat k r = s.faultAt r.q (f, a) (clUnit r.q.img) := by
  unfold State.mxBegin
  dsimp only
  rw [take, stack]
  dsimp only
  rw [at_]

end

theorem mxBegin_error {s : State} {cl : ClId} {k : Nat} {r : MxRun} {f : U16} (take : s.tileTake cl.toNat r.q = .error f) :
    s.mxBegin cl.toNat k r = s.faultCmd r.q f 0 (clUnit r.q.img) := by
  unfold State.mxBegin
  dsimp only
  rw [take]

/-- A command without a Vault record begins. -/
theorem TillTaken.begins {s u : State} {cl : ClId} {till : SMap TillE} (h : TillTaken s u cl till) (k : Nat) (r : MxRun) :
    (u.setRun cl.toNat k r).clu cl.toNat = { s.clu cl.toNat with till := till, mq := (s.clu cl.toNat).mq.set k r }
      ∧ ClusterOnly cl s (u.setRun cl.toNat k r) := by
  obtain ⟨own, only⟩ := h
  exact ⟨by rw [setRun_clu, own], only.trans (setRun_only u cl k r)⟩

/-- A cluster's Till, queue and record stack once a command with a record begins. -/
theorem Cluster.pushed_begun (x : Cluster) (till : SMap TillE) (c i taken : Nat) (m : Mem) (k : Nat) (r : MxRun) :
    let y : Cluster := { x with till := till }
    let z : Cluster := { y.pushed c i taken m with mq := (y.pushed c i taken m).mq.set k r }
    z.till = till ∧ z.mq = x.mq.set k r ∧ (SMap.get {} (z.pc c).vault i).recs = (SMap.get {} (x.pc c).vault i).recs + 1 := by
  refine ⟨rfl, rfl, ?_⟩
  have stack := CtxCl.pushed_stack (x.pc c) i taken i
  rw [← Cluster.pushed_pc x c i taken m, if_pos rfl] at stack
  exact congrArg VStack.recs stack

section
variable {s u : State} {cl : ClId} {c : CtxId} {d : CluDesc} {till : SMap TillE} (h : TillTaken s u cl till)
  (desc : (s.ctx c.toNat).desc cl = some d) (k : Nat) (r : MxRun) (i : Nat) (tag : W32) (len : Nat)
include h desc

/-- A command with a record in the Vault begins (R147). -/
theorem TillTaken.begins_vault (a : Nat) :
    let t := (u.pushRecord c cl i tag len 0 (.vault a)).setRun cl.toNat k r
    (t.clu cl.toNat).till = till ∧ (t.clu cl.toNat).mq = (s.clu cl.toNat).mq.set k r
      ∧ (SMap.get {} ((t.clu cl.toNat).pc c.toNat).vault i).recs = (SMap.get {} ((s.clu cl.toNat).pc c.toNat).vault i).recs + 1
      ∧ ClusterOnly cl s t := by
  obtain ⟨own, only⟩ := h
  dsimp only
  rw [pushRecord_vault (by rw [only.ctx]; exact desc) i tag len 0 a, setRun_clu, State.modCl_same, own]
  obtain ⟨same, queue, stack⟩ := (s.clu cl.toNat).pushed_begun till c.toNat i len (Cluster.trailed _ c.toNat d i tag len 0) k r
  exact ⟨same, queue, stack, only.trans ((modCl_clusterOnly ..).trans (setRun_only ..))⟩

/-- A command whose record goes to the fallback begins: the record is counted (R148). -/
theorem TillTaken.begins_hbm (fallback : Nat) :
    let t := (u.pushRecord c cl i tag len fallback .hbm).setRun cl.toNat k r
    (t.clu cl.toNat).till = till ∧ (t.clu cl.toNat).mq = (s.clu cl.toNat).mq.set k r
      ∧ (SMap.get {} ((t.clu cl.toNat).pc c.toNat).vault i).recs = (SMap.get {} ((s.clu cl.toNat).pc c.toNat).vault i).recs + 1
      ∧ t.ctx c.toNat = { s.ctx c.toNat with vaultSpills := satInc (s.ctx c.toNat).vaultSpills }
      ∧ SameBut State.ctx c.toNat s t ∧ SameBut State.clu cl.toNat s t ∧ t = { s with cls := t.cls, ctxs := t.ctxs } := by
  obtain ⟨own, others, frame⟩ := h
  have ctx (e : Nat) : u.ctx e = s.ctx e := ClusterOnly.ctx ⟨others, frame⟩ e
  dsimp only
  rw [pushRecord_hbm (by rw [ctx]; exact desc) i tag len fallback, setRun_clu, State.spillCounted_clu, State.modCl_same, own]
  obtain ⟨same, queue, stack⟩ := (s.clu cl.toNat).pushed_begun till c.toNat i 0 (Cluster.trailed _ c.toNat d i tag len fallback) k r
  refine ⟨same, queue, stack, ?_, fun e he => ?_, fun j hj => ?_, ?_⟩
  · rw [setRun_ctx, State.spillCounted_ctx, modCl_ctx, ctx]
  · rw [setRun_ctx, State.spillCounted_ctx_ne _ he, modCl_ctx, ctx]
  · rw [setRun_clu_ne _ _ _ hj, State.spillCounted_clu, State.modCl_ne _ _ hj, others j hj]
  · rw [frame]; rfl

end

end Sys2Proof.Machine
end
section
/-! SUPPORT. The end of a matrix command's tiles: what a command that settles leaves of its Till entries, and one tile
accumulated (R53 to R57, R59, R72). -/

namespace Sys2Proof.Machine

/-! ### Entries that are let go (R59, R72) -/

/-- A cluster with entries `b` to `b + n - 1` empty. -/
def Cluster.freeRun (y : Cluster) (b n : Nat) : Cluster := (List.range n).foldl (fun y j => y.free (b + j)) y

theorem Cluster.freeRun_succ (y : Cluster) (b n : Nat) : y.freeRun b (n + 1) = (y.freeRun b n).free (b + n) := by
  unfold Cluster.freeRun
  rw [List.range_succ, List.foldl_append]
  rfl

theorem Cluster.freeRun_frame (y : Cluster) (b n : Nat) : y.freeRun b n = { y with till := (y.freeRun b n).till } := by
  induction n with
  | zero => rfl
  | succ n ih => rw [Cluster.freeRun_succ, ih]; rfl

theorem Cluster.free_till (y : Cluster) (e i : Nat) :
    SMap.get {} (y.free e).till i = if i = e then {} else SMap.get {} y.till i := SMap.get_set ..

theorem Cluster.freeRun_till (y : Cluster) (b n i : Nat) :
    SMap.get {} (y.freeRun b n).till i = if b ≤ i ∧ i < b + n then {} else SMap.get {} y.till i := by
  induction n with
  | zero => exact (if_neg (by omega)).symm
  | succ n ih =>
    rw [Cluster.freeRun_succ, Cluster.free_till, ih]
    grind

/-! ### A legacy tile's place (R72) -/

/-- Entry `i` is the head of the tile with handle `h`. -/
def TillE.heads (e : TillE) (h : Nat) : Bool := e.cls != 0 && e.head && e.handle.toNat == h

/-- The tile of a handle is the first of the window that has it. -/
theorem legacyAt_eq_some {till : SMap TillE} {d : CluDesc} {h b : Nat} :
    legacyAt till d h = some b ↔ ∃ n < 2 ^ d.tillLog, b = d.tillBase + n ∧ (SMap.get {} till b).heads h = true
      ∧ ∀ m < n, (SMap.get {} till (d.tillBase + m)).heads h = false := by
  have find : legacyAt till d h = ((List.range (2 ^ d.tillLog)).map (d.tillBase + ·)).find? fun i => (SMap.get {} till i).heads h := rfl
  rw [find, List.find?_map, Option.map_eq_some_iff]
  constructor
  · rintro ⟨n, found, rfl⟩
    obtain ⟨heads, within, none⟩ := List.find?_range_eq_some.1 found
    exact ⟨n, List.mem_range.1 within, rfl, heads, fun m hm => by simpa using none m hm⟩
  · rintro ⟨n, within, rfl, heads, none⟩
    exact ⟨n, List.find?_range_eq_some.2 ⟨heads, List.mem_range.2 within, fun m hm => by simpa using none m hm⟩, rfl⟩

/-- An entry of the tile changes and stays its head if it was: the tile is found where it was. -/
theorem legacyAt_set {till : SMap TillE} {d : CluDesc} {h b e : Nat} {v : TillE} (found : legacyAt till d h = some b) (le : b ≤ e)
    (heads : (SMap.get {} till e).heads h = true → v.heads h = true) : legacyAt (SMap.set {} till e v) d h = some b := by
  obtain ⟨n, within, rfl, head, none⟩ := legacyAt_eq_some.1 found
  refine legacyAt_eq_some.2 ⟨n, within, rfl, ?_, fun m hm => ?_⟩
  · rw [SMap.get_set]
    split
    · next same => exact heads (same ▸ head)
    · exact head
  · rw [SMap.get_set_ne _ _ (by omega)]
    exact none m hm

theorem entryOf_legacy {s : State} {i b : Nat} {q : QE} {d : CluDesc} (h : s.legacy q = true)
    (desc : (s.ctx q.ctx.toNat).desc (cCluster q.img) = some d) (found : legacyAt (s.clu i).till d (Mx.of q.img).ebase = some b) (j : Nat) :
    s.entryOf i q j = b + if legacyHalf q.img then j / 2 else j := by
  unfold State.entryOf
  dsimp only
  rw [h, desc, if_pos rfl, Option.bind_some, found]
  rfl

/-! ### A command settles -/

/-- All of a command's tiles are done. -/
def MxRun.fin (r : MxRun) : Bool :=
  if (Mx.of r.q.img).drain = 0 then decide ((Mx.of r.q.img).tiles ≤ r.tile) else decide ((Mx.of r.q.img).tiles ≤ r.acked)

/-- A command marked done when all its tiles are. -/
def MxRun.settled (r : MxRun) : MxRun := { r with done := r.fin }

section
variable {s : State} {i : Nat}

theorem legacyDone_native {q : QE} (h : s.legacy q = false) : s.legacyDone i q = s := by
  unfold State.legacyDone
  rw [h]
  rfl

theorem legacyDone_legacy {q : QE} (h : s.legacy q = true) {b : Nat} {d : CluDesc}
    (desc : (s.ctx q.ctx.toNat).desc (cCluster q.img) = some d) (found : legacyAt (s.clu i).till d (Mx.of q.img).ebase = some b) :
    s.legacyDone i q = if ((Mx.of q.img).frees || (Mx.of q.img).release) = true
      then s.modCl i fun y => y.freeRun b (legacyEnts q.img) else s := by
  unfold State.legacyDone
  dsimp only
  rw [entryOf_legacy h desc found, Nat.zero_div, ite_self, Nat.add_zero, h, Bool.true_and]
  rfl

theorem legacyDone_frame (s : State) (i : Nat) (q : QE) :
    (s.legacyDone i q).clu i = { s.clu i with till := ((s.legacyDone i q).clu i).till } := by
  unfold State.legacyDone
  dsimp only
  split
  · rw [State.modCl_same]
    exact Cluster.freeRun_frame ..
  · rfl

theorem legacyDone_only (s : State) (cl : ClId) (q : QE) : ClusterOnly cl s (s.legacyDone cl.toNat q) := by
  unfold State.legacyDone
  dsimp only
  split
  · exact modCl_clusterOnly ..
  · exact .refl cl s

theorem mxSettle_eq (s : State) (i k : Nat) (r : MxRun) :
    s.mxSettle i k r = if r.fin then (s.setRun i k r.settled).legacyDone i r.q else s.setRun i k r.settled := rfl

theorem mxSettle_only (s : State) (cl : ClId) (k : Nat) (r : MxRun) : ClusterOnly cl s (s.mxSettle cl.toNat k r) := by
  rw [mxSettle_eq]
  split
  · exact (setRun_only ..).trans (legacyDone_only ..)
  · exact setRun_only ..

/-- The cluster of a command that settles: its queue has the command's run, and else only entries of the Till change. -/
theorem mxSettle_clu (s : State) (i k : Nat) (r : MxRun) :
    (s.mxSettle i k r).clu i = { s.clu i with till := ((s.mxSettle i k r).clu i).till, mq := (s.clu i).mq.set k r.settled } := by
  rw [mxSettle_eq]
  split
  · exact (legacyDone_frame ..).trans (by rw [setRun_clu])
  · rw [setRun_clu]

variable (k : Nat) {r : MxRun}

theorem mxSettle_till_native (h : s.legacy r.q = false) : ((s.mxSettle i k r).clu i).till = (s.clu i).till := by
  rw [mxSettle_eq, legacyDone_native (s := s.setRun i k r.settled) h, ite_self, setRun_clu]

theorem mxSettle_till_legacy (h : s.legacy r.q = true) {b : Nat} {d : CluDesc}
    (desc : (s.ctx r.q.ctx.toNat).desc (cCluster r.q.img) = some d) (found : legacyAt (s.clu i).till d (Mx.of r.q.img).ebase = some b)
    (e : Nat) :
    SMap.get {} ((s.mxSettle i k r).clu i).till e
      = if legacyFrees r.q b r.fin e = true then {} else SMap.get {} (s.clu i).till e := by
  rw [mxSettle_eq, legacyDone_legacy (s := s.setRun i k r.settled) h desc (by rw [setRun_clu]; exact found)]
  unfold legacyFrees
  cases r.fin with
  | false => rw [if_neg Bool.false_ne_true, setRun_clu]; rfl
  | true =>
    rw [if_pos rfl, Bool.true_and]
    cases (Mx.of r.q.img).frees || (Mx.of r.q.img).release with
    | false => rw [if_neg Bool.false_ne_true, setRun_clu]; rfl
    | true =>
      rw [if_pos rfl, State.modCl_same, Cluster.freeRun_till, setRun_clu]
      simp only [Bool.true_and, Bool.and_eq_true, decide_eq_true_eq]

end

/-! ### One tile (R53 to R57) -/

/-- A native tile starts from its initial words. -/
theorem runTile_of_init {x : Mx} {m : Mem} {e e0 : TillE} {i : Nat} (h : x.initTile m e i = some e0) :
    ∃ y, x.runTile m e i = some y
      ∧ (∀ j < 256, Words.get y.words j
          = (x.accum m (16 * (x.tileRC i).1 + j / 16) (16 * (x.tileRC i).2 + j % 16) (Words.get e0.words j)).1)
      ∧ y.kcount.toNat = min 131071 (e0.kcount.toNat + x.k) ∧ y.cls = e0.cls
      ∧ y.long = (e0.long || decide (65536 < e0.kcount.toNat + x.k)) := by
  unfold Mx.runTile
  rw [h]
  refine ⟨_, rfl, fun j hj => Words.get_ofFn _ hj, ?_, rfl, rfl⟩
  have small : min 131071 (e0.kcount.toNat + x.k) < 2 ^ 17 := by omega
  exact (BitVec.toNat_ofNat _ _).trans (Nat.mod_eq_of_lt small)

/-- A sub-tile of a legacy command leaves its entry the head of its tile where it was. -/
theorem ztTile_heads {x : Mx} {half : Bool} {rows : Nat} {m : Mem} {e e' : TillE} {n i h : Nat} (run : x.ztTile half rows m e n i = some e')
    (heads : e.heads h = true) : e'.heads h = true := by
  have native : x.cls ≠ 0 := by unfold Mx.cls; split <;> decide
  unfold TillE.heads at *
  unfold Mx.ztTile at run
  dsimp only at run
  obtain ⟨e1, start, rfl⟩ := Option.map_eq_some_iff.1 run
  generalize (if half = true then i / 2 else i) = j at start
  have tags : e1.head = e.head ∧ e1.handle = e.handle ∧ (e1.cls = e.cls ∨ e1.cls ≠ 0) := by
    split at start
    · split at start
      · cases start; exact ⟨rfl, rfl, .inl rfl⟩
      · cases start
    · split at start
      · split at start
        · next class_ =>
          cases start
          split
          · exact ⟨rfl, rfl, .inl rfl⟩
          · refine ⟨rfl, rfl, .inr fun zero => native ?_⟩
            have : (BitVec.ofNat 2 (x.savedTag m n j)) = 0 := zero
            apply BitVec.eq_of_toNat_eq
            rw [← class_, ← zero]
            rfl
        · cases start
      · cases start
        split
        · exact ⟨rfl, rfl, .inl rfl⟩
        · exact ⟨rfl, rfl, .inl rfl⟩
  obtain ⟨head, handle, cls⟩ := tags
  simp only [Bool.and_eq_true, bne_iff_ne, beq_iff_eq] at heads ⊢
  obtain ⟨⟨used, first⟩, named⟩ := heads
  have used' : e1.cls ≠ 0 := cls.elim (fun same => same ▸ used) id
  split
  · exact ⟨⟨used', head.trans first⟩, by rw [← named, ← handle]⟩
  · exact ⟨⟨used', head.trans first⟩, by rw [← named, ← handle]⟩

section
variable {s : State} {cl : ClId} {k : Nat} {r : MxRun}

/-- The state with a tile's entry. -/
def State.tileSet (s : State) (cl e : Nat) (v : TillE) : State := s.modCl cl fun y => { y with till := SMap.set {} y.till e v }

theorem tileSet_clu (s : State) (i e : Nat) (v : TillE) :
    (s.tileSet i e v).clu i = { s.clu i with till := SMap.set {} (s.clu i).till e v } := State.modCl_same ..

theorem tileSet_only (s : State) (cl : ClId) (e : Nat) (v : TillE) : ClusterOnly cl s (s.tileSet cl.toNat e v) := modCl_clusterOnly ..

theorem mxTile_native (h : s.legacy r.q = false) {i : Nat} {v : TillE}
    (run : (Mx.of r.q.img).runTile (s.clu i).mem (SMap.get {} (s.clu i).till (s.entryOf i r.q r.tile)) r.tile = some v) :
    s.mxTile i k r = (s.tileSet i (s.entryOf i r.q r.tile) v).mxSettle i k { r with tile := r.tile + 1 } := by
  unfold State.mxTile
  dsimp only
  rw [h, if_neg Bool.false_ne_true, run]
  rfl

theorem mxTile_legacy (h : s.legacy r.q = true) {i : Nat} {v : TillE}
    (run : (Mx.of r.q.img).ztTile (legacyHalf r.q.img) (legacyRows r.q.img) (s.clu i).mem
      (SMap.get {} (s.clu i).till (s.entryOf i r.q r.tile)) (legacyEnts r.q.img) r.tile = some v) :
    s.mxTile i k r = (s.tileSet i (s.entryOf i r.q r.tile) v).mxSettle i k { r with tile := r.tile + 1 } := by
  unfold State.mxTile
  dsimp only
  rw [h, if_pos rfl, run]
  rfl

/-- A tile's entry set, and its command settled: beside the Till and the queue nothing changes. -/
theorem tileSet_settled (s : State) (cl : ClId) (k e : Nat) (v : TillE) (r : MxRun) :
    let t := (s.tileSet cl.toNat e v).mxSettle cl.toNat k r
    (t.clu cl.toNat).mq = (s.clu cl.toNat).mq.set k r.settled
      ∧ t.clu cl.toNat = { s.clu cl.toNat with till := (t.clu cl.toNat).till, mq := (t.clu cl.toNat).mq } ∧ ClusterOnly cl s t := by
  dsimp only
  have clu := mxSettle_clu (s.tileSet cl.toNat e v) cl.toNat k r
  rw [tileSet_clu] at clu
  have queue : (((s.tileSet cl.toNat e v).mxSettle cl.toNat k r).clu cl.toNat).mq = _ := congrArg Cluster.mq clu
  exact ⟨queue, clu.trans (by rw [queue]), (tileSet_only ..).trans (mxSettle_only ..)⟩

/-- One tile of a native command. -/
theorem tile_native (h : s.legacy r.q = false) (v : TillE) (e i : Nat) :
    SMap.get {} (((s.tileSet cl.toNat e v).mxSettle cl.toNat k r).clu cl.toNat).till i
      = if i = e then v else SMap.get {} (s.clu cl.toNat).till i := by
  rw [mxSettle_till_native (s := s.tileSet cl.toNat e v) k h, tileSet_clu]
  exact SMap.get_set ..

/-- One sub-tile of a legacy command. -/
theorem tile_legacy (h : s.legacy r.q = true) {d : CluDesc} {b : Nat} (desc : (s.ctx r.q.ctx.toNat).desc (cCluster r.q.img) = some d)
    (found : legacyAt (s.clu cl.toNat).till d (Mx.of r.q.img).ebase = some b) {e : Nat} {v : TillE} (le : b ≤ e)
    (heads : (SMap.get {} (s.clu cl.toNat).till e).heads (Mx.of r.q.img).ebase = true → v.heads (Mx.of r.q.img).ebase = true) (i : Nat) :
    SMap.get {} (((s.tileSet cl.toNat e v).mxSettle cl.toNat k r).clu cl.toNat).till i
      = if legacyFrees r.q b r.fin i = true then {} else if i = e then v else SMap.get {} (s.clu cl.toNat).till i := by
  rw [mxSettle_till_legacy (s := s.tileSet cl.toNat e v) k h desc (by rw [tileSet_clu]; exact legacyAt_set found le heads),
    tileSet_clu]
  exact congrArg (ite _ _) (SMap.get_set ..)

end

end Sys2Proof.Machine
end
section
/-! SUPPORT. Drains of matrix tiles: the words of a FULL drain, offers that are acknowledged, and groups that take their
tiles as they drain (R58 to R60, R63, R65, R66, R93). -/

namespace Sys2Proof.Machine

/-! ### FULL drains (R65) -/

/-- The words of an entry as bytes. -/
def wordBytes (n : Nat) (f : Nat → W32) : List Byte := ((List.range n).map fun w => leBytes 4 (f w).toNat).flatten

theorem wordBytes_succ (n : Nat) (f : Nat → W32) : wordBytes (n + 1) f = wordBytes n f ++ leBytes 4 (f n).toNat := by
  unfold wordBytes
  rw [List.range_succ, List.map_append, List.flatten_append, List.map_singleton, List.flatten_singleton]

theorem wordBytes_length (n : Nat) (f : Nat → W32) : (wordBytes n f).length = 4 * n := by
  induction n with
  | zero => rfl
  | succ n ih => rw [wordBytes_succ, List.length_append, ih, leBytes_length]; omega

/-- Words stored as bytes read back. -/
theorem read32_wordBytes (m : Mem) (a : Nat) (f : Nat → W32) {n w : Nat} (h : w < n) :
    (m.writeBytes a (wordBytes n f)).read32 (a + 4 * w) = f w := by
  induction n with
  | zero => exact absurd h (by omega)
  | succ n ih =>
    rw [wordBytes_succ, Mem.writeBytes_append, wordBytes_length, ← Mem.writeN_eq_writeBytes]
    rcases Nat.lt_succ_iff_lt_or_eq.1 h with earlier | rfl
    · rw [← ih earlier]
      exact Mem.read32_congr fun b _ high => Mem.read_writeN_out (.inl (by omega))
    · exact Mem.read32_writeN ..

theorem tagOf_lt (v : TillE) : Mx.tagOf v < 256 ^ 4 := by
  have flag (b : Bool) : b.toNat ≤ 1 := b.toNat_le
  have := flag v.sat; have := flag v.long; have := flag v.nf; have := flag v.head
  have := v.cls.isLt; have := v.kcount.isLt; have := v.handle.isLt
  unfold Mx.tagOf
  omega

/-- A cluster's memory with an entry's words and tag at their places. -/
@[irreducible] def drained (m : Mem) (v : TillE) (a b : Nat) : Mem :=
  Mem.writeN (m.writeBytes a (wordBytes 256 (Words.get v.words))) b 4 (Mx.tagOf v)

theorem drained_reads (m : Mem) (v : TillE) {a b : Nat} (apart : a + 1024 ≤ b) :
    (∀ w < 256, (drained m v a b).read32 (a + 4 * w) = Words.get v.words w) ∧ (drained m v a b).readN b 4 = Mx.tagOf v
      ∧ ∀ p, ¬(a ≤ p ∧ p < a + 1024) → ¬(b ≤ p ∧ p < b + 4) → (drained m v a b).read p = m.read p := by
  unfold drained
  refine ⟨fun w hw => ?_, Mem.readN_writeN _ _ _ _ (tagOf_lt v), fun p outWords outTag => ?_⟩
  · rw [← read32_wordBytes m a (Words.get v.words) hw]
    exact Mem.read32_congr fun p _ high => Mem.read_writeN_out (.inl (by omega))
  · rw [Mem.read_writeN_out (by omega), Mem.read_writeBytes_out (by rw [wordBytes_length]; omega)]

/-- The place of a tile within the entries that a command's layouts count. -/
theorem tile_within {s : State} {q : QE} {i : Nat} (h : i < (Mx.of q.img).tiles) :
    (if (s.legacy q && legacyHalf q.img) = true then i / 2 else i) < s.mxEnts q := by
  unfold State.mxEnts legacyEnts
  cases s.legacy q <;> cases legacyHalf q.img <;> simp only [Bool.false_and, Bool.true_and] <;> grind

/-! ### Offers that are taken (R60, R63, R66) -/

/-- A drain of cluster `cl` changes that cluster, the Census and what the Strongroom notes of its bytes in HBM. -/
def DrainOnly (cl : ClId) (s t : State) : Prop :=
  SameBut State.clu cl.toNat s t ∧ NotesOnly { s with cls := t.cls, census := t.census, hbm := t.hbm } t

theorem DrainOnly.trans {cl : ClId} {s t u : State} (h : DrainOnly cl s t) (k : DrainOnly cl t u) : DrainOnly cl s u := by
  obtain ⟨others, frame⟩ := h
  obtain ⟨others', frame'⟩ := k
  refine ⟨fun j hj => (others' j hj).trans (others j hj), ?_⟩
  unfold NotesOnly at *
  rw [frame', frame]

theorem ClusterOnly.drain {cl : ClId} {s t : State} (h : ClusterOnly cl s t) : DrainOnly cl s t := by
  obtain ⟨others, frame⟩ := h
  refine ⟨others, ?_⟩
  rw [frame]
  rfl

theorem Reports.drain {c : Nat} {s t : State} (h : Reports c s t) (cl : ClId) : DrainOnly cl s t :=
  ⟨fun j _ => h.clu j, h.dataOnly.drain h.td h.free h.host⟩

theorem DrainOnly.dataOnly {cl : ClId} {s t : State} (h : DrainOnly cl s t) : DataOnly s t := by
  obtain ⟨-, frame⟩ := h
  unfold DataOnly NotesOnly at *
  rw [frame]

theorem Mx.outFmt_lt (i : Image) : (Mx.of i).outFmt < 8 ∨ (Mx.of i).cvt = 0 := by
  have : (Mx.of i).cvt < 8 := Nat.mod_lt _ (by decide)
  unfold Mx.outFmt
  split <;> omega

theorem reportOffer_reports (s : State) (q : QE) (o : Offer) : Reports q.ctx.toNat s (s.reportOffer q o) := by
  unfold State.reportOffer
  dsimp only
  split
  · exact .refl _ s
  · next some_ => exact (countFor_reports s q _ ((Mx.outFmt_lt q.img).resolve_right some_)).trans (countFor_reports _ q _ (by decide))

theorem reportOffers_reports (s : State) (q : QE) (os : List Offer) :
    Reports q.ctx.toNat s (os.foldl (fun s o => s.reportOffer q o) s) :=
  foldl_rel (.refl _) .trans (fun s o _ => reportOffer_reports s q o) s

theorem reportOffer_cls (s : State) (m : SMap Cluster) (q : QE) (o : Offer) :
    State.reportOffer { s with cls := m } q o = { s.reportOffer q o with cls := m } := by
  unfold State.reportOffer
  dsimp only
  split
  · rfl
  · exact (congrArg (fun s : State => s.countFor q 7 o.blocks) (countFor_cls s m q _ o.elems)).trans (countFor_cls _ m q 7 o.blocks)

/-- What is reported does not depend on the clusters. -/
theorem reportOffers_cls (s : State) (m : SMap Cluster) (q : QE) (os : List Offer) :
    os.foldl (fun s o => State.reportOffer s q o) { s with cls := m } = { os.foldl (fun s o => s.reportOffer q o) s with cls := m } :=
  List.foldl_hom (fun s : State => { s with cls := m }) fun s o => reportOffer_cls s m q o

/-- A cluster's memory with the mask bits and the amax of taken tiles. -/
def Mx.taken (x : Mx) (m : Mem) (os : List Offer) : Mem := os.foldl (fun m o => x.storePeak (x.storeMask m o) o) m

theorem foldl_free_frame (os : List Offer) (y : Cluster) :
    os.foldl (fun y o => y.free o.entry) y = { y with till := (os.foldl (fun y o => y.free o.entry) y).till } := by
  induction os generalizing y with
  | nil => rfl
  | cons o os ih => exact (ih (y.free o.entry)).trans rfl

theorem foldl_free_till (os : List Offer) (y : Cluster) (i : Nat) :
    SMap.get {} (os.foldl (fun y o => y.free o.entry) y).till i = if i ∈ os.map (·.entry) then {} else SMap.get {} y.till i := by
  induction os generalizing y with
  | nil => rfl
  | cons o os ih =>
    rw [List.foldl_cons, ih, Cluster.free_till, List.map_cons]
    grind

section
variable (s : State) (cl : ClId) (q : QE) (os : List Offer)

theorem mxRelease_eq : s.mxRelease cl.toNat q os =
    let u := os.foldl (fun s o => s.reportOffer q o) (s.modCl cl.toNat fun y => { y with mem := (Mx.of q.img).taken y.mem os })
    if ((Mx.of q.img).frees && !s.legacy q) = true then u.modCl cl.toNat fun y => os.foldl (fun y o => y.free o.entry) y else u := by
  have legacy := (reportOffers_reports (s.modCl cl.toNat fun y => { y with mem := (Mx.of q.img).taken y.mem os }) q os).dataOnly.legacy q
  unfold State.mxRelease
  dsimp only
  rw [← show (s.modCl cl.toNat fun y => { y with mem := (Mx.of q.img).taken y.mem os }).legacy q = s.legacy q from rfl, ← legacy]
  rfl

theorem mxRelease_only : DrainOnly cl s (s.mxRelease cl.toNat q os) := by
  rw [mxRelease_eq]
  have reported := (modCl_clusterOnly cl s _).drain.trans
    ((reportOffers_reports (s.modCl cl.toNat fun y => { y with mem := (Mx.of q.img).taken y.mem os }) q os).drain cl)
  dsimp only
  split
  · exact reported.trans (modCl_clusterOnly ..).drain
  · exact reported

theorem mxRelease_census : (s.mxRelease cl.toNat q os).census = (os.foldl (fun s o => s.reportOffer q o) s).census := by
  have reported : (os.foldl (fun s o => State.reportOffer s q o)
      (s.modCl cl.toNat fun y => { y with mem := (Mx.of q.img).taken y.mem os })).census = _ :=
    congrArg State.census (reportOffers_cls s _ q os)
  rw [mxRelease_eq]
  dsimp only
  split
  · exact reported
  · exact reported

theorem reportOffers_clu :
    (os.foldl (fun s o => State.reportOffer s q o) (s.modCl cl.toNat fun y => { y with mem := (Mx.of q.img).taken y.mem os })).clu cl.toNat
      = { s.clu cl.toNat with mem := (Mx.of q.img).taken (s.clu cl.toNat).mem os } :=
  ((reportOffers_reports _ q os).clu _).trans (State.modCl_same ..)

theorem mxRelease_clu : (s.mxRelease cl.toNat q os).clu cl.toNat
    = { s.clu cl.toNat with
        mem := (Mx.of q.img).taken (s.clu cl.toNat).mem os, till := ((s.mxRelease cl.toNat q os).clu cl.toNat).till } := by
  rw [mxRelease_eq]
  dsimp only
  split
  · rw [State.modCl_same, foldl_free_frame, reportOffers_clu]
  · rw [reportOffers_clu]

theorem mxRelease_till_native (h : s.legacy q = false) (i : Nat) :
    SMap.get {} ((s.mxRelease cl.toNat q os).clu cl.toNat).till i
      = if (Mx.of q.img).frees = true ∧ i ∈ os.map (·.entry) then {} else SMap.get {} (s.clu cl.toNat).till i := by
  rw [mxRelease_eq, h]
  cases (Mx.of q.img).frees with
  | false => rw [Bool.false_and, if_neg Bool.false_ne_true, reportOffers_clu, if_neg (fun c => Bool.false_ne_true c.1)]
  | true =>
    rw [Bool.not_false, Bool.true_and, if_pos rfl, State.modCl_same, foldl_free_till, reportOffers_clu]
    simp only [true_and]

theorem mxRelease_till_legacy (h : s.legacy q = true) :
    ((s.mxRelease cl.toNat q os).clu cl.toNat).till = (s.clu cl.toNat).till := by
  rw [mxRelease_eq, h, Bool.not_true, Bool.and_false, if_neg Bool.false_ne_true, reportOffers_clu]

end

/-- Taken tiles with their command settled: the mask bits, amax and Census have them, and their entries are empty where
the drain mode releases. -/
theorem release_settled (s : State) (cl : ClId) (k : Nat) (r : MxRun) (os : List Offer) :
    let t := (s.mxRelease cl.toNat r.q os).mxSettle cl.toNat k r
    (t.clu cl.toNat).mem = (Mx.of r.q.img).taken (s.clu cl.toNat).mem os
      ∧ (t.clu cl.toNat).mq = (s.clu cl.toNat).mq.set k r.settled
      ∧ t.census = (os.foldl (fun s o => s.reportOffer r.q o) s).census
      ∧ (s.legacy r.q = false → ∀ i, SMap.get {} (t.clu cl.toNat).till i
          = if (Mx.of r.q.img).frees = true ∧ i ∈ os.map (·.entry) then {} else SMap.get {} (s.clu cl.toNat).till i)
      ∧ (s.legacy r.q = true → ∀ d b, (s.ctx r.q.ctx.toNat).desc (cCluster r.q.img) = some d →
          legacyAt (s.clu cl.toNat).till d (Mx.of r.q.img).ebase = some b → ∀ i, SMap.get {} (t.clu cl.toNat).till i
            = if legacyFrees r.q b r.fin i = true then {} else SMap.get {} (s.clu cl.toNat).till i)
      ∧ DrainOnly cl s t := by
  dsimp only
  have only := mxRelease_only s cl r.q os
  have settled := mxSettle_only (s.mxRelease cl.toNat r.q os) cl k r
  have clu := mxSettle_clu (s.mxRelease cl.toNat r.q os) cl.toNat k r
  rw [mxRelease_clu] at clu
  have legacy := only.dataOnly.legacy r.q
  have census : ((s.mxRelease cl.toNat r.q os).mxSettle cl.toNat k r).census = (s.mxRelease cl.toNat r.q os).census := by
    rw [settled.2]
  refine ⟨congrArg Cluster.mem clu, congrArg Cluster.mq clu, census.trans (mxRelease_census ..), fun native i => ?_,
    fun old d b desc found i => ?_, only.trans settled.drain⟩
  · rw [mxSettle_till_native k (legacy.trans native), mxRelease_till_native _ _ _ _ native]
  · have till := mxRelease_till_legacy s cl r.q os old
    rw [mxSettle_till_legacy k (legacy.trans old) (by rw [only.dataOnly.ctx]; exact desc) (by rw [till]; exact found), till]

end Sys2Proof.Machine
end
section
/-! SUPPORT. Tiles stored at their destination: the row-major output, records of the Vault, and the amax word (R63, R66, R67,
R119, R147). -/

namespace Sys2Proof.Machine

/-! ### Elements by sixteens -/

theorem elemBytes_sixteens (fmt u : Nat) : elemBytes fmt (16 * u) = 2 * elemBits fmt * u := by
  unfold elemBytes
  rw [show 16 * u * elemBits fmt = 8 * (2 * elemBits fmt * u) by ring]
  omega

theorem elemBytes_mono {fmt u v : Nat} (h : u ≤ v) : elemBytes fmt (16 * u) ≤ elemBytes fmt (16 * v) := by
  rw [elemBytes_sixteens, elemBytes_sixteens]
  exact Nat.mul_le_mul_left _ h

/-- An element is read from its own bytes, here those of `16 (v - u)` elements about it. -/
theorem codeAt_congr {m m' : Mem} {fmt a i u v : Nat} (low : 16 * u ≤ i) (high : i < 16 * v)
    (same : ∀ b, a + elemBytes fmt (16 * u) ≤ b → b < a + elemBytes fmt (16 * v) → Mem.read m' b = Mem.read m b) :
    codeAt m' fmt a i = codeAt m fmt a i := by
  rw [elemBytes_sixteens, elemBytes_sixteens] at same
  unfold codeAt
  rcases elemBits_cases fmt with h | ⟨w, -, h⟩
  · rw [h] at same
    rw [if_pos h, if_pos h, same _ (by omega) (by omega)]
  · rw [if_neg (by omega), if_neg (by omega), elemBytes_of_bytes h, h, Nat.mul_div_cancel_left _ (by decide)]
    rw [h, show 2 * (8 * w) * u = 16 * u * w by ring, show 2 * (8 * w) * v = 16 * v * w by ring] at same
    have first : 16 * u * w ≤ i * w := Nat.mul_le_mul_right w low
    have last : (i + 1) * w ≤ 16 * v * w := Nat.mul_le_mul_right w high
    rw [Nat.add_mul, Nat.one_mul] at last
    exact Mem.readN_congr fun b lowest highest => same b (by omega) (by omega)

/-! ### The row-major output (R63, R119) -/

/-- Row `k` of a tile stored, with its block's scale under code 5. -/
def Mx.storeRow (x : Mx) (o : Offer) (m : Mem) (k : Nat) : Mem :=
  let e := (16 * (x.tileRC o.tile).1 + k) * x.nn + 16 * (x.tileRC o.tile).2
  let m := Mem.writeBytes m (x.dst + elemBytes x.outFmt e) (o.row x.outFmt k)
  if x.cvt = 5 then Mem.write m (x.dst + elemBytes 4 (x.mm * x.nn) + e / 32) (BitVec.ofNat 8 (o.scales.getD k 0xFF)) else m

theorem storeTile_eq (x : Mx) (m : Mem) (o : Offer) : x.storeTile m o = (List.range 16).foldl (x.storeRow o) m := rfl

/-- The sixteen of elements that row `k` of a tile is. -/
def Mx.rowAt (x : Mx) (o : Offer) (k : Nat) : Nat := (16 * (x.tileRC o.tile).1 + k) * x.nt + (x.tileRC o.tile).2

section
variable (x : Mx) (o : Offer)

theorem rowAt_element (k : Nat) : (16 * (x.tileRC o.tile).1 + k) * x.nn + 16 * (x.tileRC o.tile).2 = 16 * x.rowAt o k := by
  unfold Mx.rowAt Mx.nn
  ring

theorem row_length (fmt k : Nat) : (o.row fmt k).length = elemBytes fmt 16 := by
  unfold Offer.row
  rw [packCodes_length, List.length_map, List.length_range]

/-- The bytes that row `k` takes. -/
theorem storeRow_read {m : Mem} {k b : Nat}
    (outRow : ¬(x.dst + elemBytes x.outFmt (16 * x.rowAt o k) ≤ b ∧ b < x.dst + elemBytes x.outFmt (16 * (x.rowAt o k + 1))))
    (outScale : x.cvt = 5 → b ≠ x.dst + elemBytes 4 (x.mm * x.nn) + 16 * x.rowAt o k / 32) :
    Mem.read (x.storeRow o m k) b = Mem.read m b := by
  have row : Mem.read (m.writeBytes (x.dst + elemBytes x.outFmt (16 * x.rowAt o k)) (o.row x.outFmt k)) b = Mem.read m b := by
    refine Mem.read_writeBytes_out ?_
    rw [row_length, elemBytes_sixteens, show elemBytes x.outFmt 16 = _ from elemBytes_sixteens _ 1]
    rw [elemBytes_sixteens, elemBytes_sixteens, Nat.mul_add] at outRow
    omega
  unfold Mx.storeRow
  rw [rowAt_element]
  dsimp only
  split
  · next scaled => rw [Mem.read_write, if_neg (outScale scaled), row]
  · exact row

/-- Row `k` reads back. -/
theorem storeRow_codes (m : Mem) {k j : Nat} (within : x.cvt = 5 → x.rowAt o k < x.mt * 16 * x.nt) (hj : j < 16) :
    codeAt (x.storeRow o m k) x.outFmt x.dst (16 * x.rowAt o k + j)
      = (Words.get o.codes (16 * k + j)).toNat % 2 ^ elemBits x.outFmt := by
  have code : codeAt (m.writeBytes (x.dst + elemBytes x.outFmt (16 * x.rowAt o k)) (o.row x.outFmt k)) x.outFmt x.dst (16 * x.rowAt o k + j)
      = (Words.get o.codes (16 * k + j)).toNat % 2 ^ elemBits x.outFmt := by
    unfold Offer.row
    rw [codeAt_packed _ _ _ _ (by omega) (by simpa using hj)]
    simp [List.getD_eq_getElem?_getD, hj]
  unfold Mx.storeRow
  rw [rowAt_element]
  dsimp only
  split
  · next scaled =>
    rw [← code]
    refine codeAt_congr (u := x.rowAt o k) (v := x.rowAt o k + 1) (by omega) (by omega) fun b _ high => ?_
    have before : elemBytes x.outFmt (16 * (x.rowAt o k + 1)) ≤ elemBytes 4 (x.mm * x.nn) := by
      have fmt : x.outFmt = 4 := by unfold Mx.outFmt; rw [if_neg (by omega), scaled]
      rw [fmt, show x.mm * x.nn = 16 * (x.mt * 16 * x.nt) by unfold Mx.mm Mx.nn; ring]
      exact elemBytes_mono (within scaled)
    rw [Mem.read_write, if_neg (by omega)]
  · exact code

variable {x o} (row : (x.tileRC o.tile).1 < x.mt) (col : (x.tileRC o.tile).2 < x.nt)
include col

/-- The rows of a tile stand apart. -/
theorem rowAt_lt {k l : Nat} (h : k < l) : x.rowAt o k < x.rowAt o l := by
  have : (16 * (x.tileRC o.tile).1 + k + 1) * x.nt ≤ (16 * (x.tileRC o.tile).1 + l) * x.nt := Nat.mul_le_mul_right _ (by omega)
  unfold Mx.rowAt
  rw [Nat.add_mul, Nat.one_mul] at this
  omega

include row

theorem rowAt_within {k : Nat} (h : k < 16) : x.rowAt o k < x.mt * 16 * x.nt := by
  have : (16 * (x.tileRC o.tile).1 + k + 1) * x.nt ≤ x.mt * 16 * x.nt := Nat.mul_le_mul_right _ (by omega)
  unfold Mx.rowAt
  rw [Nat.add_mul, Nat.one_mul] at this
  omega

/-- A row's bytes lie in the output. -/
theorem storeRow_but (m : Mem) {k : Nat} (h : k < 16) :
    BytesBut x.dst (tensorBytes x.outFmt (x.mm * x.nn)) m (x.storeRow o m k) := by
  intro b out
  have within := rowAt_within row col h
  have size : x.mm * x.nn = 16 * (x.mt * 16 * x.nt) := by unfold Mx.mm Mx.nn; ring
  have elems : elemBytes x.outFmt (16 * (x.rowAt o k + 1)) ≤ elemBytes x.outFmt (x.mm * x.nn) := size ▸ elemBytes_mono within
  unfold tensorBytes at out
  refine storeRow_read x o (fun inside => out ⟨by omega, by omega⟩) fun scaled same => ?_
  have fmt : x.outFmt = 4 := by unfold Mx.outFmt; rw [if_neg (by omega), scaled]
  rw [fmt, if_pos rfl] at out
  omega

/-- A row leaves the codes of the others. -/
theorem storeRow_others (m : Mem) {k l j : Nat} (other : l ≠ k) (hl : l < 16) (hj : j < 16) :
    codeAt (x.storeRow o m k) x.outFmt x.dst (16 * x.rowAt o l + j) = codeAt m x.outFmt x.dst (16 * x.rowAt o l + j) := by
  refine codeAt_congr (u := x.rowAt o l) (v := x.rowAt o l + 1) (by omega) (by omega) fun b low high => ?_
  refine storeRow_read x o (fun inside => ?_) fun scaled same => ?_
  · obtain ⟨low', high'⟩ := inside
    rcases Nat.lt_or_gt_of_ne other with before | after
    · have := elemBytes_mono (fmt := x.outFmt) (rowAt_lt (o := o) col before)
      rw [Nat.succ_eq_add_one] at this
      omega
    · have := elemBytes_mono (fmt := x.outFmt) (rowAt_lt (o := o) col after)
      rw [Nat.succ_eq_add_one] at this
      omega
  · have fmt : x.outFmt = 4 := by unfold Mx.outFmt; rw [if_neg (by omega), scaled]
    have size : x.mm * x.nn = 16 * (x.mt * 16 * x.nt) := by unfold Mx.mm Mx.nn; ring
    have := elemBytes_mono (fmt := 4) (rowAt_within row col hl)
    rw [Nat.succ_eq_add_one] at this
    rw [fmt] at high
    rw [size] at same
    omega

/-- The first `n` rows of a tile stand, and nothing outside the output changes. -/
theorem storeRows (m : Mem) {n : Nat} (h : n ≤ 16) :
    (∀ i j, i < n → j < 16 → codeAt ((List.range n).foldl (x.storeRow o) m) x.outFmt x.dst (16 * x.rowAt o i + j)
      = (Words.get o.codes (16 * i + j)).toNat % 2 ^ elemBits x.outFmt)
    ∧ BytesBut x.dst (tensorBytes x.outFmt (x.mm * x.nn)) m ((List.range n).foldl (x.storeRow o) m) := by
  induction n with
  | zero => exact ⟨fun i j hi => absurd hi (by omega), fun b _ => rfl⟩
  | succ n ih =>
    obtain ⟨codes, but⟩ := ih (by omega)
    rw [List.range_succ, List.foldl_append, List.foldl_cons, List.foldl_nil]
    refine ⟨fun i j hi hj => ?_, but.trans (storeRow_but row col _ (by omega))⟩
    rcases Nat.lt_succ_iff_lt_or_eq.1 hi with earlier | rfl
    · rw [storeRow_others row col _ (by omega) (by omega) hj, codes i j earlier hj]
    · exact storeRow_codes x o _ (fun _ => rowAt_within row col (by omega)) hj

/-- A stored tile's codes stand in the row-major output, and nothing outside the output changes. -/
theorem storeTile_stands (m : Mem) :
    (∀ i j, i < 16 → j < 16 →
      codeAt (x.storeTile m o) x.outFmt x.dst ((16 * (x.tileRC o.tile).1 + i) * x.nn + 16 * (x.tileRC o.tile).2 + j)
        = (Words.get o.codes (16 * i + j)).toNat % 2 ^ elemBits x.outFmt)
    ∧ BytesBut x.dst (tensorBytes x.outFmt (x.mm * x.nn)) m (x.storeTile m o) := by
  obtain ⟨codes, but⟩ := storeRows row col m (Nat.le_refl 16)
  rw [storeTile_eq]
  exact ⟨fun i j hi hj => by rw [rowAt_element]; exact codes i j hi hj, but⟩

end

theorem codeAt_output {x : Mx} {m m' : Mem} {o : Offer} {i j : Nat} (row : (x.tileRC o.tile).1 < x.mt) (col : (x.tileRC o.tile).2 < x.nt)
    (hi : i < 16) (hj : j < 16)
    (same : ∀ b, x.dst ≤ b → b < x.dst + tensorBytes x.outFmt (x.mm * x.nn) → Mem.read m' b = Mem.read m b) :
    codeAt m' x.outFmt x.dst ((16 * (x.tileRC o.tile).1 + i) * x.nn + 16 * (x.tileRC o.tile).2 + j)
      = codeAt m x.outFmt x.dst ((16 * (x.tileRC o.tile).1 + i) * x.nn + 16 * (x.tileRC o.tile).2 + j) := by
  have within := rowAt_within row col hi
  have size : x.mm * x.nn = 16 * (x.mt * 16 * x.nt) := by unfold Mx.mm Mx.nn; ring
  unfold tensorBytes at same
  rw [size] at same
  rw [rowAt_element]
  exact codeAt_congr (u := 0) (v := x.mt * 16 * x.nt) (by omega) (by omega) fun b low high =>
    same b (by omega) (by omega)

/-! ### The amax word (R66) -/

/-- The amax word `w` after an offer's peak. -/
def Offer.peakOn (o : Offer) (w : W32) : W32 :=
  match o.peak with
  | some p => fmax w p
  | none => w

theorem read_storePeak {x : Mx} {o : Offer} {m : Mem} {b : Nat} (out : ¬(x.amaxEn = true ∧ x.amaxA ≤ b ∧ b < x.amaxA + 4)) :
    Mem.read (x.storePeak m o) b = Mem.read m b := by
  unfold Mx.storePeak
  split
  · split
    · next en =>
      have outside : ¬(x.amaxA ≤ b ∧ b < x.amaxA + 4) := fun h => out ⟨en, h⟩
      exact Mem.read_writeN_out (by omega)
    · rfl
  · rfl

theorem read32_storePeak {x : Mx} {o : Offer} (m : Mem) (en : x.amaxEn = true) :
    Mem.read32 (x.storePeak m o) x.amaxA = o.peakOn (Mem.read32 m x.amaxA) := by
  unfold Mx.storePeak Offer.peakOn
  cases o.peak with
  | none => rfl
  | some p =>
    dsimp only
    rw [if_pos en]
    exact Mem.read32_writeN ..

/-- Bytes stored away from the amax word, and the peak with them. -/
theorem storePeak_stored {x : Mx} {o : Offer} {m m' : Mem} {a n : Nat} (but : BytesBut a n m m')
    (away : x.amaxEn = true → x.amaxA + 4 ≤ a ∨ a + n ≤ x.amaxA) :
    (∀ b, a ≤ b → b < a + n → Mem.read (x.storePeak m' o) b = Mem.read m' b)
    ∧ (∀ b, ¬(a ≤ b ∧ b < a + n) → ¬(x.amaxEn = true ∧ x.amaxA ≤ b ∧ b < x.amaxA + 4) →
        Mem.read (x.storePeak m' o) b = Mem.read m b)
    ∧ (x.amaxEn = true → Mem.read32 (x.storePeak m' o) x.amaxA = o.peakOn (Mem.read32 m x.amaxA)) := by
  refine ⟨fun b low high => read_storePeak fun ⟨en, low', high'⟩ => ?_, fun b out outPeak => (read_storePeak outPeak).trans (but b out),
    fun en => ?_⟩
  · have := away en
    omega
  · rw [read32_storePeak m' en]
    have := away en
    exact congrArg o.peakOn (Mem.read32_congr fun b low high => but b (by omega))

end Sys2Proof.Machine
end
section
/-! SUPPORT. Drains and destinations of matrix commands: what a FULL and a FUSE drain leave, a group accepted early that takes its
tiles, and a tile taken by the cluster's memory (R58, R60, R63, R65, R93). -/
namespace Sys2Proof.Machine

/-! ### Drains -/

section
variable {cl : ClId} {k : Nat} {r : MxRun} {s : State} (hr : (s.clu cl.toNat).mq[k]? = some r)
  (isIn : (s.ctx r.q.ctx.toNat).st = .resident) (undone : r.done = false)
include hr isIn undone

theorem drain_full (full : (Mx.of r.q.img).full = true) (ready : r.drained < r.tile) :
    exec (.drain cl k) s = .next (s.drainFull cl.toNat k r) := by
  show execDrain cl k s = _
  unfold execDrain State.isIn
  rw [hr]
  dsimp only
  rw [isIn, undone, full, decide_eq_true ready]
  rfl

theorem drain_fuse (fuse : (Mx.of r.q.img).fuse = true) (ready : r.drained + (Mx.of r.q.img).step ≤ r.tile) :
    exec (.drain cl k) s = .next ((s.drainFuse cl.toNat k r).feedGroup cl.toNat k) := by
  have full : (Mx.of r.q.img).full = false := by
    unfold Mx.fuse at fuse
    unfold Mx.full
    rw [Bool.or_eq_true, beq_iff_eq, beq_iff_eq] at fuse
    rcases fuse with one | two
    · rw [one]; rfl
    · rw [two]; rfl
  show execDrain cl k s = _
  unfold execDrain State.isIn
  rw [hr]
  dsimp only
  rw [isIn, undone, full, fuse, decide_eq_true ready]
  rfl

end

section
variable (s : State) (cl : ClId) (r : MxRun)

/-- The tile's number in the layout of a FULL drain: two half-width tiles share an entry (log 66). -/
def State.fullTile : Nat := if s.legacy r.q && legacyHalf r.q.img then r.drained / 2 else r.drained
/-- The entry of the next tile to drain. -/
def State.fullEntry (i : Nat) : TillE := SMap.get {} (s.clu i).till (s.entryOf i r.q r.drained)

/-- The words and the tag of the next tile at their places. -/
def State.fullPut (i : Nat) : State := s.modCl i fun y => { y with
  mem := drained y.mem (s.fullEntry r i) ((Mx.of r.q.img).dst + 1024 * s.fullTile r)
    ((Mx.of r.q.img).dst + 1024 * s.mxEnts r.q + 4 * s.fullTile r) }

/-- With its entry let go where the mode releases. -/
def State.fullFreed (i : Nat) : State :=
  if (Mx.of r.q.img).frees && !s.legacy r.q then (s.fullPut r i).modCl i fun y => y.free (s.entryOf i r.q r.drained) else s.fullPut r i

/-- The run of a command after a FULL drain. -/
def MxRun.fullNext : MxRun := { r with drained := r.drained + 1, acked := r.drained + 1 }

theorem drainFull_eq (i k : Nat) : s.drainFull i k r = (s.fullFreed r i).mxSettle i k r.fullNext := by
  unfold State.drainFull State.fullFreed State.fullPut State.fullEntry State.fullTile drained wordBytes
  rfl

theorem fullPut_clu (i : Nat) : (s.fullPut r i).clu i = { s.clu i with
    mem := drained (s.clu i).mem (s.fullEntry r i) ((Mx.of r.q.img).dst + 1024 * s.fullTile r)
      ((Mx.of r.q.img).dst + 1024 * s.mxEnts r.q + 4 * s.fullTile r) } := by
  unfold State.fullPut
  rw [State.modCl_same]

theorem fullFreed_clu (i : Nat) : (s.fullFreed r i).clu i = { s.clu i with
    mem := drained (s.clu i).mem (s.fullEntry r i) ((Mx.of r.q.img).dst + 1024 * s.fullTile r)
      ((Mx.of r.q.img).dst + 1024 * s.mxEnts r.q + 4 * s.fullTile r)
    till := ((s.fullFreed r i).clu i).till } := by
  unfold State.fullFreed
  split
  · rw [State.modCl_same, fullPut_clu]; rfl
  · rw [fullPut_clu]

theorem fullFreed_only : ClusterOnly cl s (s.fullFreed r cl.toNat) := by
  unfold State.fullFreed
  split
  · exact (modCl_clusterOnly cl s _).trans (modCl_clusterOnly ..)
  · exact modCl_clusterOnly ..

theorem fullFreed_till_native (h : s.legacy r.q = false) (i e : Nat) : SMap.get {} ((s.fullFreed r i).clu i).till e
    = if (Mx.of r.q.img).frees = true ∧ e = s.entryOf i r.q r.drained then {} else SMap.get {} (s.clu i).till e := by
  unfold State.fullFreed
  rw [h]
  cases (Mx.of r.q.img).frees with
  | false => rw [Bool.false_and, if_neg Bool.false_ne_true, fullPut_clu, if_neg (fun c => Bool.false_ne_true c.1)]
  | true =>
    rw [Bool.not_false, Bool.true_and, if_pos rfl, State.modCl_same, Cluster.free_till, fullPut_clu]
    simp only [true_and]

theorem fullFreed_till_legacy (h : s.legacy r.q = true) (i : Nat) : ((s.fullFreed r i).clu i).till = (s.clu i).till := by
  unfold State.fullFreed
  rw [h, Bool.not_true, Bool.and_false, if_neg Bool.false_ne_true, fullPut_clu]

/-- A FULL drain leaves the words and the tag at their places, and lets its entry go. -/
theorem drainFull_leaves (k : Nat) :
    let x := Mx.of r.q.img
    let t := s.drainFull cl.toNat k r
    (t.clu cl.toNat).mem = drained (s.clu cl.toNat).mem (s.fullEntry r cl.toNat) (x.dst + 1024 * s.fullTile r)
        (x.dst + 1024 * s.mxEnts r.q + 4 * s.fullTile r)
      ∧ (s.legacy r.q = false → ∀ i, SMap.get {} (t.clu cl.toNat).till i
          = if x.frees = true ∧ i = s.entryOf cl.toNat r.q r.drained then {} else SMap.get {} (s.clu cl.toNat).till i)
      ∧ (s.legacy r.q = true → ∀ d b, (s.ctx r.q.ctx.toNat).desc (cCluster r.q.img) = some d →
          legacyAt (s.clu cl.toNat).till d x.ebase = some b → ∀ i, SMap.get {} (t.clu cl.toNat).till i
            = if legacyFrees r.q b r.fullNext.fin i = true then {} else SMap.get {} (s.clu cl.toNat).till i)
      ∧ (t.clu cl.toNat).mq = (s.clu cl.toNat).mq.set k r.fullNext.settled ∧ ClusterOnly cl s t := by
  dsimp only
  have only := fullFreed_only s cl r
  have legacy : (s.fullFreed r cl.toNat).legacy r.q = s.legacy r.q := only.drain.dataOnly.legacy r.q
  have clu := mxSettle_clu (s.fullFreed r cl.toNat) cl.toNat k r.fullNext
  rw [fullFreed_clu] at clu
  have mem := congrArg Cluster.mem clu
  rw [drainFull_eq]
  refine ⟨mem, fun native i => ?_, fun old d b desc found i => ?_, congrArg Cluster.mq clu,
    only.trans (mxSettle_only ..)⟩
  · rw [mxSettle_till_native (r := r.fullNext) k (legacy.trans native), fullFreed_till_native s r native]
  · have till := fullFreed_till_legacy s r old cl.toNat
    rw [mxSettle_till_legacy (r := r.fullNext) k (legacy.trans old) (by rw [only.ctx]; exact desc) (by rw [till]; exact found), till]
    rfl

end

/-- The tiles one drain offers: one, or a pair under code 5 (R64). -/
theorem mxOffers_length (s : State) (i : Nat) (r : MxRun) : (s.mxOffers i r).length = (Mx.of r.q.img).step := by
  unfold State.mxOffers Mx.step
  dsimp only
  split <;> rfl

/-- The run of a command after a FUSE drain. -/
def State.fused (s : State) (i : Nat) (r : MxRun) : MxRun :=
  { r with drained := r.drained + (Mx.of r.q.img).step, offers := r.offers ++ s.mxOffers i r, since := s.sched.clock }

theorem drainFuse_run {s : State} {i k : Nat} {r : MxRun} (hr : (s.clu i).mq[k]? = some r) :
    ((s.drainFuse i k r).clu i).mq[k]? = some (s.fused i r) := by
  have bound : k < (s.clu i).mq.length := (List.getElem?_eq_some_iff.1 hr).1
  unfold State.drainFuse
  rw [setRun_clu]
  exact List.getElem?_set_self bound

/-- A drain without an accepted group only offers. -/
theorem feedGroup_none {s : State} {i k : Nat} {r : MxRun} (hr : (s.clu i).mq[k]? = some r) (grant : r.grant = none) :
    s.feedGroup i k = s := by
  unfold State.feedGroup
  rw [hr]
  dsimp only
  rw [grant]

/-- A group accepted early takes its tiles as they drain, until all are in. -/
theorem feedGroup_some {s : State} {i k : Nat} {r : MxRun} {gr : Grant} (hr : (s.clu i).mq[k]? = some r) (grant : r.grant = some gr)
    (some_ : r.offers ≠ []) (more : r.offers.length < 16) :
    s.feedGroup i k = s.mxTaken i k r (r.offers.drop (r.offers.length - (r.drained - r.acked))) := by
  obtain ⟨o, os, offers⟩ := List.exists_cons_of_ne_nil some_
  have group : ∃ g, r.group i = some g ∧ g.os = r.offers.take 16 := by
    unfold MxRun.group
    rw [offers]
    exact ⟨_, rfl, rfl⟩
  obtain ⟨g, front, tiles⟩ := group
  have partial_ : g.complete = false := by
    unfold Grp.complete
    rw [tiles, List.length_take]
    exact decide_eq_false (by omega)
  unfold State.feedGroup
  rw [hr]
  dsimp only
  rw [grant, front]
  dsimp only
  rw [partial_]
  rfl

/-- A FUSE drain into a group accepted early: its tiles are taken. -/
theorem drainFuse_feeds {s : State} {i k : Nat} {r : MxRun} {gr : Grant} (hr : (s.clu i).mq[k]? = some r) (grant : r.grant = some gr)
    (even : r.acked = r.drained) (more : r.offers.length + (Mx.of r.q.img).step < 16) :
    (s.drainFuse i k r).feedGroup i k = (s.drainFuse i k r).mxTaken i k (s.fused i r) (s.mxOffers i r) := by
  have step : 0 < (Mx.of r.q.img).step := by unfold Mx.step; split <;> decide
  have length : (s.fused i r).offers.length = r.offers.length + (Mx.of r.q.img).step := by
    rw [State.fused, List.length_append, mxOffers_length]
  rw [feedGroup_some (drainFuse_run hr) grant (List.ne_nil_of_length_pos (by omega)) (by omega)]
  congr 1
  rw [length, State.fused]
  dsimp only
  rw [even, show r.offers.length + (Mx.of r.q.img).step - (r.drained + (Mx.of r.q.img).step - r.drained) = r.offers.length by omega]
  exact List.drop_left

/-! ### Tiles that are taken -/

section
variable {cl : ClId} {k : Nat} {r : MxRun} {o : Offer} {os : List Offer} {s : State} (hr : (s.clu cl.toNat).mq[k]? = some r)
  (front : r.offers = o :: os) (isIn : (s.ctx r.q.ctx.toNat).st = .resident)
include hr front isIn

theorem fuseTileAccept_eq : exec (.fuseTileAccept cl k) s =
    (let x := Mx.of r.q.img
    if x.dest = 0 then .next ((s.modCl cl.toNat fun y => { y with mem := x.storeTile y.mem o }).mxAck cl.toNat k r 1)
    else if x.dest = 3 then
      match r.vaultAt with
      | some a =>
        .next ((s.modCl cl.toNat fun y => { y with mem := (x.recordParts o).foldl (fun m p => Mem.writeBytes m (a + p.1) p.2) y.mem }).mxAck
          cl.toNat k r 1)
      | none =>
        let a := x.w28 % 2 ^ 25 * 65536
        if s.guarded a x.recordLen then .next s
        else match s.hbmCheck r.q.ctx.toNat a x.recordLen true false with
        | some f => .next (s.faultCmd r.q f (BitVec.ofNat 64 a) (clUnit r.q.img))
        | none => .next (((x.recordParts o).foldl (fun s p => s.hbmWrite (a + p.1) p.2) s).mxAck cl.toNat k r 1)
    else .next s) := by
  show execFuseTileAccept cl k s = _
  unfold execFuseTileAccept State.isIn
  rw [hr]
  dsimp only
  rw [front, isIn]
  rfl

end

/-- A tile taken by the cluster's memory: beside what `f` stores there its mask bits and amax stand, the Census has its
conversions, and its entry is empty where the drain mode releases. -/
theorem tile_taken {cl : ClId} {k : Nat} {r : MxRun} {o : Offer} {os : List Offer} (s : State) (f : Mem → Mem) (front : r.offers = o :: os) :
    let x := Mx.of r.q.img
    let t := (s.modCl cl.toNat fun y => { y with mem := f y.mem }).mxAck cl.toNat k r 1
    let r' : MxRun := { r with offers := os, acked := r.acked + 1 }
    (t.clu cl.toNat).mem = x.storePeak (x.storeMask (f (s.clu cl.toNat).mem) o) o
      ∧ (t.clu cl.toNat).mq = (s.clu cl.toNat).mq.set k r'.settled
      ∧ t.census = (s.reportOffer r.q o).census
      ∧ (s.legacy r.q = false → ∀ i, SMap.get {} (t.clu cl.toNat).till i
          = if x.frees = true ∧ i = o.entry then {} else SMap.get {} (s.clu cl.toNat).till i)
      ∧ (s.legacy r.q = true → ∀ d b, (s.ctx r.q.ctx.toNat).desc (cCluster r.q.img) = some d →
          legacyAt (s.clu cl.toNat).till d x.ebase = some b → ∀ i, SMap.get {} (t.clu cl.toNat).till i
            = if legacyFrees r.q b r'.fin i = true then {} else SMap.get {} (s.clu cl.toNat).till i)
      ∧ DrainOnly cl s t := by
  dsimp only
  set u := s.modCl cl.toNat fun y => { y with mem := f y.mem }
  set r' : MxRun := { r with offers := os, acked := r.acked + 1 }
  have own : u.clu cl.toNat = { s.clu cl.toNat with mem := f (s.clu cl.toNat).mem } := State.modCl_same ..
  have ack : u.mxAck cl.toNat k r 1 = (u.mxRelease cl.toNat r'.q [o]).mxSettle cl.toNat k r' := by
    unfold State.mxAck
    rw [front]
    rfl
  obtain ⟨mem, queue, census, native, old, only⟩ := release_settled u cl k r' [o]
  rw [own] at mem queue native old
  rw [ack]
  have reported : ([o].foldl (fun s o => State.reportOffer s r.q o) u).census = (s.reportOffer r.q o).census :=
    (congrArg State.census (reportOffers_cls s u.cls r.q [o]) :)
  refine ⟨mem, queue, census.trans reported, fun h i => ?_, old,
    (modCl_clusterOnly cl s _).drain.trans only⟩
  rw [native h i]
  simp only [List.map_cons, List.map_nil, List.mem_singleton]
  rfl

end Sys2Proof.Machine
end
section
/-! SUPPORT. The statement on matrix commands (O51). -/
namespace Sys2Proof.Machine

/-! ### MATMUL (R51 to R54, R72, R147) -/

section
variable {cl : ClId} {k : Nat} {r : MxRun} {s : State} (hr : (s.clu cl.toNat).mq[k]? = some r) (undone : r.done = false)
  (isIn : (s.ctx r.q.ctx.toNat).st = .resident)
include hr undone isIn

/-- A native tile's entry has its products, and nothing else changes but the queue. -/
theorem matmul_native {e0 : TillE} (open_ : s.clOpen cl.toNat = true) (begun : r.started = true) (awake : r.waiting = false)
    (more : r.tile < (Mx.of r.q.img).tiles) (slot : (Mx.of r.q.img).slotFree r r.tile = true) (native : s.legacy r.q = false)
    (init : (Mx.of r.q.img).initTile (s.clu cl.toNat).mem (SMap.get {} (s.clu cl.toNat).till (s.entryOf cl.toNat r.q r.tile)) r.tile = some e0) :
    let x := Mx.of r.q.img
    let e := s.entryOf cl.toNat r.q r.tile
    Completes (.matmul cl k) s fun t =>
      let y := SMap.get {} (t.clu cl.toNat).till e
      let rc := x.tileRC r.tile
      (∀ j < 256, Words.get y.words j
          = (x.accum (s.clu cl.toNat).mem (16 * rc.1 + j / 16) (16 * rc.2 + j % 16) (Words.get e0.words j)).1)
      ∧ y.kcount.toNat = min 131071 (e0.kcount.toNat + x.k) ∧ y.cls = e0.cls
      ∧ y.long = (e0.long || decide (65536 < e0.kcount.toNat + x.k))
      ∧ (∀ i, i ≠ e → SMap.get {} (t.clu cl.toNat).till i = SMap.get {} (s.clu cl.toNat).till i)
      ∧ (∃ u, (t.clu cl.toNat).mq = (s.clu cl.toNat).mq.set k u ∧ u = { r with tile := r.tile + 1, done := u.done })
      ∧ t.clu cl.toNat = { s.clu cl.toNat with till := (t.clu cl.toNat).till, mq := (t.clu cl.toNat).mq } ∧ ClusterOnly cl s t := by
  obtain ⟨y, run, words, count, cls, long⟩ := runTile_of_init init
  obtain ⟨queue, frame, only⟩ := tileSet_settled s cl k (s.entryOf cl.toNat r.q r.tile) y { r with tile := r.tile + 1 }
  have till := tile_native (r := { r with tile := r.tile + 1 }) (cl := cl) (k := k) native y (s.entryOf cl.toNat r.q r.tile)
  refine ⟨_, (matmul_tile hr isIn undone open_ begun awake more slot).trans (congrArg Host.Outcome.next (mxTile_native native run)), ?_⟩
  have entry := till (s.entryOf cl.toNat r.q r.tile)
  rw [if_pos rfl] at entry
  dsimp only
  rw [entry]
  exact ⟨words, count, cls, long, fun i hi => (till i).trans (if_neg hi), ⟨_, queue, rfl⟩, frame, only⟩

/-- A legacy sub-tile's entry has its products, and a command that is done empties its run. -/
theorem matmul_legacy {d : CluDesc} {b : Nat} {e' : TillE} (open_ : s.clOpen cl.toNat = true) (begun : r.started = true)
    (awake : r.waiting = false) (more : r.tile < (Mx.of r.q.img).tiles) (slot : (Mx.of r.q.img).slotFree r r.tile = true)
    (old : s.legacy r.q = true) (desc : (s.ctx r.q.ctx.toNat).desc (cCluster r.q.img) = some d)
    (found : legacyAt (s.clu cl.toNat).till d (Mx.of r.q.img).ebase = some b)
    (run : (Mx.of r.q.img).ztTile (legacyHalf r.q.img) (legacyRows r.q.img) (s.clu cl.toNat).mem
      (SMap.get {} (s.clu cl.toNat).till (s.entryOf cl.toNat r.q r.tile)) (legacyEnts r.q.img) r.tile = some e') :
    let r' : MxRun := { r with tile := r.tile + 1 }
    Completes (.matmul cl k) s fun t =>
      (∀ i, SMap.get {} (t.clu cl.toNat).till i = if legacyFrees r.q b r'.fin i = true then {}
        else if i = s.entryOf cl.toNat r.q r.tile then e' else SMap.get {} (s.clu cl.toNat).till i)
      ∧ (t.clu cl.toNat).mq = (s.clu cl.toNat).mq.set k r'.settled
      ∧ t.clu cl.toNat = { s.clu cl.toNat with till := (t.clu cl.toNat).till, mq := (t.clu cl.toNat).mq } ∧ ClusterOnly cl s t := by
  obtain ⟨queue, frame, only⟩ := tileSet_settled s cl k (s.entryOf cl.toNat r.q r.tile) e' { r with tile := r.tile + 1 }
  have place := entryOf_legacy old desc found r.tile
  refine ⟨_, (matmul_tile hr isIn undone open_ begun awake more slot).trans (congrArg Host.Outcome.next (mxTile_legacy old run)), ?_⟩
  exact ⟨tile_legacy (r := { r with tile := r.tile + 1 }) old desc found (by omega) (ztTile_heads run), queue, frame, only⟩

end

/-! ### Drains (R58, R65, R93) -/

/-- A FUSE drain into a group accepted early. -/
theorem drainFuse_leaves {cl : ClId} {k : Nat} {r : MxRun} {s : State} {gr : Grant} (hr : (s.clu cl.toNat).mq[k]? = some r)
    (grant : r.grant = some gr) (even : r.acked = r.drained) (more : r.offers.length + (Mx.of r.q.img).step < 16)
    (fuse : (Mx.of r.q.img).fuse = true) :
    let x := Mx.of r.q.img
    let t := (s.drainFuse cl.toNat k r).feedGroup cl.toNat k
    (∃ u, (t.clu cl.toNat).mq = (s.clu cl.toNat).mq.set k u
      ∧ u = { r with drained := r.drained + x.step, acked := r.drained + x.step, since := s.sched.clock, done := u.done
                     offers := r.offers ++ s.mxOffers cl.toNat r })
    ∧ (t.clu cl.toNat).mem = (s.mxOffers cl.toNat r).foldl (fun m o => x.storePeak (x.storeMask m o) o) (s.clu cl.toNat).mem
    ∧ t.census = ((s.mxOffers cl.toNat r).foldl (fun s o => s.reportOffer r.q o) s).census
    ∧ (s.legacy r.q = false → ∀ i, SMap.get {} (t.clu cl.toNat).till i =
        if x.frees = true ∧ i ∈ (s.mxOffers cl.toNat r).map (·.entry) then {} else SMap.get {} (s.clu cl.toNat).till i)
    ∧ (s.legacy r.q = true → ∀ d b, (s.ctx r.q.ctx.toNat).desc (cCluster r.q.img) = some d →
        legacyAt (s.clu cl.toNat).till d x.ebase = some b → ∀ i, SMap.get {} (t.clu cl.toNat).till i
          = if legacyFrees r.q b (decide (x.tiles ≤ r.drained + x.step)) i = true then {} else SMap.get {} (s.clu cl.toNat).till i)
    ∧ SameBut State.clu cl.toNat s t ∧ NotesOnly { s with cls := t.cls, census := t.census, hbm := t.hbm } t := by
  dsimp only
  rw [drainFuse_feeds hr grant even more]
  have own : (s.drainFuse cl.toNat k r).clu cl.toNat = { s.clu cl.toNat with mq := (s.clu cl.toNat).mq.set k (s.fused cl.toNat r) } :=
    setRun_clu ..
  have offered : ClusterOnly cl s (s.drainFuse cl.toNat k r) := setRun_only ..
  have length := mxOffers_length s cl.toNat r
  obtain ⟨mem, queue, census, native, old, only⟩ := release_settled (s.drainFuse cl.toNat k r) cl k
    { s.fused cl.toNat r with acked := r.acked + (s.mxOffers cl.toNat r).length } (s.mxOffers cl.toNat r)
  rw [own] at mem queue native old
  have reported := congrArg State.census
    (reportOffers_cls s (s.drainFuse cl.toNat k r).cls r.q (s.mxOffers cl.toNat r))
  have fin : MxRun.fin { s.fused cl.toNat r with acked := r.acked + (s.mxOffers cl.toNat r).length }
      = decide ((Mx.of r.q.img).tiles ≤ r.drained + (Mx.of r.q.img).step) := by
    have drain : (Mx.of r.q.img).drain ≠ 0 := fun zero => by unfold Mx.fuse at fuse; rw [zero] at fuse; cases fuse
    rw [length, even]
    exact if_neg drain
  rw [fin] at old
  obtain ⟨others, frame⟩ := offered.drain.trans only
  refine ⟨⟨_, queue.trans (List.set_set ..), ?_⟩, mem, census.trans reported, native, fun h d b desc found => ?_, others, frame⟩
  · rw [length, even]; rfl
  · exact old h d b desc found

/-! ### Tiles that a destination takes (R60, R63, R147) -/

/-- What an accepted tile leaves beside its own bytes, where no mask is written: the amax word, the Census, and nothing
else. -/
theorem tile_stored {cl : ClId} {k : Nat} {r : MxRun} {o : Offer} {os : List Offer} {s : State} {f : Mem → Mem} {a n : Nat}
    (front : r.offers = o :: os) (mask : (Mx.of r.q.img).masksel = 0) (but : BytesBut a n (s.clu cl.toNat).mem (f (s.clu cl.toNat).mem))
    (away : (Mx.of r.q.img).amaxEn = true → (Mx.of r.q.img).amaxA + 4 ≤ a ∨ a + n ≤ (Mx.of r.q.img).amaxA) :
    let x := Mx.of r.q.img
    let t := (s.modCl cl.toNat fun y => { y with mem := f y.mem }).mxAck cl.toNat k r 1
    (∀ b, a ≤ b → b < a + n → (t.clu cl.toNat).mem.read b = (f (s.clu cl.toNat).mem).read b)
    ∧ (∀ b, ¬(a ≤ b ∧ b < a + n) → ¬(x.amaxEn = true ∧ x.amaxA ≤ b ∧ b < x.amaxA + 4) →
        (t.clu cl.toNat).mem.read b = (s.clu cl.toNat).mem.read b)
    ∧ (x.amaxEn = true → (t.clu cl.toNat).mem.read32 x.amaxA = o.peakOn ((s.clu cl.toNat).mem.read32 x.amaxA))
    ∧ t.census = (s.reportOffer r.q o).census ∧ SameBut State.clu cl.toNat s t
    ∧ NotesOnly { s with cls := t.cls, census := t.census, hbm := t.hbm } t := by
  dsimp only
  obtain ⟨mem, -, census, -, -, others, frame⟩ := tile_taken (cl := cl) (k := k) s f front
  have none : (Mx.of r.q.img).storeMask (f (s.clu cl.toNat).mem) o = f (s.clu cl.toNat).mem := if_pos mask
  rw [none] at mem
  rw [mem]
  obtain ⟨inside, outside, peak⟩ := storePeak_stored (o := o) but away
  exact ⟨inside, outside, peak, census, others, frame⟩

/-- Settles O51: the life of a command's tiles, from its first beat over products and drains to their destination. -/
theorem matrixCommandsAccumulateAndDrain : Obligations.MatrixCommandsAccumulateAndDrain := by
  unfold Obligations.MatrixCommandsAccumulateAndDrain
  refine ⟨?runs, ?drains, ?accepts⟩
  case' runs =>
    intro cl k r s hr undone isIn x run
    refine ⟨?first, ?begins, ?error, ?native, ?legacy⟩
  case' drains =>
    intro cl k r s hr undone isIn x e v ready within
    refine ⟨?full, ?offers, ?feeds⟩
  case' accepts =>
    intro cl k r o os s hr front isIn x rc offDest stored
    refine ⟨?memory, fun mask => ⟨?tile, ?vault, ?fallback⟩⟩
  case first =>
    intro open_ fresh awake touch vault
    have first := matmul_first hr isIn undone open_ fresh awake touch vault
    refine ⟨fun f bad => ?_, fun sound held => ?_⟩
    · rw [bad] at first
      exact ⟨_, first, faultAt_faultedAt r.q f _ isIn⟩
    · rw [sound] at first
      exact ⟨_, first.trans (if_pos held), setRun_clu .., setRun_only ..⟩
  case begins =>
    intro j till at_ free native old
    have begin_ := begins hr isIn undone at_ free
    obtain ⟨u, take, taken⟩ := tileTake_ok native old
    refine ⟨fun plain => ⟨_, begin_.trans (congrArg _ (mxBegin_plain take plain)), taken.begins k r.begun⟩, fun i stack own => ?_⟩
    dsimp only
    rw [← own]
    have desc (w : PushTo) (hw : ∀ f a, w ≠ .fault f a) (at_ : s.pushTo r.q.ctx (cCluster r.q.img) i (Mx.of r.q.img).recordLen
        ((Mx.of r.q.img).w28 % 2 ^ 25 * 65536) = w) : ∃ d, (s.ctx r.q.ctx.toNat).desc (cCluster r.q.img) = some d :=
      pushTo_desc fun f a fault => hw f a (at_.symm.trans fault)
    subst own
    refine ⟨fun a w => ?_, fun w => ?_, fun f a w => ?_⟩
    · obtain ⟨d, desc⟩ := desc (.vault a) (fun _ _ => nofun) w
      exact ⟨_, begin_.trans (congrArg _ (mxBegin_vault take stack w)), taken.begins_vault desc k _ i _ _ a⟩
    · obtain ⟨d, desc⟩ := desc .hbm (fun _ _ => nofun) w
      exact ⟨_, begin_.trans (congrArg _ (mxBegin_hbm take stack w)), taken.begins_hbm desc k _ i _ _ _⟩
    · exact ⟨_, begin_.trans (congrArg _ (mxBegin_fault take stack w)), faultAt_faultedAt r.q (f, a) _ isIn⟩
  case error =>
    intro j d f at_ free old desc bad
    exact ⟨_, (begins hr isIn undone at_ free).trans (congrArg _ (mxBegin_error (tileTake_error old desc bad))),
      faultCmd_faulted _ _ _ _ _ (alive_resident isIn)⟩
  case native =>
    intro e0 open_ begun awake more slot native e m init
    exact matmul_native hr undone isIn open_ begun awake more slot native init
  case legacy =>
    intro d b e' open_ begun awake more slot old desc found fin e run
    exact matmul_legacy hr undone isIn open_ begun awake more slot old desc found run
  case full =>
    intro full j a b
    obtain ⟨mem, native, old, queue, only⟩ := drainFull_leaves s cl r k
    have place := tile_within (s := s) within
    have drain : x.drain ≠ 0 := fun zero => by
      have : (Mx.of r.q.img).full = true := full
      unfold Mx.full at this
      rw [show (Mx.of r.q.img).drain = 0 from zero] at this
      cases this
    have fin : r.fullNext.fin = decide (x.tiles ≤ r.drained + 1) := if_neg drain
    obtain ⟨words, tag, others⟩ := drained_reads (s.clu cl.toNat).mem (s.fullEntry r cl.toNat)
      (show a + 1024 ≤ b by show x.dst + 1024 * j + 1024 ≤ x.dst + 1024 * s.mxEnts r.q + 4 * j; omega)
    rw [fin] at old
    refine ⟨_, drain_full hr isIn undone full ready, ?_⟩
    dsimp only
    rw [mem]
    exact ⟨words, tag, others, native, old, ⟨_, queue, rfl⟩, only⟩
  case offers =>
    intro fuse room none
    refine ⟨_, (drain_fuse hr isIn undone fuse room).trans (congrArg _ (feedGroup_none (drainFuse_run hr) none)), ?_⟩
    have own : (s.drainFuse cl.toNat k r).clu cl.toNat = { s.clu cl.toNat with mq := (s.clu cl.toNat).mq.set k (s.fused cl.toNat r) } :=
      setRun_clu ..
    exact ⟨by rw [own]; rfl, own.trans (by rw [own]), setRun_only ..⟩
  case feeds =>
    intro gr fuse room grant even more
    exact ⟨_, drain_fuse hr isIn undone fuse room, drainFuse_leaves hr grant even more fuse⟩
  case memory =>
    intro dest
    exact ⟨_, (fuseTileAccept_eq hr front isIn).trans (if_pos dest), rfl⟩
  case tile =>
    intro dest convert row col away
    obtain ⟨-, queue, -, native, old, -⟩ := tile_taken (cl := cl) (k := k) s (fun m => x.storeTile m o) front
    obtain ⟨codes, but⟩ := storeTile_stands row col (s.clu cl.toNat).mem
    obtain ⟨inside, rest⟩ := tile_stored (cl := cl) (k := k) (f := fun m => x.storeTile m o) front mask but away
    refine ⟨_, (fuseTileAccept_eq hr front isIn).trans (if_pos dest), fun i j hi hj => ?_, rest, native, old, _, queue, rfl⟩
    exact (codeAt_output row col hi hj inside).trans (codes i j hi hj)
  case vault =>
    intro a dest convert scaled at_ bs away
    have other : x.dest ≠ 0 := by omega
    have parts : x.recordParts o = [(elemBytes x.outFmt 256 * o.tile, bs)] := by
      show _ :: (if x.cvt = 5 then _ else []) = _
      rw [if_neg scaled]
    have run := (fuseTileAccept_eq hr front isIn).trans ((if_neg other).trans (if_pos dest))
    rw [at_] at run
    dsimp only at run
    rw [parts] at run
    have stands := Mem.readBytes_writeBytes (s.clu cl.toNat).mem (a + elemBytes x.outFmt 256 * o.tile) bs
    obtain ⟨-, queue, -⟩ := tile_taken (cl := cl) (k := k) s (Mem.writeBytes · (a + elemBytes x.outFmt 256 * o.tile) bs) front
    obtain ⟨inside, rest⟩ := tile_stored (cl := cl) (k := k) (f := (Mem.writeBytes · (a + elemBytes x.outFmt 256 * o.tile) bs)) front mask
      (writeBytes_but (s.clu cl.toNat).mem _ bs) away
    exact ⟨_, run, (Mem.readBytes_congr inside).trans stands, rest, _, queue, rfl⟩
  case fallback =>
    intro dest at_ b guarded allowed
    have other : x.dest ≠ 0 := by omega
    have run := (fuseTileAccept_eq hr front isIn).trans ((if_neg other).trans (if_pos dest))
    rw [at_] at run
    dsimp only at run
    rw [if_neg (by rw [guarded]; exact Bool.false_ne_true), allowed] at run
    exact ⟨_, run, rfl⟩

end Sys2Proof.Machine
end
section
/-! SUPPORT. Groups at a Touchstone's door, and the teacher pass (R92, R93, R97, R98, R101). -/

namespace Sys2Proof.Machine

/-! ### The group at the door (R93) -/

/-- A group is the front of its command's offers. -/
theorem group_fields {r : MxRun} {i : Nat} {g : Grp} (h : r.group i = some g) :
    g.r = r ∧ g.q = r.q ∧ g.x = Mx.of r.q.img ∧ g.c = r.q.ctx.toNat ∧ g.os = r.offers.take 16 := by
  unfold MxRun.group at h
  dsimp only at h
  split at h
  · cases h
  · cases h; exact ⟨rfl, rfl, rfl, rfl, rfl⟩

/-- A group at the door is that of its slot's command, whose context is IN. -/
theorem groupAt_fields {s : State} {i k role : Nat} {g : Grp} (h : s.groupAt i k role = some g) :
    (s.clu i).mq[k]? = some g.r ∧ g.q = g.r.q ∧ g.x = Mx.of g.r.q.img ∧ g.c = g.r.q.ctx.toNat ∧ g.os = g.r.offers.take 16 := by
  unfold State.groupAt at h
  obtain ⟨r, hr, h⟩ := Option.bind_eq_some_iff.1 h
  obtain ⟨g', front, h⟩ := Option.bind_eq_some_iff.1 h
  dsimp only at h
  split at h
  · cases h
    obtain ⟨rfl, q, x, c, os⟩ := group_fields front
    exact ⟨hr, q, x, c, os⟩
  · cases h

/-! ### Groups whose tiles are acknowledged (R60) -/

/-- The run of a command whose 16 tiles a group has taken. -/
def MxRun.acked16 (r : MxRun) : MxRun := { r with offers := r.offers.drop 16, acked := r.acked + 16 }

theorem ackGroup_eq (s : State) (i k : Nat) (g : Grp) :
    s.ackGroup i k g = (s.mxRelease i g.r.q (g.r.offers.take 16)).mxSettle i k g.r.acked16 := rfl

theorem ackGroup_only (s : State) (cl : ClId) (k : Nat) (g : Grp) : DrainOnly cl s (s.ackGroup cl.toNat k g) := by
  rw [ackGroup_eq]
  exact (mxRelease_only ..).trans (mxSettle_only ..).drain

theorem DrainOnly.td {cl : ClId} {s t : State} (h : DrainOnly cl s t) : t.td = s.td := by
  have frame := h.2
  unfold NotesOnly at frame
  rw [frame]

theorem DrainOnly.free {cl : ClId} {s t : State} (h : DrainOnly cl s t) : t.free = s.free := by
  have frame := h.2
  unfold NotesOnly at frame
  rw [frame]

theorem DrainOnly.tdie {cl : ClId} {s t : State} (h : DrainOnly cl s t) (d : Nat) : t.tdie d = s.tdie d := by
  unfold State.tdie; rw [h.td]

theorem DrainOnly.prt {cl : ClId} {s t : State} (h : DrainOnly cl s t) (d c : Nat) : t.prt d c = s.prt d c := by
  unfold State.prt; rw [h.tdie]

/-- The run of a command whose group is accepted before it is whole. -/
def Grp.granted (g : Grp) (gr : Grant) : MxRun := { g.r with grant := some gr, acked := g.r.acked + g.os.length }

theorem grantGroup_eq (s : State) (i k : Nat) (g : Grp) (gr : Grant) :
    s.grantGroup i k g gr = (s.mxRelease i g.r.q g.os).mxSettle i k (g.granted gr) := rfl

theorem grantGroup_only (s : State) (cl : ClId) (k : Nat) (g : Grp) (gr : Grant) : DrainOnly cl s (s.grantGroup cl.toNat k g gr) := by
  rw [grantGroup_eq]
  exact (mxRelease_only ..).trans (mxSettle_only ..).drain

/-- Tiles that need no conversion report nothing. -/
theorem mxRelease_raw {s : State} {cl : ClId} {q : QE} (os : List Offer) (raw : (Mx.of q.img).cvt = 0) :
    ClusterOnly cl s (s.mxRelease cl.toNat q os) := by
  have silent (s : State) (os : List Offer) : os.foldl (fun s o => State.reportOffer s q o) s = s := by
    induction os generalizing s with
    | nil => rfl
    | cons o os ih => exact (congrArg (fun s => List.foldl _ s os) (if_pos raw)).trans (ih s)
  rw [mxRelease_eq]
  dsimp only
  rw [silent]
  split
  · exact (modCl_clusterOnly cl s _).trans (modCl_clusterOnly ..)
  · exact modCl_clusterOnly ..

theorem grantGroup_raw {s : State} {cl : ClId} {k : Nat} {g : Grp} {gr : Grant} (raw : (Mx.of g.r.q.img).cvt = 0) :
    ClusterOnly cl s (s.grantGroup cl.toNat k g gr) := by
  rw [grantGroup_eq]
  exact (mxRelease_raw g.os raw).trans (mxSettle_only ..)

/-- The command of a group accepted early has its grant, and the tiles it has are acknowledged. -/
theorem grantGroup_run {s : State} {cl : ClId} {k : Nat} {g : Grp} {gr : Grant} (hr : (s.clu cl.toNat).mq[k]? = some g.r) :
    ((s.grantGroup cl.toNat k g gr).clu cl.toNat).mq[k]? = some (g.granted gr).settled := by
  have bound : k < (s.clu cl.toNat).mq.length := (List.getElem?_eq_some_iff.1 hr).1
  obtain ⟨-, queue, -⟩ := release_settled s cl k (g.granted gr) g.os
  rw [grantGroup_eq]
  have run : (((s.mxRelease cl.toNat g.r.q g.os).mxSettle cl.toNat k (g.granted gr)).clu cl.toNat).mq = _ := queue
  rw [run]
  exact List.getElem?_set_self bound

/-! ### The teacher pass (R97, R98, R101) -/

section
variable {cl : ClId} {k : Nat} {g : Grp} {o : TeacherOp} {s : State} (hg : s.groupAt cl.toNat k 1 = some g)
  (op : opAt (s.prt g.die g.c).teacher g.q.seq = some o)
include hg op

/-- A group that its window withholds costs its partition a stalled beat. -/
theorem teacher_waits (own : o.dev = s.devId) (wait : s.teacherAdmit g o = .wait) :
    exec (.teacherGroupAccept cl k) s
      = .next (s.modPart o.die.toNat g.c fun p => { p with stall := satInc p.stall }) := by
  show execTeacherGroupAccept cl k s = _
  unfold execTeacherGroupAccept
  rw [hg]
  dsimp only
  rw [op]
  dsimp only
  rw [wait]
  exact congrArg Host.Outcome.next (if_pos own)

/-- A group with room in its window and in the token table is taken, whole or before it is whole. -/
theorem teacher_takes {mode : BitVec 2} {segs kk : Nat} (take : s.teacherAdmit g o = .take mode segs kk)
    (room : mode ≠ 2 ∨ s.tableRoom g.die g.q.ctx (s.teaNew g o) = true) :
    exec (.teacherGroupAccept cl k) s =
      if g.complete then .next ((s.ackGroup cl.toNat k g).teach g o { mode := mode, segs := segs, k := kk })
      else .next ((if mode = 2 then s.reserveTea g o else s).grantGroup cl.toNat k g { mode := mode, segs := segs, k := kk }) := by
  show execTeacherGroupAccept cl k s = _
  unfold execTeacherGroupAccept
  rw [hg]
  dsimp only
  rw [op]
  dsimp only
  rw [take]
  refine if_neg fun wait => ?_
  rw [Bool.and_eq_true, decide_eq_true_eq, Bool.not_eq_true'] at wait
  obtain ⟨topk, full⟩ := wait
  rcases room with other | room
  · exact other topk
  · rw [room] at full; cases full

end

/-- Where a TOPK group reserves, the dies' tables alone change. -/
theorem reserved_frame (s : State) (g : Grp) (o : TeacherOp) (mode : BitVec 2) :
    (if mode = 2 then s.reserveTea g o else s)
      = { s with td := (if mode = 2 then s.reserveTea g o else s).td } := by
  split
  · rfl
  · rfl

/-- A group that its window withholds. -/
theorem admit_withheld {s : State} {g : Grp} {o : TeacherOp} (own : o.dev = s.devId) (valid : (s.prt o.die.toNat g.c).valid = true)
    (shut : (s.prt o.die.toNat g.c).admitsTok g.t0 g.x.rows = false) : s.teacherAdmit g o = .wait := by
  unfold State.teacherAdmit
  rw [if_pos own]
  dsimp only
  rw [valid, shut]
  rfl

/-- From `s` to `t` deposits for the same device join the edge to another die. -/
theorem sendDeposit_edge {s : State} {g : Grp} {o : TeacherOp} {geo : Geo} {d : Deposit} (own : o.dev = s.devId)
    (other : d.dst.val ≠ g.die) : s.sendDeposit g o geo d = s.modTd d.dst.val fun t => { t with dep := t.dep ++ [d] } := by
  unfold State.sendDeposit
  rw [if_neg (fun c => c own), if_neg other]

/-- A die with deposits at its edge. -/
def State.edged (s : State) (die : Nat) (ds : List Deposit) : State := ds.foldl (fun s d => s.modTd die fun t => { t with dep := t.dep ++ [d] }) s

theorem edged_frame (s : State) (die : Nat) (ds : List Deposit) : s.edged die ds = { s with td := (s.edged die ds).td } := by
  induction ds generalizing s with
  | nil => rfl
  | cons d ds ih => exact (ih _).trans rfl

theorem edged_die (s : State) (die : Nat) (ds : List Deposit) :
    (s.edged die ds).tdie die = { s.tdie die with dep := (s.tdie die).dep ++ ds } := by
  induction ds generalizing s with
  | nil => exact (congrArg (fun l => { s.tdie die with dep := l }) (List.append_nil _)).symm
  | cons d ds ih =>
    refine (ih _).trans ?_
    rw [State.modTd_same, List.append_assoc]
    rfl

theorem edged_others (s : State) {die j : Nat} (ds : List Deposit) (h : j ≠ die) : (s.edged die ds).tdie j = s.tdie j := by
  induction ds generalizing s with
  | nil => rfl
  | cons d ds ih => exact (ih _).trans (State.modTd_ne _ _ h)

theorem sendDeposits_edge {s : State} {g : Grp} {o : TeacherOp} {geo : Geo} {ds : List Deposit} {die : Nat} (own : o.dev = s.devId)
    (dst : ∀ d ∈ ds, d.dst.val = die) (other : die ≠ g.die) :
    ds.foldl (fun s d => s.sendDeposit g o geo d) s = s.edged die ds := by
  induction ds generalizing s with
  | nil => rfl
  | cons d ds ih =>
    obtain ⟨here, rest⟩ := List.forall_mem_cons.1 dst
    rw [List.foldl_cons, sendDeposit_edge own (here ▸ other), here, ih (s := s.modTd die _) own rest]
    rfl

/-- The deposits of a FULL or FEATURE group for another die of this device stand at the edge to it. -/
theorem teachFull_leaves {s : State} {g : Grp} {o : TeacherOp} (mode : BitVec 2) (segs k : Nat) (own : o.dev = s.devId)
    (other : o.die.toNat ≠ g.die) :
    let t := s.teachFull g o mode segs k
    (t.tdie o.die.toNat).dep = (s.tdie o.die.toNat).dep ++ g.rows.map (g.fullRow o mode s.free)
      ∧ SameBut State.tdie o.die.toNat s t ∧ t.free = s.free + 256 * g.x.rows ∧ DataOnly s t ∧ t.host = s.host := by
  have fmt : teacherFmt mode < 8 := by unfold teacherFmt; split <;> decide
  have reports := count_reports { s with free := s.free + 256 * g.x.rows } g.die g.c (cTensor g.q.img)
    (tallyOf (g.rows.map fun r => teacherConv mode.toNat (g.val r)).flatten) fmt
  have drawn : DataOnly s { s with free := s.free + 256 * g.x.rows } := rfl
  have counted := drawn.trans reports.dataOnly
  have run : s.teachFull g o mode segs k = State.edged _ o.die.toNat (g.rows.map (g.fullRow o mode s.free)) :=
    sendDeposits_edge (own.trans counted.devId.symm)
      (fun d hd => by obtain ⟨r, -, rfl⟩ := List.mem_map.1 hd; rfl) other
  dsimp only
  rw [run]
  refine ⟨?_, fun j hj => (edged_others _ _ hj).trans (reports.tdie j), ?_, counted.trans ?_, ?_⟩
  · rw [edged_die]
    exact congrArg (fun t : TouchDie => t.dep ++ g.rows.map (g.fullRow o mode s.free)) (reports.tdie _)
  · rw [edged_frame]
    exact reports.free
  · rw [edged_frame]
    rfl
  · rw [edged_frame]
    exact reports.host

end Sys2Proof.Machine
end
section
/-! SUPPORT. Pass S: a group is taken, and a row of a token of one segment merges (R103, R107, R109, R110, R113). -/

namespace Sys2Proof.Machine

section
variable {cl : ClId} {k : Nat} {g : Grp} {o : StudentOp} {s : State} (hg : s.groupAt cl.toNat k 2 = some g)
  (op : opAt (s.prt g.die g.c).student g.q.seq = some o) (slots : ∀ r ∈ g.rows, (s.prt g.die g.c).tokSt (g.tok r) = 2)
  (shut : s.cluShut o.cl.toNat = false)
  (room : s.tableRoom g.die g.q.ctx
    (g.rows.filter fun r => !((s.tdie g.die).tok.any (isStu g.q.ctx ((s.prt g.die g.c).num64 (g.tok r))))).length = true)
include hg op slots shut room

/-- A group whose slots are COMPLETE, with room in the table and the LOSS vector's cluster open. -/
theorem passS_eq : exec (.passSGroupAccept cl k) s =
    match s.passSFault g (s.prt g.die g.c) o with
    | some f => .next (s.faultCmd g.q f 0 (BitVec.ofNat 16 g.die))
    | none =>
      if g.complete then .next (g.rows.foldl (fun s r => s.passSRow g o r) (s.ackGroup cl.toNat k g))
      else .next ((s.reserveStu g o).grantGroup cl.toNat k g {}) := by
  have complete : (g.rows.all fun r => decide ((s.prt g.die g.c).tokSt (g.tok r) = 2)) = true :=
    List.all_eq_true.2 fun r hr => decide_eq_true (slots r hr)
  show execPassSGroupAccept cl k s = _
  unfold execPassSGroupAccept
  rw [hg]
  dsimp only
  rw [op]
  dsimp only
  rw [complete, room, shut]
  rfl

end

/-- A segment joins an entry. -/
theorem streamed_whole {e : TokE} {geo : Geo} {x : Slot} {it : W32} {y : Nat → W32} (one : geo.segs = 1) :
    (e.streamed geo x it 0 y).whole geo.segs = true := by
  rw [one]
  unfold TokE.whole TokE.streamed
  rw [List.range_one, List.all_cons, SMap.get_set_same]
  rfl

/-- A slot merged is STUDENT. -/
theorem merged_state (p : Part) (t : W32) : ((p.merged t).slot t).state = 3 :=
  congrArg Slot.state (SMap.get_upd_same (d := ({} : Slot)) p.slots (p.slotIx t) fun x => { x with state := 3 })

theorem modPart_clu (s : State) (d c : Nat) (f : Part → Part) (j : Nat) : (s.modPart d c f).clu j = s.clu j := rfl

/-- A cluster's memory with a token's loss and flags in the LOSS vector (Table TS.5). -/
def lossWords (m : Mem) (a : Nat) (loss flags : W32) : Mem := Mem.writeN (Mem.writeN m a 4 loss.toNat) (a + 4) 4 flags.toNat

theorem lossWords_read (m : Mem) (a : Nat) (loss flags : W32) :
    Mem.read32 (lossWords m a loss flags) a = loss ∧ Mem.read32 (lossWords m a loss flags) (a + 4) = flags := by
  unfold lossWords
  exact ⟨(Mem.read32_congr fun b _ high => Mem.read_writeN_out (.inl high)).trans (Mem.read32_writeN ..), Mem.read32_writeN ..⟩

/-- One row of a token of one segment: it merges at once, its loss and flags stand, and its slot is STUDENT. -/
theorem passSRow_merges {s : State} {g : Grp} {o : StudentOp} {r : Nat} (one : (s.prt g.die g.c).geo.segs = 1) (seg : g.seg = 0)
    (keep : o.noGrad = false)
    (new : (s.tdie g.die).tok.find? (isStu g.q.ctx ((s.prt g.die g.c).num64 (g.tok r))) = none) :
    let t := g.tok r
    let p := s.prt g.die g.c
    let v := ((s.stuNew g o t).streamed p.geo (p.slot t) o.invTau 0 (g.val r)).merge p.geo (p.slot t) o (State.featAt p g.q.seq)
    let u := s.passSRow g o r
    let a := o.loss + 8 * (t - o.t).toNat
    (u.clu o.cl.toNat).mem.read32 a = v.2.1 ∧ (u.clu o.cl.toNat).mem.read32 (a + 4) = v.2.2 ∧ ((u.prt g.die g.c).slot t).state = 3 := by
  have whole := streamed_whole (e := s.stuNew g o (g.tok r)) (x := (s.prt g.die g.c).slot (g.tok r)) (it := o.invTau) (y := g.val r) one
  dsimp only
  unfold State.passSRow
  dsimp only
  rw [new, Option.getD_none, seg, if_pos whole, keep, if_neg Bool.false_ne_true]
  have mem (u : State) (f : Part → Part) (loss flags : W32) (a : Nat) :
      ((State.modPart (u.modCl o.cl.toNat fun y => { y with mem := lossWords y.mem a loss flags }) g.die g.c f).clu o.cl.toNat).mem
        = lossWords (u.clu o.cl.toNat).mem a loss flags := by
    rw [modPart_clu, State.modCl_same]
  obtain ⟨loss, flags⟩ := lossWords_read (Cluster.mem (State.clu _ o.cl.toNat)) (o.loss + 8 * (g.tok r - o.t).toNat)
    (TokE.merge _ _ _ _ _).2.1 (TokE.merge _ _ _ _ _).2.2
  exact ⟨(congrArg (Mem.read32 · _) (mem ..)).trans loss, (congrArg (Mem.read32 · _) (mem ..)).trans flags,
    (congrArg (fun p : Part => (p.slot (g.tok r)).state) (State.modPart_same ..)).trans (merged_state ..)⟩

end Sys2Proof.Machine
end
section
/-! SUPPORT. Pass B: rows land in a slot of the ring, and nothing else of any cluster's memory changes (R104 to R106). The
statement on segment groups (O50). -/

namespace Sys2Proof.Machine

/-! ### What leaves the clusters' memories and rings -/

/-- From `s` to `t` no memory of a cluster changes, nor what a cluster keeps for contexts, a semaphore or a persistent
cell. -/
def ClustersKept (s t : State) : Prop :=
  (∀ j, (t.clu j).mem = (s.clu j).mem ∧ (t.clu j).per = (s.clu j).per) ∧ t.sems = s.sems ∧ t.nv = s.nv

theorem ClustersKept.refl (s : State) : ClustersKept s s := ⟨fun _ => ⟨rfl, rfl⟩, rfl, rfl⟩

theorem ClustersKept.trans {s t u : State} (h : ClustersKept s t) (k : ClustersKept t u) : ClustersKept s u := by
  obtain ⟨clusters, sems, nv⟩ := h
  obtain ⟨clusters', sems', nv'⟩ := k
  exact ⟨fun j => ⟨(clusters' j).1.trans (clusters j).1, (clusters' j).2.trans (clusters j).2⟩, sems'.trans sems, nv'.trans nv⟩

theorem modTd_kept (s : State) (d : Nat) (f : TouchDie → TouchDie) : ClustersKept s (s.modTd d f) := .refl s

theorem faultCtx_kept (s : State) (c : CtxId) (code : U16) (detail : W64) (cmd : W32) (unit : U16) (irq : Bool) :
    ClustersKept s (faultCtx s c code detail cmd unit irq) := by
  by_cases alive : (s.ctx c.toNat).st.alive
  · obtain ⟨-, -, -, -, nv, -, -, sems, -⟩ := faultCtx_faulted s c code detail cmd unit irq alive
    exact ⟨fun j => ⟨faultCtx_mem _ _ _ _ _ _ _ alive j, faultCtx_per _ _ _ _ _ _ _ alive j⟩, sems, nv⟩
  · rw [faultCtx_idle _ _ _ _ _ _ _ alive]
    exact .refl s

theorem enqueue_kept {s t : State} {k : Packet} {from_ : Option Nat} (h : s.enqueue k from_ = some t) : ClustersKept s t := by
  unfold State.enqueue at h
  split at h
  · cases h; exact .refl s
  · split at h
    · cases h
    · cases h; exact .refl s

/-- A packet of a context waits at a port, or its context faults (R228). -/
theorem send_kept (s : State) (k : Packet) (cmd : W32) : ClustersKept s (s.send k cmd) := by
  unfold State.send
  split
  · next queued => exact enqueue_kept queued
  · exact faultCtx_kept ..

theorem creditReturns_kept (s : State) (die c : Nat) : ClustersKept s (s.creditReturns die c) := by
  have sent := foldl_rel (R := ClustersKept) (g := fun s (q : DevId × CtxId × W32) => s.creditReturn die c (q.1, q.2.1))
    (l := (s.prt die c).pairs.filter fun q => (s.prt die c).owes q.2.2) .refl .trans (fun s _ _ => send_kept s _ 0) s
  exact sent.trans (.refl _)

/-- A token is withdrawn: the dies alone change, and credit is returned. -/
theorem withdrawTok_kept (s : State) (die : Nat) (c : CtxId) (t : W32) : ClustersKept s (s.withdrawTok die c t) :=
  creditReturns_kept _ die c.toNat

theorem Reports.kept {c : Nat} {s t : State} (h : Reports c s t) : ClustersKept s t :=
  ⟨fun j => by rw [h.clu]; exact ⟨rfl, rfl⟩, h.dataOnly.sems, h.dataOnly.nv⟩

/-! ### A row lands (R105) -/

theorem gradRow_length (e : TokE) (geo : Geo) (x : Slot) (f : FeatOp) (go : GradOp) (seed : W64) (t : W32) (seg : Nat)
    (y : Nat → W32) : (gradRow e geo x f go seed t seg y).length ≤ 256 := by
  unfold gradRow
  split
  · rw [List.length_replicate]
  · split
    · rw [List.length_replicate]
    · split
      · exact Nat.zero_le _
      · rw [List.length_map, List.length_range]

/-- A row's elements lie in their landing slot. -/
theorem landRow_but (m : Mem) (a : Nat) {r : Nat} {vs : List Conv} (row : r < 16) (len : vs.length ≤ 256) :
    BytesBut a 8192 m (landRow m a r vs) := by
  refine foldl_rel (R := BytesBut a 8192) (BytesBut.refl _ _) BytesBut.trans (fun m v hv b out => ?_) m
  obtain ⟨-, index, -⟩ := List.mem_zipIdx hv
  exact Mem.read_writeN_out (by omega)

/-- From `s` to `t` no memory of a cluster changes but the landing slot at `a` of cluster `i`, nor anything the clusters keep
for contexts, a semaphore or a persistent cell. -/
def Landed (i a : Nat) (s t : State) : Prop :=
  BytesBut a 8192 (s.clu i).mem (t.clu i).mem ∧ (∀ j, j ≠ i → (t.clu j).mem = (s.clu j).mem) ∧ (t.clu i).per = (s.clu i).per
    ∧ t.sems = s.sems ∧ t.nv = s.nv

theorem ClustersKept.landed {s t : State} (h : ClustersKept s t) (i a : Nat) : Landed i a s t := by
  obtain ⟨clusters, sems, nv⟩ := h
  exact ⟨fun b _ => by rw [(clusters i).1], fun j _ => (clusters j).1, (clusters i).2, sems, nv⟩

theorem Landed.trans {i a : Nat} {s t u : State} (h : Landed i a s t) (k : Landed i a t u) : Landed i a s u := by
  obtain ⟨slot, others, per, sems, nv⟩ := h
  obtain ⟨slot', others', per', sems', nv'⟩ := k
  exact ⟨BytesBut.trans slot slot', fun j hj => (others' j hj).trans (others j hj), per'.trans per, sems'.trans sems, nv'.trans nv⟩

/-- One row of a pass-B group lands. -/
theorem passBRow_landed (s : State) (i : Nat) (g : Grp) (go : GradOp) (a : Nat) {r : Nat} (row : r < 16) :
    Landed i a s (s.passBRow i g go a r) := by
  have landed (vs : List Conv) (len : vs.length ≤ 256) (tally : Tally4) :
      Landed i a s ((s.modCl i fun y => { y with mem := landRow y.mem a r vs }).count g.die g.c go.tid 0 tally) := by
    refine .trans ?_ ((count_reports _ g.die g.c go.tid (fmt := 0) tally (by decide)).kept.landed i a)
    refine ⟨?_, fun j hj => by rw [State.modCl_ne _ _ hj], by rw [State.modCl_same], rfl, rfl⟩
    rw [State.modCl_same]
    exact landRow_but _ a row len
  unfold State.passBRow
  dsimp only
  split
  · exact (ClustersKept.refl s).landed i a
  · next e _ =>
    generalize (if e.landed.contains g.seg = true then e.landed else g.seg :: e.landed) = l
    split
    · refine .trans ?_ ((withdrawTok_kept _ g.die g.q.ctx (g.tok r)).landed i a)
      refine .trans ?_ ((modTd_kept _ g.die _).landed i a)
      exact landed _ (gradRow_length ..) _
    · refine .trans ?_ ((modTd_kept _ g.die _).landed i a)
      exact landed _ (gradRow_length ..) _

/-! ### A group is taken -/

/-- The ring of a context on a cluster with its next slot filled. -/
def State.ringSet (s : State) (i c : Nat) (r : Ring) : State := s.modCl i fun y => y.modPc c fun z => { z with ring := r }

theorem ringSet_ring (s : State) (i c : Nat) (r : Ring) : (((s.ringSet i c r).clu i).pc c).ring = r := by
  unfold State.ringSet
  rw [State.modCl_same]
  exact congrArg CtxCl.ring (SMap.get_upd_same (d := ({} : CtxCl)) (s.clu i).per c fun z => { z with ring := r })

theorem ringSet_mem (s : State) (i c : Nat) (r : Ring) (j : Nat) : ((s.ringSet i c r).clu j).mem = (s.clu j).mem := by
  unfold State.ringSet
  by_cases h : j = i
  · rw [h, State.modCl_same]; rfl
  · rw [State.modCl_ne _ _ h]

section
variable {cl : ClId} {k : Nat} {g : Grp} {go : GradOp} {ring : Ring} {s : State} (hg : s.groupAt cl.toNat k 3 = some g)
  (op : opAt (s.prt g.die g.c).grad g.q.seq = some go) (offer : ((s.clu cl.toNat).pc g.c).ring.offer go = some ring)
include hg op offer

theorem passB_range (out : inTokens g.t0 g.x.rows go.t go.count = false) :
    exec (.passBGroupAccept cl k) s = .next (s.faultCmd g.q 0x0207 0 (BitVec.ofNat 16 g.die)) := by
  show execPassBGroupAccept cl k s = _
  unfold execPassBGroupAccept
  rw [hg]
  dsimp only
  rw [op]
  dsimp only
  rw [offer]
  dsimp only
  rw [out]
  rfl

/-- A whole group of the operation's tokens whose slots are STUDENT. -/
theorem passB_whole (inside : inTokens g.t0 g.x.rows go.t go.count = true)
    (slots : ∀ r ∈ g.rows, (s.prt g.die g.c).tokSt (g.tok r) = 3) (whole : g.complete = true) :
    exec (.passBGroupAccept cl k) s =
      if g.rows.all (s.recomputed g (s.prt g.die g.c)) = true then
        .next (g.rows.foldl (fun s r => s.passBRow cl.toNat g go (ring.base * 128 + 8192 * ring.fill) r)
          ((s.ackGroup cl.toNat k g).ringSet cl.toNat g.c ring.filled))
      else .next (s.faultCmd g.q 0x0204 0 (BitVec.ofNat 16 g.die)) := by
  have student : (g.rows.all fun r => decide ((s.prt g.die g.c).tokSt (g.tok r) = 3)) = true :=
    List.all_eq_true.2 fun r hr => decide_eq_true (slots r hr)
  show execPassBGroupAccept cl k s = _
  unfold execPassBGroupAccept
  rw [hg]
  dsimp only
  rw [op]
  dsimp only
  rw [offer]
  dsimp only
  rw [inside, student, whole]
  cases g.rows.all (s.recomputed g (s.prt g.die g.c)) <;> rfl

end

/-- Without masks, taken tiles change the amax word alone. -/
theorem taken_amax {x : Mx} (mask : x.masksel = 0) (m : Mem) (os : List Offer) {b : Nat}
    (out : ¬(x.amaxEn = true ∧ x.amaxA ≤ b ∧ b < x.amaxA + 4)) : Mem.read (x.taken m os) b = Mem.read m b := by
  unfold Mx.taken
  induction os generalizing m with
  | nil => rfl
  | cons o os ih =>
    rw [List.foldl_cons, ih, read_storePeak out, show x.storeMask m o = m from if_pos mask]

/-- A group whose 16 tiles are acknowledged, without masks: in its cluster's memory the amax word alone changes. -/
theorem ackGroup_memory {s : State} {cl : ClId} {k : Nat} {g : Grp} (mask : (Mx.of g.r.q.img).masksel = 0) {b : Nat}
    (out : ¬((Mx.of g.r.q.img).amaxEn = true ∧ (Mx.of g.r.q.img).amaxA ≤ b ∧ b < (Mx.of g.r.q.img).amaxA + 4)) :
    ((s.ackGroup cl.toNat k g).clu cl.toNat).mem.read b = (s.clu cl.toNat).mem.read b := by
  obtain ⟨mem, -⟩ := release_settled s cl k g.r.acked16 (g.r.offers.take 16)
  have run : ((s.ackGroup cl.toNat k g).clu cl.toNat).mem = _ := mem
  rw [run]
  exact taken_amax mask _ _ out

/-- A group takes its landing slot and its rows land there. -/
theorem passB_leaves {s : State} {cl : ClId} {k : Nat} {g : Grp} (go : GradOp) (ring : Ring)
    (mask : (Mx.of g.r.q.img).masksel = 0) (rows : g.x.rows ≤ 16) :
    let a := ring.base * 128 + 8192 * ring.fill
    let t := g.rows.foldl (fun s r => s.passBRow cl.toNat g go a r) ((s.ackGroup cl.toNat k g).ringSet cl.toNat g.c ring.filled)
    ((t.clu cl.toNat).pc g.c).ring = ring.filled
      ∧ (∀ b, ¬(a ≤ b ∧ b < a + 8192) →
          ¬((Mx.of g.r.q.img).amaxEn = true ∧ (Mx.of g.r.q.img).amaxA ≤ b ∧ b < (Mx.of g.r.q.img).amaxA + 4) →
          (t.clu cl.toNat).mem.read b = (s.clu cl.toNat).mem.read b)
      ∧ (∀ j, j ≠ cl.toNat → (t.clu j).mem = (s.clu j).mem) ∧ t.sems = s.sems ∧ t.nv = s.nv := by
  intro a t
  have landed : Landed cl.toNat a ((s.ackGroup cl.toNat k g).ringSet cl.toNat g.c ring.filled) t :=
    foldl_rel (fun s => (ClustersKept.refl s).landed _ _) .trans
      (fun s r hr => passBRow_landed s cl.toNat g go a ((List.mem_range.1 hr).trans_le rows)) _
  obtain ⟨slot, others, per, sems, nv⟩ := landed
  have acked := ackGroup_only s cl k g
  refine ⟨?_, fun b out outPeak => ?_, fun j hj => ?_, sems.trans acked.dataOnly.sems, nv.trans acked.dataOnly.nv⟩
  · have same : (t.clu cl.toNat).pc g.c = (((s.ackGroup cl.toNat k g).ringSet cl.toNat g.c ring.filled).clu cl.toNat).pc g.c := by
      unfold Cluster.pc; rw [per]
    rw [same]
    exact ringSet_ring ..
  · rw [slot b out, ringSet_mem]
    exact ackGroup_memory mask outPeak
  · rw [others j hj, ringSet_mem, acked.1 j hj]

/-- Settles O50, pass by pass: the teacher pass, pass S, pass B. -/
theorem segmentGroupsGoThroughTheirPass : Obligations.SegmentGroupsGoThroughTheirPass := by
  unfold Obligations.SegmentGroupsGoThroughTheirPass
  refine ⟨?teacher, ?withheld, ?passS, ?passB⟩
  case teacher =>
    intro cl k g o mode segs kk s hg op take room
    obtain ⟨hr, -, x, -, -⟩ := groupAt_fields hg
    have run := teacher_takes hg op take room
    refine ⟨fun part => ?_, fun whole => ?_⟩
    · rw [part] at run
      have reserved := reserved_frame s g o mode
      have clu : (if mode = 2 then s.reserveTea g o else s).clu cl.toNat = s.clu cl.toNat := by rw [reserved]; rfl
      have queue := grantGroup_run (s := if mode = 2 then s.reserveTea g o else s) (gr := { mode := mode, segs := segs, k := kk })
        (by rw [clu]; exact hr)
      refine ⟨_, run, _, queue, rfl, rfl, rfl, rfl, ?_, fun raw => ?_⟩
      · have frame := (grantGroup_only (if mode = 2 then s.reserveTea g o else s) cl k g { mode := mode, segs := segs, k := kk }).2
        generalize State.grantGroup _ _ _ _ _ = t at frame ⊢
        unfold NotesOnly at frame ⊢
        rw [frame, reserved]
      · rw [x] at raw
        have frame := (grantGroup_raw (s := if mode = 2 then s.reserveTea g o else s) (cl := cl) (k := k)
          (gr := { mode := mode, segs := segs, k := kk }) raw).2
        generalize State.grantGroup _ _ _ _ _ = t at frame ⊢
        rw [frame, reserved]
    · rw [whole] at run
      refine ⟨_, run, rfl, fun full own other => ?_⟩
      have acked := ackGroup_only s cl k g
      have taught : (s.ackGroup cl.toNat k g).teach g o { mode := mode, segs := segs, k := kk }
          = (s.ackGroup cl.toNat k g).teachFull g o mode segs kk := if_neg full
      obtain ⟨dep, others, free, only, host⟩ := teachFull_leaves (s := s.ackGroup cl.toNat k g) mode segs kk
        (own.trans acked.dataOnly.devId.symm) other
      rw [taught]
      rw [acked.tdie, acked.free] at dep
      have all := acked.dataOnly.trans only
      have host' : State.host _ = s.host := host.trans (by have frame := acked.2; unfold NotesOnly at frame; rw [frame])
      refine ⟨dep, fun j hj => (others j hj).trans (acked.tdie j), all.ctxs, by rw [free, acked.free], ?_⟩
      unfold DataOnly at all
      rw [host'] at all
      exact all
  case withheld =>
    intro cl k g o s hg op own valid shut
    exact ⟨_, teacher_waits hg op own (admit_withheld own valid shut), State.modPart_same .., rfl⟩
  case passS =>
    intro cl k g o s hg p op slots shut room
    have run := passS_eq hg op slots shut room
    refine ⟨fun f bad isIn => ?_, fun sound whole => ?_⟩
    · rw [bad] at run
      exact ⟨_, run, faultCmd_faulted _ _ _ _ _ (alive_resident isIn)⟩
    · rw [sound] at run
      refine ⟨_, run.trans (if_pos whole), rfl, fun single one seg keep new => ?_⟩
      have acked := ackGroup_only s cl k g
      have prt : (s.ackGroup cl.toNat k g).prt g.die g.c = s.prt g.die g.c := acked.prt ..
      have first : g.tok 0 = g.t0 := BitVec.add_zero _
      have merges := passSRow_merges (s := s.ackGroup cl.toNat k g) (g := g) (o := o) (r := 0) (by rw [prt]; exact one) seg keep
        (by rw [prt, acked.tdie, first]; exact new)
      unfold State.stuNew at merges
      rw [prt, first] at merges
      rw [single]
      exact merges
  case passB =>
    intro cl k g go ring s hg p op offer isIn
    obtain ⟨-, -, x, -, -⟩ := groupAt_fields hg
    refine ⟨fun out => ⟨_, passB_range hg op offer out, faultCmd_faulted _ _ _ _ _ (alive_resident isIn)⟩,
      fun inside slots whole => ?_⟩
    have run := passB_whole hg op offer inside slots whole
    refine ⟨fun differ => ?_, fun recomputed mask rows => ?_⟩
    · exact ⟨_, run.trans (if_neg (by rw [differ]; exact Bool.false_ne_true)), faultCmd_faulted _ _ _ _ _ (alive_resident isIn)⟩
    · rw [x] at mask
      obtain ⟨filled, memory, others, sems, nv⟩ := passB_leaves (s := s) (cl := cl) (k := k) go ring mask rows
      rw [← x] at memory
      exact ⟨_, run.trans (if_pos recomputed), filled, rfl, memory, others, sems, nv⟩

end Sys2Proof.Machine
end
section
/-! SUPPORT. The registers of the vector engine: mask registers bit by bit, lanes after a write under MASK and ZERO, and what an
instruction at the head of its program answers (R74 to R77, R80). -/

namespace Sys2Proof.Machine

/-! ### Bits of a mask register (R74) -/

/-- The number whose bit `j` is `f j`, of the first `n` bits. -/
def maskBits (f : Nat → Bool) (n : Nat) : Nat := (List.range n).foldl (fun w j => if f j then w + 2 ^ j else w) 0

theorem mask64_eq (f : Nat → Bool) : mask64 f = BitVec.ofNat 64 (maskBits f 64) := rfl

theorem maskBits_succ (f : Nat → Bool) (n : Nat) :
    maskBits f (n + 1) = if f n = true then 2 ^ n + maskBits f n else maskBits f n := by
  rw [Nat.add_comm (2 ^ n)]
  simp only [maskBits, List.range_succ, List.foldl_append, List.foldl_cons, List.foldl_nil]

theorem maskBits_lt (f : Nat → Bool) (n : Nat) : maskBits f n < 2 ^ n := by
  induction n with
  | zero => exact Nat.one_pos
  | succ n ih =>
    rw [maskBits_succ, Nat.pow_succ]
    split <;> omega

theorem testBit_maskBits (f : Nat → Bool) {n j : Nat} (h : j < n) : (maskBits f n).testBit j = f j := by
  induction n with
  | zero => omega
  | succ n ih =>
    have top := Nat.testBit_lt_two_pow (maskBits_lt f n)
    rw [maskBits_succ]
    rcases Nat.lt_succ_iff_lt_or_eq.1 h with below | rfl
    · split
      · rw [Nat.testBit_two_pow_add_gt below, ih below]
      · exact ih below
    · split
      next set => rw [Nat.testBit_two_pow_add_eq, top, set]; rfl
      next clear => rw [top, Bool.eq_false_iff.2 clear]

/-- The bits of a mask that is given bit by bit. -/
theorem bit_mask64 (f : Nat → Bool) {j : Nat} (h : j < 64) : bit (mask64 f).toNat j = f j := by
  rw [mask64_eq, BitVec.toNat_ofNat, Nat.mod_eq_of_lt (maskBits_lt f 64)]
  exact testBit_maskBits f h

theorem kreg_congr {x y : Cluster} (h : y.k = x.k) (r : Nat) : y.kreg r = x.kreg r := by
  unfold Cluster.kreg
  rw [h]

theorem lane_congr {x y : Cluster} (h : y.v = x.v) (r j : Nat) : y.lane r j = x.lane r j := by
  unfold Cluster.lane
  rw [h]

/-- A mask register of the eight after one of them is set. -/
theorem kreg_set (x : Cluster) (r n : Nat) (w : W64) :
    Cluster.kreg { x with k := SMap.set 0 x.k (r % 8) w } n = if n % 8 = r % 8 then w else x.kreg n := SMap.get_set ..

/-! ### Lanes of a register (R74, R76) -/

/-- What MASK and ZERO leave of `old` in lane `j`, where the instruction gives `new`. -/
def VI.merge {α : Type} (i : VI) (x : Cluster) (zero : α) (j : Nat) (new old : α) : α :=
  if i.active x j = true then new else if i.zero = true then zero else old

/-- Lane `j` of register `vd` written under MASK and ZERO. -/
def VI.putLane (i : VI) (x : Cluster) (vd : Nat) (f : Nat → W32) (v : Words) (j : Nat) : Words :=
  if i.active x j then Words.set v (64 * vd + j) (f j) else if i.zero then Words.set v (64 * vd + j) 0 else v

section
variable (i : VI) (x : Cluster) (vd : Nat) (f : Nat → W32)

theorem get_putLane (v : Words) (j m : Nat) :
    Words.get (i.putLane x vd f v j) m = if m = 64 * vd + j then i.merge x 0 j (f j) (Words.get v m) else Words.get v m := by
  unfold VI.putLane VI.merge Words.get Words.set
  split
  · exact SMap.get_set ..
  · split
    · exact SMap.get_set ..
    · exact (ite_self _).symm

/-- The first `n` lanes of a register, written in order. -/
theorem get_putLane_range (v : Words) (n m : Nat) :
    Words.get ((List.range n).foldl (i.putLane x vd f) v) m
      = if 64 * vd ≤ m ∧ m < 64 * vd + n then i.merge x 0 (m - 64 * vd) (f (m - 64 * vd)) (Words.get v m) else Words.get v m := by
  induction n with
  | zero => exact (if_neg (by omega)).symm
  | succ n ih =>
    rw [List.range_succ, List.foldl_append, List.foldl_cons, List.foldl_nil, get_putLane, ih]
    by_cases last : m = 64 * vd + n
    · rw [if_pos last, if_neg (by omega), if_pos (by omega), show m - 64 * vd = n by omega]
    · rw [if_neg last]
      exact if_congr (by omega) rfl rfl

/-- A register after a write: its active lanes take `f`, and every other register keeps its lanes. -/
theorem lane_putLanes {n j : Nat} (h : j < 64) :
    (x.putLanes i vd f).lane n j = if n = vd then i.merge x 0 j (f j) (x.lane n j) else x.lane n j := by
  have own := get_putLane_range i x vd f x.v 64 (64 * n + j)
  refine own.trans ?_
  by_cases same : n = vd
  · rw [if_pos same, if_pos (by omega), show 64 * n + j - 64 * vd = j by omega]
    rfl
  · rw [if_neg same, if_neg (by omega)]
    rfl

theorem putLanes_frame : x.putLanes i vd f = { x with v := (x.putLanes i vd f).v } := rfl

/-- A mask register after a write. -/
theorem kreg_putMask (g : Nat → Bool) {n j : Nat} (hn : n < 8) (hj : j < 64) :
    bit ((x.putMask i vd g).kreg n).toNat j
      = if n = vd % 8 then i.merge x false j (g j) (bit (x.kreg n).toNat j) else bit (x.kreg n).toNat j := by
  unfold Cluster.putMask
  rw [kreg_set, Nat.mod_eq_of_lt hn]
  split
  · next same =>
    have old : x.kreg n = x.kreg vd := by
      unfold Cluster.kreg
      rw [same, Nat.mod_mod]
    rw [bit_mask64 _ hj, old]
    rfl
  · rfl

theorem putMask_frame (g : Nat → Bool) : x.putMask i vd g = { x with k := (x.putMask i vd g).k } := rfl

end

/-! ### An instruction at the head of its program (R75, R77, R80) -/

theorem vecHead_isIn {s : State} {cl : ClId} {p : QE × Option VecRun} (h : s.vecHead cl = some p) :
    (s.ctx p.1.ctx.toNat).st = .resident := by
  unfold State.vecHead at h
  dsimp only at h
  split at h
  · cases h
  · split at h
    · next open_ =>
      cases h
      exact of_decide_eq_true (Bool.and_eq_true _ _ ▸ open_).2
    · cases h

section
variable {s : State} {cl : ClId} {q : QE} {r : VecRun} {i : VI}

theorem VecAt.isIn (h : VecAt s cl q r i) : (s.ctx q.ctx.toNat).st = .resident := vecHead_isIn h.1

/-- The row of an instruction's operation runs it. -/
theorem VecAt.runs (h : VecAt s cl q r i) {ops : List Nat} (op : i.op ∈ ops) (f : QE → VecRun → VI → State) :
    s.vecRow cl ops f = .next (f q r i) := by
  obtain ⟨head, undone, word, sound⟩ := h
  unfold State.vecRow
  rw [head]
  dsimp only
  rw [word, undone, sound, List.contains_iff_mem.2 op]
  rfl

/-- A command that runs the row's operations answers at an instruction of them. -/
theorem VecAt.completes (h : VecAt s cl q r i) {j : Instr} {ops : List Nat} {f : QE → VecRun → VI → State} {P : State → Prop}
    (run : exec j s = s.vecRow cl ops f) (op : i.op ∈ ops) (p : P (f q r i)) : Completes j s P :=
  ⟨_, run.trans (h.runs op f), p⟩

/-- An access of an instruction outside the region faults. -/
theorem VecAt.faultAt (h : VecAt s cl q r i) (a : Nat) (unit : U16) : Faulted s (s.faultAt q (0x0003, a) unit) q.ctx 0x0003 :=
  (faultAt_faultedAt q (0x0003, a) unit h.isIn).1

@[simp] theorem vecSet_clu (s : State) (cl : ClId) (q : QE) (r : VecRun) (f : Cluster → Cluster) :
    (s.vecSet cl q r f).clu cl.toNat = { f (s.clu cl.toNat) with vrun := some (r.step q.img) } := State.modCl_same ..

theorem vecSet_only (s : State) (cl : ClId) (q : QE) (r : VecRun) (f : Cluster → Cluster) : ClusterOnly cl s (s.vecSet cl q r f) :=
  modCl_clusterOnly cl s _

/-- An instruction that gives the lanes of v(VD). -/
theorem vecSet_lanes (s : State) (cl : ClId) (q : QE) (r : VecRun) (i : VI) (f : Cluster → Nat → W32) :
    let t := s.vecSet cl q r fun x => x.putLanes i i.vd (f x)
    Lanes s t cl i i.vd (f (s.clu cl.toNat))
      ∧ t.clu cl.toNat = { s.clu cl.toNat with v := (t.clu cl.toNat).v, vrun := some (r.step q.img) } ∧ ClusterOnly cl s t := by
  refine ⟨fun n j hj => ?_, ?_, vecSet_only ..⟩
  · rw [vecSet_clu]
    exact lane_putLanes i (s.clu cl.toNat) i.vd _ hj
  · rw [vecSet_clu]
    rfl

/-- An instruction that gives the bits of k(VD). -/
theorem vecSet_masks (s : State) (cl : ClId) (q : QE) (r : VecRun) (i : VI) (f : Cluster → Nat → Bool) :
    let t := s.vecSet cl q r fun x => x.putMask i i.vd (f x)
    Masks s t cl i i.vd (f (s.clu cl.toNat))
      ∧ t.clu cl.toNat = { s.clu cl.toNat with k := (t.clu cl.toNat).k, vrun := some (r.step q.img) } ∧ ClusterOnly cl s t := by
  refine ⟨fun n j hn hj => ?_, ?_, vecSet_only ..⟩
  · rw [vecSet_clu]
    exact kreg_putMask i (s.clu cl.toNat) i.vd _ hn hj
  · rw [vecSet_clu]
    rfl

end

end Sys2Proof.Machine
end
section
/-! SUPPORT. The operations on lanes and masks, the beginning of a vector command, and the statement on them (O52; R74 to R80). -/

namespace Sys2Proof.Machine

/-! ### The arithmetic rows of Table VX.2 (R77 to R79) -/

/-- The rows whose operation takes the lanes of up to three registers to those of v(VD). -/
def aluRows : List ((ClId → Instr) × List Nat) :=
  [(.vAdd, [0x01]), (.vSub, [0x02]), (.vMul, [0x03]), (.vFma, [0x04]), (.vMin, [0x05]), (.vMax, [0x06]), (.vAbs, [0x07])
   , (.vNeg, [0x08]), (.vLogic, [0x0E, 0x0F, 0x10]), (.vShift, [0x11, 0x12]), (.vCvt, [0x13]), (.vExp2, [0x30])
   , (.vLog2, [0x31]), (.vRcp, [0x32]), (.vRsqrt, [0x33])]

theorem exec_aluRow {row : (ClId → Instr) × List Nat} (h : row ∈ aluRows) (cl : ClId) (s : State) :
    exec (row.1 cl) s = s.vecRow cl row.2 (s.vecAlu cl) := by
  revert row
  simp only [aluRows, List.forall_mem_cons, List.not_mem_nil, false_imp_iff, implies_true, and_true]
  exact ⟨rfl, rfl, rfl, rfl, rfl, rfl, rfl, rfl, rfl, rfl, rfl, rfl, rfl, rfl, rfl⟩

/-- The lanes of an operation of Table VX.2, from a cluster's registers. -/
def Cluster.aluLane (x : Cluster) (i : VI) (fr j : Nat) : W32 :=
  alu i.op i.int (fr + j) (x.lane i.va j) (x.lane i.vb j) (x.lane i.vc j)

theorem vecAlu_eq (s : State) (cl : ClId) (q : QE) (r : VecRun) (i : VI) : s.vecAlu cl q r i =
    { s.vecSet cl q r fun x => x.putLanes i i.vd (x.aluLane i s.free) with
      free := if (i.op = 7 ∨ i.op = 8) ∧ i.int = true then s.free + 64 else s.free } := by
  unfold State.vecAlu
  dsimp only
  split <;> rfl

/-- An operation on lanes writes v(VD), and draws 64 free values where it may need them. -/
theorem vecAlu_leaves (s : State) (cl : ClId) (q : QE) (r : VecRun) (i : VI) :
    let t := s.vecAlu cl q r i
    Lanes s t cl i i.vd ((s.clu cl.toNat).aluLane i s.free)
      ∧ t.clu cl.toNat = { s.clu cl.toNat with v := (t.clu cl.toNat).v, vrun := some (r.step q.img) } ∧ SameBut State.clu cl.toNat s t
      ∧ t = { s with cls := t.cls, free := if (i.op = 7 ∨ i.op = 8) ∧ i.int = true then s.free + 64 else s.free } := by
  obtain ⟨lanes, own, others, -⟩ := vecSet_lanes s cl q r i fun x => x.aluLane i s.free
  rw [vecAlu_eq]
  exact ⟨lanes, own, others, rfl⟩

/-! ### Integers (R77, R78) -/

theorem toInt_ite_slt_max (a b : W32) : (if a.slt b then b else a).toInt = max a.toInt b.toInt := by
  rw [BitVec.slt_eq_decide]
  by_cases h : a.toInt < b.toInt
  · rw [if_pos (decide_eq_true h)]; omega
  · rw [if_neg (by simpa using h)]; omega

theorem toInt_ite_slt_min (a b : W32) : (if b.slt a then b else a).toInt = min a.toInt b.toInt := by
  rw [BitVec.slt_eq_decide]
  by_cases h : b.toInt < a.toInt
  · rw [if_pos (decide_eq_true h)]; omega
  · rw [if_neg (by simpa using h)]; omega

theorem toInt_abs_of_ne {a : W32} (h : a ≠ 0x80000000#32) : (if a.slt 0 then -a else a).toInt = |a.toInt| := by
  rw [BitVec.slt_eq_decide, show (0 : W32).toInt = 0 from rfl]
  by_cases negative : a.toInt < 0
  · rw [if_pos (decide_eq_true negative), BitVec.toInt_neg_of_ne_intMin h, abs_of_neg negative]
  · rw [if_neg (by simpa using negative), abs_of_nonneg (not_lt.1 negative)]

/-! ### The beginning of a command (R75, R80) -/

section
variable {s : State} {cl : ClId} {q : QE}

theorem vec_begins (head : s.vecHead cl = some (q, none)) : exec (.vec cl) s =
    if s.ownsIn q.ctx cl (vProg q.img) (8 * vCount q.img) = true then
      .next (s.modCl cl.toNat fun x => { x with vrun := some {}, v := [], k := [] })
    else .next (s.faultAt q (0x0003, vProg q.img) (clUnit q.img)) := by
  show execVec cl s = _
  unfold execVec
  rw [head]

theorem vec_badWord {r : VecRun} (head : s.vecHead cl = some (q, some r)) (undone : r.done = false)
    (bad : (vWord (s.clu cl.toNat) q r).bad q.issued = true) :
    exec (.vec cl) s = .next (s.faultCmd q 0x0001 0 (clUnit q.img)) := by
  show execVec cl s = _
  unfold execVec
  rw [head]
  dsimp only
  rw [undone, bad]
  rfl

end

/-- Settles O52: each row writes its register alone; the integers of R77 and R78; a command begins or faults. -/
theorem vectorLanesFollowTheTable : Obligations.VectorLanesFollowTheTable := by
  unfold Obligations.VectorLanesFollowTheTable
  refine ⟨?alu, ?others, ?integers, ?begins, ?bad⟩
  case alu =>
    intro row hrow cl q r i s at_ op
    exact at_.completes (exec_aluRow hrow cl s) op (vecAlu_leaves s cl q r i)
  case others =>
    intro cl q r i s at_ x
    refine ⟨fun op => ?sel, fun op => ?bcast, fun op => ?idx, fun op => ?cmp, fun op => ?mask⟩
    case sel =>
      refine at_.completes (show exec (.vSel cl) s = execVSel cl s from rfl) (List.mem_singleton.2 op) ?_
      exact vecSet_lanes s cl q r i _
    case bcast =>
      refine at_.completes (show exec (.vBcast cl) s = execVBcast cl s from rfl) (List.mem_singleton.2 op) ?_
      exact vecSet_lanes s cl q r i _
    case idx =>
      refine at_.completes (show exec (.vIdx cl) s = execVIdx cl s from rfl) (List.mem_singleton.2 op) ?_
      exact vecSet_lanes s cl q r i _
    case cmp =>
      refine at_.completes (show exec (.vCmp cl) s = execVCmp cl s from rfl) op ?_
      exact vecSet_masks s cl q r i _
    case mask =>
      refine at_.completes (show exec (.vMaskOp cl) s = execVMaskOp cl s from rfl) op ?_
      exact vecSet_masks s cl q r i _
  case integers =>
    intro a b fr c
    refine ⟨rfl, rfl, rfl, toInt_ite_slt_max a b, toInt_ite_slt_min a b, fun least => ⟨?_, ?_⟩, ?_⟩
    · exact (congrArg BitVec.toInt (if_neg least)).trans (toInt_abs_of_ne least)
    · exact (congrArg BitVec.toInt (if_neg least)).trans (BitVec.toInt_neg_of_ne_intMin least)
    · exact (BitVec.toNat_ushiftRight ..).trans (Nat.shiftRight_eq_div_pow ..)
  case begins =>
    intro cl q s head
    have run := vec_begins head
    refine ⟨fun own => ⟨_, run.trans (if_pos own), State.modCl_same .., modCl_clusterOnly ..⟩, fun foreign => ?_⟩
    exact ⟨_, run.trans (if_neg (by rw [foreign]; exact Bool.false_ne_true)), (faultAt_faultedAt q _ _ (vecHead_isIn head)).1⟩
  case bad =>
    intro cl q r s head undone bad
    exact ⟨_, vec_badWord head undone bad, faultCmd_faulted _ _ _ _ _ (alive_resident (vecHead_isIn head))⟩

end Sys2Proof.Machine
end
section
/-! SUPPORT. What loads, stores and pops of the vector engine answer: the codes and scales of a store, eight bytes of a mask register,
the four registers of a popped tile (R81, R82). -/

namespace Sys2Proof.Machine

/-- A step that answers one of two states answers the first where its condition holds, and else the second. -/
theorem Completes.of_then {j : Instr} {s a b : State} {c : Bool} {P : State → Prop} (run : exec j s = .next (if c = true then a else b))
    (h : c = true) (p : P a) : Completes j s P := ⟨a, run.trans (congrArg _ (if_pos h)), p⟩

theorem Completes.of_else {j : Instr} {s a b : State} {c : Bool} {P : State → Prop} (run : exec j s = .next (if c = true then a else b))
    (h : c = false) (p : P b) : Completes j s P := ⟨b, run.trans (congrArg _ (if_neg (Bool.eq_false_iff.1 h))), p⟩

/-- A word of 64 bits reads back. -/
theorem Mem.read64_writeN (m : Mem) (a : Nat) (v : W64) : Mem.read64 (Mem.writeN m a 8 v.toNat) a = v := by
  unfold Mem.read64
  rw [Mem.readN_writeN _ _ _ _ (show v.toNat < 256 ^ 8 from v.isLt)]
  exact BitVec.ofNat_toNat ..

/-! ### Codes of a store (R81, R119) -/

/-- Formats past FP32's code hold whole words. -/
theorem elemBits_min (ty : Nat) : elemBits (min ty 8) = elemBits ty := by
  by_cases wide : ty ≤ 8
  · rw [Nat.min_eq_left wide]
  · obtain ⟨k, rfl⟩ : ∃ k, ty = k + 9 := ⟨ty - 9, by omega⟩
    rw [Nat.min_eq_right (by omega)]
    rfl

theorem elemBytes_min (ty n : Nat) : elemBytes (min ty 8) n = elemBytes ty n := by
  unfold elemBytes
  rw [elemBits_min]

/-- The format that a store writes. -/
theorem storeFmt_eq (ty : Nat) : (if 7 < ty then 8 else ty) = min ty 8 := by
  split <;> omega

/-- Of values listed with their keys, the first of a key is the key's own. -/
theorem find?_graph {α : Type} (g : Nat → α) {l : List Nat} {j : Nat} (h : j ∈ l) :
    (l.map fun k => (k, g k)).find? (fun p => decide (p.1 = j)) = some (j, g j) := by
  induction l with
  | nil => cases h
  | cons k l ih =>
    rw [List.map_cons, List.find?_cons]
    by_cases same : k = j
    · rw [same, decide_eq_true rfl]
    · rw [decide_eq_false same]
      exact ih ((List.mem_cons.1 h).resolve_left (Ne.symm same))

section
variable (x : Cluster) (i : VI) (q : QE) (seed : W64) (rep : Nat)

/-- The conversions that a store of an element format writes. -/
def Cluster.storeConvs : List (Nat × Conv) := if 7 < i.ty then [] else x.storeConv i q seed rep

/-- The code that a store leaves in lane `j`, blocks of FP4 aside. -/
def Cluster.laneCode (a j : Nat) : Nat :=
  if i.active x j = true then
    (if 7 < i.ty then (x.lane i.va j).toNat else (convert i.ty (vRnd i q seed rep j) (x.lane i.va j) 0).code % 2 ^ elemBits i.ty)
  else if i.zero = true then 0 else codeAt x.mem (min i.ty 8) a j

theorem storeCode_mod (plain : i.ty ≠ 4) (a : Nat) {j : Nat} (hj : j < 64) :
    x.storeCode i (x.storeConvs i q seed rep) a j % 2 ^ elemBits (min i.ty 8) = x.laneCode i q seed rep a j := by
  unfold Cluster.storeCode Cluster.laneCode
  by_cases act : i.active x j = true
  · rw [if_pos act, if_pos act]
    by_cases word : 7 < i.ty
    · rw [if_pos word, if_pos word, Nat.min_eq_right (by omega)]
      exact Nat.mod_eq_of_lt (x.lane i.va j).isLt
    · have listed : j ∈ (List.range 64).filter (i.active x) := List.mem_filter.2 ⟨List.mem_range.2 hj, act⟩
      unfold Cluster.storeConvs Cluster.storeConv
      rw [if_neg word, if_neg word, if_neg word, if_neg plain, find?_graph _ listed, elemBits_min]
      rfl
  · rw [if_neg act, if_neg act]
    split
    · exact Nat.zero_mod _
    · rw [storeFmt_eq]
      exact Nat.mod_eq_of_lt (codeAt_lt ..)

/-- A block's scale where its half has an active lane or is zeroed. -/
def Cluster.putScale (sc : Nat) (m : Mem) (h : Nat) : Mem :=
  if (x.blockLanes i h).isEmpty && !i.zero then m else Mem.write m (sc + h) (BitVec.ofNat 8 (x.block i q seed rep h).scale)

theorem read_putScale {sc b h : Nat} (m : Mem) (out : b ≠ sc + h) : Mem.read (x.putScale i q seed rep sc m h) b = Mem.read m b := by
  unfold Cluster.putScale
  split
  · rfl
  · rw [Mem.read_write, if_neg out]

/-- The 64 codes of a store at their place. -/
def Cluster.putCodes (a : Nat) : Mem :=
  Mem.writeBytes x.mem a (packCodes (min i.ty 8) ((List.range 64).map (x.storeCode i (x.storeConvs i q seed rep) a)))

theorem stored_eq (a sc : Nat) : x.stored i q seed rep a sc =
    if i.ty = 4 then x.putScale i q seed rep sc (x.putScale i q seed rep sc (x.putCodes i q seed rep a) 0) 1
    else x.putCodes i q seed rep a := by
  unfold Cluster.putCodes
  rw [← storeFmt_eq]
  rfl

theorem codeAt_putCodes (plain : i.ty ≠ 4) (a : Nat) {j : Nat} (hj : j < 64) :
    codeAt (x.putCodes i q seed rep a) (min i.ty 8) a j = x.laneCode i q seed rep a j := by
  have code := codeAt_packed (min i.ty 8) ((List.range 64).map (x.storeCode i (x.storeConvs i q seed rep) a)) x.mem a
    (e := 0) (j := j) rfl (by simpa using hj)
  have first : elemBytes (min i.ty 8) 0 = 0 := by simp [elemBytes]
  rw [first, Nat.add_zero, Nat.zero_add] at code
  refine code.trans ?_
  rw [← storeCode_mod x i q seed rep plain a hj]
  simp [List.getD_eq_getElem?_getD, hj]

theorem putCodes_but (a : Nat) : BytesBut a (elemBytes i.ty 64) x.mem (x.putCodes i q seed rep a) := by
  have but := writeBytes_but x.mem a (packCodes (min i.ty 8) ((List.range 64).map (x.storeCode i (x.storeConvs i q seed rep) a)))
  rw [packCodes_length, List.length_map, List.length_range, elemBytes_min] at but
  exact but

/-- A store leaves its codes in the 64 elements, and beside them changes two scale bytes of FP4 alone. -/
theorem stored_leaves (a sc : Nat) :
    (i.ty ≠ 4 → ∀ j < 64, codeAt (x.stored i q seed rep a sc) (min i.ty 8) a j = x.laneCode i q seed rep a j)
    ∧ ∀ b, ¬(a ≤ b ∧ b < a + elemBytes i.ty 64) → ¬(i.ty = 4 ∧ sc ≤ b ∧ b < sc + 2) →
        (x.stored i q seed rep a sc).read b = x.mem.read b := by
  rw [stored_eq]
  refine ⟨fun plain j hj => ?_, fun b out scales => ?_⟩
  · rw [if_neg plain, codeAt_putCodes x i q seed rep plain a hj]
  · have codes := putCodes_but x i q seed rep a b out
    split
    · next block =>
      have outside : ¬(sc ≤ b ∧ b < sc + 2) := fun h => scales ⟨block, h⟩
      rw [read_putScale _ _ _ _ _ _ (by omega), read_putScale _ _ _ _ _ _ (by omega), codes]
    · exact codes

end

/-- What a store reports: words are no conversions. -/
theorem storeTally_reports (s : State) (x : Cluster) (i : VI) (q : QE) (seed : W64) (rep : Nat) :
    Reports q.ctx.toNat s ((s.countFor q i.ty (x.storeTally i q seed rep).1).countFor q 7 (x.storeTally i q seed rep).2) := by
  by_cases word : 7 < i.ty
  · have none : x.storeTally i q seed rep = ({}, {}) := if_pos word
    rw [none, countFor_nothing, countFor_nothing]
    exact .refl _ s
  · exact (countFor_reports s q _ (by omega)).trans (countFor_reports _ q _ (by decide))

/-! ### The registers of a popped tile (R82) -/

/-- `n` registers from `vd` on, written one after another under MASK and ZERO. -/
def Cluster.putRows (x : Cluster) (i : VI) (vd : Nat) (f : Nat → Nat → W32) (n : Nat) : Cluster :=
  (List.range n).foldl (fun x g => x.putLanes i (vd + g) (f g)) x

section
variable (x : Cluster) (i : VI) (vd : Nat) (f : Nat → Nat → W32)

theorem putRows_succ (n : Nat) : x.putRows i vd f (n + 1) = (x.putRows i vd f n).putLanes i (vd + n) (f n) := by
  unfold Cluster.putRows
  rw [List.range_succ, List.foldl_append]
  rfl

theorem putRows_frame (n : Nat) : x.putRows i vd f n = { x with v := (x.putRows i vd f n).v } := by
  induction n with
  | zero => rfl
  | succ n ih =>
    rw [putRows_succ, putLanes_frame, ih]

theorem active_putRows (n j : Nat) : i.active (x.putRows i vd f n) j = i.active x j := by
  rw [putRows_frame]
  rfl

theorem lane_putRows (n : Nat) {m j : Nat} (hj : j < 64) :
    (x.putRows i vd f n).lane m j = if vd ≤ m ∧ m < vd + n then i.merge x 0 j (f (m - vd) j) (x.lane m j) else x.lane m j := by
  induction n with
  | zero => exact (if_neg (by omega)).symm
  | succ n ih =>
    rw [putRows_succ, lane_putLanes _ _ _ _ hj, ih]
    by_cases last : m = vd + n
    · rw [if_pos last, if_neg (by omega), if_pos (by omega), show m - vd = n by omega]
      unfold VI.merge
      rw [active_putRows]
    · rw [if_neg last]
      exact if_congr (by omega) rfl rfl

/-- Four lanes' rows of a tile to a register (Table VX.5). -/
def QTile.reg (t : QTile) (g j : Nat) : W32 := t.elem (4 * g + j / 16) (j % 16)

/-- A cluster once its head tile is in four registers. -/
def Cluster.popped (x : Cluster) (i : VI) (t : QTile) (l : List QTile) : Cluster := Cluster.putRows { x with tileq := l } i i.vd t.reg 4

variable (t : QTile) (l : List QTile)

theorem popped_frame : x.popped i t l = { x with tileq := l, v := (x.popped i t l).v } := putRows_frame { x with tileq := l } i i.vd t.reg 4

theorem lane_popped {m j : Nat} (hj : j < 64) : (x.popped i t l).lane m j
    = if i.vd ≤ m ∧ m < i.vd + 4 then i.merge x 0 j (t.reg (m - i.vd) j) (x.lane m j) else x.lane m j :=
  lane_putRows { x with tileq := l } i i.vd t.reg 4 hj

end

/-! ### What the instructions answer (R81, R82) -/

/-- The cluster's memory after a store. -/
def State.vecStored (s : State) (cl : ClId) (q : QE) (r : VecRun) (i : VI) : State :=
  s.vecSet cl q r fun x => { x with
    mem := x.stored i q (s.nums q.ctx.toNat).seed r.rep (vAddr q.img r.rep i.off) (vScale q.img r.rep i.off) }

section
variable {s : State} {cl : ClId} {q : QE} {r : VecRun} {i : VI} (at_ : VecAt s cl q r i)
include at_

theorem vLd_answers (op : i.op = 0x20) : exec (.vLd cl) s = .next
    (if s.vecOwns q cl i.ty (vAddr q.img r.rep i.off) (vScale q.img r.rep i.off) = true then
      s.vecSet cl q r fun x => x.putLanes i i.vd fun j => x.loadLane i.ty (vAddr q.img r.rep i.off) (vScale q.img r.rep i.off) j
    else s.faultAt q (0x0003, s.vecBad q cl i.ty (vAddr q.img r.rep i.off) (vScale q.img r.rep i.off)) (clUnit q.img)) :=
  show execVLd cl s = _ from at_.runs (List.mem_singleton.2 op) _

theorem vSt_answers (op : i.op = 0x21) : exec (.vSt cl) s = .next
    (if s.vecOwns q cl i.ty (vAddr q.img r.rep i.off) (vScale q.img r.rep i.off) = true then
      let t := (s.clu cl.toNat).storeTally i q (s.nums q.ctx.toNat).seed r.rep
      ((s.vecStored cl q r i).countFor q i.ty t.1).countFor q 7 t.2
    else s.faultAt q (0x0003, s.vecBad q cl i.ty (vAddr q.img r.rep i.off) (vScale q.img r.rep i.off)) (clUnit q.img)) :=
  show execVSt cl s = _ from at_.runs (List.mem_singleton.2 op) _

theorem vKld_answers (op : i.op = 0x1B) : exec (.vKld cl) s = .next
    (if s.ownsIn q.ctx cl (vAddr q.img r.rep i.off) 8 = true then
      s.vecSet cl q r fun x => { x with k := SMap.set 0 x.k (i.vd % 8) (Mem.read64 x.mem (vAddr q.img r.rep i.off)) }
    else s.faultCmd q 0x0003 (BitVec.ofNat 64 (vAddr q.img r.rep i.off)) (clUnit q.img)) :=
  show execVKld cl s = _ from at_.runs (List.mem_singleton.2 op) _

theorem vKst_answers (op : i.op = 0x1C) : exec (.vKst cl) s = .next
    (if s.ownsIn q.ctx cl (vAddr q.img r.rep i.off) 8 = true then
      s.vecSet cl q r fun x => { x with mem := Mem.writeN x.mem (vAddr q.img r.rep i.off) 8 (x.kreg i.va).toNat }
    else s.faultCmd q 0x0003 (BitVec.ofNat 64 (vAddr q.img r.rep i.off)) (clUnit q.img)) :=
  show execVKst cl s = _ from at_.runs (List.mem_singleton.2 op) _

/-- A command's fault of an instruction. -/
theorem VecAt.faultCmd (detail : W64) (unit : U16) : Faulted s (s.faultCmd q 0x0003 detail unit) q.ctx 0x0003 :=
  faultCmd_faulted _ _ _ _ _ (alive_resident at_.isIn)

/-- A store's bytes, the place of the program, and the reports of its conversions. -/
theorem vSt_completes (op : i.op = 0x21)
    (own : s.vecOwns q cl i.ty (vAddr q.img r.rep i.off) (vScale q.img r.rep i.off) = true) : Completes (.vSt cl) s fun t =>
      (t.clu cl.toNat).mem = (s.clu cl.toNat).stored i q (s.nums q.ctx.toNat).seed r.rep (vAddr q.img r.rep i.off) (vScale q.img r.rep i.off)
      ∧ t.clu cl.toNat = { s.clu cl.toNat with mem := (t.clu cl.toNat).mem, vrun := some (r.step q.img) } ∧ DrainOnly cl s t := by
  refine .of_then (vSt_answers at_ op) own ?_
  have reports := storeTally_reports (s.vecStored cl q r i) (s.clu cl.toNat) i q (s.nums q.ctx.toNat).seed r.rep
  have only : ClusterOnly cl s (s.vecStored cl q r i) := vecSet_only ..
  have own := vecSet_clu s cl q r fun x => { x with
    mem := x.stored i q (s.nums q.ctx.toNat).seed r.rep (vAddr q.img r.rep i.off) (vScale q.img r.rep i.off) }
  dsimp only
  rw [reports.clu, show (s.vecStored cl q r i).clu cl.toNat = _ from own]
  exact ⟨rfl, rfl, only.drain.trans (reports.drain cl)⟩

theorem vKld_completes (op : i.op = 0x1B) (own : s.ownsIn q.ctx cl (vAddr q.img r.rep i.off) 8 = true) :
    Completes (.vKld cl) s fun t =>
      (t.clu cl.toNat).kreg i.vd = (s.clu cl.toNat).mem.read64 (vAddr q.img r.rep i.off)
      ∧ (∀ n, n % 8 ≠ i.vd % 8 → (t.clu cl.toNat).kreg n = (s.clu cl.toNat).kreg n)
      ∧ t.clu cl.toNat = { s.clu cl.toNat with k := (t.clu cl.toNat).k, vrun := some (r.step q.img) } ∧ ClusterOnly cl s t := by
  refine .of_then (vKld_answers at_ op) own ⟨?_, fun n other => ?_, ?_, vecSet_only ..⟩
  · rw [vecSet_clu]
    exact (kreg_set (s.clu cl.toNat) i.vd i.vd _).trans (if_pos rfl)
  · rw [vecSet_clu]
    exact (kreg_set (s.clu cl.toNat) i.vd n _).trans (if_neg other)
  · rw [vecSet_clu]

theorem vKst_completes (op : i.op = 0x1C) (own : s.ownsIn q.ctx cl (vAddr q.img r.rep i.off) 8 = true) :
    Completes (.vKst cl) s fun t =>
      (t.clu cl.toNat).mem.read64 (vAddr q.img r.rep i.off) = (s.clu cl.toNat).kreg i.va
      ∧ BytesBut (vAddr q.img r.rep i.off) 8 (s.clu cl.toNat).mem (t.clu cl.toNat).mem
      ∧ t.clu cl.toNat = { s.clu cl.toNat with mem := (t.clu cl.toNat).mem, vrun := some (r.step q.img) } ∧ ClusterOnly cl s t := by
  refine .of_then (vKst_answers at_ op) own ⟨?_, fun b out => ?_, ?_, vecSet_only ..⟩
  · rw [vecSet_clu]
    exact Mem.read64_writeN ..
  · rw [vecSet_clu]
    exact Mem.read_writeN_out (by omega)
  · rw [vecSet_clu]

/-- The head tile goes into four registers. -/
theorem vTqpop_pops (op : i.op = 0x22) {tl : QTile} {l : List QTile} (head : (s.clu cl.toNat).tileq = tl :: l) (ctx : tl.ctx = q.ctx) :
    Completes (.vTqpop cl) s fun t =>
      (∀ g j, g < 4 → j < 64 → i.active (s.clu cl.toNat) j = true →
        (t.clu cl.toNat).lane (i.vd + g) j = tl.elem (4 * g + j / 16) (j % 16))
      ∧ (∀ n j, (n < i.vd ∨ i.vd + 4 ≤ n) → j < 64 → (t.clu cl.toNat).lane n j = (s.clu cl.toNat).lane n j)
      ∧ t.clu cl.toNat = { s.clu cl.toNat with tileq := l, v := (t.clu cl.toNat).v, vrun := some (r.step q.img) }
      ∧ ClusterOnly cl s t := by
  have run : exec (.vTqpop cl) s = .next (s.vecSet cl q r fun x => x.popped i tl l) := by
    refine (show execVTqpop cl s = _ from at_.runs (List.mem_singleton.2 op) _).trans (congrArg _ ?_)
    rw [head]
    exact if_pos ctx
  have lanes (m j : Nat) : ((s.vecSet cl q r fun x => x.popped i tl l).clu cl.toNat).lane m j = ((s.clu cl.toNat).popped i tl l).lane m j :=
    lane_congr (by rw [vecSet_clu]) m j
  refine ⟨_, run, fun g j hg hj act => ?_, fun n j out hj => ?_, ?_, vecSet_only ..⟩
  · rw [lanes, lane_popped _ _ _ _ hj, if_pos (by omega), Nat.add_sub_cancel_left]
    exact if_pos act
  · rw [lanes, lane_popped _ _ _ _ hj, if_neg (by omega)]
  · rw [vecSet_clu]
    dsimp only
    rw [popped_frame]

/-- An empty tile queue is waited on. -/
theorem vTqpop_waits (op : i.op = 0x22) (empty : (s.clu cl.toNat).tileq = []) : Completes (.vTqpop cl) s fun t =>
    t.clu cl.toNat = { s.clu cl.toNat with vrun := some { r with
        waiting := true, since := if r.waiting = true then r.since else s.sched.clock } } ∧ ClusterOnly cl s t := by
  have run : exec (.vTqpop cl) s = .next (s.modCl cl.toNat fun x =>
      { x with vrun := some { r with waiting := true, since := if r.waiting = true then r.since else s.sched.clock } }) := by
    refine (show execVTqpop cl s = _ from at_.runs (List.mem_singleton.2 op) _).trans (congrArg _ ?_)
    rw [empty]
  exact ⟨_, run, State.modCl_same .., modCl_clusterOnly ..⟩

end

end Sys2Proof.Machine
end
section
/-! SUPPORT. The Tally, the tile queue's door and fused chains, and the statement on them (O53; R82, R84 to R87). -/

namespace Sys2Proof.Machine

/-! ### The Tally (R85 to R87) -/

/-- What a reduction leaves: VALUE and AUX, combined with what stood there under ACC. -/
def TallyJob.result (j : TallyJob) (old : W32 × W32) : W32 × W32 :=
  if j.accum then tallyAcc j.code old (j.value, j.aux) else (j.value, j.aux)

/-- The reduction of a TALLY instruction, its registers read. -/
def Cluster.tallyJob (x : Cluster) (q : QE) (r : VecRun) (i : VI) : TallyJob :=
  let v := tallyRun i.vd (i.vb + 1) (fun g j => x.lane (i.va + g) j) (fun _ => i.active x) (x.kreg i.va).toNat (vElem q.img)
  { ctx := q.ctx, seq := q.seq, code := i.vd, value := v.1, aux := v.2, toq := i.rnd, accum := i.acc
    dest := if i.rnd then i.vc % 8 else vAddr q.img r.rep i.off }

theorem vTally_answers {s : State} {cl : ClId} {q : QE} {r : VecRun} {i : VI} (at_ : VecAt s cl q r i) (op : i.op = 0x40) :
    exec (.vTally cl) s = .next (if (i.rnd || s.ownsIn q.ctx cl (vAddr q.img r.rep i.off) 8) = true then
      s.vecSet cl q r fun x => { x with tally := x.tally ++ [x.tallyJob q r i] }
    else s.faultCmd q 0x0003 (BitVec.ofNat 64 (vAddr q.img r.rep i.off)) (clUnit q.img)) :=
  show execVTally cl s = _ from at_.runs (List.mem_singleton.2 op) _

/-- A memory once a result stands at its address: VALUE, then AUX. -/
def TallyJob.storedIn (j : TallyJob) (m : Mem) : Mem :=
  let v := j.result (m.read32 j.dest, m.read32 (j.dest + 4))
  Mem.writeN (Mem.writeN m j.dest 4 v.1.toNat) (j.dest + 4) 4 v.2.toNat

theorem storedIn_leaves (j : TallyJob) (m : Mem) :
    let v := j.result (m.read32 j.dest, m.read32 (j.dest + 4))
    (j.storedIn m).read32 j.dest = v.1 ∧ (j.storedIn m).read32 (j.dest + 4) = v.2 ∧ BytesBut j.dest 8 m (j.storedIn m) := by
  refine ⟨?_, Mem.read32_writeN .., fun b out => ?_⟩
  · exact (Mem.read32_congr fun b low high => Mem.read_writeN_out (by omega)).trans (Mem.read32_writeN ..)
  · exact (Mem.read_writeN_out (by omega)).trans (Mem.read_writeN_out (by omega))

/-- A result that goes to memory. -/
theorem tallied_memory (x : Cluster) {j : TallyJob} (place : j.toq = false) : x.tallied j = { x with mem := j.storedIn x.mem } := by
  unfold Cluster.tallied
  rw [place]
  rfl

/-- A result that goes to a summary register: it is valid, and OVR is set when the last was not taken. -/
theorem tallied_summary {x : Cluster} {j : TallyJob} (place : j.toq = true) :
    let old := SMap.get {} (x.pc j.ctx.toNat).q j.dest
    let new := SMap.get {} ((x.tallied j).pc j.ctx.toNat).q j.dest
    new.valid = true ∧ new.ovr = (old.ovr || old.valid) ∧ (new.value, new.aux) = j.result (old.value, old.aux)
      ∧ x.tallied j = { x with per := (x.tallied j).per } := by
  have eq : x.tallied j = x.modPc j.ctx.toNat fun y => { y with q := SMap.upd {} y.q j.dest fun m => m.written j } := by
    unfold Cluster.tallied
    rw [place]
    rfl
  have new : SMap.get {} ((x.tallied j).pc j.ctx.toNat).q j.dest = (SMap.get {} (x.pc j.ctx.toNat).q j.dest).written j := by
    rw [eq]
    unfold Cluster.modPc Cluster.pc
    rw [SMap.get_upd_same, SMap.get_upd_same]
  dsimp only
  rw [new, eq]
  exact ⟨rfl, rfl, rfl, rfl⟩

/-- The oldest reduction's result is written where its context is IN. -/
theorem tallyResultWrite_runs {s : State} {cl : ClId} {j : TallyJob} {l : List TallyJob} (head : (s.clu cl.toNat).tally = j :: l)
    (isIn : (s.ctx j.ctx.toNat).st = .resident) :
    exec (.tallyResultWrite cl) s = .next (s.modCl cl.toNat fun x => Cluster.tallied { x with tally := l } j) := by
  show execTallyResultWrite cl s = _
  unfold execTallyResultWrite
  rw [head]
  exact if_pos (decide_eq_true isIn)

theorem tallied_tally (x : Cluster) (j : TallyJob) : (x.tallied j).tally = x.tally := by
  unfold Cluster.tallied
  split <;> rfl

/-! ### A tile enters the queue (R60, R82) -/

section
variable {s : State} {cl : ClId} {k : Nat} {r : MxRun} {o : Offer} {os : List Offer}

/-- The tile of an offer, as the queue holds it. -/
def MxRun.queued (r : MxRun) (o : Offer) : QTile :=
  { ctx := r.q.ctx, fmt := (Mx.of r.q.img).outFmt, codes := o.codes, scales := o.scales }

/-- The tile queue with an offer's tile. -/
def State.enqueued (s : State) (cl : ClId) (r : MxRun) (o : Offer) : State :=
  s.modCl cl.toNat fun y => { y with tileq := y.tileq ++ [r.queued o] }

theorem tileQueueAccept_runs (hr : (s.clu cl.toNat).mq[k]? = some r) (front : r.offers = o :: os) (dest : (Mx.of r.q.img).dest = 1)
    (isIn : (s.ctx r.q.ctx.toNat).st = .resident) (room : (s.clu cl.toNat).tileq.length < 16)
    (alone : ∀ u ∈ (s.clu cl.toNat).tileq, u.ctx = r.q.ctx) :
    exec (.tileQueueAccept cl k) s = .next ((s.enqueued cl r o).mxAck cl.toNat k r 1) := by
  show execTileQueueAccept cl k s = _
  unfold execTileQueueAccept
  dsimp only
  rw [hr]
  dsimp only
  rw [front]
  exact if_pos ⟨dest, decide_eq_true isIn, room, List.all_eq_true.2 fun u hu => decide_eq_true (alone u hu)⟩

/-- A tile taken by the queue: it stands last, and its mask bits, amax and conversions are reported. -/
theorem enqueued_taken (s : State) (cl : ClId) (k : Nat) (front : r.offers = o :: os) :
    let t := (s.enqueued cl r o).mxAck cl.toNat k r 1
    (t.clu cl.toNat).tileq = (s.clu cl.toNat).tileq ++ [r.queued o]
      ∧ (t.clu cl.toNat).mq = (s.clu cl.toNat).mq.set k { r with offers := os, acked := r.acked + 1 : MxRun }.settled
      ∧ (t.clu cl.toNat).mem = (Mx.of r.q.img).storePeak ((Mx.of r.q.img).storeMask (s.clu cl.toNat).mem o) o
      ∧ t.census = (s.reportOffer r.q o).census ∧ DrainOnly cl s t := by
  have own : (s.enqueued cl r o).clu cl.toNat = { s.clu cl.toNat with tileq := (s.clu cl.toNat).tileq ++ [r.queued o] } :=
    State.modCl_same ..
  have ack : (s.enqueued cl r o).mxAck cl.toNat k r 1
      = ((s.enqueued cl r o).mxRelease cl.toNat r.q [o]).mxSettle cl.toNat k { r with offers := os, acked := r.acked + 1 } := by
    unfold State.mxAck
    rw [front]
    rfl
  have settled := release_settled (s.enqueued cl r o) cl k { r with offers := os, acked := r.acked + 1 } [o]
  obtain ⟨mem, queue, census, -, -, only⟩ := settled
  have clu := mxSettle_clu ((s.enqueued cl r o).mxRelease cl.toNat r.q [o]) cl.toNat k { r with offers := os, acked := r.acked + 1 }
  rw [mxRelease_clu, own] at clu
  rw [own] at mem queue
  have reported : ([o].foldl (fun s o => State.reportOffer s r.q o) (s.enqueued cl r o)).census = (s.reportOffer r.q o).census :=
    (congrArg State.census (reportOffers_cls s (s.enqueued cl r o).cls r.q [o]) :)
  dsimp only
  rw [ack]
  exact ⟨congrArg Cluster.tileq clu, queue, mem, census.trans reported, (modCl_clusterOnly cl s _).drain.trans only⟩

end

/-! ### Fused chains (R84, Table VX.7) -/

/-- From `s` to `t` mask registers of cluster `cl` change, and nothing else. -/
def MasksOnly (cl : ClId) (s t : State) : Prop :=
  ClusterOnly cl s t ∧ t.clu cl.toNat = { s.clu cl.toNat with k := (t.clu cl.toNat).k }

theorem MasksOnly.refl (cl : ClId) (s : State) : MasksOnly cl s s := ⟨.refl cl s, rfl⟩

theorem MasksOnly.trans {cl : ClId} {s t u : State} (h : MasksOnly cl s t) (k : MasksOnly cl t u) : MasksOnly cl s u := by
  obtain ⟨only, own⟩ := h
  obtain ⟨only', own'⟩ := k
  exact ⟨only.trans only', by rw [own', own]⟩

/-- From `s` to `t` clusters and Touchstones change, and nothing else. -/
def ChainOnly (s t : State) : Prop := t = { s with cls := t.cls, td := t.td }

theorem ChainOnly.refl (s : State) : ChainOnly s s := rfl

theorem ChainOnly.trans {s t u : State} (h : ChainOnly s t) (k : ChainOnly t u) : ChainOnly s u := by
  unfold ChainOnly at *
  rw [k, h]

theorem ClusterOnly.chain {cl : ClId} {s t : State} (h : ClusterOnly cl s t) : ChainOnly s t := by
  unfold ChainOnly
  rw [h.2]

theorem ClusterOnly.td {cl : ClId} {s t : State} (h : ClusterOnly cl s t) : t.td = s.td := by rw [h.2]

section
variable (s : State) (cl : ClId) (c : Chain)

theorem putBits_frame (e : Nat) (ks : List (BitVec 3 × Bool)) (x : Cluster) :
    ks.foldl (fun x b => x.putBit e b) x = { x with k := (ks.foldl (fun x b => x.putBit e b) x).k } :=
  foldl_rel (R := fun x y : Cluster => y = { x with k := y.k }) (fun _ => rfl) (fun h k => by rw [k, h]) (fun _ _ _ => rfl) x

/-- What the stages compute of element `e`. -/
def State.chainRes (e : Nat) : ChainRes := chainVal c (s.clu cl.toNat) (s.free + 8 * e) e (c.reads.map (s.chainIn cl e))

/-- The mask bits that the compares of element `e` set. -/
def State.chainMarked (e : Nat) : State :=
  if (s.chainRes cl c e).ks.isEmpty then s
  else s.modCl cl.toNat fun x => (s.chainRes cl c e).ks.foldl (fun x b => x.putBit (e % 64) b) x

theorem chainMarked_masks (e : Nat) : MasksOnly cl s (s.chainMarked cl c e) := by
  unfold State.chainMarked
  split
  · exact .refl cl s
  · refine ⟨modCl_clusterOnly .., ?_⟩
    rw [State.modCl_same]
    exact putBits_frame ..

theorem chainElem_reads (h : c.write = none) (e : Nat) : (s.chainElem cl c e).2 = s.chainMarked cl c e := by
  unfold State.chainElem
  rw [h]
  rfl

theorem chainElem_writes {w : ChainSpace × Nat} (h : c.write = some w) (e : Nat) : (s.chainElem cl c e).2
    = (s.chainMarked cl c e).chainWrite cl w.1 (w.2 + 4 * e) ((s.chainRes cl c e).out.getD (s.chainRes cl c e).val) := by
  unfold State.chainElem
  rw [h]
  rfl

theorem chainWrite_only (sp : ChainSpace) (a : Nat) (v : W32) : ChainOnly s (s.chainWrite cl sp a v) := by
  cases sp <;> rfl

theorem chainElem_only (e : Nat) : ChainOnly s (s.chainElem cl c e).2 := by
  have marked := (chainMarked_masks s cl c e).1.chain
  cases write : c.write with
  | none => rw [chainElem_reads s cl c write]; exact marked
  | some w => rw [chainElem_writes s cl c write]; exact marked.trans (chainWrite_only ..)

theorem chainAll_only : ChainOnly s (s.chainAll cl c).2 :=
  foldl_rel (R := fun a b : List W32 × State => ChainOnly a.2 b.2) (fun a => .refl a.2) .trans
    (fun a e _ => chainElem_only a.2 cl c e) ([], s)

/-- A chain without a write stream sets mask registers alone. -/
theorem chainAll_masks (h : c.write = none) : MasksOnly cl s (s.chainAll cl c).2 :=
  foldl_rel (R := fun a b : List W32 × State => MasksOnly cl a.2 b.2) (fun a => .refl cl a.2) .trans
    (fun a e _ => by rw [chainElem_reads a.2 cl c h]; exact chainMarked_masks a.2 cl c e) ([], s)

/-- A chain of one element. -/
theorem chainAll_one (h : c.count = 1) : (s.chainAll cl c).2 = (s.chainElem cl c 0).2 := by
  unfold State.chainAll
  rw [h]
  rfl

/-- The elements done, and the free values of their stages drawn. -/
def State.chained : State := { (s.chainAll cl c).2 with free := (s.chainAll cl c).2.free + 8 * c.count }

/-- The final reduction of the values `vs`, where a chain has one. -/
def State.chainReduced (vs : List W32) : State :=
  match c.tally with
  | some t => s.modCl cl.toNat fun x => { x with fused := x.fused ++ [chainTally t.toNat x vs] }
  | none => s

theorem chainReduced_only (vs : List W32) : ClusterOnly cl s (s.chainReduced cl c vs) := by
  unfold State.chainReduced
  split
  · exact modCl_clusterOnly ..
  · exact .refl cl s

theorem chainReduced_clu (vs : List W32) :
    (s.chainReduced cl c vs).clu cl.toNat = { s.clu cl.toNat with fused := ((s.chainReduced cl c vs).clu cl.toNat).fused } := by
  unfold State.chainReduced
  split
  · rw [State.modCl_same]
  · rfl

/-- The state after a chain. -/
def State.chainEnd : State := (s.chained cl c).chainReduced cl c (s.chainAll cl c).1

theorem chainEnd_only : s.chainEnd cl c = { s with
    cls := (s.chainEnd cl c).cls, td := (s.chainEnd cl c).td, free := s.free + 8 * c.count } := by
  have elements := chainAll_only s cl c
  unfold ChainOnly at elements
  have drawn : s.chained cl c = { s with
      cls := (s.chained cl c).cls, td := (s.chained cl c).td, free := s.free + 8 * c.count } := by
    unfold State.chained
    rw [elements]
  have reduced := (chainReduced_only (s.chained cl c) cl c (s.chainAll cl c).1).2
  unfold State.chainEnd
  rw [reduced, drawn]

theorem chainEnd_td : (s.chainEnd cl c).td = (s.chainAll cl c).2.td :=
  (chainReduced_only (s.chained cl c) cl c (s.chainAll cl c).1).td

theorem chainEnd_clu : (s.chainEnd cl c).clu cl.toNat
    = { (s.chainAll cl c).2.clu cl.toNat with fused := ((s.chainEnd cl c).clu cl.toNat).fused } :=
  chainReduced_clu (s.chained cl c) cl c (s.chainAll cl c).1

/-- A chain without a write stream leaves mask registers and its reduction. -/
theorem chainEnd_reads (h : c.write = none) :
    (s.chainEnd cl c).td = s.td
      ∧ (s.chainEnd cl c).clu cl.toNat = { s.clu cl.toNat with
          fused := ((s.chainEnd cl c).clu cl.toNat).fused, k := ((s.chainEnd cl c).clu cl.toNat).k }
      ∧ SameBut State.clu cl.toNat s (s.chainEnd cl c) := by
  obtain ⟨only, own⟩ := chainAll_masks s cl c h
  refine ⟨(chainEnd_td ..).trans only.td, ?_, fun j hj => ?_⟩
  · rw [chainEnd_clu, own]
  · exact ((chainReduced_only (s.chained cl c) cl c (s.chainAll cl c).1).1 j hj).trans (only.1 j hj)

/-- A chain of one element that writes memory leaves one word there. -/
theorem chainEnd_writes {a : Nat} (write : c.write = some (.mem, a)) (one : c.count = 1) :
    ((s.chainEnd cl c).clu cl.toNat).mem
        = (s.clu cl.toNat).mem.writeN a 4 ((s.chainRes cl c 0).out.getD (s.chainRes cl c 0).val).toNat
      ∧ (s.chainEnd cl c).td = s.td := by
  obtain ⟨only, own⟩ := chainMarked_masks s cl c 0
  rw [chainEnd_td, chainEnd_clu, chainAll_one s cl c one, chainElem_writes s cl c write]
  refine ⟨?_, only.td⟩
  have written : ((s.chainMarked cl c 0).chainWrite cl .mem (a + 4 * 0)
      ((s.chainRes cl c 0).out.getD (s.chainRes cl c 0).val)).clu cl.toNat = _ := State.modCl_same ..
  dsimp only
  rw [written, own]
  rfl

end

/-- A chain within Table VX.7, in SERVICE or STAGE 4. -/
theorem fusedChain_runs {s : State} {cl : ClId} {c : Chain}
    (open_ : ((s.clu cl.toNat).service = true ∧ s.issueOpen (cl.toNat / 256) = true) ∨ s.boot.stage = 4)
    (fits : chainFits c (s.boot.stage == 4) cl = true) (logical : cl.toNat % 256 < 150) :
    exec (.fusedChain cl c) s = .next (s.chainEnd cl c) := by
  have accepted : (((s.clu cl.toNat).service && s.issueOpen (cl.toNat / 256)) || s.boot.stage == 4) = true := by
    simpa using open_
  show execFusedChain cl c s = _
  unfold execFusedChain State.chainEnd State.chained State.chainReduced
  dsimp only
  rw [accepted, fits, decide_eq_true logical]
  cases c.tally <;> rfl

/-- Settles O53: accesses of the vector engine, the tile queue's two ends, reductions and their results, and fused chains. -/
theorem vectorMemoryTilesAndReductions : Obligations.VectorMemoryTilesAndReductions := by
  unfold Obligations.VectorMemoryTilesAndReductions
  refine ⟨?instructions, ?results, ?queue, ?chains⟩
  case instructions =>
    intro cl q r i s at_ x a sc
    refine ⟨fun op own => ?load, fun op out => ?_, fun op out => ?_, fun op out => ?_, fun op out => ?_, fun op memory out => ?tallyOut,
      fun op own => ?store, vKld_completes at_, vKst_completes at_, fun op => ⟨?pop, vTqpop_waits at_ op⟩, fun op place => ?tally⟩
    case load => exact .of_then (vLd_answers at_ op) own (vecSet_lanes s cl q r i fun x j => x.loadLane i.ty a sc j)
    · exact .of_else (vLd_answers at_ op) out (at_.faultAt _ _)
    · exact .of_else (vSt_answers at_ op) out (at_.faultAt _ _)
    · exact .of_else (vKld_answers at_ op) out (at_.faultCmd _ _)
    · exact .of_else (vKst_answers at_ op) out (at_.faultCmd _ _)
    case tallyOut => exact .of_else (vTally_answers at_ op) (by rw [memory, out]; rfl) (at_.faultCmd _ _)
    case store =>
      obtain ⟨t, run, mem, frame, others, notes⟩ := vSt_completes at_ op own
      obtain ⟨codes, bytes⟩ := stored_leaves x i q (s.nums q.ctx.toNat).seed r.rep a sc
      rw [← mem] at codes bytes
      exact ⟨t, run, codes, bytes, frame, others, notes⟩
    case pop => exact fun tl l head ctx => vTqpop_pops at_ op head ctx
    case tally =>
      have allowed : (i.rnd || s.ownsIn q.ctx cl a 8) = true := by
        rw [Bool.or_eq_true]
        exact place
      exact .of_then (vTally_answers at_ op) allowed ⟨vecSet_clu .., vecSet_only ..⟩
  case results =>
    intro cl j l s head isIn
    refine ⟨_, tallyResultWrite_runs head isIn, ?_⟩
    dsimp only
    rw [State.modCl_same]
    refine ⟨tallied_tally .., modCl_clusterOnly .., fun memory => ?_, fun summary =>
      tallied_summary (x := { s.clu cl.toNat with tally := l }) summary⟩
    rw [tallied_memory _ memory]
    obtain ⟨value, aux, bytes⟩ := storedIn_leaves j (s.clu cl.toNat).mem
    exact ⟨value, aux, bytes, rfl⟩
  case queue =>
    intro cl k r o os s hr front dest isIn room alone
    obtain ⟨tiles, queue, mem, census, others, notes⟩ := enqueued_taken s cl k front
    exact ⟨_, tileQueueAccept_runs hr front dest isIn room alone, tiles, ⟨_, queue, rfl⟩, mem, census, others, notes⟩
  case chains =>
    intro cl c s open_ fits logical
    refine ⟨_, fusedChain_runs open_ fits logical, chainEnd_only s cl c, chainEnd_reads s cl c, fun a write one => ?_⟩
    obtain ⟨mem, td⟩ := chainEnd_writes s cl c write one
    dsimp only
    rw [mem]
    exact ⟨Mem.read32_writeN .., fun b out => Mem.read_writeN_out (by omega), td⟩

end Sys2Proof.Machine
end
section
/-! SUPPORT. Packets between Touchstones: routes after a packet has been taken, the credit of a partition, and the statement on
it (O34; R98, R224). -/

namespace Sys2Proof.Machine

/-! ### Routes and ports after a packet is taken (R222, R228) -/

/-- A route looks at the torus and at which ports are DOWN, and at nothing else (R228). -/
theorem route_congr {s t : State} (boot : t.boot = s.boot) (ports : ∀ j, (t.prt6 j).st = (s.prt6 j).st) (d : DevId) (from_ : Option Nat) :
    t.route d from_ = s.route d from_ := by
  unfold State.route State.inTorus State.nextAxis State.wayOf State.extent State.devId
  simp only [ports, boot]

theorem given_prt6 (s : State) (p : PortId) (k : Packet) (j : Nat) :
    ((s.given p k).prt6 j).st = (s.prt6 j).st ∧ ((s.given p k).prt6 j).txq = (s.prt6 j).txq := by
  by_cases h : j = p.val
  · rw [h, given_port]
    split <;> exact ⟨rfl, rfl⟩
  · have other : (s.given p k).prt6 j = s.prt6 j := by unfold State.given; split <;> exact State.modPort_ne _ _ h
    rw [other]
    exact ⟨rfl, rfl⟩

theorem route_given (s : State) (p : PortId) (k : Packet) (d : DevId) : (s.given p k).route d = s.route d :=
  route_congr (by rw [given_frame]) (fun j => (given_prt6 s p k j).1) d none

/-! ### Fields of packed words (R11) -/

theorem bits_ofNat64 {n : Nat} (h : n < 2 ^ 64) (hi lo : Nat) : bits (BitVec.ofNat 64 n).toNat hi lo = n / 2 ^ lo % 2 ^ (hi + 1 - lo) := by
  rw [BitVec.toNat_ofNat, Nat.mod_eq_of_lt h]
  unfold bits
  rw [Nat.shiftRight_eq_div_pow]

theorem bits_lt (w hi lo : Nat) : bits w hi lo < 2 ^ (hi + 1 - lo) := Nat.mod_lt _ (Nat.two_pow_pos _)

/-! ### The credit of a partition (R98) -/

theorem Part.answered_frame (p : Part) (dev : DevId) (c : CtxId) : p.answered dev c = { p with pairs := (p.answered dev c).pairs } := rfl

theorem Part.listed_mem (p : Part) (dev : DevId) (c : CtxId) : ∃ w, (dev, c, w) ∈ (p.listed dev c).pairs := by
  unfold Part.listed
  split
  case isTrue h =>
    obtain ⟨⟨a, b, w⟩, mem, same⟩ := List.any_eq_true.1 h
    obtain ⟨rfl, rfl⟩ := of_decide_eq_true same
    exact ⟨w, mem⟩
  case isFalse => exact ⟨_, List.mem_append_right _ (List.mem_singleton_self _)⟩

/-- A pair that is listed and answered stands in the list with the present C. -/
theorem Part.answered_mem {p : Part} {dev : DevId} {c : CtxId} (h : ∃ w, (dev, c, w) ∈ p.pairs) :
    (dev, c, BitVec.ofNat 32 p.c64.toNat) ∈ (p.answered dev c).pairs := by
  obtain ⟨w, mem⟩ := h
  exact List.mem_map.2 ⟨(dev, c, w), mem, if_pos ⟨rfl, rfl⟩⟩

/-- The partition once the pair of a request is listed and answered. -/
def Part.credited (p : Part) (dev : DevId) (c : CtxId) : Part := (p.listed dev c).answered dev c

theorem Part.credited_frame (p : Part) (dev : DevId) (c : CtxId) : p.credited dev c = { p with pairs := (p.credited dev c).pairs } := by
  unfold Part.credited
  rw [Part.answered_frame, Part.listed_eq]

theorem Part.credited_mem (p : Part) (dev : DevId) (c : CtxId) : (dev, c, BitVec.ofNat 32 p.c64.toNat) ∈ (p.credited dev c).pairs := by
  have listed := Part.answered_mem (p.listed_mem dev c)
  rwa [show (p.listed dev c).c64 = p.c64 by rw [Part.listed_eq]] at listed

/-- TARGET of a credit return: C and the die. -/
def Part.creditTarget (x : Part) (die : Nat) : W64 := BitVec.ofNat 64 (x.c64.toNat % 2 ^ 32 + die * 2 ^ 32)
/-- AUX of a credit return: the slots, the segments, the mode and K. -/
def Part.creditAux (x : Part) : W64 :=
  BitVec.ofNat 64 (x.geo.slots % 2 ^ 16 + x.geo.segs * 2 ^ 16 + x.geo.mode.toNat * 2 ^ 26 + x.geo.k * 2 ^ 28)

theorem Part.creditTarget_fields (x : Part) {die : Nat} (h : die < 8) :
    (x.creditTarget die).toNat % 2 ^ 32 = x.c64.toNat % 2 ^ 32 ∧ bits (x.creditTarget die).toNat 34 32 = die := by
  unfold Part.creditTarget
  rw [bits_ofNat64 (by omega), BitVec.toNat_ofNat]
  omega

theorem Part.creditAux_fields {x : Part} (segs : x.geo.segs < 1024) (k : x.geo.k < 512) :
    bits x.creditAux.toNat 15 0 = x.geo.slots % 2 ^ 16 ∧ bits x.creditAux.toNat 25 16 = x.geo.segs
      ∧ bits x.creditAux.toNat 27 26 = x.geo.mode.toNat ∧ bits x.creditAux.toNat 36 28 = x.geo.k := by
  have mode := x.geo.mode.isLt
  unfold Part.creditAux
  simp only [bits_ofNat64 (show x.geo.slots % 2 ^ 16 + x.geo.segs * 2 ^ 16 + x.geo.mode.toNat * 2 ^ 26 + x.geo.k * 2 ^ 28 < 2 ^ 64 by omega)]
  omega

/-- The packet of a credit return, for the device `dst` and its class of the dateline. -/
def State.creditPkt (s : State) (die c : Nat) (pair : DevId × CtxId) (dst : DevId) (dl : Bool) : Packet :=
  { s.mkPkt 3 1 pair.1 (BitVec.ofNat 12 c) pair.2 0 ((s.prt die c).creditTarget die) (s.prt die c).creditAux [] with
    dst := dst, dateline := dl, lsn := 0 }

/-- A listed pair's return joins the queue of the way back (R98). -/
theorem credited_returns {s : State} (die c : Nat) {q : Nat} {dt : Bool} {dev : DevId} {ctx : CtxId} (away : s.remapped dev ≠ s.devId)
    (route : s.route (s.remapped dev) = some (q, dt)) :
    let u := s.modPart die c fun x => x.credited dev ctx
    u.creditReturn die c (dev, ctx) = u.modPort q fun x => x.queue (u.creditPkt die c (dev, ctx) (s.remapped dev) (dt || s.wraps q)) :=
  send_routed (s := s.modPart die c fun x => x.credited dev ctx) 0 away
    ((route_congr (s := s) rfl (fun _ => rfl) _ none).trans route)

/-- A request for a partition that takes deposits is listed and answered. -/
theorem creditRequest_answers {s : State} {p : PortId} {k : Packet} (arr : Arrives s p k 11)
    (valid : (s.prt (bits k.target.toNat 34 32) k.dstCtx.toNat).valid = true)
    (taking : (s.prt (bits k.target.toNat 34 32) k.dstCtx.toNat).refusing = false)
    (powered : s.diePowered (bits k.target.toNat 34 32) = true) (on : s.unitOn 0 = true) :
    exec (.creditRequest p k) s = .next (((s.given p k).modPart (bits k.target.toNat 34 32) k.dstCtx.toNat
      fun x => x.credited k.src k.srcCtx).creditReturn (bits k.target.toNat 34 32) k.dstCtx.toNat (k.src, k.srcCtx)) := by
  obtain ⟨-, -, -, -, hears⟩ := id arr
  show s.receive p.val k 11 _ = _
  rw [receive_arrives arr (by decide)]
  have open_ : (!(s.prt (bits k.target.toNat 34 32) k.dstCtx.toNat).valid || (s.prt (bits k.target.toNat 34 32) k.dstCtx.toNat).refusing
      || (s.ctx k.dstCtx.toNat).st.deaf || !s.diePowered (bits k.target.toNat 34 32) || !s.unitOn 0) = false := by
    simp [valid, taking, hears, powered, on]
  refine congrArg Host.Outcome.next (if_neg ?_)
  rw [given_frame]
  exact Bool.eq_false_iff.1 open_

/-- A shadow after a credit return that its sender's partition names. -/
theorem Part.returned_shadow (q : Part) (k : Packet) {h : Shadow} (mem : h ∈ (q.returned k).shadow) :
    if h.dev = k.src ∧ h.ctx = k.srcCtx ∧ h.die.toNat = bits k.target.toNat 34 32
    then h.c = some (k.target.setWidth 32) ∧ h.asked = false ∧ h.slots = bits k.aux.toNat 15 0
      ∧ h.segs = bits k.aux.toNat 25 16 ∧ h.mode.toNat = bits k.aux.toNat 27 26 ∧ h.k = bits k.aux.toNat 36 28 else h ∈ q.shadow := by
  obtain ⟨g, old, rfl⟩ := List.mem_map.1 mem
  by_cases named : g.dev = k.src ∧ g.ctx = k.srcCtx ∧ g.die.toNat = bits k.target.toNat 34 32
  · rw [if_pos named, if_pos named]
    refine ⟨rfl, rfl, rfl, rfl, ?_, rfl⟩
    rw [BitVec.toNat_ofNat]
    exact Nat.mod_eq_of_lt (bits_lt k.aux.toNat 27 26)
  · rw [if_neg named, if_neg named]
    exact old

/-- Every die's Touchstone once a credit return has come for context `c`. -/
def State.creditsReturned (s : State) (k : Packet) : State :=
  { s with td := SMap.mapV {} (fun _ t => { t with
      part := SMap.mapV {} (fun c q => if c = k.dstCtx.toNat then q.returned k else q) t.part }) s.td }

theorem creditReturn_runs {s : State} {p : PortId} {k : Packet} (arr : Arrives s p k 3) :
    exec (.creditReturn p k) s = .next ((s.given p k).creditsReturned k) := receive_arrives arr (by decide) _

theorem creditsReturned_tdie (s : State) (k : Packet) (d : Nat) : (s.creditsReturned k).tdie d = { s.tdie d with
    part := SMap.mapV {} (fun c q => if c = k.dstCtx.toNat then q.returned k else q) (s.tdie d).part } := SMap.get_mapV _ _ _ rfl

theorem creditsReturned_prt (s : State) (k : Packet) (d c : Nat) :
    (s.creditsReturned k).prt d c = if c = k.dstCtx.toNat then (s.prt d c).returned k else s.prt d c := by
  unfold State.prt
  rw [creditsReturned_tdie]
  refine SMap.get_mapV _ _ _ ?_
  split <;> rfl

/-- Settles O34: the partition that is asked lists the pair and sends its C; the shadows of the context take what returns. -/
theorem creditFollowsTheRequest : Obligations.CreditFollowsTheRequest := by
  unfold Obligations.CreditFollowsTheRequest
  refine ⟨?request, ?back⟩
  case request =>
    intro p k q dt s arr die c valid taking powered on segs kk away route
    refine ⟨_, creditRequest_answers arr valid taking powered on, ?_⟩
    have part : ((s.given p k).modPart die c fun x => x.credited k.src k.srcCtx).prt die c = (s.prt die c).credited k.src k.srcCtx := by
      rw [State.modPart_same, given_frame]; rfl
    have frame := Part.credited_frame (s.prt die c) k.src k.srcCtx
    have peer : (s.given p k).remapped k.src = s.remapped k.src := by rw [given_frame]; rfl
    have sent := credited_returns (s := s.given p k) die c (ctx := k.srcCtx) (by rw [peer, given_frame]; exact away)
      (by rw [peer, route_given]; exact route)
    dsimp only at sent
    rw [sent, peer]
    generalize packet : State.creditPkt _ die c (k.src, k.srcCtx) (s.remapped k.src) _ = r
    have target : r.target = (s.prt die c).creditTarget die := by rw [← packet]; unfold State.creditPkt; rw [part, frame]; rfl
    have aux : r.aux = (s.prt die c).creditAux := by rw [← packet]; unfold State.creditPkt; rw [part, frame]; rfl
    obtain ⟨credit, die'⟩ := (s.prt die c).creditTarget_fields (die := die) (bits_lt _ _ _)
    obtain ⟨slots, segments, mode, chosen⟩ := Part.creditAux_fields segs kk
    refine ⟨?pairs, ⟨r, ?queued, ?ty, ?dst, ?ctx, by rw [target]; exact credit, by rw [target]; exact die',
      by rw [aux]; exact slots, by rw [aux]; exact segments, by rw [aux]; exact mode, by rw [aux]; exact chosen⟩,
      ?others, fun j other => ?dies, ?frame⟩
    case pairs => exact part.symm ▸ Part.credited_mem _ _ _
    case queued =>
      rw [State.modPort_same]
      exact congrArg (· ++ [r]) (given_prt6 s p k q).2
    case ty => rw [← packet]; rfl
    case dst => rw [← packet]; rfl
    case ctx => rw [← packet]; rfl
    case others => exact part.trans (frame.trans (by rw [← part]; rfl))
    case dies => exact (State.modPart_die_ne _ _ _ other).trans (by rw [given_frame]; rfl)
    case frame => rw [given_frame]; rfl
  case back =>
    intro p k s arr
    have prt (d c : Nat) : ((s.given p k).creditsReturned k).prt d c = if c = k.dstCtx.toNat then (s.prt d c).returned k else s.prt d c := by
      rw [creditsReturned_prt, given_frame]; rfl
    refine ⟨_, creditReturn_runs arr, ?_, given_owes s p k, fun d => ⟨?_, fun c other => ?_, ?_, ?_, fun h mem => ?_⟩⟩
    · rw [given_frame]; rfl
    · rw [creditsReturned_tdie, given_frame]; rfl
    · rw [prt, if_neg other]
    · rw [prt, if_pos rfl]; rfl
    · rw [prt, if_pos rfl]; exact List.length_map _
    · rw [prt, if_pos rfl] at mem; exact Part.returned_shadow _ k mem

end Sys2Proof.Machine
end
section
/-! SUPPORT. Answers to packets: what the loss of a tier leaves alone, refusals and acknowledges, and the statement on them (O32;
R99, R191, R230, R231, R268). -/

namespace Sys2Proof.Machine

/-! ### What the loss of a tier leaves alone (R268) -/

/-- From `s` to `t` no context and no persistent cell changes, and the same tiers are lost. -/
def TiersKept (s t : State) : Prop := t.ctxs = s.ctxs ∧ t.nv = s.nv ∧ t.sg.lost = s.sg.lost

theorem TiersKept.refl (s : State) : TiersKept s s := ⟨rfl, rfl, rfl⟩

theorem TiersKept.trans {s t u : State} (h : TiersKept s t) (k : TiersKept t u) : TiersKept s u := by
  obtain ⟨ctxs, nv, lost⟩ := h
  obtain ⟨ctxs', nv', lost'⟩ := k
  exact ⟨ctxs'.trans ctxs, nv'.trans nv, lost'.trans lost⟩

/-- What begins with other fields than these three keeps them too. -/
theorem TiersKept.from {s t u : State} (k : TiersKept t u) (h : TiersKept s t) : TiersKept s u := h.trans k

theorem censusAdd_tiers (s : State) (c a n : Nat) : TiersKept s (s.censusAdd c a n) := by
  unfold State.censusAdd
  split
  · exact .refl s
  · split <;> exact ⟨rfl, rfl, rfl⟩

theorem scrubPages_tiers (s : State) : TiersKept s s.scrubPages :=
  TiersKept.from (foldl_rel .refl .trans (fun _ _ _ => ⟨rfl, rfl, rfl⟩) _) ⟨rfl, rfl, rfl⟩

theorem makeAdds_tiers (s : State) : TiersKept s s.makeAdds :=
  TiersKept.from (foldl_rel .refl .trans (fun s r _ => censusAdd_tiers s r.1 r.2.1 r.2.2) _) ⟨rfl, rfl, rfl⟩

theorem toScrub_tiers (s : State) (l : List Nat) : TiersKept s (s.toScrub l) :=
  TiersKept.from ((scrubPages_tiers _).trans (makeAdds_tiers _)) ⟨rfl, rfl, rfl⟩

theorem abandonEpoch_tiers (s : State) (c : Nat) : TiersKept s (s.abandonEpoch c) := by
  unfold State.abandonEpoch
  split
  · exact TiersKept.from (toScrub_tiers _ _) ⟨rfl, rfl, rfl⟩
  · exact .refl s

/-- A packet that is queued leaves everything but ports and the device's own loop. -/
theorem enqueue_only {s t : State} {k : Packet} {from_ : Option Nat} (h : s.enqueue k from_ = some t) :
    t = { s with port := t.port, links := t.links } := by
  unfold State.enqueue at h
  split at h
  · cases h; rfl
  · split at h
    · cases h
    · cases h; rfl

theorem reply_only (s : State) (k : Packet) : s.reply k = { s with port := (s.reply k).port, links := (s.reply k).links } := by
  unfold State.reply
  cases h : s.enqueue { k with dst := s.remapped k.dst } none with
  | none => rfl
  | some t => exact enqueue_only h

theorem reply_tiers (s : State) (k : Packet) : TiersKept s (s.reply k) := by
  rw [reply_only]
  exact ⟨rfl, rfl, rfl⟩

theorem mirrorPkt_tiers (s : State) (c : CtxId) (bs : List Byte) : TiersKept s (s.mirrorPkt c bs) := by
  have sent (u : State) (k : Packet) (f : SgCtx → SgCtx) (h : TiersKept s u) : TiersKept s ((u.reply k).modSgc c.toNat f) :=
    h.trans (reply_tiers u k)
  exact sent _ _ _ ⟨rfl, rfl, rfl⟩

theorem pushHost_tiers (s : State) : TiersKept s s.pushHost := by
  unfold State.pushHost
  split
  · split
    · exact ⟨rfl, rfl, rfl⟩
    · exact .refl s
  · exact .refl s

theorem tierSend_tiers (s : State) (c : CtxId) (n : Nat) (piece : Nat → List Byte) : TiersKept s (s.tierSend c n piece) := by
  unfold State.tierSend
  dsimp only
  split
  · exact foldl_rel .refl .trans (fun s b _ => mirrorPkt_tiers s c b) s
  · split
    · exact TiersKept.from (pushHost_tiers _) ⟨rfl, rfl, rfl⟩
    · exact .refl s

theorem sendPinned_tiers (s : State) (c : CtxId) (p : Pinned) : TiersKept s (s.sendPinned c p) :=
  TiersKept.from (tierSend_tiers _ _ _ _) ⟨rfl, rfl, rfl⟩

theorem resendDeltas_tiers (s : State) : TiersKept s s.resendDeltas := by
  unfold State.resendDeltas
  split
  · exact ⟨rfl, rfl, rfl⟩
  · exact foldl_rel .refl .trans (fun s p _ => sendPinned_tiers s _ p.2.deltaPin) s

theorem moveTier_tiers (s : State) (t : BitVec 2) : TiersKept s (s.moveTier t) := by
  unfold State.moveTier
  split
  · exact .refl s
  · have resent (u : State) (l : List Nat) (h : TiersKept s u) :
        TiersKept s (State.resendDeltas { l.foldl State.abandonEpoch u with
          sg := { (l.foldl State.abandonEpoch u).sg with tierActive := t, outbox := [] } }) :=
      TiersKept.from (resendDeltas_tiers _) (h.trans (foldl_rel .refl .trans (fun s c _ => abandonEpoch_tiers s c) u))
    exact resent _ _ ⟨rfl, rfl, rfl⟩

theorem AlarmOnly.sg {s t : State} (h : AlarmOnly s t) : t.sg = s.sg := by
  unfold AlarmOnly at h; rw [h]

/-- The active tier that is lost joins the lost ones; no context and no cell changes. -/
theorem loseTier_keeps {s : State} (active : s.sg.tierActive = 1) :
    s.loseTier.ctxs = s.ctxs ∧ s.loseTier.nv = s.nv ∧ 1 ∈ s.loseTier.sg.lost := by
  have end_ (u : State) (m : SMap SgCtx) (h : TiersKept { s with sg := { s.sg with lost := s.sg.lost ++ [1] } } u) :
      (State.alarm { u with sgC := m } pgStrong 2).ctxs = s.ctxs ∧ (State.alarm { u with sgC := m } pgStrong 2).nv = s.nv
        ∧ 1 ∈ (State.alarm { u with sgC := m } pgStrong 2).sg.lost := by
    obtain ⟨ctxs, nv, lost⟩ := h
    have only := alarm_only { u with sgC := m } pgStrong 2
    exact ⟨only.ctxs.trans ctxs, only.nv.trans nv, by rw [only.sg]; exact lost ▸ List.mem_append_right _ (List.mem_singleton_self 1)⟩
  unfold State.loseTier
  rw [active]
  exact end_ _ _ (moveTier_tiers _ _)

/-- A refused MIRROR packet leaves contexts and cells alone; where the partner's tier is the active one, it is lost. -/
theorem mirrorRefused_keeps (s : State) :
    s.mirrorRefused.ctxs = s.ctxs ∧ s.mirrorRefused.nv = s.nv ∧ (s.sg.tierActive = 1 → 1 ∈ s.mirrorRefused.sg.lost) := by
  unfold State.mirrorRefused
  split
  case isFalse other => exact ⟨rfl, rfl, fun active => absurd active other⟩
  case isTrue active =>
    obtain ⟨ctxs, nv, lost⟩ := loseTier_keeps active
    exact ⟨ctxs, nv, fun _ => lost⟩

/-! ### REFUSAL (R99, R191, R230) -/

/-- A context that takes packets may fault (R191, R229). -/
theorem alive_of_hears {x : CtxSt} (h : x.deaf = false) : x.alive := by
  cases x with
  | resident => exact .inl rfl
  | loading => exact .inr (.inl rfl)
  | saving => exact .inr (.inr (.inl rfl))
  | out => exact .inr (.inr (.inr rfl))
  | unused | stopped | scrubbing | faulted => cases h

/-- A fault followed by alarms is a fault. -/
theorem Faulted.then_alarm {s t u : State} {c : CtxId} {code : U16} (k : Faulted s t c code) (h : AlarmOnly t u) : Faulted s u c code := by
  obtain ⟨hst, hlast, hflight, hctx, hnv, hhbm, hhost, hsems, hpot⟩ := k
  obtain ⟨anv, ahbm, ahost, asems, apot⟩ := h.keeps
  refine ⟨by rw [h.ctx]; exact hst, by rw [h.ctx]; exact hlast, by rw [h.ctx]; exact hflight, fun j hj => (h.ctx j).trans (hctx j hj),
    anv.trans hnv, ahbm.trans hhbm, ahost.trans hhost, asems.trans hsems, apot.trans hpot⟩

theorem faultCtx_sg (s : State) (c : CtxId) (code : U16) (detail : W64) (cmd : W32) (unit : U16) (irq : Bool) :
    (faultCtx s c code detail cmd unit irq).sg = s.sg := by
  by_cases alive : (s.ctx c.toNat).st.alive
  · obtain ⟨r, only⟩ := faultCtx_eq s c code detail cmd unit irq alive
    rw [only.sg, State.modCtx_sg, stopCtx_only]
  · rw [faultCtx_idle _ _ _ _ _ _ _ alive]

/-- What a refusal does to the device that takes it. -/
def State.refusalTaken (s : State) (k : Packet) : State :=
  let code := BitVec.ofNat 16 k.aux.toNat
  if k.target.toNat % 16 = 9 then if code = 0x0402 then faultCtx s.mirrorRefused k.dstCtx code k.target else s.mirrorRefused
  else
    let ds := if code.toNat / 256 = 2 then s.producers k.dstCtx (refusedDst k) (refusedCtx k) else []
    ds.tail.foldl (fun t d => t.alarm0 (pgTouch d) 2 (some k.dstCtx.toNat))
      (faultCtx s k.dstCtx code k.target 0 ((ds.head?.map (BitVec.ofNat 16)).getD 0xFFFF))

theorem refusal_runs {s : State} {p : PortId} {k : Packet} (arr : Arrives s p k 4) :
    exec (.refusal p k) s = .next ((s.given p k).refusalTaken k) := receive_arrives arr (by decide) _

theorem refusalTaken_other {s : State} {k : Packet} (hears : (s.ctx k.dstCtx.toNat).st.deaf = false) (other : k.target.toNat % 16 ≠ 9) :
    Faulted s (s.refusalTaken k) k.dstCtx (k.aux.setWidth 16) := by
  unfold State.refusalTaken
  dsimp only
  rw [if_neg other]
  exact (faultCtx_faulted _ _ _ _ _ _ _ (alive_of_hears hears)).then_alarm (foldl_rel .refl .trans (fun t d _ => alarm0_only t _ _ _) _)

theorem refusalTaken_filtered {s : State} {k : Packet} (mirror : k.target.toNat % 16 = 9) (code : k.aux.setWidth 16 = 0x0402#16) :
    s.refusalTaken k = faultCtx s.mirrorRefused k.dstCtx 0x0402 k.target := by
  unfold State.refusalTaken
  dsimp only
  rw [if_pos mirror, show BitVec.ofNat 16 k.aux.toNat = 0x0402#16 from code]
  exact if_pos rfl

theorem refusalTaken_mirror {s : State} {k : Packet} (mirror : k.target.toNat % 16 = 9) (code : k.aux.setWidth 16 ≠ 0x0402#16) :
    s.refusalTaken k = s.mirrorRefused := by
  unfold State.refusalTaken
  dsimp only
  rw [if_pos mirror]
  exact if_neg code

/-! ### ACK (R231) -/

theorem linkAck_waiter {s : State} {p : PortId} {k : Packet} {cl : Nat} (arr : Arrives s p k 10)
    (waiter : s.ackWaiter k.dstCtx (k.target.setWidth 32) = some cl) : exec (.linkAck p k) s = .next ((s.given p k).modCl cl fun x =>
      { x with dleft := x.dleft - 1, dwait := decide (1 < x.dleft), ddone := decide (x.dleft ≤ 1) }) := by
  have same : (s.given p k).ackWaiter k.dstCtx (BitVec.ofNat 32 k.target.toNat) = some cl := by rw [given_frame]; exact waiter
  show s.receive p.val k 10 _ = _
  rw [receive_arrives arr (by decide)]
  simp only [same]
  rfl

theorem linkAck_mirror {s : State} {p : PortId} {k : Packet} (arr : Arrives s p k 10) (target : k.target = 0)
    (none_ : s.ackWaiter k.dstCtx 0 = none) :
    exec (.linkAck p k) s = .next ((s.given p k).modSgc k.dstCtx.toNat fun x => { x with acks := x.acks - 1 }) := by
  have same : (s.given p k).ackWaiter k.dstCtx (BitVec.ofNat 32 k.target.toNat) = none := by rw [given_frame, target]; exact none_
  show s.receive p.val k 10 _ = _
  rw [receive_arrives arr (by decide)]
  simp only [same]
  exact congrArg Host.Outcome.next (if_pos target)

theorem given_clu (s : State) (p : PortId) (k : Packet) (j : Nat) : (s.given p k).clu j = s.clu j := by rw [given_frame]; rfl
theorem given_sgc (s : State) (p : PortId) (k : Packet) (j : Nat) : (s.given p k).sgc j = s.sgc j := by rw [given_frame]; rfl
theorem given_ctx (s : State) (p : PortId) (k : Packet) (j : Nat) : (s.given p k).ctx j = s.ctx j := by rw [given_frame]; rfl

/-- Settles O32: refusals of a command's packet and of a MIRROR packet, the ACK a DMA engine waits for, and that of number 0. -/
theorem refusalsFaultAndAcksComplete : Obligations.RefusalsFaultAndAcksComplete := by
  unfold Obligations.RefusalsFaultAndAcksComplete
  refine ⟨?refused, ?acked, ?mirrored⟩
  case refused =>
    intro p k s arr
    obtain ⟨-, -, -, -, hears⟩ := id arr
    have hears' : ((s.given p k).ctx k.dstCtx.toNat).st.deaf = false := by rw [given_ctx]; exact hears
    obtain ⟨ctxs, nv, lost⟩ := mirrorRefused_keeps (s.given p k)
    have ctx (j : Nat) : (s.given p k).mirrorRefused.ctx j = s.ctx j := by
      unfold State.ctx; rw [ctxs, given_frame]
    have same : (s.given p k).sg = s.sg := by rw [given_frame]
    refine ⟨fun other => ?command, fun mirror code => ?filtered, fun mirror code => ?tier⟩
    case command =>
      have fault := refusalTaken_other hears' other
      rw [given_frame] at fault
      refine ⟨_, refusal_runs arr, ?_⟩
      rw [given_frame]
      exact fault
    case filtered =>
      obtain ⟨st, last, -, others, nv', -⟩ := faultCtx_faulted (s.given p k).mirrorRefused k.dstCtx 0x0402 k.target 0 0xFFFF false
        (by rw [ctx]; exact alive_of_hears hears)
      refine ⟨_, refusal_runs arr, ?_⟩
      rw [refusalTaken_filtered mirror code]
      exact ⟨st, last, fun j hj => (others j hj).trans (ctx j), nv'.trans (nv.trans (by rw [given_frame])),
        fun active => by rw [faultCtx_sg]; exact lost (same ▸ active)⟩
    case tier =>
      refine ⟨_, refusal_runs arr, ?_⟩
      rw [refusalTaken_mirror mirror code]
      refine ⟨ctxs.trans (by rw [given_frame]), nv.trans (by rw [given_frame]), fun active => lost (same ▸ active), fun other => ?_⟩
      rw [show (s.given p k).mirrorRefused = s.given p k from if_neg (same ▸ other)]
      exact given_frame s p k
  case acked =>
    intro p k cl s arr waiter
    refine ⟨_, linkAck_waiter arr waiter, ?_, fun j hj => ?_, ?_, ?_⟩
    · rw [State.modCl_same, given_clu]
    · rw [State.modCl_ne _ _ hj, given_clu]
    · rw [given_frame]; rfl
    · rw [given_frame]; rfl
  case mirrored =>
    intro p k s arr target none_
    refine ⟨_, linkAck_mirror arr target none_, ?_, fun j hj => ?_, ?_⟩
    · rw [State.modSgc_same, given_sgc]
    · rw [State.modSgc_ne _ _ hj, given_sgc]
    · rw [given_frame]; rfl

end Sys2Proof.Machine
end
section
/-! SUPPORT. The operations of TOUCH commands: a command's end seen from other states, an operation that takes effect, a credit
request, and the statement on them (O48; R98, R100, R115, R134). -/

namespace Sys2Proof.Machine

/-! ### The end of a command, seen from other states (R179, R185) -/

/-- The end of a command looks at contexts and at the scheduler alone. -/
theorem Finishes.congr {s t u v : State} {q : QE} {code : Nat} (h : Finishes s t q code) (ctxs : u.ctxs = s.ctxs)
    (sched : u.sched = s.sched) (ctxs' : v.ctxs = t.ctxs) (sched' : v.sched = t.sched) : Finishes u v q code := by
  unfold Finishes Records State.tokensAfter State.endWaits SameBut State.ctx at *
  rw [ctxs, sched, ctxs', sched']
  exact h

/-! ### An operation takes effect (R115) -/

/-- The die once an operation is in force and its command has left the queue. -/
def State.touched (s : State) (d : Nat) (q : QE) (f : Part → Part) : State :=
  (s.modPart d q.ctx.toNat f).modTd d fun t => { t with tq := t.tq.filter (· ≠ q) }

theorem touched_prt (s : State) (d : Nat) (q : QE) (f : Part → Part) (e : Nat) :
    (s.touched d q f).prt d e = (s.modPart d q.ctx.toNat f).prt d e := by
  unfold State.touched State.prt
  rw [State.modTd_same]

theorem touchEnd_only (s : State) (d : Nat) (q : QE) (f : Part → Part) : s.touchEnd d q f = { s with
    td := (s.touched d q f).td, ctxs := (s.touchEnd d q f).ctxs, sched := (s.touchEnd d q f).sched } := by
  unfold State.touchEnd
  rw [complete_only]
  rfl

theorem touchEnd_tdie (s : State) (d : Nat) (q : QE) (f : Part → Part) (j : Nat) :
    (s.touchEnd d q f).tdie j = (s.touched d q f).tdie j := by
  unfold State.tdie
  rw [touchEnd_only]

/-- What a TOUCH operation that takes effect leaves: its partition changed, its command done, nothing else. -/
theorem touchEnd_spec (s : State) (d : Nat) (q : QE) (f : Part → Part) :
    let t := s.touchEnd d q f
    t.prt d q.ctx.toNat = f (s.prt d q.ctx.toNat) ∧ (t.tdie d).tq = (s.tdie d).tq.filter (· ≠ q) ∧ SameBut State.tdie d s t
      ∧ (∀ e, e ≠ q.ctx.toNat → t.prt d e = s.prt d e) ∧ Finishes s t q 0
      ∧ t = { s with td := t.td, ctxs := t.ctxs, sched := t.sched } := by
  have prt (e : Nat) : (s.touchEnd d q f).prt d e = (s.modPart d q.ctx.toNat f).prt d e := by
    rw [← touched_prt]
    unfold State.prt
    rw [touchEnd_tdie]
  refine ⟨?own, ?queue, fun j other => ?dies, fun e other => ?parts, ?done, ?frame⟩
  case own => rw [prt, State.modPart_same]
  case queue =>
    rw [touchEnd_tdie]
    unfold State.touched State.modPart
    rw [State.modTd_same, State.modTd_same]
  case dies =>
    rw [touchEnd_tdie]
    exact (State.modTd_ne _ _ other).trans (State.modPart_die_ne _ _ _ other)
  case parts => rw [prt, State.modPart_ctx_ne _ _ _ other]
  case done => exact (complete_finishes (s.touched d q f) q 0 d 0).congr rfl rfl rfl rfl
  case frame =>
    conv_lhs => rw [touchEnd_only]
    rw [touchEnd_only]

theorem touchEnd_devId (s : State) (d : Nat) (q : QE) (f : Part → Part) : (s.touchEnd d q f).devId = s.devId := by
  rw [touchEnd_only]
  rfl

/-! ### The rows of TOUCH commands -/

section
variable {s : State} {d : Die} {q : QE}

theorem teacher_own (head : s.touchHead d.val 1 = some q) (own : (teacherOf q.img).dev = s.devId) :
    exec (.teacher d) s = .next (s.touchEnd d.val q fun p => { p with
      teacher := p.teacher ++ [(q.seq, { teacherOf q.img with ctx := q.ctx })] }) := by
  have op : s.teacherOp q = { teacherOf q.img with ctx := q.ctx } := if_pos own
  show execTeacher d s = _
  unfold execTeacher
  simp only [head, op]
  exact congrArg Host.Outcome.next (if_pos (own.trans (touchEnd_devId ..).symm))

theorem teacher_remote (head : s.touchHead d.val 1 = some q) (remote : (teacherOf q.img).dev ≠ s.devId) :
    exec (.teacher d) s = .next ((s.touchEnd d.val q fun p => { p with teacher := p.teacher ++ [(q.seq, teacherOf q.img)] }).askCredit
      d.val q.ctx (teacherOf q.img) q.seq) := by
  have op : s.teacherOp q = teacherOf q.img := if_neg remote
  show execTeacher d s = _
  unfold execTeacher
  simp only [head, op]
  exact congrArg Host.Outcome.next (if_neg fun own => remote (own.trans (touchEnd_devId ..)))

theorem student_sets (head : s.touchHead d.val 2 = some q) (ok : s.vectorsOk q.ctx (studentOf q.img) = true) :
    exec (.student d) s = .next (s.touchEnd d.val q fun p => { p with student := p.student ++ [(q.seq, studentOf q.img)] }) := by
  show execStudent d s = _
  unfold execStudent
  simp only [head]
  exact if_pos ok

theorem student_faults (head : s.touchHead d.val 2 = some q) (bad : s.vectorsOk q.ctx (studentOf q.img) = false) :
    exec (.student d) s = .next (s.faultAt q (0x0003, s.vectorBad q.ctx (studentOf q.img)) (clUnit q.img)) := by
  show execStudent d s = _
  unfold execStudent
  simp only [head]
  exact if_neg (by simp [bad])

theorem featureLoss_sets (head : s.touchHead d.val 4 = some q) : exec (.featureLoss d) s = .next (s.touchEnd d.val q fun p => { p with
    feat := p.feat ++ [(q.seq, { cos := bit (fld q.img 0x10 31 0) 6, w := w32 q.img 0x20 })] }) := by
  show execFeatureLoss d s = _
  unfold execFeatureLoss
  simp only [head]

theorem resetStats_clears (head : s.touchHead d.val 5 = some q) :
    exec (.resetStats d) s = .next (s.touchEnd d.val q fun p => { p with poisonCount := 0, nfCount := 0 }) := by
  show execResetStats d s = _
  unfold execResetStats
  simp only [head]

/-! ### The loss scale of a step (R134) -/

theorem Numerics.eAt_val {x : Numerics} {n : W32} {e : Byte} (h : (n = x.step ∧ e = x.e) ∨ (n = x.step - 1 ∧ e = x.ePrev)) :
    x.eAt n = .val e := by
  unfold Numerics.eAt
  rcases h with ⟨rfl, rfl⟩ | ⟨rfl, rfl⟩
  · exact if_pos rfl
  · rw [if_neg (by bv_omega), if_pos rfl]

theorem Numerics.eAt_wait {x : Numerics} {n : W32} (new : n ≠ x.step) (later : (n - x.step).toNat < 2 ^ 31) : x.eAt n = .wait := by
  unfold Numerics.eAt
  rw [if_neg new, if_neg (by bv_omega), if_pos later]

theorem Numerics.eAt_skew {x : Numerics} {n : W32} (older : n ≠ x.step - 1) (far : 2 ^ 31 ≤ (n - x.step).toNat) : x.eAt n = .skew := by
  unfold Numerics.eAt
  rw [if_neg (by bv_omega), if_neg older, if_neg (by omega)]

theorem gradient_sets (head : s.touchHead d.val 3 = some q) {e : Byte} (scale : (s.nums q.ctx.toNat).eAt (cStep q.img) = .val e) :
    exec (.gradient d) s = .next (s.touchEnd d.val q fun p => { p with grad := p.grad ++ [(q.seq, gradOf q.img e)] }) := by
  show execGradient d s = _
  unfold execGradient
  simp only [head, scale]

theorem gradient_waits (head : s.touchHead d.val 3 = some q) (scale : (s.nums q.ctx.toNat).eAt (cStep q.img) = .wait) :
    exec (.gradient d) s = .next s := by
  show execGradient d s = _
  unfold execGradient
  simp only [head, scale]

theorem gradient_faults (head : s.touchHead d.val 3 = some q) (scale : (s.nums q.ctx.toNat).eAt (cStep q.img) = .skew) :
    exec (.gradient d) s = .next (s.faultCmd q 0x000E) := by
  show execGradient d s = _
  unfold execGradient
  simp only [head, scale]

end

/-! ### A target on another device (R98) -/

/-- A target that has no shadow gets one, asked and without a value. -/
theorem Part.ask_new {p : Part} {dev : DevId} {die : BitVec 3} {c : CtxId} (h : p.shadowOf dev die c = none) :
    p.ask dev die c = { p with
      shadow := p.shadow ++ [{ dev := dev, die := die, ctx := c, c := none, slots := 0, segs := 0, mode := 0, k := 0, asked := true }] } := by
  unfold Part.ask
  rw [h]

/-- The packet of a credit request, for the device `dst` and its class of the dateline. -/
def State.requestPkt (s : State) (c : CtxId) (o : TeacherOp) (dst : DevId) (dl : Bool) : Packet :=
  { s.mkPkt 11 1 o.dev c o.ctx 0 (BitVec.ofNat 64 (o.die.toNat * 2 ^ 32)) 0 [] with dst := dst, dateline := dl, lsn := 0 }

/-- A target without a shadow is asked: its request joins the queue of its route's port. -/
theorem askCredit_sends {s : State} {d : Nat} {c : CtxId} {o : TeacherOp} {p : Nat} {dt : Bool} (cmd : W32)
    (away : s.remapped o.dev ≠ s.devId) (route : s.route (s.remapped o.dev) = some (p, dt))
    (new : (s.prt d c.toNat).shadowOf (s.remapped o.dev) o.die o.ctx = none) :
    s.askCredit d c o cmd = (s.modPart d c.toNat fun x => x.ask (s.remapped o.dev) o.die o.ctx).modPort p fun x =>
      x.queue (s.requestPkt c o (s.remapped o.dev) (dt || s.wraps p)) := by
  unfold State.askCredit
  dsimp only
  rw [new]
  exact send_routed (s := s.modPart d c.toNat fun x => x.ask (s.remapped o.dev) o.die o.ctx) cmd away
    ((route_congr (s := s) rfl (fun _ => rfl) _ none).trans route)

/-- Settles O48, operation by operation: what takes effect, what faults, what waits, and the request of a remote target. -/
theorem touchOperationsGovernLaterCommands : Obligations.TouchOperationsGovernLaterCommands := by
  unfold Obligations.TouchOperationsGovernLaterCommands
  refine ⟨?own, ?remote, ?student, ?vectors, ?gradient, ?feature, ?stats⟩
  case own =>
    intro d q s head own
    exact ⟨_, teacher_own head own, touchEnd_spec ..⟩
  case remote =>
    intro d q p dt s head o remote away route new
    obtain ⟨part, -, dies, -, done, frame⟩ := touchEnd_spec s d.val q fun p => { p with teacher := p.teacher ++ [(q.seq, o)] }
    have run := teacher_remote head remote
    generalize s.touchEnd d.val q (fun p => { p with teacher := p.teacher ++ [(q.seq, o)] }) = u at part dies done frame run
    have peer : u.remapped o.dev = s.remapped o.dev := by rw [frame]; rfl
    have unasked : (u.prt d.val q.ctx.toNat).shadowOf (s.remapped o.dev) o.die o.ctx = none := by rw [part]; exact new
    have sent := askCredit_sends q.seq (s := u) (d := d.val) (c := q.ctx) (o := o) (by rw [peer, frame]; exact away)
      (by rw [peer, route_congr (s := s) (by rw [frame]) (fun j => by rw [frame]; rfl)]; exact route) (by rw [peer]; exact unasked)
    rw [peer] at sent
    refine ⟨_, run, ?_⟩
    rw [sent]
    generalize packet : State.requestPkt _ q.ctx o (s.remapped o.dev) _ = k
    have asked : ((u.modPart d.val q.ctx.toNat fun x => x.ask (s.remapped o.dev) o.die o.ctx).modPort p fun x => x.queue k).prt
        d.val q.ctx.toNat = (u.prt d.val q.ctx.toNat).ask (s.remapped o.dev) o.die o.ctx := State.modPart_same ..
    rw [asked, Part.ask_new unasked, part]
    refine ⟨rfl, ⟨_, rfl, rfl, rfl, rfl, rfl, rfl⟩, ⟨k, ?queued, ?ty, ?dst, ?dctx, ?sctx, ?die⟩, ?done,
      fun j other => ?dies, fun j other => ?ports, ?frame⟩
    case queued =>
      rw [State.modPort_same, frame]
      rfl
    case ty => rw [← packet]; rfl
    case dst => rw [← packet]; rfl
    case dctx => rw [← packet]; rfl
    case sctx => rw [← packet]; rfl
    case die =>
      have die := o.die.isLt
      rw [← packet]
      refine (bits_ofNat64 (by omega) _ _).trans ?_
      omega
    case done => exact done.congr rfl rfl rfl rfl
    case dies => exact (State.modPart_die_ne u _ _ other).trans (dies j other)
    case ports =>
      rw [State.modPort_ne _ _ other, frame]
      rfl
    case frame => rw [frame]; rfl
  case student =>
    intro d q s head ok
    exact ⟨_, student_sets head ok, touchEnd_spec ..⟩
  case vectors =>
    intro d q s head resident bad
    exact ⟨_, student_faults head bad, faultCmd_faulted _ _ _ _ _ (alive_resident resident)⟩
  case gradient =>
    intro d q s head resident x n
    refine ⟨fun e scale => ?sets, fun new later => ?waits, fun older far => ?faults⟩
    case sets =>
      obtain ⟨part, queue, dies, parts, done, frame⟩ := touchEnd_spec s d.val q fun p => { p with grad := p.grad ++ [(q.seq, gradOf q.img e)] }
      exact ⟨_, gradient_sets head (Numerics.eAt_val scale), by rw [part], rfl, by rw [part], queue, dies, parts, done, frame⟩
    case waits => exact ⟨_, gradient_waits head (Numerics.eAt_wait new later), rfl⟩
    case faults =>
      exact ⟨_, gradient_faults head (Numerics.eAt_skew older far), faultCmd_faulted _ _ _ _ _ (alive_resident resident)⟩
  case feature =>
    intro d q s head
    obtain ⟨part, -, rest⟩ := touchEnd_spec s d.val q fun p => { p with
      feat := p.feat ++ [(q.seq, { cos := bit (fld q.img 0x10 31 0) 6, w := w32 q.img 0x20 })] }
    exact ⟨_, featureLoss_sets head, part, rest⟩
  case stats =>
    intro d q s head
    obtain ⟨part, -, rest⟩ := touchEnd_spec s d.val q fun p => { p with poisonCount := 0, nfCount := 0 }
    exact ⟨_, resetStats_clears head, part, rest⟩

end Sys2Proof.Machine
end
section
/-! SUPPORT. Commands that engines complete and records that reach the host: the slots of a landing ring that a command releases, what
an engine leaves behind, the record written, and the statement on them (O42; R105, R179, R180, R185). -/

namespace Sys2Proof.Machine

/-! ### What a cluster keeps of a context -/

@[simp] theorem Cluster.modPc_pc (x : Cluster) (c n : Nat) (f : CtxCl → CtxCl) :
    (x.modPc c f).pc n = if n = c then f (x.pc c) else x.pc n := by
  unfold Cluster.modPc Cluster.pc
  split
  case isTrue h => rw [h]; exact SMap.get_upd_same _ _ _
  case isFalse h => exact SMap.get_upd_ne _ _ h

theorem Cluster.modPc_frame (x : Cluster) (c : Nat) (f : CtxCl → CtxCl) : x.modPc c f = { x with per := (x.modPc c f).per } := rfl

theorem modCl_clu (s : State) (i j : Nat) (f : Cluster → Cluster) : (s.modCl i f).clu j = if j = i then f (s.clu i) else s.clu j := by
  split
  case isTrue h => rw [h, State.modCl_same]
  case isFalse h => exact State.modCl_ne _ _ h

/-! ### Slots of a landing ring (R105) -/

/-- The slots of a ring that no range of `l` overlaps. -/
def Ring.spared (r : Ring) (l : List (Nat × Nat)) : List Nat :=
  r.full.filter fun k => l.all fun g => !rangesMeet (r.base * 128 + 8192 * k) 8192 g.1 g.2

/-- One range is released where a slot is filled. -/
def Ring.release (r : Ring) (g : Nat × Nat) : Ring := if r.full.isEmpty then r else r.released g.1 g.2

theorem Ring.without_eq (r : Ring) (l : List (Nat × Nat)) :
    r.without l = if l = [] ∨ r.full = [] then r else { r with full := r.spared l, rel := (r.spared l).headD r.fill } := rfl

/-- A slot is hit by a range that is not empty where the two meet. -/
theorem Ring.released_eq (r : Ring) {g : Nat × Nat} (some_ : g.2 ≠ 0) :
    r.released g.1 g.2 = { r with full := r.spared [g], rel := (r.spared [g]).headD r.fill } := by
  have hit (k : Nat) : (decide (r.base * 128 + 8192 * k < g.1 + g.2) && decide (g.1 < r.base * 128 + 8192 * (k + 1)))
      = rangesMeet (r.base * 128 + 8192 * k) 8192 g.1 g.2 := by
    unfold rangesMeet
    rw [Bool.eq_iff_iff]
    simp only [Bool.and_eq_true, decide_eq_true_eq]
    omega
  unfold Ring.released Ring.spared
  simp only [hit, List.all_cons, List.all_nil, Bool.and_true]

theorem Ring.spared_cons (r : Ring) (g : Nat × Nat) (l : List (Nat × Nat)) {rel : Nat} :
    Ring.spared { r with full := r.spared [g], rel := rel } l = r.spared (g :: l) := by
  unfold Ring.spared
  rw [List.filter_filter]
  simp only [List.all_cons, List.all_nil, Bool.and_true]
  exact congrArg (List.filter · r.full) (funext fun k => Bool.and_comm _ _)

/-- Releasing ranges one by one leaves the ring without the slots they overlap. -/
theorem Ring.foldl_release (r : Ring) {l : List (Nat × Nat)} (some_ : ∀ g ∈ l, g.2 ≠ 0) : l.foldl Ring.release r = r.without l := by
  induction l generalizing r with
  | nil => rfl
  | cons g l ih =>
    obtain ⟨first, rest⟩ := List.forall_mem_cons.1 some_
    rw [List.foldl_cons, ih _ rest]
    unfold Ring.release
    by_cases none_ : r.full = []
    · rw [if_pos (by rw [none_]; rfl), Ring.without_eq, Ring.without_eq, if_pos (.inr none_), if_pos (.inr none_)]
    · rw [if_neg (by simpa using none_), r.released_eq first, Ring.without_eq, Ring.without_eq r (g :: l),
        if_neg (c := g :: l = [] ∨ r.full = []) (by simp [none_]), Ring.spared_cons]
      split
      case isFalse => rfl
      case isTrue last =>
        have left : r.spared (g :: l) = r.spared [g] := by
          rcases last with rfl | empty
          · rfl
          · rw [← Ring.spared_cons r g l (rel := 0), show r.spared [g] = [] from empty]
            rfl
        rw [left]

/-! ### What a command that completes leaves behind (R105, R186) -/

/-- One range is released in the ring that a cluster keeps for context `c`. -/
def Cluster.release (x : Cluster) (c : Nat) (g : Nat × Nat) : Cluster :=
  if (x.pc c).ring.full.isEmpty then x else x.modPc c fun y => { y with ring := y.ring.released g.1 g.2 }

theorem Cluster.release_pc (x : Cluster) (c : Nat) (g : Nat × Nat) (n : Nat) :
    (x.release c g).pc n = if n = c then { x.pc n with ring := (x.pc n).ring.release g } else x.pc n := by
  unfold Cluster.release Ring.release
  by_cases own : n = c
  · rw [own, if_pos rfl]
    split
    · rfl
    · rw [Cluster.modPc_pc, if_pos rfl]
  · rw [if_neg own]
    split
    · rfl
    · rw [Cluster.modPc_pc, if_neg own]

theorem Cluster.release_frame (x : Cluster) (c : Nat) (g : Nat × Nat) : x.release c g = { x with per := (x.release c g).per } := by
  unfold Cluster.release
  split <;> rfl

/-- One range, with its cluster, is released for context `c`; an empty one is none. -/
def State.releaseRange (c : Nat) (s : State) (g : Nat × Nat × Nat) : State :=
  if g.2.2 = 0 then s else s.modCl g.1 fun x => x.release c g.2

/-- The ranges of `l` that lie in cluster `j`. -/
def rangesIn (l : List (Nat × Nat × Nat)) (j : Nat) : List (Nat × Nat) := (l.filter fun g => g.1 = j ∧ g.2.2 ≠ 0).map Prod.snd

theorem rangesIn_some {l : List (Nat × Nat × Nat)} {j : Nat} : ∀ g ∈ rangesIn l j, g.2 ≠ 0 := by
  intro g mem
  obtain ⟨r, kept, rfl⟩ := List.mem_map.1 mem
  obtain ⟨-, -, some_⟩ : r ∈ l ∧ r.1 = j ∧ r.2.2 ≠ 0 := by simpa using kept
  exact some_

/-- From `s` to `t` clusters keep all but what they keep of contexts, and nothing else changes. -/
def PerOnly (s t : State) : Prop := (∀ j, t.clu j = { s.clu j with per := (t.clu j).per }) ∧ t = { s with cls := t.cls }

theorem PerOnly.refl (s : State) : PerOnly s s := ⟨fun _ => rfl, rfl⟩

theorem PerOnly.trans {s t u : State} (h : PerOnly s t) (k : PerOnly t u) : PerOnly s u := by
  obtain ⟨clu, only⟩ := h
  obtain ⟨clu', only'⟩ := k
  refine ⟨fun j => ?_, ?_⟩
  · rw [clu' j, clu j]
  · rw [only', only]

theorem modCl_perOnly (s : State) (i : Nat) {f : Cluster → Cluster} (h : ∀ x, f x = { x with per := (f x).per }) :
    PerOnly s (s.modCl i f) := by
  refine ⟨fun j => ?_, rfl⟩
  rw [modCl_clu]
  split
  case isTrue same => rw [same]; exact h _
  case isFalse => rfl

theorem releaseRange_perOnly (c : Nat) (s : State) (g : Nat × Nat × Nat) : PerOnly s (s.releaseRange c g) := by
  unfold State.releaseRange
  split
  · exact .refl s
  · exact modCl_perOnly s g.1 fun x => x.release_frame c g.2

theorem releaseRange_pc (c : Nat) (s : State) (g : Nat × Nat × Nat) (j n : Nat) : ((s.releaseRange c g).clu j).pc n =
    if n = c then { (s.clu j).pc n with ring := (rangesIn [g] j).foldl Ring.release ((s.clu j).pc n).ring } else (s.clu j).pc n := by
  unfold State.releaseRange rangesIn
  by_cases none_ : g.2.2 = 0
  · rw [if_pos none_, List.filter_cons_of_neg (by simp [none_])]
    split <;> rfl
  · rw [if_neg none_, modCl_clu]
    by_cases here : j = g.1
    · rw [if_pos here, List.filter_cons_of_pos (by simp [none_, here]), ← here, Cluster.release_pc]
      rfl
    · rw [if_neg here, List.filter_cons_of_neg (by simp [Ne.symm here])]
      split <;> rfl

theorem releaseRanges_pc (c : Nat) (l : List (Nat × Nat × Nat)) (s : State) (j n : Nat) :
    ((l.foldl (State.releaseRange c) s).clu j).pc n =
      if n = c then { (s.clu j).pc n with ring := ((s.clu j).pc n).ring.without (rangesIn l j) } else (s.clu j).pc n := by
  rw [← Ring.foldl_release _ rangesIn_some]
  induction l generalizing s with
  | nil => exact (ite_self _).symm
  | cons g l ih =>
    have all : rangesIn (g :: l) j = rangesIn [g] j ++ rangesIn l j := by
      unfold rangesIn
      rw [← List.map_append, ← List.filter_append]
      rfl
    rw [List.foldl_cons, ih, releaseRange_pc, all, List.foldl_append]
    split <;> rfl

/-- The ranges whose slots command `q` releases, each with its cluster. -/
def State.releases (s : State) (q : QE) : List (Nat × Nat × Nat) :=
  if cRelease q.img = true ∧ (cClass q.img = 1 ∨ cClass q.img = 4) then s.readRanges q else []

theorem freedBy_eq (s : State) (q : QE) (j : Nat) : s.freedBy q j = rangesIn (s.releases q) j := by
  unfold State.freedBy State.releases
  split <;> rfl

theorem landingRelease_eq (s : State) (q : QE) : s.landingRelease q = (s.releases q).foldl (State.releaseRange q.ctx.toNat) s := by
  unfold State.landingRelease State.releases
  have asked : (cRelease q.img && (cClass q.img == 1 || cClass q.img == 4)) = true
      ↔ cRelease q.img = true ∧ (cClass q.img = 1 ∨ cClass q.img = 4) := by simp
  by_cases h : cRelease q.img = true ∧ (cClass q.img = 1 ∨ cClass q.img = 4)
  · rw [if_pos h, if_pos (asked.2 h)]
    rfl
  · rw [if_neg h, if_neg (mt asked.1 h)]
    rfl

/-- The context has gone on where it has run a CHEAP (R186, R190). -/
def CtxCl.goneOn (y : CtxCl) : CtxCl := if y.cheap then { y with ran := true } else y

theorem CtxCl.goneOn_eq (y : CtxCl) : y.goneOn = { y with ran := y.ran || y.cheap } := by
  unfold CtxCl.goneOn
  by_cases h : y.cheap = true
  · have ran : (y.ran || y.cheap) = true := by rw [h, Bool.or_true]
    rw [if_pos h, ran]
  · have ran : (y.ran || y.cheap) = y.ran := by rw [Bool.eq_false_iff.2 h, Bool.or_false]
    rw [if_neg h, ran]

/-- The clusters once command `q` has left: its slots are released, and its context has gone on since a CHEAP there. -/
def State.leftBehind (s : State) (q : QE) : State :=
  (s.landingRelease q).modCl (cCluster q.img).toNat fun x => x.modPc q.ctx.toNat CtxCl.goneOn

theorem leftBehind_perOnly (s : State) (q : QE) : PerOnly s (s.leftBehind q) := by
  refine PerOnly.trans ?_ (modCl_perOnly _ _ fun x => x.modPc_frame _ _)
  rw [landingRelease_eq]
  exact foldl_rel .refl .trans (fun s g _ => releaseRange_perOnly _ s g) s

theorem leftBehind_leaves (s : State) (q : QE) : LeftBy s (s.leftBehind q) (cCluster q.img) q := by
  intro j n
  unfold State.leftBehind
  have ring := releaseRanges_pc q.ctx.toNat (s.releases q) s j n
  rw [← landingRelease_eq, ← freedBy_eq] at ring
  have gone : (((s.landingRelease q).modCl (cCluster q.img).toNat fun x => x.modPc q.ctx.toNat CtxCl.goneOn).clu j).pc n
      = { ((s.landingRelease q).clu j).pc n with
        ran := (((s.landingRelease q).clu j).pc n).ran
          || (decide (j = (cCluster q.img).toNat ∧ n = q.ctx.toNat) && (((s.landingRelease q).clu j).pc n).cheap) } := by
    rw [modCl_clu]
    by_cases cl : j = (cCluster q.img).toNat
    · by_cases ctx : n = q.ctx.toNat
      · rw [if_pos cl, Cluster.modPc_pc, if_pos ctx, CtxCl.goneOn_eq, decide_eq_true ⟨cl, ctx⟩, Bool.true_and, cl, ctx]
      · rw [if_pos cl, Cluster.modPc_pc, if_neg ctx, decide_eq_false fun both => ctx both.2, Bool.false_and, Bool.or_false, cl]
    · rw [if_neg cl, decide_eq_false fun both => cl both.1, Bool.false_and, Bool.or_false]
  rw [gone, ring]
  split <;> rfl

/-- A command at its end changes contexts and the scheduler alone. -/
theorem complete_frame (s : State) (q : QE) (code unit : Nat) (detail : W64) : s.complete q code unit detail = { s with
    ctxs := (s.complete q code unit detail).ctxs, sched := (s.complete q code unit detail).sched } := by
  conv_lhs => rw [complete_only]
  rw [complete_only]

/-- What a cluster's engine that gives up command `q` leaves: the command at its end, the clusters as they are left behind. -/
theorem clusterDone_spec (s : State) (q : QE) :
    let t := s.clusterDone q
    Finishes s t q 0 ∧ (∀ j, t.clu j = { s.clu j with per := (t.clu j).per }) ∧ LeftBy s t (cCluster q.img) q
      ∧ t = { s with cls := t.cls, ctxs := t.ctxs, sched := t.sched } := by
  obtain ⟨clu, only⟩ := leftBehind_perOnly s q
  have done := complete_finishes (s.leftBehind q) q 0 (cCluster q.img).toNat 0
  have frame : s.clusterDone q = { s.leftBehind q with ctxs := (s.clusterDone q).ctxs, sched := (s.clusterDone q).sched } :=
    complete_frame (s.leftBehind q) q 0 (cCluster q.img).toNat 0
  have leaves := leftBehind_leaves s q
  have same : (s.clusterDone q).cls = (s.leftBehind q).cls := by rw [frame]
  have cluster (j : Nat) : (s.clusterDone q).clu j = (s.leftBehind q).clu j := by unfold State.clu; rw [same]
  refine ⟨done.congr (by rw [only]) (by rw [only]) rfl rfl, fun j => ?_, fun j n => ?_, ?_⟩
  · rw [cluster]; exact clu j
  · rw [cluster]; exact leaves j n
  · rw [same]
    refine frame.trans ?_
    conv_lhs => rw [only]

/-- The same of an engine that has let the command go before: `f` takes it out of the engine. -/
theorem engineDone_spec {s : State} {cl : ClId} {q : QE} {f : Cluster → Cluster} (per : ∀ x, (f x).per = x.per) (here : cCluster q.img = cl) :
    let t := (s.modCl cl.toNat f).clusterDone q
    Finishes s t q 0 ∧ (∀ j, t.clu j = { (if j = cl.toNat then f (s.clu j) else s.clu j) with per := (t.clu j).per }) ∧ LeftBy s t cl q
      ∧ t = { s with cls := t.cls, ctxs := t.ctxs, sched := t.sched } := by
  obtain ⟨done, clu, leaves, only⟩ := clusterDone_spec (s.modCl cl.toNat f) q
  have cluster (j : Nat) : (s.modCl cl.toNat f).clu j = if j = cl.toNat then f (s.clu j) else s.clu j := by
    rw [modCl_clu]
    split
    case isTrue same => rw [same]
    case isFalse => rfl
  have pc (j n : Nat) : ((s.modCl cl.toNat f).clu j).pc n = (s.clu j).pc n := by
    rw [cluster]
    unfold Cluster.pc
    split
    · rw [per]
    · rfl
  refine ⟨done.congr rfl rfl rfl rfl, fun j => ?_, fun j n => ?_, only⟩
  · rw [← cluster]; exact clu j
  · have left := leaves j n
    rw [pc, here] at left
    exact left

/-! ### The engines of a cluster -/

section
variable {s : State} {cl : ClId}

theorem isIn_of_resident {c : Nat} (h : (s.ctx c).st = .resident) : s.isIn c = true := decide_eq_true h

theorem matrix_completes {k : Nat} {m : MxRun} (slot : (s.clu cl.toNat).mq[k]? = some m) (done : m.done = true)
    (resident : (s.ctx m.q.ctx.toNat).st = .resident) :
    exec (.commandComplete (.matrix cl) k) s = .next ((s.modCl cl.toNat fun x => { x with mq := dropAt x.mq k }).clusterDone m.q) := by
  show execCommandComplete (.matrix cl) k s = _
  unfold execCommandComplete
  simp only [slot]
  exact if_pos (by rw [done, isIn_of_resident resident]; rfl)

theorem vector_completes {k : Nat} {q : QE} {rest : List QE} {r : VecRun} (queue : (s.clu cl.toNat).vq = q :: rest)
    (run : (s.clu cl.toNat).vrun = some r) (done : r.done = true) (resident : (s.ctx q.ctx.toNat).st = .resident)
    (tallied : ∀ j ∈ (s.clu cl.toNat).tally, j.ctx ≠ q.ctx) :
    exec (.commandComplete (.vector cl) k) s = .next ((s.modCl cl.toNat fun x => { x with vq := rest, vrun := none }).clusterDone q) := by
  have idle : ((s.clu cl.toNat).tally.all (·.ctx ≠ q.ctx)) = true := List.all_eq_true.2 fun j mem => decide_eq_true (tallied j mem)
  show execCommandComplete (.vector cl) k s = _
  unfold execCommandComplete
  simp only [queue, run]
  exact if_pos (by rw [done, isIn_of_resident resident, idle]; rfl)

theorem dma_completes {k : Nat} {q : QE} {rest : List QE} (queue : (s.clu cl.toNat).dq = q :: rest)
    (done : (s.clu cl.toNat).ddone = true) (resident : (s.ctx q.ctx.toNat).st = .resident) :
    exec (.commandComplete (.dma cl) k) s = .next ((s.modCl cl.toNat fun x => { x with dq := rest, ddone := false }).clusterDone q) := by
  show execCommandComplete (.dma cl) k s = _
  unfold execCommandComplete
  simp only [queue]
  exact if_pos (by rw [done, isIn_of_resident resident]; rfl)

theorem teller_completes {k : Nat} {x : Tel} (kernel : (s.clu cl.toNat).tel = some x) (ended : x.ended = true)
    (resident : (s.ctx x.q.ctx.toNat).st = .resident) (issued : ∀ n < 3, s.issuedOn cl x.q n = 0) :
    exec (.commandComplete (.teller cl) k) s = .next ((s.modCl cl.toNat fun y => { y with tel := none }).clusterDone x.q) := by
  have none_ : ([0, 1, 2].all fun n => s.issuedOn cl x.q n = 0) = true := by
    simp [issued 0 (by decide), issued 1 (by decide), issued 2 (by decide)]
  show execCommandComplete (.teller cl) k s = _
  unfold execCommandComplete
  simp only [kernel]
  exact if_pos (by rw [ended, isIn_of_resident resident, none_]; rfl)

end

/-! ### Records (R179) -/

theorem Rec.bytes_length (r : Rec) (n : W32) : (r.bytes n).length = 32 := by
  unfold Rec.bytes
  simp only [List.length_append, leBytes_length]

theorem readBytes_written {m : Mem} {a k : Nat} {bs : List Byte} (len : bs.length = k) : (m.writeBytes a bs).readBytes a k = bs := by
  rw [← len]
  exact Mem.readBytes_writeBytes _ _ _

theorem bytesBut_written {m : Mem} {a k : Nat} {bs : List Byte} (len : bs.length = k) : BytesBut a k m (m.writeBytes a bs) := by
  rw [← len]
  exact writeBytes_but _ _ _

/-- The context once its oldest record is written as number `n`. -/
def Ctx.wrote (x : Ctx) (rest : List Rec) (n : W32) : Ctx := { x with recs := rest, cplWritten := n }

/-- Bytes go to host memory, and context `c` changes by `f`. -/
def State.hostPut (s : State) (c a : Nat) (bs : List Byte) (f : Ctx → Ctx) : State :=
  { s with host := Mem.writeBytes s.host a bs }.modCtx c f

theorem hostPut_frame (s : State) (c a : Nat) (bs : List Byte) (f : Ctx → Ctx) :
    s.hostPut c a bs f = { s with host := Mem.writeBytes s.host a bs, ctxs := (s.modCtx c f).ctxs } := rfl

/-- The slot of host memory that takes the context's next record. -/
def Ctx.slot (x : Ctx) : Nat := x.cplBase.toNat + (x.cplWritten + 1).toNat % 2 ^ x.ringM.toNat * 32

/-- Context `c` writes its oldest record, `r`, into the next slot of its ring. -/
def State.recordPut (s : State) (c : Nat) (r : Rec) (rest : List Rec) : State :=
  s.hostPut c (s.ctx c).slot (r.bytes ((s.ctx c).cplWritten + 1)) fun x => x.wrote rest ((s.ctx c).cplWritten + 1)

/-- The same with the message that INTERRUPT asks for. -/
def State.recordWritten (s : State) (c : Nat) (r : Rec) (rest : List Rec) : State :=
  if r.irq then (s.recordPut c r rest).msi c else s.recordPut c r rest

theorem completionRecordWrite_runs {s : State} {c : CtxId} {r : Rec} {rest : List Rec} (recs : (s.ctx c.toNat).recs = r :: rest)
    (room : ((s.ctx c.toNat).cplWritten - (s.ctx c.toNat).cplHead).toNat < 2 ^ (s.ctx c.toNat).ringM.toNat) (up : s.boot.hostUp = true) :
    exec (.completionRecordWrite c) s = .next ((s.recordWritten c.toNat r rest).endLate c.toNat) := by
  show execCompletionRecordWrite c s = _
  unfold execCompletionRecordWrite
  simp only [recs]
  exact if_neg (by rw [decide_eq_true room, up]; decide)

theorem msi_irq (s : State) (v : Nat) : s.msi v = { s with irq := (s.msi v).irq } := by
  unfold State.msi
  split
  · rfl
  · split <;> rfl

theorem modCtx_ctx (s : State) (c j : Nat) (f : Ctx → Ctx) : (s.modCtx c f).ctx j = if j = c then f (s.ctx c) else s.ctx j := by
  split
  case isTrue same => rw [same]; exact State.modCtx_same _ _ _
  case isFalse other => exact State.modCtx_ne _ _ other

section
variable (s : State) (c : Nat) (r : Rec) (rest : List Rec)

/-- With the record change host memory at its slot, its context, and interrupts. -/
theorem recordWritten_frame : s.recordWritten c r rest = { s with
    host := Mem.writeBytes s.host (s.ctx c).slot (r.bytes ((s.ctx c).cplWritten + 1))
    ctxs := (s.modCtx c fun x => x.wrote rest ((s.ctx c).cplWritten + 1)).ctxs
    irq := (s.recordWritten c r rest).irq } := by
  by_cases message : r.irq = true
  · rw [show s.recordWritten c r rest = (s.recordPut c r rest).msi c from if_pos message, msi_irq]
    unfold State.recordPut
    rw [hostPut_frame]
  · rw [show s.recordWritten c r rest = s.recordPut c r rest from if_neg message]
    unfold State.recordPut
    rw [hostPut_frame]

theorem recordWritten_ctx (j : Nat) :
    (s.recordWritten c r rest).ctx j = if j = c then (s.ctx c).wrote rest ((s.ctx c).cplWritten + 1) else s.ctx j := by
  rw [← modCtx_ctx s c j fun x => x.wrote rest ((s.ctx c).cplWritten + 1), recordWritten_frame]
  rfl

theorem recordWritten_host :
    (s.recordWritten c r rest).host = Mem.writeBytes s.host (s.ctx c).slot (r.bytes ((s.ctx c).cplWritten + 1)) := by
  rw [recordWritten_frame]

theorem recordWritten_reads :
    (s.recordWritten c r rest).host.readBytes (s.ctx c).slot 32 = r.bytes ((s.ctx c).cplWritten + 1) := by
  rw [recordWritten_host]
  exact readBytes_written (r.bytes_length _)

theorem recordWritten_but : BytesBut (s.ctx c).slot 32 s.host (s.recordWritten c r rest).host := by
  rw [recordWritten_host]
  exact bytesBut_written (r.bytes_length _)

theorem recordWritten_quiet (quiet : r.irq = false) : (s.recordWritten c r rest).irq = s.irq := by
  rw [show s.recordWritten c r rest = s.recordPut c r rest from if_neg (by rw [quiet]; decide)]
  unfold State.recordPut
  rw [hostPut_frame]

theorem recordWritten_only : s.recordWritten c r rest = { s with
    host := (s.recordWritten c r rest).host, ctxs := (s.recordWritten c r rest).ctxs, irq := (s.recordWritten c r rest).irq } := by
  conv_lhs => rw [recordWritten_frame]
  rw [recordWritten_frame]

end

/-! ### A record that found the buffer full takes its place (R179; log 92) -/

/-- The context once its oldest late record has left the wait. -/
def Ctx.tookLate (x : Ctx) (l : List LateEnd) : Ctx := { x with late := l }

section
variable {s : State} {c : Nat}

theorem endLate_waits (h : (s.ctx c).late = [] ∨ (s.ctx c).bufferFull = true) : s.endLate c = s := by
  unfold State.endLate
  split
  case h_1 => rfl
  case h_2 late =>
    rcases h with none_ | full
    · rw [none_] at late; cases late
    · exact if_pos full

variable {e : LateEnd} {l : List LateEnd} (late : (s.ctx c).late = e :: l) (room : (s.ctx c).bufferFull = false)
include late room

theorem endLate_event (event : e.q = none) : s.endLate c =
    (s.modCtx c fun x => x.tookLate l).modCtx c fun x => { x with recs := x.recs ++ [e.record] } := by
  unfold State.endLate
  simp only [late]
  rw [if_neg (by rw [room]; decide), event]
  rfl

theorem endLate_command {q : QE} (command : e.q = some q) : s.endLate c =
    (s.modCtx c fun x => x.tookLate l).ends q (some { e.record with time := s.devTime }) := by
  unfold State.endLate
  simp only [late]
  rw [if_neg (by rw [room]; decide), command]
  rfl

end

theorem ends_ctx_ne (s : State) (q : QE) (r : Option Rec) {j : Nat} (h : j ≠ q.ctx.toNat) : (s.ends q r).ctx j = s.ctx j :=
  State.modCtx_ne _ _ h

theorem endLate_only (s : State) (c : Nat) : s.endLate c = { s with
    ctxs := (s.endLate c).ctxs, sched := { s.sched with tokens := (s.endLate c).sched.tokens } } := by
  unfold State.endLate
  split
  · rfl
  · split
    · rfl
    · split <;> rfl

/-- No other context changes than the one whose command completes. -/
theorem endLate_ctx_ne {s : State} {c j : Nat} (other : j ≠ c)
    (none_ : ∀ e q, (s.ctx c).late.head? = some e → e.q = some q → q.ctx.toNat ≠ j) : (s.endLate c).ctx j = s.ctx j := by
  unfold State.endLate
  split
  case h_1 => rfl
  case h_2 e l late =>
    split
    · rfl
    · split
      case h_1 q command =>
        rw [ends_ctx_ne _ _ _ (Ne.symm (none_ e q (by rw [late]; rfl) command))]
        exact State.modCtx_ne _ _ other
      case h_2 => exact (State.modCtx_ne _ _ other).trans (State.modCtx_ne _ _ other)

/-- Settles O42: the four engines of a cluster let their command go, and a record reaches its ring. -/
theorem enginesCompleteAndRecordsAreWritten : Obligations.EnginesCompleteAndRecordsAreWritten := by
  unfold Obligations.EnginesCompleteAndRecordsAreWritten
  refine ⟨?matrix, ?vector, ?dma, ?teller, ?record⟩
  case matrix =>
    intro cl k m s slot done resident here
    obtain ⟨finishes, clu, leaves, only⟩ := engineDone_spec (s := s) (f := fun x => { x with mq := dropAt x.mq k }) (fun _ => rfl) here
    refine ⟨_, matrix_completes slot done resident, finishes, fun j => ?_, leaves, only⟩
    refine (clu j).trans ?_
    split <;> rfl
  case vector =>
    intro cl q rest r k s queue run done resident tallied here
    obtain ⟨finishes, clu, leaves, only⟩ := engineDone_spec (s := s) (f := fun x => { x with vq := rest, vrun := none }) (fun _ => rfl) here
    refine ⟨_, vector_completes queue run done resident tallied, finishes, fun j => ?_, leaves, only⟩
    refine (clu j).trans ?_
    split <;> rfl
  case dma =>
    intro cl k q rest s queue done resident here
    obtain ⟨finishes, clu, leaves, only⟩ := engineDone_spec (s := s) (f := fun x => { x with dq := rest, ddone := false }) (fun _ => rfl) here
    refine ⟨_, dma_completes queue done resident, finishes, fun j => ?_, leaves, only⟩
    refine (clu j).trans ?_
    split <;> rfl
  case teller =>
    intro cl k x s kernel ended resident issued here
    obtain ⟨finishes, clu, leaves, only⟩ := engineDone_spec (s := s) (f := fun y => { y with tel := none }) (fun _ => rfl) here
    refine ⟨_, teller_completes kernel ended resident issued, finishes, fun j => ?_, leaves, only⟩
    refine (clu j).trans ?_
    split <;> rfl
  case record =>
    intro c r rest s recs place up
    have run := completionRecordWrite_runs recs place up
    have reads := recordWritten_reads s c.toNat r rest
    have but := recordWritten_but s c.toNat r rest
    have quiet := recordWritten_quiet s c.toNat r rest
    have ctx := recordWritten_ctx s c.toNat r rest
    have wrote := recordWritten_only s c.toNat r rest
    generalize s.recordWritten c.toNat r rest = u at run reads but quiet ctx wrote
    have late := endLate_only u c.toNat
    have own : u.ctx c.toNat = (s.ctx c.toNat).wrote rest ((s.ctx c.toNat).cplWritten + 1) := (ctx c.toNat).trans (if_pos rfl)
    have sched : u.sched = s.sched := by rw [wrote]
    have now : u.devTime = s.devTime := by rw [wrote]; rfl
    refine ⟨_, run, ?bytes, ?others, ?quiet, ?frame, fun j other none_ => ?contexts, fun h => ?waits,
      fun e l left room => ⟨fun event => ?event, fun q command same => ?command⟩⟩
    case bytes =>
      rw [late]
      unfold Rec.bytes at reads
      exact reads
    case others =>
      rw [late]
      exact but
    case quiet =>
      rw [late]
      exact quiet
    case frame =>
      rw [late, wrote]
    case contexts =>
      rw [endLate_ctx_ne other (by rw [own]; exact none_), ctx, if_neg other]
    case waits =>
      rw [endLate_waits (by rw [own]; exact h.imp id fun full => decide_eq_true full), own]
      exact ⟨rfl, sched⟩
    case event =>
      rw [endLate_event (by rw [own]; exact left) (by rw [own]; exact decide_eq_false (by exact Nat.not_le.2 room)) event]
      refine ⟨?_, sched⟩
      rw [State.modCtx_same, State.modCtx_same, own]
      rfl
    case command =>
      obtain rfl := same
      rw [endLate_command (by rw [own]; exact left) (by rw [own]; exact decide_eq_false (by exact Nat.not_le.2 room)) command, now,
        ends_ctx, State.modCtx_same, own]
      by_cases issued : q.issued = true
      · rw [if_pos issued]
        exact ⟨rfl, rfl, rfl, congrArg (·.tokens - 1) sched, fun sequenced => absurd (issued.symm.trans sequenced) (by decide)⟩
      · rw [if_neg issued]
        exact ⟨rfl, rfl, rfl, congrArg (·.tokens - 1) sched, fun _ _ => Ctx.phase_mem _ _ _⟩

end Sys2Proof.Machine
end
section
/-! SUPPORT. Swaps of contexts: inherited priorities, who may leave, the restore and its end, the save and its end, and the statement
on them (O44; R107, R174, R175, R185 to R190, R228, R235, R255, R273). -/

namespace Sys2Proof.Machine

/-! ### Inherited priorities (R185) -/

/-- Only the inherited priority of a context changes. -/
theorem reinherit_ctx (s : State) (d : Nat) : (s.reinherit).ctx d = { s.ctx d with inherit := ((s.reinherit).ctx d).inherit } := by
  unfold State.ctx State.reinherit SMap.mapV
  dsimp only
  rw [SMap.foldl_upd_get _ _ (SMap.keys_nodup _)]
  split <;> rfl

/-! ### Who may leave (R185, R255) -/

theorem mayLeave_hold {s : State} (c : CtxId) (hold : s.bursar.hold = true) : s.mayLeave c = false := by
  unfold State.mayLeave
  rw [hold, Bool.not_true, Bool.and_false, Bool.false_and]

theorem mayLeave_later {s : State} {c : CtxId} (later : s.leavesLater c.toNat = true) : s.mayLeave c = false := by
  unfold State.mayLeave
  rw [later, Bool.not_true, Bool.and_false]

theorem mayLeave_of {s : State} {c : CtxId} (test : s.meetsTest c = false) (hold : s.bursar.hold = false)
    (later : s.leavesLater c.toNat = false) : s.mayLeave c = true := by
  unfold State.mayLeave
  rw [test, hold, later]
  rfl

theorem leavesFirst_of {s : State} {a b : Nat}
    (h : s.eff a < s.eff b ∨ (s.eff a = s.eff b ∧ (s.ctx b).resumedNo < (s.ctx a).resumedNo)) : s.leavesFirst a b = true := by
  unfold State.leavesFirst
  simpa using h

/-- A context waits for one that the same contest asks and that leaves before it. -/
theorem leavesLater_of {s : State} {c d k : Nat} (other : d ≠ c) (listed : (d, s.ctx d) ∈ s.ctxs) (resident : (s.ctx d).st = .resident)
    (asks : k ∈ (s.ctx d).askedBy) (both : k ∈ (s.ctx c).askedBy) (stop : (s.ctx c).stopReq = false) (first : s.leavesFirst d c = true) :
    s.leavesLater c = true := by
  unfold State.leavesLater
  have shared : (s.ctx d).askedBy.any (s.ctx c).askedBy.contains = true := List.any_eq_true.2 ⟨k, asks, List.contains_iff_mem.2 both⟩
  rw [stop, Bool.not_false, Bool.true_and]
  exact List.any_eq_true.2 ⟨_, listed, by simp [other, resident, shared, first]⟩

section
variable {s : State} {c : CtxId}

theorem cheapPointSave_stays (h : s.mayLeave c = false) : exec (.cheapPointSave c) s = .next s := by
  show execCheapPointSave c s = _
  unfold execCheapPointSave
  exact if_neg (by simp [h])

theorem preemptTimeout_stays (h : s.mayLeave c = false) : exec (.preemptTimeout c) s = .next s := by
  show execPreemptTimeout c s = _
  unfold execPreemptTimeout
  exact if_neg (by simp [h])

theorem eviction_stays (hold : s.bursar.hold = true) : exec .eviction s = .next s := by
  show execEviction s = _
  unfold execEviction
  dsimp only
  split
  · split
    · rfl
    · exact if_pos (by rw [hold, Bool.or_true])
  · rfl

end

/-! ### A save begins (R187) -/

/-- The context once its save begins. -/
def Ctx.toSave (x : Ctx) : Ctx := { x with st := .saving, preemptReq := false, askedBy := [] }

/-- Each cluster of the context notes whether it is saved whole. -/
def State.noteFull (s : State) (c : CtxId) (full : Nat → Bool) : State :=
  (s.ctx c.toNat).cltab.foldl (fun s d => s.modCl d.cl.toNat fun x => x.modPc c.toNat fun y => { y with full := full d.cl.toNat }) s

theorem startSave_eq (s : State) (c : CtxId) (full : Nat → Bool) : s.startSave c full = (s.noteFull c full).modCtx c.toNat Ctx.toSave := rfl

theorem noteFull_only (s : State) (c : CtxId) (full : Nat → Bool) : s.noteFull c full = { s with cls := (s.noteFull c full).cls } :=
  (foldl_rel (R := PerOnly) .refl .trans (fun s d _ => modCl_perOnly s d.cl.toNat fun x => x.modPc_frame _ _) s).2

theorem startSave_ctx (s : State) (c : CtxId) (full : Nat → Bool) (d : Nat) :
    (s.startSave c full).ctx d = if d = c.toNat then (s.ctx c.toNat).toSave else s.ctx d := by
  have kept (d : Nat) : (s.noteFull c full).ctx d = s.ctx d := by rw [noteFull_only]; rfl
  rw [startSave_eq, modCtx_ctx, kept, kept]

theorem startSave_only (s : State) (c : CtxId) (full : Nat → Bool) :
    s.startSave c full = { s with ctxs := (s.startSave c full).ctxs, cls := (s.startSave c full).cls } := by
  rw [startSave_eq, noteFull_only]
  rfl

/-- The context's forced saves are counted. -/
def Ctx.countForced (x : Ctx) : Ctx := { x with forced := true, forcedSaves := x.forcedSaves + 1 }

section
variable {s : State} {c : CtxId} (resident : (s.ctx c.toNat).st = .resident) (asked : (s.ctx c.toNat).preemptReq = true)
  (leave : s.mayLeave c = true)
include resident asked leave

theorem cheapPointSave_starts (cheap : s.atCheap c = true) : exec (.cheapPointSave c) s = .next (s.startSave c fun _ => false) := by
  show execCheapPointSave c s = _
  unfold execCheapPointSave
  exact if_pos (by simp [resident, asked, cheap, leave])

theorem preemptTimeout_starts (cheap : s.atCheap c = false) : exec (.preemptTimeout c) s =
    .next (((s.modCtx c.toNat Ctx.countForced).startSave c fun _ => true).alarm pgClear 2 (some c)) := by
  show execPreemptTimeout c s = _
  unfold execPreemptTimeout
  exact if_pos (by simp [resident, asked, cheap, leave])

end

/-! ### Restores (R174, R188) -/

/-- From `s` to `t` only clusters and the token tables of dies change. -/
def ChipOnly (s t : State) : Prop := (∀ d k, t.prt d k = s.prt d k) ∧ t = { s with cls := t.cls, td := t.td }

theorem ChipOnly.refl (s : State) : ChipOnly s s := ⟨fun _ _ => rfl, rfl⟩

theorem ChipOnly.trans {s t u : State} (h : ChipOnly s t) (k : ChipOnly t u) : ChipOnly s u := by
  obtain ⟨parts, only⟩ := h
  obtain ⟨parts', only'⟩ := k
  exact ⟨fun d k => (parts' d k).trans (parts d k), by rw [only', only]⟩

theorem loadClu_chipOnly (s : State) (c : CtxId) (d : CluDesc) : ChipOnly s (s.loadClu c d) := ⟨fun _ _ => rfl, rfl⟩

/-- A change of a die's token table alone keeps every partition. -/
theorem modTd_chipOnly (s : State) (i : Nat) {f : TouchDie → TouchDie} (part : ∀ x, (f x).part = x.part) : ChipOnly s (s.modTd i f) := by
  refine ⟨fun d k => ?_, rfl⟩
  unfold State.prt
  by_cases own : d = i
  · rw [own, State.modTd_same, part]
  · rw [State.modTd_ne _ _ own]

theorem loadTok_chipOnly (s : State) (base : Nat) (l : List (Nat × TokE)) : ChipOnly s (s.loadTok base l) :=
  foldl_rel .refl .trans (fun s e _ => modTd_chipOnly s e.1.1 (f := fun t => { t with tok := t.tok ++ [e.2.2.reread s.hbm e.2.1] }) fun _ => rfl) s

/-- The clusters and the token tables of the context are restored. -/
def State.loaded (s : State) (c : CtxId) : State :=
  ((s.ctx c.toNat).cltab.foldl (fun s d => s.loadClu c d) s.reinherit).loadTok (s.ctx c.toNat).saveBase.toNat (s.ctx c.toNat).savedTok

theorem loaded_chipOnly (s : State) (c : CtxId) : ChipOnly s.reinherit (s.loaded c) :=
  (foldl_rel .refl .trans (fun s d _ => loadClu_chipOnly s c d) _).trans (loadTok_chipOnly _ _ _)

/-- The context once its restore has ended. -/
def Ctx.resumes (x : Ctx) (clock : Nat) : Ctx := { x with st := .resident, saved := [], savedTok := [], savedTx := [], resumedNo := clock }

/-- The context is IN again; its packets are not queued yet. -/
def State.resumed (s : State) (c : CtxId) : State :=
  ({ s.loaded c with sched := { (s.loaded c).sched with clock := (s.loaded c).sched.clock + 1 } }.modCtx c.toNat fun x =>
    x.resumes (s.loaded c).sched.clock).event c.toNat 2

/-- The event record with a code (Table CS.4). -/
def State.eventRec (s : State) (code : Nat) : Rec :=
  { cmd := 0, kind := 2, code := BitVec.ofNat 16 code, unit := 0xFFFF, detail := 0, time := s.devTime, irq := false }

theorem event_eq (s : State) (c code : Nat) : s.event c code = s.modCtx c fun x => x.record (s.eventRec code) := rfl

/-- A record that joins or waits changes the two lists alone. -/
theorem Ctx.record_keeps (x : Ctx) (r : Rec) : x.record r = { x with recs := (x.record r).recs, late := (x.record r).late } := by
  unfold Ctx.record
  split <;> rfl

/-- What a record does to the two lists depends on them alone. -/
theorem Ctx.record_congr {x y : Ctx} (recs : x.recs = y.recs) (late : x.late = y.late) (r : Rec) :
    (x.record r).recs = (y.record r).recs ∧ (x.record r).late = (y.record r).late := by
  unfold Ctx.record Ctx.bufferFull
  rw [recs, late]
  split <;> exact ⟨rfl, rfl⟩

theorem resumed_ctx (s : State) (c : CtxId) (d : Nat) : (s.resumed c).ctx d = if d = c.toNat
    then (((s.reinherit).ctx c.toNat).resumes (s.loaded c).sched.clock).record ((s.loaded c).eventRec 2) else (s.reinherit).ctx d := by
  have kept (d : Nat) : (s.loaded c).ctx d = (s.reinherit).ctx d := by
    obtain ⟨-, only⟩ := loaded_chipOnly s c
    rw [only]
    rfl
  unfold State.resumed
  rw [event_eq, modCtx_ctx, State.modCtx_same]
  split
  case isTrue => rw [← kept]; rfl
  case isFalse other => rw [State.modCtx_ne _ _ other, ← kept]; rfl

theorem resumed_only (s : State) (c : CtxId) : s.resumed c = { s with
    ctxs := (s.resumed c).ctxs, cls := (s.resumed c).cls, td := (s.resumed c).td
    sched := { s.sched with clock := (s.resumed c).sched.clock } } := by
  obtain ⟨-, only⟩ := loaded_chipOnly s c
  unfold State.resumed
  rw [event_eq, only]
  rfl

theorem resumed_prt (s : State) (c : CtxId) (d k : Nat) : (s.resumed c).prt d k = s.prt d k := (loaded_chipOnly s c).1 d k

/-! ### Packets queued again (R228) -/

/-- From `s` to `t` packets have been queued: no route changes. -/
def QueueOnly (s t : State) : Prop := (∀ j, (t.prt6 j).st = (s.prt6 j).st) ∧ t = { s with port := t.port, links := t.links }

theorem QueueOnly.refl (s : State) : QueueOnly s s := ⟨fun _ => rfl, rfl⟩

section
variable {s t : State} (h : QueueOnly s t)
include h

theorem QueueOnly.trans {u : State} (k : QueueOnly t u) : QueueOnly s u := by
  obtain ⟨ports, only⟩ := h
  obtain ⟨ports', only'⟩ := k
  exact ⟨fun j => (ports' j).trans (ports j), by rw [only', only]⟩

theorem QueueOnly.route (d : DevId) : t.route d = s.route d := by
  obtain ⟨ports, only⟩ := h
  exact route_congr (by rw [only]) ports d none

theorem QueueOnly.devId : t.devId = s.devId := by rw [h.2]; rfl
theorem QueueOnly.ctx (d : Nat) : t.ctx d = s.ctx d := by rw [h.2]; rfl
theorem QueueOnly.isIn (d : Nat) : t.isIn d = s.isIn d := by rw [h.2]; rfl
theorem QueueOnly.prt (d k : Nat) : t.prt d k = s.prt d k := by rw [h.2]; rfl

end

theorem enqueue_queueOnly {s t : State} {k : Packet} (h : s.enqueue k none = some t) : QueueOnly s t := by
  refine ⟨fun j => ?_, enqueue_only h⟩
  unfold State.enqueue at h
  split at h
  · cases h; rfl
  · split at h
    · cases h
    next p _ _ =>
      cases h
      by_cases own : j = p
      · rw [own, State.modPort_same]; rfl
      · rw [State.modPort_ne _ _ own]

/-- A packet is queued where it stays on the device or has a route. -/
theorem enqueue_isSome (s : State) (k : Packet) : (s.enqueue k none).isSome = true ↔ (k.dst = s.devId ∨ (s.route k.dst).isSome = true) := by
  unfold State.enqueue
  by_cases own : k.dst = s.devId
  · simp [own]
  · rw [if_neg own]
    split
    case h_1 noRoute => simp [own, noRoute]
    case h_2 route => simp [route]

/-- Is there a way for the packet from here? -/
def State.hasWay (s : State) (k : Packet) : Prop := k.dst = s.devId ∨ (s.route k.dst).isSome = true

theorem loadTx_cons (s : State) (c : CtxId) (k : Packet) (l : List Packet) :
    s.loadTx c (k :: l) = (s.loadTx c [k]).loadTx c l := rfl

theorem loadTx_one {s t : State} {c : CtxId} {k : Packet} (isIn : s.isIn c.toNat = true) (queued : s.enqueue k none = some t) :
    s.loadTx c [k] = t := by
  unfold State.loadTx
  rw [List.foldl_cons, List.foldl_nil, if_neg (by rw [isIn]; decide), queued]

/-- A context that is not IN queues nothing. -/
theorem loadTx_out {s : State} {c : CtxId} (out : s.isIn c.toNat = false) (l : List Packet) : s.loadTx c l = s := by
  unfold State.loadTx
  induction l with
  | nil => rfl
  | cons k l ih => rw [List.foldl_cons, if_pos (by rw [out]; rfl)]; exact ih

/-- Where every packet has a way, all are queued. -/
theorem loadTx_queues {s : State} {c : CtxId} {l : List Packet} (isIn : s.isIn c.toNat = true) (way : ∀ k ∈ l, s.hasWay k) :
    QueueOnly s (s.loadTx c l) := by
  induction l generalizing s with
  | nil => exact .refl s
  | cons k l ih =>
    obtain ⟨first, rest⟩ := List.forall_mem_cons.1 way
    obtain ⟨t, queued⟩ := Option.isSome_iff_exists.1 ((enqueue_isSome s k).2 first)
    have kept := enqueue_queueOnly queued
    rw [loadTx_cons, loadTx_one isIn queued]
    refine kept.trans (ih (by rw [kept.isIn]; exact isIn) fun k mem => ?_)
    unfold State.hasWay
    rw [kept.devId, kept.route]
    exact rest k mem

/-- The first packet without a way faults the context (R228). -/
theorem loadTx_faults {s : State} {c : CtxId} {l : List Packet} (isIn : s.isIn c.toNat = true) (stuck : ∃ k ∈ l, ¬s.hasWay k) :
    ∃ u, QueueOnly s u ∧ s.loadTx c l = faultCtx u c 0x0403 := by
  induction l generalizing s with
  | nil => obtain ⟨k, mem, -⟩ := stuck; cases mem
  | cons k l ih =>
    rw [loadTx_cons]
    cases queued : s.enqueue k none with
    | none =>
      have faulted : s.loadTx c [k] = faultCtx s c 0x0403 := by
        unfold State.loadTx
        rw [List.foldl_cons, List.foldl_nil, if_neg (by rw [isIn]; decide), queued]
      obtain ⟨st, -⟩ := faultCtx_faulted s c 0x0403 0 0 0xFFFF false (isIn_alive isIn)
      exact ⟨s, .refl s, by rw [faulted, loadTx_out (decide_eq_false (by rw [st]; decide))]⟩
    | some t =>
      have kept := enqueue_queueOnly queued
      have way : s.hasWay k := (enqueue_isSome s k).1 (by rw [queued]; rfl)
      have later : ∃ k ∈ l, ¬t.hasWay k := by
        obtain ⟨k', mem, none_⟩ := stuck
        obtain rfl | mem := List.mem_cons.1 mem
        · exact absurd way none_
        · refine ⟨k', mem, ?_⟩
          unfold State.hasWay
          rw [kept.devId, kept.route]
          exact none_
      obtain ⟨u, more, eq⟩ := ih (by rw [kept.isIn]; exact isIn) later
      exact ⟨u, kept.trans more, by rw [loadTx_one isIn queued, eq]⟩

/-- A context whose targets are all on its device asks for no credit (R188). -/
theorem askAll_own {s : State} {c : CtxId} (own : ∀ d, ∀ o ∈ (s.prt d c.toNat).teacher, o.2.dev = s.devId) : s.askAll c = s := by
  have die (d : Nat) : (s.prt d c.toNat).teacher.foldl (fun s o => if o.2.dev = s.devId then s else s.askCredit d c o.2 o.1) s = s :=
    List.foldlRecOn (motive := (· = s)) _ _ rfl fun t same o mem => by rw [same]; exact if_pos (own d o mem)
  unfold State.askAll
  exact List.foldlRecOn (motive := (· = s)) _ _ rfl fun t same d _ => by rw [same]; exact die d

/-! ### The end of a restore (R174, R273) -/

section
variable {s : State} {c : CtxId} (loading : (s.ctx c.toNat).st = .loading)
include loading

theorem swapInDone_failed {q : QE} (failed : s.savedFailed c = some q) :
    exec (.swapInDone c) s = .next (faultCtx s c 0x0504 0 q.seq (unitOf q.img)) := by
  show execSwapInDone c s = _
  unfold execSwapInDone
  rw [if_neg (by rw [loading]; decide), failed]

variable (sound : s.savedFailed c = none)
include sound

theorem swapInDone_waits (full : s.tokRoom (s.ctx c.toNat).savedTok = false) : exec (.swapInDone c) s = .next s := by
  show execSwapInDone c s = _
  unfold execSwapInDone
  dsimp only
  rw [if_neg (by rw [loading]; decide), sound]
  exact if_pos (by rw [full, Bool.not_false, Bool.or_true])

theorem swapInDone_resumes
    (joins : ((s.ctx c.toNat).cltab.all fun d => (s.clu d.cl.toNat).canRejoin ((s.ctx c.toNat).savedOf d.cl)) = true)
    (room : s.tokRoom (s.ctx c.toNat).savedTok = true) (own : s.rangesFault c (s.loadRanges c) false = none)
    (there : ∀ r ∈ s.loadRanges c, s.hbmWait r.1 r.2 = false) :
    exec (.swapInDone c) s = .next (let t := (s.resumed c).loadTx c (s.ctx c.toNat).savedTx
      if t.isIn c.toNat then t.askAll c else t) := by
  have ready : ((s.loadRanges c).any fun r => s.hbmWait r.1 r.2) = false :=
    List.any_eq_false.2 fun r mem => by rw [there r mem]; decide
  show execSwapInDone c s = _
  unfold execSwapInDone
  dsimp only
  rw [if_neg (by rw [loading]; decide), sound]
  dsimp only
  rw [if_neg (by rw [joins, room]; decide), own]
  exact if_neg (by rw [ready]; decide)

end

/-- The context is IN once its restore has ended. -/
theorem resumed_resident (s : State) (c : CtxId) : ((s.resumed c).ctx c.toNat).st = .resident := by
  rw [resumed_ctx, if_pos rfl, Ctx.record_keeps]
  rfl

theorem resumed_hasWay (s : State) (c : CtxId) (k : Packet) : (s.resumed c).hasWay k ↔ s.hasWay k := by
  have only := resumed_only s c
  have boot : (s.resumed c).boot = s.boot := by rw [only]
  unfold State.hasWay
  rw [route_congr boot (fun j => by rw [only]; rfl) k.dst none, show (s.resumed c).devId = s.devId from congrArg Boot.coord boot]

/-- The RESUMED event joins the context's records, or waits for a place. -/
theorem resumed_records (s : State) (c : CtxId) : Records s (s.resumed c) c none fun r => r.kind = 2 ∧ r.code = 2 := by
  have same := Ctx.record_congr (x := ((s.reinherit).ctx c.toNat).resumes (s.loaded c).sched.clock) (y := s.ctx c.toNat)
    (by rw [reinherit_ctx]; rfl) (by rw [reinherit_ctx]; rfl) ((s.loaded c).eventRec 2)
  rw [← show (s.resumed c).ctx c.toNat = _ from (resumed_ctx s c c.toNat).trans (if_pos rfl)] at same
  exact record_records s _ c ((s.loaded c).eventRec 2) _ same.1 same.2 ⟨rfl, rfl⟩

end Sys2Proof.Machine
end
section
/-! SUPPORT. The end of a save, the events it writes, and the statement on swaps of contexts (O44; R107, R174, R175, R185 to R190,
R228, R235, R255, R273). -/

namespace Sys2Proof.Machine

/-! ### Records that events make (R179) -/

theorem Ctx.record_waits {x : Ctx} (full : x.bufferFull = true) {r : Rec} :
    x.record r = { x with late := x.late ++ [{ q := none, record := r }] } := if_pos full

theorem Ctx.record_joins {x : Ctx} (room : ¬x.bufferFull = true) {r : Rec} : x.record r = { x with recs := x.recs ++ [r] } := if_neg room

/-- Records join the buffer while it has room, and the rest wait. -/
theorem Ctx.foldl_record (x : Ctx) (rs : List Rec) : ∃ l m : List Rec,
    rs.foldl Ctx.record x = { x with recs := x.recs ++ l, late := x.late ++ m.map fun r => { q := none, record := r } }
      ∧ (m = [] ∨ 16 ≤ x.recs.length + l.length) ∧ (l = [] ∨ x.recs.length + l.length ≤ 16) ∧ l ++ m = rs := by
  induction rs generalizing x with
  | nil => exact ⟨[], [], by simp, .inl rfl, .inl rfl, rfl⟩
  | cons r rs ih =>
    rw [List.foldl_cons]
    obtain ⟨l, m, eq, late, fits, all⟩ := ih (x.record r)
    by_cases full : x.bufferFull = true
    · have sixteen : 16 ≤ x.recs.length := of_decide_eq_true full
      rw [Ctx.record_waits full] at eq late fits ⊢
      have none_ : l = [] := fits.elim id fun le => List.length_eq_zero_iff.1 (by dsimp only at le; omega)
      refine ⟨[], r :: m, ?_, .inr sixteen, .inl rfl, by rw [← all, none_]; rfl⟩
      rw [eq, none_, List.map_cons]
      dsimp only
      rw [List.append_assoc]
      rfl
    · have few : x.recs.length < 16 := Nat.not_le.1 fun le => full (decide_eq_true le)
      rw [Ctx.record_joins full] at eq late fits ⊢
      have longer : (x.recs ++ [r]).length + l.length = x.recs.length + (r :: l).length := by
        rw [List.length_append, List.length_cons, List.length_cons, List.length_nil]; omega
      refine ⟨r :: l, m, ?_, late.imp id fun le => longer ▸ le, .inr ?_, by rw [← all]; rfl⟩
      · rw [eq]
        dsimp only
        rw [List.append_assoc]
        rfl
      · obtain none_ | le := fits
        · rw [none_, List.length_singleton]; omega
        · exact longer ▸ le

/-- Events with codes are written one by one. -/
def State.events (s : State) (c : Nat) (codes : List Nat) : State := codes.foldl (fun s k => s.event c k) s

theorem events_ctx (s : State) (c : Nat) (codes : List Nat) (d : Nat) : (s.events c codes).ctx d =
    if d = c then (codes.map s.eventRec).foldl Ctx.record (s.ctx c) else s.ctx d := by
  induction codes generalizing s with
  | nil =>
    split
    case isTrue own => rw [own]; rfl
    case isFalse => rfl
  | cons k codes ih =>
    have next := ih (s.event c k)
    by_cases own : d = c
    · rw [if_pos own, event_eq, State.modCtx_same] at next
      rw [if_pos own]
      exact next
    · rw [if_neg own, event_eq, State.modCtx_ne _ _ own] at next
      rw [if_neg own]
      exact next

theorem events_only (s : State) (c : Nat) (codes : List Nat) : s.events c codes = { s with ctxs := (s.events c codes).ctxs } := by
  induction codes generalizing s with
  | nil => rfl
  | cons k codes ih => exact (ih (s.event c k)).trans rfl

/-! ### What a save writes (R187, R188) -/

/-- From `s` to `t` bytes of HBM are written, and nothing else. -/
def HbmOnly (s t : State) : Prop := NotesOnly { s with hbm := t.hbm } t

theorem HbmOnly.refl (s : State) : HbmOnly s s := rfl

theorem HbmOnly.trans {s t u : State} (h : HbmOnly s t) (k : HbmOnly t u) : HbmOnly s u := by
  unfold HbmOnly NotesOnly at *
  rw [k, h]

section
variable {s t : State} (h : HbmOnly s t)
include h

theorem HbmOnly.clu (j : Nat) : t.clu j = s.clu j := by unfold HbmOnly NotesOnly at h; rw [h]; rfl
theorem HbmOnly.ctx (d : Nat) : t.ctx d = s.ctx d := by unfold HbmOnly NotesOnly at h; rw [h]; rfl
theorem HbmOnly.nv : t.nv = s.nv := by unfold HbmOnly NotesOnly at h; rw [h]
theorem HbmOnly.sems : t.sems = s.sems := by unfold HbmOnly NotesOnly at h; rw [h]

end

theorem emptyTill_hbmOnly (s : State) (d : CluDesc) (full legacy : Bool) : HbmOnly s (s.emptyTill d full legacy) := by
  unfold State.emptyTill
  split
  · rfl
  · split <;> rfl

theorem putPieces_hbmOnly (s : State) (l : List Piece) : HbmOnly s (s.putPieces l) :=
  foldl_rel .refl .trans (fun s p _ => hbmWrite_only s p.1 p.2) s

theorem saveRegion_hbmOnly (s : State) (m : Mem) (d : CluDesc) (p : SavePlan) : HbmOnly s (s.saveRegion m d p) :=
  foldl_rel .refl .trans (fun s r _ =>
    show HbmOnly s (s.hbmPut (atRegion d + (r.1 - 128 * d.memBase)) r.2 (SMap.slice 0 r.1 (r.1 + r.2) m)) from rfl) s

/-! ### What a save keeps (R187, R188) -/

/-- No command of context `c` is in the cluster's queues. -/
def Cluster.freeOf (x : Cluster) (c : CtxId) : Prop :=
  (∀ m ∈ x.mq, m.q.ctx ≠ c) ∧ (∀ q ∈ x.vq, q.ctx ≠ c) ∧ (∀ q ∈ x.dq, q.ctx ≠ c) ∧ ∀ q ∈ x.callq, q.ctx ≠ c

theorem dropCtx_scrub_freeOf (x : Cluster) (c : CtxId) (d : CluDesc) : ((x.dropCtx c).scrub c.toNat d).freeOf c := by
  refine ⟨fun m mem => ?_, fun q mem => ?_, fun q mem => ?_, fun q mem => ?_⟩
  all_goals exact of_decide_eq_true (List.mem_filter.1 mem).2

/-- From `s` to `t` context `c` is saved: it keeps all but what is saved of it, no other context changes, and clusters free of it
stay so. -/
def SaveOnly (c : CtxId) (s t : State) : Prop :=
  (∀ d, d ≠ c.toNat → t.ctx d = s.ctx d)
    ∧ (∃ l m n, t.ctx c.toNat = { s.ctx c.toNat with saved := l, savedTok := m, savedTx := n })
    ∧ (∀ j, (s.clu j).freeOf c → (t.clu j).freeOf c) ∧ t.nv = s.nv ∧ t.sems = s.sems

theorem SaveOnly.refl (c : CtxId) (s : State) : SaveOnly c s s := ⟨fun _ _ => rfl, ⟨_, _, _, rfl⟩, fun _ h => h, rfl, rfl⟩

theorem SaveOnly.trans {c : CtxId} {s t u : State} (h : SaveOnly c s t) (k : SaveOnly c t u) : SaveOnly c s u := by
  obtain ⟨others, ⟨l, m, n, own⟩, free, nv, sems⟩ := h
  obtain ⟨others', ⟨l', m', n', own'⟩, free', nv', sems'⟩ := k
  refine ⟨fun d h => (others' d h).trans (others d h), ⟨l', m', n', ?_⟩, fun j h => free' j (free j h), nv'.trans nv, sems'.trans sems⟩
  rw [own', own]

theorem HbmOnly.saveOnly {s t : State} (h : HbmOnly s t) (c : CtxId) : SaveOnly c s t := by
  refine ⟨fun d _ => h.ctx d, ⟨_, _, _, h.ctx _⟩, fun j free => ?_, h.nv, h.sems⟩
  rw [h.clu]
  exact free

/-- More is saved of the context. -/
theorem modCtx_saveOnly (s : State) (c : CtxId) {f : Ctx → Ctx}
    (h : ∀ x, f x = { x with saved := (f x).saved, savedTok := (f x).savedTok, savedTx := (f x).savedTx }) :
    SaveOnly c s (s.modCtx c.toNat f) :=
  ⟨fun _ other => State.modCtx_ne _ _ other, ⟨_, _, _, (State.modCtx_same _ _ _).trans (h _)⟩, fun _ h => h, rfl, rfl⟩

/-- What a cluster's save writes, before the cluster is cleared of the context. -/
def State.cluSaved (s : State) (c : CtxId) (d : CluDesc) : State :=
  let x := s.clu d.cl.toNat
  let p := savePlan d (x.pc c.toNat) (s.heldEntries d.cl.toNat c)
  let s := s.emptyTill d (x.pc c.toNat).full (s.ctx c.toNat).legacy
  (s.putPieces (s.cluPieces c d p)).saveRegion x.mem d p

theorem cluSaved_hbmOnly (s : State) (c : CtxId) (d : CluDesc) : HbmOnly s (s.cluSaved c d) := by
  unfold State.cluSaved
  exact ((emptyTill_hbmOnly _ _ _ _).trans (putPieces_hbmOnly _ _)).trans (saveRegion_hbmOnly _ _ _ _)

theorem saveClu_own (s : State) (c : CtxId) (d : CluDesc) : ((s.saveClu c d).clu d.cl.toNat).freeOf c := by
  have cleared : (s.saveClu c d).clu d.cl.toNat = ((s.clu d.cl.toNat).dropCtx c).scrub c.toNat d := SMap.get_set_same _ _ _
  rw [cleared]
  exact dropCtx_scrub_freeOf _ c d

theorem saveClu_saveOnly (s : State) (c : CtxId) (d : CluDesc) : SaveOnly c s (s.saveClu c d) := by
  have saved := ((cluSaved_hbmOnly s c d).saveOnly c).trans (modCtx_saveOnly (s.cluSaved c d) c (f := fun y =>
    { y with saved := y.saved ++ [(d.cl.toNat, (s.clu d.cl.toNat).control c d)] }) fun _ => rfl)
  obtain ⟨others, own, free, nv, sems⟩ := saved
  refine ⟨others, own, fun j free_ => ?_, nv, sems⟩
  by_cases here : j = d.cl.toNat
  · rw [here]; exact saveClu_own s c d
  · have kept : (s.saveClu c d).clu j = (s.cluSaved c d).clu j := SMap.get_set_ne _ _ here
    rw [kept]
    exact free j free_

/-- Once every listed cluster is saved, none of them holds a command of the context. -/
theorem saveClus_free (c : CtxId) (l : List CluDesc) (s : State) :
    ∀ d ∈ l, ((l.foldl (fun s d => s.saveClu c d) s).clu d.cl.toNat).freeOf c := by
  induction l generalizing s with
  | nil => intro d mem; cases mem
  | cons e l ih =>
    intro d mem
    rw [List.foldl_cons]
    obtain rfl | mem := List.mem_cons.1 mem
    · obtain ⟨-, -, free, -⟩ : SaveOnly c (s.saveClu c d) (l.foldl (fun s d => s.saveClu c d) (s.saveClu c d)) :=
        foldl_rel (.refl c) .trans (fun s d _ => saveClu_saveOnly s c d) _
      exact free _ (saveClu_own s c d)
    · exact ih _ d mem

theorem saveTouch_saveOnly (s : State) (c : CtxId) : SaveOnly c s (s.saveTouch c) := by
  have written := (putPieces_hbmOnly s (s.ctxPieces c)).saveOnly c
  unfold State.saveTouch
  generalize s.putPieces (s.ctxPieces c) = u at written
  refine written.trans (SaveOnly.trans ?dies (modCtx_saveOnly _ c fun _ => rfl))
  case dies => exact ⟨fun _ _ => rfl, ⟨_, _, _, rfl⟩, fun _ h => h, rfl, rfl⟩

theorem saveLinks_saveOnly (s : State) (c : CtxId) : SaveOnly c s (s.saveLinks c) := by
  unfold State.saveLinks
  refine SaveOnly.trans ?ports (modCtx_saveOnly _ c fun _ => rfl)
  case ports => exact ⟨fun _ _ => rfl, ⟨_, _, _, rfl⟩, fun _ h => h, rfl, rfl⟩

theorem spillAll_saveOnly (s : State) (c : CtxId) : SaveOnly c s (s.spillAll c.toNat) := by
  have reports : Reports c.toNat s (s.spillAll c.toNat) := spillOn_reports s c.toNat fun _ => true
  have data := reports.dataOnly
  refine ⟨fun d _ => data.ctx d, ⟨_, _, _, data.ctx _⟩, fun j free => ?_, data.nv, data.sems⟩
  rw [reports.clu]
  exact free

/-! ### The end of a save (R187, R188, R190) -/

/-- The context is saved whole: clusters, token tables, packets, and counters of the Census. -/
def State.allSaved (s : State) (c : CtxId) : State :=
  ((((s.ctx c.toNat).cltab.foldl (fun s d => s.saveClu c d) s).saveTouch c).saveLinks c).spillAll c.toNat

theorem allSaved_rest (s : State) (c : CtxId) :
    SaveOnly c ((s.ctx c.toNat).cltab.foldl (fun s d => s.saveClu c d) s) (s.allSaved c) :=
  ((saveTouch_saveOnly _ c).trans (saveLinks_saveOnly _ c)).trans (spillAll_saveOnly _ c)

theorem allSaved_saveOnly (s : State) (c : CtxId) : SaveOnly c s (s.allSaved c) :=
  (foldl_rel (.refl c) .trans (fun s d _ => saveClu_saveOnly s c d) s).trans (allSaved_rest s c)

theorem allSaved_free (s : State) (c : CtxId) : ∀ d ∈ (s.ctx c.toNat).cltab, ((s.allSaved c).clu d.cl.toNat).freeOf c := by
  obtain ⟨-, -, free, -⟩ := allSaved_rest s c
  exact fun d mem => free _ (saveClus_free c _ s d mem)

/-- The codes of the events that the end of a save writes. -/
def Ctx.saveCodes (x : Ctx) : List Nat := (if x.forced then [3] else []) ++ if x.stopReq then [] else [1]

/-- The context leaves. -/
def State.goneOut (s : State) (c : CtxId) : State :=
  { s with sched := { s.sched with clock := s.sched.clock + 1 } }.modCtx c.toNat fun x => x.leaves s.sched.clock

theorem goneOut_ctx (s : State) (c : CtxId) (d : Nat) :
    (s.goneOut c).ctx d = if d = c.toNat then (s.ctx c.toNat).leaves s.sched.clock else s.ctx d := modCtx_ctx _ _ _ _

theorem events_saveCodes (s : State) (c : Nat) (x : Ctx) : s.events c x.saveCodes =
    if x.stopReq then if x.forced then s.event c 3 else s else (if x.forced then s.event c 3 else s).event c 1 := by
  unfold Ctx.saveCodes
  cases x.forced <;> cases x.stopReq <;> rfl

theorem saveDone_leaves {s : State} {c : CtxId} (saving : (s.ctx c.toNat).st = .saving) (copies : s.copyOut c = false)
    (colls : s.collHolds c = false) (own : s.rangesFault c (s.saveRanges c) true = none)
    (open_ : ∀ r ∈ s.saveRanges c, s.guarded r.1 r.2 = false) :
    exec (.saveDone c) s = .next (((s.allSaved c).events c.toNat (s.ctx c.toNat).saveCodes).goneOut c).reinherit := by
  have free : ((s.saveRanges c).any fun r => s.guarded r.1 r.2) = false :=
    List.any_eq_false.2 fun r mem => by rw [open_ r mem]; decide
  show execSaveDone c s = _
  unfold execSaveDone
  dsimp only
  rw [if_neg (by rw [saving, copies, colls]; decide), own]
  rw [events_saveCodes]
  exact if_neg (by rw [free]; decide)

/-- The context's records at the end of its save: the events of its codes, as many as the buffer takes, and the rest waiting. -/
theorem saved_ctx {s u : State} {c : CtxId} (saved : SaveOnly c s u) (codes : List Nat) :
    let t := ((u.events c.toNat codes).goneOut c).reinherit
    (t.ctx c.toNat).st = (if (s.ctx c.toNat).stopReq then .stopped else .out)
      ∧ (t.ctx c.toNat).preempts = (if (s.ctx c.toNat).stopReq then (s.ctx c.toNat).preempts else (s.ctx c.toNat).preempts + 1)
      ∧ ∃ l m : List Rec, (t.ctx c.toNat).recs = (s.ctx c.toNat).recs ++ l
          ∧ (t.ctx c.toNat).late = (s.ctx c.toNat).late ++ m.map (fun r => { q := none, record := r })
          ∧ (m = [] ∨ 16 ≤ (s.ctx c.toNat).recs.length + l.length) ∧ (l = [] ∨ (s.ctx c.toNat).recs.length + l.length ≤ 16)
          ∧ l ++ m = codes.map u.eventRec := by
  obtain ⟨-, ⟨tok, clu, tx, own⟩, -⟩ := saved
  have gone := reinherit_ctx ((u.events c.toNat codes).goneOut c) c.toNat
  obtain ⟨l, m, eq, late, fits, all⟩ := Ctx.foldl_record (u.ctx c.toNat) (codes.map u.eventRec)
  rw [goneOut_ctx, if_pos rfl, events_ctx, if_pos rfl, eq] at gone
  rw [own] at gone late fits
  dsimp only
  rw [gone]
  exact ⟨rfl, rfl, l, m, rfl, rfl, late, fits, all⟩

/-- The events of a save and the leave change contexts and the scheduler alone. -/
theorem savedOut_only (s : State) (c : CtxId) (codes : List Nat) :
    let t := ((s.events c.toNat codes).goneOut c).reinherit
    t = { s with ctxs := t.ctxs, sched := t.sched } := by
  dsimp only
  rw [events_only]
  rfl

theorem savedOut_ctx_ne (s : State) (c : CtxId) (codes : List Nat) {d : Nat} (other : d ≠ c.toNat) :
    let t := ((s.events c.toNat codes).goneOut c).reinherit
    t.ctx d = { s.ctx d with inherit := (t.ctx d).inherit } := by
  have ctx := reinherit_ctx ((s.events c.toNat codes).goneOut c) d
  rw [show ((s.events c.toNat codes).goneOut c).ctx d = s.ctx d by rw [goneOut_ctx, if_neg other, events_ctx, if_neg other]] at ctx
  exact ctx

/-- Kind and code of the events of a save (Table CS.4). -/
theorem saveCodes_recs (s : State) (x : Ctx) : (x.saveCodes.map s.eventRec).map (fun r => (r.kind.toNat, r.code.toNat))
    = (if x.forced then [(2, 3)] else []) ++ if x.stopReq then [] else [(2, 1)] := by
  unfold Ctx.saveCodes
  cases x.forced <;> cases x.stopReq <;> rfl

/-! ### Eviction (R190) -/

/-- The context notes whether it is evicted in a SYNC wait. -/
def Ctx.noteSync (x : Ctx) (sync : Bool) : Ctx := { x with evictedSync := sync }

/-- A SYNC of the context stands in a wait that is not satisfied. -/
def State.inSyncWait (s : State) (c : CtxId) : Bool := s.sched.sync.any fun x => x.q.ctx = c && s.syncWaits x

/-- No command of the context has completed on the cluster since its CHEAP there. -/
def State.cheapSince (s : State) (c : CtxId) (k cl : Nat) : Bool :=
  ((s.clu cl).pc k).cheap && !((s.clu cl).pc k).ran && s.parked c cl

theorem eviction_saves {s : State} {k : Nat}
    (longest : s.longest ((s.ctxs.filter fun p => p.2.st = .resident).map Prod.fst) = some k)
    (blocked : ((s.ctxs.filter fun p => p.2.st = .resident).map Prod.fst).all (fun c => s.blocked (BitVec.ofNat 12 c)) = true)
    (runs : (s.ctxs.any fun p => s.runnable p.1 && s.hasWork p.1) = true) (test : s.meetsTest (BitVec.ofNat 12 k) = false)
    (hold : s.bursar.hold = false) :
    exec .eviction s = .next ((s.modCtx k fun x => x.noteSync (s.inSyncWait (BitVec.ofNat 12 k))).startSave (BitVec.ofNat 12 k) fun cl =>
      !s.cheapSince (BitVec.ofNat 12 k) k cl) := by
  show execEviction s = _
  unfold execEviction
  dsimp only
  rw [if_pos (by rw [blocked, runs]; rfl), longest]
  exact if_neg (by rw [test, hold]; decide)

/-- A save that begins after a change of the context alone. -/
theorem startSave_after {s : State} {c : CtxId} {f : Ctx → Ctx} (full : Nat → Bool) :
    let t := (s.modCtx c.toNat f).startSave c full
    t.ctx c.toNat = (f (s.ctx c.toNat)).toSave ∧ SameBut State.ctx c.toNat s t ∧ t = { s with ctxs := t.ctxs, cls := t.cls } := by
  refine ⟨?own, fun d other => ?others, startSave_only _ c full⟩
  case own => rw [startSave_ctx, if_pos rfl, State.modCtx_same]
  case others => rw [startSave_ctx, if_neg other, State.modCtx_ne _ _ other]

/-- A packet without a way faults the context whose restore has ended. -/
theorem resumed_stuck {s : State} {c : CtxId} (isIn : (s.resumed c).isIn c.toNat = true)
    (packet : ∃ k ∈ (s.ctx c.toNat).savedTx, k.dst ≠ s.devId ∧ (s.route k.dst).isSome = false) :
    let t := (s.resumed c).loadTx c (s.ctx c.toNat).savedTx
    t.isIn c.toNat = false ∧ (t.ctx c.toNat).st = .scrubbing ∧ (t.ctx c.toNat).lastFault = 0x0403 ∧ t.hbm = s.hbm ∧ t.nv = s.nv := by
  have stuck : ∃ k ∈ (s.ctx c.toNat).savedTx, ¬(s.resumed c).hasWay k := by
    obtain ⟨k, mem, away, none_⟩ := packet
    refine ⟨k, mem, fun way => ?_⟩
    obtain here | route := (resumed_hasWay s c k).1 way
    · exact away here
    · exact absurd (none_.symm.trans route) (by decide)
  obtain ⟨u, kept, faulted⟩ := loadTx_faults isIn stuck
  have only : u = { s.resumed c with port := u.port, links := u.links } := kept.2
  have alive : (u.ctx c.toNat).st.alive := isIn_alive (by rw [kept.isIn]; exact isIn)
  obtain ⟨st, code, -, -, nv, hbm, -⟩ := faultCtx_faulted u c 0x0403 0 0 0xFFFF false alive
  dsimp only
  rw [faulted]
  refine ⟨decide_eq_false (by rw [st]; decide), st, code, hbm.trans ?_, nv.trans ?_⟩
  · rw [only, resumed_only]
  · rw [only, resumed_only]

/-- A context whose targets are all on its device asks for no credit when its restore has ended (R188). -/
theorem resumed_asks_none {s t : State} {c : CtxId} (kept : QueueOnly (s.resumed c) t)
    (own : ∀ d, ∀ o ∈ (s.prt d c.toNat).teacher, o.2.dev = s.devId) : t.askAll c = t := by
  have devId : (s.resumed c).devId = s.devId := by rw [resumed_only]; rfl
  refine askAll_own fun d o mem => ?_
  rw [kept.devId, devId]
  rw [kept.prt, resumed_prt] at mem
  exact own d o mem

/-- A forced save is counted and raises CLEARINGHOUSE bit 2 (R187). -/
theorem forcedSave_raises (s : State) (c : CtxId) (masked : s.action pgClear 2 ≠ 2) :
    let t := ((s.modCtx c.toNat Ctx.countForced).startSave c fun _ => true).alarm pgClear 2 (some c)
    t.ctx c.toNat = (s.ctx c.toNat).countForced.toSave ∧ Stands t pgClear 2 ∧ SameBut State.ctx c.toNat s t
      ∧ AlarmOnly { s with ctxs := t.ctxs, cls := t.cls } t := by
  obtain ⟨own, others, only⟩ := startSave_after (s := s) (c := c) (f := Ctx.countForced) fun _ => true
  dsimp only
  generalize (s.modCtx c.toNat Ctx.countForced).startSave c (fun _ => true) = u at own others only
  have action : u.action pgClear 2 = s.action pgClear 2 := by rw [only]; rfl
  rw [alarm_of_action_ne c (by rw [action]; exact masked)]
  have alarm := alarm0_only u pgClear 2 (some c.toNat)
  have stands := alarm0_stands u pgClear 2 (some c.toNat) (by decide)
  generalize u.alarm0 pgClear 2 (some c.toNat) = t at alarm stands
  refine ⟨by rw [alarm.ctx, own], stands, fun d other => ?others, ?frame⟩
  case others => rw [alarm.ctx]; exact others d other
  case frame =>
    unfold AlarmOnly at *
    rw [alarm, only]

/-- Settles O44: contexts come in, are pre-empted, are saved and leave as R174 and R185 to R190 order it. -/
theorem contextsSwapInAndOut : Obligations.ContextsSwapInAndOut := by
  unfold Obligations.ContextsSwapInAndOut
  refine ⟨?swapIn, ?failed, ?restore, ?preempt, ?contest, ?hold, ?saveDone, ?evict⟩
  case swapIn =>
    intro c s ready runnable work first way
    have run : exec (.swapIn c) s = .next (s.reinherit.modCtx c.toNat fun x => { x with st := .loading, evictedSync := false }) := by
      show execSwapIn c s = _
      unfold execSwapIn State.ready
      dsimp only
      rw [if_neg (by simp [runnable, work, ready, first]), if_pos way]
    refine ⟨_, run, by rw [State.modCtx_same], rfl, fun d other => ?_⟩
    rw [State.modCtx_ne _ _ other]
    exact reinherit_ctx s d
  case failed =>
    intro c q s loading failed
    exact ⟨_, swapInDone_failed loading failed, faultCtx_faulted _ _ _ _ _ _ _ (.inr (.inl loading))⟩
  case restore =>
    intro c s loading sound joins
    refine ⟨fun full => ⟨s, swapInDone_waits loading sound full, rfl⟩, fun room own there => ?_⟩
    have run := swapInDone_resumes loading sound joins room own there
    have isIn := isIn_of_resident (resumed_resident s c)
    refine ⟨?stuck, ?resumes⟩
    case stuck =>
      intro packet
      obtain ⟨out, st, code, hbm, nv⟩ := resumed_stuck isIn packet
      refine ⟨_, run, ?_⟩
      dsimp only
      rw [if_neg (by rw [out]; decide)]
      exact ⟨st, code, hbm, nv⟩
    case resumes =>
      intro ways own
      have kept := loadTx_queues isIn fun k mem => (resumed_hasWay s c k).2 (ways k mem)
      refine ⟨_, run, ?_⟩
      dsimp only
      rw [if_pos (by rw [kept.isIn]; exact isIn), resumed_asks_none kept own]
      generalize (s.resumed c).loadTx c (s.ctx c.toNat).savedTx = t at kept
      have only : t = { s.resumed c with port := t.port, links := t.links } := kept.2
      refine ⟨?st, ?saved, ?records, fun d other => ?others, ?hbm, ?nv, ?sems⟩
      case st => rw [kept.ctx]; exact resumed_resident s c
      case saved => rw [kept.ctx, resumed_ctx, if_pos rfl, Ctx.record_keeps]; rfl
      case records =>
        have records := resumed_records s c
        unfold Records at *
        rw [kept.ctx]
        exact records
      case others =>
        rw [kept.ctx, resumed_ctx, if_neg other]
        exact reinherit_ctx s d
      case hbm => rw [only, resumed_only]
      case nv => rw [only, resumed_only]
      case sems => rw [only, resumed_only]
  case preempt =>
    intro c s resident asked test hold later
    have leave := mayLeave_of test hold later
    refine ⟨fun cheap => ⟨_, cheapPointSave_starts resident asked leave cheap, ?cheap⟩,
      fun away masked => ⟨_, preemptTimeout_starts resident asked leave away, ?forced⟩⟩
    case cheap =>
      have own := startSave_ctx s c (fun _ => false)
      refine ⟨?_, ?_, ?_, fun d other => by rw [own, if_neg other], startSave_only _ _ _⟩
      all_goals rw [own, if_pos rfl]; rfl
    case forced =>
      obtain ⟨own, stands, others, only⟩ := forcedSave_raises s c masked
      exact ⟨by rw [own]; rfl, by rw [own]; rfl, stands, others, only⟩
  case contest =>
    intro c k d s other listed resident asks both stop first
    have waits := mayLeave_later (leavesLater_of other listed resident asks both stop (leavesFirst_of first))
    exact ⟨⟨s, cheapPointSave_stays waits, rfl⟩, ⟨s, preemptTimeout_stays waits, rfl⟩⟩
  case hold =>
    intro c s hold
    have stays := mayLeave_hold c hold
    exact ⟨⟨s, cheapPointSave_stays stays, rfl⟩, ⟨s, preemptTimeout_stays stays, rfl⟩, ⟨s, eviction_stays hold, rfl⟩⟩
  case saveDone =>
    intro c s saving copies colls own open_
    have save := allSaved_saveOnly s c
    have run := saveDone_leaves saving copies colls own open_
    obtain ⟨st, preempts, l, m, recs, late, waits, joins, all⟩ := saved_ctx save (s.ctx c.toNat).saveCodes
    obtain ⟨others, -, -, nv, sems⟩ := save
    have only := savedOut_only (s.allSaved c) c (s.ctx c.toNat).saveCodes
    have left (d : Nat) (other : d ≠ c.toNat) := savedOut_ctx_ne (s.allSaved c) c (s.ctx c.toNat).saveCodes other
    have free := allSaved_free s c
    generalize (((s.allSaved c).events c.toNat (s.ctx c.toNat).saveCodes).goneOut c).reinherit = t at run st preempts recs late only left
    refine ⟨t, run, st, fun d mem => ?queues, preempts, ⟨l, m, recs, late, waits, joins, by rw [all]; exact saveCodes_recs _ _⟩,
      fun d other => ?others, ?nv, ?sems⟩
    case queues =>
      have cluster : t.clu d.cl.toNat = (s.allSaved c).clu d.cl.toNat := by rw [only]; rfl
      rw [cluster]
      exact free d mem
    case others => rw [← others d other]; exact left d other
    case nv => rw [only]; exact nv
    case sems => rw [only]; exact sems
  case evict =>
    intro k s small longest blocked runs test hold
    have name : (BitVec.ofNat 12 k).toNat = k := Nat.mod_eq_of_lt small
    have save := startSave_after (s := s) (c := BitVec.ofNat 12 k) (f := fun x => x.noteSync (s.inSyncWait (BitVec.ofNat 12 k))) fun cl =>
      !s.cheapSince (BitVec.ofNat 12 k) k cl
    rw [name] at save
    obtain ⟨own, others, only⟩ := save
    exact ⟨_, eviction_saves longest blocked runs test hold, by rw [own]; rfl, others, only⟩

end Sys2Proof.Machine
end
section
/-! SUPPORT. The driver's commands on contexts, and the statement on them (O38; R131, R173, R182, R191, R212). -/

namespace Sys2Proof.Machine

/-! ### CREATE, START, STOP, RESET (Table CS.3) -/

section
variable {s : State} (hw : s.canWrite pgClear = true)
include hw

/-- The device with the selected context made anew. -/
theorem ctxCreate_creates (unused : (s.ctx s.sel.csCtx.toNat).st = .unused) : exec .ctxCreate s = .next
    (({ s with census := dropCensus s.census s.sel.csCtx.toNat, num := SMap.set {} s.num s.sel.csCtx.toNat {} }.dropAdds
      s.sel.csCtx.toNat).modCtx s.sel.csCtx.toNat Ctx.created) := by
  show execCtxCreate s = _
  simp [execCtxCreate, hw, unused]

theorem ctxCreate_rejects (used : (s.ctx s.sel.csCtx.toNat).st ≠ .unused) :
    exec .ctxCreate s = .next (s.reject s.sel.csCtx.toNat) := by
  show execCtxCreate s = _
  simp [execCtxCreate, hw, used]

theorem ctxStart_rejects (other : (s.ctx s.sel.csCtx.toNat).st ≠ .stopped) :
    exec .ctxStart s = .next (s.reject s.sel.csCtx.toNat) := by
  show execCtxStart s = _
  simp [execCtxStart, hw, other]

/-- START with every check of R173 passed. -/
theorem ctxStart_starts (stopped : (s.ctx s.sel.csCtx.toNat).st = .stopped) (sound : s.startErr s.sel.csCtx.toNat = 0) :
    exec .ctxStart s = .next ({ s with sched := { s.sched with clock := s.sched.clock + 1 } }.modCtx s.sel.csCtx.toNat fun x =>
      { x.accepted .out with cltab := s.table s.sel.csCtx.toNat, outNo := s.sched.clock }) := by
  show execCtxStart s = _
  simp [execCtxStart, hw, stopped, sound]

/-- START with a failed check, whose alarm is no context fault. -/
theorem ctxStart_fails (stopped : (s.ctx s.sel.csCtx.toNat).st = .stopped) (bad : s.startErr s.sel.csCtx.toNat ≠ 0)
    (noFault : s.action pgClear 0 ≠ 2) :
    exec .ctxStart s = .next ((s.modCtx s.sel.csCtx.toNat fun x =>
      { x with cmdReject := true, startErr := s.startErr s.sel.csCtx.toNat }).alarm0 pgClear 0 (some s.sel.csCtx.toNat)) := by
  show execCtxStart s = _
  unfold execCtxStart
  rw [if_neg (by simp [hw]), if_neg (not_not.2 stopped), if_neg bad]
  exact congrArg _ (alarm_of_action_ne _ noFault)

/-- The context as STOP leaves it, by the state it is in. -/
def Ctx.stop (x : Ctx) : Ctx :=
  if x.st = .out then x.accepted .stopped
  else if x.st = .resident then { x.accepted .resident with preemptReq := true, stopReq := true }
  else { x with cmdReject := true }

theorem ctxStop_stops : exec .ctxStop s = .next (s.modCtx s.sel.csCtx.toNat fun _ => (s.ctx s.sel.csCtx.toNat).stop) := by
  show execCtxStop s = _
  unfold execCtxStop Ctx.stop State.reject
  rw [if_neg (by simp [hw])]
  dsimp only
  by_cases out : (s.ctx s.sel.csCtx.toNat).st = .out
  · rw [if_pos out, if_pos out]; rfl
  · rw [if_neg out, if_neg out]
    by_cases resident : (s.ctx s.sel.csCtx.toNat).st = .resident
    · rw [if_pos resident, if_pos resident]; rfl
    · rw [if_neg resident, if_neg resident]; rfl

/-- The partitions of context `c` take deposits again (R191). -/
def State.takesDeposits (s : State) (c : Nat) : State :=
  { s with td := SMap.mapV {} (fun _ t => { t with
    part := SMap.mapV {} (fun k p => if k = c then { p with refusing := false } else p) t.part }) s.td }

theorem ctxReset_resets (idle : (s.ctx s.sel.csCtx.toNat).st = .faulted ∨ (s.ctx s.sel.csCtx.toNat).st = .stopped) :
    exec .ctxReset s = .next ((s.takesDeposits s.sel.csCtx.toNat).modCtx s.sel.csCtx.toNat fun x => x.accepted .stopped) := by
  show execCtxReset s = _
  unfold execCtxReset
  rw [if_neg (by simp [hw]), if_pos idle]
  rfl

theorem ctxReset_rejects (busy : ¬((s.ctx s.sel.csCtx.toNat).st = .faulted ∨ (s.ctx s.sel.csCtx.toNat).st = .stopped)) :
    exec .ctxReset s = .next (s.reject s.sel.csCtx.toNat) := by
  show execCtxReset s = _
  unfold execCtxReset
  rw [if_neg (by simp [hw]), if_neg busy]

end

theorem reject_ctx (s : State) (c : Nat) : (s.reject c).ctx c = { s.ctx c with cmdReject := true } := State.modCtx_same _ _ _
theorem reject_others (s : State) (c : Nat) : SameBut State.ctx c s (s.reject c) := fun _ other => State.modCtx_ne _ _ other

theorem takesDeposits_prt (s : State) (c d e : Nat) :
    (s.takesDeposits c).prt d e = if e = c then { s.prt d e with refusing := false } else s.prt d e := by
  have die : (s.takesDeposits c).tdie d = { s.tdie d with
      part := SMap.mapV {} (fun k p => if k = c then { p with refusing := false } else p) (s.tdie d).part } :=
    SMap.get_mapV _ _ _ rfl
  unfold State.prt
  rw [die]
  exact SMap.get_mapV _ _ _ (ite_self _)

theorem get_dropCensus (m : SMap W32) (c k : Nat) :
    SMap.get 0 (dropCensus m c) k = if k / 512 % 4096 = c then 0 else SMap.get 0 m k := by
  unfold dropCensus
  rw [SMap.get_drop]
  simp

/-! ### Faults beside a command (R182, R191, R212) -/

/-- From `s` to `t` contexts fault: nothing of memory, persistent cells, semaphores and page entries changes, free Ledger
entries stay free, and a context that holds nothing stays as it is. -/
def FaultsOnly (s t : State) : Prop :=
  t.nv = s.nv ∧ t.hbm = s.hbm ∧ t.sems = s.sems ∧ t.pot = s.pot ∧ (∀ i, s.ent i = {} → t.ent i = {})
    ∧ ∀ c, ¬(s.ctx c).st.alive → t.ctx c = s.ctx c

theorem FaultsOnly.refl (s : State) : FaultsOnly s s := ⟨rfl, rfl, rfl, rfl, fun _ h => h, fun _ _ => rfl⟩

theorem FaultsOnly.trans {s t u : State} (h : FaultsOnly s t) (k : FaultsOnly t u) : FaultsOnly s u := by
  obtain ⟨nv, hbm, sems, pot, ents, idle⟩ := h
  obtain ⟨nv', hbm', sems', pot', ents', idle'⟩ := k
  refine ⟨nv'.trans nv, hbm'.trans hbm, sems'.trans sems, pot'.trans pot, fun i h => ents' i (ents i h), fun c h => ?_⟩
  have same := idle c h
  rw [← same] at h ⊢
  exact idle' c h

theorem AlarmOnly.ent {s t : State} (h : AlarmOnly s t) (i : Nat) : t.ent i = s.ent i := by
  unfold AlarmOnly at h; rw [h]; rfl

/-- The teardown leaves a free Ledger entry free: it is of no manifest (R212). -/
theorem stopCtx_ent_free {s : State} (c : CtxId) {i : Nat} (free : s.ent i = {}) : (s.stopCtx c).ent i = {} := by
  show SMap.get {} (SMap.mapV {} (fun i e => if _ ∧ _ then e.ungather else e) s.lgE) i = {}
  rw [SMap.get_mapV _ _ _ (by split <;> rfl), show SMap.get {} s.lgE i = {} from free]
  split <;> rfl

theorem faultCtx_faultsOnly (s : State) (c : CtxId) (code : U16) (detail : W64) (cmd : W32) (unit : U16) (irq : Bool) :
    FaultsOnly s (faultCtx s c code detail cmd unit irq) := by
  by_cases alive : (s.ctx c.toNat).st.alive
  · obtain ⟨-, -, -, others, nv, hbm, -, sems, pot⟩ := faultCtx_faulted s c code detail cmd unit irq alive
    obtain ⟨r, only⟩ := faultCtx_eq s c code detail cmd unit irq alive
    refine ⟨nv, hbm, sems, pot, fun i free => ?_, fun d idle => others d fun same => idle (same ▸ alive)⟩
    rw [only.ent]
    exact stopCtx_ent_free c free
  · rw [faultCtx_idle _ _ _ _ _ _ _ alive]
    exact .refl s

theorem semLost_faultsOnly (s : State) : FaultsOnly s s.semLost :=
  foldl_rel .refl .trans (fun s x _ => faultCtx_faultsOnly s x.q.ctx 0x000F _ _ _ _) s

/-! ### DESTROY (R182, R191, R212) -/

/-- The semaphores of context `c` are invalid. -/
def State.semsInvalid (s : State) (c : CtxId) : State :=
  { s with sems := SMap.mapV {} (fun _ m => if m.owner = c then { m with valid := false } else m) s.sems }

/-- The device once context `c` is destroyed, before the waits on its semaphores fault. -/
def State.destroyed (s : State) (c : CtxId) : State :=
  (((s.semsInvalid c).dropWork c).modCtx c.toNat Ctx.destroyed).ledgerDestroy c.toNat

theorem ctxDestroy_destroys {s : State} (hw : s.canWrite pgClear = true)
    (idle : (s.ctx s.sel.csCtx.toNat).st = .faulted ∨ (s.ctx s.sel.csCtx.toNat).st = .stopped) :
    exec .ctxDestroy s = .next (s.destroyed s.sel.csCtx).semLost := by
  show execCtxDestroy s = _
  unfold execCtxDestroy
  rw [if_neg (by simp [hw]), if_pos idle]
  rfl

theorem ctxDestroy_rejects {s : State} (hw : s.canWrite pgClear = true)
    (busy : ¬((s.ctx s.sel.csCtx.toNat).st = .faulted ∨ (s.ctx s.sel.csCtx.toNat).st = .stopped)) :
    exec .ctxDestroy s = .next (s.reject s.sel.csCtx.toNat) := by
  show execCtxDestroy s = _
  unfold execCtxDestroy
  rw [if_neg (by simp [hw]), if_neg busy]

theorem destroyed_ctx (s : State) (c : CtxId) : ((s.destroyed c).ctx c.toNat).st = .unused := by
  show ((((s.semsInvalid c).dropWork c).modCtx c.toNat Ctx.destroyed).ctx c.toNat).st = _
  rw [State.modCtx_same]
  rfl

theorem destroyed_sem (s : State) (c : CtxId) (i : Nat) (own : ((s.destroyed c).sem i).owner = c) :
    ((s.destroyed c).sem i).valid = false := by
  have sem : (s.destroyed c).sem i = if (s.sem i).owner = c then { s.sem i with valid := false } else s.sem i :=
    SMap.get_mapV _ _ _ (ite_self _)
  rw [sem] at own ⊢
  split at own
  case isTrue mine => rw [if_pos mine]
  case isFalse other => exact absurd own other

/-- The teardown of a context keeps the range of its Ledger entries (Table LG.9). -/
theorem stopCtx_entries (s : State) (c : CtxId) :
    ((s.stopCtx c).lgc c.toNat).entFirst = (s.lgc c.toNat).entFirst ∧ ((s.stopCtx c).lgc c.toNat).entCount = (s.lgc c.toNat).entCount := by
  have own : (s.stopCtx c).lgc c.toNat = { s.lgc c.toNat with manifests := [] } :=
    SMap.get_upd_same (d := ({} : LgCtx)) s.lgC c.toNat fun x => { x with manifests := [] }
  rw [own]
  exact ⟨rfl, rfl⟩

theorem destroyed_ent (s : State) (c : CtxId) {i : Nat} (first : (s.lgc c.toNat).entFirst ≤ i)
    (last : i < (s.lgc c.toNat).entFirst + (s.lgc c.toNat).entCount) : (s.destroyed c).ent i = {} := by
  obtain ⟨ef, ec⟩ := stopCtx_entries (s.semsInvalid c) c
  show SMap.get {} (SMap.clear {} (((s.semsInvalid c).stopCtx c).lgc c.toNat).entFirst
    ((((s.semsInvalid c).stopCtx c).lgc c.toNat).entFirst + (((s.semsInvalid c).stopCtx c).lgc c.toNat).entCount)
    ((s.semsInvalid c).stopCtx c).lgE) i = _
  rw [SMap.get_clear, ef, ec]
  exact if_pos ⟨first, last⟩

theorem destroyed_keeps (s : State) (c : CtxId) :
    (s.destroyed c).nv = s.nv ∧ (s.destroyed c).hbm = s.hbm ∧ (s.destroyed c).pot = s.pot := by
  unfold State.destroyed State.ledgerDestroy State.modCtx State.dropWork
  dsimp only
  rw [stopCtx_only]
  exact ⟨rfl, rfl, rfl⟩

/-- Settles O38, command by command. -/
theorem contextCommandsMoveBetweenStates : Obligations.ContextCommandsMoveBetweenStates := by
  unfold Obligations.ContextCommandsMoveBetweenStates
  refine ⟨?create, ?recreate, ?badStart, ?start, ?stop, ?reset, ?destroy⟩
  case create =>
    intro s hw unused
    refine ⟨_, ctxCreate_creates hw unused, ?_⟩
    dsimp only
    rw [State.modCtx_same]
    exact ⟨rfl, rfl, rfl, rfl, rfl, rfl, rfl, rfl, SMap.get_set_same _ _ _, fun _ other => State.modCtx_ne _ _ other,
      fun _ other => SMap.get_set_ne _ _ other, fun k => get_dropCensus _ _ k, rfl⟩
  case recreate =>
    intro s hw used
    exact ⟨_, ctxCreate_rejects hw used, reject_ctx s _, reject_others s _, rfl⟩
  case badStart =>
    intro s hw other
    exact ⟨_, ctxStart_rejects hw other, reject_ctx s _, reject_others s _, rfl⟩
  case start =>
    intro s hw stopped noFault
    by_cases sound : s.startErr s.sel.csCtx.toNat = 0
    · refine ⟨_, ctxStart_starts hw stopped sound, fun _ other => State.modCtx_ne _ _ other, rfl, rfl, ?_⟩
      rw [if_pos sound, State.modCtx_same]
      exact ⟨rfl, rfl, rfl, rfl⟩
    · refine ⟨_, ctxStart_fails hw stopped sound noFault, ?_⟩
      have only := alarm0_only (s.modCtx s.sel.csCtx.toNat fun x =>
        { x with cmdReject := true, startErr := s.startErr s.sel.csCtx.toNat }) pgClear 0 (some s.sel.csCtx.toNat)
      obtain ⟨nv, hbm, -, -, -⟩ := only.keeps
      refine ⟨fun d other => (only.ctx d).trans (State.modCtx_ne _ _ other), nv, hbm, ?_⟩
      dsimp only
      rw [if_neg sound, only.ctx, State.modCtx_same]
      exact ⟨stopped, rfl, rfl, alarm0_stands _ _ _ _ (by decide)⟩
  case stop =>
    intro s hw
    refine ⟨_, ctxStop_stops hw, fun _ other => State.modCtx_ne _ _ other, rfl, ?_⟩
    dsimp only
    rw [State.modCtx_same]
    refine ⟨fun out => ?_, fun resident => ?_, fun notOut notIn => ?_⟩
    · rw [Ctx.stop, if_pos out]
      exact ⟨rfl, rfl⟩
    · rw [Ctx.stop, if_neg (by rw [resident]; decide), if_pos resident]
      exact ⟨rfl, rfl, rfl⟩
    · rw [Ctx.stop, if_neg notOut, if_neg notIn]
  case reset =>
    intro s hw
    by_cases idle : (s.ctx s.sel.csCtx.toNat).st = .faulted ∨ (s.ctx s.sel.csCtx.toNat).st = .stopped
    · refine ⟨_, ctxReset_resets hw idle, fun _ other => State.modCtx_ne _ _ other, ?_⟩
      dsimp only
      rw [if_pos idle, State.modCtx_same]
      exact ⟨rfl, fun d => (takesDeposits_prt s _ d _).trans (if_pos rfl),
        fun d e other => (takesDeposits_prt s _ d e).trans (if_neg other), rfl⟩
    · refine ⟨_, ctxReset_rejects hw idle, reject_others s _, ?_⟩
      dsimp only
      rw [if_neg idle]
      exact ⟨reject_ctx s _, rfl⟩
  case destroy =>
    intro s hw
    by_cases idle : (s.ctx s.sel.csCtx.toNat).st = .faulted ∨ (s.ctx s.sel.csCtx.toNat).st = .stopped
    · refine ⟨_, ctxDestroy_destroys hw idle, ?_⟩
      obtain ⟨nv, hbm, sems, pot, ents, unharmed⟩ := semLost_faultsOnly (s.destroyed s.sel.csCtx)
      obtain ⟨nv', hbm', pot'⟩ := destroyed_keeps s s.sel.csCtx
      have gone := destroyed_ctx s s.sel.csCtx
      dsimp only
      rw [if_pos idle]
      refine ⟨?state, fun i own => ?sem, fun i first last => ents i (destroyed_ent s _ first last), pot.trans pot', hbm.trans hbm', nv.trans nv'⟩
      case state =>
        rw [unharmed _ (by rw [gone]; unfold CtxSt.alive; decide)]
        exact gone
      case sem =>
        unfold State.sem at own ⊢
        rw [sems] at own ⊢
        exact destroyed_sem s _ i (BitVec.eq_of_toNat_eq own)
    · refine ⟨_, ctxDestroy_rejects hw idle, ?_⟩
      dsimp only
      rw [if_neg idle]
      exact ⟨reject_ctx s _, reject_others s _, rfl⟩

end Sys2Proof.Machine
end
section
/-! SUPPORT. Checks of HBM ranges and what a write leaves of them: smaller ranges, epochs and errors after a noted write, and
the error that a read of the device's own meets (R175, R263, R266, R271). -/

namespace Sys2Proof.Machine

/-! ### Ranges within ranges (R175) -/

theorem mem_pagesOf {a n g : Nat} : g ∈ pagesOf a n ↔ n ≠ 0 ∧ a / 65536 ≤ g ∧ g ≤ (a + n - 1) / 65536 := by
  unfold pagesOf
  split
  · simp [*]
  · simp only [List.mem_map, List.mem_range]
    constructor
    · rintro ⟨i, hi, rfl⟩
      omega
    · rintro ⟨-, low, high⟩
      exact ⟨g - a / 65536, by omega, by omega⟩

section
variable {a n b m : Nat} (low : b ≤ a) (high : a + n ≤ b + m)
include low high

theorem pagesOf_within {g : Nat} (h : g ∈ pagesOf a n) : g ∈ pagesOf b m := by
  rw [mem_pagesOf] at *
  omega

theorem guarded_within {s : State} (h : s.guarded b m = false) : s.guarded a n = false := by
  unfold State.guarded at *
  rw [List.any_eq_false] at *
  exact fun g hg => h g (pagesOf_within low high hg)

theorem noMemory_within {s : State} (h : s.noMemory b m = false) : s.noMemory a n = false := by
  by_cases empty : n = 0
  · subst empty; rfl
  unfold State.noMemory State.malformed at *
  have filled : (m != 0) = true := by simp; omega
  rw [filled] at h
  simp only [Bool.true_and, Bool.or_eq_false_iff, decide_eq_false_iff_not, Bool.not_eq_false', bne_eq_false_iff_eq,
    Bool.and_eq_false_imp] at h ⊢
  obtain ⟨⟨⟨⟨first, -⟩, on⟩, ⟨-, last⟩, -⟩, one⟩ := h
  have stack : a / 2 ^ 36 = b / 2 ^ 36 := by omega
  have stack' : (a + n - 1) / 2 ^ 36 = b / 2 ^ 36 := by omega
  rw [stack, stack']
  exact fun _ => ⟨⟨⟨⟨first, by omega⟩, on⟩, ⟨first, by omega⟩, on⟩, rfl⟩

/-- What a context may write it may write in part. -/
theorem hbmCheck_within {s : State} {c : Nat} {own : Bool} (h : s.hbmCheck c b m true own = none) :
    s.hbmCheck c a n true own = none := by
  by_cases empty : n = 0
  · subst empty; rfl
  have memory := noMemory_of_hbmCheck h
  unfold State.hbmCheck at *
  rw [if_neg (by omega), if_neg (by simp [memory])] at h
  rw [if_neg empty, if_neg (by simp [noMemory_within low high memory])]
  by_cases owned : ((pagesOf b m).all fun p => pageOk (s.page p) c true own) = true
  · have part : ((pagesOf a n).all fun p => pageOk (s.page p) c true own) = true :=
      List.all_eq_true.2 fun p hp => List.all_eq_true.1 owned p (pagesOf_within low high hp)
    simp [part]
  · simp [owned] at h

end

/-! ### Epochs after a noted write (R263, R266) -/

/-- A map applied to the listed values lists no other keys, and keeps of each value what the function keeps. -/
theorem SMap.mem_mapV_keeps {α β : Type} [DecidableEq α] {d : α} (g : α → β) {f : Nat → α → α} (hf : ∀ k x, g (f k x) = g x)
    (hd : ∀ k, f k d = d) {m : SMap α} {p : Nat × α} (h : p ∈ SMap.mapV d f m) : ∃ q ∈ m, p.1 = q.1 ∧ g p.2 = g q.2 := by
  have dropped (k : Nat) (l : SMap α) : ∀ q ∈ SMap.dropTo k l, q ∈ l := by
    induction l with
    | nil => exact fun q hq => hq
    | cons e l ih =>
      obtain ⟨j, v⟩ := e
      unfold SMap.dropTo
      split
      · exact fun q hq => List.mem_cons_of_mem _ (ih q hq)
      · exact fun q hq => hq
  have updated (k : Nat) (l : SMap α) : ∀ p ∈ SMap.upd d l k (f k), ∃ q ∈ l, p.1 = q.1 ∧ g p.2 = g q.2 := by
    have same (l : SMap α) : ∀ p ∈ l, ∃ q ∈ l, p.1 = q.1 ∧ g p.2 = g q.2 := fun p hp => ⟨p, hp, rfl, rfl⟩
    unfold SMap.upd
    induction l with
    | nil =>
      intro p hp
      simp [SMap.set, SMap.get, hd] at hp
    | cons e l ih =>
      obtain ⟨j, v⟩ := e
      unfold SMap.get SMap.set
      by_cases before : k < j
      · simp only [before, if_true, hd]
        exact same _
      · by_cases here : k = j
        · subst here
          simp only [before, if_false, if_true]
          split
          · exact fun p hp => ⟨p, List.mem_cons_of_mem _ (dropped k l p hp), rfl, rfl⟩
          · intro p hp
            rcases List.mem_cons.1 hp with rfl | hp
            · exact ⟨(k, v), List.mem_cons_self .., rfl, hf k v⟩
            · exact ⟨p, List.mem_cons_of_mem _ hp, rfl, rfl⟩
        · simp only [before, here, if_false]
          intro p hp
          rcases List.mem_cons.1 hp with rfl | hp
          · exact ⟨(j, v), List.mem_cons_self .., rfl, rfl⟩
          · obtain ⟨q, hq, e⟩ := ih p hp
            exact ⟨q, List.mem_cons_of_mem _ hq, e⟩
  unfold SMap.mapV at h
  generalize SMap.keys m = ks at h
  induction ks generalizing m with
  | nil => exact ⟨p, h, rfl, rfl⟩
  | cons k ks ih =>
    obtain ⟨q, hq, key, val⟩ := ih h
    obtain ⟨r, hr, key', val'⟩ := updated k m q hq
    exact ⟨r, hr, key.trans key', val.trans val'⟩

/-- Every context's epoch in `t` is one that the context has in `s`, with the same staging region. -/
def EpochsOf (s t : State) : Prop :=
  ∀ p ∈ t.sgC, ∃ q ∈ s.sgC, p.1 = q.1 ∧ p.2.epoch = q.2.epoch ∧ p.2.stageBase = q.2.stageBase

theorem EpochsOf.refl (s : State) : EpochsOf s s := fun p h => ⟨p, h, rfl, rfl, rfl⟩

theorem EpochsOf.of_sgC {s t : State} (h : t.sgC = s.sgC) : EpochsOf s t := fun p hp => ⟨p, h ▸ hp, rfl, rfl, rfl⟩

theorem EpochsOf.trans {s t u : State} (h : EpochsOf s t) (k : EpochsOf t u) : EpochsOf s u := by
  intro p hp
  obtain ⟨q, hq, key, epoch, base⟩ := k p hp
  obtain ⟨r, hr, key', epoch', base'⟩ := h q hq
  exact ⟨r, hr, key.trans key', epoch.trans epoch', base.trans base'⟩

theorem dirtied_keeps (x : SgCtx) (gs : List Nat) : ((x.dirtied gs).epoch, (x.dirtied gs).stageBase) = (x.epoch, x.stageBase) := by
  unfold SgCtx.dirtied
  split <;> rfl

theorem noteWrite_epochs (s : State) (a n : Nat) : EpochsOf s (s.noteWrite a n) := by
  intro p hp
  obtain ⟨q, hq, key, kept⟩ := SMap.mem_mapV_keeps (fun x : SgCtx => (x.epoch, x.stageBase))
    (fun _ x => dirtied_keeps x (granulesOf a n)) (fun _ => rfl) hp
  exact ⟨q, hq, key, congrArg Prod.fst kept, congrArg Prod.snd kept⟩

/-- What nothing guards, no epoch of these guards. -/
theorem EpochsOf.guarded {s t : State} (h : EpochsOf s t) (scrub : t.sg.scrub = s.sg.scrub) (st : t.st = s.st) {a n : Nat}
    (open_ : s.guarded a n = false) : t.guarded a n = false := by
  unfold State.guarded State.protectedPage State.svcHolds at *
  rw [List.any_eq_false] at *
  intro g hg
  have free := open_ g hg
  rw [scrub, st]
  simp only [Bool.or_eq_true, not_or, List.any_eq_true, not_exists, not_and] at free ⊢
  obtain ⟨scrubbed, epochs, svc⟩ := free
  refine ⟨scrubbed, fun p hp => ?_, svc⟩
  obtain ⟨q, hq, -, epoch, -⟩ := h p hp
  rw [epoch]
  exact epochs q hq

/-- What no epoch moves, none of these moves. -/
theorem EpochsOf.moving {s t : State} (h : EpochsOf s t) {g : Nat} {r : Option CtxId} (still : s.moving g r = none) :
    t.moving g r = none := by
  unfold State.moving at *
  rw [List.findSome?_eq_none_iff] at *
  intro p hp
  obtain ⟨q, hq, key, epoch, base⟩ := h p hp
  rw [key, epoch, base]
  exact still q hq

/-! ### Errors that a read meets (R271; log 28) -/

theorem meetUe_none {s : State} {l : List (Nat × Nat)} (clean : ∀ r ∈ l, s.ueMeets r.1 r.2 = false) : s.meetUe l = none := by
  unfold State.meetUe
  rw [List.find?_eq_none.2, Option.map_none]
  intro u hu
  obtain ⟨r, hr, hit⟩ := List.mem_flatMap.1 hu
  exact List.any_eq_false.1 (clean r hr) u hit

/-- An error in a page of context `c` that no epoch moves and that is not FROZEN strikes the context. -/
theorem ueHbm_owner {s : State} {c : CtxId} {u : Nat} (owner : s.ownerOf u = some c) (still : s.moving (u / 65536) none = none)
    (thawed : bit (s.page (u / 65536)) 13 = false) : s.ueHbm u none = s.ueHit (some c) (BitVec.ofNat 64 u) := by
  unfold State.ueHbm
  simp only [owner, still, thawed, Bool.false_and, Bool.false_eq_true, if_false]

theorem ueHit_faultedAt {s : State} {c : CtxId} (u : Nat) (alive : (s.ctx c.toNat).st.alive) :
    FaultedAt s (s.ueHit (some c) (BitVec.ofNat 64 u)) c 0x0501 u := by
  have only := alarm0_only s pgStrong 3 (some c.toNat)
  have alive' : ((s.alarm0 pgStrong 3 (some c.toNat)).ctx c.toNat).st.alive := by rw [only.ctx]; exact alive
  obtain ⟨r, rec, -, kind, code, -, detail⟩ := faultCtx_record _ c 0x0501 (BitVec.ofNat 64 u) 0 0xFFFF false alive'
  exact ⟨.after_alarm only (faultCtx_faulted _ c _ _ _ _ _ alive'), r, rec, kind, code, detail⟩

/-- The first error that a read of the device's own meets, in pages of context `c` where it is not mended: MEM_UE of the
context. -/
theorem meetUe_strikes {s : State} {c : CtxId} {l : List (Nat × Nat)} (hit : ∃ r ∈ l, s.ueMeets r.1 r.2 = true)
    (own : ∀ r ∈ l, ∀ u ∈ s.ueIn r.1 r.2,
      s.ownerOf u = some c ∧ s.moving (u / 65536) none = none ∧ bit (s.page (u / 65536)) 13 = false) :
    ∃ u, s.meetUe l = some (s.ueHit (some c) (BitVec.ofNat 64 u)) ∧ s.ueMeets u 1 = true := by
  unfold State.meetUe
  cases found : (l.flatMap fun r => s.ueIn r.1 r.2).find? fun u => !s.refetchable (u / 65536) with
  | none =>
    obtain ⟨r, hr, meets⟩ := hit
    obtain ⟨u, hu, bad⟩ := List.any_eq_true.1 meets
    exact absurd bad (List.find?_eq_none.1 found u (List.mem_flatMap.2 ⟨r, hr, hu⟩))
  | some u =>
    obtain ⟨r, hr, hu⟩ := List.mem_flatMap.1 (List.mem_of_find?_eq_some found)
    obtain ⟨owner, still, thawed⟩ := own r hr u hu
    have bad := List.find?_some found
    refine ⟨u, congrArg some (ueHbm_owner owner still thawed), List.any_eq_true.2 ⟨u, ?_, bad⟩⟩
    exact List.mem_filter.2 ⟨(List.mem_filter.1 hu).1, by simp⟩

theorem ueHit_census {s : State} (c : CtxId) (a : W64) : (s.ueHit (some c) a).census = s.census := by
  have alarmed {s t : State} (h : AlarmOnly s t) : t.census = s.census := by unfold AlarmOnly at h; rw [h]
  refine Eq.trans ?_ (alarmed (alarm0_only s pgStrong 3 (some c.toNat)))
  by_cases alive : ((s.alarm0 pgStrong 3 (some c.toNat)).ctx c.toNat).st.alive
  · obtain ⟨r, only⟩ := faultCtx_eq (s.alarm0 pgStrong 3 (some c.toNat)) c 0x0501 a 0 0xFFFF false alive
    refine (alarmed only).trans ?_
    rw [State.modCtx_census, stopCtx_only]
  · exact congrArg State.census (faultCtx_idle _ c 0x0501 a 0 0xFFFF false alive)

end Sys2Proof.Machine
end
section
/-! SUPPORT. Spills of the Census: what one add does to the context's area, the 32 counters of a context and class, every counter
of a context, and the adds that wait (R135 to R137, R266, R271; log 101). -/

namespace Sys2Proof.Machine

/-! ### What spills leave alone -/

/-- From `s` to `t` counters of context `c` are spilled: bytes of its area change, and adds to the area join those that wait. -/
def Spilled (c : Nat) (s t : State) : Prop :=
  Reports c s t ∧ EpochsOf s t ∧ t.sg.ueAt = s.sg.ueAt ∧ (∀ r ∈ s.sg.adds, r ∈ t.sg.adds)
    ∧ ∀ r ∈ t.sg.adds, r ∈ s.sg.adds ∨ (r.1 = c ∧ (s.nums c).censusBase ≠ 0
      ∧ (s.nums c).censusBase.toNat ≤ r.2.1 ∧ r.2.1 + 8 ≤ (s.nums c).censusBase.toNat + 4096)

theorem Spilled.refl (c : Nat) (s : State) : Spilled c s s := ⟨.refl c s, .refl s, rfl, fun _ h => h, fun _ h => .inl h⟩

theorem Spilled.trans {c : Nat} {s t u : State} (h : Spilled c s t) (k : Spilled c t u) : Spilled c s u := by
  obtain ⟨reports, epochs, ues, kept, adds⟩ := h
  obtain ⟨reports', epochs', ues', kept', adds'⟩ := k
  refine ⟨reports.trans reports', epochs.trans epochs', ues'.trans ues, fun r hr => kept' r (kept r hr), fun r hr => ?_⟩
  rw [reports.nums] at adds'
  exact (adds' r hr).elim (adds r) .inr

theorem Spilled.of_census (c : Nat) (s : State) (m : SMap W32) : Spilled c s { s with census := m } :=
  ⟨.of_census c s m, .refl s, rfl, fun _ h => h, fun _ h => .inl h⟩

section
variable {c : Nat} {s t : State} (h : Spilled c s t)
include h

theorem Spilled.frame :
    t = { s with census := t.census, hbm := t.hbm, sgC := t.sgC, sg := { s.sg with ueAt := t.sg.ueAt, adds := t.sg.adds } } := h.1.frame
theorem Spilled.nums (d : Nat) : t.nums d = s.nums d := h.1.nums d
theorem Spilled.ctx (d : Nat) : t.ctx d = s.ctx d := h.1.dataOnly.ctx d

theorem Spilled.guarded {a n : Nat} (open_ : s.guarded a n = false) : t.guarded a n = false :=
  h.2.1.guarded (by rw [h.frame]) (by rw [h.frame]) open_

theorem Spilled.hbmCheck (e a n : Nat) (own : Bool) : t.hbmCheck e a n true own = s.hbmCheck e a n true own := by rw [h.frame]; rfl

theorem Spilled.ueIn (a n : Nat) : t.ueIn a n = s.ueIn a n := congrArg (List.filter _) h.2.2.1

theorem Spilled.moving {g : Nat} {r : Option CtxId} (still : s.moving g r = none) : t.moving g r = none := h.2.1.moving still
theorem Spilled.page (g : Nat) : t.page g = s.page g := by rw [h.frame]; rfl
theorem Spilled.ownerOf (u : Nat) : t.ownerOf u = s.ownerOf u := by rw [h.frame]; rfl

end

/-! ### One add (R137) -/

/-- Counter `i` of the 32 of context `c` and class `cls` has this word of the area at `b` (Table NU.8). -/
def censusWord (b cls i : Nat) : Nat := b + 256 * cls + 8 * i

theorem censusWord_of_counter (b cls fmt k : Nat) : b + 256 * cls + 32 * fmt + 8 * k = censusWord b cls (4 * fmt + k) := by
  unfold censusWord; omega

theorem censusWord_in_area {b cls i : Nat} (hc : cls < 16) (hi : i < 32) : b ≤ censusWord b cls i ∧ censusWord b cls i + 8 ≤ b + 4096 := by
  unfold censusWord; omega

/-- A word takes an add at once: it may be written, nothing guards it, and no byte of it is in error. -/
def State.addReady (s : State) (c a : Nat) : Prop := s.hbmCheck c a 8 true false = none ∧ s.guarded a 8 = false ∧ s.ueIn a 8 = []

/-- An add to a word of the context that is not ready waits. -/
def State.addHeld (s : State) (c a : Nat) : Prop :=
  s.hbmCheck c a 8 true false = none ∧ (s.guarded a 8 = true ∨ s.ueIn a 8 ≠ [])

theorem censusAdd_ready {s : State} {c a : Nat} (h : s.addReady c a) (n : Nat) :
    s.censusAdd c a n = s.hbmWrite a (leBytes 8 (Mem.readN s.hbm a 8 + n)) := by
  obtain ⟨allowed, open_, clean⟩ := h
  simp [State.censusAdd, allowed, open_, clean]

theorem censusAdd_held {s : State} {c a : Nat} (h : s.addHeld c a) (n : Nat) :
    s.censusAdd c a n = { s with sg := { s.sg with adds := s.sg.adds ++ [(c, a, n)] } } := by
  obtain ⟨allowed, guarded | struck⟩ := h
  · simp [State.censusAdd, allowed, guarded]
  · simp [State.censusAdd, allowed, struck]

/-- On a page that the context may not write, an add has no effect (R274). -/
theorem censusAdd_refused {s : State} {c a : Nat} (h : s.hbmCheck c a 8 true false ≠ none) (n : Nat) : s.censusAdd c a n = s := by
  unfold State.censusAdd
  rw [if_pos (Option.isSome_iff_ne_none.2 h)]

theorem censusAdd_cases (s : State) (c a : Nat) : s.addReady c a ∨ s.addHeld c a ∨ s.hbmCheck c a 8 true false ≠ none := by
  unfold State.addReady State.addHeld
  by_cases allowed : s.hbmCheck c a 8 true false = none
  · by_cases open_ : s.guarded a 8 = false
    · by_cases clean : s.ueIn a 8 = []
      · exact .inl ⟨allowed, open_, clean⟩
      · exact .inr (.inl ⟨allowed, .inr clean⟩)
    · exact .inr (.inl ⟨allowed, .inl (by simpa using open_)⟩)
  · exact .inr (.inr allowed)

/-- A write of bytes none of which is in error leaves the errors as they are. -/
theorem noteWrite_ueAt {s : State} {a n : Nat} (clean : s.ueIn a n = []) : (s.noteWrite a n).sg.ueAt = s.sg.ueAt := by
  refine List.filter_eq_self.2 fun u hu => ?_
  have out := List.filter_eq_nil_iff.1 clean u hu
  simp at out ⊢
  omega

theorem spillInto_spilled (s : State) {c cls fmt k : Nat} (n : Nat) (hc : cls < 16) (hf : fmt < 8) (hk : k < 4) :
    Spilled c s (s.spillInto c cls fmt k n) := by
  refine ⟨spillInto_reports s n hc hf hk, ?_⟩
  unfold State.spillInto
  dsimp only
  split
  case isTrue => exact (Spilled.refl c s).2
  case isFalse area =>
    have base : (s.nums c).censusBase ≠ 0 := fun z => area (.inl (by rw [z]; rfl))
    rcases censusAdd_cases s c ((s.nums c).censusBase.toNat + 256 * cls + 32 * fmt + 8 * k) with ready | held | refused
    · rw [censusAdd_ready ready]
      exact ⟨noteWrite_epochs _ _ _, noteWrite_ueAt (by rw [leBytes_length]; exact ready.2.2), fun _ h => h, fun _ h => .inl h⟩
    · rw [censusAdd_held held]
      refine ⟨.refl s, rfl, fun r hr => List.mem_append_left _ hr, fun r hr => ?_⟩
      rcases List.mem_append.1 hr with hr | hr
      · exact .inl hr
      · rw [List.mem_singleton.1 hr]
        exact .inr ⟨rfl, base, by dsimp only; omega, by dsimp only; omega⟩
    · rw [censusAdd_refused refused]
      exact (Spilled.refl c s).2

theorem spillOne_spilled (s : State) (d : Nat) {c cls fmt k : Nat} (hc : cls < 16) (hf : fmt < 8) (hk : k < 4) :
    Spilled c s (s.spillOne d c cls fmt k) := (spillInto_spilled s _ hc hf hk).trans (.of_census c _ _)

theorem spillAll_spilled (s : State) (c : Nat) : Spilled c s (s.spillAll c) := by
  refine foldl_rel (.refl c) .trans (fun s k _ => ?_) s
  split
  · exact spillOne_spilled s _ (Nat.mod_lt _ (by decide)) (Nat.mod_lt _ (by decide)) (Nat.mod_lt _ (by decide))
  · exact .refl c s

theorem spillInto_census (s : State) (c cls fmt k n : Nat) : (s.spillInto c cls fmt k n).census = s.census := by
  unfold State.spillInto
  dsimp only
  split
  · rfl
  · rcases censusAdd_cases s c ((s.nums c).censusBase.toNat + 256 * cls + 32 * fmt + 8 * k) with ready | held | refused
    · rw [censusAdd_ready ready]; rfl
    · rw [censusAdd_held held]
    · rw [censusAdd_refused refused]

/-- The counter that is spilled is 0 afterwards, and no other changes. -/
theorem spillOne_census (s : State) (d c cls fmt k j : Nat) : SMap.get 0 (s.spillOne d c cls fmt k).census j =
    if j = censusKey d c cls fmt k then 0 else SMap.get 0 s.census j := by
  unfold State.spillOne
  dsimp only
  rw [SMap.get_set, spillInto_census]

/-! ### Every counter of a context (R131, R137) -/

/-- A counter's key tells its die, context, class, format and place. -/
theorem censusKey_parts {k c : Nat} (own : k / 512 % 4096 = c) :
    censusKey (k / 512 / 4096) c (k / 32 % 16) (k / 4 % 8) (k % 4) = k := by
  unfold censusKey; omega

theorem spillAll_census (s : State) (c j : Nat) :
    SMap.get 0 (s.spillAll c).census j = if j / 512 % 4096 = c then 0 else SMap.get 0 s.census j := by
  have fold (l : List Nat) (s : State) : SMap.get 0 (l.foldl (fun s k =>
      if k / 512 % 4096 = c && true then s.spillOne (k / 512 / 4096) c (k / 32 % 16) (k / 4 % 8) (k % 4) else s) s).census j
      = if j ∈ l ∧ j / 512 % 4096 = c then 0 else SMap.get 0 s.census j := by
    induction l generalizing s with
    | nil => simp
    | cons k l ih =>
      rw [List.foldl_cons, ih]
      by_cases own : k / 512 % 4096 = c
      · have step : (if (decide (k / 512 % 4096 = c) && true) = true
            then s.spillOne (k / 512 / 4096) c (k / 32 % 16) (k / 4 % 8) (k % 4) else s)
            = s.spillOne (k / 512 / 4096) c (k / 32 % 16) (k / 4 % 8) (k % 4) := if_pos (by simp [own])
        rw [step, spillOne_census, censusKey_parts own]
        by_cases same : j = k
        · subst same; simp [own]
        · simp [same]
      · have other : j = k → ¬j / 512 % 4096 = c := fun same => same ▸ own
        simp only [own, decide_false, Bool.false_and, Bool.false_eq_true, if_false, List.mem_cons]
        exact if_congr ⟨fun ⟨m, e⟩ => ⟨.inr m, e⟩, fun ⟨m, e⟩ => ⟨m.resolve_left fun same => other same e, e⟩⟩ rfl rfl
  refine (fold _ s).trans ?_
  by_cases own : j / 512 % 4096 = c
  · by_cases listed : j ∈ s.census.map Prod.fst
    · rw [if_pos ⟨listed, own⟩, if_pos own]
    · rw [if_neg fun h => listed h.1, if_pos own]
      refine SMap.get_unlisted _ fun key => listed ?_
      obtain ⟨v, hv⟩ := SMap.mem_keys.1 key
      exact List.mem_map.2 ⟨_, hv, rfl⟩
  · rw [if_neg fun h => own h.2, if_neg own]

/-! ### Adds that wait meet errors, or none (R271; log 101) -/

/-- Where no add of the context meets an error, nothing happens. -/
theorem meetAdds_clean {s : State} {c : Nat} (clean : ∀ r ∈ s.sg.adds, r.1 = c → s.ueMeets r.2.1 8 = false) : s.meetAdds c = s := by
  unfold State.meetAdds
  rw [meetUe_none, Option.getD_none]
  intro r hr
  obtain ⟨a, ha, rfl⟩ := List.mem_map.1 hr
  obtain ⟨waits, own⟩ := List.mem_filter.1 ha
  exact clean a waits (of_decide_eq_true own)

theorem ueMeets_of_clean {s : State} {a n : Nat} (clean : s.ueIn a n = []) : s.ueMeets a n = false := by
  unfold State.ueMeets; rw [clean]; rfl

/-- Where one does, in the context's own pages, the context faults. -/
theorem meetAdds_strikes {s : State} {c : CtxId} (hit : ∃ r ∈ s.sg.adds, r.1 = c.toNat ∧ s.ueMeets r.2.1 8 = true)
    (own : ∀ r ∈ s.sg.adds, r.1 = c.toNat → ∀ u ∈ s.ueIn r.2.1 8,
      s.ownerOf u = some c ∧ s.moving (u / 65536) none = none ∧ bit (s.page (u / 65536)) 13 = false) :
    ∃ u, s.meetAdds c.toNat = s.ueHit (some c) (BitVec.ofNat 64 u) ∧ s.ueMeets u 1 = true := by
  obtain ⟨r, waits, mine, meets⟩ := hit
  obtain ⟨u, struck, unmended⟩ := meetUe_strikes (s := s) (c := c)
    (l := (s.sg.adds.filter (·.1 = c.toNat)).map fun r => (r.2.1, 8))
    ⟨_, List.mem_map.2 ⟨r, List.mem_filter.2 ⟨waits, decide_eq_true mine⟩, rfl⟩, meets⟩ fun q hq => by
      obtain ⟨a, ha, rfl⟩ := List.mem_map.1 hq
      obtain ⟨waits, mine⟩ := List.mem_filter.1 ha
      exact own a waits (of_decide_eq_true mine)
  refine ⟨u, ?_, unmended⟩
  unfold State.meetAdds
  rw [struck, Option.getD_some]

/-- Errors lie outside the area and outside the words that adds of the context wait for. -/
def State.addsClean (s : State) (c : Nat) : Prop :=
  ((s.nums c).censusBase ≠ 0 → s.ueIn (s.nums c).censusBase.toNat 4096 = []) ∧ ∀ r ∈ s.sg.adds, r.1 = c → s.ueIn r.2.1 8 = []

theorem ueIn_within {s : State} {a n b m : Nat} (low : b ≤ a) (high : a + n ≤ b + m) {u : Nat} (h : u ∈ s.ueIn a n) : u ∈ s.ueIn b m := by
  obtain ⟨at_, range⟩ := List.mem_filter.1 h
  simp only [Bool.and_eq_true, decide_eq_true_eq] at range
  exact List.mem_filter.2 ⟨at_, by simp; omega⟩

theorem ueIn_within_nil {s : State} {a n b m : Nat} (low : b ≤ a) (high : a + n ≤ b + m) (h : s.ueIn b m = []) : s.ueIn a n = [] :=
  List.eq_nil_iff_forall_not_mem.2 fun u hu => by
    have := ueIn_within low high hu
    rw [h] at this
    cases this

/-- Spills of a context without such errors meet none. -/
theorem Spilled.meets_none {c : Nat} {s t : State} (h : Spilled c s t) (clean : s.addsClean c) : t.meetAdds c = t := by
  obtain ⟨area, waiting⟩ := clean
  refine meetAdds_clean fun r hr mine => ueMeets_of_clean ?_
  rw [h.ueIn]
  rcases h.2.2.2.2 r hr with old | ⟨-, base, low, high⟩
  · exact waiting r old mine
  · exact ueIn_within_nil low high (area base)

end Sys2Proof.Machine
end
section
/-! SUPPORT. The counters of one context and class spilled (R137), and the statement on the Census (O47). -/

namespace Sys2Proof.Machine

/-! ### The 32 counters of a context and class (Table NU.8) -/

/-- The word of the area that counter `i` of context `c` and class `cls` is added to. -/
def State.word (s : State) (c cls i : Nat) : Nat := censusWord (s.nums c).censusBase.toNat cls i

/-- Counter `i` of a context and class on a die. -/
def State.counter (s : State) (d c cls i : Nat) : Nat := (SMap.get 0 s.census (censusKey d c cls (i / 4) (i % 4))).toNat

/-- The first `n` counters of a context and class are spilled. -/
def State.spillFirst (s : State) (d c cls n : Nat) : State := (List.range n).foldl (fun s i => s.spillOne d c cls (i / 4) (i % 4)) s

section
variable (s : State) (d : Nat) {c cls : Nat} (hc : cls < 16)

theorem spillPair_eq : s.spillPair d c cls = s.spillFirst d c cls 32 := rfl

theorem spillFirst_succ (n : Nat) :
    s.spillFirst d c cls (n + 1) = (s.spillFirst d c cls n).spillOne d c cls (n / 4) (n % 4) := by
  unfold State.spillFirst
  rw [List.range_succ, List.foldl_append]
  rfl

include hc in
theorem spillFirst_spilled {n : Nat} (hn : n ≤ 32) : Spilled c s (s.spillFirst d c cls n) := by
  refine foldl_rel (.refl c) .trans (fun s i hi => spillOne_spilled s d hc ?_ (Nat.mod_lt _ (by decide))) s
  have := List.mem_range.1 hi
  omega

include hc in
theorem spillFirst_word {n : Nat} (hn : n ≤ 32) (i : Nat) : (s.spillFirst d c cls n).word c cls i = s.word c cls i := by
  unfold State.word
  rw [(spillFirst_spilled s d hc hn).nums]

/-- The keys of a class's counters follow each other. -/
theorem censusKey_counter (i : Nat) : censusKey d c cls (i / 4) (i % 4) = censusKey d c cls 0 0 + i := by
  unfold censusKey; omega

theorem spillFirst_census (n j : Nat) : SMap.get 0 (s.spillFirst d c cls n).census j =
    if censusKey d c cls 0 0 ≤ j ∧ j < censusKey d c cls 0 0 + n then 0 else SMap.get 0 s.census j := by
  induction n with
  | zero => rw [if_neg (by omega)]; rfl
  | succ n ih =>
    rw [spillFirst_succ, spillOne_census, ih, censusKey_counter]
    split
    · rw [if_pos (by omega)]
    · exact if_congr (by omega) rfl rfl

/-- A counter that has not been spilled yet stands as before. -/
theorem spillFirst_counter {n i : Nat} (later : n ≤ i) : (s.spillFirst d c cls n).counter d c cls i = s.counter d c cls i := by
  unfold State.counter
  rw [spillFirst_census, censusKey_counter, if_neg (by omega)]

/-- A counter is added to its word, where there is an area and it is not 0. -/
def State.addCounter (c cls i : Nat) : State :=
  if (s.nums c).censusBase.toNat = 0 ∨ s.counter d c cls i = 0 then s else s.censusAdd c (s.word c cls i) (s.counter d c cls i)

theorem spillOne_adds (i : Nat) : s.spillOne d c cls (i / 4) (i % 4) = { s.addCounter d c cls i with
    census := SMap.set 0 (s.addCounter d c cls i).census (censusKey d c cls (i / 4) (i % 4)) 0 } := by
  have word : (s.nums c).censusBase.toNat + 256 * cls + 32 * (i / 4) + 8 * (i % 4) = s.word c cls i := by
    unfold State.word censusWord; omega
  unfold State.addCounter
  rw [← word]
  rfl

theorem addCounter_but (i : Nat) : BytesBut (s.word c cls i) 8 s.hbm (s.addCounter d c cls i).hbm := by
  unfold State.addCounter
  split
  · exact .refl _ _ _
  · rcases censusAdd_cases s c (s.word c cls i) with ready | held | refused
    · rw [censusAdd_ready ready]
      have but := hbmWrite_but s (s.word c cls i) (leBytes 8 (Mem.readN s.hbm (s.word c cls i) 8 + s.counter d c cls i))
      rwa [leBytes_length] at but
    · rw [censusAdd_held held]; exact .refl _ _ _
    · rw [censusAdd_refused refused]; exact .refl _ _ _

theorem spillOne_but (i : Nat) : BytesBut (s.word c cls i) 8 s.hbm (s.spillOne d c cls (i / 4) (i % 4)).hbm := by
  rw [spillOne_adds]
  exact addCounter_but s d i

section
variable {i : Nat} (base : (s.nums c).censusBase.toNat ≠ 0)
include base

/-- A word that is ready has its counter added, modulo 2^64. -/
theorem addCounter_ready (ready : s.addReady c (s.word c cls i)) : (s.addCounter d c cls i).hbm.readN (s.word c cls i) 8
    = (s.hbm.readN (s.word c cls i) 8 + s.counter d c cls i) % 256 ^ 8 := by
  unfold State.addCounter
  by_cases none : s.counter d c cls i = 0
  · rw [if_pos (.inr none), none, Nat.add_zero, Nat.mod_eq_of_lt (Mem.readN_lt _ _ _)]
  · rw [if_neg (not_or.2 ⟨base, none⟩), censusAdd_ready ready, hbmWrite_hbm, Mem.readN_writeBytes_leBytes]

theorem spillOne_ready (ready : s.addReady c (s.word c cls i)) :
    (s.spillOne d c cls (i / 4) (i % 4)).hbm.readN (s.word c cls i) 8
      = (s.hbm.readN (s.word c cls i) 8 + s.counter d c cls i) % 256 ^ 8 := by
  rw [spillOne_adds]
  exact addCounter_ready s d base ready

/-- A word that is not ready stays as it is, and a counter that is not 0 waits. -/
theorem addCounter_held (held : s.addHeld c (s.word c cls i)) :
    (s.addCounter d c cls i).hbm = s.hbm ∧ (s.addCounter d c cls i).sgC = s.sgC
      ∧ (s.counter d c cls i ≠ 0 → (c, s.word c cls i, s.counter d c cls i) ∈ (s.addCounter d c cls i).sg.adds) := by
  unfold State.addCounter
  by_cases none : s.counter d c cls i = 0
  · rw [if_pos (.inr none)]
    exact ⟨rfl, rfl, fun some => absurd none some⟩
  · rw [if_neg (not_or.2 ⟨base, none⟩), censusAdd_held held]
    exact ⟨rfl, rfl, fun _ => List.mem_append_right _ (List.mem_singleton_self _)⟩

theorem spillOne_held (held : s.addHeld c (s.word c cls i)) :
    (s.spillOne d c cls (i / 4) (i % 4)).hbm = s.hbm ∧ (s.spillOne d c cls (i / 4) (i % 4)).sgC = s.sgC
      ∧ (s.counter d c cls i ≠ 0 →
        (c, s.word c cls i, s.counter d c cls i) ∈ (s.spillOne d c cls (i / 4) (i % 4)).sg.adds) := by
  rw [spillOne_adds]
  exact addCounter_held s d base held

end

theorem spillFirst_of_base_zero (zero : (s.nums c).censusBase.toNat = 0) (hc : cls < 16) {n : Nat} (hn : n ≤ 32) :
    (s.spillFirst d c cls n).hbm = s.hbm :=
  (spillFirst_spilled s d hc hn).1.2.2 (BitVec.eq_of_toNat_eq zero)

include hc in
/-- Only the words of the counters spilled change. -/
theorem spillFirst_but {n : Nat} (hn : n ≤ 32) : BytesBut (s.word c cls 0) (8 * n) s.hbm (s.spillFirst d c cls n).hbm := by
  induction n with
  | zero => exact .refl _ _ _
  | succ n ih =>
    intro a out
    have step := spillOne_but (s.spillFirst d c cls n) d (c := c) (cls := cls) n
    rw [spillFirst_word s d hc (by omega)] at step
    rw [spillFirst_succ]
    have place : s.word c cls n = s.word c cls 0 + 8 * n := by unfold State.word censusWord; omega
    rw [step a (by omega), ih (by omega) a (by omega)]

include hc in
/-- A word whose counter is still to come reads as before. -/
theorem spillFirst_later {n i : Nat} (hn : n ≤ 32) (later : n ≤ i) :
    (s.spillFirst d c cls n).hbm.readN (s.word c cls i) 8 = s.hbm.readN (s.word c cls i) 8 := by
  refine Mem.readN_congr fun a low high => spillFirst_but s d hc hn a ?_
  have place : s.word c cls i = s.word c cls 0 + 8 * i := by unfold State.word censusWord; omega
  omega

include hc in
/-- A word whose counter has been spilled stays while the next one is. -/
theorem spillFirst_earlier {n i : Nat} (hn : n + 1 ≤ 32) (earlier : i < n) :
    (s.spillFirst d c cls (n + 1)).hbm.readN (s.word c cls i) 8 = (s.spillFirst d c cls n).hbm.readN (s.word c cls i) 8 := by
  rw [spillFirst_succ]
  have step := spillOne_but (s.spillFirst d c cls n) d (c := c) (cls := cls) n
  rw [spillFirst_word s d hc (by omega)] at step
  refine Mem.readN_congr fun a low high => step a ?_
  unfold State.word censusWord at *
  omega

section
variable (base : (s.nums c).censusBase.toNat ≠ 0) (area : s.hbmCheck c (s.nums c).censusBase.toNat 4096 true false = none)
include hc area

theorem word_allowed {i : Nat} (hi : i < 32) : s.hbmCheck c (s.word c cls i) 8 true false = none :=
  hbmCheck_within (censusWord_in_area hc hi).1 (censusWord_in_area hc hi).2 area

include base

/-- Every word of an area that is open and free of errors has its counter added. -/
theorem spillFirst_ready (open_ : s.guarded (s.nums c).censusBase.toNat 4096 = false)
    (clean : s.ueIn (s.nums c).censusBase.toNat 4096 = []) {n i : Nat} (hn : n ≤ 32) (hi : i < n) :
    (s.spillFirst d c cls n).hbm.readN (s.word c cls i) 8 = (s.hbm.readN (s.word c cls i) 8 + s.counter d c cls i) % 256 ^ 8 := by
  induction n with
  | zero => omega
  | succ n ih =>
    by_cases earlier : i < n
    · rw [spillFirst_earlier s d hc hn earlier]
      exact ih (by omega) earlier
    · have now : i = n := by omega
      subst now
      have spilled := spillFirst_spilled s d (c := c) hc (n := i) (by omega)
      have word := spillFirst_word s d (c := c) hc (n := i) (by omega) i
      obtain ⟨low, high⟩ := censusWord_in_area (b := (s.nums c).censusBase.toNat) hc (i := i) (by omega)
      have step := spillOne_ready (s.spillFirst d c cls i) d (c := c) (cls := cls) (i := i) (by rwa [spilled.nums]) (by
        rw [word]
        exact ⟨(spilled.hbmCheck _ _ _ _).trans (word_allowed s hc area (by omega)), spilled.guarded (guarded_within low high open_),
          (spilled.ueIn _ _).trans (ueIn_within_nil low high clean)⟩)
      rw [word, spillFirst_counter s d (Nat.le_refl i), spillFirst_later s d hc (by omega) (Nat.le_refl i)] at step
      rw [spillFirst_succ]
      exact step

/-- A word in error keeps its value, and its counter waits (R271). -/
theorem spillFirst_struck {n i : Nat} (hn : n ≤ 32) (hi : i < n) (struck : s.ueIn (s.word c cls i) 8 ≠ []) :
    (s.spillFirst d c cls n).hbm.readN (s.word c cls i) 8 = s.hbm.readN (s.word c cls i) 8
      ∧ (s.counter d c cls i ≠ 0 → (c, s.word c cls i, s.counter d c cls i) ∈ (s.spillFirst d c cls n).sg.adds) := by
  induction n with
  | zero => omega
  | succ n ih =>
    by_cases earlier : i < n
    · obtain ⟨same, waits⟩ := ih (by omega) earlier
      rw [spillFirst_earlier s d hc hn earlier]
      refine ⟨same, fun some => ?_⟩
      rw [spillFirst_succ]
      exact (spillOne_spilled _ d hc (by omega) (Nat.mod_lt _ (by decide))).2.2.2.1 _ (waits some)
    · have now : i = n := by omega
      subst now
      have spilled := spillFirst_spilled s d (c := c) hc (n := i) (by omega)
      have word := spillFirst_word s d (c := c) hc (n := i) (by omega) i
      obtain ⟨bytes, -, waits⟩ := spillOne_held (s.spillFirst d c cls i) d (c := c) (cls := cls) (i := i) (by rwa [spilled.nums]) (by
        rw [word]
        exact ⟨(spilled.hbmCheck _ _ _ _).trans (word_allowed s hc area (by omega)), .inr (by rwa [spilled.ueIn])⟩)
      rw [word, spillFirst_counter s d (Nat.le_refl i)] at waits
      rw [spillFirst_succ, bytes]
      exact ⟨spillFirst_later s d hc (by omega) (Nat.le_refl i), waits⟩

/-- Where every word is guarded, every counter waits and no byte changes (R266). -/
theorem spillFirst_guarded (guarded : ∀ i < 32, s.guarded (s.word c cls i) 8 = true) {n : Nat} (hn : n ≤ 32) :
    (s.spillFirst d c cls n).hbm = s.hbm ∧ (s.spillFirst d c cls n).sgC = s.sgC
      ∧ ∀ i < n, s.counter d c cls i ≠ 0 → (c, s.word c cls i, s.counter d c cls i) ∈ (s.spillFirst d c cls n).sg.adds := by
  induction n with
  | zero => exact ⟨rfl, rfl, fun i hi => absurd hi (Nat.not_lt_zero i)⟩
  | succ n ih =>
    obtain ⟨bytes, epochs, waits⟩ := ih (by omega)
    have spilled := spillFirst_spilled s d (c := c) hc (n := n) (by omega)
    have word := spillFirst_word s d (c := c) hc (n := n) (by omega) n
    have still : (s.spillFirst d c cls n).guarded (s.word c cls n) 8 = true := by
      rw [← guarded n (by omega), spilled.frame, epochs]
      rfl
    obtain ⟨bytes', epochs', now⟩ := spillOne_held (s.spillFirst d c cls n) d (c := c) (cls := cls) (i := n) (by rwa [spilled.nums]) (by
      rw [word]
      exact ⟨(spilled.hbmCheck _ _ _ _).trans (word_allowed s hc area (by omega)), .inl still⟩)
    rw [word, spillFirst_counter s d (Nat.le_refl n)] at now
    rw [spillFirst_succ]
    refine ⟨bytes'.trans bytes, epochs'.trans epochs, fun i hi some => ?_⟩
    by_cases earlier : i < n
    · exact (spillOne_spilled _ d hc (by omega) (Nat.mod_lt _ (by decide))).2.2.2.1 _ (waits i earlier some)
    · have last : i = n := by omega
      subst last
      exact now some

end

end

end Sys2Proof.Machine
end
section
/-! SUPPORT. The rows of the Census and of the numerics page, and the statement on them (O47; R135 to R137, R140, R271). -/

namespace Sys2Proof.Machine

/-! ### The numerics page (R140) -/

/-- An alarm of the numerics page after a change of numerics registers, or of none. -/
theorem AlarmOnly.num {s t : State} (h : AlarmOnly s t) : t.num = s.num := by unfold AlarmOnly at h; rw [h]
theorem AlarmOnly.nums {s t : State} (h : AlarmOnly s t) (c : Nat) : t.nums c = s.nums c := by unfold State.nums; rw [h.num]

section
variable {s : State} (hw : s.canWrite pgNumerics = true) (v : W32)
include hw

theorem censusBaseLoWrite_holds : exec (.censusBaseLoWrite v) s =
    .next (s.modNum s.sel.nuCtx.toNat fun x => { x with censusLo := some (v &&& 0xFFFFF000#32) }) := if_pos hw

/-- The base that a write of the high half gives. -/
def Numerics.wholeBase (x : Numerics) (v : W32) : Nat :=
  v.toNat * 2 ^ 32 + ((x.censusLo.map BitVec.toNat).getD (x.censusBase.toNat % 2 ^ 32))

omit hw in
theorem Numerics.wholeBase_lt (x : Numerics) : x.wholeBase v < 2 ^ 64 := by
  have low : (x.censusLo.map BitVec.toNat).getD (x.censusBase.toNat % 2 ^ 32) < 2 ^ 32 := by
    cases x.censusLo with
    | none => exact Nat.mod_lt _ (by decide)
    | some w => exact w.isLt
  have high := v.isLt
  unfold Numerics.wholeBase
  omega

theorem censusBaseHiWrite_installs
    (ok : (s.nums s.sel.nuCtx.toNat).wholeBase v = 0 ∨ s.ownsArea s.sel.nuCtx.toNat ((s.nums s.sel.nuCtx.toNat).wholeBase v) 4096 = true) :
    exec (.censusBaseHiWrite v) s = .next (s.modNum s.sel.nuCtx.toNat fun x =>
      { x with censusBase := BitVec.ofNat 64 ((s.nums s.sel.nuCtx.toNat).wholeBase v), censusLo := none }) :=
  (if_pos hw).trans (if_pos ok)

theorem censusBaseHiWrite_refuses (some_ : (s.nums s.sel.nuCtx.toNat).wholeBase v ≠ 0)
    (foreign : s.ownsArea s.sel.nuCtx.toNat ((s.nums s.sel.nuCtx.toNat).wholeBase v) 4096 = false) (noFault : s.action pgNumerics 3 ≠ 2) :
    exec (.censusBaseHiWrite v) s =
      .next ((s.modNum s.sel.nuCtx.toNat fun x => { x with censusLo := none }).alarm0 pgNumerics 3 (some s.sel.nuCtx.toNat)) := by
  refine (if_pos hw).trans ((if_neg ?_).trans (congrArg _ (alarm_of_action_ne _ noFault)))
  rintro (zero | own)
  · exact some_ zero
  · exact Bool.false_ne_true (foreign.symm.trans own)

theorem lsStateWrite_stores (out : (s.ctx s.sel.nuCtx.toNat).st ≠ .resident) : exec (.lsStateWrite v) s =
    .next (s.modNum s.sel.nuCtx.toNat fun x => { x with
      e := BitVec.ofNat 8 v.toNat, ePrev := BitVec.ofNat 8 (v.toNat / 256), clean := BitVec.ofNat 16 (v.toNat / 65536) }) := by
  show execLsStateWrite v s = _
  simp [execLsStateWrite, hw, State.isIn, out]

theorem lsStepWrite_stores (out : (s.ctx s.sel.nuCtx.toNat).st ≠ .resident) : exec (.lsStepWrite v) s =
    .next (s.modNum s.sel.nuCtx.toNat fun x => { x with step := v }) := by
  show execLsStepWrite v s = _
  simp [execLsStepWrite, hw, State.isIn, out]

/-- A write of the loss scale or of the step while the context is IN is ignored, and bit 0 is raised. -/
theorem lsWrites_refuse (in_ : (s.ctx s.sel.nuCtx.toNat).st = .resident) (noFault : s.action pgNumerics 0 ≠ 2) :
    exec (.lsStateWrite v) s = .next (s.alarm0 pgNumerics 0 (some s.sel.nuCtx.toNat))
      ∧ exec (.lsStepWrite v) s = .next (s.alarm0 pgNumerics 0 (some s.sel.nuCtx.toNat)) := by
  constructor
  · show execLsStateWrite v s = _
    simp [execLsStateWrite, hw, State.isIn, in_, alarm_of_action_ne _ noFault]
  · show execLsStepWrite v s = _
    simp [execLsStepWrite, hw, State.isIn, in_, alarm_of_action_ne _ noFault]

end

/-- The three fields of LS_STATE (Table NU.10). -/
theorem lsState_fields (v : W32) : BitVec.ofNat 8 v.toNat = v.setWidth 8 ∧ BitVec.ofNat 8 (v.toNat / 256) = (v >>> 8).setWidth 8
    ∧ BitVec.ofNat 16 (v.toNat / 65536) = (v >>> 16).setWidth 16 := by
  refine ⟨?_, ?_, ?_⟩ <;> apply BitVec.eq_of_toNat_eq <;> simp [Nat.shiftRight_eq_div_pow]

/-! ### Spills and flushes (R137) -/

section
variable {s : State} {d : Die} {c : CtxId} {cls : BitVec 4}

theorem class_lt (cls : BitVec 4) : cls.toNat < 16 := cls.isLt

theorem spillPair_spilled : Spilled c.toNat s (s.spillPair d.val c.toNat cls.toNat) :=
  spillFirst_spilled s d.val (class_lt cls) (Nat.le_refl 32)

/-- The key of a counter and its number among the 32 (Table NU.8). -/
theorem counter_of_fmt {fmt k : Nat} (hk : k < 4) :
    s.counter d.val c.toNat cls.toNat (4 * fmt + k) = (SMap.get 0 s.census (censusKey d.val c.toNat cls.toNat fmt k)).toNat := by
  unfold State.counter
  rw [show (4 * fmt + k) / 4 = fmt by omega, show (4 * fmt + k) % 4 = k by omega]

theorem word_of_fmt {fmt k : Nat} :
    (s.nums c.toNat).censusBase.toNat + 256 * cls.toNat + 32 * fmt + 8 * k = s.word c.toNat cls.toNat (4 * fmt + k) :=
  censusWord_of_counter _ _ _ _

/-- The counters of the class are 0 after a spill, and no other changes. -/
theorem spillPair_census (j : Nat) : SMap.get 0 (s.spillPair d.val c.toNat cls.toNat).census j =
    if censusKey d.val c.toNat cls.toNat 0 0 ≤ j ∧ j < censusKey d.val c.toNat cls.toNat 0 0 + 32 then 0 else SMap.get 0 s.census j :=
  spillFirst_census s d.val 32 j

theorem spillPair_but : BytesBut ((s.nums c.toNat).censusBase.toNat + 256 * cls.toNat) 256 s.hbm (s.spillPair d.val c.toNat cls.toNat).hbm :=
  spillFirst_but s d.val (class_lt cls) (Nat.le_refl 32)

/-- A spill without errors, for every state of the area. -/
theorem spill_leaves (clean : s.addsClean c.toNat) :
    exec (.censusCounterSpill d c cls) s = .next (s.spillPair d.val c.toNat cls.toNat) := by
  show execCensusCounterSpill d c cls s = _
  unfold execCensusCounterSpill
  rw [spillPair_spilled.meets_none clean]

/-- After spills of a context whose adds waited for none before, an add to a word in error strikes the context. -/
theorem Spilled.strikes {t : State} (h : Spilled c.toNat s t) (quiet : s.addsWait c.toNat = false)
    (own : ∀ u ∈ s.ueIn (s.nums c.toNat).censusBase.toNat 4096,
      s.ownerOf u = some c ∧ s.moving (u / 65536) none = none ∧ bit (s.page (u / 65536)) 13 = false)
    {a n : Nat} (waits : (c.toNat, a, n) ∈ t.sg.adds) (struck : s.ueIn a 8 ≠ []) :
    ∃ u, t.meetAdds c.toNat = t.ueHit (some c) (BitVec.ofNat 64 u) := by
  have owned : ∀ r ∈ t.sg.adds, r.1 = c.toNat → ∀ u ∈ t.ueIn r.2.1 8,
      t.ownerOf u = some c ∧ t.moving (u / 65536) none = none ∧ bit (t.page (u / 65536)) 13 = false := by
    intro r hr mine u hu
    rw [h.ueIn] at hu
    rw [h.ownerOf, h.page]
    obtain old | ⟨-, -, low, high⟩ := h.2.2.2.2 r hr
    · exact absurd (decide_eq_true mine) (List.any_eq_false.1 quiet r old)
    · obtain ⟨owner, still, thawed⟩ := own u (ueIn_within low high hu)
      exact ⟨owner, h.moving still, thawed⟩
  have meets : t.ueMeets a 8 = true := by
    obtain ⟨u, rest, ues⟩ := List.exists_cons_of_ne_nil struck
    have mem : u ∈ t.ueIn a 8 := by rw [h.ueIn, ues]; exact List.mem_cons_self ..
    obtain ⟨-, -, thawed⟩ := owned _ waits rfl u mem
    exact List.any_eq_true.2 ⟨u, mem, by simp [State.refetchable, thawed]⟩
  obtain ⟨u, strikes, -⟩ := meetAdds_strikes ⟨_, waits, rfl, meets⟩ owned
  exact ⟨u, strikes⟩

/-- An error in a word that a counter goes to strikes the context (R271). -/
theorem spill_strikes (base : (s.nums c.toNat).censusBase.toNat ≠ 0)
    (area : s.hbmCheck c.toNat (s.nums c.toNat).censusBase.toNat 4096 true false = none) (quiet : s.addsWait c.toNat = false)
    (own : ∀ u ∈ s.ueIn (s.nums c.toNat).censusBase.toNat 4096,
      s.ownerOf u = some c ∧ s.moving (u / 65536) none = none ∧ bit (s.page (u / 65536)) 13 = false)
    {i : Nat} (hi : i < 32) (some_ : s.counter d.val c.toNat cls.toNat i ≠ 0) (struck : s.ueIn (s.word c.toNat cls.toNat i) 8 ≠ []) :
    ∃ u, exec (.censusCounterSpill d c cls) s
      = .next ((s.spillPair d.val c.toNat cls.toNat).ueHit (some c) (BitVec.ofNat 64 u)) := by
  have waits := (spillFirst_struck s d.val (class_lt cls) base area (Nat.le_refl 32) hi struck).2 some_
  obtain ⟨u, strikes⟩ := spillPair_spilled.strikes quiet own waits struck
  refine ⟨u, ?_⟩
  show execCensusCounterSpill d c cls s = _
  unfold execCensusCounterSpill
  rw [strikes]

end

theorem censusFlush_leaves {v : W32} {s : State} (go : bit v.toNat 0 = true) (hw : s.canWrite pgNumerics = true)
    (clean : s.addsClean s.sel.nuCtx.toNat) : exec (.censusFlush v) s =
      .next ((s.spillAll s.sel.nuCtx.toNat).modNum s.sel.nuCtx.toNat fun x => { x with flushBusy := true }) := by
  show execCensusFlush v s = _
  unfold execCensusFlush
  rw [if_pos (by simp [go, hw])]
  dsimp only
  rw [(spillAll_spilled s _).meets_none clean]

section
variable {c : CtxId} {s : State} (busy : (s.nums c.toNat).flushBusy = true)
include busy

theorem censusFlushDone_ends (quiet : s.addsWait c.toNat = false) : exec (.censusFlushDone c) s =
    .next (s.modNum c.toNat fun x => { x with flushBusy := false }) := by
  show execCensusFlushDone c s = _
  simp [execCensusFlushDone, busy, quiet]

theorem censusFlushDone_waits (waits : s.addsWait c.toNat = true) : exec (.censusFlushDone c) s = .next (s.meetAdds c.toNat) := by
  show execCensusFlushDone c s = _
  simp [execCensusFlushDone, busy, waits]

end

/-- Settles O47, row by row: a spill, a spill that meets an error, a flush and its end, and the numerics page. -/
theorem censusCountersReachTheirArea : Obligations.CensusCountersReachTheirArea := by
  unfold Obligations.CensusCountersReachTheirArea
  refine ⟨?spill, ?struck, ?flush, ?flushDone, ?page⟩
  case spill =>
    intro d c cls s b clean waiting
    have baseNe (base : b ≠ 0) : (s.nums c.toNat).censusBase ≠ 0 := fun z => base (congrArg BitVec.toNat z)
    have spilled := spillPair_spilled (s := s) (d := d) (c := c) (cls := cls)
    refine ⟨_, spill_leaves ⟨fun base => clean fun z => base (BitVec.eq_of_toNat_eq z), waiting⟩, ?own, ?others, ?guarded, ?bytes,
      spilled.1.1⟩
    case own =>
      intro fmt k hf hk
      refine ⟨?_, fun base area open_ => ?_⟩
      · rw [spillPair_census, if_pos (by unfold censusKey; omega)]
      · rw [word_of_fmt, ← counter_of_fmt hk]
        exact spillFirst_ready s d.val (class_lt cls) base area open_ (clean base) (Nat.le_refl 32) (by omega)
    case others =>
      intro i other
      rw [spillPair_census, if_neg]
      rintro ⟨low, high⟩
      refine other ((i - censusKey d.val c.toNat cls.toNat 0 0) / 4) ((i - censusKey d.val c.toNat cls.toNat 0 0) % 4) (by omega) (by omega) ?_
      rw [censusKey_counter]
      omega
    case guarded =>
      intro base area guarded
      obtain ⟨bytes, -, waits⟩ := spillFirst_guarded s d.val (class_lt cls) base area guarded (Nat.le_refl 32)
      refine ⟨bytes, fun fmt k hf hk some_ => ?_⟩
      rw [word_of_fmt, ← counter_of_fmt hk]
      refine waits _ (by omega) ?_
      rw [counter_of_fmt hk]
      exact fun z => some_ (BitVec.eq_of_toNat_eq z)
    case bytes =>
      by_cases zero : b = 0
      · rw [if_pos zero]
        exact spilled.1.2.2 (BitVec.eq_of_toNat_eq zero)
      · rw [if_neg zero]
        exact spillPair_but
  case struck =>
    intro d c cls s b w base area quiet resident own fmt k hf hk some_ struck
    have word : w fmt k = s.word c.toNat cls.toNat (4 * fmt + k) := word_of_fmt
    have spilled := spillPair_spilled (s := s) (d := d) (c := c) (cls := cls)
    rw [word] at struck ⊢
    obtain ⟨u, run⟩ := spill_strikes (d := d) (cls := cls) base area quiet own (i := 4 * fmt + k) (by omega)
      (by rw [counter_of_fmt hk]; exact fun z => some_ (BitVec.eq_of_toNat_eq z)) struck
    have alive : ((s.spillPair d.val c.toNat cls.toNat).ctx c.toNat).st.alive := by rw [spilled.ctx]; exact .inl resident
    obtain ⟨⟨st, last, -, others, -, hbm, -, -, -⟩, -⟩ := ueHit_faultedAt u alive
    refine ⟨_, run, st, last, fun e other => (others e other).trans (spilled.ctx e), ?_, ?_, ?_⟩
    · rw [ueHit_census, spillPair_census, if_pos (by unfold censusKey; omega)]
    · rw [hbm]
      exact (spillFirst_struck s d.val (class_lt cls) base area (Nat.le_refl 32) (by omega) struck).1
    · rw [hbm]
      exact spillPair_but
  case flush =>
    intro v s go hw c clean waiting
    have spilled := spillAll_spilled s c
    obtain ⟨only, bytes, none⟩ := spilled.1
    refine ⟨_, censusFlush_leaves go hw ⟨clean, waiting⟩, spillAll_census s c, bytes, none, ?_, fun d other => ?_, ?_⟩
    · rw [State.modNum_same, spilled.nums]
    · exact (State.modNum_ne _ _ other).trans (spilled.nums d)
    · unfold NotesOnly
      rw [spilled.frame]
      rfl
  case flushDone =>
    intro c s busy
    refine ⟨fun quiet => ?_, fun waits clean => ?_, fun waits hit resident own => ?_⟩
    · exact ⟨_, censusFlushDone_ends busy quiet, State.modNum_same _ _ _, fun _ other => State.modNum_ne _ _ other, rfl⟩
    · exact ⟨_, censusFlushDone_waits busy waits, meetAdds_clean clean⟩
    · obtain ⟨u, strikes, meets⟩ := meetAdds_strikes hit own
      refine ⟨_, (censusFlushDone_waits busy waits).trans (congrArg _ strikes), u, ueHit_faultedAt u (.inl resident), meets⟩
  case page =>
    intro v s hw c x
    refine ⟨⟨_, censusBaseLoWrite_holds hw v, State.modNum_same _ _ _, fun _ other => State.modNum_ne _ _ other, rfl⟩,
      ⟨fun ok => ?installs, fun some_ foreign noFault => ?refuses⟩, fun out => ?stored, fun in_ noFault => ?ignored⟩
    case installs =>
      refine ⟨_, censusBaseHiWrite_installs hw v ok, ?_, ?_, fun _ other => State.modNum_ne _ _ other, rfl⟩
      · rw [State.modNum_same]
        exact (BitVec.toNat_ofNat _ _).trans (Nat.mod_eq_of_lt (Numerics.wholeBase_lt v x))
      · rw [State.modNum_same]
    case refuses =>
      have only := alarm0_only (s.modNum c fun x => { x with censusLo := none }) pgNumerics 3 (some c)
      refine ⟨_, censusBaseHiWrite_refuses hw v some_ foreign noFault, ?_, fun d other => ?_, alarm0_stands _ _ _ _ (by decide), ?_⟩
      · exact (only.nums c).trans (State.modNum_same _ _ _)
      · exact (only.nums d).trans (State.modNum_ne _ _ other)
      · rw [only.num]
        exact only
    case stored =>
      obtain ⟨e, ePrev, clean⟩ := lsState_fields v
      refine ⟨⟨_, lsStateWrite_stores hw v out, ?_, fun _ other => State.modNum_ne _ _ other, rfl⟩,
        _, lsStepWrite_stores hw v out, State.modNum_same _ _ _, fun _ other => State.modNum_ne _ _ other, rfl⟩
      rw [State.modNum_same, e, ePrev, clean]
    case ignored =>
      obtain ⟨state, step⟩ := lsWrites_refuse hw v in_ noFault
      exact ⟨⟨_, state, alarm0_stands _ _ _ _ (by decide), alarm0_only _ _ _ _⟩,
        _, step, alarm0_stands _ _ _ _ (by decide), alarm0_only _ _ _ _⟩

end Sys2Proof.Machine
end
section
/-! SUPPORT. The step close up to the job's agreement: its issue, the local word and the control reduction of a job of one device,
and the loss scale (R131 to R134, R173, R187, R236, Table NU.7). -/

namespace Sys2Proof.Machine

/-! ### STEP_CLOSE (R133, R173) -/

section
variable {c : CtxId} {k : SyncCmd} {s : State} (head : s.syncHead c 3 = some k) (idle : (s.nums c.toNat).close = none)
  (resident : (s.ctx c.toNat).st = .resident)
include head idle resident

/-- The close of a step LS_STEP whose overflow word, if any, may be read. -/
theorem stepClose_issues (now : cStep k.q.img = (s.nums c.toNat).step)
    (word : ∀ cl a, ovfWord k.q.img = some (cl, a) → s.locCheck c (.clu cl a) 4 false = none) :
    exec (.stepClose c) s = .next ((s.syncWait k.q).modNum c.toNat fun x => { x with
      close := some { seq := k.q.seq, step := (s.nums c.toNat).step, phase := .issued, word := false, ovf := false, epoch := false } }) := by
  have sound : ((ovfWord k.q.img).bind fun w => s.locsFault c [(.clu w.1 w.2, 4, false)]) = none := by
    cases named : ovfWord k.q.img with
    | none => rfl
    | some w =>
      show s.locsFault c [(.clu w.1 w.2, 4, false)] = none
      exact locsFault_none fun x hx => by rw [List.mem_singleton.1 hx]; exact word w.1 w.2 named
  show execStepClose c s = _
  unfold execStepClose
  rw [head]
  dsimp only
  rw [if_neg (by simp [idle, State.isIn, resident]), if_neg (not_not.2 now), sound]
  rfl

theorem stepClose_skew (late : cStep k.q.img ≠ (s.nums c.toNat).step) : exec (.stepClose c) s = .next (s.faultCmd k.q 0x000E) := by
  show execStepClose c s = _
  unfold execStepClose
  rw [head]
  dsimp only
  rw [if_neg (by simp [idle, State.isIn, resident]), if_pos late]

theorem stepClose_unreadable (now : cStep k.q.img = (s.nums c.toNat).step) {cl : ClId} {a : Nat} {f : U16}
    (named : ovfWord k.q.img = some (cl, a)) (bad : s.locCheck c (.clu cl a) 4 false = some f) :
    exec (.stepClose c) s = .next (s.faultAt k.q (f, a)) := by
  have found : s.locsFault c [(.clu cl a, 4, false)] = some (f, a) := by
    simp [State.locsFault, State.locNone, bad, Loc.addr]
  show execStepClose c s = _
  unfold execStepClose
  rw [head]
  dsimp only
  rw [if_neg (by simp [idle, State.isIn, resident]), if_neg (not_not.2 now), named, Option.bind_some, found]

end

/-- The command of a wait stands in the wait, and the commands are the same. -/
theorem syncWait_sync (s : State) (q : QE) : (s.syncWait q).sched.sync.map (·.q) = s.sched.sync.map (·.q)
    ∧ ∀ x ∈ (s.syncWait q).sched.sync, x.q = q → x.waiting = true := by
  constructor
  · show (s.sched.sync.map _).map _ = _
    rw [List.map_map]
    refine List.map_congr_left fun x _ => ?_
    dsimp only [Function.comp]
    split <;> rfl
  · intro x hx same
    obtain ⟨y, -, rfl⟩ := List.mem_map.1 hx
    split at same
    · rename_i mine
      rw [if_pos mine]
    · rename_i other
      exact absurd same other

/-! ### LOCAL_QUIESCE (R132, R133) -/

/-- The word of the context's overflow word is not 0, where the close names one. -/
def State.overflowWord (s : State) (i : Image) : Bool :=
  (ovfWord i).any fun w => decide ((s.clu w.1.toNat).mem.readN w.2 4 ≠ 0)

theorem overflowWord_eq (s : State) (i : Image) : s.overflowWord i = match ovfWord i with
    | some (cl, a) => decide ((s.clu cl.toNat).mem.readN a 4 ≠ 0)
    | none => false := by
  unfold State.overflowWord
  cases ovfWord i <;> rfl

/-- The device once a close has quiesced, before the OR begins. -/
def State.quiesced (s : State) (c : CtxId) (r : CloseRun) (word : Bool) : State :=
  s.modNum c.toNat fun x => { x with
    pendOvf := x.pendOvf.filter (fun n => !seqLe n r.step), close := some { r with phase := .quiesced, word := word } }

/-- The word that enters the job's OR. -/
def State.localWord (s : State) (c : CtxId) (r : CloseRun) (word : Bool) : W32 :=
  BitVec.ofNat 32 (((s.nums c.toNat).pendOvf.any (fun n => seqLe n r.step) || word).toNat + 2 * (s.epochDue c.toNat).toNat)

theorem localQuiesce_begins {c : CtxId} {r : CloseRun} {k : SyncCmd} {s : State} (run : (s.nums c.toNat).close = some r)
    (head : s.syncHead c 3 = some k) (issued : r.phase = .issued) (quiet : s.updatesPending c.toNat r = false)
    (free : s.bursar.hold = false) (in_ : ovfWord k.q.img ≠ none → (s.ctx c.toNat).st = .resident) :
    exec (.localQuiesce c) s = .next ((s.quiesced c r (s.overflowWord k.q.img)).ctlStart c false
      (s.localWord c r (s.overflowWord k.q.img))) := by
  have ready : ¬((decide (r.phase ≠ .issued) || s.updatesPending c.toNat r || s.bursar.hold
      || ((ovfWord k.q.img).isSome && !s.isIn c.toNat)) = true) := by
    cases named : ovfWord k.q.img with
    | none => simp [issued, quiet, free]
    | some w => simp [issued, quiet, free, State.isIn, in_ (by rw [named]; exact Option.some_ne_none w)]
  show execLocalQuiesce c s = _
  unfold execLocalQuiesce
  dsimp only
  rw [run, head]
  dsimp only
  rw [if_neg ready]
  unfold State.localWord State.overflowWord
  cases ovfWord k.q.img with
  | none => rfl
  | some w => simp only [Option.any_some, decide_not, ← Bool.beq_eq_decide_eq]; rfl

/-! ### The control reduction of a job of one device (R236) -/

/-- The context's job has this device alone, and no word has come early. -/
def State.jobAlone (s : State) (c : CtxId) : Prop :=
  (∀ a < 3, s.boxExt (s.lkc c.toNat) a = 1 ∧ s.boxIdx (s.lkc c.toNat) a = 0) ∧ (s.lkc c.toNat).early = []

/-- No word that came early waits any more. -/
def State.earlyTaken (s : State) (c : CtxId) : State := s.modLkc c.toNat fun q => { q with early := [] }

theorem earlyTaken_ctx (s : State) (c : CtxId) (d : Nat) : (s.earlyTaken c).ctx d = s.ctx d := rfl

/-- Between two states only the link registers of contexts differ. -/
def LkcOnly (s t : State) : Prop := t = { s with lkC := t.lkC }

theorem LkcOnly.modLkc (s : State) (c : Nat) {f : LkCtx → LkCtx} : LkcOnly s (s.modLkc c f) := rfl

theorem LkcOnly.trans {s t u : State} (first : LkcOnly s t) (second : LkcOnly t u) : LkcOnly s u := by
  unfold LkcOnly at *
  rw [second, first]

section
variable {s : State} {c : CtxId} (alone : s.jobAlone c)
include alone

theorem jobAlone_earlyTaken : (s.earlyTaken c).jobAlone c := by
  unfold State.jobAlone State.earlyTaken
  rw [State.modLkc_same]
  exact ⟨alone.1, rfl⟩

/-- On an axis of one device no word comes, and none goes out. -/
theorem jobAlone_axis {a : Nat} (ha : a < 3) : s.fromN (s.lkc c.toNat) a = 0 ∧ s.fromP (s.lkc c.toNat) a = 0
    ∧ s.goesUp (s.lkc c.toNat) a 0 = false ∧ s.goesDown (s.lkc c.toNat) a 0 = false := by
  obtain ⟨ext, idx⟩ := alone.1 a ha
  unfold State.fromN State.fromP State.goesUp State.goesDown
  rw [ext, idx]
  dsimp only
  exact ⟨ite_self _, ite_self _, ite_self _, ite_self _⟩

theorem ctlBegin_alone {r : Reduce} (axis : r.axis < 3) : s.ctlBegin c r = (s.earlyTaken c, r) := by
  obtain ⟨fromN, fromP, up, down⟩ := jobAlone_axis alone axis
  have out : s.ctlOut c r = s := by
    unfold State.ctlOut
    dsimp only
    simp [up, down]
  unfold State.ctlBegin
  rw [out]
  dsimp only
  rw [alone.2]
  rfl

theorem ctlGo_last {r : Reduce} (f : Nat) (axis : r.axis = 2) (undone : r.done = false) (gotN : r.gotN = 0) (gotP : r.gotP = 0) :
    s.ctlGo c (f + 1) r = (s, { r with done := true }) := by
  obtain ⟨fromN, fromP, -, -⟩ := jobAlone_axis alone (a := 2) (by decide)
  unfold State.ctlGo
  dsimp only
  rw [if_neg (by simp [undone]), axis, if_pos ⟨gotN.trans fromN.symm, gotP.trans fromP.symm⟩, if_pos rfl]

theorem ctlGo_next {r : Reduce} (f : Nat) (axis : r.axis < 2) (undone : r.done = false) (gotN : r.gotN = 0) (gotP : r.gotP = 0) :
    s.ctlGo c (f + 1) r = (s.earlyTaken c).ctlGo c f { r with axis := r.axis + 1, own := r.acc, gotN := 0, gotP := 0 } := by
  obtain ⟨fromN, fromP, -, -⟩ := jobAlone_axis alone (a := r.axis) (by omega)
  conv => lhs; unfold State.ctlGo
  dsimp only
  rw [if_neg (by simp [undone]), if_pos ⟨gotN.trans fromN.symm, gotP.trans fromP.symm⟩, if_neg (by omega), ctlBegin_alone alone (by dsimp only; omega)]

/-- The OR of a job of one device is its own word, at once. -/
theorem ctlStart_alone (w : W32) (resident : (s.ctx c.toNat).st = .resident) :
    (((s.ctlStart c false w).lkc c.toNat).red.map fun d => (d.acc, d.done)) = some (w, true)
      ∧ s.ctlStart c false w = { s with lkC := (s.ctlStart c false w).lkC } := by
  have a1 := jobAlone_earlyTaken alone
  have a2 := jobAlone_earlyTaken a1
  have a3 := jobAlone_earlyTaken a2
  have run : s.ctlStart c false w = (((s.earlyTaken c).earlyTaken c).earlyTaken c).keepRed c
      { axis := 2, sum := false, own := w, acc := w, done := true } := by
    unfold State.ctlStart
    rw [ctlBegin_alone alone (by decide : (0 : Nat) < 3)]
    dsimp only
    rw [ctlGo_next a1 7 (by decide : (0 : Nat) < 2) rfl rfl rfl, ctlGo_next a2 6 (by decide : (1 : Nat) < 2) rfl rfl rfl,
      ctlGo_last a3 5 rfl rfl rfl rfl]
  have stays : ¬((((s.earlyTaken c).earlyTaken c).earlyTaken c).ctx c.toNat).st = .scrubbing := by
    rw [earlyTaken_ctx, earlyTaken_ctx, earlyTaken_ctx, resident]
    decide
  rw [run]
  unfold State.keepRed
  rw [if_neg stays]
  refine ⟨by rw [State.modLkc_same]; rfl, ?_⟩
  exact ((((LkcOnly.modLkc _ _).trans (LkcOnly.modLkc _ _)).trans (LkcOnly.modLkc _ _)).trans (LkcOnly.modLkc _ _))

end

/-! ### JOB_AGREEMENT (R133) -/

/-- max(E − 1, E_MIN) and min(E + 1, E_MAX), as numbers. -/
theorem Numerics.lower_eq (x : Numerics) : x.lower = if x.e.toInt - 1 < x.eMin.toInt then x.eMin else x.e - 1 := by
  unfold Numerics.lower
  simp only [BitVec.slt_eq_decide, decide_eq_true_eq]
  by_cases falls : x.eMin.toInt < x.e.toInt
  · rw [if_pos falls, if_neg (by omega)]
  · rw [if_neg falls, if_pos (by omega)]

theorem Numerics.raise_eq (x : Numerics) : x.raise = if x.eMax.toInt < x.e.toInt + 1 then x.eMax else x.e + 1 := by
  unfold Numerics.raise
  simp only [BitVec.slt_eq_decide, decide_eq_true_eq]
  by_cases rises : x.e.toInt < x.eMax.toInt
  · rw [if_pos rises, if_neg (by omega)]
  · rw [if_neg rises, if_pos (by omega)]

/-- The numerics registers after the job has agreed on run `r` of the close. -/
def Numerics.agreed (x : Numerics) (r : CloseRun) : Numerics := { (if r.ovf then x.overflowed else x.cleanStep) with close := some r }

theorem Numerics.agreed_base (x : Numerics) (r : CloseRun) : (x.agreed r).censusBase = x.censusBase := by
  have clean : x.cleanStep.censusBase = x.censusBase := by
    unfold Numerics.cleanStep
    exact (apply_ite Numerics.censusBase _ _ _).trans (ite_self _)
  show (if r.ovf then x.overflowed else x.cleanStep).censusBase = _
  rw [apply_ite Numerics.censusBase, clean]
  exact ite_self _

/-- The run of a close once the job's word is `w`. -/
def CloseRun.agreed (r : CloseRun) (w : W32) : CloseRun := { r with phase := .agreed, ovf := bit w.toNat 0, epoch := bit w.toNat 1 }

/-- The device once the job has agreed, before the Census is flushed. -/
def State.agreed (s : State) (c : CtxId) (r : CloseRun) : State :=
  (s.modLkc c.toNat fun q => { q with red := none }).modNum c.toNat fun x => x.agreed r

theorem agreed_nums (s : State) (c : CtxId) (r : CloseRun) : (s.agreed c r).nums c.toNat = (s.nums c.toNat).agreed r :=
  State.modNum_same _ _ _

/-- The agreement flushes the Census, and raises bit 1 where E could not fall. -/
theorem jobAgreement_flushes {c : CtxId} {r : CloseRun} {d : Reduce} {s : State} (run : (s.nums c.toNat).close = some r)
    (red : (s.lkc c.toNat).red = some d) (quiesced : r.phase = .quiesced) (done : d.done = true) (noFault : s.action pgNumerics 1 ≠ 2) :
    ∃ t, exec (.jobAgreement c) s = .next t ∧ AlarmOnly ((s.agreed c (r.agreed d.acc)).spillAll c.toNat) t
      ∧ (bit d.acc.toNat 0 = true → (s.nums c.toNat).e.sle (s.nums c.toNat).eMin = true → Stands t pgNumerics 1) := by
  have ready : ¬((decide (r.phase ≠ .quiesced) || !d.done) = true) := by simp [quiesced, done]
  have action : ((s.agreed c (r.agreed d.acc)).spillAll c.toNat).action pgNumerics 1 ≠ 2 := by
    rw [(spillAll_spilled _ _).frame]
    exact noFault
  have runs : exec (.jobAgreement c) s = .next (if bit d.acc.toNat 0 && !(s.nums c.toNat).eMin.slt (s.nums c.toNat).e
      then ((s.agreed c (r.agreed d.acc)).spillAll c.toNat).alarm0 pgNumerics 1 (some c.toNat)
      else (s.agreed c (r.agreed d.acc)).spillAll c.toNat) := by
    rw [← alarm_of_action_ne c action]
    show execJobAgreement c s = _
    unfold execJobAgreement
    dsimp only
    rw [run, red]
    dsimp only
    rw [if_neg ready]
    rfl
  by_cases stuck : (bit d.acc.toNat 0 && !(s.nums c.toNat).eMin.slt (s.nums c.toNat).e) = true
  · rw [if_pos stuck] at runs
    exact ⟨_, runs, alarm0_only _ _ _ _, fun _ _ => alarm0_stands _ _ _ _ (by decide)⟩
  · rw [if_neg stuck] at runs
    refine ⟨_, runs, .refl _, fun ovf low => absurd ?_ stuck⟩
    rw [BitVec.sle_eq_decide, decide_eq_true_eq] at low
    simp [ovf, BitVec.slt_eq_decide, low]

end Sys2Proof.Machine
end
section
/-! SUPPORT. The step advance: what the Strongroom sends to the active tier, and the end of the SYNC command (R263, R265, Table NU.7). -/

namespace Sys2Proof.Machine

/-! ### Bytes on their way to the active tier (Table SG.3) -/

/-- From `s` to `t` nothing changes but context `c`'s Strongroom registers and what sending to the active tier changes. -/
structure TierMoved (c : Nat) (s t : State) : Prop where
  others : SameBut State.sgc c s t
  active : t.sg.tierActive = s.sg.tierActive
  only : t = { s with sgC := t.sgC, sg := t.sg, port := t.port, links := t.links, host := t.host, free := t.free }

theorem TierMoved.refl (c : Nat) (s : State) : TierMoved c s s := ⟨fun _ _ => rfl, rfl, rfl⟩

theorem TierMoved.trans {c : Nat} {s t u : State} (first : TierMoved c s t) (second : TierMoved c t u) : TierMoved c s u where
  others := fun j hj => (second.others j hj).trans (first.others j hj)
  active := second.active.trans first.active
  only := by rw [second.only, first.only]

theorem modSgc_moved (c : Nat) (s : State) (f : SgCtx → SgCtx) : TierMoved c s (s.modSgc c f) :=
  ⟨fun _ hj => State.modSgc_ne _ _ hj, rfl, rfl⟩

/-- From `s` to `t` bytes of context `c` may have gone to the active tier: of its Strongroom registers only the count of
acknowledgements awaited may differ. -/
structure TierSent (c : Nat) (s t : State) : Prop extends TierMoved c s t where
  mine : t.sgc c = { s.sgc c with acks := (t.sgc c).acks }

theorem TierSent.refl (c : Nat) (s : State) : TierSent c s s := ⟨.refl c s, rfl⟩

theorem TierSent.trans {c : Nat} {s t u : State} (first : TierSent c s t) (second : TierSent c t u) : TierSent c s u :=
  ⟨first.toTierMoved.trans second.toTierMoved, by rw [second.mine, first.mine]⟩

/-- A change that leaves the contexts' Strongroom registers alone. -/
theorem TierSent.of_sgC {c : Nat} {s t : State} (same : t.sgC = s.sgC) (active : t.sg.tierActive = s.sg.tierActive)
    (only : t = { s with sgC := t.sgC, sg := t.sg, port := t.port, links := t.links, host := t.host, free := t.free }) :
    TierSent c s t := by
  have sgc (j : Nat) : t.sgc j = s.sgc j := by unfold State.sgc; rw [same]
  exact ⟨⟨fun j _ => sgc j, active, only⟩, by rw [sgc]⟩

theorem reply_sent (c : Nat) (s : State) (k : Packet) : TierSent c s (s.reply k) := by
  rw [reply_only]
  exact .of_sgC rfl rfl rfl

theorem awaitAck_sent (c : Nat) (s : State) : TierSent c s (s.modSgc c fun x => { x with acks := x.acks + 1 }) where
  toTierMoved := modSgc_moved _ _ _
  mine := by rw [State.modSgc_same]

theorem mirrorPkt_sent (s : State) (c : CtxId) (bs : List Byte) : TierSent c.toNat s (s.mirrorPkt c bs) :=
  have placed (n : Nat) : TierSent c.toNat s { s with sg := { s.sg with mirrorPos := n } } := .of_sgC rfl rfl rfl
  ((placed _).trans (reply_sent _ _ _)).trans (awaitAck_sent _ _)

theorem pushHost_sent (c : Nat) (s : State) : TierSent c s s.pushHost := by
  unfold State.pushHost
  split
  · split
    · exact .of_sgC rfl rfl rfl
    · exact .refl c s
  · exact .refl c s

theorem tierSend_sent (s : State) (c : CtxId) (n : Nat) (piece : Nat → List Byte) : TierSent c.toNat s (s.tierSend c n piece) := by
  unfold State.tierSend
  dsimp only
  split
  · exact foldl_rel (TierSent.refl c.toNat) TierSent.trans (fun s b _ => mirrorPkt_sent s c b) s
  · split
    · have boxed (l : List (CtxId × List Byte)) : TierSent c.toNat s { s with sg := { s.sg with outbox := l } } := .of_sgC rfl rfl rfl
      exact (boxed _).trans (pushHost_sent _ _)
    · exact .refl _ s

theorem sendPinned_sent (s : State) (c : CtxId) (p : Pinned) : TierSent c.toNat s (s.sendPinned c p) :=
  have numbered : TierSent c.toNat s { s with free := s.free + 1 } := .of_sgC rfl rfl rfl
  numbered.trans (tierSend_sent _ _ _ _)

/-! ### The epoch and the delta of a step (R263, R265) -/

/-- A context's Strongroom registers once an epoch is open, with the generations kept. -/
def SgCtx.opened (x : SgCtx) (e : Epoch) (kept : List Gen) : SgCtx := { x with due := false, gens := kept, epoch := some e }

/-- A context's Strongroom registers once the delta of a step is on its way. -/
def SgCtx.deltaSent (x : SgCtx) (n : W32) (p : Pinned) : SgCtx := { x with delta := some n, deltaPin := p, dirty := [] }

section
variable {s : State} {c : CtxId}

/-- The active tier may take what the context's Strongroom sends. -/
abbrev State.tierTakes (s : State) (c : Nat) : Prop := (s.sgc c).valid = true ∧ s.sg.tierActive ≠ 0

/-- The epoch that opens on the context's SNAPSHOT pages. -/
def State.newEpoch (s : State) (c : Nat) (n : W32) : Epoch :=
  { step := n, prot := (s.sgc c).snapshot.filter (s.ownsPage c), pin := s.pinned c (s.sgc c).mirrors }

theorem protect_opens (n : W32) (takes : s.tierTakes c.toNat) (free : (s.sgc c.toNat).epoch = none) :
    TierSent c.toNat (s.modSgc c.toNat fun x => x.opened (s.newEpoch c.toNat n) (gensFor s.sg.tierActive.toNat x.gens))
      (s.protect c n) := by
  obtain ⟨valid, active⟩ := takes
  unfold State.protect
  dsimp only
  rw [if_neg (by simp [valid]; exact active), if_neg (by simp [free])]
  exact sendPinned_sent _ _ _

theorem protect_idle (n : W32) (idle : ¬s.tierTakes c.toNat) : s.protect c n = s := by
  unfold State.protect
  dsimp only
  rw [if_pos (by unfold State.tierTakes at idle; simp; grind)]

theorem sendDelta_sends (n : W32) (on : s.unitOn 2 = true) (takes : s.tierTakes c.toNat) :
    ∃ p, TierSent c.toNat (s.modSgc c.toNat fun x => x.deltaSent n p) (s.sendDelta c n) := by
  obtain ⟨valid, active⟩ := takes
  refine ⟨s.pinned c.toNat (s.sgc c.toNat).deltaRanges, ?_⟩
  unfold State.sendDelta
  dsimp only
  rw [if_pos (by simp [on, valid]; exact active)]
  exact sendPinned_sent _ _ _

theorem sendDelta_idle (n : W32) (idle : ¬(s.unitOn 2 = true ∧ s.tierTakes c.toNat)) : s.sendDelta c n = s := by
  unfold State.sendDelta
  dsimp only
  rw [if_neg (by unfold State.tierTakes at idle; simp; grind)]

end

/-! ### STEP_ADVANCE (R133) -/

theorem advance_ready {c : CtxId} {r : CloseRun} {s : State} (agreed : r.phase = .agreed)
    (sent : s.unitOn 2 = false ∨ (s.sgc c.toNat).delta = none) :
    ¬((decide (r.phase ≠ .agreed) || (s.unitOn 2 && (s.sgc c.toNat).delta.isSome)) = true) := by
  rcases sent with off | taken
  · simp [agreed, off]
  · simp [agreed, taken]

section
variable {c : CtxId} {r : CloseRun} {k : SyncCmd} {s : State} (run : (s.nums c.toNat).close = some r)
  (head : s.syncHead c 3 = some k) (agreed : r.phase = .agreed) (sent : s.unitOn 2 = false ∨ (s.sgc c.toNat).delta = none)
  (added : s.addsWait c.toNat = false)
include run head agreed sent added

/-- While a page that it reads is to come, the step does not advance. -/
theorem stepAdvance_waits (wait : ∃ a ∈ s.advanceReads c r.epoch, s.hbmWait a.1 a.2 = true) : exec (.stepAdvance c) s = .next s := by
  show execStepAdvance c s = _
  unfold execStepAdvance
  dsimp only
  rw [run, head]
  dsimp only
  rw [if_neg (advance_ready agreed sent), if_neg (by simp [added]), if_pos (List.any_eq_true.2 wait)]

variable (come : ∀ a ∈ s.advanceReads c r.epoch, s.hbmWait a.1 a.2 = false)
include come

theorem stepAdvance_strikes {t : State} (struck : s.meetUe (s.advanceReads c r.epoch) = some t) :
    exec (.stepAdvance c) s = .next t := by
  show execStepAdvance c s = _
  unfold execStepAdvance
  dsimp only
  rw [run, head]
  dsimp only
  rw [if_neg (advance_ready agreed sent), if_neg (by simp [added]),
    if_neg (by rw [Bool.not_eq_true]; exact List.any_eq_false.2 fun a ha => by simp [come a ha]), struck]

end

/-- The device once LS_STEP is advanced. -/
def State.advanced (s : State) (c : CtxId) (n : W32) : State := s.modNum c.toNat fun x => { x with step := n + 1, close := none }

/-- The device once the epoch due, if any, has begun. -/
def State.epochBegun (s : State) (c : CtxId) (r : CloseRun) : State :=
  if r.epoch && s.unitOn 2 then (s.advanced c r.step).protect c r.step else s.advanced c r.step

theorem stepAdvance_advances {c : CtxId} {r : CloseRun} {k : SyncCmd} {s : State} (run : (s.nums c.toNat).close = some r)
    (head : s.syncHead c 3 = some k) (agreed : r.phase = .agreed) (sent : s.unitOn 2 = false ∨ (s.sgc c.toNat).delta = none)
    (added : s.addsWait c.toNat = false)
    (clean : ∀ a ∈ s.advanceReads c r.epoch, s.hbmWait a.1 a.2 = false ∧ s.ueMeets a.1 a.2 = false) :
    exec (.stepAdvance c) s = .next (((s.epochBegun c r).syncEnd k.q).sendDelta c r.step) := by
  show execStepAdvance c s = _
  unfold execStepAdvance
  dsimp only
  rw [run, head]
  dsimp only
  rw [if_neg (advance_ready agreed sent), if_neg (by simp [added]),
    if_neg (by rw [Bool.not_eq_true]; exact List.any_eq_false.2 fun a ha => by simp [(clean a ha).1]),
    meetUe_none fun a ha => (clean a ha).2]
  rfl

/-- The end of a command speaks of its context, of the tokens in use and of nothing else. -/
theorem Finishes.of_tokens {s t u v : State} {q : QE} {code : Nat} (h : Finishes s t q code) (ctxs : u.ctxs = s.ctxs)
    (tokens : u.sched.tokens = s.sched.tokens) (ctxs' : v.ctxs = t.ctxs) (tokens' : v.sched.tokens = t.sched.tokens) :
    Finishes u v q code := by
  unfold Finishes Records State.tokensAfter State.endWaits SameBut State.ctx at *
  rw [ctxs, tokens, ctxs', tokens']
  exact h

section
variable {s : State} {c : CtxId} {r : CloseRun}

theorem epochBegun_moved (free : (s.sgc c.toNat).epoch = none) : TierMoved c.toNat (s.advanced c r.step) (s.epochBegun c r) := by
  unfold State.epochBegun
  split
  · by_cases takes : (s.advanced c r.step).tierTakes c.toNat
    · exact (modSgc_moved _ _ _).trans (protect_opens r.step takes free).toTierMoved
    · rw [protect_idle _ takes]
      exact .refl _ _
  · exact .refl _ _

theorem sendDelta_moved (s : State) (c : CtxId) (n : W32) : TierMoved c.toNat s (s.sendDelta c n) := by
  by_cases goes : s.unitOn 2 = true ∧ s.tierTakes c.toNat
  · obtain ⟨p, went⟩ := sendDelta_sends n goes.1 goes.2
    exact (modSgc_moved _ _ _).trans went.toTierMoved
  · rw [sendDelta_idle n goes]
    exact .refl _ _

end

end Sys2Proof.Machine
end
section
/-! O46: a step close from its issue to the step's advance. -/

namespace Sys2Proof.Machine

/-! ### What STEP_ADVANCE leaves (R133, R263, R265) -/

section
variable {s : State} {c : CtxId} {r : CloseRun} (free : (s.sgc c.toNat).epoch = none)

/-- The device after STEP_ADVANCE of command `q`. -/
def State.advanceEnd (s : State) (c : CtxId) (r : CloseRun) (q : QE) : State := ((s.epochBegun c r).syncEnd q).sendDelta c r.step

include free

/-- The command completes; nothing changes but its context, the numerics and what the Strongroom sends. -/
theorem advanceEnd_only (q : QE) : s.advanceEnd c r q = { s with
    num := (s.advanced c r.step).num, ctxs := (s.advanceEnd c r q).ctxs, sched := (s.advanceEnd c r q).sched,
    sgC := (s.advanceEnd c r q).sgC, sg := (s.advanceEnd c r q).sg, port := (s.advanceEnd c r q).port,
    links := (s.advanceEnd c r q).links, host := (s.advanceEnd c r q).host, free := (s.advanceEnd c r q).free } := by
  unfold State.advanceEnd State.syncEnd
  rw [(sendDelta_moved _ _ _).only, complete_only]
  unfold State.syncDrop
  rw [(epochBegun_moved free).only]
  rfl

theorem advanceEnd_finishes (q : QE) : Finishes s (s.advanceEnd c r q) q 0 := by
  have begun := (epochBegun_moved (r := r) free).only
  have sent := (sendDelta_moved ((s.epochBegun c r).syncEnd q) c r.step).only
  have ends : Finishes ((s.epochBegun c r).syncDrop q) ((s.epochBegun c r).syncEnd q) q 0 := complete_finishes _ _ _ _ _
  refine ends.of_tokens ?_ ?_ (by unfold State.advanceEnd; rw [sent]) (by unfold State.advanceEnd; rw [sent])
  · unfold State.syncDrop
    rw [begun]
    rfl
  · unfold State.syncDrop
    rw [begun]
    rfl

end

/-- The end of a SYNC command leaves the Strongroom's registers. -/
theorem syncEnd_sgc (u : State) (q : QE) (j : Nat) : (u.syncEnd q).sgc j = u.sgc j := by
  unfold State.syncEnd State.sgc
  rw [complete_only]
  rfl

theorem syncEnd_tiers (u : State) (q : QE) (i c : Nat) :
    (u.syncEnd q).unitOn i = u.unitOn i ∧ ((u.syncEnd q).tierTakes c ↔ u.tierTakes c) := by
  unfold State.tierTakes
  rw [syncEnd_sgc]
  unfold State.syncEnd
  rw [complete_only]
  exact ⟨rfl, .rfl⟩

section
variable {s : State} {c : CtxId} {r : CloseRun} (free : (s.sgc c.toNat).epoch = none)

/-- An epoch is due and can begin. -/
abbrev State.epochBegins (s : State) (c : CtxId) (r : CloseRun) : Prop := r.epoch = true ∧ s.unitOn 2 = true ∧ s.tierTakes c.toNat

include free

theorem epochBegun_opens (begins : s.epochBegins c r) : ∃ kept acks, (s.epochBegun c r).sgc c.toNat
    = { (s.sgc c.toNat).opened ((s.advanced c r.step).newEpoch c.toNat r.step) kept with acks := acks } := by
  obtain ⟨due, on, takes⟩ := begins
  have mine := (protect_opens (s := s.advanced c r.step) r.step takes free).mine
  rw [State.modSgc_same] at mine
  unfold State.epochBegun
  rw [if_pos (by simp [due, on])]
  exact ⟨_, _, mine⟩

omit free in
theorem epochBegun_idle (idle : ¬s.epochBegins c r) : s.epochBegun c r = s.advanced c r.step := by
  unfold State.epochBegun
  split
  · rename_i due
    rw [Bool.and_eq_true] at due
    exact protect_idle _ fun takes => idle ⟨due.1, due.2, takes⟩
  · rfl

/-- Where a delta of the step goes out, once the epoch has begun. -/
theorem delta_goes (q : QE) : (((s.epochBegun c r).syncEnd q).unitOn 2 = true ∧ ((s.epochBegun c r).syncEnd q).tierTakes c.toNat)
    ↔ (s.unitOn 2 = true ∧ s.tierTakes c.toNat) := by
  obtain ⟨on, takes⟩ := syncEnd_tiers (s.epochBegun c r) q 2 c.toNat
  rw [on, takes]
  have moved := epochBegun_moved (r := r) free
  have on' : (s.epochBegun c r).unitOn 2 = s.unitOn 2 := by rw [moved.only]; rfl
  have active : (s.epochBegun c r).sg.tierActive = s.sg.tierActive := moved.active
  have valid : ((s.epochBegun c r).sgc c.toNat).valid = (s.sgc c.toNat).valid := by
    by_cases begins : s.epochBegins c r
    · obtain ⟨kept, acks, opened⟩ := epochBegun_opens free begins
      rw [opened]
      rfl
    · rw [epochBegun_idle begins]
      rfl
  unfold State.tierTakes
  rw [on', active, valid]

theorem advanceEnd_others (q : QE) : SameBut State.sgc c.toNat s (s.advanceEnd c r q) := fun j hj => by
  unfold State.advanceEnd
  rw [(sendDelta_moved _ _ _).others j hj, syncEnd_sgc, (epochBegun_moved free).others j hj]
  rfl

/-- The delta is on its way where a tier takes it; the epoch is that of the step's begin. -/
theorem advanceEnd_sends (q : QE) (goes : s.unitOn 2 = true ∧ s.tierTakes c.toNat) :
    ∃ p acks, (s.advanceEnd c r q).sgc c.toNat = { ((s.epochBegun c r).sgc c.toNat).deltaSent r.step p with acks := acks } := by
  obtain ⟨on, takes⟩ := (delta_goes (r := r) free q).2 goes
  obtain ⟨p, went⟩ := sendDelta_sends (c := c) r.step on takes
  have mine := went.mine
  rw [State.modSgc_same, syncEnd_sgc] at mine
  exact ⟨p, _, mine⟩

theorem advanceEnd_quiet (r : CloseRun) (q : QE) (stays : ¬(s.unitOn 2 = true ∧ s.tierTakes c.toNat)) :
    (s.advanceEnd c r q).sgc c.toNat = s.sgc c.toNat := by
  unfold State.advanceEnd
  rw [sendDelta_idle _ (mt (delta_goes free q).1 stays), syncEnd_sgc, epochBegun_idle fun begins => stays begins.2]
  rfl

theorem advanceEnd_epoch (r : CloseRun) (q : QE) :
    if s.epochBegins c r then ∃ e, ((s.advanceEnd c r q).sgc c.toNat).epoch = some e ∧ e.step = r.step
        ∧ e.prot = (s.sgc c.toNat).snapshot.filter (s.ownsPage c.toNat) ∧ ((s.advanceEnd c r q).sgc c.toNat).due = false
    else ((s.advanceEnd c r q).sgc c.toNat).epoch = none ∧ ((s.advanceEnd c r q).sgc c.toNat).due = (s.sgc c.toNat).due := by
  by_cases goes : s.unitOn 2 = true ∧ s.tierTakes c.toNat
  · obtain ⟨p, acks, sgc⟩ := advanceEnd_sends (r := r) free q goes
    rw [sgc]
    split
    · rename_i begins
      obtain ⟨kept, acks, opened⟩ := epochBegun_opens free begins
      rw [opened]
      exact ⟨_, rfl, rfl, rfl, rfl⟩
    · rename_i idle
      rw [epochBegun_idle idle]
      exact ⟨free, rfl⟩
  · rw [advanceEnd_quiet free r q goes, if_neg fun begins => goes begins.2]
    exact ⟨free, rfl⟩

end

/-! ### What the agreement leaves (R133, R136) -/

section
variable {s : State} {c : CtxId} (r : CloseRun)

theorem agreed_lkc : (s.agreed c r).lkc c.toNat = { s.lkc c.toNat with red := none } := by
  show (s.modLkc c.toNat fun q => { q with red := none }).lkc c.toNat = _
  exact State.modLkc_same _ _ _

theorem agreed_others : SameBut State.nums c.toNat s (s.agreed c r) ∧ SameBut State.lkc c.toNat s (s.agreed c r) :=
  ⟨fun _ hj => State.modNum_ne _ _ hj, fun j hj => by
    show (s.modLkc c.toNat fun q => { q with red := none }).lkc j = _
    exact State.modLkc_ne _ _ hj⟩

/-- Table NU.7's registers after a step that overflowed, and after a clean one. -/
theorem Numerics.agreed_ovf (x : Numerics) (ovf : r.ovf = true) : x.agreed r = { x with
    ePrev := x.e, e := if x.e.toInt - 1 < x.eMin.toInt then x.eMin else x.e - 1, clean := 0, ovfCount := x.ovfCount + 1,
    close := some r } := by
  unfold Numerics.agreed Numerics.overflowed
  rw [if_pos ovf, Numerics.lower_eq]

theorem Numerics.agreed_clean (x : Numerics) (clean : ¬r.ovf = true) : x.agreed r =
    let n : U16 := if x.clean = 0xFFFF then 0xFFFF else x.clean + 1
    if x.interval ≠ 0 ∧ x.interval ≤ n
      then { x with ePrev := x.e, e := if x.eMax.toInt < x.e.toInt + 1 then x.eMax else x.e + 1, clean := 0, close := some r }
      else { x with ePrev := x.e, clean := n, close := some r } := by
  have saturated : (if x.clean = 0xFFFF then x.clean else x.clean + 1) = if x.clean = 0xFFFF then (0xFFFF : U16) else x.clean + 1 := by
    split
    · assumption
    · rfl
  unfold Numerics.agreed Numerics.cleanStep
  rw [if_neg clean, Numerics.raise_eq]
  dsimp only
  rw [saturated]
  generalize (if x.clean = 0xFFFF then (0xFFFF : U16) else x.clean + 1) = n
  by_cases long : x.interval ≠ 0 ∧ x.interval ≤ n
  · simp only [if_pos long]
  · simp only [if_neg long]

variable {t : State} (alarmed : AlarmOnly ((s.agreed c r).spillAll c.toNat) t)
include alarmed

theorem agreement_nums (d : Nat) : t.nums d = (s.agreed c r).nums d := by
  rw [alarmed.nums, (spillAll_spilled _ _).nums]

theorem agreement_lkc (d : Nat) : t.lkc d = (s.agreed c r).lkc d := by
  unfold AlarmOnly at alarmed
  rw [alarmed, (spillAll_spilled (s.agreed c r) c.toNat).frame]
  rfl

theorem agreement_bytes : BytesBut (s.nums c.toNat).censusBase.toNat 4096 s.hbm t.hbm
    ∧ ((s.nums c.toNat).censusBase = 0 → t.hbm = s.hbm) := by
  obtain ⟨-, bytes, none⟩ := (spillAll_spilled (s.agreed c r) c.toNat).1
  rw [agreed_nums, Numerics.agreed_base] at bytes none
  rw [alarmed.keeps.2.1]
  exact ⟨bytes, none⟩

theorem agreement_frame : NotesOnly { s with num := t.num, lkC := t.lkC, hbm := t.hbm, census := t.census }
    ((s.agreed c r).spillAll c.toNat) := by
  unfold AlarmOnly at alarmed
  unfold NotesOnly
  rw [alarmed, (spillAll_spilled (s.agreed c r) c.toNat).frame]
  rfl

theorem agreement_census (i : Nat) : SMap.get 0 t.census i = if i / 512 % 4096 = c.toNat then 0 else SMap.get 0 s.census i := by
  unfold AlarmOnly at alarmed
  rw [alarmed]
  exact spillAll_census (s.agreed c r) c.toNat i

end

/-- Settles O46, row by row: the issue and its two faults, the local word, the agreement, and the advance. -/
theorem stepClosesFollowTheJob : Obligations.StepClosesFollowTheJob := by
  unfold Obligations.StepClosesFollowTheJob
  refine ⟨?issue, ?skew, ?unreadable, ?quiesce, ?agreement, ?advance⟩
  case issue =>
    intro c k s head idle resident now word
    obtain ⟨sync, waiting⟩ := syncWait_sync s k.q
    exact ⟨_, stepClose_issues head idle resident now word, State.modNum_same _ _ _, fun _ other => State.modNum_ne _ _ other,
      sync, waiting, rfl⟩
  case skew =>
    intro c k s head owner idle resident late
    subst owner
    exact ⟨_, stepClose_skew head idle resident late, faultCmd_faulted _ _ _ _ _ (.inl resident)⟩
  case unreadable =>
    intro c k cl a f s head owner idle resident now named bad
    subst owner
    exact ⟨_, stepClose_unreadable head idle resident now named bad, (faultAt_faultedAt k.q (f, a) _ resident).1⟩
  case quiesce =>
    intro c r k s run head issued quiet free in_ word w u
    have named : s.overflowWord k.q.img = word := overflowWord_eq s _
    have begins := localQuiesce_begins run head issued quiet free in_
    rw [named] at begins
    exact ⟨_, begins, rfl, fun axes early resident => ctlStart_alone (s := u) (c := c) ⟨axes, early⟩ w resident⟩
  case agreement =>
    intro c r d s run red quiesced done noFault
    obtain ⟨t, runs, alarmed, stuck⟩ := jobAgreement_flushes run red quiesced done noFault
    have nums (e : Nat) := agreement_nums _ alarmed e
    obtain ⟨bytes, none⟩ := agreement_bytes _ alarmed
    obtain ⟨numsOthers, lkcOthers⟩ := agreed_others (s := s) (c := c) (r.agreed d.acc)
    refine ⟨t, runs, ?table, ?_, fun e he => (nums e).trans (numsOthers e he), fun e he => ?_,
      agreement_census _ alarmed, bytes, none, _, agreement_frame _ alarmed, alarmed⟩
    case table =>
      rw [nums, agreed_nums]
      split
      · rename_i ovf
        exact ⟨Numerics.agreed_ovf _ _ ovf, stuck ovf⟩
      · rename_i clean
        exact Numerics.agreed_clean _ _ clean
    · rw [agreement_lkc _ alarmed, agreed_lkc]
    · exact (agreement_lkc _ alarmed e).trans (lkcOthers e he)
  case advance =>
    intro c r k s run head agreed sent free
    refine ⟨fun added come hit resident own => ?_, fun added wait => ⟨_, stepAdvance_waits run head agreed sent added wait, rfl⟩,
      fun added clean => ?_⟩
    · obtain ⟨u, strikes, meets⟩ := meetUe_strikes hit own
      exact ⟨_, stepAdvance_strikes run head agreed sent added come strikes, u, ueHit_faultedAt u (.inl resident), meets⟩
    · have only := advanceEnd_only (r := r) free k.q
      have nums : (s.advanceEnd c r k.q).nums = (s.advanced c r.step).nums := by rw [only]; rfl
      refine ⟨s.advanceEnd c r k.q, stepAdvance_advances run head agreed sent added clean, ?_, fun d other => ?_,
        advanceEnd_finishes free k.q, advanceEnd_others free k.q, advanceEnd_epoch free r k.q, ?_, ?_⟩
      · rw [nums]
        exact State.modNum_same _ _ _
      · rw [nums]
        exact State.modNum_ne _ _ other
      · split
        · rename_i goes
          obtain ⟨p, acks, sgc⟩ := advanceEnd_sends (r := r) free k.q goes
          rw [sgc]
          exact ⟨rfl, rfl⟩
        · rename_i stays
          exact advanceEnd_quiet free r k.q stays
      · rw [only]

end Sys2Proof.Machine
end
section
/-! SUPPORT. Where the Mint writes: the bytes that a bundle's elements, its row and its moments change (R155, R162, R167, R169). -/

namespace Sys2Proof.Machine

/-! ### Bytes inside ranges -/

/-- Between two memories only bytes inside the ranges differ. -/
def BytesIn (l : List (Nat × Nat)) (m m' : Mem) : Prop := ∀ a, (∀ r ∈ l, ¬(r.1 ≤ a ∧ a < r.1 + r.2)) → m'.read a = m.read a

/-- The `n` bytes from `a` lie inside the ranges. -/
def Covers (l : List (Nat × Nat)) (a n : Nat) : Prop := ∀ b, a ≤ b → b < a + n → ∃ r ∈ l, r.1 ≤ b ∧ b < r.1 + r.2

section
variable {l : List (Nat × Nat)}

theorem BytesIn.refl (m : Mem) : BytesIn l m m := fun _ _ => rfl

theorem BytesIn.trans {m m' m'' : Mem} (first : BytesIn l m m') (second : BytesIn l m' m'') : BytesIn l m m'' :=
  fun a out => (second a out).trans (first a out)

theorem Covers.of_mem {r : Nat × Nat} (mem : r ∈ l) {a n : Nat} (low : r.1 ≤ a) (high : a + n ≤ r.1 + r.2) : Covers l a n :=
  fun _ _ _ => ⟨r, mem, by omega, by omega⟩

/-- A byte outside the ranges is outside what they cover. -/
theorem Covers.out {a n b : Nat} (covers : Covers l a n) (out : ∀ r ∈ l, ¬(r.1 ≤ b ∧ b < r.1 + r.2)) : b < a ∨ a + n ≤ b := by
  by_contra inside
  obtain ⟨r, mem, within⟩ := covers b (by omega) (by omega)
  exact out r mem within

theorem writeBytes_in {m : Mem} {a : Nat} {bs : List Byte} (covers : Covers l a bs.length) : BytesIn l m (m.writeBytes a bs) :=
  fun _ out => Mem.read_writeBytes_out (covers.out out)

theorem writeN_in {m : Mem} {a n v : Nat} (covers : Covers l a n) : BytesIn l m (Mem.writeN m a n v) :=
  fun _ out => Mem.read_writeN_out (covers.out out)

theorem write_in {m : Mem} {a : Nat} {v : Byte} (covers : Covers l a 1) : BytesIn l m (m.write a v) := fun b out => by
  have away := covers.out out
  rw [Mem.read_write, if_neg (by omega)]

end

/-! ### The ranges of a bundle (R155) -/

namespace Job

/-- The positions whose moments a bundle of `n` elements at `p` may change: the whole row at its start, else its own. -/
def span (j : Job) (p n : Nat) : Nat × Nat :=
  let whole := j.u.d.rows && p % j.u.d.nCols == 0
  (if whole then p / j.u.d.nCols * j.u.d.nCols else p, if whole then j.u.d.nCols else n)

/-- The bundle's elements lie in one row of a rows layer. -/
def Fits (j : Job) (n : Nat) : Prop := j.u.d.rows = true → n ≤ j.u.d.nCols

section
variable (j : Job) (p n : Nat)

theorem ranges_eq : j.ranges p n = (if j.u.c.two then [] else j.wRange p n)
    ++ (if j.u.c.mFull then [(j.at_ j.u.d.mBase (2 * (j.span p n).1), 2 * (j.span p n).2)] else [])
    ++ (if j.u.c.vMode = 1 then [(j.at_ j.u.d.vBase (2 * (j.span p n).1), 2 * (j.span p n).2)] else [])
    ++ (if j.u.d.rows then [(j.at_ j.u.d.rowTable (p / j.u.d.nCols * 8), 8)] else []) := rfl

variable {p n} {q : Nat}

/-- A bundle's own positions are in the span. -/
theorem span_covers (fits : j.Fits n) (low : p ≤ q) (high : q < p + n) : (j.span p n).1 ≤ q ∧ q < (j.span p n).1 + (j.span p n).2 := by
  unfold span
  by_cases whole : (j.u.d.rows && p % j.u.d.nCols == 0) = true
  · obtain ⟨rows, start⟩ := Bool.and_eq_true .. ▸ whole
    have short := fits rows
    have start := Nat.div_mul_cancel (Nat.dvd_of_mod_eq_zero (beq_iff_eq.1 start))
    simp only [if_pos whole, start]
    exact ⟨low, by omega⟩
  · simp only [if_neg whole]
    exact ⟨low, high⟩

theorem covers_m (full : j.u.c.mFull = true) (low : (j.span p n).1 ≤ q) (high : q < (j.span p n).1 + (j.span p n).2) :
    Covers (j.ranges p n) (j.at_ j.u.d.mBase (2 * q)) 2 := by
  refine .of_mem (r := (j.at_ j.u.d.mBase (2 * (j.span p n).1), 2 * (j.span p n).2)) ?_ ?_ ?_
  · rw [ranges_eq]
    simp [full]
  · unfold at_ Desc.addr; omega
  · unfold at_ Desc.addr; dsimp only; omega

theorem covers_v (full : j.u.c.vMode = 1) (low : (j.span p n).1 ≤ q) (high : q < (j.span p n).1 + (j.span p n).2) :
    Covers (j.ranges p n) (j.at_ j.u.d.vBase (2 * q)) 2 := by
  refine .of_mem (r := (j.at_ j.u.d.vBase (2 * (j.span p n).1), 2 * (j.span p n).2)) ?_ ?_ ?_
  · rw [ranges_eq]
    simp [full]
  · unfold at_ Desc.addr; omega
  · unfold at_ Desc.addr; dsimp only; omega

theorem covers_row (rows : j.u.d.rows = true) : Covers (j.ranges p n) (j.at_ j.u.d.rowTable (8 * (p / j.u.d.nCols))) 8 := by
  refine .of_mem (r := (j.at_ j.u.d.rowTable (p / j.u.d.nCols * 8), 8)) ?_ ?_ ?_
  · rw [ranges_eq]
    simp [rows]
  · unfold at_ Desc.addr; omega
  · unfold at_ Desc.addr; dsimp only; omega

/-- Where w is written as its elements come. -/
theorem mem_ranges_w {r : Nat × Nat} (one : j.u.c.two = false) (mem : r ∈ j.wRange p n) : r ∈ j.ranges p n := by
  rw [ranges_eq]
  simp [one, mem]

variable (one : j.u.c.two = false) (low : p ≤ q) (high : q < p + n)
include one low high

theorem covers_w (half : j.u.d.wFmt ≠ 2) : Covers (j.ranges p n) (j.at_ j.u.d.wBase (2 * q)) 2 := by
  refine .of_mem (r := (j.at_ j.u.d.wBase (2 * p), 2 * n)) (j.mem_ranges_w one ?_) ?_ ?_
  · unfold wRange
    rw [if_neg half]
    exact List.mem_singleton_self _
  · unfold at_ Desc.addr; omega
  · unfold at_ Desc.addr; dsimp only; omega

theorem covers_block (fp4 : j.u.d.wFmt = 2) : Covers (j.ranges p n) (j.at_ j.u.d.wBase (16 * (q / 32))) 16
    ∧ Covers (j.ranges p n) (j.at_ j.u.d.wsBase (q / 32)) 1 := by
  have wRange : j.wRange p n = [(j.at_ j.u.d.wBase (p / 32 * 16), ((p + n + 31) / 32 - p / 32) * 16),
      (j.at_ j.u.d.wsBase (p / 32), (p + n + 31) / 32 - p / 32)] := by
    unfold wRange
    exact if_pos fp4
  constructor
  · refine .of_mem (j.mem_ranges_w one (r := (j.at_ j.u.d.wBase (p / 32 * 16), ((p + n + 31) / 32 - p / 32) * 16)) ?_) ?_ ?_
    · rw [wRange]; simp
    · unfold at_ Desc.addr; omega
    · unfold at_ Desc.addr; dsimp only; omega
  · refine .of_mem (j.mem_ranges_w one (r := (j.at_ j.u.d.wsBase (p / 32), (p + n + 31) / 32 - p / 32)) ?_) ?_ ?_
    · rw [wRange]; simp
    · unfold at_ Desc.addr; omega
    · unfold at_ Desc.addr; dsimp only; omega

end

/-! ### What an element writes (R162, R167) -/

section
variable (j : Job) {l : List (Nat × Nat)}

theorem st_in (m : Mem) (base fmt : Nat) (tid : W32) (p e : Nat) (x : W32) (covers : Covers l (j.at_ base (2 * p)) 2) :
    BytesIn l m (j.st m base fmt tid p e x).1 := writeN_in covers

theorem mxEncode_length (rnd : Nat → Rnd) (xs : List W32) : (mxEncode rnd xs).elems.length = xs.length := by
  unfold mxEncode
  split
  · dsimp only
    rw [List.length_map, List.length_zipIdx]
  · exact List.length_map _

theorem putBlock_in (w : Work) (b : Nat) (elems : Covers l (j.at_ j.u.d.wBase (16 * b)) 16) (scale : Covers l (j.at_ j.u.d.wsBase b) 1) :
    BytesIn l w.hbm (j.putBlock w b).hbm := by
  unfold putBlock
  refine (writeBytes_in ?_).trans (write_in scale)
  rw [packCodes_length, List.length_map, mxEncode_length, List.length_map, List.length_range]
  exact elems

end

section
variable (j : Job)

section
variable {p n q : Nat} (low : p ≤ q) (high : q < p + n) (one : j.u.c.two = false)
include low high one

theorem putW_in (w : Work) (e : Nat) (x : W32) : BytesIn (j.ranges p n) w.hbm (j.putW w q e x).hbm := by
  unfold putW
  by_cases fp4 : j.u.d.wFmt = 2
  · obtain ⟨elems, scale⟩ := j.covers_block one low high fp4
    simp only [if_pos fp4]
    split
    · exact .refl _
    · exact j.putBlock_in _ _ elems scale
  · simp only [if_neg fp4]
    exact j.st_in _ _ _ _ _ _ _ (j.covers_w one low high fp4)

theorem keepW_in (w : Work) : BytesIn (j.ranges p n) w.hbm (j.keepW w q).hbm := by
  unfold keepW
  split
  · exact j.putW_in low high one w 0 _
  · exact .refl _

end

/-- The memory after an element's first moment. -/
def firstMoment (j : Job) (w : Work) (p e : Nat) (g : W32) : Mem :=
  if j.u.c.mFull then
    (j.st w.hbm j.u.d.mBase j.u.d.mFmt j.u.d.tidM p e (fma j.u.c.a1 (j.rd w.hbm j.u.d.mBase j.u.d.mFmt p) (fmul j.u.c.b1 g))).1
  else w.hbm

theorem moments_hbm (w : Work) (p e : Nat) (g : W32) : (j.moments w p e g).1.hbm =
    if j.u.c.vMode = 1 then
      (j.st (j.firstMoment w p e g) j.u.d.vBase j.u.d.vFmt j.u.d.tidV p e
        (fma j.u.c.a2 (j.rd (j.firstMoment w p e g) j.u.d.vBase j.u.d.vFmt p) (fmul j.u.c.b2 (fmul g g)))).1
    else j.firstMoment w p e g := by
  unfold firstMoment
  unfold moments
  by_cases full : j.u.c.mFull = true <;> by_cases own : j.u.c.vMode = 1 <;> simp only [full, own, if_true, if_false, Bool.false_eq_true]

theorem sums_hbm (w : Work) (p e : Nat) (g1 mnew vnew : W32) : (j.sums w p e g1 mnew vnew).hbm = w.hbm := by
  unfold sums
  dsimp only
  split
  · rfl
  · split <;> rfl

/-- An element's gradient, unscaled, clipped and clamped (R162). -/
def scaled (j : Job) (g : W32) : W32 :=
  let g0 := fmul g (fmul j.u.scale j.u.clip)
  if isZero j.u.c.gClip then g0 else fclamp g0 (fneg j.u.c.gClip) j.u.c.gClip

/-- The share with an element's part of the norm (R165). -/
def normed (j : Job) (w : Work) (g : W32) : Work :=
  let h := fmul g j.u.scale
  if isFinite g then { w with sh := { w.sh with norm := fadd w.sh.norm (fmul h h) } } else w

theorem normed_hbm (w : Work) (g : W32) : (j.normed w g).hbm = w.hbm := by
  unfold normed
  dsimp only
  split <;> rfl

/-- The share with an element skipped: a rule of two passes notes its place (R166). -/
def noted (w : Work) (two : Bool) (p : Nat) : Work :=
  { w with skipped := w.skipped + 1, sh := { w.sh with skips := if two then w.sh.skips ++ [p] else w.sh.skips } }

section
variable (w : Work) (p : Nat) (g : W32)

theorem element_skips (bad : isFinite (j.scaled g) = false) :
    j.element w p g = if j.u.c.two then noted w true p else j.keepW (noted w false p) p := by
  unfold scaled at bad
  unfold element
  dsimp only at bad ⊢
  rw [bad]
  rfl

variable (fine : isFinite (j.scaled g) = true)
include fine

theorem element_sums (two : j.u.c.two = true) : j.element w p g =
    let r := j.moments (j.normed w g) p (j.u.d.elem j.i p) (j.scaled g)
    j.sums r.1 p (j.u.d.elem j.i p) (j.scaled g) r.2.2.1 r.2.2.2 := by
  unfold scaled at fine
  unfold element scaled normed
  dsimp only at fine ⊢
  rw [fine, two]
  rfl

theorem element_writes (one : j.u.c.two = false) : j.element w p g =
    let e := j.u.d.elem j.i p
    let r := j.moments (j.normed w g) p e (j.scaled g)
    let usrc := fma j.u.c.e1 r.2.1 (fma j.u.c.e2 (j.scaled g) (fmul j.u.c.e3 r.2.2.1))
    j.putW r.1 p e (j.u.wnew (j.rdW r.1.hbm p) (j.u.c.dir (j.corr r.1.hbm p) usrc r.2.2.2) one32) := by
  unfold scaled at fine
  unfold element scaled normed
  dsimp only at fine ⊢
  rw [fine, one]
  rfl

end

section
variable {j} {p n q : Nat} (fits : j.Fits n) (low : p ≤ q) (high : q < p + n)
include fits low high

theorem moments_in (w : Work) (e : Nat) (g : W32) : BytesIn (j.ranges p n) w.hbm (j.moments w q e g).1.hbm := by
  obtain ⟨first, last⟩ := j.span_covers fits low high
  have m : BytesIn (j.ranges p n) w.hbm (j.firstMoment w q e g) := by
    unfold firstMoment
    split
    · exact j.st_in _ _ _ _ _ _ _ (j.covers_m ‹_› first last)
    · exact .refl _
  rw [moments_hbm]
  split
  · exact m.trans (j.st_in _ _ _ _ _ _ _ (j.covers_v ‹_› first last))
  · exact m

theorem element_in (w : Work) (g : W32) : BytesIn (j.ranges p n) w.hbm (j.element w q g).hbm := by
  have moments : BytesIn (j.ranges p n) w.hbm (j.moments (j.normed w g) q (j.u.d.elem j.i q) (j.scaled g)).1.hbm := by
    have moments := moments_in fits low high (j.normed w g) (j.u.d.elem j.i q) (j.scaled g)
    rwa [normed_hbm] at moments
  cases fine : isFinite (j.scaled g) <;> cases passes : j.u.c.two
  · rw [element_skips j w q g fine, passes]
    exact j.keepW_in low high passes (noted w false q)
  · rw [element_skips j w q g fine, passes]
    exact .refl _
  · rw [element_writes j w q g fine passes]
    exact moments.trans (j.putW_in low high passes _ _ _)
  · rw [element_sums j w q g fine passes]
    dsimp only
    rw [sums_hbm]
    exact moments

end

end

end Job

end Sys2Proof.Machine
end
section
/-! SUPPORT. A row's lazy decay, and a whole bundle (R162, R169). -/

namespace Sys2Proof.Machine

theorem Covers.sub {l : List (Nat × Nat)} {a n b k : Nat} (covers : Covers l a n) (low : a ≤ b) (high : b + k ≤ a + n) : Covers l b k :=
  fun c _ _ => covers c (by omega) (by omega)

namespace Job

/-! ### ROW_LAZY_DECAY (R169) -/

/-- The steps that a row's kept moments have missed. -/
def gap (j : Job) (w : Work) (l : Nat) : Int :=
  let t := j.rowEntry w.hbm l
  let diff := signed32 j.u.step t.1
  if t.1 = 0xFFFFFFFF#32 ∨ diff < 2 then 0 else diff - 1

/-- A moment of every element of a row, decayed. -/
def decayRow (j : Job) (w : Work) (isV : Bool) (f : W32) (l : Nat) : Work :=
  ((List.range j.u.d.nCols).map (l * j.u.d.nCols + ·)).foldl (fun w p => j.decay w isV f p) w

/-- The share once a row's first moment is decayed, and once its second one is. -/
def decayedM (j : Job) (w : Work) (l : Nat) : Work :=
  if 0 < j.gap w l ∧ j.u.c.mFull then j.decayRow w false (fpow j.u.c.a1 (f32OfInt (j.gap w l))) l else w
def decayedV (j : Job) (w : Work) (l : Nat) : Work :=
  if 0 < j.gap w l ∧ j.u.c.vMode = 1 then j.decayRow (j.decayedM w l) true (fpow j.u.c.a2 (f32OfInt (j.gap w l))) l
  else j.decayedM w l

section
variable (j : Job)

/-- The count of a row's touches, once one more is counted. -/
def touches (j : Job) (w : Work) (l : Nat) : W32 :=
  let t := j.rowEntry w.hbm l
  if t.2 = 0xFFFFFFFF#32 then t.2 else t.2 + 1

theorem touchRow_hbm (w : Work) (l : Nat) : (j.touchRow w l).hbm =
    Mem.writeN (Mem.writeN (j.decayedV w l).hbm (j.at_ j.u.d.rowTable (8 * l)) 4 j.u.step.toNat)
      (j.at_ j.u.d.rowTable (8 * l + 4)) 4 (j.touches w l).toNat := by
  unfold touchRow touches decayedV decayedM gap decayRow
  dsimp only

/-- A row's entry is in the ranges of its bundles. -/
theorem rowEntry_in {j : Job} {p n : Nat} (rows : j.u.d.rows = true) (m : Mem) (a b : Nat) : BytesIn (j.ranges p n) m
    (Mem.writeN (Mem.writeN m (j.at_ j.u.d.rowTable (8 * (p / j.u.d.nCols))) 4 a)
      (j.at_ j.u.d.rowTable (8 * (p / j.u.d.nCols) + 4)) 4 b) := by
  have entry := j.covers_row (p := p) (n := n) rows
  have second : j.at_ j.u.d.rowTable (8 * (p / j.u.d.nCols) + 4) = j.at_ j.u.d.rowTable (8 * (p / j.u.d.nCols)) + 4 := by
    unfold at_ Desc.addr
    omega
  rw [second]
  exact (writeN_in (entry.sub (Nat.le_refl _) (by omega))).trans (writeN_in (entry.sub (by omega) (by omega)))

variable {j} {p n : Nat} (rows : j.u.d.rows = true) (start : p % j.u.d.nCols = 0)
include rows start

/-- The row that a bundle begins is the span of its moments. -/
theorem span_row {x : Nat} (hx : x < j.u.d.nCols) :
    (j.span p n).1 ≤ p / j.u.d.nCols * j.u.d.nCols + x ∧ p / j.u.d.nCols * j.u.d.nCols + x < (j.span p n).1 + (j.span p n).2 := by
  unfold span
  simp only [rows, start, BEq.rfl, Bool.and_self, if_true]
  exact ⟨Nat.le_add_right _ _, by omega⟩

theorem decayRow_in (w : Work) (isV : Bool) (f : W32) (kept : if isV then j.u.c.vMode = 1 else j.u.c.mFull = true) :
    BytesIn (j.ranges p n) w.hbm (j.decayRow w isV f (p / j.u.d.nCols)).hbm := by
  refine foldl_rel (R := fun w w' : Work => BytesIn (j.ranges p n) w.hbm w'.hbm) (fun _ => .refl _) .trans (fun w q hq => ?_) w
  obtain ⟨x, hx, rfl⟩ := List.mem_map.1 hq
  obtain ⟨low, high⟩ := span_row (n := n) rows start (List.mem_range.1 hx)
  cases isV
  · exact j.st_in _ _ _ _ _ _ _ (j.covers_m kept low high)
  · exact j.st_in _ _ _ _ _ _ _ (j.covers_v kept low high)

theorem touchRow_in (w : Work) : BytesIn (j.ranges p n) w.hbm (j.touchRow w (p / j.u.d.nCols)).hbm := by
  have first : BytesIn (j.ranges p n) w.hbm (j.decayedM w (p / j.u.d.nCols)).hbm := by
    unfold decayedM
    split
    · rename_i missed
      exact decayRow_in rows start _ _ _ missed.2
    · exact .refl _
  have second : BytesIn (j.ranges p n) (j.decayedM w (p / j.u.d.nCols)).hbm (j.decayedV w (p / j.u.d.nCols)).hbm := by
    unfold decayedV
    split
    · rename_i missed
      exact decayRow_in rows start _ _ _ missed.2
    · exact .refl _
  rw [touchRow_hbm]
  exact (first.trans second).trans (rowEntry_in rows _ _ _)

end

/-! ### A bundle (R157) -/

/-- A bundle changes bytes of its own elements, and of its row, alone. -/
theorem bundle_in {j : Job} {vals : List W32} (fits : j.Fits vals.length) (w : Work) (p : Nat) :
    BytesIn (j.ranges p vals.length) w.hbm (j.bundle w p vals).hbm := by
  have elements (w : Work) : BytesIn (j.ranges p vals.length) w.hbm
      (vals.zipIdx.foldl (fun w v => j.element w (p + v.2) v.1) w).hbm := by
    refine foldl_rel (R := fun w w' : Work => BytesIn (j.ranges p vals.length) w.hbm w'.hbm) (fun _ => .refl _) .trans
      (fun w v hv => ?_) w
    have := List.snd_lt_of_mem_zipIdx hv
    exact element_in fits (by omega) (by omega) _ _
  unfold bundle
  dsimp only
  split
  · rename_i begins
    rw [Bool.and_eq_true, beq_iff_eq] at begins
    exact (touchRow_in begins.1 begins.2 w).trans (elements _)
  · exact elements w

/-- The element update of R162, for a 16-bit w without moments. -/
theorem element_simple {j : Job} (half : j.u.d.wFmt < 2) (plain : j.u.c.mFull = false) (none : j.u.c.vMode = 0)
    (one : j.u.c.two = false) (w : Work) (p : Nat) {g : W32} (fine : isFinite (j.scaled g) = true) :
    (j.element w p g).hbm.readN (j.at_ j.u.d.wBase (2 * p)) 2 =
      (convert j.u.d.wFmt (j.rnd j.u.d.tidW (j.u.d.elem j.i p))
        (j.u.wnew (j.rdW w.hbm p) (j.u.c.dir (j.corr w.hbm p)
          (fma j.u.c.e1 0 (fma j.u.c.e2 (j.scaled g) (fmul j.u.c.e3 0))) 0) one32) 0).code % 65536 := by
  have still : j.moments (j.normed w g) p (j.u.d.elem j.i p) (j.scaled g) = (j.normed w g, 0, 0, 0) := by
    unfold moments
    simp only [plain, none, Bool.false_eq_true, if_false, Nat.zero_ne_one]
  rw [element_writes j w p g fine one]
  dsimp only
  rw [still]
  dsimp only
  rw [normed_hbm]
  unfold putW
  simp only [if_neg (show ¬j.u.d.wFmt = 2 by omega)]
  unfold st
  dsimp only
  rw [Mem.writeN_eq_writeBytes, Mem.readN_writeBytes_leBytes]
  rfl

/-- A bundle of one element of a dense layer is that element. -/
theorem bundle_simple {j : Job} (dense : j.u.d.rows = false) (half : j.u.d.wFmt < 2) (plain : j.u.c.mFull = false)
    (none : j.u.c.vMode = 0) (one : j.u.c.two = false) (w : Work) (p : Nat) {g : W32} (fine : isFinite (j.scaled g) = true) :
    (j.bundle w p [g]).hbm.readN (j.at_ j.u.d.wBase (2 * p)) 2 =
      (convert j.u.d.wFmt (j.rnd j.u.d.tidW (j.u.d.elem j.i p))
        (j.u.wnew (j.rdW w.hbm p) (j.u.c.dir (j.corr w.hbm p)
          (fma j.u.c.e1 0 (fma j.u.c.e2 (j.scaled g) (fmul j.u.c.e3 0))) 0) one32) 0).code % 65536 := by
  have element : j.bundle w p [g] = j.element w p g := by
    unfold bundle
    dsimp only
    rw [dense]
    rfl
  rw [element]
  exact element_simple half plain none one w p fine

end Job

end Sys2Proof.Machine
end
section
/-! SUPPORT. Bundles at the Mints: what is reported, a bundle applied, and bundles over a link (R157, R158, R221). -/

namespace Sys2Proof.Machine

/-! ### Conversions reported, of any format (R135) -/

/-- From `s` to `t` conversions are reported: the counters change, and bytes of Census areas with what the Strongroom notes of
them; no byte where context `c` has no area. -/
def Counted (c : Nat) (s t : State) : Prop :=
  NotesOnly { s with census := t.census, hbm := t.hbm } t ∧ ((s.nums c).censusBase = 0 → t.hbm = s.hbm)

theorem Counted.refl (c : Nat) (s : State) : Counted c s s := ⟨rfl, fun _ => rfl⟩

theorem Counted.frame {c : Nat} {s t : State} (h : Counted c s t) :
    t = { s with census := t.census, hbm := t.hbm, sgC := t.sgC, sg := { s.sg with ueAt := t.sg.ueAt, adds := t.sg.adds } } := h.1

theorem Counted.nums {c : Nat} {s t : State} (h : Counted c s t) (e : Nat) : t.nums e = s.nums e := by
  unfold State.nums
  rw [h.frame]

theorem Counted.trans {c : Nat} {s t u : State} (h : Counted c s t) (k : Counted c t u) : Counted c s u := by
  have nums := h.nums c
  obtain ⟨only, none⟩ := h
  obtain ⟨only', none'⟩ := k
  rw [nums] at none'
  refine ⟨?_, fun z => (none' z).trans (none z)⟩
  unfold NotesOnly at *
  rw [only', only]

theorem Counted.of_census (c : Nat) (s : State) (m : SMap W32) : Counted c s { s with census := m } := ⟨rfl, fun _ => rfl⟩

theorem spillInto_counted (s : State) (c cls fmt k n : Nat) : Counted c s (s.spillInto c cls fmt k n) := by
  unfold State.spillInto
  dsimp only
  split
  case isTrue => exact .refl c s
  case isFalse area =>
    have base : (s.nums c).censusBase ≠ 0 := fun z => area (.inl (by rw [z]; rfl))
    rcases censusAdd_cases s c ((s.nums c).censusBase.toNat + 256 * cls + 32 * fmt + 8 * k) with ready | held | refused
    · rw [censusAdd_ready ready]
      exact ⟨rfl, fun z => absurd z base⟩
    · rw [censusAdd_held held]
      exact ⟨rfl, fun _ => rfl⟩
    · rw [censusAdd_refused refused]
      exact .refl c s

theorem spillOne_counted (s : State) (d c cls fmt k : Nat) : Counted c s (s.spillOne d c cls fmt k) :=
  (spillInto_counted s c cls fmt k _).trans (.of_census c _ _)

theorem spillOn_counted (s : State) (c : Nat) (f : Nat → Bool) : Counted c s (s.spillOn c f) := by
  refine foldl_rel (.refl c) .trans (fun s k _ => ?_) s
  split
  · exact spillOne_counted s _ _ _ _ _
  · exact .refl c s

theorem countOne_counted (s : State) (d c cls fmt k n : Nat) : Counted c s (s.countOne d c cls fmt k n) := by
  unfold State.countOne
  dsimp only
  split
  · exact .refl c s
  · split
    · exact (Counted.of_census c s _).trans ((spillInto_counted _ _ _ _ _ _).trans (spillOn_counted _ _ _))
    · exact .of_census c s _

theorem count_counted (s : State) (d c : Nat) (tid : W32) (fmt : Nat) (t : Tally4) : Counted c s (s.count d c tid fmt t) := by
  unfold State.count
  exact (countOne_counted s d c _ fmt 0 _).trans ((countOne_counted _ d c _ fmt 1 _).trans
    ((countOne_counted _ d c _ fmt 2 _).trans (countOne_counted _ d c _ fmt 3 _)))

theorem reports_counted (s : State) (u : Update) (die : Nat) (w : Work) : Counted u.ctx.toNat s (s.reports u die w) := by
  unfold State.reports
  exact (count_counted s die _ _ _ _).trans ((count_counted _ die _ _ _ _).trans
    ((count_counted _ die _ _ _ _).trans (count_counted _ die _ _ _ _)))

/-! ### A bundle applied (R158, R162) -/

/-- The device once writes of all the ranges are noted. -/
def State.noteAll (s : State) (l : List (Nat × Nat)) : State := l.foldl (fun s r => State.noteWrite s r.1 r.2) s

/-- The device once a Mint has done `n` elements' work `w`, written in ranges `l`. -/
def State.worked (s : State) (u : Update) (stack n : Nat) (l : List (Nat × Nat)) (w : Work) : State :=
  ((State.noteAll { s with hbm := w.hbm } l).modMnt stack fun x => { x with
    elems := x.elems + BitVec.ofNat 32 n, busyBeats := satAdd x.busyBeats ((n + 63) / 64) }).reports u (stack / 3) w

/-- The device once `k` elements skipped are counted. -/
def State.skipped (s : State) (u : Update) (k : Nat) : State :=
  if k = 0 then s else
    (s.modMtc u.ctx.toNat fun x => { x with nonfinite := satAdd x.nonfinite k }).modNum u.ctx.toNat fun x =>
      { x with pendOvf := x.pendOvf ++ [u.step] }

theorem noteAll_only (l : List (Nat × Nat)) (s : State) : NotesOnly s (s.noteAll l) :=
  foldl_rel (R := NotesOnly) (fun _ => rfl) (fun h k => by unfold NotesOnly at *; rw [k, h]) (fun s r _ => noteWrite_only s r.1 r.2) s

section
variable (s : State) (u : Update) (stack n : Nat) (l : List (Nat × Nat)) (w : Work)

theorem worked_only : NotesOnly { s with
    hbm := (s.worked u stack n l w).hbm, mint := (s.worked u stack n l w).mint, census := (s.worked u stack n l w).census }
    (s.worked u stack n l w) := by
  have notes := noteAll_only l ({ s with hbm := w.hbm } : State)
  unfold State.worked
  unfold NotesOnly at *
  rw [(reports_counted _ u (stack / 3) w).frame]
  rw [notes]
  rfl

theorem worked_mnt (m : Nat) : (s.worked u stack n l w).mnt m = if m = stack then { s.mnt m with
    elems := (s.mnt m).elems + BitVec.ofNat 32 n, busyBeats := satAdd (s.mnt m).busyBeats ((n + 63) / 64) } else s.mnt m := by
  have notes := noteAll_only l ({ s with hbm := w.hbm } : State)
  have kept (m : Nat) : (State.noteAll { s with hbm := w.hbm } l).mnt m = s.mnt m := by
    unfold NotesOnly at notes
    rw [notes]
    rfl
  have reported : (s.worked u stack n l w).mint = ((State.noteAll { s with hbm := w.hbm } l).modMnt stack
      fun x => { x with elems := x.elems + BitVec.ofNat 32 n, busyBeats := satAdd x.busyBeats ((n + 63) / 64) }).mint := by
    unfold State.worked
    rw [(reports_counted _ u (stack / 3) w).frame]
  unfold State.mnt at *
  rw [reported]
  split
  · rename_i same
    subst same
    rw [← kept m]
    exact State.modMnt_same _ _ _
  · rename_i other
    rw [← kept m]
    exact State.modMnt_ne _ _ other

/-- Without a Census area the reports leave the memory. -/
theorem worked_hbm (none : (s.nums u.ctx.toNat).censusBase = 0) : (s.worked u stack n l w).hbm = w.hbm := by
  have notes := noteAll_only l ({ s with hbm := w.hbm } : State)
  unfold NotesOnly at notes
  unfold State.worked
  rw [(reports_counted _ u (stack / 3) w).2]
  · rw [State.modMnt_hbm, notes]
  · rw [notes]
    exact none

theorem skipped_only (k : Nat) : s.skipped u k = { s with mctx := (s.skipped u k).mctx, num := (s.skipped u k).num } := by
  unfold State.skipped
  split <;> rfl

end

/-! ### What a bundle applied leaves (R158, R162) -/

section
variable (s : State) (u v : Update) (stack n : Nat) (l : List (Nat × Nat)) (w : Work)

/-- The device once a Mint has applied a bundle with work `w`, with the update as it then stands. -/
def State.bundled (s : State) (u v : Update) (stack n : Nat) (l : List (Nat × Nat)) (w : Work) : State :=
  ((s.worked u stack n l w).skipped u w.skipped).setUpd v

theorem bundled_only : NotesOnly { s with
    hbm := (s.bundled u v stack n l w).hbm, upd := (s.bundled u v stack n l w).upd, mint := (s.bundled u v stack n l w).mint
    mctx := (s.bundled u v stack n l w).mctx, num := (s.bundled u v stack n l w).num
    census := (s.bundled u v stack n l w).census } (s.bundled u v stack n l w) := by
  have worked := worked_only s u stack n l w
  unfold State.bundled State.setUpd
  unfold NotesOnly at *
  rw [skipped_only, worked]

theorem bundled_mnt (m : Nat) : (s.bundled u v stack n l w).mnt m = if m = stack then { s.mnt m with
    elems := (s.mnt m).elems + BitVec.ofNat 32 n, busyBeats := satAdd (s.mnt m).busyBeats ((n + 63) / 64) } else s.mnt m := by
  rw [← worked_mnt s u stack n l w m]
  unfold State.bundled State.setUpd State.mnt
  rw [skipped_only]

theorem bundled_hbm (none : (s.nums u.ctx.toNat).censusBase = 0) : (s.bundled u v stack n l w).hbm = w.hbm := by
  rw [← worked_hbm s u stack n l w none]
  unfold State.bundled State.setUpd
  rw [skipped_only]

end

/-- A bundle that its Mint may take now, in ranges that it may reach. -/
theorem applyAt_works {s : State} {u : Update} {i p : Nat} {vals : List W32} {h : Share} (share : u.shares[i]? = some h)
    (runs : s.mintRuns h.stack = true) (warm : u.frozen = false)
    (open_ : ∀ r ∈ Job.ranges ⟨u, i, (s.nums u.ctx.toNat).seed⟩ p vals.length, s.guarded r.1 r.2 = false)
    (come : ∀ r ∈ Job.reads ⟨u, i, (s.nums u.ctx.toNat).seed⟩ p vals.length, s.hbmWait r.1 r.2 = false)
    (sound : s.mintCheck u.ctx (Job.ranges ⟨u, i, (s.nums u.ctx.toNat).seed⟩ p vals.length)
      (Job.reads ⟨u, i, (s.nums u.ctx.toNat).seed⟩ p vals.length) = none) :
    let j : Job := { u := u, i := i, seed := (s.nums u.ctx.toNat).seed }
    let w := j.bundle { hbm := s.hbm, sh := h } p vals
    ∃ v, s.applyAt u i p vals = some (s.bundled u v h.stack vals.length (j.ranges p vals.length) w) := by
  unfold State.applyAt
  dsimp only
  rw [share]
  dsimp only
  rw [if_neg (by simp [runs]), if_neg (by simp [warm]), if_neg, sound]
  · unfold State.bundled State.worked State.skipped State.noteAll
    exact ⟨_, rfl⟩
  · rw [Bool.or_eq_true, not_or, Bool.not_eq_true, Bool.not_eq_true]
    exact ⟨List.any_eq_false.2 fun r hr => by simp [open_ r hr], List.any_eq_false.2 fun r hr => by simp [come r hr]⟩

end Sys2Proof.Machine
end
section
/-! SUPPORT. A bundle's way over a link to its Mint (R157, R158, R221, R226). -/

namespace Sys2Proof.Machine

/-! ### A packet, and the one right behind it (R221) -/

/-- A packet that arrives is taken. -/
theorem arrive_takes {s : State} {p : PortId} {k : Packet} {ty : Nat} (h : Arrives s p k ty) (hb : ty ≠ 15) :
    s.arrive p.val k = .take (s.given p k) := by
  obtain ⟨type, takes, dst, admits, deaf⟩ := h
  have type15 : k.ty ≠ 15 := fun x => hb (by rw [← type, x]; rfl)
  have admits' : ((s.given p k).prt6 p.val).admits k = true := by
    rw [given_port]
    split <;> exact admits
  have here : ¬k.dst ≠ (s.given p k).devId := by
    rw [given_frame, not_not]
    exact dst
  unfold State.arrive
  rw [if_neg takes.2.1, linkIn_takes takes]
  unfold State.served State.takePkt
  dsimp only
  rw [if_neg type15, if_neg here, admits', given_ctx, deaf]
  simp

/-- The device once a bundle's packets have gone on. -/
def State.givenAll (s : State) (p : PortId) (k : Packet) (more : Option Packet) : State :=
  more.elim (s.given p k) fun m => (s.given p k).given p m

section
variable {s : State} {p : PortId} {k : Packet} {more : Option Packet}

theorem givenAll_frame : s.givenAll p k more = { s with port := (s.givenAll p k more).port } := by
  unfold State.givenAll
  cases more with
  | none => exact given_frame s p k
  | some m =>
    show (s.given p k).given p m = _
    rw [given_frame (s.given p k) p m, given_frame s p k]
    rfl

/-- No port goes DOWN, or comes up, for a packet that goes on. -/
theorem givenAll_st (j : Nat) : ((s.givenAll p k more).prt6 j).st = (s.prt6 j).st := by
  unfold State.givenAll
  cases more with
  | none => exact (given_prt6 s p k j).1
  | some m => exact ((given_prt6 (s.given p k) p m j).1).trans (given_prt6 s p k j).1

theorem second_takes (follows : ∀ m ∈ more, m ∉ s.links.loop ∧ Arrives (s.given p k) p m 7) :
    (s.given p k).second p.val more = (s.givenAll p k more, true) := by
  unfold State.second State.givenAll
  cases more with
  | none => rfl
  | some m =>
    obtain ⟨direct, arrives⟩ := follows m rfl
    have links : (s.given p k).links = s.links := by rw [given_frame]
    dsimp only
    rw [links, if_neg (by simp [direct]), arrive_takes arrives (by decide)]
    rfl

/-- A bundle over a link that the Mints take. -/
theorem mintBundle_takes (arrives : Arrives s p k 7) (follows : ∀ m ∈ more, m ∉ s.links.loop ∧ Arrives (s.given p k) p m 7)
    {t : State} (taken : (s.givenAll p k more).takeBundle ((s.givenAll p k more).bundleOf k more) = some t) :
    exec (.mintBundle (.link p k more)) s = .next t := by
  have ty : ¬k.ty ≠ 7 := not_not.2 (BitVec.eq_of_toNat_eq arrives.1)
  show execMintBundle (.link p k more) s = _
  unfold execMintBundle
  dsimp only
  rw [if_neg ty]
  unfold State.linkBundle
  rw [arrive_takes arrives (by decide)]
  dsimp only
  rw [second_takes follows]
  dsimp only
  rw [if_pos rfl, taken]

end

/-! ### What a bundle meets does not depend on the packets that carry it (R271) -/

section
variable (s : State) (p : PortId) (k : Packet) (more : Option Packet)

theorem givenAll_refetchable : (s.givenAll p k more).refetchable = s.refetchable := by
  funext g
  have route (d : DevId) : (s.givenAll p k more).route d = s.route d :=
    route_congr (by rw [givenAll_frame]) givenAll_st d none
  unfold State.refetchable State.teacherSrc
  rw [route, givenAll_frame]
  rfl

theorem givenAll_hbmWait (a n : Nat) : (s.givenAll p k more).hbmWait a n = s.hbmWait a n := by
  unfold State.hbmWait
  rw [givenAll_refetchable, givenAll_frame]
  rfl

theorem givenAll_hbmCheck (c a n : Nat) (wr own : Bool) : (s.givenAll p k more).hbmCheck c a n wr own = s.hbmCheck c a n wr own := by
  unfold State.hbmCheck State.ueMeets
  rw [givenAll_refetchable, givenAll_frame]
  rfl

theorem givenAll_mintCheck (c : CtxId) (l rd : List (Nat × Nat)) : (s.givenAll p k more).mintCheck c l rd = s.mintCheck c l rd := by
  unfold State.mintCheck State.accessFault
  simp only [givenAll_hbmCheck]
  rw [givenAll_frame]
  rfl

theorem givenAll_guarded (a n : Nat) : (s.givenAll p k more).guarded a n = s.guarded a n := by
  rw [givenAll_frame]
  rfl

end

/-! ### The fate of a bundle (R157, R158) -/

/-- A bundle carries no more values than it announces. -/
theorem bundleOf_vals (s : State) (k : Packet) (more : Option Packet) :
    (s.bundleOf k more).vals.length ≤ (s.bundleOf k more).count := by
  unfold State.bundleOf
  dsimp only
  rw [List.length_map]
  exact List.length_take_le _ _

/-- A bundle of a rows layer that is applied lies in one row. -/
theorem fate_apply_row {u : Update} {b : Bundle} {i p : Nat} (apply : u.fate b = .apply i p) (rows : u.d.rows = true) :
    b.count ≤ u.d.nCols := by
  unfold Update.fate at apply
  split at apply
  · cases apply
  · unfold Update.fateRow at apply
    dsimp only at apply
    split at apply
    · cases apply
    · split at apply
      · cases apply
      · split at apply
        · cases apply
        · omega

section
variable {s : State} {b : Bundle} {u : Update} (found : s.upd.find? (fun u => u.is b.ctx b.desc && u.opened && u.step == b.step) = some u)
  (serving : ∀ h ∈ u.shares, (s.mnt h.stack).service = false) (finite : b.vals.all isFinite = true)
include found serving finite

theorem takeBundle_applies {i p : Nat} (apply : u.fate b = .apply i p) : s.takeBundle b = s.applyAt u i p b.vals := by
  unfold State.takeBundle
  rw [found]
  dsimp only
  rw [if_neg (by simpa using serving), if_pos finite, apply]

theorem takeBundle_buffers {i p : Nat} {h : Share} (buffer : u.fate b = .buffer i p) (share : u.shares[i]? = some h)
    (room : s.buffered h.stack < 64) :
    s.takeBundle b = some (s.setUpd (u.putShare { h with reorder := h.reorder ++ [b] })) := by
  unfold State.takeBundle
  rw [found]
  dsimp only
  rw [if_neg (by simpa using serving), if_pos finite, buffer]
  dsimp only
  rw [share]
  dsimp only
  rw [if_neg (by omega)]

end

/-! ### OPEN (R157) -/

section
variable {s : State}

/-- The update of a descriptor is that descriptor's. -/
theorem updOf_is {c : CtxId} {desc : BitVec 12} {u : Update} (found : s.updOf c desc = some u) : u.ctx = c ∧ u.desc = desc := by
  have is := List.find?_some found
  unfold Update.is at is
  rw [Bool.and_eq_true, beq_iff_eq, beq_iff_eq] at is
  exact is

/-- An update takes the place of the one it grew from. -/
theorem setUpd_updOf {c : CtxId} {desc : BitVec 12} {u v : Update} (found : s.updOf c desc = some u) (ctx : v.ctx = c) (same : v.desc = desc) :
    (s.setUpd v).updOf c desc = some v := by
  subst ctx same
  have is : v.is v.ctx v.desc = true := by simp [Update.is]
  unfold State.updOf State.setUpd at *
  dsimp only
  rw [List.find?_map]
  have kept : ((fun x : Update => x.is v.ctx v.desc) ∘ fun x => if x.is v.ctx v.desc = true then v else x)
      = fun x => x.is v.ctx v.desc := by
    funext x
    dsimp only [Function.comp]
    split
    · rename_i own
      rw [is, own]
    · rfl
  rw [kept, found, Option.map_some, if_pos (List.find?_some found)]

theorem opening_goes {c : CtxId} {desc : BitVec 12} {step : W32} {count : Nat} {u : Update} {e : Byte} (found : s.updOf c desc = some u)
    (armed : u.armed = true) (free : ∀ h ∈ u.shares, s.mintHeld h.stack = false) (now : step = u.step) (fresh : u.opened = false)
    (whole : if u.d.rows = true then count % u.d.nCols = 0 else count = u.d.total) (warm : u.frozen = false)
    (scale : (s.nums c.toNat).eAt step = .val e) :
    s.opening c desc step count = .go { u with opened := true, total := count, scale := pow2 (-e.toInt) } := by
  have sound : ¬(if u.d.rows = true then count % u.d.nCols ≠ 0 else count ≠ u.d.total) := by
    split
    · rename_i rows
      rw [if_pos rows] at whole
      exact not_not.2 whole
    · rename_i dense
      rw [if_neg dense] at whole
      exact not_not.2 whole
  unfold State.opening
  rw [found]
  dsimp only
  rw [if_neg (by simpa [armed] using free), if_neg (not_not.2 now), if_neg (by simp [fresh]), if_neg sound, if_neg (by simp [warm]), scale]

/-- An OPEN over a link that the Mints take. -/
theorem mintOpen_opens {p : PortId} {k : Packet} {u : Update} (more : Option Packet) (arrives : Arrives s p k 6)
    (goes : s.opening k.dstCtx (BitVec.ofNat 12 k.target.toNat) k.step (k.aux.toNat % 2 ^ 48) = .go u) :
    exec (.mintOpen (.link p k more)) s = .next ((s.given p k).setUpd u) := by
  have same : (s.given p k).opening k.dstCtx (BitVec.ofNat 12 k.target.toNat) k.step (k.aux.toNat % 2 ^ 48)
      = s.opening k.dstCtx (BitVec.ofNat 12 k.target.toNat) k.step (k.aux.toNat % 2 ^ 48) := by
    rw [given_frame]
    rfl
  show execMintOpen (.link p k more) s = _
  unfold execMintOpen
  dsimp only
  rw [receive_arrives arrives (by decide)]
  unfold State.doOpen
  rw [same, goes]
  rfl

theorem mintOpen_engine_opens {i : Nat} {b : Bundle} {u : Update}
    (first : s.engineMsg true (fun b => (s.doOpen b.ctx b.desc b.step b.count).isSome) = some (i, b))
    (goes : s.opening b.ctx b.desc b.step b.count = .go u) : exec (.mintOpen .engine) s = .next ((s.dropMsg i).setUpd u) := by
  have same : (s.dropMsg i).opening b.ctx b.desc b.step b.count = .go u := goes
  have opened : (s.dropMsg i).doOpen b.ctx b.desc b.step b.count = some ((s.dropMsg i).setUpd u) := by
    unfold State.doOpen
    rw [same]
  show execMintOpen .engine s = _
  unfold execMintOpen
  dsimp only
  rw [first]
  dsimp only
  rw [opened]
  rfl

/-! ### Bundles from the engine, and out of a reorder buffer (R157, R158) -/

theorem mintBundle_engine_takes {i : Nat} {b : Bundle} {t : State}
    (first : s.engineMsg false (fun b => (s.takeBundle (s.cut b).1).isSome) = some (i, b)) (whole : (s.cut b).2 = none)
    (taken : (s.dropMsg i).takeBundle (s.cut b).1 = some t) : exec (.mintBundle .engine) s = .next t := by
  show execMintBundle .engine s = _
  unfold execMintBundle
  dsimp only
  rw [first]
  dsimp only
  rw [whole]
  dsimp only
  rw [taken]
  rfl

theorem reorder_applies {m : StackId} {c : CtxId} {desc : BitVec 12} {u : Update} {h : Share} {i : Nat} {b : Bundle} {t : State}
    (found : s.updOf c desc = some u) (share : u.shares.zipIdx.find? (fun h => h.1.stack = m.val) = some (h, i))
    (next : h.reorder.find? (fun b => (u.d.place b.first).2 = h.next) = some b)
    (applied : s.applyAt (u.putShare { h with reorder := h.reorder.filter (· ≠ b) }) i h.next b.vals = some t) :
    exec (.reorderBundleApply m c desc) s = .next t := by
  show execReorderBundleApply m c desc s = _
  unfold execReorderBundleApply
  rw [found]
  dsimp only
  rw [share]
  dsimp only
  rw [next]
  dsimp only
  rw [applied]
  rfl

end

end Sys2Proof.Machine
end
section
/-! SUPPORT. Arming: UPDATE, its checks, and the claiming that goes on (R153, R156, R166, R170, R273). -/

namespace Sys2Proof.Machine

/-! ### Claims (R153) -/

section
variable {s : State} {u : Update}

/-- Where every Mint has a slot, the claim takes them all. -/
theorem claim_all {l : List Share} (free : ∀ h ∈ l, s.slotFree u h.stack = true) : ∀ h ∈ s.claim u l, h.armed = true := by
  induction l with
  | nil => exact fun h mem => absurd mem List.not_mem_nil
  | cons a l ih =>
    obtain ⟨first, rest⟩ := List.forall_mem_cons.1 free
    unfold State.claim
    by_cases armed : a.armed = true
    · rw [if_pos armed]
      exact List.forall_mem_cons.2 ⟨armed, ih rest⟩
    · rw [if_neg armed, if_pos first]
      exact List.forall_mem_cons.2 ⟨rfl, ih rest⟩

/-- The update armed on all its Mints, with its clip factor read. -/
def State.armedOf (s : State) (u : Update) : Update :=
  { u with
    shares := s.claim u u.shares
    clip := if u.frozen = false ∧ u.d.clipSrc ≠ 0 then (s.clu (wordAt u.d.clipSrc).1.toNat).mem.read32 (wordAt u.d.clipSrc).2 else u.clip }

theorem armedOf_armed (free : ∀ h ∈ u.shares, s.slotFree u h.stack = true) : (s.armedOf u).armed = true :=
  List.all_eq_true.2 (claim_all free)

theorem armOn_arms (free : ∀ h ∈ u.shares, s.slotFree u h.stack = true) :
    s.armOn u = (s.setUpd (s.armedOf u)).modCtx u.ctx.toNat fun x => x.phase u.seq .dispatched := by
  have armed : ({ u with shares := s.claim u u.shares } : Update).armed = true := armedOf_armed free
  by_cases clips : u.frozen = false ∧ u.d.clipSrc ≠ 0
  · have whole : s.armedOf u = { u with
        shares := s.claim u u.shares, clip := (s.clu (wordAt u.d.clipSrc).1.toNat).mem.read32 (wordAt u.d.clipSrc).2 } := by
      unfold State.armedOf
      rw [if_pos clips]
    have armed' : (s.armedOf u).armed = true := armedOf_armed free
    unfold State.armOn
    dsimp only
    rw [armed, if_pos (by simpa [clips.1] using clips.2), ← whole, armed']
    rfl
  · have whole : s.armedOf u = { u with shares := s.claim u u.shares } := by
      unfold State.armedOf
      rw [if_neg clips]
    unfold State.armOn
    dsimp only
    rw [armed, if_neg (by simpa using clips), ← whole, armedOf_armed free]
    rfl

end

/-! ### UPDATE (R156) -/

/-- A check whose outcome is another was passed. -/
theorem ne_of_ite {α : Type} {P : Prop} [Decidable P] {a b g : α} (h : (if P then a else b) = g) (other : a ≠ g) : ¬P ∧ b = g := by
  by_cases p : P
  · rw [if_pos p] at h
    exact absurd h other
  · rw [if_neg p] at h
    exact ⟨p, h⟩

/-- An update goes on only where its descriptor has none in progress. -/
theorem arming_fresh {s : State} {q : QE} {u : Update} (go : s.arming q = .go u) :
    u.ctx = q.ctx ∧ s.updOf q.ctx u.desc = none := by
  unfold State.arming at go
  iterate 7 replace go := (ne_of_ite go nofun).2
  obtain ⟨fresh, go⟩ := ne_of_ite go nofun
  replace go := (ne_of_ite go nofun).2
  split at go
  · cases go
  · cases (ne_of_ite go nofun).2
    rw [Bool.or_eq_true, not_or] at fresh
    exact ⟨rfl, Option.not_isSome_iff_eq_none.1 fresh.1⟩

/-- The device once command `q`'s update `u` has joined the others. -/
def State.joinedBy (s : State) (q : QE) (u : Update) : State :=
  { s with sched := { s.sched with update := s.sched.update.filter (· ≠ q) }, upd := s.upd ++ [u] }

/-- An update that has joined the others takes its own place alone. -/
theorem setUpd_joinedBy {s : State} {q : QE} {u w : Update} (fresh : s.updOf u.ctx u.desc = none) (ctx : w.ctx = u.ctx)
    (desc : w.desc = u.desc) : (s.joinedBy q u).setUpd w = s.joinedBy q w := by
  have other : s.upd.map (fun x => if x.is w.ctx w.desc then w else x) = s.upd := by
    refine (List.map_congr_left fun x hx => ?_).trans (List.map_id _)
    rw [ctx, desc, if_neg (List.find?_eq_none.1 fresh x hx)]
    rfl
  have own : u.is w.ctx w.desc = true := by rw [ctx, desc]; simp [Update.is]
  unfold State.setUpd State.joinedBy
  dsimp only
  rw [List.map_append, other, List.map_singleton, if_pos own]

/-- A new update does not stand in the way of its own slots. -/
theorem slotFree_joinedBy (s : State) (q : QE) (u : Update) (m : Nat) : (s.joinedBy q u).slotFree u m = s.slotFree u m := by
  have own : (!u.is u.ctx u.desc && u.shares.any fun h => h.stack == m && h.armed) = false := by simp [Update.is]
  have held : (s.upd ++ [u]).filter (fun x => !x.is u.ctx u.desc && x.shares.any fun h => h.stack == m && h.armed)
      = s.upd.filter fun x => !x.is u.ctx u.desc && x.shares.any fun h => h.stack == m && h.armed := by
    rw [List.filter_append, List.filter_cons_of_neg (by rw [own]; decide), List.filter_nil, List.append_nil]
  unfold State.slotFree State.joinedBy
  dsimp only
  rw [held]
  rfl

section
variable {c : CtxId} {q : QE} {s : State} (head : s.sched.update.find? (fun q => q.ctx = c) = some q)
  (resident : (s.ctx c.toNat).st = .resident)
include head

theorem updateHead_ctx : q.ctx = c := by simpa using List.find?_some head

include resident

theorem update_status {st : Nat} {m : Option Nat} (status : s.arming q = .status st m) :
    exec (.update c) s = .next (s.mintFault c (BitVec.ofNat 12 (fld q.img 0x10 11 0)) st m q.seq) := by
  show execUpdate c s = _
  unfold execUpdate
  rw [head]
  dsimp only
  rw [if_neg (by simp [State.isIn, resident]), status]

theorem update_code {f : U16} {m a : Nat} (code : s.arming q = .code f m a) :
    exec (.update c) s = .next (s.faultAt q (f, a) (BitVec.ofNat 16 (m / 3))) := by
  show execUpdate c s = _
  unfold execUpdate
  rw [head]
  dsimp only
  rw [if_neg (by simp [State.isIn, resident]), code]

theorem update_goes {u : Update} (go : s.arming q = .go u) : exec (.update c) s = .next ((s.joinedBy q u).armOn u) := by
  show execUpdate c s = _
  unfold execUpdate
  rw [head]
  dsimp only
  rw [if_neg (by simp [State.isIn, resident]), go]
  rfl

end

/-! ### The status of a Mint that faults (R170) -/

theorem faultCtx_mint (s : State) (c : CtxId) (code : U16) (detail : W64) (cmd : W32) (unit : U16) (irq : Bool) :
    (faultCtx s c code detail cmd unit irq).mint = s.mint := by
  by_cases alive : (s.ctx c.toNat).st.alive
  · obtain ⟨r, only⟩ := faultCtx_eq s c code detail cmd unit irq alive
    unfold AlarmOnly at only
    rw [only, State.modCtx_mint, stopCtx_only]
  · rw [faultCtx_idle _ _ _ _ _ _ _ alive]

/-- A status faults the context, and MINT_LAST_FAULT of the Mint shows it. -/
theorem mintFault_shows {s : State} {c : CtxId} (desc : BitVec 12) (st m : Nat) (cmd : W32) (alive : (s.ctx c.toNat).st.alive) :
    Faulted s (s.mintFault c desc st (some m) cmd) c (BitVec.ofNat 16 (0x100 + st))
      ∧ ((s.mintFault c desc st (some m) cmd).mnt m).lastFault = BitVec.ofNat 32 (st + desc.toNat * 2 ^ 8 + c.toNat * 2 ^ 20) := by
  unfold State.mintFault
  dsimp only
  refine ⟨faultCtx_faulted (s.modMnt m _) c _ _ _ _ _ alive, ?_⟩
  unfold State.mnt
  rw [faultCtx_mint]
  exact congrArg MintUnit.lastFault (State.modMnt_same s m _)

/-- BAD_CLUSTER comes before the other faults of words (check 6). -/
theorem wordsFault_first {s : State} {c : CtxId} {ws : List W32} {f : U16 × Nat} (found : s.wordsFault c ws = some f) (later : f.1 ≠ 0x0004) :
    ∀ w ∈ ws, ∀ a, s.wordFault c w ≠ some (0x0004, a) := by
  intro w hw a bad
  have mem : ((0x0004 : U16), a) ∈ ws.filterMap (s.wordFault c) := List.mem_filterMap.2 ⟨w, hw, bad⟩
  unfold State.wordsFault at found
  dsimp only at found
  cases first : (ws.filterMap (s.wordFault c)).find? fun g => g.1 == 0x0004 with
  | none =>
    have other := List.find?_eq_none.1 first _ mem
    exact other rfl
  | some g =>
    rw [List.findSome?_cons, first] at found
    cases found
    have bad := List.find?_some first
    exact later (by simpa using bad)

/-! ### UPDATE_ARM_RESUME (R153, R273) -/

section
variable {c : CtxId} {desc : BitVec 12} {u : Update} {s : State} (found : s.updOf c desc = some u) (claiming : u.armed = false)
  (resident : (s.ctx c.toNat).st = .resident)
include found claiming resident

theorem armResume_fails (warm : u.frozen = false) (failed : s.wordFailed u.d.clipSrc = true ∨ s.wordFailed u.d.normDest = true) :
    exec (.updateArmResume c desc) s = .next (faultCtx s c 0x0504 0 u.seq (BitVec.ofNat 16 (u.d.home / 3))) := by
  show execUpdateArmResume c desc s = _
  unfold execUpdateArmResume
  rw [found]
  dsimp only
  rw [if_neg (by simp [claiming, State.isIn, resident]), if_pos (by simpa [warm] using failed)]

theorem armResume_goes (sound : u.frozen = true ∨ (s.wordFailed u.d.clipSrc = false ∧ s.wordFailed u.d.normDest = false)) :
    exec (.updateArmResume c desc) s = .next (s.armOn u) := by
  show execUpdateArmResume c desc s = _
  unfold execUpdateArmResume
  rw [found]
  dsimp only
  rw [if_neg (by simp [claiming, State.isIn, resident]), if_neg (by rcases sound with cold | words <;> simp [*])]

end

end Sys2Proof.Machine
end
section
/-! SUPPORT. The second pass and the end of an UPDATE (R159, R163, R166, R168, R170, R273). -/

namespace Sys2Proof.Machine

/-! ### A share's second pass (R163) -/

section
variable (j : Job)

theorem putW_stack (w : Work) (p e : Nat) (x : W32) : (j.putW w p e x).sh.stack = w.sh.stack := by
  unfold Job.putW
  dsimp only
  split
  · split <;> rfl
  · rfl

theorem element2_stack (g : Merged) (w : Work) (p : Nat) : (j.element2 g w p).sh.stack = w.sh.stack := by
  unfold Job.element2
  dsimp only
  split
  · unfold Job.keepW
    split
    · exact putW_stack j _ _ _ _
    · rfl
  · exact putW_stack j _ _ _ _

/-- A share's second pass works on that share. -/
theorem pass2_stack (g : Merged) (l : List Nat) (w : Work) : (l.foldl (j.element2 g) w).sh.stack = w.sh.stack :=
  foldl_rel (R := fun w w' : Work => w'.sh.stack = w.sh.stack) (fun _ => rfl) (fun h k => k.trans h)
    (fun w p _ => element2_stack j g w p) w

end

/-- What the Mints' second pass changes. -/
def PassOnly (s t : State) : Prop := NotesOnly { s with hbm := t.hbm, upd := t.upd, mint := t.mint, census := t.census } t

theorem PassOnly.trans {s t u : State} (first : PassOnly s t) (second : PassOnly t u) : PassOnly s u := by
  unfold PassOnly NotesOnly at *
  rw [second, first]

theorem Counted.passOnly {c : Nat} {s t : State} (h : Counted c s t) : PassOnly s t := by
  unfold PassOnly NotesOnly
  rw [h.frame]

/-- From `s`, the first `k` Mints of update `u` have run their second pass. -/
def Passed (s : State) (u : Update) (k : Nat) (t : State) : Prop :=
  PassOnly s t ∧ ∃ shares, t.updOf u.ctx u.desc = some { u with shares := shares } ∧ shares.length = u.shares.length
    ∧ ∀ i < k, ∀ h ∈ shares[i]?, h.pass2 = true

/-- The device once the Mint at place `i` has run its pass. -/
def State.passedAt (s : State) (u : Update) (g : Merged) (i : Nat) (h : Share) : State × Share :=
  let w := (List.range (u.d.shareLen i)).foldl (Job.element2 ⟨u, i, (s.nums u.ctx.toNat).seed⟩ g) { hbm := s.hbm, sh := h }
  (State.modMnt { s.reports u (h.stack / 3) w with hbm := w.hbm } h.stack fun x => { x with
    busyBeats := satAdd x.busyBeats ((u.d.shareLen i + 63) / 64) }, { w.sh with pass2 := true })

section
variable {s : State} {u v : Update} {g : Merged} {i : Nat} {h : Share}

theorem passedAt_only : PassOnly s (s.passedAt u g i h).1 := by
  have reported := (reports_counted s u (h.stack / 3)
    ((List.range (u.d.shareLen i)).foldl (Job.element2 ⟨u, i, (s.nums u.ctx.toNat).seed⟩ g) { hbm := s.hbm, sh := h })).passOnly
  unfold State.passedAt
  dsimp only
  unfold PassOnly NotesOnly at *
  rw [reported]
  rfl

theorem passedAt_upd : (s.passedAt u g i h).1.upd = s.upd := by
  unfold State.passedAt
  dsimp only
  rw [State.modMnt_upd, (reports_counted s u _ _).frame]

theorem passedAt_share : (s.passedAt u g i h).2.pass2 = true ∧ (s.passedAt u g i h).2.stack = h.stack :=
  ⟨rfl, pass2_stack _ _ _ _⟩

theorem pass2At_runs (found : s.updOf v.ctx v.desc = some u) (share : u.shares[i]? = some h) :
    s.pass2At v g i = (s.passedAt u g i h).1.setUpd (u.putShare (s.passedAt u g i h).2) := by
  unfold State.pass2At
  rw [found]
  dsimp only
  rw [share]
  rfl

/-- The next Mint runs its pass. -/
theorem pass2At_passes {t : State} {k : Nat} (passed : Passed s u k t) (more : k < u.shares.length) :
    Passed s u (k + 1) (t.pass2At u g k) := by
  obtain ⟨only, shares, found, length, done⟩ := passed
  have share : shares[k]? = some shares[k] := List.getElem?_eq_getElem (by omega)
  have runs := pass2At_runs (g := g) found share
  have found' : (t.passedAt { u with shares := shares } g k shares[k]).1.updOf u.ctx u.desc = some { u with shares := shares } := by
    unfold State.updOf
    rw [passedAt_upd]
    exact found
  obtain ⟨pass, stack⟩ := passedAt_share (s := t) (u := { u with shares := shares }) (g := g) (i := k) (h := shares[k])
  rw [runs]
  refine ⟨only.trans (passedAt_only.trans rfl), _, setUpd_updOf found' rfl rfl, (List.length_map _).trans length, fun i hi h mem => ?_⟩
  rw [List.getElem?_map] at mem
  obtain ⟨old, at_, rfl⟩ := Option.map_eq_some_iff.1 mem
  split
  · exact pass
  · rename_i other
    rcases Nat.lt_succ_iff_lt_or_eq.1 hi with earlier | rfl
    · exact done i earlier old at_
    · rw [share] at at_
      cases at_
      exact absurd stack.symm other

/-- Every Mint of the update runs its pass. -/
theorem pass2_all {t : State} (start : Passed s u 0 t) {k : Nat} (hk : k ≤ u.shares.length) :
    Passed s u k ((List.range k).foldl (fun s i => s.pass2At u g i) t) := by
  induction k with
  | zero => exact start
  | succ k ih =>
    rw [List.range_succ, List.foldl_append]
    exact pass2At_passes (ih (by omega)) (by omega)

end

/-- What the home Mint does before the broadcast. -/
def State.homeWork (s : State) (u : Update) : Work := if u.c.vMode = 2 then s.statistics u else { hbm := s.hbm, sh := { stack := 0 } }

/-- The device at the broadcast of the merged sums. -/
def State.broadcasting (s : State) (u : Update) : State :=
  State.noteAll { s.reports u (u.d.home / 3) (s.homeWork u) with hbm := (s.homeWork u).hbm } u.pass2Ranges

section
variable {s : State} {c : CtxId} {desc : BitVec 12} {u : Update} (found : s.updOf c desc = some u) (ended : u.pass1Done = true)
include found

theorem broadcasting_passed : Passed s u 0 (s.broadcasting u) := by
  obtain ⟨rfl, rfl⟩ := updOf_is found
  have reported := (reports_counted s u (u.d.home / 3) (s.homeWork u)).passOnly
  have notes := noteAll_only u.pass2Ranges { s.reports u (u.d.home / 3) (s.homeWork u) with hbm := (s.homeWork u).hbm }
  have upd : (s.broadcasting u).upd = s.upd := by
    unfold State.broadcasting NotesOnly at *
    rw [notes, (reports_counted s u _ _).frame]
  refine ⟨?_, u.shares, ?_, rfl, fun i hi => absurd hi (Nat.not_lt_zero i)⟩
  · unfold State.broadcasting
    unfold PassOnly NotesOnly at *
    rw [notes, reported]
  · unfold State.updOf
    rw [upd]
    exact found

include ended

theorem pass2Start_runs (two : u.c.two = true) (warm : u.frozen = false)
    (ready : ∀ h ∈ u.shares, h.pass2 = false ∧ s.mintRuns h.stack = true)
    (open_ : ∀ r ∈ u.pass2Ranges, s.guarded r.1 r.2 = false) (come : ∀ r ∈ u.pass2Reads, s.hbmWait r.1 r.2 = false)
    (sound : s.mintCheck c u.pass2Ranges u.pass2Reads = none) :
    exec (.pass2Start c desc) s = .next ((List.range u.shares.length).foldl
      (fun t i => t.pass2At u (u.broadcast (s.broadcasting u).hbm) i) (s.broadcasting u)) := by
  have fresh : u.shares.any (·.pass2) = false := List.any_eq_false.2 fun h mem => by simp [(ready h mem).1]
  have run : u.shares.any (fun h => !s.mintRuns h.stack) = false := List.any_eq_false.2 fun h mem => by simp [(ready h mem).2]
  have free : u.pass2Ranges.any (fun r => s.guarded r.1 r.2) = false := List.any_eq_false.2 fun r mem => by simp [open_ r mem]
  have here : u.pass2Reads.any (fun r => s.hbmWait r.1 r.2) = false := List.any_eq_false.2 fun r mem => by simp [come r mem]
  show execPass2Start c desc s = _
  unfold execPass2Start
  rw [found]
  dsimp only
  rw [if_neg (by simp [ended, two, warm, fresh]), if_neg (by rw [run, free, here]; decide), sound]
  unfold State.broadcasting State.homeWork State.noteAll
  rfl

end

end Sys2Proof.Machine
end
section
/-! SUPPORT. The end of an UPDATE (R159, R166, R168, R170, R273). -/

namespace Sys2Proof.Machine

/-! ### The update leaves its Mints (R159) -/

section
variable (s : State) (u : Update) (st : Nat)

theorem updEnd_only : s.updEnd u st = { s with
    upd := s.upd.filter fun x => !x.is u.ctx u.desc
    mctx := (s.modMtc u.ctx.toNat fun x => { x with updates := x.updates + 1 }).mctx
    ctxs := (s.updEnd u st).ctxs, sched := (s.updEnd u st).sched } := by
  unfold State.updEnd
  rw [complete_only]
  rfl

theorem updEnd_mtc : (s.updEnd u st).mtc u.ctx.toNat = { s.mtc u.ctx.toNat with updates := (s.mtc u.ctx.toNat).updates + 1 } := by
  unfold State.mtc
  rw [updEnd_only]
  exact State.modMtc_same s u.ctx.toNat fun x => { x with updates := x.updates + 1 }

theorem updEnd_finishes : Finishes s (s.updEnd u st) (s.updCmd u) st :=
  Finishes.congr (s := ({ s with upd := s.upd.filter fun x => !x.is u.ctx u.desc } : State).modMtc u.ctx.toNat fun x =>
    { x with updates := x.updates + 1 }) (complete_finishes _ (s.updCmd u) st _ _) rfl rfl rfl rfl

end

/-- An alarm leaves what the end of a command speaks of. -/
theorem Finishes.alarmed {s t u : State} {q : QE} {code : Nat} (ends : Finishes s t q code) (alarm : AlarmOnly t u) :
    Finishes s u q code := by
  unfold AlarmOnly at alarm
  exact ends.congr rfl rfl (by rw [alarm]) (by rw [alarm])

/-- An update's command is that of its context's sequence. -/
theorem updCmd_of_ctxs {s t : State} (u : Update) (ctxs : t.ctxs = s.ctxs) : t.updCmd u = s.updCmd u := by
  unfold State.updCmd State.ctx
  rw [ctxs]

/-! ### UPDATE_COMPLETE (R159, R166, R168) -/

/-- STEP and LAST_DONE of a step. -/
def stepBytes (n : W32) : List Byte := leBytes 4 (n + 1).toNat ++ leBytes 4 n.toNat

theorem stepBytes_length (n : W32) : (stepBytes n).length = 8 := by
  unfold stepBytes
  rw [List.length_append, leBytes_length, leBytes_length]

theorem read32_stepBytes (m : Mem) (a : Nat) (n : W32) :
    (m.writeBytes a (stepBytes n)).read32 a = n + 1 ∧ (m.writeBytes a (stepBytes n)).read32 (a + 4) = n := by
  unfold stepBytes
  rw [Mem.writeBytes_append, leBytes_length, ← Mem.writeN_eq_writeBytes, ← Mem.writeN_eq_writeBytes]
  refine ⟨?_, Mem.read32_writeN _ _ _⟩
  rw [Mem.read32_congr fun b _ _ => Mem.read_writeN_out (by omega), Mem.read32_writeN]

/-- Of the clusters' memories only the norm's word changes, where the update names one, and it holds the norm (R166). -/
def Update.NormWritten (u : Update) (s t : State) : Prop :=
  if u.d.normDest = 0 then t.cls = s.cls else
    (t.clu (wordAt u.d.normDest).1.toNat).mem.read32 (wordAt u.d.normDest).2 = u.merged (·.norm)
    ∧ BytesBut (wordAt u.d.normDest).2 4 (s.clu (wordAt u.d.normDest).1.toNat).mem (t.clu (wordAt u.d.normDest).1.toNat).mem
    ∧ SameBut State.clu (wordAt u.d.normDest).1.toNat s t

theorem Update.NormWritten.of_cls {u : Update} {s t v : State} (norm : u.NormWritten s v) (cls : t.cls = v.cls) : u.NormWritten s t := by
  unfold Update.NormWritten SameBut State.clu at *
  rw [cls]
  exact norm

/-- The device once an update's step and its norm are written. -/
def State.stepWritten (s : State) (u : Update) (a : Nat) : State :=
  let t := s.hbmWrite a (stepBytes u.step)
  if u.d.normDest = 0 then t else t.modCl (wordAt u.d.normDest).1.toNat fun x => { x with
    mem := Mem.writeN x.mem (wordAt u.d.normDest).2 4 (u.merged (·.norm)).toNat }

section
variable (s : State) (u : Update) (a : Nat)

theorem stepWritten_only : NotesOnly { s with hbm := s.hbm.writeBytes a (stepBytes u.step), cls := (s.stepWritten u a).cls }
    (s.stepWritten u a) := by
  unfold State.stepWritten
  dsimp only
  split <;> rfl

theorem stepWritten_norm : u.NormWritten s (s.stepWritten u a) := by
  unfold Update.NormWritten State.stepWritten
  dsimp only
  split
  · rfl
  · rw [State.modCl_same]
    exact ⟨Mem.read32_writeN _ _ _, fun b out => Mem.read_writeN_out (by omega), fun j hj => State.modCl_ne _ _ hj⟩

end

section
variable {s : State} {c : CtxId} {desc : BitVec 12} {u : Update} (found : s.updOf c desc = some u) (ended : u.pass1Done = true)
  (whole : u.torn = false)
include found ended whole

theorem updateComplete_frozen (cold : u.frozen = true) : exec (.updateComplete c desc) s =
    .next (((s.modMtc c.toNat fun x => { x with frozenCount := x.frozenCount + 1 }).updEnd u 2).alarm pgMintCtx 1 (some c)) := by
  show execUpdateComplete c desc s = _
  unfold execUpdateComplete
  rw [found]
  dsimp only
  rw [if_neg (by simp [ended, cold]), if_neg (by simp [whole]), if_pos cold]

variable (warm : u.frozen = false) (passed : u.c.two = true → ∀ h ∈ u.shares, h.pass2 = true)
  (open_ : s.guarded ((s.mtc c.toNat).instBase.toNat + 128 * desc.toNat + 4) 8 = false)
  (norm : u.d.normDest ≠ 0 → (s.ctx c.toNat).st = .resident ∧ s.cluShut (wordAt u.d.normDest).1.toNat = false)
include warm passed open_ norm

omit found whole warm in
/-- Neither the second pass nor the norm's cluster nor an epoch holds the update back. -/
theorem updateComplete_ready :
    ¬(!u.pass1Done || (u.c.two && !u.frozen && !u.shares.all (·.pass2))) = true
      ∧ ¬((u.d.normDest != 0 && (!s.isIn c.toNat || s.cluShut (wordAt u.d.normDest).1.toNat))
        || s.guarded ((s.mtc c.toNat).instBase.toNat + 128 * desc.toNat + 4) 8) = true := by
  constructor
  · cases two : u.c.two
    · simp [ended]
    · simp [ended, List.all_eq_true.2 (passed two)]
  · rw [open_, Bool.or_false, Bool.and_eq_true, not_and]
    intro named
    obtain ⟨resident, served⟩ := norm (bne_iff_ne.1 named)
    simp [State.isIn, resident, served]

theorem updateComplete_fails (failed : s.wordFailed u.d.normDest = true) :
    exec (.updateComplete c desc) s = .next (faultCtx s c 0x0504 0 u.seq (BitVec.ofNat 16 (u.d.home / 3))) := by
  obtain ⟨ready, ready'⟩ := updateComplete_ready ended passed open_ norm
  show execUpdateComplete c desc s = _
  unfold execUpdateComplete
  rw [found]
  dsimp only
  rw [if_neg ready, if_neg (by simp [whole]), if_neg (by simp [warm]), if_neg ready', if_pos failed]

theorem updateComplete_ends (served : s.wordFailed u.d.normDest = false)
    (sound : s.hbmCheck c.toNat ((s.mtc c.toNat).instBase.toNat + 128 * desc.toNat + 4) 8 true true = none) :
    exec (.updateComplete c desc) s = .next (if u.nonfinite then
      ((s.stepWritten u ((s.mtc c.toNat).instBase.toNat + 128 * desc.toNat + 4)).updEnd u 1).alarm pgMintCtx 3 (some c)
      else (s.stepWritten u ((s.mtc c.toNat).instBase.toNat + 128 * desc.toNat + 4)).updEnd u 0) := by
  obtain ⟨ready, ready'⟩ := updateComplete_ready ended passed open_ norm
  show execUpdateComplete c desc s = _
  unfold execUpdateComplete
  rw [found]
  dsimp only
  rw [if_neg ready, if_neg (by simp [whole]), if_neg (by simp [warm]), if_neg ready', if_neg (by simp [served]), sound]
  unfold State.stepWritten stepBytes
  cases u.nonfinite <;> rfl

end

/-- What the end of an update leaves, once its step and norm are written. -/
theorem stepWritten_ends {s t : State} {u : Update} {a st : Nat} (alarm : AlarmOnly ((s.stepWritten u a).updEnd u st) t) :
    t.hbm.read32 a = u.step + 1 ∧ t.hbm.read32 (a + 4) = u.step ∧ BytesBut a 8 s.hbm t.hbm
    ∧ u.NormWritten s t ∧ Finishes s t (s.updCmd u) st ∧ t.upd = s.upd.filter (fun x => !x.is u.ctx u.desc)
    ∧ (t.mtc u.ctx.toNat).updates = (s.mtc u.ctx.toNat).updates + 1 ∧ t.pot = s.pot := by
  have written := stepWritten_only s u a
  have ends := updEnd_only (s.stepWritten u a) u st
  have finishes := updEnd_finishes (s.stepWritten u a) u st
  have mtc := updEnd_mtc (s.stepWritten u a) u st
  unfold NotesOnly at written
  have hbm : t.hbm = s.hbm.writeBytes a (stepBytes u.step) := by rw [alarm.keeps.2.1, ends, written]
  obtain ⟨step, done⟩ := read32_stepBytes s.hbm a u.step
  have but := writeBytes_but s.hbm a (stepBytes u.step)
  rw [stepBytes_length] at but
  rw [updCmd_of_ctxs u (by rw [written] : (s.stepWritten u a).ctxs = s.ctxs)] at finishes
  have same : (s.stepWritten u a).mtc u.ctx.toNat = s.mtc u.ctx.toNat := by rw [written]; rfl
  rw [hbm]
  refine ⟨step, done, but, ?_, (finishes.congr (u := s) (by rw [written]) (by rw [written]) rfl rfl).alarmed alarm, ?_, ?_, ?_⟩
  · refine (stepWritten_norm s u a).of_cls ?_
    unfold AlarmOnly at alarm
    rw [alarm, ends]
  · unfold AlarmOnly at alarm
    rw [alarm, ends, written]
  · rw [same] at mtc
    unfold AlarmOnly at alarm
    unfold State.mtc at *
    rw [alarm, mtc]
  · rw [alarm.keeps.2.2.2.2, ends, written]

/-- What the end of a frozen layer's update leaves. -/
theorem frozen_ends {s t : State} {u : Update}
    (alarm : AlarmOnly ((s.modMtc u.ctx.toNat fun x => { x with frozenCount := x.frozenCount + 1 }).updEnd u 2) t) :
    t.hbm = s.hbm ∧ t.cls = s.cls ∧ Finishes s t (s.updCmd u) 2 ∧ t.upd = s.upd.filter (fun x => !x.is u.ctx u.desc)
      ∧ (t.mtc u.ctx.toNat).frozenCount = (s.mtc u.ctx.toNat).frozenCount + 1 := by
  have counted := State.modMtc_same s u.ctx.toNat fun x => { x with frozenCount := x.frozenCount + 1 }
  have ends := updEnd_only (s.modMtc u.ctx.toNat fun x => { x with frozenCount := x.frozenCount + 1 }) u 2
  have finishes := updEnd_finishes (s.modMtc u.ctx.toNat fun x => { x with frozenCount := x.frozenCount + 1 }) u 2
  have mtc := updEnd_mtc (s.modMtc u.ctx.toNat fun x => { x with frozenCount := x.frozenCount + 1 }) u 2
  rw [counted] at mtc
  refine ⟨?_, ?_, (finishes.congr (u := s) rfl rfl rfl rfl).alarmed alarm, ?_, ?_⟩
  · rw [alarm.keeps.2.1, ends]
    rfl
  · unfold AlarmOnly at alarm
    rw [alarm, ends]
    rfl
  · unfold AlarmOnly at alarm
    rw [alarm, ends]
    rfl
  · unfold AlarmOnly at alarm
    unfold State.mtc at *
    rw [alarm, mtc]

end Sys2Proof.Machine
end
section
/-! O57: an UPDATE from its arming to its end. -/

namespace Sys2Proof.Machine

/-- A bundle that is next, over a link, is applied by its Mint. -/
theorem mintBundle_applies {s : State} {p : PortId} {k : Packet} {more : Option Packet} {u : Update} {i pos : Nat} {h : Share}
    {b : Bundle} (arrives : Arrives s p k 7) (follows : ∀ m ∈ more, m ∉ s.links.loop ∧ Arrives (s.given p k) p m 7)
    (carried : (s.givenAll p k more).bundleOf k more = b)
    (found : s.upd.find? (fun u => u.is b.ctx b.desc && u.opened && u.step == b.step) = some u)
    (serving : ∀ h ∈ u.shares, (s.mnt h.stack).service = false) (finite : b.vals.all isFinite = true)
    (apply : u.fate b = .apply i pos) (share : u.shares[i]? = some h) (warm : u.frozen = false)
    (runs : s.issueOpen (h.stack / 3) = true)
    (open_ : ∀ r ∈ Job.ranges ⟨u, i, (s.nums u.ctx.toNat).seed⟩ pos b.vals.length, s.guarded r.1 r.2 = false)
    (come : ∀ r ∈ Job.reads ⟨u, i, (s.nums u.ctx.toNat).seed⟩ pos b.vals.length, s.hbmWait r.1 r.2 = false)
    (sound : s.mintCheck u.ctx (Job.ranges ⟨u, i, (s.nums u.ctx.toNat).seed⟩ pos b.vals.length)
      (Job.reads ⟨u, i, (s.nums u.ctx.toNat).seed⟩ pos b.vals.length) = none) :
    let j : Job := { u := u, i := i, seed := (s.nums u.ctx.toNat).seed }
    ∃ v, exec (.mintBundle (.link p k more)) s = .next ((s.givenAll p k more).bundled u v h.stack b.vals.length
      (j.ranges pos b.vals.length) (j.bundle { hbm := s.hbm, sh := h } pos b.vals)) := by
  have frame : s.givenAll p k more = { s with port := (s.givenAll p k more).port } := givenAll_frame
  have serving' : ∀ h ∈ u.shares, ((s.givenAll p k more).mnt h.stack).service = false := by
    rw [frame]
    exact serving
  have found' : (s.givenAll p k more).upd.find? (fun u => u.is b.ctx b.desc && u.opened && u.step == b.step) = some u := by
    rw [frame]
    exact found
  have free : (s.givenAll p k more).mintRuns h.stack = true := by
    unfold State.mintRuns
    rw [serving' h (List.mem_of_getElem? share), frame]
    exact (Bool.and_true _).trans runs
  have seed : (s.givenAll p k more).nums u.ctx.toNat = s.nums u.ctx.toNat := by rw [frame]; rfl
  have hbm : (s.givenAll p k more).hbm = s.hbm := by rw [frame]
  obtain ⟨v, works⟩ := applyAt_works (s := s.givenAll p k more) (p := pos) (vals := b.vals) share free warm
    (by rw [seed]; exact fun r mem => (givenAll_guarded s p k more _ _).trans (open_ r mem))
    (by rw [seed]; exact fun r mem => (givenAll_hbmWait s p k more _ _).trans (come r mem))
    (by rw [seed]; exact (givenAll_mintCheck s p k more _ _ _).trans sound)
  rw [seed, hbm] at works
  exact ⟨v, mintBundle_takes arrives follows (by rw [carried, takeBundle_applies found' serving' finite apply, works])⟩

/-- Settles O57, row by row: the arming of an UPDATE, the faults of its words, the claiming that goes on, OPENs over a link and
from the engine, bundles over a link, from the engine and out of a reorder buffer, and the second pass with the update's end. -/
theorem updatesArmOpenApplyAndComplete : Obligations.UpdatesArmOpenApplyAndComplete := by
  unfold Obligations.UpdatesArmOpenApplyAndComplete
  refine ⟨?update, ?words, ?resume, ?openLink, ?openEngine, ?bundleLink, ?bundleEngine, ?reorder, ?ending⟩
  case update =>
    intro c q s head resident
    have owner := updateHead_ctx head
    refine ⟨fun u go free => ?goes, fun st m status => ?status, fun f m a code => ?code⟩
    case goes =>
      obtain ⟨ctx, fresh⟩ := arming_fresh go
      have free' : ∀ h ∈ u.shares, (s.joinedBy q u).slotFree u h.stack = true := fun h mem =>
        (slotFree_joinedBy s q u h.stack).trans (free h mem)
      have run := update_goes head resident go
      have joined := setUpd_joinedBy (s := s) (q := q) (u := u) (w := (s.joinedBy q u).armedOf u) (by rw [ctx]; exact fresh) rfl rfl
      rw [armOn_arms free', joined, ctx, owner] at run
      exact ⟨_, run, _, rfl, armedOf_armed free', rfl, rfl, rfl, fun _ other => State.modCtx_ne _ _ other, rfl⟩
    case status =>
      have shows := mintFault_shows (BitVec.ofNat 12 (fld q.img 0x10 11 0)) st m q.seq (.inl resident)
      have named : (BitVec.ofNat 12 (fld q.img 0x10 11 0)).toNat = fld q.img 0x10 11 0 :=
        (BitVec.toNat_ofNat _ _).trans (Nat.mod_eq_of_lt (bits_lt _ 11 0))
      rw [named] at shows
      exact ⟨_, update_status head resident status, shows⟩
    case code =>
      subst owner
      exact ⟨_, update_code head resident code, faultAt_faultedAt q (f, a) _ resident⟩
  case words =>
    intro c ws f s found
    exact ⟨State.wordsFault_of found, wordsFault_first found⟩
  case resume =>
    intro c desc u s found claiming resident
    obtain ⟨ctx, same⟩ := updOf_is found
    refine ⟨fun warm failed => ⟨_, armResume_fails found claiming resident warm failed, faultCtx_faulted _ _ _ _ _ _ _ (.inl resident)⟩,
      fun sound free => ?_⟩
    have run := armResume_goes found claiming resident sound
    rw [armOn_arms free, ctx] at run
    exact ⟨_, run, ⟨_, setUpd_updOf found ctx same, armedOf_armed free, rfl⟩, List.length_map _,
      fun _ other => State.modCtx_ne _ _ other, rfl⟩
  case openLink =>
    intro p k more u s arrives desc n x found armed free now fresh whole warm e scale
    obtain ⟨ctx, same⟩ := updOf_is found
    have goes : s.opening k.dstCtx desc k.step n = .go { u with opened := true, total := n, scale := pow2 (-e.toInt) } :=
      opening_goes found armed free now fresh whole warm (Numerics.eAt_val scale)
    have frame := given_frame s p k
    refine ⟨_, mintOpen_opens more arrives goes, setUpd_updOf (u := u) ?_ ctx same, given_owes s p k, ?_⟩
    · rw [frame]
      exact found
    · unfold State.setUpd
      rw [frame]
  case openEngine => exact fun i b u s first goes => ⟨_, mintOpen_engine_opens first goes, rfl⟩
  case bundleLink =>
    intro p k more u i pos h s arrives follows w b found serving finite
    have carried : (s.givenAll p k more).bundleOf k more = b := rfl
    have frame : s.givenAll p k more = { s with port := (s.givenAll p k more).port } := givenAll_frame
    refine ⟨?apply, fun buffer share room => ?buffer⟩
    case apply =>
      intro apply share warm runs none j open_ come sound
      obtain ⟨v, run⟩ := mintBundle_applies arrives follows carried found serving finite apply share warm runs open_ come sound
      have fits : j.Fits b.vals.length := fun rows => (bundleOf_vals w k more).trans (fate_apply_row apply rows)
      have bytes := bundled_hbm (s.givenAll p k more) u v h.stack b.vals.length (j.ranges pos b.vals.length)
        (j.bundle { hbm := s.hbm, sh := h } pos b.vals) (by rw [frame]; exact none)
      have units := bundled_mnt (s.givenAll p k more) u v h.stack b.vals.length (j.ranges pos b.vals.length)
        (j.bundle { hbm := s.hbm, sh := h } pos b.vals)
      have kept (m : Nat) : (s.givenAll p k more).mnt m = s.mnt m := by rw [frame]; rfl
      refine ⟨_, run, ?_, ?_, fun m other => ?_, bundled_only _ u v h.stack b.vals.length _ _, ?_⟩
      · rw [bytes]
        exact Job.bundle_in fits _ pos
      · rw [units, if_pos rfl, kept]
      · rw [units, if_neg other, kept]
      · intro g single dense half plain noV one g0 g1 old fine
        have simple := Job.bundle_simple (j := j) dense half plain noV one { hbm := s.hbm, sh := h } pos (g := g) fine
        rw [bytes, single]
        exact simple
    case buffer =>
      have serving' : ∀ h ∈ u.shares, ((s.givenAll p k more).mnt h.stack).service = false := by
        rw [frame]
        exact serving
      have found' : (s.givenAll p k more).upd.find? (fun u => u.is b.ctx b.desc && u.opened && u.step == b.step) = some u := by
        rw [frame]
        exact found
      have room' : (s.givenAll p k more).buffered h.stack < 64 := by
        rw [frame]
        exact room
      exact ⟨_, mintBundle_takes arrives follows (takeBundle_buffers found' serving' finite buffer share room'), rfl⟩
  case bundleEngine => exact fun i b s s' first whole taken => ⟨s', mintBundle_engine_takes first whole taken, rfl⟩
  case reorder => exact fun m c desc u h i b s s' found share next applied => ⟨s', reorder_applies found share next applied, rfl⟩
  case ending =>
    intro c desc u s found ended
    obtain ⟨rfl, rfl⟩ := updOf_is found
    refine ⟨fun two warm ready open_ come sound => ?pass2, ?complete, fun whole cold noFault => ?frozen⟩
    case pass2 =>
      obtain ⟨only, shares, found', length, done⟩ := pass2_all (g := u.broadcast (s.broadcasting u).hbm)
        (broadcasting_passed found) (Nat.le_refl u.shares.length)
      refine ⟨_, pass2Start_runs found ended two warm ready open_ come sound, ⟨_, found', fun h mem => ?_, rfl, length⟩, only⟩
      obtain ⟨i, hi, rfl⟩ := List.getElem_of_mem mem
      exact done i (length ▸ hi) _ (List.getElem?_eq_getElem hi)
    case complete =>
      intro a whole warm passed open_ cluster
      refine ⟨fun failed => ?_, fun served sound noFault => ?_⟩
      · have named : u.d.normDest ≠ 0 := bne_iff_ne.1 (Bool.and_eq_true_iff.1 failed).1
        exact ⟨_, updateComplete_fails found ended whole warm passed open_ cluster failed,
          faultCtx_faulted _ _ _ _ _ _ _ (.inl (cluster named).1)⟩
      · cases skipped : u.nonfinite with
        | false =>
          have run := updateComplete_ends found ended whole warm passed open_ cluster served sound
          rw [skipped] at run
          obtain ⟨step, done, but, norm, ends, upd, count, pot⟩ := stepWritten_ends (s := s) (u := u) (a := a) (st := 0) (.refl _)
          exact ⟨_, run, step, done, but, norm, ends, upd, count, nofun, pot⟩
        | true =>
          have run := updateComplete_ends found ended whole warm passed open_ cluster served sound
          have calm : ((s.stepWritten u a).updEnd u 1).action pgMintCtx 3 ≠ 2 := by
            rw [updEnd_only, stepWritten_only]
            exact noFault
          rw [skipped, if_pos rfl, alarm_of_action_ne u.ctx calm] at run
          obtain ⟨step, done, but, norm, ends, upd, count, pot⟩ := stepWritten_ends (s := s) (u := u) (a := a) (st := 1) (alarm0_only _ _ _ _)
          exact ⟨_, run, step, done, but, norm, ends, upd, count, fun _ => alarm0_stands _ _ _ _ (by decide), pot⟩
    case frozen =>
      have run := updateComplete_frozen found ended whole cold
      have calm : ((s.modMtc u.ctx.toNat fun x => { x with frozenCount := x.frozenCount + 1 }).updEnd u 2).action pgMintCtx 1 ≠ 2 := by
        rw [updEnd_only]
        exact noFault
      rw [alarm_of_action_ne u.ctx calm] at run
      obtain ⟨hbm, cls, ends, upd, count⟩ := frozen_ends (s := s) (u := u) (alarm0_only _ _ _ _)
      exact ⟨_, run, hbm, cls, ends, alarm0_stands _ _ _ _ (by decide), upd, count⟩

end Sys2Proof.Machine
end
section
/-! SUPPORT. What no event of the device's own changes: the action that software has chosen for each alarm bit and the Mint's
tables. Alarms, context faults, the end of an epoch and an error that a read meets keep both (R171, R191, R271, R275, R285). -/

namespace Sys2Proof.Machine

/-- From `s` to `t` no alarm bit takes another action and no context's tables of the Mint change. -/
def ActionsKept (s t : State) : Prop := (∀ p b, t.action p b = s.action p b) ∧ t.mctx = s.mctx

theorem ActionsKept.refl (s : State) : ActionsKept s s := ⟨fun _ _ => rfl, rfl⟩

theorem ActionsKept.trans {s t u : State} (h : ActionsKept s t) (k : ActionsKept t u) : ActionsKept s u :=
  ⟨fun p b => (k.1 p b).trans (h.1 p b), k.2.trans h.2⟩

/-- What begins with a change of other fields keeps them too. -/
theorem ActionsKept.from {s t u : State} (k : ActionsKept t u) (h : ActionsKept s t) : ActionsKept s u := h.trans k

/-- What leaves headers and the Mint's tables alone keeps them. -/
theorem ActionsKept.of_same {s t : State} (hdr : t.hdr = s.hdr) (mctx : t.mctx = s.mctx) : ActionsKept s t :=
  ⟨fun p b => by unfold State.action State.pageHdr; rw [hdr], mctx⟩

theorem ActionsKept.mtc {s t : State} (h : ActionsKept s t) (c : Nat) : t.mtc c = s.mtc c := by
  unfold State.mtc; rw [h.2]

theorem AlarmOnly.mctx {s t : State} (h : AlarmOnly s t) : t.mctx = s.mctx := by
  unfold AlarmOnly at h; rw [h]

theorem AlarmOnly.mtc {s t : State} (h : AlarmOnly s t) (c : Nat) : t.mtc c = s.mtc c := by
  unfold State.mtc; rw [h.mctx]

/-! ### Alarms and context faults (R191, R285 to R287) -/

theorem mark_actions (s : State) (p b : Nat) (c : Option Nat) : ActionsKept s (s.mark p b c) := by
  refine ⟨fun q k => ?_, (mark_only s p b c).mctx⟩
  unfold State.action State.pageHdr
  rw [mark_hdr]
  by_cases own : q = p
  · subst own
    rw [SMap.get_upd_same]
    dsimp only
    split <;> rfl
  · rw [SMap.get_upd_ne _ _ own]

theorem msi_actions (s : State) (v : Nat) : ActionsKept s (s.msi v) := .of_same (msi_hdr s v) (msi_only s v).mctx

theorem enterHold_actions (s : State) (src : Option (Nat × Nat)) : ActionsKept s (s.enterHold src) := by
  unfold State.enterHold
  split
  · exact .of_same rfl rfl
  · have marked : ActionsKept s ((s.holdOn src).mark pgBursar 1 none) :=
      ActionsKept.trans (.of_same (holdOn_hdr s src) rfl) (mark_actions _ _ _ _)
    dsimp only
    split
    · exact marked.trans (msi_actions _ _)
    · exact marked

theorem actOn_actions (s : State) (p b : Nat) (c : Option Nat) : ActionsKept s (s.actOn p b c) := by
  unfold State.actOn
  split
  · exact msi_actions _ _
  · split
    · exact msi_actions _ _
    · exact .refl s
  · exact enterHold_actions _ _
  · exact .refl s

theorem noteDie_actions (s : State) (p : Nat) (before : Bool) : ActionsKept s (s.noteDie p before) := by
  unfold State.noteDie
  split
  · split
    · exact .refl s
    · exact (mark_actions _ _ _ _).trans (actOn_actions _ _ _ _)
  · exact .refl s

theorem alarm0_actions (s : State) (p b : Nat) (c : Option Nat) : ActionsKept s (s.alarm0 p b c) := by
  unfold State.alarm0
  exact ((mark_actions _ _ _ _).trans (actOn_actions _ _ _ _)).trans (noteDie_actions _ _ _)

theorem faultCtx_actions (s : State) (c : CtxId) (code : U16) (detail : W64) (cmd : W32) (unit : U16) (irq : Bool) :
    ActionsKept s (faultCtx s c code detail cmd unit irq) := by
  unfold faultCtx
  dsimp only
  split
  · have stopped (f : Ctx → Ctx) : ActionsKept s ((s.stopCtx c).modCtx c.toNat f) := .of_same (stopCtx_hdr s c) rfl
    split
    · exact (stopped _).trans ((alarm0_actions _ _ _ _).trans (alarm0_actions _ _ _ _))
    · exact (stopped _).trans (alarm0_actions _ _ _ _)
  · exact .refl s

theorem alarm_actions (s : State) (p b : Nat) (c : Option CtxId) : ActionsKept s (s.alarm p b c) := by
  unfold State.alarm
  dsimp only
  split
  · split
    · exact (alarm0_actions _ _ _ _).trans (faultCtx_actions _ _ _ _ _ _ _)
    · exact alarm0_actions _ _ _ _
  · exact alarm0_actions _ _ _ _

/-! ### The end of an epoch (R266, R275) -/

theorem censusAdd_actions (s : State) (c a n : Nat) : ActionsKept s (s.censusAdd c a n) := by
  unfold State.censusAdd
  split
  · exact .refl s
  · split <;> exact .of_same rfl rfl

theorem scrubPages_actions (s : State) : ActionsKept s s.scrubPages :=
  ActionsKept.from (foldl_rel .refl .trans (fun _ _ _ => .of_same rfl rfl) _) (.of_same rfl rfl)

theorem makeAdds_actions (s : State) : ActionsKept s s.makeAdds :=
  ActionsKept.from (foldl_rel .refl .trans (fun s r _ => censusAdd_actions s r.1 r.2.1 r.2.2) _) (.of_same rfl rfl)

theorem endEpoch_actions (s : State) (c : Nat) : ActionsKept s (s.endEpoch c) :=
  ActionsKept.from ((scrubPages_actions _).trans (makeAdds_actions _)) (.of_same rfl rfl)

/-! ### An error that a read meets (R271, Table SG.5) -/

theorem ueHit_actions (s : State) (c : Option CtxId) (a : W64) : ActionsKept s (s.ueHit c a) := by
  unfold State.ueHit
  dsimp only
  split
  · exact (alarm0_actions _ _ _ _).trans (faultCtx_actions _ _ _ _ _ _ _)
  · exact alarm0_actions _ _ _ _

theorem ueHbm_actions (s : State) (a : Nat) (reader : Option CtxId) : ActionsKept s (s.ueHbm a reader) := by
  unfold State.ueHbm
  dsimp only
  split
  · exact (endEpoch_actions _ _).trans (ueHit_actions _ _ _)
  · exact ueHit_actions _ _ _
  · split
    · split
      · exact ActionsKept.trans (.of_same rfl rfl) (alarm_actions _ _ _ _)
      · exact ueHit_actions _ _ _
    · exact ueHit_actions _ _ _

theorem meetUe_actions {s w : State} {l : List (Nat × Nat)} (met : s.meetUe l = some w) : ActionsKept s w := by
  obtain ⟨u, -, rfl⟩ := Option.map_eq_some_iff.1 met
  exact ueHbm_actions s u none

/-- The same of a read that may meet no error. -/
theorem meetUe_getD_actions (s : State) (l : List (Nat × Nat)) : ActionsKept s ((s.meetUe l).getD s) := by
  cases met : s.meetUe l with
  | none => exact .refl s
  | some w => exact meetUe_actions met

/-- An error is met in one of the ranges that are read. -/
theorem meetUe_hits {s w : State} {l : List (Nat × Nat)} (met : s.meetUe l = some w) : ∃ r ∈ l, s.ueMeets r.1 r.2 = true := by
  obtain ⟨u, found, -⟩ := Option.map_eq_some_iff.1 met
  obtain ⟨r, mem, hit⟩ := List.mem_flatMap.1 (List.mem_of_find?_eq_some found)
  have bad := List.find?_some (p := fun u => !s.refetchable (u / 65536)) found
  exact ⟨r, mem, List.any_eq_true.2 ⟨u, hit, bad⟩⟩

/-! ### The alarm of a table that is rejected, and the tier that one that is taken may outgrow -/

/-- An alarm of a context whose action is no fault raises its bit and changes nothing else (R285, R287). -/
theorem alarm_raises {s : State} {p b : Nat} (c : CtxId) (hb : b < 16) (noFault : s.action p b ≠ 2) :
    AlarmOnly s (s.alarm p b (some c)) ∧ Stands (s.alarm p b (some c)) p b := by
  rw [alarm_of_action_ne c noFault]
  exact ⟨alarm0_only _ _ _ _, alarm0_stands _ _ _ _ hb⟩

/-- A change of what a tier is to hold, and the tier lost where that has outgrown it (R268; log 86). -/
theorem checkTier_kept (s : State) : TierKept s s.checkTier := by
  unfold TierKept State.checkTier
  simp only [Bool.and_eq_true, bne_iff_ne, Bool.not_eq_true']
  split <;> rfl

end Sys2Proof.Machine
end
section
/-! SUPPORT. The Mint's tables: what DESC_APPLY reads, which descriptor it names, and what the table's registers take (R154, R171,
R271; logs 28, 48, 77). -/

namespace Sys2Proof.Machine

/-! ### Which descriptor is named (R154, R271) -/

/-- The least of what one check alone may name. -/
theorem min?_toList_append_nil (o : Option Nat) : (o.toList ++ []).min? = o := by
  cases o <;> rfl

/-- Where something is named, there is a least that is. -/
theorem min?_of_mem {l : List Nat} {a : Nat} (mem : a ∈ l) : ∃ i, l.min? = some i :=
  Option.isSome_iff_exists.1 (List.isSome_min?_of_mem mem)

/-- Where the table reads well, the checks of R154 alone count. -/
theorem descBad_clean {s : State} {c : Nat} {l : List (Desc × Bool)}
    (clean : ∀ r ∈ (List.range l.length).flatMap (s.descReads c), s.ueMeets r.1 r.2 = false) :
    s.descBad c l = s.descOffender l := by
  have read : (List.range l.length).find? (fun i => (s.descReads c i).any fun r => s.ueMeets r.1 r.2) = none := by
    refine List.find?_eq_none.2 fun i hi hit => ?_
    obtain ⟨r, hr, meets⟩ := List.any_eq_true.1 hit
    exact Bool.false_ne_true ((clean r (List.mem_flatMap.2 ⟨i, hi, hr⟩)).symm.trans meets)
  unfold State.descBad
  rw [read]
  exact min?_toList_append_nil _

/-- Where the context has no update besides, no armed descriptor is in the way (R171). -/
theorem applyBad_clean {s : State} {c : CtxId} {l : List (Desc × Bool)} (idle : s.hasUpdate c = false)
    (clean : ∀ r ∈ (List.range l.length).flatMap (s.descReads c.toNat), s.ueMeets r.1 r.2 = false) :
    s.applyBad c l = s.descOffender l := by
  have unarmed : s.upd.filter (·.ctx == c) = [] :=
    List.filter_eq_nil_iff.2 fun u hu own => List.any_eq_false.1 idle u hu (decide_eq_true (beq_iff_eq.1 own))
  unfold State.applyBad
  rw [descBad_clean clean, unarmed]
  exact min?_toList_append_nil _

/-- A table that meets a byte in error has an offending descriptor (log 28). -/
theorem applyBad_of_error {s : State} {c : CtxId} {l : List (Desc × Bool)}
    (hit : ∃ r ∈ (List.range l.length).flatMap (s.descReads c.toNat), s.ueMeets r.1 r.2 = true) :
    ∃ i, s.applyBad c l = some i := by
  obtain ⟨r, mem, meets⟩ := hit
  obtain ⟨i, hi, hr⟩ := List.mem_flatMap.1 mem
  have unread : ((List.range l.length).find? fun i => (s.descReads c.toNat i).any fun r => s.ueMeets r.1 r.2).isSome :=
    List.find?_isSome.2 ⟨i, hi, List.any_eq_true.2 ⟨r, hr, meets⟩⟩
  obtain ⟨j, found⟩ := Option.isSome_iff_exists.1 unread
  obtain ⟨k, bad⟩ : ∃ k, s.descBad c.toNat l = some k := min?_of_mem (List.mem_append_right _ (Option.mem_toList.2 found))
  exact min?_of_mem (List.mem_append_left _ (Option.mem_toList.2 bad))

/-- So has one of a context with an update (R171). -/
theorem applyBad_of_update {s : State} {c : CtxId} (l : List (Desc × Bool)) (armed : s.hasUpdate c = true) :
    ∃ i, s.applyBad c l = some i := by
  obtain ⟨u, mem, own⟩ := List.any_eq_true.1 armed
  have named : u.desc.toNat ∈ (s.upd.filter (·.ctx == c)).map (·.desc.toNat) :=
    List.mem_map_of_mem (List.mem_filter.2 ⟨mem, beq_iff_eq.2 (of_decide_eq_true own)⟩)
  exact min?_of_mem (List.mem_append_right _ named)

/-- The offending descriptor is the first of those that the checks find and those that are armed (R154, R171). -/
theorem applyBad_first {s : State} {c : CtxId} {l : List (Desc × Bool)} {i : Nat} (found : s.applyBad c l = some i) :
    (∀ u ∈ s.upd, u.ctx = c → i ≤ u.desc.toNat) ∧ (∀ k, s.descBad c.toNat l = some k → i ≤ k)
      ∧ (s.descBad c.toNat l = some i ∨ ∃ u ∈ s.upd, u.ctx = c ∧ u.desc.toNat = i) := by
  obtain ⟨mem, least⟩ := List.min?_eq_some_iff.1 found
  refine ⟨fun u hu own => least _ (List.mem_append_right _ ?_), fun k bad => least _ (List.mem_append_left _ (Option.mem_toList.2 bad)), ?_⟩
  · exact List.mem_map_of_mem (List.mem_filter.2 ⟨hu, beq_iff_eq.2 own⟩)
  · rcases List.mem_append.1 mem with checked | armed
    · exact .inl (Option.mem_toList.1 checked)
    · obtain ⟨u, hu, desc⟩ := List.mem_map.1 armed
      obtain ⟨hu, own⟩ := List.mem_filter.1 hu
      exact .inr ⟨u, hu, beq_iff_eq.1 own, desc⟩

/-! ### DESC_APPLY (R154, R171) -/

/-- The table that DESC_APPLY checks: each descriptor, and whether its coefficient entry is factored. -/
def State.descTable (s : State) (c : CtxId) : List (Desc × Bool) :=
  (List.range (s.mtc c.toNat).descCount.toNat).map fun i =>
    (descOf s.hbm ((s.mtc c.toNat).descBase.toNat + 128 * i),
      s.factored (s.mtc c.toNat).coeffBase.toNat (descOf s.hbm ((s.mtc c.toNat).descBase.toNat + 128 * i)))

/-- The ranges that it reads. -/
def State.descTableReads (s : State) (c : CtxId) : List (Nat × Nat) :=
  (List.range (s.descTable c).length).flatMap (s.descReads c.toNat)

/-- A sound table is installed, and shows BUSY (log 48). -/
def MintCtx.installed (x : MintCtx) : MintCtx :=
  { x with valid := true, reject := false, busy := true, first := 0, instBase := x.descBase, instCount := x.descCount
           instCoeff := x.coeffBase }

/-- The table is rejected for descriptor `i`, with bit 0 of the page. -/
def State.descRejected (s : State) (c : CtxId) (i : Nat) : State :=
  (s.modMtc c.toNat fun x => { x with reject := true, first := BitVec.ofNat 12 i }).alarm pgMintCtx 0 (some c)

section
variable {v : W32} {s : State} (go : bit v.toNat 0 = true) (hw : s.canWrite pgMintCtx = true)
include go hw

theorem descApply_installs (on : s.unitOn 1 = true) (sound : s.applyBad s.sel.mtCtx (s.descTable s.sel.mtCtx) = none) :
    exec (.descApply v) s = .next (s.modMtc s.sel.mtCtx.toNat MintCtx.installed).checkTier := by
  unfold State.descTable at sound
  show execDescApply v s = _
  unfold execDescApply
  simp only [go, hw, on, sound, Bool.not_true, Bool.or_self, Bool.false_eq_true, if_false]
  rfl

theorem descApply_rejects {i : Nat} (on : s.unitOn 1 = true) (bad : s.applyBad s.sel.mtCtx (s.descTable s.sel.mtCtx) = some i) :
    exec (.descApply v) s
      = .next (((s.meetUe (s.descTableReads s.sel.mtCtx)).getD s).descRejected s.sel.mtCtx i) := by
  unfold State.descTable at bad
  show execDescApply v s = _
  unfold execDescApply
  simp only [go, hw, on, bad, Bool.not_true, Bool.or_self, Bool.false_eq_true, if_false]
  rfl

/-- With the Mints off nothing is read and descriptor 0 is named (R9). -/
theorem descApply_off (off : s.unitOn 1 = false) : exec (.descApply v) s = .next (s.descRejected s.sel.mtCtx 0) := by
  show execDescApply v s = _
  unfold execDescApply
  simp only [go, hw, off, Bool.not_true, Bool.not_false, Bool.or_self, Bool.false_eq_true, if_false, if_true]
  rfl

/-- Whatever is rejected, it is rejected after the error that its reading met, if any: that changed no table of the Mint, and
no alarm's action. -/
theorem descApply_rejects_after (met : ∃ i, s.applyBad s.sel.mtCtx (s.descTable s.sel.mtCtx) = some i) :
    ∃ u i, exec (.descApply v) s = .next (u.descRejected s.sel.mtCtx i) ∧ ActionsKept s u
      ∧ (s.unitOn 1 = true → s.applyBad s.sel.mtCtx (s.descTable s.sel.mtCtx) = some i) := by
  obtain ⟨i, bad⟩ := met
  cases on : s.unitOn 1 with
  | false => exact ⟨s, 0, descApply_off go hw on, .refl s, fun h => absurd h nofun⟩
  | true => exact ⟨_, i, descApply_rejects go hw on bad, meetUe_getD_actions s _, fun _ => bad⟩

end

/-- What a rejected table leaves: REJECT and the descriptor in the context's registers, and the alarm. -/
theorem descRejected_leaves {s : State} (c : CtxId) (i : Nat) (noFault : s.action pgMintCtx 0 ≠ 2) :
    (s.descRejected c i).mtc c.toNat = { s.mtc c.toNat with reject := true, first := BitVec.ofNat 12 i }
      ∧ SameBut State.mtc c.toNat s (s.descRejected c i) ∧ Stands (s.descRejected c i) pgMintCtx 0
      ∧ AlarmOnly { s with mctx := (s.descRejected c i).mctx } (s.descRejected c i) := by
  obtain ⟨only, stands⟩ := alarm_raises (s := s.modMtc c.toNat fun x => { x with reject := true, first := BitVec.ofNat 12 i })
    c (by decide) noFault
  refine ⟨(only.mtc _).trans (State.modMtc_same _ _ _), fun j other => (only.mtc j).trans (State.modMtc_ne _ _ other), stands, ?_⟩
  have same := only.mctx
  unfold State.descRejected
  rw [same]
  exact only

/-- What is left where the reading has met an error before. -/
theorem descRejected_after {s u : State} (kept : ActionsKept s u) (c : CtxId) (i : Nat) (noFault : s.action pgMintCtx 0 ≠ 2) :
    let t := u.descRejected c i
    (t.mtc c.toNat).reject = true ∧ (t.mtc c.toNat).instBase = (s.mtc c.toNat).instBase
      ∧ (t.mtc c.toNat).first = BitVec.ofNat 12 i ∧ Stands t pgMintCtx 0 ∧ AlarmOnly { u with mctx := t.mctx } t := by
  obtain ⟨own, -, stands, only⟩ := descRejected_leaves (s := u) c i (by rw [kept.1]; exact noFault)
  dsimp only
  rw [own, kept.mtc]
  exact ⟨rfl, rfl, rfl, stands, only⟩

/-! ### DESC_BASE, DESC_COUNT, COEFF_BASE (R171) -/

/-- The high word of a 64-bit register. -/
theorem hi64_eq (x : W64) (v : W32) : hi64 x v.toNat = v ++ x.setWidth 32 := by
  refine BitVec.eq_of_toNat_eq ?_
  have low : x.toNat % 2 ^ 32 < 2 ^ 32 := Nat.mod_lt _ (Nat.two_pow_pos _)
  have high := v.isLt
  rw [BitVec.toNat_append, BitVec.toNat_setWidth, ← Nat.shiftLeft_add_eq_or_of_lt low, Nat.shiftLeft_eq]
  unfold hi64
  rw [BitVec.toNat_ofNat, Nat.mod_eq_of_lt (by omega)]
  omega

/-- The low word of a 64-bit register, of which the bits of `m` are written. -/
theorem lo64_eq (x : W64) (v m : W32) : lo64 x v.toNat m.toNat = (x >>> 32).setWidth 32 ++ (v &&& m) := by
  refine BitVec.eq_of_toNat_eq ?_
  have low := (v &&& m).isLt
  have high := x.isLt
  rw [BitVec.toNat_append, BitVec.toNat_setWidth, BitVec.toNat_ushiftRight, ← Nat.shiftLeft_add_eq_or_of_lt low, Nat.shiftLeft_eq,
    Nat.shiftRight_eq_div_pow]
  unfold lo64
  rw [← BitVec.toNat_and, BitVec.toNat_ofNat, Nat.mod_eq_of_lt (by omega)]
  omega

/-- The registers of the table that software writes, after a write of `v` at offset `o`. -/
def MintCtx.tableWritten (x : MintCtx) (o : Nat) (v : W32) : MintCtx :=
  if o = 0x44 then { x with descBase := lo64 x.descBase v.toNat 0xFFFFFF80 }
  else if o = 0x48 then { x with descBase := hi64 x.descBase v.toNat }
  else if o = 0x4C then { x with descCount := BitVec.ofNat 13 v.toNat }
  else if o = 0x50 then { x with coeffBase := lo64 x.coeffBase v.toNat 0xFFFFF000 }
  else { x with coeffBase := hi64 x.coeffBase v.toNat }

/-- The offsets of the table's registers, as numbers. -/
theorem tableReg_named {off : BitVec 12} (reg : off ∈ [0x44, 0x48, 0x4C, 0x50, 0x54]) :
    [0x44, 0x48, 0x4C, 0x50, 0x54].contains off.toNat = true :=
  List.contains_iff_mem.2 (List.mem_map_of_mem (f := BitVec.toNat) reg)

section
variable {off : BitVec 12} {v : W32} {s : State} (hw : s.canWrite pgMintCtx = true) (reg : off ∈ [0x44, 0x48, 0x4C, 0x50, 0x54])
include hw reg

/-- A register of the table is written while the context has no update, and DESC_COUNT at most 4,096. -/
theorem mintTableBase_written {y : MintCtx} (idle : s.hasUpdate s.sel.mtCtx = false)
    (fits : off = 0x4C → v.toNat % 2 ^ 13 ≤ 4096) (value : (s.mtc s.sel.mtCtx.toNat).tableWritten off.toNat v = y) :
    Completes (.mintTableBaseWrite off v) s fun t =>
      t.mtc s.sel.mtCtx.toNat = y ∧ SameBut State.mtc s.sel.mtCtx.toNat s t ∧ t = { s with mctx := t.mctx } := by
  refine ⟨s.modMtc s.sel.mtCtx.toNat fun x => x.tableWritten off.toNat v, ?_, (State.modMtc_same _ _ _).trans value,
    fun j other => State.modMtc_ne _ _ other, rfl⟩
  have named := tableReg_named reg
  have counted : (off.toNat == 0x4C && decide (4096 < v.toNat % 2 ^ 13)) = false := by
    cases big : decide (4096 < v.toNat % 2 ^ 13) with
    | false => exact Bool.and_false _
    | true =>
      have other : off.toNat ≠ 0x4C := fun e => absurd (fits (BitVec.eq_of_toNat_eq e)) (Nat.not_le.2 (of_decide_eq_true big))
      rw [beq_false_of_ne other]; rfl
  show execMintTableBaseWrite off v s = _
  unfold execMintTableBaseWrite
  simp only [hw, named, idle, counted, Bool.not_true, Bool.or_self, Bool.false_eq_true, if_false]
  rfl

/-- Else the write changes nothing and bit 0 is raised. -/
theorem mintTableBase_refused (bad : s.hasUpdate s.sel.mtCtx = true ∨ (off = 0x4C ∧ 4096 < v.toNat % 2 ^ 13))
    (noFault : s.action pgMintCtx 0 ≠ 2) :
    Completes (.mintTableBaseWrite off v) s fun t => Stands t pgMintCtx 0 ∧ AlarmOnly s t := by
  obtain ⟨only, stands⟩ := alarm_raises s.sel.mtCtx (by decide) noFault
  refine ⟨s.alarm pgMintCtx 0 (some s.sel.mtCtx), ?_, stands, only⟩
  have named := tableReg_named reg
  have refused : (s.hasUpdate s.sel.mtCtx || (off.toNat == 0x4C && decide (4096 < v.toNat % 2 ^ 13))) = true := by
    rcases bad with armed | ⟨rfl, big⟩
    · rw [armed]; rfl
    · rw [decide_eq_true big]; exact Bool.or_true _
  show execMintTableBaseWrite off v s = _
  unfold execMintTableBaseWrite
  simp only [hw, named, refused, Bool.not_true, Bool.or_self, Bool.false_eq_true, if_false, if_true]

end

end Sys2Proof.Machine
end
section
/-! SUPPORT. The Ledger's ranges and its pool: LG_ENT_RANGE, LG_ADP_RANGE and LG_APPLY (R195, R200, R216; logs 83, 86). -/

namespace Sys2Proof.Machine

theorem AlarmOnly.lgC {s t : State} (h : AlarmOnly s t) : t.lgC = s.lgC := by
  unfold AlarmOnly at h; rw [h]
theorem AlarmOnly.lgc {s t : State} (h : AlarmOnly s t) (c : Nat) : t.lgc c = s.lgc c := by
  unfold State.lgc; rw [h.lgC]

/-- A field of a number, by division. -/
theorem bits_eq_div (w hi lo : Nat) : bits w hi lo = w / 2 ^ lo % 2 ^ (hi + 1 - lo) := by
  unfold bits; rw [Nat.shiftRight_eq_div_pow]

/-- A range register takes a sound range, and the active tier is looked at anew; else bit 0 is raised. -/
theorem lgRange_answers {s : State} {i : Instr} {refused : Bool} {f : LgCtx → LgCtx}
    (run : exec i s = if refused then .next (s.alarm pgLedger 0 (some s.sel.lgCtx)) else .next (s.modLgc s.sel.lgCtx.toNat f).checkTier) :
    if refused = false then Completes i s fun t => ∃ u, u.lgc s.sel.lgCtx.toNat = f (s.lgc s.sel.lgCtx.toNat)
      ∧ SameBut State.lgc s.sel.lgCtx.toNat s u ∧ u = { s with lgC := u.lgC } ∧ TierKept u t
    else s.action pgLedger 0 ≠ 2 → Completes i s fun t => Stands t pgLedger 0 ∧ AlarmOnly s t := by
  cases refused with
  | false => exact ⟨_, run, _, State.modLgc_same _ _ _, fun j other => State.modLgc_ne _ _ other, rfl, checkTier_kept _⟩
  | true =>
    intro noFault
    obtain ⟨only, stands⟩ := alarm_raises s.sel.lgCtx (by decide) noFault
    exact ⟨_, run, stands, only⟩

section
variable {v : W32} {s : State} (hw : s.canWrite pgLedger = true)
include hw

theorem lgEntRangeWrite_eq : exec (.lgEntRangeWrite v) s =
    if s.rangeRefused s.sel.lgCtx (v.toNat % 2 ^ 14) (v.toNat / 65536 % 2 ^ 15) 16384 fun x => (x.entFirst, x.entCount) then
      .next (s.alarm pgLedger 0 (some s.sel.lgCtx))
    else .next (s.modLgc s.sel.lgCtx.toNat fun x =>
      { x with entFirst := v.toNat % 2 ^ 14, entCount := v.toNat / 65536 % 2 ^ 15 }).checkTier := by
  show execLgEntRangeWrite v s = _
  unfold execLgEntRangeWrite
  have first : bits v.toNat 13 0 = v.toNat % 2 ^ 14 := rfl
  have count : bits v.toNat 30 16 = v.toNat / 65536 % 2 ^ 15 := bits_eq_div v.toNat 30 16
  simp only [hw, first, count, Bool.not_true, Bool.false_eq_true, if_false]

theorem lgAdpRangeWrite_eq : exec (.lgAdpRangeWrite v) s =
    if s.rangeRefused s.sel.lgCtx (v.toNat % 2 ^ 9) (v.toNat / 65536 % 2 ^ 10) 512 fun x => (x.adpFirst, x.adpCount) then
      .next (s.alarm pgLedger 0 (some s.sel.lgCtx))
    else .next (s.modLgc s.sel.lgCtx.toNat fun x =>
      { x with adpFirst := v.toNat % 2 ^ 9, adpCount := v.toNat / 65536 % 2 ^ 10 }).checkTier := by
  show execLgAdpRangeWrite v s = _
  unfold execLgAdpRangeWrite
  have first : bits v.toNat 8 0 = v.toNat % 2 ^ 9 := rfl
  have count : bits v.toNat 25 16 = v.toNat / 65536 % 2 ^ 10 := bits_eq_div v.toNat 25 16
  simp only [hw, first, count, Bool.not_true, Bool.false_eq_true, if_false]

/-! ### LG_APPLY (R200) -/

/-- Some entry of the context's range is in use. -/
def State.entInUse (s : State) (x : LgCtx) : Bool := x.ents.any fun i => (s.ent i).state != 0

theorem lgApply_installs (go : bit v.toNat 0 = true) (pages : (s.lgc s.sel.lgCtx.toNat).poolCount ≠ 0)
    (free : s.entInUse (s.lgc s.sel.lgCtx.toNat) = false) :
    exec (.lgApply v) s = .next (s.modLgc s.sel.lgCtx.toNat fun _ => { s.lgc s.sel.lgCtx.toNat with
      valid := true, reject := false, free := List.range (s.lgc s.sel.lgCtx.toNat).poolCount, iKv := (s.lgc s.sel.lgCtx.toNat).kvCfg
      iPool := (s.lgc s.sel.lgCtx.toNat).poolBase, iCount := (s.lgc s.sel.lgCtx.toNat).poolCount
      iLink := (s.lgc s.sel.lgCtx.toNat).linkBase }) := by
  unfold State.entInUse at free
  show execLgApply v s = _
  unfold execLgApply
  simp only [hw, go, pages, free, Bool.not_true, Bool.or_self, Bool.false_eq_true, or_self, if_false]
  rfl

theorem lgApply_rejects (go : bit v.toNat 0 = true)
    (bad : (s.lgc s.sel.lgCtx.toNat).poolCount = 0 ∨ s.entInUse (s.lgc s.sel.lgCtx.toNat) = true) :
    exec (.lgApply v) s = .next ((s.modLgc s.sel.lgCtx.toNat fun x => { x with reject := true }).alarm pgLedger 0 (some s.sel.lgCtx)) := by
  show execLgApply v s = _
  unfold execLgApply
  simp only [hw, go, Bool.not_true, Bool.or_self, Bool.false_eq_true, if_false]
  exact if_pos bad

end

theorem entInUse_iff {s : State} {x : LgCtx} : s.entInUse x = true ↔ ∃ i ∈ x.ents, (s.ent i).state ≠ 0 := by
  unfold State.entInUse
  simp only [List.any_eq_true, bne_iff_ne]

/-- What a rejected apply leaves: REJECT, and the alarm. -/
theorem lgRejected_leaves {s : State} (c : CtxId) (noFault : s.action pgLedger 0 ≠ 2) :
    let t := (s.modLgc c.toNat fun x => { x with reject := true }).alarm pgLedger 0 (some c)
    t.lgc c.toNat = { s.lgc c.toNat with reject := true } ∧ Stands t pgLedger 0 ∧ AlarmOnly { s with lgC := t.lgC } t := by
  intro t
  obtain ⟨only, stands⟩ := alarm_raises (s := s.modLgc c.toNat fun x => { x with reject := true }) c (b := 0) (by decide) noFault
  refine ⟨(only.lgc _).trans (State.modLgc_same _ _ _), stands, ?_⟩
  have same : t.lgC = _ := only.lgC
  rw [same]
  exact only

/-- LG_APPLY installs the pool, or is rejected without pages or over an entry in use. -/
theorem lgApply_answers {v : W32} {s : State} (go : bit v.toNat 0 = true) (hw : s.canWrite pgLedger = true) :
    let c := s.sel.lgCtx
    let x := s.lgc c.toNat
    Completes (.lgApply v) s fun t =>
      (x.poolCount ≠ 0 → (∀ i ∈ x.ents, (s.ent i).state = 0) →
        t.lgc c.toNat = { x with valid := true, reject := false, free := List.range x.poolCount, iKv := x.kvCfg, iPool := x.poolBase
                                 iCount := x.poolCount, iLink := x.linkBase }
        ∧ SameBut State.lgc c.toNat s t ∧ t = { s with lgC := t.lgC })
      ∧ (x.poolCount = 0 → s.action pgLedger 0 ≠ 2 → t.lgc c.toNat = { x with reject := true } ∧ Stands t pgLedger 0
        ∧ AlarmOnly { s with lgC := t.lgC } t)
      ∧ ((∃ i ∈ x.ents, (s.ent i).state ≠ 0) → s.action pgLedger 0 ≠ 2 → t.lgc c.toNat = { x with reject := true }
        ∧ Stands t pgLedger 0 ∧ AlarmOnly { s with lgC := t.lgC } t) := by
  intro c x
  by_cases bad : x.poolCount = 0 ∨ s.entInUse x = true
  case pos =>
    refine ⟨_, lgApply_rejects hw go bad, fun pages free => ?_, fun _ => lgRejected_leaves c, fun _ => lgRejected_leaves c⟩
    obtain ⟨i, mem, used⟩ := entInUse_iff.1 (bad.resolve_left pages)
    exact absurd (free i mem) used
  case neg =>
    obtain ⟨pages, free⟩ := not_or.1 bad
    refine ⟨_, lgApply_installs hw go pages (Bool.eq_false_of_not_eq_true free), fun _ _ => ?_, fun none => absurd none pages,
      fun used => absurd (entInUse_iff.2 used) free⟩
    exact ⟨State.modLgc_same _ _ _, fun j other => State.modLgc_ne _ _ other, rfl⟩

end Sys2Proof.Machine
end
section
/-! SUPPORT. SET_APPLY: which item is named, what a sound set leaves dirty, and the set that is rejected (R261, R263, R268, R271;
logs 28, 52, 86, 102). -/

namespace Sys2Proof.Machine

theorem AlarmOnly.sgC {s t : State} (h : AlarmOnly s t) : t.sgC = s.sgC := by
  unfold AlarmOnly at h; rw [h]
theorem AlarmOnly.sgc {s t : State} (h : AlarmOnly s t) (c : Nat) : t.sgc c = s.sgc c := by
  unfold State.sgc; rw [h.sgC]

/-! ### A set whose table meets an error (R271) -/

/-- A byte of a table of `n` items of `k` bytes lies in one of them. -/
theorem item_of_byte {a k n u : Nat} (from_ : a ≤ u) (below : u < a + k * n) : ∃ i < n, a + k * i ≤ u ∧ u < a + k * i + k := by
  have pos : 0 < k := Nat.pos_of_ne_zero fun z => by subst z; omega
  refine ⟨(u - a) / k, Nat.div_lt_of_lt_mul (by omega), ?_, ?_⟩
  · have := Nat.mul_div_le (u - a) k
    omega
  · have := Nat.lt_mul_div_succ (u - a) pos
    rw [Nat.mul_add, Nat.mul_one] at this
    omega

/-- A set whose table meets a byte in error has an offending item (log 28). -/
theorem offender_of_error {s w : State} {c : Nat} {l : List Item} (met : s.meetUe [((s.sgc c).itemPlace 0, 32 * l.length)] = some w) :
    ∃ i, s.offender c l = some i := by
  obtain ⟨r, mem, hit⟩ := meetUe_hits met
  obtain rfl := List.mem_singleton.1 mem
  obtain ⟨u, inside, bad⟩ := List.any_eq_true.1 hit
  obtain ⟨err, place⟩ := List.mem_filter.1 inside
  obtain ⟨from_, below⟩ := Bool.and_eq_true_iff.1 place
  obtain ⟨i, hi, low, high⟩ := item_of_byte (of_decide_eq_true from_) (of_decide_eq_true below)
  have item : s.ueMeets ((s.sgc c).itemPlace i) 32 = true := by
    refine List.any_eq_true.2 ⟨u, List.mem_filter.2 ⟨err, Bool.and_eq_true_iff.2 ⟨decide_eq_true ?_, decide_eq_true ?_⟩⟩, bad⟩
    · exact low
    · exact high
  refine Option.isSome_iff_exists.1 (List.find?_isSome.2 ⟨i, List.mem_range.2 hi, ?_⟩)
  simp only [List.getElem?_eq_getElem hi, item, Bool.or_true, Bool.true_or]

/-! ### What an installed set leaves (R263, log 102) -/

theorem SgCtx.installed_eq (x : SgCtx) (l : List Item) : x.installed l =
    { x with items := l, valid := true, reject := false, first := 0, dirty := (x.installed l).dirty } := rfl

/-- What has been written since the last delta stays dirty. -/
theorem SgCtx.installed_keeps (x : SgCtx) (l : List Item) {g : Nat} (dirty : g ∈ x.dirty) : g ∈ (x.installed l).dirty :=
  List.mem_append_left _ dirty

/-- A granule of a MIRROR item that was not mirrored before is dirty. -/
theorem SgCtx.installed_new (x : SgCtx) {l : List Item} {it : Item} {g : Nat} (mem : it ∈ l) (mirror : it.kind = 1)
    (granule : g ∈ granulesOf it.base it.len) (from_ : it.base ≤ 256 * g) (below : 256 * g < it.base + it.len)
    (fresh : x.mirrored g = false) : g ∈ (x.installed l).dirty := by
  by_cases old : g ∈ x.dirty
  · exact x.installed_keeps l old
  refine List.mem_append_right _ (List.mem_filter.2 ⟨List.mem_flatMap.2 ⟨(it.base, it.len), ?_, granule⟩, ?_⟩)
  · exact List.mem_map.2 ⟨it, List.mem_filter.2 ⟨mem, decide_eq_true mirror⟩, rfl⟩
  · have now : SgCtx.mirrored { x with items := l, valid := true, reject := false, first := 0 } g = true :=
      List.any_eq_true.2 ⟨it, mem, by simp [mirror, from_, below]⟩
    exact Bool.and_eq_true_iff.2 ⟨Bool.and_eq_true_iff.2 ⟨now, by rw [fresh]; rfl⟩, by simp [old]⟩

/-! ### SET_APPLY (R261) -/

/-- The set is rejected for item `i`, with bit 0 of the page. -/
def State.setRejected (s : State) (c : CtxId) (i : Nat) : State :=
  (s.modSgc c.toNat fun x => { x with reject := true, first := BitVec.ofNat 10 i }).alarm pgStrong 0 (some c)

section
variable {v : W32} {s : State} (go : bit v.toNat 0 = true) (hw : s.canWrite pgStrong = true)
include go hw

/-- In an epoch the set is not read. -/
theorem setApply_in_epoch (epoch : (s.sgc s.sel.sgCtx.toNat).epoch ≠ none) :
    exec (.setApply v) s = .next (s.setRejected s.sel.sgCtx 0) := by
  have open_ := Option.isSome_iff_ne_none.2 epoch
  show execSetApply v s = _
  unfold execSetApply
  simp only [go, hw, open_, Bool.not_true, Bool.or_self, Bool.or_true, Bool.false_eq_true, if_false, if_true]
  rfl

variable (on : s.unitOn 2 = true) (idle : (s.sgc s.sel.sgCtx.toNat).epoch = none)
include on idle

theorem setApply_installs (sound : s.offender s.sel.sgCtx.toNat (s.setTable s.sel.sgCtx.toNat) = none) :
    exec (.setApply v) s = .next (s.modSgc s.sel.sgCtx.toNat fun x => x.installed (s.setTable s.sel.sgCtx.toNat)).checkTier := by
  show execSetApply v s = _
  unfold execSetApply
  simp only [go, hw, on, idle, sound, Bool.not_true, Bool.or_self, Option.isSome_none, Bool.false_eq_true, if_false]

theorem setApply_rejects {i : Nat} (bad : s.offender s.sel.sgCtx.toNat (s.setTable s.sel.sgCtx.toNat) = some i) :
    exec (.setApply v) s = .next (((s.meetUe [((s.sgc s.sel.sgCtx.toNat).itemPlace 0,
      32 * (s.setTable s.sel.sgCtx.toNat).length)]).getD s).setRejected s.sel.sgCtx i) := by
  show execSetApply v s = _
  unfold execSetApply
  simp only [go, hw, on, idle, bad, Bool.not_true, Bool.or_self, Option.isSome_none, Bool.false_eq_true, if_false]
  rfl

end

/-- What a rejected set leaves: REJECT and the item in the context's registers, and the alarm. -/
theorem setRejected_leaves {s : State} (c : CtxId) (i : Nat) (noFault : s.action pgStrong 0 ≠ 2) :
    (s.setRejected c i).sgc c.toNat = { s.sgc c.toNat with reject := true, first := BitVec.ofNat 10 i }
      ∧ SameBut State.sgc c.toNat s (s.setRejected c i) ∧ Stands (s.setRejected c i) pgStrong 0
      ∧ AlarmOnly { s with sgC := (s.setRejected c i).sgC } (s.setRejected c i) := by
  obtain ⟨only, stands⟩ := alarm_raises (s := s.modSgc c.toNat fun x => { x with reject := true, first := BitVec.ofNat 10 i })
    c (by decide) noFault
  refine ⟨(only.sgc _).trans (State.modSgc_same _ _ _), fun j other => (only.sgc j).trans (State.modSgc_ne _ _ other), stands, ?_⟩
  have same := only.sgC
  unfold State.setRejected
  rw [same]
  exact only

end Sys2Proof.Machine
end
section
/-! O56: the tables of the Mint, the Ledger's ranges and pool, and the Strongroom's set. -/

namespace Sys2Proof.Machine

/-- Settles O56, row by row: DESC_APPLY, the descriptor that it names, its end, the registers of the table, the Ledger's ranges
and LG_APPLY, and SET_APPLY. -/
theorem tablesInstallOrAreRejected : Obligations.TablesInstallOrAreRejected := by
  unfold Obligations.TablesInstallOrAreRejected
  refine ⟨?descApply, fun c l i s found => applyBad_first found, ?done, ?registers, ?ledger, ?setApply⟩
  case descApply =>
    intro v s go hw c x l reads
    refine ⟨fun on idle sound clean => ?sound, fun i on idle bad clean noFault => ?offends, fun w on idle met noFault => ?struck,
      fun armed noFault => ?armed⟩
    case sound =>
      refine ⟨_, descApply_installs go hw on ((applyBad_clean idle clean).trans sound), s.modMtc c.toNat MintCtx.installed, ?_⟩
      exact ⟨State.modMtc_same _ _ _, fun j other => State.modMtc_ne _ _ other, rfl, checkTier_kept _⟩
    case offends =>
      have run := descApply_rejects go hw on ((applyBad_clean idle clean).trans bad)
      rw [show s.meetUe (s.descTableReads c) = none from meetUe_none clean] at run
      exact ⟨_, run, descRejected_leaves c i noFault⟩
    case struck =>
      obtain ⟨i, bad⟩ := applyBad_of_error (meetUe_hits met)
      have run := descApply_rejects go hw on bad
      rw [show s.meetUe (s.descTableReads c) = some w from met] at run
      obtain ⟨reject, base, -, stands, only⟩ := descRejected_after (meetUe_actions met) c i noFault
      exact ⟨_, run, reject, base, stands, only⟩
    case armed =>
      obtain ⟨u, i, run, kept, named⟩ := descApply_rejects_after go hw (applyBad_of_update (s.descTable c) armed)
      obtain ⟨reject, base, first, stands, -⟩ := descRejected_after kept c i noFault
      refine ⟨_, run, reject, base, stands, fun on k bad => ?_⟩
      rw [first, Option.some.inj ((named on).symm.trans bad)]
  case done =>
    intro c s busy
    exact ⟨_, if_pos busy, State.modMtc_same _ _ _, fun j other => State.modMtc_ne _ _ other, rfl⟩
  case registers =>
    intro v s hw c x
    refine ⟨fun idle => ?_, fun off reg bad noFault => mintTableBase_refused hw reg bad noFault⟩
    refine ⟨mintTableBase_written hw (by decide) idle nofun ?_, mintTableBase_written hw (by decide) idle nofun ?_,
      mintTableBase_written hw (by decide) idle nofun ?_, mintTableBase_written hw (by decide) idle nofun ?_,
      fun fits => mintTableBase_written hw (by decide) idle (fun _ => fits) ?_⟩
    · exact congrArg (fun b => { x with descBase := b }) (hi64_eq x.descBase v)
    · exact congrArg (fun b => { x with descBase := b }) (lo64_eq x.descBase v 0xFFFFFF80#32)
    · exact congrArg (fun b => { x with coeffBase := b }) (hi64_eq x.coeffBase v)
    · exact congrArg (fun b => { x with coeffBase := b }) (lo64_eq x.coeffBase v 0xFFFFF000#32)
    · exact congrArg (fun b => { x with descCount := b }) (BitVec.ofNat_toNat 13 v)
  case ledger =>
    intro v s hw c x
    exact ⟨lgRange_answers (lgEntRangeWrite_eq hw), lgRange_answers (lgAdpRangeWrite_eq hw), fun go => lgApply_answers go hw⟩
  case setApply =>
    intro v s go hw c x l
    refine ⟨fun epoch noFault => ?epoch, fun on idle sound => ?sound, fun w on idle met noFault => ?struck,
      fun i on idle bad clean noFault => ?offends⟩
    case epoch => exact ⟨_, setApply_in_epoch go hw epoch, setRejected_leaves c 0 noFault⟩
    case sound =>
      refine ⟨_, setApply_installs go hw on idle sound, s.modSgc c.toNat fun x => x.installed l, ?_⟩
      have own := State.modSgc_same s c.toNat fun x => x.installed l
      rw [own]
      exact ⟨x.installed_eq l, fun g dirty => x.installed_keeps l dirty,
        fun it mem mirror g granule from_ below fresh => x.installed_new mem mirror granule from_ below fresh,
        fun j other => State.modSgc_ne _ _ other, rfl, checkTier_kept _⟩
    case struck =>
      obtain ⟨i, bad⟩ := offender_of_error met
      have run := setApply_rejects go hw on idle bad
      rw [met] at run
      have kept := meetUe_actions met
      obtain ⟨own, -, stands, only⟩ := setRejected_leaves (s := w) c i (by rw [kept.1]; exact noFault)
      exact ⟨_, run, congrArg SgCtx.reject own, stands, only⟩
    case offends =>
      have run := setApply_rejects go hw on idle bad
      rw [clean] at run
      exact ⟨_, run, setRejected_leaves c i noFault⟩

end Sys2Proof.Machine
end

section
/-! SUPPORT. The acceptance of a command and the statement on it (O40; R177, R178, R181, R185). -/

namespace Sys2Proof.Machine

/-! ### A command enters the sequence (R180, R185) -/

/-- The completed commands that lead a sequence end before a command that is not complete. -/
theorem getLast?_dropWhile_completed {l : List Flight} {f : Flight} (h : f.phase ≠ .completed) :
    ((l ++ [f]).dropWhile (·.phase = .completed)).getLast? = some f := by
  induction l with
  | nil => simp [h]
  | cons g l ih =>
    rw [List.cons_append, List.dropWhile_cons]
    split
    · exact ih
    · rw [← List.cons_append]; exact List.getLast?_concat ..

theorem acceptCmd_ctx (s : State) (c : CtxId) (q : W32) (i : Image) : (s.acceptCmd c q i).ctx c.toNat =
    { s.ctx c.toNat with
      acceptSeq := q
      flight := (s.ctx c.toNat).flight ++ [{ seq := q, img := i, phase := .queued, acc := s.sched.clock }] : Ctx }.refresh :=
  State.modCtx_same _ _ _

/-- What acceptance leaves: the command stands queued at the end, a token is taken, and no other context changes. -/
theorem acceptCmd_leaves (s : State) (c : CtxId) (q : W32) (i : Image) :
    let t := s.acceptCmd c q i
    (t.ctx c.toNat).acceptSeq = q ∧ t.sched.tokens = s.sched.tokens + 1
      ∧ (∃ f, (t.ctx c.toNat).flight.getLast? = some f ∧ f.seq = q ∧ f.img = i ∧ f.phase = .queued)
      ∧ (t.ctx c.toNat).recs = (s.ctx c.toNat).recs ∧ SameBut State.ctx c.toNat s t
      ∧ t = { s with ctxs := t.ctxs, sched := { s.sched with clock := t.sched.clock, tokens := t.sched.tokens } } := by
  refine ⟨by rw [acceptCmd_ctx]; rfl, rfl, ⟨{ seq := q, img := i, phase := .queued, acc := s.sched.clock }, ?_, rfl, rfl, rfl⟩,
    by rw [acceptCmd_ctx]; rfl, fun j hj => State.modCtx_ne _ _ hj, rfl⟩
  rw [acceptCmd_ctx]
  exact getLast?_dropWhile_completed Phase.noConfusion

/-! ### COMMAND_ACCEPT (R178, R181) -/

/-- A fault at acceptance shows in DETAIL the address it is about. -/
theorem faultCtx_faultedAt (s : State) (c : CtxId) (code : U16) (a : Nat) (cmd : W32) (unit : U16) (irq : Bool)
    (h : (s.ctx c.toNat).st.alive) : FaultedAt s (faultCtx s c code (BitVec.ofNat 64 a) cmd unit irq) c code a := by
  obtain ⟨r, stands, -, kind, code', -, detail⟩ := faultCtx_record s c code (BitVec.ofNat 64 a) cmd unit irq h
  exact ⟨faultCtx_faulted s c code _ cmd unit irq h, r, stands, kind, code', detail⟩

/-- Settles O40, check by check: the number, the image, its fields, and the command that is accepted. -/
theorem commandsAreAcceptedInOrder : Obligations.CommandsAreAcceptedInOrder := by
  unfold Obligations.CommandsAreAcceptedInOrder
  intro c h s u x q i resident announced tokens up
  have alive : (u.ctx c.toNat).st.alive := alive_resident resident
  have goes : ¬((decide (x.st ≠ .resident) || !seqLt x.acceptSeq x.tail || decide (65536 ≤ u.sched.tokens) || !u.boot.hostUp) = true) := by
    have tokens' : ¬ 65536 ≤ u.sched.tokens := Nat.not_le.2 tokens
    have up' : u.boot.hostUp = true := up
    simp [resident, announced, tokens', up']
  have run : exec (.commandAccept c h) s = if cSeq i ≠ q then .next (faultCtx u c 0x0005 0 q 0xFFFF (bit (fld i 4 31 0) 5))
      else if imageBad i then .next (faultCtx u c 0x0001 0 q 0xFFFF (bit (fld i 4 31 0) 5))
      else match u.acceptFault (cmdOf c q i) with
      | some f => .next (faultCtx u c f.1 (BitVec.ofNat 64 f.2) q (unitOf i) (bit (fld i 4 31 0) 5))
      | none => .next (u.acceptCmd c q i) := if_neg goes
  unfold Completes
  rw [run]
  by_cases seq : cSeq i ≠ q
  · simp only [if_pos seq]
    exact ⟨_, rfl, faultCtx_faulted u c _ _ _ _ _ alive⟩
  · simp only [if_neg seq]
    by_cases bad : imageBad i = true
    · simp only [if_pos bad]
      exact ⟨_, rfl, faultCtx_faulted u c _ _ _ _ _ alive⟩
    · simp only [if_neg bad]
      cases fault : u.acceptFault (cmdOf c q i) with
      | some f => exact ⟨_, rfl, faultCtx_faultedAt u c f.1 f.2 q _ _ alive⟩
      | none => exact ⟨_, rfl, acceptCmd_leaves u c q i⟩

end Sys2Proof.Machine
end

section
/-! SUPPORT. Dispatch: the ready head that goes before every other, what a dispatched command leaves, and the statement on it
(O41; R173, R181, R184, R185). -/

namespace Sys2Proof.Machine

/-! ### The ready head that goes first (R185) -/

theorem goesFirst_iff {s : State} {a b : Nat × Flight} :
    s.goesFirst a b = true ↔ s.eff b.1 < s.eff a.1 ∨ (s.eff a.1 = s.eff b.1 ∧ a.2.acc < b.2.acc) := by
  unfold State.goesFirst
  rw [Bool.or_eq_true, Bool.and_eq_true, beq_iff_eq, decide_eq_true_eq, decide_eq_true_eq]

theorem goesFirst_asymm {s : State} {a b : Nat × Flight} (h : s.goesFirst a b = true) : s.goesFirst b a = false := by
  rw [Bool.eq_false_iff, Ne, goesFirst_iff]
  rw [goesFirst_iff] at h
  omega

theorem bestHead_mem {s : State} {l : List (Nat × Flight)} {b : Nat × Flight} (h : s.bestHead l = some b) : b ∈ l := by
  induction l with
  | nil => cases h
  | cons a t ih =>
    unfold State.bestHead at h
    split at h
    case h_1 => cases h; exact List.mem_cons_self ..
    case h_2 c best =>
      split at h
      · cases h; exact List.mem_cons_of_mem _ (ih best)
      · cases h; exact List.mem_cons_self ..

/-- A head that goes before every other is the one that is taken. -/
theorem bestHead_first {s : State} {l : List (Nat × Flight)} {b : Nat × Flight} (mem : b ∈ l)
    (first : ∀ g ∈ l, g ≠ b → s.goesFirst b g = true) : s.bestHead l = some b := by
  induction l with
  | nil => cases mem
  | cons a t ih =>
    have rest := fun g hg => first g (List.mem_cons_of_mem a hg)
    unfold State.bestHead
    split
    case h_1 none_ =>
      rcases List.mem_cons.1 mem with rfl | later
      · rfl
      · rw [ih later rest] at none_; cases none_
    case h_2 c best =>
      by_cases same : a = b
      · subst same
        split
        case isTrue before =>
          by_cases other : c = a
          · rw [other]
          · rw [goesFirst_asymm (rest c (bestHead_mem best) other)] at before; cases before
        case isFalse => rfl
      · have later : b ∈ t := (List.mem_cons.1 mem).resolve_left fun h => same h.symm
        rw [ih later rest] at best
        cases best
        rw [if_pos (first a (List.mem_cons_self ..) same)]

/-! ### A command is dispatched (R184) -/

/-- The command of a context as its engine holds it. -/
def Flight.queued (c : Nat) (f : Flight) : QE := { ctx := BitVec.ofNat 12 c, seq := f.seq, img := f.img, issued := false, acc := f.acc }

/-- An engine's queue takes a command and no context changes. -/
theorem pushTo_ctxs (s : State) (e : Engine) (q : QE) : (s.pushTo_ e q).ctxs = s.ctxs := by cases e <;> rfl

theorem pushTo_tokens (s : State) (e : Engine) (q : QE) : (s.pushTo_ e q).sched.tokens = s.sched.tokens := by cases e <;> rfl

theorem dispatchCmd_ctx (s : State) (e : Engine) (c : Nat) (f : Flight) (j : Nat) :
    (s.dispatchCmd e c f).ctx j = (s.modCtx c fun x => x.phase f.seq .dispatched).ctx j := by
  unfold State.dispatchCmd State.ctx
  rw [pushTo_ctxs]

theorem dispatchCmd_only (s : State) (e : Engine) (c : Nat) (f : Flight) : s.dispatchCmd e c f = { s with
    ctxs := (s.dispatchCmd e c f).ctxs, cls := (s.dispatchCmd e c f).cls, td := (s.dispatchCmd e c f).td
    sched := (s.dispatchCmd e c f).sched } := by
  cases e <;> rfl

/-- The command stands last in its engine's queue. -/
def QueuedLast (e : Engine) (q : QE) (s t : State) : Prop :=
  match e with
  | .matrix cl => t.clu cl.toNat = { s.clu cl.toNat with mq := (s.clu cl.toNat).mq ++ [{ q := q }] }
  | .vector cl => t.clu cl.toNat = { s.clu cl.toNat with vq := (s.clu cl.toNat).vq ++ [q] }
  | .dma cl => t.clu cl.toNat = { s.clu cl.toNat with dq := (s.clu cl.toNat).dq ++ [q] }
  | .teller cl => t.clu cl.toNat = { s.clu cl.toNat with callq := (s.clu cl.toNat).callq ++ [q] }
  | .touch d => (t.tdie d.val).tq = (s.tdie d.val).tq ++ [q]
  | .sync => t.sched.sync = s.sched.sync ++ [{ q := q, waiting := false, age := 0 }]
  | .mint => t.sched = { s.sched with update := s.sched.update ++ [q] } ∧ t.cls = s.cls ∧ t.td = s.td
  | .bursar => t.sched = { s.sched with hint := s.sched.hint ++ [q] } ∧ t.cls = s.cls ∧ t.td = s.td
  | .cheap _ => t.sched = { s.sched with cheap := s.sched.cheap ++ [q] } ∧ t.cls = s.cls ∧ t.td = s.td
  | .strongroom => t.sched = { s.sched with ckpt := s.sched.ckpt ++ [q] } ∧ t.cls = s.cls ∧ t.td = s.td
  | .ledger => t.sched = { s.sched with seq := s.sched.seq ++ [q] } ∧ t.cls = s.cls ∧ t.td = s.td
  | .eval => t.sched = { s.sched with eval := s.sched.eval ++ [q] } ∧ t.cls = s.cls ∧ t.td = s.td

theorem dispatchCmd_queues (s : State) (e : Engine) (c : Nat) (f : Flight) : QueuedLast e (f.queued c) s (s.dispatchCmd e c f) := by
  cases e with
  | matrix cl | vector cl | dma cl | teller cl => exact State.modCl_same _ _ _
  | touch d => exact congrArg TouchDie.tq (State.modTd_same _ _ _)
  | sync => rfl
  | mint | bursar | cheap _ | strongroom | ledger | eval => exact ⟨rfl, rfl, rfl⟩

/-! ### COMMAND_DISPATCH (R181, R184, R185) -/

section
variable {e : Engine} {c : Nat} {f : Flight} {s : State} (slot : s.slotOpen e = true) (best : s.bestHead (s.heads e) = some (c, f))
include slot best

theorem commandDispatch_faults {code : U16} {a : Nat} (fault : s.dispatchFault (BitVec.ofNat 12 c) f = some (code, a)) :
    exec (.commandDispatch e) s = .next (faultCtx s (BitVec.ofNat 12 c) code (BitVec.ofNat 64 a) f.seq (unitOf f.img)) := by
  show execCommandDispatch e s = _
  unfold execCommandDispatch
  simp only [slot, best, fault]
  rfl

theorem commandDispatch_dispatches (sound : s.dispatchFault (BitVec.ofNat 12 c) f = none) :
    exec (.commandDispatch e) s = .next (s.dispatchCmd e c f) := by
  show execCommandDispatch e s = _
  unfold execCommandDispatch
  simp only [slot, best, sound]
  rfl

end

/-- Settles O41: the head that goes first meets its fault, or is dispatched. -/
theorem dispatchTakesTheFirstByPriority : Obligations.DispatchTakesTheFirstByPriority := by
  unfold Obligations.DispatchTakesTheFirstByPriority
  intro e c f s slot small mem first
  have best : s.bestHead (s.heads e) = some (c, f) := bestHead_first mem fun g hg other =>
    goesFirst_iff.2 ((first g hg other).imp_right fun h => ⟨h.1.symm, h.2⟩)
  have id_ : (BitVec.ofNat 12 c).toNat = c := by rw [BitVec.toNat_ofNat]; exact Nat.mod_eq_of_lt small
  refine ⟨fun code a fault => ⟨_, commandDispatch_faults slot best fault, fun resident => ?faulted⟩,
    fun sound => ⟨_, commandDispatch_dispatches slot best sound, fun g hg same => ?phase, fun j hj => ?others,
      dispatchCmd_only s e c f, pushTo_tokens _ e _, dispatchCmd_queues s e c f⟩⟩
  case faulted => exact faultCtx_faultedAt _ _ _ _ _ _ _ (alive_resident (by rw [id_]; exact resident))
  case phase =>
    rw [dispatchCmd_ctx, State.modCtx_same] at hg
    exact Ctx.phase_mem _ _ _ hg same
  case others => rw [dispatchCmd_ctx, State.modCtx_ne _ _ hj]

end Sys2Proof.Machine
end

section
/-! SUPPORT. SYNC, EVAL and CHEAP commands, and the statement on them (O43; R182, R183, R186, R189, R214, R232). -/

namespace Sys2Proof.Machine

/-! ### A SYNC command ends, or waits (R182, R189) -/

/-- What a SYNC command at its end leaves: it has left the queue, and nothing but its context changes besides. -/
theorem syncEnd_spec (s : State) (q : QE) :
    let t := s.syncEnd q
    Finishes s t q 0 ∧ t.sched.sync = s.sched.sync.filter (fun x => x.q ≠ q) ∧ t = { s with ctxs := t.ctxs, sched := t.sched } := by
  refine ⟨(complete_finishes (s.syncDrop q) q 0 0xFFFF 0).of_tokens rfl rfl rfl rfl, ?_, complete_frame (s.syncDrop q) q 0 0xFFFF 0⟩
  unfold State.syncEnd
  rw [complete_only]
  rfl

theorem reinherit_only (s : State) : InheritOnly s s.reinherit := ⟨rfl, reinherit_ctx s⟩

/-- What a wait that is not met leaves: its command waits, and else inherited priorities alone change. -/
theorem syncWait_leaves (s : State) (q : QE) :
    let t := s.reinherit.syncWait q
    ∃ u, InheritOnly u t ∧ u = { s with sched := t.sched } ∧ t.sched.tokens = s.sched.tokens
      ∧ (∀ x ∈ t.sched.sync, x.q = q → x.waiting = true) ∧ t.sched.sync.map (·.q) = s.sched.sync.map (·.q) := by
  obtain ⟨same, waits⟩ := syncWait_sync s.reinherit q
  exact ⟨{ s with sched := (s.reinherit.syncWait q).sched }, ⟨rfl, reinherit_ctx s⟩, rfl, rfl, waits, same⟩

/-- A wait is over at once where its condition holds, and begins where it does not. -/
theorem syncTry_leaves {s : State} {q : QE} {met : Prop} [Decidable met] (h : s.syncMet q = true ↔ met) :
    let t := s.syncTry q
    if met then Finishes s t q 0 ∧ t = { s with ctxs := t.ctxs, sched := t.sched }
    else ∃ u, InheritOnly u t ∧ u = { s with sched := t.sched } ∧ t.sched.tokens = s.sched.tokens
      ∧ (∀ x ∈ t.sched.sync, x.q = q → x.waiting = true) ∧ t.sched.sync.map (·.q) = s.sched.sync.map (·.q) := by
  unfold State.syncTry
  by_cases ended : s.syncMet q = true
  · obtain ⟨done, -, only⟩ := syncEnd_spec s q
    rw [if_pos ended, if_pos (h.1 ended)]
    exact ⟨done, only⟩
  · rw [if_neg ended, if_neg fun m => ended (h.2 m)]
    exact syncWait_leaves s q

theorem toInt_nonneg_iff {w : W32} : 0 ≤ w.toInt ↔ w.toNat < 2 ^ 31 := by
  rw [BitVec.toInt_eq_toNat_cond]
  split <;> omega

/-- The condition of WAIT_GE: the semaphore is not behind the value in the 32-bit order (R182). -/
theorem syncMet_ge {s : State} {q : QE} (op : fld q.img 0x10 2 0 = 1) :
    s.syncMet q = true ↔ ((s.sem (syncSem q.img)).value - w32 q.img 0x18).toNat < 2 ^ 31 := by
  unfold State.syncMet
  rw [op]
  exact decide_eq_true_iff.trans toInt_nonneg_iff

theorem syncMet_cmd {s : State} {q : QE} (op : fld q.img 0x10 2 0 = 2) :
    s.syncMet q = true ↔ seqLe (w32 q.img 0x1C) (s.ctx q.ctx.toNat).completeSeq = true := by
  unfold State.syncMet
  rw [op]
  exact .rfl

/-! ### SIGNAL (R182, R232) -/

/-- A semaphore takes an addend, and on a context's COLL_SEM as many collectives are to start. -/
theorem semAdd_spec (s : State) (c i : Nat) (v : W32) :
    let t := s.semAdd c i v
    (t.sem i).value = (s.sem i).value + v ∧ SameBut State.sem i s t
      ∧ (t.lkc c).units = (if (s.lkc c).collSem.toNat = i ∧ 4 ≤ (s.lkc c).collqLog.toNat then (s.lkc c).units + v.toNat else (s.lkc c).units)
      ∧ t = { s with sems := t.sems, lkC := t.lkC } := by
  have added : ((s.modSem i fun x => { x with value := x.value + v }).sem i).value = (s.sem i).value + v := by rw [State.modSem_same]
  have others : SameBut State.sem i s (s.modSem i fun x => { x with value := x.value + v }) := fun j hj => State.modSem_ne s _ hj
  unfold State.semAdd
  by_cases starts : (s.lkc c).collSem.toNat = i ∧ 4 ≤ (s.lkc c).collqLog.toNat
  · rw [if_pos (show ((s.modSem i _).lkc c).collSem.toNat = i ∧ 4 ≤ ((s.modSem i _).lkc c).collqLog.toNat from starts), if_pos starts]
    exact ⟨added, others, by rw [State.modLkc_same]; rfl, rfl⟩
  · rw [if_neg (show ¬(((s.modSem i _).lkc c).collSem.toNat = i ∧ 4 ≤ ((s.modSem i _).lkc c).collqLog.toNat) from starts), if_neg starts]
    exact ⟨added, others, rfl, rfl⟩

theorem signalHead_ctx {s : State} {c : CtxId} {k : SyncCmd} (head : s.signalHead c = some k) : k.q.ctx = c := by
  have found := List.find?_some head
  simp only [Bool.and_eq_true, decide_eq_true_eq] at found
  exact found.1.1

theorem signal_runs {c : CtxId} {k : SyncCmd} {s : State} (head : s.signalHead c = some k) (resident : (s.ctx c.toNat).st = .resident)
    (valid : (s.sem (syncSem k.q.img)).valid = true) (owner : (s.sem (syncSem k.q.img)).owner = c) :
    exec (.signal c) s = .next ((s.semAdd c.toNat (syncSem k.q.img) (w32 k.q.img 0x18)).syncEnd k.q) := by
  have own : s.signals k.q = true := by
    unfold State.signals
    rw [valid, owner, signalHead_ctx head]
    simp
  show execSignal c s = _
  unfold execSignal
  simp only [head, isIn_of_resident resident, own]
  rfl

/-! ### EVAL (R183, R214) -/

/-- The first command of a sequence that completes leaves the evaluation window as it sets it, where the next is not complete. -/
theorem Ctx.phase_window {x : Ctx} {f : Flight} {rest : List Flight} (flight : x.flight = f :: rest) (others : ∀ g ∈ rest, g.seq ≠ f.seq)
    (next : ∀ g ∈ rest.head?, g.phase ≠ .completed) : (x.phase f.seq .completed).evalOpen = windowAfter x.evalOpen f.img := by
  have rest_ : rest.map (fun g : Flight => if g.seq = f.seq then { g with phase := .completed } else g) = rest :=
    (List.map_congr_left fun g hg => if_neg (others g hg)).trans (List.map_id' rest)
  have stops : rest.takeWhile (fun g : Flight => decide (g.phase = .completed)) = [] := by
    cases rest with
    | nil => rfl
    | cons g l => exact List.takeWhile_cons_of_neg (by simpa using next g rfl)
  unfold Ctx.phase Ctx.refresh
  dsimp only
  rw [flight, List.map_cons, rest_, if_pos rfl, List.takeWhile_cons_of_pos (by rfl), stops]
  rfl

/-- An EVAL command at its end leaves the window that it sets. -/
theorem complete_window (s : State) (q : QE) (code unit : Nat) (detail : W64) :
    WindowAt s (s.complete q code unit detail) q (bit (fld q.img 0x10 31 0) 0) := by
  intro f rest flight seq img issued cls others next ends
  rcases complete_cases s q code unit detail with ⟨waits, -⟩ | ⟨-, completes⟩
  · rw [ends] at waits; cases waits
  · rw [completes, ends_ctx]
    dsimp only
    rw [if_neg (by rw [issued]; exact Bool.false_ne_true), ← seq]
    refine (Ctx.phase_window (x := { s.ctx q.ctx.toNat with recs := _ }) flight (fun g hg => by rw [seq]; exact others g hg) next).trans ?_
    unfold windowAfter
    rw [img]
    exact if_pos cls

theorem evalHead_begin {s : State} {c : CtxId} {begin_ : Bool} {q : QE} (head : s.evalHead c begin_ = some q) :
    bit (fld q.img 0x10 31 0) 0 = begin_ := by
  have found := List.find?_some head
  simp only [Bool.and_eq_true, beq_iff_eq] at found
  exact found.2

/-- What an EVAL command at its end leaves. -/
theorem evalDone_spec {s : State} {c : CtxId} {w : Bool} {q : QE} (head : s.evalHead c w = some q) :
    let t := s.evalDone q
    Finishes s t q 0 ∧ t.sched.eval = s.sched.eval.filter (· ≠ q) ∧ WindowAt s t q w ∧ t = { s with ctxs := t.ctxs, sched := t.sched } := by
  refine ⟨(complete_finishes { s with sched := { s.sched with eval := s.sched.eval.filter (· ≠ q) } } q 0 0xFFFF _).of_tokens rfl rfl rfl rfl,
    ?_, ?_, complete_frame { s with sched := { s.sched with eval := s.sched.eval.filter (· ≠ q) } } q 0 0xFFFF _⟩
  · unfold State.evalDone
    rw [complete_only]
  · rw [← evalHead_begin head]
    exact complete_window { s with sched := { s.sched with eval := s.sched.eval.filter (· ≠ q) } } q 0 0xFFFF _

theorem evalBegin_runs {c : CtxId} {q : QE} {s : State} (head : s.evalHead c true = some q) (resident : (s.ctx c.toNat).st = .resident) :
    exec (.evalBegin c) s = .next (s.evalDone q) := by
  show execEvalBegin c s = _
  unfold execEvalBegin
  simp only [head]
  exact if_pos (isIn_of_resident resident)

theorem evalEnd_runs {c : CtxId} {q : QE} {s : State} (head : s.evalHead c false = some q) (resident : (s.ctx c.toNat).st = .resident)
    (before : (s.ctx c.toNat).completeSeq = q.seq - 1) : exec (.evalEnd c) s = .next (s.evalDone q) := by
  show execEvalEnd c s = _
  unfold execEvalEnd
  simp only [head]
  exact if_pos (by rw [isIn_of_resident resident, before, beq_self_eq_true]; rfl)

/-! ### CHEAP (R186) -/

/-- A context on a cluster once its live set is named. -/
def CtxCl.cheapAt (y : CtxCl) (live : Nat) : CtxCl := { y with cheap := true, ran := false, live := live }

/-- The device once a CHEAP command has named the live set and has left its queue. -/
def State.cheapNamed (s : State) (c : CtxId) (cl : ClId) (q : QE) : State :=
  { s with sched := { s.sched with cheap := s.sched.cheap.filter (· ≠ q) } }.modCl cl.toNat fun x => x.modPc c.toNat fun y =>
    y.cheapAt ((s.clu cl.toNat).mem.readN (fld q.img 0x10 15 0 * 128) 128)

theorem cheap_runs {c : CtxId} {cl : ClId} {q : QE} {s : State}
    (head : s.sched.cheap.find? (fun q => q.ctx = c && cCluster q.img = cl) = some q) (resident : (s.ctx c.toNat).st = .resident)
    (earlier : ∀ g ∈ (s.ctx c.toNat).earlier q.seq, namesCluster g.img ≠ some cl)
    (owns : s.ownsIn c cl (fld q.img 0x10 15 0 * 128) 128 = true) : exec (.cheap c cl) s = .next ((s.cheapNamed c cl q).complete q 0 cl.toNat 0) := by
  have idle : (((s.ctx c.toNat).earlier q.seq).any fun g => namesCluster g.img == some cl) = false :=
    List.any_eq_false.2 fun g hg => by simpa using earlier g hg
  show execCheap c cl s = _
  unfold execCheap
  simp only [head, isIn_of_resident resident, idle, owns]
  rfl

theorem cheapNamed_clu (s : State) (c : CtxId) (cl : ClId) (q : QE) : (s.cheapNamed c cl q).clu cl.toNat =
    (s.clu cl.toNat).modPc c.toNat fun y => y.cheapAt ((s.clu cl.toNat).mem.readN (fld q.img 0x10 15 0 * 128) 128) := State.modCl_same _ _ _

theorem cheap_leaves (s : State) (c : CtxId) (cl : ClId) (q : QE) :
    let t := (s.cheapNamed c cl q).complete q 0 cl.toNat 0
    Finishes s t q 0 ∧ (t.clu cl.toNat).pc c.toNat
        = ((s.clu cl.toNat).pc c.toNat).cheapAt ((s.clu cl.toNat).mem.readN (fld q.img 0x10 15 0 * 128) 128)
      ∧ t.clu cl.toNat = { s.clu cl.toNat with per := (t.clu cl.toNat).per } ∧ SameBut State.clu cl.toNat s t
      ∧ t = { s with cls := t.cls, ctxs := t.ctxs, sched := t.sched } := by
  have only := complete_frame (s.cheapNamed c cl q) q 0 cl.toNat 0
  have clu (j : Nat) : ((s.cheapNamed c cl q).complete q 0 cl.toNat 0).clu j = (s.cheapNamed c cl q).clu j := by
    unfold State.clu
    rw [only]
  refine ⟨(complete_finishes (s.cheapNamed c cl q) q 0 cl.toNat 0).of_tokens rfl rfl rfl rfl, ?_, ?_, fun j hj => ?_, ?_⟩
  · rw [clu, cheapNamed_clu, Cluster.modPc_pc, if_pos rfl]
  · rw [clu, cheapNamed_clu]
    exact Cluster.modPc_frame ..
  · rw [clu]
    exact State.modCl_ne _ _ hj
  · refine only.trans ?_
    rw [only]
    rfl

/-- Settles O43, command by command: SIGNAL, the waits and their end, EVAL, CHEAP. -/
theorem syncSignalsAndWaits : Obligations.SyncSignalsAndWaits := by
  unfold Obligations.SyncSignalsAndWaits
  refine ⟨?signal, ?waitGe, ?waitCmd, ?satisfied, ?begins, ?ends, ?cheap⟩
  case signal =>
    intro c k s head resident valid owner
    obtain ⟨value, others, units, added⟩ := semAdd_spec s c.toNat (syncSem k.q.img) (w32 k.q.img 0x18)
    obtain ⟨done, sync, only⟩ := syncEnd_spec (s.semAdd c.toNat (syncSem k.q.img) (w32 k.q.img 0x18)) k.q
    refine ⟨_, signal_runs head resident valid owner, ?_⟩
    generalize s.semAdd c.toNat (syncSem k.q.img) (w32 k.q.img 0x18) = u at *
    generalize u.syncEnd k.q = t at *
    have ctxs : u.ctxs = s.ctxs := by rw [added]
    have sched : u.sched = s.sched := by rw [added]
    have sems : t.sems = u.sems := by rw [only]
    have lkC : t.lkC = u.lkC := by rw [only]
    refine ⟨?_, fun j hj => ?_, done.congr ctxs.symm sched.symm rfl rfl, ?_, sched ▸ sync, ?_⟩
    · unfold State.sem at *; rw [sems]; exact value
    · unfold SameBut State.sem at *; rw [sems]; exact others j hj
    · unfold State.lkc at *; rw [lkC]; exact units
    · rw [sems, lkC]
      refine only.trans ?_
      conv_lhs => rw [added]
  case waitGe =>
    intro c k s head resident valid job
    have found := List.find?_some head
    simp only [Bool.and_eq_true, beq_iff_eq] at found
    refine ⟨_, ?_, syncTry_leaves (syncMet_ge found.1.2)⟩
    show execWaitGe c s = _
    unfold execWaitGe
    simp only [head, isIn_of_resident resident, valid]
    exact if_neg (not_not.2 job)
  case waitCmd =>
    intro c k s head resident
    have found := List.find?_some head
    simp only [Bool.and_eq_true, beq_iff_eq] at found
    refine ⟨_, ?_, syncTry_leaves (syncMet_cmd found.1.2)⟩
    show execWaitCmd c s = _
    unfold execWaitCmd
    simp only [head, isIn_of_resident resident]
    rfl
  case satisfied =>
    intro c seq k s head met
    obtain ⟨done, sync, only⟩ := syncEnd_spec s k.q
    refine ⟨_, ?_, _, reinherit_only (s.syncEnd k.q), done, only, sync⟩
    show execSyncWaitSatisfied c seq s = _
    unfold execSyncWaitSatisfied
    simp only [head, met]
    rfl
  case begins =>
    intro c q s head resident
    exact ⟨_, evalBegin_runs head resident, evalDone_spec head⟩
  case ends =>
    intro c q s head resident before
    exact ⟨_, evalEnd_runs head resident before, evalDone_spec head⟩
  case cheap =>
    intro c cl q s head resident earlier owns
    obtain ⟨done, pc, clu, others, only⟩ := cheap_leaves s c cl q
    exact ⟨_, cheap_runs head resident earlier owns, done, by rw [pc]; rfl, by rw [pc]; rfl, by rw [pc]; rfl, clu, others, only⟩

end Sys2Proof.Machine
end

section
/-! SUPPORT. Hints and SELF_LAG: what a hint names, what it takes from earlier hints, what a division of the cap leaves, and the
statement on them (O27; R179, R180, R240, R248, R249, R259). -/

namespace Sys2Proof.Machine

/-! ### The dies of a hint (R248, R249) -/

theorem bit_toNat {w : Nat} (x : BitVec w) (i : Nat) : bit x.toNat i = x.getLsbD i := BitVec.testBit_toNat x

/-- A hint names the powered dies of its mask, all of them when the mask is 0. -/
theorem hintMask_names (s : State) (m : Byte) {d : Nat} (hd : d < 8) :
    bit (s.hintMask m).toNat d = true ↔ d < s.dies ∧ (m = 0 ∨ bit m.toNat d = true) := by
  have all : (BitVec.ofNat 8 (2 ^ s.dies - 1)).getLsbD d = decide (d < s.dies) := by
    rw [BitVec.getLsbD_ofNat, Nat.testBit_two_pow_sub_one, decide_eq_true hd, Bool.true_and]
  rw [bit_toNat, bit_toNat]
  unfold State.hintMask
  dsimp only
  by_cases zero : m = 0
  · rw [if_pos zero, all, decide_eq_true_iff, or_iff_left_of_imp fun _ => zero, and_iff_left zero]
  · rw [if_neg zero, BitVec.getLsbD_and, all, or_iff_right zero, Bool.and_eq_true, decide_eq_true_iff, and_comm]

/-- The mask field of a HINT command, as a byte. -/
theorem hintField_names (s : State) (i : Image) {d : Nat} (hd : d < 8) :
    bit (s.hintMask (BitVec.ofNat 8 (fld i 0x18 7 0))).toNat d = true
      ↔ d < s.dies ∧ (fld i 0x18 7 0 = 0 ∨ bit (fld i 0x18 7 0) d = true) := by
  have small : fld i 0x18 7 0 < 2 ^ 8 := bits_lt _ _ _
  have value : (BitVec.ofNat 8 (fld i 0x18 7 0)).toNat = fld i 0x18 7 0 := by rw [BitVec.toNat_ofNat]; exact Nat.mod_eq_of_lt small
  rw [hintMask_names s _ hd, value, ← BitVec.toNat_inj, value]
  rfl

/-- An earlier hint once a later one of context `c` names the dies `m`. -/
def State.supersedes (s : State) (c : CtxId) (m : Byte) (h : HintRec) : HintRec :=
  if h.ctx = c then { h with live := h.live &&& ~~~m, ruled := h.ruled ||| (m &&& s.governed h) } else h

theorem supersede_eq (s : State) (c : CtxId) (m : Byte) : s.supersede c m = s.bursar.hints.map (s.supersedes c m) := rfl

theorem supersedes_leaves (s : State) (c : CtxId) (m : Byte) (g : HintRec) :
    let g' := s.supersedes c m g
    g' = { g with live := g'.live, ruled := g'.ruled } ∧ (g.ctx ≠ c → g' = g)
      ∧ (g.ctx = c → ∀ d < 8, bit g'.live.toNat d = (bit g.live.toNat d && !bit m.toNat d)) := by
  unfold State.supersedes
  by_cases own : g.ctx = c
  · rw [if_pos own]
    refine ⟨rfl, absurd own, fun _ d hd => ?_⟩
    simp only [bit_toNat, BitVec.getLsbD_and, BitVec.getLsbD_not, decide_eq_true hd, Bool.true_and]
  · rw [if_neg own]
    exact ⟨rfl, fun _ => rfl, fun same => absurd same own⟩

/-! ### A division of the cap leaves the hints (R252) -/

theorem eachDie_only (s : State) (f : Nat → DiePower → DiePower) : s.eachDie f = { s with dp := (s.eachDie f).dp } := by
  refine List.foldlRecOn (motive := fun u : State => u = { s with dp := u.dp }) _ _ rfl fun u h d _ => ?_
  change { u with dp := (u.modDp d (f d)).dp } = { s with dp := (u.modDp d (f d)).dp }
  generalize (u.modDp d (f d)).dp = after
  rw [h]

theorem endRamp_hints (s : State) : s.endRamp.bursar.hints = s.bursar.hints := by
  unfold State.endRamp
  split
  · rw [eachDie_only]
  · rfl

theorem divide_hints (s : State) : s.divide.bursar.hints = s.bursar.hints := by
  unfold State.divide
  split
  · rfl
  · rw [endRamp_hints, eachDie_only]

/-! ### HINT (R248, R249) -/

/-- The hint of a HINT command. -/
def State.hintOf (s : State) (c : CtxId) (i : Image) : HintRec where
  no := s.bursar.hintNo
  ctx := c
  cls := BitVec.ofNat 4 (fld i 0x10 3 0)
  dur := w32 i 0x14
  mask := s.hintMask (BitVec.ofNat 8 (fld i 0x18 7 0))
  live := s.hintMask (BitVec.ofNat 8 (fld i 0x18 7 0))

/-- The Bursar has taken the hint from its queue. -/
def State.hinted (s : State) (c : CtxId) (q : QE) : State :=
  { s with
    sched := { s.sched with hint := s.sched.hint.erase q }
    bursar := { s.bursar with
      hintNo := s.bursar.hintNo + 1
      hints := s.supersede c (s.hintOf c q.img).mask ++ [s.hintOf c q.img] } }

/-- Where the hint comes to govern a die, the cap is divided again. -/
def State.hintDivided (s : State) (c : CtxId) (q : QE) : State :=
  if (List.range (s.hinted c q).dies).any fun d => ((s.hinted c q).governing d).any fun h => h.no + 1 = (s.hinted c q).bursar.hintNo
  then (s.hinted c q).divide else s.hinted c q

theorem hint_runs {c : CtxId} {q : QE} {s : State} (head : s.sched.hint.find? (fun q => q.ctx = c) = some q)
    (defined : fld q.img 0x10 3 0 < 7) : exec (.hint c) s = .next ((s.hintDivided c q).complete q) := by
  show execHint c s = _
  unfold execHint
  simp only [head]
  exact if_neg (Nat.not_le.2 defined)

theorem hintDivided_leaves (s : State) (c : CtxId) (q : QE) : PowerOnly (s.hinted c q) (s.hintDivided c q)
    ∧ (s.hintDivided c q).bursar.hints = s.supersede c (s.hintOf c q.img).mask ++ [s.hintOf c q.img] := by
  unfold State.hintDivided
  split
  · exact ⟨divide_powerOnly _, divide_hints _⟩
  · exact ⟨.refl _, rfl⟩

/-! ### SELF_LAG (R240, R259) -/

/-- SELF_LAG shows in the link state and in the power state, and both alarms are raised. -/
def State.lagShown (s : State) : State :=
  ({ s with links := { s.links with selfLag := true }, bursar := { s.bursar with selfLag := true } }.alarm pgLinks 2).alarm pgBursar 4

theorem lagShown_only (s : State) :
    AlarmOnly { s with links := { s.links with selfLag := true }, bursar := { s.bursar with selfLag := true } } s.lagShown :=
  (alarm_only _ _ _).trans (alarm_only _ _ _)

/-- SELF_LAG answers a state that differs from the flags and alarms in the power records of dies alone. -/
theorem selfLag_runs {s : State} (slow : 100 ≤ s.links.lagRun) (ready : s.boot.stage = 7) :
    ∃ t, exec .selfLag s = .next t ∧ t = { s.lagShown with dp := t.dp } := by
  have goes : ¬((decide (s.links.lagRun < 100) || !s.ready) = true) := by
    unfold State.ready
    simp [Nat.not_lt.2 slow, ready]
  show ∃ t, execSelfLag s = .next t ∧ _
  unfold execSelfLag
  rw [if_neg goes]
  dsimp only
  split
  · exact ⟨_, rfl, rfl⟩
  · split
    · exact ⟨_, rfl, eachDie_only _ _⟩
    · exact ⟨_, rfl, rfl⟩

/-- Settles O27: the hint joins the list and completes; SELF_LAG shows its flags and alarms. -/
theorem hintIsTakenAtDispatch : Obligations.HintIsTakenAtDispatch := by
  unfold Obligations.HintIsTakenAtDispatch
  refine ⟨?hint, ?lag⟩
  case hint =>
    intro c q s head defined
    obtain ⟨power, hints⟩ := hintDivided_leaves s c q
    refine ⟨_, hint_runs head defined, ?_⟩
    have done := complete_finishes (s.hintDivided c q) q 0 0xFFFF 0
    have only := complete_only (s.hintDivided c q) q 0 0xFFFF 0
    have frame := complete_frame (s.hintDivided c q) q 0 0xFFFF 0
    generalize (s.hintDivided c q).complete q = t at *
    generalize s.hintDivided c q = u at *
    have ctxs : u.ctxs = s.ctxs := by rw [power]; rfl
    have sched : u.sched = (s.hinted c q).sched := by rw [power]
    have tokens : u.tokensAfter q = s.tokensAfter q := by
      unfold State.tokensAfter State.endWaits State.ctx; rw [ctxs, sched]; rfl
    have bursar : t.bursar = u.bursar := by rw [frame]
    have dp : t.dp = u.dp := by rw [frame]
    refine ⟨done.of_tokens ctxs.symm (by rw [sched]; rfl) rfl rfl, ?sched, ?hints, ?frame⟩
    case sched => rw [only, tokens, sched]; rfl
    case frame =>
      rw [bursar, dp]
      refine frame.trans ?_
      conv_lhs => rw [power]
      rfl
    case hints =>
      rw [bursar, hints, supersede_eq]
      refine ⟨s.hintOf c q.img, List.getLast?_concat .., rfl, ?cls, rfl, ?length, fun d hd => hintField_names s q.img hd, fun i g at_ => ?earlier⟩
      case cls => exact (BitVec.toNat_ofNat _ _).trans (Nat.mod_eq_of_lt (by omega))
      case length => rw [List.length_append, List.length_map]; rfl
      case earlier =>
        refine ⟨s.supersedes c (s.hintOf c q.img).mask g, ?_, supersedes_leaves s c _ g⟩
        have mapped : (s.bursar.hints.map (s.supersedes c (s.hintOf c q.img).mask))[i]? = some (s.supersedes c (s.hintOf c q.img).mask g) := by
          rw [List.getElem?_map, at_]; rfl
        rw [List.getElem?_append_left (List.getElem?_eq_some_iff.1 mapped).1, mapped]
  case lag =>
    intro s slow ready
    obtain ⟨t, runs, only⟩ := selfLag_runs slow ready
    have shown_ := lagShown_only s
    have second : Stands s.lagShown pgBursar 4 := alarm_stands _ _ _ (by decide)
    have first : Stands s.lagShown pgLinks 2 := alarm_mono _ _ _ _ _ (alarm_stands _ _ _ (by decide))
    generalize s.lagShown = u at *
    have hdr : t.hdr = u.hdr := by rw [only]
    refine ⟨t, runs, ?_, ?_, ?_, ?_, ?_, ?_, ?_, ?_⟩
    · rw [only, shown_]
    · rw [only, shown_]
    · unfold Stands at *; rw [hdr]; exact first
    · unfold Stands at *; rw [hdr]; exact second
    all_goals rw [only, shown_]

end Sys2Proof.Machine
end

section
/-! SUPPORT. The teardown of a fault and the scrub: which commands and packets of the context are gone, what the scrub
leaves of its clusters and partitions, and the statement on them (O45; R116, R191, R192). -/

namespace Sys2Proof.Machine

/-! ### What a fault stops (R191 steps 1 to 4) -/

theorem stopCtx_clu (s : State) (c : CtxId) (j : Nat) : (s.stopCtx c).clu j = (s.clu j).dropCtx c := SMap.get_mapV _ _ _ rfl
theorem stopCtx_tdie (s : State) (c : CtxId) (d : Nat) : (s.stopCtx c).tdie d = { s.tdie d with
    tq := (s.tdie d).tq.filter (·.ctx ≠ c)
    part := SMap.mapV {} (fun k p => if k = c.toNat then { p with refusing := true } else p) (s.tdie d).part } :=
  SMap.get_mapV _ _ _ rfl
theorem stopCtx_prt6 (s : State) (c : CtxId) (p : Nat) : (s.stopCtx c).prt6 p = (s.prt6 p).withdraw (s.ownPacket c) :=
  SMap.get_mapV _ _ _ rfl
theorem stopCtx_lkc (s : State) (c : CtxId) :
    (s.stopCtx c).lkc c.toNat = { s.lkc c.toNat with coll := none, red := none, early := [], units := 0 } := by
  have links : (s.stopCtx c).lkC = SMap.upd {} s.lkC c.toNat fun x => { x with coll := none, red := none, early := [], units := 0 } := rfl
  unfold State.lkc
  rw [links, SMap.get_upd_same]

/-- A mapped value is the mapped function's, or stays: an unlisted key has no value to map. -/
theorem SMap.get_mapV_cases {α : Type} [DecidableEq α] (d : α) (f : Nat → α → α) (m : SMap α) (k : Nat) :
    SMap.get d (SMap.mapV d f m) k = f k (SMap.get d m k)
      ∨ SMap.get d (SMap.mapV d f m) k = SMap.get d m k ∧ SMap.get d m k = d := by
  unfold SMap.mapV
  rw [SMap.foldl_upd_get f _ (SMap.keys_nodup m)]
  split
  · exact .inl rfl
  · rename_i unlisted
    exact .inr ⟨rfl, SMap.get_unlisted m unlisted⟩

/-- A fault changes the partition of its own context alone, and every valid one of those refuses from then on. -/
theorem stopCtx_prt_ne (s : State) {c : CtxId} (d : Nat) {e : Nat} (other : e ≠ c.toNat) : (s.stopCtx c).prt d e = s.prt d e := by
  unfold State.prt
  rw [stopCtx_tdie]
  rcases SMap.get_mapV_cases ({} : Part) (fun k p => if k = c.toNat then { p with refusing := true } else p) (s.tdie d).part e
    with mapped | ⟨stays, -⟩
  · rw [mapped, if_neg other]
  · exact stays

theorem stopCtx_refusing (s : State) (c : CtxId) (d : Nat) (valid : ((s.stopCtx c).prt d c.toNat).valid = true) :
    ((s.stopCtx c).prt d c.toNat).refusing = true := by
  unfold State.prt at *
  rw [stopCtx_tdie] at *
  rcases SMap.get_mapV_cases ({} : Part) (fun k p => if k = c.toNat then { p with refusing := true } else p) (s.tdie d).part c.toNat
    with mapped | ⟨stays, unlisted⟩
  · rw [mapped, if_pos rfl]
  · rw [stays, unlisted] at valid
    cases valid

/-- What is left of a queue holds no command of the context. -/
theorem not_own_of_filter {α : Type} {c : CtxId} {own : α → CtxId} {l : List α} {x : α} (left : x ∈ l.filter (own · ≠ c)) : own x ≠ c :=
  of_decide_eq_true (List.mem_filter.1 left).2

/-! ### What the scrub clears (R191 steps 5 and 6) -/

/-- A region of a cluster's memory reads zero. -/
def RegionZero (d : CluDesc) (m : Mem) : Prop := ∀ a, d.memBase * 128 ≤ a → a < (d.memBase + d.memSize) * 128 → m.read a = 0

theorem scrub_zeroes (x : Cluster) (c : Nat) (d : CluDesc) : RegionZero d (x.scrub c d).mem :=
  fun _ low high => (SMap.get_clear _ _ _ _).trans (if_pos ⟨low, high⟩)

/-- A scrub writes nothing but zeros. -/
theorem scrub_keeps_zero {x : Cluster} {e : CluDesc} (c : Nat) (d : CluDesc) (zero : RegionZero e x.mem) :
    RegionZero e (x.scrub c d).mem := by
  intro a low high
  refine (SMap.get_clear _ _ _ _).trans ?_
  split
  · rfl
  · exact zero a low high

/-- The clusters once each listed region is scrubbed. -/
def scrubbedClusters (c : Nat) (l : List CluDesc) (m : SMap Cluster) : SMap Cluster :=
  l.foldl (fun m d => SMap.upd {} m d.cl.toNat fun x => x.scrub c d) m

theorem scrubbed_unnamed (c : Nat) {l : List CluDesc} {j : Nat} (m : SMap Cluster) (unnamed : ∀ d ∈ l, d.cl.toNat ≠ j) :
    SMap.get {} (scrubbedClusters c l m) j = SMap.get {} m j :=
  List.foldlRecOn (motive := fun m' : SMap Cluster => SMap.get {} m' j = SMap.get {} m j) _ _ rfl
    fun _ kept d mem => (SMap.get_upd_ne _ _ (unnamed d mem).symm).trans kept

theorem scrubbed_keeps_zero (c : Nat) {l : List CluDesc} {m : SMap Cluster} {e : CluDesc} {j : Nat}
    (zero : RegionZero e (SMap.get {} m j).mem) : RegionZero e (SMap.get {} (scrubbedClusters c l m) j).mem := by
  refine List.foldlRecOn (motive := fun m' : SMap Cluster => RegionZero e (SMap.get {} m' j).mem) _ _ zero fun m' kept d _ => ?_
  by_cases own : j = d.cl.toNat
  · subst own
    rw [SMap.get_upd_same]
    exact scrub_keeps_zero c d kept
  · rw [SMap.get_upd_ne _ _ own]
    exact kept

theorem scrubbed_zeroes (c : Nat) {l : List CluDesc} (m : SMap Cluster) {e : CluDesc} (mem : e ∈ l) :
    RegionZero e (SMap.get {} (scrubbedClusters c l m) e.cl.toNat).mem := by
  induction l generalizing m with
  | nil => cases mem
  | cons d l ih =>
    rcases List.mem_cons.1 mem with rfl | later
    · refine scrubbed_keeps_zero c (l := l) ?_
      rw [SMap.get_upd_same]
      exact scrub_zeroes _ _ _
    · exact ih _ later

/-- The state whose clusters and partitions are scrubbed: an OUT context holds nothing on a cluster. -/
def State.scrubbedOf (s : State) (c : CtxId) : State :=
  (if (s.ctx c.toNat).faultOut then s else s.scrubClu c.toNat).scrubTouch c

theorem scrubbedOf_only (s : State) (c : CtxId) :
    s.scrubbedOf c = { s with cls := (s.scrubbedOf c).cls, td := (s.scrubbedOf c).td } := by
  unfold State.scrubbedOf
  split <;> rfl

theorem scrubbedOf_cls (s : State) (c : CtxId) : (s.scrubbedOf c).cls
    = if (s.ctx c.toNat).faultOut then s.cls else scrubbedClusters c.toNat (s.ctx c.toNat).cltab s.cls := by
  unfold State.scrubbedOf
  split <;> rfl

/-- The context's partitions are cleared, and no other changes. -/
theorem scrubbedOf_prt (s : State) (c : CtxId) (d e : Nat) :
    (s.scrubbedOf c).prt d e = if e = c.toNat then (s.prt d e).cleared else s.prt d e := by
  have die : (s.scrubbedOf c).tdie d = { s.tdie d with
      tok := (s.tdie d).tok.filter fun e => e.ctx ≠ c
      part := SMap.mapV {} (fun k p => if k = c.toNat then p.cleared else p) (s.tdie d).part } := by
    unfold State.scrubbedOf
    split <;> exact SMap.get_mapV _ _ _ rfl
  unfold State.prt
  rw [die]
  refine SMap.get_mapV (fun k (p : Part) => if k = c.toNat then p.cleared else p) _ _ ?_
  split <;> rfl

/-- The context once its scrub has ended: FAULTED, with its fault's record on the way. -/
def Ctx.scrubEnds (x : Ctx) (r : Rec) : Ctx :=
  { x.record r with
    st := .faulted, faultRec := none, faultOut := false
    savedTok := [], savedTx := [], dispatchSeq := x.acceptSeq, completeSeq := x.acceptSeq }

theorem scrubDone_runs {s : State} {c : CtxId} {r : Rec} (scrubbing : (s.ctx c.toNat).st = .scrubbing)
    (record : (s.ctx c.toNat).faultRec = some r)
    (back : (s.ctx c.toNat).faultOut = false → ∀ d ∈ (s.ctx c.toNat).cltab, s.cluShut d.cl.toNat = false) :
    ∃ t, exec (.scrubDone c) s = .next t ∧ t = { s.scrubbedOf c with ctxs := t.ctxs } ∧ SameBut State.ctx c.toNat s t
      ∧ t.ctx c.toNat = (s.ctx c.toNat).scrubEnds { r with time := s.devTime } := by
  have open_ : ¬((s.ctx c.toNat).st ≠ .scrubbing
      ∨ (!(s.ctx c.toNat).faultOut && (s.ctx c.toNat).cltab.any fun d => s.cluShut d.cl.toNat) = true) := by
    rw [not_or, not_not, Bool.and_eq_true, Bool.not_eq_true', List.any_eq_true]
    refine ⟨scrubbing, fun ⟨out, d, mem, shut⟩ => ?_⟩
    rw [back out d mem] at shut
    cases shut
  have ctxs : (s.scrubbedOf c).ctxs = s.ctxs := by rw [scrubbedOf_only]
  have clock : (s.scrubbedOf c).devTime = s.devTime := by rw [scrubbedOf_only]; rfl
  have same (j : Nat) : (s.scrubbedOf c).ctx j = s.ctx j := by unfold State.ctx; rw [ctxs]
  show ∃ t, execScrubDone c s = .next t ∧ _
  unfold execScrubDone
  dsimp only
  rw [if_neg open_]
  refine ⟨_, rfl, rfl, fun j other => (State.modCtx_ne _ _ other).trans (same j), ?_⟩
  refine (State.modCtx_same (s.scrubbedOf c) _ _).trans ?_
  rw [same, record]
  exact congrArg (fun n => (s.ctx c.toNat).scrubEnds { r with time := n }) clock

/-- A fault of a live context raises bit 1 of the Clearinghouse. -/
theorem faultCtx_stands {s : State} {c : CtxId} (code : U16) (detail : W64) (cmd : W32) (unit : U16) (irq : Bool)
    (alive : (s.ctx c.toNat).st.alive) : Stands (faultCtx s c code detail cmd unit irq) pgClear 1 := by
  unfold faultCtx
  rw [if_pos (show _ ∨ _ ∨ _ ∨ _ from alive)]
  dsimp only
  split
  · exact alarm0_mono _ _ _ _ _ _ (alarm0_stands _ _ _ _ (by decide))
  · exact alarm0_stands _ _ _ _ (by decide)

/-- Settles O45: what a fault stops is gone from every queue, and the scrub clears what the context owned. -/
theorem faultsTearDownTheirContextAlone : Obligations.FaultsTearDownTheirContextAlone := by
  unfold Obligations.FaultsTearDownTheirContextAlone
  refine ⟨?fault, ?scrub⟩
  case fault =>
    intro c code detail cmd unit s alive
    refine ⟨_, rfl, faultCtx_faulted s c code detail cmd unit false alive, ?_⟩
    have stands := faultCtx_stands code detail cmd unit false alive
    obtain ⟨y, record, cmd_, kind, code_, unit_, detail_⟩ := faultCtx_record s c code detail cmd unit false alive
    obtain ⟨b, only⟩ := faultCtx_eq s c code detail cmd unit false alive
    generalize faultCtx s c code detail cmd unit false = t at *
    have own : t.ctx c.toNat = (s.ctx c.toNat).faulted code detail cmd unit b := by
      rw [only.ctx, State.modCtx_same, stopCtx_ctx]
    have clu (j : Nat) : t.clu j = (s.clu j).dropCtx c := by
      rw [← stopCtx_clu]
      unfold AlarmOnly at only
      rw [only]; rfl
    have prt (d e : Nat) : t.prt d e = (s.stopCtx c).prt d e := only.prt d e
    have lkc : t.lkc c.toNat = (s.stopCtx c).lkc c.toNat := by
      unfold AlarmOnly at only
      rw [only]; rfl
    have prt6 (p : Nat) : t.prt6 p = (s.stopCtx c).prt6 p := by
      unfold AlarmOnly at only
      rw [only]; rfl
    have sched : t.sched = (s.stopCtx c).sched := by
      unfold AlarmOnly at only
      rw [only]; rfl
    have upd : t.upd = s.upd.filter (·.ctx ≠ c) := by
      unfold AlarmOnly at only
      rw [only]; rfl
    refine ⟨by rw [own]; rfl, stands, by rw [own]; rfl, ⟨y, record, kind, code_, detail_, cmd_, unit_⟩, fun j => ?queues, fun j => ?teller,
      fun d q mem => ?touch, fun x mem => ?sync, fun u mem => ?upd, fun q mem => ?sched, ?coll, ?red, fun p k mem => ?sent,
      fun d e other => (prt d e).trans (stopCtx_prt_ne s d other), fun d valid => ?refusing⟩
    case queues =>
      rw [clu]
      exact ⟨fun _ => not_own_of_filter, fun _ => not_own_of_filter, fun _ => not_own_of_filter, rfl, rfl⟩
    case teller =>
      rw [clu]
      exact ⟨fun _ => not_own_of_filter, fun _ left => of_decide_eq_true (Option.mem_filter_iff.1 left).2,
        fun _ => not_own_of_filter, fun _ => not_own_of_filter⟩
    case touch =>
      rw [only.tdie] at mem
      change q ∈ ((s.stopCtx c).tdie d).tq at mem
      rw [stopCtx_tdie] at mem
      exact not_own_of_filter mem
    case sync =>
      rw [sched] at mem
      exact not_own_of_filter (own := fun x : SyncCmd => x.q.ctx) mem
    case upd =>
      rw [upd] at mem
      exact not_own_of_filter mem
    case sched =>
      rw [sched] at mem
      simp only [List.mem_append] at mem
      rcases mem with ((((mem | mem) | mem) | mem) | mem) | mem
      all_goals exact not_own_of_filter (own := QE.ctx) mem
    case coll => rw [lkc, stopCtx_lkc]
    case red => rw [lkc, stopCtx_lkc]
    case sent =>
      rw [prt6, stopCtx_prt6] at mem
      exact (Bool.not_eq_true' _).mp (List.mem_filter.1 mem).2
    case refusing =>
      rw [prt] at valid ⊢
      exact stopCtx_refusing s c d valid
  case scrub =>
    intro c r s scrubbing record back
    obtain ⟨t, runs, frame, others, own⟩ := scrubDone_runs scrubbing record back
    have cls : t.cls = (s.scrubbedOf c).cls := by rw [frame]
    have prt (d e : Nat) : t.prt d e = (s.scrubbedOf c).prt d e := by
      have td : t.td = (s.scrubbedOf c).td := by rw [frame]
      unfold State.prt State.tdie
      rw [td]
    refine ⟨t, runs, ?_, ?_, ?record, others, fun d e other => ?_, fun d => ?_, fun kept d mem => ?zero, fun j unnamed => ?unnamed, ?only⟩
    · rw [own]; rfl
    · rw [own]; rfl
    case record =>
      refine record_records s t c _ _ ?_ ?_ rfl
      all_goals rw [own]; rfl
    · rw [prt, scrubbedOf_prt, if_neg other]
    · rw [prt, scrubbedOf_prt, if_pos rfl]
      exact ⟨rfl, rfl⟩
    case zero =>
      unfold State.clu
      rw [cls, scrubbedOf_cls, kept]
      exact scrubbed_zeroes c.toNat s.cls mem
    case unnamed =>
      unfold State.clu
      rw [cls, scrubbedOf_cls]
      split
      · rfl
      · exact scrubbed_unnamed c.toNat s.cls unnamed
    case only =>
      rw [frame, scrubbedOf_only]

end Sys2Proof.Machine
end

section
/-! SUPPORT. The driver's registers of contexts: definitions, doorbells, semaphore owners and page ownership, with what the end
of an epoch leaves, and the statement on them (O39; R172, R178, R179, R182, R193, R266, R275). -/

namespace Sys2Proof.Machine

/-! ### Refused writes (R285, R287) -/

/-- An alarm of a context that is not live faults nothing. -/
theorem alarm_of_idle {s : State} (p b : Nat) {c : CtxId} (idle : ¬(s.ctx c.toNat).st.alive) :
    s.alarm p b (some c) = s.alarm0 p b (some c.toNat) := by
  have still : ¬((s.alarm0 p b (some c.toNat)).ctx c.toNat).st.alive := by rw [(alarm0_only _ _ _ _).ctx]; exact idle
  unfold State.alarm
  dsimp only [Option.map_some]
  split
  · exact faultCtx_idle _ _ _ _ _ _ _ still
  · rfl

/-- A refused write whose alarm is no context fault raises its bit, and nothing else changes. -/
theorem refused_alarm {s : State} {p b : Nat} (c : CtxId) (small : b < 16) (action : s.action p b ≠ 2) :
    Stands (s.alarm p b (some c)) p b ∧ AlarmOnly s (s.alarm p b (some c)) := by
  rw [alarm_of_action_ne c action]
  exact ⟨alarm0_stands _ _ _ _ small, alarm0_only _ _ _ _⟩

/-- A DOORBELL page's actions are fixed, and none is a context fault (R287). -/
theorem door_action (s : State) (c : CtxId) : s.action (pgDoor c.toNat) 0 ≠ 2 := by
  have door : 0x3000 ≤ pgDoor c.toNat := Nat.le_add_right _ _
  unfold State.action State.pageHdr
  dsimp only
  rw [if_pos door]
  show (if bit 0 0 then 0 else bits 1 1 0) ≠ 2
  decide

/-! ### Definition registers (R172) -/

theorem definitionWrite_defines {s : State} {off : BitVec 12} {v : W32} {y : Ctx} (writable : s.canWrite pgClear = true)
    (defines : isDefinition off.toNat = true) (idle : (s.ctx s.sel.csCtx.toNat).st = .unused ∨ (s.ctx s.sel.csCtx.toNat).st = .stopped)
    (value : (s.ctx s.sel.csCtx.toNat).define off.toNat v.toNat = some y) :
    exec (.ctxDefinitionWrite off v) s = .next (s.modCtx s.sel.csCtx.toNat fun _ => y) := by
  show execCtxDefinitionWrite off v s = _
  unfold execCtxDefinitionWrite
  rw [writable, defines]
  dsimp only
  rw [if_neg (by decide), if_pos idle, value]

theorem definitionWrite_outOfRange {s : State} {off : BitVec 12} {v : W32} (writable : s.canWrite pgClear = true)
    (defines : isDefinition off.toNat = true) (idle : (s.ctx s.sel.csCtx.toNat).st = .unused ∨ (s.ctx s.sel.csCtx.toNat).st = .stopped)
    (value : (s.ctx s.sel.csCtx.toNat).define off.toNat v.toNat = none) :
    exec (.ctxDefinitionWrite off v) s = .next (s.alarm pgClear 0 (some s.sel.csCtx)) := by
  show execCtxDefinitionWrite off v s = _
  unfold execCtxDefinitionWrite
  rw [writable, defines]
  dsimp only
  rw [if_neg (by decide), if_pos idle, value]

theorem definitionWrite_refused {s : State} {off : BitVec 12} {v : W32} (writable : s.canWrite pgClear = true)
    (defines : isDefinition off.toNat = true) (unused : (s.ctx s.sel.csCtx.toNat).st ≠ .unused)
    (stopped : (s.ctx s.sel.csCtx.toNat).st ≠ .stopped) :
    exec (.ctxDefinitionWrite off v) s = .next (s.alarm pgClear 0 (some s.sel.csCtx)) := by
  show execCtxDefinitionWrite off v s = _
  unfold execCtxDefinitionWrite
  rw [writable, defines]
  dsimp only
  rw [if_neg (by decide), if_neg (not_or.2 ⟨unused, stopped⟩)]

/-- The priority, class and JOB word (Table CS.11). -/
theorem define_class (x : Ctx) (v : W32) : x.define 0x04C v.toNat = some { x with
    priority := v.setWidth 4, legacy := bit v.toNat 4, exclusive := bit v.toNat 5, job := (v >>> 16).setWidth 16 } := by
  have job : BitVec.ofNat 16 (v.toNat / 65536) = (v >>> 16).setWidth 16 := by
    rw [← BitVec.ofNat_toNat, BitVec.toNat_ushiftRight, Nat.shiftRight_eq_div_pow]
  show some _ = _
  rw [BitVec.ofNat_toNat, job]

/-- Both ring sizes are from 6 to 16. -/
def ringsOk (v : W32) : Prop := 6 ≤ v.toNat % 32 ∧ v.toNat % 32 ≤ 16 ∧ 6 ≤ v.toNat / 256 % 32 ∧ v.toNat / 256 % 32 ≤ 16

theorem define_rings (x : Ctx) {v : W32} (ok : ringsOk v) : x.define 0x058 v.toNat = some { x with
    ringN := BitVec.ofNat 5 (v.toNat % 32), ringM := BitVec.ofNat 5 (v.toNat / 256 % 32) } := by
  have ring : bits v.toNat 4 0 = v.toNat % 32 := by rw [bits_eq_div]; simp
  have records : bits v.toNat 12 8 = v.toNat / 256 % 32 := bits_eq_div _ _ _
  show (if 6 ≤ bits v.toNat 4 0 ∧ _ then _ else _) = _
  rw [ring, records]
  exact if_pos ok

theorem define_rings_outOfRange (x : Ctx) {v : W32} (bad : ¬ringsOk v) : x.define 0x058 v.toNat = none := by
  have ring : bits v.toNat 4 0 = v.toNat % 32 := by rw [bits_eq_div]; simp
  have records : bits v.toNat 12 8 = v.toNat / 256 % 32 := bits_eq_div _ _ _
  show (if 6 ≤ bits v.toNat 4 0 ∧ _ then _ else _) = _
  rw [ring, records]
  exact if_neg bad

/-! ### Doorbells (R178, R179) -/

theorem tailWrite_runs {c : CtxId} {s : State} (v : W32) (writable : s.canWrite (pgDoor c.toNat) = true)
    (used : (s.ctx c.toNat).st ≠ .unused) : exec (.dbTailWrite c v) s
      = .next (if (v - (s.ctx c.toNat).acceptSeq).toNat ≤ 2 ^ (s.ctx c.toNat).ringN.toNat then
          s.modCtx c.toNat fun x => { x with tail := v } else s.alarm (pgDoor c.toNat) 0 (some c)) := by
  show execDbTailWrite c v s = _
  unfold execDbTailWrite Ctx.tailOk
  rw [writable, decide_eq_true used, Bool.true_and, apply_ite Host.Outcome.next]
  exact (if_neg (by decide)).trans (if_congr decide_eq_true_iff rfl rfl)

theorem headWrite_runs {c : CtxId} {s : State} (v : W32) (writable : s.canWrite (pgDoor c.toNat) = true)
    (used : (s.ctx c.toNat).st ≠ .unused) : exec (.cplHeadWrite c v) s
      = .next (if (v - (s.ctx c.toNat).cplHead).toNat ≤ ((s.ctx c.toNat).cplWritten - (s.ctx c.toNat).cplHead).toNat then
          s.modCtx c.toNat fun x => { x with cplHead := v } else s.alarm (pgDoor c.toNat) 0 (some c)) := by
  show execCplHeadWrite c v s = _
  unfold execCplHeadWrite Ctx.headOk
  rw [writable, decide_eq_true used, Bool.true_and, apply_ite Host.Outcome.next]
  exact (if_neg (by decide)).trans (if_congr decide_eq_true_iff rfl rfl)

/-! ### Semaphore owners (R182) -/

/-- The waits that an invalid semaphore ends change no semaphore; with no wait there is nothing to end. -/
theorem semLost_sems (s : State) : s.semLost.sems = s.sems :=
  List.foldlRecOn (motive := fun u : State => u.sems = s.sems) _ _ rfl fun u kept x _ =>
    (faultCtx_kept u x.q.ctx 0x000F 0 x.q.seq 0xFFFF false).2.1.trans kept

theorem semLost_idle {s : State} (idle : ∀ k ∈ s.sched.sync, k.waiting = false) : s.semLost = s := by
  unfold State.semLost
  rw [List.filter_eq_nil_iff.2 fun k mem => by simp [idle k mem]]
  rfl

theorem semOwner_runs {s : State} (v : W32) (writable : s.canWrite pgClear = true) : exec (.semOwnerWrite v) s
    = .next ((s.modSem s.sel.sem.toNat fun x => { x with owner := v.setWidth 12, valid := bit v.toNat 12 }).semLost) := by
  show execSemOwnerWrite v s = _
  unfold execSemOwnerWrite
  rw [writable, BitVec.ofNat_toNat]
  rfl

/-! ### Page ownership (R193, R266, R275) -/

theorem potWrite_refused {s : State} {v : W32} (writable : s.canWrite pgClear = true)
    (bad : ¬(s.settable s.sel.pot.toNat = true ∧ s.ownerHeld s.sel.pot.toNat v.toNat = false)) :
    exec (.potDataWrite v) s = .next (s.alarm pgClear 3 (some s.sel.csCtx)) := by
  show execPotDataWrite v s = _
  unfold execPotDataWrite
  rw [writable, if_neg (by decide)]
  refine if_pos ?_
  rw [Bool.or_eq_true, Bool.not_eq_true']
  by_cases settable : s.settable s.sel.pot.toNat = true
  · exact .inr (Bool.not_eq_false _ |>.mp fun free => bad ⟨settable, free⟩)
  · exact .inl (Bool.eq_false_of_not_eq_true settable)

/-- The entry of the selected page is set. -/
def State.entrySet (s : State) (v : W32) : State := { s with pot := SMap.set 0 s.pot s.sel.pot.toNat (BitVec.ofNat 16 (v.toNat % 2 ^ 15)) }

theorem entrySet_page (s : State) (v : W32) : (s.entrySet v).page s.sel.pot.toNat = v.toNat % 2 ^ 15 := by
  unfold State.page State.entrySet
  rw [SMap.get_set_same, BitVec.toNat_ofNat]
  exact Nat.mod_eq_of_lt (by omega)

theorem entrySet_page_ne (s : State) (v : W32) : SameBut State.page s.sel.pot.toNat s (s.entrySet v) :=
  fun _ other => congrArg BitVec.toNat (SMap.get_set_ne _ _ other)

theorem potWrite_sameOwner {s : State} {v : W32} (writable : s.canWrite pgClear = true)
    (settable : s.settable s.sel.pot.toNat = true) (free : s.ownerHeld s.sel.pot.toNat v.toNat = false)
    (same : v.toNat % 4096 = s.page s.sel.pot.toNat % 4096) : exec (.potDataWrite v) s = .next (s.entrySet v) := by
  show execPotDataWrite v s = _
  unfold execPotDataWrite
  rw [writable, if_neg (by decide)]
  dsimp only
  rw [settable, free, if_neg (by decide), if_pos same]
  rfl

theorem potWrite_newOwner {s : State} {v : W32} (writable : s.canWrite pgClear = true)
    (settable : s.settable s.sel.pot.toNat = true) (free : s.ownerHeld s.sel.pot.toNat v.toNat = false)
    (new : v.toNat % 4096 ≠ s.page s.sel.pot.toNat % 4096) :
    exec (.potDataWrite v) s = .next (((s.entrySet v).zeroPage s.sel.pot.toNat).dropStaged s.sel.pot.toNat) := by
  show execPotDataWrite v s = _
  unfold execPotDataWrite
  rw [writable, if_neg (by decide)]
  dsimp only
  rw [settable, free, if_neg (by decide), if_neg new]
  rfl

/-! ### A page for a new owner (R266, R275) -/

theorem zeroPage_protected {s : State} {p : Nat} (protected_ : s.protectedPage p = true) :
    p ∈ (s.zeroPage p).sg.scrub ∧ s.zeroPage p = { s with sg := { s.sg with scrub := (s.zeroPage p).sg.scrub } } := by
  unfold State.zeroPage
  rw [if_pos protected_]
  split
  · rename_i listed
    exact ⟨List.contains_iff_mem.1 listed, rfl⟩
  · exact ⟨List.mem_append_right _ (List.mem_singleton_self p), rfl⟩

theorem zeroPage_open {s : State} {p : Nat} (open_ : s.protectedPage p = false) :
    NotesOnly { s with hbm := (s.zeroPage p).hbm } (s.zeroPage p)
      ∧ ∀ a, (s.zeroPage p).hbm.read a = if p * 65536 ≤ a ∧ a < p * 65536 + 65536 then 0 else s.hbm.read a := by
  have clears : s.zeroPage p = s.hbmClear (p * 65536) 65536 := by
    unfold State.zeroPage
    rw [open_]
    rfl
  rw [clears]
  exact ⟨rfl, fun a => SMap.get_clear s.hbm (p * 65536) (p * 65536 + 65536) a⟩

theorem zeroPage_epochs (s : State) (p : Nat) : EpochsOf s (s.zeroPage p) := by
  unfold State.zeroPage
  split
  · split <;> exact .of_sgC rfl
  · exact noteWrite_epochs { s with hbm := SMap.clear 0 (p * 65536) (p * 65536 + 65536) s.hbm } _ _

/-! ### Epochs that a page given away ends (R275, log 96) -/

/-- Page `p` holds a page of the context's epoch. -/
def SgCtx.stagedAt (x : SgCtx) (p : Nat) : Prop :=
  ∃ y, x.epoch = some y ∧ ∃ t ∈ y.staged, x.stageBase.toNat / 65536 + t.2 = p

theorem stagedAt_iff (x : SgCtx) (p : Nat) :
    (x.epoch.any fun y => y.staged.any fun t => x.stageBase.toNat / 65536 + t.2 = p) = true ↔ x.stagedAt p := by
  rw [Option.any_eq_true]
  simp only [List.any_eq_true, decide_eq_true_eq]
  rfl

theorem dropStaged_none {s : State} {p : Nat} (none_ : ∀ e ∈ s.sgC, ¬e.2.stagedAt p) : s.dropStaged p = s := by
  unfold State.dropStaged
  rw [List.filter_eq_nil_iff.2 fun e mem held => none_ e mem ((stagedAt_iff _ _).1 held)]
  rfl

/-- Context `c` has no epoch in progress, and one is due. -/
def EpochDue (c : Nat) (s : State) : Prop := (s.sgc c).epoch = none ∧ (s.sgc c).due = true

/-- From `s` to `t` bytes of HBM and the Strongroom's records alone change. -/
def StrongOnly (s t : State) : Prop := t = { s with hbm := t.hbm, sg := t.sg, sgC := t.sgC }

theorem StrongOnly.refl (s : State) : StrongOnly s s := rfl
theorem StrongOnly.trans {s t u : State} (h : StrongOnly s t) (k : StrongOnly t u) : StrongOnly s u := by
  unfold StrongOnly at *
  rw [k, h]

theorem StrongOnly.page {s t : State} (h : StrongOnly s t) (p : Nat) : t.page p = s.page p := by
  unfold StrongOnly at h
  rw [h]
  rfl

theorem zeroPage_strong (s : State) (p : Nat) : StrongOnly s (s.zeroPage p) := by
  unfold State.zeroPage
  split
  · split <;> rfl
  · rfl

/-- Pages that open keep every context's epoch and due bit. -/
def EpochsKept (s t : State) : Prop :=
  StrongOnly s t ∧ ∀ c, (t.sgc c).epoch = (s.sgc c).epoch ∧ (t.sgc c).due = (s.sgc c).due

theorem EpochsKept.refl (s : State) : EpochsKept s s := ⟨rfl, fun _ => ⟨rfl, rfl⟩⟩
theorem EpochsKept.trans {s t u : State} (h : EpochsKept s t) (k : EpochsKept t u) : EpochsKept s u := by
  obtain ⟨only, kept⟩ := h
  obtain ⟨only', kept'⟩ := k
  exact ⟨only.trans only', fun c => ⟨(kept' c).1.trans (kept c).1, (kept' c).2.trans (kept c).2⟩⟩

theorem noteWrite_epochsKept {s u : State} (a n : Nat) (only : StrongOnly s u) (same : u.sgC = s.sgC) : EpochsKept s (u.noteWrite a n) := by
  have dirtied (x : SgCtx) : ((x.dirtied (granulesOf a n)).epoch, (x.dirtied (granulesOf a n)).due) = (x.epoch, x.due) := by
    unfold SgCtx.dirtied
    split <;> rfl
  refine ⟨only.trans rfl, fun c => ?_⟩
  have kept := SMap.get_mapV_keeps (d := ({} : SgCtx)) (fun x : SgCtx => (x.epoch, x.due)) (fun _ x => dirtied x) u.sgC c
  have old : u.sgc c = s.sgc c := by unfold State.sgc; rw [same]
  rw [show SMap.get {} u.sgC c = s.sgc c from old] at kept
  exact ⟨congrArg Prod.fst kept, congrArg Prod.snd kept⟩

theorem sg_epochsKept (s : State) (g : Strong) : EpochsKept s { s with sg := g } := ⟨rfl, fun _ => ⟨rfl, rfl⟩⟩

theorem censusAdd_epochsKept (s : State) (c a n : Nat) : EpochsKept s (s.censusAdd c a n) := by
  unfold State.censusAdd
  split
  · exact .refl s
  · split
    · exact sg_epochsKept s _
    · exact noteWrite_epochsKept _ _ rfl rfl

theorem toScrub_epochsKept (s : State) (l : List Nat) : EpochsKept s (s.toScrub l) := by
  have scrubs (u : State) : EpochsKept u u.scrubPages :=
    (sg_epochsKept u _).trans (foldl_rel .refl .trans (fun v g _ =>
      show EpochsKept v (v.hbmClear (65536 * g) 65536) from noteWrite_epochsKept _ _ rfl rfl) _)
  have adds (u : State) : EpochsKept u u.makeAdds :=
    (sg_epochsKept u _).trans (foldl_rel .refl .trans (fun u r _ => censusAdd_epochsKept u r.1 r.2.1 r.2.2) _)
  exact (sg_epochsKept s _).trans ((scrubs _).trans (adds _))

/-- An epoch in progress is abandoned, and due again. -/
def State.epochDropped (s : State) (k : Nat) : State := (s.abandonEpoch k).modSgc k fun x => { x with due := true }

theorem abandonEpoch_own (s : State) (k : Nat) : ((s.abandonEpoch k).sgc k).epoch = none := by
  unfold State.abandonEpoch
  split
  · rw [State.endEpoch, ((toScrub_epochsKept _ _).2 k).1, State.modSgc_same]
  · rename_i idle
    exact Option.not_isSome_iff_eq_none.1 idle

theorem abandonEpoch_ne (s : State) {k c : Nat} (other : c ≠ k) :
    ((s.abandonEpoch k).sgc c).epoch = (s.sgc c).epoch ∧ ((s.abandonEpoch k).sgc c).due = (s.sgc c).due := by
  unfold State.abandonEpoch
  split
  · have kept := (toScrub_epochsKept (s.modSgc k fun x => { x with epoch := none }) (s.stagePages k)).2 c
    rw [State.modSgc_ne _ _ other] at kept
    exact kept
  · exact ⟨rfl, rfl⟩

theorem abandonEpoch_strong (s : State) (k : Nat) : StrongOnly s (s.abandonEpoch k) := by
  unfold State.abandonEpoch
  split
  · exact StrongOnly.trans (t := s.modSgc k fun x => { x with epoch := none }) rfl (toScrub_epochsKept _ _).1
  · exact .refl s

theorem epochDropped_strong (s : State) (k : Nat) : StrongOnly s (s.epochDropped k) := (abandonEpoch_strong s k).trans rfl

theorem epochDropped_due (s : State) (k : Nat) : EpochDue k (s.epochDropped k) := by
  unfold EpochDue State.epochDropped
  rw [State.modSgc_same]
  exact ⟨abandonEpoch_own s k, rfl⟩

theorem epochDropped_keeps_due {s : State} {c : Nat} (k : Nat) (due : EpochDue c s) : EpochDue c (s.epochDropped k) := by
  by_cases own : c = k
  · rw [own]
    exact epochDropped_due s k
  · unfold EpochDue State.epochDropped
    rw [State.modSgc_ne _ _ own, (abandonEpoch_ne s own).1, (abandonEpoch_ne s own).2]
    exact due

theorem dropStaged_strong (s : State) (p : Nat) : StrongOnly s (s.dropStaged p) :=
  foldl_rel .refl .trans (fun u e _ => epochDropped_strong u e.1) s

/-- A value that is not the default is listed. -/
theorem SMap.mem_of_get_ne {α : Type} {d : α} {m : SMap α} {k : Nat} (set_ : SMap.get d m k ≠ d) : (k, SMap.get d m k) ∈ m := by
  induction m with
  | nil => exact absurd rfl set_
  | cons e m ih =>
    obtain ⟨j, v⟩ := e
    unfold SMap.get at set_ ⊢
    by_cases before : k < j
    · rw [if_pos before] at set_
      exact absurd rfl set_
    · rw [if_neg before] at set_ ⊢
      by_cases here : k = j
      · rw [if_pos here, here]
        exact List.mem_cons_self ..
      · rw [if_neg here] at set_ ⊢
        exact List.mem_cons_of_mem _ (ih set_)

theorem dropStaged_due {s : State} {c p : Nat} (staged : (s.sgc c).stagedAt p) : EpochDue c (s.dropStaged p) := by
  have listed : (c, s.sgc c) ∈ s.sgC := SMap.mem_of_get_ne fun unset => by
    obtain ⟨y, epoch, -⟩ := staged
    rw [State.sgc, unset] at epoch
    cases epoch
  obtain ⟨before, after, split_⟩ := List.append_of_mem (show (c, s.sgc c) ∈ s.sgC.filter fun e =>
    e.2.epoch.any fun x => x.staged.any fun t => e.2.stageBase.toNat / 65536 + t.2 = p from
      List.mem_filter.2 ⟨listed, (stagedAt_iff _ _).2 staged⟩)
  unfold State.dropStaged
  rw [split_, List.foldl_append, List.foldl_cons]
  exact List.foldlRecOn (motive := EpochDue c) _ _ (epochDropped_due _ c) fun u due e _ => epochDropped_keeps_due e.1 due

/-- A page that is zeroed leaves every epoch staged where it is. -/
theorem zeroPage_staged {s : State} {c p : Nat} (g : Nat) (staged : (s.sgc c).stagedAt p) : ((s.zeroPage g).sgc c).stagedAt p := by
  unfold State.zeroPage
  split
  · split <;> exact staged
  · have kept := SMap.get_mapV_keeps (d := ({} : SgCtx)) (fun x : SgCtx => (x.epoch, x.stageBase))
      (fun _ x => dirtied_keeps x (granulesOf (g * 65536) 65536)) s.sgC c
    obtain ⟨y, epoch, t, mem, place⟩ := staged
    exact ⟨y, (congrArg Prod.fst kept).trans epoch, t, mem, by
      rw [show ((s.hbmClear (g * 65536) 65536).sgc c).stageBase = (s.sgc c).stageBase from congrArg Prod.snd kept]; exact place⟩

/-- Settles O39: definitions, doorbells, owners and pages take the values that are allowed. -/
theorem definitionsDoorbellsAndOwnership : Obligations.DefinitionsDoorbellsAndOwnership := by
  unfold Obligations.DefinitionsDoorbellsAndOwnership
  refine ⟨?define, ?refuse, ?doors, ?owner, ?page, ?epoch⟩
  case define =>
    intro v s writable idle
    have class_ := define_class (s.ctx s.sel.csCtx.toNat) v
    refine ⟨⟨_, definitionWrite_defines writable rfl idle class_, State.modCtx_same _ _ _, fun _ other => State.modCtx_ne _ _ other, rfl⟩, ?_⟩
    by_cases ok : ringsOk v
    · refine ⟨_, definitionWrite_defines writable rfl idle (define_rings _ ok), ?_⟩
      simp only [if_pos (show _ ∧ _ from ok), State.modCtx_same]
      have small (n : Nat) : (BitVec.ofNat 5 (n % 32)).toNat = n % 32 := (BitVec.toNat_ofNat _ _).trans (Nat.mod_mod _ _)
      exact ⟨small _, small _, fun _ other => State.modCtx_ne _ _ other, rfl⟩
    · refine ⟨_, definitionWrite_outOfRange writable rfl idle (define_rings_outOfRange _ ok), ?_⟩
      simp only [if_neg (show ¬(_ ∧ _) from ok)]
      rw [alarm_of_idle _ _ (by unfold CtxSt.alive; rcases idle with h | h <;> simp [h])]
      exact alarm0_stands _ _ _ _ (by decide)
  case refuse =>
    intro off v s writable low high aligned unused stopped action
    have defines : isDefinition off.toNat = true := by simp [isDefinition, low, high, aligned]
    exact ⟨_, definitionWrite_refused writable defines unused stopped, refused_alarm _ (by decide) action⟩
  case doors =>
    intro c v s writable used
    refine ⟨⟨_, tailWrite_runs v writable used, ?_⟩, ⟨_, headWrite_runs v writable used, ?_⟩⟩
    all_goals
      split
      · exact ⟨State.modCtx_same _ _ _, fun _ other => State.modCtx_ne _ _ other, rfl⟩
      · exact refused_alarm c (by decide) (door_action s c)
  case owner =>
    intro v s writable
    have sem (w : State) (j : Nat) : w.semLost.sem j = w.sem j := by unfold State.sem; rw [semLost_sems]
    refine ⟨_, semOwner_runs v writable, ?_, fun j other => ?_, fun idle => ?_⟩
    · rw [sem, State.modSem_same]
    · rw [sem, State.modSem_ne _ _ other]
    · rw [semLost_idle (s := s.modSem s.sel.sem.toNat _) idle]
      rfl
  case page =>
    intro v s writable action
    dsimp only
    by_cases ok : s.settable s.sel.pot.toNat = true ∧ s.ownerHeld s.sel.pot.toNat v.toNat = false
    · simp only [if_pos ok]
      obtain ⟨settable, free⟩ := ok
      by_cases same : v.toNat % 4096 = s.page s.sel.pot.toNat % 4096
      · simp only [if_pos same]
        exact ⟨_, potWrite_sameOwner writable settable free same, entrySet_page s v, entrySet_page_ne s v, rfl⟩
      · simp only [if_neg same]
        have strong := (zeroPage_strong (s.entrySet v) s.sel.pot.toNat).trans (dropStaged_strong _ s.sel.pot.toNat)
        refine ⟨_, potWrite_newOwner writable settable free same, (strong.page _).trans (entrySet_page s v),
          fun j other => (strong.page j).trans (entrySet_page_ne s v j other), fun unstaged => ?_⟩
        rw [dropStaged_none fun e mem held => ?unheld]
        case unheld =>
          obtain ⟨q, listed, -, epoch, base⟩ := zeroPage_epochs (s.entrySet v) s.sel.pot.toNat e mem
          obtain ⟨x, running, y, staged, place⟩ := held
          exact unstaged q listed x (epoch.symm.trans running) y staged (by rw [← base]; exact place)
        split
        · rename_i protected_
          obtain ⟨waits, only⟩ := zeroPage_protected (s := s.entrySet v) protected_
          refine ⟨waits, ?_⟩
          generalize (s.entrySet v).zeroPage s.sel.pot.toNat = t at *
          have pot : t.pot = (s.entrySet v).pot := by rw [only]
          rw [pot]
          exact only
        · rename_i open_
          obtain ⟨only, bytes⟩ := zeroPage_open (s := s.entrySet v) (Bool.eq_false_of_not_eq_true open_)
          generalize (s.entrySet v).zeroPage s.sel.pot.toNat = t at *
          have pot : t.pot = (s.entrySet v).pot := by unfold NotesOnly at only; rw [only]
          rw [pot]
          exact ⟨only, bytes⟩
    · simp only [if_neg ok]
      exact ⟨_, potWrite_refused writable ok, refused_alarm _ (by decide) action⟩
  case epoch =>
    intro v c x s writable
    dsimp only
    intro settable free new epoch staged
    have strong := (zeroPage_strong (s.entrySet v) s.sel.pot.toNat).trans (dropStaged_strong _ s.sel.pot.toNat)
    have held : (((s.entrySet v).zeroPage s.sel.pot.toNat).sgc c.toNat).stagedAt s.sel.pot.toNat :=
      zeroPage_staged (s := s.entrySet v) _ ⟨x, epoch, staged⟩
    refine ⟨_, potWrite_newOwner writable settable free new, (strong.page _).trans (entrySet_page s v),
      fun j other => (strong.page j).trans (entrySet_page_ne s v j other), (dropStaged_due held).1, (dropStaged_due held).2, ?_, ?_⟩
    all_goals
      unfold StrongOnly at strong
      rw [strong]
      rfl

end Sys2Proof.Machine
end

section
/-! SUPPORT. Remote writes: what an answer leaves of the ports, which packets wait, are discarded or are refused, where a WRITE and a
MIRROR store, and the statement on them (O31; R175, R182, R224, R229, R230, R231, R263). -/

namespace Sys2Proof.Machine

/-! ### What an answer leaves of the ports (R224, R225) -/

/-- From `s` to `t` packets may be queued for sending, and nothing else of a port changes. -/
def QueuesOnly (s t : State) : Prop := ∀ j, t.prt6 j = { s.prt6 j with txq := (t.prt6 j).txq, used := (t.prt6 j).used }

theorem QueuesOnly.of_port {s t : State} (h : t.port = s.port) : QueuesOnly s t := fun j => by unfold State.prt6; rw [h]

theorem queue_queuesOnly (s : State) (q : Nat) (k : Packet) : QueuesOnly s (s.modPort q fun x => x.queue k) := by
  intro j
  by_cases own : j = q
  · rw [own, State.modPort_same]
    rfl
  · rw [State.modPort_ne _ _ own]

theorem reply_queuesOnly (s : State) (k : Packet) : QueuesOnly s (s.reply k) := by
  unfold State.reply State.enqueue
  dsimp only
  split
  · exact .of_port rfl
  · split
    · exact .of_port rfl
    · exact queue_queuesOnly s _ _

/-- A packet's credits stay owed whatever is queued after it. -/
theorem Owes.queued {s u t : State} {p : PortId} {k : Packet} (h : Owes s u p k) (q : QueuesOnly u t) : Owes s t p k := by
  unfold Owes at *
  rw [q p.val]
  exact h

/-- The REFUSAL of packet `k` that goes back to its sender. -/
def State.refusalOf (s : State) (k : Packet) (code : U16) (dl : Bool) : Packet :=
  { s.answer 4 7 k (pktHead k) (code.setWidth 64) with dst := s.remapped k.src, dateline := dl, lsn := 0 }

/-- A REFUSAL with a route joins the queue of the route's port (R228, R230). -/
theorem refuse_routed {s : State} {k : Packet} {q : Nat} {dt : Bool} (code : U16) (away : s.remapped k.src ≠ s.devId)
    (route : s.route (s.remapped k.src) = some (q, dt)) :
    s.refuse k code = s.modPort q fun x => x.queue (s.refusalOf k code (dt || s.wraps q)) := by
  unfold State.refuse State.reply State.enqueue State.answer State.mkPkt
  dsimp only
  rw [if_neg away, route]
  simp [State.refusalOf, State.answer, State.mkPkt]

theorem refuse_queues {s : State} {k : Packet} {q : Nat} {dt : Bool} (code : U16) (away : s.remapped k.src ≠ s.devId)
    (route : s.route (s.remapped k.src) = some (q, dt)) :
    ∃ r : Packet, ((s.refuse k code).prt6 q).txq = (s.prt6 q).txq ++ [r] ∧ r.ty = 4 ∧ r.dst = s.remapped k.src ∧ r.dstCtx = k.srcCtx
      ∧ r.srcCtx = k.dstCtx ∧ r.target = pktHead k ∧ r.aux = code.setWidth 64 := by
  refine ⟨s.refusalOf k code (dt || s.wraps q), ?_, rfl, rfl, rfl, rfl, rfl, rfl⟩
  rw [refuse_routed code away route, State.modPort_same]
  rfl

/-! ### Packets that wait (R226, logs 53, 55, 58) -/

/-- Packet `k` waits at port `p`, and nothing but that port has changed. -/
def WaitsAt (s t : State) (p : PortId) (k : Packet) : Prop :=
  k ∈ (t.prt6 p.val).rxq ∧ SameBut State.prt6 p.val s t ∧ t = { s with port := t.port }

theorem park_waits {s : State} {p : PortId} {k : Packet} (takes : LinkTakes s p k) : WaitsAt s (s.park p.val k) p k := by
  obtain ⟨-, notLoop, -, -⟩ := takes
  unfold State.park
  rw [decide_eq_false notLoop, Bool.false_or]
  split
  · rename_i listed
    exact ⟨List.contains_iff_mem.1 listed, fun _ _ => rfl, rfl⟩
  · refine ⟨?_, fun _ other => State.modPort_ne _ _ other, rfl⟩
    rw [State.modPort_same]
    exact List.mem_append_right _ (List.mem_singleton_self k)

/-! ### Packets on their way in (R229, R230) -/

theorem arrive_served {s : State} {p : PortId} {k : Packet} (takes : LinkTakes s p k) : s.arrive p.val k = (s.given p k).served p.val k := by
  unfold State.arrive
  rw [if_neg takes.2.1, linkIn_takes takes]

theorem given_links (s : State) (p : PortId) (k : Packet) : (s.given p k).links = s.links := by rw [given_frame]
theorem given_devId (s : State) (p : PortId) (k : Packet) : (s.given p k).devId = s.devId := by rw [given_frame]; rfl
theorem given_remapped (s : State) (p : PortId) (k : Packet) (d : DevId) : (s.given p k).remapped d = s.remapped d := by rw [given_frame]; rfl
theorem given_admits (s : State) (p : PortId) (k : Packet) : ((s.given p k).prt6 p.val).admits k = (s.prt6 p.val).admits k := by
  rw [given_port]
  split <;> rfl
theorem given_filterDrop (s : State) (p : PortId) (k : Packet) : ((s.given p k).prt6 p.val).filterDrop = (s.prt6 p.val).filterDrop := by
  rw [given_port]
  split <;> rfl
theorem given_ne (s : State) (p : PortId) (k : Packet) : SameBut State.prt6 p.val s (s.given p k) := by
  intro j other
  unfold State.given
  split <;> exact State.modPort_ne _ _ other

/-- What a type's row answers where the packet is dealt with before its own rule. -/
theorem packetRow_done {s u : State} {p : PortId} {k : Packet} {i : Instr} (row : packetRow p k = some i)
    (done : s.arrive p.val k = .done u) : exec i s = .next u := by
  have dealt (ty : Nat) (type : k.ty.toNat = ty) (f : State → Option Out) : s.receive p.val k ty f = .next u := by
    unfold State.receive
    rw [if_neg (not_not.2 type), done]
  unfold packetRow at row
  split at row
  next type => cases row; exact dealt 1 type _
  next type => cases row; exact dealt 2 type _
  next type => cases row; exact dealt 3 type _
  next type => cases row; exact dealt 4 type _
  next type => cases row; exact dealt 5 type _
  next type => cases row; exact dealt 6 type _
  next type =>
    cases row
    have bundle : k.ty = 7 := BitVec.eq_of_toNat_eq type
    show (if k.ty ≠ 7 then _ else _) = _
    rw [if_neg (not_not.2 bundle)]
    unfold State.linkBundle
    rw [done]
    rfl
  next type => cases row; exact dealt 8 type _
  next type => cases row; exact dealt 9 type _
  next type => cases row; exact dealt 10 type _
  next type => cases row; exact dealt 11 type _
  next => cases row

theorem packetRow_not_heartbeat {p : PortId} {k : Packet} {i : Instr} (row : packetRow p k = some i) : k.ty ≠ 15 := by
  intro heartbeat
  unfold packetRow at row
  rw [heartbeat] at row
  cases row

/-- The port has counted packet `k` as one that no filter entry admits (R230). -/
def State.unlisted (s : State) (p : PortId) (k : Packet) : State :=
  (s.given p k).modPort p.val fun x => { x with filterDrop := satInc x.filterDrop }

/-- It has raised its alarm too. -/
def State.filtered (s : State) (p : PortId) (k : Packet) : State := (s.unlisted p k).alarm (pgPort p.val) 3

theorem filtered_discards {s : State} {p : PortId} {k : Packet} {i : Instr} (row : packetRow p k = some i) (takes : LinkTakes s p k)
    (here : k.dst = s.devId) (unlisted : (s.prt6 p.val).admits k = false) :
    exec i s = .next (if refusedType k.ty.toNat then (s.filtered p k).refuse k (if k.ty = 2 then 0x0202 else 0x0402) else s.filtered p k) := by
  refine packetRow_done row ?_
  rw [arrive_served takes]
  unfold State.served
  rw [if_neg (packetRow_not_heartbeat row), if_neg (not_not.2 (here.trans (given_devId s p k).symm)), given_admits, unlisted]
  rfl

theorem AlarmOnly.prt6 {s t : State} (h : AlarmOnly s t) (j : Nat) : t.prt6 j = s.prt6 j := by
  unfold AlarmOnly at h
  rw [h]
  rfl
theorem AlarmOnly.links {s t : State} (h : AlarmOnly s t) : t.links = s.links := by unfold AlarmOnly at h; rw [h]

/-- An alarm after a change of the ports. -/
theorem AlarmOnly.of_ports {s u t : State} (h : AlarmOnly u t) (ports : u = { s with port := u.port }) : AlarmOnly { s with port := t.port } t := by
  have port : t.port = u.port := by unfold AlarmOnly at h; rw [h]
  rw [port, ← ports]
  exact h

/-- A route looks at no more of the boot state than the torus, which no alarm changes (R228). -/
theorem AlarmOnly.route {s t : State} (h : AlarmOnly s t) (d : DevId) : t.route d = s.route d := by
  unfold AlarmOnly at h
  rw [h]
  rfl

theorem filtered_alarm (s : State) (p : PortId) (k : Packet) : AlarmOnly (s.unlisted p k) (s.filtered p k) := alarm_only _ _ _

theorem filtered_port (s : State) (p : PortId) (k : Packet) :
    (s.filtered p k).prt6 p.val = { (s.given p k).prt6 p.val with filterDrop := satInc (s.prt6 p.val).filterDrop } := by
  rw [(filtered_alarm s p k).prt6, ← given_filterDrop s p k]
  exact State.modPort_same _ _ _

theorem filtered_ne (s : State) (p : PortId) (k : Packet) : SameBut State.prt6 p.val s (s.filtered p k) := fun j other =>
  ((filtered_alarm s p k).prt6 j).trans ((State.modPort_ne _ _ other).trans (given_ne s p k j other))

theorem filtered_st (s : State) (p : PortId) (k : Packet) (j : Nat) :
    ((s.filtered p k).prt6 j).st = (s.prt6 j).st ∧ ((s.filtered p k).prt6 j).txq = (s.prt6 j).txq := by
  by_cases own : j = p.val
  · rw [own, filtered_port]
    exact given_prt6 s p k p.val
  · rw [filtered_ne s p k j own]
    exact ⟨rfl, rfl⟩

theorem filtered_route (s : State) (p : PortId) (k : Packet) (d : DevId) : (s.filtered p k).route d = s.route d := by
  rw [(filtered_alarm s p k).route]
  refine route_congr ?_ (fun j => ?_) d none
  · unfold State.unlisted
    rw [given_frame]
    rfl
  · rw [← (filtered_alarm s p k).prt6]
    exact (filtered_st s p k j).1

theorem filtered_remapped (s : State) (p : PortId) (k : Packet) (d : DevId) : (s.filtered p k).remapped d = s.remapped d := by
  unfold State.remapped
  rw [(filtered_alarm s p k).links, show (s.unlisted p k).links = s.links from given_links s p k]

theorem filtered_only (s : State) (p : PortId) (k : Packet) : AlarmOnly { s with port := (s.filtered p k).port } (s.filtered p k) :=
  (filtered_alarm s p k).of_ports (by unfold State.unlisted; rw [given_frame]; rfl)

theorem filtered_devId (s : State) (p : PortId) (k : Packet) : (s.filtered p k).devId = s.devId := by
  rw [filtered_only]
  rfl

theorem filtered_owes (s : State) (p : PortId) (k : Packet) : Owes s (s.filtered p k) p k := by
  unfold Owes
  rw [filtered_port]
  exact given_owes s p k

/-- A packet for a context that takes none is discarded and counted (R229). -/
theorem deaf_discards {s : State} {p : PortId} {k : Packet} {i : Instr} (row : packetRow p k = some i) (takes : LinkTakes s p k)
    (here : k.dst = s.devId) (admits : (s.prt6 p.val).admits k = true) (deposit : k.ty ≠ 2) (request : k.ty ≠ 11)
    (deaf : (s.ctx k.dstCtx.toNat).st.deaf = true) :
    exec i s = .next { s.given p k with links := { s.links with dropFaulted := satInc s.links.dropFaulted } } := by
  refine packetRow_done row ?_
  rw [arrive_served takes]
  unfold State.served State.takePkt
  rw [if_neg (packetRow_not_heartbeat row), if_neg (not_not.2 (here.trans (given_devId s p k).symm)), given_admits, admits,
    given_ctx, deaf, given_links]
  rw [if_neg (by decide)]
  exact if_pos ⟨deposit, request, rfl⟩

/-- A request for credit is taken for any context, and refused where it takes none (R98, R229). -/
theorem creditRequest_refused {s : State} {p : PortId} {k : Packet} (type : k.ty = 11) (takes : LinkTakes s p k)
    (here : k.dst = s.devId) (admits : (s.prt6 p.val).admits k = true) (deaf : (s.ctx k.dstCtx.toNat).st.deaf = true) :
    exec (.creditRequest p k) s = .next ((s.given p k).refuse k 0x0202) := by
  have taken : s.arrive p.val k = .take (s.given p k) := by
    rw [arrive_served takes]
    unfold State.served State.takePkt
    rw [if_neg (by rw [type]; decide), if_neg (not_not.2 (here.trans (given_devId s p k).symm)), given_admits, admits]
    simp [type]
  show s.receive p.val k 11 _ = _
  unfold State.receive
  rw [if_neg (by rw [type]; decide), taken]
  refine congrArg Host.Outcome.next (if_pos ?_)
  rw [given_ctx, deaf]
  simp

/-- A packet of a reserved type is discarded, and the port's alarm raised (Table LK.3). -/
theorem reserved_discards {s : State} {p : PortId} {k : Packet} (takes : LinkTakes s p k) (reserved : k.ty.toNat ∈ [0, 12, 13, 14]) :
    exec (.reservedPacketDiscard p k) s = .next ((s.given p k).alarm (pgPort p.val) 3) := by
  show execReservedPacketDiscard p k s = _
  unfold execReservedPacketDiscard
  rw [if_pos (List.contains_iff_mem.2 reserved), linkIn_takes takes]

/-! ### WRITE (R231) -/

theorem pktLoc_cluster {k : Packet} (space : k.target.toNat % 4 = 1) :
    pktLoc k = some (.clu (BitVec.ofNat 11 (bits k.target.toNat 12 2)) (k.target.toNat / 8192)) := if_pos space
theorem pktLoc_hbm {k : Packet} (space : k.target.toNat % 4 = 2) : pktLoc k = some (.hbm (k.target.toNat / 8192)) := by
  unfold pktLoc
  dsimp only
  rw [if_neg (by omega), if_pos space]

theorem cluster_field (k : Packet) : (BitVec.ofNat 11 (bits k.target.toNat 12 2)).toNat = bits k.target.toNat 12 2 :=
  (BitVec.toNat_ofNat _ _).trans (Nat.mod_eq_of_lt (bits_lt _ _ _))

theorem given_writeWaits (s : State) (p : PortId) (k : Packet) (c : CtxId) (l : Loc) (n : Nat) :
    (s.given p k).writeWaits c l n = s.writeWaits c l n := by rw [given_frame]; rfl
theorem given_hbmCheck (s : State) (p : PortId) (k : Packet) (c a n : Nat) (wr own : Bool) :
    (s.given p k).hbmCheck c a n wr own = s.hbmCheck c a n wr own := givenAll_hbmCheck (s := s) (p := p) (k := k) (more := none) c a n wr own
theorem given_locCheck (s : State) (p : PortId) (k : Packet) (c : CtxId) (l : Loc) (n : Nat) (wr : Bool) :
    (s.given p k).locCheck c l n wr = s.locCheck c l n wr := by
  cases l with
  | clu cl o => rw [given_frame]; rfl
  | hbm a => exact given_hbmCheck s p k c.toNat a n wr false
  | host a => rfl

/-- The payload is stored, and the semaphore signalled where the packet asks for it. -/
def State.written (s : State) (k : Packet) (l : Loc) : State :=
  if bit k.aux.toNat 14 then (s.locWrite l k.payload).signalSem (k.aux.toNat % 2 ^ 14) 1 else s.locWrite l k.payload

section
variable {s : State} {p : PortId} {k : Packet} {l : Loc} (arr : Arrives s p k 1) (loc : pktLoc k = some l)
include arr loc

theorem linkWrite_waits (waits : s.writeWaits k.dstCtx l k.payload.length = true) : exec (.linkWrite p k) s = .next (s.park p.val k) := by
  show s.receive p.val k 1 _ = _
  rw [receive_arrives arr (by decide)]
  simp only [loc, given_writeWaits, waits, if_true, Option.getD_none]

theorem linkWrite_refused {f : U16} (open_ : s.writeWaits k.dstCtx l k.payload.length = false)
    (bad : s.locCheck k.dstCtx l k.payload.length true = some f) :
    exec (.linkWrite p k) s = .next ((s.given p k).refuse k (if f = 0x0006 then 0x0006 else 0x0003)) := by
  show s.receive p.val k 1 _ = _
  rw [receive_arrives arr (by decide)]
  simp only [loc, given_writeWaits, open_, given_locCheck, bad, Bool.false_eq_true, if_false, Option.getD_some]

theorem linkWrite_stores (open_ : s.writeWaits k.dstCtx l k.payload.length = false)
    (sound : s.locCheck k.dstCtx l k.payload.length true = none)
    (owned : bit k.aux.toNat 14 = true → s.semOf (k.aux.toNat % 2 ^ 14) k.dstCtx = true) :
    exec (.linkWrite p k) s = .next (((s.given p k).written k l).ack k) := by
  have sem : (s.given p k).semOf (k.aux.toNat % 2 ^ 14) k.dstCtx = s.semOf (k.aux.toNat % 2 ^ 14) k.dstCtx := by rw [given_frame]; rfl
  have may : (bit k.aux.toNat 14 && !s.semOf (k.aux.toNat % 2 ^ 14) k.dstCtx) = false := by
    cases signals : bit k.aux.toNat 14
    · rfl
    · rw [owned signals]; rfl
  show s.receive p.val k 1 _ = _
  rw [receive_arrives arr (by decide)]
  simp only [loc, given_writeWaits, open_, given_locCheck, sound, sem, may, Bool.false_eq_true, if_false, Option.getD_some]
  rfl

end

/-! ### MIRROR (R263) -/

section
variable {s : State} {p : PortId} {k : Packet} (arr : Arrives s p k 9) (space : k.target.toNat % 4 = 2)
include arr space

theorem mirror_outside (outside : s.inReserve (k.target.toNat / 8192) k.payload.length = false) :
    exec (.mirror p k) s = .next ((s.given p k).refuse k 0x0003) := by
  have same (a n : Nat) : (s.given p k).inReserve a n = s.inReserve a n := by rw [given_frame]; rfl
  show s.receive p.val k 9 _ = _
  rw [receive_arrives arr (by decide)]
  simp only [pktLoc_hbm space, same, outside, Bool.not_false, if_true, Option.getD_some]

theorem mirror_waits (inside : s.inReserve (k.target.toNat / 8192) k.payload.length = true)
    (guarded : s.guarded (k.target.toNat / 8192) k.payload.length = true) : exec (.mirror p k) s = .next (s.park p.val k) := by
  have same (a n : Nat) : (s.given p k).inReserve a n = s.inReserve a n := by rw [given_frame]; rfl
  have guard (a n : Nat) : (s.given p k).guarded a n = s.guarded a n := by rw [given_frame]; rfl
  show s.receive p.val k 9 _ = _
  rw [receive_arrives arr (by decide)]
  simp only [pktLoc_hbm space, same, inside, guard, guarded, Bool.not_true, Bool.false_eq_true, if_false, if_true, Option.getD_none]

theorem mirror_stores (inside : s.inReserve (k.target.toNat / 8192) k.payload.length = true)
    (open_ : s.guarded (k.target.toNat / 8192) k.payload.length = false) :
    exec (.mirror p k) s = .next (((s.given p k).hbmWrite (k.target.toNat / 8192) k.payload).ack k) := by
  have same (a n : Nat) : (s.given p k).inReserve a n = s.inReserve a n := by rw [given_frame]; rfl
  have guard (a n : Nat) : (s.given p k).guarded a n = s.guarded a n := by rw [given_frame]; rfl
  show s.receive p.val k 9 _ = _
  rw [receive_arrives arr (by decide)]
  simp only [pktLoc_hbm space, same, inside, guard, open_, Bool.not_true, Bool.false_eq_true, if_false, Option.getD_some]

end

/-! ### What a stored packet changes -/

theorem refuse_only (s : State) (k : Packet) (code : U16) :
    s.refuse k code = { s with port := (s.refuse k code).port, links := (s.refuse k code).links } := reply_only s _
theorem ack_only (s : State) (k : Packet) : s.ack k = { s with port := (s.ack k).port, links := (s.ack k).links } := reply_only s _

/-- Two changes of ports. -/
theorem ports_frame {s u t : State} (ports : u = { s with port := u.port }) (sent : t = { u with port := t.port }) :
    t = { s with port := t.port } := by
  refine sent.trans ?_
  conv_lhs => rw [ports]

/-- A change of ports, and then one of ports and the device's own loop. -/
theorem sent_frame {s u t : State} (ports : u = { s with port := u.port }) (sent : t = { u with port := t.port, links := t.links }) :
    t = { s with port := t.port, links := t.links } := by
  refine sent.trans ?_
  conv_lhs => rw [ports]

/-- An alarm after a change of ports, and then an answer. -/
theorem AlarmOnly.then_sent {s u t : State} (alarm : AlarmOnly { s with port := u.port } u)
    (sent : t = { u with port := t.port, links := t.links }) : AlarmOnly { s with port := t.port, links := t.links } t := by
  unfold AlarmOnly at *
  rw [sent]
  conv_lhs => rw [alarm]

/-- Bytes of HBM and semaphores written after a change of ports, and then an answer. -/
theorem NotesOnly.then_sent {s u w t : State} (ports : u = { s with port := u.port })
    (wrote : NotesOnly { u with hbm := w.hbm, sems := w.sems } w) (sent : t = { w with port := t.port, links := t.links }) :
    NotesOnly { s with hbm := t.hbm, sems := t.sems, port := t.port, links := t.links } t := by
  unfold NotesOnly at *
  rw [sent]
  conv_lhs => rw [wrote, ports]

/-- A packet refused leaves ports and the device's own loop changed, and its credits owed. -/
theorem refused_leaves (s : State) (p : PortId) (k : Packet) (code : U16) :
    Owes s ((s.given p k).refuse k code) p k ∧ (s.given p k).refuse k code
      = { s with port := ((s.given p k).refuse k code).port, links := ((s.given p k).refuse k code).links } := by
  refine ⟨(given_owes s p k).queued (reply_queuesOnly _ _), ?_⟩
  have only := refuse_only (s.given p k) k code
  generalize (s.given p k).refuse k code = t at *
  exact sent_frame (given_frame s p k) only

/-- A packet stored and acknowledged. -/
theorem stored_owes {s w : State} {p : PortId} {k : Packet} (wrote : w.port = (s.given p k).port) : Owes s (w.ack k) p k :=
  ((given_owes s p k).queued (.of_port wrote)).queued (reply_queuesOnly _ _)

theorem hbmWrite_notes (s : State) (a : Nat) (bs : List Byte) :
    NotesOnly { s with hbm := (s.hbmWrite a bs).hbm, sems := (s.hbmWrite a bs).sems } (s.hbmWrite a bs) := rfl

theorem written_hbm_only (s : State) (k : Packet) (a : Nat) :
    NotesOnly { s with hbm := (s.written k (.hbm a)).hbm, sems := (s.written k (.hbm a)).sems } (s.written k (.hbm a)) := by
  unfold State.written
  split <;> rfl

theorem written_hbm (s : State) (k : Packet) (a : Nat) : (s.written k (.hbm a)).hbm = s.hbm.writeBytes a k.payload := by
  unfold State.written
  split <;> rfl

/-- What a packet that no filter entry admits leaves: the port's count and alarm, and the credits owed. -/
theorem filtered_counts (s : State) (p : PortId) (k : Packet) :
    let t := s.filtered p k
    Owes s t p k ∧ (t.prt6 p.val).filterDrop = satInc (s.prt6 p.val).filterDrop ∧ Stands t (pgPort p.val) 3
      ∧ AlarmOnly { s with port := t.port, links := t.links } t ∧ t.links = s.links ∧ SameBut State.prt6 p.val s t := by
  have drop : ((s.filtered p k).prt6 p.val).filterDrop = satInc (s.prt6 p.val).filterDrop := by rw [filtered_port]
  have stands : Stands (s.filtered p k) (pgPort p.val) 3 := alarm_stands _ _ _ (by decide)
  have owes := filtered_owes s p k
  have only := filtered_only s p k
  have others := filtered_ne s p k
  dsimp only
  generalize s.filtered p k = t at *
  exact ⟨owes, drop, stands, only.then_sent rfl, only.links, others⟩

theorem refuse_queuesOnly (s : State) (k : Packet) (code : U16) : QueuesOnly s (s.refuse k code) := reply_queuesOnly s _

/-- What a refused packet that no filter entry admits leaves: the port's count and alarm, and the credits owed. -/
theorem filtered_refuses (s : State) (p : PortId) (k : Packet) (code : U16) :
    let t := (s.filtered p k).refuse k code
    Owes s t p k ∧ (t.prt6 p.val).filterDrop = satInc (s.prt6 p.val).filterDrop ∧ Stands t (pgPort p.val) 3
      ∧ AlarmOnly { s with port := t.port, links := t.links } t := by
  have queues := refuse_queuesOnly (s.filtered p k) k code
  have sent := refuse_only (s.filtered p k) k code
  obtain ⟨owes, drop, stands, -, -, -⟩ := filtered_counts s p k
  have only := filtered_only s p k
  dsimp only
  generalize (s.filtered p k).refuse k code = t at *
  have hdr : t.hdr = (s.filtered p k).hdr := by rw [sent]
  refine ⟨owes.queued queues, ?_, ?_, only.then_sent sent⟩
  · rw [queues p.val]
    exact drop
  · unfold Stands at *
    rw [hdr]
    exact stands

/-- Its REFUSAL goes the way back to its sender (R230). -/
theorem filtered_answered {s : State} {p : PortId} {k : Packet} {q : Nat} {dt : Bool} (code : U16) (away : s.remapped k.src ≠ s.devId)
    (route : s.route (s.remapped k.src) = some (q, dt)) :
    ∃ r : Packet, (((s.filtered p k).refuse k code).prt6 q).txq = (s.prt6 q).txq ++ [r] ∧ r.ty = 4 ∧ r.dst = s.remapped k.src
      ∧ r.dstCtx = k.srcCtx ∧ r.srcCtx = k.dstCtx ∧ r.target = pktHead k ∧ r.aux = code.setWidth 64 := by
  rw [← filtered_remapped s p k, ← filtered_devId s p k] at away
  rw [← filtered_remapped s p k, ← filtered_route s p k] at route
  obtain ⟨r, queued, ty, dst, fields⟩ := refuse_queues code away route
  exact ⟨r, queued.trans (by rw [(filtered_st s p k q).2]), ty, dst.trans (filtered_remapped s p k _), fields⟩

/-- The semaphore that a packet names is signalled once, where the packet asks for it (R231). -/
theorem written_sem (s : State) (k : Packet) (l : Loc) :
    if bit k.aux.toNat 14 then
      ((s.written k l).sem (k.aux.toNat % 2 ^ 14)).value = (s.sem (k.aux.toNat % 2 ^ 14)).value + 1
        ∧ SameBut State.sem (k.aux.toNat % 2 ^ 14) s (s.written k l)
    else (s.written k l).sems = s.sems := by
  have stored : (s.locWrite l k.payload).sems = s.sems := by cases l <;> rfl
  have same (j : Nat) : (s.locWrite l k.payload).sem j = s.sem j := by unfold State.sem; rw [stored]
  unfold State.written
  split
  · unfold State.signalSem
    exact ⟨by rw [State.modSem_same, same], fun j other => by rw [State.modSem_ne _ _ other, same]⟩
  · exact stored

theorem written_silent (s : State) {k : Packet} {l : Loc} (silent : bit k.aux.toNat 14 = false) : s.written k l = s.locWrite l k.payload := by
  unfold State.written
  rw [silent]
  rfl

theorem written_port (s : State) (k : Packet) (l : Loc) : (s.written k l).port = s.port := by
  unfold State.written State.locWrite
  split <;> cases l <;> rfl

/-- Settles O31: what each packet stores, where it waits, and what is refused. -/
theorem remoteWritesLandWhereTheyMay : Obligations.RemoteWritesLandWhereTheyMay := by
  unfold Obligations.RemoteWritesLandWhereTheyMay
  refine ⟨?store, ?guarded, ?shut, ?cluster, ?bad, ?mirror, ?reserved, ?filter, ?deaf, ?request⟩
  case store =>
    intro p k a s arr space place sound open_ owned
    subst place
    refine ⟨_, linkWrite_stores arr (pktLoc_hbm space) (Bool.or_eq_false_iff.2 ⟨open_, rfl⟩) sound owned, ?_⟩
    have owes := stored_owes (written_port (s.given p k) k (.hbm (k.target.toNat / 8192)))
    have sent := ack_only ((s.given p k).written k (.hbm (k.target.toNat / 8192))) k
    have wrote := written_hbm_only (s.given p k) k (k.target.toNat / 8192)
    have hbm := written_hbm (s.given p k) k (k.target.toNat / 8192)
    have signalled := written_sem (s.given p k) k (.hbm (k.target.toNat / 8192))
    generalize (s.given p k).written k (.hbm (k.target.toNat / 8192)) = w at *
    generalize w.ack k = t at *
    have only := NotesOnly.then_sent (given_frame s p k) wrote sent
    have bytes : t.hbm = s.hbm.writeBytes (k.target.toNat / 8192) k.payload := by
      rw [sent, hbm, given_frame]
    refine ⟨?_, ?_, ?_, owes, only⟩
    · rw [bytes]; exact Mem.readBytes_writeBytes _ _ _
    · rw [bytes]; exact writeBytes_but _ _ _
    · have sems : t.sems = w.sems := by rw [sent]
      have before : (s.given p k).sems = s.sems := by rw [given_frame]
      unfold SameBut State.sem at *
      rw [before] at signalled
      rw [sems]
      exact signalled
  case guarded =>
    intro p k s arr space guarded
    obtain ⟨-, takes, -⟩ := id arr
    exact ⟨_, linkWrite_waits arr (pktLoc_hbm space) (Bool.or_eq_true_iff.2 (.inl guarded)), park_waits takes⟩
  case shut =>
    intro p k s arr space shut
    obtain ⟨-, takes, -⟩ := id arr
    refine ⟨_, linkWrite_waits arr (pktLoc_cluster space) (Bool.or_eq_true_iff.2 ?_), park_waits takes⟩
    rcases shut with out | shut
    · exact .inr ((Bool.not_eq_true' _).mpr (decide_eq_false out))
    · refine .inl ?_
      show s.cluShut (BitVec.ofNat 11 (bits k.target.toNat 12 2)).toNat = true
      rw [cluster_field]
      exact shut
  case cluster =>
    intro p k cl o s arr space cluster place isIn open_ sound silent
    subst cluster place
    have place := pktLoc_cluster space
    generalize (BitVec.ofNat 11 (bits k.target.toNat 12 2)) = cl at *
    generalize k.target.toNat / 8192 = o at *
    have waits : s.writeWaits k.dstCtx (.clu cl o) k.payload.length = false := Bool.or_eq_false_iff.2
      ⟨open_, (Bool.not_eq_false' _).mpr (decide_eq_true isIn)⟩
    refine ⟨_, linkWrite_stores arr place waits sound fun signals => absurd (silent.symm.trans signals) nofun, ?_⟩
    rw [written_silent _ silent]
    have sent := ack_only ((s.given p k).locWrite (.clu cl o) k.payload) k
    have owes : Owes s _ p k := stored_owes (w := (s.given p k).locWrite (.clu cl o) k.payload) rfl
    generalize ((s.given p k).locWrite (.clu cl o) k.payload).ack k = t at *
    have clu (j : Nat) : t.clu j = ((s.given p k).locWrite (.clu cl o) k.payload).clu j := by
      unfold State.clu
      rw [sent]
    have own : t.clu cl.toNat = { s.clu cl.toNat with mem := (s.clu cl.toNat).mem.writeBytes o k.payload } := by
      rw [clu, ← given_clu s p k]
      exact State.modCl_same _ _ _
    refine ⟨?_, ?_, ?_, fun j other => ?_, owes, ?_⟩
    · rw [own]; exact Mem.readBytes_writeBytes _ _ _
    · rw [own]; exact writeBytes_but _ _ _
    · rw [own]
    · rw [clu, ← given_clu s p k]
      exact State.modCl_ne _ _ other
    · have stored : (s.given p k).locWrite (.clu cl o) k.payload = { s.given p k with cls := ((s.given p k).locWrite (.clu cl o) k.payload).cls } := rfl
      generalize (s.given p k).locWrite (.clu cl o) k.payload = w at *
      have cls : t.cls = w.cls := by rw [sent]
      rw [cls]
      refine sent.trans ?_
      conv_lhs => rw [stored, given_frame]
  case bad =>
    intro p k f s arr space bad open_
    exact ⟨_, linkWrite_refused arr (pktLoc_hbm space) (Bool.or_eq_false_iff.2 ⟨open_, rfl⟩) bad, refused_leaves s p k _⟩
  case mirror =>
    intro p k a s arr space place
    subst place
    obtain ⟨-, takes, -⟩ := id arr
    cases inside : s.inReserve (k.target.toNat / 8192) k.payload.length
    · exact ⟨_, mirror_outside arr space inside, refused_leaves s p k _⟩
    · cases guarded : s.guarded (k.target.toNat / 8192) k.payload.length
      · refine ⟨_, mirror_stores arr space inside guarded, ?_⟩
        have sent := ack_only ((s.given p k).hbmWrite (k.target.toNat / 8192) k.payload) k
        have owes : Owes s _ p k := stored_owes (w := (s.given p k).hbmWrite (k.target.toNat / 8192) k.payload) rfl
        have wrote := hbmWrite_notes (s.given p k) (k.target.toNat / 8192) k.payload
        have hbm := hbmWrite_hbm (s.given p k) (k.target.toNat / 8192) k.payload
        have kept : ((s.given p k).hbmWrite (k.target.toNat / 8192) k.payload).sems = (s.given p k).sems := rfl
        generalize (s.given p k).hbmWrite (k.target.toNat / 8192) k.payload = w at *
        generalize w.ack k = t at *
        have only := NotesOnly.then_sent (given_frame s p k) wrote sent
        have bytes : t.hbm = s.hbm.writeBytes (k.target.toNat / 8192) k.payload := by rw [sent, hbm, given_frame]
        have sems : t.sems = s.sems := by rw [sent, kept, given_frame]
        rw [sems] at only
        refine ⟨owes, ?_, ?_, only⟩
        · rw [bytes]; exact Mem.readBytes_writeBytes _ _ _
        · rw [bytes]; exact writeBytes_but _ _ _
      · exact ⟨_, mirror_waits arr space inside guarded, park_waits takes⟩
  case reserved =>
    intro p k s takes reserved
    have only := alarm_only (s.given p k) (pgPort p.val) 3
    refine ⟨_, reserved_discards takes reserved, (given_owes s p k).queued fun j => ?_, alarm_stands _ _ _ (by decide), fun j other => ?_, ?_⟩
    · rw [only.prt6]
    · exact (only.prt6 j).trans (given_ne s p k j other)
    · exact only.of_ports (given_frame s p k)
  case filter =>
    intro p k i s row takes here unlisted
    refine ⟨_, filtered_discards row takes here unlisted, ?_⟩
    cases refused : refusedType k.ty.toNat
    · obtain ⟨owes, drop, stands, only, links, others⟩ := filtered_counts s p k
      simp only [Bool.false_eq_true, if_false]
      exact ⟨owes, drop, stands, only, fun _ => ⟨links, others⟩, nofun⟩
    · obtain ⟨owes, drop, stands, only⟩ := filtered_refuses s p k (if k.ty = 2 then 0x0202 else 0x0402)
      simp only [if_true]
      refine ⟨owes, drop, stands, only, nofun, fun _ away q dt route => ?_⟩
      obtain ⟨r, queued, ty, dst, dstCtx, srcCtx, target, aux⟩ := filtered_answered (if k.ty = 2 then 0x0202 else 0x0402) away route
      refine ⟨r, queued, ty, dst, dstCtx, srcCtx, target, aux.trans ?_⟩
      split <;> rfl
  case deaf =>
    intro p k i s row takes here admits deposit request deaf
    exact ⟨_, deaf_discards row takes here admits deposit request deaf, rfl⟩
  case request =>
    intro p k q dt s type takes here admits deaf away route
    rw [← given_remapped s p k, ← given_devId s p k] at away
    rw [← given_remapped s p k, ← route_given s p k] at route
    refine ⟨_, creditRequest_refused type takes here admits deaf, ?_, ?_⟩
    · obtain ⟨r, queued, ty, dst, dstCtx, -, -, aux⟩ := refuse_queues 0x0202 away route
      exact ⟨r, queued.trans (by rw [(given_prt6 s p k q).2]), ty, dst.trans (given_remapped s p k _), dstCtx, aux⟩
    · rw [refuse_routed _ away route]
      exact ports_frame (given_frame s p k) rfl

end Sys2Proof.Machine
end

section
/-! SUPPORT. The SEQ commands of the Ledger, what they share: the command at the head, the work on the tables that one does,
its links, and its end (R194, R195, R199 to R201). -/

namespace Sys2Proof.Machine

/-! ### The command at the head (R194, R195, R199) -/

section
variable {s : State} {c : CtxId} {op : Nat} {q : QE}

theorem seqHead_cases (head : s.seqHead c op = some q) : q.ctx = c ∧ s.isIn c.toNat = true := by
  unfold State.seqHead at head
  obtain ⟨p, found, this⟩ := Option.bind_eq_some_iff.1 head
  split at this
  case isTrue isIn =>
    cases this
    exact ⟨of_decide_eq_true (List.find?_some found :), (Bool.and_eq_true_iff.1 isIn).1⟩
  case isFalse => cases this

variable (head : s.seqHead c op = some q)
include head

theorem seqHead_ctx : q.ctx = c := (seqHead_cases head).1

/-- The command at the head faults its context (R191). -/
theorem seqHead_faults (code : U16) (detail : W64 := 0) (unit : U16 := 0xFFFF) : Faulted s (s.faultCmd q code detail unit) c code := by
  obtain ⟨ctx, isIn⟩ := seqHead_cases head
  subst ctx
  exact faultCmd_faulted s q code detail unit (isIn_alive isIn)

theorem seqRun_disabled (f : QE → State) (off : s.unitOn 3 = false) : s.seqRun c op f = .next (s.faultCmd q 0x0301) := by
  unfold State.seqRun
  rw [head]
  simp [off]

variable (on : s.unitOn 3 = true)
include on

theorem seqRun_enabled (f : QE → State) : s.seqRun c op f = .next (f q) := by
  unfold State.seqRun
  rw [head]
  simp [on]

theorem seqEnt_outside (f : QE → Nat → Entry → State) (out : (s.lgc c.toNat).hasEnt (fld q.img 0x14 13 0) = false) :
    s.seqEnt c op f = .next (s.faultCmd q 0x0302) := by
  unfold State.seqEnt
  rw [seqRun_enabled head on]
  simp [out]

theorem seqEnt_inside (f : QE → Nat → Entry → State) (inside : (s.lgc c.toNat).hasEnt (fld q.img 0x14 13 0) = true) :
    s.seqEnt c op f = .next (f q (fld q.img 0x14 13 0) (s.ent (fld q.img 0x14 13 0))) := by
  unfold State.seqEnt
  rw [seqRun_enabled head on]
  simp [inside]

end

/-! ### Its end (Table LG.8) -/

theorem seqDone_only (s : State) (q : QE) (code detail : Nat) : s.seqDone q code detail = { s with
    sched := (s.seqDone q code detail).sched, ctxs := (s.seqDone q code detail).ctxs } := by
  unfold State.seqDone
  conv_lhs => rw [complete_only]
  rw [complete_only]

/-- A SEQ command completes, seen from a state with the same contexts and commands. -/
theorem seqDone_done {s w : State} (q : QE) (code detail : Nat) (ctxs : w.ctxs = s.ctxs) (sched : w.sched = s.sched) :
    SeqDone s (w.seqDone q code detail) q code := by
  have ends := complete_finishes { w with sched := { w.sched with seq := w.sched.seq.filter (· ≠ q) } } q code 0xFFFF (BitVec.ofNat 64 detail)
  refine ⟨ends.of_tokens ctxs.symm (by rw [← sched]) rfl rfl, ?_⟩
  unfold State.seqDone State.tokensAfter State.endWaits
  rw [complete_only]
  unfold State.tokensAfter State.endWaits State.ctx
  rw [ctxs, sched]

section
variable (s : State) (q : QE) (code detail : Nat)

@[simp] theorem seqDone_lgE : (s.seqDone q code detail).lgE = s.lgE := by rw [seqDone_only]
@[simp] theorem seqDone_lgA : (s.seqDone q code detail).lgA = s.lgA := by rw [seqDone_only]
@[simp] theorem seqDone_lgC : (s.seqDone q code detail).lgC = s.lgC := by rw [seqDone_only]
@[simp] theorem seqDone_hbm : (s.seqDone q code detail).hbm = s.hbm := by rw [seqDone_only]
@[simp] theorem seqDone_census : (s.seqDone q code detail).census = s.census := by rw [seqDone_only]
@[simp] theorem seqDone_ent (i : Nat) : (s.seqDone q code detail).ent i = s.ent i := by unfold State.ent; rw [seqDone_lgE]
@[simp] theorem seqDone_adp (k : Nat) : (s.seqDone q code detail).adp k = s.adp k := by unfold State.adp; rw [seqDone_lgA]
@[simp] theorem seqDone_lgc (c : Nat) : (s.seqDone q code detail).lgc c = s.lgc c := by unfold State.lgc; rw [seqDone_lgC]

/-- A SEQ command that changes one entry and nothing else. -/
theorem modEnt_done (i : Nat) (f : Entry → Entry) :
    let t := (s.modEnt i f).seqDone q code detail
    t.ent i = f (s.ent i) ∧ SameBut State.ent i s t ∧ SeqDone s t q code
      ∧ t = { s with lgE := t.lgE, sched := t.sched, ctxs := t.ctxs } := by
  refine ⟨by simp, fun j other => ?_, seqDone_done q code detail rfl rfl, ?_⟩
  · rw [seqDone_ent, State.modEnt_ne _ _ other]
  · rw [seqDone_lgE]
    exact seqDone_only _ q code detail

end

/-! ### Work on the tables -/

/-- From `s` to `t` a SEQ command works on the tables: those, bytes of HBM with what the Strongroom notes of them, the Census
and the free values change, and no context's links move. -/
def LedgerWork (s t : State) : Prop :=
  NotesOnly { s with lgE := t.lgE, lgA := t.lgA, lgC := t.lgC, hbm := t.hbm, census := t.census, free := t.free } t
    ∧ ∀ c, (t.lgc c).iLink = (s.lgc c).iLink

theorem LedgerWork.refl (s : State) : LedgerWork s s := ⟨rfl, fun _ => rfl⟩

theorem LedgerWork.trans {s t u : State} (h : LedgerWork s t) (k : LedgerWork t u) : LedgerWork s u := by
  obtain ⟨only, links⟩ := h
  obtain ⟨only', links'⟩ := k
  refine ⟨?_, fun c => (links' c).trans (links c)⟩
  unfold NotesOnly at *
  rw [only', only]

section
variable {s t : State} (h : LedgerWork s t)
include h

theorem LedgerWork.ctxs : t.ctxs = s.ctxs := by rw [h.1]
theorem LedgerWork.sched : t.sched = s.sched := by rw [h.1]
theorem LedgerWork.link (c i : Nat) : (t.lgc c).link i = (s.lgc c).link i := by
  unfold LgCtx.link
  rw [h.2]

/-- Work that leaves the Census alone, with its command's end. -/
theorem LedgerWork.ledgerOnly {u : State} (done : u = { t with sched := u.sched, ctxs := u.ctxs }) :
    LedgerOnly { s with census := u.census } u := by
  have only := h.1
  unfold LedgerOnly NotesOnly at *
  rw [done]
  conv_lhs => rw [only]

end

/-- What reports conversions or writes bytes is work on the tables. -/
theorem LedgerWork.of_bytes {s t : State} (h : NotesOnly { s with hbm := t.hbm, census := t.census, free := t.free } t) : LedgerWork s t := by
  unfold LedgerWork NotesOnly State.lgc at *
  rw [h]
  exact ⟨rfl, fun _ => rfl⟩

theorem modEnt_work (s : State) (i : Nat) (f : Entry → Entry) : LedgerWork s (s.modEnt i f) := ⟨rfl, fun _ => rfl⟩
theorem modAdp_work (s : State) (k : Nat) (f : AdpSlot → AdpSlot) : LedgerWork s (s.modAdp k f) := ⟨rfl, fun _ => rfl⟩
theorem modLgc_work (s : State) (c : Nat) {f : LgCtx → LgCtx} (keeps : ∀ x, (f x).iLink = x.iLink) : LedgerWork s (s.modLgc c f) := by
  refine ⟨rfl, fun j => ?_⟩
  by_cases own : j = c
  · rw [own, State.modLgc_same, keeps]
  · rw [State.modLgc_ne _ _ own]

/-- Work that ends with an entry and the pages of its context. -/
theorem LedgerWork.tables {s u : State} (h : LedgerWork s u) (c i : Nat) {f : LgCtx → LgCtx} (g : Entry → Entry)
    (keeps : ∀ x, (f x).iLink = x.iLink) : LedgerWork s ((u.modLgc c f).modEnt i g) :=
  h.trans ((modLgc_work u c keeps).trans (modEnt_work _ i g))

end Sys2Proof.Machine
end

section
/-! SUPPORT. The links of KV pages that a SEQ command of the Ledger writes as it ends (R199 to R201; log 78). -/

namespace Sys2Proof.Machine

/-! ### Links written (R200, R201) -/

/-- From `s` to `t` links of the pool indices `l` of context `c` are written, free values may be drawn, and nothing else. -/
def LinksWritten (c : Nat) (l : List Nat) (s t : State) : Prop :=
  NotesOnly { s with hbm := t.hbm, free := t.free } t
    ∧ ∀ a, (∀ i ∈ l, ¬((s.lgc c).link i ≤ a ∧ a < (s.lgc c).link i + 8)) → t.hbm.read a = s.hbm.read a

section
variable {c : Nat} {l : List Nat}

theorem LinksWritten.refl (s : State) : LinksWritten c l s s := ⟨rfl, fun _ _ => rfl⟩

theorem LinksWritten.lgC {s t : State} (h : LinksWritten c l s t) : t.lgC = s.lgC := by rw [h.1]
theorem LinksWritten.lgE {s t : State} (h : LinksWritten c l s t) : t.lgE = s.lgE := by rw [h.1]
theorem LinksWritten.lgA {s t : State} (h : LinksWritten c l s t) : t.lgA = s.lgA := by rw [h.1]
theorem LinksWritten.census {s t : State} (h : LinksWritten c l s t) : t.census = s.census := by rw [h.1]
theorem LinksWritten.lgc {s t : State} (h : LinksWritten c l s t) (e : Nat) : t.lgc e = s.lgc e := by
  unfold State.lgc
  rw [h.lgC]

theorem LinksWritten.trans {s t u : State} (h : LinksWritten c l s t) (k : LinksWritten c l t u) : LinksWritten c l s u := by
  have lgc := h.lgc c
  obtain ⟨only, bytes⟩ := h
  obtain ⟨only', bytes'⟩ := k
  rw [lgc] at bytes'
  refine ⟨?_, fun a out => (bytes' a out).trans (bytes a out)⟩
  unfold NotesOnly at *
  rw [only', only]

theorem LinksWritten.work {s t : State} (h : LinksWritten c l s t) : LedgerWork s t := by
  have census := h.census
  refine .of_bytes ?_
  rw [census]
  exact h.1

theorem hbmWrite_link {s : State} {i v : Nat} (mem : i ∈ l) : LinksWritten c l s (s.hbmWrite ((s.lgc c).link i) (leBytes 8 v)) := by
  refine ⟨rfl, fun a out => ?_⟩
  have out := out i mem
  rw [hbmWrite_hbm]
  exact Mem.read_writeBytes_out (by rw [leBytes_length]; omega)

theorem putLink_writes {s : State} {x : Nat × Nat × Nat} (mem : x.1 ∈ l) : LinksWritten c l s (s.putLink c x) := hbmWrite_link mem

theorem freeLink_writes {s : State} {i : Nat} (mem : i ∈ l) : LinksWritten c l s (s.freeLink c i) := by
  have drawn : LinksWritten c l s s.draw.2.draw.2 := ⟨rfl, fun _ _ => rfl⟩
  exact drawn.trans (hbmWrite_link mem)

/-- Links put in turn, of different pages, read back. -/
theorem foldl_putLink_read (ls : List (Nat × Nat × Nat)) (apart : (ls.map Prod.fst).Nodup)
    (small : ∀ x ∈ ls, x.2.1 + x.2.2 * 2 ^ 32 < 256 ^ 8) (s : State) {x : Nat × Nat × Nat} (mem : x ∈ ls) :
    (ls.foldl (fun s l => s.putLink c l) s).hbm.readN ((s.lgc c).link x.1) 8 = x.2.1 + x.2.2 * 2 ^ 32 := by
  induction ls generalizing s with
  | nil => cases mem
  | cons y ls ih =>
    obtain ⟨away, apart⟩ := List.nodup_cons.1 apart
    rcases List.mem_cons.1 mem with rfl | mem
    · have rest : LinksWritten c (ls.map Prod.fst) (s.putLink c x) (ls.foldl (fun s l => s.putLink c l) (s.putLink c x)) :=
        foldl_rel (R := LinksWritten c _) .refl .trans (fun _ _ m => putLink_writes (List.mem_map_of_mem m)) _
      rw [List.foldl_cons, ← Nat.mod_eq_of_lt (small x (List.mem_cons_self ..)),
        ← Mem.readN_writeBytes_leBytes s.hbm ((s.lgc c).link x.1) 8]
      refine Mem.readN_congr fun b low high => rest.2 b fun i m inside => ?_
      have other : i ≠ x.1 := fun e => away (e ▸ m)
      have inside : (s.lgc c).iLink.toNat + 8 * i ≤ b ∧ b < (s.lgc c).iLink.toNat + 8 * i + 8 := inside
      unfold LgCtx.link at low high
      omega
    · exact ih apart (fun x m => small x (List.mem_cons_of_mem _ m)) (s.putLink c y) mem

end

/-! ### The links of entries (R200) -/

theorem chainFrom_fst (prev : Nat) (l : List Nat) : (chainFrom prev l).map Prod.fst = l := by
  induction l generalizing prev with
  | nil => rfl
  | cons p l ih => exact congrArg (p :: ·) (ih p)

/-- NEXT and PREV of a list of pages are indices of 24 bits. -/
theorem chainFrom_small {prev : Nat} {l : List Nat} (first : prev < 2 ^ 24) (small : ∀ n ∈ l, n < 2 ^ 24) :
    ∀ x ∈ chainFrom prev l, x.2.1 < 2 ^ 24 ∧ x.2.2 < 2 ^ 24 := by
  induction l generalizing prev with
  | nil => exact fun _ mem => absurd mem List.not_mem_nil
  | cons p l ih =>
    obtain ⟨head, tail⟩ := List.forall_mem_cons.1 small
    intro x mem
    rcases List.mem_cons.1 mem with rfl | mem
    · refine ⟨?_, first⟩
      cases l with
      | nil => exact (by decide : 0xFFFFFF < 2 ^ 24)
      | cons n l => exact tail n (List.mem_cons_self ..)
    · exact ih head tail x mem

theorem Entry.links_fst (e : Entry) : e.links.map Prod.fst = e.pages ++ e.cpages := by
  unfold Entry.links
  rw [List.map_append, chainFrom_fst, chainFrom_fst]

theorem Entry.links_small {e : Entry} (small : ∀ n ∈ e.pages ++ e.cpages, n < 2 ^ 24) :
    ∀ x ∈ e.links, x.2.1 + x.2.2 * 2 ^ 32 < 256 ^ 8 := by
  obtain ⟨exact_, compressed⟩ := List.forall_mem_append.1 small
  intro x mem
  have bounds : x.2.1 < 2 ^ 24 ∧ x.2.2 < 2 ^ 24 := by
    rcases List.mem_append.1 mem with mem | mem
    · exact chainFrom_small (by decide) exact_ x mem
    · exact chainFrom_small (by decide) compressed x mem
  omega

theorem linksOf_fst (s : State) (es : List Nat) :
    (s.linksOf es).map Prod.fst = (es.map fun i => (s.ent i).pages ++ (s.ent i).cpages).flatten := by
  unfold State.linksOf
  rw [List.map_flatten, List.map_map]
  simp only [Function.comp_def, Entry.links_fst]

/-! ### A SEQ command's work ends (R199) -/

/-- The pages whose links are written as work that leads from `s` to `w`, on the entries `es`, ends. -/
def State.linked (s w : State) (c : Nat) (es : List Nat) : List Nat :=
  (es.map fun i => (w.ent i).pages ++ (w.ent i).cpages).flatten ++ s.freed w c

/-- The device once they are written. -/
def State.relinked (s w : State) (c : Nat) (es : List Nat) : State :=
  (s.freed w c).foldl (fun s i => s.freeLink c i) ((w.linksOf es).foldl (fun s l => s.putLink c l) w)

theorem settled_eq (s w : State) (q : QE) (es : List Nat) (code detail : Nat) :
    s.settled w q es code detail = (s.relinked w q.ctx.toNat es).seqDone q code detail := rfl

theorem relinked_writes (s w : State) (c : Nat) (es : List Nat) : LinksWritten c (s.linked w c es) w (s.relinked w c es) := by
  unfold State.linked
  rw [← linksOf_fst]
  have put : LinksWritten c ((w.linksOf es).map Prod.fst ++ s.freed w c) w ((w.linksOf es).foldl (fun s l => s.putLink c l) w) :=
    foldl_rel (R := LinksWritten c _) .refl .trans (fun _ _ m => putLink_writes (List.mem_append_left _ (List.mem_map_of_mem m))) _
  exact put.trans (foldl_rel (R := LinksWritten c _) .refl .trans (fun _ _ m => freeLink_writes (List.mem_append_right _ m)) _)

/-- Where no page has come back to the free list, the links of an entry's pages read back. -/
theorem relinked_reads {s w : State} {c i : Nat} (kept : s.freed w c = []) (apart : ((w.ent i).pages ++ (w.ent i).cpages).Nodup)
    (small : ∀ n ∈ (w.ent i).pages ++ (w.ent i).cpages, n < 2 ^ 24) {x : Nat × Nat × Nat} (mem : x ∈ (w.ent i).links) :
    (s.relinked w c [i]).hbm.readN ((w.lgc c).link x.1) 8 = x.2.1 + x.2.2 * 2 ^ 32 := by
  have own : w.linksOf [i] = (w.ent i).links := by simp [State.linksOf]
  unfold State.relinked
  rw [kept, own]
  exact foldl_putLink_read _ (by rwa [Entry.links_fst]) (Entry.links_small small) w mem

theorem mem_freed {s w : State} {c i : Nat} : i ∈ s.freed w c ↔ i ∈ (w.lgc c).free ∧ i ∉ (s.lgc c).free := by
  unfold State.freed
  simp

theorem freed_eq_nil {s w : State} {c : Nat} (sub : ∀ i ∈ (w.lgc c).free, i ∈ (s.lgc c).free) : s.freed w c = [] :=
  List.eq_nil_iff_forall_not_mem.2 fun i mem => (mem_freed.1 mem).2 (sub i (mem_freed.1 mem).1)

theorem LinksOk.mono {s : State} {c : CtxId} {l l' : List Nat} (ok : LinksOk s c l) (sub : ∀ i ∈ l', i ∈ l) : LinksOk s c l' :=
  fun i mem => ok i (sub i mem)

section
variable {s w : State} {q : QE} {es : List Nat}

/-- Links that the Ledger may write stop no command (R175). -/
theorem settleStop_none (links : (w.lgc q.ctx.toNat).iLink = (s.lgc q.ctx.toNat).iLink) (ok : LinksOk s q.ctx (s.linked w q.ctx.toNat es)) : s.settleStop w q es = none := by
  unfold State.linked at ok
  rw [← linksOf_fst] at ok
  unfold State.settleStop
  have link (i : Nat) : (w.lgc q.ctx.toNat).link i = (s.lgc q.ctx.toNat).link i := by
    unfold LgCtx.link
    rw [links]
  have allowed : s.accessFault q.ctx.toNat
      (((((w.linksOf es).map Prod.fst ++ s.freed w q.ctx.toNat).map (w.lgc q.ctx.toNat).link).map fun a => (a, 8, true, true))
        ++ (((w.linksOf es).map Prod.fst ++ s.freed w q.ctx.toNat).map (w.lgc q.ctx.toNat).link).map fun a => (a, 8, false, false)) = none := by
    refine accessFault_none (List.forall_mem_append.2 ⟨?_, ?_⟩)
    all_goals
      simp only [List.forall_mem_map, link]
      exact fun i mem => by simp only [ok i mem]
  have open_ : (((w.linksOf es).map Prod.fst ++ s.freed w q.ctx.toNat).map (w.lgc q.ctx.toNat).link).any (fun a => s.guarded a 8) = false := by
    refine List.any_eq_false.2 (List.forall_mem_map.2 fun i mem => ?_)
    rw [link, (ok i mem).2.2]
    exact Bool.false_ne_true
  dsimp only
  rw [allowed]
  simp only [open_, Bool.false_eq_true, if_false]

/-- What a SEQ command that ends leaves of the tables its work reached: they stand, the links are written, and it completes. -/
structure Settled (s w t : State) (q : QE) (es : List Nat) (code : Nat) : Prop where
  ents : t.lgE = w.lgE
  adps : t.lgA = w.lgA
  ctxs : t.lgC = w.lgC
  census : t.census = w.census
  done : SeqDone s t q code
  only : LedgerOnly { s with census := t.census } t
  links : ∀ a, (∀ i ∈ s.linked w q.ctx.toNat es, ¬((s.lgc q.ctx.toNat).link i ≤ a ∧ a < (s.lgc q.ctx.toNat).link i + 8)) →
    t.hbm.read a = w.hbm.read a

theorem settle_of_ok (work : LedgerWork s w) (ok : LinksOk s q.ctx (s.linked w q.ctx.toNat es)) (code detail : Nat) :
    s.settle w q es code detail = (s.relinked w q.ctx.toNat es).seqDone q code detail := by
  unfold State.settle
  rw [settleStop_none (work.2 _) ok]
  exact settled_eq s w q es code detail

theorem relinked_settled (work : LedgerWork s w) (code detail : Nat) :
    Settled s w ((s.relinked w q.ctx.toNat es).seqDone q code detail) q es code := by
  have wrote := relinked_writes s w q.ctx.toNat es
  have all := work.trans wrote.work
  refine ⟨?_, ?_, ?_, ?_, seqDone_done q code detail all.ctxs all.sched, all.ledgerOnly (seqDone_only _ q code detail), fun a out => ?_⟩
  · rw [seqDone_lgE, wrote.lgE]
  · rw [seqDone_lgA, wrote.lgA]
  · rw [seqDone_lgC, wrote.lgC]
  · rw [seqDone_census, wrote.census]
  · rw [seqDone_hbm]
    refine wrote.2 a fun i mem => ?_
    rw [work.link]
    exact out i mem

theorem settle_settled (work : LedgerWork s w) (ok : LinksOk s q.ctx (s.linked w q.ctx.toNat es)) (code detail : Nat) :
    Settled s w (s.settle w q es code detail) q es code := by
  rw [settle_of_ok work ok]
  exact relinked_settled work code detail

end

section
variable {s w t : State} {q : QE} {es : List Nat} {code : Nat} (h : Settled s w t q es code)
include h

theorem Settled.ent (i : Nat) : t.ent i = w.ent i := by unfold State.ent; rw [h.ents]
theorem Settled.adp (k : Nat) : t.adp k = w.adp k := by unfold State.adp; rw [h.adps]
theorem Settled.lgc (c : Nat) : t.lgc c = w.lgc c := by unfold State.lgc; rw [h.ctxs]

/-- Work that reports no conversion. -/
theorem Settled.ledgerOnly (census : w.census = s.census) : LedgerOnly s t := by
  have only := h.only
  rw [h.census, census] at only
  exact only

/-- Work that writes no byte changes bytes of links alone. -/
theorem Settled.linksBut {l : List Nat} (hbm : w.hbm = s.hbm) (sub : ∀ i ∈ s.linked w q.ctx.toNat es, i ∈ l) : LinksBut s t q.ctx l :=
  fun a out => (h.links a fun i mem => out i (sub i mem)).trans (by rw [hbm])

end

end Sys2Proof.Machine
end

section
/-! SUPPORT. SEQ commands on one entry: what they refuse, OPEN, SET and FREE (R194, R195, R201, R205, R209, R210; logs 78, 79). -/

namespace Sys2Proof.Machine

/-! ### Refusals (R194, R195, Table LG.3) -/

section
variable {s : State} {c : CtxId} {q : QE} {op : Instr × Nat}

/-- The nine SEQ commands look first whether the Ledger is enabled. -/
theorem seq_runs (s : State) (mem : op ∈ [(Instr.seqOpen c, 1), (.seqGather c, 2), (.seqCommit c, 3), (.seqPause c, 4), (.seqResume c, 5),
      (.seqFree c, 6), (.seqSet c, 7), (.seqAdapterLoad c, 8), (.seqVariantLoad c true [], 9)]) :
    ∃ f, exec op.1 s = s.seqRun c op.2 f := by
  simp only [List.mem_cons, List.not_mem_nil, or_false] at mem
  rcases mem with rfl | rfl | rfl | rfl | rfl | rfl | rfl | rfl | rfl
  case inr.inr.inr.inr.inr.inr.inr.inr =>
    have source (flash : Bool) : (if flash then s else s.hostStores []) = s := by cases flash <;> rfl
    show ∃ f, execSeqVariantLoad c true [] s = _
    unfold execSeqVariantLoad
    dsimp only
    rw [source]
    exact ⟨_, rfl⟩
  all_goals exact ⟨_, rfl⟩

/-- The states of an entry in which Table LG.3 refuses the operation. -/
def stateRefused (op : Nat) (st : BitVec 3) : Prop :=
  (op = 1 ∧ st ≠ 0) ∨ ((op = 6 ∨ op = 7) ∧ st = 0) ∨ (op = 4 ∧ st ∈ [0, 5, 6, 7]) ∨ (op = 5 ∧ st ≠ 5)

/-- The five SEQ commands on an entry look for the entry first, then at its state. -/
theorem seqEntry_runs (s : State) (mem : op ∈ [(Instr.seqOpen c, 1), (.seqPause c, 4), (.seqResume c, 5), (.seqFree c, 6), (.seqSet c, 7)]) :
    ∃ f, exec op.1 s = s.seqEnt c op.2 f ∧ ∀ q i e, stateRefused op.2 e.state → f q i e = s.faultCmd q 0x0303 := by
  simp only [List.mem_cons, List.not_mem_nil, or_false] at mem
  rcases mem with rfl | rfl | rfl | rfl | rfl
  case inl =>
    show ∃ f, execSeqOpen c s = s.seqEnt c 1 f ∧ _
    unfold execSeqOpen
    exact ⟨_, rfl, fun q i e refused => if_pos (by simpa [stateRefused] using refused)⟩
  case inr.inl =>
    show ∃ f, execSeqPause c s = s.seqEnt c 4 f ∧ _
    unfold execSeqPause
    exact ⟨_, rfl, fun q i e refused => if_pos (by simpa [stateRefused] using refused)⟩
  case inr.inr.inl =>
    show ∃ f, execSeqResume c s = s.seqEnt c 5 f ∧ _
    unfold execSeqResume
    exact ⟨_, rfl, fun q i e refused => if_pos (by simpa [stateRefused] using refused)⟩
  case inr.inr.inr.inl =>
    show ∃ f, execSeqFree c s = s.seqEnt c 6 f ∧ _
    unfold execSeqFree
    exact ⟨_, rfl, fun q i e refused => if_pos (by simpa [stateRefused] using refused)⟩
  case inr.inr.inr.inr =>
    show ∃ f, execSeqSet c s = s.seqEnt c 7 f ∧ _
    unfold execSeqSet
    exact ⟨_, rfl, fun q i e refused => if_pos (by simpa [stateRefused] using refused)⟩

end

/-! ### References on adapters (R209, R210) -/

theorem unrefEnt_only (s : State) (e : Entry) : s.unrefEnt e = { s with lgA := (s.unrefEnt e).lgA } := by
  unfold State.unrefEnt
  split <;> rfl

/-- An entry that holds a reference gives it back; another changes no slot. -/
theorem unrefEnt_releases (s : State) (e : Entry) :
    if e.holds = true then (s.unrefEnt e).adp e.slot.toNat = (s.adp e.slot.toNat).release e.version
      ∧ SameBut State.adp e.slot.toNat s (s.unrefEnt e) else (s.unrefEnt e).lgA = s.lgA := by
  unfold State.unrefEnt
  split
  · exact ⟨State.modAdp_same _ _ _, fun j other => State.modAdp_ne _ _ other⟩
  · rfl

theorem unrefEnt_work (s : State) (e : Entry) : LedgerWork s (s.unrefEnt e) := by
  unfold State.unrefEnt
  split
  · exact modAdp_work _ _ _
  · exact .refl s

/-! ### Pages back to the free list (R201) -/

theorem mem_foldl_cons {l f : List Nat} {i : Nat} : i ∈ l.foldl (fun f p => p :: f) f ↔ i ∈ l ∨ i ∈ f := by
  induction l generalizing f with
  | nil => simp
  | cons p l ih =>
    rw [List.foldl_cons, ih, List.mem_cons, List.mem_cons]
    exact ⟨fun h => h.elim (.inl ∘ .inr) fun h => h.elim (.inl ∘ .inl) .inr, fun h => h.elim (fun h => h.elim (.inr ∘ .inl) .inl) (.inr ∘ .inr)⟩

section
variable (s : State) (c i : Nat)

theorem freeEnt_work : LedgerWork s (s.freeEnt c i) :=
  (unrefEnt_work s (s.ent i)).tables c i _ fun _ => rfl

theorem freeEnt_only : s.freeEnt c i = { s with
    lgE := (s.freeEnt c i).lgE, lgA := (s.unrefEnt (s.ent i)).lgA, lgC := (s.freeEnt c i).lgC } := by
  have only := unrefEnt_only s (s.ent i)
  unfold State.freeEnt
  dsimp only
  generalize s.unrefEnt (s.ent i) = u at *
  rw [only]
  rfl

theorem freeEnt_ent : (s.freeEnt c i).ent i = {} := State.modEnt_same _ _ _

theorem freeEnt_ent_ne : SameBut State.ent i s (s.freeEnt c i) := by
  intro j other
  refine (State.modEnt_ne _ _ other).trans ?_
  unfold State.ent
  rw [State.modLgc_lgE, unrefEnt_only]

theorem freeEnt_lgc_eq (d : Nat) : (s.freeEnt c i).lgc d =
    ((s.unrefEnt (s.ent i)).modLgc c fun x => (x.back (s.ent i).pages).back (s.ent i).cpages).lgc d := rfl

theorem freeEnt_lgc : (s.freeEnt c i).lgc c =
    { s.lgc c with free := ((s.ent i).pages ++ (s.ent i).cpages).foldl (fun f p => p :: f) (s.lgc c).free } := by
  have lgc : (s.unrefEnt (s.ent i)).lgc c = s.lgc c := by unfold State.lgc; rw [unrefEnt_only]
  rw [freeEnt_lgc_eq, State.modLgc_same, lgc, List.foldl_append]
  rfl

theorem freeEnt_lgc_ne : SameBut State.lgc c s (s.freeEnt c i) := by
  intro j other
  rw [freeEnt_lgc_eq, State.modLgc_ne _ _ other]
  unfold State.lgc
  rw [unrefEnt_only]

/-- The pages of an entry that becomes FREE. -/
theorem freeEnt_freed : ∀ j ∈ s.freed (s.freeEnt c i) c, j ∈ (s.ent i).pages ++ (s.ent i).cpages := by
  intro j mem
  obtain ⟨mem, new⟩ := mem_freed.1 mem
  rw [freeEnt_lgc] at mem
  exact (mem_foldl_cons.1 mem).resolve_right new

end

/-! ### OPEN, SET and FREE (R195, R201, R205) -/

/-- An entry as OPEN leaves it. -/
def Entry.opened (q : QE) (c : CtxId) (x : LgCtx) (a : AdpSlot) : Entry :=
  { state := 1, owner := c, prio := BitVec.ofNat 8 (fld q.img 0x18 7 0), draftLen := fld q.img 0x18 12 8
    deadline := w32 q.img 0x1C, maxLen := fld q.img 0x20 19 0, promptLeft := fld q.img 0x24 19 0
    user := w32 q.img 0x2C, variant := x.variant, slot := BitVec.ofNat 9 (fld q.img 0x28 8 0), adpEn := bit (fld q.img 0x28 31 0) 9
    version := if bit (fld q.img 0x28 31 0) 9 = true then a.cur.version else 0
    nextToken := Config.openToken (fld q.img 0x14 13 0) x.opens }

/-- The device with a context's OPEN counted, and a reference taken where it asks for an adapter. -/
def State.openRef (s : State) (c k : Nat) (en : Bool) : State :=
  if en then (s.modLgc c fun x => { x with opens := x.opens + 1 }).modAdp k fun a => { a with cur := { a.cur with refs := a.cur.refs + 1 } }
  else s.modLgc c fun x => { x with opens := x.opens + 1 }

section
variable (s : State) (c k : Nat) (en : Bool)

theorem openRef_only : s.openRef c k en = { s with lgA := (s.openRef c k en).lgA, lgC := (s.openRef c k en).lgC } := by
  cases en <;> rfl
theorem openRef_lgE : (s.openRef c k en).lgE = s.lgE := by cases en <;> rfl
theorem openRef_lgC : (s.openRef c k en).lgC = (s.modLgc c fun x => { x with opens := x.opens + 1 }).lgC := by cases en <;> rfl
theorem openRef_adp : if en = true then
    (s.openRef c k en).adp k = { s.adp k with cur := { (s.adp k).cur with refs := (s.adp k).cur.refs + 1 } }
      ∧ SameBut State.adp k s (s.openRef c k en)
    else (s.openRef c k en).lgA = s.lgA := by
  cases en
  · rfl
  · exact ⟨State.modAdp_same _ _ _, fun j other => State.modAdp_ne _ _ other⟩

end

section
variable {s : State} {c : CtxId} {q : QE}

theorem seqOpen_opens (head : s.seqHead c 1 = some q) (on : s.unitOn 3 = true)
    (inside : (s.lgc c.toNat).hasEnt (fld q.img 0x14 13 0) = true) (free : (s.ent (fld q.img 0x14 13 0)).state = 0)
    (slot : bit (fld q.img 0x28 31 0) 9 = true →
      (s.lgc c.toNat).hasAdp (fld q.img 0x28 8 0) = true ∧ (s.adp (fld q.img 0x28 8 0)).cur.rank ≠ 0) :
    exec (.seqOpen c) s = .next (((s.openRef c.toNat (fld q.img 0x28 8 0) (bit (fld q.img 0x28 31 0) 9)).modEnt (fld q.img 0x14 13 0) fun _ =>
      .opened q c (s.lgc c.toNat) (s.adp (fld q.img 0x28 8 0))).seqDone q 0 0) := by
  show execSeqOpen c s = _
  unfold execSeqOpen
  rw [seqEnt_inside head on _ inside]
  have sound : ¬((bit (fld q.img 0x28 31 0) 9 && (!(s.lgc c.toNat).hasAdp (fld q.img 0x28 8 0)
      || (s.adp (fld q.img 0x28 8 0)).cur.rank == 0)) = true) := by
    intro bad
    obtain ⟨en, bad⟩ := Bool.and_eq_true_iff.1 bad
    obtain ⟨has, rank⟩ := slot en
    rw [has] at bad
    exact rank (by simpa using bad)
  dsimp only
  rw [if_neg (fun taken => taken free), if_neg sound]
  rfl

theorem seqSet_sets (head : s.seqHead c 7 = some q) (on : s.unitOn 3 = true)
    (inside : (s.lgc c.toNat).hasEnt (fld q.img 0x14 13 0) = true) (used : (s.ent (fld q.img 0x14 13 0)).state ≠ 0) :
    exec (.seqSet c) s = .next ((s.modEnt (fld q.img 0x14 13 0) fun e =>
      { e with prio := BitVec.ofNat 8 (fld q.img 0x18 7 0), deadline := w32 q.img 0x1C }).seqDone q 0 0) := by
  show execSeqSet c s = _
  unfold execSeqSet
  rw [seqEnt_inside head on _ inside, if_neg used]

section
variable (head : s.seqHead c 6 = some q) (on : s.unitOn 3 = true) (inside : (s.lgc c.toNat).hasEnt (fld q.img 0x14 13 0) = true)
  (used : (s.ent (fld q.img 0x14 13 0)).state ≠ 0)
include head on inside used

theorem seqFree_pends (inStep : (s.ent (fld q.img 0x14 13 0)).inStep = true) :
    exec (.seqFree c) s = .next ((s.modEnt (fld q.img 0x14 13 0) fun e => { e with freePend := true }).seqDone q 0 0) := by
  show execSeqFree c s = _
  unfold execSeqFree
  rw [seqEnt_inside head on _ inside, if_neg used, if_pos inStep]

theorem seqFree_frees (idle : (s.ent (fld q.img 0x14 13 0)).inStep = false) :
    exec (.seqFree c) s = .next (s.settle (s.freeEnt c.toNat (fld q.img 0x14 13 0)) q [] 0
      ((s.ent (fld q.img 0x14 13 0)).pages.length + (s.ent (fld q.img 0x14 13 0)).cpages.length)) := by
  show execSeqFree c s = _
  unfold execSeqFree
  rw [seqEnt_inside head on _ inside, if_neg used, if_neg (by simp [idle])]

end

end

end Sys2Proof.Machine
end

section
/-! SUPPORT. PAUSE and RESUME: what pausing an entry can do to the tables, and its pages expanded again (R201, R207, R208; logs 50, 80). -/

namespace Sys2Proof.Machine

/-! ### Pausing an entry (R207) -/

def Entry.paused (e : Entry) : Entry := { e with state := 5, pausePend := false, pauseExact := false }

/-- The old pages of an entry that a compression takes. -/
def Entry.oldPages (e : Entry) (tpp : Nat) : List Nat := e.pages.take (e.old tpp)

theorem Entry.oldPages_length (e : Entry) (tpp : Nat) : (e.oldPages tpp).length = e.old tpp := by
  unfold Entry.oldPages Entry.old
  rw [List.length_take]
  omega

/-- An entry paused with its first `n` pages compressed into the pages of `z`. -/
def Entry.squeezedTo (n : Nat) (z : Squeeze) (e : Entry) : Entry :=
  { e.paused with pages := e.pages.drop n, cpages := z.data ++ z.scale, cold := n, compressed := true }

/-- Bytes are written and conversions reported. -/
def Encodes (s t : State) : Prop := NotesOnly { s with hbm := t.hbm, census := t.census } t

theorem Encodes.refl (s : State) : Encodes s s := rfl
theorem Encodes.trans {s t u : State} (h : Encodes s t) (k : Encodes t u) : Encodes s u := by
  unfold Encodes NotesOnly at *
  rw [k, h]
theorem Counted.encodes {c : Nat} {s t : State} (h : Counted c s t) : Encodes s t := h.1

theorem Encodes.work {s t : State} (h : Encodes s t) : LedgerWork s t := by
  have free : t.free = s.free := by rw [h]
  refine .of_bytes ?_
  rw [free]
  exact h
theorem Encodes.lgE {s t : State} (h : Encodes s t) : t.lgE = s.lgE := by rw [h]
theorem Encodes.lgA {s t : State} (h : Encodes s t) : t.lgA = s.lgA := by rw [h]
theorem Encodes.lgC {s t : State} (h : Encodes s t) : t.lgC = s.lgC := by rw [h]
theorem Encodes.ent {s t : State} (h : Encodes s t) (i : Nat) : t.ent i = s.ent i := by unfold State.ent; rw [h.lgE]
theorem Encodes.lgc {s t : State} (h : Encodes s t) (c : Nat) : t.lgc c = s.lgc c := by unfold State.lgc; rw [h.lgC]

theorem hbmWrite_encodes (s : State) (a : Nat) (bs : List Byte) : Encodes s (s.hbmWrite a bs) := rfl

theorem compressPage_encodes (s : State) (c fmt a d t : Nat) : Encodes s (s.compressPage c fmt a d t) := by
  unfold State.compressPage
  refine foldl_rel (R := Encodes) .refl .trans (fun s b _ => ?_) s
  exact ((hbmWrite_encodes s _ _).trans (hbmWrite_encodes _ _ _)).trans
    ((count_counted _ _ _ _ _ _).trans (count_counted _ _ _ _ _ _)).encodes

section
variable {s : State} {c i : Nat}

theorem pauseEnt_exact : s.pauseEnt c i true = .done (s.modEnt i .paused) false := rfl

/-- Where the format is none to compress, or the pool has no room, the pages are kept (KEPT_EXACT). -/
theorem pauseEnt_kept (tight : 1 < (s.lgc c).kvFmt ∨ (s.lgc c).free.length < 2) : s.pauseEnt c i false = .done (s.modEnt i .paused) true := by
  unfold State.pauseEnt
  exact if_pos tight

/-- Else the old pages are encoded, and the entry and the free list are as the groups leave them (log 80). -/
theorem pauseEnt_squeezes {t : State} {kept : Bool} (room : ¬(1 < (s.lgc c).kvFmt ∨ (s.lgc c).free.length < 2))
    (h : s.pauseEnt c i false = .done t kept) :
    let z := squeeze (s.lgc c).free ((s.ent i).oldPages (s.lgc c).tpp)
    ∃ u, Encodes s u ∧ t = (u.modLgc c fun x => { x with free := z.free }).modEnt i (.squeezedTo ((s.ent i).old (s.lgc c).tpp) z) := by
  unfold State.pauseEnt at h
  dsimp only at h
  rw [if_neg Bool.false_ne_true, if_neg room] at h
  split at h
  · cases h
  · split at h
    · cases h
    · obtain ⟨rfl, -⟩ := Pausing.done.inj h
      have count : ((s.ent i).pages.take ((s.ent i).old (s.lgc c).tpp)).length = (s.ent i).old (s.lgc c).tpp := (s.ent i).oldPages_length _
      rw [count]
      exact ⟨_, foldl_rel (R := Encodes) .refl .trans (fun u _ _ => compressPage_encodes u c _ _ _ _) s, rfl⟩

theorem pauseEnt_work {t : State} {exact_ kept : Bool} (h : s.pauseEnt c i exact_ = .done t kept) : LedgerWork s t := by
  cases exact_ with
  | true =>
    cases h
    exact modEnt_work s i _
  | false =>
    by_cases tight : 1 < (s.lgc c).kvFmt ∨ (s.lgc c).free.length < 2
    · rw [pauseEnt_kept tight] at h
      cases h
      exact modEnt_work s i _
    · obtain ⟨u, encodes, rfl⟩ := pauseEnt_squeezes tight h
      exact encodes.work.tables c i _ fun _ => rfl

end

/-! ### PAUSE (R207) -/

section
variable {s : State} {c : CtxId} {q : QE} (head : s.seqHead c 4 = some q) (on : s.unitOn 3 = true)
  (inside : (s.lgc c.toNat).hasEnt (fld q.img 0x14 13 0) = true)
include head on inside

/-- An entry in a step, or between a draft and its check, pauses later (log 50). -/
theorem seqPause_pends (used : (s.ent (fld q.img 0x14 13 0)).state = 1 ∨ (s.ent (fld q.img 0x14 13 0)).state = 2
      ∨ (s.ent (fld q.img 0x14 13 0)).state = 3 ∨ (s.ent (fld q.img 0x14 13 0)).state = 4)
    (busy : (s.ent (fld q.img 0x14 13 0)).inStep = true ∨ (s.ent (fld q.img 0x14 13 0)).state = 3 ∨ (s.ent (fld q.img 0x14 13 0)).state = 4) :
    exec (.seqPause c) s = .next ((s.modEnt (fld q.img 0x14 13 0) fun e =>
      { e with pausePend := true, pauseExact := bit (fld q.img 0x18 31 0) 0 }).seqDone q 0 0) := by
  show execSeqPause c s = _
  unfold execSeqPause
  rw [seqEnt_inside head on _ inside]
  dsimp only
  rw [if_neg (by rcases used with e | e | e | e <;> rw [e] <;> decide), if_pos busy]

/-- A queued or ready entry is paused at once. -/
theorem seqPause_pauses {w : State} {kept : Bool} (idle : (s.ent (fld q.img 0x14 13 0)).inStep = false)
    (used : (s.ent (fld q.img 0x14 13 0)).state = 1 ∨ (s.ent (fld q.img 0x14 13 0)).state = 2)
    (pause : s.pauseEnt c.toNat (fld q.img 0x14 13 0) (bit (fld q.img 0x18 31 0) 0) = .done w kept) :
    exec (.seqPause c) s = .next (s.settle w q [fld q.img 0x14 13 0] (if kept then 2 else 0)
      ((w.lgc c.toNat).free.length - (s.lgc c.toNat).free.length)) := by
  show execSeqPause c s = _
  unfold execSeqPause
  rw [seqEnt_inside head on _ inside]
  dsimp only
  rw [if_neg (by rcases used with e | e <;> rw [e] <;> decide), if_neg (by rcases used with e | e <;> rw [e, idle] <;> decide), pause]

end

/-! ### RESUME (R208) -/

/-- The device once the compressed pages of entry `i` are expanded into the first pages of the free list. -/
def State.expanded (s : State) (c i : Nat) : State :=
  let e := s.ent i
  let x := s.lgc c
  let page (i : Nat) : Nat := s.poolPage c i
  let nd := (e.cold + 3) / 4
  (x.free.take e.cold).zipIdx.foldl (fun s' o =>
    let p := squeezed page (e.cpages.take nd) (e.cpages.drop nd) o.2
    s'.hbmWrite (65536 * page o.1) (expandPage s.hbm x.kvFmt p.1 p.2)) s

/-- And once the entry has those pages, and its compressed ones are free. -/
def State.repaged (s : State) (c i : Nat) : State :=
  ((s.expanded c i).modLgc c fun x => { x with free := x.free.drop (s.ent i).cold }.back (s.ent i).cpages).modEnt i fun e =>
    { e with state := 1, pages := (s.lgc c).free.take (s.ent i).cold ++ e.pages, cpages := [], cold := 0, compressed := false }

section
variable (s : State) (c i : Nat)

theorem expanded_only : NotesOnly { s with hbm := (s.expanded c i).hbm } (s.expanded c i) :=
  foldl_rel (R := HbmOnly) .refl .trans (fun s _ _ => hbmWrite_only s _ _) s

theorem expanded_ent (j : Nat) : (s.expanded c i).ent j = s.ent j := by unfold State.ent; rw [expanded_only]
theorem expanded_lgc (d : Nat) : (s.expanded c i).lgc d = s.lgc d := by unfold State.lgc; rw [expanded_only]

theorem repaged_work : LedgerWork s (s.repaged c i) := by
  have bytes : Encodes s (s.expanded c i) := by
    unfold Encodes
    have census : (s.expanded c i).census = s.census := by rw [expanded_only]
    rw [census]
    exact expanded_only s c i
  exact bytes.work.tables c i _ fun _ => rfl

theorem repaged_ent : (s.repaged c i).ent i = { s.ent i with
    state := 1, pages := (s.lgc c).free.take (s.ent i).cold ++ (s.ent i).pages, cpages := [], cold := 0, compressed := false } := by
  unfold State.repaged
  rw [State.modEnt_same]
  have ent : ((s.expanded c i).modLgc c fun x => { x with free := x.free.drop (s.ent i).cold }.back (s.ent i).cpages).ent i = s.ent i :=
    expanded_ent s c i i
  rw [ent]
theorem repaged_ent_ne : SameBut State.ent i s (s.repaged c i) := fun j other =>
  (State.modEnt_ne _ _ other).trans (expanded_ent s c i j)

theorem repaged_lgc_eq (d : Nat) : (s.repaged c i).lgc d =
    ((s.expanded c i).modLgc c fun x => { x with free := x.free.drop (s.ent i).cold }.back (s.ent i).cpages).lgc d := rfl

theorem repaged_lgc : (s.repaged c i).lgc c = { s.lgc c with
    free := (s.ent i).cpages.foldl (fun f p => p :: f) ((s.lgc c).free.drop (s.ent i).cold) } := by
  rw [repaged_lgc_eq, State.modLgc_same, expanded_lgc]
  rfl
theorem repaged_lgc_ne : SameBut State.lgc c s (s.repaged c i) := by
  intro j other
  rw [repaged_lgc_eq, State.modLgc_ne _ _ other, expanded_lgc]

theorem repaged_lgA : (s.repaged c i).lgA = s.lgA := by
  show (s.expanded c i).lgA = s.lgA
  rw [expanded_only]
theorem repaged_census : (s.repaged c i).census = s.census := by
  show (s.expanded c i).census = s.census
  rw [expanded_only]

/-- The pages whose links RESUME writes. -/
theorem repaged_linked : ∀ j ∈ s.linked (s.repaged c i) c [i], j ∈ (s.lgc c).free.take (s.ent i).cold ++ (s.ent i).pages ++ (s.ent i).cpages := by
  intro j mem
  rcases List.mem_append.1 mem with mem | mem
  · rw [List.map_singleton, repaged_ent, List.flatten_singleton, List.append_nil] at mem
    exact List.mem_append_left _ mem
  · obtain ⟨mem, new⟩ := mem_freed.1 mem
    rw [repaged_lgc] at mem
    exact List.mem_append_right _ ((mem_foldl_cons.1 mem).resolve_right fun kept => new (List.mem_of_mem_drop kept))

end

section
variable {s : State} {c : CtxId} {q : QE} (head : s.seqHead c 5 = some q) (on : s.unitOn 3 = true)
  (inside : (s.lgc c.toNat).hasEnt (fld q.img 0x14 13 0) = true) (paused : (s.ent (fld q.img 0x14 13 0)).state = 5)
include head on inside paused

theorem seqResume_exact (plain : (s.ent (fld q.img 0x14 13 0)).compressed = false) :
    exec (.seqResume c) s = .next ((s.modEnt (fld q.img 0x14 13 0) fun e => { e with state := 1 }).seqDone q 0 0) := by
  show execSeqResume c s = _
  unfold execSeqResume
  rw [seqEnt_inside head on _ inside]
  dsimp only
  rw [if_neg (not_not_intro paused), if_pos (by simp [plain])]

variable (small : (s.ent (fld q.img 0x14 13 0)).compressed = true)
include small

theorem seqResume_waits (short : (s.lgc c.toNat).free.length < (s.ent (fld q.img 0x14 13 0)).cold) :
    exec (.seqResume c) s = .next (s.seqDone q 3 0) := by
  show execSeqResume c s = _
  unfold execSeqResume
  rw [seqEnt_inside head on _ inside]
  dsimp only
  rw [if_neg (not_not_intro paused), if_neg (by simp [small]), if_pos short]

/-- Where every access is allowed and none waits, the pages are expanded. -/
theorem seqResume_expands (room : (s.ent (fld q.img 0x14 13 0)).cold ≤ (s.lgc c.toNat).free.length)
    (words : ∀ j ∈ (s.lgc c.toNat).free.take (s.ent (fld q.img 0x14 13 0)).cold ++ (s.ent (fld q.img 0x14 13 0)).cpages,
      s.hbmCheck c.toNat ((s.lgc c.toNat).word j) 4 false false = none ∧ s.hbmWait ((s.lgc c.toNat).word j) 4 = false)
    (reads : ∀ j ∈ (s.ent (fld q.img 0x14 13 0)).cpages,
      s.hbmCheck c.toNat (65536 * s.poolPage c.toNat j) 65536 false false = none ∧ s.hbmWait (65536 * s.poolPage c.toNat j) 65536 = false)
    (writes : ∀ j ∈ (s.lgc c.toNat).free.take (s.ent (fld q.img 0x14 13 0)).cold,
      s.hbmCheck c.toNat (65536 * s.poolPage c.toNat j) 65536 true false = none ∧ s.guarded (65536 * s.poolPage c.toNat j) 65536 = false) :
    exec (.seqResume c) s = .next (s.settle (s.repaged c.toNat (fld q.img 0x14 13 0)) q [fld q.img 0x14 13 0] 0 0) := by
  show execSeqResume c s = _
  unfold execSeqResume
  rw [seqEnt_inside head on _ inside]
  dsimp only
  rw [if_neg (not_not_intro paused), if_neg (by simp [small]), if_neg (Nat.not_lt.2 room)]
  generalize fld q.img 0x14 13 0 = i at *
  have allowed : s.poolFault c.toNat (((s.lgc c.toNat).free.take (s.ent i).cold ++ (s.ent i).cpages).map (s.lgc c.toNat).word)
      ((s.ent i).cpages.map (65536 * s.poolPage c.toNat ·))
      (((s.lgc c.toNat).free.take (s.ent i).cold).map (65536 * s.poolPage c.toNat ·)) = none := by
    have named : s.accessFault c.toNat ((((s.lgc c.toNat).free.take (s.ent i).cold ++ (s.ent i).cpages).map (s.lgc c.toNat).word).map
        fun a => (a, 4, false, false)) = none :=
      accessFault_none (List.forall_mem_map.2 (List.forall_mem_map.2 fun j mem => (words j mem).1))
    unfold State.poolFault
    rw [named]
    exact accessFault_none (List.forall_mem_append.2 ⟨List.forall_mem_map.2 (List.forall_mem_map.2 fun j mem => (reads j mem).1),
      List.forall_mem_map.2 (List.forall_mem_map.2 fun j mem => (writes j mem).1)⟩)
  rw [allowed]
  have open_ : ((s.lgc c.toNat).free.take (s.ent i).cold).any (fun i => s.guarded (65536 * s.poolPage c.toNat i) 65536) = false :=
    List.any_eq_false.2 fun j mem => by simp [(writes j mem).2]
  have ready : ((s.lgc c.toNat).free.take (s.ent i).cold ++ (s.ent i).cpages).any (fun i => s.hbmWait ((s.lgc c.toNat).word i) 4) = false :=
    List.any_eq_false.2 fun j mem => by simp [(words j mem).2]
  have read : (s.ent i).cpages.any (fun i => s.hbmWait (65536 * s.poolPage c.toNat i) 65536) = false :=
    List.any_eq_false.2 fun j mem => by simp [(reads j mem).2]
  dsimp only
  rw [open_, ready, read]
  rfl

end

end Sys2Proof.Machine
end

section
/-! SUPPORT. GATHER: the candidates in order, what taking one can do, and the manifest's rows (R202, R203; log 49). -/

namespace Sys2Proof.Machine

/-! ### The candidates (R202) -/

theorem rank_perm (s : State) (now : W32) (i : Nat) (l : List Nat) : (s.rank now i l).Perm (i :: l) := by
  induction l with
  | nil => exact .refl _
  | cons j l ih =>
    unfold State.rank
    split
    · exact .refl _
    · exact (ih.cons j).trans (.swap i j l)

theorem foldr_rank_perm (s : State) (now : W32) (l : List Nat) : (l.foldr (s.rank now) []).Perm l := by
  induction l with
  | nil => exact .refl _
  | cons i l ih => exact (rank_perm s now i _).trans (ih.cons i)

theorem eligible_nodup (s : State) (c : CtxId) (phase : Nat) : (s.eligible c phase).Nodup :=
  (List.nodup_range.map fun _ _ e => Nat.add_left_cancel e).filter _

/-- The candidates of a GATHER, of the context's variant, in the order in which they are looked at. -/
def State.candidates (s : State) (c : CtxId) (g : GOps) : List Nat :=
  ((s.eligible c g.phase).filter fun i => (s.ent i).variant = (s.lgc c.toNat).variant).foldr (s.rank g.now) []

theorem candidates_nodup (s : State) (c : CtxId) (g : GOps) : (s.candidates c g).Nodup :=
  (foldr_rank_perm s g.now _).nodup_iff.2 ((eligible_nodup s c g.phase).filter _)

theorem mem_candidates {s : State} {c : CtxId} {g : GOps} {i : Nat} :
    i ∈ s.candidates c g ↔ i ∈ s.eligible c g.phase ∧ (s.ent i).variant = (s.lgc c.toNat).variant := by
  unfold State.candidates
  rw [(foldr_rank_perm s g.now _).mem_iff, List.mem_filter, decide_eq_true_eq]

/-! ### What a selection may change -/

/-- From `s` to `t` entries of the table, the free list of context `c` and its counts change, no page joins the free list, and
alarms are raised. -/
def PickWork (c : Nat) (s t : State) : Prop :=
  AlarmOnly { s with lgE := t.lgE, lgC := t.lgC } t ∧ SameBut State.lgc c s t
    ∧ (t.lgc c = { s.lgc c with
        free := (t.lgc c).free, poolSkip := (t.lgc c).poolSkip, staleSkip := (t.lgc c).staleSkip, miss := (t.lgc c).miss })
    ∧ ∀ i ∈ (t.lgc c).free, i ∈ (s.lgc c).free

section
variable {c : Nat}

theorem PickWork.refl (s : State) : PickWork c s s := ⟨rfl, fun _ _ => rfl, rfl, fun _ h => h⟩

theorem PickWork.trans {s t u : State} (h : PickWork c s t) (k : PickWork c t u) : PickWork c s u := by
  obtain ⟨only, others, own, free⟩ := h
  obtain ⟨only', others', own', free'⟩ := k
  refine ⟨?_, fun j other => (others' j other).trans (others j other), ?_, fun i mem => free i (free' i mem)⟩
  · unfold AlarmOnly at *
    rw [only', only]
  · rw [own', own]

theorem AlarmOnly.pickWork {s t : State} (h : AlarmOnly s t) : PickWork c s t := by
  have lgc := h.lgc
  have lgE : t.lgE = s.lgE := by unfold AlarmOnly at h; rw [h]
  refine ⟨?_, fun j _ => lgc j, by rw [lgc], fun i mem => by rwa [lgc] at mem⟩
  rw [lgE, h.lgC]
  exact h

theorem modEnt_pickWork (s : State) (i : Nat) (f : Entry → Entry) : PickWork c s (s.modEnt i f) := ⟨rfl, fun _ _ => rfl, rfl, fun _ h => h⟩

theorem modLgc_pickWork (s : State) {f : LgCtx → LgCtx}
    (own : ∀ x, f x = { x with free := (f x).free, poolSkip := (f x).poolSkip, staleSkip := (f x).staleSkip, miss := (f x).miss })
    (free : ∀ x, ∀ i ∈ (f x).free, i ∈ x.free) : PickWork c s (s.modLgc c f) := by
  refine ⟨rfl, fun j other => State.modLgc_ne _ _ other, ?_, fun i mem => ?_⟩
  · rw [State.modLgc_same]
    exact own _
  · rw [State.modLgc_same] at mem
    exact free _ i mem

theorem PickWork.tpp {s t : State} (h : PickWork c s t) : (t.lgc c).tpp = (s.lgc c).tpp := by
  obtain ⟨-, -, own, -⟩ := h
  unfold LgCtx.tpp
  rw [own]
theorem PickWork.iLink {s t : State} (h : PickWork c s t) : (t.lgc c).iLink = (s.lgc c).iLink := by
  obtain ⟨-, -, own, -⟩ := h
  rw [own]

end

/-! ### Taking a candidate (R202, R203) -/

/-- The device once a candidate is skipped, the pool being short of pages. -/
def State.poolSkipped (s : State) (c : Nat) : State :=
  (s.modLgc c fun x => { x with poolSkip := satAdd x.poolSkip 1 }).alarm0 pgLedger 3 (some c)

/-- The pages that entry `i` is short of for a row of `n` tokens. -/
def State.shortOf (s : State) (c : Nat) (g : GOps) (i n : Nat) : Nat :=
  (s.ent i).reach g.phase n / (s.lgc c).tpp + 1 - (s.ent i).pages.length

/-- Entry `i` as the gather takes it for a row of `n` tokens. -/
def State.rowEntry (s : State) (c : Nat) (g : GOps) (i n : Nat) : Entry := (s.ent i).taken g ((s.lgc c).free.take (s.shortOf c g i n))

/-- The device once entry `i` is taken for a row of `n` tokens. -/
def State.rowTaken (s : State) (c : Nat) (g : GOps) (i n : Nat) : State :=
  let w := (s.modLgc c fun x => { x with free := x.free.drop (s.shortOf c g i n) }).modEnt i fun _ => s.rowEntry c g i n
  if (s.rowEntry c g i n).late && !(s.ent i).late then (w.modLgc c fun x => { x with miss := x.miss + 1 }).alarm0 pgLedger 2 (some c) else w

section
variable (s : State) (c : Nat)

theorem poolSkipped_work : PickWork c s (s.poolSkipped c) := by
  have counted : PickWork c s (s.modLgc c fun x => { x with poolSkip := satAdd x.poolSkip 1 }) :=
    modLgc_pickWork s (fun _ => rfl) fun _ _ h => h
  exact counted.trans (alarm0_only _ _ _ _).pickWork

theorem poolSkipped_ent (i : Nat) : (s.poolSkipped c).ent i = s.ent i := (alarm0_only _ _ _ _).ent i

variable (g : GOps) (i n : Nat)

theorem rowTaken_work : PickWork c s (s.rowTaken c g i n) := by
  have pages : PickWork c s (s.modLgc c fun x => { x with free := x.free.drop (s.shortOf c g i n) }) :=
    modLgc_pickWork s (fun _ => rfl) fun _ _ => List.mem_of_mem_drop
  have taken := pages.trans (modEnt_pickWork _ i fun _ => s.rowEntry c g i n)
  have missed (w : State) : PickWork c w (w.modLgc c fun x => { x with miss := x.miss + 1 }) :=
    modLgc_pickWork w (fun _ => rfl) fun _ _ h => h
  unfold State.rowTaken
  dsimp only
  split
  · exact taken.trans ((missed _).trans (alarm0_only _ _ _ _).pickWork)
  · exact taken

theorem rowTaken_ents (j : Nat) : (s.rowTaken c g i n).ent j
    = ((s.modLgc c fun x => { x with free := x.free.drop (s.shortOf c g i n) }).modEnt i fun _ => s.rowEntry c g i n).ent j := by
  unfold State.rowTaken
  dsimp only
  split
  · exact (alarm0_only _ _ _ _).ent j
  · rfl
theorem rowTaken_ent : (s.rowTaken c g i n).ent i = s.rowEntry c g i n := by rw [rowTaken_ents, State.modEnt_same]
theorem rowTaken_ent_ne {j : Nat} (other : j ≠ i) : (s.rowTaken c g i n).ent j = s.ent j := by
  rw [rowTaken_ents, State.modEnt_ne _ _ other]
  rfl

end

/-- A candidate is passed over, the pool's shortage perhaps noted, or it is taken for a row of `n` tokens. -/
theorem take_cases (p : Pick) (c : CtxId) (g : GOps) (i : Nat) :
    ((p.take c g i).rows = p.rows ∧ (p.take c g i).tokens = p.tokens
      ∧ ((p.take c g i).s = p.s ∨ (p.take c g i).s = p.s.poolSkipped c.toNat))
    ∨ ∃ n r, p.rows.length < g.rowMax ∧ 0 < n ∧ p.tokens + n ≤ g.budget
      ∧ p.s.shortOf c.toNat g i n ≤ (p.s.lgc c.toNat).free.length
      ∧ (p.take c g i).s = p.s.rowTaken c.toNat g i n ∧ (p.take c g i).tokens = p.tokens + n
      ∧ (p.take c g i).rows = p.rows ++ [r] ∧ r.1.entry = i ∧ r.1.count = n := by
  unfold Pick.take
  split
  · exact .inl ⟨rfl, rfl, .inl rfl⟩
  · split
    · exact .inl ⟨rfl, rfl, .inl rfl⟩
    · rename_i room
      dsimp only
      split
      · exact .inl ⟨rfl, rfl, .inl rfl⟩
      · rename_i fits
        split
        · exact .inl ⟨rfl, rfl, .inr rfl⟩
        · rename_i pages
          split
          · exact .inl ⟨rfl, rfl, .inl rfl⟩
          · exact .inr ⟨_, _, by omega, by omega, by omega, Nat.not_lt.1 pages, rfl, rfl, rfl, rfl, rfl⟩

/-! ### A selection as a whole (R202, R203) -/

/-- Row `r` of a manifest, between the state `s` before the gather and `t` after it. -/
def RowOf (s t : State) (c : Nat) (g : GOps) (r : MRow) : Prop :=
  0 < r.count ∧ (t.ent r.entry).inStep = true ∧ (t.ent r.entry).preState = (s.ent r.entry).state
    ∧ (s.ent r.entry).reach g.phase r.count / (s.lgc c).tpp < (t.ent r.entry).pages.length

/-- A selection that began at `s`, and what holds of it throughout. -/
structure Picked (s : State) (c : CtxId) (g : GOps) (p : Pick) : Prop where
  work : PickWork c.toNat s p.s
  rowMax : p.rows.length ≤ g.rowMax
  budget : p.tokens ≤ g.budget
  tokens : p.tokens = (p.rows.map fun r => r.1.count).sum
  row : ∀ r ∈ p.rows, RowOf s p.s c.toNat g r.1
  rest : ∀ i, (∀ r ∈ p.rows, r.1.entry ≠ i) → p.s.ent i = s.ent i

/-- An entry taken from the state it had before the gather makes a sound row. -/
theorem rowTaken_row {s u : State} {c : CtxId} {g : GOps} {i n : Nat} {r : MRow} (work : PickWork c.toNat s u) (same : u.ent i = s.ent i)
    (some_ : 0 < n) (pages : u.shortOf c.toNat g i n ≤ (u.lgc c.toNat).free.length) (entry : r.entry = i) (count : r.count = n) :
    RowOf s (u.rowTaken c.toNat g i n) c.toNat g r := by
  subst entry count
  unfold State.shortOf at pages
  refine ⟨some_, ?_, ?_, ?_⟩
  · rw [rowTaken_ent]; rfl
  · rw [rowTaken_ent, ← same]; rfl
  · rw [rowTaken_ent, ← work.tpp, ← same]
    show _ < ((u.ent r.entry).pages ++ (u.lgc c.toNat).free.take (u.shortOf c.toNat g r.entry r.count)).length
    rw [List.length_append, List.length_take]
    unfold State.shortOf
    omega

theorem Picked.take {s : State} {c : CtxId} {g : GOps} {p : Pick} (h : Picked s c g p) {i : Nat} (fresh : ∀ r ∈ p.rows, r.1.entry ≠ i) :
    Picked s c g (p.take c g i) ∧ ∀ r ∈ (p.take c g i).rows, r ∈ p.rows ∨ r.1.entry = i := by
  rcases take_cases p c g i with ⟨rows, tokens, states⟩ | ⟨n, r, room, some_, budget, pages, states, tokens, rows, entry, count⟩
  · have same : PickWork c.toNat p.s (p.take c g i).s ∧ ∀ j, (p.take c g i).s.ent j = p.s.ent j := by
      rcases states with e | e
      · rw [e]; exact ⟨.refl _, fun _ => rfl⟩
      · rw [e]; exact ⟨poolSkipped_work _ _, poolSkipped_ent _ _⟩
    obtain ⟨work, ents⟩ := same
    refine ⟨⟨h.work.trans work, by rw [rows]; exact h.rowMax, by rw [tokens]; exact h.budget, by rw [rows, tokens]; exact h.tokens, ?_, ?_⟩, ?_⟩
    · intro r mem
      rw [rows] at mem
      unfold RowOf
      rw [ents]
      exact h.row r mem
    · intro j other
      rw [rows] at other
      rw [ents, h.rest j other]
    · intro r mem
      rw [rows] at mem
      exact .inl mem
  · have same : p.s.ent i = s.ent i := h.rest i fresh
    have split_ : ∀ x ∈ (p.take c g i).rows, x ∈ p.rows ∨ x = r := by
      intro x mem
      rw [rows] at mem
      exact (List.mem_append.1 mem).imp_right List.eq_of_mem_singleton
    refine ⟨⟨?_, ?_, by rw [tokens]; exact budget, ?_, ?_, ?_⟩, ?_⟩
    · rw [states]; exact h.work.trans (rowTaken_work _ _ _ _ _)
    · rw [rows, List.length_append, List.length_singleton]; exact room
    · rw [tokens, rows, List.map_append, List.sum_append, ← h.tokens, List.map_singleton, List.sum_singleton, count]
    · intro x mem
      rw [states]
      rcases split_ x mem with mem | rfl
      · unfold RowOf
        rw [rowTaken_ent_ne _ _ _ _ _ (fresh x mem)]
        exact h.row x mem
      · exact rowTaken_row h.work same some_ pages entry count
    · intro j other
      rw [rows] at other
      rw [states, rowTaken_ent_ne _ _ _ _ _ fun e => other r (by simp) (entry.trans e.symm)]
      exact h.rest j fun x mem => other x (List.mem_append_left _ mem)
    · intro x mem
      rcases split_ x mem with mem | rfl
      · exact .inl mem
      · exact .inr entry

theorem Picked.foldl_take {s : State} {c : CtxId} {g : GOps} (l : List Nat) (apart : l.Nodup) {p : Pick} (h : Picked s c g p)
    (fresh : ∀ i ∈ l, ∀ r ∈ p.rows, r.1.entry ≠ i) :
    Picked s c g (l.foldl (fun p i => p.take c g i) p)
      ∧ ∀ r ∈ (l.foldl (fun p i => p.take c g i) p).rows, r ∈ p.rows ∨ r.1.entry ∈ l := by
  induction l generalizing p with
  | nil => exact ⟨h, fun r mem => .inl mem⟩
  | cons i l ih =>
    obtain ⟨away, apart⟩ := List.nodup_cons.1 apart
    obtain ⟨taken, rows⟩ := h.take (fresh i (List.mem_cons_self ..))
    obtain ⟨whole, all⟩ := ih apart taken fun j mem r row => by
      rcases rows r row with old | new
      · exact fresh j (List.mem_cons_of_mem _ mem) r old
      · exact fun e => away (new ▸ e ▸ mem)
    refine ⟨whole, fun r mem => ?_⟩
    rcases all r mem with mem | mem
    · rcases rows r mem with old | new
      · exact .inl old
      · exact .inr (List.mem_cons.2 (.inl new))
    · exact .inr (List.mem_cons_of_mem _ mem)

/-- The device once the eligible entries of another variant are counted. -/
def State.staleCounted (s : State) (c : CtxId) (g : GOps) : State :=
  s.modLgc c.toNat fun x => { x with staleSkip := satAdd x.staleSkip ((s.eligible c g.phase).length
    - ((s.eligible c g.phase).filter fun i => (s.ent i).variant = (s.lgc c.toNat).variant).length) }

theorem pick_eq (s : State) (c : CtxId) (g : GOps) : s.pick c g =
    (s.candidates c g).foldl (fun p i => p.take c g i) ⟨s.staleCounted c g, [], 0, 0, false, false, false⟩ := rfl

/-- What a GATHER takes: rows of candidates, within ROW_MAX and TOKEN_BUDGET, with their pages. -/
theorem pick_picked (s : State) (c : CtxId) (g : GOps) :
    Picked s c g (s.pick c g) ∧ ∀ r ∈ (s.pick c g).rows, r.1.entry ∈ s.candidates c g := by
  have counted : PickWork c.toNat s (s.staleCounted c g) := modLgc_pickWork s (fun _ => rfl) fun _ _ h => h
  have start : Picked s c g ⟨s.staleCounted c g, [], 0, 0, false, false, false⟩ :=
    ⟨counted, Nat.zero_le _, Nat.zero_le _, rfl, fun _ mem => absurd mem List.not_mem_nil, fun _ _ => rfl⟩
  obtain ⟨whole, all⟩ := start.foldl_take (s.candidates c g) (candidates_nodup s c g) (fun _ _ _ mem => absurd mem List.not_mem_nil)
  rw [pick_eq]
  exact ⟨whole, fun r mem => (all r mem).resolve_left List.not_mem_nil⟩

/-! ### GATHER (R199, R203, R287) -/

/-- The device once the manifest of a selection is outstanding and written. -/
def State.gathered (s : State) (c : CtxId) (g : GOps) : State :=
  ((s.pick c g).s.modLgc c.toNat fun x => { x with
    manifests := SMap.set none x.manifests g.man (some { phase := BitVec.ofNat 2 g.phase, rows := (s.pick c g).rows.map Prod.fst }) }).hbmWrite
      g.addr ((s.pick c g).manifest c g)

/-- A selection with its alarms, then bytes of HBM and its command's end. -/
theorem alarms_split {s p u t : State} (alarms : AlarmOnly { s with lgE := p.lgE, lgC := p.lgC } p)
    (wrote : NotesOnly { p with lgC := u.lgC, hbm := u.hbm, free := u.free } u) (done : t = { u with sched := t.sched, ctxs := t.ctxs }) :
    ∃ v, NotesOnly { s with lgE := t.lgE, lgC := t.lgC, hbm := t.hbm, ctxs := t.ctxs, sched := t.sched, free := t.free } v ∧ AlarmOnly v t := by
  refine ⟨{ s with
    lgE := t.lgE, lgC := t.lgC, hbm := t.hbm, ctxs := t.ctxs, sched := t.sched, free := t.free, sgC := t.sgC
    sg := { s.sg with ueAt := t.sg.ueAt, adds := t.sg.adds } }, rfl, ?_⟩
  unfold NotesOnly AlarmOnly at *
  rw [done, wrote]
  conv_lhs => rw [alarms]

theorem modLgc_hbmWrite_only (s : State) (c : Nat) (f : LgCtx → LgCtx) (a : Nat) (bs : List Byte) :
    NotesOnly { s with lgC := ((s.modLgc c f).hbmWrite a bs).lgC, hbm := ((s.modLgc c f).hbmWrite a bs).hbm } ((s.modLgc c f).hbmWrite a bs) := rfl

/-- What a selection, its manifest and its links leave alone. -/
theorem alarms_keep {s p u : State} (alarms : AlarmOnly { s with lgE := p.lgE, lgC := p.lgC } p)
    (wrote : NotesOnly { p with lgC := u.lgC, hbm := u.hbm, free := u.free } u) : u.lgA = s.lgA ∧ u.ctxs = s.ctxs ∧ u.sched = s.sched := by
  rw [wrote, alarms]
  exact ⟨rfl, rfl, rfl⟩

/-- Links written after the manifest. -/
theorem NotesOnly.then_links {c : Nat} {l : List Nat} {p w u : State} (wrote : NotesOnly { p with lgC := w.lgC, hbm := w.hbm } w)
    (links : LinksWritten c l w u) : NotesOnly { p with lgC := u.lgC, hbm := u.hbm, free := u.free } u := by
  rw [links.lgC]
  obtain ⟨links, -⟩ := links
  unfold NotesOnly at *
  conv_lhs => rw [links, wrote]

section
variable {s : State} {c : CtxId} {q : QE} (head : s.seqHead c 2 = some q) (on : s.unitOn 3 = true)
include head on

theorem seqGather_outstanding (out : ((s.lgc c.toNat).man (gOps q.img).man).isSome = true) :
    exec (.seqGather c) s = .next (s.faultCmd q 0x0304) := by
  show execSeqGather c s = _
  unfold execSeqGather
  rw [seqRun_enabled head on]
  dsimp only
  rw [if_pos out]

/-- Where every access is allowed, none waits and no alarm faults the context, the command completes. -/
theorem seqGather_gathers (free : (s.lgc c.toNat).man (gOps q.img).man = none)
    (addr : s.hbmCheck c.toNat (gOps q.img).addr ((s.pick c (gOps q.img)).manifest c (gOps q.img)).length true false = none)
    (open_ : s.guarded (gOps q.img).addr ((s.pick c (gOps q.img)).manifest c (gOps q.img)).length = false)
    (words : ∀ i ∈ (s.pick c (gOps q.img)).named,
      s.hbmCheck c.toNat ((s.lgc c.toNat).word i) 4 false false = none ∧ s.hbmWait ((s.lgc c.toNat).word i) 4 = false)
    (links : s.settleStop (s.gathered c (gOps q.img)) q ((s.pick c (gOps q.img)).rows.map fun r => r.1.entry) = none)
    (late : s.action pgLedger 2 ≠ 2) (skip : s.action pgLedger 3 ≠ 2) :
    exec (.seqGather c) s = .next (s.settled (s.gathered c (gOps q.img)) q ((s.pick c (gOps q.img)).rows.map fun r => r.1.entry) 0
      ((s.pick c (gOps q.img)).rows.length + (s.pick c (gOps q.img)).tokens * 2 ^ 16)) := by
  show execSeqGather c s = _
  unfold execSeqGather
  rw [seqRun_enabled head on]
  generalize gOps q.img = g at *
  dsimp only
  rw [if_neg (by simp [free])]
  have allowed : s.accessFault c.toNat ((g.addr, ((s.pick c g).manifest c g).length, true, false)
      :: (s.pick c g).named.map fun i => ((s.lgc c.toNat).word i, 4, false, false)) = none := by
    exact accessFault_none (List.forall_mem_cons.2 ⟨addr, List.forall_mem_map.2 fun i mem => (words i mem).1⟩)
  rw [allowed]
  have ready : (s.pick c g).named.any (fun i => s.hbmWait ((s.lgc c.toNat).word i) 4) = false :=
    List.any_eq_false.2 fun i mem => by simp [(words i mem).2]
  dsimp only
  rw [open_, ready, if_neg (by simp)]
  unfold State.gathered at links
  rw [links]
  have quiet : ¬(((s.pick c g).late && s.action pgLedger 2 == 2 || (s.pick c g).skip && s.action pgLedger 3 == 2) = true) := by
    simp [late, skip]
  dsimp only
  rw [if_neg quiet]
  rfl

end

section
variable (s : State) (c : CtxId) (g : GOps)

/-- The pages of the entries that a GATHER takes, as they then are. -/
def State.gatheredPages : List Nat :=
  ((s.pick c g).rows.map fun r => ((s.pick c g).s.ent r.1.entry).pages ++ ((s.pick c g).s.ent r.1.entry).cpages).flatten

theorem gathered_only : NotesOnly { (s.pick c g).s with lgC := (s.gathered c g).lgC, hbm := (s.gathered c g).hbm } (s.gathered c g) := by
  unfold State.gathered
  exact modLgc_hbmWrite_only _ _ _ _ _

theorem gathered_lgE : (s.gathered c g).lgE = (s.pick c g).s.lgE := by rw [gathered_only]

theorem gathered_ent (i : Nat) : (s.gathered c g).ent i = (s.pick c g).s.ent i := by
  unfold State.ent
  rw [gathered_lgE]

theorem gathered_lgc_eq (j : Nat) : (s.gathered c g).lgc j = ((s.pick c g).s.modLgc c.toNat fun x => { x with
    manifests := SMap.set none x.manifests g.man (some { phase := BitVec.ofNat 2 g.phase, rows := (s.pick c g).rows.map Prod.fst }) }).lgc j := rfl

theorem gathered_man : ((s.gathered c g).lgc c.toNat).man g.man
    = some { phase := BitVec.ofNat 2 g.phase, rows := (s.pick c g).rows.map Prod.fst } := by
  rw [gathered_lgc_eq, State.modLgc_same]
  exact SMap.get_set_same _ _ _

theorem gathered_free : ((s.gathered c g).lgc c.toNat).free = ((s.pick c g).s.lgc c.toNat).free := by
  rw [gathered_lgc_eq, State.modLgc_same]

theorem gathered_iLink : ((s.gathered c g).lgc c.toNat).iLink = (s.lgc c.toNat).iLink := by
  rw [gathered_lgc_eq, State.modLgc_same]
  exact (pick_picked s c g).1.work.iLink

theorem gathered_link (i : Nat) : ((s.gathered c g).lgc c.toNat).link i = (s.lgc c.toNat).link i := by
  unfold LgCtx.link
  rw [gathered_iLink]

theorem gathered_lgc_ne : SameBut State.lgc c.toNat s (s.gathered c g) := by
  intro j other
  obtain ⟨-, others, -, -⟩ := (pick_picked s c g).1.work
  rw [gathered_lgc_eq, State.modLgc_ne _ _ other]
  exact others j other

/-- No page has come back to the free list; the links written are those of the entries taken. -/
theorem gathered_linked : s.linked (s.gathered c g) c.toNat ((s.pick c g).rows.map fun r => r.1.entry) = s.gatheredPages c g := by
  obtain ⟨-, -, -, free⟩ := (pick_picked s c g).1.work
  unfold State.linked State.gatheredPages
  rw [freed_eq_nil (by rw [gathered_free]; exact free), List.append_nil, List.map_map]
  simp only [Function.comp_def, gathered_ent]

end

/-- What a GATHER that completes leaves (R202, R203). -/
theorem gathered_leaves {s : State} {c : CtxId} {q : QE} (head : s.seqHead c 2 = some q) (g : GOps) (detail : Nat) :
    let x := s.lgc c.toNat
    let p := s.pick c g
    let bs := p.manifest c g
    let t := s.settled (s.gathered c g) q (p.rows.map fun r => r.1.entry) 0 detail
    (t.lgc c.toNat).man g.man = some { phase := BitVec.ofNat 2 g.phase, rows := p.rows.map Prod.fst }
      ∧ t.lgE = p.s.lgE ∧ t.lgA = s.lgA ∧ (t.lgc c.toNat).free = (p.s.lgc c.toNat).free ∧ SameBut State.lgc c.toNat s t
      ∧ ((∀ i ∈ s.gatheredPages c g, x.link i + 8 ≤ g.addr ∨ g.addr + bs.length ≤ x.link i) → t.hbm.readBytes g.addr bs.length = bs)
      ∧ SeqDone s t q 0
      ∧ ∃ u, NotesOnly { s with lgE := t.lgE, lgC := t.lgC, hbm := t.hbm, ctxs := t.ctxs, sched := t.sched, free := t.free } u
        ∧ AlarmOnly u t := by
  have ctx := seqHead_ctx head
  subst ctx
  intro x p bs t
  obtain ⟨alarms, -, -, -⟩ := (pick_picked s q.ctx g).1.work
  have wrote : LinksWritten q.ctx.toNat (s.gatheredPages q.ctx g) (s.gathered q.ctx g)
      (s.relinked (s.gathered q.ctx g) q.ctx.toNat (p.rows.map fun r => r.1.entry)) := by
    rw [← gathered_linked]
    exact relinked_writes _ _ _ _
  have ends : t = (s.relinked (s.gathered q.ctx g) q.ctx.toNat (p.rows.map fun r => r.1.entry)).seqDone q 0 detail := settled_eq _ _ _ _ _ _
  generalize s.relinked (s.gathered q.ctx g) q.ctx.toNat (p.rows.map fun r => r.1.entry) = u at *
  have lgc (j : Nat) : t.lgc j = (s.gathered q.ctx g).lgc j := by rw [ends, seqDone_lgc, wrote.lgc]
  have only := (gathered_only s q.ctx g).then_links wrote
  obtain ⟨lgA, ctxs, sched⟩ := alarms_keep alarms only
  refine ⟨?man, ?ents, ?adps, ?free, ?others, ?bytes, ?done, ?frame⟩
  case man => rw [lgc]; exact gathered_man s q.ctx g
  case ents => rw [ends, seqDone_lgE, wrote.lgE, gathered_lgE]
  case adps => rw [ends, seqDone_lgA, lgA]
  case free => rw [lgc]; exact gathered_free s q.ctx g
  case others => exact fun j other => (lgc j).trans (gathered_lgc_ne s q.ctx g j other)
  case bytes =>
    intro apart
    have before : (s.gathered q.ctx g).hbm.readBytes g.addr bs.length = bs := hbmWrite_reads _ _ _
    have kept : u.hbm.readBytes g.addr bs.length = (s.gathered q.ctx g).hbm.readBytes g.addr bs.length := by
      refine Mem.readBytes_congr fun b low high => wrote.2 b fun i mem => ?_
      have away : (s.lgc q.ctx.toNat).link i + 8 ≤ g.addr ∨ g.addr + bs.length ≤ (s.lgc q.ctx.toNat).link i := apart i mem
      rw [gathered_link]
      omega
    rw [ends, seqDone_hbm, kept, before]
  case done => rw [ends]; exact seqDone_done q 0 detail ctxs sched
  case frame => exact alarms_split alarms only (by rw [ends]; exact seqDone_only _ _ _ _)

end Sys2Proof.Machine
end

section
/-! SUPPORT. COMMIT: a row's effect on its entry, the rows in turn, and what they leave (R201, R204, R205; log 50). -/

namespace Sys2Proof.Machine

/-! ### A row's effect on its entry (Table LG.6) -/

section
variable {e : Entry} {phase : Nat} {r : MRow} {v : Result}

/-- A row changes no page list and no pending flag. -/
theorem Entry.apply_keeps (e : Entry) (phase : Nat) (r : MRow) (v : Result) : (e.apply phase r v).pages = e.pages
    ∧ (e.apply phase r v).cpages = e.cpages ∧ (e.apply phase r v).freePend = e.freePend ∧ (e.apply phase r v).pausePend = e.pausePend := by
  unfold Entry.apply
  dsimp only
  split_ifs <;> exact ⟨rfl, rfl, rfl, rfl⟩

theorem Entry.apply_drop (drop : v.drop = true) :
    e.apply phase r v = { e with inStep := false, state := if phase = 1 then 2 else e.state } := by
  unfold Entry.apply
  rw [if_pos drop]

variable (keep : v.drop = false)
include keep

theorem Entry.apply_prompt (prompt : r.prompt = true) (below : e.length + r.count < e.maxLen) : e.apply 0 r v =
    { e with inStep := false, length := e.length + r.count, promptLeft := e.promptLeft - r.count
             nextToken := if e.promptLeft - r.count = 0 then v.token else e.nextToken } := by
  simp [Entry.apply, keep, prompt, Nat.not_le.2 below]

theorem Entry.apply_token (prompt : r.prompt = false) (below : e.length + 1 < e.maxLen) : e.apply 0 r v =
    { e with inStep := false, length := e.length + 1, nextToken := v.token, state := if v.done = true then 6 else e.state } := by
  simp [Entry.apply, keep, prompt, Nat.not_le.2 below]

theorem Entry.apply_draft (below : e.length < e.maxLen) : e.apply 1 r v =
    { e with inStep := false, drafted := v.n, state := if 0 < v.n then 4 else 2 } := by
  simp [Entry.apply, keep, Nat.not_le.2 below]

theorem Entry.apply_check (below : e.length + 1 + v.n < e.maxLen) : e.apply 2 r v =
    { e with inStep := false, length := e.length + 1 + v.n, nextToken := v.token, drafted := 0, state := if v.done = true then 6 else 2 } := by
  simp [Entry.apply, keep, Nat.not_le.2 below]

/-- A row that reaches MAX_LEN truncates its entry, which is DONE. -/
theorem Entry.apply_truncates (reached : (phase = 0 ∧ r.prompt = true ∧ e.maxLen ≤ e.length + r.count)
      ∨ (phase = 0 ∧ r.prompt = false ∧ e.maxLen ≤ e.length + 1) ∨ (phase = 2 ∧ e.maxLen ≤ e.length + 1 + v.n)) :
    (e.apply phase r v).length = e.maxLen ∧ (e.apply phase r v).trunc = true ∧ (e.apply phase r v).state = 6
      ∧ (e.apply phase r v).inStep = false := by
  rcases reached with ⟨rfl, prompt, reached⟩ | ⟨rfl, prompt, reached⟩ | ⟨rfl, reached⟩
  · simp [Entry.apply, keep, prompt, reached]
  · simp [Entry.apply, keep, prompt, reached]
  · simp [Entry.apply, keep, reached]

end

/-! ### The rows in turn (R204, R205) -/

/-- The state that a pause or a pending operation ends in goes on to the next. -/
def Pausing.andThen (p : Pausing) (f : State → Pausing) : Pausing :=
  match p with
  | .fault e => .fault e
  | .wait => .wait
  | .done s _ => f s

theorem Pausing.andThen_done {p : Pausing} {f : State → Pausing} {t : State} {b : Bool} (h : p.andThen f = .done t b) :
    ∃ u k, p = .done u k ∧ f u = .done t b := by
  cases p with
  | fault e => cases h
  | wait => cases h
  | done u k => exact ⟨u, k, rfl, h⟩

theorem pendRows_eq (c : Nat) (rs : List MRow) (s : State) :
    pendRows c rs s = rs.foldl (fun p r => p.andThen fun s => s.pendRow c r) (.done s false) := by
  unfold pendRows
  exact congrArg (fun f : Pausing → MRow → Pausing => rs.foldl f (Pausing.done s false)) (funext fun p => funext fun r => by cases p <;> rfl)

section
variable {s t : State} {c : Nat} {b : Bool}

theorem applyRow_work (s : State) (phase : Nat) (r : MRow) (v : Result) : LedgerWork s (s.applyRow phase r v) := by
  unfold State.applyRow
  dsimp only
  split
  · exact (modEnt_work s _ _).trans (unrefEnt_work _ _)
  · exact modEnt_work s _ _

theorem trimRow_work (s : State) (c : Nat) (r : MRow) : LedgerWork s (s.trimRow c r) := (LedgerWork.refl s).tables c r.entry _ fun _ => rfl

theorem pendRow_work {r : MRow} (h : s.pendRow c r = .done t b) : LedgerWork s t := by
  unfold State.pendRow at h
  dsimp only at h
  split at h
  · cases h
    exact freeEnt_work s c r.entry
  · split at h
    · exact pauseEnt_work h
    · cases h
      exact .refl s

/-- Rows that end in a state all began in one, and each worked on the tables. -/
theorem foldl_pendRow_work {rs : List MRow} {p : Pausing}
    (h : rs.foldl (fun p r => p.andThen fun s => s.pendRow c r) p = .done t b) : ∃ u k, p = .done u k ∧ LedgerWork u t := by
  induction rs generalizing p with
  | nil => exact ⟨t, b, h, .refl t⟩
  | cons r rs ih =>
    obtain ⟨w, k, step, rest⟩ := ih h
    obtain ⟨u, k, before, row⟩ := Pausing.andThen_done step
    exact ⟨u, k, before, (pendRow_work row).trans rest⟩

theorem pendRows_work {rs : List MRow} (h : pendRows c rs s = .done t b) : LedgerWork s t := by
  rw [pendRows_eq] at h
  obtain ⟨u, k, same, work⟩ := foldl_pendRow_work h
  cases same
  exact work

/-- A COMMIT's work on the tables. -/
theorem committed_work {m : Manifest} {a : Nat} (h : s.committed c m a = .done t b) : LedgerWork s t := by
  unfold State.committed at h
  have applied : LedgerWork s ((m.results s.hbm a).foldl (fun s r => s.applyRow m.phase.toNat r.1 r.2) s) :=
    foldl_rel .refl .trans (fun s r _ => applyRow_work s _ _ _) s
  exact applied.trans ((foldl_rel .refl .trans (fun s r _ => trimRow_work s c r) _).trans (pendRows_work h))

end

/-! ### One row (R201, R204) -/

section
variable (s : State) (phase : Nat) (r : MRow) (v : Result)

theorem applyRow_only : s.applyRow phase r v = { s with
    lgE := (s.modEnt r.entry fun _ => (s.ent r.entry).apply phase r v).lgE, lgA := (s.applyRow phase r v).lgA } := by
  unfold State.applyRow
  dsimp only
  split
  · rw [unrefEnt_only]
    rfl
  · rfl

theorem applyRow_adp : if ((s.ent r.entry).apply phase r v).state = 6 ∧ (s.ent r.entry).holds = true then
      (s.applyRow phase r v).adp (s.ent r.entry).slot.toNat = (s.adp (s.ent r.entry).slot.toNat).release (s.ent r.entry).version
    else (s.applyRow phase r v).lgA = s.lgA := by
  have given := unrefEnt_releases (s.modEnt r.entry fun _ => (s.ent r.entry).apply phase r v) (s.ent r.entry)
  unfold State.applyRow
  dsimp only
  by_cases done : ((s.ent r.entry).apply phase r v).state = 6
  · rw [if_pos done]
    by_cases holds : (s.ent r.entry).holds = true
    · rw [if_pos ⟨done, holds⟩]
      rw [if_pos holds] at given
      exact given.1
    · rw [if_neg fun both => holds both.2]
      rw [if_neg holds] at given
      exact given
  · rw [if_neg done, if_neg fun both => done both.1]
    rfl

/-- The device once one row is applied and the pages beyond are back on the free list. -/
def State.rowApplied (c : Nat) : State := (s.applyRow phase r v).trimRow c r

variable (c : Nat)

theorem applyRow_ent (j : Nat) : (s.applyRow phase r v).ent j = (s.modEnt r.entry fun _ => (s.ent r.entry).apply phase r v).ent j := by
  unfold State.ent
  rw [applyRow_only]
  rfl
theorem applyRow_lgc (j : Nat) : (s.applyRow phase r v).lgc j = s.lgc j := by
  unfold State.lgc
  rw [applyRow_only]

theorem rowApplied_ent : (s.rowApplied phase r v c).ent r.entry = { (s.ent r.entry).apply phase r v with
    pages := (s.ent r.entry).pages.take (((s.ent r.entry).apply phase r v).keep (s.lgc c).tpp) } := by
  obtain ⟨pages, -, -, -⟩ := (s.ent r.entry).apply_keeps phase r v
  have own : (s.applyRow phase r v).ent r.entry = (s.ent r.entry).apply phase r v := by rw [applyRow_ent, State.modEnt_same]
  unfold State.rowApplied State.trimRow
  rw [State.modEnt_same, applyRow_lgc]
  have kept (f : LgCtx → LgCtx) : ((s.applyRow phase r v).modLgc c f).ent r.entry = (s.applyRow phase r v).ent r.entry := rfl
  rw [kept, own, pages]

theorem rowApplied_ent_ne : SameBut State.ent r.entry s (s.rowApplied phase r v c) := by
  intro j other
  have same : (s.rowApplied phase r v c).ent j = (s.applyRow phase r v).ent j := State.modEnt_ne _ _ other
  rw [same, applyRow_ent, State.modEnt_ne _ _ other]

theorem rowApplied_lgc_eq (j : Nat) : (s.rowApplied phase r v c).lgc j = ((s.applyRow phase r v).modLgc c fun x =>
    x.back (((s.applyRow phase r v).ent r.entry).pages.drop (((s.applyRow phase r v).ent r.entry).keep ((s.applyRow phase r v).lgc c).tpp))).lgc j := rfl

theorem rowApplied_free : ((s.rowApplied phase r v c).lgc c).free =
    ((s.ent r.entry).pages.drop (((s.ent r.entry).apply phase r v).keep (s.lgc c).tpp)).foldl (fun f p => p :: f) (s.lgc c).free := by
  obtain ⟨pages, -, -, -⟩ := (s.ent r.entry).apply_keeps phase r v
  rw [rowApplied_lgc_eq, State.modLgc_same, applyRow_lgc, applyRow_ent, State.modEnt_same, pages]
  rfl

theorem rowApplied_lgA : (s.rowApplied phase r v c).lgA = (s.applyRow phase r v).lgA := rfl

theorem rowApplied_bytes : (s.rowApplied phase r v c).hbm = s.hbm ∧ (s.rowApplied phase r v c).census = s.census := by
  have hbm : (s.rowApplied phase r v c).hbm = (s.applyRow phase r v).hbm := rfl
  have census : (s.rowApplied phase r v c).census = (s.applyRow phase r v).census := rfl
  rw [hbm, census, applyRow_only]
  exact ⟨rfl, rfl⟩

end

/-- A COMMIT of one row whose entry has no pending operation. -/
theorem committed_one {s : State} {c a : Nat} {m : Manifest} {r : MRow} (one : m.rows = [r]) (free : (s.ent r.entry).freePend = false)
    (pause : (s.ent r.entry).pausePend = false) :
    s.committed c m a = .done (s.rowApplied m.phase.toNat r (resultAt s.hbm a) c) false := by
  have run : s.committed c m a = (s.rowApplied m.phase.toNat r (resultAt s.hbm a) c).pendRow c r := by
    unfold State.committed Manifest.results
    rw [one, pendRows_eq]
    simp only [List.zipIdx_cons, List.zipIdx_nil, List.map_cons, List.map_nil, List.foldl_cons, List.foldl_nil, Nat.mul_zero, Nat.add_zero]
    rfl
  obtain ⟨-, -, freePend, pausePend⟩ := (s.ent r.entry).apply_keeps m.phase.toNat r (resultAt s.hbm a)
  have ent := rowApplied_ent s m.phase.toNat r (resultAt s.hbm a) c
  rw [run]
  generalize s.rowApplied m.phase.toNat r (resultAt s.hbm a) c = w at *
  have flags : (w.ent r.entry).freePend = false ∧ (w.ent r.entry).pausePend = false := by
    rw [ent]
    exact ⟨freePend.trans free, pausePend.trans pause⟩
  unfold State.pendRow
  simp [flags]

/-! ### COMMIT (R204) -/

/-- The device once manifest `m` is outstanding no more. -/
def State.manClosed (s : State) (c m : Nat) : State := s.modLgc c fun x => { x with manifests := SMap.set none x.manifests m none }

theorem manClosed_lgc (s : State) (c m : Nat) : ((s.manClosed c m).lgc c).man m = none ∧ ((s.manClosed c m).lgc c).free = (s.lgc c).free := by
  unfold State.manClosed
  rw [State.modLgc_same]
  exact ⟨SMap.get_set_same _ _ _, rfl⟩

section
variable (s : State) (c m : Nat)

theorem manClosed_lgA : (s.manClosed c m).lgA = s.lgA := rfl
theorem manClosed_hbm : (s.manClosed c m).hbm = s.hbm := rfl
theorem manClosed_census : (s.manClosed c m).census = s.census := rfl
theorem manClosed_ent (i : Nat) : (s.manClosed c m).ent i = s.ent i := rfl

end

theorem manClosed_work {s w : State} (h : LedgerWork s w) (c m : Nat) : LedgerWork s (w.manClosed c m) := h.trans (modLgc_work w c fun _ => rfl)

/-- The end of a manifest writes the links that its work has left to write. -/
theorem manClosed_linked (s w : State) (c m : Nat) (rs : List MRow) : s.linked (w.manClosed c m) c (rs.map (·.entry)) =
    (rs.map fun r => (w.ent r.entry).pages ++ (w.ent r.entry).cpages).flatten ++ s.freed w c := by
  unfold State.linked State.freed
  rw [(manClosed_lgc w c m).2, List.map_map]
  rfl

section
variable {s : State} {c : CtxId} {q : QE} (head : s.seqHead c 3 = some q) (on : s.unitOn 3 = true)
include head on

theorem seqCommit_unknown (free : (s.lgc c.toNat).man (fld q.img 0x14 1 0) = none) : exec (.seqCommit c) s = .next (s.faultCmd q 0x0304) := by
  show execSeqCommit c s = _
  unfold execSeqCommit
  rw [seqRun_enabled head on]
  dsimp only
  rw [free]

variable {man : Manifest} (found : (s.lgc c.toNat).man (fld q.img 0x14 1 0) = some man)
  (vector : s.hbmCheck c.toNat (fld q.img 0x18 63 0) (8 * man.rows.length) false false = none)
  (ready : s.hbmWait (fld q.img 0x18 63 0) (8 * man.rows.length) = false)
include found vector ready

theorem seqCommit_refuses (bad : (man.results s.hbm (fld q.img 0x18 63 0)).any (s.badResult man.phase.toNat) = true) :
    exec (.seqCommit c) s = .next (s.faultCmd q 0x0305) := by
  have allowed : s.accessFault c.toNat [(fld q.img 0x18 63 0, 8 * man.rows.length, false, false)] = none :=
    accessFault_none (List.forall_mem_singleton.2 vector)
  show execSeqCommit c s = _
  unfold execSeqCommit
  rw [seqRun_enabled head on]
  dsimp only
  rw [found]
  dsimp only
  rw [allowed]
  dsimp only
  rw [ready, if_neg Bool.false_ne_true, if_pos bad]

theorem seqCommit_commits {w : State} {b : Bool} (sound : (man.results s.hbm (fld q.img 0x18 63 0)).any (s.badResult man.phase.toNat) = false)
    (work : s.committed c.toNat man (fld q.img 0x18 63 0) = .done w b) :
    exec (.seqCommit c) s = .next (s.settle (w.manClosed c.toNat (fld q.img 0x14 1 0)) q (man.rows.map (·.entry)) 0 man.rows.length) := by
  have allowed : s.accessFault c.toNat [(fld q.img 0x18 63 0, 8 * man.rows.length, false, false)] = none :=
    accessFault_none (List.forall_mem_singleton.2 vector)
  show execSeqCommit c s = _
  unfold execSeqCommit
  rw [seqRun_enabled head on]
  dsimp only
  rw [found]
  dsimp only
  rw [allowed]
  dsimp only
  rw [ready, if_neg Bool.false_ne_true, sound, if_neg Bool.false_ne_true, work]
  rfl

end

end Sys2Proof.Machine
end

section
/-! SUPPORT. ADAPTER_LOAD and VARIANT_LOAD (R210, R211; logs 81, 82). -/

namespace Sys2Proof.Machine

/-! ### ADAPTER_LOAD (R210; log 81) -/

section
variable {s : State} {c : CtxId} {q : QE} (head : s.seqHead c 8 = some q) (on : s.unitOn 3 = true)
include head on

theorem seqAdapterLoad_refused (bad : ¬((s.lgc c.toNat).hasAdp (fld q.img 0x14 8 0) = true
      ∧ ¬(fld q.img 0x18 7 0 = 0 ∧ w64 q.img 0x20 ≠ 0) ∧ fld q.img 0x18 7 0 ≤ 128)) :
    exec (.seqAdapterLoad c) s = .next (s.faultCmd q 0x0306) := by
  have bad : (!(s.lgc c.toNat).hasAdp (fld q.img 0x14 8 0) || (fld q.img 0x18 7 0 == 0 && w64 q.img 0x20 != 0)
      || decide (128 < fld q.img 0x18 7 0)) = true := by
    by_contra sound
    simp at sound
    exact bad (by simpa [and_assoc] using sound)
  show execSeqAdapterLoad c s = _
  unfold execSeqAdapterLoad
  rw [seqRun_enabled head on]
  dsimp only
  rw [if_pos bad]

variable (sound : (s.lgc c.toNat).hasAdp (fld q.img 0x14 8 0) = true
  ∧ ¬(fld q.img 0x18 7 0 = 0 ∧ w64 q.img 0x20 ≠ 0) ∧ fld q.img 0x18 7 0 ≤ 128)
include sound

/-- A slot of the context, with a rank that its address fits. -/
theorem seqAdapterLoad_sound : exec (.seqAdapterLoad c) s = .next (if (s.adp (fld q.img 0x14 8 0)).old.refs ≠ 0 then s.seqDone q 1 0
    else (s.modAdp (fld q.img 0x14 8 0) fun x => x.load (fld q.img 0x18 7 0) (w64 q.img 0x20)).seqDone q 0 0) := by
  obtain ⟨has, fits, rank⟩ := sound
  have good : (!(s.lgc c.toNat).hasAdp (fld q.img 0x14 8 0) || (fld q.img 0x18 7 0 == 0 && w64 q.img 0x20 != 0)
      || decide (128 < fld q.img 0x18 7 0)) = false := by
    simp [has, Nat.not_lt.2 rank]
    simpa using fits
  show execSeqAdapterLoad c s = _
  unfold execSeqAdapterLoad
  rw [seqRun_enabled head on]
  dsimp only
  rw [good, if_neg Bool.false_ne_true]

end

/-! ### VARIANT_LOAD (R211; log 82) -/

/-- The device as a VARIANT_LOAD finds it: the host's stores come first, unless the source is in flash. -/
def State.variantSeen (s : State) (q : QE) (h : HostStores) : State := if bit (fld q.img 0x14 31 0) 8 = true then s else s.hostStores h

/-- The bytes of the source. -/
def State.variantBytes (s : State) (q : QE) (h : HostStores) : List Byte :=
  if bit (fld q.img 0x14 31 0) 8 = true then (Mem.stores [] h).readBytes 0 (fld q.img 0x30 31 0 * 4096)
  else (s.variantSeen q h).host.readBytes (fld q.img 0x18 63 0) (fld q.img 0x30 31 0 * 4096)

theorem variantSeen_only (s : State) (q : QE) (h : HostStores) : s.variantSeen q h = { s with host := (s.variantSeen q h).host } := by
  unfold State.variantSeen
  split <;> rfl

theorem variantSeen_eq (s : State) (q : QE) (h : HostStores) :
    (if bit (fld q.img 0x14 31 0) 8 = true then s else s.hostStores h) = s.variantSeen q h := rfl
theorem variantSeen_ent (s : State) (q : QE) (h : HostStores) (i : Nat) : (s.variantSeen q h).ent i = s.ent i := by
  unfold State.ent; rw [variantSeen_only]
theorem variantSeen_lgc (s : State) (q : QE) (h : HostStores) (c : Nat) : (s.variantSeen q h).lgc c = s.lgc c := by
  unfold State.lgc; rw [variantSeen_only]

theorem variantBytes_length (s : State) (q : QE) (h : HostStores) : (s.variantBytes q h).length = fld q.img 0x30 31 0 * 4096 := by
  unfold State.variantBytes
  split <;> exact Mem.readBytes_length _ _ _

/-- The device once the variant is copied and in force. -/
def State.variantLoaded (s : State) (c : CtxId) (q : QE) (h : HostStores) : State :=
  ((s.variantSeen q h).hbmWrite (fld q.img 0x28 63 0) (s.variantBytes q h)).modLgc c.toNat fun x =>
    { x with variant := BitVec.ofNat 8 (fld q.img 0x14 7 0) }

theorem variantLoaded_keeps (s : State) (c : CtxId) (q : QE) (h : HostStores) :
    (s.variantLoaded c q h).census = (s.variantSeen q h).census ∧ (s.variantLoaded c q h).lgE = s.lgE ∧ (s.variantLoaded c q h).lgA = s.lgA := by
  have lgE : (s.variantLoaded c q h).lgE = (s.variantSeen q h).lgE := rfl
  have lgA : (s.variantLoaded c q h).lgA = (s.variantSeen q h).lgA := rfl
  refine ⟨rfl, ?_, ?_⟩
  · rw [lgE, variantSeen_only]
  · rw [lgA, variantSeen_only]

theorem variantLoaded_work (s : State) (c : CtxId) (q : QE) (h : HostStores) : LedgerWork (s.variantSeen q h) (s.variantLoaded c q h) :=
  (hbmWrite_encodes _ _ _).work.trans (modLgc_work _ c.toNat fun _ => rfl)

theorem variantLoaded_hbm (s : State) (c : CtxId) (q : QE) (h : HostStores) :
    (s.variantLoaded c q h).hbm = (s.variantSeen q h).hbm.writeBytes (fld q.img 0x28 63 0) (s.variantBytes q h) := rfl

section
variable {s : State} {c : CtxId} {q : QE} (head : s.seqHead c 9 = some q)
include head

theorem variantSeen_seqHead (h : HostStores) : (s.variantSeen q h).seqHead c 9 = some q := by
  rw [← head, variantSeen_only]
  rfl

variable (on : s.unitOn 3 = true)
include on

omit head in
theorem variantSeen_unitOn (h : HostStores) : (s.variantSeen q h).unitOn 3 = true := by
  rw [← on, variantSeen_only]
  rfl

theorem seqVariantLoad_inStep (ok : Bool) (h : HostStores) (busy : ∃ i ∈ (s.lgc c.toNat).ents, (s.ent i).inStep = true) :
    exec (.seqVariantLoad c ok h) s = .next ((s.variantSeen q h).faultCmd q 0x0303) := by
  have busy : ((s.variantSeen q h).lgc c.toNat).ents.any (fun i => ((s.variantSeen q h).ent i).inStep) = true := by
    rw [variantSeen_lgc]
    exact List.any_eq_true.2 (by simpa only [variantSeen_ent] using busy)
  show execSeqVariantLoad c ok h s = _
  unfold execSeqVariantLoad
  rw [head]
  dsimp only
  rw [variantSeen_eq, seqRun_enabled (variantSeen_seqHead head h) (variantSeen_unitOn on h)]
  rw [if_pos busy]

/-- Where nothing is in a step, the destination is sound and nothing waits, the source is read, or the load fails. -/
theorem seqVariantLoad_reads (ok : Bool) (h : HostStores) (idle : ∀ i ∈ (s.lgc c.toNat).ents, (s.ent i).inStep = false)
    (sound : s.hbmCheck c.toNat (fld q.img 0x28 63 0) (fld q.img 0x30 31 0 * 4096) true false = none)
    (open_ : s.guarded (fld q.img 0x28 63 0) (fld q.img 0x30 31 0 * 4096) = false)
    (source : bit (fld q.img 0x14 31 0) 8 = true ∨ s.boot.hostUp = true) :
    exec (.seqVariantLoad c ok h) s = .next (if ok = true then (s.variantLoaded c q h).seqDone q 0 0
      else (s.variantSeen q h).faultCmd q 0x0307) := by
  have idle : ((s.variantSeen q h).lgc c.toNat).ents.any (fun i => ((s.variantSeen q h).ent i).inStep) = false := by
    rw [variantSeen_lgc]
    exact List.any_eq_false.2 fun i mem => by rw [variantSeen_ent, idle i mem]; exact Bool.false_ne_true
  have allowed : (s.variantSeen q h).accessFault c.toNat [(fld q.img 0x28 63 0, fld q.img 0x30 31 0 * 4096, true, false)] = none := by
    rw [variantSeen_only]
    exact accessFault_none (List.forall_mem_singleton.2 sound)
  have goes : ((s.variantSeen q h).guarded (fld q.img 0x28 63 0) (fld q.img 0x30 31 0 * 4096)
      || (!bit (fld q.img 0x14 31 0) 8 && !(s.variantSeen q h).boot.hostUp)) = false := by
    have open_ : (s.variantSeen q h).guarded (fld q.img 0x28 63 0) (fld q.img 0x30 31 0 * 4096) = false := by
      rw [← open_, variantSeen_only]
      rfl
    have up : (s.variantSeen q h).boot.hostUp = s.boot.hostUp := by rw [variantSeen_only]
    rw [open_, up]
    rcases source with e | e <;> simp [e]
  show execSeqVariantLoad c ok h s = _
  unfold execSeqVariantLoad
  rw [head]
  dsimp only
  rw [variantSeen_eq, seqRun_enabled (variantSeen_seqHead head h) (variantSeen_unitOn on h)]
  rw [idle, if_neg Bool.false_ne_true, allowed]
  dsimp only
  rw [goes, if_neg Bool.false_ne_true]
  cases ok <;> rfl

end

end Sys2Proof.Machine
end

section
/-! SUPPORT. What the SEQ commands that complete leave of the tables, and the statement on them (O58; R194 to R211; logs 49, 50,
78 to 82). -/

namespace Sys2Proof.Machine

/-! ### OPEN and FREE (R195, R201, R205) -/

/-- Adapters and contexts of the Ledger change, then entries and a command's end. -/
theorem tables_frame {s u t : State} (only : u = { s with lgA := u.lgA, lgC := u.lgC })
    (frame : t = { u with lgE := t.lgE, sched := t.sched, ctxs := t.ctxs }) :
    t = { s with lgE := t.lgE, lgA := t.lgA, lgC := t.lgC, sched := t.sched, ctxs := t.ctxs } := by
  rw [frame, only]

theorem opened_leaves (s : State) (c k i : Nat) (en : Bool) (e : Entry) (q : QE) :
    let t := ((s.openRef c k en).modEnt i fun _ => e).seqDone q 0 0
    t.ent i = e ∧ SameBut State.ent i s t
      ∧ (if en = true then t.adp k = { s.adp k with cur := { (s.adp k).cur with refs := (s.adp k).cur.refs + 1 } }
          ∧ SameBut State.adp k s t else t.lgA = s.lgA)
      ∧ t.lgc c = { s.lgc c with opens := (s.lgc c).opens + 1 } ∧ SameBut State.lgc c s t
      ∧ SeqDone s t q 0 ∧ t = { s with lgE := t.lgE, lgA := t.lgA, lgC := t.lgC, sched := t.sched, ctxs := t.ctxs } := by
  have only := openRef_only s c k en
  have adp := openRef_adp s c k en
  have ent (j : Nat) : (s.openRef c k en).ent j = s.ent j := by unfold State.ent; rw [openRef_lgE]
  have lgc (j : Nat) : (s.openRef c k en).lgc j = (s.modLgc c fun x => { x with opens := x.opens + 1 }).lgc j := by
    unfold State.lgc; rw [openRef_lgC]
  generalize s.openRef c k en = u at *
  intro t
  obtain ⟨own, others, -, frame⟩ := modEnt_done u q 0 0 i fun _ => e
  have adps (j : Nat) : t.adp j = u.adp j := seqDone_adp _ q 0 0 j
  have lgcs (j : Nat) : t.lgc j = u.lgc j := seqDone_lgc _ q 0 0 j
  have lgA : t.lgA = u.lgA := seqDone_lgA _ q 0 0
  refine ⟨own, fun j other => (others j other).trans (ent j), ?_, ?_, fun j other => ?_, ?_, ?_⟩
  · cases en with
    | true => exact ⟨(adps k).trans adp.1, fun j other => (adps j).trans (adp.2 j other)⟩
    | false => exact lgA.trans adp
  · rw [lgcs, lgc, State.modLgc_same]
  · rw [lgcs, lgc, State.modLgc_ne _ _ other]
  · exact seqDone_done q 0 0 (by rw [only]; rfl) (by rw [only]; rfl)
  · exact tables_frame only frame

theorem freed_leaves (s : State) (q : QE) (i detail : Nat) (ok : LinksOk s q.ctx ((s.ent i).pages ++ (s.ent i).cpages)) :
    let e := s.ent i
    let l := e.pages ++ e.cpages
    let t := s.settle (s.freeEnt q.ctx.toNat i) q [] 0 detail
    t.ent i = {} ∧ SameBut State.ent i s t
      ∧ t.lgc q.ctx.toNat = { s.lgc q.ctx.toNat with free := l.foldl (fun f p => p :: f) (s.lgc q.ctx.toNat).free }
      ∧ SameBut State.lgc q.ctx.toNat s t
      ∧ (if e.holds = true then t.adp e.slot.toNat = (s.adp e.slot.toNat).release e.version ∧ SameBut State.adp e.slot.toNat s t
          else t.lgA = s.lgA)
      ∧ LinksBut s t q.ctx l ∧ SeqDone s t q 0 ∧ LedgerOnly s t := by
  intro e l t
  have freed : ∀ j ∈ s.linked (s.freeEnt q.ctx.toNat i) q.ctx.toNat [], j ∈ l := freeEnt_freed s q.ctx.toNat i
  have settled := settle_settled (freeEnt_work s q.ctx.toNat i) (ok.mono freed) 0 detail
  have only := freeEnt_only s q.ctx.toNat i
  have given := unrefEnt_releases s e
  have lgA : t.lgA = (s.unrefEnt e).lgA := settled.adps.trans (by rw [only])
  have adp (j : Nat) : t.adp j = (s.unrefEnt e).adp j := by unfold State.adp; rw [lgA]
  refine ⟨(settled.ent i).trans (freeEnt_ent s q.ctx.toNat i), fun j other => (settled.ent j).trans (freeEnt_ent_ne s q.ctx.toNat i j other),
    (settled.lgc _).trans (freeEnt_lgc s q.ctx.toNat i), fun j other => (settled.lgc j).trans (freeEnt_lgc_ne s q.ctx.toNat i j other),
    ?_, settled.linksBut (by rw [only]) freed, settled.done, settled.ledgerOnly (by rw [only])⟩
  by_cases holds : e.holds = true
  · rw [if_pos holds] at given ⊢
    exact ⟨(adp _).trans given.1, fun j other => (adp j).trans (given.2 j other)⟩
  · rw [if_neg holds] at given ⊢
    exact lgA.trans given

/-! ### PAUSE and RESUME (R207, R208) -/

theorem linked_singleton (s w : State) (c i : Nat) : s.linked w c [i] = (w.ent i).pages ++ (w.ent i).cpages ++ s.freed w c := by
  unfold State.linked
  rw [List.map_singleton, List.flatten_singleton]

/-- An entry paused with the pages it had; the links that were written anew read as its list has them. -/
theorem paused_leaves (s : State) (q : QE) (i code detail : Nat) (ok : LinksOk s q.ctx ((s.ent i).pages ++ (s.ent i).cpages)) :
    let e := s.ent i
    let l := e.pages ++ e.cpages
    let t := s.settle (s.modEnt i .paused) q [i] code detail
    t.ent i = e.paused ∧ SameBut State.ent i s t ∧ SeqDone s t q code ∧ LedgerOnly s t ∧ t.lgA = s.lgA ∧ t.lgC = s.lgC
      ∧ LinksBut s t q.ctx l
      ∧ (l.Nodup → (∀ n ∈ l, n < 2 ^ 24) →
        ∀ x ∈ e.links, t.hbm.readN ((s.lgc q.ctx.toNat).link x.1) 8 = x.2.1 + x.2.2 * 2 ^ 32) := by
  intro e l t
  have own : (s.modEnt i .paused).ent i = e.paused := State.modEnt_same _ _ _
  have kept : s.freed (s.modEnt i .paused) q.ctx.toNat = [] := freed_eq_nil fun _ mem => mem
  have same : s.linked (s.modEnt i .paused) q.ctx.toNat [i] = l := by
    rw [linked_singleton, own, kept, List.append_nil]
    rfl
  have ok : LinksOk s q.ctx (s.linked (s.modEnt i .paused) q.ctx.toNat [i]) := same ▸ ok
  have work := modEnt_work s i .paused
  have settled := settle_settled work ok code detail
  refine ⟨(settled.ent i).trans own, fun j other => (settled.ent j).trans (State.modEnt_ne _ _ other), settled.done, settled.ledgerOnly rfl,
    settled.adps, settled.ctxs, settled.linksBut rfl fun j mem => same ▸ mem, fun apart small x mem => ?_⟩
  have reads := relinked_reads (c := q.ctx.toNat) (i := i) kept (by rw [own]; exact apart) (by rw [own]; exact small) (x := x) (by rw [own]; exact mem)
  have ends : t = (s.relinked (s.modEnt i .paused) q.ctx.toNat [i]).seqDone q code detail := settle_of_ok work ok code detail
  rw [ends, seqDone_hbm]
  exact reads

/-- An entry paused with its old pages compressed. -/
theorem squeezed_leaves {s u : State} (encodes : Encodes s u) (q : QE) (i n detail : Nat) (z : Squeeze)
    (ok : LinksOk s q.ctx (s.linked ((u.modLgc q.ctx.toNat fun x => { x with free := z.free }).modEnt i (.squeezedTo n z)) q.ctx.toNat [i])) :
    let t := s.settle ((u.modLgc q.ctx.toNat fun x => { x with free := z.free }).modEnt i (.squeezedTo n z)) q [i] 0 detail
    t.ent i = (s.ent i).squeezedTo n z ∧ SameBut State.ent i s t
      ∧ t.lgc q.ctx.toNat = { s.lgc q.ctx.toNat with free := z.free } ∧ SameBut State.lgc q.ctx.toNat s t
      ∧ SeqDone s t q 0 ∧ t.lgA = s.lgA ∧ LedgerOnly { s with census := t.census } t := by
  have settled := settle_settled (encodes.work.tables q.ctx.toNat i (f := fun x => { x with free := z.free }) (.squeezedTo n z) fun _ => rfl) ok 0 detail
  have pages (j : Nat) : ((u.modLgc q.ctx.toNat fun x => { x with free := z.free }).modEnt i (.squeezedTo n z)).lgc j
      = (u.modLgc q.ctx.toNat fun x => { x with free := z.free }).lgc j := rfl
  refine ⟨?_, fun j other => ?_, ?_, fun j other => ?_, settled.done, settled.adps.trans encodes.lgA, settled.only⟩
  · rw [settled.ent, State.modEnt_same, ← encodes.ent]
    rfl
  · rw [settled.ent, State.modEnt_ne _ _ other, ← encodes.ent]
    rfl
  · rw [settled.lgc, ← encodes.lgc, pages, State.modLgc_same]
  · rw [settled.lgc, ← encodes.lgc, pages, State.modLgc_ne _ _ other]

/-- An entry resumed with its compressed pages expanded. -/
theorem repaged_leaves (s : State) (q : QE) (i : Nat)
    (ok : LinksOk s q.ctx ((s.lgc q.ctx.toNat).free.take (s.ent i).cold ++ (s.ent i).pages ++ (s.ent i).cpages)) :
    let e := s.ent i
    let x := s.lgc q.ctx.toNat
    let t := s.settle (s.repaged q.ctx.toNat i) q [i] 0 0
    t.ent i = { e with state := 1, pages := x.free.take e.cold ++ e.pages, cpages := [], cold := 0, compressed := false }
      ∧ SameBut State.ent i s t
      ∧ t.lgc q.ctx.toNat = { x with free := e.cpages.foldl (fun f p => p :: f) (x.free.drop e.cold) } ∧ SameBut State.lgc q.ctx.toNat s t
      ∧ SeqDone s t q 0 ∧ LedgerOnly s t ∧ t.lgA = s.lgA := by
  have settled := settle_settled (repaged_work s q.ctx.toNat i) (ok.mono (repaged_linked s q.ctx.toNat i)) 0 0
  exact ⟨(settled.ent i).trans (repaged_ent s _ i), fun j other => (settled.ent j).trans (repaged_ent_ne s _ i j other),
    (settled.lgc _).trans (repaged_lgc s _ i), fun j other => (settled.lgc j).trans (repaged_lgc_ne s _ i j other),
    settled.done, settled.ledgerOnly (repaged_census s _ i), settled.adps.trans (repaged_lgA s _ i)⟩

/-! ### COMMIT (R204, R205) -/

theorem committed_leaves {s w : State} (work : LedgerWork s w) (q : QE) (m detail : Nat) (rs : List MRow)
    (ok : LinksOk s q.ctx ((rs.map fun r => (w.ent r.entry).pages ++ (w.ent r.entry).cpages).flatten ++ s.freed w q.ctx.toNat)) :
    let t := s.settle (w.manClosed q.ctx.toNat m) q (rs.map (·.entry)) 0 detail
    t.lgE = w.lgE ∧ t.lgA = w.lgA ∧ (t.lgc q.ctx.toNat).man m = none ∧ (t.lgc q.ctx.toNat).free = (w.lgc q.ctx.toNat).free
      ∧ SeqDone s t q 0 ∧ LedgerOnly { s with census := t.census } t := by
  rw [← manClosed_linked s w q.ctx.toNat m] at ok
  have settled := settle_settled (manClosed_work work q.ctx.toNat m) ok 0 detail
  obtain ⟨man, free⟩ := manClosed_lgc w q.ctx.toNat m
  refine ⟨settled.ents, settled.adps, ?_, ?_, settled.done, settled.only⟩
  · rw [settled.lgc]; exact man
  · rw [settled.lgc]; exact free

/-- The pages whose links the COMMIT of one row writes are the entry's own. -/
theorem rowApplied_linked (s : State) (phase : Nat) (r : MRow) (v : Result) (c m : Nat) :
    ∀ j ∈ s.linked ((s.rowApplied phase r v c).manClosed c m) c [r.entry], j ∈ (s.ent r.entry).pages ++ (s.ent r.entry).cpages := by
  intro j mem
  obtain ⟨-, cpages, -, -⟩ := (s.ent r.entry).apply_keeps phase r v
  rcases List.mem_append.1 (linked_singleton _ _ _ _ ▸ mem) with mem | mem
  · have own : ((s.rowApplied phase r v c).manClosed c m).ent r.entry = _ := rowApplied_ent s phase r v c
    rw [own, cpages] at mem
    exact (List.mem_append.1 mem).elim (fun mem => List.mem_append_left _ (List.mem_of_mem_take mem)) fun mem => List.mem_append_right _ mem
  · obtain ⟨mem, new⟩ := mem_freed.1 mem
    rw [(manClosed_lgc _ _ _).2, rowApplied_free] at mem
    exact List.mem_append_left _ (List.mem_of_mem_drop ((mem_foldl_cons.1 mem).resolve_right new))

theorem rowApplied_leaves (s : State) (q : QE) (phase : Nat) (r : MRow) (v : Result) (m detail : Nat)
    (work : LedgerWork s (s.rowApplied phase r v q.ctx.toNat)) (ok : LinksOk s q.ctx ((s.ent r.entry).pages ++ (s.ent r.entry).cpages)) :
    let e := s.ent r.entry
    let e' := e.apply phase r v
    let k := e'.keep (s.lgc q.ctx.toNat).tpp
    let t := s.settle ((s.rowApplied phase r v q.ctx.toNat).manClosed q.ctx.toNat m) q [r.entry] 0 detail
    t.ent r.entry = { e' with pages := e.pages.take k } ∧ SameBut State.ent r.entry s t
      ∧ (t.lgc q.ctx.toNat).free = (e.pages.drop k).foldl (fun f p => p :: f) (s.lgc q.ctx.toNat).free ∧ (t.lgc q.ctx.toNat).man m = none
      ∧ (if e'.state = 6 ∧ e.holds = true then t.adp e.slot.toNat = (s.adp e.slot.toNat).release e.version else t.lgA = s.lgA)
      ∧ LinksBut s t q.ctx (e.pages ++ e.cpages) ∧ SeqDone s t q 0 ∧ LedgerOnly s t := by
  intro e e' k t
  have sub := rowApplied_linked s phase r v q.ctx.toNat m
  have settled := settle_settled (manClosed_work work q.ctx.toNat m) (ok.mono sub) 0 detail
  obtain ⟨hbm, census⟩ := rowApplied_bytes s phase r v q.ctx.toNat
  obtain ⟨man, free⟩ := manClosed_lgc (s.rowApplied phase r v q.ctx.toNat) q.ctx.toNat m
  have given := applyRow_adp s phase r v
  have lgA : t.lgA = (s.applyRow phase r v).lgA := by rw [settled.adps, manClosed_lgA, rowApplied_lgA]
  have adp : t.adp e.slot.toNat = (s.applyRow phase r v).adp e.slot.toNat := by unfold State.adp; rw [lgA]
  refine ⟨?_, fun j other => ?_, ?_, ?_, ?_, settled.linksBut (by rw [manClosed_hbm, hbm]) sub, settled.done, settled.ledgerOnly (by rw [manClosed_census, census])⟩
  · rw [settled.ent, manClosed_ent]; exact rowApplied_ent s phase r v _
  · rw [settled.ent, manClosed_ent]; exact rowApplied_ent_ne s phase r v _ j other
  · rw [settled.lgc, free]; exact rowApplied_free s phase r v _
  · rw [settled.lgc]; exact man
  · rw [adp, lgA]; exact given

/-! ### VARIANT_LOAD (R211) -/

theorem variantLoaded_leaves (s : State) (c : CtxId) (q : QE) (h : HostStores) :
    let u := s.variantSeen q h
    let d := fld q.img 0x28 63 0
    let n := fld q.img 0x30 31 0 * 4096
    let t := (s.variantLoaded c q h).seqDone q 0 0
    t.hbm.readBytes d n = s.variantBytes q h ∧ BytesBut d n u.hbm t.hbm
      ∧ t.lgc c.toNat = { s.lgc c.toNat with variant := BitVec.ofNat 8 (fld q.img 0x14 7 0) } ∧ SameBut State.lgc c.toNat s t
      ∧ SeqDone u t q 0 ∧ LedgerOnly u t ∧ t.lgE = s.lgE ∧ t.lgA = s.lgA := by
  intro u d n t
  have wrote : t.hbm = u.hbm.writeBytes d (s.variantBytes q h) := (seqDone_hbm _ q 0 0).trans (variantLoaded_hbm s c q h)
  have lgc (j : Nat) : t.lgc j = (u.modLgc c.toNat fun x => { x with variant := BitVec.ofNat 8 (fld q.img 0x14 7 0) }).lgc j :=
    seqDone_lgc _ q 0 0 j
  obtain ⟨census, lgE, lgA⟩ := variantLoaded_keeps s c q h
  have length : (s.variantBytes q h).length = n := variantBytes_length s q h
  have work := variantLoaded_work s c q h
  refine ⟨?_, ?_, ?_, fun j other => ?_, seqDone_done q 0 0 work.ctxs work.sched, ?_, (seqDone_lgE _ q 0 0).trans lgE, (seqDone_lgA _ q 0 0).trans lgA⟩
  · rw [wrote, ← length]
    exact Mem.readBytes_writeBytes u.hbm d (s.variantBytes q h)
  · rw [wrote, ← length]
    exact writeBytes_but u.hbm d (s.variantBytes q h)
  · rw [lgc, State.modLgc_same, variantSeen_lgc]
  · rw [lgc, State.modLgc_ne _ _ other, variantSeen_lgc]
  · have only := work.ledgerOnly (seqDone_only _ q 0 0)
    rw [seqDone_census, census] at only
    exact only

/-! ### The statement -/

/-- Settles O58: the refusals first, then each command's effect on the tables and on the links of its pages. -/
theorem sequenceCommandsKeepTheTable : Obligations.SequenceCommandsKeepTheTable := by
  unfold Obligations.SequenceCommandsKeepTheTable
  refine ⟨?disabled, ?refused, ?open_, ?set, ?free, ?pause, ?resume, ?gather, ?commit, ?apply, ?adapter, ?variant⟩
  case disabled =>
    intro c q s op mem head off
    obtain ⟨f, run⟩ := seq_runs s mem
    exact ⟨_, run.trans (seqRun_disabled head f off), seqHead_faults head _⟩
  case refused =>
    intro c q s op mem head on i st
    obtain ⟨f, run, rejects⟩ := seqEntry_runs s mem
    refine ⟨fun out => ⟨_, run.trans (seqEnt_outside head on f out), seqHead_faults head _⟩, fun inside refused => ?_⟩
    refine ⟨_, (run.trans (seqEnt_inside head on f inside)).trans ?_, seqHead_faults head 0x0303⟩
    rw [rejects _ _ _ refused]
  case open_ =>
    intro c q s head on i k en inside free slot
    exact ⟨_, seqOpen_opens head on inside free slot, opened_leaves s c.toNat k i en _ q⟩
  case set =>
    intro c q s head on i inside used
    exact ⟨_, seqSet_sets head on inside used, modEnt_done _ _ _ _ _ _⟩
  case free =>
    intro c q s head on i e l inside used
    refine ⟨fun inStep => ⟨_, seqFree_pends head on inside used inStep, modEnt_done _ _ _ _ _ _⟩, fun idle ok => ?_⟩
    have ctx := seqHead_ctx head
    subst ctx
    exact ⟨_, seqFree_frees head on inside used idle, freed_leaves s q i _ ok⟩
  case pause =>
    intro c q s head on i e x exact_ p inside used
    have ctx := seqHead_ctx head
    subst ctx
    refine ⟨fun busy => ⟨_, seqPause_pends head on inside used busy, modEnt_done _ _ _ _ _ _⟩, fun idle ready ok plain => ?_,
      fun w idle ready squeezing small room pause ok => ?_⟩
    · have pause : s.pauseEnt q.ctx.toNat i exact_ = .done (s.modEnt i .paused) (!exact_) := by
        rcases h : exact_ with _ | _
        · exact pauseEnt_kept (plain.resolve_left (h ▸ Bool.false_ne_true))
        · exact pauseEnt_exact
      have run := seqPause_pauses head on inside idle ready pause
      have code : (if (!exact_) = true then 2 else 0) = if exact_ = true then 0 else 2 := by cases exact_ <;> rfl
      rw [code] at run
      exact ⟨_, run, paused_leaves s q i _ _ ok⟩
    · have run := seqPause_pauses head on inside idle ready ((congrArg (s.pauseEnt q.ctx.toNat i) squeezing).trans pause)
      obtain ⟨u, encodes, rfl⟩ := pauseEnt_squeezes (fun tight => tight.elim (Nat.not_lt.2 small) (Nat.not_lt.2 room)) pause
      rw [← linked_singleton] at ok
      exact ⟨_, run, squeezed_leaves encodes q i _ _ _ ok⟩
  case resume =>
    intro c q s head on i e x new page inside paused
    have ctx := seqHead_ctx head
    subst ctx
    refine ⟨fun plain => ⟨_, seqResume_exact head on inside paused plain, modEnt_done _ _ _ _ _ _⟩, fun small short => ?_,
      fun small room words reads writes readyWords readyPages ok => ?_⟩
    · exact ⟨_, seqResume_waits head on inside paused small short, seqDone_done q 3 0 rfl rfl, seqDone_only s q 3 0⟩
    · exact ⟨_, seqResume_expands head on inside paused small room (fun j mem => ⟨words j mem, readyWords j mem⟩)
        (fun j mem => ⟨reads j mem, readyPages j mem⟩) writes, repaged_leaves s q i ok⟩
  case gather =>
    intro c q s head on g x p bs l
    refine ⟨fun out => ⟨_, seqGather_outstanding head on out, seqHead_faults head _⟩, fun free addr open_ words ok late skip => ?_⟩
    obtain ⟨picked, among⟩ := pick_picked s c g
    have links : s.settleStop (s.gathered c g) q (p.rows.map fun r => r.1.entry) = none := by
      have ctx := seqHead_ctx head
      subst ctx
      exact settleStop_none (gathered_iLink s q.ctx g) (by rw [gathered_linked]; exact ok)
    have run := seqGather_gathers head on free addr open_ words links late skip
    obtain ⟨man, ents, adps, pool, others, bytes, done, frame⟩ := gathered_leaves head g (p.rows.length + p.tokens * 2 ^ 16)
    have ent (i : Nat) : (s.settled (s.gathered c g) q (p.rows.map fun r => r.1.entry) 0 (p.rows.length + p.tokens * 2 ^ 16)).ent i
        = p.s.ent i := by unfold State.ent; rw [ents]
    refine ⟨_, run, man, ents, adps, pool, others, picked.rowMax, picked.budget, picked.tokens, fun r mem => ?_, fun i other => ?_,
      bytes, done, frame⟩
    · obtain ⟨some_, inStep, preState, pages⟩ := picked.row r mem
      obtain ⟨eligible, variant⟩ := mem_candidates.1 (among r mem)
      rw [ent]
      exact ⟨eligible, variant, some_, inStep, preState, pages⟩
    · rw [ent]
      exact picked.rest i other
  case commit =>
    intro c q s head on m a x
    have ctx := seqHead_ctx head
    subst ctx
    refine ⟨fun free => ⟨_, seqCommit_unknown head on free, seqHead_faults head _⟩, fun man found vector ready =>
      ⟨fun bad => ⟨_, seqCommit_refuses head on found vector ready bad, seqHead_faults head _⟩, fun w b sound work ok => ?_, fun r one sound => ?_⟩⟩
    · exact ⟨_, seqCommit_commits head on found vector ready sound work, committed_leaves (committed_work work) q m _ _ ok⟩
    · intro e e' k free pause ok
      have work := committed_one (c := q.ctx.toNat) (a := a) one free pause
      have run := seqCommit_commits head on found vector ready sound work
      rw [one] at run
      exact ⟨_, run, rowApplied_leaves s q _ r _ m _ (committed_work work) ok⟩
  case apply =>
    intro e phase r v
    refine ⟨Entry.apply_drop, fun keep zero prompt below => ?_, fun keep zero prompt below => ?_, fun keep one below => ?_,
      fun keep two below => ?_, fun keep reached => ?_⟩
    · subst zero; exact Entry.apply_prompt keep prompt below
    · subst zero; exact Entry.apply_token keep prompt below
    · subst one; exact Entry.apply_draft keep below
    · subst two; exact Entry.apply_check keep below
    · obtain ⟨length, trunc, state, inStep⟩ := Entry.apply_truncates keep reached
      exact ⟨length, trunc, state, inStep, (e.apply_keeps phase r v).1⟩
  case adapter =>
    intro c q s head on k rank addr
    by_cases sound : (s.lgc c.toNat).hasAdp k = true ∧ ¬(rank = 0 ∧ addr ≠ 0) ∧ rank ≤ 128
    · rw [if_pos sound]
      refine ⟨fun busy => ?_, fun empty => ?_⟩
      · refine ⟨_, (seqAdapterLoad_sound head on sound).trans (congrArg _ (if_pos busy)), seqDone_done q 1 0 rfl rfl, seqDone_only s q 1 0⟩
      · refine ⟨_, (seqAdapterLoad_sound head on sound).trans (congrArg _ (if_neg (not_not_intro empty))), ?_, fun j other => ?_,
          seqDone_done q 0 0 rfl rfl, ?_⟩
        · rw [seqDone_adp, State.modAdp_same]; rfl
        · rw [seqDone_adp, State.modAdp_ne _ _ other]
        · rw [seqDone_lgA]; exact seqDone_only _ q 0 0
    · rw [if_neg sound]
      exact ⟨_, seqAdapterLoad_refused head on sound, seqHead_faults head _⟩
  case variant =>
    intro c ok h q s flash u d n src head on
    refine ⟨fun busy => ⟨_, seqVariantLoad_inStep head on ok h busy, seqHead_faults (variantSeen_seqHead head h) _⟩, fun idle sound open_ source => ?_⟩
    have run := seqVariantLoad_reads head on ok h idle sound open_ source
    refine ⟨fun fails => ⟨_, run.trans (by rw [fails]; rfl), seqHead_faults (variantSeen_seqHead head h) _⟩, fun reads => ?_⟩
    rw [reads, if_pos rfl] at run
    exact ⟨_, by rw [reads]; exact run, variantLoaded_leaves s c q h⟩

end Sys2Proof.Machine
end
